-- ==== Sys2Proof/Word.lean ====
section
/-!
DEFINITION. The word types of the LV7412 and the total reading and writing of a list by position.
-/
namespace Sys2Proof

/-- A byte of any memory. -/
abbrev Byte := BitVec 8

/-- A 32-bit pattern: an instruction word, a sub-element of 32 bits, an F32. -/
abbrev Half := BitVec 32

/-- A 64-bit pattern: a vector, uniform or bracket register, an engine address. -/
abbrev Word := BitVec 64

/-- A device virtual address held in a program counter. -/
abbrev Addr := BitVec 64

/-- Position `i` of a list that stands for a bank of like things; `d` where the list is shorter. -/
def rowGet {α : Type} (d : α) : List α → Nat → α
  | [], _ => d
  | x :: _, 0 => x
  | _ :: t, i + 1 => rowGet d t i

/-- The bank with position `i` replaced; a shorter list is filled up with `d`. -/
def rowPut {α : Type} (d : α) : List α → Nat → α → List α
  | [], 0, y => [y]
  | [], i + 1, y => d :: rowPut d [] i y
  | _ :: t, 0, y => y :: t
  | x :: t, i + 1, y => x :: rowPut d t i y

/-- The bank with `f` applied at position `i`. -/
def rowMod {α : Type} (d : α) (l : List α) (i : Nat) (f : α → α) : List α :=
  rowPut d l i (f (rowGet d l i))

/-- The list of the numbers below `n`, ascending. -/
def upTo : Nat → List Nat
  | 0 => []
  | n + 1 => upTo n ++ [n]

end Sys2Proof
end

