-- ==== Sys2Proof/Config.lean ====
section
/-!
DEFINITION. What the module fixes (figures of R6 and limits of their own rules) and the free values: constants with no body,
so that nothing can be proved about the value one of them takes (assumption 1: DESIGN CHOICE).
-/
namespace Sys2Proof.Config

/-- A value the manual leaves open, for each number drawn from `State.fresh` (assumption 1: DESIGN CHOICE). -/
opaque freeWord : Nat → Word

/-- A byte the manual leaves open (assumption 1: DESIGN CHOICE). -/
opaque freeByte : Nat → Byte

/-- A choice of two that the manual leaves open (assumption 1: DESIGN CHOICE). -/
opaque freeBit : Nat → Bool

/-- PRODPC of a POISON that no instruction's result caused and for which R392 gives no value, for each sequence number of the
partition's trap records (assumption 11: DESIGN CHOICE). -/
opaque freeProducer : Nat → Word

/-- The Falcon-1024 signature, 1,280 bytes in padded format, that the security engine's identity key gives a message
(R360, R362): the key never leaves the engine, so the value is free (assumption 6: DESIGN CHOICE). -/
opaque falconSign : List Byte → List Byte

/-- Whether the key fused at manufacture accepts a firmware image (R398): free, for the same reason (assumption 6: DESIGN CHOICE). -/
opaque falconAccepts : List Byte → Bool

/-- The colour of a line of the staging SRAM: a fixed hash of its address, which the manual does not give (R340; assumption 1: DESIGN
CHOICE). -/
opaque stagingColour : Nat → BitVec 4

/-- The line of the staging SRAM that a transfer is given (R340; assumption 1: DESIGN CHOICE). -/
opaque stagingLine : Nat → Nat

/-- The HBM stack that holds an address of device memory: the manual does not give the interleave (R396; assumption 1: DESIGN CHOICE). -/
opaque hbmStack : Nat → Nat

/-- Bytes of scratchpad of a core: 3 MiB (R6). -/
def scratchBytes : Nat := 3145728
/-- Bytes of operand buffer of a core: 1 MiB (R6). -/
def operandBytes : Nat := 1048576
/-- Cores of a full module: 48 clusters of 4 (R6). -/
def maxClusters : Nat := 48
/-- Bytes of device memory of a pseudo-channel: a stack of 64 GB has 64 (R6), and a GB of memory is 2³⁰ bytes (assumption 39: PRESUMED). -/
def channelBytes : Nat := 1073741824
/-- Enabled pseudo-channels of a full module: 64 for each of twelve stacks (R6). -/
def maxChannels : Nat := 768
/-- Sets of a core's tag table (R6). -/
def tagSets : Nat := 256
/-- Accumulator banks of a core (R6). -/
def coreBanks : Nat := 8
/-- Gang slots of a quadrant: 16 resident, of which at most 8 ACTIVE (R6, R210). -/
def quadSlots : Nat := 16
/-- ACTIVE gangs of a quadrant at most (R210). -/
def quadActive : Nat := 8
/-- Access sidecars of a core (R7). -/
def coreSidecars : Nat := 8
/-- Reservation records of a core (R149). -/
def coreRecords : Nat := 64
/-- Bytes of a chunk of a copy entry (R299). -/
def chunkBytes : Nat := 4096
/-- The watchdog's default limit in cycles (R247). -/
def watchdogDefault : Nat := 16777216
/-- Cycles in a tick of pod time (R3). -/
def tickCycles : Nat := 10
/-- Cycles in a microsecond at 1.25 GHz (R6). -/
def cyclesPerMicrosecond : Nat := 1250
/-- The default deadline of a SAVE in cycles: 200 µs (R383). -/
def saveDefault : Nat := 250000
/-- Cycles a log record may be held (R376). -/
def logHold : Nat := 256
/-- Entries of the suspect record (R326). -/
def suspectEntries : Nat := 4096
/-- Sequence numbers a front end remembers (R197). -/
def seqWindow : Nat := 4096
/-- Device-launched grids not yet retired that a front end holds at most (R201). -/
def launchLimit : Nat := 4096

end Sys2Proof.Config
end

