-- ==== Sys2Proof/Syntax.lean ====
section
/-!
DEFINITION. The syntax: one constructor of `Instr` for each row of the table of operations and events. The first 144
constructors that have bits are instruction words (formats of R61); the others are steps of the module's units, of its
engines and of the resident kernel, with what the outside supplies as their arguments.
-/
namespace Sys2Proof

/-- A field that names v0 to v63 (R62). -/
abbrev VNum := BitVec 6
/-- A legal field that names k0 to k31 (R62). -/
abbrev KNum := BitVec 5
/-- A field that names p0 to p7 (R62). -/
abbrev PNum := BitVec 3
/-- A field that names an accumulator bank (R62). -/
abbrev BankNum := BitVec 3

/-- Element types of GMODE.ET and of CVT's source, codes 0 to 13 (R66). -/
inductive ElemType where
  | i8 | n8 | i16 | n16 | i32 | n32 | i64 | n64 | f16 | bf16 | f32 | f64 | e4m3 | e5m2
  deriving DecidableEq, Repr

/-- Conditions of KBR, codes 0 to 6 (R71). -/
inductive KbrCond where
  | eq | ne | lt | ge | ltu | geu | always
  deriving DecidableEq, Repr

/-- Conditions of CMP (R74). -/
inductive CmpCond where
  | eq | ne | lt | le | gt | ge | ord | equ | neu | ltu | leu | gtu | geu | uno
  deriving DecidableEq, Repr

/-- Conditions of CMPI, codes 0 to 5 (R76). -/
inductive CmpiCond where
  | eq | ne | lt | le | gt | ge
  deriving DecidableEq, Repr

/-- Operations of BITS (R73). -/
inductive BitsOp where
  | popc | clz | ctz | brev
  deriving DecidableEq, Repr

/-- Block lengths of QNT and of MMA's A operand: 16, 32, 64 (R77, R84). -/
inductive BlockLen where
  | l16 | l32 | l64
  deriving DecidableEq, Repr

/-- Modes of RND (R77). -/
inductive RndMode where
  | floor | ceil | trunc | rint
  deriving DecidableEq, Repr

/-- Operations of REDUCE and SCAN (R78). -/
inductive CombineOp where
  | add | min | max | and | or | xor
  deriving DecidableEq, Repr

/-- Operations of ATOM (R80). -/
inductive AtomOp where
  | add | min | max | and | or | xor | xchg
  deriving DecidableEq, Repr

/-- Widths of LD and ST (R80). -/
inductive MemWidth where
  | b8 | h16 | w32 | d64
  deriving DecidableEq, Repr

/-- Scopes 0 to 4 (R255). -/
inductive Scope where
  | gang | team | cluster | device | pod
  deriving DecidableEq, Repr

/-- Counters of WAITC (R82). -/
inductive CounterName where
  | olc | osc | enc
  deriving DecidableEq, Repr

/-- What a reply or an acknowledgement brings back for one lane of a remote or stamped operation (R25, R304, R317, R320). -/
inductive RemAns where
  /-- The value of an RLD, or the old value of an RAADD or RCAS. -/
  | value (w : Word)
  /-- Value and status of an LDAT. -/
  | pair (w status : Word)
  /-- A normal acknowledgement. -/
  | ack
  /-- An RLATE acknowledgement with the stamp. -/
  | rlate (stamp : Word)
  /-- A fault or a refusal, with the code of R369. -/
  | fault (code : Byte)
  deriving DecidableEq, Repr

/-- Kinds of a request through a window (R347, R354); `rstf` is a flagged RST (R305), and `sync` a front end's increment of a DONE sync
word (R203). -/
inductive ReqKind where
  | rld | rst | rstf | raadd | rcas | stmp | ldat | engRead | engWrite | sync
  deriving DecidableEq, Repr

/-- A request of another module that arrives at a window of this one (R354). -/
structure ExtReq where
  src : BitVec 21
  id : Nat
  window : BitVec 7
  key : Word
  kind : ReqKind
  off : Nat
  size : Nat
  val : Word
  cmp : Word
  data : List Byte
  deriving DecidableEq, Repr

/-- A request at its home: a lane of an operation of this module, or a request of another module. -/
inductive HomeReq where
  | own (op lane : Nat)
  | ext (r : ExtReq)
  deriving DecidableEq, Repr

/-- A stamped release, a stamped read or a suspect mark at its home: of this module's own operation, or of another module,
named by the source and its identifier. -/
inductive HomeRef where
  | own (op lane : Nat)
  | ext (src : BitVec 21) (id : Nat)
  deriving DecidableEq, Repr

/-- The answer of another module to one request of a copy chunk, of at most 256 bytes (R354, R301). -/
inductive PodAns where
  /-- Bytes read, and whether the page was FAR there. -/
  | data (bs : List Byte) (far : Bool)
  /-- The bytes were written, and whether the page was FAR there. -/
  | done (far : Bool)
  /-- A refusal (7) or a fault (5, 6). -/
  | fault (code : Byte)
  deriving DecidableEq, Repr

/-- A successful or failed time transfer on one fabric link (R310). -/
structure LinkTransfer where
  link : Nat
  ok : Bool
  /-- This module's new estimate of pod time, from the neighbour's estimate and the measured path. -/
  est : Nat
  /-- The neighbour's uncertainty plus the transfer's asymmetry bound. -/
  eps : Nat
  /-- The neighbour's interval at the same instant. -/
  te : Nat
  tl : Nat
  /-- The neighbour reports that it has itself lost the root (R312). -/
  lost : Bool
  deriving DecidableEq, Repr

/-- Where the resident kernel stores. -/
inductive KSpace where
  | kernel | device | far
  deriving DecidableEq, Repr

/-- One store of 8 bytes by the resident kernel, made before the command that carries it. -/
structure KStore where
  space : KSpace
  addr : Nat
  val : Word
  deriving DecidableEq, Repr

/-- State of a context that context-state access reaches (R372); `gang` 16 names the sidecar where it has the register. -/
inductive CtxItem where
  | vreg (gang lane r : Nat)
  | pred (gang lane r : Nat)
  | bracket (gang lane r : Nat)
  | invst (gang lane : Nat)
  | kreg (gang r : Nat)
  | lcount (gang r : Nat)
  | gmode (gang : Nat)
  | pc (gang slice : Nat)
  | masks (gang slice : Nat)
  | rc (gang slice : Nat)
  | recStack (gang slice : Nat)
  | retStack (gang slice : Nat)
  | levels (gang : Nat)
  | counter (gang : Nat) (c : CounterName)
  | watchdog (gang : Nat)
  | window (off : Nat)
  | record (r : Nat)
  | bank (b idx : Nat)
  | tagWay (set way : Nat)
  | queue (q : Nat)
  deriving DecidableEq, Repr

/-- What context-state access writes: a value, and for a vector register its full bit and poison mark; for a queue, its
entries (R372). -/
structure CtxValue where
  val : Word
  full : Bool
  poison : Bool
  entries : List (List Word)
  deriving DecidableEq, Repr

/-- What a scrub finds in a word (R394). -/
inductive ScrubFind where
  | clean | corrected | uncorrectable
  deriving DecidableEq, Repr

/-- Stores a background scrub reads (R394). -/
inductive SramStore where
  | scratchpad | operand | staging
  deriving DecidableEq, Repr

/-- One ageing monitor's reading (R397). -/
structure HealthSample where
  monitor : Byte
  unit : Byte
  value : Half
  limit : Half
  /-- Change of VALUE over the last 30 days. -/
  change30 : Int
  uncorrectable : Word
  deriving DecidableEq, Repr

/-- A core's temperature (R214). -/
structure CoreHeat where
  core : Nat
  temp : Nat
  deriving DecidableEq, Repr

/-- What the placement unit is told of a hot core (R214): its temperature, the partition's cores from the coolest on, and the area that the
SAVE of its team writes. -/
structure HeatReport where
  temp : Nat
  coolest : List Nat
  area : Nat
  deriving DecidableEq, Repr

/-- Why the resident kernel is restarted (R395). -/
inductive RestartCause where
  | memoryError | noAnswer
  deriving DecidableEq, Repr

/-- The instructions: one constructor for each row of spec/opcode_table.json. -/
inductive Instr where
  -- control words (R71)
  | nop
  | exit
  | bra (off : BitVec 20)
  | brc (p : PNum) (n : Bool) (off : BitVec 20)
  | rcv (off : BitVec 20)
  | jmpi (a : VNum) (wa : Bool)
  | call (off : BitVec 20)
  | calli (a : VNum) (wa : Bool)
  | ret
  | retr (a : VNum) (wa : Bool)
  | loop (c : BitVec 2) (ka : KNum) (words : BitVec 8)
  | lexit
  | regang (mask : BitVec 8)
  | kbr (ka kb : KNum) (cc : KbrCond) (off : BitVec 9)
  | bkpt (code : BitVec 24)
  -- mode and system words (R72)
  | setmode (ka : KNum)
  | setmk (ka kb : KNum)
  | getmode (kd : KNum)
  | csrr (d : BitVec 6) (csr : BitVec 12)
  | csrw (a : BitVec 6) (csr : BitVec 12)
  | invstSetState (st : BitVec 9)
  | invstLoadLo (n : BitVec 2) (x : Half)
  | invstLoadHi (n : BitVec 2) (x : Half)
  | invstViewLo (n : BitVec 2)
  | invstViewHi (n : BitVec 2)
  | trap (code : BitVec 24)
  | instar (off : BitVec 24)
  | inv (x t : VNum) (br : BitVec 2) (tol len : BitVec 4) (dec : Bool)
  -- type-generic register-register words (R73)
  | add (d a b : VNum) (wa wb : Bool)
  | sub (d a b : VNum) (wa wb : Bool)
  | mul (d a b : VNum) (wa wb : Bool)
  | mulh (d a b : VNum) (wa wb : Bool)
  | fma (d a b : VNum) (wa wb : Bool)
  | fms (d a b : VNum) (wa wb : Bool)
  | min (d a b : VNum) (wa wb : Bool)
  | max (d a b : VNum) (wa wb : Bool)
  | abs (d a : VNum) (wa : Bool)
  | neg (d a : VNum) (wa : Bool)
  | and (d a b : VNum) (wa wb : Bool)
  | or (d a b : VNum) (wa wb : Bool)
  | xor (d a b : VNum) (wa wb : Bool)
  | andn (d a b : VNum) (wa wb : Bool)
  | shl (d a b : VNum) (wa wb : Bool)
  | shr (d a b : VNum) (wa wb : Bool)
  | rot (d a b : VNum) (wa wb : Bool)
  | bits (op : BitsOp) (d a : VNum) (wa : Bool)
  | bfx (d a b : VNum) (wa wb : Bool)
  | bfi (d a b : VNum) (wa wb : Bool)
  | div (d a b : VNum) (wa wb : Bool)
  | rem (d a b : VNum) (wa wb : Bool)
  | mov (d a : VNum) (wa : Bool)
  | sel (d a b : VNum) (wa wb : Bool) (n : Bool) (p : PNum)
  | cmp (cc : CmpCond) (p : PNum) (a b : VNum) (wa wb : Bool)
  | plop (d a b : PNum) (tt : BitVec 4)
  | dot4 (d a b : VNum) (wa wb : Bool)
  | crc (d a : VNum) (wa : Bool)
  -- immediate words (R76)
  | addi (d a : VNum) (imm : BitVec 12)
  | muli (d a : VNum) (imm : BitVec 12)
  | andi (d a : VNum) (imm : BitVec 12)
  | ori (d a : VNum) (imm : BitVec 12)
  | xori (d a : VNum) (imm : BitVec 12)
  | shli (d a : VNum) (count : BitVec 6)
  | shri (d a : VNum) (count : BitVec 6)
  | cmpi (cc : CmpiCond) (p : PNum) (a : VNum) (imm : BitVec 12)
  | movi (d : VNum) (imm : BitVec 18)
  | movhi (d : VNum) (imm : BitVec 18)
  | mini (d a : VNum) (imm : BitVec 12)
  | maxi (d a : VNum) (imm : BitVec 12)
  -- special functions and conversions (R77)
  | rcp (d a : VNum) (wa : Bool)
  | rsq (d a : VNum) (wa : Bool)
  | sqrt (d a : VNum) (wa : Bool)
  | exp2 (d a : VNum) (wa : Bool)
  | log2 (d a : VNum) (wa : Bool)
  | sinpi (d a : VNum) (wa : Bool)
  | cospi (d a : VNum) (wa : Bool)
  | tanh (d a : VNum) (wa : Bool)
  | cvt (src : ElemType) (d a : VNum) (wa : Bool)
  | pack (src : ElemType) (d a : VNum) (part : BitVec 3) (wa : Bool)
  | unpk (src : ElemType) (d a : VNum) (part : BitVec 3) (wa : Bool)
  | qnt (l : BlockLen) (d a b : VNum) (wa wb : Bool)
  | rnd (m : RndMode) (d a : VNum) (wa : Bool)
  | classf (d a : VNum) (wa : Bool)
  | scalb (d a b : VNum) (wa wb : Bool)
  -- cross-lane words (R78)
  | shfl (d a b : VNum) (wa wb : Bool) (kf : BitVec 4)
  | bcst (d a : VNum) (lane : BitVec 5) (wa : Bool) (kf : BitVec 4)
  | reduce (op : CombineOp) (d a : VNum) (wa : Bool) (kf : BitVec 4)
  | scan (op : CombineOp) (ex : Bool) (d a : VNum) (wa : Bool) (kf : BitVec 4)
  | voteBallot (kd : KNum) (p : PNum) (kf : BitVec 4)
  | voteAny (d p : PNum) (kf : BitVec 4)
  | voteAll (d p : PNum) (kf : BitVec 4)
  | subx (d a b : VNum) (wa wb : Bool)
  | lanek (kd : KNum) (a : VNum) (lane : BitVec 5) (wa : Bool)
  | kbcast (d : VNum) (ka : KNum)
  -- uniform words (R79)
  | kadd (d a b : KNum)
  | ksub (d a b : KNum)
  | kmul (d a b : KNum)
  | kand (d a b : KNum)
  | kor (d a b : KNum)
  | kxor (d a b : KNum)
  | kshl (d a b : KNum)
  | kshr (d a b : KNum) (arith : Bool)
  | kaddi (d a : KNum) (imm : BitVec 12)
  | kmovi (d : KNum) (imm : BitVec 18)
  | kmovhi (d : KNum) (imm : BitVec 18)
  | kmin (d a b : KNum) (u : Bool)
  | kmax (d a b : KNum) (u : Bool)
  | ksel (d a b : KNum) (kf : BitVec 4)
  | qpush (q : BitVec 2) (ka : KNum) (bcast : Bool)
  -- scratchpad words (R80)
  | ld (w : MemWidth) (sx : Bool) (d a : VNum) (wa : Bool)
  | st (w : MemWidth) (a b : VNum) (wa wb : Bool)
  | ldx (d a : VNum) (imm : BitVec 12)
  | stx (d a : VNum) (imm : BitVec 12)
  | atom (op : AtomOp) (d a b : VNum) (wa wb : Bool)
  | acas (d a b : VNum) (wa wb : Bool)
  | kld (d a : KNum) (imm : BitVec 12)
  | kst (d a : KNum) (imm : BitVec 12)
  -- tag-table words (R81)
  | tlook (d a : VNum) (wa : Bool)
  | tlookK (d a : KNum)
  | tset (d a b : VNum) (wa wb : Bool)
  | tinv (a : VNum) (wa : Bool)
  -- synchronisation and launch words (R82)
  | swinit (ka kb : KNum)
  | swadd (sc : Scope) (ka kb : KNum)
  | swait (sc : Scope) (ka kb : KNum)
  | waitc (c : CounterName) (n : BitVec 8)
  | bar (n : BitVec 4)
  | bara (n : BitVec 4)
  | barw (n : BitVec 4)
  | trig
  | launch (ka : KNum)
  | detep
  -- engine and remote words (R83)
  | copy (ka : KNum)
  | skip (ka : KNum)
  | engq (kd ka : KNum)
  | rld (d a : VNum) (wa : Bool)
  | rst (f : Bool) (a b : VNum) (wa wb : Bool)
  | raadd (d a b : VNum) (wa wb : Bool)
  | raaddD (a b : VNum) (wa wb : Bool)
  | rcas (d a b : VNum) (wa wb : Bool)
  | stmp (d a b : VNum) (wa wb : Bool)
  | ldat (d a b : VNum) (wa wb : Bool)
  | time (kd : KNum)
  -- matrix words (R84)
  | mma (bank : BankNum) (a : VNum) (kb : KNum) (wa : Bool) (reuse : Bool) (la : BlockLen) (clear : Bool)
  | mmaResultWrite (core : Nat)
  | mclr (bank : BankNum)
  | mst (bank : BankNum) (ka : KNum)
  | mrd (d : VNum) (bank : BankNum) (kb : KNum)
  | obres (kd ka : KNum)
  | obrel (ka : KNum)
  | obld (ka kb : KNum)
  | obldFillEnd (core rec : Nat)
  | mstat (kd : KNum) (bank : BankNum)
  -- steps of the issue stage, of traps and of the log
  | promotion (core quad : Nat)
  | rotation (core quad : Nat)
  | watchdogExpiry (team gang sub : Nat)
  | trapRingSpace (part : Nat) (consumer : Word)
  | logRecordWrite (team gang : Nat)
  -- steps of the remote port and of homes
  | remoteLanding (op lane : Nat) (reply : Option RemAns)
  | remoteAcknowledgement (op lane : Nat) (reply : Option RemAns)
  | homeRequest (r : HomeReq)
  | stampedStoreArrival (r : HomeReq)
  | commitWaitEnd (op : Nat)
  | stampedReleaseArrival (r : HomeRef) (suspect : Bool)
  | ldatReaderWaitEnd (op lane : Nat)
  | ldatServe (r : HomeRef)
  | suspectMark (va : Word) (part : Nat) (window : Option (BitVec 7)) (stamp : Word)
  -- steps of the copy engines and of Skipper; `cmd` names the command
  | copye (cmd : Nat)
  | fill (cmd : Nat)
  | swadde (cmd : Nat)
  | loope (cmd : Nat)
  | conde (cmd : Nat)
  | next (cmd : Nat)
  | stop (cmd : Nat)
  | copyChunk (cmd : Nat) (pod : List PodAns)
  | chainStop (cmd : Nat)
  | skipperChunk (cmd : Nat)
  | skipperStop (cmd : Nat)
  -- front ends, dispatcher, placement
  | frontEndEntry (part prio : Nat) (entry : List Word) (stores : List KStore)
  | dispatchTeam (part : Nat)
  | teamRetirement (team : Nat)
  | thermalMigration (core : Nat) (heat : HeatReport)
  -- timebase
  | timebaseTick
  | timeTransfer (links : List LinkTransfer)
  | oscillatorFault
  | timebaseConfig (epsCommit epsFail lam : Nat)
  | rejoin (links : List LinkTransfer)
  | rejoinWaitEnd
  -- commands of the resident kernel
  | create (block : List Word) (stores : List KStore)
  | destroy (part : Nat)
  | invalidate (part va len : Nat) (stores : List KStore)
  | wopen (w part base limit : Nat) (key : Word) (r wr : Bool)
  | grant (part : Nat) (device : BitVec 21) (w : BitVec 7) (key : Word)
  | ungrant (part : Nat) (device : BitVec 21) (w : BitVec 7)
  | wrevoke (w : Nat)
  | wrevokeDrainEnd (w : Nat)
  | usage (part : Nat)
  | periodicUsageRecord (part : Nat)
  | hbmunitsSample
  | attest (part : Byte) (nonce : List Byte)
  | setrings (part base n logBase logN : Nat)
  | pageZeroing (part va : Nat)
  | zeroingComplete (part va : Nat)
  | pageIn (part va : Nat)
  | save (team area : Nat) (deadline : Option Nat)
  | saveDeadline (team : Nat)
  | restore (team core area : Nat)
  | resume (team gang sub : Nat)
  | kernelSkip (team gang sub : Nat)
  | kill (team : Nat)
  | contextStateRead (team : Nat) (item : CtxItem)
  | contextStateWrite (team : Nat) (item : CtxItem) (v : CtxValue)
  -- integrity, restart, wear, power
  | sramScrub (store : SramStore) (addr : Nat) (find : ScrubFind)
  | patrolScrub (addr : Nat) (find : ScrubFind)
  | healthRecord (base n : Nat) (samples : List HealthSample)
  | kernelRestart (cause : RestartCause)
  | moduleReset
  | boot (failed : List Nat)
  | firmwareImageWrite (image : List Byte)
  | powerCap
  | dieOvertempThrottle (die : Nat)
  | dieOvertempTrip (die : Nat)
  | fabricPortDisable (port : Nat)
  | linkRetrain (link : Nat)
  | illegalInstructionWord (w : Option Half)
  | coreBackBelowLimit (heat : CoreHeat)
  | thermalLimitSet (core limit : Nat)
  | powerEstimateFalls
  | usageRingSpace (part : Nat) (consumer : Word)
  deriving DecidableEq, Repr

end Sys2Proof
end

