-- ==== Sys2Proof/WellFormed.lean ====
section
/-!
DEFINITION. Well-formed instructions: the operand conditions that the types of the fields do not carry (R62 and the Reserved
columns of R71 to R84), and the ranges of the arguments of the steps that are not words (R7, R9, R197, R339, R353).
-/
namespace Sys2Proof

/-- The control and status registers (R18). -/
inductive Csr where
  | lane | slice | gang | team | grid | core | cluster | devid | depth | ngang | nteam | ncluster | nchan
  | te | tl | unc | tstate | invst | dbpc (n : BitVec 2)
  deriving DecidableEq, Repr

/-- The register a CSR number names, or none where R18 reserves the number. -/
def Csr.ofNum (n : BitVec 12) : Option Csr :=
  match n.toNat with
  | 0x000 => some .lane
  | 0x001 => some .slice
  | 0x002 => some .gang
  | 0x003 => some .team
  | 0x004 => some .grid
  | 0x005 => some .core
  | 0x006 => some .cluster
  | 0x007 => some .devid
  | 0x008 => some .depth
  | 0x009 => some .ngang
  | 0x00A => some .nteam
  | 0x00B => some .ncluster
  | 0x00C => some .nchan
  | 0x010 => some .te
  | 0x011 => some .tl
  | 0x012 => some .unc
  | 0x013 => some .tstate
  | 0x020 => some .invst
  | 0x030 => some (.dbpc 0)
  | 0x031 => some (.dbpc 1)
  | 0x032 => some (.dbpc 2)
  | 0x033 => some (.dbpc 3)
  | _ => none

/-- Per-lane registers are read into and written from vector registers (R18). -/
def Csr.perLane : Csr → Bool
  | .lane | .slice | .invst => true
  | _ => false

/-- Registers that CSRW may write (R18, R19). -/
def Csr.writable : Csr → Bool
  | .invst | .dbpc _ => true
  | _ => false

/-- The register field of CSRR or CSRW is legal for the number: a k register for a uniform CSR (R72). -/
def csrFieldOk (f : BitVec 6) (csr : BitVec 12) : Bool :=
  match Csr.ofNum csr with
  | none => false
  | some c => c.perLane || f.toNat < 32

/-- Cores of a full module. -/
def coreOk (c : Nat) : Bool := c < 4 * Config.maxClusters
/-- Partition numbers (R339). -/
def partOk (p : Nat) : Bool := p < 16
/-- Gang numbers, with 16 for the sidecar (R367). -/
def gangOk (g : Nat) : Bool := g ≤ 16
/-- Sub-gangs are named by their lowest slice (R228). -/
def subOk (u : Nat) : Bool := u < 8

/-- The parties and registers that a context-state item names exist in the machine (R372). -/
def CtxItem.wellFormed : CtxItem → Bool
  | .vreg g l r => g < 16 && l < 32 && r < 64
  | .pred g l r => g < 16 && l < 32 && 1 ≤ r && r < 8
  | .bracket g l r => g < 16 && l < 32 && r < 4
  | .invst g l => g < 16 && l < 32
  | .kreg g r => gangOk g && r < 32
  | .lcount g r => g < 16 && r < 3
  | .gmode g => g < 16
  | .pc g s => gangOk g && s < 8
  | .masks g s | .rc g s | .recStack g s | .retStack g s => g < 16 && s < 8
  | .levels g => g < 16
  | .counter g _ => gangOk g
  | .watchdog g => gangOk g
  | .window off => off < Config.scratchBytes
  | .record r => r < Config.coreRecords
  | .bank b i => b < Config.coreBanks && i < 4096
  | .tagWay s w => s < Config.tagSets && w < 4
  | .queue q => q < 4

/-- The instruction's operands are ones an encoding admits, or, for a step that is not a word, ones the machine has. -/
def Instr.wellFormed : Instr → Bool
  | .loop c _ _ => c.toNat < 3
  | .regang mask => mask ≠ 0#8
  | .kbr ka kb cc _ => cc ≠ .always || (ka = 0#5 && kb = 0#5)
  | .csrr d csr => csrFieldOk d csr
  | .csrw a csr => csrFieldOk a csr
  | .instar off => off ≠ 0#24
  | .qnt _ d a b _ _ => d.toNat ≤ 55 && a.toNat ≤ 56 && b.toNat ≤ 56
  | .ld w sx _ _ _ => !(sx && w = .d64)
  | .ldat d _ _ _ _ => d.toNat % 2 = 0
  | .time kd => kd.toNat % 2 = 0
  | .mma _ a _ _ _ _ _ => a.toNat ≤ 55
  | .mmaResultWrite c => coreOk c
  | .obldFillEnd c r => coreOk c && r < Config.coreRecords
  | .promotion c q | .rotation c q => coreOk c && q < 4
  | .watchdogExpiry _ g u => gangOk g && subOk u
  | .trapRingSpace p _ => partOk p
  | .logRecordWrite _ g => g < 16
  | .remoteLanding _ l _ | .remoteAcknowledgement _ l _ | .ldatReaderWaitEnd _ l => l < 32
  | .frontEndEntry p prio e _ => partOk p && prio < 8 && e.length = 8
  | .dispatchTeam p => partOk p
  | .thermalMigration c h => coreOk c && h.coolest.all coreOk
  | .create b _ => b.length = 16
  | .destroy p | .usage p | .periodicUsageRecord p => partOk p
  | .invalidate p _ _ _ => partOk p
  | .wopen w _ _ _ _ _ _ => w < 128
  | .grant p _ _ _ | .ungrant p _ _ => partOk p
  | .wrevoke w | .wrevokeDrainEnd w => w < 128
  | .attest _ nonce => nonce.length = 64
  | .setrings p _ _ _ _ => partOk p
  | .pageZeroing p _ | .zeroingComplete p _ | .pageIn p _ => partOk p
  | .restore _ c _ => coreOk c
  | .resume _ g u | .kernelSkip _ g u => gangOk g && subOk u
  | .contextStateRead _ it => it.wellFormed
  | .contextStateWrite _ it _ => it.wellFormed
  | .dieOvertempThrottle d | .dieOvertempTrip d => d < 4
  | .fabricPortDisable p => p < 32
  | .linkRetrain l => l < 4
  | .coreBackBelowLimit h => coreOk h.core
  | .thermalLimitSet c _ => coreOk c
  | .usageRingSpace p _ => partOk p
  | _ => true

end Sys2Proof
end

