-- ==== Sys2Proof/Decode.lean ====
section
/-!
DEFINITION. The decoder of 32-bit instruction words, written from the field tables of R61, R62 and R71 to R84, and the encoder
written from the same tables. The decoder is total: a word it refuses is named by the step of R63 that the word fails.
-/
namespace Sys2Proof

/-- Why a word is no instruction: the step of R63 it fails, as DETAIL reports it (R369). -/
inductive DecodeErr where
  /-- The opcode is not allocated, or the word is 0x0000_0000 or 0xFFFF_FFFF (R63 step 1, R85). -/
  | unallocated
  /-- A reserved bit is set, or a function code or sub-field value is reserved (R63 step 1). -/
  | reserved
  /-- A k field above 31, a disposition bit on a field that is no vector source, or a register range beyond v63 (R63 step 2). -/
  | operand
  deriving DecidableEq, Repr

/-- The step of R63 that a refused word fails. -/
def DecodeErr.step : DecodeErr → Nat
  | .unallocated | .reserved => 1
  | .operand => 2

/-! ### Fields (R61) -/

/-- op[31:24]. -/
def opOf (w : Half) : BitVec 8 := w.extractLsb' 24 8
/-- d[23:18]. -/
def dOf (w : Half) : BitVec 6 := w.extractLsb' 18 6
/-- a[17:12]. -/
def aOf (w : Half) : BitVec 6 := w.extractLsb' 12 6
/-- b[11:6]. -/
def bOf (w : Half) : BitVec 6 := w.extractLsb' 6 6
/-- wa[5]. -/
def waOf (w : Half) : Bool := w.getLsbD 5
/-- wb[4]. -/
def wbOf (w : Half) : Bool := w.getLsbD 4
/-- fn[3:0]. -/
def fnOf (w : Half) : BitVec 4 := w.extractLsb' 0 4
/-- imm12[11:0]. -/
def imm12Of (w : Half) : BitVec 12 := w.extractLsb' 0 12
/-- imm18[17:0]. -/
def imm18Of (w : Half) : BitVec 18 := w.extractLsb' 0 18
/-- imm24[23:0]. -/
def imm24Of (w : Half) : BitVec 24 := w.extractLsb' 0 24
/-- p[23:21] of format BR. -/
def brP (w : Half) : BitVec 3 := w.extractLsb' 21 3
/-- n[20] of format BR. -/
def brN (w : Half) : Bool := w.getLsbD 20
/-- off20[19:0] of format BR. -/
def off20Of (w : Half) : BitVec 20 := w.extractLsb' 0 20

/-- A six-bit field is a legal k field (R62). -/
def kOk (f : BitVec 6) : Bool := f.toNat < 32
/-- The k register of a legal k field. -/
def kNum (f : BitVec 6) : KNum := f.setWidth 5
/-- A six-bit field is a legal predicate or bank field: its high three bits are zero (R62). -/
def lowOk (f : BitVec 6) : Bool := f.toNat < 8
/-- The predicate or bank of a legal field. -/
def lowNum (f : BitVec 6) : BitVec 3 := f.setWidth 3

/-! ### Codes of sub-fields -/

/-- The element type with a code of R66, or none for 14 and 15. -/
def ElemType.ofCode (c : BitVec 4) : Option ElemType :=
  match c.toNat with
  | 0 => some .i8 | 1 => some .n8 | 2 => some .i16 | 3 => some .n16 | 4 => some .i32 | 5 => some .n32
  | 6 => some .i64 | 7 => some .n64 | 8 => some .f16 | 9 => some .bf16 | 10 => some .f32 | 11 => some .f64
  | 12 => some .e4m3 | 13 => some .e5m2 | _ => none

/-- The code of an element type (R66). -/
def ElemType.code : ElemType → BitVec 4
  | .i8 => 0 | .n8 => 1 | .i16 => 2 | .n16 => 3 | .i32 => 4 | .n32 => 5 | .i64 => 6 | .n64 => 7
  | .f16 => 8 | .bf16 => 9 | .f32 => 10 | .f64 => 11 | .e4m3 => 12 | .e5m2 => 13

/-- The condition of KBR with a code of R71. -/
def KbrCond.ofCode (c : BitVec 3) : Option KbrCond :=
  match c.toNat with
  | 0 => some .eq | 1 => some .ne | 2 => some .lt | 3 => some .ge | 4 => some .ltu | 5 => some .geu
  | 6 => some .always | _ => none

/-- The code of a condition of KBR (R71). -/
def KbrCond.code : KbrCond → BitVec 3
  | .eq => 0 | .ne => 1 | .lt => 2 | .ge => 3 | .ltu => 4 | .geu => 5 | .always => 6

/-- The condition of CMP with a code of R74. -/
def CmpCond.ofCode (c : BitVec 4) : Option CmpCond :=
  match c.toNat with
  | 0 => some .eq | 1 => some .ne | 2 => some .lt | 3 => some .le | 4 => some .gt | 5 => some .ge
  | 7 => some .ord | 8 => some .equ | 9 => some .neu | 10 => some .ltu | 11 => some .leu
  | 12 => some .gtu | 13 => some .geu | 14 => some .uno | _ => none

/-- The code of a condition of CMP (R74). -/
def CmpCond.code : CmpCond → BitVec 4
  | .eq => 0 | .ne => 1 | .lt => 2 | .le => 3 | .gt => 4 | .ge => 5 | .ord => 7 | .equ => 8 | .neu => 9
  | .ltu => 10 | .leu => 11 | .gtu => 12 | .geu => 13 | .uno => 14

/-- The condition of CMPI with a code of R76. -/
def CmpiCond.ofCode (c : BitVec 3) : Option CmpiCond :=
  match c.toNat with
  | 0 => some .eq | 1 => some .ne | 2 => some .lt | 3 => some .le | 4 => some .gt | 5 => some .ge | _ => none

/-- The code of a condition of CMPI (R76). -/
def CmpiCond.code : CmpiCond → BitVec 3
  | .eq => 0 | .ne => 1 | .lt => 2 | .le => 3 | .gt => 4 | .ge => 5

/-- The operation of BITS with a function code (R73). -/
def BitsOp.ofCode (c : BitVec 4) : Option BitsOp :=
  match c.toNat with
  | 0 => some .popc | 1 => some .clz | 2 => some .ctz | 3 => some .brev | _ => none

/-- The function code of an operation of BITS (R73). -/
def BitsOp.code : BitsOp → BitVec 4
  | .popc => 0 | .clz => 1 | .ctz => 2 | .brev => 3

/-- The block length with a code: 0 L16, 1 L32, 2 L64 (R77, R84). -/
def BlockLen.ofCode (c : Nat) : Option BlockLen :=
  match c with
  | 0 => some .l16 | 1 => some .l32 | 2 => some .l64 | _ => none

/-- The code of a block length. -/
def BlockLen.code : BlockLen → Nat
  | .l16 => 0 | .l32 => 1 | .l64 => 2

/-- The mode of RND with a function code (R77). -/
def RndMode.ofCode (c : BitVec 4) : Option RndMode :=
  match c.toNat with
  | 0 => some .floor | 1 => some .ceil | 2 => some .trunc | 3 => some .rint | _ => none

/-- The function code of a mode of RND (R77). -/
def RndMode.code : RndMode → BitVec 4
  | .floor => 0 | .ceil => 1 | .trunc => 2 | .rint => 3

/-- The operation of REDUCE and SCAN with a code (R78). -/
def CombineOp.ofCode (c : BitVec 4) : Option CombineOp :=
  match c.toNat with
  | 0 => some .add | 1 => some .min | 2 => some .max | 3 => some .and | 4 => some .or | 5 => some .xor | _ => none

/-- The code of an operation of REDUCE and SCAN (R78). -/
def CombineOp.code : CombineOp → BitVec 4
  | .add => 0 | .min => 1 | .max => 2 | .and => 3 | .or => 4 | .xor => 5

/-- The operation of ATOM with a function code (R80). -/
def AtomOp.ofCode (c : BitVec 4) : Option AtomOp :=
  match c.toNat with
  | 0 => some .add | 1 => some .min | 2 => some .max | 3 => some .and | 4 => some .or | 5 => some .xor
  | 6 => some .xchg | _ => none

/-- The function code of an operation of ATOM (R80). -/
def AtomOp.code : AtomOp → BitVec 4
  | .add => 0 | .min => 1 | .max => 2 | .and => 3 | .or => 4 | .xor => 5 | .xchg => 6

/-- The width with a code of R80. -/
def MemWidth.ofCode (c : BitVec 2) : MemWidth :=
  match c.toNat with
  | 0 => .b8 | 1 => .h16 | 2 => .w32 | _ => .d64

/-- The code of a width (R80). -/
def MemWidth.code : MemWidth → BitVec 2
  | .b8 => 0 | .h16 => 1 | .w32 => 2 | .d64 => 3

/-- The scope with a code of R255. -/
def Scope.ofCode (c : BitVec 3) : Option Scope :=
  match c.toNat with
  | 0 => some .gang | 1 => some .team | 2 => some .cluster | 3 => some .device | 4 => some .pod | _ => none

/-- The code of a scope (R255). -/
def Scope.code : Scope → BitVec 3
  | .gang => 0 | .team => 1 | .cluster => 2 | .device => 3 | .pod => 4

/-- The counter with a code of R82. -/
def CounterName.ofCode (c : BitVec 2) : Option CounterName :=
  match c.toNat with
  | 0 => some .olc | 1 => some .osc | 2 => some .enc | _ => none

/-- The code of a counter (R82). -/
def CounterName.code : CounterName → BitVec 2
  | .olc => 0 | .osc => 1 | .enc => 2

/-! ### The decoder -/

/-- A word whose step 1 and step 2 conditions of R63 hold gives the instruction; step 1 comes first. -/
def pick (ok1 ok2 : Bool) (i : Instr) : Except DecodeErr Instr :=
  if ok1 then (if ok2 then .ok i else .error .operand) else .error .reserved

/-- As `pick`, where a sub-field's code gives part of the instruction, and a reserved code fails step 1. -/
def pickOpt {α : Type} (c : Option α) (ok1 ok2 : Bool) (i : α → Instr) : Except DecodeErr Instr :=
  match c with
  | some x => pick ok1 ok2 (i x)
  | none => .error .reserved

/-- vd, va, vb with fn zero. -/
def vvv (w : Half) (mk : VNum → VNum → VNum → Bool → Bool → Instr) : Except DecodeErr Instr :=
  pick (fnOf w = 0#4) true (mk (dOf w) (aOf w) (bOf w) (waOf w) (wbOf w))

/-- vd, va with b, wb and fn reserved. -/
def vv (w : Half) (mk : VNum → VNum → Bool → Instr) : Except DecodeErr Instr :=
  pick (fnOf w = 0#4 && bOf w = 0#6) (!wbOf w) (mk (dOf w) (aOf w) (waOf w))

/-- vd, va with a function code, b and wb reserved. -/
def vvFn {α : Type} (w : Half) (c : Option α) (mk : α → VNum → VNum → Bool → Instr) : Except DecodeErr Instr :=
  pickOpt c (bOf w = 0#6) (!wbOf w) (fun f => mk f (dOf w) (aOf w) (waOf w))

/-- vd, va, imm12. -/
def vvi (w : Half) (mk : VNum → VNum → BitVec 12 → Instr) : Except DecodeErr Instr :=
  .ok (mk (dOf w) (aOf w) (imm12Of w))

/-- kd, ka, kb with fn zero and no dispositions. -/
def kkk (w : Half) (mk : KNum → KNum → KNum → Instr) : Except DecodeErr Instr :=
  pick (fnOf w = 0#4) (kOk (dOf w) && kOk (aOf w) && kOk (bOf w) && !waOf w && !wbOf w)
    (mk (kNum (dOf w)) (kNum (aOf w)) (kNum (bOf w)))

/-- kd, ka, kb with the low bit of fn a flag. -/
def kkkF (w : Half) (mk : KNum → KNum → KNum → Bool → Instr) : Except DecodeErr Instr :=
  pick ((fnOf w).toNat < 2) (kOk (dOf w) && kOk (aOf w) && kOk (bOf w) && !waOf w && !wbOf w)
    (mk (kNum (dOf w)) (kNum (aOf w)) (kNum (bOf w)) ((fnOf w).getLsbD 0))

/-- Control, mode and system words (R71, R72). -/
def decodeControl (w : Half) : Except DecodeErr Instr :=
  match (opOf w).toNat with
  | 0x01 => pick (imm24Of w = 0#24) true .nop
  | 0x02 => pick (imm24Of w = 0#24) true .exit
  | 0x03 => pick (brP w = 0#3 && !brN w) true (.bra (off20Of w))
  | 0x04 => .ok (.brc (brP w) (brN w) (off20Of w))
  | 0x05 => pick (brP w = 0#3 && !brN w) true (.rcv (off20Of w))
  | 0x06 => pick (dOf w = 0#6 && bOf w = 0#6 && fnOf w = 0#4) (!wbOf w) (.jmpi (aOf w) (waOf w))
  | 0x07 => pick (brP w = 0#3 && !brN w) true (.call (off20Of w))
  | 0x08 => pick (dOf w = 0#6 && bOf w = 0#6 && fnOf w = 0#4) (!wbOf w) (.calli (aOf w) (waOf w))
  | 0x09 => pick (imm24Of w = 0#24) true .ret
  | 0x0A => pick (dOf w = 0#6 && bOf w = 0#6 && fnOf w = 0#4) (!wbOf w) (.retr (aOf w) (waOf w))
  | 0x0B => pick ((w.extractLsb' 22 2 : BitVec 2).toNat < 3 && (w.extractLsb' 8 8 : BitVec 8) = 0#8) (kOk (w.extractLsb' 16 6))
              (.loop (w.extractLsb' 22 2) (kNum (w.extractLsb' 16 6)) (w.extractLsb' 0 8))
  | 0x0C => pick (imm24Of w = 0#24) true .lexit
  | 0x0D => pick ((w.extractLsb' 8 16 : BitVec 16) = 0#16 && (w.extractLsb' 0 8 : BitVec 8) ≠ 0#8) true (.regang (w.extractLsb' 0 8))
  | 0x0E => pickOpt (KbrCond.ofCode (w.extractLsb' 9 3))
              (KbrCond.ofCode (w.extractLsb' 9 3) ≠ some .always || (dOf w = 0#6 && aOf w = 0#6)) (kOk (dOf w) && kOk (aOf w))
              (fun cc => .kbr (kNum (dOf w)) (kNum (aOf w)) cc (w.extractLsb' 0 9))
  | 0x0F => .ok (.bkpt (imm24Of w))
  | 0x10 => pick (dOf w = 0#6 && bOf w = 0#6 && fnOf w = 0#4) (kOk (aOf w) && !waOf w && !wbOf w) (.setmode (kNum (aOf w)))
  | 0x11 => pick (dOf w = 0#6 && fnOf w = 0#4) (kOk (aOf w) && kOk (bOf w) && !waOf w && !wbOf w)
              (.setmk (kNum (aOf w)) (kNum (bOf w)))
  | 0x12 => pick (aOf w = 0#6 && bOf w = 0#6 && fnOf w = 0#4) (kOk (dOf w) && !waOf w && !wbOf w) (.getmode (kNum (dOf w)))
  | 0x13 => pickOpt (Csr.ofNum (imm12Of w)) (aOf w = 0#6) (csrFieldOk (dOf w) (imm12Of w)) (fun _ => .csrr (dOf w) (imm12Of w))
  | 0x14 => pickOpt (Csr.ofNum (imm12Of w)) (dOf w = 0#6) (csrFieldOk (aOf w) (imm12Of w)) (fun _ => .csrw (aOf w) (imm12Of w))
  | 0x15 => .ok (.trap (imm24Of w))
  | 0x16 => pick (imm24Of w ≠ 0#24) true (.instar (imm24Of w))
  | 0x17 => pick (!w.getLsbD 0) true
              (.inv (dOf w) (aOf w) (w.extractLsb' 10 2) (w.extractLsb' 6 4) (w.extractLsb' 2 4) (w.getLsbD 1))
  | _ => .error .unallocated

/-- Type-generic register-register words (R73). -/
def decodeGeneric (w : Half) : Except DecodeErr Instr :=
  match (opOf w).toNat with
  | 0x20 => vvv w .add
  | 0x21 => vvv w .sub
  | 0x22 => vvv w .mul
  | 0x23 => vvv w .mulh
  | 0x24 => vvv w .fma
  | 0x25 => vvv w .fms
  | 0x26 => vvv w .min
  | 0x27 => vvv w .max
  | 0x28 => vv w .abs
  | 0x29 => vv w .neg
  | 0x2A => vvv w .and
  | 0x2B => vvv w .or
  | 0x2C => vvv w .xor
  | 0x2D => vvv w .andn
  | 0x2E => vvv w .shl
  | 0x2F => vvv w .shr
  | 0x30 => vvv w .rot
  | 0x31 => vvFn w (BitsOp.ofCode (fnOf w)) .bits
  | 0x32 => vvv w .bfx
  | 0x33 => vvv w .bfi
  | 0x34 => vvv w .div
  | 0x35 => vvv w .rem
  | 0x36 => vv w .mov
  | 0x37 => .ok (.sel (dOf w) (aOf w) (bOf w) (waOf w) (wbOf w) ((fnOf w).getLsbD 3) ((fnOf w).extractLsb' 0 3))
  | 0x38 => pickOpt (CmpCond.ofCode (fnOf w)) (lowOk (dOf w)) true
              (fun cc => .cmp cc (lowNum (dOf w)) (aOf w) (bOf w) (waOf w) (wbOf w))
  | 0x39 => pick (lowOk (dOf w) && lowOk (aOf w) && lowOk (bOf w)) (!waOf w && !wbOf w)
              (.plop (lowNum (dOf w)) (lowNum (aOf w)) (lowNum (bOf w)) (fnOf w))
  | 0x3A => vvv w .dot4
  | 0x3B => vv w .crc
  | _ => .error .unallocated

/-- Immediates, special functions and conversions (R76, R77). -/
def decodeImmediate (w : Half) : Except DecodeErr Instr :=
  match (opOf w).toNat with
  | 0x40 => vvi w .addi
  | 0x41 => vvi w .muli
  | 0x42 => vvi w .andi
  | 0x43 => vvi w .ori
  | 0x44 => vvi w .xori
  | 0x45 => pick ((w.extractLsb' 6 6 : BitVec 6) = 0#6) true (.shli (dOf w) (aOf w) (w.extractLsb' 0 6))
  | 0x46 => pick ((w.extractLsb' 6 6 : BitVec 6) = 0#6) true (.shri (dOf w) (aOf w) (w.extractLsb' 0 6))
  | 0x47 => pickOpt (CmpiCond.ofCode (w.extractLsb' 21 3)) true true
              (fun cc => .cmpi cc (w.extractLsb' 18 3) (aOf w) (imm12Of w))
  | 0x48 => .ok (.movi (dOf w) (imm18Of w))
  | 0x49 => .ok (.movhi (dOf w) (imm18Of w))
  | 0x4A => vvi w .mini
  | 0x4B => vvi w .maxi
  | 0x50 => vv w .rcp
  | 0x51 => vv w .rsq
  | 0x52 => vv w .sqrt
  | 0x53 => vv w .exp2
  | 0x54 => vv w .log2
  | 0x55 => vv w .sinpi
  | 0x56 => vv w .cospi
  | 0x57 => vv w .tanh
  | 0x58 => vvFn w (ElemType.ofCode (fnOf w)) .cvt
  | 0x59 => pickOpt (ElemType.ofCode (fnOf w)) (lowOk (bOf w)) (!wbOf w)
              (fun t => .pack t (dOf w) (aOf w) (lowNum (bOf w)) (waOf w))
  | 0x5A => pickOpt (ElemType.ofCode (fnOf w)) (lowOk (bOf w)) (!wbOf w)
              (fun t => .unpk t (dOf w) (aOf w) (lowNum (bOf w)) (waOf w))
  | 0x5B => pickOpt (BlockLen.ofCode (fnOf w).toNat) true ((dOf w).toNat ≤ 55 && (aOf w).toNat ≤ 56 && (bOf w).toNat ≤ 56)
              (fun l => .qnt l (dOf w) (aOf w) (bOf w) (waOf w) (wbOf w))
  | 0x5C => vvFn w (RndMode.ofCode (fnOf w)) .rnd
  | 0x5D => vv w .classf
  | 0x5E => vvv w .scalb
  | _ => .error .unallocated

/-- The mask register of a cross-lane word is named by fn. -/
def decodeCross (w : Half) : Except DecodeErr Instr :=
  match (opOf w).toNat with
  | 0x60 => .ok (.shfl (dOf w) (aOf w) (bOf w) (waOf w) (wbOf w) (fnOf w))
  | 0x61 => pick ((bOf w).toNat < 32) (!wbOf w) (.bcst (dOf w) (aOf w) ((bOf w).setWidth 5) (waOf w) (fnOf w))
  | 0x62 => pickOpt (CombineOp.ofCode (w.extractLsb' 6 4)) ((w.extractLsb' 10 2 : BitVec 2) = 0#2) (!wbOf w)
              (fun o => .reduce o (dOf w) (aOf w) (waOf w) (fnOf w))
  | 0x63 => pickOpt (CombineOp.ofCode (w.extractLsb' 6 4)) (!w.getLsbD 11) (!wbOf w)
              (fun o => .scan o (w.getLsbD 10) (dOf w) (aOf w) (waOf w) (fnOf w))
  | 0x64 =>
    match (w.extractLsb' 6 2 : BitVec 2).toNat with
    | 0 => pick (lowOk (aOf w) && (w.extractLsb' 8 4 : BitVec 4) = 0#4) (kOk (dOf w) && !waOf w && !wbOf w)
             (.voteBallot (kNum (dOf w)) (lowNum (aOf w)) (fnOf w))
    | 1 => pick (lowOk (aOf w) && (w.extractLsb' 8 4 : BitVec 4) = 0#4 && lowOk (dOf w)) (!waOf w && !wbOf w)
             (.voteAny (lowNum (dOf w)) (lowNum (aOf w)) (fnOf w))
    | 2 => pick (lowOk (aOf w) && (w.extractLsb' 8 4 : BitVec 4) = 0#4 && lowOk (dOf w)) (!waOf w && !wbOf w)
             (.voteAll (lowNum (dOf w)) (lowNum (aOf w)) (fnOf w))
    | _ => .error .reserved
  | 0x65 => vvv w .subx
  | 0x66 => pick ((bOf w).toNat < 32 && fnOf w = 0#4) (kOk (dOf w) && !wbOf w)
              (.lanek (kNum (dOf w)) (aOf w) ((bOf w).setWidth 5) (waOf w))
  | 0x67 => pick (bOf w = 0#6 && fnOf w = 0#4) (kOk (aOf w) && !waOf w && !wbOf w) (.kbcast (dOf w) (kNum (aOf w)))
  | 0x68 => kkk w .kadd
  | 0x69 => kkk w .ksub
  | 0x6A => kkk w .kmul
  | 0x6B => kkk w .kand
  | 0x6C => kkk w .kor
  | 0x6D => kkk w .kxor
  | 0x6E => kkk w .kshl
  | 0x6F => kkkF w .kshr
  | _ => .error .unallocated

/-- Uniform words from 0x70 and scratchpad words (R79, R80). -/
def decodeScratch (w : Half) : Except DecodeErr Instr :=
  match (opOf w).toNat with
  | 0x70 => pick true (kOk (dOf w) && kOk (aOf w)) (.kaddi (kNum (dOf w)) (kNum (aOf w)) (imm12Of w))
  | 0x71 => pick true (kOk (dOf w)) (.kmovi (kNum (dOf w)) (imm18Of w))
  | 0x72 => pick true (kOk (dOf w)) (.kmovhi (kNum (dOf w)) (imm18Of w))
  | 0x73 => kkkF w .kmin
  | 0x74 => kkkF w .kmax
  | 0x75 => pick true (kOk (dOf w) && kOk (aOf w) && kOk (bOf w) && !waOf w && !wbOf w)
              (.ksel (kNum (dOf w)) (kNum (aOf w)) (kNum (bOf w)) (fnOf w))
  | 0x76 => pick ((dOf w).toNat < 4 && bOf w = 0#6 && (fnOf w).toNat < 2) (kOk (aOf w) && !waOf w && !wbOf w)
              (.qpush ((dOf w).setWidth 2) (kNum (aOf w)) ((fnOf w).getLsbD 0))
  | 0x78 => pick (bOf w = 0#6 && !w.getLsbD 3 && !(w.getLsbD 2 && (w.extractLsb' 0 2 : BitVec 2) = 3#2)) (!wbOf w)
              (.ld (MemWidth.ofCode (w.extractLsb' 0 2)) (w.getLsbD 2) (dOf w) (aOf w) (waOf w))
  | 0x79 => pick (dOf w = 0#6 && (w.extractLsb' 2 2 : BitVec 2) = 0#2) true
              (.st (MemWidth.ofCode (w.extractLsb' 0 2)) (aOf w) (bOf w) (waOf w) (wbOf w))
  | 0x7A => vvi w .ldx
  | 0x7B => vvi w .stx
  | 0x7C => pickOpt (AtomOp.ofCode (fnOf w)) true true (fun o => .atom o (dOf w) (aOf w) (bOf w) (waOf w) (wbOf w))
  | 0x7D => vvv w .acas
  | 0x7E => pick true (kOk (dOf w) && kOk (aOf w)) (.kld (kNum (dOf w)) (kNum (aOf w)) (imm12Of w))
  | 0x7F => pick true (kOk (dOf w) && kOk (aOf w)) (.kst (kNum (dOf w)) (kNum (aOf w)) (imm12Of w))
  | _ => .error .unallocated

/-- Tag-table, synchronisation and launch words (R81, R82). -/
def decodeSync (w : Half) : Except DecodeErr Instr :=
  match (opOf w).toNat with
  | 0x80 =>
    match (fnOf w).toNat with
    | 0 => pick (bOf w = 0#6) (!wbOf w) (.tlook (dOf w) (aOf w) (waOf w))
    | 1 => pick (bOf w = 0#6) (kOk (dOf w) && kOk (aOf w) && !waOf w && !wbOf w) (.tlookK (kNum (dOf w)) (kNum (aOf w)))
    | _ => .error .reserved
  | 0x81 => vvv w .tset
  | 0x82 => pick (dOf w = 0#6 && bOf w = 0#6 && fnOf w = 0#4) (!wbOf w) (.tinv (aOf w) (waOf w))
  | 0x84 => pick (dOf w = 0#6 && fnOf w = 0#4) (kOk (aOf w) && kOk (bOf w) && !waOf w && !wbOf w)
              (.swinit (kNum (aOf w)) (kNum (bOf w)))
  | 0x85 => pickOpt (Scope.ofCode (w.extractLsb' 0 3)) (dOf w = 0#6 && !w.getLsbD 3)
              (kOk (aOf w) && kOk (bOf w) && !waOf w && !wbOf w) (fun s => .swadd s (kNum (aOf w)) (kNum (bOf w)))
  | 0x86 => pickOpt (Scope.ofCode (w.extractLsb' 0 3)) (dOf w = 0#6 && !w.getLsbD 3)
              (kOk (aOf w) && kOk (bOf w) && !waOf w && !wbOf w) (fun s => .swait s (kNum (aOf w)) (kNum (bOf w)))
  | 0x87 => pickOpt (CounterName.ofCode (w.extractLsb' 8 2)) ((w.extractLsb' 10 14 : BitVec 14) = 0#14) true
              (fun c => .waitc c (w.extractLsb' 0 8))
  | 0x88 => pick ((w.extractLsb' 4 20 : BitVec 20) = 0#20) true (.bar (w.extractLsb' 0 4))
  | 0x89 => pick ((w.extractLsb' 4 20 : BitVec 20) = 0#20) true (.bara (w.extractLsb' 0 4))
  | 0x8A => pick ((w.extractLsb' 4 20 : BitVec 20) = 0#20) true (.barw (w.extractLsb' 0 4))
  | 0x8B => pick (imm24Of w = 0#24) true .trig
  | 0x8C => pick (dOf w = 0#6 && bOf w = 0#6 && fnOf w = 0#4) (kOk (aOf w) && !waOf w && !wbOf w) (.launch (kNum (aOf w)))
  | 0x8D => pick (imm24Of w = 0#24) true .detep
  | _ => .error .unallocated

/-- Engine and remote words (R83). -/
def decodeEngine (w : Half) : Except DecodeErr Instr :=
  match (opOf w).toNat with
  | 0x90 => pick (dOf w = 0#6 && bOf w = 0#6 && fnOf w = 0#4) (kOk (aOf w) && !waOf w && !wbOf w) (.copy (kNum (aOf w)))
  | 0x91 => pick (dOf w = 0#6 && bOf w = 0#6 && fnOf w = 0#4) (kOk (aOf w) && !waOf w && !wbOf w) (.skip (kNum (aOf w)))
  | 0x92 => pick (bOf w = 0#6 && fnOf w = 0#4) (kOk (dOf w) && kOk (aOf w) && !waOf w && !wbOf w)
              (.engq (kNum (dOf w)) (kNum (aOf w)))
  | 0x93 => vv w .rld
  | 0x94 => pick (dOf w = 0#6 && (fnOf w).toNat < 2) true
              (.rst ((fnOf w).getLsbD 0) (aOf w) (bOf w) (waOf w) (wbOf w))
  | 0x95 =>
    match (fnOf w).toNat with
    | 0 => .ok (.raadd (dOf w) (aOf w) (bOf w) (waOf w) (wbOf w))
    | 1 => pick (dOf w = 0#6) true (.raaddD (aOf w) (bOf w) (waOf w) (wbOf w))
    | _ => .error .reserved
  | 0x96 => vvv w .rcas
  | 0x97 => vvv w .stmp
  | 0x98 => pick (fnOf w = 0#4 && (dOf w).toNat % 2 = 0) true (.ldat (dOf w) (aOf w) (bOf w) (waOf w) (wbOf w))
  | 0x99 => pick (aOf w = 0#6 && bOf w = 0#6 && fnOf w = 0#4 && (dOf w).toNat % 2 = 0)
              (kOk (dOf w) && !waOf w && !wbOf w) (.time (kNum (dOf w)))
  | _ => .error .unallocated

/-- Matrix words (R84). -/
def decodeMatrix (w : Half) : Except DecodeErr Instr :=
  match (opOf w).toNat with
  | 0xA0 => pickOpt (BlockLen.ofCode (w.extractLsb' 1 2 : BitVec 2).toNat) (lowOk (dOf w) && (aOf w).toNat ≤ 55)
              (kOk (bOf w) && !wbOf w)
              (fun l => .mma (lowNum (dOf w)) (aOf w) (kNum (bOf w)) (waOf w) (w.getLsbD 3) l (w.getLsbD 0))
  | 0xA1 => pick (lowOk (dOf w) && aOf w = 0#6 && bOf w = 0#6 && fnOf w = 0#4) (!waOf w && !wbOf w) (.mclr (lowNum (dOf w)))
  | 0xA2 => pick (lowOk (dOf w) && bOf w = 0#6 && fnOf w = 0#4) (kOk (aOf w) && !waOf w && !wbOf w)
              (.mst (lowNum (dOf w)) (kNum (aOf w)))
  | 0xA3 => pick (lowOk (aOf w) && fnOf w = 0#4) (kOk (bOf w) && !waOf w && !wbOf w)
              (.mrd (dOf w) (lowNum (aOf w)) (kNum (bOf w)))
  | 0xA4 => pick (bOf w = 0#6 && fnOf w = 0#4) (kOk (dOf w) && kOk (aOf w) && !waOf w && !wbOf w)
              (.obres (kNum (dOf w)) (kNum (aOf w)))
  | 0xA5 => pick (dOf w = 0#6 && bOf w = 0#6 && fnOf w = 0#4) (kOk (aOf w) && !waOf w && !wbOf w) (.obrel (kNum (aOf w)))
  | 0xA6 => pick (dOf w = 0#6 && fnOf w = 0#4) (kOk (aOf w) && kOk (bOf w) && !waOf w && !wbOf w)
              (.obld (kNum (aOf w)) (kNum (bOf w)))
  | 0xA7 => pick (lowOk (aOf w) && bOf w = 0#6 && fnOf w = 0#4) (kOk (dOf w) && !waOf w && !wbOf w)
              (.mstat (kNum (dOf w)) (lowNum (aOf w)))
  | _ => .error .unallocated

/-- The instruction a word stands for, or the step of R63 it fails, from the word alone. The opcode selects the format (R61);
the opcodes no family holds are unallocated (R85), among them those of the words 0x0000_0000 and 0xFFFF_FFFF. -/
def decode (w : Half) : Except DecodeErr Instr :=
  match (w.extractLsb' 28 4 : BitVec 4).toNat with
  | 0x0 | 0x1 => decodeControl w
  | 0x2 | 0x3 => decodeGeneric w
  | 0x4 | 0x5 => decodeImmediate w
  | 0x6 => decodeCross w
  | 0x7 => decodeScratch w
  | 0x8 => decodeSync w
  | 0x9 => decodeEngine w
  | 0xA => decodeMatrix w
  | _ => .error .unallocated

/-! ### The encoder -/

/-- Format RR (R61). -/
def rrWord (op : BitVec 8) (d a b : BitVec 6) (wa wb : Bool) (fn : BitVec 4) : Half :=
  op ++ (d ++ (a ++ (b ++ (BitVec.ofBool wa ++ (BitVec.ofBool wb ++ fn)))))
/-- Format RI. -/
def riWord (op : BitVec 8) (d a : BitVec 6) (imm : BitVec 12) : Half := op ++ (d ++ (a ++ imm))
/-- Format RK. -/
def rkWord (op : BitVec 8) (d : BitVec 6) (imm : BitVec 18) : Half := op ++ (d ++ imm)
/-- Format BR. -/
def brWord (op : BitVec 8) (p : BitVec 3) (n : Bool) (off : BitVec 20) : Half := op ++ (p ++ (BitVec.ofBool n ++ off))
/-- Format XS. -/
def xsWord (op : BitVec 8) (imm : BitVec 24) : Half := op ++ imm
/-- Format IV. -/
def ivWord (op : BitVec 8) (x t : BitVec 6) (br : BitVec 2) (tol len : BitVec 4) (dir : Bool) : Half :=
  op ++ (x ++ (t ++ (br ++ (tol ++ (len ++ (BitVec.ofBool dir ++ 0#1))))))

/-- A k register in its six-bit field. -/
def kField (k : KNum) : BitVec 6 := k.setWidth 6
/-- A predicate or bank in its six-bit field. -/
def lowField (p : BitVec 3) : BitVec 6 := p.setWidth 6
/-- A flag in the low bit of fn. -/
def flagFn (f : Bool) : BitVec 4 := if f then 1#4 else 0#4
/-- RR with vd, va, vb. -/
def eVVV (op : BitVec 8) (d a b : VNum) (wa wb : Bool) : Option Half := some (rrWord op d a b wa wb 0#4)
/-- RR with vd, va and a function code. -/
def eVV (op : BitVec 8) (d a : VNum) (wa : Bool) (fn : BitVec 4) : Option Half := some (rrWord op d a 0#6 wa false fn)
/-- RR with k registers. -/
def eKKK (op : BitVec 8) (d a b : KNum) (fn : BitVec 4) : Option Half :=
  some (rrWord op (kField d) (kField a) (kField b) false false fn)
/-- RR with one k register in field a. -/
def eKa (op : BitVec 8) (a : KNum) : Option Half := some (rrWord op 0#6 (kField a) 0#6 false false 0#4)
/-- RR with one vector register in field a. -/
def eVa (op : BitVec 8) (a : VNum) (wa : Bool) : Option Half := some (rrWord op 0#6 a 0#6 wa false 0#4)

/-- The word of an instruction, from the tables of R71 to R84; none for a step that is not a word. -/
def encode : Instr → Option Half
  | .nop => some (xsWord 0x01#8 0#24)
  | .exit => some (xsWord 0x02#8 0#24)
  | .bra o => some (brWord 0x03#8 0#3 false o)
  | .brc p n o => some (brWord 0x04#8 p n o)
  | .rcv o => some (brWord 0x05#8 0#3 false o)
  | .jmpi a wa => eVa 0x06#8 a wa
  | .call o => some (brWord 0x07#8 0#3 false o)
  | .calli a wa => eVa 0x08#8 a wa
  | .ret => some (xsWord 0x09#8 0#24)
  | .retr a wa => eVa 0x0A#8 a wa
  | .loop c ka n => some (xsWord 0x0B#8 (c ++ (kField ka ++ (0#8 ++ n))))
  | .lexit => some (xsWord 0x0C#8 0#24)
  | .regang m => some (xsWord 0x0D#8 (0#16 ++ m))
  | .kbr ka kb cc o => some (xsWord 0x0E#8 (kField ka ++ (kField kb ++ (cc.code ++ o))))
  | .bkpt c => some (xsWord 0x0F#8 c)
  | .setmode ka => eKa 0x10#8 ka
  | .setmk ka kb => some (rrWord 0x11#8 0#6 (kField ka) (kField kb) false false 0#4)
  | .getmode kd => some (rrWord 0x12#8 (kField kd) 0#6 0#6 false false 0#4)
  | .csrr d c => some (riWord 0x13#8 d 0#6 c)
  | .csrw a c => some (riWord 0x14#8 0#6 a c)
  | .trap c => some (xsWord 0x15#8 c)
  | .instar o => some (xsWord 0x16#8 o)
  | .inv x t br tol len dec => some (ivWord 0x17#8 x t br tol len dec)
  | .add d a b wa wb => eVVV 0x20#8 d a b wa wb
  | .sub d a b wa wb => eVVV 0x21#8 d a b wa wb
  | .mul d a b wa wb => eVVV 0x22#8 d a b wa wb
  | .mulh d a b wa wb => eVVV 0x23#8 d a b wa wb
  | .fma d a b wa wb => eVVV 0x24#8 d a b wa wb
  | .fms d a b wa wb => eVVV 0x25#8 d a b wa wb
  | .min d a b wa wb => eVVV 0x26#8 d a b wa wb
  | .max d a b wa wb => eVVV 0x27#8 d a b wa wb
  | .abs d a wa => eVV 0x28#8 d a wa 0#4
  | .neg d a wa => eVV 0x29#8 d a wa 0#4
  | .and d a b wa wb => eVVV 0x2A#8 d a b wa wb
  | .or d a b wa wb => eVVV 0x2B#8 d a b wa wb
  | .xor d a b wa wb => eVVV 0x2C#8 d a b wa wb
  | .andn d a b wa wb => eVVV 0x2D#8 d a b wa wb
  | .shl d a b wa wb => eVVV 0x2E#8 d a b wa wb
  | .shr d a b wa wb => eVVV 0x2F#8 d a b wa wb
  | .rot d a b wa wb => eVVV 0x30#8 d a b wa wb
  | .bits op d a wa => eVV 0x31#8 d a wa op.code
  | .bfx d a b wa wb => eVVV 0x32#8 d a b wa wb
  | .bfi d a b wa wb => eVVV 0x33#8 d a b wa wb
  | .div d a b wa wb => eVVV 0x34#8 d a b wa wb
  | .rem d a b wa wb => eVVV 0x35#8 d a b wa wb
  | .mov d a wa => eVV 0x36#8 d a wa 0#4
  | .sel d a b wa wb n p => some (rrWord 0x37#8 d a b wa wb (BitVec.ofBool n ++ p))
  | .cmp cc p a b wa wb => some (rrWord 0x38#8 (lowField p) a b wa wb cc.code)
  | .plop d a b tt => some (rrWord 0x39#8 (lowField d) (lowField a) (lowField b) false false tt)
  | .dot4 d a b wa wb => eVVV 0x3A#8 d a b wa wb
  | .crc d a wa => eVV 0x3B#8 d a wa 0#4
  | .addi d a i => some (riWord 0x40#8 d a i)
  | .muli d a i => some (riWord 0x41#8 d a i)
  | .andi d a i => some (riWord 0x42#8 d a i)
  | .ori d a i => some (riWord 0x43#8 d a i)
  | .xori d a i => some (riWord 0x44#8 d a i)
  | .shli d a c => some (riWord 0x45#8 d a (0#6 ++ c))
  | .shri d a c => some (riWord 0x46#8 d a (0#6 ++ c))
  | .cmpi cc p a i => some (riWord 0x47#8 (cc.code ++ p) a i)
  | .movi d i => some (rkWord 0x48#8 d i)
  | .movhi d i => some (rkWord 0x49#8 d i)
  | .mini d a i => some (riWord 0x4A#8 d a i)
  | .maxi d a i => some (riWord 0x4B#8 d a i)
  | .rcp d a wa => eVV 0x50#8 d a wa 0#4
  | .rsq d a wa => eVV 0x51#8 d a wa 0#4
  | .sqrt d a wa => eVV 0x52#8 d a wa 0#4
  | .exp2 d a wa => eVV 0x53#8 d a wa 0#4
  | .log2 d a wa => eVV 0x54#8 d a wa 0#4
  | .sinpi d a wa => eVV 0x55#8 d a wa 0#4
  | .cospi d a wa => eVV 0x56#8 d a wa 0#4
  | .tanh d a wa => eVV 0x57#8 d a wa 0#4
  | .cvt s d a wa => eVV 0x58#8 d a wa s.code
  | .pack s d a p wa => some (rrWord 0x59#8 d a (lowField p) wa false s.code)
  | .unpk s d a p wa => some (rrWord 0x5A#8 d a (lowField p) wa false s.code)
  | .qnt l d a b wa wb => some (rrWord 0x5B#8 d a b wa wb (BitVec.ofNat 4 l.code))
  | .rnd m d a wa => eVV 0x5C#8 d a wa m.code
  | .classf d a wa => eVV 0x5D#8 d a wa 0#4
  | .scalb d a b wa wb => eVVV 0x5E#8 d a b wa wb
  | .shfl d a b wa wb kf => some (rrWord 0x60#8 d a b wa wb kf)
  | .bcst d a l wa kf => some (rrWord 0x61#8 d a (l.setWidth 6) wa false kf)
  | .reduce o d a wa kf => some (rrWord 0x62#8 d a (0#2 ++ o.code) wa false kf)
  | .scan o x d a wa kf => some (rrWord 0x63#8 d a (0#1 ++ (BitVec.ofBool x ++ o.code)) wa false kf)
  | .voteBallot kd p kf => some (rrWord 0x64#8 (kField kd) (lowField p) 0#6 false false kf)
  | .voteAny d p kf => some (rrWord 0x64#8 (lowField d) (lowField p) 1#6 false false kf)
  | .voteAll d p kf => some (rrWord 0x64#8 (lowField d) (lowField p) 2#6 false false kf)
  | .subx d a b wa wb => eVVV 0x65#8 d a b wa wb
  | .lanek kd a l wa => some (rrWord 0x66#8 (kField kd) a (l.setWidth 6) wa false 0#4)
  | .kbcast d ka => some (rrWord 0x67#8 d (kField ka) 0#6 false false 0#4)
  | .kadd d a b => eKKK 0x68#8 d a b 0#4
  | .ksub d a b => eKKK 0x69#8 d a b 0#4
  | .kmul d a b => eKKK 0x6A#8 d a b 0#4
  | .kand d a b => eKKK 0x6B#8 d a b 0#4
  | .kor d a b => eKKK 0x6C#8 d a b 0#4
  | .kxor d a b => eKKK 0x6D#8 d a b 0#4
  | .kshl d a b => eKKK 0x6E#8 d a b 0#4
  | .kshr d a b x => eKKK 0x6F#8 d a b (flagFn x)
  | .kaddi d a i => some (riWord 0x70#8 (kField d) (kField a) i)
  | .kmovi d i => some (rkWord 0x71#8 (kField d) i)
  | .kmovhi d i => some (rkWord 0x72#8 (kField d) i)
  | .kmin d a b u => eKKK 0x73#8 d a b (flagFn u)
  | .kmax d a b u => eKKK 0x74#8 d a b (flagFn u)
  | .ksel d a b kf => eKKK 0x75#8 d a b kf
  | .qpush q ka b => some (rrWord 0x76#8 (q.setWidth 6) (kField ka) 0#6 false false (flagFn b))
  | .ld w sx d a wa => some (rrWord 0x78#8 d a 0#6 wa false (0#1 ++ (BitVec.ofBool sx ++ w.code)))
  | .st w a b wa wb => some (rrWord 0x79#8 0#6 a b wa wb (0#2 ++ w.code))
  | .ldx d a i => some (riWord 0x7A#8 d a i)
  | .stx d a i => some (riWord 0x7B#8 d a i)
  | .atom o d a b wa wb => some (rrWord 0x7C#8 d a b wa wb o.code)
  | .acas d a b wa wb => eVVV 0x7D#8 d a b wa wb
  | .kld d a i => some (riWord 0x7E#8 (kField d) (kField a) i)
  | .kst d a i => some (riWord 0x7F#8 (kField d) (kField a) i)
  | .tlook d a wa => eVV 0x80#8 d a wa 0#4
  | .tlookK d a => some (rrWord 0x80#8 (kField d) (kField a) 0#6 false false 1#4)
  | .tset d a b wa wb => eVVV 0x81#8 d a b wa wb
  | .tinv a wa => eVa 0x82#8 a wa
  | .swinit ka kb => some (rrWord 0x84#8 0#6 (kField ka) (kField kb) false false 0#4)
  | .swadd s ka kb => some (rrWord 0x85#8 0#6 (kField ka) (kField kb) false false (0#1 ++ s.code))
  | .swait s ka kb => some (rrWord 0x86#8 0#6 (kField ka) (kField kb) false false (0#1 ++ s.code))
  | .waitc c n => some (xsWord 0x87#8 (0#14 ++ (c.code ++ n)))
  | .bar n => some (xsWord 0x88#8 (0#20 ++ n))
  | .bara n => some (xsWord 0x89#8 (0#20 ++ n))
  | .barw n => some (xsWord 0x8A#8 (0#20 ++ n))
  | .trig => some (xsWord 0x8B#8 0#24)
  | .launch ka => eKa 0x8C#8 ka
  | .detep => some (xsWord 0x8D#8 0#24)
  | .copy ka => eKa 0x90#8 ka
  | .skip ka => eKa 0x91#8 ka
  | .engq kd ka => some (rrWord 0x92#8 (kField kd) (kField ka) 0#6 false false 0#4)
  | .rld d a wa => eVV 0x93#8 d a wa 0#4
  | .rst f a b wa wb => some (rrWord 0x94#8 0#6 a b wa wb (flagFn f))
  | .raadd d a b wa wb => eVVV 0x95#8 d a b wa wb
  | .raaddD a b wa wb => some (rrWord 0x95#8 0#6 a b wa wb 1#4)
  | .rcas d a b wa wb => eVVV 0x96#8 d a b wa wb
  | .stmp d a b wa wb => eVVV 0x97#8 d a b wa wb
  | .ldat d a b wa wb => eVVV 0x98#8 d a b wa wb
  | .time kd => some (rrWord 0x99#8 (kField kd) 0#6 0#6 false false 0#4)
  | .mma bank a kb wa r l c =>
    some (rrWord 0xA0#8 (lowField bank) a (kField kb) wa false (BitVec.ofBool r ++ (BitVec.ofNat 2 l.code ++ BitVec.ofBool c)))
  | .mclr bank => some (rrWord 0xA1#8 (lowField bank) 0#6 0#6 false false 0#4)
  | .mst bank ka => some (rrWord 0xA2#8 (lowField bank) (kField ka) 0#6 false false 0#4)
  | .mrd d bank kb => some (rrWord 0xA3#8 d (lowField bank) (kField kb) false false 0#4)
  | .obres kd ka => some (rrWord 0xA4#8 (kField kd) (kField ka) 0#6 false false 0#4)
  | .obrel ka => eKa 0xA5#8 ka
  | .obld ka kb => some (rrWord 0xA6#8 0#6 (kField ka) (kField kb) false false 0#4)
  | .mstat kd bank => some (rrWord 0xA7#8 (kField kd) (lowField bank) 0#6 false false 0#4)
  | _ => none

/-- The word bytes, little-endian, that a program in device memory holds for an instruction word (R41, R43). -/
def wordBytes (w : Half) : List Byte :=
  [w.extractLsb' 0 8, w.extractLsb' 8 8, w.extractLsb' 16 8, w.extractLsb' 24 8]

/-- The instruction word whose four little-endian bytes are given. -/
def wordOfBytes : List Byte → Half
  | [b0, b1, b2, b3] => b3 ++ (b2 ++ (b1 ++ b0))
  | _ => 0#32

/-- The instruction that the decoder reads from the bits of a row of the table: bit 0 of `w` is the least significant bit of
the word, and the word is laid out in memory and read back byte by byte. Instructions are one word of 32 bits (R61). -/
def decodeTableWord (_nbits w : Nat) : Option Instr :=
  match decode (wordOfBytes (wordBytes (BitVec.ofNat 32 w))) with
  | .ok i => some i
  | .error _ => none

end Sys2Proof
end

