-- ==== Sys2Proof/Machine/State.lean ====
section
/-!
DEFINITION. The state of one LV7412 module: every register, memory, queue, counter and operation in flight that the manual
names, as plain data. Banks of like things are lists read by `rowGet` with the thing's initial value, so that a bank that
nothing has written is the empty list. The few fields that are the model's own are marked so.
-/
namespace Sys2Proof.Machine

/-- How the machine can stop for good. -/
inductive Fault where
  /-- Raised by `step` alone, when the boot core has halted the module (R398) and no input is waiting: only the management
  endpoint answers. Safe: the manual gives the machine nothing further to do. -/
  | halted
  deriving DecidableEq, Repr

/-- Why an instruction has no meaning. -/
inductive Refusal where
  /-- Raised by an arm of `exec` whose instruction has no meaning yet. Safe: nothing happens. -/
  | notModelled (mnemonic : String)
  deriving DecidableEq, Repr

/-- The causes of traps (R368). -/
inductive Cause where
  | illegalInstruction | illegalMode | scratchRange | misaligned | emptySource | poison | orphanWait | waitTimeout
  | indirectDiverge | rstackEmpty | rstackFull | memberExited | convergence | monotone | invRoutine | launchDepth
  | bankNotOwned | recordInvalid | timeHeld | race | softTrap | breakpoint | queueUnmapped | loopBuffer | stampedAccess
  | engineFault
  deriving DecidableEq, Repr

/-- The causes of the arithmetic log (R375). -/
inductive LogCause where
  | invalid | divzero | overflow | underflow | inexact | badpack | scaleNan
  deriving DecidableEq, Repr

/-- A vector register of a lane (R10, R12). -/
structure VReg where
  val : Word := 0
  full : Bool := true
  poison : Bool := false
  /-- The operation in flight that produces the register's value (R12). -/
  owed : Option Nat := none
  /-- The address of the word that produced it (R307). -/
  ppc : Addr := 0
  /-- The fault code of a poisoned register (R369). -/
  pcode : Byte := 0
  /-- A parity error that nothing has read yet (R392). -/
  bad : Bool := false
  deriving DecidableEq, Repr

/-- The registers of a lane (R10, R171, R294). -/
structure Lane where
  v : List VReg := []
  /-- Bit i is predicate i; bit 0 is not used: p0 always reads 1. -/
  p : BitVec 8 := 0
  b : List Word := []
  invst : Word := 0
  triggered : Bool := false
  deriving DecidableEq, Repr

/-- An entry of a reconvergence stack (R222): no pc and no ra for NONE. -/
structure RcEntry where
  pc : Option Addr
  mask : BitVec 4
  ra : Option Addr
  deriving DecidableEq, Repr

/-- An entry of a return stack (R222). -/
structure RetEntry where
  ret : Addr
  depth : Nat
  deriving DecidableEq, Repr

/-- What a unit waits for (R210, R247), with the operands that were read when the wait began. -/
inductive WaitKind where
  /-- A register with a producer outstanding (R12, R13). -/
  | register (r : VNum)
  | swait (addr : Word) (gen : BitVec 16)
  | waitc (c : CounterName) (n : BitVec 8)
  /-- The barrier and the phase waited for (R293). -/
  | bar (n : BitVec 4) (phase : Nat)
  | barw (n : BitVec 4) (phase : Nat)
  | bara (n : BitVec 4) (phase : Nat)
  /-- Slices held at a BARA until the gang's last slice issues it (R292). -/
  | gather (n : BitVec 4) (phase : Nat)
  | queue (q : BitVec 2)
  | qpush (q : BitVec 2) (e : List Word)
  /-- Slices held at a REGANG (R231). -/
  | regang (mask : BitVec 8)
  /-- Slices held at a member mask (R242): the mask this arrival read, and its rank of arrival. -/
  | member (mask : Half) (rank : Nat)
  /-- A busy bank (R154). -/
  | bank (b : BankNum)
  /-- A busy or filling record (R154, R156). -/
  | record (r : BitVec 6)
  /-- Registers that an MMA in its passes still reads (R154). -/
  | operands (r : VNum)
  /-- The array (R153): the gang stays ACTIVE. -/
  | array
  /-- A counter at 255 (R17). -/
  | counter (c : CounterName)
  /-- The front end's limit of device-launched grids, with the address that LAUNCH read (R201). -/
  | launch (addr : Word)
  /-- ENC at 255, with the address that COPY or SKIP read, and SKIP's block (R17, R192, R295). -/
  | command (addr : Word) (block : List Byte)
  /-- A fetch held while its page shows ZEROING (R349). -/
  | fetch
  deriving DecidableEq, Repr

/-- A wait with the cycle in which it began (R247). -/
structure Wait where
  kind : WaitKind
  since : Nat
  deriving DecidableEq, Repr

/-- A slice (R222). -/
structure Slice where
  pc : Addr := 0
  m : BitVec 4 := 15
  x : BitVec 4 := 0
  rc : Option Addr := none
  stack : List RcEntry := []
  ret : List RetEntry := []
  /-- The name of the sub-gang the slice belongs to (R228). -/
  sub : Nat := 0
  wait : Option Wait := none
  /-- Stopped by a trap, until the resident kernel acts (R365): whether the record names an INV word. -/
  stopped : Bool := false
  /-- The PC of the trap that stopped it (R245). -/
  stopPc : Option Addr := none
  /-- The record of the stop has not entered the trap ring yet (R366): its SEQ. -/
  held : Option Nat := none
  deriving DecidableEq, Repr

/-- A flagged operation of OSC or ENC (R291). -/
structure OpFlag where
  /-- Its place in the counter's issue order. -/
  seq : Nat
  lane : Nat
  code : Byte
  /-- The chain, block or sync word where known. -/
  addr : Word
  /-- An RLATE acknowledgement's stamp (R322). -/
  rlate : Option Word
  /-- A copy chain with no command sync word (R302). -/
  unsynced : Bool := false
  deriving DecidableEq, Repr

/-- One counted operation (R253). -/
structure Counted where
  seq : Nat
  /-- Its own decrement is due, and held until every older operation has had its own. -/
  done : Bool
  deriving DecidableEq, Repr

/-- OLC, OSC or ENC (R17, R253): its value is the number of operations pending. -/
structure Counter where
  pend : List Counted := []
  issued : Nat := 0
  flags : List OpFlag := []
  deriving DecidableEq, Repr

/-- A loop level (R222, R237). -/
structure LoopLevel where
  lc : Nat
  start : Addr
  stop : Addr
  depth : Nat
  /-- The reconvergence depth of each slice. -/
  rdepth : List Nat
  deriving DecidableEq, Repr

/-- What an INSTAR records of a slice (R377). -/
structure SliceSnap where
  pc : Addr
  m : BitVec 4
  x : BitVec 4
  rc : Option Addr
  stack : List RcEntry
  ret : List RetEntry
  deriving DecidableEq, Repr

/-- The snapshot of an INSTAR (R377). -/
structure Snapshot where
  pc : Addr := 0
  slices : List SliceSnap := []
  levels : List LoopLevel := []
  lc : List Half := []
  gmode : Half := 0
  preds : List (BitVec 8) := []
  deriving DecidableEq, Repr

/-- The Instar state of a gang (R377 to R380). -/
structure Instar where
  rewindable : Bool := false
  snap : Snapshot := {}
  recipe : Addr := 0
  /-- Words of the recipe's body (R378). -/
  blen : Nat := 0
  /-- A restore is running the body: the address after its last word (R382). -/
  body : Option Addr := none
  vmask : Word := 0
  kmask : Half := 0
  vdirty : Word := 0
  kdirty : Half := 0
  deriving DecidableEq, Repr

/-- An arithmetic-log record that is being merged (R376). -/
structure LogHeld where
  cause : LogCause
  block : Addr
  lanes : Half
  count : Nat
  opened : Nat
  core : Nat
  /-- The gang has raised another cause since, so that nothing merges any more. -/
  stale : Bool
  deriving DecidableEq, Repr

/-- A gang's standing at one barrier (R292, R293). -/
structure BarState where
  /-- The phase at which the gang has most recently arrived. -/
  arrived : Option Nat := none
  /-- The slices that have issued BAR or BARA at the phase, while the gang has not arrived. -/
  slices : BitVec 8 := 0
  /-- The slices that have issued BARA at the phase under way: those arrivals are never withdrawn. -/
  kept : BitVec 8 := 0
  deriving DecidableEq, Repr

/-- What a lane's search holds between the passes of an INV (R172), besides its registers, bracket and INVST. -/
structure InvLane where
  u : Nat
  lo : Nat
  hi : Nat
  flo : Nat := 0
  fhi : Nat := 0
  res : Nat := 0
  searching : Bool := false
  violated : Bool := false
  /-- Causes raised so far, each logged once for the execution (R175): bit i is the cause of code i. -/
  causes : BitVec 7 := 0
  deriving DecidableEq, Repr

/-- An INV of a sub-gang that has started and is between two of its passes (R172, R178). -/
structure InvRun where
  slices : BitVec 8
  pc : Addr
  /-- The INV word, the words of its routine, and the GMODE in force at it. -/
  word : Half
  routine : List Half
  gmode : Half
  /-- The participating lanes, and what each has reached. -/
  part : Half
  lanes : List (Nat × InvLane)
  deriving DecidableEq, Repr

/-- A gang (R9, R16, R222). -/
structure Gang where
  lanes : List Lane := []
  slices : List Slice := []
  k : List Word := []
  lc : List Half := []
  gmode : Half := 0
  olc : Counter := {}
  osc : Counter := {}
  enc : Counter := {}
  levels : List LoopLevel := []
  dbpc : List Word := []
  /-- The comparators are skipped for the first word issued by these slices (R245). -/
  skipCmp : BitVec 8 := 0
  watchdog : Nat := Config.watchdogDefault
  /-- The operand-collector latch: the first of the nine registers it holds (R155). -/
  latch : Option VNum := none
  instar : Instar := {}
  bars : List BarState := []
  /-- Searches of INV between two passes (R176, R178). -/
  searches : List InvRun := []
  /-- The gang's slot in its quadrant (R210, R211). -/
  slot : Nat := 0
  /-- Records being merged, oldest first (R376). -/
  log : List LogHeld := []
  /-- ACTIVE, with the order of promotion (R210, R211). -/
  active : Option Nat := none
  /-- PENDING and ready, with the order in which it became so. -/
  ready : Option Nat := some 0
  /-- The sub-gang served last (R229). -/
  lastSub : Nat := 7
  /-- Parity errors of the k registers and loop counters (R392). -/
  kbad : Half := 0
  lcbad : BitVec 3 := 0
  /-- The address of the EXIT that ended the gang (R302). -/
  exitPc : Addr := 0
  deriving DecidableEq, Repr

/-- An access sidecar (R30, R215). -/
structure Sidecar where
  present : Bool := false
  k : List Word := []
  pc : Addr := 0
  enc : Counter := {}
  wait : Option Wait := none
  exited : Bool := false
  stopped : Bool := false
  held : Option Nat := none
  watchdog : Nat := Config.watchdogDefault
  kbad : Half := 0
  exitPc : Addr := 0
  deriving DecidableEq, Repr

/-- A queue of the sidecar (R216, R217): entries oldest first, and the sub-gangs blocked on it in order, each as
8 · gang + name. -/
structure Queue where
  entries : List (List Word) := []
  blocked : List Nat := []
  deriving DecidableEq, Repr

/-- The tag of a 64-byte line of a window (R218). -/
structure LineTag where
  epoch : Nat := 0
  writer : Option Nat := none
  readers : BitVec 16 := 0
  /-- The integer atomic that wrote last: its operation and width. -/
  atomic : Option (AtomOp × Nat) := none
  deriving DecidableEq, Repr

/-- A way of a tag set (R281). -/
structure TagWay where
  valid : Bool := false
  key : Word := 0
  slot : BitVec 31 := 0
  bad : Bool := false
  deriving DecidableEq, Repr

/-- A tag set: four ways and their order of recency, least recent first. -/
structure TagSet where
  ways : List TagWay := []
  recency : List Nat := [0, 1, 2, 3]
  deriving DecidableEq, Repr

/-- An accumulator bank of a team (R151, R160). -/
structure Bank where
  acc : List Half := []
  done : BitVec 16 := 0
  inf : Bool := false
  nan : Bool := false
  poisoned : Bool := false
  deriving DecidableEq, Repr

/-- An MMA that has issued and not yet written its bank (R153). -/
structure MmaOp where
  bank : Nat
  gang : Nat
  pc : Addr
  /-- Rows the guard selected. -/
  rows : Half
  clear : Bool
  /-- The A registers read: eight of elements and one of scales for each of the 32 rows. -/
  a : List (List Word)
  la : Nat
  lb : Nat
  planes : Nat
  /-- First of the registers a to a+8 when they are read from the file. -/
  areg : VNum
  record : Nat
  /-- Bytes of the record, of the tile's planes and of each column's scales, as the plane passes read them, with their places in
  the operand buffer. -/
  weights : List Byte
  scales : List (List Byte)
  woff : Nat
  soff : List Nat
  /-- GMODE at issue. -/
  gmode : Half
  passEnd : Nat
  writeAt : Nat
  frozen : Bool
  deriving DecidableEq, Repr

/-- Context status (R381, R383). -/
inductive CtxStatus where
  | running
  /-- Being saved, until the deadline; the bounds of R381 run from the SAVE. -/
  | saving (deadline : Nat)
  | saved
  | retired
  deriving DecidableEq, Repr

/-- A team with all it owns (R9). -/
structure Team where
  live : Bool := false
  grid : Nat := 0
  num : Nat := 0
  part : Nat := 0
  /-- Home core and core of residence (R209). -/
  home : Nat := 0
  core : Nat := 0
  base : Nat := 0
  /-- Base of the window where the team resides, when it is not its home core. -/
  resBase : Nat := 0
  scratch : Nat := 0
  tagBase : Nat := 0
  tagSets : Nat := 0
  nbanks : Nat := 0
  /-- Physical banks of the core that the team's banks are mapped to. -/
  physBanks : List Nat := []
  ngang : Nat := 0
  vregs : Nat := 0
  gangs : List Gang := []
  side : Sidecar := {}
  /-- The core's sidecar slot. -/
  sideSlot : Nat := 0
  queues : List Queue := []
  phases : List Nat := []
  epoch : Nat := 0
  lines : List LineTag := []
  tags : List TagSet := []
  banks : List Bank := []
  mmas : List MmaOp := []
  status : CtxStatus := .running
  /-- The gangs' slots, registers, banks, tag block and sidecar are released (R208). -/
  released : Bool := false
  /-- Reset by a deadline or KILL (R383). -/
  wasReset : Bool := false
  /-- The cycle of the last placement or restore (R214). -/
  placedAt : Nat := 0
  /-- The gangs that have rewound for the save (R382). -/
  rewound : BitVec 16 := 0
  /-- The save area in device memory that the SAVE named (R384). -/
  area : Nat := 0
  /-- The deadline, in cycles, that the resident kernel has set for the context (R383). -/
  deadline : Nat := Config.saveDefault
  /-- The number under which the context was last saved (R384, assumption 18: DESIGN CHOICE). -/
  saveNum : Nat := 0
  /-- The cores that a thermal migration will restore the team on, the coolest first (R214); none for a SAVE. -/
  migrate : List Nat := []
  deriving DecidableEq, Repr

/-- States of a reservation record (R149). -/
inductive RecState where
  | free | live | filling | quarantined
  deriving DecidableEq, Repr

/-- A reservation record of a core (R147 to R149). -/
structure ObRecord where
  state : RecState := .free
  team : Nat := 0
  rows : Nat := 0
  cols : Nat := 0
  /-- Trits per weight: 1, 3 or 5. -/
  fmt : Nat := 0
  lb : Nat := 0
  req : Word := 0
  base : Nat := 0
  len : Nat := 0
  /-- The gang that released it, or that issued the OBLD of the fill under way. -/
  by_ : Nat := 0
  fillEnd : Nat := 0
  /-- The bytes the fill brings; the place of its source in the scratchpad; and the source as it last stood after a write of the
  filling gang, which never reaches the fill (R163). -/
  src : List Byte := []
  srcKey : Nat := 0
  seen : List Byte := []
  deriving DecidableEq, Repr

/-- A core (R7). -/
structure CoreState where
  records : List ObRecord := []
  /-- The cycle at which the array's plane passes are free (R153). -/
  arrayFree : Nat := 0
  /-- MMAs that wait at issue for the array, in issue order: team, and 8 · gang + sub-gang (R153). -/
  arrayQueue : List (Nat × Nat) := []
  /-- The slot that each quadrant, and with index 4 the sidecars, look at first for their next issue: one past the slot last served (R211, R215). -/
  lastSlot : List Nat := []
  /-- Slots whose next turn a pair has taken (R213): 16 · quadrant + slot. -/
  spent : List Nat := []
  thermalLimit : Option Nat := none
  hot : Bool := false
  throttled : Bool := false
  lastMigration : Option Nat := none
  /-- Accumulator and buffer words found bad (R392): physical bank numbers. -/
  badBanks : List Nat := []
  deriving DecidableEq, Repr

/-- What a front end remembers of a sequence number (R197, R198). -/
inductive SeqState where
  | none | refused | waiting | running | triggered | retired
  deriving DecidableEq, Repr

/-- A grid descriptor (R196). -/
structure Desc where
  entry : Word := 0
  sidecar : Word := 0
  param : Word := 0
  doneWord : Word := 0
  teams : Nat := 0
  scratch : Nat := 0
  tagSets : Nat := 0
  gangs : Nat := 0
  vregs : Nat := 0
  banks : Nat := 0
  pin : Bool := false
  deriving DecidableEq, Repr

/-- A live grid, or an entry of a queue (R196 to R208). -/
structure Grid where
  live : Bool := false
  part : Nat := 0
  desc : Desc := {}
  depth : Nat := 1
  prio : Nat := 0
  /-- Sequence number of a front-end entry; none for a launched grid. -/
  seq : Option (BitVec 32) := none
  /-- Dependences not yet satisfied: the producer's number, and whether the kind is TRIG (R197, R198). -/
  deps : List (BitVec 32 × Bool) := []
  /-- The team that launched it (R202). -/
  parent : Option Nat := none
  /-- Order of arrival in its queue (R200). -/
  order : Nat := 0
  placed : Nat := 0
  retired : Nat := 0
  trig : Bool := false
  /-- Some team was reset: FAULT goes with the increment (R383). -/
  fault : Bool := false
  /-- Teams placed, by number, as positions in the state's teams. -/
  teams : List Nat := []
  deriving DecidableEq, Repr

/-- A front end (R197 to R201). -/
structure FrontEnd where
  expected : BitVec 32 := 0
  taken : Nat := 0
  seqs : List SeqState := []
  /-- Error status to the resident kernel: sequence numbers refused, and the reason's rule. -/
  errors : List (Nat × Nat) := []
  deriving DecidableEq, Repr

/-- A ring in kernel memory (R355, R366, R375). -/
structure Ring where
  set : Bool := false
  base : Nat := 0
  n : Nat := 0
  deriving DecidableEq, Repr

/-- A trap record that waits for space in its ring (R366). -/
structure HeldTrap where
  seq : Nat
  bytes : List Byte
  deriving DecidableEq, Repr

/-- A partition (R339 to R345, R359 to R361, R366). -/
structure Partition where
  live : Bool := false
  /-- DESTROY is under way: the intake is closed (R344). -/
  closing : Bool := false
  lo : Nat := 0
  hi : Nat := 0
  colours : BitVec 16 := 0
  tableBase : Nat := 0
  root : Nat := 0
  tableLen : Nat := 0
  epoch : Nat := 0
  usage : Ring := {}
  tier : Ring := {}
  pool : Ring := {}
  trap : Ring := {}
  log : Ring := {}
  period : Nat := 0
  createdAt : Nat := 0
  nextDue : Nat := 0
  counters : List Word := []
  /-- HBM units as the translation unit last read them (R359). -/
  hbmUnits : Nat := 0
  sequence : Nat := 0
  prevHash : List Byte := []
  skipped : Nat := 0
  heldClosing : Option (List Byte) := none
  trapSeq : Nat := 0
  held : List HeldTrap := []
  block : List Byte := []
  fe : FrontEnd := {}
  deriving DecidableEq, Repr

/-- Windows (R353). -/
inductive WinState where
  | free | open_ | revoking
  deriving DecidableEq, Repr

/-- A window. -/
structure Window where
  state : WinState := .free
  part : Nat := 0
  base : Nat := 0
  limit : Nat := 0
  key : Word := 0
  r : Bool := false
  w : Bool := false
  inflight : Nat := 0
  /-- WREVOKE commands that wait for the window to be FREE (R357). -/
  revokers : Nat := 0
  deriving DecidableEq, Repr

/-- A grant (R353). -/
structure Grant where
  part : Nat
  device : BitVec 21
  window : BitVec 7
  key : Word
  deriving DecidableEq, Repr

/-- Remote and stamped operations (R305, R317, R320). -/
inductive RemKind where
  | rld | rst | rstf | raadd | raaddD | rcas | stmp | ldat
  deriving DecidableEq, Repr

/-- How far a lane of an operation has come. -/
inductive LaneStage where
  /-- The lane takes no part, or has finished. -/
  | idle
  /-- LDAT: waits at the reader until TE passes its time (R320). -/
  | port
  /-- RST.F to another module: held until the gang's earlier writes there have been performed (R251, R305). -/
  | flagged
  /-- On its way to the home, or waiting there to be judged. -/
  | sent
  /-- LDAT: judged at its home, and waiting to be served. -/
  | settling
  /-- STMP: the version stands in its cell, PENDING; its release has not been sent. -/
  | stored
  /-- STMP: the release is on its way to the home; SUSPECT after a failure (R325). -/
  | releasing (suspect : Bool)
  /-- Finished at the home; the answer is on its way. -/
  | reply (a : RemAns)
  deriving DecidableEq, Repr

/-- One lane of an operation in flight. -/
structure RemLane where
  stage : LaneStage := .idle
  addr : Word := 0
  /-- b as issued; for LDAT the time. -/
  val : Word := 0
  /-- d as issued (RCAS). -/
  cmp : Word := 0
  /-- The key of the grant with which a pod address was sent (R354). -/
  key : Word := 0
  /-- The version cell in HBM, once it is known (R314). -/
  cell : Nat := 0
  /-- The window whose in-flight count the lane holds (R357). -/
  window : Option (BitVec 7) := none
  deriving DecidableEq, Repr

/-- A remote or stamped operation of this module (R304 to R307, R317, R320). -/
structure RemOp where
  kind : RemKind
  team : Nat
  gang : Nat
  part : Nat
  core : Nat
  d : VNum
  pc : Addr
  /-- Its place in the issue order of its counter. -/
  seq : Nat
  /-- STMP: the stamp; the release is held until TE passes it. -/
  stamp : Word
  /-- STMP: the commit wait has ended, or a failure has ended it (R325), and then the releases go with SUSPECT. -/
  committed : Bool
  suspect : Bool := false
  lanes : List RemLane
  deriving DecidableEq, Repr

/-- A stamped request of another module, accepted here and not ended (R357). -/
structure Inbound where
  src : BitVec 21
  id : Nat
  window : BitVec 7
  part : Nat
  cell : Nat
  /-- The virtual address in the window's partition. -/
  va : Nat
  /-- LDAT: the time; STMP: the stamp. -/
  t : Word
  read : Bool
  deriving DecidableEq, Repr

/-- An entry of the suspect record (R326). -/
structure Suspect where
  addr : Word
  part : Nat
  stamp : Word
  /-- The version's cell, for a home on this module. -/
  cell : Nat
  deriving DecidableEq, Repr

/-- Whether an engine command runs (R303, R194). -/
inductive CmdStage where
  | running
  /-- Asked to stop at its next chunk boundary. -/
  | stopping
  /-- Stopped with its context saved. -/
  | stopped
  | ended
  deriving DecidableEq, Repr

/-- A copy chain in progress (R295 to R303). -/
structure Chain where
  /-- Window address of the entry in progress. -/
  entry : Nat := 0
  doneb : Nat := 0
  loopLeft : Nat := 0
  /-- The LOOPE in progress, the iteration of its body, and the strides it gave (R299). -/
  loopAt : Option Nat := none
  iter : Nat := 0
  sstride : Int := 0
  dstride : Int := 0
  ystride : Int := 0
  /-- Window address at which the run of entries starts (R298). -/
  run : Nat := 0
  /-- Window address of the sync word last counted into (R301). -/
  lastSync : Option Nat := none
  /-- The entry as the engine read it. -/
  cur : Option (List Byte) := none
  /-- The entry's first step (COPYE, FILL) has been made; chunks follow. -/
  opened : Bool := false
  /-- The engine has read an entry that was written after COPY issued: what the chain writes is undefined (R295). -/
  wild : Bool := false
  deriving DecidableEq, Repr

/-- A Skipper command in progress (R183 to R194). -/
structure SkipCmd where
  /-- The block as Skipper read it at issue. -/
  block : List Byte := []
  /-- Elements scanned in completed chunks. -/
  cursor : Nat := 0
  qualified : Nat := 0
  nans : Nat := 0
  /-- The running list: index and widened value of each record (R189). -/
  recs : List (Nat × Nat) := []
  /-- Dropped indices that the overflow list has room for, highest first. -/
  dropped : List Nat := []
  /-- A program has written the block's bytes 0 to 63, its regions or its status area meanwhile (R189). -/
  tainted : Bool := false
  /-- Some party has observed the command's completion (R189, R190). -/
  observed : Bool := false
  deriving DecidableEq, Repr

/-- An engine command (R27, R28). -/
structure Cmd where
  team : Nat
  gang : Nat
  seq : Nat
  skipper : Bool
  /-- Window address of the chain head or command block. -/
  addr : Nat
  /-- No chunk before this cycle (R408). -/
  startAt : Nat
  stage : CmdStage
  chain : Chain
  skip : SkipCmd
  /-- Of a copy chain: the 16-byte places of the scratchpad that have been written since it issued (R295). -/
  wrote : List Nat := []
  deriving DecidableEq, Repr

/-- A page-in under way (R351). -/
structure PageIn where
  part : Nat
  va : Nat
  old : Word
  frame : Nat
  deriving DecidableEq, Repr

/-- The timebase unit (R309 to R312, R327). -/
structure Timebase where
  now : Nat := 0
  eps0 : Nat := 0
  n : Nat := 0
  te : Nat := 0
  tl : Nat := 0
  tstate : BitVec 2 := 2
  epsCommit : Nat := 32
  epsFail : Nat := 256
  lambda : Nat := 320
  /-- Every link's neighbour reports that it has lost the root. -/
  lost : Bool := false
  /-- Ticks of the rejoin wait still to run (R327). -/
  rejoin : Option Nat := none
  /-- The timebase has had no transfer yet (R398). -/
  fresh : Bool := true
  deriving DecidableEq, Repr

/-- Messages this module sends. -/
inductive Message where
  /-- A request to another module's window (R354). -/
  | request (device : BitVec 21) (window : BitVec 7) (key : Word) (kind : ReqKind) (off : Nat) (size : Nat) (val cmp : Word)
      (op lane : Nat) (data : List Byte)
  /-- An STMP's release to another module (R317). -/
  | release (device : BitVec 21) (window : BitVec 7) (off : Nat) (stamp : Word) (suspect : Bool)
  /-- A suspect mark to another module (R325). -/
  | mark (device : BitVec 21) (window : BitVec 7) (off : Nat) (stamp : Word)
  /-- The answer to a request of another module, and whether the page was FAR (R350). -/
  | answer (src : BitVec 21) (id : Nat) (a : RemAns) (far : Bool)
  /-- Bytes read for an engine request. -/
  | bytes (src : BitVec 21) (id : Nat) (bs : List Byte) (far : Bool)
  deriving DecidableEq, Repr

/-- Messages to the resident kernel and to the management endpoint. -/
inductive Notice where
  /-- The interrupt of a trap record, or of one that is held (R366). -/
  | trapped (part : Nat) (seq : Nat)
  /-- Result of a command: its status. -/
  | status (code : Nat)
  /-- A context-state read's value, its full bit and its poison mark (R372). -/
  | ctxValue (w : Word) (full poison : Bool)
  /-- A stack, list or queue read by context-state access. -/
  | ctxList (ws : List (List Word))
  /-- The report of ATTEST (R362). -/
  | report (bs : List Byte)
  /-- A malformed page-table entry (R346). -/
  | malformed (part : Nat) (va : Nat)
  /-- The timebase entered WIDENED (R312). -/
  | widened
  /-- The module reports itself suspect (R326). -/
  | suspect
  /-- A save is complete, or a restore refused (R381, R385). -/
  | saved (team : Nat)
  | restored (team : Nat) (ok : Bool)
  /-- To the management endpoint: the module failed, and the number of trap records lost (R366, R395). -/
  | failed (lost : Nat)
  /-- To the management endpoint: the boot core halted at the step of R398. -/
  | bootHalt (step : Nat)
  /-- Refusal of a queue entry or of a launch (R197, R201). -/
  | refusedEntry (part : Nat) (seq : Option Nat)
  /-- The units that are disabled, by the numbers of the disable map (R8, R396). -/
  | disabled (units : List Nat)
  /-- The discards of stamped stores since boot (R322). -/
  | discards (n : Nat)
  deriving DecidableEq, Repr

/-- Phases of the module (R395, R398). -/
inductive Phase where
  | off
  | halted
  | running
  /-- The resident kernel is being restarted. -/
  | restarting
  deriving DecidableEq, Repr

/-- The unit that issues a word: a team, one of its gangs (16 for the sidecar), and the slices of the sub-gang. -/
structure Issuer where
  team : Nat
  gang : Nat
  slices : BitVec 8
  /-- The higher gang of a pair: its word counts in the one issue of the two (R213, R359). -/
  second : Bool := false
  deriving DecidableEq, Repr

/-- Error marks of the memories (R391, R392, R394). -/
structure BadMarks where
  spad : List Nat := []
  obuf : List Nat := []
  staging : List Nat := []
  hbm : List Nat := []
  far : List Nat := []
  deriving DecidableEq, Repr

/-- A line of the staging SRAM with what last passed through it, and the partition whose transfer it was (R340). -/
structure StageLine where
  line : Nat
  part : Nat
  bytes : List Byte
  deriving DecidableEq, Repr

/-- What a save area holds of a context: the team, its window, and its records with their bytes, by record number (R384). -/
structure SavedCtx where
  slot : Nat
  team : Team
  window : List Byte
  records : List (Nat × ObRecord × List Byte)
  deriving DecidableEq, Repr

/-- The state of a module. -/
structure State where
  phase : Phase
  cycle : Nat
  teams : List Team
  grids : List Grid
  cores : List CoreState
  parts : List Partition
  /-- Scratchpad, one list for all cores: core · 2^22 + offset. -/
  spad : List Host.Cell
  /-- Operand buffer: core · 2^20 + offset. -/
  obuf : List Host.Cell
  /-- Device memory by physical address, far memory by CXL address, and kernel memory. -/
  hbm : List Host.Cell
  far : List Host.Cell
  kmem : List Host.Cell
  /-- Staging SRAM (R340). -/
  staging : List StageLine
  bad : BadMarks
  /-- The code that the trap of a sync word with FAULT reports (R369): place in the scratchpad, and code. -/
  syncCodes : List (Nat × Nat)
  ops : List RemOp
  /-- PENDING versions in this module's cells: the cell, and whose store it is, in slot order within a cell (R316). -/
  pendings : List (Nat × HomeRef)
  inbound : List Inbound
  cmds : List Cmd
  suspects : List Suspect
  /-- Two releases beyond the record's size, since the last good cross-check (R326). -/
  suspectFull : Bool
  discards : Nat
  tb : Timebase
  windows : List Window
  grants : List Grant
  /-- Pages whose frames the memory controllers have zeroed and whose Z they will clear: partition, address, leaf (R349). -/
  zeroing : List (Nat × Nat × Word)
  /-- Pages with Z that the translation unit has read and that wait to be zeroed (R349). -/
  zPending : List (Nat × Nat)
  pageIns : List PageIn
  /-- INVALIDATE commands that wait, each for the accesses that used a translation it dropped (R348). -/
  drains : List (List HomeRef)
  epochNext : Nat
  epochMax : Nat
  fwmeas : List Byte
  /-- Module flash: the firmware image, whether it reads, the disable map, the serial number (R396, R398). -/
  firmware : List Byte
  flashOk : Bool
  disabled : List Nat
  serial : Word
  /-- The public half of the device identity key, and its certificate chain (R362). -/
  identityKey : List Byte
  certificates : List Byte
  devid : BitVec 21
  nclusterMap : Nat
  nchan : Nat
  powerCap : Nat
  dieHot : List Bool
  portsOff : List Nat
  /-- Retrainings of each die-to-die link (R391). -/
  retrains : List Nat
  /-- Corrections of the last day: the unit of each, and its cycle (R394, R397). -/
  corrections : List (Nat × Nat)
  /-- Uncorrectable finds since boot, by unit. -/
  uncorrectable : List Nat
  /-- The cycle at which a restart of the resident kernel ends (R395). -/
  restartEnd : Nat
  /-- Tick of the next sample of HBM units (R359). -/
  unitsDue : Nat
  outbox : List Message
  notices : List Notice
  /-- The model's own: what each save, by its number, wrote to its area (R384, assumption 18: DESIGN CHOICE). -/
  saves : List SavedCtx
  /-- The model's own: the order of arrivals, promotions and readiness. -/
  order : Nat
  /-- The model's own: the steps due next, inputs from outside among them (assumption 7: DESIGN CHOICE). -/
  agenda : List Instr
  /-- The model's own: the issuing unit of a word. -/
  issuer : Option Issuer
  /-- The model's own: the higher gang of a pair, whose word issues with the one just issued (R213). -/
  pair : Option Issuer
  /-- The model's own: the place in the policy of `step`, and the quadrant served last (assumption 7: DESIGN CHOICE). -/
  beat : Nat
  turn : Nat
  /-- The model's own: the number of the next free value (assumption 1: DESIGN CHOICE). -/
  fresh : Nat
  deriving DecidableEq, Repr

/-- The module right after power-on or reset, before the boot core runs (R398). The values the manual does not give are those
of assumptions 2, 3 and 5: DESIGN CHOICE. -/
def State.reset : State where
  phase := .off
  cycle := 0
  teams := []
  grids := []
  cores := []
  parts := []
  spad := []
  obuf := []
  hbm := []
  far := []
  kmem := []
  staging := []
  bad := {}
  syncCodes := []
  ops := []
  pendings := []
  inbound := []
  cmds := []
  suspects := []
  suspectFull := false
  discards := 0
  tb := {}
  windows := []
  grants := []
  zeroing := []
  zPending := []
  pageIns := []
  drains := []
  epochNext := 0
  epochMax := 4294967296
  fwmeas := []
  firmware := []
  flashOk := true
  disabled := []
  serial := 0
  identityKey := []
  certificates := []
  devid := 0
  nclusterMap := Config.maxClusters
  nchan := Config.maxChannels
  powerCap := 0
  dieHot := []
  portsOff := []
  retrains := []
  corrections := []
  uncorrectable := []
  restartEnd := 0
  unitsDue := 0
  outbox := []
  notices := []
  saves := []
  order := 0
  agenda := []
  issuer := none
  pair := none
  beat := 0
  turn := 0
  fresh := 0

end Sys2Proof.Machine
end

