-- ==== Sys2Proof/Machine/Ops.lean ====
section
/-!
DEFINITION. The named operations over memories and registers that every meaning uses: bytes of the sparse memories, banks of
lanes and registers, the rings in kernel memory, counters, and taking a trap with the ways back from it.
-/
namespace Sys2Proof.Machine

/-! ### Bytes of a memory -/

/-- What an unlisted address reads as (assumption 2: DESIGN CHOICE). -/
def memDefault : Byte := 0#8

/-- The byte at an address. -/
def memGet : List Host.Cell → Nat → Byte
  | [], _ => memDefault
  | (a, b) :: t, x => if a = x then b else memGet t x

/-- The memory with one byte written; the list stays sorted and lists no byte that equals the default. -/
def memPut : List Host.Cell → Nat → Byte → List Host.Cell
  | [], x, v => if v = memDefault then [] else [(x, v)]
  | (a, b) :: t, x, v =>
    if x < a then (if v = memDefault then (a, b) :: t else (x, v) :: (a, b) :: t)
    else if a = x then (if v = memDefault then t else (x, v) :: t)
    else (a, b) :: memPut t x v

/-- The canonical form above a bound: addresses rise, and no listed byte equals the default. -/
def memWfFrom : Nat → List Host.Cell → Bool
  | _, [] => true
  | lo, (a, b) :: t => decide (lo ≤ a) && (!decide (b = memDefault) && memWfFrom (a + 1) t)

/-- The canonical form of a memory. -/
def Memory.wf (m : List Host.Cell) : Bool := memWfFrom 0 m

/-- `n` bytes from an address, ascending. -/
def memRead (m : List Host.Cell) (a : Nat) : Nat → List Byte
  | 0 => []
  | n + 1 => memGet m a :: memRead m (a + 1) n

/-- Bytes written from an address, ascending. -/
def memWrite (m : List Host.Cell) (a : Nat) : List Byte → List Host.Cell
  | [] => m
  | b :: t => memWrite (memPut m a b) (a + 1) t

/-- The bytes that stand for a number, little-endian (R3). -/
def leBytes : Nat → Nat → List Byte
  | 0, _ => []
  | n + 1, v => BitVec.ofNat 8 v :: leBytes n (v / 256)

/-- The number that little-endian bytes stand for. -/
def leNat : List Byte → Nat
  | [] => 0
  | b :: t => b.toNat + 256 * leNat t

/-- A little-endian field of a block of bytes: `n` bytes at an offset. -/
def field (bs : List Byte) (off n : Nat) : Nat := leNat ((bs.drop off).take n)

/-- The number at an address. -/
def memNat (m : List Host.Cell) (a n : Nat) : Nat := leNat (memRead m a n)

/-- The memory with a number written at an address. -/
def memSet (m : List Host.Cell) (a n v : Nat) : List Host.Cell := memWrite m a (leBytes n v)

/-! ### Spans -/

/-- The lowest aligned offset from a base at which a length fits below a bound, past as many held spans as the fuel. -/
def lowestFit (al : Nat) (spans : List (Nat × Nat)) (len bound : Nat) : Nat → Nat → Option Nat
  | 0, _ => none
  | n + 1, base =>
    if bound < base + len then none
    else match spans.find? (fun x => decide (x.1 < base + len) && decide (base < x.2)) with
    | none => some base
    | some x => lowestFit al spans len bound n ((x.2 + al - 1) / al * al)

/-! ### Masks -/

/-- The mask of the numbers below a bound that satisfy a condition. -/
def maskUpTo (f : Nat → Bool) : Nat → Half
  | 0 => 0#32
  | n + 1 => if f n then maskUpTo f n ||| (1#32 <<< n) else maskUpTo f n

/-- The lane mask of a condition on lanes. -/
def maskOf (f : Nat → Bool) : Half := maskUpTo f 32

/-- The 8-bit mask of a condition on slices. -/
def sliceMask (f : Nat → Bool) : BitVec 8 := (maskUpTo f 8).setWidth 8

/-- The lanes of a mask, ascending. -/
def lanesOf (m : Half) : List Nat := (upTo 32).filter (fun l => m.getLsbD l)

/-- The lowest lane of a mask, or 32. -/
def lowLane (m : Half) : Nat := (lanesOf m).headD 32

/-- The lowest slice of a mask, or 8. -/
def lowSlice (m : BitVec 8) : Nat := ((upTo 8).filter (fun i => m.getLsbD i)).headD 8

/-! ### Teams, gangs, slices, lanes -/

/-- A team by its place. -/
def State.team (s : State) (u : Nat) : Team := rowGet {} s.teams u
/-- A team changed. -/
def State.modTeam (s : State) (u : Nat) (f : Team → Team) : State := { s with teams := rowMod {} s.teams u f }
/-- A grid by its place. -/
def State.grid (s : State) (g : Nat) : Grid := rowGet {} s.grids g
/-- A grid changed. -/
def State.modGrid (s : State) (g : Nat) (f : Grid → Grid) : State := { s with grids := rowMod {} s.grids g f }
/-- A core by its logical number. -/
def State.core (s : State) (c : Nat) : CoreState := rowGet {} s.cores c
/-- A core changed. -/
def State.modCore (s : State) (c : Nat) (f : CoreState → CoreState) : State := { s with cores := rowMod {} s.cores c f }
/-- A partition by its number. -/
def State.part (s : State) (p : Nat) : Partition := rowGet {} s.parts p
/-- A partition changed. -/
def State.modPart (s : State) (p : Nat) (f : Partition → Partition) : State := { s with parts := rowMod {} s.parts p f }
/-- A window by its number. -/
def State.window (s : State) (w : Nat) : Window := rowGet {} s.windows w
/-- A window changed. -/
def State.modWindow (s : State) (w : Nat) (f : Window → Window) : State := { s with windows := rowMod {} s.windows w f }

/-- A gang of a team. -/
def Team.gang (t : Team) (g : Nat) : Gang := rowGet {} t.gangs g
/-- A gang of a team changed. -/
def Team.modGang (t : Team) (g : Nat) (f : Gang → Gang) : Team := { t with gangs := rowMod {} t.gangs g f }
/-- A gang by team and number. -/
def State.gang (s : State) (u g : Nat) : Gang := (s.team u).gang g
/-- A gang changed. -/
def State.modGang (s : State) (u g : Nat) (f : Gang → Gang) : State := s.modTeam u (fun t => t.modGang g f)

/-- A slice of a gang. -/
def Gang.slice (g : Gang) (i : Nat) : Slice := rowGet {} g.slices i
/-- The slices of a mask changed. -/
def Gang.modSlices (g : Gang) (m : BitVec 8) (f : Nat → Slice → Slice) : Gang :=
  { g with slices := (upTo 8).map (fun i => if m.getLsbD i then f i (g.slice i) else g.slice i) }
/-- A lane of a gang. -/
def Gang.lane (g : Gang) (l : Nat) : Lane := rowGet {} g.lanes l
/-- The lanes of a mask changed. -/
def Gang.modLanes (g : Gang) (m : Half) (f : Nat → Lane → Lane) : Gang :=
  { g with lanes := (upTo 32).map (fun l => if m.getLsbD l then f l (g.lane l) else g.lane l) }

/-- A vector register of a lane. -/
def Lane.vreg (l : Lane) (r : VNum) : VReg := rowGet {} l.v r.toNat
/-- A vector register of a lane replaced. -/
def Lane.setV (l : Lane) (r : VNum) (x : VReg) : Lane := { l with v := rowPut {} l.v r.toNat x }
/-- A predicate of a lane: p0 always reads 1 (R10). -/
def Lane.pred (l : Lane) (p : PNum) : Bool := if p = 0#3 then true else l.p.getLsbD p.toNat
/-- A predicate written; writes to p0 are ignored (R10). -/
def Lane.setP (l : Lane) (p : PNum) (x : Bool) : Lane :=
  if p = 0#3 then l
  else { l with p := if x then l.p ||| (1#8 <<< p.toNat) else l.p &&& ~~~ (1#8 <<< p.toNat) }
/-- A bracket register. -/
def Lane.bracket (l : Lane) (b : BitVec 2) : Word := rowGet 0 l.b b.toNat
/-- A bracket register written. -/
def Lane.setB (l : Lane) (b : BitVec 2) (x : Word) : Lane := { l with b := rowPut 0 l.b b.toNat x }

/-- A k register of a gang. -/
def Gang.kreg (g : Gang) (k : KNum) : Word := rowGet 0 g.k k.toNat
/-- A loop counter. -/
def Gang.lcount (g : Gang) (n : Nat) : Half := rowGet 0 g.lc n
/-- A comparator (R245). -/
def Gang.comparator (g : Gang) (n : Nat) : Word := rowGet 0 g.dbpc n
/-- The gang's standing at a barrier. -/
def Gang.bar (g : Gang) (n : BitVec 4) : BarState := rowGet {} g.bars n.toNat
/-- The phase of a barrier. -/
def Team.phase (t : Team) (n : BitVec 4) : Nat := rowGet 0 t.phases n.toNat
/-- A queue of the team. -/
def Team.queue (t : Team) (q : BitVec 2) : Queue := rowGet {} t.queues q.toNat
/-- A bank of the team. -/
def Team.bank (t : Team) (b : Nat) : Bank := rowGet {} t.banks b

/-- A slice has exited when it holds no live lane (R227). -/
def Slice.exited (x : Slice) : Bool := x.x = 15#4
/-- The slices of a gang that have not exited. -/
def Gang.live (g : Gang) : BitVec 8 := sliceMask (fun i => !(g.slice i).exited)
/-- A gang has exited when every slice has (R227). -/
def Gang.exited (g : Gang) : Bool := g.live = 0#8
/-- Every gang of the team has exited. -/
def Team.gangsExited (t : Team) : Bool := (upTo t.ngang).all (fun g => (t.gang g).exited)
/-- Every party of the team has exited. -/
def Team.exited (t : Team) : Bool := t.gangsExited && (!t.side.present || t.side.exited)

/-- The slices of a sub-gang (R228). -/
def Gang.subgang (g : Gang) (name : Nat) : BitVec 8 :=
  sliceMask (fun i => !(g.slice i).exited && (g.slice i).sub = name)
/-- The names of a gang's sub-gangs, ascending. -/
def Gang.subs (g : Gang) : List Nat := (upTo 8).filter (fun n => g.subgang n ≠ 0#8)

/-- Bit `l` of a 4-bit slice mask in its place in the lane mask. -/
def laneMask (slices : BitVec 8) (f : Nat → BitVec 4) : Half :=
  maskOf (fun l => slices.getLsbD (l / 4) && (f (l / 4)).getLsbD (l % 4))
/-- The active lanes of slices. -/
def Gang.activeOf (g : Gang) (slices : BitVec 8) : Half := laneMask slices (fun i => (g.slice i).m)
/-- The exited lanes of a gang. -/
def Gang.exitedLanes (g : Gang) : Half := laneMask 0xFF#8 (fun i => (g.slice i).x)
/-- The program counter of slices that agree. -/
def Gang.pcOf (g : Gang) (slices : BitVec 8) : Addr := (g.slice (lowSlice slices)).pc

/-! ### GMODE (R65) -/

/-- ET, or none for codes 14 and 15. -/
def gmEt (m : Half) : Option ElemType := ElemType.ofCode (m.extractLsb' 0 4)
/-- RM. -/
def gmRm (m : Half) : BitVec 2 := m.extractLsb' 4 2
/-- SAT. -/
def gmSat (m : Half) : Bool := m.getLsbD 6
/-- FTZ. -/
def gmFtz (m : Half) : Bool := m.getLsbD 7
/-- GP. -/
def gmGp (m : Half) : PNum := m.extractLsb' 8 3
/-- GN. -/
def gmGn (m : Half) : Bool := m.getLsbD 11
/-- QMAP. -/
def gmQmap (m : Half) : Bool := m.getLsbD 12
/-- DET. -/
def gmDet (m : Half) : Bool := m.getLsbD 13
/-- AEN. -/
def gmAen (m : Half) : BitVec 6 := m.extractLsb' 16 6
/-- The guard of a lane (R68). -/
def Lane.guard (l : Lane) (m : Half) : Bool := if gmGp m = 0#3 then true else (l.pred (gmGp m)) != (gmGn m)

/-! ### Counters (R17, R253) -/

/-- A counter's value. -/
def Counter.value (c : Counter) : Nat := c.pend.length
/-- An instruction counted at issue; its place in the issue order is the number issued before. -/
def Counter.count (c : Counter) : Counter :=
  { c with pend := c.pend ++ [{ seq := c.issued, done := false }], issued := c.issued + 1 }
/-- Decrements are applied in issue order: the prefix that is done leaves. -/
def dropDone : List Counted → List Counted
  | [] => []
  | x :: t => if x.done then dropDone t else x :: t
/-- The instruction at a place in the issue order has had its own decrement. -/
def Counter.finish (c : Counter) (seq : Nat) : Counter :=
  { c with pend := dropDone (c.pend.map (fun x => if x.seq = seq then { x with done := true } else x)) }
/-- A flagged operation recorded (R291). -/
def Counter.flag (c : Counter) (f : OpFlag) : Counter := { c with flags := c.flags ++ [f] }

/-- A counter of a gang by name. -/
def Gang.counter (g : Gang) : CounterName → Counter
  | .olc => g.olc
  | .osc => g.osc
  | .enc => g.enc
/-- A counter of a gang changed. -/
def Gang.modCounter (g : Gang) (c : CounterName) (f : Counter → Counter) : Gang :=
  match c with
  | .olc => { g with olc := f g.olc }
  | .osc => { g with osc := f g.osc }
  | .enc => { g with enc := f g.enc }

/-- A party's counter changed; gang 16 is the sidecar, which has only ENC (R30). -/
def State.modPartyCounter (s : State) (u g : Nat) (c : CounterName) (f : Counter → Counter) : State :=
  if g = 16 then (if c = .enc then s.modTeam u (fun t => { t with side := { t.side with enc := f t.side.enc } }) else s)
  else s.modGang u g (fun x => x.modCounter c f)
/-- A party's counter. -/
def State.partyCounter (s : State) (u g : Nat) (c : CounterName) : Counter :=
  if g = 16 then (if c = .enc then (s.team u).side.enc else {}) else (s.gang u g).counter c
/-- A party's k register. -/
def State.partyK (s : State) (u g : Nat) (k : KNum) : Word :=
  if g = 16 then rowGet 0 (s.team u).side.k k.toNat else (s.gang u g).kreg k

/-! ### Free values, order, notices, metering -/

/-- The number of the next free value, and the state after it is drawn (assumption 1: DESIGN CHOICE). -/
def State.draw (s : State) : Nat × State := (s.fresh, { s with fresh := s.fresh + 1 })
/-- The next number in the order of arrivals. -/
def State.nextOrder (s : State) : Nat × State := (s.order, { s with order := s.order + 1 })
/-- A notice sent. -/
def State.notify (s : State) (n : Notice) : State := { s with notices := s.notices ++ [n] }
/-- A message sent. -/
def State.send (s : State) (m : Message) : State := { s with outbox := s.outbox ++ [m] }
/-- A metering counter of a partition raised (R359). -/
def State.meter (s : State) (p i n : Nat) : State :=
  s.modPart p (fun x => { x with counters := rowMod 0 x.counters i (fun c => c + BitVec.ofNat 64 n) })

/-- ε of the timebase: ε₀ + ⌈ρ n⌉ with ρ = 50 · 10⁻⁶ (R310). -/
def Timebase.eps (t : Timebase) : Nat := t.eps0 + (50 * t.n + 999999) / 1000000

/-! ### Rings in kernel memory (R355) -/

/-- PRODUCER of a ring. -/
def ringProducer (m : List Host.Cell) (r : Ring) : Nat := memNat m r.base 8
/-- CONSUMER of a ring. -/
def ringConsumer (m : List Host.Cell) (r : Ring) : Nat := memNat m (r.base + 8) 8
/-- A ring is full when PRODUCER − CONSUMER = N. -/
def ringFull (m : List Host.Cell) (r : Ring) : Bool :=
  (ringProducer m r + 2 ^ 64 - ringConsumer m r) % 2 ^ 64 = r.n
/-- An entry written at PRODUCER, and then the PRODUCER that covers it. -/
def ringPush (m : List Host.Cell) (r : Ring) (e : List Byte) : List Host.Cell :=
  memSet (memWrite m (r.base + 64 + (ringProducer m r % r.n) * e.length) e) r.base 8 (ringProducer m r + 1)
/-- DROPPED raised by one. -/
def ringDrop (m : List Host.Cell) (r : Ring) : List Host.Cell := memSet m (r.base + 16) 8 (memNat m (r.base + 16) 8 + 1)
/-- An entry written, or counted as dropped where the ring is full. -/
def ringLog (m : List Host.Cell) (r : Ring) (e : List Byte) : List Host.Cell :=
  if !r.set || ringFull m r then (if r.set then ringDrop m r else m) else ringPush m r e

/-! ### Taking a trap (R364 to R367) and the ways back (R371) -/

/-- The code of a cause (R368). -/
def Cause.code : Cause → Nat
  | .illegalInstruction => 0x01 | .illegalMode => 0x02 | .scratchRange => 0x03 | .misaligned => 0x04
  | .emptySource => 0x05 | .poison => 0x06 | .orphanWait => 0x07 | .waitTimeout => 0x08 | .indirectDiverge => 0x09
  | .rstackEmpty => 0x0A | .rstackFull => 0x0B | .memberExited => 0x0C | .convergence => 0x0D | .monotone => 0x0E
  | .invRoutine => 0x0F | .launchDepth => 0x10 | .bankNotOwned => 0x11 | .recordInvalid => 0x12 | .timeHeld => 0x13
  | .race => 0x14 | .softTrap => 0x15 | .breakpoint => 0x16 | .queueUnmapped => 0x17 | .loopBuffer => 0x18
  | .stampedAccess => 0x19 | .engineFault => 0x1A

/-- What a trap reports: cause, lane mask, DETAIL, PRODPC and the flags of R367; `lanes` none is the active mask of the unit;
`slices` names the slices that stop where they are more than the unit's (R365). -/
structure TrapInfo where
  cause : Cause
  lanes : Option Half := none
  detail : Word := 0
  prodpc : Word := 0
  inv : Bool := false
  cmp : Bool := false
  slices : Option (BitVec 8) := none
  deriving DecidableEq, Repr

/-- The 64 bytes of a trap ring entry (R367). -/
def trapBytes (kind cause flags slices gang part core team grid : Nat) (pc : Addr) (lanes : Half) (lc : List Half)
    (prodpc detail : Word) (seq : Nat) : List Byte :=
  leBytes 1 kind ++ leBytes 1 cause ++ leBytes 1 flags ++ leBytes 1 slices ++ leBytes 1 gang ++ leBytes 1 part
    ++ leBytes 2 core ++ leBytes 4 team ++ leBytes 4 grid ++ leBytes 8 pc.toNat ++ leBytes 4 lanes.toNat
    ++ leBytes 4 (rowGet 0 lc 0).toNat ++ leBytes 4 (rowGet 0 lc 1).toNat ++ leBytes 4 (rowGet 0 lc 2).toNat
    ++ leBytes 8 prodpc.toNat ++ leBytes 8 detail.toNat ++ leBytes 8 seq

/-- The FLAGS byte of a trap record (R367). -/
def trapFlags (sidecar inv recipe rewindable cmp : Bool) : Nat :=
  (if sidecar then 1 else 0) + (if inv then 2 else 0) + (if recipe then 4 else 0) + (if rewindable then 8 else 0)
    + (if cmp then 16 else 0)

/-- A record enters the partition's trap ring, behind every record that is held, or is held on the link die while the ring is
full or not set; the kernel is interrupted (R366). -/
def State.pushTrap (s : State) (p : Nat) (mk : Nat → List Byte) : State :=
  let x := s.part p
  let bytes := mk x.trapSeq
  let s := s.notify (.trapped p x.trapSeq)
  if x.held.isEmpty && x.trap.set && !ringFull s.kmem x.trap then
    ({ s with kmem := ringPush s.kmem x.trap bytes } : State).modPart p (fun y => { y with trapSeq := y.trapSeq + 1 })
  else
    s.modPart p (fun y => { y with trapSeq := y.trapSeq + 1, held := y.held ++ [{ seq := y.trapSeq, bytes := bytes }] })

/-- Whether the next record of a partition is held rather than written. -/
def State.trapHeld (s : State) (p : Nat) : Option Nat :=
  let x := s.part p
  if x.held.isEmpty && x.trap.set && !ringFull s.kmem x.trap then none else some x.trapSeq

/-- A sub-gang no longer waits at any queue (R217). -/
def Team.unblock (t : Team) (gang sub : Nat) : Team :=
  { t with queues := t.queues.map (fun q => { q with blocked := q.blocked.filter (fun x => x ≠ gang * 8 + sub) }) }

/-- Taking a trap: the record is made at the unit's word and the unit stops there (R364, R365). -/
def State.takeTrap (s : State) (u : Issuer) (t : TrapInfo) : State :=
  let tm := s.team u.team
  let held := s.trapHeld tm.part
  if u.gang = 16 then
    let sd := tm.side
    let s := s.pushTrap tm.part (trapBytes 0 t.cause.code (trapFlags true t.inv false false t.cmp) 0 16 tm.part tm.core
      tm.num tm.grid sd.pc 0 [] t.prodpc t.detail)
    s.modTeam u.team (fun x => { x with side := { x.side with stopped := true, wait := none, held := held } })
  else
    let g := tm.gang u.gang
    let sl := t.slices.getD u.slices
    let lanes := t.lanes.getD (g.activeOf u.slices)
    let s := s.pushTrap tm.part (trapBytes 0 t.cause.code (trapFlags false t.inv g.instar.body.isSome g.instar.rewindable t.cmp) sl.toNat u.gang
      tm.part tm.core tm.num tm.grid (g.pcOf u.slices) lanes g.lc t.prodpc t.detail)
    (s.modTeam u.team (fun x => x.unblock u.gang (g.slice (lowSlice u.slices)).sub)).modGang u.team u.gang (fun x =>
      { x.modSlices sl (fun _ y => { y with stopped := true, stopPc := some y.pc, wait := none, held := held }) with
        skipCmp := x.skipCmp &&& ~~~ sl
        searches := x.searches.filter (fun r => r.slices &&& sl = 0#8) })

/-- A record that stops nothing, of KIND 1 or 2, or of a fault that a party left behind (R302, R383, R385): one of KIND 0 shows the loop
counters of a gang and whether it is rewindable (R367). -/
def State.noteTrap (s : State) (u gang : Nat) (kind cause : Nat) (pc : Addr) (detail : Word) : State :=
  let tm := s.team u
  let own := kind = 0 && gang ≠ 16
  s.pushTrap tm.part (trapBytes kind cause (trapFlags (gang = 16) false false (own && (tm.gang gang).instar.rewindable) false) 0 gang
    tm.part tm.core tm.num tm.grid pc 0 (if own then (tm.gang gang).lc else []) 0 detail)

/-- The stopped slices of a sub-gang. -/
def Gang.stoppedOf (g : Gang) (name : Nat) : BitVec 8 :=
  sliceMask (fun i => (g.subgang name).getLsbD i && (g.slice i).stopped)

/-- A stopped unit may be resumed once its record is in the ring (R366). -/
def State.stopRecorded (s : State) (p : Nat) (held : Option Nat) : Bool :=
  match held with
  | none => true
  | some q => !((s.part p).held.any (fun h => h.seq = q))

/-- The unit goes on: the stop ends, and where it is at the PC of its trap, a comparator is skipped for one word (R245, R371). -/
def State.unstop (s : State) (u g : Nat) (slices : BitVec 8) : State :=
  if g = 16 then s.modTeam u (fun x => { x with side := { x.side with stopped := false, held := none } })
  else s.modGang u g (fun x =>
    { x.modSlices slices (fun _ y => { y with stopped := false, stopPc := none, held := none }) with
      skipCmp := x.skipCmp ||| sliceMask (fun i => slices.getLsbD i && (x.slice i).stopPc = some (x.slice i).pc) })

end Sys2Proof.Machine
end

