-- ==== Sys2Proof/Machine/Spaces.lean ====
section
/-!
DEFINITION. The memory spaces (R21): scratchpad by window offset, operand buffer, device and far memory through the page tables
(R345 to R347), engine addresses (R23), and the increment of a sync word (R285).
-/
namespace Sys2Proof.Machine

/-! ### Error marks (R391, R392, R394): one mark for each word of 8 bytes -/

/-- The words of 8 bytes that bytes from an address touch. -/
def wordsOf (a n : Nat) : List Nat :=
  if n = 0 then [] else (upTo ((a + n - 1) / 8 - a / 8 + 1)).map (fun i => a / 8 + i)
/-- Some word that the bytes touch is marked. -/
def marked (l : List Nat) (a n : Nat) : Bool := (wordsOf a n).any (fun w => l.contains w)
/-- Marks after a write: a word that the write replaces whole is good again. -/
def unmark (l : List Nat) (a n : Nat) : List Nat := l.filter (fun w => !(decide (a ≤ 8 * w) && decide (8 * w + 8 ≤ a + n)))

/-! ### Scratchpad -/

/-- The place of a scratchpad offset of a core in `State.spad`. -/
def spadKey (core off : Nat) : Nat := core * 4194304 + off
/-- The place of an operand-buffer offset of a core in `State.obuf`. -/
def obufKey (core off : Nat) : Nat := core * 1048576 + off
/-- The place of a window offset: window base plus offset, on the home core, whose addresses stay the team's (R209, R274). -/
def Team.key (t : Team) (off : Nat) : Nat := spadKey t.home (t.base + off)

/-- Bytes of scratchpad. -/
def State.spadBytes (s : State) (key n : Nat) : List Byte := memRead s.spad key n
/-- A number in scratchpad. -/
def State.spadNat (s : State) (key n : Nat) : Nat := memNat s.spad key n
/-! Writes that engine commands take note of (R189, R295). -/

/-- Bytes 0 to 63 of a Skipper command's block, and the regions that it names: DEST, OVF and the status area (R183, R189), as window
offsets and lengths. -/
def Cmd.regions (c : Cmd) : List (Nat × Nat) :=
  [(field c.skip.block 40 8, 8 * field c.skip.block 32 4), (field c.skip.block 48 8, 4 * field c.skip.block 36 4), (c.addr + 64, 32)]
/-- Two ranges share a byte. -/
def rangesMeet (a n b m : Nat) : Bool := decide (a < b + m) && decide (b < a + n) && n ≠ 0 && m ≠ 0
/-- The 16-byte places that bytes from an address touch. -/
def placesOf (a n : Nat) : List Nat := if n = 0 then [] else (upTo ((a + n - 1) / 16 - a / 16 + 1)).map (fun i => a / 16 + i)
/-- A command that has not ended takes note of a write: a Skipper command of one to its block or regions, a copy chain of every place. -/
def Cmd.note (c : Cmd) (base key n : Nat) : Cmd :=
  if c.stage = .ended then c
  else if c.skipper then
    (if ((c.addr, 64) :: c.regions).any (fun r => rangesMeet (base + r.1) r.2 key n) then { c with skip := { c.skip with tainted := true } }
     else c)
  else { c with wrote := c.wrote ++ (placesOf key n).filter (fun x => !c.wrote.contains x) }

/-- Bytes written to scratchpad. -/
def State.spadWrite (s : State) (key : Nat) (bs : List Byte) : State :=
  { s with
    spad := memWrite s.spad key bs
    bad := { s.bad with spad := unmark s.bad.spad key bs.length }
    cmds := s.cmds.map (fun c => c.note ((s.team c.team).key 0) key bs.length) }
/-- A number written to scratchpad. -/
def State.spadSet (s : State) (key n v : Nat) : State := s.spadWrite key (leBytes n v)
/-- An uncorrectable word among bytes of scratchpad. -/
def State.spadBad (s : State) (key n : Nat) : Bool := marked s.bad.spad key n

/-! Reads of a Skipper command's regions before its completion has been observed (R189, R190). -/

/-- The place lies in a region of a Skipper command, of a team that still has its window, whose completion nobody has observed. -/
def State.veiled (s : State) (key : Nat) : Bool :=
  s.cmds.any (fun c => c.skipper && !c.skip.observed && (s.team c.team).live &&
    c.regions.any (fun r => rangesMeet ((s.team c.team).key r.1) r.2 key 1))
/-- Some byte of a range does. -/
def State.veils (s : State) (key n : Nat) : Bool := (upTo n).any (fun i => s.veiled (key + i))
/-- The bytes that a program's read gives: free values where they are undefined (assumption 1: DESIGN CHOICE). -/
def State.seenBytes (s : State) (free key n : Nat) : List Byte :=
  if s.veils key n then (upTo n).map (fun i => if s.veiled (key + i) then Config.freeByte (free + i) else memGet s.spad (key + i))
  else s.spadBytes key n
/-- The number that a program's read gives. -/
def State.seenNat (s : State) (free key n : Nat) : Nat := leNat (s.seenBytes free key n)
/-- The bytes that a program's read gives, and the state after the free values are drawn. -/
def State.spadSeen (s : State) (key n : Nat) : List Byte × State :=
  (s.seenBytes s.fresh key n, if s.veils key n then { s with fresh := s.fresh + n } else s)

/-- An access of `w` bytes at a window address lies in the window (R274). -/
def inWindow (t : Team) (a : Word) (w : Nat) : Bool := a.toNat + w ≤ t.scratch

/-- The team whose window holds a range of a core's scratchpad, in a partition (R24, R208). -/
def State.windowOwner (s : State) (p core off n : Nat) : Option Nat :=
  (upTo s.teams.length).find? (fun u =>
    let t := s.team u
    t.live && t.part = p && t.home = core && t.base ≤ off && off + n ≤ t.base + t.scratch)

/-- The lines of a window that a range touches. -/
def linesOf (off n : Nat) : List Nat :=
  if n = 0 then [] else (upTo ((off + n - 1) / 64 - off / 64 + 1)).map (fun i => off / 64 + i)

/-- The tag of a line; a tag of another epoch is empty (R218). -/
def Team.lineTag (t : Team) (line : Nat) : LineTag :=
  let g : LineTag := rowGet {} t.lines line
  if g.epoch = t.epoch then g else { epoch := t.epoch }

/-- Engine and merge-unit writes clear the tags of the lines they write (R218). -/
def State.clearLines (s : State) (u off n : Nat) : State :=
  s.modTeam u (fun t => { t with lines := (linesOf off n).foldl (fun ls i => rowPut {} ls i {}) t.lines })

/-- A write by an engine to a range of a core's scratchpad that lies in a window. -/
def State.engineSpadWrite (s : State) (p core off : Nat) (bs : List Byte) : State :=
  let s' := s.spadWrite (spadKey core off) bs
  match s.windowOwner p core off bs.length with
  | some u => s'.clearLines u (off - (s.team u).base) bs.length
  | none => s'

/-! ### Sync words (R284, R285) -/

/-- COUNT of the first eight bytes of a sync word. -/
def swCount (lo : Nat) : Nat := lo % 2 ^ 40
/-- GEN. -/
def swGen (lo : Nat) : Nat := lo / 2 ^ 40 % 2 ^ 16
/-- FAULT. -/
def swFault (lo : Nat) : Bool := lo / 2 ^ 56 % 2 = 1
/-- The first eight bytes with COUNT and GEN replaced. -/
def swWith (lo count gen : Nat) : Nat := count + gen * 2 ^ 40 + lo / 2 ^ 56 * 2 ^ 56
/-- TARGET of the last eight bytes. -/
def swTarget (hi : Nat) : Nat := hi % 2 ^ 40
/-- FAULT, TIERMISS and OVERFLOW as bits 0 to 2. -/
def swFlags (lo : Nat) : Nat := lo / 2 ^ 56 % 8
/-- Flags set, by the same bits. -/
def swSetFlags (lo fl : Nat) : Nat :=
  lo % 2 ^ 56 + ((BitVec.ofNat 8 (lo / 2 ^ 56)) ||| (BitVec.ofNat 8 fl)).toNat * 2 ^ 56

/-- Increment(sw, inc) on the first eight bytes, for a TARGET (R285). -/
def swIncrement (lo target inc : Nat) : Nat :=
  let c := swCount lo + inc
  if target = 0 then swWith lo (c % 2 ^ 40) (swGen lo)
  else swWith lo (c % target) ((swGen lo + c / target) % 2 ^ 16)

/-- An increment of the sync word at a place of the scratchpad; the incrementing unit may set flags with it. An uncorrectable word is not
incremented: its bits stay bad (R392). -/
def State.syncAdd (s : State) (key inc flags : Nat) : State :=
  if s.spadBad key 16 then s
  else s.spadSet key 8 (swIncrement (swSetFlags (s.spadNat key 8) flags) (swTarget (s.spadNat (key + 8) 8)) inc)

/-- FAULT set, GEN advanced by one and COUNT 0, in one event (R301); the code is what the waiter's trap reports (R369). An uncorrectable
word is left as it stands (R392). -/
def State.syncFault (s : State) (key code : Nat) : State :=
  if s.spadBad key 16 then s
  else
    let lo := swSetFlags (s.spadNat key 8) 1
    let s := s.spadSet key 8 (swWith lo 0 ((swGen lo + 1) % 2 ^ 16))
    { s with syncCodes := (key, code) :: s.syncCodes.filter (fun x => x.1 ≠ key) }

/-! ### Translation (R345 to R347) -/

/-- Tiers of a page (R346). -/
inductive Tier where
  | hbm | far | absent
  deriving DecidableEq, Repr

/-- A valid leaf: its fields, where its entry lies, and whether it maps 32 MiB. -/
structure Leaf where
  raw : Word
  tier : Tier
  r : Bool
  w : Bool
  s : Bool
  z : Bool
  p : Bool
  frame : Nat
  entry : Nat
  big : Bool
  deriving DecidableEq, Repr

/-- What a walk finds. -/
inductive Walk where
  | notValid
  | malformed
  | leaf (l : Leaf)
  deriving DecidableEq, Repr

/-- The tier a code of bits 62:61 names. -/
def Tier.ofCode (c : Nat) : Option Tier :=
  match c with
  | 0 => some .hbm | 1 => some .far | 2 => some .absent | _ => none

/-- A valid entry read as a leaf, or none where R346 makes it malformed; `migOk`: hardware has a page-in of the page under way. -/
def leafOf (e : Word) (entry : Nat) (big migOk : Bool) : Option Leaf :=
  match Tier.ofCode (e.extractLsb' 61 2).toNat with
  | none => none
  | some t =>
    let sBit := e.getLsbD 58
    let frame := (e.extractLsb' 16 36).toNat * 65536
    if e.extractLsb' 52 2 ≠ 0#2 then none
    else if sBit && (big || t ≠ .hbm) then none
    else if e.getLsbD 57 && t ≠ .hbm then none
    else if e.getLsbD 56 && (big || t ≠ .far) then none
    else if e.getLsbD 54 && !migOk then none
    else if t ≠ .absent && big && frame % 33554432 ≠ 0 then none
    else if sBit && frame % 524288 ≠ 0 then none
    else some { raw := e, tier := t, r := e.getLsbD 60, w := e.getLsbD 59, s := sBit, z := e.getLsbD 57, p := e.getLsbD 56,
                frame := frame, entry := entry, big := big }

/-- The table address of a valid pointer, or none where R346 makes it malformed: every bit but V and 51:12 is zero. -/
def pointerOf (e : Word) (align : Nat) : Option Nat :=
  let a := (e.extractLsb' 12 40).toNat * 4096
  if e.extractLsb' 52 11 ≠ 0#11 || e.extractLsb' 0 12 ≠ 0#12 || a % align ≠ 0 then none else some a

/-- The level-1 index of a virtual address. -/
def vaL1 (va : Nat) : Nat := va / 2 ^ 36 % 4096
/-- The level-2 index. -/
def vaL2 (va : Nat) : Nat := va / 2 ^ 25 % 2048
/-- The level-3 index. -/
def vaL3 (va : Nat) : Nat := va / 2 ^ 16 % 512

/-- An entry of a table in kernel memory. -/
def State.pte (s : State) (table i : Nat) : Word := BitVec.ofNat 64 (memNat s.kmem (table + 8 * i) 8)

/-- A page-in of the page is under way (R351). -/
def State.migrating (s : State) (p va : Nat) : Bool := s.pageIns.any (fun x => x.part = p && x.va / 65536 = va / 65536)

/-- Bytes of frame that a leaf maps: a stamped leaf has a backing of 512 KiB (R314). -/
def Leaf.bytes (l : Leaf) : Nat := if l.big then 33554432 else if l.s then 524288 else 65536
/-- Bytes of device memory: a disabled pseudo-channel takes its share away (R396). -/
def State.hbmBytes (s : State) : Nat := s.nchan * Config.channelBytes
/-- What a walk that ends at a leaf finds: a frame beyond the device memory is none (assumption 39: DESIGN CHOICE). -/
def State.leafFound (s : State) : Option Leaf → Walk
  | none => .malformed
  | some l => if l.tier = .hbm && decide (s.hbmBytes < l.frame + l.bytes) then .notValid else .leaf l

/-- The walk of a 48-bit virtual address of a partition (R345). -/
def State.walk (s : State) (p va : Nat) : Walk :=
  let x := s.part p
  if !x.live || 2 ^ 48 ≤ va then .notValid
  else
    let e1 := s.pte (x.tableBase + x.root) (vaL1 va)
    if !e1.getLsbD 63 then .notValid
    else match pointerOf e1 16384 with
    | none => .malformed
    | some t2 =>
      let e2 := s.pte t2 (vaL2 va)
      if !e2.getLsbD 63 then .notValid
      else if e2.getLsbD 55 then
        s.leafFound (leafOf e2 (t2 + 8 * vaL2 va) true false)
      else match pointerOf e2 4096 with
      | none => .malformed
      | some t3 =>
        let e3 := s.pte t3 (vaL3 va)
        if !e3.getLsbD 63 then .notValid
        else s.leafFound (leafOf e3 (t3 + 8 * vaL3 va) false (s.migrating p va))

/-- The leaf of an address, or none; a malformed entry is reported to the resident kernel (R346). -/
def State.translate (s : State) (p va : Nat) : State × Option Leaf :=
  match s.walk p va with
  | .leaf l => (s, some l)
  | .malformed => (s.notify (.malformed p va), none)
  | .notValid => (s, none)

/-- The offset of an address in its page. -/
def Leaf.offset (l : Leaf) (va : Nat) : Nat := if l.big then va % 33554432 else va % 65536

/-- The physical address of an access through a leaf. -/
def Leaf.phys (l : Leaf) (va : Nat) : Nat := l.frame + l.offset va

/-- A leaf grants an access (R347): valid tier, and the permissions needed. -/
def Leaf.grants (l : Leaf) (needR needW : Bool) : Bool := l.tier ≠ .absent && (!needR || l.r) && (!needW || l.w)

/-- Bytes of device or far memory. -/
def State.physBytes (s : State) (far : Bool) (a n : Nat) : List Byte := memRead (if far then s.far else s.hbm) a n
/-- Bytes written to device or far memory. -/
def State.physWrite (s : State) (far : Bool) (a : Nat) (bs : List Byte) : State :=
  if far then { s with far := memWrite s.far a bs, bad := { s.bad with far := unmark s.bad.far a bs.length } }
  else { s with hbm := memWrite s.hbm a bs, bad := { s.bad with hbm := unmark s.bad.hbm a bs.length } }
/-- An uncorrectable word among bytes of device or far memory. -/
def State.physBad (s : State) (far : Bool) (a n : Nat) : Bool := marked (if far then s.bad.far else s.bad.hbm) a n

/-- A store of the resident kernel. -/
def State.kstore (s : State) (k : KStore) : State :=
  match k.space with
  | .kernel => { s with kmem := memSet s.kmem k.addr 8 k.val.toNat }
  | .device => s.physWrite false k.addr (leBytes 8 k.val.toNat)
  | .far => s.physWrite true k.addr (leBytes 8 k.val.toNat)
/-- The stores that ride with a command, in order (assumption 8: DESIGN CHOICE). -/
def State.kstores (s : State) (ks : List KStore) : State := ks.foldl State.kstore s

/-- Clusters enabled on this module (R8). -/
def State.nclusters (s : State) : Nat := s.nclusterMap

/-! ### Engine addresses (R23) -/

/-- The forms of an engine address. -/
inductive EngAddr where
  | device (va : Nat)
  | local_ (core : Nat) (obuf : Bool) (off : Nat)
  | pod (dev : BitVec 21) (win : BitVec 7) (off : Nat)
  /-- A reserved bit or value. -/
  | reserved
  deriving DecidableEq, Repr

/-- An engine address read by its form. -/
def State.engAddr (s : State) (a : Word) : EngAddr :=
  if !a.getLsbD 63 then
    (if a.extractLsb' 48 15 ≠ 0#15 then .reserved else .device (a.extractLsb' 0 48).toNat)
  else if !a.getLsbD 62 then
    let core := (a.extractLsb' 54 8).toNat
    let sub := (a.extractLsb' 52 2).toNat
    let off := (a.extractLsb' 0 22).toNat
    if a.extractLsb' 22 30 ≠ 0#30 || 2 ≤ sub || 4 * s.nclusters ≤ core then .reserved
    else if (if sub = 0 then Config.scratchBytes else Config.operandBytes) ≤ off then .reserved
    else .local_ core (sub = 1) off
  else .pod (a.extractLsb' 41 21) (a.extractLsb' 34 7) (a.extractLsb' 0 34).toNat

/-- The core-local engine address of a window offset of the team's home core (R297). -/
def Team.engineAddr (t : Team) (off : Nat) : Word :=
  BitVec.ofNat 64 (2 ^ 63 + t.home * 2 ^ 54 + (t.base + off))

/-- The record of a partition's team that holds a range of a core's operand buffer, LIVE or FILLING (R24, R150). -/
def State.recordOwner (s : State) (p core off n : Nat) : Bool :=
  (upTo Config.coreRecords).any (fun r =>
    let x : ObRecord := rowGet {} (s.core core).records r
    (x.state = .live || x.state = .filling) && (s.team x.team).part = p && x.base ≤ off && off + n ≤ x.base + x.len)

/-- The key of a partition's grant for a device and window (R353, R354). -/
def State.grantKey (s : State) (p : Nat) (dev : BitVec 21) (win : BitVec 7) : Option Word :=
  (s.grants.find? (fun g => g.part = p && g.device = dev && g.window = win)).map (·.key)

/-! ### Fetch (R235, R347, R349, R391) -/

/-- What a fetch gives. -/
inductive Fetched where
  | word (w : Half)
  /-- The page is being zeroed: the fetch is held (R349). -/
  | held
  /-- No word can be run from there (R235). -/
  | fault
  deriving DecidableEq, Repr

/-- The word at a program counter of a partition. -/
def State.fetch (s : State) (p : Nat) (pc : Addr) : Fetched :=
  match s.walk p pc.toNat with
  | .leaf l =>
    if !l.grants true false || l.s then .fault
    else if l.z then .held
    else if s.physBad (l.tier = .far) (l.phys pc.toNat) 4 then .fault
    else .word (wordOfBytes (s.physBytes (l.tier = .far) (l.phys pc.toNat) 4))
  | _ => .fault

/-- What a fetch that is not held leaves: the report of a malformed entry (R346), and the bytes moved over CXL where the page is FAR
(R350, R359). -/
def State.noteFetch (s : State) (p : Nat) (pc : Addr) : State :=
  match s.walk p pc.toNat with
  | .malformed => s.notify (.malformed p pc.toNat)
  | .notValid => s
  | .leaf l => if l.tier = .far && l.grants true false && !l.z then s.meter p 7 4 else s

/-- A home core's records belong to the team by the core of its home (R209). -/
def State.record (s : State) (core r : Nat) : ObRecord := rowGet {} (s.core core).records r
/-- A record changed. -/
def State.modRecord (s : State) (core r : Nat) (f : ObRecord → ObRecord) : State :=
  s.modCore core (fun c => { c with records := rowMod {} c.records r f })

end Sys2Proof.Machine
end

