-- ==== Sys2Proof/Machine/Access.lean ====
section
/-!
DEFINITION. Accesses to device memory by engines and homes: translation of a range page by page (R347 to R349), the tier log and
page-ins that a page of tier FAR brings (R350 to R352), windows (R353, R354), and sync words named by an engine address.
-/
namespace Sys2Proof.Machine

/-! ### Ranges through the page tables -/

/-- A part of a range that lies in one page. -/
structure Span where
  far : Bool
  phys : Nat
  len : Nat
  va : Nat
  leaf : Leaf
  deriving DecidableEq, Repr

/-- What judging an access finds. -/
inductive Judged where
  | spans (xs : List Span)
  /-- The access is held: its page is being zeroed (R349), or a page-in holds writes (R351). -/
  | held
  /-- The code of R369 and R301: 3 or 5. -/
  | fault (code : Nat)
  deriving DecidableEq, Repr

/-- One page of a range. -/
def State.judgePage (s : State) (p va n : Nat) (needR needW stamped : Bool) : Judged :=
  match s.walk p va with
  | .leaf l =>
    if !l.grants needR needW || (stamped && l.tier = .far) then .fault 3
    else if l.z || (needW && l.raw.getLsbD 54) then .held
    else if l.s != stamped then .fault 5
    else .spans [{ far := l.tier = .far, phys := l.phys va, len := n, va := va, leaf := l }]
  | _ => .fault 3

/-- A range of `n` bytes, page by page, the first page that does not pass deciding. -/
def State.judgeFrom (s : State) (p : Nat) (needR needW stamped : Bool) : Nat → Nat → Nat → Judged
  | 0, _, _ => .spans []
  | fuel + 1, va, n =>
    if n = 0 then .spans []
    else
      let k := min n (65536 - va % 65536)
      match s.judgePage p va k needR needW stamped with
      | .spans xs =>
        match s.judgeFrom p needR needW stamped fuel (va + k) (n - k) with
        | .spans ys => .spans (xs ++ ys)
        | j => j
      | j => j

/-- A range judged. -/
def State.judge (s : State) (p va n : Nat) (needR needW stamped : Bool) : Judged :=
  s.judgeFrom p needR needW stamped (n / 65536 + 2) va n

/-- Reports of malformed entries that an access met (R346). -/
def State.reportMalformed (s : State) (p va n : Nat) : State :=
  let s := (s.translate p va).1
  if va / 65536 = (va + n - 1) / 65536 then s else (s.translate p (va + n - 1)).1

/-- The bytes of spans. -/
def State.spanBytes (s : State) (xs : List Span) : List Byte :=
  xs.foldr (fun x acc => s.physBytes x.far x.phys x.len ++ acc) []
/-- An uncorrectable word among the bytes of spans. -/
def State.spanBad (s : State) (xs : List Span) : Bool := xs.any (fun x => s.physBad x.far x.phys x.len)
/-- Bytes written to spans. -/
def State.spanWrite (s : State) : List Span → List Byte → State
  | [], _ => s
  | x :: xs, bs => (s.physWrite x.far x.phys (bs.take x.len)).spanWrite xs (bs.drop x.len)

/-! ### Staging SRAM (R340) -/

/-- Lines of the staging SRAM: 64 MiB in lines of 64 bytes (assumption 40: DESIGN CHOICE). -/
def stagingLines : Nat := 1048576
/-- A line has a colour of a partition. -/
def State.ownColour (s : State) (p line : Nat) : Bool := (s.part p).colours.getLsbD (Config.stagingColour line).toNat
/-- A line takes the bytes of a transfer, where it has a colour of the partition. -/
def State.stageLine (s : State) (p line : Nat) (bs : List Byte) : State :=
  if s.ownColour p line then
    { s with staging := s.staging.filter (fun x => x.line ≠ line) ++ [{ line := line, part := p, bytes := bs }] }
  else s
/-- Bytes of a partition's transfer over the fabric or CXL pass through the staging SRAM, in lines of its own colours (assumption 40:
DESIGN CHOICE). -/
def State.stage (s : State) (p : Nat) (bs : List Byte) : State :=
  let n := (bs.length + 63) / 64
  (upTo n).foldl (fun z i => z.stageLine p (Config.stagingLine (s.fresh + i) % stagingLines) ((bs.drop (64 * i)).take 64))
    { s with fresh := s.fresh + n }

/-! ### Tier log and page-in (R350 to R352) -/

/-- A tier-log record (R352). -/
def State.tierRecord (s : State) (p page source kind flags core frame : Nat) : State :=
  { s with kmem := ringLog s.kmem (s.part p).tier (leBytes 8 page ++ leBytes 8 s.tb.te ++ leBytes 1 source ++ leBytes 1 kind
      ++ leBytes 1 flags ++ leBytes 1 0 ++ leBytes 2 core ++ leBytes 2 0 ++ leBytes 8 frame) }

/-- The promote pool is empty. -/
def poolEmpty (m : List Host.Cell) (r : Ring) : Bool := !r.set || ringProducer m r = ringConsumer m r

/-- A page-in of a page starts: a frame is taken from the pool, and MIG is set with one write (R351). -/
def State.pageInStart (s : State) (p va : Nat) (l : Leaf) : State :=
  let r := (s.part p).pool
  let n := ringConsumer s.kmem r
  let frame := memNat s.kmem (r.base + 64 + n % r.n * 8) 8
  let m := memSet s.kmem (r.base + 8) 8 (n + 1)
  let m := memSet m l.entry 8 (l.raw ||| (1#64 <<< 54)).toNat
  { s with kmem := m, pageIns := s.pageIns ++ [{ part := p, va := va / 65536 * 65536, old := l.raw, frame := frame }] }

/-- An access to a page of tier FAR: its record, and the page-in that P schedules (R350, R351). -/
def State.farMiss (s : State) (p source core : Nat) (x : Span) : State :=
  let page := x.va / 65536 * 65536
  if !x.leaf.p then s.tierRecord p page source 0 0 core 0
  else if s.migrating p x.va || poolEmpty s.kmem (s.part p).pool then
    s.tierRecord p page source 0 (if poolEmpty s.kmem (s.part p).pool then 2 else 0) core 0
  else (s.pageInStart p x.va x.leaf).tierRecord p page source 0 1 core 0

/-- The records of all FAR pages of an access, and the bytes moved over CXL (R359), which pass through the staging SRAM. -/
def State.farMisses (s : State) (p source core : Nat) (xs : List Span) : State :=
  xs.foldl (fun s x =>
    if x.far then ((s.meter p 7 x.len).farMiss p source core x).stage p (s.physBytes true x.phys x.len) else s) s
/-- Some page of the access is FAR. -/
def anyFar (xs : List Span) : Bool := xs.any (·.far)

/-! ### Windows at their home (R353, R354) -/

/-- What a kind of request needs of PERM and of the page (R347). -/
def ReqKind.needs : Sys2Proof.ReqKind → Bool × Bool
  | .rld | .ldat | .engRead => (true, false)
  | .rst | .rstf | .stmp | .engWrite => (false, true)
  | .raadd | .rcas | .sync => (true, true)
/-- The kinds that reach stamped pages. -/
def ReqKind.isStamped : Sys2Proof.ReqKind → Bool
  | .stmp | .ldat => true
  | _ => false

/-- A window passes a request on to the page tables: rows 1 to 4 of R354. -/
def Window.passes (x : Window) (key : Word) (kind : ReqKind) (off size : Nat) : Bool :=
  x.state = .open_ && x.key = key && (!(ReqKind.needs kind).1 || x.r) && (!(ReqKind.needs kind).2 || x.w) && off + size ≤ x.limit

/-- Reports of malformed entries that a request through a window met. -/
def State.reportWindow (s : State) (w : BitVec 7) (key : Word) (kind : ReqKind) (off size : Nat) : State :=
  let x := s.window w.toNat
  if x.passes key kind off size then s.reportMalformed x.part (x.base + off) size else s

/-- The judgement of a request at a window's home, by the first row of R354 that applies: the spans, and the partition. A page of
tier FAR under STMP or LDAT is a fault of code 3 (R369), and no refusal. -/
def State.judgeWindow (s : State) (w : BitVec 7) (key : Word) (kind : ReqKind) (off size : Nat) : Judged × Nat :=
  let x := s.window w.toNat
  let nd := ReqKind.needs kind
  if !x.passes key kind off size then (.fault 7, x.part)
  else
    match s.judge x.part (x.base + off) size nd.1 nd.2 (ReqKind.isStamped kind) with
    | .fault 3 =>
      -- a page without the permission is a refusal; an ABSENT or FAR one is told apart by the walk
      (match s.walk x.part (x.base + off) with
        | .leaf l => if l.grants nd.1 nd.2 then .fault 3 else .fault 7
        | _ => .fault 7, x.part)
    | j => (j, x.part)

/-! ### Sync words named by an engine address (R196, R203) -/

/-- A DONE address that R196 refuses: not 16-byte aligned, of a reserved form, stamped, or core-local and outside every window of
the partition. -/
def State.doneLegal (s : State) (p : Nat) (a : Word) : Bool :=
  a.toNat % 16 = 0 &&
  (match s.engAddr a with
    | .reserved => false
    | .local_ core obuf off => !obuf && (s.windowOwner p core off 16).isSome
    | .device va => (match s.walk p va with
      | .leaf l => !l.s
      | _ => true)
    | .pod dev win off => dev ≠ s.devid || (match s.walk (s.window win.toNat).part ((s.window win.toNat).base + off) with
      | .leaf l => !l.s
      | _ => true))

/-- An increment of a sync word of device memory; an uncorrectable word is left as it stands (R391). -/
def State.spanSync (s : State) (xs : List Span) (inc flags : Nat) : State :=
  if s.spanBad xs then s
  else
    let b := s.spanBytes xs
    s.spanWrite xs (leBytes 8 (swIncrement (swSetFlags (field b 0 8) flags) (swTarget (field b 8 8)) inc) ++ b.drop 8)

/-- An increment of the sync word at an engine address by a front end, with flags; an address that does not translate takes
none (R201, R203). A word in another module's window is reached by a request (R354). -/
def State.syncAt (s : State) (p : Nat) (a : Word) (inc flags : Nat) : State :=
  match s.engAddr a with
  | .reserved => s
  | .local_ core obuf off => if obuf || (s.windowOwner p core off 16).isNone then s else s.syncAdd (spadKey core off) inc flags
  | .device va =>
    (match s.judge p va 16 true true false with
      | .spans xs => s.spanSync xs inc flags
      | _ => s.reportMalformed p va 16)
  | .pod dev win off =>
    match s.grantKey p dev win with
    | none => s
    | some key =>
      if dev = s.devid then
        (match s.judgeWindow win key .sync off 16 with
          | (.spans xs, _) => s.spanSync xs inc flags
          | _ => s.reportWindow win key .sync off 16)
      else s.send (.request dev win key .sync off 16 (BitVec.ofNat 64 inc) (BitVec.ofNat 64 flags) 0 0 [])

end Sys2Proof.Machine
end

