-- ==== Sys2Proof/Machine/Launch.lean ====
section
/-!
DEFINITION. Grid descriptors (R196), their refusal (R201, R204), and the queue of a front end (R197, R200).
-/
namespace Sys2Proof.Machine

/-- A descriptor read from its 64 bytes. -/
def descOf (b : List Byte) : Desc :=
  { entry := BitVec.ofNat 64 (field b 0 8), sidecar := BitVec.ofNat 64 (field b 8 8), param := BitVec.ofNat 64 (field b 16 8),
    doneWord := BitVec.ofNat 64 (field b 24 8), teams := field b 32 4, scratch := field b 36 4, tagSets := field b 40 2,
    gangs := field b 42 1, vregs := field b 43 1, banks := field b 44 1, pin := field b 46 1 % 2 = 1 }

/-- An address of a first word is legal. -/
def entryLegal (a : Word) : Bool := a.toNat % 4 = 0 && a.toNat < 2 ^ 48

/-- A descriptor that breaks no entry of R196, and that some core of the partition could fit with every resource free (R205). -/
def State.descLegal (s : State) (p : Nat) (b : List Byte) : Bool :=
  let d := descOf b
  entryLegal d.entry && entryLegal d.sidecar && (d.doneWord = 0#64 || s.doneLegal p d.doneWord) && d.teams ≠ 0
    && d.scratch % 16384 = 0 && d.scratch ≤ Config.scratchBytes
    && [0, 1, 2, 4, 8, 16, 32, 64, 128, 256].contains d.tagSets && 1 ≤ d.gangs && d.gangs ≤ 16
    && [16, 32, 48, 64].contains d.vregs && d.banks ≤ 8 && field b 45 1 = 0 && field b 46 1 / 2 = 0
    && (b.drop 47).all (· = 0#8) && (s.part p).lo ≤ (s.part p).hi && b.length = 64

/-- The DONE word of a descriptor lies in a page that is being zeroed, so that its increment is held (R349). -/
def State.doneHeld (s : State) (p : Nat) (a : Word) : Bool :=
  a ≠ 0#64 &&
  (match s.engAddr a with
    | .device va => s.judge p va 16 true true false = .held
    | .pod dev win off =>
      dev = s.devid && (match s.grantKey p dev win with
        | some key => (s.judgeWindow win key .sync off 16).1 = .held
        | none => false)
    | _ => false)

/-- refuse(desc) of R201: FAULT and one increment of a legal DONE word, and the front end's error status; `rule` is the rule that
the entry or descriptor breaks. -/
def State.refuseDesc (s : State) (p : Nat) (done : Option Word) (seq : Option Nat) (rule : Nat) : State :=
  let s := match done with
    | some a => if a ≠ 0#64 && s.doneLegal p a then s.syncAt p a 1 1 else s
    | none => s
  (s.modPart p (fun x => { x with fe := { x.fe with errors := x.fe.errors ++ [(seq.getD (2 ^ 32), rule)] } })).notify (.refusedEntry p seq)

/-- A grid enters a queue of its partition's front end. -/
def State.enqueue (s : State) (g : Grid) : State :=
  { s with grids := s.grids ++ [{ g with live := true, order := s.order }], order := s.order + 1 }

/-- Device-launched grids of a front end that have not retired (R201). -/
def State.launched (s : State) (p : Nat) : Nat := (s.grids.filter (fun g => g.live && g.part = p && g.seq.isNone)).length

end Sys2Proof.Machine
end

