-- ==== Sys2Proof/Machine/Flags.lean ====
section
/-!
DEFINITION. The causes of the arithmetic log: the set an operation raises, which of them AEN enables, and the merging of raises
into the records a gang holds (R100, R109, R375, R376).
-/
namespace Sys2Proof.Machine

/-- A set of causes: bit i is the cause of code i (R375). -/
abbrev Causes := BitVec 7

/-- No cause. -/
def noCause : Causes := 0#7
/-- INVALID. -/
def cInvalid : Causes := 1#7
/-- DIVZERO. -/
def cDivzero : Causes := 2#7
/-- OVERFLOW. -/
def cOverflow : Causes := 4#7
/-- UNDERFLOW. -/
def cUnderflow : Causes := 8#7
/-- INEXACT. -/
def cInexact : Causes := 16#7
/-- BADPACK. -/
def cBadpack : Causes := 32#7
/-- SCALE_NAN. -/
def cScaleNan : Causes := 64#7

/-- The cause of a code (R375). -/
def LogCause.ofCode (i : Nat) : LogCause :=
  match i with
  | 0 => .invalid | 1 => .divzero | 2 => .overflow | 3 => .underflow | 4 => .inexact | 5 => .badpack | _ => .scaleNan
/-- The code of a cause. -/
def LogCause.code : LogCause → Nat
  | .invalid => 0 | .divzero => 1 | .overflow => 2 | .underflow => 3 | .inexact => 4 | .badpack => 5 | .scaleNan => 6

/-- Whether AEN enables the cause of a code: bit 16 also enables SCALE_NAN (R65). -/
def causeOn (aen : BitVec 6) (i : Nat) : Bool := if i = 6 then aen.getLsbD 0 else aen.getLsbD i

/-- A held record after an instruction raises a set of causes from a block: it merges, becomes stale, or stays (R376). -/
def LogHeld.after (x : LogHeld) (raised : Nat → Half) (block : Addr) : LogHeld :=
  let m := raised x.cause.code
  if m = 0#32 then { x with stale := true }
  else if x.block = block && !x.stale then { x with lanes := x.lanes ||| m, count := x.count + 1 }
  else x

/-- The records a gang holds after an instruction raises causes: `raised i` is the mask of the lanes that raised cause i. -/
def logAfter (held : List LogHeld) (raised : Nat → Half) (block : Addr) (cycle core : Nat) : List LogHeld :=
  if (upTo 7).all (fun i => raised i = 0#32) then held
  else
    let new := (upTo 7).filter (fun i =>
      raised i ≠ 0#32 && !held.any (fun x => x.cause.code = i && x.block = block && !x.stale))
    held.map (fun x => x.after raised block)
      ++ new.map (fun i => { cause := LogCause.ofCode i, block := block, lanes := raised i, count := 1, opened := cycle,
                             core := core, stale := false })

/-- The 64-byte-aligned block of a word (R375). -/
def blockOf (pc : Addr) : Addr := pc &&& ~~~ 63#64

/-- The causes that each lane raises, recorded for the gang as the AEN of a GMODE enables them (R109). -/
def State.raiseIn (s : State) (gm : Half) (u g : Nat) (pc : Addr) (lanes : Half) (cs : Nat → Causes) : State :=
  let aen := gmAen gm
  let raised := fun i => if causeOn aen i then maskOf (fun l => lanes.getLsbD l && (cs l).getLsbD i) else 0#32
  s.modGang u g (fun x => { x with log := logAfter x.log raised (blockOf pc) s.cycle (s.team u).core })

/-- The causes that each lane raises under the gang's GMODE. -/
def State.raise (s : State) (u g : Nat) (pc : Addr) (lanes : Half) (cs : Nat → Causes) : State :=
  s.raiseIn (s.gang u g).gmode u g pc lanes cs

/-- The 32 bytes of a log record (R375). -/
def logBytes (x : LogHeld) (gang part team grid : Nat) : List Byte :=
  leBytes 1 x.cause.code ++ leBytes 1 gang ++ leBytes 1 part ++ leBytes 1 0 ++ leBytes 4 team ++ leBytes 4 grid
    ++ leBytes 4 x.lanes.toNat ++ leBytes 8 x.block.toNat ++ leBytes 4 x.count ++ leBytes 2 x.core ++ leBytes 2 0

/-- The oldest record a gang holds goes to the partition's log, or is counted as dropped (R376). -/
def State.writeLog (s : State) (u g : Nat) : State :=
  let t := s.team u
  match (t.gang g).log with
  | [] => s
  | x :: rest =>
    ({ s with kmem := ringLog s.kmem (s.part t.part).log (logBytes x g t.part t.num t.grid) } : State).modGang u g
      (fun y => { y with log := rest })

/-- Every record of a gang goes to the log, before its context is saved, killed or retired (R376). -/
def State.flushLog (s : State) (u g : Nat) : State :=
  ((s.gang u g).log).foldl (fun z _ => z.writeLog u g) s

end Sys2Proof.Machine
end

