-- ==== Sys2Proof/Machine/Operands.lean ====
section
/-!
DEFINITION. How a word issues: the checks before issue in their order (R245, R63, R238), the waits and traps of its sources and
destinations (R12, R13, R154), the pops of queues (R217), and what every issued word does besides its own effect (metering,
closing an Instar region, the program counter, the loop-end step, reconvergence and parting).
-/
namespace Sys2Proof.Machine

/-- Why a word does not take effect: it traps, or its unit waits, with what the wait itself has changed. -/
inductive Stop where
  | trap (t : TrapInfo)
  /-- A trap with what the word has changed all the same (R174, R291). -/
  | trapIn (t : TrapInfo) (s : State)
  | wait (k : WaitKind) (keep : Option State)

/-- A vector source field: the register and its disposition, true for EMPTY_SOURCE (R64). -/
structure Src where
  r : VNum
  trap : Bool
  deriving DecidableEq, Repr

/-- What the checks before issue and the shared effects need to know of a word. -/
structure Form where
  /-- Vector sources in the order a, b, d (R64). -/
  srcs : List Src := []
  /-- Vector sources that the word's own effect reads, in lanes of its own choice. -/
  own : List Src := []
  /-- Vector destinations written in the participating lanes. -/
  dsts : List VNum := []
  /-- Vector registers named without being read or written through the shared path. -/
  named : List VNum := []
  /-- k registers read. -/
  ks : List KNum := []
  /-- The further legality of step 4 under GMODE, for words that read ET (R67, R110), or for MMA (R156). -/
  mode : Half → Bool := fun _ => true
  /-- The further condition of step 3 on the team (R281, R320). -/
  team : Team → Bool := fun _ => true
  /-- Sources are read, and destinations written, in every active lane, whatever the guard. -/
  allActive : Bool := false
  /-- The word closes an Instar region (R379). -/
  closes : Bool := false
  /-- The word sets the program counters itself. -/
  jumps : Bool := false
  /-- The word merges sub-gangs into the unit's (R231). -/
  merges : Bool := false
  /-- The sidecar executes the word (R30, R88), and a gang does. -/
  sidecar : Bool := false
  gang : Bool := true
  /-- Words that follow and that a comparator names with this one: an INV's routine (R177). -/
  routine : Nat := 0

/-- What a word sees when it issues. -/
structure Ctx where
  u : Issuer
  t : Team
  g : Gang
  pc : Addr
  word : Half
  /-- The active lanes, and the participating ones (R68). -/
  active : Half
  part : Half
  /-- Source values, by source and lane. -/
  vals : List (List Word)

/-- Source `j` in a lane. -/
def Ctx.src (c : Ctx) (j l : Nat) : Word := rowGet 0 (rowGet [] c.vals j) l
/-- A k register of the party. -/
def Ctx.k (c : Ctx) (r : KNum) : Word := if c.u.gang = 16 then rowGet 0 c.t.side.k r.toNat else c.g.kreg r
/-- The element type in force. -/
def Ctx.et (c : Ctx) : ElemType := (gmEt c.g.gmode).getD .i8

/-! ### Checks -/

/-- The first stop of a list of checks. -/
def firstStop : List (Option Stop) → Option Stop
  | [] => none
  | some x :: _ => some x
  | none :: t => firstStop t

/-- ILLEGAL_INSTRUCTION with the word and the step of R63 (R369). -/
def illegalAt (word : Half) (step : Nat) : TrapInfo :=
  { cause := .illegalInstruction, detail := BitVec.ofNat 64 (word.toNat + step * 2 ^ 32) }
/-- ILLEGAL_MODE with the word and a GMODE value (R369). -/
def illegalModeOf (word gm : Half) : TrapInfo :=
  { cause := .illegalMode, detail := BitVec.ofNat 64 (word.toNat + gm.toNat * 2 ^ 32) }

/-- A stop where a condition fails. -/
def need (ok : Bool) (x : Stop) : Option Stop := if ok then none else some x

/-- A comparator is enabled and matches an address (R245). -/
def Gang.comparatorAt (g : Gang) (i : Nat) (pc : Addr) : Bool :=
  (g.comparator i).getLsbD 0 && (g.comparator i).extractLsb' 2 46 = pc.extractLsb' 2 46 && pc.extractLsb' 48 16 = 0#16
/-- The number of the enabled comparator that matches a word or one of the `n` words after it, the lowest first (R177, R245). -/
def Gang.comparatorHit (g : Gang) (pc : Addr) (n : Nat) : Option Nat :=
  (upTo 4).find? (fun i => (upTo (n + 1)).any (fun j => g.comparatorAt i (pc + BitVec.ofNat 64 (4 * j))))

/-- The trap of a comparator (R245, R369). -/
def comparatorStop (g : Gang) (slices : BitVec 8) (pc : Addr) (n : Nat) : Option Stop :=
  if g.skipCmp &&& slices ≠ 0#8 then none
  else (g.comparatorHit pc n).map (fun i =>
    .trap { cause := .breakpoint, detail := BitVec.ofNat 64 (i * 2 ^ 32), cmp := true })

/-- A register field names a sidecar queue (R11). -/
def isQueue (gm : Half) (r : VNum) : Bool := gmQmap gm && 60 ≤ r.toNat
/-- The queue that a register field names. -/
def queueOf (r : VNum) : BitVec 2 := r.extractLsb' 0 2

/-- Steps 3 to 5 of R63 for a gang's word. -/
def formStop (f : Form) (t : Team) (g : Gang) (word : Half) : Option Stop :=
  let regs := f.srcs.map (·.r) ++ f.own.map (·.r) ++ f.dsts ++ f.named
  firstStop [
    need (regs.all (fun r => decide (r.toNat < t.vregs) || isQueue g.gmode r) && f.team t) (.trap (illegalAt word 3)),
    need (f.mode g.gmode && f.dsts.all (fun r => !isQueue g.gmode r)) (.trap (illegalModeOf word g.gmode)),
    ((f.srcs ++ f.own).find? (fun x => isQueue g.gmode x.r && !t.side.present)).map (fun x =>
      .trap { cause := .queueUnmapped, detail := BitVec.ofNat 64 (queueOf x.r).toNat })]

/-- The unit is whole: it holds every slice of the gang that has not exited (R222). -/
def Gang.whole (g : Gang) (slices : BitVec 8) : Bool := g.live &&& ~~~ slices = 0#8

/-- The innermost open level, when the unit stands at its last word and a slice of it at the level's return depth (R238). -/
def Gang.loopEnd (g : Gang) (slices : BitVec 8) (pc : Addr) : Option LoopLevel :=
  match g.levels with
  | [] => none
  | x :: _ =>
    if x.stop = pc && (upTo 8).any (fun i => slices.getLsbD i && (g.slice i).ret.length = x.depth) then some x else none

/-- The conditions of the second item of R238 for a level: the unit is whole, and each slice is at the reconvergence depth that the level
recorded. -/
def Gang.levelOk (g : Gang) (slices : BitVec 8) (x : LoopLevel) : Bool :=
  g.whole slices && (upTo 8).all (fun i => !slices.getLsbD i || (g.slice i).stack.length = rowGet 0 x.rdepth i)

/-- CONVERGENCE reporting the active mask (R369: no member mask is in use). -/
def convergence : TrapInfo := { cause := .convergence }

/-- All ones: the PRODPC of a parity error (R392). -/
def parityPc : Word := ~~~ 0#64

/-- The conditions of R238 at the issue of the last word of a body. -/
def loopStop (g : Gang) (slices : BitVec 8) (pc : Addr) (word : Half) : Option Stop :=
  match g.loopEnd slices pc with
  | none => none
  | some x =>
    if 0x02 ≤ (opOf word).toNat && (opOf word).toNat ≤ 0x0E then some (.trap { cause := .loopBuffer })
    else firstStop [
      need (g.levelOk slices x) (.trap convergence),
      need (!g.lcbad.getLsbD x.lc) (.trap { cause := .poison, detail := BitVec.ofNat 64 (64 + x.lc), prodpc := parityPc })]

/-- A register that an instruction writes waits for its producer in the lanes it would write (R13). -/
def owedStop (g : Gang) (dsts : List VNum) (lanes : Half) : Option Stop :=
  (dsts.find? (fun r => (lanesOf lanes).any (fun l => ((g.lane l).vreg r).owed.isSome))).map (fun r =>
    .wait (.register r) none)

/-- A register is one of the nine that an MMA of the gang, still in its plane passes, has been given (R154). -/
def Team.mmaReads (t : Team) (gang : Nat) (cycle : Nat) (r : VNum) : Bool :=
  t.mmas.any (fun m => m.gang = gang && decide (cycle < m.passEnd) && decide (m.areg.toNat ≤ r.toNat) && decide (r.toNat ≤ m.areg.toNat + 8))

/-- A register that an MMA in its passes still reads is not written (R154). -/
def operandStop (t : Team) (gang cycle : Nat) (dsts : List VNum) (lanes : Half) : Option Stop :=
  if lanes = 0#32 then none
  else (dsts.find? (fun r => t.mmaReads gang cycle r)).map (fun r => .wait (.operands r) none)

/-- A k register with a parity error traps its reader (R392). -/
def kStop (bad : Half) (ks : List KNum) : Option Stop :=
  (ks.find? (fun k => bad.getLsbD k.toNat)).map (fun k =>
    .trap { cause := .poison, detail := BitVec.ofNat 64 (64 + k.toNat), prodpc := parityPc })

/-- The trap of poisoned lanes of a register: POISON with the producer, or STAMPED_ACCESS for fault code 5 (R307, R370). -/
def poisonTrap (g : Gang) (r : VNum) (m : Half) : TrapInfo :=
  let x := (g.lane (lowLane m)).vreg r
  if x.bad then { cause := .poison, lanes := some m, detail := BitVec.ofNat 64 r.toNat, prodpc := parityPc }
  else if x.pcode = 5#8 then { cause := .stampedAccess, lanes := some m, detail := 5#64 }
  else { cause := .poison, lanes := some m, detail := BitVec.ofNat 64 r.toNat, prodpc := x.ppc }

/-- Reading a vector register in lanes, by the table of R12: an empty register with no producer first, then one whose producer
is outstanding, then a poisoned one (assumption 9: DEDUCED). -/
def readStop (g : Gang) (x : Src) (lanes : Half) : Option Stop :=
  let reg := fun l => (g.lane l).vreg x.r
  let empty := maskOf (fun l => lanes.getLsbD l && !(reg l).full)
  let orphan := maskOf (fun l => lanes.getLsbD l && !(reg l).full && (reg l).owed.isNone)
  let bad := maskOf (fun l => lanes.getLsbD l && ((reg l).poison || (reg l).bad))
  let d := BitVec.ofNat 64 x.r.toNat
  if x.trap then
    firstStop [need (empty = 0#32) (.trap { cause := .emptySource, lanes := some empty, detail := d }),
               need (bad = 0#32) (.trap (poisonTrap g x.r bad))]
  else
    firstStop [need (orphan = 0#32) (.trap { cause := .orphanWait, lanes := some orphan, detail := d }),
               need (empty = 0#32) (.wait (.register x.r) none),
               need (bad = 0#32) (.trap (poisonTrap g x.r bad))]

/-- The values of a register in all lanes. -/
def Gang.column (g : Gang) (r : VNum) : List Word := (upTo 32).map (fun l => ((g.lane l).vreg r).val)

/-- Removing the oldest entry of a queue for a sub-gang, in the order in which sub-gangs blocked (R217): the sub-gang keeps its place
until its word has all its sources. -/
def Team.pop (t : Team) (q : BitVec 2) (who : Nat) : Option (List Word × Team) :=
  let x := t.queue q
  match x.entries with
  | [] => none
  | e :: rest =>
    if x.blocked.headD who = who then some (e, { t with queues := rowPut {} t.queues q.toNat { x with entries := rest } }) else none

/-- Reading the sources in order: values, the team after the pops, and whether there was one. A word blocks with nothing
removed (assumption 10: DEDUCED). -/
def readSrcs (g : Gang) (who : Nat) (lanes : Half) : List Src → Team → Except Stop (List (List Word) × Team × Bool)
  | [], t => .ok ([], t, false)
  | x :: xs, t =>
    if isQueue g.gmode x.r then
      match t.pop (queueOf x.r) who with
      | none => .error (.wait (.queue (queueOf x.r)) none)
      | some (e, t') =>
        match readSrcs g who lanes xs t' with
        | .error e => .error e
        | .ok (vs, t'', _) => .ok (e :: vs, t'', true)
    else
      match readStop g x lanes with
      | some st => .error st
      | none =>
        match readSrcs g who lanes xs t with
        | .error e => .error e
        | .ok (vs, t', p) => .ok (g.column x.r :: vs, t', p)

/-! ### Writing registers (R13, R155, R380) -/

/-- A write of a vector register in some lane: the dirty set, and the reuse latch where it holds the register. -/
def Gang.touchV (g : Gang) (r : VNum) : Gang :=
  let dirty := g.instar.vdirty ||| (1#64 <<< r.toNat)
  { g with
    latch := (match g.latch with
      | some a => if a.toNat ≤ r.toNat && r.toNat ≤ a.toNat + 8 then none else some a
      | none => none)
    instar := { g.instar with
      vdirty := dirty
      rewindable := g.instar.rewindable && dirty &&& g.instar.vmask = 0#64 } }

/-- A vector register written in lanes: FULL, poison cleared (R13). -/
def Gang.writeV (g : Gang) (r : VNum) (lanes : Half) (f : Nat → Word) : Gang :=
  if lanes = 0#32 then g
  else (g.modLanes lanes (fun l x => x.setV r { val := f l })).touchV r

/-- A predicate written in lanes. -/
def Gang.writeP (g : Gang) (p : PNum) (lanes : Half) (f : Nat → Bool) : Gang :=
  g.modLanes lanes (fun l x => x.setP p (f l))

/-- A k register written (R16). -/
def Gang.writeK (g : Gang) (k : KNum) (w : Word) : Gang :=
  let dirty := g.instar.kdirty ||| (1#32 <<< k.toNat)
  { g with
    k := rowPut 0 g.k k.toNat w
    kbad := g.kbad &&& ~~~ (1#32 <<< k.toNat)
    instar := { g.instar with
      kdirty := dirty
      rewindable := g.instar.rewindable && dirty &&& g.instar.kmask = 0#32 } }

/-- A k register of the issuing party written. -/
def State.writeK (s : State) (u : Issuer) (k : KNum) (w : Word) : State :=
  if u.gang = 16 then
    s.modTeam u.team (fun t => { t with side := { t.side with
      k := rowPut 0 t.side.k k.toNat w, kbad := t.side.kbad &&& ~~~ (1#32 <<< k.toNat) } })
  else s.modGang u.team u.gang (fun g => g.writeK k w)

/-- A vector register of the issuing gang written. -/
def State.writeV (s : State) (u : Issuer) (r : VNum) (lanes : Half) (f : Nat → Word) : State :=
  s.modGang u.team u.gang (fun g => g.writeV r lanes f)

/-- A predicate of the issuing gang written. -/
def State.writeP (s : State) (u : Issuer) (p : PNum) (lanes : Half) (f : Nat → Bool) : State :=
  s.modGang u.team u.gang (fun g => g.writeP p lanes f)

/-- A source that a word reads itself: the values, and the state after a pop, which closes an Instar region (R217). -/
def readOwn (c : Ctx) (x : Src) (lanes : Half) (s : State) : Except Stop (List Word × State) :=
  if isQueue c.g.gmode x.r then
    match (s.team c.u.team).pop (queueOf x.r) (c.u.gang * 8 + (c.g.slice (lowSlice c.u.slices)).sub) with
    | none => .error (.wait (.queue (queueOf x.r)) none)
    | some (e, t) =>
      .ok (e, (s.modTeam c.u.team (fun _ => t.unblock c.u.gang (c.g.slice (lowSlice c.u.slices)).sub)).modGang c.u.team c.u.gang (fun g =>
        { g with instar := { g.instar with rewindable := false } }))
  else
    match readStop c.g x lanes with
    | some st => .error st
    | none => .ok (c.g.column x.r, s)

/-! ### Reconvergence and parting (R225, R228) -/

/-- The check of R225, repeated while it applies: the stack holds no more entries than the fuel. -/
def Slice.reconverge : Nat → Slice → Slice
  | 0, x => x
  | n + 1, x =>
    match x.stack with
    | [] => x
    | e :: rest =>
      if e.ra ≠ some x.pc then x
      else
        let rc := match rest with
          | [] => none
          | r :: _ => r.ra
        Slice.reconverge n (if e.pc ≠ e.ra then { x with stack := rest, pc := e.pc.getD 0, m := e.mask &&& ~~~ x.x, rc := rc }
                            else { x with stack := rest, m := e.mask &&& ~~~ x.x, rc := rc })

/-- The slices of the unit after a word: each checks for reconvergence, and those whose PCs differ part, each sub-gang named by
its lowest slice (R228). -/
def Gang.part (g : Gang) (slices : BitVec 8) : Gang :=
  let g := g.modSlices slices (fun _ x => if x.exited then x else Slice.reconverge (x.stack.length + 1) x)
  g.modSlices slices (fun i x =>
    if x.exited then x
    else { x with sub := ((upTo 8).filter (fun j =>
      slices.getLsbD j && !(g.slice j).exited && (g.slice j).pc = (g.slice i).pc)).headD i })

/-- After a whole gang has parted, the turns start at the lowest sub-gang, as Listing 3 has it (R229; assumption 36: DEDUCED). -/
def Gang.partTurn (g : Gang) (slices : BitVec 8) : Gang :=
  if g.whole slices && 1 < g.subs.length then { g with lastSub := 7 } else g

/-- The loop-end step: `lc ← lc − 1`, and back to the start, or the level closes; slices at another return depth go on at the next
word (R238). -/
def Gang.loopStep (g : Gang) (slices : BitVec 8) (x : LoopLevel) : Gang :=
  let n := g.lcount x.lc - 1#32
  let g := { g with lc := rowPut 0 g.lc x.lc n }
  if n ≠ 0#32 then
    g.modSlices slices (fun _ y => { y with pc := if y.ret.length = x.depth then x.start else x.stop + 4#64 })
  else { g.modSlices slices (fun _ y => { y with pc := x.stop + 4#64 }) with levels := g.levels.drop 1 }

/-- The check of R225 in every sub-gang that may issue, one at a time. -/
def Gang.recheck (g : Gang) : Gang :=
  g.subs.foldl (fun g n => if (g.slice (lowSlice (g.subgang n))).stopped then g else g.part (g.subgang n)) g

/-- The program counters move past the word, and a body's last word takes the loop-end step. -/
def Gang.advance (g : Gang) (slices : BitVec 8) : Gang :=
  match g.loopEnd slices (g.pcOf slices) with
  | some x => g.loopStep slices x
  | none => g.modSlices slices (fun _ y => { y with pc := y.pc + 4#64 })

/-! ### Recipe bodies (R378, R382) -/

/-- The opcodes that a body word may have. -/
def bodyOpcode (op : Nat) : Bool :=
  op = 0x13 || (0x20 ≤ op && op ≤ 0x5E) || (0x68 ≤ op && op ≤ 0x75) || op = 0x78 || op = 0x7A || op = 0x7E

/-- The opcodes of a sidecar's subset; TLOOK as its fn 1 (R30, R88). -/
def sidecarOpcode (w : Half) : Bool :=
  let op := (opOf w).toNat
  op = 0x01 || op = 0x02 || op = 0x0E || (0x68 ≤ op && op ≤ 0x76) || op = 0x7E || op = 0x7F || (op = 0x80 && fnOf w ≠ 0#4) ||
    op = 0x86 || op = 0x87 || op = 0x90 || op = 0x91

/-- Control as a snapshot holds it. -/
def Gang.control (g : Gang) (sn : Snapshot) : Gang :=
  let g := g.modSlices 0xFF#8 (fun j x =>
    let y : SliceSnap := rowGet { pc := sn.pc, m := 15, x := 0, rc := none, stack := [], ret := [] } sn.slices j
    { x with pc := y.pc, m := y.m, x := y.x, rc := y.rc, stack := y.stack, ret := y.ret, wait := none })
  let low := lowSlice g.live
  { g.modSlices 0xFF#8 (fun _ x => { x with sub := low }) with lc := sn.lc, lcbad := 0#3, levels := sn.levels, gmode := sn.gmode }

/-- A body starts: every lane not exited, with no guard. -/
def Gang.bodyStart (g : Gang) : Gang :=
  let i := g.instar
  { g.modSlices 0xFF#8 (fun _ x => { x with pc := i.recipe + 16#64, m := ~~~ x.x, rc := none, stack := [], ret := [] }) with
    gmode := i.snap.gmode &&& ~~~ 0xF00#32
    levels := []
    instar := { i with body := some (i.recipe + BitVec.ofNat 64 (16 + 4 * i.blen)), rewindable := true, vdirty := 0, kdirty := 0 } }

/-- A body ends: control goes to the rewind point, where each slice makes the check of R225 before it issues, and the gang is
rewindable. -/
def Gang.bodyEnd (g : Gang) : Gang :=
  let g' := g.control g.instar.snap
  { g' with instar := { g'.instar with body := none, rewindable := true, vdirty := 0, kdirty := 0 } }.recheck

/-- A body ends when the unit has passed its last word. -/
def Gang.bodyCheck (g : Gang) (slices : BitVec 8) : Gang := if g.instar.body = some (g.pcOf slices) then g.bodyEnd else g

/-- A word that breaks R378 traps with ILLEGAL_INSTRUCTION, whichever check of R63 it fails (assumption 17: DEDUCED). -/
def bodyIllegal (word : Half) : Stop → Stop
  | .trap t => .trap (if t.cause = .illegalInstruction then t else illegalAt word 1)
  | st => st

/-- What every issued word does besides its effect. -/
def finish (f : Form) (popped : Bool) (u : Issuer) (s : State) : State :=
  let s := if u.second then s else s.meter (s.team u.team).part 0 1
  if u.gang = 16 then
    s.modTeam u.team (fun t => { t with side :=
      { t.side with pc := if f.jumps then t.side.pc else t.side.pc + 4#64, wait := none } })
  else
    s.modGang u.team u.gang (fun g =>
      let sub := (g.slice (lowSlice u.slices)).sub
      let slices := if f.merges then g.subgang sub else u.slices
      let g := { g with
        instar := { g.instar with rewindable := g.instar.rewindable && !(f.closes || popped) }
        skipCmp := g.skipCmp &&& ~~~ slices
        lastSub := sub }
      let g := g.modSlices slices (fun _ x => { x with wait := none })
      let g := if f.jumps then g else g.advance slices
      ((g.part slices).partTurn slices).bodyCheck slices)

/-! ### Waits (R210, R229) -/

/-- A wait of R210's table, or one whose rule names the pending set: slices held at a REGANG or for their gang's BARA, MMAs at a busy
array (R153), a LAUNCH at the limit and a held fetch are in none. -/
def WaitKind.pends : WaitKind → Bool
  | .register _ | .swait _ _ | .waitc _ _ | .bar _ _ | .barw _ _ | .bara _ _ | .queue _ | .qpush _ _ | .member _ _ | .bank _ | .record _
  | .operands _ | .counter _ | .command _ _ => true
  | .gather _ _ | .regang _ | .array | .launch _ | .fetch => false

/-- A slice is held in a wait of the pending set. -/
def Slice.pends (x : Slice) : Bool :=
  !x.exited && !x.stopped && (match x.wait with
    | some w => w.kind.pends
    | none => false)

/-- A unit waits: the wait keeps its start where the same wait goes on; at an empty queue the sub-gang takes its place; a gang
with no sub-gang that can issue, and one held in a wait of R210, goes to the pending set (R229). -/
def State.hold (s : State) (u : Issuer) (k : WaitKind) : State :=
  let w (old : Option Wait) : Wait :=
    match old with
    | some x => if x.kind = k then x else { kind := k, since := s.cycle }
    | none => { kind := k, since := s.cycle }
  if u.gang = 16 then s.modTeam u.team (fun t => { t with side := { t.side with wait := some (w t.side.wait) } })
  else
    let s := s.modTeam u.team (fun t =>
      match k with
      | .queue q =>
        let who := u.gang * 8 + ((t.gang u.gang).slice (lowSlice u.slices)).sub
        let x := t.queue q
        if x.blocked.contains who then t
        else { t with queues := rowPut {} t.queues q.toNat { x with blocked := x.blocked ++ [who] } }
      | _ => t)
    s.modGang u.team u.gang (fun g =>
      let g := { g.modSlices u.slices (fun _ x => { x with wait := some (w x.wait) }) with
                 lastSub := (g.slice (lowSlice u.slices)).sub }
      if (upTo 8).any (fun i => (g.slice i).pends)
          && (upTo 8).all (fun i => (g.slice i).exited || (g.slice i).stopped || (g.slice i).wait.isSome)
      then { g with active := none, ready := none }
      else g)

/-- A stop takes effect. -/
def stopUnit (u : Issuer) (st : Stop) (s : State) : State :=
  match st with
  | .trap t => s.takeTrap u t
  | .trapIn t s' => s'.takeTrap u t
  | .wait k none => s.hold u k
  | .wait k (some s') => s'.hold u k

/-! ### Issue -/

/-- A gang's slices may issue: one sub-gang, whole as a sub-gang, neither exited nor stopped, at one word. -/
def Gang.unitOk (g : Gang) (slices : BitVec 8) : Bool :=
  slices ≠ 0#8 && slices = g.subgang (g.slice (lowSlice slices)).sub &&
  (upTo 8).all (fun i => !slices.getLsbD i || (!(g.slice i).stopped && (g.slice i).pc = g.pcOf slices))

/-- The gang has a stopped sub-gang. -/
def Gang.halted (g : Gang) : Bool := (upTo 8).any (fun i => !(g.slice i).exited && (g.slice i).stopped)
/-- Nothing of the gang is left to run: it has exited, or every slice that has not is stopped. -/
def Gang.still (g : Gang) : Bool := (upTo 8).all (fun i => (g.slice i).exited || (g.slice i).stopped)
/-- A save finds the gang where it stands, to be saved in full: a rewindable gang with a stopped unit, or one whose slices are stopped or
between two passes of an INV (R178, R381; assumption 18: DESIGN CHOICE). -/
def Gang.inPlace (g : Gang) : Bool :=
  !g.exited && ((g.instar.rewindable && g.halted) ||
    (upTo 8).all (fun i => (g.slice i).exited || (g.slice i).stopped || g.searches.any (fun r => r.slices.getLsbD i)))

/-- The unit may issue: its team is on a core and running, the gang is ACTIVE (R210), and a context being saved issues only for
gangs that have not rewound and are not saved where they stand (R381). -/
def State.issuable (s : State) (u : Issuer) : Bool :=
  let t := s.team u.team
  t.live &&
  (if u.gang = 16 then t.status = .running && t.side.present && !t.side.exited && !t.side.stopped
   else
    (match t.status with
      | .running => true
      | .saving _ => !t.rewound.getLsbD u.gang && !(t.gang u.gang).inPlace
      | _ => false) && !t.released && decide (u.gang < t.ngang) && (t.gang u.gang).active.isSome && (t.gang u.gang).unitOk u.slices)

/-- The checks before a word's own, in order: comparators, steps 1 and 3 to 5 of R63, the loop's end, k registers. TLOOK.K in the sidecar of a
team with no tag block fails step 3, as it does in a gang (R281; assumption 43: DEDUCED). -/
def preStop (i : Instr) (f : Form) (u : Issuer) (s : State) : Option Stop :=
  let word := (encode i).getD 0#32
  let t := s.team u.team
  let g := t.gang u.gang
  if u.gang = 16 then
    firstStop [need f.sidecar (.trap (illegalAt word 1)), need (f.team t) (.trap (illegalAt word 3)), kStop t.side.kbad f.ks]
  else
    let body := g.instar.body.isSome
    firstStop [comparatorStop g u.slices (g.pcOf u.slices) f.routine, need f.gang (.trap (illegalAt word 1)),
      need (!body || bodyOpcode (opOf word).toNat) (.trap (illegalAt word 1)),
      if body then (formStop f t g word).map (bodyIllegal word) else formStop f t g word,
      loopStop g u.slices (g.pcOf u.slices) word, kStop g.kbad f.ks]

/-- The participating lanes of the unit: active, with a true guard (R68). -/
def Gang.participants (g : Gang) (slices : BitVec 8) : Half :=
  maskOf (fun l => (g.activeOf slices).getLsbD l && (g.lane l).guard g.gmode)

/-- What the word sees, with its source values. -/
def ctxOf (i : Instr) (u : Issuer) (s : State) (vals : List (List Word)) : Ctx :=
  let t := s.team u.team
  if u.gang = 16 then
    { u := u, t := t, g := {}, pc := t.side.pc, word := (encode i).getD 0#32, active := 0#32, part := 0#32, vals := vals }
  else
    let g := t.gang u.gang
    { u := u, t := t, g := g, pc := g.pcOf u.slices, word := (encode i).getD 0#32, active := g.activeOf u.slices,
      part := g.participants u.slices, vals := vals }

/-- The waits of destinations and the reading of sources. -/
def operandsOf (f : Form) (u : Issuer) (s : State) : Except Stop (List (List Word) × State × Bool) :=
  if u.gang = 16 then .ok ([], s, false)
  else
    let t := s.team u.team
    let g := t.gang u.gang
    let lanes := if f.allActive then g.activeOf u.slices else g.participants u.slices
    match firstStop [owedStop g f.dsts lanes, operandStop t u.gang s.cycle f.dsts lanes] with
    | some st => .error st
    | none =>
      let sub := (g.slice (lowSlice u.slices)).sub
      match readSrcs g (u.gang * 8 + sub) lanes f.srcs t with
      | .error st => .error st
      | .ok (vals, t', popped) => .ok (vals, if popped then s.modTeam u.team (fun _ => t'.unblock u.gang sub) else s, popped)

/-- A word issued by a unit: it stops, or takes its effect and all that goes with it. -/
def issueBy (i : Instr) (f : Form) (body : Ctx → State → Except Stop State) (u : Issuer) (s : State) : State :=
  match preStop i f u s with
  | some st => stopUnit u st s
  | none =>
    match operandsOf f u s with
    | .error st => stopUnit u st s
    | .ok (vals, s1, popped) =>
      match body (ctxOf i u s vals) s1 with
      | .error st => stopUnit u st s
      | .ok s2 => finish f popped u s2

/-- A word issued by the issuing unit; with no unit that may issue, nothing happens. -/
def issue (i : Instr) (f : Form) (body : Ctx → State → Except Stop State) (s : State) : Host.Outcome State Fault Refusal :=
  match s.issuer with
  | none => .next s
  | some u => if s.issuable u then .next (issueBy i f body u s) else .next s

end Sys2Proof.Machine
end

