-- ==== Sys2Proof/Machine/Meet.lean ====
section
/-!
DEFINITION. Where parties meet: slices held at a REGANG (R231) or at a member mask (R242), gangs at a barrier (R292), lanes at a
grid's TRIG event (R198, R294), and what an exit changes for those that wait.
-/
namespace Sys2Proof.Machine

/-- The wait of a slice, unless it is stopped. -/
def Slice.waits (x : Slice) : Option WaitKind := if x.stopped then none else x.wait.map (·.kind)

/-- The slices held at a REGANG word at an address. -/
def Gang.regangHeld (g : Gang) (pc : Addr) : BitVec 8 :=
  sliceMask (fun i => !(g.slice i).exited && (g.slice i).pc = pc && (match (g.slice i).waits with
    | some (.regang _) => true
    | _ => false))

/-- The arrived slices form one sub-gang at the next word (R231). -/
def Gang.merge (g : Gang) (arrived : BitVec 8) : Gang :=
  g.modSlices arrived (fun _ x => { x with sub := lowSlice arrived, wait := none })

/-- Slices held at a REGANG word whose named slices have all arrived or exited are released (R231). -/
def Gang.regangRelease (g : Gang) : Gang :=
  (upTo 8).foldl (fun g i =>
    match (g.slice i).waits with
    | some (.regang mask) =>
      let held := g.regangHeld (g.slice i).pc
      if (g.slice i).exited || g.live &&& mask &&& ~~~ held ≠ 0#8 then g
      else
        let g := { g.merge held with skipCmp := g.skipCmp &&& ~~~ held }
        (g.modSlices held (fun _ x => { x with pc := x.pc + 4#64 })).part held
    | _ => g) g

/-- The slices held at a cross-lane word at an address. -/
def Gang.memberHeld (g : Gang) (pc : Addr) : BitVec 8 :=
  sliceMask (fun i => !(g.slice i).exited && (g.slice i).pc = pc && (match (g.slice i).waits with
    | some (.member _ _) => true
    | _ => false))

/-- The mask and rank with which a held slice arrived. -/
def Slice.arrival (x : Slice) : Option (Half × Nat) :=
  match x.waits with
  | some (.member m r) => some (m, r)
  | _ => none

/-- The mask of the first arrival among held slices (R242). -/
def Gang.firstMask (g : Gang) (held : BitVec 8) : Option Half :=
  (((upTo 8).filter (fun i => held.getLsbD i)).filterMap (fun i => (g.slice i).arrival)).foldl
    (fun (best : Option (Half × Nat)) x =>
      match best with
      | none => some x
      | some b => if x.2 < b.2 then some x else some b) none |>.map (·.1)

/-- The rank of the next arrival. -/
def Gang.nextRank (g : Gang) (held : BitVec 8) : Nat :=
  (((upTo 8).filter (fun i => held.getLsbD i)).filterMap (fun i => (g.slice i).arrival)).foldl
    (fun n x => if n ≤ x.2 then x.2 + 1 else n) 0

/-- MEMBER_EXITED in every arrived slice whose named lanes include one that has exited (R242, row 1). -/
def State.memberExits (s : State) (u gang : Nat) : State :=
  (upTo 8).foldl (fun s i =>
    let g := s.gang u gang
    match (g.slice i).arrival with
    | none => s
    | some _ =>
      let held := g.memberHeld (g.slice i).pc
      match g.firstMask held with
      | none => s
      | some m =>
        if m &&& g.exitedLanes = 0#32 then s
        else s.takeTrap { team := u, gang := gang, slices := held }
          { cause := .memberExited, lanes := some (m &&& g.exitedLanes), detail := BitVec.ofNat 64 m.toNat }) s

/-- The gang arrives when every slice that has not exited has issued the word at the phase (R292); `kept` are the slices that issued BARA,
whose arrival is never withdrawn (R293). -/
def Gang.arrive (g : Gang) (n : BitVec 4) (phase : Nat) (slices kept : BitVec 8) : Gang :=
  let b := g.bar n
  let all := b.slices ||| slices
  if g.live &&& ~~~ all = 0#8 && g.live ≠ 0#8 then
    { g with bars := rowPut {} g.bars n.toNat { arrived := some phase, slices := 0#8, kept := b.kept ||| kept } }
  else { g with bars := rowPut {} g.bars n.toNat { b with slices := all, kept := b.kept ||| kept } }

/-- A phase completes when every gang of the team has arrived at it or has exited; the phase and the epoch advance (R292). -/
def Team.completePhase (t : Team) (n : BitVec 4) : Team :=
  let p := t.phase n
  let gs := upTo t.ngang
  if gs.all (fun g => (t.gang g).exited || ((t.gang g).bar n).arrived = some p)
      && gs.any (fun g => !(t.gang g).exited && ((t.gang g).bar n).arrived = some p) then
    { t with
      phases := rowPut 0 t.phases n.toNat (p + 1)
      epoch := t.epoch + 1
      -- slices that issued while the barrier stood at the phase count for no later one
      gangs := t.gangs.map (fun g => { g with bars := rowMod {} g.bars n.toNat (fun b => { b with slices := 0#8, kept := 0#8 }) }) }
  else t

/-- After an exit: slices of the gang that wait at a barrier may complete its arrival, and phases may complete (R292). -/
def Team.barrierExits (t : Team) (gang : Nat) : Team :=
  (upTo 16).foldl (fun t i =>
    let n := BitVec.ofNat 4 i
    let t := if ((t.gang gang).bar n).slices ≠ 0#8 then t.modGang gang (fun g => g.arrive n (t.phase n) 0#8 0#8) else t
    t.completePhase n) t

/-- Every lane of a gang is triggered or has exited (R294). -/
def Gang.triggered (g : Gang) : Bool :=
  (upTo 32).all (fun l => g.exitedLanes.getLsbD l || (g.lane l).triggered)

/-- The waiting entries of a front end whose dependences on a number are satisfied: both kinds where its grid has retired, kind TRIG
where it has raised its event (R198). -/
def State.satisfy (s : State) (p : Nat) (q : BitVec 32) (retired : Bool) : State :=
  { s with grids := s.grids.map (fun g =>
      if g.live && g.part = p then { g with deps := g.deps.filter (fun d => !(d.1 = q && (retired || d.2))) } else g) }

/-- A front end keeps the state of the last 4,096 numbers taken (R197). -/
def FrontEnd.keeps (f : FrontEnd) (q : BitVec 32) : Bool := (f.expected - 1#32 - q).toNat < Config.seqWindow
/-- What a front end remembers of a number. -/
def FrontEnd.seqState (f : FrontEnd) (q : BitVec 32) : SeqState :=
  if f.keeps q then rowGet .none f.seqs (q.toNat % Config.seqWindow) else .none
/-- The state of a number that is kept set. -/
def FrontEnd.setSeq (f : FrontEnd) (q : BitVec 32) (x : SeqState) : FrontEnd :=
  if f.keeps q then { f with seqs := rowPut .none f.seqs (q.toNat % Config.seqWindow) x } else f
/-- A number of a partition's front end set. -/
def State.setSeq (s : State) (p : Nat) (q : BitVec 32) (x : SeqState) : State := s.modPart p (fun y => { y with fe := y.fe.setSeq q x })

/-- The grid raises its TRIG event when every lane of every team of it is triggered or has exited (R198, R294). -/
def State.trigEvent (s : State) (gr : Nat) : State :=
  let x := s.grid gr
  if x.live && !x.trig && x.placed = x.desc.teams && x.teams.all (fun u =>
      let t := s.team u
      (upTo t.ngang).all (fun g => (t.gang g).exited || (t.gang g).triggered)) then
    let s := s.modGrid gr (fun y => { y with trig := true })
    match x.seq with
    | none => s
    | some q =>
      (if (s.part x.part).fe.seqState q = .running then s.setSeq x.part q .triggered else s).satisfy x.part q false
  else s

/-- Records that a gang quarantined become FREE at its INSTAR or EXIT (R149, R162). -/
def State.freeQuarantined (s : State) (u gang : Nat) : State :=
  let t := s.team u
  s.modCore t.home (fun c => { c with records := c.records.map (fun r =>
    if r.state = .quarantined && r.team = u && r.by_ = gang then { r with state := .free } else r) })

/-- A team has a child that has not retired (R208). -/
def State.hasChild (s : State) (u : Nat) : Bool := s.grids.any (fun g => g.live && g.parent = some u)

/-- What an exit of lanes of a gang changes for others: members and REGANGs held, barriers, the TRIG event; a gang that has
exited leaves the scheduler; a team whose gangs have exited with a child not retired releases all but its window, and its sidecar once
that has exited too (R208, assumption 37: DEDUCED). -/
def State.afterExit (s : State) (u gang : Nat) : State :=
  let s := s.freeQuarantined u gang
  let s := s.modGang u gang Gang.regangRelease
  let s := s.memberExits u gang
  let s := s.modTeam u (fun t => t.barrierExits gang)
  let s := if (s.gang u gang).exited then s.modGang u gang (fun g => { g with active := none, ready := none }) else s
  let s := s.trigEvent (s.team u).grid
  if (s.team u).gangsExited && s.hasChild u then s.modTeam u (fun t => { t with released := true }) else s

end Sys2Proof.Machine
end

