-- ==== Sys2Proof/Machine/Fmt.lean ====
section
/-!
DEFINITION. Number formats and rounding (R90 to R104): integers and their delivery, the six float formats, exact values, Round with
its causes, NaNs, the arithmetic of one sub-element, and conversions.
-/
namespace Sys2Proof

/-! ### Element types -/

/-- Width of a sub-element in bits (R66). -/
def ElemType.width : ElemType → Nat
  | .i8 | .n8 | .e4m3 | .e5m2 => 8
  | .i16 | .n16 | .f16 | .bf16 => 16
  | .i32 | .n32 | .f32 => 32
  | .i64 | .n64 | .f64 => 64
/-- Sub-elements of a register: Count(ET). -/
def ElemType.count (t : ElemType) : Nat := 64 / t.width
/-- log₂ of a width that is a power of two. -/
def ElemType.log2Width : ElemType → Nat
  | .i8 | .n8 | .e4m3 | .e5m2 => 3
  | .i16 | .n16 | .f16 | .bf16 => 4
  | .i32 | .n32 | .f32 => 5
  | .i64 | .n64 | .f64 => 6
/-- An I type. -/
def ElemType.signed : ElemType → Bool
  | .i8 | .i16 | .i32 | .i64 => true
  | _ => false
/-- An integer type. -/
def ElemType.isInt : ElemType → Bool
  | .i8 | .n8 | .i16 | .n16 | .i32 | .n32 | .i64 | .n64 => true
  | _ => false
/-- FTZ acts on F32, F16 and BF16 (R97). -/
def ElemType.flushes : ElemType → Bool
  | .f32 | .f16 | .bf16 => true
  | _ => false

end Sys2Proof

namespace Sys2Proof.Machine

/-- Sub-element `i` of a register under a width. -/
def subGet (w : Nat) (x : Word) (i : Nat) : Nat := x.toNat / 2 ^ (i * w) % 2 ^ w
/-- A register from its sub-elements, the first lowest. -/
def subPack (w : Nat) : List Nat → Nat
  | [] => 0
  | x :: t => x % 2 ^ w + 2 ^ w * subPack w t
/-- A register from sub-elements, as a pattern. -/
def packWord (w : Nat) (xs : List Nat) : Word := BitVec.ofNat 64 (subPack w xs)

/-! ### Integers (R90, R91) -/

/-- Least value of an integer type. -/
def intLeast (t : ElemType) : Int := if t.signed then -(2 ^ (t.width - 1) : Int) else 0
/-- Greatest value. -/
def intGreatest (t : ElemType) : Int := if t.signed then 2 ^ (t.width - 1) - 1 else 2 ^ t.width - 1
/-- Widen for an integer type: the signed or unsigned value of a pattern. -/
def intOf (t : ElemType) (v : Nat) : Int :=
  if t.signed && decide (2 ^ (t.width - 1) ≤ v) then (v : Int) - 2 ^ t.width else v
/-- The pattern of an integer modulo 2^w. -/
def intBits (w : Nat) (x : Int) : Nat := (x % (2 ^ w : Int)).toNat
/-- Sat(x, T) (R104). -/
def intSat (t : ElemType) (x : Int) : Int :=
  if x < intLeast t then intLeast t else if intGreatest t < x then intGreatest t else x
/-- Deliver for an integer type (R91). -/
def intDeliver (t : ElemType) (sat : Bool) (x : Int) : Nat × Causes :=
  let ok := decide (intLeast t ≤ x) && decide (x ≤ intGreatest t)
  (intBits t.width (if sat then intSat t x else x), if ok then noCause else cOverflow)

/-! ### Floats (R92 to R94) -/

/-- A value: a NaN with its sign and fraction (quiet bit and payload), an infinity, or (−1)^neg · m · 2^e. -/
inductive FVal where
  | nan (neg : Bool) (frac : Nat)
  | inf (neg : Bool)
  | fin (neg : Bool) (m : Nat) (e : Int)
  deriving DecidableEq, Repr

/-- Fraction bits of a float type. -/
def fracBits : ElemType → Nat
  | .f64 => 52 | .f32 => 23 | .f16 => 10 | .bf16 => 7 | .e4m3 => 3 | _ => 2
/-- Exponent bits. -/
def expBits (t : ElemType) : Nat := t.width - 1 - fracBits t
/-- Bias. -/
def expBias : ElemType → Nat
  | .f64 => 1023 | .f32 => 127 | .f16 => 15 | .bf16 => 127 | .e4m3 => 7 | _ => 15
/-- Exponent of the largest finite value. -/
def expMax : ElemType → Int
  | .f64 => 1023 | .f32 => 127 | .f16 => 15 | .bf16 => 127 | .e4m3 => 8 | _ => 15
/-- Significand of the largest finite value, as an integer of f + 1 bits. -/
def sigMax (t : ElemType) : Nat := if t = .e4m3 then 14 else 2 ^ (fracBits t + 1) - 1
/-- Exponent of the least normal value. -/
def expMin (t : ElemType) : Int := 1 - (expBias t : Int)
/-- The sign bit in its place. -/
def signBit (t : ElemType) (neg : Bool) : Nat := if neg then 2 ^ (t.width - 1) else 0
/-- Whether a pattern's sign bit is set. -/
def isNeg (t : ElemType) (v : Nat) : Bool := v / 2 ^ (t.width - 1) % 2 = 1

/-- Widen for a float type (R104); `ftz` reads a subnormal of F32, F16 or BF16 as zero. -/
def widen (t : ElemType) (ftz : Bool) (v : Nat) : FVal :=
  let f := fracBits t
  let neg := isNeg t v
  let e := v / 2 ^ f % 2 ^ expBits t
  let m := v % 2 ^ f
  if t = .e4m3 && e = 15 && m = 7 then .nan neg 7
  else if t ≠ .e4m3 && e = 2 ^ expBits t - 1 then (if m = 0 then .inf neg else .nan neg m)
  else if e = 0 then (if ftz && t.flushes then .fin neg 0 0 else .fin neg m (expMin t - f))
  else .fin neg (m + 2 ^ f) ((e : Int) - expBias t - f)

/-- A NaN is signalling: its quiet bit is 0; an E4M3 NaN never is (R92, R93). -/
def signalling (t : ElemType) : FVal → Bool
  | .nan _ frac => t ≠ .e4m3 && frac / 2 ^ (fracBits t - 1) % 2 = 0
  | _ => false
/-- A NaN. -/
def FVal.isNan : FVal → Bool
  | .nan _ _ => true
  | _ => false

/-- The pattern of an infinity; E4M3 has none, and its NaN of that sign stands in (R95). -/
def infBits (t : ElemType) (neg : Bool) : Nat :=
  signBit t neg + (if t = .e4m3 then 127 else (2 ^ expBits t - 1) * 2 ^ fracBits t)
/-- The largest finite value of a sign. -/
def maxBits (t : ElemType) (neg : Bool) : Nat :=
  signBit t neg + ((expMax t + expBias t).toNat * 2 ^ fracBits t + (sigMax t - 2 ^ fracBits t))
/-- The default NaN (R92). -/
def defaultNan (t : ElemType) : Nat :=
  if t = .e4m3 then 127 else (2 ^ expBits t - 1) * 2 ^ fracBits t + 2 ^ (fracBits t - 1)
/-- A NaN of the format with its quiet bit set; sign and payload are kept (R98). -/
def quietBits (t : ElemType) (neg : Bool) (frac : Nat) : Nat :=
  let f := fracBits t
  if t = .e4m3 then signBit t neg + 127
  else signBit t neg + (2 ^ expBits t - 1) * 2 ^ f + (if frac / 2 ^ (f - 1) % 2 = 1 then frac else frac + 2 ^ (f - 1))

/-- Number of bits of a natural number. -/
def bitLen (m : Nat) : Nat := if m = 0 then 0 else Nat.log2 m + 1

/-- Whether rounding goes away from zero, for a remainder of `r` below `2^s` (R95). -/
def roundsUp (rm : BitVec 2) (neg odd : Bool) (r s : Nat) : Bool :=
  match rm.toNat with
  | 0 => decide (2 ^ s < 2 * r) || (decide (2 * r = 2 ^ s) && odd)
  | 1 => false
  | 2 => neg && r ≠ 0
  | _ => !neg && r ≠ 0

/-- `m · 2^e` rounded to a multiple of `2^q`: the multiple, and whether the value changed. -/
def roundAt (rm : BitVec 2) (neg : Bool) (m : Nat) (e q : Int) : Nat × Bool :=
  if q ≤ e then (m * 2 ^ (e - q).toNat, false)
  else
    let s := (q - e).toNat
    let x := m / 2 ^ s
    let r := m % 2 ^ s
    ((if roundsUp rm neg (x % 2 = 1) r s then x + 1 else x), r ≠ 0)

/-- The result of an overflow (R95). -/
def overflowBits (t : ElemType) (rm : BitVec 2) (sat neg : Bool) : Nat :=
  let toInf := match rm.toNat with
    | 0 => true
    | 1 => false
    | 2 => neg
    | _ => !neg
  if toInf && !sat then infBits t neg else maxBits t neg

/-- Round(x, F, rm) for the finite value (−1)^neg · m · 2^e (R95, R97, R104). -/
def roundFin (t : ElemType) (rm : BitVec 2) (sat ftz neg : Bool) (m : Nat) (e : Int) : Nat × Causes :=
  if m = 0 then (signBit t neg, noCause)
  else
    let f := fracBits t
    let q := e + bitLen m - (f + 1)
    let r := roundAt rm neg m e q
    -- significand of f + 1 bits, and the exponent of its value
    let carry := decide (r.1 = 2 ^ (f + 1))
    let sig := if carry then 2 ^ f else r.1
    let ex := q + f + (if carry then 1 else 0)
    if expMax t < ex || (ex = expMax t && sigMax t < sig) then (overflowBits t rm sat neg, cOverflow ||| cInexact)
    else if ex < expMin t then
      if ftz && t.flushes then (signBit t neg, cUnderflow ||| cInexact)
      else
        let u := roundAt rm neg m e (expMin t - f)
        (signBit t neg + u.1, if u.2 then cUnderflow ||| cInexact else noCause)
    else (signBit t neg + (ex + expBias t).toNat * 2 ^ f + (sig - 2 ^ f), if r.2 then cInexact else noCause)

/-- The modes of an operation: RM, SAT and FTZ. -/
structure Modes where
  rm : BitVec 2
  sat : Bool
  ftz : Bool
  deriving DecidableEq, Repr

/-- The modes that GMODE holds. -/
def modesOf (gm : Half) : Modes := { rm := gmRm gm, sat := gmSat gm, ftz := gmFtz gm }

/-- Round under the modes. -/
def roundTo (t : ElemType) (md : Modes) (neg : Bool) (m : Nat) (e : Int) : Nat × Causes :=
  roundFin t md.rm md.sat md.ftz neg m e

/-! ### Exact sums and products -/

/-- The exact sum of two finite values as a signed integer times a power of two. -/
def exactSum (n1 : Bool) (m1 : Nat) (e1 : Int) (n2 : Bool) (m2 : Nat) (e2 : Int) : Int × Int :=
  let e := if e1 ≤ e2 then e1 else e2
  let a : Int := m1 * 2 ^ (e1 - e).toNat
  let b : Int := m2 * 2 ^ (e2 - e).toNat
  ((if n1 then -a else a) + (if n2 then -b else b), e)

/-- The rounded sum of two finite values, with the sign of an exact zero of R96. -/
def sumFin (t : ElemType) (md : Modes) (n1 : Bool) (m1 : Nat) (e1 : Int) (n2 : Bool) (m2 : Nat) (e2 : Int) : Nat × Causes :=
  let s := exactSum n1 m1 e1 n2 m2 e2
  if s.1 = 0 then
    (signBit t (if m1 = 0 && m2 = 0 && n1 == n2 then n1 else md.rm = 2#2), noCause)
  else roundTo t md (decide (s.1 < 0)) s.1.natAbs s.2

/-- The first NaN of operands, quieted, with INVALID where any is signalling; none where no operand is a NaN (R98). -/
def nanOf (t : ElemType) (xs : List FVal) : Option (Nat × Causes) :=
  match xs.find? FVal.isNan with
  | some (.nan neg frac) => some (quietBits t neg frac, if xs.any (signalling t) then cInvalid else noCause)
  | _ => none

/-- A NaN made from operands that are none (R98). -/
def invalidNan (t : ElemType) : Nat × Causes := (defaultNan t, cInvalid)

/-- The sum of two values that are no NaN. -/
def sumVal (t : ElemType) (md : Modes) : FVal → FVal → Nat × Causes
  | .inf a, .inf b => if a == b then (infBits t a, noCause) else invalidNan t
  | .inf a, _ => (infBits t a, noCause)
  | _, .inf b => (infBits t b, noCause)
  | .fin n1 m1 e1, .fin n2 m2 e2 => sumFin t md n1 m1 e1 n2 m2 e2
  | _, _ => invalidNan t

/-- The exact product of two values that are no NaN, or none for 0 × ∞. -/
def prodVal : FVal → FVal → Option FVal
  | .inf a, .inf b => some (.inf (a != b))
  | .inf a, .fin b m _ => if m = 0 then none else some (.inf (a != b))
  | .fin a m _, .inf b => if m = 0 then none else some (.inf (a != b))
  | .fin a m1 e1, .fin b m2 e2 => some (.fin (a != b) (m1 * m2) (e1 + e2))
  | _, _ => none

/-- A value with its sign changed. -/
def FVal.negate : FVal → FVal
  | .nan n f => .nan n f
  | .inf n => .inf (!n)
  | .fin n m e => .fin (!n) m e

/-- A value delivered by rounding. -/
def deliverVal (t : ElemType) (md : Modes) : FVal → Nat × Causes
  | .nan n f => (quietBits t n f, noCause)
  | .inf n => (infBits t n, noCause)
  | .fin n m e => roundTo t md n m e

/-! ### Float arithmetic of one sub-element (R111, R116) -/

/-- a + b. -/
def fAdd (t : ElemType) (md : Modes) (a b : Nat) : Nat × Causes :=
  let x := widen t md.ftz a
  let y := widen t md.ftz b
  match nanOf t [x, y] with
  | some r => r
  | none => sumVal t md x y

/-- a − b. -/
def fSub (t : ElemType) (md : Modes) (a b : Nat) : Nat × Causes :=
  let x := widen t md.ftz a
  let y := widen t md.ftz b
  match nanOf t [x, y] with
  | some r => r
  | none => sumVal t md x y.negate

/-- a × b. -/
def fMul (t : ElemType) (md : Modes) (a b : Nat) : Nat × Causes :=
  let x := widen t md.ftz a
  let y := widen t md.ftz b
  match nanOf t [x, y] with
  | some r => r
  | none =>
    match prodVal x y with
    | none => invalidNan t
    | some p => deliverVal t md p

/-- a × b + d, or a × b − d, with one rounding; 0 × ∞ logs INVALID also where d is a NaN. -/
def fFma (t : ElemType) (md : Modes) (minus : Bool) (a b d : Nat) : Nat × Causes :=
  let x := widen t md.ftz a
  let y := widen t md.ftz b
  let z := widen t md.ftz d
  let p := prodVal x y
  match nanOf t [x, y, z] with
  | some r => (r.1, if !x.isNan && !y.isNan && p.isNone then r.2 ||| cInvalid else r.2)
  | none =>
    match p with
    | none => invalidNan t
    | some v => sumVal t md v (if minus then z.negate else z)

/-- A quotient of naturals with enough bits for every format, and a sticky bit below: `m · 2^e`. -/
def quotient (m1 : Nat) (e1 : Int) (m2 : Nat) (e2 : Int) : Nat × Int :=
  let k := 128 + bitLen m2
  let n := m1 * 2 ^ k
  (2 * (n / m2) + (if n % m2 = 0 then 0 else 1), e1 - e2 - k - 1)

/-- a ÷ b, correctly rounded (R116). -/
def fDiv (t : ElemType) (md : Modes) (a b : Nat) : Nat × Causes :=
  let x := widen t md.ftz a
  let y := widen t md.ftz b
  match nanOf t [x, y] with
  | some r => r
  | none =>
    match x, y with
    | .inf _, .inf _ => invalidNan t
    | .inf n, .fin k _ _ => (infBits t (n != k), noCause)
    | .fin n _ _, .inf k => (signBit t (n != k), noCause)
    | .fin n m1 e1, .fin k m2 e2 =>
      if m2 = 0 then (if m1 = 0 then invalidNan t else (infBits t (n != k), cDivzero))
      else
        let q := quotient m1 e1 m2 e2
        roundTo t md (n != k) q.1 q.2
    | _, _ => invalidNan t

/-- The integer square root by bits: the greatest `r` with `r² ≤ n`, of at most `bits` bits. -/
def isqrtFrom (n : Nat) : Nat → Nat → Nat
  | 0, r => r
  | i + 1, r =>
    let r' := r + 2 ^ i
    isqrtFrom n i (if r' * r' ≤ n then r' else r)
/-- The integer square root. -/
def isqrt (n : Nat) : Nat := isqrtFrom n (bitLen n / 2 + 1) 0

/-- √(m · 2^e) with enough bits for every format and a sticky bit below. -/
def rootOf (m : Nat) (e : Int) : Nat × Int :=
  let odd := e % 2 = 1
  let m' := (if odd then 2 * m else m) * 2 ^ 256
  let e' := (if odd then e - 1 else e) - 256
  let r := isqrt m'
  (2 * r + (if r * r = m' then 0 else 1), e' / 2 - 1)

/-- √a, correctly rounded (R124, R125). -/
def fSqrt (t : ElemType) (md : Modes) (a : Nat) : Nat × Causes :=
  let x := widen t md.ftz a
  match nanOf t [x] with
  | some r => r
  | none =>
    match x with
    | .inf n => if n then invalidNan t else (infBits t false, noCause)
    | .fin n m e =>
      if m = 0 then (signBit t n, noCause)
      else if n then invalidNan t
      else
        let r := rootOf m e
        roundTo t md false r.1 r.2
    | _ => invalidNan t

/-- The order of two values that are no NaN: −1, 0 or 1, with −0 equal to +0. -/
def cmpVal : FVal → FVal → Int
  | .inf a, .inf b => if a == b then 0 else if a then -1 else 1
  | .inf a, _ => if a then -1 else 1
  | _, .inf b => if b then 1 else -1
  | .fin n1 m1 e1, .fin n2 m2 e2 => (exactSum n1 m1 e1 (!n2) m2 e2).1.sign
  | _, _ => 0

/-- The sign of a value. -/
def FVal.neg : FVal → Bool
  | .nan n _ => n
  | .inf n => n
  | .fin n _ _ => n

/-- MIN or MAX of floats (R99): −0 below +0, one NaN gives the other operand, two give the first quieted. -/
def fMinMax (t : ElemType) (md : Modes) (isMax : Bool) (a b : Nat) : Nat × Causes :=
  let x := widen t md.ftz a
  let y := widen t md.ftz b
  let inv := if signalling t x || signalling t y then cInvalid else noCause
  -- a flushed operand is delivered as the zero it is read as
  let pa := match x with
    | .fin n m _ => if m = 0 then signBit t n else a
    | _ => a
  let pb := match y with
    | .fin n m _ => if m = 0 then signBit t n else b
    | _ => b
  match x, y with
  | .nan n f, .nan _ _ => (quietBits t n f, inv)
  | .nan _ _, _ => (pb, inv)
  | _, .nan _ _ => (pa, inv)
  | _, _ =>
    let c := cmpVal x y
    let aLess := decide (c < 0) || (c = 0 && x.neg && !y.neg)
    (if aLess != isMax then pa else if c = 0 && x.neg == y.neg then pa else pb, inv)

/-! ### Conversions (R101 to R103) -/

/-- A NaN converted between formats, payload aligned at the most significant end (R101). -/
def convertNan (src dst : ElemType) (neg : Bool) (frac : Nat) : Nat :=
  if src = .e4m3 || dst = .e4m3 then signBit dst neg + defaultNan dst
  else
    let fs := fracBits src
    let fd := fracBits dst
    let q := if frac / 2 ^ (fs - 1) % 2 = 1 then frac else frac + 2 ^ (fs - 1)
    signBit dst neg + (2 ^ expBits dst - 1) * 2 ^ fd + (if fs ≤ fd then q * 2 ^ (fd - fs) else q / 2 ^ (fs - fd))

/-- A float converted to a float format (R101): a tiny result is flushed under FTZ as any other, with its causes, E5M2 to F16 too (R97;
assumption 45: DEDUCED). -/
def floatToFloat (src dst : ElemType) (md : Modes) (v : Nat) : Nat × Causes :=
  let x := widen src md.ftz v
  match x with
  | .nan neg frac => (convertNan src dst neg frac, if signalling src x then cInvalid else noCause)
  | .inf neg =>
    if dst = .e4m3 then (if md.sat then (maxBits dst neg, noCause) else (infBits dst neg, cInvalid))
    else (infBits dst neg, noCause)
  | .fin neg m e => roundTo dst md neg m e

/-- A finite value rounded to an integer under RM: the integer, and whether it changed. -/
def roundInt (rm : BitVec 2) (neg : Bool) (m : Nat) (e : Int) : Int × Bool :=
  let r := roundAt rm neg m e 0
  (if neg then -(r.1 : Int) else r.1, r.2)

/-- A float converted to an integer type (R102). -/
def floatToInt (src dst : ElemType) (md : Modes) (v : Nat) : Nat × Causes :=
  match widen src md.ftz v with
  | .nan _ _ => (0, cInvalid)
  | .inf neg => (intBits dst.width (if neg then intLeast dst else intGreatest dst), cInvalid)
  | .fin neg m e =>
    let r := roundInt md.rm neg m e
    if r.1 < intLeast dst then (intBits dst.width (intLeast dst), cInvalid)
    else if intGreatest dst < r.1 then (intBits dst.width (intGreatest dst), cInvalid)
    else (intBits dst.width r.1, if r.2 then cInexact else noCause)

/-- An integer converted to a float format (R103). -/
def intToFloat (src dst : ElemType) (md : Modes) (v : Nat) : Nat × Causes :=
  let x := intOf src v
  roundTo dst md (decide (x < 0)) x.natAbs 0

/-- Convert(v, S, D) (R129). -/
def convert (src dst : ElemType) (md : Modes) (v : Nat) : Nat × Causes :=
  if src.isInt then
    if src = dst then (v, noCause)
    else if dst.isInt then intDeliver dst md.sat (intOf src v)
    else intToFloat src dst md v
  else if dst.isInt then floatToInt src dst md v
  else floatToFloat src dst md v

/-! ### Ord (R104) -/

/-- Ord(v) for F32, I32 and N32. -/
def ord (t : ElemType) (v : Nat) : Int :=
  match t with
  | .f32 => if v < 2 ^ 31 then v else -1 - ((v - 2 ^ 31 : Nat) : Int)
  | .i32 => intOf .i32 v
  | _ => v
/-- The inverse of Ord. -/
def ordInv (t : ElemType) (x : Int) : Nat :=
  match t with
  | .f32 => if 0 ≤ x then x.toNat else (-1 - x).toNat + 2 ^ 31
  | .i32 => intBits 32 x
  | _ => x.toNat

end Sys2Proof.Machine
end

