-- ==== Sys2Proof/Machine/Vector.lean ====
section
/-!
DEFINITION. Type-generic vector words and their immediate forms (R73, R76, R108 to R123).
-/
namespace Sys2Proof.Machine

/-! ### The shared lane-wise path (R108 to R110) -/

/-- A word that reads ET is legal under the types a condition admits; codes 14 and 15 never are (R67). -/
def readsEt (p : ElemType → Bool) (gm : Half) : Bool :=
  match gmEt gm with
  | none => false
  | some t => p t
/-- Every type but E4M3 and E5M2. -/
def notSmall (t : ElemType) : Bool := t ≠ .e4m3 && t ≠ .e5m2
/-- Every type. -/
def anyType (_ : ElemType) : Bool := true
/-- F16, BF16, F32 and F64. -/
def bigFloat (t : ElemType) : Bool := !t.isInt && notSmall t

/-- The modes in force. -/
def Ctx.modes (c : Ctx) : Modes := modesOf c.g.gmode

/-- Results of sub-elements gathered into a register, with every cause raised. -/
def subMap (t : ElemType) (f : Nat → Nat × Causes) : Word × Causes :=
  let rs := (upTo t.count).map f
  (packWord t.width (rs.map (·.1)), rs.foldl (fun c r => c ||| r.2) noCause)

/-- The results of all participating lanes written together, and their causes logged (R108, R109). -/
def State.writeResult (s : State) (c : Ctx) (d : VNum) (f : Nat → Word × Causes) : State :=
  (s.writeV c.u d c.part (fun l => (f l).1)).raise c.u.team c.u.gang c.pc c.part (fun l => (f l).2)

/-- What a lane-wise word computes in a lane: type, modes, and the values of its sources in their order. -/
abbrev LaneFn := ElemType → Modes → (Nat → Word) → Word × Causes

/-- A lane-wise word: sources, destination, legal types and the function of a lane. -/
def laneWord (i : Instr) (srcs : List Src) (d : VNum) (legal : ElemType → Bool) (f : LaneFn) (s : State) :
    Host.Outcome State Fault Refusal :=
  issue i { srcs := srcs, dsts := [d], mode := readsEt legal } (fun c s =>
    .ok (s.writeResult c d (fun l => f c.et c.modes (fun j => c.src j l)))) s

/-- Sources a and b. -/
def srcsAB (a b : VNum) (wa wb : Bool) : List Src := [⟨a, wa⟩, ⟨b, wb⟩]
/-- Sources a, b and d: d always blocks (R64). -/
def srcsABD (a b d : VNum) (wa wb : Bool) : List Src := [⟨a, wa⟩, ⟨b, wb⟩, ⟨d, false⟩]

/-- A function of one sub-element of a, in every position. -/
def sub1 (f : ElemType → Modes → Nat → Nat × Causes) : LaneFn := fun t md v =>
  subMap t (fun i => f t md (subGet t.width (v 0) i))
/-- A function of sub-elements of a and b. -/
def sub2 (f : ElemType → Modes → Nat → Nat → Nat × Causes) : LaneFn := fun t md v =>
  subMap t (fun i => f t md (subGet t.width (v 0) i) (subGet t.width (v 1) i))
/-- A function of sub-elements of a, b and d. -/
def sub3 (f : ElemType → Modes → Nat → Nat → Nat → Nat × Causes) : LaneFn := fun t md v =>
  subMap t (fun i => f t md (subGet t.width (v 0) i) (subGet t.width (v 1) i) (subGet t.width (v 2) i))

/-! ### Arithmetic of one sub-element (R111) -/

/-- ADD. -/
def opAdd (t : ElemType) (md : Modes) (a b : Nat) : Nat × Causes :=
  if t.isInt then intDeliver t md.sat (intOf t a + intOf t b) else fAdd t md a b
/-- SUB. -/
def opSub (t : ElemType) (md : Modes) (a b : Nat) : Nat × Causes :=
  if t.isInt then intDeliver t md.sat (intOf t a - intOf t b) else fSub t md a b
/-- MUL. -/
def opMul (t : ElemType) (md : Modes) (a b : Nat) : Nat × Causes :=
  if t.isInt then intDeliver t md.sat (intOf t a * intOf t b) else fMul t md a b
/-- MULH: the high half of the exact product. -/
def opMulh (t : ElemType) (_ : Modes) (a b : Nat) : Nat × Causes :=
  (intBits t.width ((intOf t a * intOf t b) / 2 ^ t.width), noCause)
/-- FMA. -/
def opFma (t : ElemType) (md : Modes) (a b d : Nat) : Nat × Causes :=
  if t.isInt then intDeliver t md.sat (intOf t a * intOf t b + intOf t d) else fFma t md false a b d
/-- FMS. -/
def opFms (t : ElemType) (md : Modes) (a b d : Nat) : Nat × Causes :=
  if t.isInt then intDeliver t md.sat (intOf t a * intOf t b - intOf t d) else fFma t md true a b d
/-- MIN. -/
def opMin (t : ElemType) (md : Modes) (a b : Nat) : Nat × Causes :=
  if t.isInt then (if intOf t a ≤ intOf t b then a else b, noCause) else fMinMax t md false a b
/-- MAX. -/
def opMax (t : ElemType) (md : Modes) (a b : Nat) : Nat × Causes :=
  if t.isInt then (if intOf t b ≤ intOf t a then a else b, noCause) else fMinMax t md true a b
/-- ABS: of a float, the sign bit alone. -/
def opAbs (t : ElemType) (md : Modes) (a : Nat) : Nat × Causes :=
  if t.isInt then intDeliver t md.sat (intOf t a).natAbs else (a % 2 ^ (t.width - 1), noCause)
/-- NEG: of a float, the sign bit alone. -/
def opNeg (t : ElemType) (md : Modes) (a : Nat) : Nat × Causes :=
  if t.isInt then intDeliver t md.sat (-(intOf t a))
  else (a % 2 ^ (t.width - 1) + signBit t (!isNeg t a), noCause)

/-! ### Shifts and fields (R113 to R115) -/

/-- SHL by a count. -/
def shlBy (t : ElemType) (a c : Nat) : Nat := if t.width ≤ c then 0 else a * 2 ^ c % 2 ^ t.width
/-- SHR by a count: sign filling under an I type. -/
def shrBy (t : ElemType) (a c : Nat) : Nat := intBits t.width (intOf t a / 2 ^ (if t.width ≤ c then t.width else c))
/-- ROT by a count. -/
def rotBy (t : ElemType) (a c : Nat) : Nat :=
  let k := c % t.width
  a * 2 ^ k % 2 ^ t.width + a / 2 ^ (t.width - k)
/-- The bits of a number, the lowest first. -/
def bitsOf : Nat → Nat → List Bool
  | 0, _ => []
  | n + 1, v => (v % 2 = 1) :: bitsOf n (v / 2)
/-- The number whose bits are given, the lowest first. -/
def ofBits : List Bool → Nat
  | [] => 0
  | b :: t => (if b then 1 else 0) + 2 * ofBits t
/-- The number of leading entries of a list that are false. -/
def leadingFalse : List Bool → Nat
  | [] => 0
  | b :: t => if b then 0 else leadingFalse t + 1
/-- BITS (R114). -/
def opBits (op : BitsOp) (t : ElemType) (_ : Modes) (a : Nat) : Nat × Causes :=
  let bs := bitsOf t.width a
  ((match op with
    | .popc => (bs.filter id).length
    | .clz => leadingFalse bs.reverse
    | .ctz => leadingFalse bs
    | .brev => ofBits bs.reverse), noCause)
/-- Position and length of the field that a descriptor names (R115). -/
def fieldOf (t : ElemType) (b : Nat) : Nat × Nat :=
  let pos := b % t.width
  let len := b / t.width % (2 * t.width)
  (pos, min len (t.width - pos))
/-- BFX. -/
def opBfx (t : ElemType) (_ : Modes) (a b : Nat) : Nat × Causes :=
  let f := fieldOf t b
  let x := a / 2 ^ f.1 % 2 ^ f.2
  let neg := t.signed && f.2 ≠ 0 && x / 2 ^ (f.2 - 1) = 1
  (if neg then x + (2 ^ t.width - 2 ^ f.2) else x, noCause)
/-- BFI: the third operand is d. -/
def opBfi (t : ElemType) (_ : Modes) (a b d : Nat) : Nat × Causes :=
  let f := fieldOf t b
  let old := d / 2 ^ f.1 % 2 ^ f.2
  (d - old * 2 ^ f.1 + a % 2 ^ f.2 * 2 ^ f.1, noCause)

/-! ### Division (R116) -/

/-- DIV. -/
def opDiv (t : ElemType) (md : Modes) (a b : Nat) : Nat × Causes :=
  if t.isInt then
    (if b = 0 then (2 ^ t.width - 1, cDivzero) else intDeliver t md.sat ((intOf t a).tdiv (intOf t b)))
  else fDiv t md a b
/-- REM. -/
def opRem (t : ElemType) (_ : Modes) (a b : Nat) : Nat × Causes :=
  if b = 0 then (a, cDivzero) else (intBits t.width ((intOf t a).tmod (intOf t b)), noCause)

/-! ### Comparison (R74, R118) -/

/-- The order of two sub-elements: none where either is a NaN; and whether one is signalling. -/
def opOrder (t : ElemType) (md : Modes) (a b : Nat) : Option Int × Bool :=
  if t.isInt then (some (intOf t a - intOf t b), false)
  else
    let x := widen t md.ftz a
    let y := widen t md.ftz b
    (if x.isNan || y.isNan then none else some (cmpVal x y), signalling t x || signalling t y)
/-- Whether a condition of CMP holds for an order (R74). -/
def cmpHolds (cc : CmpCond) (o : Option Int) : Bool :=
  match cc, o with
  | .eq, some x => x = 0
  | .ne, some x => x ≠ 0
  | .lt, some x => x < 0
  | .le, some x => x ≤ 0
  | .gt, some x => 0 < x
  | .ge, some x => 0 ≤ x
  | .ord, some _ => true
  | .equ, some x => x = 0
  | .neu, some x => x ≠ 0
  | .ltu, some x => x < 0
  | .leu, some x => x ≤ 0
  | .gtu, some x => 0 < x
  | .geu, some x => 0 ≤ x
  | .uno, some _ => false
  | .equ, none | .neu, none | .ltu, none | .leu, none | .gtu, none | .geu, none | .uno, none => true
  | _, none => false
/-- The condition of CMP with the meaning of one of CMPI (R122). -/
def cmpiCond : CmpiCond → CmpCond
  | .eq => .eq
  | .ne => .ne
  | .lt => .lt
  | .le => .le
  | .gt => .gt
  | .ge => .ge
/-- CMP of a lane: the condition in every sub-element, and INVALID for a signalling NaN. -/
def cmpLane (cc : CmpCond) (t : ElemType) (md : Modes) (a b : Word) : Bool × Causes :=
  let os := (upTo t.count).map (fun i => opOrder t md (subGet t.width a i) (subGet t.width b i))
  (os.all (fun o => cmpHolds cc o.1), if os.any (·.2) then cInvalid else noCause)
/-- A comparison written to a predicate and its causes logged. -/
def State.writeCompare (s : State) (c : Ctx) (p : PNum) (f : Nat → Bool × Causes) : State :=
  (s.writeP c.u p c.part (fun l => (f l).1)).raise c.u.team c.u.gang c.pc c.part (fun l => (f l).2)

/-! ### DOT4 and CRC (R120, R121) -/

/-- DOT4 of a lane. -/
def dot4Lane (t : ElemType) (md : Modes) (a b d : Word) : Word × Causes :=
  let w := if t = .n8 then ElemType.n32 else ElemType.i32
  subMap w (fun j =>
    let s := (upTo 4).foldl (fun (x : Int) m =>
      x + intOf t (subGet 8 a (4 * j + m)) * intOf t (subGet 8 b (4 * j + m))) 0
    intDeliver w md.sat (intOf w (subGet 32 d j) + s))
/-- One bit of the CRC-32C step. -/
def crcBit (c : Half) : Half := if c.getLsbD 0 then (c >>> 1) ^^^ 0x82F63B78#32 else c >>> 1
/-- Eight bits. -/
def crcByte (c : Half) (b : Byte) : Half :=
  crcBit (crcBit (crcBit (crcBit (crcBit (crcBit (crcBit (crcBit (c ^^^ b.setWidth 32))))))))
/-- CRC over the eight bytes of a, byte 0 first. -/
def crcWord (c : Half) (a : Word) : Half := (leBytes 8 a.toNat).foldl crcByte c

/-! ### Immediates (R112, R122, R123) -/

/-- Imm(imm, ET) for a sign-extended immediate. -/
def immOf (t : ElemType) (md : Modes) (imm : Int) : Nat :=
  if t.isInt then intBits t.width imm else (roundTo t md (decide (imm < 0)) imm.natAbs 0).1
/-- The low w bits of a sign-extended immediate, whatever the type. -/
def immBits (t : ElemType) (imm : BitVec 12) : Nat := intBits t.width imm.toInt
/-- An immediate form: the register form with the immediate as b in every sub-element. -/
def immForm (imm : Int) (f : ElemType → Modes → Nat → Nat → Nat × Causes) : LaneFn := fun t md v =>
  subMap t (fun i => f t md (subGet t.width (v 0) i) (immOf t md imm))
/-- A bitwise immediate form. -/
def immBitwise (imm : BitVec 12) (f : Word → Word → Word) : LaneFn := fun t _ v =>
  (f (v 0) (packWord t.width ((upTo t.count).map (fun _ => immBits t imm))), noCause)
/-- A bitwise form on all 64 bits. -/
def bitwise (f : Word → Word → Word) : LaneFn := fun _ _ v => (f (v 0) (v 1), noCause)

/-! ### The words -/

/-- ADD (R111). -/
def execAdd (d a b : VNum) (wa wb : Bool) (s : State) : Host.Outcome State Fault Refusal :=
  laneWord (.add d a b wa wb) (srcsAB a b wa wb) d notSmall (sub2 opAdd) s
/-- SUB (R111). -/
def execSub (d a b : VNum) (wa wb : Bool) (s : State) : Host.Outcome State Fault Refusal :=
  laneWord (.sub d a b wa wb) (srcsAB a b wa wb) d notSmall (sub2 opSub) s
/-- MUL (R111). -/
def execMul (d a b : VNum) (wa wb : Bool) (s : State) : Host.Outcome State Fault Refusal :=
  laneWord (.mul d a b wa wb) (srcsAB a b wa wb) d notSmall (sub2 opMul) s
/-- MULH (R111). -/
def execMulh (d a b : VNum) (wa wb : Bool) (s : State) : Host.Outcome State Fault Refusal :=
  laneWord (.mulh d a b wa wb) (srcsAB a b wa wb) d ElemType.isInt (sub2 opMulh) s
/-- FMA (R111). -/
def execFma (d a b : VNum) (wa wb : Bool) (s : State) : Host.Outcome State Fault Refusal :=
  laneWord (.fma d a b wa wb) (srcsABD a b d wa wb) d notSmall (sub3 opFma) s
/-- FMS (R111). -/
def execFms (d a b : VNum) (wa wb : Bool) (s : State) : Host.Outcome State Fault Refusal :=
  laneWord (.fms d a b wa wb) (srcsABD a b d wa wb) d notSmall (sub3 opFms) s
/-- MIN (R111). -/
def execMin (d a b : VNum) (wa wb : Bool) (s : State) : Host.Outcome State Fault Refusal :=
  laneWord (.min d a b wa wb) (srcsAB a b wa wb) d anyType (sub2 opMin) s
/-- MAX (R111). -/
def execMax (d a b : VNum) (wa wb : Bool) (s : State) : Host.Outcome State Fault Refusal :=
  laneWord (.max d a b wa wb) (srcsAB a b wa wb) d anyType (sub2 opMax) s
/-- ABS (R111). -/
def execAbs (d a : VNum) (wa : Bool) (s : State) : Host.Outcome State Fault Refusal :=
  laneWord (.abs d a wa) [⟨a, wa⟩] d notSmall (sub1 opAbs) s
/-- NEG (R111). -/
def execNeg (d a : VNum) (wa : Bool) (s : State) : Host.Outcome State Fault Refusal :=
  laneWord (.neg d a wa) [⟨a, wa⟩] d notSmall (sub1 opNeg) s
/-- AND (R112). -/
def execAnd (d a b : VNum) (wa wb : Bool) (s : State) : Host.Outcome State Fault Refusal :=
  laneWord (.and d a b wa wb) (srcsAB a b wa wb) d notSmall (bitwise (· &&& ·)) s
/-- OR (R112). -/
def execOr (d a b : VNum) (wa wb : Bool) (s : State) : Host.Outcome State Fault Refusal :=
  laneWord (.or d a b wa wb) (srcsAB a b wa wb) d notSmall (bitwise (· ||| ·)) s
/-- XOR (R112). -/
def execXor (d a b : VNum) (wa wb : Bool) (s : State) : Host.Outcome State Fault Refusal :=
  laneWord (.xor d a b wa wb) (srcsAB a b wa wb) d notSmall (bitwise (· ^^^ ·)) s
/-- ANDN: a AND NOT b (R112). -/
def execAndn (d a b : VNum) (wa wb : Bool) (s : State) : Host.Outcome State Fault Refusal :=
  laneWord (.andn d a b wa wb) (srcsAB a b wa wb) d notSmall (bitwise (fun x y => x &&& ~~~ y)) s
/-- SHL (R113). -/
def execShl (d a b : VNum) (wa wb : Bool) (s : State) : Host.Outcome State Fault Refusal :=
  laneWord (.shl d a b wa wb) (srcsAB a b wa wb) d ElemType.isInt (sub2 (fun t _ x c => (shlBy t x c, noCause))) s
/-- SHR (R113). -/
def execShr (d a b : VNum) (wa wb : Bool) (s : State) : Host.Outcome State Fault Refusal :=
  laneWord (.shr d a b wa wb) (srcsAB a b wa wb) d ElemType.isInt (sub2 (fun t _ x c => (shrBy t x c, noCause))) s
/-- ROT (R113). -/
def execRot (d a b : VNum) (wa wb : Bool) (s : State) : Host.Outcome State Fault Refusal :=
  laneWord (.rot d a b wa wb) (srcsAB a b wa wb) d ElemType.isInt (sub2 (fun t _ x c => (rotBy t x c, noCause))) s
/-- BITS (R114). -/
def execBits (op : BitsOp) (d a : VNum) (wa : Bool) (s : State) : Host.Outcome State Fault Refusal :=
  laneWord (.bits op d a wa) [⟨a, wa⟩] d ElemType.isInt (sub1 (opBits op)) s
/-- BFX (R115). -/
def execBfx (d a b : VNum) (wa wb : Bool) (s : State) : Host.Outcome State Fault Refusal :=
  laneWord (.bfx d a b wa wb) (srcsAB a b wa wb) d ElemType.isInt (sub2 opBfx) s
/-- BFI (R115). -/
def execBfi (d a b : VNum) (wa wb : Bool) (s : State) : Host.Outcome State Fault Refusal :=
  laneWord (.bfi d a b wa wb) (srcsABD a b d wa wb) d ElemType.isInt (sub3 opBfi) s
/-- DIV (R116). -/
def execDiv (d a b : VNum) (wa wb : Bool) (s : State) : Host.Outcome State Fault Refusal :=
  laneWord (.div d a b wa wb) (srcsAB a b wa wb) d notSmall (sub2 opDiv) s
/-- REM (R116). -/
def execRem (d a b : VNum) (wa wb : Bool) (s : State) : Host.Outcome State Fault Refusal :=
  laneWord (.rem d a b wa wb) (srcsAB a b wa wb) d ElemType.isInt (sub2 opRem) s
/-- MOV (R117). -/
def execMov (d a : VNum) (wa : Bool) (s : State) : Host.Outcome State Fault Refusal :=
  laneWord (.mov d a wa) [⟨a, wa⟩] d notSmall (fun _ _ v => (v 0, noCause)) s
/-- SEL (R117). -/
def execSel (d a b : VNum) (wa wb : Bool) (n : Bool) (p : PNum) (s : State) : Host.Outcome State Fault Refusal :=
  issue (.sel d a b wa wb n p) { srcs := srcsAB a b wa wb, dsts := [d], mode := readsEt notSmall } (fun c s =>
    .ok (s.writeV c.u d c.part (fun l => if (c.g.lane l).pred p != n then c.src 0 l else c.src 1 l))) s
/-- CMP (R118). -/
def execCmp (cc : CmpCond) (p : PNum) (a b : VNum) (wa wb : Bool) (s : State) : Host.Outcome State Fault Refusal :=
  issue (.cmp cc p a b wa wb) { srcs := srcsAB a b wa wb, mode := readsEt anyType } (fun c s =>
    .ok (s.writeCompare c p (fun l => cmpLane cc c.et c.modes (c.src 0 l) (c.src 1 l)))) s
/-- PLOP (R75, R119). -/
def execPlop (d a b : PNum) (tt : BitVec 4) (s : State) : Host.Outcome State Fault Refusal :=
  issue (.plop d a b tt) {} (fun c s =>
    .ok (s.writeP c.u d c.part (fun l =>
      tt.getLsbD (2 * ((c.g.lane l).pred a).toNat + ((c.g.lane l).pred b).toNat)))) s
/-- DOT4 (R120). -/
def execDot4 (d a b : VNum) (wa wb : Bool) (s : State) : Host.Outcome State Fault Refusal :=
  laneWord (.dot4 d a b wa wb) (srcsABD a b d wa wb) d (fun t => t = .i8 || t = .n8)
    (fun t md v => dot4Lane t md (v 0) (v 1) (v 2)) s
/-- CRC (R121). -/
def execCrc (d a : VNum) (wa : Bool) (s : State) : Host.Outcome State Fault Refusal :=
  laneWord (.crc d a wa) [⟨a, wa⟩, ⟨d, false⟩] d ElemType.isInt
    (fun _ _ v => ((crcWord ((v 1).setWidth 32) (v 0)).setWidth 64, noCause)) s

/-- ADDI (R122). -/
def execAddi (d a : VNum) (imm : BitVec 12) (s : State) : Host.Outcome State Fault Refusal :=
  laneWord (.addi d a imm) [⟨a, false⟩] d notSmall (immForm imm.toInt opAdd) s
/-- MULI (R122). -/
def execMuli (d a : VNum) (imm : BitVec 12) (s : State) : Host.Outcome State Fault Refusal :=
  laneWord (.muli d a imm) [⟨a, false⟩] d notSmall (immForm imm.toInt opMul) s
/-- ANDI (R112). -/
def execAndi (d a : VNum) (imm : BitVec 12) (s : State) : Host.Outcome State Fault Refusal :=
  laneWord (.andi d a imm) [⟨a, false⟩] d notSmall (immBitwise imm (· &&& ·)) s
/-- ORI (R112). -/
def execOri (d a : VNum) (imm : BitVec 12) (s : State) : Host.Outcome State Fault Refusal :=
  laneWord (.ori d a imm) [⟨a, false⟩] d notSmall (immBitwise imm (· ||| ·)) s
/-- XORI (R112). -/
def execXori (d a : VNum) (imm : BitVec 12) (s : State) : Host.Outcome State Fault Refusal :=
  laneWord (.xori d a imm) [⟨a, false⟩] d notSmall (immBitwise imm (· ^^^ ·)) s
/-- SHLI (R113). -/
def execShli (d a : VNum) (count : BitVec 6) (s : State) : Host.Outcome State Fault Refusal :=
  laneWord (.shli d a count) [⟨a, false⟩] d ElemType.isInt (sub1 (fun t _ x => (shlBy t x count.toNat, noCause))) s
/-- SHRI (R113). -/
def execShri (d a : VNum) (count : BitVec 6) (s : State) : Host.Outcome State Fault Refusal :=
  laneWord (.shri d a count) [⟨a, false⟩] d ElemType.isInt (sub1 (fun t _ x => (shrBy t x count.toNat, noCause))) s
/-- CMPI (R122). -/
def execCmpi (cc : CmpiCond) (p : PNum) (a : VNum) (imm : BitVec 12) (s : State) : Host.Outcome State Fault Refusal :=
  issue (.cmpi cc p a imm) { srcs := [⟨a, false⟩], mode := readsEt notSmall } (fun c s =>
    .ok (s.writeCompare c p (fun l => cmpLane (cmpiCond cc) c.et c.modes (c.src 0 l)
      (packWord c.et.width ((upTo c.et.count).map (fun _ => immOf c.et c.modes imm.toInt)))))) s
/-- MOVI (R122). -/
def execMovi (d : VNum) (imm : BitVec 18) (s : State) : Host.Outcome State Fault Refusal :=
  laneWord (.movi d imm) [] d notSmall (fun t md _ => subMap t (fun _ => (immOf t md imm.toInt, noCause))) s
/-- MOVHI (R123). -/
def execMovhi (d : VNum) (imm : BitVec 18) (s : State) : Host.Outcome State Fault Refusal :=
  laneWord (.movhi d imm) [⟨d, false⟩] d (fun t => t = .i64 || t = .n64 || t = .f64)
    (fun _ _ v => ((v 0 &&& 0x3FFFF#64) ||| (imm.setWidth 64 <<< 18), noCause)) s
/-- MINI (R122). -/
def execMini (d a : VNum) (imm : BitVec 12) (s : State) : Host.Outcome State Fault Refusal :=
  laneWord (.mini d a imm) [⟨a, false⟩] d notSmall (immForm imm.toInt opMin) s
/-- MAXI (R122). -/
def execMaxi (d a : VNum) (imm : BitVec 12) (s : State) : Host.Outcome State Fault Refusal :=
  laneWord (.maxi d a imm) [⟨a, false⟩] d notSmall (immForm imm.toInt opMax) s

end Sys2Proof.Machine
end

