-- ==== Sys2Proof/Machine/Scratch.lean ====
section
/-!
DEFINITION. Scratchpad words (R80, R274 to R280): the checks of an access in their order, deterministic mode's line tags (R218),
loads, stores, atomics and the uniform forms.
-/
namespace Sys2Proof.Machine

/-! ### Deterministic mode (R218) -/

/-- How an access is checked and recorded. -/
inductive TagKind where
  | read
  | write
  | atomic (op : AtomOp) (w : Nat)
  deriving DecidableEq, Repr

/-- The lowest reader of a line other than a gang. -/
def LineTag.otherReader (x : LineTag) (g : Nat) : Option Nat := (upTo 16).find? (fun i => i ≠ g && x.readers.getLsbD i)
/-- The writer of a line, where it is another gang. -/
def LineTag.otherWriter (x : LineTag) (g : Nat) : Option Nat :=
  match x.writer with
  | some w => if w = g then none else some w
  | none => none
/-- The gang with which an access conflicts. -/
def LineTag.conflict (x : LineTag) (g : Nat) : TagKind → Option Nat
  | .read => x.otherWriter g
  | .write => (x.otherWriter g).or (x.otherReader g)
  | .atomic op w => (if x.atomic = some (op, w) then none else x.otherWriter g).or (x.otherReader g)
/-- The tag after an access. -/
def LineTag.after (x : LineTag) (g : Nat) : TagKind → LineTag
  | .read => { x with readers := x.readers ||| (1#16 <<< g) }
  | .write => { x with writer := some g, readers := 0#16, atomic := none }
  | .atomic op w => { x with writer := some g, readers := 0#16, atomic := some (op, w) }

/-- The first line of a range that conflicts, with the gang recorded. -/
def Team.raceAt (t : Team) (g off n : Nat) (k : TagKind) : Option (Nat × Nat) :=
  (linesOf off n).findSome? (fun i => ((t.lineTag i).conflict g k).map (fun w => (i, w)))
/-- The lines of a range recorded for an access. -/
def Team.recordLines (t : Team) (g off n : Nat) (k : TagKind) : Team :=
  { t with lines := (linesOf off n).foldl (fun ls i => rowPut {} ls i (({ t with lines := ls } : Team).lineTag i |>.after g k)) t.lines }
/-- The trap of a race (R369). -/
def raceTrap (x : Nat × Nat) (lanes : Option Half) : TrapInfo :=
  { cause := .race, lanes := lanes, detail := BitVec.ofNat 64 (x.1 * 64 % 2 ^ 22 + x.2 * 2 ^ 24) }
/-- The word's accesses are checked and recorded. -/
def Ctx.det (c : Ctx) : Bool := c.u.gang ≠ 16 && gmDet c.g.gmode

/-! ### The checks of R275 -/

/-- A trap of lanes that reports the address of the lowest. -/
def addrTrap (cause : Cause) (m : Half) (addr : Nat → Word) : TrapInfo :=
  { cause := cause, lanes := some m, detail := addr (lowLane m) }

/-- The checks of the lanes' accesses of `w` bytes: each in every lane before the next. -/
def laneStop (c : Ctx) (w : Nat) (addr : Nat → Word) (k : TagKind) : Option Stop :=
  let mis := maskOf (fun l => c.part.getLsbD l && (addr l).toNat % w ≠ 0)
  let out := maskOf (fun l => c.part.getLsbD l && !inWindow c.t (addr l) w)
  let race := fun l => c.t.raceAt c.u.gang (addr l).toNat w k
  let conf := maskOf (fun l => c.part.getLsbD l && (race l).isSome)
  firstStop [
    need (mis = 0#32) (.trap (addrTrap .misaligned mis addr)),
    need (out = 0#32) (.trap (addrTrap .scratchRange out addr)),
    need (!c.det || conf = 0#32) (.trap (raceTrap ((race (lowLane conf)).getD (0, 0)) (some conf)))]

/-- The checks of a uniform access of `w` bytes aligned to `al`, whose trap reports the active mask. -/
def uniformStop (c : Ctx) (al w : Nat) (a : Word) : Option Stop :=
  firstStop [
    need (a.toNat % al = 0) (.trap { cause := .misaligned, detail := a }),
    need (inWindow c.t a w) (.trap { cause := .scratchRange, detail := a })]
/-- The check of deterministic mode for a uniform access. -/
def uniformRace (c : Ctx) (w : Nat) (a : Word) (k : TagKind) : Option Stop :=
  if c.det then (c.t.raceAt c.u.gang a.toNat w k).map (fun x => .trap (raceTrap x none)) else none

/-- The lines of the lanes' accesses recorded, in lane order. -/
def State.recordLanes (s : State) (c : Ctx) (w : Nat) (addr : Nat → Word) (k : TagKind) : State :=
  if c.det then s.modTeam c.u.team (fun t => (lanesOf c.part).foldl (fun t l => t.recordLines c.u.gang (addr l).toNat w k) t) else s
/-- The lines of a uniform access recorded. -/
def State.recordRange (s : State) (c : Ctx) (w : Nat) (a : Word) (k : TagKind) : State :=
  if c.det then s.modTeam c.u.team (fun t => t.recordLines c.u.gang a.toNat w k) else s

/-- POISON of a word of memory, with DETAIL bit 6 set (R392): no register is named, and R392 gives no producer (assumption 11: DESIGN CHOICE). -/
def memPoison (s : State) (t : Team) (detail : Nat) : TrapInfo :=
  { cause := .poison, detail := BitVec.ofNat 64 detail, prodpc := Config.freeProducer (s.part t.part).trapSeq }
/-- The stop of a uniform read of an uncorrectable word (R392). -/
def badStop (s : State) (c : Ctx) (a : Word) (w : Nat) : Option Stop :=
  need (!s.spadBad (c.t.key a.toNat) w) (.trap (memPoison s c.t 64))

/-- A stop, or what follows. -/
def stopOr (x : Option Stop) (k : Except Stop State) : Except Stop State :=
  match x with
  | some st => .error st
  | none => k

/-! ### Sources of fills under way (R163) -/

/-- The bytes a fill brings once its source reads `now` and last stood at `seen`: of each byte that another gang or an engine has
changed, the old or the new value. -/
def fillBytes (free : Nat) (src seen now : List Byte) : List Byte :=
  ((upTo src.length).zip (src.zip (seen.zip now))).map (fun x =>
    if x.2.2.1 ≠ x.2.2.2 && Config.freeBit (free + x.1) then x.2.2.2 else x.2.1)
/-- A fill takes note of its source as it stands. -/
def ObRecord.look (r : ObRecord) (free : Nat) (now : List Byte) : ObRecord := { r with src := fillBytes free r.src r.seen now, seen := now }
/-- The records of a core that an OBLD of a gang is filling. -/
def State.fillsOf (s : State) (core u g : Nat) : List Nat :=
  (upTo Config.coreRecords).filter (fun i =>
    (s.record core i).state = .filling && (s.record core i).team = u && (s.record core i).by_ = g)
/-- The fill of a record takes note of its source. -/
def State.lookFill (s : State) (core i : Nat) : State :=
  let r := s.record core i
  ({ s with fresh := s.fresh + r.src.length } : State).modRecord core i (fun r => r.look s.fresh (s.spadBytes r.srcKey r.src.length))
/-- A write to the scratchpad by a word of a gang: the gang's fills under way never see it (R163). -/
def State.ownStore (s : State) (u : Issuer) (f : State → State) : State :=
  let core := (s.team u.team).home
  let fs := s.fillsOf core u.team u.gang
  let s := f (fs.foldl (fun s i => s.lookFill core i) s)
  fs.foldl (fun s i => s.modRecord core i (fun r => { r with seen := s.spadBytes r.srcKey r.src.length })) s

/-! ### Loads and stores (R278) -/

/-- Bytes of a width. -/
def widthBytes : MemWidth → Nat
  | .b8 => 1 | .h16 => 2 | .w32 => 4 | .d64 => 8

/-- A loaded value extended to 64 bits. -/
def extendTo (w : Nat) (sx : Bool) (v : Nat) : Word :=
  BitVec.ofNat 64 (if sx && decide (2 ^ (8 * w - 1) ≤ v) then v + (2 ^ 64 - 2 ^ (8 * w)) else v)

/-- A vector register given contents in lanes. -/
def Gang.loadV (g : Gang) (d : VNum) (lanes : Half) (f : Nat → VReg) : Gang :=
  if lanes = 0#32 then g else (g.modLanes lanes (fun l x => x.setV d (f l))).touchV d

/-- What a lane loads: where the scratchpad word is uncorrectable the lane is poisoned (R392), and its value is free
(assumption 1: DESIGN CHOICE); bytes of a Skipper command's regions that are still undefined are free too (R189). -/
def State.laneLoad (s : State) (t : Team) (w : Nat) (sx : Bool) (addr : Nat → Word) (l : Nat) : VReg :=
  if s.spadBad (t.key (addr l).toNat) w then { val := Config.freeWord (s.fresh + l), poison := true, ppc := parityPc, pcode := 6#8 }
  else { val := extendTo w sx (s.seenNat (s.fresh + 32 + 8 * l) (t.key (addr l).toNat) w) }

/-- A register loaded in the participating lanes. -/
def State.loadLanes (s : State) (c : Ctx) (d : VNum) (w : Nat) (sx : Bool) (addr : Nat → Word) : State :=
  let s' := s.modGang c.u.team c.u.gang (fun g => g.loadV d c.part (s.laneLoad c.t w sx addr))
  if (lanesOf c.part).all (fun l => !s.spadBad (c.t.key (addr l).toNat) w && !s.veils (c.t.key (addr l).toNat) w) then s'
  else { s' with fresh := s.fresh + 288 }

/-- The low `w` bytes of a register stored in the participating lanes, ascending (R277). -/
def State.storeLanes (s : State) (c : Ctx) (w : Nat) (addr val : Nat → Word) : State :=
  s.ownStore c.u (fun s => (lanesOf c.part).foldl (fun s l => s.spadWrite (c.t.key (addr l).toNat) (leBytes w (val l).toNat)) s)

/-- A load: sources, address and width. -/
def loadWord (i : Instr) (srcs : List Src) (d : VNum) (w : Nat) (sx : Bool) (addr : Ctx → Nat → Word) (s : State) :
    Host.Outcome State Fault Refusal :=
  issue i { srcs := srcs, dsts := [d] } (fun c s =>
    stopOr (laneStop c w (addr c) .read) (.ok ((s.loadLanes c d w sx (addr c)).recordLanes c w (addr c) .read))) s

/-- A store: the value is source `j`. -/
def storeWord (i : Instr) (srcs : List Src) (w : Nat) (addr : Ctx → Nat → Word) (j : Nat) (s : State) :
    Host.Outcome State Fault Refusal :=
  issue i { srcs := srcs } (fun c s =>
    stopOr (laneStop c w (addr c) .write) (.ok ((s.storeLanes c w (addr c) (c.src j)).recordLanes c w (addr c) .write))) s

/-- The address in source a. -/
def addrA (c : Ctx) (l : Nat) : Word := c.src 0 l
/-- The address in source a with an immediate. -/
def addrImm (imm : BitVec 12) (c : Ctx) (l : Nat) : Word := c.src 0 l + imm.signExtend 64

/-- LD (R278). -/
def execLd (w : MemWidth) (sx : Bool) (d a : VNum) (wa : Bool) (s : State) : Host.Outcome State Fault Refusal :=
  loadWord (.ld w sx d a wa) [⟨a, wa⟩] d (widthBytes w) sx addrA s
/-- ST (R278). -/
def execSt (w : MemWidth) (a b : VNum) (wa wb : Bool) (s : State) : Host.Outcome State Fault Refusal :=
  storeWord (.st w a b wa wb) (srcsAB a b wa wb) (widthBytes w) addrA 1 s
/-- LDX (R278). -/
def execLdx (d a : VNum) (imm : BitVec 12) (s : State) : Host.Outcome State Fault Refusal :=
  loadWord (.ldx d a imm) [⟨a, false⟩] d 8 false (addrImm imm) s
/-- STX (R278). -/
def execStx (d a : VNum) (imm : BitVec 12) (s : State) : Host.Outcome State Fault Refusal :=
  storeWord (.stx d a imm) [⟨a, false⟩, ⟨d, false⟩] 8 (addrImm imm) 1 s

/-! ### Atomics (R279, R280) -/

/-- The types under which ATOM allows an operation. -/
def atomLegal (op : AtomOp) (t : ElemType) : Bool :=
  t.isInt || (bigFloat t && (op = .add || op = .min || op = .max || op = .xchg))

/-- Op(old, x). -/
def atomOp (op : AtomOp) (t : ElemType) (md : Modes) (old x : Nat) : Nat × Causes :=
  match op with
  | .add => opAdd t md old x
  | .min => opMin t md old x
  | .max => opMax t md old x
  | .and => ((BitVec.ofNat 64 old &&& BitVec.ofNat 64 x).toNat, noCause)
  | .or => ((BitVec.ofNat 64 old ||| BitVec.ofNat 64 x).toNat, noCause)
  | .xor => ((BitVec.ofNat 64 old ^^^ BitVec.ofNat 64 x).toNat, noCause)
  | .xchg => (x, noCause)

/-- How an atomic is tagged. -/
def atomKind (op : AtomOp) (t : ElemType) : TagKind := if t.isInt && op ≠ .xchg then .atomic op t.width else .write

/-- Read-modify-writes of the participating lanes in ascending order: the state, and each lane's old element and causes. -/
def State.rmwLanes (s : State) (c : Ctx) (w : Nat) (f : Nat → Nat → Nat × Causes) : State × List (Nat × Nat × Causes) :=
  (lanesOf c.part).foldl (fun (x : State × List (Nat × Nat × Causes)) l =>
    let key := c.t.key (c.src 0 l).toNat
    let old := x.1.seenNat (s.fresh + 8 * l) key w
    let r := f l old
    (x.1.spadSet key w r.1, x.2 ++ [(l, old, r.2)])) (s, [])

/-- What a lane got. -/
def laneGot (xs : List (Nat × Nat × Causes)) (l : Nat) : Nat × Causes := ((xs.find? (fun x => x.1 = l)).map (·.2)).getD (0, noCause)

/-- A scratchpad atomic: the function of a lane and the old element gives the new one. -/
def atomicWord (i : Instr) (f : Form) (d : VNum) (kind : Ctx → TagKind) (fn : Ctx → Nat → Nat → Nat × Causes) (s : State) :
    Host.Outcome State Fault Refusal :=
  issue i f (fun c s =>
    let w := c.et.width / 8
    let bad := (lanesOf c.part).any (fun l => s.spadBad (c.t.key (c.src 0 l).toNat) w)
    stopOr (laneStop c w (addrA c) (kind c))
    (stopOr (need (!bad) (.trap (memPoison s c.t 64)))
    (let r := s.rmwLanes c w (fn c)
     let veiled := (lanesOf c.part).any (fun l => s.veils (c.t.key (c.src 0 l).toNat) w)
     let s := s.ownStore c.u (fun s => (s.rmwLanes c w (fn c)).1)
     let s := if veiled then { s with fresh := s.fresh + 256 } else s
     .ok (((s.writeV c.u d c.part (fun l => BitVec.ofNat 64 (laneGot r.2 l).1)).raise c.u.team c.u.gang c.pc c.part
       (fun l => (laneGot r.2 l).2)).recordLanes c w (addrA c) (kind c))))) s

/-- ATOM (R279). -/
def execAtom (op : AtomOp) (d a b : VNum) (wa wb : Bool) (s : State) : Host.Outcome State Fault Refusal :=
  atomicWord (.atom op d a b wa wb) { srcs := srcsAB a b wa wb, dsts := [d], mode := readsEt (atomLegal op), closes := true } d
    (fun c => atomKind op c.et) (fun c l old => atomOp op c.et c.modes old (subGet c.et.width (c.src 1 l) 0)) s
/-- ACAS (R280): source 2 is d. -/
def execAcas (d a b : VNum) (wa wb : Bool) (s : State) : Host.Outcome State Fault Refusal :=
  atomicWord (.acas d a b wa wb) { srcs := srcsABD a b d wa wb, dsts := [d], mode := readsEt notSmall, closes := true } d
    (fun _ => .write) (fun c l old =>
      (if old = subGet c.et.width (c.src 2 l) 0 then subGet c.et.width (c.src 1 l) 0 else old, noCause)) s

/-! ### Uniform accesses (R278) -/

/-- KLD (R278). -/
def execKld (d a : KNum) (imm : BitVec 12) (s : State) : Host.Outcome State Fault Refusal :=
  issue (.kld d a imm) { ks := [a], sidecar := true } (fun c s =>
    let ad := c.k a + imm.signExtend 64
    stopOr (uniformStop c 8 8 ad) (stopOr (uniformRace c 8 ad .read) (stopOr (badStop s c ad 8)
      (let r := s.spadSeen (c.t.key ad.toNat) 8
       .ok ((r.2.writeK c.u d (BitVec.ofNat 64 (leNat r.1))).recordRange c 8 ad .read))))) s
/-- KST (R278). -/
def execKst (d a : KNum) (imm : BitVec 12) (s : State) : Host.Outcome State Fault Refusal :=
  issue (.kst d a imm) { ks := [a, d], sidecar := true } (fun c s =>
    let ad := c.k a + imm.signExtend 64
    stopOr (uniformStop c 8 8 ad) (stopOr (uniformRace c 8 ad .write)
      (.ok ((s.ownStore c.u (fun s => s.spadSet (c.t.key ad.toNat) 8 (c.k d).toNat)).recordRange c 8 ad .write)))) s

end Sys2Proof.Machine
end

