-- ==== Sys2Proof/Machine/Sync.lean ====
section
/-!
DEFINITION. Synchronisation and launch words (R82, R284 to R294): sync words, counter waits, barriers, the early trigger, LAUNCH
(R201), DETEP (R219) and the sidecar's QPUSH (R216).
-/
namespace Sys2Proof.Machine

/-- The wait with which the unit's word was held. -/
def State.unitWait (s : State) (u : Issuer) : Option WaitKind :=
  if u.gang = 16 then (s.team u.team).side.wait.map (·.kind)
  else ((s.gang u.team u.gang).slice (lowSlice u.slices)).wait.map (·.kind)

/-! ### Sync words -/

/-- SWINIT (R286): COUNT, FLAGS and the reserved bits become 0, GEN is kept; an uncorrectable GEN traps as for SWAIT (assumption 11:
DEDUCED). -/
def execSwinit (ka kb : KNum) (s : State) : Host.Outcome State Fault Refusal :=
  issue (.swinit ka kb) { ks := [ka, kb], closes := true } (fun c s =>
    let key := c.t.key (c.k ka).toNat
    stopOr (uniformStop c 16 16 (c.k ka)) (stopOr (badStop s c (c.k ka) 8)
      (let s := s.ownStore c.u (fun s => s.spadWrite key (leBytes 8 (swGen (s.spadNat key 8) * 2 ^ 40) ++ leBytes 8 ((c.k kb).extractLsb' 0 40).toNat))
       .ok { s with syncCodes := s.syncCodes.filter (fun x => x.1 ≠ key) }))) s
/-- SWADD (R287): an uncorrectable word traps as for SWAIT (assumption 11: DEDUCED). -/
def execSwadd (sc : Scope) (ka kb : KNum) (s : State) : Host.Outcome State Fault Refusal :=
  issue (.swadd sc ka kb) { ks := [ka, kb], closes := true } (fun c s =>
    stopOr (uniformStop c 16 16 (c.k ka)) (stopOr (badStop s c (c.k ka) 16)
      (.ok (s.ownStore c.u (fun s => s.syncAdd (c.t.key (c.k ka).toNat) ((c.k kb).extractLsb' 0 40).toNat 0))))) s

/-! ### Completions of Skipper commands observed (R189, R190) -/

/-- The commands of a team that a condition names have been observed to be complete. -/
def State.observe (s : State) (f : Cmd → Bool) : State :=
  { s with cmds := s.cmds.map (fun c => if c.skipper && c.stage = .ended && f c then { c with skip := { c.skip with observed := true } } else c) }
/-- The code of a scope (R255). -/
def Scope.code : Scope → Nat
  | .gang => 0 | .team => 1 | .cluster => 2 | .device => 3 | .pod => 4
/-- An acquire of a party on a sync word of its team observes the release with which a Skipper command ended (R190, R256, R257). -/
def observes (u : Issuer) (sc : Scope) (a : Nat) (c : Cmd) : Bool :=
  let flags := field c.skip.block 3 1
  c.team = u.team && field c.skip.block 56 8 = a && flags / 2 % 2 = 1 &&
    (c.gang = u.gang || (decide (1 ≤ flags / 4 % 8) && decide (1 ≤ Scope.code sc)))

/-- The condition of SWAIT (R288). -/
def genReached (gen g : Nat) : Bool := 1 ≤ (gen + 65536 - g) % 65536 && (gen + 65536 - g) % 65536 < 32768

/-- The trap of a sync word with FAULT (R289, R369, R370): its address, source 2, and the code with which an engine set FAULT; where
a program's store set it there is no such code (assumption 11: DESIGN CHOICE). -/
def syncTrap (s : State) (t : Team) (a : Word) : TrapInfo :=
  let set := (s.syncCodes.find? (fun x => x.1 = t.key a.toNat)).map (·.2)
  { cause := if set = some 5 then .stampedAccess else .engineFault,
    detail := BitVec.ofNat 64 (set.getD (Config.freeByte (s.part t.part).trapSeq).toNat % 256 + 2 * 256 + (a.toNat % 2 ^ 32) * 2 ^ 16) }

/-- SWAIT (R288, R289). -/
def execSwait (sc : Scope) (ka kb : KNum) (s : State) : Host.Outcome State Fault Refusal :=
  issue (.swait sc ka kb) { ks := [ka, kb], sidecar := true } (fun c s =>
    -- a word that waits keeps the operands with which it began
    let ops := match s.unitWait c.u with
      | some (.swait a g) => (a, g)
      | _ => (c.k ka, (c.k kb).extractLsb' 0 16)
    let lo := s.spadNat (c.t.key ops.1.toNat) 8
    stopOr (uniformStop c 16 16 ops.1) (stopOr (badStop s c ops.1 16)
    (stopOr (need (genReached (swGen lo) ops.2.toNat) (.wait (.swait ops.1 ops.2) none))
    (stopOr (need (!swFault lo) (.trap (syncTrap s c.t ops.1))) (.ok (s.observe (observes c.u sc ops.1.toNat))))))) s

/-! ### Counter waits (R290, R291) -/

/-- The older of two flagged operations, the lower lane within one. -/
def olderFlag (x y : OpFlag) : OpFlag := if y.seq < x.seq || (y.seq = x.seq && y.lane < x.lane) then y else x

/-- The trap of a flagged operation (R369, R370). -/
def flagTrap (cn : CounterName) (f : OpFlag) : TrapInfo :=
  match f.rlate with
  | some st => { cause := .engineFault, detail := (1#64 <<< 63) ||| (st &&& 0x3FFFFFFFFFFFFFFF#64) }
  | none =>
    { cause := if f.code = 5#8 then .stampedAccess else .engineFault,
      detail := BitVec.ofNat 64 (f.code.toNat + (if cn = .enc then 256 else 0) + (f.addr.toNat % 2 ^ 32) * 2 ^ 16) }

/-- A command of the party whose ENC decrement has been applied: its writes precede the wait (R26, R254). -/
def decremented (s : State) (u : Issuer) (c : Cmd) : Bool :=
  c.team = u.team && c.gang = u.gang && !(s.partyCounter u.team u.gang .enc).pend.any (fun x => x.seq = c.seq)

/-- WAITC (R290, R291). -/
def execWaitc (cn : CounterName) (n : BitVec 8) (s : State) : Host.Outcome State Fault Refusal :=
  issue (.waitc cn n) { sidecar := true } (fun c s =>
    let x := s.partyCounter c.u.team c.u.gang cn
    let covered := fun (f : OpFlag) => decide (f.seq + n.toNat < x.issued)
    stopOr (need (x.value ≤ n.toNat) (.wait (.waitc cn n) none))
    (match x.flags.filter covered with
      | [] => .ok (if cn = .enc then s.observe (decremented s c.u) else s)
      | f :: fs => .error (.trapIn (flagTrap cn (fs.foldl olderFlag f))
          (s.modPartyCounter c.u.team c.u.gang cn (fun y => { y with flags := y.flags.filter (fun z => !covered z) }))))) s

/-! ### Barriers (R292, R293) -/

/-- The region is closed (R379). -/
def State.closeRegion (s : State) (u : Issuer) : State :=
  s.modGang u.team u.gang (fun g => { g with instar := { g.instar with rewindable := false } })

/-- The unit's slices arrive, by BARA where `keep` says so, and the phase may complete. The word has issued, which closes an Instar
region, though the unit may still wait (R379). -/
def State.arriveAt (s : State) (u : Issuer) (n : BitVec 4) (keep : Bool) : State :=
  (s.modTeam u.team (fun t =>
    (t.modGang u.gang (fun g => g.arrive n (t.phase n) u.slices (if keep then u.slices else 0#8))).completePhase n)).closeRegion u

/-- BAR (R293): a word that waits keeps its phase. -/
def execBar (n : BitVec 4) (s : State) : Host.Outcome State Fault Refusal :=
  issue (.bar n) { closes := true } (fun c s =>
    match s.unitWait c.u with
    | some (.bar _ p) => stopOr (need (p < c.t.phase n) (.wait (.bar n p) none)) (.ok s)
    | _ =>
      let s' := s.arriveAt c.u n false
      stopOr (need (c.t.phase n < (s'.team c.u.team).phase n) (.wait (.bar n (c.t.phase n)) (some s'))) (.ok s')) s

/-- The gang has arrived at a phase, or the phase has completed. -/
def arrivedAt (t : Team) (gang : Nat) (n : BitVec 4) (p : Nat) : Bool := ((t.gang gang).bar n).arrived = some p || p < t.phase n

/-- BARA (R292, R293). -/
def execBara (n : BitVec 4) (s : State) : Host.Outcome State Fault Refusal :=
  issue (.bara n) { closes := true } (fun c s =>
    match s.unitWait c.u with
    | some (.gather _ p) => stopOr (need (arrivedAt c.t c.u.gang n p) (.wait (.gather n p) none)) (.ok s)
    | _ =>
      let p := c.t.phase n
      if (c.g.bar n).arrived = some p then .error (.wait (.bara n p) none)
      else
        let s' := s.arriveAt c.u n true
        stopOr (need (arrivedAt (s'.team c.u.team) c.u.gang n p) (.wait (.gather n p) (some s'))) (.ok s')) s

/-- BARW (R293). -/
def execBarw (n : BitVec 4) (s : State) : Host.Outcome State Fault Refusal :=
  issue (.barw n) { closes := true } (fun c s =>
    let q := match s.unitWait c.u with
      | some (.barw _ p) => some p
      | _ => (c.g.bar n).arrived
    match q with
    | none => .ok s
    | some p => stopOr (need (p < c.t.phase n) (.wait (.barw n p) none)) (.ok s)) s

/-! ### TRIG, DETEP, LAUNCH, QPUSH -/

/-- TRIG (R294): every active lane of the unit, whatever the guard. -/
def execTrig (s : State) : Host.Outcome State Fault Refusal :=
  issue .trig { closes := true } (fun c s =>
    .ok ((s.modGang c.u.team c.u.gang (fun g => g.modLanes c.active (fun _ l => { l with triggered := true }))).trigEvent c.t.grid)) s

/-- A tag from which a gang is withdrawn. -/
def LineTag.withdraw (x : LineTag) (g : Nat) : LineTag :=
  { x with
    writer := if x.writer = some g then none else x.writer
    atomic := if x.writer = some g then none else x.atomic
    readers := x.readers &&& ~~~ (1#16 <<< g) }

/-- DETEP (R219). -/
def execDetep (s : State) : Host.Outcome State Fault Refusal :=
  issue .detep {} (fun c s =>
    .ok (if c.part = 0#32 then s else s.modTeam c.u.team (fun t =>
      { t with lines := t.lines.map (fun x => x.withdraw c.u.gang) }))) s

/-- Leader() (R201). -/
def isLeader (c : Ctx) : Bool :=
  (upTo c.u.gang).all (fun g => (c.t.gang g).exited) && c.active.getLsbD (lowLane (~~~ c.g.exitedLanes))

/-- LAUNCH (R201): a word that waits keeps the address that it read; a bad word of the descriptor traps as for KLD (assumption 11:
DEDUCED). -/
def execLaunch (ka : KNum) (s : State) : Host.Outcome State Fault Refusal :=
  issue (.launch ka) { ks := [ka] } (fun c s =>
    let a := match s.unitWait c.u with
      | some (.launch a) => a
      | _ => c.k ka
    stopOr (uniformStop c 64 64 a)
    (if !isLeader c then .ok s
     else
      let gr := s.grid c.t.grid
      let rd := s.spadSeen (c.t.key a.toNat) 64
      let d := descOf rd.1
      stopOr (need (gr.depth < 10) (.trap { cause := .launchDepth }))
      (stopOr (badStop s c a 64)
      (stopOr (need (s.launched c.t.part < Config.launchLimit && !s.doneHeld c.t.part d.doneWord) (.wait (.launch a) none))
      (stopOr (uniformRace c 64 a .read)
      (let s' := (rd.2.recordRange c 64 a .read).closeRegion c.u
       .ok (if s.descLegal c.t.part rd.1 then
          s'.enqueue { part := c.t.part, desc := d, depth := gr.depth + 1, prio := gr.prio, parent := some c.u.team }
        else s'.refuseDesc c.t.part (some d.doneWord) none 196))))))) s

/-- QPUSH (R216): the sidecar alone; a word that waits keeps the entry it read; a bad word of memory traps as for KLD (assumption 11:
DEDUCED). -/
def execQpush (q : BitVec 2) (ka : KNum) (bcast : Bool) (s : State) : Host.Outcome State Fault Refusal :=
  issue (.qpush q ka bcast) { ks := [ka], sidecar := true, gang := false } (fun c s =>
    let put := fun (e : List Word) (s : State) =>
      if c.t.gangsExited then Except.ok s
      else if 16 ≤ (c.t.queue q).entries.length then .error (.wait (.qpush q e) (some s))
      else .ok (s.modTeam c.u.team (fun t =>
        { t with queues := rowMod {} t.queues q.toNat (fun x => { x with entries := x.entries ++ [e] }) }))
    match s.unitWait c.u with
    | some (.qpush _ e) => put e s
    | _ =>
      if bcast then put ((upTo 32).map (fun _ => c.k ka)) s
      else
        let a := c.k ka
        stopOr (uniformStop c 8 256 a) (stopOr (badStop s c a 256)
          (let r := s.spadSeen (c.t.key a.toNat) 256
           put ((upTo 32).map (fun l => BitVec.ofNat 64 (field r.1 (8 * l) 8))) r.2))) s

end Sys2Proof.Machine
end

