-- ==== Sys2Proof/Machine/Engine.lean ====
section
/-!
DEFINITION. Engine commands as code sees them: COPY (R295), SKIP (R192) and ENGQ (R193), and what their steps share: writes by an
engine to the issuing team's window, increments of sync words, and the end of a command (R26, R291).
-/
namespace Sys2Proof.Machine

/-! ### Commands -/

/-- A command that has never been issued. -/
def noCmd : Cmd :=
  { team := 0, gang := 0, seq := 0, skipper := false, addr := 0, startAt := 0, stage := .ended, chain := {}, skip := {} }
/-- A command by its place. -/
def State.cmd (s : State) (i : Nat) : Cmd := rowGet noCmd s.cmds i
/-- A command changed. -/
def State.modCmd (s : State) (i : Nat) (f : Cmd → Cmd) : State := { s with cmds := rowMod noCmd s.cmds i f }
/-- A command runs and may perform its next chunk. -/
def State.cmdRuns (s : State) (i : Nat) : Bool :=
  i < s.cmds.length && ((s.cmd i).stage = .running || (s.cmd i).stage = .stopping) && (s.cmd i).startAt ≤ s.cycle

/-- Bytes of the team's window written by an engine: the tags of their lines are cleared (R218). -/
def State.windowWrite (s : State) (u off : Nat) (bs : List Byte) : State :=
  (s.spadWrite ((s.team u).key off) bs).clearLines u off bs.length
/-- A number written to the window by an engine. -/
def State.windowSet (s : State) (u off n v : Nat) : State := s.windowWrite u off (leBytes n v)
/-- A number of the window. -/
def State.windowNat (s : State) (u off n : Nat) : Nat := s.spadNat ((s.team u).key off) n

/-- The tags of a sync word's line in whichever window holds it are cleared. -/
def State.clearSync (s : State) (p key : Nat) : State :=
  match s.windowOwner p (key / 4194304) (key % 4194304) 16 with
  | some u => s.clearLines u (key % 4194304 - (s.team u).base) 16
  | none => s
/-- An engine's increment of a sync word (R285). -/
def State.engineSync (s : State) (p key inc flags : Nat) : State := (s.syncAdd key inc flags).clearSync p key
/-- FLAGS bits set by an engine, with no increment; an uncorrectable word is left as it stands (R392). -/
def State.engineFlags (s : State) (p key flags : Nat) : State :=
  if s.spadBad key 16 then s else (s.spadSet key 8 (swSetFlags (s.spadNat key 8) flags)).clearSync p key

/-- A command ends: its ENC decrement, and on a fault the flag of R291. -/
def State.endCmd (s : State) (i : Nat) (fault : Option OpFlag) : State :=
  let c := s.cmd i
  let s := s.modCmd i (fun c => { c with stage := .ended })
  s.modPartyCounter c.team c.gang .enc (fun x =>
    let x := match fault with
      | some f => x.flag f
      | none => x
    x.finish c.seq)

/-- An engine command starts: it is counted at issue, and its first chunk comes no sooner than 16 cycles later (R17, R408); in a context
that is being saved it stops at its first chunk boundary (R194, R303). -/
def State.startCmd (s : State) (u : Issuer) (skipper : Bool) (addr : Nat) (chain : Chain) (skip : SkipCmd) : State :=
  let c : Cmd := { noCmd with
    team := u.team
    gang := u.gang
    seq := (s.partyCounter u.team u.gang .enc).issued
    skipper := skipper
    addr := addr
    startAt := s.cycle + 16
    stage := (match (s.team u.team).status with
      | .saving _ => .stopping
      | _ => .running)
    chain := chain
    skip := skip }
  ({ s with cmds := s.cmds ++ [c] } : State).modPartyCounter u.team u.gang .enc Counter.count

/-- The wait of an instruction that would raise a counter past 255 (R17). -/
def counterStop (c : Counter) (n : CounterName) : Option Stop := need (c.value < 255) (.wait (.counter n) none)

/-! ### COPY (R295) -/

/-- The wait of COPY and SKIP for ENC, with what the word has read. -/
def commandStop (s : State) (c : Ctx) (a : Word) (block : List Byte) : Option Stop :=
  need ((s.partyCounter c.u.team c.u.gang .enc).value < 255) (.wait (.command a block) (some s))

/-- The start of a COPY at an address: the head is written, and the chain runs. -/
def startCopy (c : Ctx) (a : Word) (b : List Byte) (s : State) : Except Stop State :=
  stopOr (commandStop s c a b)
    (let s := s.ownStore c.u (fun s => s.spadWrite (c.t.key a.toNat)
       (leBytes 4 (a.toNat + 16) ++ leBytes 4 0 ++ leBytes 4 0 ++ leBytes 1 1 ++ leBytes 1 0))
     .ok (s.startCmd c.u false a.toNat { entry := a.toNat + 16, run := a.toNat + 16 } {}))

/-- COPY (R295): a word that waits keeps the address that it read. -/
def execCopy (ka : KNum) (s : State) : Host.Outcome State Fault Refusal :=
  issue (.copy ka) { ks := [ka], sidecar := true, closes := true } (fun c s =>
    match s.unitWait c.u with
    | some (.command a b) => startCopy c a b s
    | _ =>
      let a := c.k ka
      stopOr (uniformStop c 16 16 a) (stopOr (uniformRace c 16 a .read) (stopOr (badStop s c a 16)
      (startCopy c a [] (s.recordRange c 16 a .read))))) s

/-! ### SKIP (R192) -/

/-- The check of one region of a command block, by its raw fields. -/
def regionStop (c : Ctx) (a : Nat) (size al : Nat) : Option Stop :=
  if size = 0 then none
  else firstStop [
    need (a % al = 0) (.trap { cause := .misaligned, detail := BitVec.ofNat 64 a }),
    need (a + size ≤ c.t.scratch) (.trap { cause := .scratchRange, detail := BitVec.ofNat 64 a })]

/-- The start of a SKIP at an address with the block that it has read. -/
def startSkip (c : Ctx) (a : Word) (b : List Byte) (s : State) : Except Stop State :=
  let key := c.t.key a.toNat
  stopOr (commandStop s c a b)
    (let s := s.ownStore c.u (fun s => (s.spadWrite (key + 4) (leBytes 2 1)).spadWrite (key + 64) (leBytes 32 0))
     .ok (s.startCmd c.u true a.toNat {} { block := b.take 64 }))

/-- SKIP (R192): a word that waits keeps the address and the block that it read. -/
def execSkip (ka : KNum) (s : State) : Host.Outcome State Fault Refusal :=
  issue (.skip ka) { ks := [ka], sidecar := true, closes := true } (fun c s =>
    match s.unitWait c.u with
    | some (.command a b) => startSkip c a b s
    | _ =>
      let a := c.k ka
      let rd := s.spadSeen (c.t.key a.toNat) 96
      let b := rd.1
      stopOr (uniformStop c 32 96 a) (stopOr (uniformRace c 96 a .read) (stopOr (badStop s c a 96)
      (stopOr (regionStop c (field b 56 8) 16 16) (stopOr (regionStop c (field b 40 8) (8 * field b 32 4) 8)
      (stopOr (regionStop c (field b 48 8) (4 * field b 36 4) 4)
      (startSkip c a b (rd.2.recordRange c 96 a .read)))))))) s

/-! ### ENGQ (R193) -/

/-- The latest live command of a team from an address: it has not released ENC. -/
def State.liveCmd (s : State) (u a : Nat) : Option Cmd :=
  (s.cmds.filter (fun c => c.team = u && c.addr = a && (s.partyCounter c.team c.gang .enc).pend.any (fun x => x.seq = c.seq))).getLast?

/-- The word of R193. -/
def State.engineWord (s : State) (u : Nat) (a : Word) : Word :=
  match s.liveCmd u a.toNat with
  | none => 0#64
  | some c =>
    if c.skipper then BitVec.ofNat 64 (2 ^ 63 + 2 ^ 62 + c.skip.cursor % 2 ^ 48)
    else BitVec.ofNat 64 (2 ^ 63 + (c.chain.entry % 2 ^ 22) * 2 ^ 26 + c.chain.doneb % 2 ^ 26)

/-- ENGQ (R193). -/
def execEngq (kd ka : KNum) (s : State) : Host.Outcome State Fault Refusal :=
  issue (.engq kd ka) { ks := [ka] } (fun c s => .ok (s.writeK c.u kd (s.engineWord c.u.team (c.k ka)))) s

end Sys2Proof.Machine
end

