-- ==== Sys2Proof/Machine/Chain.lean ====
section
/-!
DEFINITION. Copy chains (R295 to R303): the entries an engine reaches, the chunks of COPYE and FILL with their places, faults and
tier misses, sync-word increments, LOOPE, CONDE, NEXT, STOP, and the stop at a chunk boundary.
-/
namespace Sys2Proof.Machine

/-! ### Entries (R297, R298) -/

/-- An entry as the engine reads it. -/
structure Entry where
  kind : Nat
  flags : Nat
  cond : Nat
  fmask : Nat
  len : Nat
  src : Word
  dst : Word
  sync : Word
  deriving DecidableEq, Repr

/-- The fields of an entry. -/
def entryOf (b : List Byte) : Entry :=
  { kind := field b 0 1, flags := field b 1 1, cond := field b 2 1, fmask := field b 3 1, len := field b 4 4,
    src := BitVec.ofNat 64 (field b 8 8), dst := BitVec.ofNat 64 (field b 16 8), sync := BitVec.ofNat 64 (field b 24 8) }

/-- A bit of FLAGS. -/
def Entry.flag (e : Entry) (i : Nat) : Bool := e.flags / 2 ^ i % 2 = 1
/-- SWIN. -/
def Entry.swin (e : Entry) : Bool := e.flag 5
/-- DWIN. -/
def Entry.dwin (e : Entry) : Bool := e.flag 6
/-- The entry names a sync word. -/
def Entry.hasSync (e : Entry) : Bool := e.sync ≠ ~~~ 0#64

/-- A sync word's address in the window is legal. -/
def syncOk (t : Team) (a : Nat) : Bool := a % 16 = 0 && a + 16 ≤ t.scratch

/-- The rules of a kind (R298), beside those of every entry. -/
def Entry.kindOk (e : Entry) (t : Team) : Bool :=
  match e.kind with
  | 1 => 1 ≤ e.len && e.len ≤ 2 ^ 26
  | 2 => !e.swin && 1 ≤ e.len && e.len ≤ 2 ^ 26
  | 3 => !e.swin && e.src = 0#64 && (!e.dwin || syncOk t e.dst.toNat)
  | 4 => !e.swin && !e.dwin && 1 ≤ e.len && e.len ≤ 16
  | 5 => !e.dwin && e.len = 0 && e.dst.toNat < 2 ^ 16 && e.cond ≤ 2 && (e.fmask = 0 || e.cond = 2)
  | 6 => !e.swin && !e.dwin && e.len = 0 && e.src.toNat % 16 = 0 && e.dst = 0#64
  | 7 => !e.swin && !e.dwin && e.len = 0 && e.src = 0#64 && e.dst = 0#64
  | _ => false

/-- An entry that breaks no rule of R297 and R298 that it shows by itself. -/
def Entry.ok (e : Entry) (t : Team) : Bool :=
  e.flags / 4 % 8 ≤ 4 && !e.flag 7 && (e.kind = 5 || (e.cond = 0 && e.fmask = 0))
    && (if 3 ≤ e.kind then !e.hasSync else !e.hasSync || syncOk t e.sync.toNat) && e.kindOk t

/-- An entry's address is legal (R297). -/
def entryAt (t : Team) (a : Nat) : Bool := a % 16 = 0 && a + 32 ≤ t.scratch

/-! ### Faults (R301, R302) -/

/-- The sync word of the command: that of the entry in progress, or the one the chain last counted into. -/
def Chain.word (c : Chain) (entry : Option Nat) : Option Nat := entry.or c.lastSync

/-- A fault ends the chain. -/
def State.chainFault (s : State) (i code : Nat) (sync : Option Nat) : State :=
  let c := s.cmd i
  let p := (s.team c.team).part
  let s := (s.windowSet c.team (c.addr + 12) 1 3).windowSet c.team (c.addr + 13) 1 code
  let s := match sync with
    | some key => (s.syncFault key code).clearSync p key
    | none => s
  s.endCmd i (some { seq := c.seq, lane := 0, code := BitVec.ofNat 8 code, addr := BitVec.ofNat 64 c.addr, rlate := none,
                     unsynced := sync.isNone })

/-- The head after an entry: ENTRY for the next, DONEB 0 (R299). -/
def State.nextEntry (s : State) (i e : Nat) : State :=
  let c := s.cmd i
  let s := (s.windowSet c.team c.addr 4 e).windowSet c.team (c.addr + 4) 4 0
  s.modCmd i (fun c => { c with chain := { c.chain with entry := e, doneb := 0, cur := none, opened := false } })

/-! ### Places -/

/-- Where bytes of an entry lie. -/
inductive Place where
  | spad (core off : Nat)
  | obuf (core off : Nat)
  | device (va : Nat)
  | pod (dev : BitVec 21) (win : BitVec 7) (off : Nat)
  deriving DecidableEq, Repr

/-- A core-local range belongs to the partition: a scratchpad window, or an operand-buffer record (R24). -/
def State.localOk (s : State) (p core : Nat) (obuf : Bool) (off n : Nat) : Bool :=
  if obuf then s.recordOwner p core off n else (s.windowOwner p core off n).isSome

/-- The place of `n` bytes at an address of an entry moved by a stride and the bytes done, or none for FCODE 2 (R297, R299). -/
def State.resolve (s : State) (t : Team) (a : Word) (win : Bool) (delta : Int) (n : Nat) : Option Place :=
  let fits := fun (off : Nat) (bound : Nat) => decide (0 ≤ (off : Int) + delta) && decide ((off : Int) + delta + n ≤ bound)
  let moved := fun (off : Nat) => ((off : Int) + delta).toNat
  if win then
    (if fits a.toNat t.scratch then some (.spad t.home (t.base + moved a.toNat)) else none)
  else match s.engAddr a with
    | .reserved => none
    | .device va => if fits va (2 ^ 48) then some (.device (moved va)) else none
    | .pod d w off => if fits off (2 ^ 34) then some (.pod d w (moved off)) else none
    | .local_ core obuf off =>
      if fits off (if obuf then Config.operandBytes else Config.scratchBytes) && s.localOk t.part core obuf (moved off) n then
        some (if obuf then .obuf core (moved off) else .spad core (moved off))
      else none

/-- The bytes that stood at `place` as plane passes see them when `bs` is written at `key`: of each byte that the write changes the
old or the new value (R150). -/
def seenBytes (free place : Nat) (old : List Byte) (key : Nat) (bs : List Byte) : List Byte :=
  ((upTo old.length).zip old).map (fun x =>
    if key ≤ place + x.1 && place + x.1 < key + bs.length && Config.freeBit (free + x.1) then (bs.drop (place + x.1 - key)).headD x.2
    else x.2)
/-- An MMA in its plane passes while bytes of the operand buffer are written. -/
def MmaOp.see (m : MmaOp) (cycle free key : Nat) (bs : List Byte) : MmaOp :=
  if m.passEnd ≤ cycle || m.frozen then m
  else { m with
    weights := seenBytes free m.woff m.weights key bs
    scales := (m.soff.zip m.scales).map (fun x => seenBytes (free + 8320 + x.1) x.1 x.2 key bs) }
/-- Bytes written to the operand buffer. -/
def State.obufWrite (s : State) (key : Nat) (bs : List Byte) : State :=
  { s with
    obuf := memWrite s.obuf key bs
    bad := { s.bad with obuf := unmark s.bad.obuf key bs.length }
    teams := ((upTo s.teams.length).zip s.teams).map (fun t => { t.2 with
      mmas := ((upTo t.2.mmas.length).zip t.2.mmas).map (fun m =>
        m.2.see s.cycle (s.fresh + (t.1 * 64 + m.1) * 2 ^ 30) key bs) })
    fresh := s.fresh + s.teams.length * 2 ^ 36 }

/-- What moving a chunk's bytes gives: the state, the state before the chunk, by whose page tables every access of it is judged, whether a
page was FAR, the first fault, whether the access is held, the bytes, and the answers of other modules not yet used. -/
structure Io where
  s : State
  before : State
  far : Bool := false
  code : Option Nat := none
  held : Bool := false
  bytes : List Byte := []
  answers : List PodAns := []

/-- A fault noted, the first one staying. -/
def Io.fail (x : Io) (code : Nat) : Io := { x with code := x.code.or (some code) }

/-- Requests of at most 256 bytes, each within one 256-byte-aligned unit (R354): offset and length. -/
def podUnits : Nat → Nat → Nat → List (Nat × Nat)
  | 0, _, _ => []
  | fuel + 1, off, n =>
    if n = 0 then []
    else
      let k := min n (256 - off % 256)
      (off, k) :: podUnits fuel (off + k) (n - k)

/-- An answer of another module: the next one, or the access is held. -/
def Io.answer (x : Io) (n : Nat) : Io :=
  match x.answers with
  | [] => { x with held := true }
  | .data bs far :: r => { x with bytes := x.bytes ++ (bs ++ leBytes n 0).take n, far := x.far || far, answers := r }
  | .done far :: r => { x with far := x.far || far, answers := r }
  | .fault c :: r => ({ x with answers := r, bytes := x.bytes ++ leBytes n 0 } : Io).fail c.toNat

/-- Bytes written by a COPYE or FILL, where the access writes (R359). -/
def State.meterWrite (s : State) (p n : Nat) (data : Option (List Byte)) : State := if data.isSome then s.meter p 2 n else s

/-- One request of an engine to a pod address: to this module's own window, or to another module. `data` none reads. A page-in that the
chunk itself has started holds none of its requests (R351). -/
def Io.podUnit (x : Io) (p : Nat) (dev : BitVec 21) (win : BitVec 7) (off n : Nat) (data : Option (List Byte)) : Io :=
  match x.s.grantKey p dev win with
  | none => ({ x with bytes := x.bytes ++ leBytes n 0 } : Io).fail 7
  | some key =>
    let kind : ReqKind := if data.isSome then .engWrite else .engRead
    let s := x.s.meter p 4 n
    if dev = s.devid then
      match x.before.judgeWindow win key kind off n with
      | (.held, _) => { x with held := true }
      | (.fault c, _) => ({ x with s := s.reportWindow win key kind off n, bytes := x.bytes ++ leBytes n 0 } : Io).fail c
      | (.spans xs, o) =>
        let s := s.farMisses o 2 65535 xs
        let x := { x with far := x.far || anyFar xs }
        match data with
        | none =>
          if s.spanBad xs then ({ x with s := s, bytes := x.bytes ++ leBytes n 0 } : Io).fail 6
          else { x with s := s, bytes := x.bytes ++ s.spanBytes xs }
        | some bs => { x with s := (s.spanWrite xs bs).meter p 2 n }
    else
      let s := (s.stage p (data.getD [])).send (.request dev win key kind off n 0 0 0 0 (data.getD []))
      let s := match x.answers with
        | .done _ :: _ => s.meterWrite p n data
        | .data bs _ :: _ => s.stage p bs
        | _ => s
      ({ x with s := s } : Io).answer n

/-- Reading `n` bytes of a place. -/
def Io.read (x : Io) (t : Team) (pl : Place) (n : Nat) : Io :=
  match pl with
  | .spad core off =>
    if x.s.spadBad (spadKey core off) n then x.fail 6
    else { x with bytes := (x.s.spadSeen (spadKey core off) n).1, s := (x.s.spadSeen (spadKey core off) n).2 }
  | .obuf core off =>
    if marked x.s.bad.obuf (obufKey core off) n then x.fail 6 else { x with bytes := memRead x.s.obuf (obufKey core off) n }
  | .device va =>
    match x.before.judge t.part va n true false false with
    | .held => { x with held := true }
    | .fault c => ({ x with s := x.s.reportMalformed t.part va n } : Io).fail c
    | .spans xs =>
      let s := x.s.farMisses t.part 0 t.core xs
      let x := { x with s := s, far := x.far || anyFar xs }
      if s.spanBad xs then x.fail 6 else { x with bytes := s.spanBytes xs }
  | .pod dev win off =>
    (podUnits (n / 256 + 2) off n).foldl (fun x u => x.podUnit t.part dev win u.1 u.2 none) x

/-- Writing bytes to a place. -/
def Io.write (x : Io) (t : Team) (pl : Place) (bs : List Byte) : Io :=
  match pl with
  | .spad core off => { x with s := (x.s.engineSpadWrite t.part core off bs).meter t.part 2 bs.length }
  | .obuf core off => { x with s := (x.s.obufWrite (obufKey core off) bs).meter t.part 2 bs.length }
  | .device va =>
    match x.before.judge t.part va bs.length false true false with
    | .held => { x with held := true }
    | .fault c => ({ x with s := x.s.reportMalformed t.part va bs.length } : Io).fail c
    | .spans xs =>
      let s := x.s.farMisses t.part 1 t.core xs
      { x with s := (s.spanWrite xs bs).meter t.part 2 bs.length, far := x.far || anyFar xs }
  | .pod dev win off =>
    (podUnits (bs.length / 256 + 2) off bs.length).foldl
      (fun x u => x.podUnit t.part dev win u.1 u.2 (some ((bs.drop (u.1 - off)).take u.2))) x

/-- Free bytes (assumption 1: DESIGN CHOICE). -/
def freeBytes (from_ n : Nat) : List Byte := (upTo n).map (fun i => Config.freeByte (from_ + i))

/-- Bytes written to a range of virtual addresses, to those of its pages that can be written. -/
def State.pagesWrite (s : State) (p : Nat) : Nat → Nat → List Byte → State
  | 0, _, _ => s
  | fuel + 1, va, bs =>
    if bs.isEmpty then s
    else
      let k := min bs.length (65536 - va % 65536)
      let z := match s.judgePage p va k false true false with
        | .spans xs => s.spanWrite xs (bs.take k)
        | _ => s
      z.pagesWrite p fuel (va + k) (bs.drop k)

/-- The destination bytes of a faulting chunk are undefined, within what the destination lets be written (R301). -/
def State.scramble (s : State) (t : Team) (pl : Place) (n : Nat) : State :=
  let bs := freeBytes s.fresh n
  let s' := { s with fresh := s.fresh + n }
  match pl with
  | .spad core off => s'.engineSpadWrite t.part core off bs
  | .obuf core off => s'.obufWrite (obufKey core off) bs
  | .device va => s'.pagesWrite t.part (n / 65536 + 2) va bs
  | .pod dev win off =>
    match s.grantKey t.part dev win with
    | none => s
    | some key =>
      if dev ≠ s.devid then s
      else (podUnits (n / 256 + 2) off n).foldl (fun z u =>
        match s.judgeWindow win key .engWrite u.1 u.2 with
        | (.spans xs, _) => z.spanWrite xs ((bs.drop (u.1 - off)).take u.2)
        | _ => z) s'

/-- The memory ranges of a place: a space, a first address and a length. -/
def State.ranges (s : State) (t : Team) (pl : Place) (n : Nat) : List (Nat × Nat × Nat) :=
  let ofSpans := fun (xs : List Span) => xs.map (fun x => (if x.far then 3 else 2, x.phys, x.len))
  match pl with
  | .spad core off => [(0, spadKey core off, n)]
  | .obuf core off => [(1, obufKey core off, n)]
  | .device va =>
    (match s.judge t.part va n false false false with
      | .spans xs => ofSpans xs
      | _ => [])
  | .pod dev win off =>
    if dev ≠ s.devid then []
    else match s.judge (s.window win.toNat).part ((s.window win.toNat).base + off) n false false false with
      | .spans xs => ofSpans xs
      | _ => []

/-- The bytes of a chunk with those replaced that lie in the entry's source range: they are undefined (R299). -/
def overlapped (src dst : List (Nat × Nat × Nat)) (bs : List Byte) (fresh : Nat) : List Byte :=
  let places := dst.foldr (fun r acc => (upTo r.2.2).map (fun k => some (r.1, r.2.1 + k)) ++ acc) (List.replicate bs.length none)
  (bs.zip ((upTo bs.length).zip places)).map (fun x =>
    match x.2.2 with
    | none => x.1
    | some pl =>
      if src.any (fun r => r.1 = pl.1 && r.2.1 ≤ pl.2 && pl.2 < r.2.1 + r.2.2) then Config.freeByte (fresh + x.2.1) else x.1)

/-! ### Reaching an entry -/

/-- The command's chain has an entry to begin: its bytes. A bad address, or an uncorrectable word, is no entry. -/
def State.entryBytes (s : State) (i : Nat) : Option (List Byte) :=
  let c := s.cmd i
  let t := s.team c.team
  if entryAt t c.chain.entry && !s.spadBad (t.key c.chain.entry) 32 then some (s.spadBytes (t.key c.chain.entry) 32) else none

/-- The entry to begin was written after COPY issued, or its bytes are still undefined: from here on what the chain writes is undefined
(R295). -/
def State.markWild (s : State) (i : Nat) : State :=
  let c := s.cmd i
  let key := (s.team c.team).key c.chain.entry
  if (placesOf key 32).any (fun x => c.wrote.contains x) || s.veils key 32 then
    s.modCmd i (fun x => { x with chain := { x.chain with wild := true } })
  else s

/-- An entry of a kind that the engine has reached and not begun: its effect, or the fault of a malformed one. -/
def State.reach (s : State) (i kind : Nat) (f : Entry → State → State) : State :=
  let c := s.cmd i
  if !s.cmdRuns i || c.skipper || c.chain.opened then s
  else match s.entryBytes i with
    | none => s
    | some b =>
      let e := entryOf b
      if e.kind ≠ kind then s
      else if !e.ok (s.team c.team) then s.chainFault i 1 (c.chain.word none)
      else f e (s.markWild i)

/-- An engine's count of an entry's strides in the iteration in progress. -/
def Chain.strideOf (c : Chain) (x : Int) : Int := if c.loopAt.isSome then x * c.iter else 0

/-- The sync word of a COPYE or FILL moved by its stride: none names none; FCODE 2 where the sum leaves the window, or is no
multiple of 16 (assumption 12: DEDUCED). -/
def entrySync (t : Team) (c : Chain) (e : Entry) : Except Nat (Option Nat) :=
  if !e.hasSync then .ok none
  else
    let a := (e.sync.toNat : Int) + c.strideOf c.ystride
    if 0 ≤ a && syncOk t a.toNat then .ok (some (t.key a.toNat)) else .error 2

/-- The destination bytes of the chunk that comes next are undefined. -/
def State.spoilChunk (s : State) (i : Nat) (e : Entry) : State :=
  let c := s.cmd i
  let t := s.team c.team
  let n := min Config.chunkBytes (e.len - c.chain.doneb)
  match s.resolve t e.dst e.dwin (c.chain.strideOf c.chain.dstride + c.chain.doneb) n with
  | none => s
  | some dst => s.scramble t dst n

/-- COPYE and FILL begin: the entry is read, and its chunks follow. -/
def openEntry (i : Nat) (e : Entry) (s : State) : State :=
  let c := s.cmd i
  let t := s.team c.team
  match entrySync t c.chain e with
  | .error code => (s.spoilChunk i e).chainFault i code (c.chain.word none)
  | .ok _ => s.modCmd i (fun x => { x with chain := { x.chain with opened := true, cur := s.entryBytes i } })

/-- COPYE (R298): the engine reaches the entry. -/
def execCopye (cmd : Nat) (s : State) : Host.Outcome State Fault Refusal := .next (s.reach cmd 1 (openEntry cmd))
/-- FILL (R298). -/
def execFill (cmd : Nat) (s : State) : Host.Outcome State Fault Refusal := .next (s.reach cmd 2 (openEntry cmd))

/-! ### Chunks (R299, R301) -/

/-- A FAR page met by a chunk: TIERMISS in the entry's sync word, or in the one the chain last counted into. -/
def State.tierMiss (s : State) (p : Nat) (far : Bool) (word : Option Nat) : State :=
  match word with
  | some key => if far then s.engineFlags p key 2 else s
  | none => s

/-- The sync word that an entry of a chain counts into, where what the chain writes is undefined: COUNT, GEN and FLAGS are free (R295). -/
def State.wildSync (s : State) (wild : Bool) (key : Nat) : State :=
  if !wild || s.spadBad key 16 then s
  else
    let f := Config.freeWord s.fresh
    ({ s with fresh := s.fresh + 1 } : State).spadSet key 8 ((f.extractLsb' 0 59).toNat + s.spadNat key 8 / 2 ^ 59 * 2 ^ 59)

/-- The bytes a chunk writes: of the source, or of the pattern. -/
def chunkSource (s : State) (t : Team) (c : Chain) (e : Entry) (n : Nat) (pod : List PodAns) : Option Io :=
  if e.kind = 2 then
    some { s := s, before := s, answers := pod, bytes := (upTo n).map (fun j => BitVec.ofNat 8 (e.src.toNat / 2 ^ (8 * ((c.doneb + j) % 8)))) }
  else
    (s.resolve t e.src e.swin (c.strideOf c.sstride + c.doneb) n).map (fun pl =>
      ({ s := s, before := s, answers := pod } : Io).read t pl n)

/-- The chunk's bytes where the entry's source and destination overlap, or the entry was written too late. -/
def chunkBytes (s : State) (t : Team) (c : Chain) (e : Entry) (dst : Place) (bs : List Byte) : List Byte :=
  if c.wild then freeBytes s.fresh bs.length
  else if e.kind = 2 then bs
  else
    match s.resolve t e.src e.swin (c.strideOf c.sstride) e.len with
    | none => bs
    | some pl => overlapped (s.ranges t pl e.len) (s.ranges t dst bs.length) bs s.fresh

/-- A chunk performed: its writes, then its count, then the head (R299). -/
def State.chunkDone (s : State) (i n : Nat) (e : Entry) (word : Option Nat) : State :=
  let c := s.cmd i
  let p := (s.team c.team).part
  let s := match word with
    | some key => ((s.engineSync p key n 0).wildSync c.chain.wild key).modCmd i (fun x => { x with chain := { x.chain with lastSync := some key } })
    | none => s
  let d := c.chain.doneb + n
  if d < e.len then
    (s.windowSet c.team (c.addr + 4) 4 d).modCmd i (fun x => { x with chain := { x.chain with doneb := d } })
  else s.nextEntry i (c.chain.entry + 32)

/-- A chunk of the entry in progress. -/
def State.chunk (s : State) (i : Nat) (pod : List PodAns) (e : Entry) : State :=
  let c := s.cmd i
  let t := s.team c.team
  let ch := c.chain
  match entrySync t ch e with
  | .error code => (s.spoilChunk i e).chainFault i code (ch.word none)
  | .ok own =>
    let word := ch.word own
    let n := min Config.chunkBytes (e.len - ch.doneb)
    match s.resolve t e.dst e.dwin (ch.strideOf ch.dstride + ch.doneb) n with
    | none => s.chainFault i 2 word
    | some dst =>
      match chunkSource s t ch e n pod with
      | none => (s.scramble t dst n).chainFault i 2 word
      | some rd =>
        if rd.held then s
        else match rd.code with
        | some code => ((rd.s.tierMiss t.part rd.far word).scramble t dst n).chainFault i code word
        | none =>
          let bs := chunkBytes rd.s t ch e dst rd.bytes
          let wr := ({ rd with s := { rd.s with fresh := rd.s.fresh + n } } : Io).write t dst bs
          if wr.held then s
          else
            let s' := wr.s.tierMiss t.part wr.far word
            match wr.code with
            | some code => (s'.scramble t dst n).chainFault i code word
            | none =>
              -- an uncorrectable sync word is an engine read too (R392)
              match own with
              | some key => if s'.spadBad key 16 then (s'.scramble t dst n).chainFault i 6 word else s'.chunkDone i n e own
              | none => s'.chunkDone i n e own

/-- COPY_CHUNK (R299): the next chunk of a COPYE or FILL; where the engine has reached what is no entry, the fault (R297, R392). -/
def execCopyChunk (cmd : Nat) (pod : List PodAns) (s : State) : Host.Outcome State Fault Refusal :=
  let c := s.cmd cmd
  .next (if !s.cmdRuns cmd || c.skipper then s
  else if c.chain.opened then
    (match c.chain.cur with
      | some b => s.chunk cmd pod (entryOf b)
      | none => s)
  else match s.entryBytes cmd with
    | none =>
      let t := s.team c.team
      s.chainFault cmd (if entryAt t c.chain.entry then 6 else 1) (c.chain.word none)
    | some b => if (entryOf b).kind = 0 || 8 ≤ (entryOf b).kind then s.chainFault cmd 1 (c.chain.word none) else s)

/-! ### The other entries (R298, R299) -/

/-- The sync word a SWADDE or CONDE names: its place, or a fault code. -/
def State.namedSync (s : State) (t : Team) (a : Word) (win : Bool) (delta : Int) : Except Nat Nat :=
  match s.resolve t a win delta 16 with
  | some (.spad core off) =>
    let key := spadKey core off
    if off % 16 ≠ 0 then .error 2 else if s.spadBad key 16 then .error 6 else .ok key
  | _ => .error 2

/-- SWADDE (R298). -/
def execSwadde (cmd : Nat) (s : State) : Host.Outcome State Fault Refusal :=
  .next (s.reach cmd 3 (fun e s =>
    let c := s.cmd cmd
    let t := s.team c.team
    match s.namedSync t e.dst e.dwin (c.chain.strideOf c.chain.ystride) with
    | .error code => s.chainFault cmd code (c.chain.word none)
    | .ok key =>
      (((s.engineSync t.part key e.len 0).wildSync c.chain.wild key).modCmd cmd (fun x => { x with chain := { x.chain with lastSync := some key } })).nextEntry
        cmd (c.chain.entry + 32)))

/-- LOOPLEFT written, with the chain's own copy. -/
def State.loopLeft (s : State) (i n : Nat) : State :=
  let c := s.cmd i
  (s.windowSet c.team (c.addr + 8) 4 n).modCmd i (fun x => { x with chain := { x.chain with loopLeft := n } })

/-- A LOOPE's body lies in its run and holds neither LOOPE nor NEXT (R298). -/
def State.bodyOk (s : State) (t : Team) (c : Chain) (n : Nat) : Bool :=
  c.run + 32 * n ≤ c.entry &&
  (upTo n).all (fun k =>
    let kind := s.spadNat (t.key (c.entry - 32 * (k + 1))) 1
    kind ≠ 4 && kind ≠ 6)

/-- The low or high half of a field, signed. -/
def signedHalf (w : Word) (hi : Bool) : Int := (w.extractLsb' (if hi then 32 else 0) 32).toInt

/-- LOOPE (R298, R299): reached from its body's end in an iteration, or afresh. -/
def execLoope (cmd : Nat) (s : State) : Host.Outcome State Fault Refusal :=
  .next (s.reach cmd 4 (fun e s =>
    let c := s.cmd cmd
    let t := s.team c.team
    let ch := c.chain
    let start := ch.entry - 32 * e.len
    let count := (e.src.extractLsb' 0 32).toNat
    if !s.bodyOk t ch e.len then s.chainFault cmd 1 (ch.word none)
    else if ch.loopAt = some ch.entry then
      let s := s.loopLeft cmd (ch.loopLeft - 1)
      if ch.loopLeft ≤ 1 then
        (s.modCmd cmd (fun x => { x with chain := { x.chain with loopAt := none, iter := 0 } })).nextEntry cmd (ch.entry + 32)
      else (s.modCmd cmd (fun x => { x with chain := { x.chain with iter := x.chain.iter + 1 } })).nextEntry cmd start
    else if count = 0 then s.nextEntry cmd (ch.entry + 32)
    else
      ((s.loopLeft cmd count).modCmd cmd (fun x => { x with chain := { x.chain with
        loopAt := some ch.entry
        iter := 1
        sstride := signedHalf e.src true
        dstride := signedHalf e.dst false
        ystride := signedHalf e.dst true } })).nextEntry cmd start))

/-- The test of a CONDE (R298). -/
def condeSkips (e : Entry) (lo : Nat) : Bool :=
  let reached := genReached (swGen lo) (e.dst.toNat % 2 ^ 16)
  match e.cond with
  | 0 => reached
  | 1 => !reached
  | _ => (BitVec.ofNat 3 (swFlags lo) &&& BitVec.ofNat 3 e.fmask) ≠ 0#3

/-- CONDE (R298). A CONDE that ends a LOOPE's body and skips the LOOPE leaves the loop, with LOOPLEFT as it stands (assumption 12: DEDUCED). -/
def execConde (cmd : Nat) (s : State) : Host.Outcome State Fault Refusal :=
  .next (s.reach cmd 5 (fun e s =>
    let c := s.cmd cmd
    let t := s.team c.team
    match s.namedSync t e.src e.swin 0 with
    | .error code => s.chainFault cmd code (c.chain.word none)
    | .ok key =>
      if condeSkips e (s.spadNat key 8) then
        let s := if c.chain.loopAt = some (c.chain.entry + 32) then
            s.modCmd cmd (fun x => { x with chain := { x.chain with loopAt := none, iter := 0 } })
          else s
        s.nextEntry cmd (c.chain.entry + 64)
      else s.nextEntry cmd (c.chain.entry + 32)))

/-- NEXT (R298): a new run starts. -/
def execNext (cmd : Nat) (s : State) : Host.Outcome State Fault Refusal :=
  .next (s.reach cmd 6 (fun e s =>
    (s.modCmd cmd (fun x => { x with chain := { x.chain with run := e.src.toNat } })).nextEntry cmd e.src.toNat))

/-- STOP (R299): STATE 2, and then ENC (R26). -/
def execStop (cmd : Nat) (s : State) : Host.Outcome State Fault Refusal :=
  .next (s.reach cmd 7 (fun _ s =>
    let c := s.cmd cmd
    (s.windowSet c.team (c.addr + 12) 1 2).endCmd cmd none))

/-- CHAIN_STOP (R303): a chain asked to stop does so at its chunk boundary, with STATE still 1. -/
def execChainStop (cmd : Nat) (s : State) : Host.Outcome State Fault Refusal :=
  .next (if (s.cmd cmd).stage = .stopping && !(s.cmd cmd).skipper then s.modCmd cmd (fun c => { c with stage := .stopped }) else s)

end Sys2Proof.Machine
end

