-- ==== Sys2Proof/Machine/FrontEnd.lean ====
section
/-!
DEFINITION. Front ends and the dispatcher (R195 to R208): queue entries, dependences and refusals, placement and the start of a
team, and the retirement of teams and grids.
-/
namespace Sys2Proof.Machine

/-! ### Queue entries (R197 to R199) -/

/-- The dependences in use: producer and kind. -/
def entryDeps (b : List Byte) : List (BitVec 32 × Bool) :=
  (upTo (field b 12 1)).map (fun i => (BitVec.ofNat 32 (field b (16 + 8 * i) 4), field b (20 + 8 * i) 4 % 2 = 1))

/-- The fields of an entry but SEQ break no line of R197, bits 63:33 of an unused DEP among them; the numbers a dependence may name are those
taken since CREATE, and at most 4,096 back. -/
def entryFieldsOk (f : FrontEnd) (b : List Byte) : Bool :=
  let q : BitVec 32 := BitVec.ofNat 32 (field b 8 4)
  field b 0 8 % 64 = 0 && field b 12 1 ≤ 4 && field b 13 3 = 0 && field b 48 16 = 0 &&
  (upTo 4).all (fun i => field b (20 + 8 * i) 4 < 2) &&
  (entryDeps b).all (fun d => 1 ≤ (q - d.1).toNat && (q - d.1).toNat ≤ Config.seqWindow && (q - d.1).toNat ≤ f.taken)

/-- The waiting entries of a front end with a dependence on a number. -/
def State.dependents (s : State) (p : Nat) (q : BitVec 32) : List Nat :=
  (upTo s.grids.length).filter (fun i =>
    let g := s.grid i
    g.live && g.part = p && g.placed = 0 && g.deps.any (fun d => d.1 = q))

/-- A waiting entry refused for its producer. -/
def State.refuseDependent (s : State) (p i : Nat) : State :=
  let q := ((s.grid i).seq).getD 0
  let s := (s.modGrid i (fun g => { g with live := false })).setSeq p q .refused
  (s.modPart p (fun x => { x with fe := { x.fe with errors := x.fe.errors ++ [(q.toNat, 199)] } })).notify (.refusedEntry p (some q.toNat))

/-- Entries whose producer is one of the numbers refused are refused in their turn, and then theirs (R199); no more numbers are refused than the
fuel. -/
def State.refuseDependents (s : State) (p : Nat) : Nat → List (BitVec 32) → State
  | 0, _ => s
  | _ + 1, [] => s
  | n + 1, q :: qs =>
    let ds := s.dependents p q
    (ds.foldl (fun s i => s.refuseDependent p i) s).refuseDependents p n (qs ++ ds.map (fun i => ((s.grid i).seq).getD 0))

/-- An entry refused: its number is refused, with the rule it breaks and, for a descriptor, the DONE word (R199, R204). -/
def State.refuseEntry (s : State) (p : Nat) (q : BitVec 32) (done : Option Word) (rule : Nat) : State :=
  ((s.setSeq p q .refused).refuseDesc p done (some q.toNat) rule).refuseDependents p (s.grids.length + 1) [q]

/-- The descriptor of an entry: its bytes, that the access is held, or that it cannot be read. -/
def State.descBytes (s : State) (p va : Nat) : Judged × List Byte :=
  match s.judge p va 64 true false false with
  | .spans xs => if s.spanBad xs then (.fault 6, []) else (.spans xs, s.spanBytes xs)
  | j => (j, [])

/-- An entry that takes the expected number. -/
def State.takeEntry (s : State) (p prio : Nat) (b : List Byte) : State :=
  let f := (s.part p).fe
  let q : BitVec 32 := BitVec.ofNat 32 (field b 8 4)
  let ok := entryFieldsOk f b
  let s := s.modPart p (fun x => { x with fe := { x.fe with expected := q + 1#32, taken := x.fe.taken + 1 } })
  if !ok then s.refuseEntry p q none 197
  else if (entryDeps b).any (fun d => f.seqState d.1 = .refused) then s.refuseEntry p q none 199
  else match s.descBytes p (field b 0 8) with
  | (.spans _, bs) =>
    let d := descOf bs
    if s.descLegal p bs then
      (s.enqueue { part := p, desc := d, depth := 1, prio := prio, seq := some q, deps := (entryDeps b).filter (fun x =>
        !(f.seqState x.1 = .retired || (x.2 && f.seqState x.1 = .triggered))) }).setSeq p q .waiting
    else s.refuseEntry p q (some d.doneWord) 204
  | _ => s.refuseEntry p q none 204

/-- The front end cannot judge the entry yet: the descriptor, or the DONE word that a refusal would count, is being zeroed (R349). -/
def State.entryHeld (s : State) (p : Nat) (b : List Byte) : Bool :=
  match s.descBytes p (field b 0 8) with
  | (.held, _) => true
  | (.spans _, bs) => s.doneHeld p (descOf bs).doneWord
  | _ => false

/-- FRONT_END_ENTRY (R197 to R199, R204): the kernel writes an entry into a queue; `stores` are what the kernel has written to memory
before it (assumption 8: DESIGN CHOICE). Intake is closed while the kernel restarts (R395), and from the DESTROY of the partition (R344). -/
def execFrontEndEntry (part prio : Nat) (entry : List Word) (stores : List KStore) (s : State) : Host.Outcome State Fault Refusal :=
  .next (
  let b := (entry.map (fun w => leBytes 8 w.toNat)).flatten
  let s0 := s
  let s := s.kstores stores
  let x := s.part part
  if s.phase ≠ .running || !x.live || x.closing then s0
  else if BitVec.ofNat 32 (field b 8 4) ≠ x.fe.expected then
    (s.modPart part (fun x => { x with fe := { x.fe with errors := x.fe.errors ++ [(field b 8 4, 197)] } })).notify
      (.refusedEntry part (some (field b 8 4)))
  else if s.entryHeld part b then s0
  else s.takeEntry part prio b)

/-! ### Placement (R205, R209) -/

/-- A team that holds a core's gang slots, tag block, banks and sidecar. -/
def Team.onCore (t : Team) (c : Nat) : Bool :=
  t.live && !t.released && t.core = c &&
  (match t.status with
    | .running | .saving _ => true
    | _ => false)
/-- The teams on a core. -/
def State.teamsOn (s : State) (c : Nat) : List Team := s.teams.filter (fun t => t.onCore c)
/-- Gangs of a team in a quadrant. -/
def gangsIn (n q : Nat) : Nat := ((upTo n).filter (fun g => g % 4 = q)).length
/-- Free gang slots of a quadrant. -/
def State.freeSlots (s : State) (c q : Nat) : Nat :=
  Config.quadSlots - ((s.teamsOn c).map (fun t => gangsIn t.ngang q)).foldl (· + ·) 0
/-- Spans of a core's scratchpad that are taken: reserved for the teams whose home it is, and used by those that reside there. -/
def State.spadSpans (s : State) (c : Nat) : List (Nat × Nat) :=
  (s.teams.filter (fun t => t.live && t.home = c)).map (fun t => (t.base, t.base + t.scratch))
    ++ ((s.teams.filter (fun t => t.live && t.home ≠ c && t.core = c && t.status ≠ .saved)).map (fun t =>
      (t.resBase, t.resBase + t.scratch)))
/-- Free accumulator banks of a core. -/
def State.freeBanks (s : State) (c : Nat) : List Nat :=
  (upTo Config.coreBanks).filter (fun b => !(s.teamsOn c).any (fun t => t.physBanks.contains b))
/-- A team that holds a sidecar of a core: until its gangs and the sidecar have exited, where a child keeps the team (R208, assumption 37:
DEDUCED). -/
def Team.sideOnCore (t : Team) (c : Nat) : Bool :=
  t.live && t.side.present && !(t.released && t.side.exited) && t.core = c &&
  (match t.status with
    | .running | .saving _ => true
    | _ => false)
/-- A free sidecar of a core. -/
def State.freeSidecar (s : State) (c : Nat) : Option Nat :=
  (upTo Config.coreSidecars).find? (fun i => !s.teams.any (fun t => t.sideOnCore c && t.sideSlot = i))
/-- The slots of a quadrant that no resident gang holds, ascending. -/
def State.openSlots (s : State) (c q : Nat) : List Nat :=
  (upTo Config.quadSlots).filter (fun k => !(s.teamsOn c).any (fun t => (upTo t.ngang).any (fun g => g % 4 = q && (t.gang g).slot = k)))
/-- A team's gangs on a core: each quadrant's take its lowest open slots, in the order of their numbers (assumption 41: DESIGN CHOICE). -/
def State.seat (s : State) (c : Nat) (gs : List Gang) : List Gang :=
  (upTo gs.length).map (fun g => { (rowGet {} gs g : Gang) with slot := rowGet 0 (s.openSlots c (g % 4)) (g / 4) })

/-- Where a team fits on a core. -/
structure Placement where
  base : Nat
  tagBase : Nat
  banks : List Nat
  slot : Nat
  /-- Free gang slots of the core in total, before the placement. -/
  free : Nat

/-- What a team needs of a core. -/
structure Needs where
  gangs : Nat
  scratch : Nat
  tagSets : Nat
  banks : Nat
  sidecar : Bool

/-- The fit of a team on a core; a team that comes home keeps the span reserved for it. -/
def State.fitOn (s : State) (n : Needs) (c : Nat) (kept : Option Nat) : Option Placement :=
  let spans := s.spadSpans c
  let tags := (s.teamsOn c).map (fun t => (t.tagBase, t.tagBase + t.tagSets))
  let window := match kept with
    | some b => some b
    | none => if n.scratch = 0 then some 0 else lowestFit 16384 spans n.scratch Config.scratchBytes (spans.length + 1) 0
  let block := if n.tagSets = 0 then some 0 else lowestFit n.tagSets tags n.tagSets Config.tagSets (tags.length + 1) 0
  let banks := s.freeBanks c
  let side := if n.sidecar then s.freeSidecar c else some 0
  if !(upTo 4).all (fun q => gangsIn n.gangs q ≤ s.freeSlots c q) || banks.length < n.banks then none
  else match window, block, side with
  | some w, some b, some i =>
    some { base := w, tagBase := b, banks := banks.take n.banks, slot := i,
           free := ((upTo 4).map (fun q => s.freeSlots c q)).foldl (· + ·) 0 }
  | _, _, _ => none

/-- The cores of a partition, ascending. -/
def State.partCores (s : State) (p : Nat) : List Nat :=
  let x := s.part p
  (upTo (4 * (x.hi + 1))).filter (fun c => 4 * x.lo ≤ c)

/-- The core that takes a team: of those that fit the one with the most free slots, the lowest on a tie. -/
def State.bestCore (s : State) (p : Nat) (n : Needs) : Option (Nat × Placement) :=
  (s.partCores p).foldl (fun best c =>
    match s.fitOn n c none, best with
    | none, _ => best
    | some x, none => some (c, x)
    | some x, some b => if b.2.free < x.free then some (c, x) else best) none

/-- What a descriptor's team needs. -/
def Desc.needs (d : Desc) : Needs :=
  { gangs := d.gangs, scratch := d.scratch, tagSets := d.tagSets, banks := d.banks, sidecar := d.sidecar ≠ 0#64 }

/-! ### The start of a team (R206) -/

/-- A gang at its start: PARAM in k0, every slice at ENTRY. -/
def startGang (d : Desc) (order : Nat) : Gang :=
  { slices := (upTo 8).map (fun _ => { pc := d.entry }), k := [d.param], ready := some order }

/-- The window at a start: each of its bytes is kept or is zero (R206, assumption 1: DESIGN CHOICE). -/
def State.startWindow (s : State) (key n : Nat) : State :=
  { s with
    spad := s.spad.filter (fun c => !(decide (key ≤ c.1) && decide (c.1 < key + n)) || Config.freeBit (s.fresh + c.1))
    fresh := s.fresh + 2 ^ 30 }

/-- A grid's next team starts on a core. -/
def State.startTeam (s : State) (i : Nat) (c : Nat) (x : Placement) : State :=
  let g := s.grid i
  let d := g.desc
  let t : Team := {
    live := true
    grid := i
    num := g.placed
    part := g.part
    home := c
    core := c
    base := x.base
    resBase := x.base
    scratch := d.scratch
    tagBase := x.tagBase
    tagSets := d.tagSets
    nbanks := d.banks
    physBanks := x.banks
    ngang := d.gangs
    vregs := d.vregs
    gangs := s.seat c ((upTo d.gangs).map (fun _ => startGang d s.order))
    side := { present := d.sidecar ≠ 0#64, k := [d.param], pc := d.sidecar }
    sideSlot := x.slot
    placedAt := s.cycle }
  let s := s.startWindow (spadKey c x.base) d.scratch
  let s := { s with teams := s.teams ++ [t], order := s.order + 1 }
  let s := s.modGrid i (fun y => { y with placed := y.placed + 1, teams := y.teams ++ [s.teams.length - 1] })
  match g.seq with
  | some q => if g.placed = 0 then s.setSeq g.part q .running else s
  | none => s

/-- The entry that the dispatcher serves: ready, with a team to place, of the highest priority, and the oldest of those (R200). -/
def State.served (s : State) (p : Nat) : Option Nat :=
  ((upTo s.grids.length).filter (fun i =>
    let g := s.grid i
    g.live && g.part = p && g.deps.isEmpty && g.placed < g.desc.teams)).foldl (fun best i =>
    match best with
    | none => some i
    | some j =>
      let a := s.grid i
      let b := s.grid j
      if a.prio < b.prio || (a.prio = b.prio && a.order < b.order) then some i else best) none

/-- The team that the dispatcher of a partition can place now. -/
def State.placeable (s : State) (p : Nat) : Option (Nat × Nat × Placement) :=
  if !(s.part p).live || (s.part p).closing then none
  else match s.served p with
  | none => none
  | some i => (s.bestCore p (s.grid i).desc.needs).map (fun x => (i, x.1, x.2))

/-- DISPATCH_TEAM (R200, R205, R206). -/
def execDispatchTeam (part : Nat) (s : State) : Host.Outcome State Fault Refusal :=
  .next (if !(s.phase = .running || s.phase = .restarting) then s
  else match s.placeable part with
  | some (i, c, x) => s.startTeam i c x
  | none => s)

/-! ### Retirement (R203, R207, R208) -/

/-- A grid all of whose teams have retired: DONE receives its increment, dependences are satisfied, and GRIDS rises (R203, R207,
R383). While the DONE word's page is being zeroed, the increment and with it the retirement is held (R349). -/
def State.gridCheck (s : State) (i : Nat) : State :=
  let g := s.grid i
  if !g.live || g.placed ≠ g.desc.teams || g.retired ≠ g.desc.teams || s.doneHeld g.part g.desc.doneWord then s
  else
    let s := if g.desc.doneWord = 0#64 then s else s.syncAt g.part g.desc.doneWord 1 (if g.fault then 1 else 0)
    let s := (s.modGrid i (fun g => { g with live := false })).meter g.part 10 1
    match g.seq with
    | none => s
    | some q => (s.setSeq g.part q .retired).satisfy g.part q true

/-- What a team holds is released: its operand-buffer records, and with its place everything that belongs to it. -/
def State.freeTeam (s : State) (u : Nat) : State :=
  let t := s.team u
  let s := s.modCore t.home (fun c => { c with records := c.records.map (fun r => if r.team = u then { r with state := .free } else r) })
  let s := s.modTeam u (fun t => { t with live := false })
  (s.modGrid t.grid (fun g => { g with retired := g.retired + 1 })).gridCheck t.grid

/-- A party's counters are zero. -/
def Gang.quiet (g : Gang) : Bool := g.olc.value = 0 && g.osc.value = 0 && g.enc.value = 0

/-- A team may retire: every party has exited, what they issued has completed, no child lives, and the array has written its last
result (R207, R208, assumption 14: DEDUCED). -/
def State.mayRetire (s : State) (u : Nat) : Bool :=
  let t := s.team u
  u < s.teams.length && t.live && t.status = .running && t.exited && (upTo t.ngang).all (fun g => (t.gang g).quiet)
    && t.side.enc.value = 0 && !s.hasChild u && t.mmas.isEmpty

/-- Faults of chains with no command sync word, which their party left behind (R302). -/
def State.reportLeft (s : State) (u gang : Nat) (pc : Addr) (c : Counter) : State :=
  (c.flags.filter (·.unsynced)).foldl (fun s f =>
    s.noteTrap u gang 0 (if f.code = 5#8 then Cause.stampedAccess else Cause.engineFault).code pc
      (BitVec.ofNat 64 (f.code.toNat + 256 + f.addr.toNat % 2 ^ 32 * 2 ^ 16))) s

/-- Faults that the parties of a team left behind. -/
def State.reportAllLeft (s : State) (u : Nat) : State :=
  let t := s.team u
  let s := (upTo t.ngang).foldl (fun s g => s.reportLeft u g (t.gang g).exitPc (t.gang g).enc) s
  if t.side.present then s.reportLeft u 16 t.side.exitPc t.side.enc else s

/-- TEAM_RETIREMENT (R207, R302, R376). -/
def execTeamRetirement (team : Nat) (s : State) : Host.Outcome State Fault Refusal :=
  .next (if s.mayRetire team then
    let s := (upTo (s.team team).ngang).foldl (fun s g => s.flushLog team g) s
    (s.reportAllLeft team).freeTeam team
  else s)

end Sys2Proof.Machine
end

