-- ==== Sys2Proof/Machine/Convert.lean ====
section
/-!
DEFINITION. Conversions and scaling (R129 to R133): CVT, PACK, UNPK, QNT, RND, CLASS and SCALB.
-/
namespace Sys2Proof.Machine

/-- The number of parts of a conversion: the ratio of the counts (R77, R129). -/
def partsOf (src dst : ElemType) : Nat := max src.count dst.count / min src.count dst.count

/-- The part lies below the ratio; that every type is legal goes before (R77). -/
def partLegal (src : ElemType) (part : BitVec 3) (t : ElemType) : Bool := part.toNat < partsOf src t

/-- A conversion of a lane: part `p`; `keep` gives the other sub-elements of a narrow destination (R129). -/
def convertLane (src dst : ElemType) (md : Modes) (p : Nat) (a keep : Word) : Word × Causes :=
  let n := min src.count dst.count
  if src.count ≤ dst.count then
    subMap dst (fun i =>
      if p * n ≤ i && i < p * n + n then convert src dst md (subGet src.width a (i - p * n)) else (subGet dst.width keep i, noCause))
  else
    subMap dst (fun i => convert src dst md (subGet src.width a (p * n + i)))

/-- CVT (R129). -/
def execCvt (src : ElemType) (d a : VNum) (wa : Bool) (s : State) : Host.Outcome State Fault Refusal :=
  laneWord (.cvt src d a wa) [⟨a, wa⟩] d anyType (fun t md v => convertLane src t md 0 (v 0) 0#64) s
/-- PACK (R129): the sub-elements outside the part are unchanged. -/
def execPack (src : ElemType) (d a : VNum) (part : BitVec 3) (wa : Bool) (s : State) : Host.Outcome State Fault Refusal :=
  laneWord (.pack src d a part wa) [⟨a, wa⟩, ⟨d, false⟩] d (partLegal src part)
    (fun t md v => convertLane src t md part.toNat (v 0) (v 1)) s
/-- UNPK (R129). -/
def execUnpk (src : ElemType) (d a : VNum) (part : BitVec 3) (wa : Bool) (s : State) : Host.Outcome State Fault Refusal :=
  laneWord (.unpk src d a part wa) [⟨a, wa⟩] d (partLegal src part)
    (fun t md v => convertLane src t md part.toNat (v 0) 0#64) s

/-- The length of a block. -/
def BlockLen.size : Sys2Proof.BlockLen → Nat
  | .l16 => 16 | .l32 => 32 | .l64 => 64

/-- The consecutive registers from a first one. -/
def regRange (r : VNum) (n : Nat) : List VNum := (upTo n).map (fun i => r + BitVec.ofNat 6 i)

/-- M ≤ 127 · 2^s for M = m · 2^e. -/
def scaleFits (m : Nat) (e s : Int) : Bool :=
  if e ≤ s then m ≤ 127 * 2 ^ (s - e).toNat else m * 2 ^ (e - s).toNat ≤ 127

/-- The least integer `s` from a start with M ≤ 127 · 2^s. -/
def leastScale (m : Nat) (e : Int) : Nat → Int → Int
  | 0, s => s
  | n + 1, s => if scaleFits m e s then s else leastScale m e n (s + 1)

/-- The scale of a block: its exponent (R130). Below `bitLen m + e − 7` no scale fits, and two above it one does. -/
def blockScale (m : Nat) (e : Int) : Int :=
  if m = 0 then 0
  else
    let s := leastScale m e 3 (e + bitLen m - 7)
    if s < -127 then -127 else s

/-- A finite value at least as great in magnitude. -/
def magLe (m1 : Nat) (e1 : Int) (m2 : Nat) (e2 : Int) : Bool := (exactSum false m2 e2 true m1 e1).1 ≥ 0

/-- The greatest magnitude of values that are finite. -/
def greatest (xs : List FVal) : Nat × Int :=
  xs.foldl (fun b x =>
    match x with
    | .fin _ m e => if magLe m e b.1 b.2 then b else (m, e)
    | _ => b) (0, 0)

/-- One block quantised: scale code, bytes, causes (R130). -/
def quantBlock (rm : BitVec 2) (xs : List FVal) : Nat × List Nat × Causes :=
  if xs.any (fun x => match x with
      | .fin _ _ _ => false
      | _ => true) then (255, xs.map (fun _ => 0), cInvalid)
  else
    let g := greatest xs
    let sc := blockScale g.1 g.2
    let rs := xs.map (fun x =>
      match x with
      | .fin n m e =>
        let r := roundInt rm n m (e - sc)
        let y : Int := if 127 < r.1 then 127 else if r.1 < -127 then -127 else r.1
        (intBits 8 y, r.2 || y ≠ r.1)
      | _ => (0, false))
    ((sc + 127).toNat, rs.map (·.1), if rs.any (·.2) then cInexact else noCause)

/-- QNT of a lane: the 64 elements in order give nine registers and the causes (R130). -/
def quantLane (t : ElemType) (md : Modes) (len : Nat) (regs : List Word) : List Word × Causes :=
  let xs := (upTo 64).map (fun k => widen t md.ftz (subGet 16 (rowGet 0 regs (k / 4)) (k % 4)))
  let blocks := (upTo (64 / len)).map (fun q => quantBlock md.rm ((xs.drop (q * len)).take len))
  let bytes := blocks.foldr (fun b acc => b.2.1 ++ acc) []
  ((upTo 8).map (fun r => packWord 8 ((bytes.drop (8 * r)).take 8)) ++ [packWord 8 (blocks.map (·.1))],
   blocks.foldl (fun c b => c ||| b.2.2) noCause)

/-- Registers `d` to `d + 8` written from a list, in the participating lanes. -/
def State.writeNine (s : State) (c : Ctx) (d : VNum) (f : Nat → List Word) : State :=
  (upTo 9).foldl (fun s i => s.writeV c.u (d + BitVec.ofNat 6 i) c.part (fun l => rowGet 0 (f l) i)) s

/-- QNT (R130): each register of the source ranges that names a queue under QMAP pops its own entry (assumption 44: DEDUCED). -/
def execQnt (l : BlockLen) (d a b : VNum) (wa wb : Bool) (s : State) : Host.Outcome State Fault Refusal :=
  issue (.qnt l d a b wa wb)
    { srcs := (regRange a 8).map (fun r => ⟨r, wa⟩) ++ (regRange b 8).map (fun r => ⟨r, wb⟩), dsts := regRange d 9,
      mode := readsEt (fun t => t = .f16 || t = .bf16) } (fun c s =>
    let res := fun lane => quantLane c.et c.modes (BlockLen.size l) ((upTo 16).map (fun j => c.src j lane))
    .ok ((s.writeNine c d (fun lane => (res lane).1)).raise c.u.team c.u.gang c.pc c.part (fun lane => (res lane).2))) s

/-- The rounding mode of an RND, and whether it logs INEXACT (R131). -/
def rndMode (m : RndMode) (rm : BitVec 2) : BitVec 2 × Bool :=
  match m with
  | .floor => (2#2, false)
  | .ceil => (3#2, false)
  | .trunc => (1#2, false)
  | .rint => (rm, true)

/-- RND of a sub-element: the value rounded to an integral one of the same format. -/
def opRnd (m : RndMode) (t : ElemType) (md : Modes) (a : Nat) : Nat × Causes :=
  let x := widen t md.ftz a
  match nanOf t [x] with
  | some r => r
  | none =>
    match x with
    | .fin n mant e =>
      let mode := rndMode m md.rm
      let r := roundAt mode.1 n mant e 0
      if r.1 = 0 then (signBit t n, if r.2 && mode.2 then cInexact else noCause)
      else ((roundTo t md n r.1 0).1, if r.2 && mode.2 then cInexact else noCause)
    | _ => (a, noCause)

/-- RND (R131). -/
def execRnd (m : RndMode) (d a : VNum) (wa : Bool) (s : State) : Host.Outcome State Fault Refusal :=
  laneWord (.rnd m d a wa) [⟨a, wa⟩] d bigFloat (sub1 (opRnd m)) s

/-- CLASS of a sub-element: the bits as they are stored (R132). -/
def opClass (t : ElemType) (_ : Modes) (a : Nat) : Nat × Causes :=
  let k : Nat := match widen t false a with
    | .nan n f => if signalling t (.nan n f) then 8 else 9
    | .inf n => if n then 0 else 7
    | .fin n m _ =>
      if m = 0 then (if n then 3 else 4)
      else if m < 2 ^ fracBits t then (if n then 2 else 5)
      else if n then 1 else 6
  (2 ^ k, noCause)

/-- CLASS (R132). -/
def execClassf (d a : VNum) (wa : Bool) (s : State) : Host.Outcome State Fault Refusal :=
  laneWord (.classf d a wa) [⟨a, wa⟩] d bigFloat (sub1 opClass) s

/-- The integer type of a float type's width (R133). -/
def sameWidthInt (t : ElemType) : ElemType :=
  match t with
  | .f64 => .i64
  | .f32 => .i32
  | _ => .i16

/-- An exponent kept within a range beyond which every format overflows or rounds to the same tiny result. -/
def clampExp (x : Int) : Int := if 5000 < x then 5000 else if x < -5000 then -5000 else x

/-- SCALB of a sub-element (R133). -/
def opScalb (t : ElemType) (md : Modes) (a b : Nat) : Nat × Causes :=
  let x := widen t md.ftz a
  match nanOf t [x] with
  | some r => r
  | none =>
    match x with
    | .fin n m e => if m = 0 then (signBit t n, noCause) else roundTo t md n m (e + clampExp (intOf (sameWidthInt t) b))
    | _ => (a, noCause)

/-- SCALB (R133). -/
def execScalb (d a b : VNum) (wa wb : Bool) (s : State) : Host.Outcome State Fault Refusal :=
  laneWord (.scalb d a b wa wb) (srcsAB a b wa wb) d bigFloat (sub2 opScalb) s

end Sys2Proof.Machine
end

