-- ==== Sys2Proof/Machine/Remote.lean ====
section
/-!
DEFINITION. Remote operations (R83, R304 to R307): issue, the home's judgement and effect, requests of other modules, landings and
acknowledgements.
-/
namespace Sys2Proof.Machine

/-! ### Operations in flight -/

/-- An operation that has never been issued. -/
def noOp : RemOp :=
  { kind := .rld, team := 0, gang := 0, part := 0, core := 0, d := 0#6, pc := 0, seq := 0, stamp := 0, committed := true, lanes := [] }
/-- An operation by its place. -/
def State.op (s : State) (i : Nat) : RemOp := rowGet noOp s.ops i
/-- An operation changed. -/
def State.modOp (s : State) (i : Nat) (f : RemOp → RemOp) : State := { s with ops := rowMod noOp s.ops i f }
/-- A lane of an operation. -/
def RemOp.lane (o : RemOp) (l : Nat) : RemLane := rowGet {} o.lanes l
/-- A lane of an operation changed. -/
def State.modLane (s : State) (i l : Nat) (f : RemLane → RemLane) : State :=
  s.modOp i (fun o => { o with lanes := rowMod {} o.lanes l f })
/-- The stage of a lane set. -/
def State.setStage (s : State) (i l : Nat) (x : LaneStage) : State := s.modLane i l (fun y => { y with stage := x })

/-- The counter on which a kind counts (R25). -/
def RemKind.counter : RemKind → CounterName
  | .rld | .raadd | .rcas | .ldat => .olc
  | .rst | .rstf | .raaddD | .stmp => .osc

/-- The kind of request that an operation sends. -/
def RemKind.req : RemKind → ReqKind
  | .rld => .rld
  | .rst => .rst
  | .rstf => .rstf
  | .raadd | .raaddD => .raadd
  | .rcas => .rcas
  | .stmp => .stmp
  | .ldat => .ldat

/-! ### Sending (R304, R319, R354) -/

/-- Where a lane's address leads: a fault of the lane, a home on this module, or another module's window. -/
inductive Route where
  | fault (code : Byte)
  | home (key : Word)
  | away (dev : BitVec 21) (win : BitVec 7) (key : Word) (off : Nat)
  deriving DecidableEq, Repr

/-- The sender's judgement of an address. -/
def State.route (s : State) (p : Nat) (a : Word) (stamped : Bool) : Route :=
  if a.toNat % 8 ≠ 0 then .fault 2#8
  else match s.engAddr a with
    | .reserved => .fault 2#8
    | .device _ => .home 0#64
    | .local_ _ obuf _ => if stamped || obuf then .fault 2#8 else .home 0#64
    | .pod dev win off =>
      match s.grantKey p dev win with
      | none => .fault 7#8
      | some key => if dev = s.devid then .home key else .away dev win key off

/-- The module that an address leads to. -/
def State.moduleOf (s : State) (a : Word) : BitVec 21 :=
  match s.engAddr a with
  | .pod dev _ _ => dev
  | _ => s.devid

/-- A lane of RST.F has earlier RST, RAADD or RCAS writes of its gang to the same module before it that have not been performed (R251,
R305). -/
def State.flagHeld (s : State) (i l : Nat) : Bool :=
  let o := s.op i
  o.kind = .rstf &&
  (upTo i).any (fun j =>
    let x := s.op j
    x.team = o.team && x.gang = o.gang && (x.kind = .rst || x.kind = .rstf || x.kind = .raadd || x.kind = .raaddD || x.kind = .rcas)
      && (upTo 32).any (fun k => ((x.lane k).stage = .sent || (x.lane k).stage = .flagged)
        && s.moduleOf (x.lane k).addr = s.moduleOf (o.lane l).addr))

/-- A lane sent: its first stage, and the message to another module, which a lane of RST.F waits to send. -/
def State.sendLane (s : State) (i l : Nat) (stamped : Bool) : State :=
  let o := s.op i
  let x := o.lane l
  match s.route o.part x.addr stamped with
  | .fault c => s.setStage i l (.reply (.fault c))
  | .home key =>
    let s := s.meter o.part 4 8
    let s := if stamped then s.meter o.part 5 1 else s
    s.modLane i l (fun y => { y with stage := .sent, key := key })
  | .away dev win key off =>
    if s.flagHeld i l then s.setStage i l .flagged
    else
      let s := s.meter o.part 4 8
      let s := if stamped then s.meter o.part 5 1 else s
      let v := if o.kind = .stmp then o.stamp else x.cmp
      (s.send (.request dev win key (RemKind.req o.kind) off 8 x.val v i l [])).setStage i l .sent

/-- The value that the home was sent: the module that holds the location is another. -/
def State.isAway (s : State) (i l : Nat) : Bool :=
  match s.engAddr ((s.op i).lane l).addr with
  | .pod dev _ _ => dev ≠ s.devid
  | _ => false

/-- An operation issued: it is counted, its destinations become EMPTY where it returns values, and its lanes start. -/
def State.issueOp (s : State) (c : Ctx) (kind : RemKind) (d : VNum) (dsts : List VNum) (stamp : Word) (lanes : List RemLane) : State :=
  let i := s.ops.length
  let cn := RemKind.counter kind
  let o : RemOp := { noOp with
    kind := kind
    team := c.u.team
    gang := c.u.gang
    part := c.t.part
    core := c.t.core
    d := d
    pc := c.pc
    seq := (s.partyCounter c.u.team c.u.gang cn).issued
    stamp := stamp
    committed := kind ≠ .stmp
    lanes := lanes }
  let s := ({ s with ops := s.ops ++ [o] } : State).modPartyCounter c.u.team c.u.gang cn Counter.count
  s.modGang c.u.team c.u.gang (fun g => dsts.foldl (fun g r =>
    (g.modLanes c.part (fun _ x => x.setV r { x.vreg r with full := false, poison := false, bad := false, owed := some i })).touchV r) g)

/-- A relaxed remote word: `val` and `cmp` are the sources that go with the address. -/
def remoteWord (i : Instr) (f : Form) (kind : RemKind) (d : VNum) (dsts : List VNum) (val cmp : Ctx → Nat → Word) (s : State) :
    Host.Outcome State Fault Refusal :=
  issue i f (fun c s =>
    if c.part = 0#32 then .ok s
    else
      let cn := RemKind.counter kind
      stopOr (counterStop (s.partyCounter c.u.team c.u.gang cn) cn)
        (let n := s.ops.length
         let lanes := (upTo 32).map (fun l =>
           if c.part.getLsbD l then ({ stage := .sent, addr := c.src 0 l, val := val c l, cmp := cmp c l } : RemLane) else {})
         let s := s.issueOp c kind d dsts 0#64 lanes
         .ok ((lanesOf c.part).foldl (fun s l => s.sendLane n l false) s))) s

/-- I64 and N64 (R305). -/
def wideInt (t : ElemType) : Bool := t = .i64 || t = .n64

/-- RLD (R305). -/
def execRld (d a : VNum) (wa : Bool) (s : State) : Host.Outcome State Fault Refusal :=
  remoteWord (.rld d a wa) { srcs := [⟨a, wa⟩], dsts := [d] } .rld d [d] (fun _ _ => 0#64) (fun _ _ => 0#64) s
/-- RST and RST.F (R305). -/
def execRst (f : Bool) (a b : VNum) (wa wb : Bool) (s : State) : Host.Outcome State Fault Refusal :=
  remoteWord (.rst f a b wa wb) { srcs := srcsAB a b wa wb, closes := true } (if f then .rstf else .rst) 0#6 []
    (fun c l => c.src 1 l) (fun _ _ => 0#64) s
/-- RAADD (R305). -/
def execRaadd (d a b : VNum) (wa wb : Bool) (s : State) : Host.Outcome State Fault Refusal :=
  remoteWord (.raadd d a b wa wb) { srcs := srcsAB a b wa wb, dsts := [d], mode := readsEt wideInt, closes := true } .raadd d [d]
    (fun c l => c.src 1 l) (fun _ _ => 0#64) s
/-- RAADD.D (R305). -/
def execRaaddD (a b : VNum) (wa wb : Bool) (s : State) : Host.Outcome State Fault Refusal :=
  remoteWord (.raaddD a b wa wb) { srcs := srcsAB a b wa wb, mode := readsEt wideInt, closes := true } .raaddD 0#6 []
    (fun c l => c.src 1 l) (fun _ _ => 0#64) s
/-- RCAS (R305). -/
def execRcas (d a b : VNum) (wa wb : Bool) (s : State) : Host.Outcome State Fault Refusal :=
  remoteWord (.rcas d a b wa wb) { srcs := srcsABD a b d wa wb, dsts := [d], mode := readsEt wideInt, closes := true } .rcas d [d]
    (fun c l => c.src 1 l) (fun c l => c.src 2 l) s

/-! ### At the home (R304, R305, R347, R354) -/

/-- Where a request's 8 bytes lie at their home. -/
inductive HomePlace where
  | spad (core off : Nat)
  | mem (xs : List Span) (win : Option (Nat × Nat))
  | held
  | fault (code : Nat)
  deriving DecidableEq, Repr

/-- The judgement of a lane of this module's own operation; a window's partition goes with it. -/
def State.ownPlace (s : State) (p : Nat) (x : RemLane) (kind : ReqKind) : HomePlace :=
  let nd := ReqKind.needs kind
  match s.engAddr x.addr with
  | .reserved => .fault 2
  | .local_ core obuf off => if !obuf && (s.windowOwner p core off 8).isSome then .spad core off else .fault 2
  | .device va =>
    (match s.judge p va 8 nd.1 nd.2 (ReqKind.isStamped kind) with
      | .spans xs => .mem xs none
      | .held => .held
      | .fault c => .fault c)
  | .pod _ win off =>
    match s.judgeWindow win x.key kind off 8 with
    | (.spans xs, o) => .mem xs (some (win.toNat, o))
    | (.held, _) => .held
    | (.fault c, _) => .fault c

/-- The new value that a request writes, if any (R305). -/
def reqWrites (kind : ReqKind) (old : Nat) (val cmp : Word) : Option Nat :=
  match kind with
  | .rst | .rstf => some val.toNat
  | .raadd => some ((old + val.toNat) % 2 ^ 64)
  | .rcas => if old = cmp.toNat then some val.toNat else none
  | _ => none

/-- The answer that a request brings: a value where the operation returns one. -/
def reqAnswer (kind : ReqKind) (old : Nat) : RemAns :=
  match kind with
  | .rst | .rstf => .ack
  | _ => .value (BitVec.ofNat 64 old)

/-- A request that reads no byte: RST, flagged or not. -/
def ReqKind.plainStore : Sys2Proof.ReqKind → Bool
  | .rst | .rstf => true
  | _ => false

/-- A request's read and write at its place: the state, and the answer. -/
def State.perform (s : State) (p : Nat) (pl : HomePlace) (kind : ReqKind) (val cmp : Word) : State × RemAns :=
  match pl with
  | .held => (s, .ack)
  | .fault c => (s, .fault (BitVec.ofNat 8 c))
  | .spad core off =>
    let key := spadKey core off
    if !ReqKind.plainStore kind && s.spadBad key 8 then (s, .fault 6#8)
    else
      let old := s.spadNat key 8
      (match reqWrites kind old val cmp with
        | some v => s.engineSpadWrite p core off (leBytes 8 v)
        | none => s, reqAnswer kind old)
  | .mem xs win =>
    let s := match win with
      | some w => s.farMisses w.2 2 65535 xs
      | none => if anyFar xs then s.meter p 7 8 else s
    if !ReqKind.plainStore kind && s.spanBad xs then (s, .fault 6#8)
    else
      let old := leNat (s.spanBytes xs)
      (match reqWrites kind old val cmp with
        | some v => s.spanWrite xs (leBytes 8 v)
        | none => s, reqAnswer kind old)

/-- Reports of malformed entries that a lane of this module met at its home (R346). -/
def State.reportLane (s : State) (p : Nat) (x : RemLane) (kind : ReqKind) : State :=
  match s.engAddr x.addr with
  | .device va => s.reportMalformed p va 8
  | .pod _ win off => s.reportWindow win x.key kind off 8
  | _ => s

/-- A lane of this module's own operation is at its home: sent, and the home is this module. -/
def State.atHome (s : State) (i l : Nat) : Bool := i < s.ops.length && l < 32 && ((s.op i).lane l).stage = .sent && !s.isAway i l

/-- The answer to another module's request. -/
def State.reply (s : State) (r : ExtReq) (a : RemAns) (far : Bool) : State := s.send (.answer r.src r.id a far)

/-- The version cell of a stamped word: 8 times the page offset into the page's backing (R314). -/
def stampCell (xs : List Span) : Nat :=
  match xs with
  | x :: _ => x.leaf.frame + 8 * (x.va % 65536)
  | [] => 0

/-- A request of another module: judged and performed whole (R354). -/
def State.extRequest (s : State) (r : ExtReq) : State :=
  match s.judgeWindow r.window r.key r.kind r.off r.size with
  | (.held, _) => s
  | (.fault c, _) => (s.reportWindow r.window r.key r.kind r.off r.size).reply r (.fault (BitVec.ofNat 8 c)) false
  | (.spans xs, o) =>
    let far := anyFar xs
    let s' := s.farMisses o 2 65535 xs
    match r.kind with
    | .engRead => if s'.spanBad xs then s'.reply r (.fault 6#8) far else s'.send (.bytes r.src r.id (s'.spanBytes xs) far)
    | .engWrite => (s'.spanWrite xs ((r.data ++ leBytes r.size 0).take r.size)).reply r .ack far
    | .sync => if s'.spanBad xs then s'.reply r (.fault 6#8) far else (s'.spanSync xs r.val.toNat r.cmp.toNat).reply r .ack far
    | .ldat =>
      if s.tb.tstate = 3#2 then s.reply r (.fault 7#8) false
      else
        let x : Inbound := { src := r.src, id := r.id, window := r.window, part := o, cell := stampCell xs,
                             va := (s.window r.window.toNat).base + r.off, t := r.val, read := true }
        ({ s with inbound := s.inbound ++ [x] } : State).modWindow r.window.toNat (fun w => { w with inflight := w.inflight + 1 })
    | .stmp => s
    | .rld | .rst | .rstf | .raadd | .rcas =>
      let y := s.perform o (.mem xs (some (r.window.toNat, o))) r.kind r.val r.cmp
      y.1.reply r y.2 far

/-- HOME_REQUEST (R304, R305, R354): a lane of an operation of this module, or a request of another. A read of a stamped word is
judged here and served later (R320). -/
def execHomeRequest (r : HomeReq) (s : State) : Host.Outcome State Fault Refusal :=
  .next (match r with
  | .ext r => s.extRequest r
  | .own i l =>
    let o := s.op i
    let x := o.lane l
    if !s.atHome i l || o.kind = .stmp || s.flagHeld i l then s
    else
      let kind := RemKind.req o.kind
      match s.ownPlace o.part x kind with
      | .held => s
      | .fault c => (s.reportLane o.part x kind).setStage i l (.reply (.fault (BitVec.ofNat 8 c)))
      | .mem xs win =>
        if o.kind = .ldat then
          if s.tb.tstate = 3#2 then s.setStage i l (.reply (.fault 7#8))
          else
            let s := match win with
              | some w => s.modWindow w.1 (fun w => { w with inflight := w.inflight + 1 })
              | none => s
            s.modLane i l (fun y => { y with
              stage := .settling, cell := stampCell xs, window := win.map (fun w => BitVec.ofNat 7 w.1) })
        else
          let y := s.perform o.part (.mem xs win) kind x.val x.cmp
          y.1.setStage i l (.reply y.2)
      | pl =>
        let y := s.perform o.part pl kind x.val x.cmp
        y.1.setStage i l (.reply y.2))

/-! ### Answers (R12, R17, R25, R306, R307) -/

/-- A register of a lane after the landing of a value, or of a fault, of the operation that owes it (R12, R15, R155). -/
def Gang.land (g : Gang) (op l : Nat) (r : VNum) (pc : Addr) (v : Except Byte Word) : Gang :=
  let x := (g.lane l).vreg r
  if x.owed ≠ some op then g
  else
    let y := match v with
      | .ok w => ({ val := w } : VReg)
      | .error c => { val := x.val, poison := true, ppc := pc, pcode := c }
    { g.modLanes (1#32 <<< l) (fun _ z => z.setV r y) with
      latch := (match g.latch with
        | some a => if a.toNat ≤ r.toNat && r.toNat ≤ a.toNat + 8 then none else some a
        | none => none) }

/-- The lanes of RST.F that nothing holds any more are sent. -/
def State.sendFlagged (s : State) : State :=
  (upTo s.ops.length).foldl (fun s i => (upTo 32).foldl (fun s l =>
    if ((s.op i).lane l).stage = .flagged && !s.flagHeld i l then s.sendLane i l false else s) s) s

/-- A lane has finished; the counter falls when it was the last (R17, R253), and lanes of RST.F that it held are sent. -/
def State.laneDone (s : State) (i l : Nat) : State :=
  let s := (s.setStage i l .idle).sendFlagged
  let o := s.op i
  if (upTo 32).all (fun k => (o.lane k).stage = .idle) then
    s.modPartyCounter o.team o.gang (RemKind.counter o.kind) (fun x => x.finish o.seq)
  else s

/-- The answer that reaches a lane: of its home on this module, or of another module. -/
def State.answerOf (s : State) (i l : Nat) (reply : Option RemAns) : Option RemAns :=
  if !(i < s.ops.length && l < 32) then none
  else match ((s.op i).lane l).stage with
    | .reply a => some a
    | .sent | .stored | .releasing _ => if s.isAway i l then reply else none
    | _ => none

/-- What a value-returning operation's answer puts into d, and into d+1 for LDAT. -/
def landing (a : RemAns) (ldat : Bool) : Except Byte Word × Except Byte Word :=
  match a with
  | .value w => (.ok w, .ok 0#64)
  | .pair w st => (.ok w, .ok st)
  | .fault c => (.error c, .error c)
  | .ack | .rlate _ => (.ok 0#64, .ok (if ldat then 1#64 else 0#64))

/-- REMOTE_LANDING (R12, R25, R307): the value, or the poison, of a lane that OLC counts. -/
def execRemoteLanding (op lane : Nat) (reply : Option RemAns) (s : State) : Host.Outcome State Fault Refusal :=
  .next (let o := s.op op
  match s.answerOf op lane reply with
  | none => s
  | some a =>
    if RemKind.counter o.kind ≠ .olc then s
    else
      let ld := o.kind = .ldat
      let r := landing a ld
      let s := s.modGang o.team o.gang (fun g =>
        let g := g.land op lane o.d o.pc r.1
        if ld then g.land op lane (o.d + 1#6) o.pc r.2 else g)
      s.laneDone op lane)

/-- REMOTE_ACKNOWLEDGEMENT (R25, R291, R322): the acknowledgement, or the fault, of a lane that OSC counts. -/
def execRemoteAcknowledgement (op lane : Nat) (reply : Option RemAns) (s : State) : Host.Outcome State Fault Refusal :=
  .next (let o := s.op op
  match s.answerOf op lane reply with
  | none => s
  | some a =>
    if RemKind.counter o.kind ≠ .osc then s
    else
      let flag : Option OpFlag := match a with
        | .fault c => some { seq := o.seq, lane := lane, code := c, addr := 0, rlate := none }
        | .rlate st => some { seq := o.seq, lane := lane, code := 0, addr := 0, rlate := some st }
        | _ => none
      let s := match flag with
        | some f => s.modPartyCounter o.team o.gang .osc (fun x => x.flag f)
        | none => s
      s.laneDone op lane)

end Sys2Proof.Machine
end

