-- ==== Sys2Proof/Machine/Stamp.lean ====
section
/-!
DEFINITION. Stamped memory (R313 to R329): TIME, STMP and LDAT, version cells, the commit wait and its release, the waits of a
stamped read, and suspect marks.
-/
namespace Sys2Proof.Machine

/-- HELD or FAILED (R312). -/
def Timebase.holds (t : Timebase) : Bool := 2 ≤ t.tstate.toNat
/-- TIME_HELD with TSTATE (R369). -/
def heldStop (s : State) : Option Stop := need (!s.tb.holds) (.trap { cause := .timeHeld, detail := s.tb.tstate.setWidth 64 })

/-- TIME (R313). -/
def execTime (kd : KNum) (s : State) : Host.Outcome State Fault Refusal :=
  issue (.time kd) {} (fun c s =>
    stopOr (heldStop s)
      (.ok ((s.writeK c.u kd (BitVec.ofNat 64 s.tb.te)).writeK c.u (kd + 1#5) (BitVec.ofNat 64 s.tb.tl)))) s

/-! ### Version cells (R315, R316) -/

/-- A version of a cell. -/
structure Version where
  val : Nat
  pending : Bool
  suspect : Bool
  tick : Nat
  deriving DecidableEq, Repr

/-- The slots of a cell, slot 0 first. -/
def State.slots (s : State) (cell : Nat) : List Version :=
  (upTo 4).map (fun i =>
    let m := memNat s.hbm (cell + 16 * i + 8) 8
    { val := memNat s.hbm (cell + 16 * i) 8, pending := m / 2 ^ 63 % 2 = 1, suspect := m / 2 ^ 62 % 2 = 1, tick := m % 2 ^ 62 })

/-- The bytes of a version. -/
def Version.bytes (v : Version) : List Byte :=
  leBytes 8 v.val ++ leBytes 8 (v.tick + (if v.suspect then 2 ^ 62 else 0) + (if v.pending then 2 ^ 63 else 0))

/-- The slots of a cell written. -/
def State.setSlots (s : State) (cell : Nat) (vs : List Version) : State :=
  s.physWrite false cell (vs.foldr (fun v acc => v.bytes ++ acc) [])

/-- The place of the `k`-th PENDING slot. -/
def pendingSlot (vs : List Version) (k : Nat) : Option Nat := ((upTo 4).filter (fun i => ((vs.drop i).head?.map (·.pending)).getD false))[k]?

/-- An owner put among a cell's owners after `k` of them. -/
def putOwner (cell k : Nat) (o : HomeRef) : List (Nat × HomeRef) → List (Nat × HomeRef)
  | [] => [(cell, o)]
  | x :: t =>
    if x.1 ≠ cell then x :: putOwner cell k o t
    else match k with
      | 0 => (cell, o) :: x :: t
      | n + 1 => x :: putOwner cell n o t

/-- The first owner of a cell taken away. -/
def dropOwner (cell : Nat) : List (Nat × HomeRef) → List (Nat × HomeRef)
  | [] => []
  | x :: t => if x.1 = cell then t else x :: dropOwner cell t

/-- How a home judges an arriving stamped store (R322). -/
inductive Verdict where
  | discarded | late | inserted
  deriving DecidableEq, Repr

/-- A stamped store judged and inserted at its place (R316, R322). -/
def State.insertVersion (s : State) (cell val stamp : Nat) (owner : HomeRef) : State × Verdict :=
  let vs := s.slots cell
  let oldest := (vs.headD { val := 0, pending := false, suspect := false, tick := 0 })
  if stamp < oldest.tick then ({ s with discards := s.discards + 1 }, .discarded)
  else
    let late := stamp + s.tb.lambda < s.tb.te
    let k := (vs.filter (fun v => v.tick ≤ stamp)).length
    let new : Version := { val := val, pending := !late, suspect := late, tick := stamp }
    let s := s.setSlots cell (((vs.take k) ++ new :: vs.drop k).drop 1)
    let ps := if late then s.pendings else putOwner cell ((vs.take k).filter (·.pending)).length owner s.pendings
    let ps := if oldest.pending then dropOwner cell ps else ps
    ({ s with pendings := ps }, if late then .late else .inserted)

/-- The release of an owner finds its version in a cell that is bad: it reads an uncorrectable word, and changes none (R391, R392). -/
def State.releaseBad (s : State) (owner : HomeRef) : Bool :=
  match s.pendings.find? (fun x => x.2 = owner) with
  | none => false
  | some x => s.physBad false x.1 64

/-- PENDING of an owner's version cleared, SUSPECT set where the release says so; an evicted version changes no slot (R316, R317), and
neither does a cell that is bad. -/
def State.clearPending (s : State) (owner : HomeRef) (suspect : Bool) : State :=
  match s.pendings.find? (fun x => x.2 = owner) with
  | none => s
  | some (cell, _) =>
    let k := ((s.pendings.takeWhile (fun x => x.2 ≠ owner)).filter (fun x => x.1 = cell)).length
    let vs := s.slots cell
    let s := { s with pendings := s.pendings.filter (fun x => x.2 ≠ owner) }
    match pendingSlot vs k with
    | none => s
    | some i =>
      if s.physBad false cell 64 then s
      else s.setSlots cell (((upTo 4).zip vs).map (fun x =>
        if x.1 = i then { x.2 with pending := false, suspect := x.2.suspect || suspect } else x.2))

/-- A window's in-flight count falls (R357). -/
def State.windowEnd (s : State) (w : Option (BitVec 7)) : State :=
  match w with
  | some w => s.modWindow w.toNat (fun x => { x with inflight := x.inflight - 1 })
  | none => s

/-! ### STMP (R317 to R319) -/

/-- STMP (R317). -/
def execStmp (d a b : VNum) (wa wb : Bool) (s : State) : Host.Outcome State Fault Refusal :=
  issue (.stmp d a b wa wb) { srcs := srcsAB a b wa wb, dsts := [d], closes := true } (fun c s =>
    if c.part = 0#32 then .ok s
    else
      stopOr (heldStop s) (stopOr (counterStop (s.partyCounter c.u.team c.u.gang .osc) .osc)
        (let n := s.ops.length
         let stamp := BitVec.ofNat 64 s.tb.tl
         let lanes := (upTo 32).map (fun l =>
           if c.part.getLsbD l then ({ stage := .sent, addr := c.src 0 l, val := c.src 1 l } : RemLane) else {})
         let s := s.issueOp c .stmp d [] stamp lanes
         let s := s.writeV c.u d c.part (fun _ => stamp)
         .ok ((lanesOf c.part).foldl (fun s l => s.sendLane n l true) s)))) s

/-- A gang's stamped stores reach one home in issue order, those of one STMP in lane order (R318). -/
def State.stampTurn (s : State) (i l : Nat) : Bool :=
  let o := s.op i
  (upTo i).all (fun j =>
    let x := s.op j
    !(x.kind = .stmp && x.team = o.team && x.gang = o.gang) || (upTo 32).all (fun k => !s.atHome j k))
  && (upTo l).all (fun k => !s.atHome i k)

/-- The stage of a lane that has been inserted: its release may already be on its way. -/
def RemOp.storedStage (o : RemOp) : LaneStage := if o.committed then .releasing o.suspect else .stored

/-- STAMPED_STORE_ARRIVAL (R316, R322). -/
def execStampedStoreArrival (r : HomeReq) (s : State) : Host.Outcome State Fault Refusal :=
  .next (match r with
  | .own i l =>
    let o := s.op i
    let x := o.lane l
    if !s.atHome i l || o.kind ≠ .stmp || !s.stampTurn i l then s
    else if s.tb.tstate = 3#2 then s.setStage i l (.reply (.fault 7#8))
    else match s.ownPlace o.part x .stmp with
      | .held | .spad _ _ => s
      | .fault c => (s.reportLane o.part x .stmp).setStage i l (.reply (.fault (BitVec.ofNat 8 c)))
      | .mem xs win =>
        let cell := stampCell xs
        if s.physBad false cell 64 then s.setStage i l (.reply (.fault 6#8))
        else match s.insertVersion cell x.val.toNat o.stamp.toNat (.own i l) with
          | (s, .discarded) => s.setStage i l (.reply .ack)
          | (s, .late) => s.setStage i l (.reply (.rlate o.stamp))
          | (s, .inserted) =>
            let s := match win with
              | some w => s.modWindow w.1 (fun y => { y with inflight := y.inflight + 1 })
              | none => s
            s.modLane i l (fun y => { y with
              stage := (s.op i).storedStage, cell := cell, window := win.map (fun w => BitVec.ofNat 7 w.1) })
  | .ext r =>
    if r.kind ≠ .stmp then s
    else if s.tb.tstate = 3#2 then s.reply r (.fault 7#8) false
    else match s.judgeWindow r.window r.key .stmp r.off 8 with
      | (.held, _) => s
      | (.fault c, _) => (s.reportWindow r.window r.key .stmp r.off 8).reply r (.fault (BitVec.ofNat 8 c)) false
      | (.spans xs, p) =>
        let cell := stampCell xs
        if s.physBad false cell 64 then s.reply r (.fault 6#8) false
        else match s.insertVersion cell r.val.toNat (r.cmp.toNat % 2 ^ 62) (.ext r.src r.id) with
          | (s, .discarded) => s.reply r .ack false
          | (s, .late) => s.reply r (.rlate r.cmp) false
          | (s, .inserted) =>
            let y : Inbound := { src := r.src, id := r.id, window := r.window, part := p, cell := cell,
                                 va := (s.window r.window.toNat).base + r.off, t := r.cmp, read := false }
            ({ s with inbound := s.inbound ++ [y] } : State).modWindow r.window.toNat (fun w => { w with inflight := w.inflight + 1 }))

/-- A release sent: it is recorded for as long as a failure may still need it (R326); a record that is full makes the module report
itself suspect. -/
def State.recordRelease (s : State) (i l : Nat) : State :=
  let o := s.op i
  if s.suspects.length < Config.suspectEntries then
    { s with suspects := s.suspects ++ [{ addr := (o.lane l).addr, part := o.part, stamp := o.stamp, cell := (o.lane l).cell }] }
  else ({ s with suspectFull := true } : State).notify .suspect

/-- The release of a lane sent to its home (R317, R325). -/
def State.sendRelease (s : State) (i l : Nat) (suspect : Bool) : State :=
  let o := s.op i
  match (o.lane l).stage with
  | .stored => (s.setStage i l (.releasing suspect)).recordRelease i l
  | .sent =>
    let s := s.recordRelease i l
    (match s.engAddr (o.lane l).addr with
      | .pod dev win off => if dev = s.devid then s else s.send (.release dev win off o.stamp suspect)
      | _ => s)
  | _ => s

/-- The releases of an operation sent. -/
def State.sendReleases (s : State) (i : Nat) (suspect : Bool) : State :=
  (upTo 32).foldl (fun s l => s.sendRelease i l suspect) (s.modOp i (fun o => { o with committed := true, suspect := suspect }))

/-- COMMIT_WAIT_END (R317): TE has passed the stamp. -/
def execCommitWaitEnd (op : Nat) (s : State) : Host.Outcome State Fault Refusal :=
  .next (let o := s.op op
  if op < s.ops.length && o.kind = .stmp && !o.committed && o.stamp.toNat < s.tb.te then s.sendReleases op false else s)

/-- STAMPED_RELEASE_ARRIVAL (R317, R322, R325). -/
def execStampedReleaseArrival (r : HomeRef) (suspect : Bool) (s : State) : Host.Outcome State Fault Refusal :=
  .next (match r with
  | .own i l =>
    let o := s.op i
    if !(i < s.ops.length && l < 32) then s
    else match (o.lane l).stage with
      | .releasing sus =>
        let s := s.windowEnd (o.lane l).window
        if s.tb.tstate = 3#2 then s.setStage i l (.reply (.fault 7#8))
        else (s.clearPending r sus).setStage i l (.reply (if s.releaseBad r then .fault 6#8 else if sus then .rlate o.stamp else .ack))
      | _ => s
  | .ext src id =>
    match s.inbound.find? (fun x => x.src = src && x.id = id && !x.read) with
    | none => s
    | some x =>
      let s := ({ s with inbound := s.inbound.filter (fun y => !(y.src = src && y.id = id && !y.read)) } : State).windowEnd (some x.window)
      if s.tb.tstate = 3#2 then s.send (.answer src id (.fault 7#8) false)
      else (s.clearPending r suspect).send (.answer src id (if s.releaseBad r then .fault 6#8 else if suspect then .rlate x.t else .ack) false))

/-! ### LDAT (R320, R321) -/

/-- The condition on a read's time (R320). -/
def timeOk (s : State) (t : Word) : Bool := t.toNat < 2 ^ 62 && t.toNat ≤ s.tb.tl + 2 ^ 24

/-- LDAT (R320): a lane whose time or address is bad faults; the others wait at the reader's port. -/
def execLdat (d a b : VNum) (wa wb : Bool) (s : State) : Host.Outcome State Fault Refusal :=
  issue (.ldat d a b wa wb) { srcs := srcsAB a b wa wb, dsts := [d, d + 1#6] } (fun c s =>
    if c.part = 0#32 then .ok s
    else
      stopOr (heldStop s) (stopOr (counterStop (s.partyCounter c.u.team c.u.gang .olc) .olc)
        (let lane := fun l : Nat =>
           let x : RemLane := { stage := .port, addr := c.src 0 l, val := c.src 1 l }
           if !timeOk s (c.src 1 l) then { x with stage := .reply (.fault 2#8) }
           else match s.route c.t.part (c.src 0 l) true with
             | .fault code => { x with stage := .reply (.fault code) }
             | _ => x
         let lanes := (upTo 32).map (fun l => if c.part.getLsbD l then lane l else ({} : RemLane))
         .ok (s.issueOp c .ldat d [d, d + 1#6] 0#64 lanes)))) s

/-- LDAT_READER_WAIT_END (R320): the reader's TE has passed the time, and the lane is sent. -/
def execLdatReaderWaitEnd (op lane : Nat) (s : State) : Host.Outcome State Fault Refusal :=
  .next (let x := (s.op op).lane lane
  if op < s.ops.length && lane < 32 && x.stage = .port && x.val.toNat < s.tb.te then s.sendLane op lane true else s)

/-- The home's waits of a read at a time have ended: its TE has passed t + Λ, and no PENDING version stands at or before t; a cell that is
bad tells of none, and ends the read with its fault. -/
def State.settled (s : State) (cell t : Nat) : Bool :=
  t + s.tb.lambda < s.tb.te && (s.physBad false cell 64 || (s.slots cell).all (fun v => !(v.pending && v.tick ≤ t)))

/-- The version a read at a time returns, with its status: OK 0, HORIZON 1, SUSPECT 2 (R320). -/
def State.readAt (s : State) (cell t : Nat) : RemAns :=
  if s.physBad false cell 64 then .fault 6#8
  else match ((s.slots cell).filter (fun v => v.tick ≤ t)).getLast? with
    | none => .pair 0#64 1#64
    | some v => .pair (BitVec.ofNat 64 v.val) (if v.suspect then 2#64 else 0#64)

/-- LDAT_SERVE (R320, R323): a read is served from the slots as they stand. -/
def execLdatServe (r : HomeRef) (s : State) : Host.Outcome State Fault Refusal :=
  .next (match r with
  | .own i l =>
    let x := (s.op i).lane l
    if i < s.ops.length && l < 32 && x.stage = .settling && s.settled x.cell x.val.toNat then
      (s.windowEnd x.window).setStage i l (.reply (s.readAt x.cell x.val.toNat))
    else s
  | .ext src id =>
    match s.inbound.find? (fun x => x.src = src && x.id = id && x.read) with
    | none => s
    | some x =>
      if s.settled x.cell x.t.toNat then
        (({ s with inbound := s.inbound.filter (fun y => !(y.src = src && y.id = id && y.read)) } : State).windowEnd
          (some x.window)).send (.answer src id (s.readAt x.cell x.t.toNat) false)
      else s)

/-! ### Suspect marks and a failed clock (R325, R326) -/

/-- SUSPECT set on the retained versions of a stamp in a cell; a mark names a version by its stamp alone (assumption 13: DEDUCED). A cell that
is bad is left as it stands (R392). -/
def State.markCell (s : State) (cell stamp : Nat) : State :=
  let vs := s.slots cell
  if vs.any (fun v => v.tick = stamp) && !s.physBad false cell 64 then
    s.setSlots cell (vs.map (fun v => if v.tick = stamp then { v with suspect := true } else v))
  else s

/-- SUSPECT_MARK (R325, row 3): a mark reaches its home, by this module's partition and address, or through a window. -/
def execSuspectMark (va : Word) (part : Nat) (window : Option (BitVec 7)) (stamp : Word) (s : State) : Host.Outcome State Fault Refusal :=
  let x : Nat × Nat := match window with
    | none => (part, va.toNat)
    | some w => ((s.window w.toNat).part, (s.window w.toNat).base + va.toNat)
  .next (match s.judge x.1 x.2 8 false true true with
    | .spans xs => s.markCell (stampCell xs) stamp.toNat
    | _ => s.reportMalformed x.1 x.2 8)

/-- A suspect mark sent from the record: to another module, or as a step of this one. -/
def State.sendMark (s : State) (x : Suspect) : State :=
  match s.engAddr x.addr with
  | .device va => { s with agenda := s.agenda ++ [.suspectMark (BitVec.ofNat 64 va) x.part none x.stamp] }
  | .pod dev win off =>
    if dev = s.devid then { s with agenda := s.agenda ++ [.suspectMark (BitVec.ofNat 64 off) x.part (some win) x.stamp] }
    else s.send (.mark dev win off x.stamp)
  | _ => s

/-- Entry to FAILED (R325): each row for all operations before the next. -/
def State.enterFailed (s : State) : State :=
  if s.tb.tstate = 3#2 then s
  else
    let released := s.suspects
    let s := { s with tb := { s.tb with tstate := 3#2, rejoin := none } }
    let s := (upTo s.ops.length).foldl (fun s i =>
      if (s.op i).kind = .stmp && !(s.op i).committed then s.sendReleases i true else s) s
    let s := released.foldl State.sendMark s
    { s with ops := s.ops.map (fun o =>
        { o with lanes := o.lanes.map (fun x => if x.stage = .port then { x with stage := .reply (.fault 7#8) } else x) }) }

end Sys2Proof.Machine
end

