-- ==== Sys2Proof/Machine/Matrix.lean ====
section
/-!
DEFINITION. The sign-select array (R142 to R165): MMA and the write of its result, bank words, reservation records and the fills of
OBLD.
-/
namespace Sys2Proof.Machine

/-! ### The arithmetic of one MMA (R143 to R146) -/

/-- The five trits of a packed byte; codes 243 to 255 read as zeros (R106). -/
def tritsOf (b : Byte) : List Int :=
  if 243 ≤ b.toNat then [0, 0, 0, 0, 0] else (upTo 5).map (fun i => ((b.toNat / 3 ^ i % 3 : Nat) : Int) - 1)
/-- The 64 trits of a column of a plane, from its 13 bytes. -/
def columnTrits (bs : List Byte) : List Int := ((bs.map tritsOf).flatten).take 64
/-- Sel(t, x). -/
def sel (t x : Int) : Int := if t = 1 then x else if t = -1 then -x else 0
/-- Σ Sel(trit, A) over a segment of a plane. -/
def planeSum : List Int → List Int → Int
  | t :: ts, x :: xs => sel t x + planeSum ts xs
  | _, _ => 0
/-- S of a segment: the planes in stored order, the most significant first. -/
def segmentSum (planes : List (List Int)) (xs : List Int) : Int := planes.foldl (fun s p => 3 * s + planeSum p xs) 0

/-- An element of a bank in the course of an MMA: its pattern, the causes raised, and whether it has become ∞ or a NaN. -/
structure Elem where
  val : Nat
  causes : Causes := noCause
  inf : Bool := false
  nan : Bool := false
  deriving DecidableEq, Repr

/-- A bank element is an infinity. -/
def isInf32 (v : Nat) : Bool := match widen .f32 false v with
  | .inf _ => true
  | _ => false
/-- A bank element is a NaN. -/
def isNan32 (v : Nat) : Bool := (widen .f32 false v).isNan

/-- An element takes a new pattern. -/
def Elem.put (x : Elem) (r : Nat × Causes) : Elem :=
  { val := r.1, causes := x.causes ||| r.2, inf := x.inf || (isInf32 r.1 && !isInf32 x.val), nan := x.nan || (isNan32 r.1 && !isNan32 x.val) }

/-- −0 becomes +0: no MMA writes −0 to a bank (R146). -/
def bankZero (v : Nat) : Nat := if v = 0x80000000 then 0 else v

/-- RoundF32(acc + S · 2^e, 0): to nearest even, subnormals kept (R145), and never −0 (R146). -/
def accumulate (acc : Nat) (s : Int) (e : Int) : Nat × Causes :=
  let x := widen .f32 false acc
  match nanOf .f32 [x] with
  | some r => r
  | none =>
    let r := sumVal .f32 { rm := 0#2, sat := false, ftz := false } x (.fin (decide (s < 0)) s.natAbs e)
    (bankZero r.1, r.2)

/-- One segment: S under its two scales (R107, R145). -/
def Elem.segment (x : Elem) (s : Int) (ea eb : Nat) : Elem :=
  if ea = 255 || eb = 255 then x.put (0x7FC00000, cScaleNan)
  else x.put (accumulate x.val s ((ea : Int) + eb - 254))

/-- What the array takes from a record for a column: its trits by plane, and its scales. -/
structure Column where
  planes : List (List Int)
  scales : List Byte

/-- An element over the segments of an MMA, K ascending. -/
def MmaOp.element (m : MmaOp) (c : Column) (as : List Int) (sa : Word) (x : Elem) : Elem :=
  let len := min m.la m.lb
  (upTo (64 / len)).foldl (fun x g =>
    x.segment (segmentSum (c.planes.map (fun p => (p.drop (g * len)).take len)) ((as.drop (g * len)).take len))
      (subGet 8 sa (g * len / m.la)) ((c.scales.drop (g * len / m.lb)).headD 0#8).toNat) x

/-- The columns of the tile that an MMA reads: 13 bytes of each plane. -/
def MmaOp.columns (m : MmaOp) : List Column :=
  (upTo 128).map (fun j =>
    { planes := (upTo m.planes).map (fun p => columnTrits ((m.weights.drop (p * 1664 + 13 * j)).take 13)),
      scales := rowGet [] m.scales j })

/-- The 64 elements of a row of A from its registers (R143). -/
def rowElems (regs : List Word) : List Int :=
  (upTo 64).map (fun k => intOf .i8 (subGet 8 (rowGet 0 regs (k / 8)) (k % 8)))

/-- A row of the bank after the MMA. -/
def MmaOp.row (m : MmaOp) (cols : List Column) (regs : List Word) (row : List Half) : List Elem :=
  let as := rowElems regs
  let sa := rowGet 0 regs 8
  ((upTo 128).zip cols).map (fun x =>
    m.element x.2 as sa { val := if m.clear then 0 else (rowGet 0 row x.1).toNat })

/-- The rows of a bank. -/
def Bank.row (b : Bank) (i : Nat) : List Half := ((b.acc.drop (128 * i)).take 128 ++ (upTo 128).map (fun _ => 0#32)).take 128
/-- An element of a bank. -/
def Bank.elem (b : Bank) (i j : Nat) : Half := rowGet 0 (b.row i) j
/-- A bank of which some rows are replaced. -/
def Bank.setRows (b : Bank) (rows : Half) (f : Nat → List Half) : Bank :=
  { b with acc := ((upTo 32).map (fun i => if rows.getLsbD i then f i else b.row i)).flatten }

/-! ### What bank words share (R151 to R154) -/

/-- BANK_NOT_OWNED (R151). -/
def bankStop (c : Ctx) (b : BankNum) : Option Stop :=
  need (b.toNat < c.t.nbanks) (.trap { cause := .bankNotOwned, detail := BitVec.ofNat 64 b.toNat })
/-- An MMA of the bank order has not written the bank (R154). -/
def bankWait (c : Ctx) (b : BankNum) : Option Stop := need (!c.t.mmas.any (fun m => m.bank = b.toNat)) (.wait (.bank b) none)
/-- A parity error stands in the physical bank (R392). -/
def State.bankBad (s : State) (t : Team) (b : BankNum) : Bool := (s.core t.core).badBanks.contains (rowGet 8 t.physBanks b.toNat)
/-- A team's bank changed. -/
def State.modBank (s : State) (u b : Nat) (f : Bank → Bank) : State := s.modTeam u (fun t => { t with banks := rowMod {} t.banks b f })
/-- POISON of a bank: DETAIL bit 7 and the bank's number (R392); the manual gives no producer (assumption 11: DESIGN CHOICE). -/
def bankPoison (s : State) (t : Team) (b : BankNum) : TrapInfo := memPoison s t (128 + b.toNat)
/-- The stop of a word on a poisoned bank. -/
def poisonedStop (s : State) (c : Ctx) (b : BankNum) : Option Stop := need (!(c.t.bank b.toNat).poisoned) (.trap (bankPoison s c.t b))
/-- The stop of MST or MRD that reads an accumulator element found bad: the bank is marked, and the word delivers nothing
(assumption 14: DEDUCED). -/
def badBankStop (s : State) (c : Ctx) (b : BankNum) : Option Stop :=
  need (!s.bankBad c.t b) (.trapIn (bankPoison s c.t b) (s.modBank c.u.team b.toNat (fun x => { x with poisoned := true })))

/-- A record's number in a descriptor or a register. -/
def recNum (w : Word) : BitVec 6 := w.extractLsb' 0 6
/-- The record is LIVE or FILLING for the team (R149). -/
def ObRecord.heldBy (r : ObRecord) (u : Nat) : Bool := (r.state = .live || r.state = .filling) && r.team = u
/-- An MMA of the team still reads the record (R154). -/
def Team.mmaRecord (t : Team) (r : BitVec 6) (cycle : Nat) : Bool := t.mmas.any (fun m => m.record = r.toNat && decide (cycle < m.passEnd))
/-- The wait of OBLD and OBREL: for a fill to end, and for reads of earlier MMAs (R154, R162, R163). -/
def recordWait (s : State) (c : Ctx) (r : BitVec 6) : Option Stop :=
  need ((s.record c.t.home r.toNat).state ≠ .filling && !c.t.mmaRecord r s.cycle) (.wait (.record r) none)

/-! ### MMA (R153 to R156) -/

/-- The N-column block of a B descriptor. -/
def descBlock (w : Word) : Nat := (w.extractLsb' 24 16).toNat
/-- The K-slab. -/
def descSlab (w : Word) : Nat := (w.extractLsb' 8 16).toNat
/-- A B descriptor that names a tile of a record of the team. -/
def ObRecord.takes (r : ObRecord) (u : Nat) (w : Word) : Bool :=
  r.heldBy u && descBlock w < r.cols / 128 && descSlab w < r.rows / 64 && w.extractLsb' 6 2 = 0#2

/-- Bytes of the operand buffer, free where the word is uncorrectable. -/
def State.obufSeen (s : State) (key n : Nat) : List Byte :=
  ((upTo n).zip (memRead s.obuf key n)).map (fun x =>
    if s.bad.obuf.contains ((key + x.1) / 8) then Config.freeByte (s.fresh + key + x.1) else x.2)

/-- Bytes of weights of a record: all its tiles. -/
def ObRecord.weightBytes (r : ObRecord) : Nat := r.cols / 128 * (r.rows / 64) * r.fmt * 1664

/-- The MMA that starts now: the array's passes take 4 cycles for each plane, and the result follows 20 cycles after them. -/
def State.startMma (s : State) (c : Ctx) (bank : BankNum) (a : VNum) (desc : Word) (la : BlockLen) (clear : Bool) : MmaOp :=
  let r := s.record c.t.home (recNum desc).toNat
  let woff := obufKey c.t.home (r.base + (descBlock desc * (r.rows / 64) + descSlab desc) * r.fmt * 1664)
  let soff := (upTo 128).map (fun j => obufKey c.t.home
    (r.base + r.weightBytes + (128 * descBlock desc + j) * (r.rows / r.lb) + 64 * descSlab desc / r.lb))
  { bank := bank.toNat, gang := c.u.gang, pc := c.pc, rows := c.part, clear := clear,
    a := (upTo 32).map (fun l => (regRange a 9).map (fun v => ((c.g.lane l).vreg v).val)),
    la := BlockLen.size la, lb := r.lb, planes := r.fmt, areg := a, record := (recNum desc).toNat,
    weights := s.obufSeen woff (r.fmt * 1664), scales := soff.map (fun o => s.obufSeen o (max 1 (64 / r.lb))),
    woff := woff, soff := soff, gmode := c.g.gmode,
    passEnd := s.cycle + 4 * r.fmt, writeAt := s.cycle + 4 * r.fmt + 20, frozen := false }

/-- The MMA reads an uncorrectable word of the operand buffer. -/
def State.mmaBad (s : State) (m : MmaOp) : Bool :=
  marked s.bad.obuf m.woff (m.planes * 1664) || m.soff.any (fun o => marked s.bad.obuf o (max 1 (64 / m.lb)))

/-- A latch hit: the registers are not read (R155). -/
def latchHit (g : Gang) (a : VNum) (reuse : Bool) : Bool := reuse && g.latch = some a

/-! The array takes MMAs in the order in which they came to issue (R153). -/

/-- A sub-gang, as team and 8 · gang + name, waits at issue for the array of a core. -/
def State.awaitsArray (s : State) (core : Nat) (x : Nat × Nat) : Bool :=
  let t := s.team x.1
  let g := t.gang (x.2 / 8)
  t.live && t.core = core && t.status = .running && (g.slice (lowSlice (g.subgang (x.2 % 8)))).waits = some .array
/-- No other sub-gang came to the array before this one. -/
def State.arrayTurn (s : State) (core : Nat) (me : Nat × Nat) : Bool :=
  ((s.core core).arrayQueue.find? (s.awaitsArray core)).all (fun x => x = me)
/-- The sub-gang takes its place among those that wait for the array. -/
def State.queueArray (s : State) (core : Nat) (me : Nat × Nat) : State :=
  s.modCore core (fun c =>
    let q := c.arrayQueue.filter (s.awaitsArray core)
    { c with arrayQueue := if q.contains me then q else q ++ [me] })
/-- The array's passes belong to the sub-gang until a cycle, and it waits no more. -/
def State.takeArray (s : State) (core : Nat) (me : Nat × Nat) (till : Nat) : State :=
  s.modCore core (fun c => { c with arrayFree := till, arrayQueue := c.arrayQueue.filter (fun x => x ≠ me) })
/-- The issuing sub-gang, as the array's queue names it. -/
def Ctx.subKey (c : Ctx) : Nat × Nat := (c.u.team, 8 * c.u.gang + (c.g.slice (lowSlice c.u.slices)).sub)

/-- MMA (R156): bank, first A register, k register of the B descriptor, disposition, .R, LA and .C. A poisoned bank traps after the reads
of the A registers and before the wait for a fill; while the context is being saved, an MMA of a gang that still runs waits for the array
until the save ends (R164); with .C no element of the bank is read (assumption 38: DEDUCED). -/
def execMma (bank : BankNum) (a : VNum) (kb : KNum) (wa : Bool) (reuse : Bool) (la : BlockLen) (clear : Bool) (s : State) :
    Host.Outcome State Fault Refusal :=
  issue (.mma bank a kb wa reuse la clear)
    { named := regRange a 9, ks := [kb], mode := fun gm => !(gmQmap gm && decide (60 ≤ a.toNat + 8)), closes := true } (fun c s =>
    let desc := c.k kb
    let r := s.record c.t.home (recNum desc).toNat
    stopOr (need (c.active = 0xFFFFFFFF#32) (.trap convergence))
    (stopOr (bankStop c bank)
    (stopOr (need (r.takes c.u.team desc) (.trap { cause := .recordInvalid, detail := desc }))
    (stopOr (if latchHit c.g a reuse then none else firstStop ((regRange a 9).map (fun v => readStop c.g ⟨v, wa⟩ 0xFFFFFFFF#32)))
    (stopOr (poisonedStop s c bank)
    (stopOr (need (r.state ≠ .filling) (.wait (.record (recNum desc)) none))
    (stopOr (need (c.t.status = .running && decide ((s.core c.t.core).arrayFree ≤ s.cycle) && s.arrayTurn c.t.core c.subKey)
      (.wait .array (some (s.queueArray c.t.core c.subKey))))
    (let m := s.startMma c bank a desc la clear
     let bad := s.mmaBad m || (!clear && s.bankBad c.t bank)
     let s := if s.mmaBad m then { s with fresh := s.fresh + 2 ^ 30 } else s
     let s := if bad then s.modBank c.u.team bank.toNat (fun b => { b with poisoned := true }) else s
     let s := s.modTeam c.u.team (fun t => { t with mmas := t.mmas ++ [m] })
     let s := s.takeArray c.t.core c.subKey m.passEnd
     let s := s.modGang c.u.team c.u.gang (fun g => { g with latch := if reuse then some a else none })
     .ok (s.meter c.t.part 1 m.planes))))))))) s

/-- The rows an MMA writes: row numbers with their elements. -/
def MmaOp.result (m : MmaOp) (b : Bank) : List (Nat × List Elem) :=
  let cols := m.columns
  (lanesOf m.rows).map (fun i => (i, m.row cols (rowGet [] m.a i) (b.row i)))

/-- The row `i` of a result. -/
def resultRow (rs : List (Nat × List Elem)) (i : Nat) : List Elem := ((rs.find? (fun r => r.1 = i)).map (·.2)).getD []

/-- The MMA's result enters its bank, and its causes are logged with the rows that raised them (R145, R160). -/
def State.writeMma (s : State) (u : Nat) (m : MmaOp) : State :=
  let rs := m.result ((s.team u).bank m.bank)
  let pack := if m.weights.any (fun b => 243 ≤ b.toNat) then cBadpack else noCause
  let s := s.modBank u m.bank (fun b =>
    { b.setRows m.rows (fun i => (resultRow rs i).map (fun e => BitVec.ofNat 32 e.val)) with
      done := b.done + 1#16
      inf := b.inf || rs.any (fun r => r.2.any (·.inf))
      nan := b.nan || rs.any (fun r => r.2.any (·.nan)) })
  let s := s.raiseIn m.gmode u m.gang m.pc m.rows (fun i => (resultRow rs i).foldl (fun x e => x ||| e.causes) pack)
  s.modTeam u (fun t => { t with mmas := t.mmas.filter (fun x => x ≠ m) })

/-- The result due next on a core: team and MMA, the one that started first. -/
def State.mmaDue (s : State) (core : Nat) : Option (Nat × MmaOp) :=
  (((upTo s.teams.length).filter (fun u => (s.team u).core = core)).flatMap (fun u =>
    ((s.team u).mmas.filter (fun m => !m.frozen && decide (m.writeAt ≤ s.cycle))).map (fun m => (u, m)))).foldl
    (fun (best : Option (Nat × MmaOp)) x =>
      match best with
      | none => some x
      | some b => if x.2.writeAt < b.2.writeAt then some x else some b) none

/-- MMA_RESULT_WRITE (R153): the array's oldest MMA that is due writes its result. -/
def execMmaResultWrite (core : Nat) (s : State) : Host.Outcome State Fault Refusal :=
  .next (match s.mmaDue core with
  | some (u, m) => s.writeMma u m
  | none => s)

/-! ### Bank words (R157 to R160) -/

/-- MCLR (R157): a full clear ends the bank's poison (R392). -/
def execMclr (bank : BankNum) (s : State) : Host.Outcome State Fault Refusal :=
  issue (.mclr bank) {} (fun c s =>
    stopOr (bankStop c bank) (stopOr (bankWait c bank)
    (let all := c.part = 0xFFFFFFFF#32
     let s := s.modBank c.u.team bank.toNat (fun b =>
       { b.setRows c.part (fun _ => (upTo 128).map (fun _ => 0#32)) with
         done := 0#16, inf := false, nan := false, poisoned := b.poisoned && !all })
     .ok (if all then s.modCore c.t.core (fun x => { x with badBanks := x.badBanks.filter (· ≠ rowGet 8 c.t.physBanks bank.toNat) })
          else s)))) s

/-- A bank element delivered in ET: a copy for F32, else converted with no operand flush (R158). -/
def deliverElem (t : ElemType) (md : Modes) (v : Nat) : Nat × Causes :=
  if t = .f32 then (v, noCause)
  else match widen .f32 false v with
  | .fin neg m e => roundTo t md neg m e
  | _ => floatToFloat .f32 t md v

/-- MST (R158): rows of the participating lanes, ascending; a bank not owned is reported before the address (assumption 38: DEDUCED). -/
def execMst (bank : BankNum) (ka : KNum) (s : State) : Host.Outcome State Fault Refusal :=
  issue (.mst bank ka) { ks := [ka], mode := readsEt bigFloat } (fun c s =>
    let t := c.et
    let w := t.width / 8
    let a := c.k ka
    let rowAt := fun i => a + BitVec.ofNat 64 (i * 128 * w)
    let b := c.t.bank bank.toNat
    let row := fun i => (b.row i).map (fun e => deliverElem t c.modes e.toNat)
    stopOr (bankStop c bank) (stopOr (uniformStop c 64 (4096 * w) a) (stopOr (poisonedStop s c bank) (stopOr (bankWait c bank)
    (stopOr (if c.det then ((lanesOf c.part).findSome? (fun i => c.t.raceAt c.u.gang (rowAt i).toNat (128 * w) .write)).map (fun x =>
        .trap (raceTrap x none)) else none)
    (stopOr (badBankStop s c bank)
    (let s := s.ownStore c.u (fun s => (lanesOf c.part).foldl (fun s i =>
       s.spadWrite (c.t.key (rowAt i).toNat) (((row i).map (fun x => leBytes w x.1)).flatten)) s)
     let s := s.raise c.u.team c.u.gang c.pc c.part (fun i => (row i).foldl (fun x e => x ||| e.2) noCause)
     .ok (if c.det then s.modTeam c.u.team (fun t => (lanesOf c.part).foldl (fun t i =>
       t.recordLines c.u.gang (rowAt i).toNat (128 * w) .write) t) else s)))))))) s

/-- MRD (R159): two columns of the bank's bits into each participating lane. -/
def execMrd (d : VNum) (bank : BankNum) (kb : KNum) (s : State) : Host.Outcome State Fault Refusal :=
  issue (.mrd d bank kb) { ks := [kb], dsts := [d] } (fun c s =>
    let j := 2 * ((c.k kb).extractLsb' 0 6).toNat
    let b := c.t.bank bank.toNat
    stopOr (bankStop c bank) (stopOr (poisonedStop s c bank) (stopOr (bankWait c bank) (stopOr (badBankStop s c bank)
    (.ok (s.writeV c.u d c.part (fun l => b.elem l (j + 1) ++ b.elem l j))))))) s

/-- MSTAT (R160). -/
def execMstat (kd : KNum) (bank : BankNum) (s : State) : Host.Outcome State Fault Refusal :=
  issue (.mstat kd bank) {} (fun c s =>
    let b := c.t.bank bank.toNat
    stopOr (bankStop c bank)
    (.ok (s.writeK c.u kd (BitVec.ofNat 64 (b.done.toNat * 2 ^ 16 + (if b.inf then 1024 else 0) + (if b.nan then 512 else 0)
      + (c.t.mmas.filter (fun m => m.bank = bank.toNat)).length))))) s

/-! ### Reservation records (R147 to R149, R161 to R163) -/

/-- The length of a record: weights and scales, rounded up to 256 (R148). -/
def recordLen (rows cols fmt lb : Nat) : Nat := ((cols / 128 * (rows / 64) * fmt * 1664 + cols * rows / lb) + 255) / 256 * 256

/-- The block length of an LB code. -/
def lbOf (code : Nat) : Nat := 16 * 2 ^ code

/-- A request whose fields are malformed (R147). -/
def requestBad (b : List Byte) : Bool :=
  let rows := field b 0 4
  let cols := field b 4 4
  !([1, 3, 5].contains (field b 8 1)) || 3 < field b 9 1 || rows % 64 ≠ 0 || rows % lbOf (min 3 (field b 9 1)) ≠ 0 || rows < 64
    || cols % 128 ≠ 0 || cols < 128 || field b 10 6 ≠ 0 || field b 24 8 ≠ 0

/-- The spans of a core's operand buffer that records hold. -/
def State.obufSpans (s : State) (core : Nat) : List (Nat × Nat) :=
  ((upTo Config.coreRecords).filter (fun i => (s.record core i).state ≠ .free)).map (fun i =>
    ((s.record core i).base, (s.record core i).base + (s.record core i).len))
/-- The result of OBRES, with the record it reserves (R161). -/
def State.reserve (s : State) (u core : Nat) (a : Nat) (b : List Byte) : Word × Option (Nat × ObRecord) :=
  let res := BitVec.ofNat 64 (field b 16 8)
  let x := s.record core (recNum res).toNat
  if !res.getLsbD 63 && x.heldBy u && x.req.toNat = a then (res, none)
  else
    let fail : Nat → Word × Option (Nat × ObRecord) := fun code => (BitVec.ofNat 64 (2 ^ 63 + code), none)
    let rows := field b 0 4
    let cols := field b 4 4
    let lb := lbOf (field b 9 1)
    if requestBad b then fail 3
    else match (upTo Config.coreRecords).find? (fun i => (s.record core i).state = .free) with
    | none => fail 1
    | some r =>
      let len := recordLen rows cols (field b 8 1) lb
      match lowestFit 256 (s.obufSpans core) len Config.operandBytes 65 0 with
      | none => fail 2
      | some base =>
        (BitVec.ofNat 64 (base * 2 ^ 40 + r),
         some (r, { state := .live, team := u, rows := rows, cols := cols, fmt := field b 8 1, lb := lb,
                    req := BitVec.ofNat 64 a, base := base, len := len }))

/-- The state with a record reserved: its contents are free until they are filled (assumption 1: DESIGN CHOICE). -/
def State.reserved (s : State) (core : Nat) (new : Option (Nat × ObRecord)) : State :=
  match new with
  | none => s
  | some (r, x) => { s.modRecord core r (fun _ => x) with
      obuf := memWrite s.obuf (obufKey core x.base) ((upTo x.len).map (fun i => Config.freeByte (s.fresh + i)))
      bad := { s.bad with obuf := unmark s.bad.obuf (obufKey core x.base) x.len }
      fresh := s.fresh + x.len }

/-- OBRES (R161): in the records and the operand buffer of the team's home core, wherever the team resides (assumption 38: DEDUCED); a bad
word of the request block traps as for KLD (assumption 11: DEDUCED). -/
def execObres (kd ka : KNum) (s : State) : Host.Outcome State Fault Refusal :=
  issue (.obres kd ka) { ks := [ka] } (fun c s =>
    let a := c.k ka
    let key := c.t.key a.toNat
    let rd := s.spadSeen key 32
    let res := rd.2.reserve c.u.team c.t.home a.toNat rd.1
    stopOr (uniformStop c 32 32 a) (stopOr (uniformRace c 32 a .read) (stopOr (badStop s c a 32)
    (.ok ((((rd.2.reserved c.t.home res.2).ownStore c.u (fun s => s.spadWrite (key + 16) (leBytes 8 res.1.toNat))).writeK c.u kd
      res.1).recordRange c 32 a .read))))) s

/-- OBREL (R162). -/
def execObrel (ka : KNum) (s : State) : Host.Outcome State Fault Refusal :=
  issue (.obrel ka) { ks := [ka] } (fun c s =>
    let r := recNum (c.k ka)
    if !(s.record c.t.home r.toNat).heldBy c.u.team then .ok s
    else stopOr (recordWait s c r)
      (.ok (s.modRecord c.t.home r.toNat (fun x => { x with state := .quarantined, by_ := c.u.gang })))) s

/-- OBLD (R163): RACE is looked for after the range and before the wait (assumption 38: DEDUCED); a bad word of the source traps as for KLD
(assumption 11: DEDUCED). -/
def execObld (ka kb : KNum) (s : State) : Host.Outcome State Fault Refusal :=
  issue (.obld ka kb) { ks := [ka, kb] } (fun c s =>
    let r := recNum (c.k ka)
    let b := c.k kb
    let x := s.record c.t.home r.toNat
    let key := c.t.key b.toNat
    stopOr (need (b.toNat % 64 = 0) (.trap { cause := .misaligned, detail := b }))
    (stopOr (need (x.heldBy c.u.team) (.trap { cause := .recordInvalid, detail := BitVec.ofNat 64 r.toNat }))
    (stopOr (need (inWindow c.t b x.len) (.trap { cause := .scratchRange, detail := b }))
    (stopOr (uniformRace c x.len b .read)
    (stopOr (recordWait s c r)
    (stopOr (badStop s c b x.len)
    (let bs := (s.spadSeen key x.len).1
     let s := (s.spadSeen key x.len).2
     .ok ((s.modRecord c.t.home r.toNat (fun x =>
       { x with state := .filling, by_ := c.u.gang, fillEnd := s.cycle + (x.len + 127) / 128, src := bs, srcKey := key,
                seen := bs })).recordRange c x.len b .read)))))))) s

/-- A fill has come to its end; the fill of a context that is saved stands (R165). -/
def State.fillDue (s : State) (core rec : Nat) : Bool :=
  let r := s.record core rec
  r.state = .filling && r.fillEnd ≤ s.cycle && (s.team r.team).status ≠ .saved

/-- OBLD_FILL_END (R163): the last byte has been written, and the record is LIVE. -/
def execObldFillEnd (core rec : Nat) (s : State) : Host.Outcome State Fault Refusal :=
  .next (let r := s.record core rec
  if s.fillDue core rec then
    let s := s.lookFill core rec
    (s.obufWrite (obufKey core r.base) (s.record core rec).src).modRecord core rec (fun r =>
      { r with state := .live, src := [], seen := [] })
  else s)

end Sys2Proof.Machine
end

