-- ==== Sys2Proof/Machine/Mode.lean ====
section
/-!
DEFINITION. Mode and system words (R72): SETMODE, SETMK, GETMODE, CSRR, CSRW with the commands of INVST, TRAP and INSTAR, and the
rewinding of a gang to its INSTAR (R382).
-/
namespace Sys2Proof.Machine

/-! ### GMODE (R69) -/

/-- LegalMode(m) (R69). -/
def legalMode (m : Half) : Bool :=
  m.extractLsb' 22 10 = 0#10 && m.extractLsb' 14 2 = 0#2 && (m.extractLsb' 0 4 : BitVec 4).toNat ≤ 13
    && !(m.extractLsb' 8 3 = 0#3 && m.getLsbD 11)

/-- GMODE written, or the trap that leaves it unchanged. -/
def setGmode (c : Ctx) (ok : Bool) (new : Half) (s : State) : Except Stop State :=
  if ok && legalMode new then .ok (s.modGang c.u.team c.u.gang (fun g => { g with gmode := new }))
  else .error (.trap (illegalModeOf c.word new))

/-- SETMODE (R69). -/
def execSetmode (ka : KNum) (s : State) : Host.Outcome State Fault Refusal :=
  issue (.setmode ka) { ks := [ka] } (fun c s =>
    setGmode c ((c.k ka).extractLsb' 32 32 = 0#32) ((c.k ka).setWidth 32) s) s

/-- SETMK (R69). -/
def execSetmk (ka kb : KNum) (s : State) : Host.Outcome State Fault Refusal :=
  issue (.setmk ka kb) { ks := [ka, kb] } (fun c s =>
    let a : Half := (c.k ka).setWidth 32
    let b : Half := (c.k kb).setWidth 32
    setGmode c true ((c.g.gmode &&& ~~~ b) ||| (a &&& b)) s) s

/-- GETMODE (R69). -/
def execGetmode (kd : KNum) (s : State) : Host.Outcome State Fault Refusal :=
  issue (.getmode kd) {} (fun c s => .ok (s.writeK c.u kd (c.g.gmode.setWidth 64))) s

/-! ### Control and status registers (R18 to R20) -/

/-- The value of a uniform register for a gang (R18); CORE and CLUSTER are the home core's (R209). -/
def csrUniform (s : State) (c : Ctx) (r : Csr) : Word :=
  let n : Nat := match r with
    | .gang => c.u.gang
    | .team => c.t.num
    | .grid => c.t.grid
    | .core => c.t.home
    | .cluster => c.t.home / 4
    | .devid => s.devid.toNat
    | .depth => (s.grid c.t.grid).depth
    | .ngang => c.t.ngang
    | .nteam => (s.grid c.t.grid).desc.teams
    | .ncluster => s.nclusters
    | .nchan => s.nchan
    | .te => s.tb.te
    | .tl => s.tb.tl
    | .unc => s.tb.eps
    | .tstate => s.tb.tstate.toNat
    | .dbpc i => (c.g.comparator i.toNat).toNat
    | .lane | .slice | .invst => 0
  BitVec.ofNat 64 n

/-- The value of a per-lane register. -/
def csrLane (c : Ctx) (r : Csr) (l : Nat) : Word :=
  match r with
  | .lane => BitVec.ofNat 64 l
  | .slice => BitVec.ofNat 64 (l / 4)
  | _ => (c.g.lane l).invst

/-- The register a CSR number names; the numbers R18 reserves do not decode. -/
def csrOf (n : BitVec 12) : Csr := (Csr.ofNum n).getD .lane

/-- CSRR (R18 to R20). -/
def execCsrr (d : BitVec 6) (csr : BitVec 12) (s : State) : Host.Outcome State Fault Refusal :=
  let r := csrOf csr
  issue (.csrr d csr) { dsts := if r.perLane then [d] else [], allActive := true } (fun c s =>
    if r.perLane then .ok (s.writeV c.u d c.active (fun l => csrLane c r l))
    else .ok (s.writeK c.u (kNum d) (csrUniform s c r))) s

/-- ACTIVE, ITER and STATUS of INVST: bits 8:0 (R171). -/
def invstState (w : Word) : BitVec 9 := w.extractLsb' 0 9
/-- INVST with its state bits replaced. -/
def invstWith (w : Word) (st : BitVec 9) : Word := (w &&& ~~~ 0x1FF#64) ||| st.setWidth 64
/-- INVST with VIEW replaced. -/
def invstView (w : Word) (v : Half) : Word := v ++ (w.setWidth 32 : Half)

/-- A value written to INVST is one of the commands of R171. -/
def invstLegal (v : Word) : Bool :=
  let cmd := (v.extractLsb' 61 3 : BitVec 3).toNat
  let n := (v.extractLsb' 32 2 : BitVec 2)
  v.extractLsb' 34 27 = 0#27 &&
  (match cmd with
    | 0 => n = 0#2 && v.extractLsb' 9 23 = 0#23
    | 4 | 5 => true
    | 6 | 7 => v.extractLsb' 0 32 = 0#32
    | _ => false)

/-- Command 0: ACTIVE, ITER and STATUS replaced. -/
def Lane.invstSet (x : Lane) (st : BitVec 9) : Lane := { x with invst := invstWith x.invst st }
/-- Command 4: the low endpoint of a bracket loaded, and the search state cleared. -/
def Lane.invstLo (x : Lane) (n : BitVec 2) (w : Half) : Lane :=
  { x.setB n (((x.bracket n).extractLsb' 32 32 : Half) ++ w) with invst := invstWith x.invst 0#9 }
/-- Command 5: the high endpoint. -/
def Lane.invstHi (x : Lane) (n : BitVec 2) (w : Half) : Lane :=
  { x.setB n (w ++ ((x.bracket n).setWidth 32 : Half)) with invst := invstWith x.invst 0#9 }
/-- Command 6: the low endpoint copied into VIEW. -/
def Lane.invstSeeLo (x : Lane) (n : BitVec 2) : Lane := { x with invst := invstView x.invst ((x.bracket n).setWidth 32) }
/-- Command 7: the high endpoint copied into VIEW. -/
def Lane.invstSeeHi (x : Lane) (n : BitVec 2) : Lane := { x with invst := invstView x.invst ((x.bracket n).extractLsb' 32 32) }

/-- The command a value stands for, in a lane. -/
def Lane.invstWrite (x : Lane) (v : Word) : Lane :=
  let n : BitVec 2 := v.extractLsb' 32 2
  match (v.extractLsb' 61 3 : BitVec 3).toNat with
  | 0 => x.invstSet (invstState v)
  | 4 => x.invstLo n (v.setWidth 32)
  | 5 => x.invstHi n (v.setWidth 32)
  | 6 => x.invstSeeLo n
  | _ => x.invstSeeHi n

/-- CSRW (R19, R171, R245): a register that only reads is named and not read; the trap of a write that a CSR rule forbids reports step 0 (R369). -/
def execCsrw (a : BitVec 6) (csr : BitVec 12) (s : State) : Host.Outcome State Fault Refusal :=
  let r := csrOf csr
  issue (.csrw a csr)
    { srcs := if r.perLane && r.writable then [⟨a, false⟩] else [], own := if r.perLane && !r.writable then [⟨a, false⟩] else [],
      named := if r.perLane then [a] else [],
      ks := if r.perLane then [] else [kNum a], allActive := true } (fun c s =>
    match r with
    | .invst =>
      let bad := maskOf (fun l => c.active.getLsbD l && !invstLegal (c.src 0 l))
      if bad ≠ 0#32 then .error (.trap { illegalAt c.word 0 with lanes := some bad })
      else .ok (s.modGang c.u.team c.u.gang (fun g => g.modLanes c.active (fun l x => x.invstWrite (c.src 0 l))))
    | .dbpc i =>
      let v := c.k (kNum a)
      if v.extractLsb' 48 16 ≠ 0#16 || v.getLsbD 1 then .error (.trap (illegalAt c.word 0))
      else .ok (s.modGang c.u.team c.u.gang (fun g => { g with dbpc := rowPut 0 g.dbpc i.toNat v }))
    | _ => .error (.trap (illegalAt c.word 0))) s

/-- The act of one INVST command in every active lane of the issuing unit: what a CSRW to INVST that carries the command in each
lane is made of (R171). -/
def invstAct (f : Lane → Lane) (s : State) : Host.Outcome State Fault Refusal :=
  match s.issuer with
  | none => .next s
  | some u =>
    if s.issuable u && u.gang ≠ 16 then
      .next (s.modGang u.team u.gang (fun g => g.modLanes (g.activeOf u.slices) (fun _ x => f x)))
    else .next s

/-- INVST command 0 (R171). -/
def execInvstSetState (st : BitVec 9) (s : State) : Host.Outcome State Fault Refusal := invstAct (fun x => x.invstSet st) s
/-- INVST command 4 (R171). -/
def execInvstLoadLo (n : BitVec 2) (x : Half) (s : State) : Host.Outcome State Fault Refusal := invstAct (fun y => y.invstLo n x) s
/-- INVST command 5 (R171). -/
def execInvstLoadHi (n : BitVec 2) (x : Half) (s : State) : Host.Outcome State Fault Refusal := invstAct (fun y => y.invstHi n x) s
/-- INVST command 6 (R171). -/
def execInvstViewLo (n : BitVec 2) (s : State) : Host.Outcome State Fault Refusal := invstAct (fun y => y.invstSeeLo n) s
/-- INVST command 7 (R171). -/
def execInvstViewHi (n : BitVec 2) (s : State) : Host.Outcome State Fault Refusal := invstAct (fun y => y.invstSeeHi n) s

/-! ### TRAP and INSTAR -/

/-- TRAP (R374). -/
def execTrap (code : BitVec 24) (s : State) : Host.Outcome State Fault Refusal :=
  issue (.trap code) {} (fun _ _ => .error (.trap { cause := .softTrap, detail := code.setWidth 64 })) s

/-- Words fetched from an address, up to the first that cannot be. -/
def State.fetchWords (s : State) (p : Nat) (pc : Addr) : Nat → Except Fetched (List Half)
  | 0 => .ok []
  | n + 1 =>
    match s.fetch p pc with
    | .word w => (State.fetchWords s p (pc + 4#64) n).map (w :: ·)
    | f => .error f

/-- What the fetch of words leaves, up to the first that cannot be run. -/
def State.noteWords (s : State) (p : Nat) (pc : Addr) : Nat → State
  | 0 => s
  | n + 1 =>
    match s.fetch p pc with
    | .word _ => (s.noteFetch p pc).noteWords p (pc + 4#64) n
    | _ => s.noteFetch p pc

/-- A stop for a fetch that gives no word (R235, R349). -/
def fetchStop (word : Half) (f : Fetched) (s : State) : Stop :=
  match f with
  | .held => .wait .fetch none
  | _ => .trapIn (illegalAt word 0) s

/-- The snapshot of a gang at an INSTAR (R377). -/
def Gang.snapshot (g : Gang) (pc : Addr) : Snapshot where
  pc := pc
  slices := (upTo 8).map (fun i =>
    let x := g.slice i
    { pc := pc, m := x.m, x := x.x, rc := x.rc, stack := x.stack, ret := x.ret })
  levels := g.levels
  lc := g.lc
  gmode := g.gmode
  preds := (upTo 32).map (fun l => (g.lane l).p)

/-- A gang rewound to its INSTAR: the registers the masks name stay, every other is zero, FULL and unpoisoned as a restore makes
it, and control goes back to the snapshot; counters, brackets and INVST stand (R382). A producer still outstanding into a register
that is discarded finds no register that awaits it. -/
def Gang.rewind (g : Gang) : Gang :=
  let i := g.instar
  let g := g.modLanes 0xFFFFFFFF#32 (fun l x =>
    { x with
      v := (upTo 64).map (fun r => if i.vmask.getLsbD r then rowGet {} x.v r else {})
      p := rowGet 0 i.snap.preds l })
  { g.control i.snap with
    k := (upTo 32).map (fun r => if i.kmask.getLsbD r then rowGet 0 g.k r else 0#64)
    kbad := g.kbad &&& i.kmask
    searches := []
    latch := none
    instar := { i with body := none, vdirty := 0, kdirty := 0 } }

/-- INSTAR (R377): a header that breaks R378 is reported as step 1, one that cannot be fetched as step 0 (assumption 17: DEDUCED); in a context that is being saved, the gang rewinds here (R381). -/
def execInstar (off : BitVec 24) (s : State) : Host.Outcome State Fault Refusal :=
  issue (.instar off) {} (fun c s =>
    if !c.g.whole c.u.slices then .ok s
    else
      let at_ := c.pc + (off.signExtend 64 <<< 2)
      match s.fetchWords c.t.part at_ 4 with
      | .error f => .error (fetchStop c.word f (s.noteWords c.t.part at_ 4))
      | .ok h =>
        let s := s.noteWords c.t.part at_ 4
        let w := fun i => rowGet (0#32) h i
        if (w 3).extractLsb' 8 24 ≠ 0#24 then .error (.trapIn (illegalAt c.word 1) s)
        else
          let s := s.freeQuarantined c.u.team c.u.gang
          let s := s.modGang c.u.team c.u.gang (fun g =>
            { g with instar := { rewindable := true, snap := g.snapshot (c.pc + 4#64), recipe := at_, blen := (w 3).toNat, vmask := w 1 ++ w 0,
                                 kmask := w 2, vdirty := 0, kdirty := 0 } })
          match c.t.status with
          | .saving _ => .ok (s.modTeam c.u.team (fun t => { t with rewound := t.rewound ||| (1#16 <<< c.u.gang) }))
          | _ => .ok s) s

end Sys2Proof.Machine
end

