-- ==== Sys2Proof/Machine/Special.lean ====
section
/-!
DEFINITION. The special functions (R77, R124 to R127): SQRT, and the seven that a table and a polynomial in F64 compute. An F64
value is an integer of at most 53 bits times a power of two; no intermediate of R126 leaves the exponent range of F64, and the
scalings that R126 calls exact are exact here.
-/
namespace Sys2Proof.Machine

/-! ### F64 operations to nearest-even (R126) -/

/-- The real m · 2^e. -/
structure Dyad where
  m : Int
  e : Int
  deriving DecidableEq, Repr

/-- RoundF64 of an exact value. -/
def Dyad.round (x : Dyad) : Dyad :=
  let n := x.m.natAbs
  let q := x.e + bitLen n - 53
  if q ≤ x.e then x
  else
    let r := roundAt 0#2 false n x.e q
    { m := if x.m < 0 then -(r.1 : Int) else r.1, e := q }
/-- The exact product. -/
def Dyad.prod (x y : Dyad) : Dyad := { m := x.m * y.m, e := x.e + y.e }
/-- The exact sum. -/
def Dyad.plus (x y : Dyad) : Dyad :=
  let e := if x.e ≤ y.e then x.e else y.e
  { m := x.m * 2 ^ (x.e - e).toNat + y.m * 2 ^ (y.e - e).toNat, e := e }
/-- The value negated. -/
def Dyad.negate (x : Dyad) : Dyad := { x with m := -x.m }
/-- ⊗. -/
def Dyad.mul (x y : Dyad) : Dyad := (x.prod y).round
/-- ⊕. -/
def Dyad.add (x y : Dyad) : Dyad := (x.plus y).round
/-- ⊖. -/
def Dyad.sub (x y : Dyad) : Dyad := (x.plus y.negate).round
/-- fma. -/
def Dyad.fma (x y z : Dyad) : Dyad := ((x.prod y).plus z).round
/-- ⊘ of positive values. -/
def Dyad.div (x y : Dyad) : Dyad :=
  let q := quotient x.m.natAbs x.e y.m.natAbs y.e
  ({ m := q.1, e := q.2 } : Dyad).round
/-- The value scaled by 2ⁿ. -/
def Dyad.scale (x : Dyad) (n : Int) : Dyad := { x with e := x.e + n }
/-- An integer. -/
def Dyad.ofInt (n : Int) : Dyad := { m := n, e := 0 }
/-- The value of an F64 pattern that is finite. -/
def Dyad.ofBits (v : Nat) : Dyad :=
  match widen .f64 false v with
  | .fin n m e => { m := if n then -(m : Int) else m, e := e }
  | _ => { m := 0, e := 0 }
/-- RoundInt: to an integer with ties to even. -/
def Dyad.toInt (x : Dyad) : Int := (roundInt 0#2 (decide (x.m < 0)) x.m.natAbs x.e).1
/-- The order of two values. -/
def Dyad.lt (x y : Dyad) : Bool := decide ((x.plus y.negate).m < 0)
/-- Horner's rule with fma, from coefficients with the lowest first. -/
def horner (r : Dyad) : List Dyad → Dyad
  | [] => Dyad.ofInt 0
  | [c] => c
  | c :: t => (horner r t).fma r c
/-- A list of patterns as values. -/
def dyads (l : List Nat) : List Dyad := l.map Dyad.ofBits

/-! ### Tables and coefficients -/

/-- Piece 0 of `expTable`. -/
def expTable0 : List Nat :=
  [0x3FE6A09E667F3BCD, 0x3FE6DFB23C651A2F, 0x3FE71F75E8EC5F74, 0x3FE75FEB564267C9, 0x3FE7A11473EB0187,
   0x3FE7E2F336CF4E62, 0x3FE82589994CCE13, 0x3FE868D99B4492ED, 0x3FE8ACE5422AA0DB, 0x3FE8F1AE99157736,
   0x3FE93737B0CDC5E5, 0x3FE97D829FDE4E50, 0x3FE9C49182A3F090, 0x3FEA0C667B5DE565, 0x3FEA5503B23E255D,
   0x3FEA9E6B5579FDBF, 0x3FEAE89F995AD3AD, 0x3FEB33A2B84F15FB, 0x3FEB7F76F2FB5E47, 0x3FEBCC1E904BC1D2,
   0x3FEC199BDD85529C, 0x3FEC67F12E57D14B, 0x3FECB720DCEF9069, 0x3FED072D4A07897C, 0x3FED5818DCFBA487,
   0x3FEDA9E603DB3285, 0x3FEDFC97337B9B5F, 0x3FEE502EE78B3FF6, 0x3FEEA4AFA2A490DA, 0x3FEEFA1BEE615A27,
   0x3FEF50765B6E4540, 0x3FEFA7C1819E90D8, 0x3FF0000000000000]
/-- Piece 1 of `expTable`. -/
def expTable1 : List Nat :=
  [0x3FF02C9A3E778061, 0x3FF059B0D3158574, 0x3FF0874518759BC8, 0x3FF0B5586CF9890F, 0x3FF0E3EC32D3D1A2,
   0x3FF11301D0125B51, 0x3FF1429AAEA92DE0, 0x3FF172B83C7D517B, 0x3FF1A35BEB6FCB75, 0x3FF1D4873168B9AA,
   0x3FF2063B88628CD6, 0x3FF2387A6E756238, 0x3FF26B4565E27CDD, 0x3FF29E9DF51FDEE1, 0x3FF2D285A6E4030B,
   0x3FF306FE0A31B715, 0x3FF33C08B26416FF, 0x3FF371A7373AA9CB, 0x3FF3A7DB34E59FF7, 0x3FF3DEA64C123422,
   0x3FF4160A21F72E2A, 0x3FF44E086061892D, 0x3FF486A2B5C13CD0, 0x3FF4BFDAD5362A27, 0x3FF4F9B2769D2CA7,
   0x3FF5342B569D4F82, 0x3FF56F4736B527DA, 0x3FF5AB07DD485429, 0x3FF5E76F15AD2148, 0x3FF6247EB03A5585,
   0x3FF6623882552225, 0x3FF6A09E667F3BCD]
/-- 2^(j/64) for j from −32 to 32, as F64 patterns (R126). -/
def expTable : List Nat :=
  expTable0 ++ expTable1
/-- Piece 0 of `logTable`. -/
def logTable0 : List Nat :=
  [0x0000000000000000, 0x3F86FE50B6EF085D, 0x3F96E79685C2D212, 0x3FA11CD1D513341B, 0x3FA6BAD3758EFD81,
   0x3FAC4DFAB90AAB6A, 0x3FB0EB389FA29F9D, 0x3FB3AA2FDD27F1BF, 0x3FB663F6FAC91318, 0x3FB918A16E46335E,
   0x3FBBC84240ADABB9, 0x3FBE72EC117FA5AD, 0x3FC08C588CDA79E5, 0x3FC1DCD197552B7D, 0x3FC32AE9E278AE19,
   0x3FC476A9F983F74D, 0x3FC5C01A39FBD68B, 0x3FC70742D4EF0280, 0x3FC84C2BD02F03B6, 0x3FC98EDD077E70E1,
   0x3FCACF5E2DB4EC91, 0x3FCC0DB6CDD94DEF, 0x3FCD49EE4C32596C, 0x3FCE840BE74E6A4D, 0x3FCFBC16B902680D,
   0x3FD0790ADBB03009, 0x3FD11307DAD30B74, 0x3FD1AC05B291F070, 0x3FD24407AB0E073A, 0x3FD2DB10FC4D9AAE,
   0x3FD37124CEA4CDED, 0x3FD406463B1B0448, 0x3FD49A784BCD1B8A]
/-- Piece 1 of `logTable`. -/
def logTable1 : List Nat :=
  [0x3FD52DBDFC4C96B5, 0x3FD5C01A39FBD689, 0x3FD6518FE4677BA6, 0x3FD6E221CD9D0CDD, 0x3FD771D2BA7EFB3C,
   0x3FD800A563161C53, 0x3FD88E9C72E0B224, 0x3FD91BBA891F170A, 0x3FD9A802391E2330, 0x3FDA33760A7F6051,
   0x3FDABE18797F1F4A, 0x3FDB47EBF73882A1, 0x3FDBD0F2E9E79032, 0x3FDC592FAD295B57, 0x3FDCE0A4923A587D,
   0x3FDD6753E032EA0E, 0x3FDDED3FD442364C, 0x3FDE726AA1E754D3, 0x3FDEF6D67328E220, 0x3FDF7A8568CB06CE,
   0x3FDFFD799A83FF9C, 0x3FE03FDA8B97997E, 0x3FE0809CF27F703D, 0x3FE0C10500D63AA7, 0x3FE10113B153C8EA,
   0x3FE140C9FAA1E543, 0x3FE18028CF72976B, 0x3FE1BF311E95D00E, 0x3FE1FDE3D30E8127, 0x3FE23C41D42727C8,
   0x3FE27A4C0585CBF7, 0x3FE2B803473F7AD2, 0x3FE2F56875EB3F26]
/-- Piece 2 of `logTable`. -/
def logTable2 : List Nat :=
  [0x3FE3327C6AB49CA7, 0x3FE36F3FFB6D9162, 0x3FE3ABB3FAA02168, 0x3FE3E7D9379F7017, 0x3FE423B07E986AA8,
   0x3FE45F3A98A20738, 0x3FE49A784BCD1B8B, 0x3FE4D56A5B33CEC5, 0x3FE510118708A8F9, 0x3FE54A6E8CA5438E,
   0x3FE5848226989D34, 0x3FE5BE4D0CB51435, 0x3FE5F7CFF41E09B0, 0x3FE6310B8F553049, 0x3FE66A008E4788CB,
   0x3FE6A2AF9E5A0F0B, 0x3FE6DB196A761949, 0x3FE7133E9B156C7B, 0x3FE74B1FD64E0754, 0x3FE782BDBFDDA657,
   0x3FE7BA18F93502E5, 0x3FE7F1322182CF16, 0x3FE82809D5BE7074, 0x3FE85EA0B0B27B26, 0x3FE894F74B06EF8B,
   0x3FE8CB0E3B4B3BBE, 0x3FE900E6160002CE, 0x3FE9367F6DA0AB2D, 0x3FE96BDAD2ACB5F6, 0x3FE9A0F8D3B0E050,
   0x3FE9D5D9FD5010B4, 0x3FEA0A7EDA4C112D, 0x3FEA3EE7F38E181F]
/-- Piece 3 of `logTable`. -/
def logTable3 : List Nat :=
  [0x3FEA7315D02F20C7, 0x3FEAA708F58014D4, 0x3FEADAC1E711C833, 0x3FEB0E4126BCC86C, 0x3FEB418734A9008C,
   0x3FEB74948F5532DA, 0x3FEBA769B39E4964, 0x3FEBDA071CC67E6C, 0x3FEC0C6D447C5DD3, 0x3FEC3E9CA2E1A055,
   0x3FEC7095AE91E1C8, 0x3FECA258DCA93317, 0x3FECD3E6A0CA8908, 0x3FED053F6D260897, 0x3FED3663B27F31D5,
   0x3FED6753E032EA0F, 0x3FED9810643D6614, 0x3FEDC899AB3FF56C, 0x3FEDF8F02086AF2B, 0x3FEE29142E0E013F,
   0x3FEE59063C8822CE, 0x3FEE88C6B3626A73, 0x3FEEB855F8CA88FC, 0x3FEEE7B471B3A950, 0x3FEF16E281DB7630,
   0x3FEF45E08BCF0656, 0x3FEF74AEF0EFAFAF, 0x3FEFA34E1177C234, 0x3FEFD1BE4C7F2AF9, 0x3FF0000000000000]
/-- −log₂ Q of the stored Q, for j from 0 to 128 (R126). -/
def logTable : List Nat :=
  logTable0 ++ logTable1 ++ logTable2 ++ logTable3
/-- (ln 2)ⁱ/i!, i = 0 … 5 (R126). -/
def expCoeffs : List Nat :=
  [0x3FF0000000000000, 0x3FE62E42FEFA39EF, 0x3FCEBFBDFF82C58F, 0x3FAC6B08D704A0C0, 0x3F83B2AB6FBA4E77,
   0x3F55D87FE78A6731]
/-- (−1)ⁱ⁺¹/(i·ln 2), i = 1 … 7, after a coefficient of zero (R126). -/
def logCoeffs : List Nat :=
  [0x0000000000000000, 0x3FF71547652B82FE, 0xBFE71547652B82FE, 0x3FDEC709DC3A03FD, 0xBFD71547652B82FE,
   0x3FD2776C50EF9BFE, 0xBFCEC709DC3A03FD, 0x3FCA61762A7ADED9]
/-- (−1)ⁱ·π²ⁱ⁺¹/(2i+1)!, i = 0 … 6 (R126). -/
def sinCoeffs : List Nat :=
  [0x400921FB54442D18, 0xC014ABBCE625BE53, 0x400466BC6775AAE2, 0xBFE32D2CCE62BD86, 0x3FB50783487EE782,
   0xBF7E3074FDE8871F, 0x3F3E8F434D018D63]
/-- (−1)ⁱ·π²ⁱ/(2i)!, i = 0 … 6 (R126). -/
def cosCoeffs : List Nat :=
  [0x3FF0000000000000, 0xC013BD3CC9BE45DE, 0x40103C1F081B5AC4, 0xBFF55D3C7E3CBFFA, 0x3FCE1F506891BABB,
   0xBF9A6D1F2A204A8C, 0x3F5F9D38A3763CC3]
/-- log₂ e (R126). -/
def log2e : Nat := 0x3FF71547652B82FE

/-- RoundF64(128/(128 + j)) (R126). -/
def rcpTable (j : Nat) : Dyad := (Dyad.ofInt 128).div (Dyad.ofInt (128 + j))
/-- RoundF64((1 + j/64)^(−1/2)) (R126). -/
def rsqTable (j : Nat) : Dyad :=
  let n := 64 * 2 ^ 256
  let r := isqrt (n / (64 + j))
  ({ m := 2 * r + (if r * r * (64 + j) = n then 0 else 1), e := -129 } : Dyad).round
/-- Σ (−r)ⁱ, i = 0 … 5: the coefficients. -/
def rcpCoeffs : List Dyad := [1, -1, 1, -1, 1, -1].map Dyad.ofInt
/-- C(−1/2, i), i = 0 … 5: 1, −1/2, 3/8, −5/16, 35/128, −63/256. -/
def rsqCoeffs : List Dyad := [256, -128, 96, -80, 70, -63].map (fun n => ({ m := n, e := -8 } : Dyad))

/-! ### The algorithms of R126 -/

/-- m in [1, 2) and e with |x| = m · 2ᵉ. -/
def Dyad.norm (x : Dyad) : Dyad × Int :=
  let l := bitLen x.m.natAbs
  ({ m := x.m.natAbs, e := 1 - l }, x.e + l - 1)
/-- RoundInt(k(m − 1)). -/
def tableIndex (k : Int) (m : Dyad) : Nat := ((Dyad.ofInt k).prod (m.plus (Dyad.ofInt (-1)))).toInt.toNat

/-- RCP's y. -/
def rcpOf (x : Dyad) : Dyad :=
  let n := x.norm
  let t := rcpTable (tableIndex 128 n.1)
  let y := (t.mul (horner (n.1.fma t (Dyad.ofInt (-1))) rcpCoeffs)).scale (-n.2)
  if x.m < 0 then y.negate else y
/-- RSQ's y. -/
def rsqOf (x : Dyad) : Dyad :=
  let n := x.norm
  let odd := n.2 % 2 = 1
  let m := if odd then n.1.scale 1 else n.1
  let e := if odd then n.2 - 1 else n.2
  let t := rsqTable (tableIndex 64 m)
  (t.mul (horner (m.fma (t.mul t) (Dyad.ofInt (-1))) rsqCoeffs)).scale (-(e / 2))
/-- EXP2's y. -/
def exp2Of (x : Dyad) : Dyad :=
  let n := x.toInt
  let f := x.plus (Dyad.ofInt (-n))
  let j := ((Dyad.ofInt 64).prod f).toInt
  let g := f.plus { m := -j, e := -6 }
  ((Dyad.ofBits (rowGet 0 expTable (j + 32).toNat)).mul (horner g (dyads expCoeffs))).scale n
/-- LOG2's y. -/
def log2Of (x : Dyad) : Dyad :=
  let n := x.norm
  let j := tableIndex 128 n.1
  let r := n.1.fma (rcpTable j) (Dyad.ofInt (-1))
  ((Dyad.ofInt n.2).add (Dyad.ofBits (rowGet 0 logTable j))).add (horner r (dyads logCoeffs))
/-- SINPI's y, or COSPI's. -/
def sincosOf (cos : Bool) (x : Dyad) : Dyad :=
  let u := x.plus (Dyad.ofInt (-2 * (x.scale (-1)).toInt))
  let q := (u.scale 1).toInt
  let f := u.plus { m := -q, e := -1 }
  let z := f.mul f
  let s := f.mul (horner z (dyads sinCoeffs))
  let c := horner z (dyads cosCoeffs)
  match (q % 4).toNat with
  | 0 => if cos then c else s
  | 1 => if cos then s.negate else c
  | 2 => if cos then c.negate else s.negate
  | _ => if cos then s else c.negate
/-- TANH's y for 2⁻¹³ ≤ |x| < 10. -/
def tanhOf (x : Dyad) : Dyad :=
  let e := exp2Of (({ m := x.m.natAbs, e := x.e + 1 } : Dyad).mul (Dyad.ofBits log2e))
  let y := (Dyad.ofInt 1).sub ((Dyad.ofInt 2).div (e.add (Dyad.ofInt 1)))
  if x.m < 0 then y.negate else y

/-! ### Delivery (R100, R124, R125) -/

/-- The special functions that R126 computes. -/
inductive SpecialFn where
  | rcp | rsq | exp2 | log2 | sinpi | cospi | tanh
  deriving DecidableEq, Repr

/-- A value is tiny in a format (R97). -/
def isTiny (t : ElemType) (m : Nat) (e : Int) : Bool :=
  m ≠ 0 &&
    (let q := e + bitLen m - (fracBits t + 1)
     let r := roundAt 0#2 false m e q
     decide (q + fracBits t + (if r.1 = 2 ^ (fracBits t + 1) then 1 else 0) < expMin t))

/-- Round(y, ET, 0), with OVERFLOW and UNDERFLOW alone logged (R100); `zeroNeg` signs an exact zero. -/
def deliverSpecial (t : ElemType) (md : Modes) (zeroNeg : Bool) (y : Dyad) : Nat × Causes :=
  if y.m = 0 then (signBit t zeroNeg, noCause)
  else
    let r := roundFin t 0#2 md.sat md.ftz (decide (y.m < 0)) y.m.natAbs y.e
    (r.1, (r.2 &&& cOverflow) ||| (if isTiny t y.m.natAbs y.e then cUnderflow else noCause))

/-- 1 or −1 in a format. -/
def oneBits (t : ElemType) (neg : Bool) : Nat := signBit t neg + expBias t * 2 ^ fracBits t

/-- The rows of R125 for an infinite operand. -/
def specialInf (fn : SpecialFn) (t : ElemType) (neg : Bool) : Nat × Causes :=
  match fn with
  | .rcp => (signBit t neg, noCause)
  | .rsq => if neg then invalidNan t else (0, noCause)
  | .exp2 => if neg then (0, noCause) else (infBits t false, noCause)
  | .log2 => if neg then invalidNan t else (infBits t false, noCause)
  | .sinpi | .cospi => invalidNan t
  | .tanh => (oneBits t neg, noCause)

/-- The rows of R125 for a zero operand. -/
def specialZero (fn : SpecialFn) (t : ElemType) (neg : Bool) : Nat × Causes :=
  match fn with
  | .rcp | .rsq => (infBits t neg, cDivzero)
  | .log2 => (infBits t true, cDivzero)
  | .exp2 | .cospi => (oneBits t false, noCause)
  | .sinpi | .tanh => (signBit t neg, noCause)

/-- The other operands: the last column of R125, and R126. -/
def specialFin (fn : SpecialFn) (t : ElemType) (md : Modes) (x : Dyad) : Nat × Causes :=
  let neg := decide (x.m < 0)
  let out := deliverSpecial t md neg
  match fn with
  | .rcp => out (rcpOf x)
  | .rsq => if neg then invalidNan t else out (rsqOf x)
  | .log2 => if neg then invalidNan t else deliverSpecial t md false (log2Of x)
  | .exp2 =>
    if (Dyad.ofInt 1023).lt x then (overflowBits t 0#2 md.sat false, cOverflow)
    else if x.lt (Dyad.ofInt (-1100)) then (0, cUnderflow)
    else out (exp2Of x)
  | .sinpi => out (sincosOf false x)
  | .cospi => deliverSpecial t md false (sincosOf true x)
  | .tanh =>
    let a : Dyad := { x with m := x.m.natAbs }
    if !a.lt (Dyad.ofInt 10) then (oneBits t neg, noCause)
    else if a.lt { m := 1, e := -13 } then out x
    else out (tanhOf x)

/-- A special function of a sub-element (R124 to R126). -/
def opSpecial (fn : SpecialFn) (t : ElemType) (md : Modes) (a : Nat) : Nat × Causes :=
  let x := widen t md.ftz a
  match nanOf t [x] with
  | some r => r
  | none =>
    match x with
    | .inf n => specialInf fn t n
    | .fin n m e => if m = 0 then specialZero fn t n else specialFin fn t md { m := if n then -(m : Int) else m, e := e }
    | _ => invalidNan t

/-- F16, BF16 and F32 (R110). -/
def shortFloat (t : ElemType) : Bool := bigFloat t && t ≠ .f64

/-- RCP (R124 to R127). -/
def execRcp (d a : VNum) (wa : Bool) (s : State) : Host.Outcome State Fault Refusal :=
  laneWord (.rcp d a wa) [⟨a, wa⟩] d shortFloat (sub1 (opSpecial .rcp)) s
/-- RSQ (R124 to R127). -/
def execRsq (d a : VNum) (wa : Bool) (s : State) : Host.Outcome State Fault Refusal :=
  laneWord (.rsq d a wa) [⟨a, wa⟩] d shortFloat (sub1 (opSpecial .rsq)) s
/-- SQRT (R124, R125). -/
def execSqrt (d a : VNum) (wa : Bool) (s : State) : Host.Outcome State Fault Refusal :=
  laneWord (.sqrt d a wa) [⟨a, wa⟩] d bigFloat (sub1 fSqrt) s
/-- EXP2 (R124 to R127). -/
def execExp2 (d a : VNum) (wa : Bool) (s : State) : Host.Outcome State Fault Refusal :=
  laneWord (.exp2 d a wa) [⟨a, wa⟩] d shortFloat (sub1 (opSpecial .exp2)) s
/-- LOG2 (R124 to R127). -/
def execLog2 (d a : VNum) (wa : Bool) (s : State) : Host.Outcome State Fault Refusal :=
  laneWord (.log2 d a wa) [⟨a, wa⟩] d shortFloat (sub1 (opSpecial .log2)) s
/-- SINPI (R124 to R127). -/
def execSinpi (d a : VNum) (wa : Bool) (s : State) : Host.Outcome State Fault Refusal :=
  laneWord (.sinpi d a wa) [⟨a, wa⟩] d shortFloat (sub1 (opSpecial .sinpi)) s
/-- COSPI (R124 to R127). -/
def execCospi (d a : VNum) (wa : Bool) (s : State) : Host.Outcome State Fault Refusal :=
  laneWord (.cospi d a wa) [⟨a, wa⟩] d shortFloat (sub1 (opSpecial .cospi)) s
/-- TANH (R124 to R127). -/
def execTanh (d a : VNum) (wa : Bool) (s : State) : Host.Outcome State Fault Refusal :=
  laneWord (.tanh d a wa) [⟨a, wa⟩] d shortFloat (sub1 (opSpecial .tanh)) s

end Sys2Proof.Machine
end

