-- ==== Sys2Proof/Machine/Tag.lean ====
section
/-!
DEFINITION. The tag table (R81, R281 to R283): lookup with recency, setting and clearing a way.
-/
namespace Sys2Proof.Machine

/-- H(key) (R281). -/
def tagHash (key : Word) : Nat :=
  let h := key.extractLsb' 0 32 ^^^ key.extractLsb' 32 32
  let h := h ^^^ (h >>> 16)
  (h ^^^ (h >>> 8)).toNat

/-- A way of a set. -/
def TagSet.way (x : TagSet) (i : Nat) : TagWay := rowGet {} x.ways i
/-- A way replaced. -/
def TagSet.setWay (x : TagSet) (i : Nat) (w : TagWay) : TagSet := { x with ways := rowPut {} x.ways i w }
/-- A way becomes the most recent. -/
def TagSet.touch (x : TagSet) (i : Nat) : TagSet := { x with recency := x.recency.filter (· ≠ i) ++ [i] }
/-- A way becomes the least recent. -/
def TagSet.demote (x : TagSet) (i : Nat) : TagSet := { x with recency := i :: x.recency.filter (· ≠ i) }
/-- Ways with a parity error are made invalid when they are read (R392). -/
def TagSet.sound (x : TagSet) : TagSet :=
  { x with ways := x.ways.map (fun w => if w.bad then { w with valid := false, bad := false } else w) }

/-- A lookup in a set of number `n` (R282). -/
def TagSet.lookup (x : TagSet) (n : Nat) (key : Word) : TagSet × Word :=
  match (upTo 4).find? (fun i => (x.way i).valid && (x.way i).key = key) with
  | some i => (x.touch i, (x.way i).slot.setWidth 64)
  | none =>
    let v := ((upTo 4).find? (fun i => !(x.way i).valid)).getD (x.recency.headD 0)
    (x, BitVec.ofNat 64 (2 ^ 31 + n * 4 + v))

/-- A set of the team's block. -/
def Team.tagSet (t : Team) (i : Nat) : TagSet := rowGet {} t.tags i

/-- A lookup by a team. -/
def Team.lookup (t : Team) (key : Word) : Team × Word :=
  let n := tagHash key % t.tagSets
  let r := (t.tagSet n).sound.lookup n key
  ({ t with tags := rowPut {} t.tags n r.1 }, r.2)

/-- The further condition of step 3: the team owns tag sets (R281). -/
def hasTags (t : Team) : Bool := t.tagSets ≠ 0

/-- The set that a miss code names. -/
def codeSet (a : Word) : Nat := (a.extractLsb' 2 8).toNat
/-- The way that a miss code names. -/
def codeWay (a : Word) : Nat := (a.extractLsb' 0 2).toNat
/-- A miss code that names a way of the team (R283). -/
def codeOk (t : Team) (a : Word) : Bool :=
  a.extractLsb' 32 32 = 0#32 && a.extractLsb' 10 21 = 0#21 && codeSet a < t.tagSets

/-- The check of the miss codes of the participating lanes (R283). -/
def codeStop (c : Ctx) : Option Stop :=
  let bad := maskOf (fun l => c.part.getLsbD l && !codeOk c.t (c.src 0 l))
  need (bad = 0#32) (.trap (addrTrap .scratchRange bad (fun l => c.src 0 l)))

/-- A way changed in its set. -/
def Team.modWay (t : Team) (a : Word) (f : TagSet → Nat → TagSet) : Team :=
  { t with tags := rowPut {} t.tags (codeSet a) (f (t.tagSet (codeSet a)) (codeWay a)) }

/-- TLOOK (R282): lanes in ascending order. -/
def execTlook (d a : VNum) (wa : Bool) (s : State) : Host.Outcome State Fault Refusal :=
  issue (.tlook d a wa) { srcs := [⟨a, wa⟩], dsts := [d], team := hasTags } (fun c s =>
    let r := (lanesOf c.part).foldl (fun (x : Team × List (Nat × Word)) l =>
      let y := x.1.lookup (c.src 0 l)
      (y.1, x.2 ++ [(l, y.2)])) (s.team c.u.team, [])
    .ok ((s.modTeam c.u.team (fun _ => r.1)).writeV c.u d c.part (fun l =>
      ((r.2.find? (fun x => x.1 = l)).map (·.2)).getD 0#64))) s
/-- TLOOK.K (R282): once for the gang or the sidecar. -/
def execTlookK (d a : KNum) (s : State) : Host.Outcome State Fault Refusal :=
  issue (.tlookK d a) { ks := [a], team := hasTags, sidecar := true } (fun c s =>
    let r := (s.team c.u.team).lookup (c.k a)
    .ok ((s.modTeam c.u.team (fun _ => r.1)).writeK c.u d r.2)) s
/-- A word that changes the ways that the lanes' miss codes name, lanes ascending (R283). -/
def wayWord (i : Instr) (f : Form) (put : Ctx → Nat → TagSet → Nat → TagSet) (s : State) : Host.Outcome State Fault Refusal :=
  issue i f (fun c s => stopOr (codeStop c) (.ok (s.modTeam c.u.team (fun t =>
    (lanesOf c.part).foldl (fun t l => t.modWay (c.src 0 l) (put c l)) t)))) s

/-- TSET (R283): source 1 is the key, source 2 the slot. -/
def execTset (d a b : VNum) (wa wb : Bool) (s : State) : Host.Outcome State Fault Refusal :=
  wayWord (.tset d a b wa wb) { srcs := srcsABD a b d wa wb, team := hasTags, closes := true } (fun c l x i =>
    (x.setWay i { valid := true, key := c.src 1 l, slot := (c.src 2 l).extractLsb' 0 31 }).touch i) s
/-- TINV (R283). -/
def execTinv (a : VNum) (wa : Bool) (s : State) : Host.Outcome State Fault Refusal :=
  wayWord (.tinv a wa) { srcs := [⟨a, wa⟩], team := hasTags, closes := true } (fun _ _ x i =>
    (x.setWay i { x.way i with valid := false, bad := false }).demote i) s

end Sys2Proof.Machine
end

