-- ==== Sys2Proof/Machine/Invert.lean ====
section
/-!
DEFINITION. The invert prefix (R166 to R181): the words a routine may hold and what each computes in one lane, the checks of INV,
and the search by passes.
-/
namespace Sys2Proof.Machine

/-! ### Routine words (R168) -/

/-- A routine word: its sources, its destination, the types under which it is legal, and its function of a lane. -/
structure RWord where
  srcs : List Src
  d : VNum
  legal : ElemType → Bool
  fn : Lane → LaneFn

/-- A routine word that reads no predicate. -/
def rword (srcs : List Src) (d : VNum) (legal : ElemType → Bool) (f : LaneFn) : Option RWord := some ⟨srcs, d, legal, fun _ => f⟩

/-- The words of opcodes 0x20 to 0x37, 0x40 to 0x46, 0x48 to 0x4B, 0x50 to 0x5A and 0x5C to 0x5E. -/
def routineWord : Instr → Option RWord
  | .add d a b wa wb => rword (srcsAB a b wa wb) d notSmall (sub2 opAdd)
  | .sub d a b wa wb => rword (srcsAB a b wa wb) d notSmall (sub2 opSub)
  | .mul d a b wa wb => rword (srcsAB a b wa wb) d notSmall (sub2 opMul)
  | .mulh d a b wa wb => rword (srcsAB a b wa wb) d ElemType.isInt (sub2 opMulh)
  | .fma d a b wa wb => rword (srcsABD a b d wa wb) d notSmall (sub3 opFma)
  | .fms d a b wa wb => rword (srcsABD a b d wa wb) d notSmall (sub3 opFms)
  | .min d a b wa wb => rword (srcsAB a b wa wb) d anyType (sub2 opMin)
  | .max d a b wa wb => rword (srcsAB a b wa wb) d anyType (sub2 opMax)
  | .abs d a wa => rword [⟨a, wa⟩] d notSmall (sub1 opAbs)
  | .neg d a wa => rword [⟨a, wa⟩] d notSmall (sub1 opNeg)
  | .and d a b wa wb => rword (srcsAB a b wa wb) d notSmall (bitwise (· &&& ·))
  | .or d a b wa wb => rword (srcsAB a b wa wb) d notSmall (bitwise (· ||| ·))
  | .xor d a b wa wb => rword (srcsAB a b wa wb) d notSmall (bitwise (· ^^^ ·))
  | .andn d a b wa wb => rword (srcsAB a b wa wb) d notSmall (bitwise (fun x y => x &&& ~~~ y))
  | .shl d a b wa wb => rword (srcsAB a b wa wb) d ElemType.isInt (sub2 (fun t _ x c => (shlBy t x c, noCause)))
  | .shr d a b wa wb => rword (srcsAB a b wa wb) d ElemType.isInt (sub2 (fun t _ x c => (shrBy t x c, noCause)))
  | .rot d a b wa wb => rword (srcsAB a b wa wb) d ElemType.isInt (sub2 (fun t _ x c => (rotBy t x c, noCause)))
  | .bits op d a wa => rword [⟨a, wa⟩] d ElemType.isInt (sub1 (opBits op))
  | .bfx d a b wa wb => rword (srcsAB a b wa wb) d ElemType.isInt (sub2 opBfx)
  | .bfi d a b wa wb => rword (srcsABD a b d wa wb) d ElemType.isInt (sub3 opBfi)
  | .div d a b wa wb => rword (srcsAB a b wa wb) d notSmall (sub2 opDiv)
  | .rem d a b wa wb => rword (srcsAB a b wa wb) d ElemType.isInt (sub2 opRem)
  | .mov d a wa => rword [⟨a, wa⟩] d notSmall (fun _ _ v => (v 0, noCause))
  | .sel d a b wa wb n p =>
    some ⟨srcsAB a b wa wb, d, notSmall, fun x _ _ v => (if x.pred p != n then v 0 else v 1, noCause)⟩
  | .addi d a imm => rword [⟨a, false⟩] d notSmall (immForm imm.toInt opAdd)
  | .muli d a imm => rword [⟨a, false⟩] d notSmall (immForm imm.toInt opMul)
  | .andi d a imm => rword [⟨a, false⟩] d notSmall (immBitwise imm (· &&& ·))
  | .ori d a imm => rword [⟨a, false⟩] d notSmall (immBitwise imm (· ||| ·))
  | .xori d a imm => rword [⟨a, false⟩] d notSmall (immBitwise imm (· ^^^ ·))
  | .shli d a n => rword [⟨a, false⟩] d ElemType.isInt (sub1 (fun t _ x => (shlBy t x n.toNat, noCause)))
  | .shri d a n => rword [⟨a, false⟩] d ElemType.isInt (sub1 (fun t _ x => (shrBy t x n.toNat, noCause)))
  | .movi d imm => rword [] d notSmall (fun t md _ => subMap t (fun _ => (immOf t md imm.toInt, noCause)))
  | .movhi d imm =>
    rword [⟨d, false⟩] d (fun t => t = .i64 || t = .n64 || t = .f64)
      (fun _ _ v => ((v 0 &&& 0x3FFFF#64) ||| (imm.setWidth 64 <<< 18), noCause))
  | .mini d a imm => rword [⟨a, false⟩] d notSmall (immForm imm.toInt opMin)
  | .maxi d a imm => rword [⟨a, false⟩] d notSmall (immForm imm.toInt opMax)
  | .rcp d a wa => rword [⟨a, wa⟩] d shortFloat (sub1 (opSpecial .rcp))
  | .rsq d a wa => rword [⟨a, wa⟩] d shortFloat (sub1 (opSpecial .rsq))
  | .sqrt d a wa => rword [⟨a, wa⟩] d bigFloat (sub1 fSqrt)
  | .exp2 d a wa => rword [⟨a, wa⟩] d shortFloat (sub1 (opSpecial .exp2))
  | .log2 d a wa => rword [⟨a, wa⟩] d shortFloat (sub1 (opSpecial .log2))
  | .sinpi d a wa => rword [⟨a, wa⟩] d shortFloat (sub1 (opSpecial .sinpi))
  | .cospi d a wa => rword [⟨a, wa⟩] d shortFloat (sub1 (opSpecial .cospi))
  | .tanh d a wa => rword [⟨a, wa⟩] d shortFloat (sub1 (opSpecial .tanh))
  | .cvt src d a wa => rword [⟨a, wa⟩] d anyType (fun t md v => convertLane src t md 0 (v 0) 0#64)
  | .pack src d a part wa =>
    rword [⟨a, wa⟩, ⟨d, false⟩] d (partLegal src part) (fun t md v => convertLane src t md part.toNat (v 0) (v 1))
  | .unpk src d a part wa => rword [⟨a, wa⟩] d (partLegal src part) (fun t md v => convertLane src t md part.toNat (v 0) 0#64)
  | .rnd m d a wa => rword [⟨a, wa⟩] d bigFloat (sub1 (opRnd m))
  | .classf d a wa => rword [⟨a, wa⟩] d bigFloat (sub1 opClass)
  | .scalb d a b wa wb => rword (srcsAB a b wa wb) d bigFloat (sub2 opScalb)
  | _ => none

/-- The vector registers that a word no routine may hold names, the implied ones among them (R63, step 3). -/
def otherRegs : Instr → List VNum
  | .jmpi a _ | .calli a _ | .retr a _ | .tinv a _ | .lanek _ a _ _ | .cmpi _ _ a _ | .kbcast a _ => [a]
  | .csrr d csr | .csrw d csr => if (csrOf csr).perLane then [d] else []
  | .inv x t _ _ _ _ => [x, t]
  | .cmp _ _ a b _ _ | .st _ a b _ _ | .rst _ a b _ _ | .raaddD a b _ _ => [a, b]
  | .qnt _ d a b _ _ => regRange a 8 ++ regRange b 8 ++ regRange d 9
  | .shfl d a b _ _ _ | .subx d a b _ _ | .dot4 d a b _ _ | .atom _ d a b _ _ | .acas d a b _ _ | .tset d a b _ _
  | .raadd d a b _ _ | .rcas d a b _ _ | .stmp d a b _ _ => [a, b, d]
  | .bcst d a _ _ _ | .reduce _ d a _ _ | .scan _ _ d a _ _ | .crc d a _ | .ld _ _ d a _ | .ldx d a _ | .stx d a _
  | .rld d a _ | .tlook d a _ => [a, d]
  | .ldat d a b _ _ => [a, b, d, d + 1#6]
  | .mma _ a _ _ _ _ _ => regRange a 9
  | .mrd d _ _ => [d]
  | _ => []

/-- The vector registers of a word. -/
def wordRegs (i : Instr) : List VNum :=
  match routineWord i with
  | some w => w.srcs.map (·.r) ++ [w.d]
  | none => otherRegs i

/-- A tag-table word needs sets (R281). -/
def teamTakes (t : Team) : Instr → Bool
  | .tlook _ _ _ | .tlookK _ _ | .tset _ _ _ _ _ | .tinv _ _ => hasTags t
  | _ => true

/-- Steps 1 to 3 of R63 for a routine word; QPUSH is no word of a gang, whatever its fields (R87). -/
def routineStep (t : Team) (gm w : Half) : Except Nat Instr :=
  match decode w with
  | .error e => .error (if opOf w = 0x76#8 then 1 else e.step)
  | .ok (.qpush _ _ _) => .error 1
  | .ok i => if (wordRegs i).all (fun r => decide (r.toNat < t.vregs) || isQueue gm r) && teamTakes t i then .ok i else .error 3

/-- The words of the routine, or the stop of the first that fails R169 step 2. -/
def routineWords (s : State) (c : Ctx) : List Half → Except Stop (List Instr)
  | [] => .ok []
  | w :: ws =>
    match routineStep c.t c.g.gmode w with
    | .error k => .error (.trap { illegalAt w k with inv := true })
    | .ok i => (routineWords s c ws).map (i :: ·)

/-- The condition of R168 that a word breaks, counted from 1; `inputs` and `written` are those of the words before it. A PACK or UNPK whose
part is at or above the ratio breaks the second (assumption 15: DEDUCED). -/
def routineBreak (c : Ctx) (x t : VNum) (inside : Bool) (inputs written : List VNum) (i : Instr) : Option Nat :=
  match routineWord i with
  | none => some 1
  | some w =>
    let inputs := inputs ++ (w.srcs.map (·.r)).filter (fun r => !written.contains r)
    if !w.legal c.et then some 2
    else if w.d = x || w.d = t then some 3
    else if inputs.contains w.d then some 4
    else if (w.d :: w.srcs.map (·.r)).any (isQueue c.g.gmode) then some 5
    else if !inside then some 6
    else none

/-- The routine's words in order, or INV_ROUTINE with the first that breaks a condition; `n` is the index of the next word. -/
def routineOf (c : Ctx) (x t : VNum) (inside : Nat → Bool) : Nat → List VNum → List VNum → List Instr → Except Stop (List RWord)
  | _, _, _, [] => .ok []
  | n, inputs, written, i :: is =>
    match routineBreak c x t (inside n) inputs written i, routineWord i with
    | none, some w =>
      (routineOf c x t inside (n + 1) (inputs ++ (w.srcs.map (·.r)).filter (fun r => !written.contains r)) (w.d :: written) is).map (w :: ·)
    | some k, _ => .error (.trap { cause := .invRoutine, detail := BitVec.ofNat 64 (n + k * 256), inv := true })
    | none, none => .error (.trap { cause := .invRoutine, detail := BitVec.ofNat 64 (n + 256), inv := true })

/-- The inputs of a routine other than x, in order, with the disposition of the first read. -/
def routineInputs (x : VNum) : List VNum → List RWord → List Src
  | _, [] => []
  | done, w :: ws =>
    let new := w.srcs.filter (fun r => r.r ≠ x && !done.contains r.r)
    new ++ routineInputs x (w.d :: new.map (·.r) ++ done) ws

/-! ### Evaluation and order (R172) -/

/-- A lane's search during a pass, with the lane and the evaluations that the pass makes. -/
structure Search extends InvLane where
  lane : Lane
  evals : Nat := 0

/-- The routine in a lane: its registers, and the causes raised. -/
def runRoutine (t : ElemType) (md : Modes) : List RWord → Lane → Lane × Causes
  | [], x => (x, noCause)
  | w :: ws, x =>
    let r := w.fn x t md (fun j => (x.vreg (rowGet (0#6) (w.srcs.map (·.r)) j)).val)
    let y := runRoutine t md ws (x.setV w.d { val := r.1 })
    (y.1, r.2 ||| y.2)

/-- The destination of the routine's last word. -/
def routineDest (ws : List RWord) : VNum := (ws.getLast?.map (·.d)).getD 0#6

/-- F(l, v): the value of the routine, and the search after the evaluation. -/
def Search.eval (x : Search) (t : ElemType) (md : Modes) (ws : List RWord) (xr : VNum) (v : Nat) : Nat × Search :=
  let r := runRoutine t md ws (x.lane.setV xr { val := BitVec.ofNat 64 v })
  (subGet 32 (r.1.vreg (routineDest ws)).val 0, { x with lane := r.1, causes := x.causes ||| r.2, evals := x.evals + 1 })

/-- Bad(v). -/
def badValue (t : ElemType) (v : Nat) : Bool := t = .f32 && (widen .f32 false v).isNan
/-- The order of two values under ET; F32 numerically with −0 = +0. -/
def orderOf (t : ElemType) (a b : Nat) : Int :=
  if t = .f32 then cmpVal (widen .f32 false a) (widen .f32 false b) else intOf t a - intOf t b
/-- Le, with its operands exchanged for dir = 1. -/
def leIn (t : ElemType) (dec : Bool) (a b : Nat) : Bool := if dec then orderOf t b a ≤ 0 else orderOf t a b ≤ 0
/-- Lt, likewise. -/
def ltIn (t : ElemType) (dec : Bool) (a b : Nat) : Bool := if dec then orderOf t b a < 0 else orderOf t a b < 0

/-- STATUS of INVST replaced. -/
def Lane.setStatus (x : Lane) (st : Nat) : Lane :=
  x.invstSet ((invstState x.invst &&& ~~~ 3#9) ||| BitVec.ofNat 9 st)
/-- ITER raised, saturating at 63. -/
def Lane.countIter (x : Lane) : Lane :=
  let n := ((invstState x.invst).extractLsb' 2 6 : BitVec 6)
  x.invstSet ((invstState x.invst &&& ~~~ 0xFC#9) ||| ((if n = 63#6 then n else n + 1#6).setWidth 9 <<< 2))
/-- ACTIVE set and STATUS cleared; a search that was not active starts with ITER 0. -/
def Lane.startSearch (x : Lane) : Lane :=
  let st := invstState x.invst
  x.invstSet (if st.getLsbD 8 then (st &&& 0xFC#9) ||| 0x100#9 else 0x100#9)
/-- ACTIVE cleared. -/
def Lane.endSearch (x : Lane) : Lane := x.invstSet (invstState x.invst &&& 0xFF#9)

/-- A violation. -/
def Search.violate (x : Search) : Search := { x with violated := true, searching := false }

/-- The endpoint pass in a lane. -/
def Search.endpoints (x : Search) (t : ElemType) (md : Modes) (ws : List RWord) (xr : VNum) (dec : Bool) : Search :=
  let bad := badValue t x.u || badValue t x.lo || badValue t x.hi || decide (ord t x.hi < ord t x.lo)
  let x := { x with lane := x.lane.startSearch }
  let (flo, x) := x.eval t md ws xr x.lo
  let (fhi, x) := x.eval t md ws xr x.hi
  let x := { x with flo := flo, fhi := fhi }
  if bad || badValue t flo || badValue t fhi || !leIn t dec flo fhi then x.violate
  else if leIn t dec x.u flo then { x with res := x.lo, lane := x.lane.setStatus 1 }
  else if ltIn t dec fhi x.u then { x with res := x.hi, lane := x.lane.setStatus 2 }
  else { x with searching := true }

/-- A narrowing pass in a searching lane. -/
def Search.narrow (x : Search) (t : ElemType) (md : Modes) (ws : List RWord) (xr : VNum) (br : BitVec 2) (tol : Nat) (dec : Bool) : Search :=
  if !x.searching then x
  else if ord t x.hi - ord t x.lo ≤ 2 ^ tol then { x with res := x.hi, searching := false }
  else
    let mid := ordInv t (ord t x.lo + (ord t x.hi - ord t x.lo) / 2)
    let (fm, x) := x.eval t md ws xr mid
    let x := { x with lane := x.lane.countIter }
    if badValue t fm || !(leIn t dec x.flo fm && leIn t dec fm x.fhi) then x.violate
    else
      let x := if ltIn t dec fm x.u then { x with lo := mid, flo := fm } else { x with hi := mid, fhi := fm }
      { x with lane := x.lane.setB br (BitVec.ofNat 64 (x.hi * 2 ^ 32 + x.lo)) }

/-- The final pass in a lane. -/
def Search.final (x : Search) (t : ElemType) (md : Modes) (ws : List RWord) (xr : VNum) : Search :=
  let y := (x.eval t md ws xr x.res).2
  { y with lane := (y.lane.setV xr { val := BitVec.ofNat 64 x.res }).endSearch }

/-! ### INV (R167 to R176) -/

/-- The types of INV. -/
def invTypes (t : ElemType) : Bool := t = .f32 || t = .i32 || t = .n32

/-- Past a routine whose last word is at an address: the loop-end step of a body that ends there, or the word after (R168, R238). -/
def Gang.pastRoutine (g : Gang) (slices : BitVec 8) (last : Addr) : Gang :=
  match g.loopEnd slices last with
  | some x => g.loopStep slices x
  | none => g.modSlices slices (fun _ y => { y with pc := last + 4#64 })

/-- The conditions of R238 for a body that ends with the routine. -/
def routineLoopStop (c : Ctx) (last : Addr) : Option Stop :=
  match c.g.loopEnd c.u.slices last with
  | none => none
  | some x => firstStop [
      need (c.g.levelOk c.u.slices x) (.trap convergence),
      need (!c.g.lcbad.getLsbD x.lc) (.trap { cause := .poison, detail := BitVec.ofNat 64 (64 + x.lc), prodpc := parityPc })]

/-- A stop that a routine word gives is reported in the routine. -/
def inRoutine : Stop → Stop
  | .trap t => .trap { t with inv := true }
  | .trapIn t s => .trapIn { t with inv := true } s
  | st => st

/-- The words of a run's routine. -/
def InvRun.words (r : InvRun) : List RWord := r.routine.filterMap (fun w =>
  match decode w with
  | .ok i => routineWord i
  | .error _ => none)

/-- The searches of a run, as a pass finds them, each after its part of the pass. -/
def InvRun.pass (r : InvRun) (g : Gang) (f : Search → Search) : List (Nat × Search) :=
  r.lanes.map (fun x => (x.1, f { x.2 with lane := g.lane x.1 }))

/-- A lane after MONOTONE: x and the routine's destinations are free (R174, assumption 1: DESIGN CHOICE). -/
def freeRegs (regs : List VNum) (free : Nat) (x : Lane) : Lane :=
  regs.foldl (fun y r => y.setV r { val := Config.freeWord (free + r.toNat) }) x

/-- A violating lane's STATUS, and the free registers, after MONOTONE. -/
def Search.spoil (x : Search) (regs : List VNum) (free : Nat) : Search :=
  { x with lane := freeRegs regs free (if x.violated then x.lane.setStatus 3 else x.lane) }

/-- The lanes of a pass written back, in the registers that it writes, and the words of its evaluations metered: every evaluation issues
the routine once for the lanes that take part (R176, R359). -/
def State.putPass (s : State) (u : Issuer) (regs : List VNum) (n : Nat) (xs : List (Nat × Search)) : State :=
  let s := s.modGang u.team u.gang (fun g =>
    regs.foldl (fun g r => g.touchV r) (g.modLanes (maskOf (fun l => xs.any (fun y => y.1 = l))) (fun l x =>
      ((xs.find? (fun y => y.1 = l)).map (fun y => y.2.lane)).getD x)))
  if u.second then s else s.meter (s.team u.team).part 0 (n * xs.foldl (fun k x => max k x.2.evals) 0)

/-- A run of a gang put in place of the one of its slices. -/
def Gang.setRun (g : Gang) (slices : BitVec 8) (r : Option InvRun) : Gang :=
  { g with searches := g.searches.filter (fun x => x.slices ≠ slices) ++ r.toList }

/-- What the evaluations of a run have raised goes to the log, under the GMODE of its INV (R175). -/
def State.raiseRun (s : State) (u g : Nat) (r : InvRun) : State :=
  s.raiseIn r.gmode u g r.pc r.part (fun l => ((r.lanes.find? (fun y => y.1 = l)).map (fun y => y.2.causes)).getD noCause)

/-- A run after a pass. -/
def InvRun.after (r : InvRun) (xs : List (Nat × Search)) : InvRun := { r with lanes := xs.map (fun y => (y.1, y.2.toInvLane)) }

/-- The end of a pass (R172, R174): MONOTONE where a lane violated; after the final pass INV has completed and the gang stands past the
routine; else the unit stands at its INV word, with the passes that follow. -/
def State.endPass (s : State) (u : Issuer) (r : InvRun) (x : VNum) (final : Bool) (xs : List (Nat × Search)) : Except Stop State :=
  let n := r.routine.length
  let regs := x :: r.words.map (·.d)
  let bad := maskOf (fun l => xs.any (fun y => y.1 = l && y.2.violated))
  let r := r.after xs
  if bad ≠ 0#32 then
    let xs := xs.map (fun y => (y.1, y.2.spoil regs (s.fresh + 64 * y.1)))
    .error (.trapIn { cause := .monotone, lanes := some bad }
      { (s.putPass u regs n xs).raiseRun u.team u.gang r with fresh := s.fresh + 2048 })
  else if final then
    .ok (((s.putPass u regs n xs).raiseRun u.team u.gang r).modGang u.team u.gang (fun g =>
      (g.setRun r.slices none).pastRoutine u.slices (r.pc + BitVec.ofNat 64 (4 * n))))
  else .ok ((s.putPass u regs n xs).modGang u.team u.gang (fun g => g.setRun r.slices (some r)))

/-- A pass after the first: it narrows while a lane searches, and else it is the final one (R172). -/
def State.nextPass (s : State) (u : Issuer) (r : InvRun) (x : VNum) (br : BitVec 2) (tol : Nat) (dec : Bool) : Except Stop State :=
  let g := s.gang u.team u.gang
  let et := (gmEt r.gmode).getD .i8
  let md := modesOf r.gmode
  if r.lanes.any (fun y => y.2.searching) then s.endPass u r x false (r.pass g (fun y => y.narrow et md r.words x br tol dec))
  else s.endPass u r x true (r.pass g (fun y => y.final et md r.words x))

/-- The run of a unit that stands between two passes of an INV word. -/
def Gang.runAt (g : Gang) (slices : BitVec 8) : Option InvRun :=
  g.searches.find? (fun r => r.slices = slices && r.pc = g.pcOf slices)

/-- The issuing unit and its run, where it may go on with a pass of a word. -/
def State.running (s : State) (w : Half) : Option (Issuer × InvRun) :=
  match s.issuer with
  | none => none
  | some u =>
    if s.issuable u && u.gang ≠ 16 then
      match (s.gang u.team u.gang).runAt u.slices with
      | some r => if r.word = w then some (u, r) else none
      | none => none
    else none

/-- The runs of slices of a gang are cut short: what they raised is logged, and their progress stands in the brackets and INVST (R178). -/
def State.cutRuns (s : State) (u g : Nat) (slices : BitVec 8) : State :=
  let rs := (s.gang u g).searches.filter (fun r => r.slices &&& slices ≠ 0#8)
  (rs.foldl (fun s r => s.raiseRun u g r) s).modGang u g (fun x => { x with searches := x.searches.filter (fun r => r.slices &&& slices = 0#8) })

/-- The run that an INV starts: its routine as fetched, and in each participating lane the target and the bracket. -/
def Ctx.run (c : Ctx) (t : VNum) (br : BitVec 2) (routine : List Half) : InvRun where
  slices := c.u.slices
  pc := c.pc
  word := c.word
  routine := routine
  gmode := c.g.gmode
  part := c.part
  lanes := (lanesOf c.part).map (fun l =>
    let y := c.g.lane l
    (l, { u := subGet 32 (y.vreg t).val 0, lo := subGet 32 (y.bracket br) 0, hi := subGet 32 (y.bracket br) 1 }))

/-- The start of INV: the checks of R169, and the endpoint pass. x has no disposition of its own: R169 reads the inputs other than x, and
INV waits only for a producer of x (assumption 15: DEDUCED). -/
def startInv (x t : VNum) (br : BitVec 2) (len : BitVec 4) (dec : Bool) (c : Ctx) (s : State) : Except Stop State :=
  let n := len.toNat + 1
  let first := c.pc + 4#64
  let last := c.pc + BitVec.ofNat 64 (4 * n)
  let inside := fun i => c.g.levels.all (fun y =>
    !(y.start.toNat ≤ c.pc.toNat && c.pc.toNat ≤ y.stop.toNat) || c.pc.toNat + 4 * (i + 1) ≤ y.stop.toNat)
  stopOr (routineLoopStop c last)
  (match s.fetchWords c.t.part first n with
  | .error f => .error (inRoutine (fetchStop c.word f (s.noteWords c.t.part first n)))
  | .ok hs =>
    match routineWords s c hs with
    | .error st => .error st
    | .ok is =>
      match routineOf c x t inside 0 [x] [] is with
      | .error st => .error st
      | .ok ws =>
        let s := s.noteWords c.t.part first n
        if c.part = 0#32 then .ok (s.modGang c.u.team c.u.gang (fun g => g.pastRoutine c.u.slices last))
        else
          let regs := x :: ws.map (·.d)
          stopOr (readStop c.g ⟨t, false⟩ c.part)
          (stopOr ((firstStop ((routineInputs x [] ws).map (fun r => readStop c.g r c.part))).map inRoutine)
          (stopOr (owedStop c.g regs c.part)
          (stopOr (operandStop c.t c.u.gang s.cycle regs c.part)
          (s.endPass c.u (c.run t br hs) x false ((c.run t br hs).pass c.g (fun y => y.endpoints c.et c.modes ws x dec)))))))

/-- INV (R167 to R181): argument, target, bracket, tolerance, length less one, direction. One issue makes one pass, and the next goes on
with the next, until the final one (assumption 15: DEDUCED). -/
def execInv (x t : VNum) (br : BitVec 2) (tol len : BitVec 4) (dec : Bool) (s : State) : Host.Outcome State Fault Refusal :=
  let i : Instr := .inv x t br tol len dec
  match s.running ((encode i).getD 0#32) with
  | some (u, r) =>
    .next (match s.nextPass u r x br tol.toNat dec with
    | .error st => stopUnit u st s
    | .ok s' => finish { jumps := true } false { u with second := true } s')
  | none =>
    issue i { named := [x, t], mode := fun gm => readsEt invTypes gm && !isQueue gm x && !isQueue gm t, jumps := true, routine := len.toNat + 1 }
      (startInv x t br len dec) s

end Sys2Proof.Machine
end

