-- ==== Sys2Proof/Machine/Skipper.lean ====
section
/-!
DEFINITION. Skipper (R182 to R194): the checks of a command block, widening and qualification of elements, the running result,
chunks, and the end of a command.
-/
namespace Sys2Proof.Machine

/-! ### The command block (R183) -/

/-- The element type of an ETYPE code. -/
def skipType (code : Nat) : Option ElemType :=
  match code with
  | 0 => some .i8 | 1 => some .n8 | 2 => some .i16 | 3 => some .n16 | 4 => some .i32 | 5 => some .n32
  | 8 => some .f16 | 9 => some .bf16 | 10 => some .f32 | _ => none

/-- The fields of a block. -/
structure Block where
  mode : Nat
  etype : Option ElemType
  pred : Nat
  flags : Nat
  reserved : Nat
  c0 : Nat
  c1 : Nat
  source : Word
  count : Nat
  kcap : Nat
  ocap : Nat
  dest : Nat
  ovf : Nat
  sync : Nat
  deriving DecidableEq, Repr

/-- A block read from its 64 bytes. -/
def blockFields (b : List Byte) : Block :=
  { mode := field b 0 1, etype := skipType (field b 1 1), pred := field b 2 1, flags := field b 3 1, reserved := field b 6 2,
    c0 := field b 8 4, c1 := field b 12 4, source := BitVec.ofNat 64 (field b 16 8), count := field b 24 8,
    kcap := field b 32 4, ocap := field b 36 4, dest := field b 40 8, ovf := field b 48 8, sync := field b 56 8 }

/-- The element type, where the block has one. -/
def Block.ty (b : Block) : ElemType := b.etype.getD .i8
/-- Element width in bytes. -/
def Block.width (b : Block) : Nat := b.ty.width / 8
/-- A float element type. -/
def Block.isFloat (b : Block) : Bool := !b.ty.isInt

/-- The FCODE of the first field, in the order of R183, that breaks it: 1 or 2, or none. -/
def Block.fault (b : Block) : Option Nat :=
  let nan := fun v => (widen .f32 false v).isNan
  if 2 < b.mode || b.etype.isNone || 10 < b.pred || (b.pred = 0 && b.mode = 0) || (9 ≤ b.pred && b.isFloat)
      || 4 < b.flags / 4 % 8 || b.flags / 32 ≠ 0 || b.reserved ≠ 0 || (b.isFloat && nan b.c0)
      || (9 ≤ b.pred && 2 ^ (8 * b.width) ≤ b.c0) || (b.c1 ≠ 0 && b.pred ≠ 7 && b.pred ≠ 8) || (b.isFloat && nan b.c1) then some 1
  else if b.source.extractLsb' 48 16 ≠ 0#16 then some 2
  else if b.source.toNat % b.width ≠ 0 || 2 ^ 32 < b.count || 2 ^ 48 < b.source.toNat + b.count * b.width
      || (b.mode ≠ 0 && (b.kcap = 0 || 1024 < b.kcap)) || (b.mode ≠ 0 && b.ocap ≠ 0) then some 1
  else none

/-! ### Elements (R184 to R186) -/

/-- The widened pattern of an element (R184). -/
def Block.widened (b : Block) (v : Nat) : Nat :=
  if b.isFloat then (if b.ty = .f32 then v else (floatToFloat b.ty .f32 { rm := 0#2, sat := false, ftz := false } v).1)
  else intBits 32 (intOf b.ty v)

/-- The order of two widened patterns that are no NaN. -/
def Block.order (b : Block) (x y : Nat) : Int :=
  if b.isFloat then cmpVal (widen .f32 false x) (widen .f32 false y)
  else if b.ty.signed then (intOf .i32 x - intOf .i32 y) else (x : Int) - y

/-- Bits that two numbers share. -/
def commonBits (x y : Nat) : Nat := (BitVec.ofNat 32 x &&& BitVec.ofNat 32 y).toNat

/-- An element that is no NaN qualifies (R185): its own bits and its widened pattern. -/
def Block.qualifies (b : Block) (v x : Nat) : Bool :=
  let c := b.order x b.c0
  match b.pred with
  | 0 => true
  | 1 => c < 0
  | 2 => c ≤ 0
  | 3 => c = 0
  | 4 => c ≠ 0
  | 5 => 0 ≤ c
  | 6 => 0 < c
  | 7 => 0 ≤ c && b.order x b.c1 ≤ 0
  | 8 => c < 0 || 0 < b.order x b.c1
  | 9 => commonBits v b.c0 ≠ 0
  | _ => commonBits v b.c0 = b.c0

/-- A record goes before another in the running list of a top-k mode; the second has the higher index (R186). -/
def Block.before (b : Block) (x y : Nat) : Bool :=
  if b.mode = 1 then decide (b.order y x ≤ 0) else decide (b.order x y ≤ 0)

/-- A record put into a sorted list, after every record that stays before it. -/
def Block.place (b : Block) (r : Nat × Nat) : List (Nat × Nat) → List (Nat × Nat)
  | [] => [r]
  | y :: ys => if b.before y.2 r.2 then y :: b.place r ys else r :: y :: ys

/-- The running result after one element (R187). -/
def Block.step (b : Block) (k : SkipCmd) (idx v : Nat) : SkipCmd :=
  if b.isFloat && (widen b.ty false v).isNan then { k with nans := k.nans + 1 }
  else
    let x := b.widened v
    if !b.qualifies v x then k
    else
      let k := { k with qualified := k.qualified + 1 }
      if b.mode ≠ 0 then { k with recs := (b.place (idx, x) k.recs).take b.kcap }
      else if k.recs.length < b.kcap then { k with recs := k.recs ++ [(idx, x)] }
      else { k with dropped := (idx :: k.dropped).take b.ocap }

/-- The running result after the elements whose bytes are given, from an index on. -/
def Block.scan (b : Block) (k : SkipCmd) (bs : List Byte) (n : Nat) : SkipCmd :=
  let w := b.width
  (upTo n).foldl (fun k i => b.step k (k.cursor + i) (field bs (w * i) w)) k

/-! ### What stands in the window (R187, R189) -/

/-- A record as a 64-bit word. -/
def recordWord (r : Nat × Nat) : Nat := r.2 * 2 ^ 32 + r.1

/-- RETURNED's records as bytes. -/
def SkipCmd.destBytes (k : SkipCmd) : List Byte := k.recs.foldr (fun r acc => leBytes 8 (recordWord r) ++ acc) []
/-- The overflow list as bytes. -/
def SkipCmd.ovfBytes (k : SkipCmd) : List Byte := k.dropped.foldr (fun i acc => leBytes 4 i ++ acc) []
/-- The counts of the status area. -/
def SkipCmd.statusBytes (k : SkipCmd) : List Byte :=
  leBytes 8 k.qualified ++ leBytes 8 k.nans ++ leBytes 8 k.cursor ++ leBytes 4 k.recs.length ++ leBytes 4 k.dropped.length

/-- What a command writes to its own block and regions is no interference (R189). -/
def State.ownResult (s : State) (i : Nat) (f : State → State) : State :=
  (f s).modCmd i (fun c => { c with skip := { c.skip with tainted := (s.cmd i).skip.tainted } })

/-- The state of a chunk's end written in the order of R189: free values where a program has interfered, in the regions that the
block named. -/
def State.writeResultState (s : State) (i : Nat) : State :=
  s.ownResult i (fun s =>
  let c := s.cmd i
  let b := blockFields c.skip.block
  if c.skip.tainted then
    let n := 8 * b.kcap + 4 * b.ocap + 32
    let f := freeBytes s.fresh n
    let s := { s with fresh := s.fresh + n }
    let s := if b.kcap = 0 then s else s.windowWrite c.team b.dest (f.take (8 * b.kcap))
    let s := if b.ocap = 0 then s else s.windowWrite c.team b.ovf ((f.drop (8 * b.kcap)).take (4 * b.ocap))
    s.windowWrite c.team (c.addr + 64) (f.drop (8 * b.kcap + 4 * b.ocap))
  else
    let s := if c.skip.recs.isEmpty then s else s.windowWrite c.team b.dest c.skip.destBytes
    let s := if c.skip.dropped.isEmpty then s else s.windowWrite c.team b.ovf c.skip.ovfBytes
    s.windowWrite c.team (c.addr + 64) c.skip.statusBytes)

/-- The sync word at a command's end: flags and one increment; COUNT and FLAGS are free where a program has interfered. -/
def State.skipSync (s : State) (i flags : Nat) : State :=
  let c := s.cmd i
  let t := s.team c.team
  let key := t.key (blockFields c.skip.block).sync
  let s := s.engineSync t.part key 1 flags
  if !c.skip.tainted || s.spadBad key 16 then s
  else
    let f := Config.freeWord s.fresh
    let lo := s.spadNat key 8
    ({ s with fresh := s.fresh + 1 } : State).spadSet key 8
      ((f.extractLsb' 0 40).toNat + swGen lo * 2 ^ 40 + (f.extractLsb' 56 3).toNat * 2 ^ 56 + lo / 2 ^ 59 * 2 ^ 59)

/-- A command ends (R190): STATE and FCODE, the sync word, ENC; the regions of a faulting one are free where a program has interfered. -/
def State.skipEnd (s : State) (i : Nat) (code : Option Nat) : State :=
  let s := if code.isSome && (s.cmd i).skip.tainted then s.writeResultState i else s
  let c := s.cmd i
  let b := blockFields c.skip.block
  match code with
  | none =>
    let isOver := b.mode = 0 && c.skip.recs.length < c.skip.qualified
    let s := s.ownResult i (fun s => (s.windowSet c.team (c.addr + 4) 1 2).windowSet c.team (c.addr + 5) 1 0)
    (s.skipSync i (if isOver then 4 else 0)).endCmd i none
  | some f =>
    let s := s.ownResult i (fun s => (s.windowSet c.team (c.addr + 4) 1 3).windowSet c.team (c.addr + 5) 1 f)
    let key := (s.team c.team).key b.sync
    let s := s.skipSync i (if f = 4 then 3 else 1)
    let s := if s.spadBad key 16 then s else { s with syncCodes := (key, f) :: s.syncCodes.filter (fun x => x.1 ≠ key) }
    s.endCmd i (some { seq := c.seq, lane := 0, code := BitVec.ofNat 8 f, addr := BitVec.ofNat 64 c.addr, rlate := none })

/-! ### Chunks (R189, R191) -/

/-- What reading a chunk finds, page by page: bytes, a fault, or that the scan is held (R349). -/
inductive Scanned where
  | bytes (bs : List Byte)
  | held
  | fault (code : Nat) (far : Option Span)

/-- Pages of a chunk in ascending order. -/
def State.scanFrom (s : State) (p : Nat) : Nat → Nat → Nat → Scanned
  | 0, _, _ => .bytes []
  | fuel + 1, va, n =>
    if n = 0 then .bytes []
    else
      let k := min n (65536 - va % 65536)
      match s.judgePage p va k true false false with
      | .fault c => .fault c none
      | .held => .held
      | .spans xs =>
        if anyFar xs then .fault 4 xs.head?
        else if s.spanBad xs then .fault 6 none
        else match s.scanFrom p fuel (va + k) (n - k) with
          | .bytes bs => .bytes (s.spanBytes xs ++ bs)
          | r => r

/-- A Skipper command of the issuing core may run: at most 16 run at once, in issue order (R190). -/
def State.skipTurn (s : State) (i : Nat) : Bool :=
  let c := s.cmd i
  decide (((s.cmds.take i).filter (fun x =>
    x.skipper && x.stage ≠ .ended && x.stage ≠ .stopped && (s.team x.team).core = (s.team c.team).core)).length < 16)

/-- SKIPPER_CHUNK (R189): the merge unit completes a chunk; the command ends with its last chunk or on a fault. An uncorrectable sync word is
read by the merge unit with the last chunk: FCODE 6 (R392). -/
def execSkipperChunk (cmd : Nat) (s : State) : Host.Outcome State Fault Refusal :=
  let c := s.cmd cmd
  let t := s.team c.team
  let b := blockFields c.skip.block
  .next (if !s.cmdRuns cmd || !c.skipper || !s.skipTurn cmd then s
  else
    match b.fault with
    | some f => s.skipEnd cmd (some f)
    | none =>
      let w := b.width
      let n := min (65536 / w) (b.count - c.skip.cursor)
      let va := b.source.toNat + c.skip.cursor * w
      match s.scanFrom t.part 3 va (n * w) with
      | .held => s
      | .fault f far =>
        let s := match far with
          | some x => s.farMiss t.part 3 t.core x
          | none => if f = 3 then s.reportMalformed t.part va (n * w) else s
        s.skipEnd cmd (some f)
      | .bytes bs =>
        let last := decide (b.count ≤ c.skip.cursor + n)
        if last && s.spadBad (t.key b.sync) 16 then s.skipEnd cmd (some 6) else
        let k := b.scan c.skip bs n
        let s := s.meter t.part 3 (w * n)
        let s := s.modCmd cmd (fun c => { c with skip := { k with cursor := k.cursor + n, tainted := c.skip.tainted } })
        let s := if b.count = 0 then s else s.writeResultState cmd
        if last then s.skipEnd cmd none else s)

/-- SKIPPER_STOP (R194): a command asked to stop does so at its chunk boundary, with STATE still 1. -/
def execSkipperStop (cmd : Nat) (s : State) : Host.Outcome State Fault Refusal :=
  .next (if (s.cmd cmd).stage = .stopping && (s.cmd cmd).skipper then s.modCmd cmd (fun c => { c with stage := .stopped }) else s)

/-- The regions that a block names lie in the window (R189, R192). -/
def blockFits (t : Team) (b : Block) : Bool :=
  decide (b.sync + 16 ≤ t.scratch) && b.sync % 16 = 0 && (b.kcap = 0 || decide (b.dest + 8 * b.kcap ≤ t.scratch))
    && (b.ocap = 0 || decide (b.ovf + 4 * b.ocap ≤ t.scratch))

/-- A stopped command restarts from its block, with its running state from what stands in the window (R194). A block that a program has
changed so that its regions leave the window is not taken: what the command writes stays in the regions that it last read (R189;
assumption 25: DEDUCED). -/
def State.skipRestart (s : State) (i : Nat) : State :=
  let c := s.cmd i
  let t := s.team c.team
  let new := s.spadBytes (t.key c.addr) 64
  let blk := if blockFits t (blockFields new) then new else c.skip.block
  let b := blockFields blk
  let num := fun off n => s.windowNat c.team off n
  let k : SkipCmd := {
    block := blk
    cursor := num (c.addr + 80) 8
    qualified := num (c.addr + 64) 8
    nans := num (c.addr + 72) 8
    recs := (upTo (num (c.addr + 88) 4)).map (fun j => (num (b.dest + 8 * j) 4, num (b.dest + 8 * j + 4) 4))
    dropped := (upTo (num (c.addr + 92) 4)).map (fun j => num (b.ovf + 4 * j) 4)
    tainted := c.skip.tainted }
  s.modCmd i (fun c => { c with stage := .running, startAt := s.cycle + 16, skip := k })

end Sys2Proof.Machine
end

