-- ==== Sys2Proof/Machine/Timebase.lean ====
section
/-!
DEFINITION. The timebase unit (R309 to R312, R327): ticks, time transfers with their cross-checks, the states of the timebase,
its configuration, failure and rejoin. A tick also carries what the manual counts in ticks and cycles.
-/
namespace Sys2Proof.Machine

/-! ### The unit's values and state -/

/-- TE and TL of an estimate: neither ever decreases (R309). -/
def Timebase.sample (t : Timebase) : Timebase :=
  { t with te := max (t.now - t.eps) t.te, tl := max (t.now + t.eps) t.tl }

/-- The state by R312, outside FAILED. -/
def Timebase.stateOf (t : Timebase) : BitVec 2 :=
  if t.rejoin.isSome || t.fresh || t.lost || t.epsFail < t.eps then 2#2
  else if t.eps ≤ t.epsCommit then 0#2 else 1#2

/-- The unit enters the state whose condition holds; entry to WIDENED is reported to the resident kernel (R312). -/
def State.settleTime (s : State) : State :=
  if s.tb.tstate = 3#2 then s
  else
    let n := s.tb.stateOf
    let s' := { s with tb := { s.tb with tstate := n } }
    if n = 1#2 && s.tb.tstate ≠ 1#2 then s'.notify .widened else s'

/-! ### A tick -/

/-- Waits of a gang with a stopped sub-gang, or of a context that is saved, do not count towards the watchdog (R232, R247). -/
def Slice.pauseWait (x : Slice) : Slice :=
  { x with wait := x.wait.map (fun w => { w with since := w.since + Config.tickCycles }) }
/-- A gang's waits for one tick. -/
def Gang.pauseTick (g : Gang) (saved : Bool) : Gang :=
  if saved || g.halted then { g with slices := g.slices.map Slice.pauseWait } else g
/-- A team's waits for one tick. -/
def Team.pauseTick (t : Team) : Team :=
  let saved := decide (t.status = .saved)
  { t with
    gangs := t.gangs.map (fun g => g.pauseTick saved)
    side := if saved then { t.side with wait := t.side.wait.map (fun w => { w with since := w.since + Config.tickCycles }) }
            else t.side }

/-- A team occupies a core: placed, not saved, and its gangs not released (R208, R383). -/
def Team.resident (t : Team) : Bool :=
  t.live && !t.released &&
  (match t.status with
    | .running | .saving _ => true
    | _ => false)

/-- Each partition's RESIDENT counter rises by its teams on a core (R359). -/
def State.meterResident (s : State) : State :=
  (upTo 16).foldl (fun s p =>
    if (s.part p).live then s.meter p 6 (s.teams.filter (fun t => t.part = p && t.resident)).length else s) s

/-- The unit after one more tick. -/
def Timebase.tick (t : Timebase) : Timebase :=
  ({ t with now := t.now + 1, n := t.n + 1, rejoin := t.rejoin.map (fun k => k - 1) } : Timebase).sample

/-- The timebase runs: the boot core has started it, and the module has not failed (R395, R398). -/
def State.clocked (s : State) : Bool :=
  match s.phase with
  | .running | .restarting => true
  | _ => false

/-- TIMEBASE_TICK (R309, R310, R312, R359). -/
def execTimebaseTick (s : State) : Host.Outcome State Fault Refusal :=
  .next (if s.clocked then
    let s := { s with
      tb := s.tb.tick
      cycle := s.cycle + Config.tickCycles
      teams := s.teams.map Team.pauseTick }
    s.meterResident.settleTime
  else s)

/-! ### Transfers (R310, R326) -/

/-- A transfer's neighbour interval overlaps the module's at the same instant. -/
def Timebase.overlaps (t : Timebase) (x : LinkTransfer) : Bool := x.te ≤ t.tl && t.te ≤ x.tl

/-- The successful transfer with the least new ε₀, the first on a tie. -/
def bestTransfer : List LinkTransfer → Option LinkTransfer
  | [] => none
  | x :: rest =>
    match bestTransfer rest with
    | none => if x.ok then some x else none
    | some y => if x.ok && x.eps ≤ y.eps then some x else some y

/-- The unit takes a transfer. -/
def Timebase.take (t : Timebase) (x : LinkTransfer) : Timebase :=
  ({ t with now := x.est, eps0 := x.eps, n := 0, fresh := false } : Timebase).sample

/-- The transfers of enabled links. -/
def State.enabledLinks (s : State) (xs : List LinkTransfer) : List LinkTransfer :=
  xs.filter (fun x => !s.portsOff.contains x.link)

/-- A good cross-check empties the record of releases (R326). -/
def State.goodCheck (s : State) : State := { s with suspects := [], suspectFull := false }

/-- TIME_TRANSFER (R310, R312, R326): every enabled link's transfer of one period. The first transfer after boot has no interval of
this module to check against (assumption 3: DESIGN CHOICE). -/
def execTimeTransfer (links : List LinkTransfer) (s : State) : Host.Outcome State Fault Refusal :=
  .next (if !s.clocked then s
  else
    let xs := s.enabledLinks links
    let ok := xs.filter (·.ok)
    if s.tb.tstate ≠ 3#2 && !s.tb.fresh && ok.any (fun x => !s.tb.overlaps x) then s.enterFailed
    else
      let s := if ok.isEmpty || s.tb.tstate = 3#2 then s else s.goodCheck
      let lost := if xs.isEmpty then s.tb.lost else xs.all (·.lost)
      let tb := match bestTransfer xs with
        | some x => s.tb.take x
        | none => s.tb
      ({ s with tb := { tb with lost := lost } } : State).settleTime)

/-- OSCILLATOR_FAULT (R312, R325). -/
def execOscillatorFault (s : State) : Host.Outcome State Fault Refusal :=
  .next (if s.clocked then s.enterFailed else s)

/-! ### Configuration and rejoin (R311, R327) -/

/-- A value in its range replaces the old one; another is refused. -/
def inRange (lo hi x old : Nat) : Nat := if lo ≤ x && x ≤ hi then x else old

/-- TIMEBASE_CONFIG (R311): each value is judged against its own range, ε_fail against the ε_commit then in force; status 0, or 1
where a value was refused. -/
def execTimebaseConfig (epsCommit epsFail lam : Nat) (s : State) : Host.Outcome State Fault Refusal :=
  .next (if s.phase ≠ .running then s
  else
    let t := s.tb
    let want := inRange 1 65535 epsCommit t.epsCommit
    let c := if inRange want 1048576 epsFail t.epsFail < want then t.epsCommit else want
    let f := inRange c 1048576 epsFail t.epsFail
    let l := inRange 16 1048576 lam t.lambda
    let bad := c ≠ epsCommit || f ≠ epsFail || l ≠ lam
    (({ s with tb := { t with epsCommit := c, epsFail := f, lambda := l } } : State).settleTime).notify (.status (if bad then 1 else 0)))

/-- A full resynchronisation: on every enabled one of the 32 links, a good transfer and an interval that agrees with the new estimate
(R327). -/
def State.fullResync (s : State) (xs : List LinkTransfer) (t : Timebase) : Bool :=
  !xs.isEmpty && (upTo 32).all (fun n => s.portsOff.contains n ||
    xs.any (fun x => x.link = n && x.ok && x.te ≤ t.now + t.eps && t.now - t.eps ≤ x.tl))

/-- REJOIN (R327): the resident kernel's start of a rejoin; the unit enters HELD for 2 × ε_fail ticks, or stays FAILED. -/
def execRejoin (links : List LinkTransfer) (s : State) : Host.Outcome State Fault Refusal :=
  .next (if s.phase ≠ .running || s.tb.tstate ≠ 3#2 then s
  else
    let xs := s.enabledLinks links
    match bestTransfer xs with
    | none => s
    | some x =>
      let t := s.tb.take x
      if s.fullResync xs t then
        { s.goodCheck with tb := { t with tstate := 2#2, rejoin := some (2 * t.epsFail), lost := xs.all (·.lost) } }
      else s)

/-- Every PENDING version of a cell becomes SUSPECT, no longer PENDING (R325, row 7); a cell that is bad is left as it stands (R392). -/
def State.settleCell (s : State) (cell : Nat) : State :=
  let vs := s.slots cell
  if vs.any (·.pending) && !s.physBad false cell 64 then
    s.setSlots cell (vs.map (fun v => if v.pending then { v with pending := false, suspect := true } else v))
  else s

/-- REJOIN_WAIT_END (R327): the wait has run out; row 7 of R325 takes effect. -/
def execRejoinWaitEnd (s : State) : Host.Outcome State Fault Refusal :=
  .next (if s.tb.rejoin = some 0 then
    let s := s.pendings.foldl (fun s x => s.settleCell x.1) s
    ({ s with pendings := [], tb := { s.tb with rejoin := none } } : State).settleTime
  else s)

end Sys2Proof.Machine
end

