-- ==== Sys2Proof/Machine/Context.lean ====
section
/-!
DEFINITION. What the resident kernel does with contexts (R371 to R373, R381 to R386): SAVE with its deadline, RESTORE, RESUME,
SKIP, KILL, context-state access, and the thermal migration of the placement unit (R214).
-/
namespace Sys2Proof.Machine

/-! ### Gangs that go on -/

/-- A gang with a slice that can issue becomes ready, unless it is ACTIVE or ready already (R210). -/
def Gang.makeReady (g : Gang) (order : Nat) : Gang :=
  if g.active.isNone && g.ready.isNone
      && (upTo 8).any (fun i => !(g.slice i).exited && !(g.slice i).stopped && (g.slice i).wait.isNone) then
    { g with ready := some order }
  else g

/-- A gang of a team becomes ready. -/
def State.makeReady (s : State) (u g : Nat) : State :=
  ({ s with order := s.order + 1 } : State).modGang u g (fun x => x.makeReady s.order)

/-- The slices of a sub-gang part where their program counters differ, each part named by its lowest slice (R228). -/
def Gang.splitByPc (g : Gang) (slices : BitVec 8) : Gang :=
  g.modSlices slices (fun i x =>
    if x.exited then x
    else { x with sub := ((upTo 8).filter (fun j =>
      slices.getLsbD j && !(g.slice j).exited && (g.slice j).pc = (g.slice i).pc)).headD i })

/-! ### Reset of a context (R383) -/

/-- A gang that has been stopped for good: every lane has exited. -/
def Gang.end_ (g : Gang) : Gang :=
  { g.modSlices 0xFF#8 (fun _ x => { x with x := 15#4, wait := none, stopped := false, stopPc := none, held := none }) with
    active := none
    ready := none
    searches := [] }

/-- The causes that a gang has raised and not yet logged go to the log, before its context is saved, killed or retired (R376). -/
def State.closeLog (s : State) (u g : Nat) : State := (s.cutRuns u g 0xFF#8).flushLog u g

/-- The reset of a context: gangs, sidecar and engine commands end, its state is discarded, a record of KIND 1 is written, and what
it held is freed as if the team had retired; remote operations in flight go on (R306). -/
def State.resetTeam (s : State) (u : Nat) : State :=
  let t := s.team u
  let s := (upTo t.ngang).foldl (fun s g => s.closeLog u g) s
  let s := s.modTeam u (fun t => { t with
    gangs := t.gangs.map Gang.end_
    side := { t.side with exited := true, stopped := false, wait := none, held := none }
    queues := []
    mmas := []
    status := .retired
    wasReset := true })
  let s : State := { s with cmds := s.cmds.map (fun c => if c.team = u then { c with stage := .ended } else c) }
  let s := s.noteTrap u 0 1 0 0 0
  let s := s.modGrid t.grid (fun g => { g with fault := true })
  (s.freeTeam u).trigEvent t.grid

/-! ### The save area (R384) -/

/-- A descriptor as 64 bytes, with the depth in its place. -/
def Desc.bytes (d : Desc) (depth : Nat) : List Byte :=
  leBytes 8 d.entry.toNat ++ leBytes 8 d.sidecar.toNat ++ leBytes 8 d.param.toNat ++ leBytes 8 d.doneWord.toNat
    ++ leBytes 4 d.teams ++ leBytes 4 d.scratch ++ leBytes 2 d.tagSets ++ leBytes 1 d.gangs ++ leBytes 1 d.vregs
    ++ leBytes 1 d.banks ++ leBytes 1 depth ++ leBytes 1 (if d.pin then 1 else 0) ++ leBytes 17 0

/-- A length rounded up to the next multiple of 256. -/
def round256 (n : Nat) : Nat := (n + 255) / 256 * 256

/-- Lengths of the records a team holds, each rounded up. -/
def State.recordBytes (s : State) (u : Nat) : Nat :=
  (upTo Config.coreRecords).foldl (fun n r =>
    let x := s.record (s.team u).home r
    if x.state ≠ .free && x.team = u then n + x.len else n) 0

/-- The offset of the Chrysalis images in a save area: after the header, the gangs' control and registers, the sidecar and queues, the
window, the tag block and the records. -/
def State.imageOffset (s : State) (u : Nat) : Nat :=
  let t := s.team u
  256 + 16 * 4096 + 4224 * t.vregs + 20480 + t.scratch + round256 (t.tagSets * 64) + round256 (s.recordBytes u)

/-- The size of a save area. -/
def State.saveSize (s : State) (u : Nat) : Nat := s.imageOffset u + (s.team u).nbanks * 20480

/-- The header of a save area: 92 bytes; zeros follow to 256. -/
def State.saveHeader (s : State) (u : Nat) : List Byte :=
  let t := s.team u
  leBytes 4 0x7E3A1C05 ++ leBytes 2 1 ++ leBytes 2 0 ++ leBytes 8 (s.saveSize u) ++ leBytes 1 t.part ++ leBytes 3 0
    ++ leBytes 4 t.num ++ leBytes 4 t.grid ++ (s.grid t.grid).desc.bytes (s.grid t.grid).depth

/-- The header of a bank's Chrysalis image (R164). -/
def Team.imageHeader (t : Team) (b : Nat) : List Byte :=
  leBytes 4 0x5C4A9E21 ++ leBytes 2 1 ++ leBytes 1 b ++ leBytes 1 (if t.mmas.any (fun m => m.bank = b) then 1 else 0)

/-- Where the registers of a gang go in the area: the whole of its part, or for a rewound gang the values and the bits of those that its mask
names. Their places within the part are opaque (assumption 18: DESIGN CHOICE). -/
def Team.registerSpans (t : Team) (g : Nat) : List (Nat × Nat) :=
  let off := 256 + 16 * 4096 + 264 * t.vregs * g
  if t.rewound.getLsbD g then
    ((upTo t.vregs).filter (fun r => (t.gang g).instar.vmask.getLsbD r)).flatMap (fun r => [(off + 256 * r, 256), (off + 256 * t.vregs + 8 * r, 8)])
  else [(off, 264 * t.vregs)]

/-- The opaque parts of a save area that a save writes, as offsets and lengths: each gang's control and registers, the sidecar and queues, the
window, the tag block, the records and the images (R384). -/
def State.areaSpans (s : State) (u : Nat) : List (Nat × Nat) :=
  let t := s.team u
  let side := 256 + 16 * 4096 + 4224 * t.vregs
  (upTo t.ngang).flatMap (fun g => (256 + 4096 * g, 4096) :: t.registerSpans g)
    ++ [(side, 20480), (side + 20480, t.scratch), (side + 20480 + t.scratch, t.tagSets * 64),
        (side + 20480 + t.scratch + round256 (t.tagSets * 64), s.recordBytes u), (s.imageOffset u, 20480 * t.nbanks)]

/-- Opaque bytes written to device memory: free values (assumptions 1 and 18: DESIGN CHOICE). -/
def State.writeOpaque (s : State) (a n : Nat) : State :=
  { s.physWrite false a (freeBytes s.fresh n) with fresh := s.fresh + n }

/-- The save area written (R384): the header, the opaque parts, and in them the save's number, by which a restore knows what they hold
(assumption 18: DESIGN CHOICE). -/
def State.writeArea (s : State) (u : Nat) : State :=
  let t := s.team u
  let num := leBytes 8 t.saveNum
  let s' := s.physWrite false t.area (s.saveHeader u ++ (upTo 164).map (fun _ => 0#8))
  let s' := (s.areaSpans u).foldl (fun z x => z.writeOpaque (t.area + x.1) x.2) s'
  let s' := s'.physWrite false (t.area + 256) num
  (upTo t.nbanks).foldl (fun z b => z.physWrite false (t.area + s.imageOffset u + 20480 * b) (t.imageHeader b ++ num)) s'

/-- The records of a team, by number, with their bytes. -/
def State.savedRecords (s : State) (u : Nat) : List (Nat × ObRecord × List Byte) :=
  let home := (s.team u).home
  ((upTo Config.coreRecords).filter (fun r => (s.record home r).state ≠ .free && (s.record home r).team = u)).map (fun r =>
    (r, s.record home r, memRead s.obuf (obufKey home (s.record home r).base) (s.record home r).len))

/-- A context enters the saves under the next number, and is written to its area. -/
def State.keepSave (s : State) (u : Nat) : State :=
  let s := s.modTeam u (fun t => { t with saveNum := s.saves.length })
  let t := s.team u
  let x : SavedCtx := { slot := u, team := t, window := s.spadBytes (t.key 0) t.scratch, records := s.savedRecords u }
  ({ s with saves := s.saves ++ [x] } : State).writeArea u

/-- The save of a context that a part of an area holds, by the number in it. -/
def State.savedIn (s : State) (u a : Nat) : Option SavedCtx :=
  let n := leNat (s.physBytes false a 8)
  if n < s.saves.length then
    (let x : SavedCtx := rowGet { slot := 0, team := {}, window := [], records := [] } s.saves n
     if x.slot = u then some x else none)
  else none

/-- The headers at an address are the ones that a restore of the team accepts, and the parts come from saves of it (R164, R385). -/
def State.areaOk (s : State) (u area : Nat) : Bool :=
  let t := s.team u
  let h := s.saveHeader u
  !s.physBad false area 264 && s.physBytes false area h.length = h && (s.savedIn u (area + 256)).isSome &&
  (upTo t.nbanks).all (fun b =>
    let a := area + s.imageOffset u + 20480 * b
    !s.physBad false a 16 && s.physBytes false a 7 = (t.imageHeader b).take 7 && field (s.physBytes false a 8) 7 1 < 2
      && (s.savedIn u (a + 8)).isSome)

/-! ### SAVE (R381, R382) -/

/-- The gang can rewind: rewindable, not exited, with no unit stopped (R381). -/
def Gang.mayRewind (g : Gang) : Bool := g.instar.rewindable && !g.exited && !g.halted

/-- Rewindable gangs of a context that is being saved rewind: they issue no more, and wait at no queue. -/
def Team.rewindGangs (t : Team) : Team :=
  (upTo t.ngang).foldl (fun t g =>
    if (t.gang g).mayRewind && !t.rewound.getLsbD g then
      (upTo 8).foldl (fun t sub => t.unblock g sub) { t with rewound := t.rewound ||| (1#16 <<< g) }
    else t) t

/-- A gang has nothing more to run in a save: it has rewound or exited, or is saved where it stands. -/
def Team.gangDone (t : Team) (g : Nat) : Bool := t.rewound.getLsbD g || (t.gang g).still || (t.gang g).inPlace

/-- The save of a context can be completed: its gangs have nothing more to run; engine commands stand; the array holds at most a frozen
MMA. -/
def State.saveDone (s : State) (u : Nat) : Bool :=
  let t := s.team u
  (upTo t.ngang).all t.gangDone
    && s.cmds.all (fun c => c.team ≠ u || c.stage = .stopped || c.stage = .ended)
    && t.mmas.all (·.frozen)

/-- A gang as the save leaves it. -/
def Team.saveGang (t : Team) (n : Nat) : Gang :=
  let g := t.gang n
  { (if t.rewound.getLsbD n then g.rewind else g) with latch := none, active := none, ready := none }

/-- The time that the fills of a team's records still take, in place of their end, while its context is saved; and their end again
(R165). -/
def State.stopFills (s : State) (u : Nat) : State :=
  s.modCore (s.team u).home (fun c => { c with records := c.records.map (fun r =>
    if r.team = u && r.state = .filling then { r with fillEnd := r.fillEnd - s.cycle } else r) })
/-- The fills of a team's records go on. -/
def State.startFills (s : State) (u : Nat) : State :=
  s.modCore (s.team u).home (fun c => { c with records := c.records.map (fun r =>
    if r.team = u && r.state = .filling then { r with fillEnd := r.fillEnd + s.cycle } else r) })

/-- A context that is being saved goes as far as it can: rewindable gangs rewind, and when nothing of it runs, it is saved (R381). -/
def State.saveCheck (s : State) (u : Nat) : State :=
  match (s.team u).status with
  | .saving _ =>
    let s := s.modTeam u Team.rewindGangs
    if s.saveDone u then
      let s := (upTo (s.team u).ngang).foldl (fun s g => s.closeLog u g) s
      let s := s.modTeam u (fun t => { t with gangs := (upTo t.ngang).map t.saveGang, status := .saved })
      ((s.stopFills u).keepSave u).notify (.saved u)
    else s
  | _ => s

/-- An MMA still in its plane passes freezes (R164). -/
def MmaOp.freeze (m : MmaOp) (cycle : Nat) : MmaOp := if cycle < m.passEnd then { m with frozen := true } else m

/-- A SAVE starts (R381), with the context's own deadline (R383): the array's frozen MMA frees the array, engine commands are asked to
stop. -/
def State.startSave (s : State) (u area : Nat) (dst : List Nat) : State :=
  let t := s.team u
  let s := s.meter t.part 11 1
  let s := if t.mmas.any (fun m => s.cycle < m.passEnd) then s.modCore t.core (fun c => { c with arrayFree := s.cycle }) else s
  let s := s.modTeam u (fun t => { t with
    status := .saving (s.cycle + t.deadline)
    area := area
    migrate := dst
    rewound := 0#16
    mmas := t.mmas.map (fun m => m.freeze s.cycle) })
  let s : State := { s with cmds := s.cmds.map (fun c => if c.team = u && c.stage = .running then { c with stage := .stopping } else c) }
  s.saveCheck u

/-- A context that a SAVE may name: on a core, and not being saved. -/
def State.mayShip (s : State) (u : Nat) : Bool :=
  u < s.teams.length && (s.team u).live && !(s.team u).released && (s.team u).status = .running

/-- A deadline in its range: 10 µs to 100 ms, in cycles (R383). -/
def deadlineOk (n : Nat) : Bool := 10 * Config.cyclesPerMicrosecond ≤ n && n ≤ 100000 * Config.cyclesPerMicrosecond

/-- SAVE (R381): of a team, to an area of device memory; a deadline in cycles that comes with it is set for the context (R383). Status 1
where the command names no context that can be saved, or a deadline out of range. -/
def execSave (team area : Nat) (deadline : Option Nat) (s : State) : Host.Outcome State Fault Refusal :=
  .next (if s.phase ≠ .running then s
  else
    let d := deadline.getD (s.team team).deadline
    if s.mayShip team && deadlineOk d then (s.modTeam team (fun t => { t with deadline := d })).startSave team area []
    else s.notify (.status 1))

/-- A SAVE has reached its deadline with a gang that still runs (R383). -/
def State.saveLate (s : State) (u : Nat) : Bool :=
  u < s.teams.length && (s.team u).live &&
  (match (s.team u).status with
    | .saving d => decide (d ≤ s.cycle) && !(upTo (s.team u).ngang).all (s.team u).gangDone
    | _ => false)

/-- SAVE_DEADLINE (R383). -/
def execSaveDeadline (team : Nat) (s : State) : Host.Outcome State Fault Refusal :=
  .next (if s.saveLate team then s.resetTeam team else s)

/-! ### RESTORE (R382, R385) -/

/-- A stopped chain restarts from its head: entry, bytes done and iterations left are reread (R303); an uncorrectable head is a fault
of the chain (R392). -/
def State.chainRestart (s : State) (i : Nat) : State :=
  let c := s.cmd i
  if s.spadBad ((s.team c.team).key c.addr) 16 then s.chainFault i 6 (c.chain.word none)
  else
    let left := s.windowNat c.team (c.addr + 8) 4
    s.modCmd i (fun c => { c with
      stage := .running
      startAt := s.cycle + 16
      chain := { c.chain with
        entry := s.windowNat c.team c.addr 4
        doneb := s.windowNat c.team (c.addr + 4) 4
        iter := c.chain.iter + c.chain.loopLeft - left
        loopLeft := left
        cur := none
        opened := false } })

/-- The stopped commands of a context restart (R194, R303). -/
def State.restartCmds (s : State) (u : Nat) : State :=
  (upTo s.cmds.length).foldl (fun s i =>
    let c := s.cmd i
    if c.team = u && c.stage = .stopped then (if c.skipper then s.skipRestart i else s.chainRestart i) else s) s

/-- A frozen MMA starts again from its first plane pass (R165). -/
def State.restartMmas (s : State) (u : Nat) : State :=
  let t := s.team u
  t.mmas.foldl (fun s m =>
    let start := max s.cycle (s.core t.core).arrayFree
    let stop := start + 4 * m.planes
    (s.modCore t.core (fun c => { c with arrayFree := stop })).modTeam u (fun t => { t with
      mmas := t.mmas.map (fun x => if x = m then { x with frozen := false, passEnd := stop, writeAt := stop + 20 } else x) })) s

/-- A gang after a restore: a rewound gang starts its recipe's body, whose words are the first it issues; it comes to its rewind point
at the body's end (R382). Any other goes on where it stood, after the check of R225. -/
def Gang.restore (g : Gang) (rewound : Bool) (order : Nat) : Gang :=
  (if !rewound then g.recheck else if g.instar.blen = 0 then g.bodyStart.bodyEnd else g.bodyStart).makeReady order

/-- A sidecar as a restore finds it: SWAIT and QPUSH are issued again (R386). -/
def Sidecar.restore (x : Sidecar) : Sidecar :=
  { x with wait := (match x.wait with
    | some w => (match w.kind with
      | .swait _ _ | .qpush _ _ => none
      | _ => some w)
    | none => none) }

/-- A context placed on a core again; before a gang issues, its slices make the check of R225. -/
def State.place (s : State) (u c : Nat) (x : Placement) : State :=
  let s := { s with order := s.order + 1 }
  let t := s.team u
  let gs := s.seat c ((upTo t.ngang).map (fun g => (t.gang g).restore (t.rewound.getLsbD g) s.order))
  let s := s.modTeam u (fun t => { t with
    core := c
    resBase := x.base
    tagBase := x.tagBase
    physBanks := x.banks
    sideSlot := x.slot
    placedAt := s.cycle
    status := .running
    migrate := []
    rewound := 0#16
    side := t.side.restore
    gangs := gs })
  (((s.startFills u).restartMmas u).restartCmds u).notify (.restored u true)

/-- A record and its bytes put back, where its number is free or the team's. -/
def State.loadRecord (s : State) (u : Nat) (x : Nat × ObRecord × List Byte) : State :=
  let home := (s.team u).home
  let r := s.record home x.1
  if r.state = .free || r.team = u then
    ({ s with obuf := memWrite s.obuf (obufKey home x.2.1.base) x.2.2 } : State).modRecord home x.1 (fun _ => x.2.1)
  else s

/-- A context as one of its saves has it: team, window and records (assumption 18: DESIGN CHOICE). -/
def State.loadSave (s : State) (x : SavedCtx) : State :=
  let u := x.slot
  let home := (s.team u).home
  let s := s.modCore home (fun c => { c with records := c.records.map (fun r => if r.team = u then { r with state := .free } else r) })
  let s := s.modTeam u (fun t => { x.team with area := t.area, deadline := t.deadline })
  x.records.foldl (fun s r => s.loadRecord u r) (s.spadWrite ((s.team u).key 0) x.window)

/-- A bank as one of the context's saves has it: its elements, its status and a frozen MMA (R165). -/
def Team.loadBank (t : Team) (x : Team) (b : Nat) : Team :=
  { t with
    banks := rowPut {} t.banks b (x.bank b)
    mmas := t.mmas.filter (fun m => m.bank ≠ b) ++ x.mmas.filter (fun m => m.bank = b) }

/-- What a restore reads of an area: the save that the first part comes from, unless it is the context's last, which State still holds; and
banks whose images come from another (R165). -/
def State.loadArea (s : State) (u area : Nat) : State :=
  match s.savedIn u (area + 256) with
  | none => s
  | some x =>
    let num := x.team.saveNum
    let off := s.imageOffset u
    let s := if num = (s.team u).saveNum then s else s.loadSave x
    (upTo (s.team u).nbanks).foldl (fun s b =>
      match s.savedIn u (area + off + 20480 * b + 8) with
      | none => s
      | some y => if y.team.saveNum = num then s else s.modTeam u (fun t => t.loadBank y.team b)) s

/-- What a context needs of a core. -/
def Team.needs (t : Team) : Needs :=
  { gangs := t.ngang, scratch := t.scratch, tagSets := t.tagSets, banks := t.nbanks, sidecar := t.side.present }

/-- The fit of a saved context on a core of its partition. -/
def State.fitTeam (s : State) (u c : Nat) : Option Placement :=
  let t := s.team u
  if (s.partCores t.part).contains c then s.fitOn t.needs c (if c = t.home then some t.base else none) else none

/-- RESTORE (R385): of a saved team, on a core, from an area. A failed check resets the context; where it does not fit the core, it
stays saved. -/
def execRestore (team core area : Nat) (s : State) : Host.Outcome State Fault Refusal :=
  .next (if s.phase ≠ .running then s
  else if !(team < s.teams.length && (s.team team).live && (s.team team).status = .saved) then s.notify (.restored team false)
  else if !s.areaOk team area then ((s.resetTeam team).noteTrap team 0 2 0 0 0).notify (.restored team false)
  else match s.fitTeam team core with
  | some x => (s.loadArea team area).place team core x
  | none => s.notify (.restored team false))

/-! ### RESUME, SKIP, KILL (R371) -/

/-- The stopped slices that an action on a sub-gang concerns, once its record is in the ring (R366); none where nothing may be done. -/
def State.actOn (s : State) (u g sub : Nat) : Option (BitVec 8) :=
  let t := s.team u
  if s.phase ≠ .running || !(u < s.teams.length) || !t.live then none
  else if g = 16 then
    (if t.side.present && t.side.stopped && s.stopRecorded t.part t.side.held then some 0#8 else none)
  else
    let x := t.gang g
    let sl := x.stoppedOf sub
    if g < t.ngang && sl ≠ 0#8 && (upTo 8).all (fun i => !sl.getLsbD i || s.stopRecorded t.part (x.slice i).held) then some sl
    else none

/-- RESUME (R371): the slices make the check of R225 before the word is issued again. -/
def execResume (team gang sub : Nat) (s : State) : Host.Outcome State Fault Refusal :=
  .next (match s.actOn team gang sub with
  | none => s.notify (.status 1)
  | some sl =>
    let s := s.unstop team gang sl
    if gang = 16 then s else (s.modGang team gang (fun g => g.part sl)).makeReady team gang)

/-- The word at a program counter is an INV: words of its routine (R180). -/
def State.routineAt (s : State) (p : Nat) (pc : Addr) : Nat :=
  match s.fetch p pc with
  | .word w => (match decode w with
    | .ok (.inv _ _ _ _ len _) => len.toNat + 1
    | _ => 0)
  | _ => 0

/-- A gang's slices past the reported word: past an INV's routine, or with the loop-end step at a body's last word. -/
def Gang.skipWord (g : Gang) (slices : BitVec 8) (routine : Nat) : Gang :=
  let g' := if routine = 0 then g.advance slices else g.pastRoutine slices (g.pcOf slices + BitVec.ofNat 64 (4 * routine))
  (g'.part slices).bodyCheck slices

/-- SKIP by the resident kernel (R371). -/
def execKernelSkip (team gang sub : Nat) (s : State) : Host.Outcome State Fault Refusal :=
  .next (match s.actOn team gang sub with
  | none => s.notify (.status 1)
  | some sl =>
    if gang = 16 then
      s.modTeam team (fun t => { t with side := { t.side with stopped := false, held := none, pc := t.side.pc + 4#64 } })
    else
      let n := s.routineAt (s.team team).part ((s.gang team gang).pcOf sl)
      (s.modGang team gang (fun g =>
        { g.modSlices sl (fun _ y => { y with stopped := false, stopPc := none, held := none }) with
          skipCmp := g.skipCmp &&& ~~~ sl }.skipWord sl n)).makeReady team gang)

/-- KILL (R371, R383). -/
def execKill (team : Nat) (s : State) : Host.Outcome State Fault Refusal :=
  .next (if s.phase ≠ .running then s
  else if team < s.teams.length && (s.team team).live then s.resetTeam team
  else s.notify (.status 1))

/-! ### Context-state access (R372) -/

/-- Some unit of the team is stopped. -/
def Team.anyStopped (t : Team) : Bool :=
  (t.side.present && t.side.stopped) || (upTo t.ngang).any (fun g => (t.gang g).halted)

/-- The gang that an item belongs to: 16 for the sidecar, none for the team as a whole. -/
def ctxGang : CtxItem → Option Nat
  | .vreg g _ _ | .pred g _ _ | .bracket g _ _ | .invst g _ | .kreg g _ | .lcount g _ | .gmode g | .pc g _ | .masks g _
  | .rc g _ | .recStack g _ | .retStack g _ | .levels g | .counter g _ | .watchdog g => some g
  | .window _ | .record _ | .bank _ _ | .tagWay _ _ | .queue _ => none

/-- The item exists in the team. -/
def ctxExists (t : Team) : CtxItem → Bool
  | .vreg _ _ r => decide (r < t.vregs)
  | .counter g c => g ≠ 16 || c = .enc
  | .window off => decide (off + 8 ≤ t.scratch)
  | .bank b _ => decide (b < t.nbanks)
  | .tagWay set _ => decide (set < t.tagSets)
  | .queue _ => t.side.present
  | _ => true

/-- An access may be made: the context is saved, or the unit that the item belongs to is stopped. -/
def State.ctxOpen (s : State) (u : Nat) (it : CtxItem) : Bool :=
  let t := s.team u
  s.phase = .running && decide (u < s.teams.length) && t.live && ctxExists t it &&
  (match ctxGang it with
    | none => t.status = .saved || t.anyStopped
    | some g =>
      if g = 16 then t.side.present && (t.status = .saved || t.side.stopped)
      else decide (g < t.ngang) && (t.status = .saved || (t.gang g).halted))

/-- A value that may be absent, as two words. -/
def optWords : Option Word → List Word
  | none => [0, 0]
  | some w => [1, w]
/-- A flag as a word. -/
def boolWord (b : Bool) : Word := if b then 1 else 0
/-- A number as a word. -/
def natWord (n : Nat) : Word := BitVec.ofNat 64 n

/-- The words of a counter and its flags. -/
def Counter.words (c : Counter) : List (List Word) :=
  [natWord c.value] :: c.flags.map (fun f => [natWord f.lane, f.code.setWidth 64, f.addr] ++ optWords f.rlate)

/-- The states of a record, as numbers. -/
def RecState.num : RecState → Nat
  | .free => 0 | .live => 1 | .filling => 2 | .quarantined => 3

/-- What a read of an item gives; the free values of bad words are drawn (R372). -/
def State.ctxRead (s : State) (u : Nat) (it : CtxItem) : Notice × State :=
  let t := s.team u
  let word := fun (w : Word) => (Notice.ctxValue w true false, s)
  let list := fun (ws : List (List Word)) => (Notice.ctxList ws, s)
  match it with
  | .vreg g l r =>
    let x := ((t.gang g).lane l).vreg (BitVec.ofNat 6 r)
    (.ctxValue x.val x.full x.poison, s)
  | .pred g l r => word (boolWord (((t.gang g).lane l).pred (BitVec.ofNat 3 r)))
  | .bracket g l r => word (((t.gang g).lane l).bracket (BitVec.ofNat 2 r))
  | .invst g l => word ((t.gang g).lane l).invst
  | .kreg g r => word (s.partyK u g (BitVec.ofNat 5 r))
  | .lcount g r => word (((t.gang g).lcount r).setWidth 64)
  | .gmode g => word ((t.gang g).gmode.setWidth 64)
  | .pc g i => word (if g = 16 then t.side.pc else ((t.gang g).slice i).pc)
  | .masks g i => word (((t.gang g).slice i).m.setWidth 64 ||| (((t.gang g).slice i).x.setWidth 64 <<< 4))
  | .rc g i => list [optWords ((t.gang g).slice i).rc]
  | .recStack g i => list (((t.gang g).slice i).stack.map (fun e => optWords e.pc ++ [e.mask.setWidth 64] ++ optWords e.ra))
  | .retStack g i => list (((t.gang g).slice i).ret.map (fun e => [e.ret, natWord e.depth]))
  | .levels g => list ((t.gang g).levels.map (fun x =>
      [natWord x.lc, x.start, x.stop, natWord x.depth] ++ x.rdepth.map natWord))
  | .counter g c => list (s.partyCounter u g c).words
  | .watchdog g => word (natWord (if g = 16 then t.side.watchdog else (t.gang g).watchdog))
  | .window off =>
    -- an uncorrectable word reads as free values, marked as poisoned (R392; assumption 1: DESIGN CHOICE)
    if s.spadBad (t.key off) 8 then
      (.ctxValue (natWord (leNat (freeBytes s.fresh 8))) true true, { s with fresh := s.fresh + 8 })
    else (.ctxValue (natWord (s.spadNat (t.key off) 8)) true false, s)
  | .record r =>
    let x := s.record t.home r
    list (if x.team = u && x.state ≠ .free then
        [[natWord x.state.num, natWord x.rows, natWord x.cols, natWord x.fmt, natWord x.lb, x.req, natWord x.base, natWord x.len],
         (upTo (x.len / 8)).map (fun i => natWord (leNat (s.obufSeen (obufKey t.home (x.base + 8 * i)) 8)))]
      else [[0]])
  | .bank b i => (.ctxValue (((t.bank b).elem (i / 128) (i % 128)).setWidth 64) true (t.bank b).poisoned, s)
  | .tagWay set way =>
    let x : TagSet := rowGet {} t.tags set
    let y : TagWay := rowGet {} x.ways way
    list [[boolWord y.valid, y.key, y.slot.setWidth 64], x.recency.map natWord]
  | .queue q => list (t.queue (BitVec.ofNat 2 q)).entries

/-- CONTEXT_STATE_READ (R372). -/
def execContextStateRead (team : Nat) (item : CtxItem) (s : State) : Host.Outcome State Fault Refusal :=
  .next (if s.ctxOpen team item then
    let r := s.ctxRead team item
    r.2.notify r.1
  else s.notify (.status 1))

/-- What the kernel may write, and the values that an item takes (R372). -/
def ctxWritable (item : CtxItem) (v : CtxValue) : Bool :=
  match item with
  | .vreg _ _ _ | .pred _ _ _ | .bracket _ _ _ | .invst _ _ | .kreg _ _ | .lcount _ _ | .gmode _ | .window _ => true
  | .pc _ _ => v.val.extractLsb' 0 2 = 0#2
  | .watchdog _ => 65536 ≤ v.val.toNat && v.val.toNat ≤ 2147483648
  | .queue _ => decide (v.entries.length ≤ 16)
  | .masks _ _ | .rc _ _ | .recStack _ _ | .retStack _ _ | .levels _ | .counter _ _ | .record _ | .bank _ _ | .tagWay _ _ => false

/-- A vector register written by the kernel: EMPTY with no producer where the full bit is clear; the reuse latch lets go of it. -/
def Gang.ctxSetV (g : Gang) (l r : Nat) (v : CtxValue) : Gang :=
  { g.modLanes (1#32 <<< l) (fun _ x => x.setV (BitVec.ofNat 6 r) { val := v.val, full := v.full, poison := v.poison }) with
    latch := (match g.latch with
      | some a => if a.toNat ≤ r && r ≤ a.toNat + 8 then none else some a
      | none => none) }

/-- A slice's program counter written: the wait at its old word ends, its INV is cut short, and its sub-gang parts. -/
def Gang.ctxSetPc (g : Gang) (i : Nat) (pc : Addr) : Gang :=
  let sub := g.subgang (g.slice i).sub
  (g.modSlices (1#8 <<< i) (fun _ x => { x with pc := pc, wait := none })).splitByPc sub

/-- What the kernel writes to a rewound gang of a saved context enters its snapshot, from which the restore takes control (R372, R382). -/
def Team.resnap (t : Team) (g : Nat) (f : Snapshot → Snapshot) : Team :=
  if t.status = .saved && t.rewound.getLsbD g then t.modGang g (fun x => { x with instar := { x.instar with snap := f x.instar.snap } })
  else t
/-- The same, of a team by its place. -/
def State.resnap (s : State) (u g : Nat) (f : Snapshot → Snapshot) : State := s.modTeam u (fun t => t.resnap g f)
/-- The program counter of a slice in a snapshot. -/
def Snapshot.setPc (x : Snapshot) (i : Nat) (pc : Addr) : Snapshot :=
  { x with slices := rowMod { pc := x.pc, m := 15, x := 0, rc := none, stack := [], ret := [] } x.slices i (fun y => { y with pc := pc }) }

/-- An item written. -/
def State.ctxWrite (s : State) (u : Nat) (it : CtxItem) (v : CtxValue) : State :=
  match it with
  | .vreg g l r => s.modGang u g (fun x => x.ctxSetV l r v)
  | .pred g l r =>
    let s := s.modGang u g (fun x => x.writeP (BitVec.ofNat 3 r) (1#32 <<< l) (fun _ => v.val.getLsbD 0))
    s.resnap u g (fun x => { x with preds := rowPut 0 x.preds l ((s.gang u g).lane l).p })
  | .bracket g l r => s.modGang u g (fun x => x.modLanes (1#32 <<< l) (fun _ y => y.setB (BitVec.ofNat 2 r) v.val))
  -- bits 31:9 of INVST read as zero, and what is written to them is dropped (assumption 42: DESIGN CHOICE)
  | .invst g l => s.modGang u g (fun x => x.modLanes (1#32 <<< l) (fun _ y => { y with invst := v.val &&& 0xFFFFFFFF000001FF#64 }))
  | .kreg g r =>
    if g = 16 then s.writeK { team := u, gang := 16, slices := 0 } (BitVec.ofNat 5 r) v.val
    else s.modGang u g (fun x => { x with k := rowPut 0 x.k r v.val, kbad := x.kbad &&& ~~~ (1#32 <<< r) })
  | .lcount g r =>
    (s.modGang u g (fun x => { x with lc := rowPut 0 x.lc r (v.val.setWidth 32), lcbad := x.lcbad &&& ~~~ (1#3 <<< r) })).resnap u g
      (fun x => { x with lc := rowPut 0 x.lc r (v.val.setWidth 32) })
  | .gmode g =>
    (s.modGang u g (fun x => { x with gmode := v.val.setWidth 32 })).resnap u g (fun x => { x with gmode := v.val.setWidth 32 })
  | .pc g i =>
    if g = 16 then s.modTeam u (fun t => { t with side := { t.side with pc := v.val, wait := none } })
    else
      let s := (s.modTeam u (fun t => t.unblock g ((t.gang g).slice i).sub)).cutRuns u g (1#8 <<< i)
      let s := (s.modGang u g (fun x => x.ctxSetPc i v.val)).resnap u g (fun x => x.setPc i v.val)
      if (s.team u).status = .running then (s.modGang u g Gang.recheck).makeReady u g else s
  | .watchdog g =>
    if g = 16 then s.modTeam u (fun t => { t with side := { t.side with watchdog := v.val.toNat } })
    else s.modGang u g (fun x => { x with watchdog := v.val.toNat })
  | .window off => s.windowSet u off 8 v.val.toNat
  | .queue q => s.modTeam u (fun t => { t with
      queues := rowMod {} t.queues q (fun x => { x with entries := v.entries.map (fun e => (upTo 32).map (fun l => rowGet 0 e l)) }) })
  | .masks _ _ | .rc _ _ | .recStack _ _ | .retStack _ _ | .levels _ | .counter _ _ | .record _ | .bank _ _ | .tagWay _ _ => s

/-- CONTEXT_STATE_WRITE (R372): status 0, or 1 where the access is not open or the item does not take the value. -/
def execContextStateWrite (team : Nat) (item : CtxItem) (v : CtxValue) (s : State) : Host.Outcome State Fault Refusal :=
  .next (if s.ctxOpen team item && ctxWritable item v then (s.ctxWrite team item v).notify (.status 0) else s.notify (.status 1))

/-! ### Thermal migration (R214) -/

/-- 500 µs in cycles. -/
def migrationSpan : Nat := 500 * Config.cyclesPerMicrosecond

/-- The team that a hot core gives up: of those resident for 500 µs whose grid has no PIN, the one resident longest. -/
def State.migrant (s : State) (c : Nat) : Option Nat :=
  ((upTo s.teams.length).filter (fun u =>
    let t := s.team u
    t.onCore c && t.status = .running && decide (t.placedAt + migrationSpan ≤ s.cycle) && !(s.grid t.grid).desc.pin)).foldl
    (fun (best : Option Nat) u =>
      match best with
      | none => some u
      | some b => if (s.team u).placedAt < (s.team b).placedAt then some u else some b) none

/-- The coolest core of the partition that fits a team. -/
def State.coolTarget (s : State) (u : Nat) (coolest : List Nat) : Option (Nat × Placement) :=
  coolest.findSome? (fun c => (s.fitTeam u c).map (fun x => (c, x)))

/-- A core's temperature is above the limit that the resident kernel has set. -/
def CoreState.above (c : CoreState) (temp : Nat) : Bool :=
  match c.thermalLimit with
  | some l => decide (l < temp)
  | none => false
/-- It is below that limit. -/
def CoreState.below (c : CoreState) (temp : Nat) : Bool :=
  match c.thermalLimit with
  | some l => decide (temp < l)
  | none => true

/-- THERMAL_MIGRATION (R214): a core's temperature above its limit, the cores from the coolest on, and the area that the team's SAVE writes. The
team goes the way of a SAVE, with its own deadline, and is restored on the coolest other core that fits it; with no such team or core,
or within 500 µs of the last, the core is throttled (assumption 18: DESIGN CHOICE). -/
def execThermalMigration (core : Nat) (heat : HeatReport) (s : State) : Host.Outcome State Fault Refusal :=
  .next (if !s.clocked || !(s.core core).above heat.temp then s
  else
    let s := s.modCore core (fun c => { c with hot := true })
    let throttle := s.modCore core (fun c => { c with throttled := true })
    let early := (match (s.core core).lastMigration with
      | some x => decide (s.cycle < x + migrationSpan)
      | none => false)
    let others := heat.coolest.filter (fun d => d ≠ core)
    if early || s.phase ≠ .running then throttle
    else match s.migrant core with
    | none => throttle
    | some u =>
      if (s.coolTarget u others).isSome then
        (s.modCore core (fun c => { c with lastMigration := some s.cycle })).startSave u heat.area others
      else throttle)

/-- A context saved for a migration is restored on the coolest of its cores that fits it, and stays saved while none does (R214). -/
def State.landMigrant (s : State) (u : Nat) : State :=
  let t := s.team u
  if t.live && t.status = .saved then
    match s.coolTarget u t.migrate with
    | some (c, x) => s.place u c x
    | none => s
  else s

end Sys2Proof.Machine
end

