-- ==== Sys2Proof/Machine/Control.lean ====
section
/-!
DEFINITION. Control flow (R221 to R245): branches, calls, loops, REGANG, EXIT and BKPT; the words of R71.
-/
namespace Sys2Proof.Machine

/-- A word offset of 20 bits from the next word (R224). -/
def off20Target (pc : Addr) (off : BitVec 20) : Addr := pc + 4#64 + (off.signExtend 64 <<< 2)
/-- A word offset of 9 bits from the next word (R233). -/
def off9Target (pc : Addr) (off : BitVec 9) : Addr := pc + 4#64 + (off.signExtend 64 <<< 2)

/-- The return depth of the unit: of its lowest slice. -/
def Gang.retDepth (g : Gang) (slices : BitVec 8) : Nat := (g.slice (lowSlice slices)).ret.length

/-- A slice of the unit is at a return depth. -/
def Gang.atDepth (g : Gang) (slices : BitVec 8) (n : Nat) : Bool :=
  (upTo 8).any (fun i => slices.getLsbD i && (g.slice i).ret.length = n)

/-- The body of a level holds an address. -/
def LoopLevel.holds (x : LoopLevel) (a : Addr) : Bool := x.start.toNat ≤ a.toNat && a.toNat ≤ x.stop.toNat

/-- The levels that a transfer to a target ends: those at the return depth of a slice of the unit whose body does not hold it (R240). -/
def Gang.levelsLeft (g : Gang) (slices : BitVec 8) (tgt : Addr) (x : LoopLevel) : Bool := g.atDepth slices x.depth && !x.holds tgt

/-- Levels that satisfy a condition end: their counters become 0 (R240). -/
def Gang.closeLevels (g : Gang) (c : LoopLevel → Bool) : Gang :=
  { g with
    lc := (g.levels.filter c).foldl (fun lc x => rowPut 0 lc x.lc 0) g.lc
    levels := g.levels.filter (fun x => !c x) }

/-- Ending a level is legal only when the unit is whole and every live lane is active (R240). -/
def Gang.mayLeave (g : Gang) (slices : BitVec 8) : Bool :=
  g.whole slices && g.activeOf slices = ~~~ g.exitedLanes

/-- The slices of the unit go to a target. -/
def Gang.goto (g : Gang) (slices : BitVec 8) (tgt : Addr) : Gang := g.modSlices slices (fun _ x => { x with pc := tgt })

/-- A transfer of the whole unit, with the levels it ends. -/
def transfer (c : Ctx) (tgt : Addr) (s : State) : Except Stop State :=
  let left := c.g.levelsLeft c.u.slices tgt
  if c.g.levels.any left && !c.g.mayLeave c.u.slices then .error (.trap convergence)
  else .ok (s.modGang c.u.team c.u.gang (fun g => (g.closeLevels left).goto c.u.slices tgt))

/-- NOP (R71). -/
def execNop (s : State) : Host.Outcome State Fault Refusal :=
  issue .nop { sidecar := true } (fun _ s => .ok s) s

/-- A slice after EXIT: its active lanes exit, and the stack is popped to the first entry that holds a lane left (R227). -/
def Slice.exitPop : Nat → Slice → Slice
  | 0, x => x
  | n + 1, x =>
    match x.stack with
    | [] => x
    | e :: rest =>
      let m := e.mask &&& ~~~ x.x
      if m ≠ 0#4 then
        { x with stack := rest, m := m, pc := e.pc.getD 0, rc := (match rest with
            | [] => none
            | r :: _ => r.ra) }
      else Slice.exitPop n { x with stack := rest }

/-- EXIT of a slice. -/
def Slice.exit (x : Slice) : Slice :=
  let x := { x with x := x.x ||| x.m }
  Slice.exitPop x.stack.length x

/-- EXIT (R227). -/
def execExit (s : State) : Host.Outcome State Fault Refusal :=
  issue .exit { sidecar := true, jumps := true } (fun c s =>
    if c.u.gang = 16 then
      .ok (s.modTeam c.u.team (fun t => { t with side := { t.side with exited := true, exitPc := c.pc } }))
    else
      .ok ((s.modGang c.u.team c.u.gang (fun g =>
        { g.modSlices c.u.slices (fun _ x => x.exit) with exitPc := c.pc })).afterExit c.u.team c.u.gang)) s

/-- BRA (R233). -/
def execBra (off : BitVec 20) (s : State) : Host.Outcome State Fault Refusal :=
  issue (.bra off) { jumps := true } (fun c s => transfer c (off20Target c.pc off) s) s

/-- The lanes of a slice that take a BRC (R224). -/
def takenLanes (g : Gang) (i : Nat) (p : PNum) (n : Bool) : BitVec 4 :=
  (maskOf (fun l => (g.slice i).m.getLsbD l && (g.lane (4 * i + l)).guard g.gmode
    && ((g.lane (4 * i + l)).pred p != n))).setWidth 4

/-- BRC in a slice, for the lanes that take it (R224). -/
def Slice.branch (x : Slice) (t : BitVec 4) (next tgt : Addr) : Slice :=
  if t = x.m then { x with pc := tgt }
  else if t = 0#4 then { x with pc := next }
  else { x with
    stack := { pc := some next, mask := x.m &&& ~~~ t, ra := x.rc } :: { pc := x.rc, mask := x.m, ra := x.rc } :: x.stack
    m := t
    pc := tgt }

/-- BRC (R224). -/
def execBrc (p : PNum) (n : Bool) (off : BitVec 20) (s : State) : Host.Outcome State Fault Refusal :=
  issue (.brc p n off) { jumps := true } (fun c s =>
    let tgt := off20Target c.pc off
    let taken := fun i => takenLanes c.g i p n
    let anyTaken := (upTo 8).any (fun i => c.u.slices.getLsbD i && taken i ≠ 0#4)
    let allTaken := (upTo 8).all (fun i => !c.u.slices.getLsbD i || taken i = (c.g.slice i).m)
    let left := fun x => anyTaken && c.g.levelsLeft c.u.slices tgt x
    if c.g.levels.any left && !(c.g.mayLeave c.u.slices && allTaken) then .error (.trap convergence)
    else .ok (s.modGang c.u.team c.u.gang (fun g =>
      (g.closeLevels left).modSlices c.u.slices (fun i x => x.branch (taken i) (c.pc + 4#64) tgt)))) s

/-- RCV (R223). -/
def execRcv (off : BitVec 20) (s : State) : Host.Outcome State Fault Refusal :=
  issue (.rcv off) {} (fun c s =>
    .ok (s.modGang c.u.team c.u.gang (fun g =>
      g.modSlices c.u.slices (fun _ x => { x with rc := some (off20Target c.pc off) })))) s

/-- The target of an indirect transfer, or the trap of R234. -/
def indirectTarget (c : Ctx) : Except Stop Addr :=
  let tl := c.src 0 (lowLane c.active)
  let d := maskOf (fun l => c.active.getLsbD l && c.src 0 l ≠ tl)
  if d ≠ 0#32 then .error (.trap { cause := .indirectDiverge, lanes := some d })
  else if tl.extractLsb' 0 2 ≠ 0#2 || tl.extractLsb' 48 16 ≠ 0#16 then
    .error (.trap { cause := .misaligned, lanes := some c.active, detail := tl })
  else .ok tl

/-- JMPI (R234). -/
def execJmpi (a : VNum) (wa : Bool) (s : State) : Host.Outcome State Fault Refusal :=
  issue (.jmpi a wa) { srcs := [⟨a, wa⟩], allActive := true, jumps := true } (fun c s =>
    match indirectTarget c with
    | .error e => .error e
    | .ok tl => transfer c tl s) s

/-- A return address pushed in each slice of the unit, and the transfer (R233). -/
def callTo (c : Ctx) (tgt : Addr) (s : State) : Except Stop State :=
  if (upTo 8).any (fun i => c.u.slices.getLsbD i && 16 ≤ (c.g.slice i).ret.length) then .error (.trap { cause := .rstackFull })
  else .ok (s.modGang c.u.team c.u.gang (fun g => g.modSlices c.u.slices (fun _ x =>
    { x with ret := { ret := c.pc + 4#64, depth := x.stack.length } :: x.ret, pc := tgt })))

/-- CALL (R233). -/
def execCall (off : BitVec 20) (s : State) : Host.Outcome State Fault Refusal :=
  issue (.call off) { jumps := true } (fun c s => callTo c (off20Target c.pc off) s) s

/-- CALLI (R234). -/
def execCalli (a : VNum) (wa : Bool) (s : State) : Host.Outcome State Fault Refusal :=
  issue (.calli a wa) { srcs := [⟨a, wa⟩], allActive := true, jumps := true } (fun c s =>
    match indirectTarget c with
    | .error e => .error e
    | .ok tl => callTo c tl s) s

/-- The return of the unit: the checks of R233, R236 and R240, the pops, and each slice's place: its return address, or the target of
RETR, which also ends a level at the depth returned to whose body does not hold it. -/
def returnBy (c : Ctx) (target : Option Addr) (s : State) : Except Stop State :=
  let inU := fun i => c.u.slices.getLsbD i
  let x := fun i => c.g.slice i
  if (upTo 8).any (fun i => inU i && (x i).ret.isEmpty) then .error (.trap { cause := .rstackEmpty })
  else
    let bad := fun i => inU i && (x i).ret.head?.map (·.depth) ≠ some (x i).stack.length
    if (upTo 8).any bad then
      .error (.trap { convergence with
        lanes := some (laneMask c.u.slices (fun i => if bad i then ~~~ (x i).x &&& ~~~ (x i).m else 0#4)) })
    else
      let left := fun (y : LoopLevel) => (upTo 8).any (fun i => inU i && (decide ((x i).ret.length ≤ y.depth) ||
        (match target with
          | some tl => decide ((x i).ret.length = y.depth + 1) && !y.holds tl
          | none => false)))
      if c.g.levels.any left && !c.g.mayLeave c.u.slices then .error (.trap convergence)
      else .ok (s.modGang c.u.team c.u.gang (fun g => (g.closeLevels left).modSlices c.u.slices (fun _ y =>
        match y.ret with
        | [] => y
        | e :: rest => { y with ret := rest, pc := target.getD e.ret })))

/-- RET (R233, R236). -/
def execRet (s : State) : Host.Outcome State Fault Refusal :=
  issue .ret { jumps := true } (fun c s => returnBy c none s) s

/-- RETR (R234, R236). -/
def execRetr (a : VNum) (wa : Bool) (s : State) : Host.Outcome State Fault Refusal :=
  issue (.retr a wa) { srcs := [⟨a, wa⟩], allActive := true, jumps := true } (fun c s =>
    match indirectTarget c with
    | .error e => .error e
    | .ok tl => returnBy c (some tl) s) s

/-- LOOP (R237). -/
def execLoop (lc : BitVec 2) (ka : KNum) (words : BitVec 8) (s : State) : Host.Outcome State Fault Refusal :=
  issue (.loop lc ka words) { ks := [ka], jumps := true } (fun c s =>
    let sl := c.u.slices
    let g := c.g
    if !g.whole sl || (upTo 8).any (fun i => sl.getLsbD i && (g.slice i).ret.length ≠ g.retDepth sl) then
      .error (.trap convergence)
    else if 3 ≤ g.levels.length || g.levels.any (fun x => x.lc = lc.toNat) then .error (.trap { cause := .loopBuffer })
    else
      let n : Half := (c.k ka).setWidth 32
      let start := c.pc + 4#64
      let stop := start + (words.setWidth 64 <<< 2)
      if n = 0#32 then .ok (s.modGang c.u.team c.u.gang (fun g => g.goto sl (stop + 4#64)))
      else .ok (s.modGang c.u.team c.u.gang (fun g =>
        { g.goto sl start with
          lc := rowPut 0 g.lc lc.toNat n
          lcbad := g.lcbad &&& ~~~ (1#3 <<< lc.toNat)
          levels := { lc := lc.toNat, start := start, stop := stop, depth := g.retDepth sl,
                      rdepth := (upTo 8).map (fun i => (g.slice i).stack.length) } :: g.levels }))) s

/-- The innermost open level at a slice's return depth. -/
def Gang.levelOf (g : Gang) (i : Nat) : Option LoopLevel := g.levels.find? (fun x => x.depth = (g.slice i).ret.length)

/-- LEXIT (R239): each slice leaves the level that is its own. -/
def execLexit (s : State) : Host.Outcome State Fault Refusal :=
  issue .lexit { jumps := true } (fun c s =>
    let inU := (upTo 8).filter (fun i => c.u.slices.getLsbD i)
    if inU.any (fun i => (c.g.levelOf i).isNone) then .error (.trap { cause := .loopBuffer })
    else if !inU.all (fun i => (c.g.levelOf i).all (fun x => c.g.levelOk c.u.slices x)) then .error (.trap convergence)
    else .ok (s.modGang c.u.team c.u.gang (fun g =>
      (g.closeLevels (fun y => inU.any (fun i => c.g.levelOf i = some y))).modSlices c.u.slices (fun i x =>
        { x with pc := ((c.g.levelOf i).map (fun y => y.stop + 4#64)).getD x.pc })))) s

/-- REGANG (R231). -/
def execRegang (mask : BitVec 8) (s : State) : Host.Outcome State Fault Refusal :=
  issue (.regang mask) { merges := true } (fun c s =>
    let out := c.u.slices &&& ~~~ mask
    if out ≠ 0#8 then
      .error (.trap { convergence with lanes := some (laneMask out (fun _ => 15#4)), detail := BitVec.ofNat 64 mask.toNat })
    else
      let arrived := c.g.regangHeld c.pc ||| c.u.slices
      if c.g.live &&& mask &&& ~~~ arrived ≠ 0#8 then .error (.wait (.regang mask) none)
      else .ok (s.modGang c.u.team c.u.gang (fun g => g.merge arrived))) s

/-- Whether a condition of KBR holds (R233). -/
def kbrHolds (cc : KbrCond) (a b : Word) : Bool :=
  match cc with
  | .eq => a = b
  | .ne => a ≠ b
  | .lt => a.slt b
  | .ge => !a.slt b
  | .ltu => a.ult b
  | .geu => !a.ult b
  | .always => true

/-- KBR (R233). -/
def execKbr (ka kb : KNum) (cc : KbrCond) (off : BitVec 9) (s : State) : Host.Outcome State Fault Refusal :=
  issue (.kbr ka kb cc off) { ks := if cc = .always then [] else [ka, kb], jumps := true, sidecar := true } (fun c s =>
    let tgt := if kbrHolds cc (c.k ka) (c.k kb) then off9Target c.pc off else c.pc + 4#64
    if c.u.gang = 16 then .ok (s.modTeam c.u.team (fun t => { t with side := { t.side with pc := tgt } }))
    else if kbrHolds cc (c.k ka) (c.k kb) then transfer c tgt s
    else .ok (s.modGang c.u.team c.u.gang (fun g => g.goto c.u.slices tgt))) s

/-- BKPT (R244). -/
def execBkpt (code : BitVec 24) (s : State) : Host.Outcome State Fault Refusal :=
  issue (.bkpt code) {} (fun _ _ => .error (.trap { cause := .breakpoint, detail := code.setWidth 64 })) s

end Sys2Proof.Machine
end

