-- ==== Sys2Proof/Machine/Cross.lean ====
section
/-!
DEFINITION. Cross-lane words (R78, R134 to R140): the arrival of members (R242), moves, the fixed tree of REDUCE and SCAN, votes,
SUBX, LANEK and KBCAST.
-/
namespace Sys2Proof.Machine

/-- What a cross-lane word sees once every member has arrived: its slices, members, contributors. -/
structure Meeting where
  c : Ctx
  arrived : BitVec 8
  members : Half
  contributors : Half

/-- A stop of a meeting stops every arrived slice (R134). -/
def Meeting.stop (m : Meeting) (x : Stop) : Stop :=
  match x with
  | .trap t => .trap { t with slices := some m.arrived }
  | w => w

/-- A source read in lanes of a meeting. -/
def Meeting.read (m : Meeting) (x : Src) (lanes : Half) (s : State) : Except Stop (List Word × State) :=
  match readOwn m.c x lanes s with
  | .error e => .error (m.stop e)
  | .ok r => .ok r

/-- The waits of a destination in the contributors (R13, R154). -/
def Meeting.destStop (m : Meeting) (s : State) (d : VNum) : Option Stop :=
  firstStop [owedStop m.c.g [d] m.contributors, operandStop m.c.t m.c.u.gang s.cycle [d] m.contributors]

/-- Slices of other sub-gangs that were held at the word go on at the next word, each sub-gang by itself (R242, row 4). -/
def State.releaseOthers (s : State) (c : Ctx) (held : BitVec 8) : State :=
  let others := held &&& ~~~ c.u.slices
  let subs := (upTo 8).filter (fun n => c.g.subgang n &&& others ≠ 0#8)
  let s := s.meter c.t.part 0 subs.length
  s.modGang c.u.team c.u.gang (fun g =>
    subs.foldl (fun g n =>
      let m := c.g.subgang n &&& others
      (g.modSlices m (fun _ x => { x with pc := x.pc + 4#64, wait := none })).part m) { g with skipCmp := g.skipCmp &&& ~~~ others })

/-- The arrival of a unit at a word that names members: the rows of R242 in order. -/
def meet (kf : BitVec 4) (effect : Meeting → State → Except Stop State) (c : Ctx) (s : State) : Except Stop State :=
  let mask : Half := (c.k (kf.setWidth 5)).setWidth 32
  if mask = 0#32 then .ok s
  else
    let held := c.g.memberHeld c.pc &&& ~~~ c.u.slices
    let first := (c.g.firstMask held).getD mask
    let arrived := held ||| c.u.slices
    let active := c.g.activeOf arrived
    let inactive := first &&& laneMask arrived (fun _ => 15#4) &&& ~~~ active
    let detail := BitVec.ofNat 64 first.toNat
    if first &&& c.g.exitedLanes ≠ 0#32 then
      .error (.trap { cause := .memberExited, lanes := some (first &&& c.g.exitedLanes), detail := detail, slices := some arrived })
    else if inactive ≠ 0#32 then .error (.trap { convergence with lanes := some inactive, detail := detail })
    else if mask ≠ first then .error (.trap { convergence with lanes := some (mask ^^^ first), detail := detail })
    else if first &&& ~~~ active ≠ 0#32 then .error (.wait (.member mask (c.g.nextRank held)) none)
    else
      let m : Meeting := { c := c, arrived := arrived, members := first,
                           contributors := maskOf (fun l => first.getLsbD l && (c.g.lane l).guard c.g.gmode) }
      match effect m s with
      | .error e => .error e
      | .ok s' => .ok (s'.releaseOthers c held)

/-- A result written in the contributors, and causes logged for lanes. -/
def State.writeMeeting (s : State) (m : Meeting) (d : VNum) (f : Nat → Word × Causes) : State :=
  (s.writeV m.c.u d m.contributors (fun l => (f l).1)).raise m.c.u.team m.c.u.gang m.c.pc m.contributors (fun l => (f l).2)

/-! ### Moves (R135, R139, R140) -/

/-- The lane that a sub-element address names. -/
def addrLane (x : Nat) : Nat := x % 32
/-- The sub-element that a sub-element address names. -/
def addrSub (t : ElemType) (x : Nat) : Nat := x / 32 % t.count

/-- SHFL's effect (R135): b is read for its addresses, then the pops are taken in the order a, b. -/
def shflEffect (d a b : VNum) (wa wb : Bool) (m : Meeting) (s : State) : Except Stop State :=
  let t := m.c.et
  match m.destStop s d with
  | some st => .error (m.stop st)
  | none =>
    match m.read ⟨b, wb⟩ m.contributors s with
    | .error e => .error e
    | .ok (vb, _) =>
      let addr := fun l i => subGet t.width (rowGet 0 vb l) i
      let named := maskOf (fun x => m.members.getLsbD x &&
        (lanesOf m.contributors).any (fun l => (upTo t.count).any (fun i => addrLane (addr l i) = x)))
      match m.read ⟨a, wa⟩ named s with
      | .error e => .error e
      | .ok (va, s1) =>
        match m.read ⟨b, wb⟩ m.contributors s1 with
        | .error e => .error e
        | .ok (vb, s2) =>
          let addr := fun l i => subGet t.width (rowGet 0 vb l) i
          .ok (s2.writeMeeting m d (fun l => (packWord t.width ((upTo t.count).map (fun i =>
            let x := addr l i
            if m.members.getLsbD (addrLane x) then subGet t.width (rowGet 0 va (addrLane x)) (addrSub t x) else 0)),
            noCause)))

/-- SHFL (R135). -/
def execShfl (d a b : VNum) (wa wb : Bool) (kf : BitVec 4) (s : State) : Host.Outcome State Fault Refusal :=
  issue (.shfl d a b wa wb kf)
    { own := [⟨a, wa⟩, ⟨b, wb⟩], named := [d], ks := [kf.setWidth 5], mode := fun gm => readsEt notSmall gm && !isQueue gm d }
    (meet kf (shflEffect d a b wa wb)) s

/-- BCST's effect (R135). -/
def bcstEffect (d a : VNum) (lane : BitVec 5) (wa : Bool) (m : Meeting) (s : State) : Except Stop State :=
  match m.destStop s d with
  | some st => .error (m.stop st)
  | none =>
    let isMember := m.members.getLsbD lane.toNat
    let named := if isMember && m.contributors ≠ 0#32 then 1#32 <<< lane.toNat else 0#32
    match m.read ⟨a, wa⟩ named s with
    | .error e => .error e
    | .ok (va, s1) => .ok (s1.writeMeeting m d (fun _ => (if isMember then rowGet 0 va lane.toNat else 0#64, noCause)))

/-- BCST (R135). -/
def execBcst (d a : VNum) (lane : BitVec 5) (wa : Bool) (kf : BitVec 4) (s : State) : Host.Outcome State Fault Refusal :=
  issue (.bcst d a lane wa kf)
    { own := [⟨a, wa⟩], named := [d], ks := [kf.setWidth 5], mode := fun gm => readsEt notSmall gm && !isQueue gm d }
    (meet kf (bcstEffect d a lane wa)) s

/-- SUBX (R139). -/
def execSubx (d a b : VNum) (wa wb : Bool) (s : State) : Host.Outcome State Fault Refusal :=
  laneWord (.subx d a b wa wb) (srcsAB a b wa wb) d notSmall
    (fun t _ v => subMap t (fun i => (subGet t.width (v 0) (subGet t.width (v 1) i % t.count), noCause))) s

/-- LANEK (R140). -/
def execLanek (kd : KNum) (a : VNum) (lane : BitVec 5) (wa : Bool) (s : State) : Host.Outcome State Fault Refusal :=
  issue (.lanek kd a lane wa) { own := [⟨a, wa⟩] } (fun c s =>
    let bit := 1#32 <<< lane.toNat
    if !c.active.getLsbD lane.toNat then .error (.trap { convergence with lanes := some bit })
    else
      match readOwn c ⟨a, wa⟩ bit s with
      | .error e => .error e
      | .ok (va, s1) => .ok (s1.writeK c.u kd (rowGet 0 va lane.toNat))) s

/-- KBCAST (R140). -/
def execKbcast (d : VNum) (ka : KNum) (s : State) : Host.Outcome State Fault Refusal :=
  issue (.kbcast d ka) { dsts := [d], ks := [ka] } (fun c s => .ok (s.writeV c.u d c.part (fun _ => c.k ka))) s

/-! ### The tree (R136, R137) -/

/-- A node: a value with the causes of the combinations inside it, or ⊥. -/
abbrev Node := Option (Word × Causes)

/-- One sub-element combined. -/
def combineSub (op : CombineOp) (t : ElemType) (md : Modes) (x y : Nat) : Nat × Causes :=
  match op with
  | .add => opAdd t md x y
  | .min => opMin t md x y
  | .max => opMax t md x y
  | .and => ((BitVec.ofNat 64 x &&& BitVec.ofNat 64 y).toNat, noCause)
  | .or => ((BitVec.ofNat 64 x ||| BitVec.ofNat 64 y).toNat, noCause)
  | .xor => ((BitVec.ofNat 64 x ^^^ BitVec.ofNat 64 y).toNat, noCause)

/-- Two nodes combined, the lower-numbered operand first. -/
def combine (op : CombineOp) (t : ElemType) (md : Modes) : Node → Node → Node
  | none, y => y
  | x, none => x
  | some x, some y =>
    let r := subMap t (fun i => combineSub op t md (subGet t.width x.1 i) (subGet t.width y.1 i))
    some (r.1, x.2 ||| y.2 ||| r.2)

/-- The next level of the tree: neighbours combined. -/
def treeUp (f : Node → Node → Node) : List Node → List Node
  | x :: y :: rest => f x y :: treeUp f rest
  | l => l

/-- The nodes N(h, ·). -/
def treeLevel (f : Node → Node → Node) (leaves : List Node) : Nat → List Node
  | 0 => leaves
  | h + 1 => treeUp f (treeLevel f leaves h)

/-- The combination, left to right, of the nodes that cover lanes 0 to n − 1: one for each set bit of n, from the highest (R137);
`at_` is the first lane not covered yet. -/
def coverFrom (f : Node → Node → Node) (leaves : List Node) (n : Nat) : Nat → Nat → Node → Node
  | 0, _, acc => acc
  | h + 1, at_, acc =>
    if n / 2 ^ h % 2 = 1 then
      coverFrom f leaves n h (at_ + 2 ^ h) (f acc (rowGet none (treeLevel f leaves h) (at_ / 2 ^ h)))
    else coverFrom f leaves n h at_ acc

/-- The identity of an operation under a type (R137). -/
def identityOf (op : CombineOp) (t : ElemType) : Nat :=
  match op with
  | .add | .or | .xor => 0
  | .and => 2 ^ t.width - 1
  | .min => if t.isInt then intBits t.width (intGreatest t) else infBits t false
  | .max => if t.isInt then intBits t.width (intLeast t) else infBits t true

/-- The identity in every sub-element. -/
def identityWord (op : CombineOp) (t : ElemType) : Word := packWord t.width ((upTo t.count).map (fun _ => identityOf op t))

/-- The types of R110 for REDUCE and SCAN. -/
def combineLegal (op : CombineOp) (t : ElemType) : Bool :=
  match op with
  | .add | .min | .max => notSmall t
  | .and | .or | .xor => t.isInt

/-- The leaves of the tree: the contributors' values. -/
def treeLeaves (m : Meeting) (va : List Word) : List Node :=
  (upTo 32).map (fun l => if m.contributors.getLsbD l then some (rowGet 0 va l, noCause) else none)

/-- The effect of a word that combines contributors' values: `f` gives a contributor's result from the leaves. -/
def combineEffect (op : CombineOp) (d a : VNum) (wa : Bool) (f : (Node → Node → Node) → List Node → Nat → Node) (m : Meeting)
    (s : State) : Except Stop State :=
  match m.destStop s d with
  | some st => .error (m.stop st)
  | none =>
    match m.read ⟨a, wa⟩ m.contributors s with
    | .error e => .error e
    | .ok (va, s1) =>
      .ok (s1.writeMeeting m d (fun l =>
        (f (combine op m.c.et m.c.modes) (treeLeaves m va) l).getD (identityWord op m.c.et, noCause)))

/-- A word that combines contributors' values. -/
def combineWord (i : Instr) (op : CombineOp) (d a : VNum) (wa : Bool) (kf : BitVec 4)
    (f : (Node → Node → Node) → List Node → Nat → Node) (s : State) : Host.Outcome State Fault Refusal :=
  issue i { own := [⟨a, wa⟩], named := [d], ks := [kf.setWidth 5],
            mode := fun gm => readsEt (combineLegal op) gm && !isQueue gm d }
    (meet kf (combineEffect op d a wa f)) s

/-- REDUCE: N(5, 0) in every contributor (R136). -/
def execReduce (op : CombineOp) (d a : VNum) (wa : Bool) (kf : BitVec 4) (s : State) : Host.Outcome State Fault Refusal :=
  combineWord (.reduce op d a wa kf) op d a wa kf (fun f leaves _ => rowGet none (treeLevel f leaves 5) 0) s

/-- SCAN: the cover of lanes 0 to l, or 0 to l − 1 (R137). -/
def execScan (op : CombineOp) (ex : Bool) (d a : VNum) (wa : Bool) (kf : BitVec 4) (s : State) : Host.Outcome State Fault Refusal :=
  combineWord (.scan op ex d a wa kf) op d a wa kf
    (fun f leaves l => coverFrom f leaves (if ex then l else l + 1) 6 0 none) s

/-! ### Votes (R138) -/

/-- VOTE.BALLOT. -/
def execVoteBallot (kd : KNum) (p : PNum) (kf : BitVec 4) (s : State) : Host.Outcome State Fault Refusal :=
  issue (.voteBallot kd p kf) { ks := [kf.setWidth 5] } (meet kf (fun m s =>
    .ok (s.writeK m.c.u kd ((maskOf (fun l => m.contributors.getLsbD l && (m.c.g.lane l).pred p)).setWidth 64)))) s

/-- VOTE.ANY. -/
def execVoteAny (d p : PNum) (kf : BitVec 4) (s : State) : Host.Outcome State Fault Refusal :=
  issue (.voteAny d p kf) { ks := [kf.setWidth 5] } (meet kf (fun m s =>
    .ok (s.writeP m.c.u d m.contributors (fun _ => (lanesOf m.contributors).any (fun l => (m.c.g.lane l).pred p))))) s

/-- VOTE.ALL. -/
def execVoteAll (d p : PNum) (kf : BitVec 4) (s : State) : Host.Outcome State Fault Refusal :=
  issue (.voteAll d p kf) { ks := [kf.setWidth 5] } (meet kf (fun m s =>
    .ok (s.writeP m.c.u d m.contributors (fun _ => (lanesOf m.contributors).all (fun l => (m.c.g.lane l).pred p))))) s

end Sys2Proof.Machine
end

