-- ==== Sys2Proof/Machine/Shake.lean ====
section
/-!
DEFINITION. SHAKE256 with an output of 64 bytes, which R360 and R362 name: the sponge over Keccak-f[1600] of FIPS 202
(assumption 23: PRESUMED).
-/
namespace Sys2Proof.Machine

/-- Rotation amounts of step ρ, lane x + 5y. -/
def keccakRot : List Nat :=
  [0, 1, 62, 28, 27, 36, 44, 6, 55, 20, 3, 10, 43, 25, 39, 41, 45, 15, 21, 8, 18, 2, 61, 56, 14]

/-- Round constants of step ι. -/
def keccakRc : List Word :=
  [0x0000000000000001, 0x0000000000008082, 0x800000000000808A, 0x8000000080008000, 0x000000000000808B, 0x0000000080000001,
   0x8000000080008081, 0x8000000000008009, 0x000000000000008A, 0x0000000000000088, 0x0000000080008009, 0x000000008000000A]
  ++ [0x000000008000808B, 0x800000000000008B, 0x8000000000008089, 0x8000000000008003, 0x8000000000008002, 0x8000000000000080,
   0x000000000000800A, 0x800000008000000A, 0x8000000080008081, 0x8000000000008080, 0x0000000080000001, 0x8000000080008008]

/-- A round: θ, ρ with π, χ, ι. -/
def keccakRound (a : List Word) (rc : Word) : List Word :=
  let c := (upTo 5).map (fun x => (upTo 5).foldl (fun w y => w ^^^ rowGet 0 a (x + 5 * y)) 0#64)
  let d := (upTo 5).map (fun x => rowGet 0 c ((x + 4) % 5) ^^^ (rowGet 0 c ((x + 1) % 5)).rotateLeft 1)
  let b := (upTo 25).map (fun i =>
    let x := (i % 5 + 3 * (i / 5)) % 5
    let y := i % 5
    (rowGet 0 a (x + 5 * y) ^^^ rowGet 0 d x).rotateLeft (rowGet 0 keccakRot (x + 5 * y)))
  (upTo 25).map (fun i =>
    let y := 5 * (i / 5)
    let w := rowGet 0 b i ^^^ (~~~ (rowGet 0 b ((i + 1) % 5 + y)) &&& rowGet 0 b ((i + 2) % 5 + y))
    if i = 0 then w ^^^ rc else w)

/-- Keccak-f[1600]. -/
def keccakF (a : List Word) : List Word := keccakRc.foldl keccakRound a

/-- Eight bytes as a lane, the first lowest. -/
def laneOf (bs : List Byte) : Word := bs.foldr (fun b w => (w <<< 8) ||| b.setWidth 64) 0#64
/-- Lane `i` of a block. -/
def blockLane (bs : List Byte) (i : Nat) : Word := laneOf ((bs.drop (8 * i)).take 8)

/-- Blocks of 136 bytes absorbed, as many as the fuel. -/
def absorb : Nat → List Byte → List Word → List Word
  | 0, _, a => a
  | n + 1, bs, a =>
    absorb n (bs.drop 136) (keccakF ((upTo 25).map (fun i =>
      if i < 17 then rowGet 0 a i ^^^ blockLane bs i else rowGet 0 a i)))

/-- A message padded to whole blocks: the domain bits 1111, a one, zeros, and a one in the last bit. -/
def shakePad (m : List Byte) : List Byte :=
  let k := 135 - m.length % 136
  if k = 0 then m ++ [0x9F#8] else m ++ [0x1F#8] ++ (upTo (k - 1)).map (fun _ => 0#8) ++ [0x80#8]

/-- SHAKE256, 64 bytes of output. -/
def shake256 (m : List Byte) : List Byte :=
  let a := absorb (m.length / 136 + 1) (shakePad m) ((upTo 25).map (fun _ => 0#64))
  ((upTo 8).map (fun i => (upTo 8).map (fun j => (rowGet 0 a i).extractLsb' (8 * j) 8))).flatten

end Sys2Proof.Machine
end

