-- ==== Sys2Proof/Machine/Partition.lean ====
section
/-!
DEFINITION. Partitions (R339 to R344), page tables as commands change them (R348), metering and usage records (R359 to R361),
attestation (R362), and the rings that SETRINGS sets (R366, R375).
-/
namespace Sys2Proof.Machine

/-- A command's result told to the resident kernel. -/
def State.done (s : State) (code : Nat) : State := s.notify (.status code)

/-! ### Ranges of a memory -/

/-- The memory with a range at its default. -/
def memClear (m : List Host.Cell) (a n : Nat) : List Host.Cell := m.filter (fun c => !(decide (a ≤ c.1) && decide (c.1 < a + n)))
/-- The memory with a range copied to another place. -/
def memCopy (m : List Host.Cell) (src dst n : Nat) : List Host.Cell :=
  (m.filter (fun c => decide (src ≤ c.1) && decide (c.1 < src + n))).foldl (fun z c => memPut z (dst + (c.1 - src)) c.2) (memClear m dst n)
/-- Error marks outside a range of bytes. -/
def clearMarks (l : List Nat) (a n : Nat) : List Nat := l.filter (fun w => !(decide (a ≤ 8 * w) && decide (8 * w + 8 ≤ a + n)))

/-! ### The leaves of a partition (R346, R359) -/

/-- The entries with V of a partition's level-3 table, each with the address that it maps from: a leaf, or none where it is malformed. -/
def State.entriesL3 (s : State) (p table va : Nat) : List (Nat × Option Leaf) :=
  (upTo 512).flatMap (fun i =>
    let e := s.pte table i
    let a := va + i * 65536
    if e.getLsbD 63 then [(a, leafOf e (table + 8 * i) false (s.migrating p a))] else [])
/-- The leaves and the malformed entries of a level-2 table and the tables below it. -/
def State.entriesL2 (s : State) (p table va : Nat) : List (Nat × Option Leaf) :=
  (upTo 2048).flatMap (fun i =>
    let e := s.pte table i
    let a := va + i * 33554432
    if !e.getLsbD 63 then []
    else if e.getLsbD 55 then [(a, leafOf e (table + 8 * i) true false)]
    else match pointerOf e 4096 with
      | none => [(a, none)]
      | some t => s.entriesL3 p t a)
/-- Those of a partition's tables. -/
def State.entries (s : State) (p : Nat) : List (Nat × Option Leaf) :=
  let x := s.part p
  (upTo 4096).flatMap (fun i =>
    let e := s.pte (x.tableBase + x.root) i
    if !e.getLsbD 63 then []
    else match pointerOf e 16384 with
      | none => [(i * 2 ^ 36, none)]
      | some t => s.entriesL2 p t (i * 2 ^ 36))

/-- Units of 64 KiB that a leaf of tier HBM counts. -/
def Leaf.units (l : Leaf) : Nat := if l.tier ≠ .hbm then 0 else if l.big then 512 else if l.s then 8 else 1

/-- The translation unit reads a partition's tables: it reports malformed entries (R346), and notes the units of HBM and the pages to zero
(R349, R359). -/
def State.readTables (s : State) (p : Nat) : State :=
  let es := s.entries p
  let ls := es.filterMap (fun x => x.2.map (fun l => (x.1, l)))
  let s := (es.filter (fun x => x.2.isNone)).foldl (fun s x => s.notify (.malformed p x.1)) s
  let z := ((ls.filter (fun x => x.2.z)).map (fun x => (p, x.1))).filter (fun x => !s.zPending.contains x)
  ({ s with zPending := s.zPending ++ z } : State).modPart p (fun x => { x with hbmUnits := (ls.map (fun y => y.2.units)).foldl (· + ·) 0 })

/-! ### Usage records (R360, R361) -/

/-- Bytes 0 to 255 of a usage record of a kind, sampled now. -/
def State.usageBody (s : State) (p kind : Nat) : List Byte :=
  let x := s.part p
  leBytes 4 0x6D745201 ++ leBytes 2 1 ++ leBytes 2 1280 ++ leBytes 8 s.serial.toNat ++ leBytes 1 p ++ leBytes 1 kind
    ++ leBytes 1 s.tb.tstate.toNat ++ leBytes 1 0 ++ leBytes 4 x.epoch ++ leBytes 8 x.sequence ++ leBytes 8 s.tb.te
    ++ leBytes 8 s.tb.tl ++ ((upTo 12).map (fun i => leBytes 8 (rowGet 0 x.counters i).toNat)).flatten
    ++ (x.prevHash ++ leBytes 64 0).take 64 ++ leBytes 4 x.skipped ++ leBytes 44 0
/-- The signature of 256 bytes in its field of 1,280 (assumption 6: DESIGN CHOICE). -/
def signed (b : List Byte) : List Byte := b ++ (Config.falconSign b ++ leBytes 1280 0).take 1280
/-- A usage record. -/
def State.usageRecord (s : State) (p kind : Nat) : List Byte := signed (s.usageBody p kind)

/-- A usage record written to the ring of its partition. -/
def State.putUsage (s : State) (p : Nat) (rec : List Byte) : State :=
  ({ s with kmem := ringPush s.kmem (s.part p).usage rec } : State).modPart p (fun x =>
    { x with sequence := x.sequence + 1, prevHash := shake256 rec, skipped := 0 })
/-- The usage ring has no space. -/
def State.usageFull (s : State) (p : Nat) : Bool := ringFull s.kmem (s.part p).usage

/-- A partition that meters: live, with no closing record made. -/
def State.metered (s : State) (p : Nat) : Bool := p < 16 && (s.part p).live && (s.part p).heldClosing.isNone

/-- USAGE (R361). -/
def execUsage (part : Nat) (s : State) : Host.Outcome State Fault Refusal :=
  .next (if s.phase ≠ .running then s
  else if s.metered part && !s.usageFull part then (s.putUsage part (s.usageRecord part 2)).done 0
  else s.done 1)

/-- Ticks of a millisecond. -/
def ticksPerMs : Nat := 1000 * Config.cyclesPerMicrosecond / Config.tickCycles

/-- A periodic record is due. -/
def State.usageDue (s : State) (p : Nat) : Bool := s.clocked && s.metered p && (s.part p).nextDue ≤ s.tb.now

/-- PERIODIC_USAGE_RECORD (R361): the security engine writes it, or counts it as skipped and as dropped (R355), while the kernel restarts too
(R395). -/
def execPeriodicUsageRecord (part : Nat) (s : State) : Host.Outcome State Fault Refusal :=
  .next (if s.usageDue part then
    let s' := s.modPart part (fun x => { x with nextDue := x.nextDue + x.period * ticksPerMs })
    if s.usageFull part then
      ({ s' with kmem := ringDrop s'.kmem (s'.part part).usage } : State).modPart part (fun x => { x with skipped := x.skipped + 1 })
    else s'.putUsage part (s.usageRecord part 1)
  else s)

/-- HBMUNITS_SAMPLE (R359). -/
def execHbmunitsSample (s : State) : Host.Outcome State Fault Refusal :=
  .next (if s.clocked && s.unitsDue ≤ s.tb.now then
    (upTo 16).foldl (fun s p => if (s.part p).live then s.meter p 9 (s.part p).hbmUnits else s)
      ({ s with unitsDue := s.unitsDue + 1024 } : State)
  else s)

/-! ### CREATE (R341 to R343) -/

/-- A power of two in a range. -/
def powerIn (lo hi n : Nat) : Bool := lo ≤ n && n ≤ hi && (upTo 64).any (fun i => n = 2 ^ i)

/-- Two spans share a place. -/
def spansMeet (a b c d : Nat) : Bool := decide (a < d) && decide (c < b)

/-- The numbers of the live partitions. -/
def State.livePartitions (s : State) : List Nat := (upTo 16).filter (fun p => (s.part p).live)

/-- The status of the first field of a block that breaks the table of R341, or of an exhausted epoch counter. -/
def State.createStatus (s : State) (b : List Byte) : Option Nat :=
  let f := fun off n => field b off n
  let live := s.livePartitions.map s.part
  let check : List (Bool × Nat) := [
    (decide (f 0 1 < 16) && !(s.part (f 0 1)).live, 1),
    (decide (f 1 1 ≤ f 2 1) && decide (f 2 1 < s.nclusters) && live.all (fun x => !spansMeet (f 1 1) (f 2 1 + 1) x.lo (x.hi + 1)), 2),
    (decide (f 3 1 = 0), 4),
    (decide (f 4 2 ≠ 0) && live.all (fun x => (x.colours &&& BitVec.ofNat 16 (f 4 2)) = 0#16), 3),
    (decide (f 6 2 = 0), 4),
    (decide (f 8 8 % 4096 = 0), 5),
    (decide (f 16 8 % 4096 = 0) && decide (4096 ≤ f 16 8) && decide (f 16 8 ≤ 2 ^ 34), 5),
    (decide (f 24 8 % 4096 = 0)
      && live.all (fun x => !spansMeet (f 24 8) (f 24 8 + f 16 8) x.tableBase (x.tableBase + x.tableLen)), 5),
    (decide (f 32 8 % 32768 = 0) && decide (f 32 8 + 32768 ≤ f 16 8), 5),
    (decide (f 40 8 % 64 = 0), 4),
    (powerIn 4 1048576 (f 48 4), 4),
    (decide (10 ≤ f 52 4) && decide (f 52 4 ≤ 10000), 4),
    (decide (f 56 8 % 64 = 0), 4),
    (powerIn 16 1048576 (f 64 4), 4),
    (decide (f 68 4 = 0) || powerIn 1 1048576 (f 68 4), 4),
    (decide (f 68 4 = 0) || decide (f 72 8 % 64 = 0), 4),
    (decide (field b 80 48 = 0), 4),
    (decide (s.epochNext < s.epochMax), 6)]
  (check.find? (fun c => !c.1)).map (·.2)

/-- The partition of a block, before its tables are read. -/
def partitionOf (b : List Byte) (old : Partition) (epoch now : Nat) : Partition :=
  let f := fun off n => field b off n
  { live := true
    lo := f 1 1
    hi := f 2 1
    colours := BitVec.ofNat 16 (f 4 2)
    tableBase := f 24 8
    root := f 32 8
    tableLen := f 16 8
    epoch := epoch
    usage := { set := true, base := f 40 8, n := f 48 4 }
    tier := { set := true, base := f 56 8, n := f 64 4 }
    pool := { set := f 68 4 ≠ 0, base := f 72 8, n := f 68 4 }
    period := f 52 4
    createdAt := now
    nextDue := now + f 52 4 * ticksPerMs
    block := b
    held := old.held }

/-- Every store of the cores of a range written with zero (R342, step 3). -/
def State.zeroCores (s : State) (lo hi : Nat) : State :=
  let a := 4 * lo
  let n := 4 * (hi + 1 - lo)
  { s with
    spad := memClear s.spad (spadKey a 0) (n * 4194304)
    obuf := memClear s.obuf (obufKey a 0) (n * 1048576)
    bad := { s.bad with
      spad := clearMarks s.bad.spad (spadKey a 0) (n * 4194304)
      obuf := clearMarks s.bad.obuf (obufKey a 0) (n * 1048576) }
    syncCodes := s.syncCodes.filter (fun x => !(decide (spadKey a 0 ≤ x.1) && decide (x.1 < spadKey a 0 + n * 4194304)))
    cores := (upTo (max s.cores.length (a + n))).map (fun c =>
      if decide (a ≤ c) && decide (c < a + n) then { s.core c with records := [], badBanks := [] } else s.core c) }

/-- The staging lines of a partition's colours written with zero (R342, step 4). -/
def State.zeroStaging (s : State) (p : Nat) : State :=
  { s with
    staging := s.staging.filter (fun x => !s.ownColour p x.line)
    bad := { s.bad with staging := s.bad.staging.filter (fun w => !s.ownColour p (w / 8)) } }

/-- CREATE (R341, R342): the whole of a block that passes, in the order of the steps. -/
def State.create (s : State) (b : List Byte) : State :=
  let p := field b 0 1
  let x := partitionOf b (s.part p) s.epochNext s.tb.now
  let s := { s with epochNext := s.epochNext + 1 }
  let s := s.zeroCores x.lo x.hi
  let s := (s.modPart p (fun _ => x)).zeroStaging p
  let s := { s with kmem := memCopy s.kmem (field b 8 8) x.tableBase x.tableLen }
  let s := s.readTables p
  s.putUsage p (s.usageRecord p 0)

/-- CREATE (R341). The steps take effect together; their times are left out (assumption 7: DESIGN CHOICE). -/
def execCreate (block : List Word) (stores : List KStore) (s : State) : Host.Outcome State Fault Refusal :=
  .next (if s.phase ≠ .running then s
  else
    let s := s.kstores stores
    let b := (block.map (fun w => leBytes 8 w.toNat)).flatten
    match s.createStatus b with
    | some code => s.done code
    | none => (s.create b).done 0)

/-! ### Stamped requests that have been judged (R348, R357) -/

/-- A lane whose stamped request its home on this module has judged and not ended. -/
def RemLane.judged (x : RemLane) : Bool :=
  match x.stage with
  | .settling | .stored | .releasing _ => true
  | _ => false

/-- The partition whose page a lane's request used: the window's, or the operation's own. -/
def State.laneHome (s : State) (o : RemOp) (x : RemLane) : Nat :=
  match x.window with
  | some w => (s.window w.toNat).part
  | none => o.part

/-- The virtual address in that partition. -/
def State.laneVa (s : State) (x : RemLane) : Nat :=
  match s.engAddr x.addr with
  | .device va => va
  | .pod _ win off => (s.window win.toNat).base + off
  | _ => 0

/-- The judged requests at this module, with the partition, the cell and the virtual address of each. -/
def State.judgedRefs (s : State) : List (HomeRef × Nat × Nat × Nat) :=
  ((upTo s.ops.length).flatMap (fun i =>
    let o := rowGet noOp s.ops i
    ((upTo 32).filter (fun l => (o.lane l).judged && !s.isAway i l)).map (fun l =>
      (HomeRef.own i l, s.laneHome o (o.lane l), (o.lane l).cell, s.laneVa (o.lane l)))))
  ++ s.inbound.map (fun x => (HomeRef.ext x.src x.id, x.part, x.cell, x.va))

/-- INVALIDATE (R348): the kernel's changes stand from here on, since this machine keeps no translation; the command completes when
every access that used one of the range has ended. -/
def execInvalidate (part va len : Nat) (stores : List KStore) (s : State) : Host.Outcome State Fault Refusal :=
  .next (if s.phase ≠ .running then s
  else
    let s := s.kstores stores
    if !(s.part part).live then s.done 1
    else
      let s := s.readTables part
      { s with drains := s.drains ++ [(s.judgedRefs.filter (fun r => r.2.1 = part && rangesMeet r.2.2.2 8 va len)).map (·.1)] })

/-- INVALIDATE commands whose accesses have all ended complete. -/
def State.drainCheck (s : State) : State :=
  if s.drains.isEmpty then s
  else
    let refs := s.judgedRefs.map (·.1)
    let open_ := fun (d : List HomeRef) => d.any (fun r => refs.contains r)
    (s.drains.filter (fun d => !open_ d)).foldl (fun z _ => z.done 0) { s with drains := s.drains.filter open_ }

/-! ### DESTROY (R344) -/

/-- DESTROY (R344): the intake closes and every context is killed; the rest follows as the partition's work drains. -/
def execDestroy (part : Nat) (s : State) : Host.Outcome State Fault Refusal :=
  .next (if s.phase ≠ .running then s
  else if !(s.part part).live then s.done 1
  else if (s.part part).closing then s
  else
    let s := s.modPart part (fun x => { x with closing := true })
    (upTo s.teams.length).foldl (fun s u => if (s.team u).live && (s.team u).part = part then s.resetTeam u else s) s)

/-- Every remote and stamped operation of a partition has been performed, refused or discarded. -/
def State.opsEnded (s : State) (p : Nat) : Bool := s.ops.all (fun o => o.part ≠ p || o.lanes.all (fun x => x.stage = .idle))

/-- Windows of a partition that is closing: those open start to be revoked (R357). -/
def Window.close (w : Window) (p : Nat) : Window := if w.part = p && w.state = .open_ then { w with state := .revoking } else w

/-- The clusters, colours, front end and table region of a partition are freed; trap records still held keep their ring
(assumption 20: DESIGN CHOICE). -/
def State.freePartition (s : State) (p : Nat) : State :=
  let s : State := { s with
    grids := s.grids.map (fun g => if g.part = p then { g with live := false } else g)
    grants := s.grants.filter (fun g => g.part ≠ p)
    pageIns := s.pageIns.filter (fun x => x.part ≠ p)
    zeroing := s.zeroing.filter (fun x => x.1 ≠ p)
    zPending := s.zPending.filter (fun x => x.1 ≠ p) }
  (s.modPart p (fun x => { trap := x.trap, held := x.held, trapSeq := x.trapSeq })).done 0

/-- The closing record is written as soon as the ring has space, and then the partition is freed. -/
def State.writeClosing (s : State) (p : Nat) : State :=
  match (s.part p).heldClosing with
  | none => s
  | some r => if s.usageFull p then s else (s.putUsage p r).freePartition p

/-- A DESTROY goes as far as it can: when nothing of the partition runs, its windows are revoked; when they are free, the closing
record is made (R344). -/
def State.destroyCheck (s : State) (p : Nat) : State :=
  let x := s.part p
  if !x.live || !x.closing then s
  else if x.heldClosing.isSome then s.writeClosing p
  else if !s.opsEnded p || s.cmds.any (fun c => (s.team c.team).part = p && c.stage ≠ .ended) then s
  else
    let s : State := { s with windows := s.windows.map (fun w => w.close p) }
    if s.windows.any (fun w => w.part = p && w.state ≠ .free) then s
    else (s.modPart p (fun x => { x with heldClosing := some (s.usageRecord p 3) })).writeClosing p

/-- USAGE_RING_SPACE (R361): the kernel takes entries from a usage ring, and a closing record that waits is written. -/
def execUsageRingSpace (part : Nat) (consumer : Word) (s : State) : Host.Outcome State Fault Refusal :=
  .next (if s.phase ≠ .running || !(s.part part).live then s
  else ({ s with kmem := memSet s.kmem ((s.part part).usage.base + 8) 8 consumer.toNat } : State).writeClosing part)

/-! ### Attestation (R362) -/

/-- The 256 bytes of a report that are signed. -/
def State.reportBody (s : State) (p : Byte) (nonce : List Byte) : List Byte :=
  let x := s.part p.toNat
  let dev := p = 0xFF#8
  leBytes 4 0x5A710C3E ++ leBytes 2 1 ++ leBytes 2 0 ++ leBytes 8 s.serial.toNat ++ (s.fwmeas ++ leBytes 64 0).take 64
    ++ (nonce ++ leBytes 64 0).take 64 ++ [p] ++ leBytes 3 0 ++ leBytes 4 (if dev then 0 else x.epoch) ++ leBytes 8 s.tb.te
    ++ leBytes 8 s.tb.tl ++ (if dev then leBytes 64 0 else shake256 x.block) ++ leBytes 24 0

/-- ATTEST (R362). -/
def execAttest (part : Byte) (nonce : List Byte) (s : State) : Host.Outcome State Fault Refusal :=
  .next (if s.phase ≠ .running then s
  else if part = 0xFF#8 || (part.toNat < 16 && (s.part part.toNat).live) then
    (s.notify (.report (signed (s.reportBody part nonce)))).done 0
  else s.done 1)

/-! ### Rings of traps and logs (R366) -/

/-- Held trap records enter the ring in the order of SEQ while it has space. -/
def State.flushTraps (s : State) (p : Nat) : State :=
  ((s.part p).held).foldl (fun s h =>
    let x := s.part p
    if x.trap.set && !ringFull s.kmem x.trap then
      ({ s with kmem := ringPush s.kmem x.trap h.bytes } : State).modPart p (fun y => { y with held := y.held.drop 1 })
    else s) s

/-- SETRINGS (R366): base and entries of the trap ring, and of the arithmetic log. -/
def execSetrings (part base n logBase logN : Nat) (s : State) : Host.Outcome State Fault Refusal :=
  .next (if s.phase ≠ .running then s
  else if (s.part part).live && powerIn 16 1048576 n && powerIn 16 1048576 logN then
    ((s.modPart part (fun x => { x with
      trap := { set := true, base := base, n := n }
      log := { set := true, base := logBase, n := logN } })).flushTraps part).done 0
  else s.done 1)

/-- TRAP_RING_SPACE (R366): the kernel takes entries from a trap ring, and held records enter it. -/
def execTrapRingSpace (part : Nat) (consumer : Word) (s : State) : Host.Outcome State Fault Refusal :=
  .next (if s.phase ≠ .running || !(s.part part).trap.set then s
  else ({ s with kmem := memSet s.kmem ((s.part part).trap.base + 8) 8 consumer.toNat } : State).flushTraps part)

end Sys2Proof.Machine
end

