-- ==== Sys2Proof/Machine/Paging.lean ====
section
/-!
DEFINITION. Pages and windows: zeroing on allocation (R349), page-in (R351), and the commands on remote windows and grants
(R353, R357).
-/
namespace Sys2Proof.Machine

/-! ### Zeroing (R349) -/

/-- No stamped request that was judged still uses a cell of a frame. -/
def State.frameQuiet (s : State) (frame n : Nat) : Bool := !s.judgedRefs.any (fun r => frame ≤ r.2.2.1 && r.2.2.1 < frame + n)

/-- The leaf of a page whose zeroing may begin. -/
def State.zeroable (s : State) (p va : Nat) : Option Leaf :=
  match s.walk p va with
  | .leaf l => if l.z && !s.zeroing.any (fun x => x.1 = p && x.2.1 = va) && s.frameQuiet l.frame l.bytes then some l else none
  | _ => none

/-- PAGE_ZEROING (R349): every byte of the frame is written with zero. -/
def execPageZeroing (part va : Nat) (s : State) : Host.Outcome State Fault Refusal :=
  .next (match s.zeroable part va with
  | none => s
  | some l =>
    { s with
      hbm := memClear s.hbm l.frame l.bytes
      bad := { s.bad with hbm := clearMarks s.bad.hbm l.frame l.bytes }
      zeroing := s.zeroing ++ [(part, va, l.raw)]
      zPending := s.zPending.filter (fun x => x ≠ (part, va)) })

/-- ZEROING_COMPLETE (R349): Z is cleared in the leaf that was zeroed; a leaf changed meanwhile is left as it stands. -/
def execZeroingComplete (part va : Nat) (s : State) : Host.Outcome State Fault Refusal :=
  .next (match s.zeroing.find? (fun x => x.1 = part && x.2.1 = va) with
  | none => s
  | some x =>
    let s := { s with zeroing := s.zeroing.filter (fun y => y ≠ x) }
    match s.walk part va with
    | .leaf l => if l.raw = x.2.2 then { s with kmem := memSet s.kmem l.entry 8 (l.raw &&& ~~~ (1#64 <<< 57)).toNat } else s
    | _ => s)

/-! ### Page-in (R351) -/

/-- The new frame goes back to the pool: CONSUMER steps back to it (assumption 20: DESIGN CHOICE). -/
def State.poolReturn (s : State) (p frame : Nat) : State :=
  let r := (s.part p).pool
  let n := (ringConsumer s.kmem r + 2 ^ 64 - 1) % 2 ^ 64
  { s with kmem := memSet (memSet s.kmem (r.base + 64 + n % r.n * 8) 8 frame) (r.base + 8) 8 n }

/-- The leaf still equals the old one with MIG set: its entry. -/
def State.stillMigrating (s : State) (x : PageIn) : Option Nat :=
  match s.walk x.part x.va with
  | .leaf l => if !l.big && l.raw = (x.old ||| (1#64 <<< 54)) then some l.entry else none
  | _ => none

/-- The far frame of a page-in. -/
def PageIn.far (x : PageIn) : Nat := (x.old.extractLsb' 16 36).toNat * 65536

/-- A leaf of tier HBM at a new frame, with P and MIG clear. -/
def promoted (old : Word) (frame : Nat) : Word :=
  (old &&& ~~~ (3#64 <<< 61) &&& ~~~ (1#64 <<< 56) &&& ~~~ (1#64 <<< 54) &&& ~~~ (0xFFFFFFFFF#64 <<< 16))
    ||| (BitVec.ofNat 64 (frame / 65536) &&& 0xFFFFFFFFF#64) <<< 16

/-- A page-in under way ends: it is done, or abandoned with the frame returned. -/
def State.pageInEnd (s : State) (x : PageIn) : State :=
  let entry := s.stillMigrating x
  let bad := s.physBad true x.far 65536
  let abandon := fun (s : State) => (s.poolReturn x.part x.frame).tierRecord x.part x.va 4 2 0 65535 x.frame
  -- the pages stop migrating with the end, which leaves no leaf with MIG
  let s' := (({ s with pageIns := s.pageIns.filter (fun y => y ≠ x) } : State)).meter x.part 7 65536
  match entry with
  | none => abandon s'
  | some e =>
    if bad then abandon { s' with kmem := memSet s'.kmem e 8 x.old.toNat }
    else
      let cells := (s'.far.filter (fun c => decide (x.far ≤ c.1) && decide (c.1 < x.far + 65536)))
      let hbm := cells.foldl (fun m c => memPut m (x.frame + (c.1 - x.far)) c.2) (memClear s'.hbm x.frame 65536)
      (({ s' with
        hbm := hbm
        bad := { s'.bad with hbm := clearMarks s'.bad.hbm x.frame 65536 }
        kmem := memSet s'.kmem e 8 (promoted x.old x.frame).toNat } : State).meter x.part 8 1).tierRecord x.part x.va 4 1 0 65535 x.far

/-- PAGE_IN (R351): the copy of a page that migrates has been made. -/
def execPageIn (part va : Nat) (s : State) : Host.Outcome State Fault Refusal :=
  .next (match s.pageIns.find? (fun x => x.part = part && x.va = va / 65536 * 65536) with
  | none => s
  | some x => s.pageInEnd x)

/-! ### Windows and grants (R353, R357) -/

/-- WOPEN (R353): window, partition, base, limit, key, R and W. Refused with status 1, as it is for a partition that a DESTROY is closing
(assumption 20: DESIGN CHOICE). -/
def execWopen (w part base limit : Nat) (key : Word) (r wr : Bool) (s : State) : Host.Outcome State Fault Refusal :=
  .next (if s.phase ≠ .running then s
  else if w < 128 && (s.window w).state = .free && part < 16 && (s.part part).live && !(s.part part).closing && base % 65536 = 0 && limit % 65536 = 0
      && 65536 ≤ limit && limit ≤ 2 ^ 34 && (r || wr) then
    (s.modWindow w (fun _ => { state := .open_, part := part, base := base, limit := limit, key := key, r := r, w := wr })).done 0
  else s.done 1)

/-- A grant for a partition, device and window taken away. -/
def State.dropGrant (s : State) (part : Nat) (device : BitVec 21) (w : BitVec 7) : State :=
  { s with grants := s.grants.filter (fun g => !(g.part = part && g.device = device && g.window = w)) }

/-- GRANT (R353). -/
def execGrant (part : Nat) (device : BitVec 21) (w : BitVec 7) (key : Word) (s : State) : Host.Outcome State Fault Refusal :=
  .next (if s.phase ≠ .running then s
  else if (s.part part).live then
    let s := s.dropGrant part device w
    ({ s with grants := s.grants ++ [{ part := part, device := device, window := w, key := key }] } : State).done 0
  else s.done 1)

/-- UNGRANT (R353). -/
def execUngrant (part : Nat) (device : BitVec 21) (w : BitVec 7) (s : State) : Host.Outcome State Fault Refusal :=
  .next (if s.phase ≠ .running then s else (s.dropGrant part device w).done 0)

/-- WREVOKE (R357), the first phase: an open window becomes REVOKING. Each command waits for its window to be FREE. -/
def execWrevoke (w : Nat) (s : State) : Host.Outcome State Fault Refusal :=
  .next (if s.phase ≠ .running then s
  else match (s.window w).state with
  | .open_ | .revoking => s.modWindow w (fun x => { x with state := .revoking, revokers := x.revokers + 1 })
  | .free => s.done 0)

/-- WREVOKE_DRAIN_END (R357), the second phase: nothing is in flight, the window is FREE, and the commands that wait for it complete. -/
def execWrevokeDrainEnd (w : Nat) (s : State) : Host.Outcome State Fault Refusal :=
  .next (if w < 128 && (s.window w).state = .revoking && (s.window w).inflight = 0 then
    (upTo (s.window w).revokers).foldl (fun s _ => s.done 0) (s.modWindow w (fun x => { x with state := .free, revokers := 0 }))
  else s)

end Sys2Proof.Machine
end

