-- ==== Sys2Proof/Machine/Health.lean ====
section
/-!
DEFINITION. Integrity, restart, wear and power (R391, R394 to R399): scrubs, health records, the restart of the resident kernel, the
reset of the module, boot, throttling.
-/
namespace Sys2Proof.Machine

/-! ### Scrubs (R394) -/

/-- A day in cycles. -/
def dayCycles : Nat := 86400000000 * Config.cyclesPerMicrosecond

/-- Scrub counts are kept by unit (R397): 0 to 3 the compute dies, 4 the link die, 16 + n stack n (assumption 21: DESIGN CHOICE). -/
def linkDie : Nat := 4
/-- The unit of an HBM stack. -/
def stackUnit (n : Nat) : Nat := 16 + n
/-- The compute die of a core: twelve physical clusters each (R7), of which the disabled ones have no logical number (R8). -/
def State.dieOf (s : State) (core : Nat) : Nat :=
  rowGet 0 ((upTo Config.maxClusters).filter (fun i => !s.disabled.contains i)) (core / 4) / 12

/-- A find counted for its unit (R394); corrections are kept for a day. -/
def State.countFind (s : State) (f : ScrubFind) (unit : Nat) : State :=
  match f with
  | .clean => s
  | .corrected => { s with corrections := s.corrections.filter (fun x => s.cycle < x.2 + dayCycles) ++ [(unit, s.cycle)] }
  | .uncorrectable => { s with uncorrectable := rowMod 0 s.uncorrectable unit (fun n => n + 1) }

/-- A word marked bad by a find. -/
def mark (f : ScrubFind) (l : List Nat) (addr : Nat) : List Nat :=
  if f = .uncorrectable && !l.contains (addr / 8) then addr / 8 :: l else l

/-- SRAM_SCRUB (R394): the place is that of `State.spad` or `State.obuf`, or an address of the staging SRAM. A corrected word is written
back as it was. -/
def execSramScrub (store : SramStore) (addr : Nat) (find : ScrubFind) (s : State) : Host.Outcome State Fault Refusal :=
  .next (if !s.clocked then s
  else
    let s := s.countFind find (match store with
      | .scratchpad => s.dieOf (addr / 4194304)
      | .operand => s.dieOf (addr / 1048576)
      | .staging => linkDie)
    match store with
    | .scratchpad => { s with bad := { s.bad with spad := mark find s.bad.spad addr } }
    | .operand => { s with bad := { s.bad with obuf := mark find s.bad.obuf addr } }
    | .staging => { s with bad := { s.bad with staging := mark find s.bad.staging addr } })

/-- PATROL_SCRUB (R394). -/
def execPatrolScrub (addr : Nat) (find : ScrubFind) (s : State) : Host.Outcome State Fault Refusal :=
  .next (if !s.clocked then s
  else
    let s := s.countFind find (stackUnit (Config.hbmStack addr % 12))
    { s with bad := { s.bad with hbm := mark find s.bad.hbm addr } })

/-! ### Health records (R397) -/

/-- VALUE of a sample: scrub counts are the module's own, the unit's corrections of the last day. -/
def State.healthValue (s : State) (x : HealthSample) : Nat :=
  if x.monitor = 3#8 then (s.corrections.filter (fun y => y.1 = x.unit.toNat && decide (s.cycle < y.2 + dayCycles))).length
  else x.value.toNat

/-- EOL: the distance to LIMIT over the rate at which VALUE has come nearer to it in the last 30 days, rounded down. A link's margin falls to
its limit, and every other value rises to it (assumption 21: DEDUCED). -/
def endOfLife (falls : Bool) (value limit : Nat) (change : Int) : Nat :=
  let rate := if falls then -change else change
  let dist := if falls then value - limit else limit - value
  if rate ≤ 0 then 65535 else min 65535 (dist * 30 / rate.toNat)

/-- EOL of a sample. -/
def State.sampleEol (s : State) (x : HealthSample) : Nat := endOfLife (x.monitor = 2#8) (s.healthValue x) x.limit.toNat x.change30

/-- A health record. -/
def State.healthBytes (s : State) (x : HealthSample) : List Byte :=
  let v := s.healthValue x
  leBytes 1 x.monitor.toNat ++ leBytes 1 x.unit.toNat ++ leBytes 2 0 ++ leBytes 4 v ++ leBytes 4 x.limit.toNat
    ++ leBytes 2 (s.sampleEol x) ++ leBytes 2 0 ++ leBytes 8 s.tb.te
    ++ leBytes 8 (if x.monitor = 3#8 then rowGet 0 s.uncorrectable x.unit.toNat else x.uncorrectable.toNat)

/-- The disable map's numbers of a stack's pseudo-channels, and of a die's clusters or of the link die (assumption 21: DESIGN CHOICE). -/
def wornStack (n : Nat) : List Nat := if n < 12 then (upTo 64).map (fun i => 1024 + 64 * n + i) else []
/-- Those of a die. -/
def wornDie (n : Nat) : List Nat := if n < 4 then (upTo 12).map (fun i => 12 * n + i) else if n = linkDie then [8192] else []

/-- The disable map's numbers of the unit of a sample: physical clusters, pseudo-channels from 1,024, ports from 4,096, of which the first 32
are fabric ports and the others those of CXL lanes, and 8,192 the link die (assumption 21: DESIGN CHOICE). -/
def wornUnits (x : HealthSample) : List Nat :=
  let n := x.unit.toNat
  match x.monitor.toNat with
  | 1 => wornStack n
  | 2 => [4096 + n]
  | 3 => if 16 ≤ n then wornStack (n - 16) else wornDie n
  | _ => wornDie n

/-- One monitored unit's record; a unit near its end is disabled at the next boot. -/
def State.health (s : State) (r : Ring) (x : HealthSample) : State :=
  let worn := if s.sampleEol x < 30 then wornUnits x else []
  { s with
    kmem := ringLog s.kmem r (s.healthBytes x)
    disabled := s.disabled ++ worn.filter (fun n => !s.disabled.contains n) }

/-- HEALTH_RECORD (R397): one record for each sample, into the ring that the kernel chose; the count of discarded stamped stores is reported
with them (R322). -/
def execHealthRecord (base n : Nat) (samples : List HealthSample) (s : State) : Host.Outcome State Fault Refusal :=
  .next (if s.clocked && n ≠ 0 then
    (samples.foldl (fun s x => s.health { set := true, base := base, n := n } x) s).notify (.discards s.discards)
  else s)

/-! ### Reset and restart (R395) -/

/-- The contexts that a reset of the module ends: a record of KIND 1 each, where a ring can take one, and the number of those it could
not write. -/
def State.endContexts (s : State) : State × Nat :=
  (upTo s.teams.length).foldl (fun (x : State × Nat) u =>
    let t := x.1.team u
    if !t.live then x
    else match x.1.trapHeld t.part with
    | none => (x.1.noteTrap u 0 1 0 0 0, x.2)
    | some _ => (x.1, x.2 + 1)) (s, 0)

/-- The reset of the whole module (R395, R366): what stands in device, far and kernel memory and in flash is kept (assumption 22: DESIGN CHOICE), the
management endpoint is told, and the boot core runs next. -/
def State.moduleReset (s : State) : State :=
  let x := s.endContexts
  let s := x.1
  let lost := x.2 + (s.parts.map (fun p => p.held.length)).foldl (· + ·) 0
  { State.reset with
    cycle := s.cycle
    hbm := s.hbm
    far := s.far
    kmem := s.kmem
    bad := { hbm := s.bad.hbm, far := s.bad.far }
    epochNext := s.epochNext
    epochMax := s.epochMax
    firmware := s.firmware
    flashOk := s.flashOk
    disabled := s.disabled
    serial := s.serial
    identityKey := s.identityKey
    certificates := s.certificates
    saves := s.saves
    devid := s.devid
    outbox := s.outbox
    notices := s.notices ++ [.failed lost]
    order := s.order
    fresh := s.fresh }

/-- MODULE_RESET (R395). -/
def execModuleReset (s : State) : Host.Outcome State Fault Refusal := .next s.moduleReset

/-- The longest restart: 300 ms in cycles. -/
def restartBound : Nat := 300000 * Config.cyclesPerMicrosecond

/-- KERNEL_RESTART (R395): the restart takes a free number of cycles within its bound; a memory error during one resets the module. -/
def execKernelRestart (cause : RestartCause) (s : State) : Host.Outcome State Fault Refusal :=
  .next (match s.phase with
  | .running =>
    { s with
      phase := .restarting
      restartEnd := s.cycle + (Config.freeWord s.fresh).toNat % (restartBound + 1)
      fresh := s.fresh + 1 }
  | .restarting =>
    (match cause with
      | .memoryError => s.moduleReset
      | .noAnswer => s)
  | _ => s)

/-- The firmware in flash can be read and passes its check (R398, steps 1 and 2). -/
def State.firmwareGood (s : State) : Bool := s.flashOk && Config.falconAccepts s.firmware

/-- A restart ends: the kernel is loaded from flash after the checks of R398, and adopts everything as it stands; flash that fails them
leaves only a reset, whose boot halts (assumption 22: DESIGN CHOICE). -/
def State.restartCheck (s : State) : State :=
  match s.phase with
  | .restarting => if s.cycle < s.restartEnd then s else if s.firmwareGood then { s with phase := .running } else s.moduleReset
  | _ => s

/-! ### Boot (R396, R398) -/

/-- The numbers of a range that the disable map leaves. -/
def State.enabled (s : State) (from_ n : Nat) : Nat := ((upTo n).filter (fun i => !s.disabled.contains (from_ + i))).length

/-- BOOT (R398): units that fail at step 4 enter the disable map, and the module boots again; the resident kernel that starts is told which
units are disabled (R8). -/
def execBoot (failed : List Nat) (s : State) : Host.Outcome State Fault Refusal :=
  .next (match s.phase with
  | .off =>
    if !s.flashOk then { s with phase := .halted, notices := s.notices ++ [.bootHalt 1] }
    else if !Config.falconAccepts s.firmware then { s with phase := .halted, notices := s.notices ++ [.bootHalt 2] }
    else
      let s := { s with fwmeas := shake256 s.firmware }
      if !failed.isEmpty then { s with disabled := s.disabled ++ failed }
      else
        ({ s with
          nclusterMap := s.enabled 0 Config.maxClusters
          nchan := s.enabled 1024 Config.maxChannels
          portsOff := (upTo 32).filter (fun i => s.disabled.contains (4096 + i))
          tb := {}
          unitsDue := 1024
          phase := .running } : State).notify (.disabled s.disabled)
  | _ => s)

/-- FIRMWARE_IMAGE_WRITE (R398): it takes effect at the next boot. -/
def execFirmwareImageWrite (image : List Byte) (s : State) : Host.Outcome State Fault Refusal := .next { s with firmware := image }

/-! ### Ports, links, power, heat (R391, R396, R399, R214) -/

/-- FABRIC_PORT_DISABLE (R396): the resident kernel is told (R8). -/
def execFabricPortDisable (port : Nat) (s : State) : Host.Outcome State Fault Refusal :=
  .next (if s.clocked && !s.portsOff.contains port then ({ s with portsOff := s.portsOff ++ [port] } : State).notify (.disabled [4096 + port]) else s)

/-- LINK_RETRAIN (R391): traffic waits and is not lost. -/
def execLinkRetrain (link : Nat) (s : State) : Host.Outcome State Fault Refusal :=
  .next (if s.clocked then { s with retrains := rowMod 0 s.retrains link (fun n => n + 1) } else s)

/-- POWER_CAP (R399): three issuing cycles in four, and then one in two. -/
def execPowerCap (s : State) : Host.Outcome State Fault Refusal :=
  .next (if s.clocked then { s with powerCap := min 2 (s.powerCap + 1) } else s)

/-- POWER_ESTIMATE_FALLS (R399). -/
def execPowerEstimateFalls (s : State) : Host.Outcome State Fault Refusal := .next (if s.clocked then { s with powerCap := 0 } else s)

/-- DIE_OVERTEMP_THROTTLE (R399). -/
def execDieOvertempThrottle (die : Nat) (s : State) : Host.Outcome State Fault Refusal :=
  .next (if s.clocked then { s with dieHot := rowPut false s.dieHot die true } else s)

/-- DIE_OVERTEMP_TRIP (R399): the module trips, and is reset. -/
def execDieOvertempTrip (_die : Nat) (s : State) : Host.Outcome State Fault Refusal := .next (if s.clocked then s.moduleReset else s)

/-- CORE_BACK_BELOW_LIMIT (R214): a core's temperature, below its limit. -/
def execCoreBackBelowLimit (heat : CoreHeat) (s : State) : Host.Outcome State Fault Refusal :=
  .next (if s.clocked && (s.core heat.core).below heat.temp then s.modCore heat.core (fun c => { c with hot := false, throttled := false }) else s)

/-- THERMAL_LIMIT_SET (R214). -/
def execThermalLimitSet (core limit : Nat) (s : State) : Host.Outcome State Fault Refusal :=
  .next (if s.phase = .running then s.modCore core (fun c => { c with thermalLimit := some limit }) else s)

end Sys2Proof.Machine
end

