-- ==== Sys2Proof/Machine/Sched.lean ====
section
/-!
DEFINITION. The issue stage (R210 to R212, R229, R247): waits that have ended, promotion and rotation, the watchdog, a fetched word
that is no instruction (R85), and the writing of held log records (R376).
-/
namespace Sys2Proof.Machine

/-! ### Waits that have ended (R210) -/

/-- A gang's wait has ended, so that its word can be tried again; slices held at a REGANG or a member mask are released by others. -/
def State.cleared (s : State) (u g : Nat) (slices : BitVec 8) (k : WaitKind) : Bool :=
  let t := s.team u
  let x := t.gang g
  match k with
  | .register r => !(lanesOf (x.activeOf slices)).any (fun l => ((x.lane l).vreg r).owed.isSome)
  | .swait a gen =>
    let key := t.key a.toNat
    genReached (swGen (s.spadNat key 8)) gen.toNat || s.spadBad key 16
  | .waitc c n => (s.partyCounter u g c).value ≤ n.toNat
  | .bar n p | .barw n p => p < t.phase n
  | .bara n _ => (x.bar n).arrived ≠ some (t.phase n)
  | .gather n p => arrivedAt t g n p
  | .queue q =>
    let y := t.queue q
    !y.entries.isEmpty && (y.blocked.head?.getD (8 * g + (x.slice (lowSlice slices)).sub) = 8 * g + (x.slice (lowSlice slices)).sub)
  | .qpush q _ => (t.queue q).entries.length < 16 || t.gangsExited
  | .regang _ | .member _ _ => false
  | .bank b => !t.mmas.any (fun m => m.bank = b.toNat)
  | .record r => (s.record t.home r.toNat).state ≠ .filling && !t.mmaRecord r s.cycle
  | .operands r => !t.mmaReads g s.cycle r
  | .array => t.status = .running && (s.core t.core).arrayFree ≤ s.cycle && s.arrayTurn t.core (u, 8 * g + (x.slice (lowSlice slices)).sub)
  | .counter c => (s.partyCounter u g c).value < 255
  | .command _ _ => (s.partyCounter u g .enc).value < 255
  | .launch _ => s.launched t.part < Config.launchLimit
  | .fetch => s.fetch t.part (if g = 16 then t.side.pc else x.pcOf slices) ≠ .held

/-- A sub-gang can try its word: it is not stopped, and no wait that goes on holds it. -/
def State.subReady (s : State) (u g name : Nat) : Bool :=
  let x := s.gang u g
  let sl := x.subgang name
  let y := x.slice (lowSlice sl)
  sl ≠ 0#8 && !y.stopped &&
  (match y.wait with
    | none => true
    | some w => s.cleared u g sl w.kind)

/-- A sidecar can try its word. -/
def State.sideReady (s : State) (u : Nat) : Bool :=
  let x := (s.team u).side
  s.issuable { team := u, gang := 16, slices := 0 } &&
  (match x.wait with
    | none => true
    | some w => s.cleared u 16 0 w.kind)

/-- The team is on a core: its gangs are in the scheduler until they are released, and its sidecar runs (R208, assumption 37: DEDUCED). -/
def Team.scheduled (t : Team) : Bool :=
  t.live &&
  (match t.status with
    | .running | .saving _ => true
    | _ => false)

/-- A pending gang with a sub-gang that can issue is ready; one with none is pending, where a sub-gang is held in a wait of R210, where no
slice is left that is not stopped, or where its team is not on a core (R210, R229). -/
def State.settleGang (s : State) (u g : Nat) : State :=
  let x := s.gang u g
  let on := (s.team u).scheduled && !(s.team u).released
  let can := on && x.subs.any (fun n => s.subReady u g n)
  if can && x.active.isNone && x.ready.isNone then
    ({ s with order := s.order + 1 } : State).modGang u g (fun x => { x with ready := some s.order })
  else if !can && (x.ready.isSome || x.active.isSome)
      && (!on || x.still || (upTo 8).any (fun i => (x.slice i).pends)) then
    s.modGang u g (fun x => { x with active := none, ready := none })
  else s

/-! ### Promotion and rotation (R211) -/

/-- Gangs of a quadrant, each by team and number. -/
def State.quadMembers (s : State) (c q : Nat) : List (Nat × Nat) :=
  ((upTo s.teams.length).filter (fun u => (s.team u).onCore c)).flatMap (fun u =>
    ((upTo (s.team u).ngang).filter (fun g => g % 4 = q)).map (fun g => (u, g)))

/-- Gangs of a quadrant in the order of residence slots. -/
def State.quadGangs (s : State) (c q : Nat) : List (Nat × Nat) :=
  (upTo Config.quadSlots).flatMap (fun k => (s.quadMembers c q).filter (fun x => (s.gang x.1 x.2).slot = k))

/-- The gang with the least value of a number. -/
def State.leastGang (s : State) (gs : List (Nat × Nat)) (f : Gang → Option Nat) : Option (Nat × Nat) :=
  (gs.foldl (fun (best : Option ((Nat × Nat) × Nat)) x =>
    match f (s.gang x.1 x.2), best with
    | none, b => b
    | some n, none => some (x, n)
    | some n, some b => if n < b.2 then some (x, n) else some b) none).map (·.1)

/-- The active set of a quadrant has room. -/
def State.activeRoom (s : State) (gs : List (Nat × Nat)) : Bool :=
  (gs.filter (fun x => (s.gang x.1 x.2).active.isSome)).length < Config.quadActive

/-- A gang promoted: it is the latest of the active set. -/
def State.promote (s : State) (x : Nat × Nat) : State :=
  ({ s with order := s.order + 1 } : State).modGang x.1 x.2 (fun g => { g with active := some s.order, ready := none })

/-- PROMOTION (R211): the longest-ready pending gang, where the active set has room. -/
def execPromotion (core quad : Nat) (s : State) : Host.Outcome State Fault Refusal :=
  .next (let gs := s.quadGangs core quad
  match s.leastGang gs (·.ready) with
  | none => s
  | some x => if s.activeRoom gs then s.promote x else s)

/-- ROTATION (R211): with a full active set the gang promoted longest ago becomes the youngest ready one, and the longest-ready takes its
place. -/
def execRotation (core quad : Nat) (s : State) : Host.Outcome State Fault Refusal :=
  .next (let gs := s.quadGangs core quad
  match s.leastGang gs (·.ready), s.leastGang gs (·.active) with
  | some x, some y =>
    if s.activeRoom gs then s
    else
      let s := ({ s with order := s.order + 1 } : State).modGang y.1 y.2 (fun g => { g with active := none, ready := some s.order })
      s.promote x
  | _, _ => s)

/-! ### The watchdog (R247) -/

/-- DETAIL of WAIT_TIMEOUT for the waits that the watchdog covers (R369). -/
def timeoutDetail : WaitKind → Option Nat
  | .swait a _ => some ((a.toNat % 2 ^ 32) * 2 ^ 16)
  | .bar n _ => some (1 + n.toNat * 2 ^ 16)
  | .barw n _ => some (2 + n.toNat * 2 ^ 16)
  | .regang _ => some 3
  | .member _ _ => some 4
  | .queue _ => some 5
  | .qpush _ _ => some 6
  | .bara n _ | .gather n _ => some (7 + n.toNat * 2 ^ 16)
  | _ => none

/-- The slices held in a wait of a sub-gang: all that are held at one REGANG or member mask, else the sub-gang's own. -/
def Gang.heldIn (g : Gang) (slices : BitVec 8) (k : WaitKind) : BitVec 8 :=
  match k with
  | .regang _ => g.regangHeld (g.pcOf slices)
  | .member _ _ => g.memberHeld (g.pcOf slices)
  | _ => slices

/-- A barrier arrival withdrawn: the slices of a BAR have not issued it; those of others have, and what a slice arrived at by BARA
stands (R293). -/
def Gang.withdraw (g : Gang) (slices : BitVec 8) (k : WaitKind) : Gang :=
  match k with
  | .bar n p =>
    let b := g.bar n
    let out := slices &&& ~~~ b.kept
    let b := if out = 0#8 then b
      else if b.arrived = some p then { b with arrived := none, slices := g.live &&& ~~~ out }
      else { b with slices := b.slices &&& ~~~ out }
    { g with bars := rowPut {} g.bars n.toNat b }
  | _ => g

/-- The wait that has reached its unit's limit and has not ended, with its detail. -/
def State.lateWait (s : State) (u g name : Nat) : Option (WaitKind × Nat) :=
  let t := s.team u
  let x := t.gang g
  let w := if g = 16 then t.side.wait else (x.slice (lowSlice (x.subgang name))).wait
  let limit := if g = 16 then t.side.watchdog else x.watchdog
  let stopped := if g = 16 then t.side.stopped else x.halted || x.subgang name = 0#8
  if !t.scheduled || stopped then none
  else match w with
  | none => none
  | some w => if s.cycle < w.since + limit || s.cleared u g (x.subgang name) w.kind then none else (timeoutDetail w.kind).map (fun d => (w.kind, d))

/-- WATCHDOG_EXPIRY (R247): every slice held in the wait traps with WAIT_TIMEOUT at its word. -/
def execWatchdogExpiry (team gang sub : Nat) (s : State) : Host.Outcome State Fault Refusal :=
  .next (match s.lateWait team gang sub with
  | none => s
  | some (k, d) =>
    let info : TrapInfo := { cause := .waitTimeout, detail := BitVec.ofNat 64 d }
    if gang = 16 then s.takeTrap { team := team, gang := 16, slices := 0 } info
    else
      let x := s.gang team gang
      let held := x.heldIn (x.subgang sub) k
      (s.takeTrap { team := team, gang := gang, slices := held } info).modGang team gang (fun g => g.withdraw held k))

/-! ### The log, and words that are none -/

/-- LOG_RECORD_WRITE (R376): the oldest record that a gang holds. -/
def execLogRecordWrite (team gang : Nat) (s : State) : Host.Outcome State Fault Refusal := .next (s.writeLog team gang)

/-- A word's opcode is one that this issuer never executes: step 1 of R63 (R85, R87, R88, R378). -/
def State.barsOpcode (s : State) (u : Issuer) (w : Half) : Bool :=
  if u.gang = 16 then !sidecarOpcode w
  else opOf w = 0x76#8 || ((s.gang u.team u.gang).instar.body.isSome && !bodyOpcode (opOf w).toNat)

/-- The trap of a fetched word that is no instruction, or of a fetch that gives none (R63, R85, R235). -/
def badWord (barred : Half → Bool) (w : Option Half) : TrapInfo :=
  match w with
  | none => illegalAt 0#32 0
  | some x => illegalAt x (match decode x with
    | .error e => if barred x then 1 else e.step
    | .ok _ => 1)

/-- ILLEGAL_INSTRUCTION_WORD (R85): the comparators of a gang come first (R245). -/
def execIllegalInstructionWord (w : Option Half) (s : State) : Host.Outcome State Fault Refusal :=
  match s.issuer with
  | none => .next s
  | some u =>
    if !s.issuable u then .next s
    else
      let g := s.gang u.team u.gang
      .next (match (if u.gang = 16 then none else comparatorStop g u.slices (g.pcOf u.slices) 0) with
      | some st => stopUnit u st s
      | none => s.takeTrap u (badWord (s.barsOpcode u) w))

end Sys2Proof.Machine
end

