-- ==== Sys2Proof/Machine/Uniform.lean ====
section
/-!
DEFINITION. Uniform words (R79, R141): they act once for the party on 64-bit values.
-/
namespace Sys2Proof.Machine

/-- A uniform word: k sources, k destination, and its value. -/
def uniformWord (i : Instr) (ks : List KNum) (d : KNum) (f : Ctx → Word) (s : State) : Host.Outcome State Fault Refusal :=
  issue i { ks := ks, sidecar := true } (fun c s => .ok (s.writeK c.u d (f c))) s

/-- K.a shifted left by K.b; 0 from 64 on. -/
def kShl (a b : Word) : Word := if 64 ≤ b.toNat then 0#64 else a <<< b.toNat
/-- K.a shifted right by K.b, filling with zeros or with the sign. -/
def kShr (arith : Bool) (a b : Word) : Word :=
  if arith then a.sshiftRight (if 64 ≤ b.toNat then 63 else b.toNat) else if 64 ≤ b.toNat then 0#64 else a >>> b.toNat
/-- The smaller or the larger, signed or unsigned. -/
def kPick (u isMax : Bool) (a b : Word) : Word := if (if u then a.ult b else a.slt b) != isMax then a else b

/-- KADD (R141). -/
def execKadd (d a b : KNum) (s : State) : Host.Outcome State Fault Refusal :=
  uniformWord (.kadd d a b) [a, b] d (fun c => c.k a + c.k b) s
/-- KSUB (R141). -/
def execKsub (d a b : KNum) (s : State) : Host.Outcome State Fault Refusal :=
  uniformWord (.ksub d a b) [a, b] d (fun c => c.k a - c.k b) s
/-- KMUL (R141). -/
def execKmul (d a b : KNum) (s : State) : Host.Outcome State Fault Refusal :=
  uniformWord (.kmul d a b) [a, b] d (fun c => c.k a * c.k b) s
/-- KAND (R141). -/
def execKand (d a b : KNum) (s : State) : Host.Outcome State Fault Refusal :=
  uniformWord (.kand d a b) [a, b] d (fun c => c.k a &&& c.k b) s
/-- KOR (R141). -/
def execKor (d a b : KNum) (s : State) : Host.Outcome State Fault Refusal :=
  uniformWord (.kor d a b) [a, b] d (fun c => c.k a ||| c.k b) s
/-- KXOR (R141). -/
def execKxor (d a b : KNum) (s : State) : Host.Outcome State Fault Refusal :=
  uniformWord (.kxor d a b) [a, b] d (fun c => c.k a ^^^ c.k b) s
/-- KSHL (R141). -/
def execKshl (d a b : KNum) (s : State) : Host.Outcome State Fault Refusal :=
  uniformWord (.kshl d a b) [a, b] d (fun c => kShl (c.k a) (c.k b)) s
/-- KSHR (R141). -/
def execKshr (d a b : KNum) (arith : Bool) (s : State) : Host.Outcome State Fault Refusal :=
  uniformWord (.kshr d a b arith) [a, b] d (fun c => kShr arith (c.k a) (c.k b)) s
/-- KADDI (R141). -/
def execKaddi (d a : KNum) (imm : BitVec 12) (s : State) : Host.Outcome State Fault Refusal :=
  uniformWord (.kaddi d a imm) [a] d (fun c => c.k a + imm.signExtend 64) s
/-- KMOVI (R141). -/
def execKmovi (d : KNum) (imm : BitVec 18) (s : State) : Host.Outcome State Fault Refusal :=
  uniformWord (.kmovi d imm) [] d (fun _ => imm.signExtend 64) s
/-- KMOVHI (R141). -/
def execKmovhi (d : KNum) (imm : BitVec 18) (s : State) : Host.Outcome State Fault Refusal :=
  uniformWord (.kmovhi d imm) [d] d (fun c => (c.k d &&& 0x3FFFF#64) ||| (imm.setWidth 64 <<< 18)) s
/-- KMIN (R141). -/
def execKmin (d a b : KNum) (u : Bool) (s : State) : Host.Outcome State Fault Refusal :=
  uniformWord (.kmin d a b u) [a, b] d (fun c => kPick u false (c.k a) (c.k b)) s
/-- KMAX (R141). -/
def execKmax (d a b : KNum) (u : Bool) (s : State) : Host.Outcome State Fault Refusal :=
  uniformWord (.kmax d a b u) [a, b] d (fun c => kPick u true (c.k a) (c.k b)) s
/-- KSEL (R141): fn names k0 to k15. -/
def execKsel (d a b : KNum) (kf : BitVec 4) (s : State) : Host.Outcome State Fault Refusal :=
  uniformWord (.ksel d a b kf) [a, b, kf.setWidth 5] d (fun c => if c.k (kf.setWidth 5) ≠ 0#64 then c.k a else c.k b) s

end Sys2Proof.Machine
end

