-- ==== Sys2Proof/Machine/Dispatch.lean ====
section
/-!
DEFINITION. The meaning of each instruction, one arm for each row of the table.
-/
namespace Sys2Proof.Machine

/-- What an instruction does. -/
def exec (i : Instr) (s : State) : Host.Outcome State Fault Refusal :=
  match i with
  | .nop => Sys2Proof.Machine.execNop s
  | .exit => Sys2Proof.Machine.execExit s
  | .bra off => Sys2Proof.Machine.execBra off s
  | .brc p n off => Sys2Proof.Machine.execBrc p n off s
  | .rcv off => Sys2Proof.Machine.execRcv off s
  | .jmpi a wa => Sys2Proof.Machine.execJmpi a wa s
  | .call off => Sys2Proof.Machine.execCall off s
  | .calli a wa => Sys2Proof.Machine.execCalli a wa s
  | .ret => Sys2Proof.Machine.execRet s
  | .retr a wa => Sys2Proof.Machine.execRetr a wa s
  | .loop c ka words => Sys2Proof.Machine.execLoop c ka words s
  | .lexit => Sys2Proof.Machine.execLexit s
  | .regang mask => Sys2Proof.Machine.execRegang mask s
  | .kbr ka kb cc off => Sys2Proof.Machine.execKbr ka kb cc off s
  | .bkpt code => Sys2Proof.Machine.execBkpt code s
  | .setmode ka => Sys2Proof.Machine.execSetmode ka s
  | .setmk ka kb => Sys2Proof.Machine.execSetmk ka kb s
  | .getmode kd => Sys2Proof.Machine.execGetmode kd s
  | .csrr d csr => Sys2Proof.Machine.execCsrr d csr s
  | .csrw a csr => Sys2Proof.Machine.execCsrw a csr s
  | .invstSetState st => Sys2Proof.Machine.execInvstSetState st s
  | .invstLoadLo n x => Sys2Proof.Machine.execInvstLoadLo n x s
  | .invstLoadHi n x => Sys2Proof.Machine.execInvstLoadHi n x s
  | .invstViewLo n => Sys2Proof.Machine.execInvstViewLo n s
  | .invstViewHi n => Sys2Proof.Machine.execInvstViewHi n s
  | .trap code => Sys2Proof.Machine.execTrap code s
  | .instar off => Sys2Proof.Machine.execInstar off s
  | .inv x t br tol len dec => Sys2Proof.Machine.execInv x t br tol len dec s
  | .add d a b wa wb => Sys2Proof.Machine.execAdd d a b wa wb s
  | .sub d a b wa wb => Sys2Proof.Machine.execSub d a b wa wb s
  | .mul d a b wa wb => Sys2Proof.Machine.execMul d a b wa wb s
  | .mulh d a b wa wb => Sys2Proof.Machine.execMulh d a b wa wb s
  | .fma d a b wa wb => Sys2Proof.Machine.execFma d a b wa wb s
  | .fms d a b wa wb => Sys2Proof.Machine.execFms d a b wa wb s
  | .min d a b wa wb => Sys2Proof.Machine.execMin d a b wa wb s
  | .max d a b wa wb => Sys2Proof.Machine.execMax d a b wa wb s
  | .abs d a wa => Sys2Proof.Machine.execAbs d a wa s
  | .neg d a wa => Sys2Proof.Machine.execNeg d a wa s
  | .and d a b wa wb => Sys2Proof.Machine.execAnd d a b wa wb s
  | .or d a b wa wb => Sys2Proof.Machine.execOr d a b wa wb s
  | .xor d a b wa wb => Sys2Proof.Machine.execXor d a b wa wb s
  | .andn d a b wa wb => Sys2Proof.Machine.execAndn d a b wa wb s
  | .shl d a b wa wb => Sys2Proof.Machine.execShl d a b wa wb s
  | .shr d a b wa wb => Sys2Proof.Machine.execShr d a b wa wb s
  | .rot d a b wa wb => Sys2Proof.Machine.execRot d a b wa wb s
  | .bits op d a wa => Sys2Proof.Machine.execBits op d a wa s
  | .bfx d a b wa wb => Sys2Proof.Machine.execBfx d a b wa wb s
  | .bfi d a b wa wb => Sys2Proof.Machine.execBfi d a b wa wb s
  | .div d a b wa wb => Sys2Proof.Machine.execDiv d a b wa wb s
  | .rem d a b wa wb => Sys2Proof.Machine.execRem d a b wa wb s
  | .mov d a wa => Sys2Proof.Machine.execMov d a wa s
  | .sel d a b wa wb n p => Sys2Proof.Machine.execSel d a b wa wb n p s
  | .cmp cc p a b wa wb => Sys2Proof.Machine.execCmp cc p a b wa wb s
  | .plop d a b tt => Sys2Proof.Machine.execPlop d a b tt s
  | .dot4 d a b wa wb => Sys2Proof.Machine.execDot4 d a b wa wb s
  | .crc d a wa => Sys2Proof.Machine.execCrc d a wa s
  | .addi d a imm => Sys2Proof.Machine.execAddi d a imm s
  | .muli d a imm => Sys2Proof.Machine.execMuli d a imm s
  | .andi d a imm => Sys2Proof.Machine.execAndi d a imm s
  | .ori d a imm => Sys2Proof.Machine.execOri d a imm s
  | .xori d a imm => Sys2Proof.Machine.execXori d a imm s
  | .shli d a count => Sys2Proof.Machine.execShli d a count s
  | .shri d a count => Sys2Proof.Machine.execShri d a count s
  | .cmpi cc p a imm => Sys2Proof.Machine.execCmpi cc p a imm s
  | .movi d imm => Sys2Proof.Machine.execMovi d imm s
  | .movhi d imm => Sys2Proof.Machine.execMovhi d imm s
  | .mini d a imm => Sys2Proof.Machine.execMini d a imm s
  | .maxi d a imm => Sys2Proof.Machine.execMaxi d a imm s
  | .rcp d a wa => Sys2Proof.Machine.execRcp d a wa s
  | .rsq d a wa => Sys2Proof.Machine.execRsq d a wa s
  | .sqrt d a wa => Sys2Proof.Machine.execSqrt d a wa s
  | .exp2 d a wa => Sys2Proof.Machine.execExp2 d a wa s
  | .log2 d a wa => Sys2Proof.Machine.execLog2 d a wa s
  | .sinpi d a wa => Sys2Proof.Machine.execSinpi d a wa s
  | .cospi d a wa => Sys2Proof.Machine.execCospi d a wa s
  | .tanh d a wa => Sys2Proof.Machine.execTanh d a wa s
  | .cvt src d a wa => Sys2Proof.Machine.execCvt src d a wa s
  | .pack src d a part wa => Sys2Proof.Machine.execPack src d a part wa s
  | .unpk src d a part wa => Sys2Proof.Machine.execUnpk src d a part wa s
  | .qnt l d a b wa wb => Sys2Proof.Machine.execQnt l d a b wa wb s
  | .rnd m d a wa => Sys2Proof.Machine.execRnd m d a wa s
  | .classf d a wa => Sys2Proof.Machine.execClassf d a wa s
  | .scalb d a b wa wb => Sys2Proof.Machine.execScalb d a b wa wb s
  | .shfl d a b wa wb kf => Sys2Proof.Machine.execShfl d a b wa wb kf s
  | .bcst d a lane wa kf => Sys2Proof.Machine.execBcst d a lane wa kf s
  | .reduce op d a wa kf => Sys2Proof.Machine.execReduce op d a wa kf s
  | .scan op ex d a wa kf => Sys2Proof.Machine.execScan op ex d a wa kf s
  | .voteBallot kd p kf => Sys2Proof.Machine.execVoteBallot kd p kf s
  | .voteAny d p kf => Sys2Proof.Machine.execVoteAny d p kf s
  | .voteAll d p kf => Sys2Proof.Machine.execVoteAll d p kf s
  | .subx d a b wa wb => Sys2Proof.Machine.execSubx d a b wa wb s
  | .lanek kd a lane wa => Sys2Proof.Machine.execLanek kd a lane wa s
  | .kbcast d ka => Sys2Proof.Machine.execKbcast d ka s
  | .kadd d a b => Sys2Proof.Machine.execKadd d a b s
  | .ksub d a b => Sys2Proof.Machine.execKsub d a b s
  | .kmul d a b => Sys2Proof.Machine.execKmul d a b s
  | .kand d a b => Sys2Proof.Machine.execKand d a b s
  | .kor d a b => Sys2Proof.Machine.execKor d a b s
  | .kxor d a b => Sys2Proof.Machine.execKxor d a b s
  | .kshl d a b => Sys2Proof.Machine.execKshl d a b s
  | .kshr d a b arith => Sys2Proof.Machine.execKshr d a b arith s
  | .kaddi d a imm => Sys2Proof.Machine.execKaddi d a imm s
  | .kmovi d imm => Sys2Proof.Machine.execKmovi d imm s
  | .kmovhi d imm => Sys2Proof.Machine.execKmovhi d imm s
  | .kmin d a b u => Sys2Proof.Machine.execKmin d a b u s
  | .kmax d a b u => Sys2Proof.Machine.execKmax d a b u s
  | .ksel d a b kf => Sys2Proof.Machine.execKsel d a b kf s
  | .qpush q ka bcast => Sys2Proof.Machine.execQpush q ka bcast s
  | .ld w sx d a wa => Sys2Proof.Machine.execLd w sx d a wa s
  | .st w a b wa wb => Sys2Proof.Machine.execSt w a b wa wb s
  | .ldx d a imm => Sys2Proof.Machine.execLdx d a imm s
  | .stx d a imm => Sys2Proof.Machine.execStx d a imm s
  | .atom op d a b wa wb => Sys2Proof.Machine.execAtom op d a b wa wb s
  | .acas d a b wa wb => Sys2Proof.Machine.execAcas d a b wa wb s
  | .kld d a imm => Sys2Proof.Machine.execKld d a imm s
  | .kst d a imm => Sys2Proof.Machine.execKst d a imm s
  | .tlook d a wa => Sys2Proof.Machine.execTlook d a wa s
  | .tlookK d a => Sys2Proof.Machine.execTlookK d a s
  | .tset d a b wa wb => Sys2Proof.Machine.execTset d a b wa wb s
  | .tinv a wa => Sys2Proof.Machine.execTinv a wa s
  | .swinit ka kb => Sys2Proof.Machine.execSwinit ka kb s
  | .swadd sc ka kb => Sys2Proof.Machine.execSwadd sc ka kb s
  | .swait sc ka kb => Sys2Proof.Machine.execSwait sc ka kb s
  | .waitc c n => Sys2Proof.Machine.execWaitc c n s
  | .bar n => Sys2Proof.Machine.execBar n s
  | .bara n => Sys2Proof.Machine.execBara n s
  | .barw n => Sys2Proof.Machine.execBarw n s
  | .trig => Sys2Proof.Machine.execTrig s
  | .launch ka => Sys2Proof.Machine.execLaunch ka s
  | .detep => Sys2Proof.Machine.execDetep s
  | .copy ka => Sys2Proof.Machine.execCopy ka s
  | .skip ka => Sys2Proof.Machine.execSkip ka s
  | .engq kd ka => Sys2Proof.Machine.execEngq kd ka s
  | .rld d a wa => Sys2Proof.Machine.execRld d a wa s
  | .rst f a b wa wb => Sys2Proof.Machine.execRst f a b wa wb s
  | .raadd d a b wa wb => Sys2Proof.Machine.execRaadd d a b wa wb s
  | .raaddD a b wa wb => Sys2Proof.Machine.execRaaddD a b wa wb s
  | .rcas d a b wa wb => Sys2Proof.Machine.execRcas d a b wa wb s
  | .stmp d a b wa wb => Sys2Proof.Machine.execStmp d a b wa wb s
  | .ldat d a b wa wb => Sys2Proof.Machine.execLdat d a b wa wb s
  | .time kd => Sys2Proof.Machine.execTime kd s
  | .mma bank a kb wa reuse la clear => Sys2Proof.Machine.execMma bank a kb wa reuse la clear s
  | .mmaResultWrite core => Sys2Proof.Machine.execMmaResultWrite core s
  | .mclr bank => Sys2Proof.Machine.execMclr bank s
  | .mst bank ka => Sys2Proof.Machine.execMst bank ka s
  | .mrd d bank kb => Sys2Proof.Machine.execMrd d bank kb s
  | .obres kd ka => Sys2Proof.Machine.execObres kd ka s
  | .obrel ka => Sys2Proof.Machine.execObrel ka s
  | .obld ka kb => Sys2Proof.Machine.execObld ka kb s
  | .obldFillEnd core rec => Sys2Proof.Machine.execObldFillEnd core rec s
  | .mstat kd bank => Sys2Proof.Machine.execMstat kd bank s
  | .promotion core quad => Sys2Proof.Machine.execPromotion core quad s
  | .rotation core quad => Sys2Proof.Machine.execRotation core quad s
  | .watchdogExpiry team gang sub => Sys2Proof.Machine.execWatchdogExpiry team gang sub s
  | .trapRingSpace part consumer => Sys2Proof.Machine.execTrapRingSpace part consumer s
  | .logRecordWrite team gang => Sys2Proof.Machine.execLogRecordWrite team gang s
  | .remoteLanding op lane reply => Sys2Proof.Machine.execRemoteLanding op lane reply s
  | .remoteAcknowledgement op lane reply => Sys2Proof.Machine.execRemoteAcknowledgement op lane reply s
  | .homeRequest r => Sys2Proof.Machine.execHomeRequest r s
  | .stampedStoreArrival r => Sys2Proof.Machine.execStampedStoreArrival r s
  | .commitWaitEnd op => Sys2Proof.Machine.execCommitWaitEnd op s
  | .stampedReleaseArrival r suspect => Sys2Proof.Machine.execStampedReleaseArrival r suspect s
  | .ldatReaderWaitEnd op lane => Sys2Proof.Machine.execLdatReaderWaitEnd op lane s
  | .ldatServe r => Sys2Proof.Machine.execLdatServe r s
  | .suspectMark va part window stamp => Sys2Proof.Machine.execSuspectMark va part window stamp s
  | .copye cmd => Sys2Proof.Machine.execCopye cmd s
  | .fill cmd => Sys2Proof.Machine.execFill cmd s
  | .swadde cmd => Sys2Proof.Machine.execSwadde cmd s
  | .loope cmd => Sys2Proof.Machine.execLoope cmd s
  | .conde cmd => Sys2Proof.Machine.execConde cmd s
  | .next cmd => Sys2Proof.Machine.execNext cmd s
  | .stop cmd => Sys2Proof.Machine.execStop cmd s
  | .copyChunk cmd pod => Sys2Proof.Machine.execCopyChunk cmd pod s
  | .chainStop cmd => Sys2Proof.Machine.execChainStop cmd s
  | .skipperChunk cmd => Sys2Proof.Machine.execSkipperChunk cmd s
  | .skipperStop cmd => Sys2Proof.Machine.execSkipperStop cmd s
  | .frontEndEntry part prio entry stores => Sys2Proof.Machine.execFrontEndEntry part prio entry stores s
  | .dispatchTeam part => Sys2Proof.Machine.execDispatchTeam part s
  | .teamRetirement team => Sys2Proof.Machine.execTeamRetirement team s
  | .thermalMigration core heat => Sys2Proof.Machine.execThermalMigration core heat s
  | .timebaseTick => Sys2Proof.Machine.execTimebaseTick s
  | .timeTransfer links => Sys2Proof.Machine.execTimeTransfer links s
  | .oscillatorFault => Sys2Proof.Machine.execOscillatorFault s
  | .timebaseConfig epsCommit epsFail lam => Sys2Proof.Machine.execTimebaseConfig epsCommit epsFail lam s
  | .rejoin links => Sys2Proof.Machine.execRejoin links s
  | .rejoinWaitEnd => Sys2Proof.Machine.execRejoinWaitEnd s
  | .create block stores => Sys2Proof.Machine.execCreate block stores s
  | .destroy part => Sys2Proof.Machine.execDestroy part s
  | .invalidate part va len stores => Sys2Proof.Machine.execInvalidate part va len stores s
  | .wopen w part base limit key r wr => Sys2Proof.Machine.execWopen w part base limit key r wr s
  | .grant part device w key => Sys2Proof.Machine.execGrant part device w key s
  | .ungrant part device w => Sys2Proof.Machine.execUngrant part device w s
  | .wrevoke w => Sys2Proof.Machine.execWrevoke w s
  | .wrevokeDrainEnd w => Sys2Proof.Machine.execWrevokeDrainEnd w s
  | .usage part => Sys2Proof.Machine.execUsage part s
  | .periodicUsageRecord part => Sys2Proof.Machine.execPeriodicUsageRecord part s
  | .hbmunitsSample => Sys2Proof.Machine.execHbmunitsSample s
  | .attest part nonce => Sys2Proof.Machine.execAttest part nonce s
  | .setrings part base n logBase logN => Sys2Proof.Machine.execSetrings part base n logBase logN s
  | .pageZeroing part va => Sys2Proof.Machine.execPageZeroing part va s
  | .zeroingComplete part va => Sys2Proof.Machine.execZeroingComplete part va s
  | .pageIn part va => Sys2Proof.Machine.execPageIn part va s
  | .save team area deadline => Sys2Proof.Machine.execSave team area deadline s
  | .saveDeadline team => Sys2Proof.Machine.execSaveDeadline team s
  | .restore team core area => Sys2Proof.Machine.execRestore team core area s
  | .resume team gang sub => Sys2Proof.Machine.execResume team gang sub s
  | .kernelSkip team gang sub => Sys2Proof.Machine.execKernelSkip team gang sub s
  | .kill team => Sys2Proof.Machine.execKill team s
  | .contextStateRead team item => Sys2Proof.Machine.execContextStateRead team item s
  | .contextStateWrite team item v => Sys2Proof.Machine.execContextStateWrite team item v s
  | .sramScrub store addr find => Sys2Proof.Machine.execSramScrub store addr find s
  | .patrolScrub addr find => Sys2Proof.Machine.execPatrolScrub addr find s
  | .healthRecord base n samples => Sys2Proof.Machine.execHealthRecord base n samples s
  | .kernelRestart cause => Sys2Proof.Machine.execKernelRestart cause s
  | .moduleReset => Sys2Proof.Machine.execModuleReset s
  | .boot failed => Sys2Proof.Machine.execBoot failed s
  | .firmwareImageWrite image => Sys2Proof.Machine.execFirmwareImageWrite image s
  | .powerCap => Sys2Proof.Machine.execPowerCap s
  | .dieOvertempThrottle die => Sys2Proof.Machine.execDieOvertempThrottle die s
  | .dieOvertempTrip die => Sys2Proof.Machine.execDieOvertempTrip die s
  | .fabricPortDisable port => Sys2Proof.Machine.execFabricPortDisable port s
  | .linkRetrain link => Sys2Proof.Machine.execLinkRetrain link s
  | .illegalInstructionWord w => Sys2Proof.Machine.execIllegalInstructionWord w s
  | .coreBackBelowLimit heat => Sys2Proof.Machine.execCoreBackBelowLimit heat s
  | .thermalLimitSet core limit => Sys2Proof.Machine.execThermalLimitSet core limit s
  | .powerEstimateFalls => Sys2Proof.Machine.execPowerEstimateFalls s
  | .usageRingSpace part consumer => Sys2Proof.Machine.execUsageRingSpace part consumer s

end Sys2Proof.Machine
end

