-- ==== Sys2Proof/Machine/Policy.lean ====
section
/-!
DEFINITION. What the machine does by itself: the unit that issues next (R211, R229), the steps that have fallen due, the one that a step
takes (assumption 7: DESIGN CHOICE), and the settling that follows every step.
-/
namespace Sys2Proof.Machine

/-! ### The unit that issues next (R211, R229) -/

/-- The sub-gang of a gang whose turn it is: the next in name after the one served last, of those that can try their word. -/
def State.nextSub (s : State) (u g : Nat) : Option Nat :=
  let x := s.gang u g
  let rs := x.subs.filter (fun n => s.subReady u g n)
  (rs.find? (fun n => x.lastSub < n)).or rs.head?

/-- A gang as the unit of a sub-gang. -/
def State.unit (s : State) (u g n : Nat) : Issuer := { team := u, gang := g, slices := (s.gang u g).subgang n }

/-- A slot is passed over on the way from one slot to another, round the quadrant. -/
def passed (a b k : Nat) : Bool := if a ≤ b then decide (a ≤ k) && decide (k < b) else decide (a ≤ k) || decide (k < b)

/-- The ACTIVE gang of a quadrant whose turn it is, as a unit, with its residence slot: the next in order after the slot served last, past
those whose turn a pair has taken (R211, R213). -/
def State.quadUnit (s : State) (c q : Nat) : Option (Issuer × Nat) :=
  let can := (s.quadGangs c q).filterMap (fun x =>
    if (s.gang x.1 x.2).active.isSome then (s.nextSub x.1 x.2).map (fun n => (s.unit x.1 x.2 n, (s.gang x.1 x.2).slot)) else none)
  let last := rowGet 0 (s.core c).lastSlot q
  let order := can.filter (fun x => last ≤ x.2) ++ can.filter (fun x => x.2 < last)
  (order.find? (fun x => !(s.core c).spent.contains (16 * q + x.2))).or order.head?

/-- The sidecar of a core whose turn it is, with its slot. -/
def State.sideUnit (s : State) (c : Nat) : Option (Issuer × Nat) :=
  let us := (upTo Config.coreSidecars).flatMap (fun k => (upTo s.teams.length).filter (fun u =>
    (s.team u).sideOnCore c && (s.team u).sideSlot = k && s.sideReady u))
  ((us.find? (fun u => rowGet 0 (s.core c).lastSlot 4 ≤ (s.team u).sideSlot)).or us.head?).map (fun u =>
    ({ team := u, gang := 16, slices := 0 }, (s.team u).sideSlot))

/-- The unit of an issue station: a quadrant, or with 4 the sidecars of a core. -/
def State.stationUnit (s : State) (st : Nat) : Option (Issuer × Nat) :=
  if st % 5 = 4 then s.sideUnit (st / 5) else s.quadUnit (st / 5) (st % 5)

/-- The issue stations of cores that teams reside on, from one on, and round to it. -/
def State.stations (s : State) : List Nat :=
  let cs := (upTo (4 * Config.maxClusters)).filter (fun c => s.teams.any (fun t => t.onCore c || t.sideOnCore c))
  let all := cs.flatMap (fun c => (upTo 5).map (fun q => 5 * c + q))
  all.filter (fun x => s.turn ≤ x) ++ all.filter (fun x => x < s.turn)

/-- A station has served a slot: the next turn starts after it, and of the turns that pairs have taken, those passed over are over. -/
def CoreState.served (c : CoreState) (q slot : Nat) : CoreState :=
  let last := rowGet 0 c.lastSlot q
  { c with
    lastSlot := rowPut 0 c.lastSlot q (slot + 1)
    spent := c.spent.filter (fun x => x / 16 ≠ q || !(x % 16 = slot || passed last slot (x % 16))) }

/-- The unit that issues next; the turn passes on. -/
def State.pickUnit (s : State) : Option (Issuer × State) :=
  (s.stations.findSome? (fun st => (s.stationUnit st).map (fun x => (st, x)))).map (fun x =>
    (x.2.1, ({ s with turn := x.1 + 1 } : State).modCore (x.1 / 5) (fun c => c.served (x.1 % 5) x.2.2)))

/-- The program counter of a unit. -/
def State.unitPc (s : State) (u : Issuer) : Addr :=
  if u.gang = 16 then (s.team u.team).side.pc else (s.gang u.team u.gang).pcOf u.slices

/-- The word that a unit fetches, as the step that issues it; none where the fetch is held (R235, R349). A unit between two passes of an INV
fetches none: its run holds the word (R178). -/
def State.fetched (s : State) (u : Issuer) : Option Instr :=
  match (if u.gang = 16 then none else (s.gang u.team u.gang).runAt u.slices) with
  | some r => some (wordStep r.word)
  | none =>
    match s.fetch (s.team u.team).part (s.unitPc u) with
    | .held => none
    | .fault => some (.illegalInstructionWord none)
    | .word w => some (wordStep w)
where
  /-- The step that issues a word. -/
  wordStep (w : Half) : Instr :=
    match decode w with
    | .ok i => i
    | .error _ => .illegalInstructionWord (some w)

/-- What the fetch of a unit's word leaves. -/
def State.noteUnit (s : State) (u : Issuer) : State :=
  if u.gang ≠ 16 && ((s.gang u.team u.gang).runAt u.slices).isSome then s else s.noteFetch (s.team u.team).part (s.unitPc u)

/-! ### Pairs (R213) -/

/-- A word that two gangs can issue together: it is neither gang-uniform, nor names a k register, nor is cross-lane or MMA. -/
def pairable : Instr → Bool
  | .brc _ _ _ | .inv _ _ _ _ _ _ | .add _ _ _ _ _ | .sub _ _ _ _ _ | .mul _ _ _ _ _ | .mulh _ _ _ _ _ | .fma _ _ _ _ _ | .fms _ _ _ _ _
  | .min _ _ _ _ _ | .max _ _ _ _ _ | .abs _ _ _ | .neg _ _ _ | .and _ _ _ _ _ | .or _ _ _ _ _ | .xor _ _ _ _ _ | .andn _ _ _ _ _
  | .shl _ _ _ _ _ | .shr _ _ _ _ _ | .rot _ _ _ _ _ | .bits _ _ _ _ | .bfx _ _ _ _ _ | .bfi _ _ _ _ _ | .div _ _ _ _ _ | .rem _ _ _ _ _
  | .mov _ _ _ | .sel _ _ _ _ _ _ _ | .cmp _ _ _ _ _ _ | .plop _ _ _ _ | .dot4 _ _ _ _ _ | .crc _ _ _ | .addi _ _ _ | .muli _ _ _
  | .andi _ _ _ | .ori _ _ _ | .xori _ _ _ | .shli _ _ _ | .shri _ _ _ | .cmpi _ _ _ _ | .movi _ _ | .movhi _ _ | .mini _ _ _ | .maxi _ _ _
  | .rcp _ _ _ | .rsq _ _ _ | .sqrt _ _ _ | .exp2 _ _ _ | .log2 _ _ _ | .sinpi _ _ _ | .cospi _ _ _ | .tanh _ _ _ | .cvt _ _ _ _
  | .pack _ _ _ _ _ | .unpk _ _ _ _ _ | .qnt _ _ _ _ _ _ | .rnd _ _ _ _ | .classf _ _ _ | .scalb _ _ _ _ _ | .ld _ _ _ _ _ | .st _ _ _ _ _
  | .ldx _ _ _ | .stx _ _ _ | .atom _ _ _ _ _ _ | .acas _ _ _ _ _ | .tlook _ _ _ | .tset _ _ _ _ _ | .tinv _ _ | .detep | .rld _ _ _
  | .rst _ _ _ _ _ | .raadd _ _ _ _ _ | .raaddD _ _ _ _ | .rcas _ _ _ _ _ | .stmp _ _ _ _ _ | .ldat _ _ _ _ _ | .mclr _ => true
  | _ => false

/-- The gang that pairs with a unit: another ACTIVE gang of its team and quadrant that can issue at the same PC, under an equal GMODE, with
slices at other positions. -/
def State.partner (s : State) (u : Issuer) : Option Issuer :=
  if u.gang = 16 then none
  else
    let x := s.gang u.team u.gang
    (upTo (s.team u.team).ngang).findSome? (fun g =>
      let y := s.gang u.team g
      if g = u.gang || g % 4 ≠ u.gang % 4 || y.active.isNone || y.gmode ≠ x.gmode then none
      else match s.nextSub u.team g with
        | none => none
        | some n =>
          let v := s.unit u.team g n
          if v.slices &&& u.slices = 0#8 && s.unitPc v = s.unitPc u then some v else none)

/-- The unit issues first, or with it a partner: the lower gang of the two, and the higher one as the pair; the partner's turn counts too. -/
def State.pairUp (s : State) (u : Issuer) (i : Instr) : Issuer × State :=
  match (if pairable i then s.partner u else none) with
  | none => (u, s)
  | some v =>
    let s := s.modCore (s.team v.team).core (fun c => { c with spent := c.spent ++ [16 * (v.gang % 4) + (s.gang v.team v.gang).slot] })
    if u.gang < v.gang then (u, { s with pair := some v }) else (v, { s with pair := some u })

/-! ### Steps that have fallen due -/

/-- Those of lanes in flight, at this module's homes and on their way back. -/
def State.laneDue (s : State) (i l : Nat) : List Instr :=
  let o := s.op i
  let x := o.lane l
  match x.stage with
  | .idle | .flagged => []
  | .port => if x.val.toNat < s.tb.te then [.ldatReaderWaitEnd i l] else []
  | .sent => if s.isAway i l then [] else if o.kind = .stmp then [.stampedStoreArrival (.own i l)] else [.homeRequest (.own i l)]
  | .settling => if s.settled x.cell x.val.toNat then [.ldatServe (.own i l)] else []
  | .stored => []
  | .releasing b => if s.isAway i l then [] else [.stampedReleaseArrival (.own i l) b]
  | .reply a => if RemKind.counter o.kind = .olc then [.remoteLanding i l (some a)] else [.remoteAcknowledgement i l (some a)]

/-- Those of remote and stamped operations. -/
def State.opsDue (s : State) : List Instr :=
  (upTo s.ops.length).flatMap (fun i =>
    let o := s.op i
    (if o.kind = .stmp && !o.committed && o.stamp.toNat < s.tb.te then [Instr.commitWaitEnd i] else [])
      ++ (upTo 32).flatMap (fun l => s.laneDue i l))
  ++ (s.inbound.filter (fun x => x.read && s.settled x.cell x.t.toNat)).map (fun x => .ldatServe (.ext x.src x.id))

/-- The step of a running chain. -/
def State.chainDue (s : State) (i : Nat) : Instr :=
  if (s.cmd i).chain.opened then .copyChunk i []
  else match s.entryBytes i with
  | none => .copyChunk i []
  | some b =>
    match (entryOf b).kind with
    | 1 => .copye i
    | 2 => .fill i
    | 3 => .swadde i
    | 4 => .loope i
    | 5 => .conde i
    | 6 => .next i
    | 7 => .stop i
    | _ => .copyChunk i []

/-- Those of engine commands. -/
def State.cmdsDue (s : State) : List Instr :=
  (upTo s.cmds.length).flatMap (fun i =>
    let c := s.cmd i
    match c.stage with
    | .running =>
      if !s.cmdRuns i then [] else if c.skipper then (if s.skipTurn i then [Instr.skipperChunk i] else []) else [s.chainDue i]
    | .stopping => if c.skipper then [.skipperStop i] else [.chainStop i]
    | .stopped | .ended => [])

/-- Those of a quadrant: promotion, and rotation. -/
def State.quadDue (s : State) (c q : Nat) : List Instr :=
  let gs := s.quadGangs c q
  if gs.any (fun x => (s.gang x.1 x.2).ready.isSome) then
    (if s.activeRoom gs then [.promotion c q] else [.rotation c q])
  else []

/-- Those of the cores: their quadrants, arrays and fills. -/
def State.coresDue (s : State) : List Instr :=
  ((upTo (4 * Config.maxClusters)).filter (fun c => s.teams.any (fun t => t.onCore c))).flatMap (fun c =>
    (upTo 4).flatMap (s.quadDue c)
      ++ (if (s.mmaDue c).isSome then [Instr.mmaResultWrite c] else []))
  ++ (upTo s.cores.length).flatMap (fun c =>
    ((upTo Config.coreRecords).filter (fun r => s.fillDue c r)).map (fun r => .obldFillEnd c r))

/-- Those of teams: watchdogs, logs, deadlines, retirement. -/
def State.teamsDue (s : State) : List Instr :=
  (upTo s.teams.length).flatMap (fun u =>
    let t := s.team u
    if !t.live then []
    else
      (upTo t.ngang).flatMap (fun g =>
        ((t.gang g).subs.filter (fun n => (s.lateWait u g n).isSome)).map (fun n => Instr.watchdogExpiry u g n)
          ++ (match (t.gang g).log with
            | [] => []
            | x :: _ => if x.opened + Config.logHold ≤ s.cycle then [.logRecordWrite u g] else []))
      ++ (if t.side.present && (s.lateWait u 16 0).isSome then [.watchdogExpiry u 16 0] else [])
      ++ (if s.saveLate u then [.saveDeadline u] else [])
      ++ (if s.mayRetire u then [.teamRetirement u] else []))

/-- Those of partitions, pages and windows. -/
def State.partsDue (s : State) : List Instr :=
  (upTo 16).flatMap (fun p =>
    (if (s.placeable p).isSome then [Instr.dispatchTeam p] else [])
      ++ (if s.usageDue p then [.periodicUsageRecord p] else []))
  ++ (s.zPending.filter (fun x => (s.zeroable x.1 x.2).isSome)).map (fun x => .pageZeroing x.1 x.2)
  ++ s.zeroing.map (fun x => .zeroingComplete x.1 x.2.1)
  ++ s.pageIns.map (fun x => .pageIn x.part x.va)
  ++ ((upTo s.windows.length).filter (fun w => (s.window w).state = .revoking && (s.window w).inflight = 0)).map
      (fun w => .wrevokeDrainEnd w)
  ++ (if s.unitsDue ≤ s.tb.now then [.hbmunitsSample] else [])
  ++ (if s.tb.rejoin = some 0 then [.rejoinWaitEnd] else [])

/-- Every step that has fallen due; the next tick of pod time always has. -/
def State.dueEvents (s : State) : List Instr :=
  s.opsDue ++ s.cmdsDue ++ s.coresDue ++ s.teamsDue ++ s.partsDue ++ [.timebaseTick]

/-! ### The step taken -/

/-- Commands and queue entries of the host and of the resident kernel: held while the kernel restarts (R395). -/
def isCommand : Instr → Bool
  | .frontEndEntry _ _ _ _ | .create _ _ | .destroy _ | .invalidate _ _ _ _ | .wopen _ _ _ _ _ _ _ | .grant _ _ _ _ | .ungrant _ _ _
  | .wrevoke _ | .usage _ | .attest _ _ | .setrings _ _ _ _ _ | .save _ _ _ | .restore _ _ _ | .resume _ _ _ | .kernelSkip _ _ _
  | .kill _ | .contextStateRead _ _ | .contextStateWrite _ _ _ | .timebaseConfig _ _ _ | .rejoin _ | .thermalLimitSet _ _
  | .trapRingSpace _ _ | .usageRingSpace _ _ => true
  | _ => false

/-- The first step of the agenda that is not held, and the rest. -/
def takeAgenda (hold : Bool) : List Instr → Option (Instr × List Instr)
  | [] => none
  | i :: rest => if hold && isCommand i then (takeAgenda hold rest).map (fun x => (x.1, i :: x.2)) else some (i, rest)

/-- The event whose turn it is. -/
def State.nextEvent (s : State) : Instr × State :=
  let es := s.dueEvents
  ((es.drop (s.beat / 2 % es.length)).headD .timebaseTick, { s with beat := s.beat + 1 })

/-- A unit's word, as the step that issues it; an event takes its place where the fetch is held. -/
def State.issueNext (s : State) (u : Issuer) : Instr × State :=
  match s.fetched u with
  | some i => (i, { s with issuer := some u }.noteUnit u)
  | none => (s.hold u .fetch).nextEvent

/-- The word or the event whose turn it is: words and events alternate. -/
def State.nextOwn (s : State) : Instr × State :=
  if s.beat % 2 ≠ 0 then s.nextEvent
  else match s.pickUnit with
  | none => s.nextEvent
  | some (u, s) =>
    let s := { s with beat := s.beat + 1 }
    match s.fetched u with
    | some i => let x := s.pairUp u i
                x.2.issueNext x.1
    | none => s.issueNext u

/-- The higher gang of a pair issues with the lower: in the one issue of the two, unless the lower stopped or waits (R213, R359). -/
def State.nextPair (s : State) (v : Issuer) : Instr × State :=
  let first := match s.issuer with
    | none => false
    | some u =>
      let x := (s.gang u.team u.gang).slice (lowSlice u.slices)
      !x.stopped && x.wait.isNone
  { s with pair := none }.issueNext { v with second := first }

/-- What the machine does next, and the state in which it does it; none where the boot core has halted. -/
def State.next (s : State) : Option (Instr × State) :=
  match (if s.clocked then s.pair else none) with
  | some v => some (s.nextPair v)
  | none =>
    match takeAgenda (s.phase = .restarting) s.agenda with
    | some (i, rest) => some (i, { s with agenda := rest })
    | none =>
      match s.phase with
      | .off => some (.boot [], s)
      | .halted => none
      | .running | .restarting => some s.nextOwn

/-! ### Settling -/

/-- Saves go on and migrations land; grids retire. -/
def State.settleWork (s : State) : State :=
  let s := (upTo s.teams.length).foldl (fun s u =>
    let s := s.saveCheck u
    if s.phase = .running then s.landMigrant u else s) s
  (upTo s.grids.length).foldl State.gridCheck s

/-- Commands that wait go on, and a restart of the kernel ends. -/
def State.settleCommands (s : State) : State :=
  ((upTo 16).foldl State.destroyCheck s.drainCheck).restartCheck

/-- Gangs change between the pending set's states. -/
def State.settleGangs (s : State) : State :=
  (upTo s.teams.length).foldl (fun s u => (upTo (s.team u).ngang).foldl (fun s g => s.settleGang u g) s) s

/-- What follows every step at once. -/
def State.settle (s : State) : State := if s.clocked then s.settleWork.settleCommands.settleGangs else s

/-! ### A word placed where the next fetch finds it -/

/-- A team of one gang, ACTIVE, at the first word of a page, with every resource that a word may name. -/
def probeTeam : Team :=
  { live := true, grid := 0, scratch := 16384, tagSets := 1, nbanks := 8, physBanks := upTo 8, ngang := 1, vregs := 64,
    gangs := [{ slices := (upTo 8).map (fun _ => {}), active := some 0, ready := none }] }
/-- The grid of that team. -/
def probeGrid : Grid :=
  { live := true, desc := { teams := 1, scratch := 16384, tagSets := 1, gangs := 1, vregs := 64, banks := 8 }, placed := 1, teams := [0] }
/-- The partition of that team: its tables stand at 64 KiB of kernel memory. -/
def probePart : Partition := { live := true, tableBase := 65536, tableLen := 65536 }
/-- Tables that map the page at address 0 to frame 0 with R and W: an entry of each level. -/
def probeTables (m : List Host.Cell) : List Host.Cell :=
  memSet (memSet (memSet m 65536 8 (2 ^ 63 + 98304)) 98304 8 (2 ^ 63 + 114688)) 114688 8 (2 ^ 63 + 2 ^ 60 + 2 ^ 59)

/-- A word loaded where the next step fetches it: a running module with one partition, one grid, one team and one gang, whose first word
it is, and words of zeros after it. -/
def State.loadWord (s : State) (w : Nat) : State :=
  { s with
    phase := .running
    agenda := []
    pair := none
    beat := 0
    turn := 0
    teams := [probeTeam]
    grids := [probeGrid]
    parts := [probePart]
    cores := []
    kmem := probeTables s.kmem
    hbm := memWrite s.hbm 0 (wordBytes (BitVec.ofNat 32 w)) }

end Sys2Proof.Machine
end

