-- ==== Sys2Proof/Machine/Step.lean ====
section
/-!
DEFINITION. One step of the module, and a word placed where the next step fetches it.
-/
namespace Sys2Proof.Machine

/-- One step: what the machine does next, and what follows it at once. -/
def step (s : State) : Host.Outcome State Fault Refusal :=
  match s.next with
  | none => .fault .halted
  | some (i, s') =>
    match exec i s' with
    | .next t => .next t.settle
    | .fault f => .fault f
    | .refused r => .refused r

/-- The state with the word of a row of the table stored where the next step fetches its instruction (assumption 7: DESIGN CHOICE). -/
def State.withFetchWord (s : State) (_nbits w : Nat) : State := s.loadWord w

end Sys2Proof.Machine
end

