-- ==== Sys2Proof/Safety.lean ====
section
/-!
DEFINITION. The terms in which claims are stated: the canonical form of the memories, when a word issues, and what a word leaves
alone.
-/
namespace Sys2Proof.Safety

open Sys2Proof.Machine

/-- Every memory keeps its canonical form. -/
def MemoriesWf (s : State) : Prop :=
  Memory.wf s.spad = true ∧ Memory.wf s.obuf = true ∧ Memory.wf s.hbm = true ∧ Memory.wf s.far = true ∧ Memory.wf s.kmem = true

/-! ### When a word issues -/

/-- A word issues: the unit `u` is the one to issue and may issue, every check before issue passes (R63, R238, R245, R392), no
destination and no source holds it back (R12, R13, R154), and `vals` are the values of its sources, by source and lane; `s1` is
the state after the pops of queues that the sources name (R217). -/
structure Issues (i : Instr) (f : Form) (u : Issuer) (s : State) (vals : List (List Word)) (s1 : State) (popped : Bool) : Prop where
  issuer : s.issuer = some u
  issuable : s.issuable u = true
  checks : preStop i f u s = none
  operands : operandsOf f u s = .ok (vals, s1, popped)

/-- A gang's word issues. -/
structure GangIssues (i : Instr) (f : Form) (u : Issuer) (s : State) (vals : List (List Word)) (s1 : State) (popped : Bool) : Prop
    extends Issues i f u s vals s1 popped where
  isGang : u.gang ≠ 16

/-- A sidecar's word issues (R30, R88). -/
structure SidecarIssues (i : Instr) (f : Form) (u : Issuer) (s : State) : Prop where
  issuer : s.issuer = some u
  issuable : s.issuable u = true
  checks : preStop i f u s = none
  isSidecar : u.gang = 16

/-! ### What a word leaves alone -/

/-- Nothing changes but the issuing team's gang `u.gang`, its queues, and the metering counters of partitions (R359): every memory,
every other gang and team, every grid, core, window, operation and command is as it was. -/
structure OnlyGang (s t : State) (u : Issuer) : Prop where
  rest : t = { s with teams := t.teams, parts := t.parts }
  parts : ∀ p, t.part p = { s.part p with counters := (t.part p).counters }
  teams : ∀ v, v ≠ u.team → t.team v = s.team v
  team : t.team u.team = { s.team u.team with gangs := (t.team u.team).gangs, queues := (t.team u.team).queues }
  gangs : ∀ g, g ≠ u.gang → (t.team u.team).gang g = (s.team u.team).gang g

/-- A slice at a new program counter: its wait ends, and it reconverges there where its stack says so (R225). -/
def sliceAt (x : Slice) (pc : Addr) : Slice := Slice.reconverge (x.stack.length + 1) { x with pc := pc, wait := none }

/-- A slice where it stands: it reconverges there if it may, unless it has exited (R225). -/
def placed (x : Slice) : Slice := if x.exited then x else Slice.reconverge (x.stack.length + 1) x

/-- The loop-end step of R238 for the level `x`: its counter falls by one. Where it is not zero then, each slice of the unit at the level's
return depth goes to the start of the body; else the level closes. Every other slice of the unit goes to the word after. -/
def LoopEnds (g g' : Gang) (slices : BitVec 8) (x : LoopLevel) : Prop :=
  let n := g.lcount x.lc - 1#32
  (∀ j, g'.lcount j = if j = x.lc then n else g.lcount j) ∧
    g'.levels = (if n = 0#32 then g.levels.drop 1 else g.levels) ∧
    ∀ i, i < 8 → slices.getLsbD i = true →
      g'.slice i = { placed { g.slice i with
                       pc := if n ≠ 0#32 ∧ (g.slice i).ret.length = x.depth then x.start else x.stop + 4#64, wait := none }
                     with sub := (g'.slice i).sub }

/-- The unit goes past its word: outside a recipe's body, every other slice, GMODE and the error marks of the loop counters are as they
were. Where no loop level ends at the word, the loop counters and levels are as they were and each slice of the unit goes to the next word,
with nothing else of it changed but the name of its sub-gang (R228); where one does, the loop-end step is taken (R238). -/
def PassesWord (g g' : Gang) (slices : BitVec 8) : Prop :=
  g.instar.body = none →
    (g'.gmode = g.gmode ∧ g'.lcbad = g.lcbad) ∧ (∀ i, i < 8 → slices.getLsbD i = false → g'.slice i = g.slice i) ∧
    (g.loopEnd slices (g.pcOf slices) = none → g'.lc = g.lc ∧ g'.levels = g.levels ∧
      ∀ i, i < 8 → slices.getLsbD i = true →
        g'.slice i = { sliceAt (g.slice i) ((g.slice i).pc + 4#64) with sub := (g'.slice i).sub }) ∧
    ∀ x, g.loopEnd slices (g.pcOf slices) = some x → LoopEnds g g' slices x

/-- Of the gang, only registers, control and what goes with them, the reuse latch, the log and the marks of Instar may differ: the
counters OLC, OSC and ENC, the comparators, the standing at barriers, the standing in the pending set, the watchdog and all that
the snapshot and the recipe of Instar say are as they were; and the unit goes past its word. -/
structure GangKeeps (g g' : Gang) (slices : BitVec 8) : Prop where
  rest : g' = { g with lanes := g'.lanes, k := g'.k, kbad := g'.kbad, slices := g'.slices, lc := g'.lc, levels := g'.levels,
                       gmode := g'.gmode, latch := g'.latch, instar := g'.instar, log := g'.log, skipCmp := g'.skipCmp,
                       lastSub := g'.lastSub, lcbad := g'.lcbad }
  instar : g'.instar = { g.instar with rewindable := g'.instar.rewindable, body := g'.instar.body, vdirty := g'.instar.vdirty,
                                       kdirty := g'.instar.kdirty }
  passes : PassesWord g g' slices

/-- A vector register written in lanes of a gang, and nothing else: the register is FULL with the value, its poison cleared (R13),
in the lanes given; every other register of every lane, every predicate, bracket and INVST, and every k register are as they were. -/
structure VectorResult (g g' : Gang) (slices : BitVec 8) (lanes : Half) (d : VNum) (f : Nat → Word) : Prop
    extends GangKeeps g g' slices where
  k : g'.k = g.k ∧ g'.kbad = g.kbad
  lane : ∀ l, l < 32 → g'.lane l = { g.lane l with v := (g'.lane l).v }
  regs : ∀ l, l < 32 → ∀ r, (g'.lane l).vreg r = if lanes.getLsbD l = true ∧ r = d then { val := f l } else (g.lane l).vreg r

/-- A predicate written in lanes of a gang, and nothing else: p0 reads 1 whatever is written (R10). -/
structure PredicateResult (g g' : Gang) (slices : BitVec 8) (lanes : Half) (p : PNum) (f : Nat → Bool) : Prop
    extends GangKeeps g g' slices where
  k : g'.k = g.k ∧ g'.kbad = g.kbad
  latch : g'.latch = g.latch
  lane : ∀ l, l < 32 → g'.lane l = { g.lane l with p := (g'.lane l).p }
  preds : ∀ l, l < 32 → ∀ q, (g'.lane l).pred q =
    if lanes.getLsbD l = true ∧ q = p ∧ q ≠ 0#3 then f l else (g.lane l).pred q

/-- A k register of a gang written, and nothing else (R16). -/
structure KResult (g g' : Gang) (slices : BitVec 8) (d : KNum) (w : Word) : Prop extends GangKeeps g g' slices where
  lanes : g'.lanes = g.lanes
  others : g'.latch = g.latch ∧ g'.log = g.log
  regs : ∀ k, g'.kreg k = if k = d then w else g.kreg k
  bad : ∀ k : KNum, g'.kbad.getLsbD k.toNat = (g.kbad.getLsbD k.toNat && decide (k ≠ d))

/-- Lanes of a gang change as `f` says, and nothing else does but control: `f` relates each lane named to what it becomes. -/
structure LanesChange (g g' : Gang) (slices : BitVec 8) (lanes : Half) (f : Nat → Lane → Lane → Prop) : Prop
    extends GangKeeps g g' slices where
  k : g'.k = g.k ∧ g'.kbad = g.kbad
  others : g'.latch = g.latch ∧ g'.log = g.log
  lane : ∀ l, l < 32 → if lanes.getLsbD l = true then f l (g.lane l) (g'.lane l) else g'.lane l = g.lane l

/-- What a command of INVST makes of a lane (R171): `cmd` with bracket `n` and value `w`. -/
def InvstDone (cmd : Nat) (n : BitVec 2) (w : Half) (x y : Lane) : Prop :=
  y.v = x.v ∧ y.p = x.p ∧ y.triggered = x.triggered ∧
    (∀ b : BitVec 2, y.bracket b = if b = n ∧ cmd = 4 then (x.bracket n).extractLsb' 32 32 ++ w
      else if b = n ∧ cmd = 5 then w ++ (x.bracket n).extractLsb' 0 32 else x.bracket b) ∧
    y.invst = if cmd = 0 then (x.invst &&& ~~~ 0x1FF#64) ||| (w.setWidth 64 &&& 0x1FF#64)
      else if cmd = 4 ∨ cmd = 5 then x.invst &&& ~~~ 0x1FF#64
      else if cmd = 6 then (x.bracket n).extractLsb' 0 32 ++ x.invst.extractLsb' 0 32
      else (x.bracket n).extractLsb' 32 32 ++ x.invst.extractLsb' 0 32

/-- Nothing of the gang but control changes. -/
structure ControlOnly (g g' : Gang) : Prop where
  rest : g' = { g with slices := g'.slices, lc := g'.lc, levels := g'.levels, gmode := g'.gmode, instar := g'.instar,
                       skipCmp := g'.skipCmp, lastSub := g'.lastSub, lcbad := g'.lcbad }
  instar : g'.instar = { g.instar with rewindable := g'.instar.rewindable, body := g'.instar.body, vdirty := g'.instar.vdirty,
                                       kdirty := g'.instar.kdirty }
  gmode : g.instar.body = none → g'.gmode = g.gmode ∧ g'.lcbad = g.lcbad

/-- A transfer of control: nothing but control changes; outside a recipe's body, each slice of the unit goes where `place` says and
its wait ends, every other slice is as it was, and of the open levels those that `ends` names are closed and their counters 0
(R240). -/
structure Transfers (g g' : Gang) (slices : BitVec 8) (place : Nat → Slice → Slice) (ends : LoopLevel → Bool) : Prop
    extends ControlOnly g g' where
  slice : g.instar.body = none → ∀ i, i < 8 →
    g'.slice i = if slices.getLsbD i then { placed { place i (g.slice i) with wait := none } with sub := (g'.slice i).sub } else g.slice i
  levels : g.instar.body = none → g'.levels = g.levels.filter (fun x => !ends x)
  counters : g.instar.body = none → ∀ n, rowGet 0 g'.lc n = if g.levels.any (fun x => ends x && x.lc = n) then 0 else rowGet 0 g.lc n

/-- Every member that a cross-lane word names has arrived (R242): `held` are the slices of other sub-gangs that are held at the
word, and the contributors are the members whose guard is true (R134). -/
structure Meets (s : State) (u : Issuer) (kf : BitVec 4) (members contributors : Half) (held : BitVec 8) : Prop where
  mask : members = ((s.gang u.team u.gang).kreg (kf.setWidth 5)).setWidth 32 ∧ members ≠ 0#32
  waiting : held = (s.gang u.team u.gang).memberHeld ((s.gang u.team u.gang).pcOf u.slices) &&& ~~~ u.slices
  first : ((s.gang u.team u.gang).firstMask held).getD members = members
  alive : members &&& (s.gang u.team u.gang).exitedLanes = 0#32
  here : members &&& ~~~ (s.gang u.team u.gang).activeOf (held ||| u.slices) = 0#32
  contribute : contributors = maskOf (fun l =>
    members.getLsbD l && ((s.gang u.team u.gang).lane l).guard (s.gang u.team u.gang).gmode)

/-- Of the gang, only registers, control and what goes with them may differ; the unit passes its word where no other slice was
held at it, and the slices that were held, which belong to sub-gangs 0 to 7, go on at the next word. -/
structure Crosses (g g' : Gang) (slices held : BitVec 8) : Prop where
  rest : g' = { g with lanes := g'.lanes, k := g'.k, kbad := g'.kbad, slices := g'.slices, lc := g'.lc, levels := g'.levels,
                       gmode := g'.gmode, latch := g'.latch, instar := g'.instar, log := g'.log, skipCmp := g'.skipCmp,
                       lastSub := g'.lastSub, lcbad := g'.lcbad }
  instar : g'.instar = { g.instar with rewindable := g'.instar.rewindable, body := g'.instar.body, vdirty := g'.instar.vdirty,
                                       kdirty := g'.instar.kdirty }
  passes : held = 0#8 → PassesWord g g' slices
  others : g.instar.body = none → ∀ i, i < 8 → held.getLsbD i = true → (g.slice i).sub < 8 →
    g'.slice i = { placed { g.slice i with pc := (g.slice i).pc + 4#64, wait := none } with sub := (g'.slice i).sub }

/-- Of a gang's registers and log, only vector register `d` in lanes changes. -/
def OnlyV (g g' : Gang) (lanes : Half) (d : VNum) (f : Nat → Word) : Prop :=
  g'.k = g.k ∧ g'.kbad = g.kbad ∧ (∀ l, l < 32 → g'.lane l = { g.lane l with v := (g'.lane l).v }) ∧
    ∀ l, l < 32 → ∀ r, (g'.lane l).vreg r = if lanes.getLsbD l = true ∧ r = d then { val := f l } else (g.lane l).vreg r
/-- Of a gang's registers and log, only predicate `p` in lanes changes. -/
def OnlyP (g g' : Gang) (lanes : Half) (p : PNum) (f : Nat → Bool) : Prop :=
  g'.k = g.k ∧ g'.kbad = g.kbad ∧ g'.latch = g.latch ∧ g'.log = g.log ∧
    (∀ l, l < 32 → g'.lane l = { g.lane l with p := (g'.lane l).p }) ∧
    ∀ l, l < 32 → ∀ q, (g'.lane l).pred q = if lanes.getLsbD l = true ∧ q = p ∧ q ≠ 0#3 then f l else (g.lane l).pred q
/-- Of a gang's registers and log, only k register `d` changes. -/
def OnlyK (g g' : Gang) (d : KNum) (w : Word) : Prop :=
  g'.lanes = g.lanes ∧ g'.latch = g.latch ∧ g'.log = g.log ∧ (∀ k, g'.kreg k = if k = d then w else g.kreg k) ∧
    ∀ k : KNum, g'.kbad.getLsbD k.toNat = (g.kbad.getLsbD k.toNat && decide (k ≠ d))

/-- Nothing changes but the issuing team's sidecar and the metering counters of partitions. -/
structure OnlySide (s t : State) (u : Issuer) : Prop where
  rest : t = { s with teams := t.teams, parts := t.parts }
  parts : ∀ p, t.part p = { s.part p with counters := (t.part p).counters }
  teams : ∀ v, v ≠ u.team → t.team v = s.team v
  team : t.team u.team = { s.team u.team with side := (t.team u.team).side }

/-- A k register of a sidecar written, the sidecar at its next word, and nothing else (R30, R88). -/
structure SideKResult (x x' : Sidecar) (d : KNum) (w : Word) : Prop where
  rest : x' = { x with k := x'.k, kbad := x'.kbad, pc := x.pc + 4#64, wait := none }
  regs : ∀ k : KNum, rowGet 0 x'.k k.toNat = if k = d then w else rowGet 0 x.k k.toNat
  bad : ∀ k : KNum, x'.kbad.getLsbD k.toNat = (x.kbad.getLsbD k.toNat && decide (k ≠ d))

/-- The state and the operands let a gang's word issue: its unit is to issue and may, runs no recipe body, stands at no enabled
comparator and at the end of no open level; the registers it names exist and QMAP is off, GMODE is legal for it, what it writes is
awaited by no producer and read by no MMA in its passes, and every source is FULL and unpoisoned in the participating lanes. -/
structure Ready (f : Form) (u : Issuer) (s : State) : Prop where
  issuer : s.issuer = some u
  issuable : s.issuable u = true
  isGang : u.gang ≠ 16
  executes : f.gang = true
  noBody : (s.gang u.team u.gang).instar.body = none
  noComparator : ∀ i, i < 4 → ((s.gang u.team u.gang).comparator i).getLsbD 0 = false
  noLevelEnd : (s.gang u.team u.gang).loopEnd u.slices ((s.gang u.team u.gang).pcOf u.slices) = none
  noQmap : gmQmap (s.gang u.team u.gang).gmode = false
  exist : ∀ r, r ∈ f.srcs.map (·.r) ++ f.own.map (·.r) ++ f.dsts ++ f.named → r.toNat < (s.team u.team).vregs
  team : f.team (s.team u.team) = true
  mode : f.mode (s.gang u.team u.gang).gmode = true
  kGood : ∀ k, k ∈ f.ks → (s.gang u.team u.gang).kbad.getLsbD k.toNat = false
  free : ∀ r, r ∈ f.dsts → (s.team u.team).mmaReads u.gang s.cycle r = false ∧
    ∀ l, l < 32 → (((s.gang u.team u.gang).lane l).vreg r).owed = none
  full : ∀ x, x ∈ f.srcs → ∀ l, l < 32 → ((((s.gang u.team u.gang).lane l).vreg x.r).full = true ∧
    (((s.gang u.team u.gang).lane l).vreg x.r).poison = false ∧ (((s.gang u.team u.gang).lane l).vreg x.r).bad = false)

/-- The participating lanes of the issuing unit (R68). -/
def partOf (s : State) (u : Issuer) : Half := (s.gang u.team u.gang).participants u.slices
/-- The element type in force (R66). -/
def etOf (s : State) (u : Issuer) : ElemType := (gmEt (s.gang u.team u.gang).gmode).getD .i8
/-- The arithmetic modes in force (R65). -/
def mdOf (s : State) (u : Issuer) : Modes := modesOf (s.gang u.team u.gang).gmode
/-- The program counter of the unit. -/
def pcAt (s : State) (u : Issuer) : Addr := (s.gang u.team u.gang).pcOf u.slices
/-- A register of a lane of the issuing gang. -/
def regOf (s : State) (u : Issuer) (l : Nat) (r : VNum) : VReg := ((s.gang u.team u.gang).lane l).vreg r
/-- The log of the issuing gang after lanes have raised causes, as the AEN in force enables them (R65, R109, R376). -/
def logRaised (s : State) (u : Issuer) (lanes : Half) (cs : Nat → Causes) : List LogHeld :=
  let g := s.gang u.team u.gang
  logAfter g.log (fun i => if causeOn (gmAen g.gmode) i then maskOf (fun l => lanes.getLsbD l && (cs l).getLsbD i) else 0#32)
    (blockOf (pcAt s u)) s.cycle (s.team u.team).core
/-- Source `j` in a lane. -/
def valOf (vals : List (List Word)) (j l : Nat) : Word := rowGet 0 (rowGet [] vals j) l

/-- The active lanes of the issuing unit agree on a target that is a word of the address space (R234). -/
def Agreed (s : State) (u : Issuer) (vals : List (List Word)) (tgt : Addr) : Prop :=
  let active := (s.gang u.team u.gang).activeOf u.slices
  active ≠ 0#32 ∧ (∀ l, l < 32 → active.getLsbD l = true → valOf vals 0 l = tgt) ∧
    tgt.extractLsb' 0 2 = 0#2 ∧ tgt.extractLsb' 48 16 = 0#16

/-! ### Words that reach beyond the gang -/

/-- A word reaches no further than its gang or sidecar, its team's queues, line tags and tag table, the scratchpad with its error
marks and fault codes, the fills of operand-buffer records, what engine commands have noted of the scratchpad's words, the supply of
free values, and the metering counters. -/
structure Within (s t : State) (u : Issuer) : Prop where
  rest : t = { s with teams := t.teams, parts := t.parts, spad := t.spad, bad := t.bad, cores := t.cores, fresh := t.fresh,
                      syncCodes := t.syncCodes, cmds := t.cmds }
  parts : ∀ p, t.part p = { s.part p with counters := (t.part p).counters }
  teams : ∀ v, v ≠ u.team → t.team v = s.team v
  team : t.team u.team = { s.team u.team with gangs := (t.team u.team).gangs, side := (t.team u.team).side,
                                              queues := (t.team u.team).queues, lines := (t.team u.team).lines, tags := (t.team u.team).tags }
  gangs : ∀ g, g ≠ u.gang → (t.team u.team).gang g = (s.team u.team).gang g
  side : u.gang ≠ 16 → (t.team u.team).side = (s.team u.team).side

/-- No memory, error mark, fault code, record or command changes. -/
def NoStore (s t : State) : Prop :=
  t.spad = s.spad ∧ t.bad = s.bad ∧ t.cores = s.cores ∧ t.syncCodes = s.syncCodes ∧ t.cmds = s.cmds
/-- The team's tag table stays, and its line tags too unless the word's accesses are recorded (R218). -/
def TagsKept (s t : State) (u : Issuer) : Prop :=
  (t.team u.team).tags = (s.team u.team).tags ∧
  (u.gang = 16 ∨ gmDet (s.gang u.team u.gang).gmode = false → (t.team u.team).lines = (s.team u.team).lines)
/-- The scratchpad is stored to: of the cores, only what the gang's own fills under way have noted of their sources changes (R163);
with no such fill, no core changes. -/
structure FillsNote (s t : State) (u : Issuer) : Prop where
  cores : ∀ c, t.core c = { s.core c with records := (t.core c).records }
  records : ∀ c r, t.record c r = { s.record c r with src := (t.record c r).src, seen := (t.record c r).seen }
  none : s.fillsOf (s.team u.team).home u.team u.gang = [] → t.cores = s.cores ∧ t.fresh = s.fresh

/-- Stores of `w` bytes, by lane, at places of the scratchpad: of stores to one byte the highest lane's stays (R277); every byte
that no lane stores to reads as before, and marks of errors only go. -/
structure LanesStored (s t : State) (lanes : Half) (w : Nat) (at_ : Nat → Nat) (val : Nat → Nat → Byte) : Prop where
  stored : Memory.wf s.spad = true → ∀ l, l < 32 → lanes.getLsbD l = true → ∀ b, b < w →
    (∀ k, l < k → k < 32 → lanes.getLsbD k = true → at_ l + b < at_ k ∨ at_ k + w ≤ at_ l + b) →
    memGet t.spad (at_ l + b) = val l b
  others : ∀ x, (∀ l, l < 32 → lanes.getLsbD l = true → x < at_ l ∨ at_ l + w ≤ x) → memGet t.spad x = memGet s.spad x
  bad : t.bad = { s.bad with spad := t.bad.spad } ∧ ∀ n ∈ t.bad.spad, n ∈ s.bad.spad
/-- A store of bytes at one place of the scratchpad. -/
structure Stored (s t : State) (at_ : Nat) (bs : List Byte) : Prop where
  stored : Memory.wf s.spad = true → memRead t.spad at_ bs.length = bs
  others : ∀ x, x < at_ ∨ at_ + bs.length ≤ x → memGet t.spad x = memGet s.spad x
  bad : t.bad = { s.bad with spad := t.bad.spad } ∧ ∀ n ∈ t.bad.spad, n ∈ s.bad.spad

/-- The scratchpad after read-modify-writes of elements of `w` bytes, lane by lane in the order given: `f` makes the new element of
a lane from the old one (R279). -/
def rmwMem (w : Nat) (at_ : Nat → Nat) (f : Nat → Nat → Nat) (ls : List Nat) (m : List Host.Cell) : List Host.Cell :=
  ls.foldl (fun m l => memSet m (at_ l) w (f l (memNat m (at_ l) w))) m
/-- The element that a lane finds: the lower lanes have done theirs. -/
def rmwOld (w : Nat) (at_ : Nat → Nat) (f : Nat → Nat → Nat) (lanes : Half) (m : List Host.Cell) (l : Nat) : Nat :=
  memNat (rmwMem w at_ f ((lanesOf lanes).filter (· < l)) m) (at_ l) w

/-- A team after lookups in its tag table, in the order of the lanes given (R282). -/
def lookups (t : Team) (key : Nat → Word) (ls : List Nat) : Team := ls.foldl (fun t l => (t.lookup (key l)).1) t
/-- What a lane's lookup answers: the lower lanes have looked up before it. -/
def lookedUp (t : Team) (key : Nat → Word) (lanes : Half) (l : Nat) : Word :=
  ((lookups t key ((lanesOf lanes).filter (· < l))).lookup (key l)).2

/-- Of the gang, only control and what goes with it changes, and the unit passes its word. -/
structure Passes (g g' : Gang) (slices : BitVec 8) : Prop extends GangKeeps g g' slices where
  regs : g'.lanes = g.lanes ∧ g'.k = g.k ∧ g'.kbad = g.kbad ∧ g'.latch = g.latch ∧ g'.log = g.log
/-- A vector register of a gang takes new contents in the lanes given, and nothing else of its registers changes. -/
structure RegResult (g g' : Gang) (slices : BitVec 8) (lanes : Half) (d : VNum) (f : Nat → VReg) : Prop
    extends GangKeeps g g' slices where
  k : g'.k = g.k ∧ g'.kbad = g.kbad ∧ g'.log = g.log
  lane : ∀ l, l < 32 → g'.lane l = { g.lane l with v := (g'.lane l).v }
  regs : ∀ l, l < 32 → ∀ r, (g'.lane l).vreg r = if lanes.getLsbD l = true ∧ r = d then f l else (g.lane l).vreg r

/-- A word has been issued: `b` is the state with its effect, and beyond that the party is at its next word, with only control,
metering and what goes with every word changed. -/
def Finished (b t : State) (u : Issuer) : Prop :=
  if u.gang = 16 then
    OnlySide b t u ∧ (t.team u.team).side = { (b.team u.team).side with pc := (b.team u.team).side.pc + 4#64, wait := none }
  else OnlyGang b t u ∧ Passes (b.gang u.team u.gang) (t.gang u.team u.gang) u.slices

/-- The accesses of the participating lanes, `w` bytes at the window offsets `ad`, pass the checks of R275. -/
structure LanesOk (s : State) (u : Issuer) (w : Nat) (ad : Nat → Word) (k : TagKind) : Prop where
  aligned : ∀ l, l < 32 → (partOf s u).getLsbD l = true → (ad l).toNat % w = 0
  inside : ∀ l, l < 32 → (partOf s u).getLsbD l = true → (ad l).toNat + w ≤ (s.team u.team).scratch
  alone : gmDet (s.gang u.team u.gang).gmode = true → ∀ l, l < 32 → (partOf s u).getLsbD l = true →
    (s.team u.team).raceAt u.gang (ad l).toNat w k = none
/-- A uniform access of `w` bytes passes the checks of R275. -/
structure UniformOk (s : State) (u : Issuer) (al w : Nat) (a : Word) (k : TagKind) : Prop where
  aligned : a.toNat % al = 0
  inside : a.toNat + w ≤ (s.team u.team).scratch
  alone : u.gang ≠ 16 → gmDet (s.gang u.team u.gang).gmode = true → (s.team u.team).raceAt u.gang a.toNat w k = none
/-- The traps of the lanes' accesses, `w` bytes at the offsets `ad`, each condition in every participating lane before the next (R275):
MISALIGNED and SCRATCH_RANGE with the lanes and the lowest one's address, and in deterministic mode RACE with the lowest conflicting lane's
line and the other gang (R218, R369). -/
def LaneTraps (i : Instr) (s : State) (u : Issuer) (w : Nat) (ad : Nat → Word) (k : TagKind) : Prop :=
  let part := partOf s u
  let mis := maskOf (fun l => part.getLsbD l && decide ((ad l).toNat % w ≠ 0))
  let out := maskOf (fun l => part.getLsbD l && decide ((s.team u.team).scratch < (ad l).toNat + w))
  let race := fun l => (s.team u.team).raceAt u.gang (ad l).toNat w k
  let conf := maskOf (fun l => part.getLsbD l && (race l).isSome)
  (mis ≠ 0#32 → exec i s = .next (s.takeTrap u { cause := .misaligned, lanes := some mis, detail := ad (lowLane mis) })) ∧
  (mis = 0#32 → out ≠ 0#32 → exec i s = .next (s.takeTrap u { cause := .scratchRange, lanes := some out, detail := ad (lowLane out) })) ∧
  (mis = 0#32 → out = 0#32 → gmDet (s.gang u.team u.gang).gmode = true → conf ≠ 0#32 → ∀ n g, race (lowLane conf) = some (n, g) →
    exec i s = .next (s.takeTrap u { cause := .race, lanes := some conf, detail := BitVec.ofNat 64 (n * 64 % 2 ^ 22 + g * 2 ^ 24) }))
/-- The first two traps of a uniform access of `w` bytes aligned to `al` (R275). -/
def RangeTraps (i : Instr) (s : State) (u : Issuer) (al w : Nat) (a : Word) : Prop :=
  (a.toNat % al ≠ 0 → exec i s = .next (s.takeTrap u { cause := .misaligned, detail := a })) ∧
  (a.toNat % al = 0 → (s.team u.team).scratch < a.toNat + w → exec i s = .next (s.takeTrap u { cause := .scratchRange, detail := a }))
/-- The traps of a uniform access, with the race of deterministic mode. -/
def UniformTraps (i : Instr) (s : State) (u : Issuer) (al w : Nat) (a : Word) (k : TagKind) : Prop :=
  RangeTraps i s u al w a ∧
  (a.toNat % al = 0 → a.toNat + w ≤ (s.team u.team).scratch → u.gang ≠ 16 → gmDet (s.gang u.team u.gang).gmode = true →
    ∀ n g, (s.team u.team).raceAt u.gang a.toNat w k = some (n, g) →
      exec i s = .next (s.takeTrap u { cause := .race, detail := BitVec.ofNat 64 (n * 64 % 2 ^ 22 + g * 2 ^ 24) }))
/-- The trap of a uniform read of an uncorrectable word: POISON with DETAIL bit 6, and a free PRODPC (R392, assumption 11). -/
def badWordTrap (s : State) (u : Issuer) : TrapInfo :=
  { cause := .poison, detail := 64, prodpc := Config.freeProducer (s.part (s.team u.team).part).trapSeq }
/-- The place in the scratchpad of a window offset of the issuing team (R274). -/
def placeOf (s : State) (u : Issuer) (a : Word) : Nat :=
  (s.team u.team).home * 4194304 + ((s.team u.team).base + a.toNat)
/-- The k register of the issuing gang or sidecar. -/
def kOf (s : State) (u : Issuer) (k : KNum) : Word :=
  if u.gang = 16 then rowGet 0 (s.team u.team).side.k k.toNat else (s.gang u.team u.gang).kreg k
/-- A word of a gang or of a sidecar issues. -/
def PartyIssues (i : Instr) (f : Form) (u : Issuer) (s : State) : Prop :=
  (u.gang = 16 ∧ SidecarIssues i f u s) ∨ (u.gang ≠ 16 ∧ ∃ vals popped, GangIssues i f u s vals s popped)
/-- The party goes past its word, with one k register written. -/
def PartyK (s t : State) (u : Issuer) (d : KNum) (w : Word) : Prop :=
  if u.gang = 16 then SideKResult (s.team u.team).side (t.team u.team).side d w
  else KResult (s.gang u.team u.gang) (t.gang u.team u.gang) u.slices d w
/-- The party goes past its word, with no register changed. -/
def PartyPasses (s t : State) (u : Issuer) : Prop :=
  if u.gang = 16 then (t.team u.team).side = { (s.team u.team).side with pc := (s.team u.team).side.pc + 4#64, wait := none }
  else Passes (s.gang u.team u.gang) (t.gang u.team u.gang) u.slices

/-! ### Remote operations -/

/-- A remote operation starts: it is the last of the operations, its counter counts it, and its destinations take new contents in
the lanes that take part. Of the gang nothing else changes but the reuse latch and the marks of Instar. -/
structure OpStarted (s y : State) (u : Issuer) (o : RemOp) (lanes : Half) (dsts : List VNum) (f : VReg → VReg) : Prop where
  rest : y = { s with ops := s.ops ++ [o], teams := y.teams }
  teams : ∀ v, v ≠ u.team → y.team v = s.team v
  team : y.team u.team = { s.team u.team with gangs := (y.team u.team).gangs }
  gangs : ∀ g, g ≠ u.gang → (y.team u.team).gang g = (s.team u.team).gang g
  gang : y.gang u.team u.gang = { (s.gang u.team u.gang).modCounter (RemKind.counter o.kind) Counter.count with
    lanes := (y.gang u.team u.gang).lanes, latch := (y.gang u.team u.gang).latch, instar := (y.gang u.team u.gang).instar }
  instar : (y.gang u.team u.gang).instar = { (s.gang u.team u.gang).instar with
    vdirty := (y.gang u.team u.gang).instar.vdirty, rewindable := (y.gang u.team u.gang).instar.rewindable }
  lane : ∀ l, l < 32 → (y.gang u.team u.gang).lane l = { (s.gang u.team u.gang).lane l with v := ((y.gang u.team u.gang).lane l).v }
  regs : ∀ l, l < 32 → ∀ r, ((y.gang u.team u.gang).lane l).vreg r =
    if lanes.getLsbD l = true ∧ r ∈ dsts then f (((s.gang u.team u.gang).lane l).vreg r) else ((s.gang u.team u.gang).lane l).vreg r
/-- A register that awaits the operation of the number given (R12). -/
def awaits (n : Nat) (x : VReg) : VReg := { x with full := false, poison := false, bad := false, owed := some n }
/-- The operation of a word, of the issuing gang, with its lanes. -/
def opOf (s : State) (u : Issuer) (kind : RemKind) (d : VNum) (stamp : Word) (lane : Nat → RemLane) : RemOp :=
  { kind := kind, team := u.team, gang := u.gang, part := (s.team u.team).part, core := (s.team u.team).core, d := d,
    pc := (s.gang u.team u.gang).pcOf u.slices, seq := (s.partyCounter u.team u.gang (RemKind.counter kind)).issued, stamp := stamp,
    committed := kind ≠ .stmp, lanes := (upTo 32).map (fun l => if (partOf s u).getLsbD l then lane l else {}) }
/-- A relaxed remote word (R305): its kind, sources, destination, and what goes with the address of each lane. -/
structure RemoteSpec where
  kind : RemKind
  srcs : List Src
  dsts : List VNum := []
  d : VNum := 0#6
  mode : Half → Bool := fun _ => true
  closes : Bool := true
  val : (Nat → Nat → Word) → Nat → Word := fun _ _ => 0#64
  cmp : (Nat → Nat → Word) → Nat → Word := fun _ _ => 0#64
/-- The relaxed remote words. -/
def remoteSpec : Instr → Option RemoteSpec
  | .rld d a wa => some { kind := .rld, srcs := [⟨a, wa⟩], dsts := [d], d := d, closes := false }
  | .rst f a b wa wb => some { kind := if f then .rstf else .rst, srcs := [⟨a, wa⟩, ⟨b, wb⟩], val := fun v => v 1 }
  | .raadd d a b wa wb => some { kind := .raadd, srcs := [⟨a, wa⟩, ⟨b, wb⟩], dsts := [d], d := d, mode := readsEt wideInt, val := fun v => v 1 }
  | .raaddD a b wa wb => some { kind := .raaddD, srcs := [⟨a, wa⟩, ⟨b, wb⟩], mode := readsEt wideInt, val := fun v => v 1 }
  | .rcas d a b wa wb =>
    some { kind := .rcas, srcs := [⟨a, wa⟩, ⟨b, wb⟩, ⟨d, false⟩], dsts := [d], d := d, mode := readsEt wideInt, val := fun v => v 1,
           cmp := fun v => v 2 }
  | _ => none
/-- What the checks before issue know of the word. -/
def RemoteSpec.form (x : RemoteSpec) : Form := { srcs := x.srcs, dsts := x.dsts, mode := x.mode, closes := x.closes }

/-- A register after a value, or a fault's poison, has landed in it (R12, R15, R307). -/
def landed (v : Except Byte Word) (pc : Addr) (x : VReg) : VReg :=
  match v with
  | .ok w => { val := w }
  | .error c => { val := x.val, poison := true, ppc := pc, pcode := c }
/-- What a request writes at its home over the old value, if anything (R305). -/
def homeWrites (kind : RemKind) (old : Nat) (val cmp : Word) : Option Nat :=
  match kind with
  | .rst | .rstf => some val.toNat
  | .raadd | .raaddD => some ((old + val.toNat) % 2 ^ 64)
  | .rcas => if old = cmp.toNat then some val.toNat else none
  | _ => none
/-- The answer of a home to a request that it has performed (R305). -/
def homeAnswer (kind : RemKind) (old : Nat) : RemAns := if kind = .rst ∨ kind = .rstf then .ack else .value (BitVec.ofNat 64 old)

/-! ### The array -/

/-- A bank is the team's, sound, and no MMA has still to write it (R151, R154, R392). -/
structure BankOk (s : State) (u : Issuer) (bank : BankNum) : Prop where
  owned : bank.toNat < (s.team u.team).nbanks
  settled : (s.team u.team).mmas.any (fun m => m.bank = bank.toNat) = false
  sound : ((s.team u.team).bank bank.toNat).poisoned = false ∧ s.bankBad (s.team u.team) bank = false
/-- The columns that an MMA reads, trits by plane and scales (R144, R148). -/
def columnOf (m : MmaOp) (j : Nat) : Column :=
  { planes := (upTo m.planes).map (fun p => columnTrits ((m.weights.drop (p * 1664 + 13 * j)).take 13)), scales := rowGet [] m.scales j }
/-- The element (i, j) after an MMA: the segments in ascending K, from the bank's element or from +0 (R145, R156). -/
def elemAfter (m : MmaOp) (old : Bank) (i j : Nat) : Elem :=
  m.element (columnOf m j) (rowElems (rowGet [] m.a i)) (rowGet 0 (rowGet [] m.a i) 8)
    { val := if m.clear then 0 else (old.elem i j).toNat }

/-! ### Engines -/

/-- The entries of a copy chain by KIND (R298). -/
def chainWord (kind cmd : Nat) : Option Instr :=
  match kind with
  | 1 => some (.copye cmd)
  | 2 => some (.fill cmd)
  | 3 => some (.swadde cmd)
  | 4 => some (.loope cmd)
  | 5 => some (.conde cmd)
  | 6 => some (.next cmd)
  | 7 => some (.stop cmd)
  | _ => none
/-- Commands under way take note of a store, and nothing else of them changes (R189, R295). -/
def CommandsNote (s t : State) : Prop :=
  t.cmds.length = s.cmds.length ∧
  ∀ i, t.cmd i = { s.cmd i with skip := { (s.cmd i).skip with tainted := (t.cmd i).skip.tainted }, wrote := (t.cmd i).wrote }
/-- What COPY or SKIP of the address `a` does once it has read its operands, in the state `r`: with ENC at 255 it is held, with what it has
read; otherwise it writes the bytes `hdr` (place from its address, bytes), and a command of the party starts that ENC counts, which performs
nothing for 16 cycles, and which in a context being saved stops at its first chunk boundary (R17, R192, R194, R295, R303, R408). -/
def CommandStarts (i : Instr) (s r : State) (u : Issuer) (skipper : Bool) (a : Word) (hdr : List (Nat × List Byte)) (chain : Chain) (skip : SkipCmd)
    (blk : List Byte) : Prop :=
  let key := placeOf s u a
  (255 ≤ (s.partyCounter u.team u.gang .enc).value → exec i s = .next (r.hold u (.command a blk))) ∧
  ((s.partyCounter u.team u.gang .enc).value < 255 →
    ∃ x t, exec i s = .next t ∧ x = { r with spad := x.spad, bad := x.bad, cores := x.cores, fresh := x.fresh, cmds := x.cmds } ∧
      FillsNote r x u ∧ CommandsNote r x ∧
      (Memory.wf s.spad = true → ∀ h ∈ hdr, memRead x.spad (key + h.1) h.2.length = h.2) ∧
      (∀ y, (∀ h ∈ hdr, y < key + h.1 ∨ key + h.1 + h.2.length ≤ y) → memGet x.spad y = memGet s.spad y) ∧
      let stage := match (s.team u.team).status with
        | .saving _ => CmdStage.stopping
        | _ => CmdStage.running
      let seq := (s.partyCounter u.team u.gang .enc).issued
      let c : Cmd := ⟨u.team, u.gang, seq, skipper, a.toNat, s.cycle + 16, stage, chain, skip, []⟩
      Finished (({ x with cmds := x.cmds ++ [c] } : State).modPartyCounter u.team u.gang .enc Counter.count) t u)
/-- An engine writes to the team's window; the command changes as `f` says, and beyond that only the line tags of the team, and what commands
under way note of the write. -/
structure EngineWrites (s t : State) (cmd : Nat) (f : Cmd → Cmd) : Prop where
  rest : t = { s with spad := t.spad, bad := t.bad, teams := t.teams, cmds := t.cmds }
  cmds : CommandsNote (s.modCmd cmd f) t
  teams : ∀ v, t.team v = { s.team v with lines := (t.team v).lines }

/-! ### Words by their rows -/

/-- A word that writes one vector register in the participating lanes: its vector sources in their order, its destination, the k
registers it reads, the GMODE values under which it is legal, and its result in a lane with the causes raised, from the gang, the
source values by source and lane, and the lane. -/
structure LaneSpec where
  srcs : List Src
  d : VNum
  ks : List KNum := []
  mode : Half → Bool
  res : Gang → (Nat → Nat → Word) → Nat → Word × Causes

/-- What the checks before issue know of the word. -/
def LaneSpec.form (x : LaneSpec) : Form := { srcs := x.srcs, dsts := [x.d], ks := x.ks, mode := x.mode }

/-- The result of a lane from the element type and the modes in force and the values of the sources (R65, R66). -/
def byLane (f : LaneFn) (g : Gang) (v : Nat → Nat → Word) (l : Nat) : Word × Causes :=
  f ((gmEt g.gmode).getD .i8) (modesOf g.gmode) (fun j => v j l)

/-- Type-generic vector words of the register forms (R73, R111 to R121). -/
def arithmeticSpec : Instr → Option LaneSpec
  | .add d a b wa wb => some { srcs := [⟨a, wa⟩, ⟨b, wb⟩], d := d, mode := readsEt notSmall, res := byLane (sub2 opAdd) }
  | .sub d a b wa wb => some { srcs := [⟨a, wa⟩, ⟨b, wb⟩], d := d, mode := readsEt notSmall, res := byLane (sub2 opSub) }
  | .mul d a b wa wb => some { srcs := [⟨a, wa⟩, ⟨b, wb⟩], d := d, mode := readsEt notSmall, res := byLane (sub2 opMul) }
  | .mulh d a b wa wb => some { srcs := [⟨a, wa⟩, ⟨b, wb⟩], d := d, mode := readsEt ElemType.isInt, res := byLane (sub2 opMulh) }
  | .fma d a b wa wb =>
    some { srcs := [⟨a, wa⟩, ⟨b, wb⟩, ⟨d, false⟩], d := d, mode := readsEt notSmall, res := byLane (sub3 opFma) }
  | .fms d a b wa wb =>
    some { srcs := [⟨a, wa⟩, ⟨b, wb⟩, ⟨d, false⟩], d := d, mode := readsEt notSmall, res := byLane (sub3 opFms) }
  | .min d a b wa wb => some { srcs := [⟨a, wa⟩, ⟨b, wb⟩], d := d, mode := readsEt anyType, res := byLane (sub2 opMin) }
  | .max d a b wa wb => some { srcs := [⟨a, wa⟩, ⟨b, wb⟩], d := d, mode := readsEt anyType, res := byLane (sub2 opMax) }
  | .abs d a wa => some { srcs := [⟨a, wa⟩], d := d, mode := readsEt notSmall, res := byLane (sub1 opAbs) }
  | .neg d a wa => some { srcs := [⟨a, wa⟩], d := d, mode := readsEt notSmall, res := byLane (sub1 opNeg) }
  | .and d a b wa wb =>
    some { srcs := [⟨a, wa⟩, ⟨b, wb⟩], d := d, mode := readsEt notSmall, res := fun _ v l => (v 0 l &&& v 1 l, noCause) }
  | .or d a b wa wb =>
    some { srcs := [⟨a, wa⟩, ⟨b, wb⟩], d := d, mode := readsEt notSmall, res := fun _ v l => (v 0 l ||| v 1 l, noCause) }
  | .xor d a b wa wb =>
    some { srcs := [⟨a, wa⟩, ⟨b, wb⟩], d := d, mode := readsEt notSmall, res := fun _ v l => (v 0 l ^^^ v 1 l, noCause) }
  | .andn d a b wa wb =>
    some { srcs := [⟨a, wa⟩, ⟨b, wb⟩], d := d, mode := readsEt notSmall, res := fun _ v l => (v 0 l &&& ~~~ v 1 l, noCause) }
  | .shl d a b wa wb => some { srcs := [⟨a, wa⟩, ⟨b, wb⟩], d := d, mode := readsEt ElemType.isInt,
                               res := byLane (sub2 (fun t _ x c => (shlBy t x c, noCause))) }
  | .shr d a b wa wb => some { srcs := [⟨a, wa⟩, ⟨b, wb⟩], d := d, mode := readsEt ElemType.isInt,
                               res := byLane (sub2 (fun t _ x c => (shrBy t x c, noCause))) }
  | .rot d a b wa wb => some { srcs := [⟨a, wa⟩, ⟨b, wb⟩], d := d, mode := readsEt ElemType.isInt,
                               res := byLane (sub2 (fun t _ x c => (rotBy t x c, noCause))) }
  | .bits op d a wa => some { srcs := [⟨a, wa⟩], d := d, mode := readsEt ElemType.isInt, res := byLane (sub1 (opBits op)) }
  | .bfx d a b wa wb => some { srcs := [⟨a, wa⟩, ⟨b, wb⟩], d := d, mode := readsEt ElemType.isInt, res := byLane (sub2 opBfx) }
  | .bfi d a b wa wb =>
    some { srcs := [⟨a, wa⟩, ⟨b, wb⟩, ⟨d, false⟩], d := d, mode := readsEt ElemType.isInt, res := byLane (sub3 opBfi) }
  | .div d a b wa wb => some { srcs := [⟨a, wa⟩, ⟨b, wb⟩], d := d, mode := readsEt notSmall, res := byLane (sub2 opDiv) }
  | .rem d a b wa wb => some { srcs := [⟨a, wa⟩, ⟨b, wb⟩], d := d, mode := readsEt ElemType.isInt, res := byLane (sub2 opRem) }
  | .mov d a wa => some { srcs := [⟨a, wa⟩], d := d, mode := readsEt notSmall, res := fun _ v l => (v 0 l, noCause) }
  | .dot4 d a b wa wb =>
    some { srcs := [⟨a, wa⟩, ⟨b, wb⟩, ⟨d, false⟩], d := d, mode := readsEt (fun t => t = .i8 || t = .n8),
           res := byLane (fun t md v => dot4Lane t md (v 0) (v 1) (v 2)) }
  | .crc d a wa => some { srcs := [⟨a, wa⟩, ⟨d, false⟩], d := d, mode := readsEt ElemType.isInt,
                          res := fun _ v l => ((crcWord ((v 1 l).setWidth 32) (v 0 l)).setWidth 64, noCause) }
  | .subx d a b wa wb =>
    some { srcs := [⟨a, wa⟩, ⟨b, wb⟩], d := d, mode := readsEt notSmall,
           res := byLane (fun t _ v => subMap t (fun i => (subGet t.width (v 0) (subGet t.width (v 1) i % t.count), noCause))) }
  | _ => none

/-- Vector words with an immediate (R76, R112, R113, R122, R123). -/
def immediateSpec : Instr → Option LaneSpec
  | .addi d a imm => some { srcs := [⟨a, false⟩], d := d, mode := readsEt notSmall, res := byLane (immForm imm.toInt opAdd) }
  | .muli d a imm => some { srcs := [⟨a, false⟩], d := d, mode := readsEt notSmall, res := byLane (immForm imm.toInt opMul) }
  | .mini d a imm => some { srcs := [⟨a, false⟩], d := d, mode := readsEt notSmall, res := byLane (immForm imm.toInt opMin) }
  | .maxi d a imm => some { srcs := [⟨a, false⟩], d := d, mode := readsEt notSmall, res := byLane (immForm imm.toInt opMax) }
  | .andi d a imm => some { srcs := [⟨a, false⟩], d := d, mode := readsEt notSmall, res := byLane (immBitwise imm (· &&& ·)) }
  | .ori d a imm => some { srcs := [⟨a, false⟩], d := d, mode := readsEt notSmall, res := byLane (immBitwise imm (· ||| ·)) }
  | .xori d a imm => some { srcs := [⟨a, false⟩], d := d, mode := readsEt notSmall, res := byLane (immBitwise imm (· ^^^ ·)) }
  | .shli d a n => some { srcs := [⟨a, false⟩], d := d, mode := readsEt ElemType.isInt,
                          res := byLane (sub1 (fun t _ x => (shlBy t x n.toNat, noCause))) }
  | .shri d a n => some { srcs := [⟨a, false⟩], d := d, mode := readsEt ElemType.isInt,
                          res := byLane (sub1 (fun t _ x => (shrBy t x n.toNat, noCause))) }
  | .movi d imm => some { srcs := [], d := d, mode := readsEt notSmall,
                          res := byLane (fun t md _ => subMap t (fun _ => (immOf t md imm.toInt, noCause))) }
  | .movhi d imm => some { srcs := [⟨d, false⟩], d := d, mode := readsEt (fun t => t = .i64 || t = .n64 || t = .f64),
                           res := fun _ v l => ((v 0 l &&& 0x3FFFF#64) ||| (imm.setWidth 64 <<< 18), noCause) }
  | _ => none

/-- Special functions and conversions (R77, R124 to R129, R131 to R133). -/
def functionSpec : Instr → Option LaneSpec
  | .rcp d a wa => some { srcs := [⟨a, wa⟩], d := d, mode := readsEt shortFloat, res := byLane (sub1 (opSpecial .rcp)) }
  | .rsq d a wa => some { srcs := [⟨a, wa⟩], d := d, mode := readsEt shortFloat, res := byLane (sub1 (opSpecial .rsq)) }
  | .sqrt d a wa => some { srcs := [⟨a, wa⟩], d := d, mode := readsEt bigFloat, res := byLane (sub1 fSqrt) }
  | .exp2 d a wa => some { srcs := [⟨a, wa⟩], d := d, mode := readsEt shortFloat, res := byLane (sub1 (opSpecial .exp2)) }
  | .log2 d a wa => some { srcs := [⟨a, wa⟩], d := d, mode := readsEt shortFloat, res := byLane (sub1 (opSpecial .log2)) }
  | .sinpi d a wa => some { srcs := [⟨a, wa⟩], d := d, mode := readsEt shortFloat, res := byLane (sub1 (opSpecial .sinpi)) }
  | .cospi d a wa => some { srcs := [⟨a, wa⟩], d := d, mode := readsEt shortFloat, res := byLane (sub1 (opSpecial .cospi)) }
  | .tanh d a wa => some { srcs := [⟨a, wa⟩], d := d, mode := readsEt shortFloat, res := byLane (sub1 (opSpecial .tanh)) }
  | .cvt src d a wa => some { srcs := [⟨a, wa⟩], d := d, mode := readsEt anyType,
                              res := byLane (fun t md v => convertLane src t md 0 (v 0) 0#64) }
  | .pack src d a part wa => some { srcs := [⟨a, wa⟩, ⟨d, false⟩], d := d, mode := readsEt (partLegal src part),
                                    res := byLane (fun t md v => convertLane src t md part.toNat (v 0) (v 1)) }
  | .unpk src d a part wa => some { srcs := [⟨a, wa⟩], d := d, mode := readsEt (partLegal src part),
                                    res := byLane (fun t md v => convertLane src t md part.toNat (v 0) 0#64) }
  | .rnd m d a wa => some { srcs := [⟨a, wa⟩], d := d, mode := readsEt bigFloat, res := byLane (sub1 (opRnd m)) }
  | .classf d a wa => some { srcs := [⟨a, wa⟩], d := d, mode := readsEt bigFloat, res := byLane (sub1 opClass) }
  | .scalb d a b wa wb => some { srcs := [⟨a, wa⟩, ⟨b, wb⟩], d := d, mode := readsEt bigFloat, res := byLane (sub2 opScalb) }
  | _ => none

/-- A choice by a predicate, and a k register spread over lanes (R117, R140): neither raises a cause. -/
def moveSpec : Instr → Option LaneSpec
  | .sel d a b wa wb n p => some { srcs := [⟨a, wa⟩, ⟨b, wb⟩], d := d, mode := readsEt notSmall,
                                   res := fun g v l => (if (g.lane l).pred p = n then v 1 l else v 0 l, noCause) }
  | .kbcast d ka => some { srcs := [], d := d, ks := [ka], mode := fun _ => true, res := fun g _ _ => (g.kreg ka, noCause) }
  | _ => none

/-- A word that writes a predicate in the participating lanes. -/
structure PredSpec where
  srcs : List Src
  p : PNum
  mode : Half → Bool
  res : Gang → (Nat → Nat → Word) → Nat → Bool

/-- Comparisons and PLOP (R74, R75, R118, R119, R122). -/
def predSpec : Instr → Option PredSpec
  | .cmp cc p a b wa wb =>
    some { srcs := [⟨a, wa⟩, ⟨b, wb⟩], p := p, mode := readsEt anyType,
           res := fun g v l =>
             let t := (gmEt g.gmode).getD .i8
             (upTo t.count).all (fun i => cmpHolds cc (opOrder t (modesOf g.gmode) (subGet t.width (v 0 l) i) (subGet t.width (v 1 l) i)).1) }
  | .cmpi cc p a imm =>
    some { srcs := [⟨a, false⟩], p := p, mode := readsEt notSmall,
           res := fun g v l =>
             let t := (gmEt g.gmode).getD .i8
             let md := modesOf g.gmode
             let b := packWord t.width ((upTo t.count).map (fun _ => immOf t md imm.toInt))
             (upTo t.count).all (fun i => cmpHolds (cmpiCond cc) (opOrder t md (subGet t.width (v 0 l) i) (subGet t.width b i)).1) }
  | .plop d a b tt =>
    some { srcs := [], p := d, mode := fun _ => true,
           res := fun g _ l => tt.getLsbD (2 * ((g.lane l).pred a).toNat + ((g.lane l).pred b).toNat) }
  | _ => none

/-- What the checks before issue know of a word of these tables, or of a relaxed remote word. -/
def rowForm (i : Instr) : Option Form :=
  ((((((arithmeticSpec i).or (immediateSpec i)).or (functionSpec i)).or (moveSpec i)).map LaneSpec.form).or
    ((predSpec i).map (fun x => { srcs := x.srcs, mode := x.mode }))).or ((remoteSpec i).map RemoteSpec.form)
/-- Of a list of sources, those that name a queue (R11). -/
def takersOf (gm : Half) (q : BitVec 2) (l : List Src) : Nat := (l.filter (fun x => isQueue gm x.r && decide (queueOf x.r = q))).length

/-- A uniform word: the k registers it reads, the one it writes, and its value from them (R79, R141). -/
structure UniformSpec where
  ks : List KNum
  d : KNum
  val : (KNum → Word) → Word

/-- The uniform words. -/
def uniformSpec : Instr → Option UniformSpec
  | .kadd d a b => some ⟨[a, b], d, fun k => k a + k b⟩
  | .ksub d a b => some ⟨[a, b], d, fun k => k a - k b⟩
  | .kmul d a b => some ⟨[a, b], d, fun k => k a * k b⟩
  | .kand d a b => some ⟨[a, b], d, fun k => k a &&& k b⟩
  | .kor d a b => some ⟨[a, b], d, fun k => k a ||| k b⟩
  | .kxor d a b => some ⟨[a, b], d, fun k => k a ^^^ k b⟩
  | .kshl d a b => some ⟨[a, b], d, fun k => if 64 ≤ (k b).toNat then 0#64 else k a <<< (k b).toNat⟩
  | .kshr d a b arith => some ⟨[a, b], d, fun k =>
      if arith then (k a).sshiftRight (min (k b).toNat 63) else if 64 ≤ (k b).toNat then 0#64 else k a >>> (k b).toNat⟩
  | .kaddi d a imm => some ⟨[a], d, fun k => k a + imm.signExtend 64⟩
  | .kmovi d imm => some ⟨[], d, fun _ => imm.signExtend 64⟩
  | .kmovhi d imm => some ⟨[d], d, fun k => (k d &&& 0x3FFFF#64) ||| (imm.setWidth 64 <<< 18)⟩
  | .kmin d a b u => some ⟨[a, b], d, fun k => if (if u then (k a).ult (k b) else (k a).slt (k b)) then k a else k b⟩
  | .kmax d a b u => some ⟨[a, b], d, fun k => if (if u then (k a).ult (k b) else (k a).slt (k b)) then k b else k a⟩
  | .ksel d a b kf => some ⟨[a, b, kf.setWidth 5], d, fun k => if k (kf.setWidth 5) = 0#64 then k b else k a⟩
  | _ => none

end Sys2Proof.Safety
end

