-- ==== Sys2Proof/Certificates/Slice0/Obligations.lean ====
section
/-!
DEFINITION. What is claimed of the machine, for the provers: each statement's docstring says which rule of the manual it follows.
-/
open Sys2Proof Sys2Proof.Machine Sys2Proof.Safety

/-! ### Encoding, fetch and reset -/

/-- Each word is written out from the fields of its row: ANDI v2, v1, 1; CMP.EQ p1, v2, v0; RCV and BRC with their offsets; ADD
v2, v0, v1!; LOOP lc0, k2, 12; INV v4, v5, b0, 0, 2; MMA.R.L32 3, v16, k5. The last two of the list are refused: the words of
all zeros and of all ones. (R61, R62, R71, R73, R74, R76, R82, R84.) -/
def Obligations.WorkedEncodings : Prop :=
  decode 0b01000010_000010_000001_000000000001#32 = .ok (.andi 2 1 1) ∧
  decode 0b00111000_000001_000010_000000_0_0_0000#32 = .ok (.cmp .eq 1 2 0 false false) ∧
  decode 0b00000101_000_0_00000000000000000100#32 = .ok (.rcv 4) ∧
  decode 0b00000100_001_0_00000000000000000010#32 = .ok (.brc 1 false 2) ∧
  decode 0b00100000_000010_000000_000001_0_1_0000#32 = .ok (.add 2 0 1 false true) ∧
  decode 0b00001011_00_000010_00000000_00001011#32 = .ok (.loop 0 2 11) ∧
  decode 0b00010111_000100_000101_00_0000_0001_0_0#32 = .ok (.inv 4 5 0 0 1 false) ∧
  decode 0b10100000_000011_010000_000101_0_0_1010#32 = .ok (.mma 3 16 5 false true .l32 false) ∧
  decode 0#32 = .error .unallocated ∧ decode 0xFFFFFFFF#32 = .error .unallocated

/-- For every well-formed instruction and every value of its operands, the word that the encoder gives decodes to that
instruction: no bit of an operand is dropped, and no two instructions share a word. (R61, R62, R63, R71, R73, R80, R82, R84.) -/
def Obligations.DecodeEncode : Prop :=
  (∀ i w, i.wellFormed = true → encode i = some w → decode w = .ok i) ∧
  ∀ i j w, i.wellFormed = true → j.wellFormed = true → encode i = some w → encode j = some w → i = j

/-- Whatever word the decoder accepts, the instruction it gives is well-formed and its encoding is that very word: every bit of
an accepted word belongs to an operand or is checked, so no reserved bit, reserved code or stray disposition bit passes. (R61,
R62, R63, R64, R85.) -/
def Obligations.EncodeDecode : Prop :=
  ∀ w i, decode w = .ok i → i.wellFormed = true ∧ encode i = some w

/-- The opcodes 0x00, 0x18 to 0x1F, 0x3C to 0x3F, 0x4C to 0x4F, 0x5F, 0x77, 0x83, 0x8E, 0x8F, 0x9A to 0x9F and 0xA8 to 0xFF do
not decode. A unit whose fetched word does not decode takes the trap ILLEGAL_INSTRUCTION whose DETAIL is the word and the step
of R63 that it fails: step 1 for an unallocated opcode, for an opcode that the issuer never executes, and for a reserved bit or
code; step 2 otherwise. A fetch that gives no word takes it with step 0 and no word. Where a comparator that fires at the word
stops it, its trap is taken in place of either (the model's choice of order, assumption 7 leaving one unit to act at a time:
R245 puts the comparators before the checks of the word). Which reserved fields are reported as step 1 and which register fields
as step 2 is the model's reading (assumption 24: DEDUCED), and step 1 for a word that a recipe body never executes rests on
assumption 17 (DEDUCED). (R63, R85, R87, R88, R235, R245, R369.) -/
def Obligations.IllegalWords : Prop :=
  (∀ w : Half, (let op := (opOf w).toNat
    op = 0 ∨ (0x18 ≤ op ∧ op ≤ 0x1F) ∨ (0x3C ≤ op ∧ op ≤ 0x3F) ∨ (0x4C ≤ op ∧ op ≤ 0x4F) ∨ op = 0x5F ∨ op = 0x77 ∨ op = 0x83 ∨
      op = 0x8E ∨ op = 0x8F ∨ (0x9A ≤ op ∧ op ≤ 0x9F) ∨ 0xA8 ≤ op) → decode w = .error .unallocated) ∧
  ∀ s u, s.issuer = some u → s.issuable u = true →
    (u.gang ≠ 16 → ∀ x w, comparatorStop (s.gang u.team u.gang) u.slices (pcAt s u) 0 = some (.trap x) →
      exec (.illegalInstructionWord w) s = .next (s.takeTrap u x)) ∧
    ((u.gang ≠ 16 → comparatorStop (s.gang u.team u.gang) u.slices (pcAt s u) 0 = none) →
    (∀ w e, decode w = .error e →
      exec (.illegalInstructionWord (some w)) s = .next (s.takeTrap u
        { cause := .illegalInstruction,
          detail := BitVec.ofNat 64 (w.toNat + (if e = .operand ∧ s.barsOpcode u w = false then 2 else 1) * 2 ^ 32) })) ∧
    exec (.illegalInstructionWord none) s = .next (s.takeTrap u { cause := .illegalInstruction, detail := 0 }))

/-- Where nothing stands on the agenda, no pair is open and it is the turn of a word, the step takes the unit that the issue
policy picks, and is exec of the instruction that the word at the unit's program counter decodes to, followed by settling. Where
a gang pairs with that unit (R213) the lower of the two gangs issues in this step and the higher in the next, which is exec of
its own decoded word, counted as the second of the pair where the first went on. That word is the four bytes, lowest first, at
the physical address that the unit's page gives; between two passes of an INV a unit holds its word and fetches none. A step of
the agenda is exec of its head, followed by settling. Which unit and which event come next is the model's choice (assumption 7).
(R61, R178, R210, R211, R213, R235, R347.) -/
def Obligations.StepRunsDecodedWord : Prop :=
  let held := fun (s : State) (u : Issuer) => u.gang ≠ 16 ∧ ((s.gang u.team u.gang).runAt u.slices).isSome = true
  let word := fun (s : State) (u : Issuer) (i : Instr) =>
    ¬ held s u ∧ ∃ w, s.fetch (s.team u.team).part (s.unitPc u) = .word w ∧ decode w = .ok i
  let issues := fun (s : State) (u : Issuer) => ({ s with issuer := some u } : State).noteFetch (s.team u.team).part (s.unitPc u)
  (∀ s u s1 i t, (s.clocked = true → s.pair = none) → takeAgenda (s.phase = .restarting) s.agenda = none →
    (s.phase = .running ∨ s.phase = .restarting) → s.beat % 2 = 0 → s.pickUnit = some (u, s1) →
    let s2 : State := { s1 with beat := s1.beat + 1 }
    word s2 u i →
    (pairable i = false ∨ s2.partner u = none → exec i (issues s2 u) = .next t → step s = .next t.settle) ∧
    (∀ v j, pairable i = true → s2.partner u = some v →
      let first := if u.gang < v.gang then u else v
      let s3 := (s2.pairUp u i).2
      (s2.pairUp u i).1 = first ∧ s3.pair = some (if u.gang < v.gang then v else u) ∧
      (word s3 first j → exec j (issues s3 first) = .next t → step s = .next t.settle))) ∧
  (∀ s v j t, s.clocked = true → s.pair = some v →
    let on := match s.issuer with
      | some u => !((s.gang u.team u.gang).slice (lowSlice u.slices)).stopped && ((s.gang u.team u.gang).slice (lowSlice u.slices)).wait.isNone
      | none => false
    let s2 : State := { s with pair := none }
    word s2 { v with second := on } j → exec j (issues s2 { v with second := on }) = .next t → step s = .next t.settle) ∧
  (∀ s i rest t, (s.clocked = true → s.pair = none) → takeAgenda (s.phase = .restarting) s.agenda = some (i, rest) →
    exec i { s with agenda := rest } = .next t → step s = .next t.settle) ∧
  ∀ s p pc l, State.walk s p pc.toNat = .leaf l → l.grants true false = true → l.s = false → l.z = false →
    s.physBad (l.tier = .far) (l.phys pc.toNat) 4 = false →
    s.fetch p pc = .word (let m := if l.tier = .far then s.far else s.hbm
                          let a := l.phys pc.toNat
                          memGet m (a + 3) ++ (memGet m (a + 2) ++ (memGet m (a + 1) ++ memGet m a)))

/-- After reset no team, grid, partition, window, operation or command is live, every memory is in canonical form and lists
nothing, TSTATE is HELD, no word has a unit to issue it, and the first step is the boot core's. Reset values that the manual
does not give are the model's choice (assumptions 2, 3 and 5). (R310, R391, R398.) -/
def Obligations.ResetState : Prop :=
  MemoriesWf State.reset ∧ State.reset.phase = .off ∧ (∀ u, (State.reset.team u).live = false) ∧ (∀ g, (State.reset.grid g).live = false) ∧
  (∀ p, (State.reset.part p).live = false) ∧ (∀ w, (State.reset.window w).state = .free) ∧ State.reset.ops = [] ∧ State.reset.cmds = [] ∧
  State.reset.tb.tstate = 2#2 ∧ State.reset.issuer = none ∧ (∀ a, memGet State.reset.hbm a = memDefault) ∧
  State.reset.next = some (.boot [], State.reset)

/-- From any state in which scratchpad, operand buffer, device memory, far memory and kernel memory are in canonical form
(addresses rising, no byte listed that equals the default), a step that answers a next state gives such a state: equal memories
stay equal data. The canonical form and the byte 0 that an unlisted address reads as are the model's own choice (assumption 2:
DESIGN CHOICE), and no rule of the manual states them; these sections name the memories. (spec/01_machine.md,
spec/12_order_memory.md, spec/17_isolation.md.) -/
def Obligations.StepKeepsMemories : Prop :=
  ∀ s t, MemoriesWf s → step s = .next t → MemoriesWf t

/-! ### Vector words -/

/-- ADD, SUB, MUL, MULH, FMA, FMS, MIN, MAX, ABS, NEG, AND, OR, XOR, ANDN, SHL, SHR, ROT, BITS, BFX, BFI, DIV, REM, MOV, DOT4,
CRC and SUBX: when such a word passes its checks and its operands are there, the rows of arithmeticSpec give its sources, its
legal types and the result of a lane. The word completes. In the participating lanes the destination is FULL with the lane's
result and its poison is cleared; every other register, predicate, bracket and k register, every counter, every other gang and
team, and all memory are as they were; the causes raised go to the log as AEN enables them; and the unit goes to its next word.
(R13, R65, R68, R73, R108, R109, R110, R111, R112, R113, R120, R121.) -/
def Obligations.ArithmeticWords : Prop :=
  ∀ i sp, arithmeticSpec i = some sp → ∀ s u vals s1 popped, GangIssues i sp.form u s vals s1 popped →
    ∃ t, exec i s = .next t ∧ OnlyGang s t u ∧
      VectorResult (s.gang u.team u.gang) (t.gang u.team u.gang) u.slices (partOf s u) sp.d
        (fun l => (sp.res (s.gang u.team u.gang) (valOf vals) l).1) ∧
      (t.gang u.team u.gang).log = logRaised s u (partOf s u) (fun l => (sp.res (s.gang u.team u.gang) (valOf vals) l).2)

/-- ADDI, MULI, MINI, MAXI, ANDI, ORI, XORI, SHLI, SHRI, MOVI and MOVHI: when such a word passes its checks and its operands are
there, the rows of immediateSpec give its sources, its legal types and the result of a lane. The word completes. In the
participating lanes the destination is FULL with the lane's result and its poison is cleared; every other register, predicate,
bracket and k register, every counter, every other gang and team, and all memory are as they were; the causes raised go to the
log as AEN enables them; and the unit goes to its next word. (R13, R68, R76, R108, R109, R110, R112, R113, R122, R123.) -/
def Obligations.ImmediateWords : Prop :=
  ∀ i sp, immediateSpec i = some sp → ∀ s u vals s1 popped, GangIssues i sp.form u s vals s1 popped →
    ∃ t, exec i s = .next t ∧ OnlyGang s t u ∧
      VectorResult (s.gang u.team u.gang) (t.gang u.team u.gang) u.slices (partOf s u) sp.d
        (fun l => (sp.res (s.gang u.team u.gang) (valOf vals) l).1) ∧
      (t.gang u.team u.gang).log = logRaised s u (partOf s u) (fun l => (sp.res (s.gang u.team u.gang) (valOf vals) l).2)

/-- RCP, RSQ, SQRT, EXP2, LOG2, SINPI, COSPI, TANH, CVT, PACK, UNPK, RND, CLASS and SCALB: when such a word passes its checks
and its operands are there, the rows of functionSpec give its sources, its legal types and the result of a lane. The word
completes. In the participating lanes the destination is FULL with the lane's result and its poison is cleared; every other
register, predicate, bracket and k register, every counter, every other gang and team, and all memory are as they were; the
causes raised go to the log as AEN enables them; and the unit goes to its next word. (R13, R68, R77, R108, R109, R110, R124,
R125, R129, R131, R132, R133.) -/
def Obligations.FunctionWords : Prop :=
  ∀ i sp, functionSpec i = some sp → ∀ s u vals s1 popped, GangIssues i sp.form u s vals s1 popped →
    ∃ t, exec i s = .next t ∧ OnlyGang s t u ∧
      VectorResult (s.gang u.team u.gang) (t.gang u.team u.gang) u.slices (partOf s u) sp.d
        (fun l => (sp.res (s.gang u.team u.gang) (valOf vals) l).1) ∧
      (t.gang u.team u.gang).log = logRaised s u (partOf s u) (fun l => (sp.res (s.gang u.team u.gang) (valOf vals) l).2)

/-- SEL writes all 64 bits of a where P[l].n XOR N is 1 and all of b otherwise; KBCAST writes the k register in every
participating lane. The word completes. In the participating lanes the destination is FULL with the lane's result and its poison
is cleared; every other register, predicate, bracket and k register, every counter, every other gang and team, and all memory
are as they were; the causes raised go to the log as AEN enables them; and the unit goes to its next word. (R13, R68, R117,
R140.) -/
def Obligations.MoveWords : Prop :=
  ∀ i sp, moveSpec i = some sp → ∀ s u vals s1 popped, GangIssues i sp.form u s vals s1 popped →
    ∃ t, exec i s = .next t ∧ OnlyGang s t u ∧
      VectorResult (s.gang u.team u.gang) (t.gang u.team u.gang) u.slices (partOf s u) sp.d
        (fun l => (sp.res (s.gang u.team u.gang) (valOf vals) l).1) ∧
      (t.gang u.team u.gang).log = logRaised s u (partOf s u) (fun l => (sp.res (s.gang u.team u.gang) (valOf vals) l).2)

/-- CMP, CMPI and PLOP: when such a word passes its checks and its operands are there, predicate d of each participating lane
becomes what the rows of predSpec give: 1 where the condition holds in every sub-element, or the truth table's bit. A
destination of p0 discards the result: p0 still reads 1. Every register, every other predicate and all memory are as they were,
and the unit goes to its next word. (R10, R68, R74, R75, R118, R119, R122.) -/
def Obligations.PredicateWords : Prop :=
  ∀ i sp, predSpec i = some sp → ∀ s u vals s1 popped, GangIssues i { srcs := sp.srcs, mode := sp.mode } u s vals s1 popped →
    ∃ t, exec i s = .next t ∧ OnlyGang s t u ∧
      PredicateResult (s.gang u.team u.gang) (t.gang u.team u.gang) u.slices (partOf s u) sp.p
        (fun l => sp.res (s.gang u.team u.gang) (valOf vals) l)

/-- QNT vd, va, vb reads a to a+7 and b to b+7 and writes d to d+8: in each participating lane register d+j is FULL with the
j-th word of the lane's quantized block; every other register, predicate and k register, every counter, every other gang and
team, and all memory are as they were, and the unit goes to its next word. (R13, R68, R77, R109, R130.) -/
def Obligations.QuantWord : Prop :=
  ∀ l d a b wa wb s u vals s1 popped,
    GangIssues (.qnt l d a b wa wb)
      { srcs := (regRange a 8).map (fun r => ⟨r, wa⟩) ++ (regRange b 8).map (fun r => ⟨r, wb⟩), dsts := regRange d 9,
        mode := readsEt (fun t => t = .f16 || t = .bf16) } u s vals s1 popped →
    ∃ t, exec (.qnt l d a b wa wb) s = .next t ∧ OnlyGang s t u ∧
      GangKeeps (s.gang u.team u.gang) (t.gang u.team u.gang) u.slices ∧
      (t.gang u.team u.gang).k = (s.gang u.team u.gang).k ∧
      ∀ x, x < 32 →
        (t.gang u.team u.gang).lane x = { (s.gang u.team u.gang).lane x with v := ((t.gang u.team u.gang).lane x).v } ∧
        (∀ r, r ∉ regRange d 9 → regOf t u x r = regOf s u x r) ∧
        ((partOf s u).getLsbD x = false → ∀ r, regOf t u x r = regOf s u x r) ∧
        ((partOf s u).getLsbD x = true → ∀ j, j < 9 →
          regOf t u x (d + BitVec.ofNat 6 j) =
            { val := rowGet 0 (quantLane (etOf s u) (mdOf s u) (BlockLen.size l) ((upTo 16).map (fun k => valOf vals k x))).1 j })

/-- When the unit is to issue and may, runs no recipe body, stands at no enabled comparator and at no loop's end, the registers
the word names exist with QMAP off, GMODE is legal for it, its destinations are awaited by no producer and read by no MMA, and
its sources are FULL and unpoisoned, the word passes every check, nothing holds it back, no queue is popped, and the values it
reads are those of its source registers. Where a word issues, a source that names a queue takes in the order of the sources the
oldest entry that no earlier source has taken; another source reads its register; only those entries leave. A word of the
vector, predicate and relaxed remote tables stops in this order: the lowest enabled comparator at the word; ILLEGAL_INSTRUCTION
step 3 for a register that does not exist; ILLEGAL_MODE; QUEUE_UNMAPPED; CONVERGENCE at a body's end; a destination awaited; one
that an MMA reads; then the sources: an EMPTY one without a producer traps with ORPHAN_WAIT, or waits for its producer, or by
its disposition traps with EMPTY_SOURCE; a poisoned one traps with the producer's address; an empty queue, or one where another
gang is before it, holds the word, and no entry leaves. The order of the conditions of R12 among lanes is assumption 9, that a
stopped word takes nothing assumption 10, and which poisoned lane decides assumption 29: DEDUCED. (R11, R12, R13, R63, R64,
R154, R217, R238, R245, R369, R370.) -/
def Obligations.ReadyWordIssues : Prop :=
  (∀ i f u s, Ready f u s →
    GangIssues i f u s (f.srcs.map (fun x => (s.gang u.team u.gang).column x.r)) s false) ∧
  (∀ i f u s vals s1 popped, GangIssues i f u s vals s1 popped →
    let g := s.gang u.team u.gang
    let tm := s.team u.team
    (popped = f.srcs.any (fun x => isQueue g.gmode x.r)) ∧ vals.length = f.srcs.length ∧
    (∀ pre x post, f.srcs = pre ++ x :: post →
      rowGet [] vals pre.length = if isQueue g.gmode x.r then rowGet [] (tm.queue (queueOf x.r)).entries (takersOf g.gmode (queueOf x.r) pre)
                                  else g.column x.r) ∧
    (∀ v, v ≠ u.team → s1.team v = s.team v) ∧ s1 = { s with teams := s1.teams } ∧
    s1.team u.team = { tm with queues := (s1.team u.team).queues } ∧
    ∀ q, ((s1.team u.team).queue q).entries = (tm.queue q).entries.drop (takersOf g.gmode q f.srcs)) ∧
  ∀ i f u s, rowForm i = some f → s.issuer = some u → s.issuable u = true → u.gang ≠ 16 →
    let word := ((encode i).getD 0#32).toNat
    let tm := s.team u.team
    let g := s.gang u.team u.gang
    let stops := fun (x : TrapInfo) => exec i s = .next (s.takeTrap u x)
    let waits := fun k => exec i s = .next (s.hold u k)
    let part := partOf s u
    let here := fun (r : VNum) => r.toNat < tm.vregs ∨ isQueue g.gmode r = true
    let fires := fun (n : Nat) => (g.comparator n).getLsbD 0 = true ∧ (g.comparator n).extractLsb' 2 46 = (pcAt s u).extractLsb' 2 46 ∧
      (pcAt s u).extractLsb' 48 16 = 0#16
    (∀ n, n < 4 → fires n → (∀ m, m < n → ¬ fires m) → g.skipCmp &&& u.slices = 0#8 →
      stops { cause := .breakpoint, detail := BitVec.ofNat 64 (n * 2 ^ 32), cmp := true }) ∧
    ((∀ n, n < 4 → ¬ fires n) → g.instar.body = none →
      ((∃ r ∈ f.srcs.map (·.r) ++ f.dsts, ¬ here r) → stops { cause := .illegalInstruction, detail := BitVec.ofNat 64 (word + 3 * 2 ^ 32) }) ∧
      ((∀ r ∈ f.srcs.map (·.r) ++ f.dsts, here r) →
        let legal := f.mode g.gmode = true ∧ ∀ r ∈ f.dsts, isQueue g.gmode r = false
        (¬ legal → stops { cause := .illegalMode, detail := BitVec.ofNat 64 (word + g.gmode.toNat * 2 ^ 32) }) ∧
        (legal → ∀ pre x post, f.srcs = pre ++ x :: post → isQueue g.gmode x.r = true → (∀ y ∈ pre, isQueue g.gmode y.r = false) →
          tm.side.present = false → stops { cause := .queueUnmapped, detail := BitVec.ofNat 64 (x.r.toNat - 60) }) ∧
        (legal → (tm.side.present = true ∨ ∀ y ∈ f.srcs, isQueue g.gmode y.r = false) → ∀ x, g.loopEnd u.slices (pcAt s u) = some x →
          (g.whole u.slices = false ∨ ∃ j, j < 8 ∧ u.slices.getLsbD j = true ∧ (g.slice j).stack.length ≠ rowGet 0 x.rdepth j) →
          stops { cause := .convergence }))) ∧
    (preStop i f u s = none →
      let awaited := fun (r : VNum) => ∃ l, l < 32 ∧ part.getLsbD l = true ∧ (regOf s u l r).owed.isSome = true
      let who := u.gang * 8 + (g.slice (lowSlice u.slices)).sub
      let takes := fun (p : List Src) (r : VNum) => takersOf g.gmode (queueOf r) p < (tm.queue (queueOf r)).entries.length ∧
        (tm.queue (queueOf r)).blocked.headD who = who
      let read := fun (r : VNum) => part ≠ 0#32 ∧ tm.mmaReads u.gang s.cycle r = true
      (∀ d, f.dsts = [d] → (awaited d → waits (.register d)) ∧ (¬ awaited d → read d → waits (.operands d))) ∧
      ((∀ d ∈ f.dsts, ¬ awaited d ∧ ¬ read d) → ∀ pre x post, f.srcs = pre ++ x :: post →
        (∀ p y r, pre = p ++ y :: r → if isQueue g.gmode y.r = true then takes p y.r else
          ∀ l, l < 32 → part.getLsbD l = true →
            (regOf s u l y.r).full = true ∧ (regOf s u l y.r).poison = false ∧ (regOf s u l y.r).bad = false) →
        (isQueue g.gmode x.r = false →
          let empty := maskOf (fun l => part.getLsbD l && !(regOf s u l x.r).full)
          let orphan := maskOf (fun l => part.getLsbD l && !(regOf s u l x.r).full && (regOf s u l x.r).owed.isNone)
          let bad := maskOf (fun l => part.getLsbD l && ((regOf s u l x.r).poison || (regOf s u l x.r).bad))
          let low := regOf s u (lowLane bad) x.r
          let detail := BitVec.ofNat 64 x.r.toNat
          (x.trap = true → empty ≠ 0#32 → stops { cause := .emptySource, lanes := some empty, detail := detail }) ∧
          (x.trap = false → orphan ≠ 0#32 → stops { cause := .orphanWait, lanes := some orphan, detail := detail }) ∧
          (x.trap = false → orphan = 0#32 → empty ≠ 0#32 → waits (.register x.r)) ∧
          (empty = 0#32 → bad ≠ 0#32 →
            (low.bad = true → stops { cause := .poison, lanes := some bad, detail := detail, prodpc := 0xFFFFFFFFFFFFFFFF#64 }) ∧
            (low.bad = false → low.pcode = 5#8 → stops { cause := .stampedAccess, lanes := some bad, detail := 5#64 }) ∧
            (low.bad = false → low.pcode ≠ 5#8 → stops { cause := .poison, lanes := some bad, detail := detail, prodpc := low.ppc }))) ∧
        (isQueue g.gmode x.r = true → ¬ takes pre x.r →
            waits (.queue (queueOf x.r)) ∧ ∀ p, (((s.hold u (.queue (queueOf x.r))).team u.team).queue p).entries = (tm.queue p).entries)))

/-! ### Uniform words -/

/-- KADD, KSUB, KMUL, KAND, KOR, KXOR, KSHL, KSHR, KADDI, KMOVI, KMOVHI, KMIN, KMAX and KSEL of a gang: when such a word passes
its checks, for every GMODE and every guard, K.d becomes the value that the rows of uniformSpec give from the k registers; every
other k register, every lane, the log, the reuse latch and every other gang, team and memory are as they were, and outside a
recipe's body an Instar region that is open stays so unless K.d is a register the INSTAR names. (R141.) -/
def Obligations.UniformWords : Prop :=
  ∀ i sp, uniformSpec i = some sp → ∀ s u vals s1 popped, GangIssues i { ks := sp.ks, sidecar := true } u s vals s1 popped →
    ∃ t, exec i s = .next t ∧ OnlyGang s t u ∧
      KResult (s.gang u.team u.gang) (t.gang u.team u.gang) u.slices sp.d (sp.val (s.gang u.team u.gang).kreg) ∧
      ((s.gang u.team u.gang).instar.body = none →
        (t.gang u.team u.gang).instar.rewindable = ((s.gang u.team u.gang).instar.rewindable &&
          decide (((s.gang u.team u.gang).instar.kdirty ||| (1#32 <<< sp.d.toNat)) &&& (s.gang u.team u.gang).instar.kmask = 0#32)))

/-- The same words executed by an access sidecar: K.d of the sidecar becomes the same value from the sidecar's own k registers,
the sidecar goes to its next word, and everything else of the machine but the metering counters is as it was. (R30, R79, R88,
R141.) -/
def Obligations.SidecarUniformWords : Prop :=
  ∀ i sp, uniformSpec i = some sp → ∀ s u, SidecarIssues i { ks := sp.ks, sidecar := true } u s →
    ∃ t, exec i s = .next t ∧ OnlySide s t u ∧
      SideKResult (s.team u.team).side (t.team u.team).side sp.d
        (sp.val (fun k => rowGet 0 (s.team u.team).side.k k.toNat))

/-! ### Control words -/

/-- NOP of a gang changes nothing but control: no register, counter, memory, or other gang or team; the unit goes to its next
word. NOP of a sidecar moves the sidecar's program counter on by one word and changes nothing else but the metering counters.
(R71, R30, R88.) -/
def Obligations.NopWord : Prop :=
  (∀ s u vals s1 popped, GangIssues .nop { sidecar := true } u s vals s1 popped →
    ∃ t, exec .nop s = .next t ∧ OnlyGang s t u ∧ ControlOnly (s.gang u.team u.gang) (t.gang u.team u.gang) ∧
      PassesWord (s.gang u.team u.gang) (t.gang u.team u.gang) u.slices) ∧
  (∀ s u, SidecarIssues .nop { sidecar := true } u s →
    ∃ t, exec .nop s = .next t ∧ OnlySide s t u ∧
      (t.team u.team).side = { (s.team u.team).side with pc := (s.team u.team).side.pc + 4#64, wait := none })

/-- RCV label sets RC to the next word plus four times the offset in each slice of the issuing unit, for every GMODE and guard;
nothing but control changes, every other slice is as it was, and where no loop ends at the word the unit's slices go to the next
word. RCV at address A encodes as 0x0500_0000 OR ((label − A − 4)/4 AND 0xF_FFFF), with p and n zero. (R223.) -/
def Obligations.RcvWord : Prop :=
  (∀ off : BitVec 20, encode (.rcv off) = some (0x05000000#32 ||| off.setWidth 32)) ∧
  ∀ off s u vals s1 popped, GangIssues (.rcv off) {} u s vals s1 popped →
    ∃ t, exec (.rcv off) s = .next t ∧ OnlyGang s t u ∧ ControlOnly (s.gang u.team u.gang) (t.gang u.team u.gang) ∧
      ((s.gang u.team u.gang).instar.body = none →
        (s.gang u.team u.gang).loopEnd u.slices (pcAt s u) = none →
        (t.gang u.team u.gang).lc = (s.gang u.team u.gang).lc ∧ (t.gang u.team u.gang).levels = (s.gang u.team u.gang).levels ∧
        ∀ i, i < 8 → (t.gang u.team u.gang).slice i =
          if u.slices.getLsbD i then
            { sliceAt { (s.gang u.team u.gang).slice i with rc := some (pcAt s u + 4#64 + (off.signExtend 64 <<< 2)) }
                (((s.gang u.team u.gang).slice i).pc + 4#64) with sub := ((t.gang u.team u.gang).slice i).sub }
          else (s.gang u.team u.gang).slice i)

/-- BRA goes to the next word plus four times its offset, and KBR does where its condition holds of K.a and K.b (EQ, NE, and LT,
GE signed; LTU, GEU unsigned; ALWAYS), else to the next word, in every slice of the unit, whatever the guard. The open levels at
the return depth of a slice of the unit whose body does not hold the target end, their counters 0; that is done only where the
unit is whole and every live lane is active: otherwise the word traps with CONVERGENCE and has no effect. Nothing but control
changes. EQ and NE compare bits; LT and GE compare K.a and K.b as signed 64-bit numbers and LTU and GEU as unsigned ones; ALWAYS
holds. (R71, R225, R228, R233, R240.) -/
def Obligations.DirectTransfers : Prop :=
  (∀ a b : Word,
    (kbrHolds .eq a b = true ↔ a.toNat = b.toNat) ∧ (kbrHolds .ne a b = true ↔ a.toNat ≠ b.toNat) ∧
    (kbrHolds .lt a b = true ↔ a.toInt < b.toInt) ∧ (kbrHolds .ge a b = true ↔ b.toInt ≤ a.toInt) ∧
    (kbrHolds .ltu a b = true ↔ a.toNat < b.toNat) ∧ (kbrHolds .geu a b = true ↔ b.toNat ≤ a.toNat) ∧
    kbrHolds .always a b = true) ∧
  ∀ i f taken tgt s u vals s1 popped,
    ((∃ off : BitVec 20, i = .bra off ∧ f = { jumps := true } ∧ taken = true ∧ tgt = pcAt s u + 4#64 + (off.signExtend 64 <<< 2)) ∨
     (∃ ka kb cc, ∃ off : BitVec 9, i = .kbr ka kb cc off ∧ f = { ks := if cc = .always then [] else [ka, kb], jumps := true, sidecar := true } ∧
        taken = kbrHolds cc ((s.gang u.team u.gang).kreg ka) ((s.gang u.team u.gang).kreg kb) ∧
        tgt = if taken then pcAt s u + 4#64 + (off.signExtend 64 <<< 2) else pcAt s u + 4#64)) →
    GangIssues i f u s vals s1 popped →
    let g := s.gang u.team u.gang
    let ends := fun (x : LoopLevel) => taken && (g.atDepth u.slices x.depth && !(x.start.toNat ≤ tgt.toNat && tgt.toNat ≤ x.stop.toNat))
    (g.levels.any ends = true → g.mayLeave u.slices = true →
      ∃ t, exec i s = .next t ∧ OnlyGang s t u ∧ Transfers g (t.gang u.team u.gang) u.slices (fun _ x => { x with pc := tgt }) ends) ∧
    (g.levels.any ends = false →
      ∃ t, exec i s = .next t ∧ OnlyGang s t u ∧ Transfers g (t.gang u.team u.gang) u.slices (fun _ x => { x with pc := tgt }) ends) ∧
    (g.levels.any ends = true → g.mayLeave u.slices = false → exec i s = .next (s.takeTrap u { cause := .convergence }))

/-- KBR executed by a sidecar goes to the next word plus four times its offset where its condition holds of the sidecar's own
K.a and K.b, and else to the next word; nothing else changes but the end of its wait and the metering counters. (R30, R88,
R233.) -/
def Obligations.SidecarBranch : Prop :=
  ∀ ka kb cc off s u,
    SidecarIssues (.kbr ka kb cc off) { ks := if cc = .always then [] else [ka, kb], jumps := true, sidecar := true } u s →
    let x := (s.team u.team).side
    ∃ t, exec (.kbr ka kb cc off) s = .next t ∧ OnlySide s t u ∧
      (t.team u.team).side = { x with
        pc := (if kbrHolds cc (rowGet 0 x.k ka.toNat) (rowGet 0 x.k kb.toNat) then x.pc + 4#64 + (off.signExtend 64 <<< 2)
               else x.pc + 4#64),
        wait := none }

/-- In each slice of the unit, T is the set of active lanes whose guard is true and whose P[l].p XOR n is 1. Where T is all of M
the slice goes to the target; where T is empty it goes to the next word; else it pushes the join entry, pc RC, mask M, ra RC,
and on it the waiting side, pc next, mask M − T, ra RC, and goes on at the target with M = T. Nothing but control changes. A
branch that some lane takes out of an open level's body needs the unit whole, every live lane active and T = M in every slice,
and otherwise traps with CONVERGENCE and has no effect. (R224, R228, R240.) -/
def Obligations.BrcWord : Prop :=
  ∀ p n off s u vals s1 popped, GangIssues (.brc p n off) { jumps := true } u s vals s1 popped →
    let g := s.gang u.team u.gang
    let tgt := pcAt s u + 4#64 + (off.signExtend 64 <<< 2)
    let T := fun i => takenLanes g i p n
    let some_ := (upTo 8).any (fun i => u.slices.getLsbD i && T i ≠ 0#4)
    let all_ := (upTo 8).all (fun i => !u.slices.getLsbD i || T i = (g.slice i).m)
    let ends := fun (x : LoopLevel) =>
      some_ && (g.atDepth u.slices x.depth && !(x.start.toNat ≤ tgt.toNat && tgt.toNat ≤ x.stop.toNat))
    (g.levels.any ends = false ∨ (g.mayLeave u.slices = true ∧ all_ = true) →
      ∃ t, exec (.brc p n off) s = .next t ∧ OnlyGang s t u ∧
        Transfers g (t.gang u.team u.gang) u.slices (fun i x =>
          if T i = x.m then { x with pc := tgt }
          else if T i = 0#4 then { x with pc := pcAt s u + 4#64 }
          else { x with m := T i, pc := tgt,
                        stack := ⟨some (pcAt s u + 4#64), x.m &&& ~~~ T i, x.rc⟩ :: ⟨x.rc, x.m, x.rc⟩ :: x.stack }) ends) ∧
    (g.levels.any ends = true → ¬ (g.mayLeave u.slices = true ∧ all_ = true) →
      exec (.brc p n off) s = .next (s.takeTrap u { cause := .convergence })) ∧
    (∀ i l, i < 8 → l < 4 → (T i).getLsbD l =
      ((g.slice i).m.getLsbD l && (g.lane (4 * i + l)).guard g.gmode && ((g.lane (4 * i + l)).pred p != n)))

/-- Where no slice of the unit holds sixteen return entries, CALL goes to the next word plus four times its offset, and CALLI to
the target that its active lanes agree on, in every slice, each slice pushing the address of the next word and the depth of its
reconvergence stack; no level ends, and nothing but control changes. Where a slice's return stack is full the word traps with
RSTACK_FULL and changes nothing else. (R222, R233, R234, R240.) -/
def Obligations.CallWords : Prop :=
  ∀ i f tgt s u vals s1 popped,
    ((∃ off : BitVec 20, i = .call off ∧ f = { jumps := true } ∧ tgt = pcAt s u + 4#64 + (off.signExtend 64 <<< 2)) ∨
     (∃ a wa, i = .calli a wa ∧ f = { srcs := [⟨a, wa⟩], allActive := true, jumps := true } ∧ Agreed s u vals tgt)) →
    GangIssues i f u s vals s1 popped →
    let g := s.gang u.team u.gang
    ((∀ j, j < 8 → u.slices.getLsbD j = true → (g.slice j).ret.length < 16) →
      ∃ t, exec i s = .next t ∧ OnlyGang s t u ∧
        Transfers g (t.gang u.team u.gang) u.slices
          (fun _ x => { x with ret := ⟨pcAt s u + 4#64, x.stack.length⟩ :: x.ret, pc := tgt }) (fun _ => false)) ∧
    ((∃ j, j < 8 ∧ u.slices.getLsbD j = true ∧ 16 ≤ (g.slice j).ret.length) →
      exec i s = .next (s.takeTrap u { cause := .rstackFull }))

/-- Where each slice of the unit holds a return entry that recorded the slice's present reconvergence depth, RET goes to each
slice's own return address, and RETR to the target that its active lanes agree on, each slice's top entry popped; every open
level whose return depth is not below the depth left ends, and with RETR so does one at the depth returned to whose body does
not hold the target, which needs the unit whole and every live lane active, and otherwise traps with CONVERGENCE. Nothing but
control changes. A slice with no entry makes the word trap with RSTACK_EMPTY; one whose depth differs makes it trap with
CONVERGENCE for that slice's lanes that are live and not active. (R233, R234, R236, R240.) -/
def Obligations.ReturnWords : Prop :=
  ∀ i f dest s u vals s1 popped,
    ((i = .ret ∧ f = { jumps := true } ∧ dest = none) ∨
     (∃ a wa tgt, i = .retr a wa ∧ f = { srcs := [⟨a, wa⟩], allActive := true, jumps := true } ∧ Agreed s u vals tgt ∧ dest = some tgt)) →
    GangIssues i f u s vals s1 popped →
    let g := s.gang u.team u.gang
    let empty := fun j => u.slices.getLsbD j && (g.slice j).ret.isEmpty
    let off := fun j => u.slices.getLsbD j && decide ((g.slice j).ret.head?.map (·.depth) ≠ some (g.slice j).stack.length)
    let ends := fun (y : LoopLevel) => (upTo 8).any (fun j => u.slices.getLsbD j && (decide ((g.slice j).ret.length ≤ y.depth) ||
      match dest with
      | some tl => decide ((g.slice j).ret.length = y.depth + 1) && !(y.start.toNat ≤ tl.toNat && tl.toNat ≤ y.stop.toNat)
      | none => false))
    ((upTo 8).any empty = true → exec i s = .next (s.takeTrap u { cause := .rstackEmpty })) ∧
    ((upTo 8).any empty = false → (upTo 8).any off = true →
      exec i s = .next (s.takeTrap u { cause := .convergence,
                                       lanes := some (laneMask u.slices (fun j => if off j then ~~~ (g.slice j).x &&& ~~~ (g.slice j).m else 0#4)) })) ∧
    ((upTo 8).any empty = false → (upTo 8).any off = false → g.levels.any ends = true → g.mayLeave u.slices = false →
      exec i s = .next (s.takeTrap u { cause := .convergence })) ∧
    ((upTo 8).any empty = false → (upTo 8).any off = false → (g.levels.any ends = true → g.mayLeave u.slices = true) →
      ∃ t, exec i s = .next t ∧ OnlyGang s t u ∧
        Transfers g (t.gang u.team u.gang) u.slices (fun _ x =>
          match x.ret with
          | [] => x
          | e :: rest => { x with ret := rest, pc := dest.getD e.ret }) ends)

/-- JMPI goes to the target that its active lanes agree on, ending the levels it leaves as BRA does. Where some active lane's
target differs from the lowest active lane's, JMPI, CALLI and RETR trap with INDIRECT_DIVERGE and the mask of those lanes; where
the common target has bits 1:0 or 63:48 not zero, they trap with MISALIGNED and the mask of the active lanes. The trap changes
nothing but what taking a trap changes. (R234, R365.) -/
def Obligations.IndirectTraps : Prop :=
  (∀ a wa tgt s u vals s1 popped, GangIssues (.jmpi a wa) { srcs := [⟨a, wa⟩], allActive := true, jumps := true } u s vals s1 popped →
    Agreed s u vals tgt →
    let g := s.gang u.team u.gang
    let ends := fun (x : LoopLevel) => g.atDepth u.slices x.depth && !(x.start.toNat ≤ tgt.toNat && tgt.toNat ≤ x.stop.toNat)
    (g.levels.any ends = true → g.mayLeave u.slices = true) →
    ∃ t, exec (.jmpi a wa) s = .next t ∧ OnlyGang s t u ∧
      Transfers g (t.gang u.team u.gang) u.slices (fun _ x => { x with pc := tgt }) ends) ∧
  (∀ i a wa s u vals s1 popped, (i = .jmpi a wa ∨ i = .calli a wa ∨ i = .retr a wa) →
    GangIssues i { srcs := [⟨a, wa⟩], allActive := true, jumps := true } u s vals s1 popped →
    let active := (s.gang u.team u.gang).activeOf u.slices
    let tl := valOf vals 0 (lowLane active)
    let D := maskOf (fun l => active.getLsbD l && valOf vals 0 l ≠ tl)
    (D ≠ 0#32 → exec i s = .next (s.takeTrap u { cause := .indirectDiverge, lanes := some D })) ∧
    (D = 0#32 → tl.extractLsb' 0 2 ≠ 0#2 ∨ tl.extractLsb' 48 16 ≠ 0#16 →
      exec i s = .next (s.takeTrap u { cause := .misaligned, lanes := some active, detail := tl })))

/-- Where the unit is whole, its slices agree in return depth, fewer than three levels are open and none has the counter named:
a count K.a[31:0] of zero goes past the body and opens nothing; any other opens the level {counter, next word, last word of the
body, return depth, each slice's reconvergence depth}, sets the counter to the count, clears an error mark of the counter, and
goes to the next word. Nothing else changes. A unit that is not whole, or whose slices differ in return depth, traps with
CONVERGENCE; three open levels or a counter in use trap with LOOP_BUFFER. (R222, R237.) -/
def Obligations.LoopWord : Prop :=
  ∀ lc ka words s u vals s1 popped, GangIssues (.loop lc ka words) { ks := [ka], jumps := true } u s vals s1 popped →
    let g := s.gang u.team u.gang
    let n : Half := (g.kreg ka).setWidth 32
    let first := pcAt s u + 4#64
    let last := first + (words.setWidth 64 <<< 2)
    let even := g.whole u.slices = true ∧ ∀ i, i < 8 → u.slices.getLsbD i = true → (g.slice i).ret.length = g.retDepth u.slices
    let room := g.levels.length < 3 ∧ ∀ x ∈ g.levels, x.lc ≠ lc.toNat
    (¬ even → exec (.loop lc ka words) s = .next (s.takeTrap u { cause := .convergence })) ∧
    (even → ¬ room → exec (.loop lc ka words) s = .next (s.takeTrap u { cause := .loopBuffer })) ∧
    (even → room → n = 0#32 →
      ∃ t, exec (.loop lc ka words) s = .next t ∧ OnlyGang s t u ∧
        Transfers g (t.gang u.team u.gang) u.slices (fun _ x => { x with pc := last + 4#64 }) (fun _ => false)) ∧
    (even → room → n ≠ 0#32 →
      ∃ t, exec (.loop lc ka words) s = .next t ∧ OnlyGang s t u ∧
        let g' := t.gang u.team u.gang
        g'.lanes = g.lanes ∧ g'.k = g.k ∧ g'.log = g.log ∧ g'.latch = g.latch ∧ g'.olc = g.olc ∧ g'.osc = g.osc ∧ g'.enc = g.enc ∧
        (g.instar.body = none →
          g'.gmode = g.gmode ∧ (∀ j, rowGet 0 g'.lc j = if j = lc.toNat then n else rowGet 0 g.lc j) ∧
          (∀ j, j < 3 → g'.lcbad.getLsbD j = (g.lcbad.getLsbD j && decide (j ≠ lc.toNat))) ∧
          g'.levels = { lc := lc.toNat, start := first, stop := last, depth := g.retDepth u.slices,
                        rdepth := (upTo 8).map (fun i => (g.slice i).stack.length) } :: g.levels ∧
          ∀ i, i < 8 → g'.slice i =
            if u.slices.getLsbD i then { placed { g.slice i with pc := first, wait := none } with sub := (g'.slice i).sub } else g.slice i))

/-- LEXIT: each slice of the unit leaves the innermost open level at its own return depth: the level closes, its counter becomes
0 and the slice goes to the word after the level's last; nothing else changes. It needs the unit whole and each slice at the
level's reconvergence depth, and traps with CONVERGENCE otherwise; where a slice has no such level it traps with LOOP_BUFFER.
When a word of the vector, predicate and uniform tables, or NOP, is the last word of the innermost open level's body and passes
its checks, outside a recipe's body, the counter of the level falls by one; where it is then not zero every slice at the level's
return depth goes to the start of the body and the level stays open, and else the level closes; the other slices go to the word
after. Every other statement whose word passes on says the same through PassesWord, whose last clause is this step. (R238,
R239.) -/
def Obligations.LexitAndLoopEnd : Prop :=
  (∀ i f s u vals s1 popped x,
    (∃ sp, (((arithmeticSpec i).or (immediateSpec i)).or (functionSpec i)).or (moveSpec i) = some sp ∧ f = sp.form) ∨
      (∃ sp, predSpec i = some sp ∧ f = { srcs := sp.srcs, mode := sp.mode }) ∨
      (∃ sp, uniformSpec i = some sp ∧ f = { ks := sp.ks, sidecar := true }) ∨ (i = .nop ∧ f = { sidecar := true }) →
    GangIssues i f u s vals s1 popped →
    (s.gang u.team u.gang).instar.body = none → (s.gang u.team u.gang).loopEnd u.slices (pcAt s u) = some x →
    let g := s.gang u.team u.gang
    let n := g.lcount x.lc - 1#32
    ∃ t, exec i s = .next t ∧ OnlyGang s t u ∧
      let g' := t.gang u.team u.gang
      g'.lcount x.lc = n ∧ (∀ j, j ≠ x.lc → g'.lcount j = g.lcount j) ∧
      g'.levels = (if n = 0#32 then g.levels.drop 1 else g.levels) ∧
      (∀ j, j < 8 → u.slices.getLsbD j = false → g'.slice j = g.slice j) ∧
      ∀ j, j < 8 → u.slices.getLsbD j = true →
        g'.slice j = { placed { g.slice j with pc := if n ≠ 0#32 ∧ (g.slice j).ret.length = x.depth then x.start else x.stop + 4#64, wait := none }
                       with sub := (g'.slice j).sub }) ∧
  ∀ s u vals s1 popped, GangIssues .lexit { jumps := true } u s vals s1 popped →
    let g := s.gang u.team u.gang
    let mine := fun (j : Nat) => g.levels.find? (fun x => x.depth = (g.slice j).ret.length)
    let named := ∀ j, j < 8 → u.slices.getLsbD j = true → (mine j).isSome = true
    let even := g.whole u.slices = true ∧ ∀ j, j < 8 → u.slices.getLsbD j = true → ∀ x, mine j = some x →
      ∀ n, n < 8 → u.slices.getLsbD n = true → (g.slice n).stack.length = rowGet 0 x.rdepth n
    (¬ named → exec .lexit s = .next (s.takeTrap u { cause := .loopBuffer })) ∧
    (named → ¬ even → exec .lexit s = .next (s.takeTrap u { cause := .convergence })) ∧
    (named → even → ∃ t, exec .lexit s = .next t ∧ OnlyGang s t u ∧
      Transfers g (t.gang u.team u.gang) u.slices (fun j y => { y with pc := ((mine j).map (fun x => x.stop + 4#64)).getD y.pc })
        (fun y => (upTo 8).any (fun j => u.slices.getLsbD j && decide (mine j = some y))))

/-- Where every slice of the unit is in the mask and every named slice that has not exited has arrived at this word, the arrived
slices, those held at this REGANG and the unit's, form one sub-gang, named by the lowest of them, and go to the next word:
nothing but control changes. Where a named live slice has not arrived, the unit waits and nothing else changes; where a slice of
the unit is not in the mask the word traps with CONVERGENCE for the lanes of those slices. (R231.) -/
def Obligations.RegangWord : Prop :=
  ∀ mask s u vals s1 popped, GangIssues (.regang mask) { merges := true } u s vals s1 popped →
    let g := s.gang u.team u.gang
    let arrived := g.regangHeld (pcAt s u) ||| u.slices
    (u.slices &&& ~~~ mask ≠ 0#8 →
      exec (.regang mask) s = .next (s.takeTrap u { cause := .convergence, detail := BitVec.ofNat 64 mask.toNat,
                                                     lanes := some (laneMask (u.slices &&& ~~~ mask) (fun _ => 15#4)) })) ∧
    (u.slices &&& ~~~ mask = 0#8 → g.live &&& mask &&& ~~~ arrived ≠ 0#8 →
      exec (.regang mask) s = .next (s.hold u (.regang mask))) ∧
    (u.slices &&& ~~~ mask = 0#8 → g.live &&& mask &&& ~~~ arrived = 0#8 →
      ∃ t, exec (.regang mask) s = .next t ∧ OnlyGang s t u ∧
        let g' := t.gang u.team u.gang
        ControlOnly g g' ∧
        (g.instar.body = none → (∀ x ∈ g.levels, x.stop ≠ pcAt s u) →
          (∀ j, j < 8 → arrived.getLsbD j = false → (g.slice j).exited = false → (g.slice j).sub ≠ lowSlice arrived) →
          (∀ i, i < 8 → g'.slice i =
            if arrived.getLsbD i then { sliceAt (g.slice i) (pcAt s u + 4#64) with sub := (g'.slice i).sub } else g.slice i) ∧
          ((∀ j, j < 8 → arrived.getLsbD j = true → (g.slice j).stack = []) →
            ∀ i, i < 8 → arrived.getLsbD i = true → (g'.slice i).sub = lowSlice arrived)))

/-- In each slice of the issuing unit the active lanes exit, for every GMODE and guard: X becomes X OR M. No vector register,
predicate, bracket, k register or memory but kernel memory changes, in this gang or in any other; and EXIT of a sidecar marks it
exited and changes nothing else but the metering counters. (R227, R207.) -/
def Obligations.ExitWord : Prop :=
  (∀ s u vals s1 popped, GangIssues .exit { sidecar := true, jumps := true } u s vals s1 popped →
    ∃ t, exec .exit s = .next t ∧
      (∀ v g, (t.gang v g).lanes = (s.gang v g).lanes ∧ (t.gang v g).k = (s.gang v g).k) ∧
      t.spad = s.spad ∧ t.obuf = s.obuf ∧ t.hbm = s.hbm ∧ t.far = s.far ∧
      ((s.gang u.team u.gang).instar.body = none → ∀ i, i < 8 →
        ((t.gang u.team u.gang).slice i).x =
          if u.slices.getLsbD i then ((s.gang u.team u.gang).slice i).x ||| ((s.gang u.team u.gang).slice i).m
          else ((s.gang u.team u.gang).slice i).x)) ∧
  (∀ s u, SidecarIssues .exit { sidecar := true, jumps := true } u s →
    ∃ t, exec .exit s = .next t ∧ OnlySide s t u ∧
      (t.team u.team).side = { (s.team u.team).side with exited := true, exitPc := (s.team u.team).side.pc, wait := none })

/-! ### Mode and system words, and taking a trap -/

/-- SETMODE gives GMODE the value K.a[31:0], and traps with ILLEGAL_MODE where K.a[63:32] is not zero; SETMK replaces the bits
of GMODE that K.b[31:0] selects by those of K.a[31:0]; both trap with ILLEGAL_MODE where the new value breaks LegalMode, and the
trap changes only what taking a trap changes. GETMODE writes GMODE, zero-extended, into K.d. Nothing else changes: no counter,
no other register, and no Instar region closes; the unit goes to its next word. (R69.) -/
def Obligations.ModeWords : Prop :=
  let legal := fun (m : Half) => m.extractLsb' 22 10 = 0#10 ∧ m.extractLsb' 14 2 = 0#2 ∧ (m.extractLsb' 0 4).toNat ≤ 13 ∧
    ¬ (m.extractLsb' 8 3 = 0#3 ∧ m.getLsbD 11 = true)
  (∀ i f ok new word s u vals s1 popped, encode i = some word →
    ((∃ ka, i = .setmode ka ∧ f = { ks := [ka] } ∧ new = ((s.gang u.team u.gang).kreg ka).setWidth 32 ∧
        ok = decide (((s.gang u.team u.gang).kreg ka).extractLsb' 32 32 = 0#32)) ∨
     (∃ ka kb, i = .setmk ka kb ∧ f = { ks := [ka, kb] } ∧ ok = true ∧
        new = (((s.gang u.team u.gang).gmode &&& ~~~ (((s.gang u.team u.gang).kreg kb).setWidth 32)) |||
          (((s.gang u.team u.gang).kreg ka).setWidth 32 &&& ((s.gang u.team u.gang).kreg kb).setWidth 32)))) →
    GangIssues i f u s vals s1 popped →
    let g := s.gang u.team u.gang
    (ok = true ∧ legal new → ∃ t, exec i s = .next t ∧ OnlyGang s t u ∧
      ControlOnly { g with gmode := new } (t.gang u.team u.gang) ∧ PassesWord { g with gmode := new } (t.gang u.team u.gang) u.slices ∧
      (g.instar.body = none → (t.gang u.team u.gang).gmode = new ∧ (t.gang u.team u.gang).instar.rewindable = (g.instar.rewindable && !popped))) ∧
    (¬ (ok = true ∧ legal new) → exec i s = .next (s.takeTrap u
      { cause := .illegalMode, detail := BitVec.ofNat 64 (word.toNat + new.toNat * 2 ^ 32) }))) ∧
  ∀ kd s u vals s1 popped, GangIssues (.getmode kd) {} u s vals s1 popped →
    ∃ t, exec (.getmode kd) s = .next t ∧ OnlyGang s t u ∧
      KResult (s.gang u.team u.gang) (t.gang u.team u.gang) u.slices kd ((s.gang u.team u.gang).gmode.setWidth 64)

/-- CSRR of a uniform register writes its value, zero-extended, into K.d: the gang, team, grid and home core numbers, the
cluster, the device, the launch depth, the counts of gangs, teams, clusters and channels, TE, TL, UNC, TSTATE and the
comparators. CSRR of LANE, SLICE or INVST writes the lane's value into vector register d in every active lane, whatever the
guard. Nothing else changes. (R18, R19, R20, R209, R309, R310.) -/
def Obligations.CsrReads : Prop :=
  (∀ n v s u, (n, v) ∈ ([(0x002#12, u.gang), (0x003#12, (s.team u.team).num), (0x004#12, (s.team u.team).grid), (0x005#12, (s.team u.team).home),
      (0x006#12, (s.team u.team).home / 4), (0x007#12, s.devid.toNat), (0x008#12, (s.grid (s.team u.team).grid).depth),
      (0x009#12, (s.team u.team).ngang), (0x00A#12, (s.grid (s.team u.team).grid).desc.teams), (0x00B#12, s.nclusters), (0x00C#12, s.nchan),
      (0x010#12, s.tb.te), (0x011#12, s.tb.tl), (0x012#12, s.tb.eps), (0x013#12, s.tb.tstate.toNat),
      (0x030#12, ((s.gang u.team u.gang).comparator 0).toNat), (0x031#12, ((s.gang u.team u.gang).comparator 1).toNat),
      (0x032#12, ((s.gang u.team u.gang).comparator 2).toNat), (0x033#12, ((s.gang u.team u.gang).comparator 3).toNat)] :
      List (BitVec 12 × Nat)) →
    ∀ d vals s1 popped, GangIssues (.csrr d n) { allActive := true } u s vals s1 popped →
    ∃ t, exec (.csrr d n) s = .next t ∧ OnlyGang s t u ∧
      KResult (s.gang u.team u.gang) (t.gang u.team u.gang) u.slices (d.setWidth 5) (BitVec.ofNat 64 v)) ∧
  ∀ d n s u vals s1 popped, (n = 0x000#12 ∨ n = 0x001#12 ∨ n = 0x020#12) →
    GangIssues (.csrr d n) { dsts := [d], allActive := true } u s vals s1 popped →
    ∃ t, exec (.csrr d n) s = .next t ∧ OnlyGang s t u ∧
      VectorResult (s.gang u.team u.gang) (t.gang u.team u.gang) u.slices ((s.gang u.team u.gang).activeOf u.slices) d
        (fun l => if n = 0x000#12 then BitVec.ofNat 64 l else if n = 0x001#12 then BitVec.ofNat 64 (l / 4)
                  else ((s.gang u.team u.gang).lane l).invst) ∧
      (t.gang u.team u.gang).log = (s.gang u.team u.gang).log

/-- A CSRW to INVST whose value in every active lane is a command of the layout acts in those lanes: command 0 replaces ACTIVE,
ITER and STATUS; 4 and 5 load the low and the high endpoint of bracket n and clear the three; 6 and 7 copy the low and the high
endpoint of bracket n into VIEW. Every other register, and every other lane, is as it was. A value that breaks the layout in
some active lane traps with ILLEGAL_INSTRUCTION, step 0, and reports those lanes. INVST_SET_STATE, INVST_LOAD_LO, INVST_LOAD_HI,
INVST_VIEW_LO and INVST_VIEW_HI are the acts of the commands alone: they change the same of the active lanes and nothing else at
all. (R19, R169, R171, R369.) -/
def Obligations.InvstCommands : Prop :=
  (∀ a s u vals s1 popped, GangIssues (.csrw a 0x020#12) { srcs := [⟨a, false⟩], named := [a], allActive := true } u s vals s1 popped →
    let g := s.gang u.team u.gang
    let active := g.activeOf u.slices
    let bad := maskOf (fun l => active.getLsbD l && !(invstLegal (valOf vals 0 l)))
    (bad = 0#32 → ∃ t, exec (.csrw a 0x020#12) s = .next t ∧ OnlyGang s t u ∧
      LanesChange g (t.gang u.team u.gang) u.slices active (fun l => InvstDone ((valOf vals 0 l).extractLsb' 61 3).toNat
        ((valOf vals 0 l).extractLsb' 32 2) ((valOf vals 0 l).setWidth 32))) ∧
    (bad ≠ 0#32 → exec (.csrw a 0x020#12) s = .next (s.takeTrap u
      { cause := .illegalInstruction, lanes := some bad,
        detail := BitVec.ofNat 64 ((encode (.csrw a 0x020#12)).getD 0#32).toNat }))) ∧
  (∀ v : Word, invstLegal v = true ↔ v.extractLsb' 34 27 = 0#27 ∧
    ((v.extractLsb' 61 3 = 0#3 ∧ v.extractLsb' 32 2 = 0#2 ∧ v.extractLsb' 9 23 = 0#23) ∨ v.extractLsb' 61 3 = 4#3 ∨ v.extractLsb' 61 3 = 5#3 ∨
      ((v.extractLsb' 61 3 = 6#3 ∨ v.extractLsb' 61 3 = 7#3) ∧ v.extractLsb' 0 32 = 0#32))) ∧
  ∀ i cmd n w s u, ((∃ st, i = .invstSetState st ∧ cmd = 0 ∧ w = st.setWidth 32) ∨ (i = .invstLoadLo n w ∧ cmd = 4) ∨
      (i = .invstLoadHi n w ∧ cmd = 5) ∨ (i = .invstViewLo n ∧ cmd = 6) ∨ (i = .invstViewHi n ∧ cmd = 7)) →
    s.issuer = some u → s.issuable u = true → u.gang ≠ 16 →
    ∃ t, exec i s = .next t ∧ OnlyGang s t u ∧ t.parts = s.parts ∧ (t.team u.team).queues = (s.team u.team).queues ∧
      let g := s.gang u.team u.gang
      t.gang u.team u.gang = { g with lanes := (t.gang u.team u.gang).lanes } ∧
      ∀ l, l < 32 → if (g.activeOf u.slices).getLsbD l = true then InvstDone cmd n w (g.lane l) ((t.gang u.team u.gang).lane l)
        else (t.gang u.team u.gang).lane l = g.lane l

/-- CSRW to DBPC0 to DBPC3 writes K.a into the comparator where bits 63:48 and bit 1 are zero, and traps with
ILLEGAL_INSTRUCTION, step 0, where one is not; nothing else changes. CSRW to any other register but INVST traps with
ILLEGAL_INSTRUCTION, step 0. (R18, R19, R245, R369.) -/
def Obligations.ComparatorWrites : Prop :=
  (∀ a (n : BitVec 2) s u vals s1 popped, GangIssues (.csrw a (0x030#12 + n.setWidth 12)) { ks := [a.setWidth 5], allActive := true } u s vals s1 popped →
    let g := s.gang u.team u.gang
    let v := g.kreg (a.setWidth 5)
    (v.extractLsb' 48 16 = 0#16 ∧ v.getLsbD 1 = false → ∃ t g', exec (.csrw a (0x030#12 + n.setWidth 12)) s = .next t ∧ OnlyGang s t u ∧
      g' = { g with dbpc := g'.dbpc } ∧ (∀ m : BitVec 2, g'.comparator m.toNat = if m = n then v else g.comparator m.toNat) ∧
      ControlOnly g' (t.gang u.team u.gang) ∧ PassesWord g' (t.gang u.team u.gang) u.slices) ∧
    (¬ (v.extractLsb' 48 16 = 0#16 ∧ v.getLsbD 1 = false) →
      exec (.csrw a (0x030#12 + n.setWidth 12)) s = .next (s.takeTrap u
        { cause := .illegalInstruction, detail := BitVec.ofNat 64 ((encode (.csrw a (0x030#12 + n.setWidth 12))).getD 0#32).toNat }))) ∧
  ∀ a n r s u vals s1 popped, Csr.ofNum n = some r → r.writable = false →
    GangIssues (.csrw a n) { own := if r.perLane then [⟨a, false⟩] else [], named := if r.perLane then [a] else [],
                             ks := if r.perLane then [] else [a.setWidth 5], allActive := true } u s vals s1 popped →
    exec (.csrw a n) s = .next (s.takeTrap u { cause := .illegalInstruction, detail := BitVec.ofNat 64 ((encode (.csrw a n)).getD 0#32).toNat })

/-- The stopped slices (those the trap names, else the unit's), or the sidecar, stand at the reported word, note it, wait for
nothing, and know whether their record is held; no comparator is skipped for them any more, and a search that any of them was in
ends. The record has the layout of R367: KIND 0, the cause's code, FLAGS, SLICES, GANG, PART, CORE, TEAM, GRID, PC, LANES, the
three loop counters, PRODPC, DETAIL and SEQ; SEQ then rises by one and the kernel is interrupted. The record enters the trap
ring, or waits behind the partition's held records where some are held, where the ring is full or where it is not set. No
register, counter, predicate, memory but the ring, gang or team else changes. TRAP takes the trap SOFT_TRAP, and BKPT the trap
BREAKPOINT with the comparator flag clear, at its own word, with the word's 24-bit code in DETAIL; nothing else changes. (R71,
R72, R244, R364, R365, R366, R367, R368, R374.) -/
def Obligations.TrapTaken : Prop :=
  (∀ i cause code s u vals s1 popped, ((i = .trap code ∧ cause = .softTrap) ∨ (i = .bkpt code ∧ cause = .breakpoint)) →
    GangIssues i {} u s vals s1 popped →
    exec i s = .next (s.takeTrap u { cause := cause, detail := code.setWidth 64 })) ∧
  ∀ (s : State) (u : Issuer) (x : TrapInfo), let tm := s.team u.team
    let pt := s.part tm.part
    let g := tm.gang u.gang
    let t := s.takeTrap u x
    let room := pt.held.isEmpty && pt.trap.set && !ringFull s.kmem pt.trap
    let held := if room then none else some pt.trapSeq
    let slices := if u.gang = 16 then 0#8 else x.slices.getD u.slices
    let lanes := if u.gang = 16 then 0#32 else x.lanes.getD (g.activeOf u.slices)
    t = { s with teams := t.teams, parts := t.parts, kmem := t.kmem, notices := s.notices ++ [.trapped tm.part pt.trapSeq] } ∧
    (∀ v, v ≠ u.team → t.team v = s.team v) ∧ (∀ q, q ≠ tm.part → t.part q = s.part q) ∧
    (∃ bs, bs.length = 64 ∧ field bs 0 1 = 0 ∧ field bs 1 1 = x.cause.code ∧
      field bs 2 1 = (if u.gang = 16 then 1 else 0) + (if x.inv then 2 else 0) + (if u.gang ≠ 16 ∧ g.instar.body.isSome then 4 else 0) +
        (if u.gang ≠ 16 ∧ g.instar.rewindable then 8 else 0) + (if x.cmp then 16 else 0) ∧
      field bs 3 1 = slices.toNat ∧ field bs 4 1 = u.gang % 256 ∧ field bs 5 1 = tm.part % 256 ∧ field bs 6 2 = tm.core % 65536 ∧
      field bs 8 4 = tm.num % 2 ^ 32 ∧ field bs 12 4 = tm.grid % 2 ^ 32 ∧
      field bs 16 8 = (if u.gang = 16 then tm.side.pc else g.pcOf u.slices).toNat ∧ field bs 24 4 = lanes.toNat ∧
      (∀ n, n < 3 → field bs (28 + 4 * n) 4 = if u.gang = 16 then 0 else (g.lcount n).toNat) ∧
      field bs 40 8 = x.prodpc.toNat ∧ field bs 48 8 = x.detail.toNat ∧ field bs 56 8 = pt.trapSeq % 2 ^ 64 ∧
      t.kmem = (if room then ringPush s.kmem pt.trap bs else s.kmem) ∧
      t.part tm.part = { pt with trapSeq := pt.trapSeq + 1, held := if room then pt.held else pt.held ++ [⟨pt.trapSeq, bs⟩] }) ∧
    (u.gang = 16 → t.team u.team = { tm with side := { tm.side with stopped := true, wait := none, held := held } }) ∧
    (u.gang ≠ 16 → t.team u.team = { tm with gangs := (t.team u.team).gangs, queues := (t.team u.team).queues } ∧
      (∀ q, ((t.team u.team).queue q).entries = (tm.queue q).entries) ∧
      (∀ v, v ≠ u.gang → (t.team u.team).gang v = tm.gang v) ∧ (t.team u.team).gang u.gang = { g with
        slices := ((t.team u.team).gang u.gang).slices, skipCmp := g.skipCmp &&& ~~~ slices,
        searches := g.searches.filter (fun r => r.slices &&& slices = 0#8) } ∧
      ∀ i, i < 8 → ((t.team u.team).gang u.gang).slice i =
        if slices.getLsbD i then { g.slice i with stopped := true, stopPc := some (g.slice i).pc, wait := none, held := held } else g.slice i)

/-- Entry i of a ring lies at base + 64 + (i mod N) times the entry's size. After an entry is written the bytes at that place
are the entry's and PRODUCER is one more; every byte outside the entry and PRODUCER is as it was. A ring that logs drops an
entry where it is full, and then only DROPPED rises; a ring that is not set takes nothing. (R355, R366.) -/
def Obligations.RingEntry : Prop :=
  ∀ m r e, Memory.wf m = true →
    let at_ := r.base + 64 + (ringProducer m r % r.n) * e.length
    memRead (ringPush m r e) at_ e.length = e ∧ ringProducer (ringPush m r e) r = (ringProducer m r + 1) % 2 ^ 64 ∧
    (∀ a, (a < at_ ∨ at_ + e.length ≤ a) → (a < r.base ∨ r.base + 8 ≤ a) → memGet (ringPush m r e) a = memGet m a) ∧
    (r.set = true → ringFull m r = true →
      memNat (ringLog m r e) (r.base + 16) 8 = (memNat m (r.base + 16) 8 + 1) % 2 ^ 64 ∧
      ∀ a, (a < r.base + 16 ∨ r.base + 24 ≤ a) → memGet (ringLog m r e) a = memGet m a) ∧
    (r.set = true → ringFull m r = false → ringLog m r e = ringPush m r e) ∧ (r.set = false → ringLog m r e = m)

/-- Where the unit is whole and the four header words at the INSTAR's target can be fetched with bits 31:8 of the last zero, the
gang becomes rewindable with nothing dirty, the snapshot holds the address of the next word, each slice's masks, RC and stacks,
the levels, loop counters, GMODE and the predicates, the recipe's address, length and masks are those of the header, and the
gang's quarantined records become FREE; in a team that is being saved the gang counts as rewound. A header that breaks R378
traps with ILLEGAL_INSTRUCTION, step 1, and one with a word that cannot be fetched with step 0 (assumption 17: DEDUCED); where a
word of it lies in a page that is being zeroed the unit waits. Of a unit that is not whole the word has no effect. Nothing else
changes but what the header's fetch meters and reports. (R162, R235, R349, R369, R377, R378.) -/
def Obligations.InstarWord : Prop :=
  ∀ off s u vals s1 popped, GangIssues (.instar off) {} u s vals s1 popped →
    let g := s.gang u.team u.gang
    let at_ := pcAt s u + (off.signExtend 64 <<< 2)
    (g.whole u.slices = false → ∃ t, exec (.instar off) s = .next t ∧ OnlyGang s t u ∧ ControlOnly g (t.gang u.team u.gang) ∧
      PassesWord g (t.gang u.team u.gang) u.slices) ∧
    (g.whole u.slices = true → s.fetchWords (s.team u.team).part at_ 4 = .error .fault →
      exec (.instar off) s = .next ((s.noteWords (s.team u.team).part at_ 4).takeTrap u
        { cause := .illegalInstruction, detail := BitVec.ofNat 64 ((encode (.instar off)).getD 0#32).toNat })) ∧
    (g.whole u.slices = true → s.fetchWords (s.team u.team).part at_ 4 = .error .held → exec (.instar off) s = .next (s.hold u .fetch)) ∧
    (g.whole u.slices = true → ∀ w0 w1 w2 w3, s.fetchWords (s.team u.team).part at_ 4 = .ok [w0, w1, w2, w3] →
      (w3.extractLsb' 8 24 ≠ 0#24 → exec (.instar off) s = .next ((s.noteWords (s.team u.team).part at_ 4).takeTrap u
        { cause := .illegalInstruction, detail := BitVec.ofNat 64 (((encode (.instar off)).getD 0#32).toNat + 2 ^ 32) })) ∧
      (w3.extractLsb' 8 24 = 0#24 → ∃ t g', exec (.instar off) s = .next t ∧
        t = { s with teams := t.teams, parts := t.parts, cores := t.cores } ∧
        (∀ c r, t.record c r = if c = (s.team u.team).home ∧ (s.record c r).state = .quarantined ∧ (s.record c r).team = u.team ∧
            (s.record c r).by_ = u.gang then { s.record c r with state := .free } else s.record c r) ∧
        (∀ p, t.part p = { s.part p with counters := (t.part p).counters }) ∧ (∀ v, v ≠ u.team → t.team v = s.team v) ∧
        t.team u.team = { s.team u.team with
          gangs := (t.team u.team).gangs,
          rewound := if (s.team u.team).status matches .saving _ then (s.team u.team).rewound ||| (1#16 <<< u.gang) else (s.team u.team).rewound } ∧
        (∀ v, v ≠ u.gang → (t.team u.team).gang v = (s.team u.team).gang v) ∧
        g' = { g with instar := {
          rewindable := true, body := none, vdirty := 0, kdirty := 0, recipe := at_, blen := w3.toNat, vmask := w1 ++ w0, kmask := w2,
          snap := {
            pc := pcAt s u + 4#64, levels := g.levels, lc := g.lc, gmode := g.gmode, preds := (upTo 32).map (fun l => (g.lane l).p),
            slices := (upTo 8).map (fun i => ⟨pcAt s u + 4#64, (g.slice i).m, (g.slice i).x, (g.slice i).rc, (g.slice i).stack, (g.slice i).ret⟩) } } } ∧
        ControlOnly g' (t.gang u.team u.gang) ∧ PassesWord g' (t.gang u.team u.gang) u.slices))

/-! ### The invert prefix -/

/-- Where the routine's words can be fetched and meet every condition, no level that ends with the routine stops it, and the
target, the routine's inputs and its destinations are there: a unit in which no lane participates passes the routine by. Else
each participating lane evaluates its endpoints and the unit stands at its INV word with a run that holds the routine and the
lanes' brackets; each further issue of the word makes one narrowing pass while a lane searches, and then the final pass: each
lane of the run has its argument register FULL with the lane's result and ACTIVE cleared, and the unit goes past the routine. A
narrowing pass either ends a lane's search, its result the high endpoint and the bracket's width, in the order of ET, at most 2
to the tolerance, or halves the width. Only the argument, the routine's destinations, the bracket, INVST, the log, the run and
control change, in lanes of the run. Where some lane has violated the word traps with MONOTONE and reports those lanes. That one
issue makes one pass is the model's reading (assumption 15: DEDUCED), and the registers left free after MONOTONE take 2048 free
values (assumption 1: DESIGN CHOICE). (R166, R167, R168, R169, R170, R172, R173, R174, R175, R178, R181.) -/
def Obligations.InvWord : Prop :=
  ∀ x t br tol len dec,
    let i : Instr := .inv x t br tol len dec
    let word := (encode i).getD 0#32
    let leaves := fun (g1 g2 : Gang) (slices : BitVec 8) (last : Addr) => ControlOnly g1 g2 ∧
      (g1.loopEnd slices last = none → Transfers g1 g2 slices (fun _ y => { y with pc := last + 4#64 }) (fun _ => false))
    let stays := fun (g1 g2 : Gang) (slices : BitVec 8) => Transfers g1 g2 slices (fun _ y => y) (fun _ => false)
    let worked := fun (g g1 : Gang) => g1 = { g with lanes := g1.lanes, latch := g1.latch, instar := g1.instar, log := g1.log,
                                                     searches := g1.searches } ∧
      g1.instar = { g.instar with rewindable := g1.instar.rewindable, vdirty := g1.instar.vdirty }
    let fails := fun (s : State) (u : Issuer) (bad part : Half) => ∃ s' : State,
      exec i s = .next (s'.takeTrap u { cause := .monotone, lanes := some bad }) ∧
      s' = { s with teams := s'.teams, parts := s'.parts, fresh := s.fresh + 2048 } ∧ (∀ v, v ≠ u.team → s'.team v = s.team v) ∧
      (s'.gang u.team u.gang).slices = (s.gang u.team u.gang).slices ∧
      ∀ l, l < 32 → part.getLsbD l = false → (s'.gang u.team u.gang).lane l = (s.gang u.team u.gang).lane l
    let violated := fun (xs : List (Nat × Search)) => maskOf (fun l => xs.any (fun y => y.1 = l && y.2.violated))
    (∀ s u vals s1 popped, GangIssues i
        { named := [x, t], mode := fun gm => readsEt invTypes gm && !isQueue gm x && !isQueue gm t, jumps := true, routine := len.toNat + 1 }
        u s vals s1 popped → s.running word = none →
      let c := ctxOf i u s vals
      let g := s.gang u.team u.gang
      let n := len.toNat + 1
      let last := pcAt s u + BitVec.ofNat 64 (4 * n)
      let inside := fun i => g.levels.all (fun y =>
        !(y.start.toNat ≤ (pcAt s u).toNat && (pcAt s u).toNat ≤ y.stop.toNat) || (pcAt s u).toNat + 4 * (i + 1) ≤ y.stop.toNat)
      ∀ hs is ws, s.fetchWords (s.team u.team).part (pcAt s u + 4#64) n = .ok hs → routineWords s c hs = .ok is →
        routineOf c x t inside 0 [x] [] is = .ok ws → routineLoopStop c last = none →
      let regs := x :: ws.map (·.d)
      let start := (lanesOf (partOf s u)).map (fun l =>
        let y : Search := { lane := g.lane l, u := subGet 32 ((g.lane l).vreg t).val 0, lo := subGet 32 ((g.lane l).bracket br) 0,
                            hi := subGet 32 ((g.lane l).bracket br) 1 }
        (l, y.endpoints (etOf s u) (mdOf s u) ws x dec))
      (partOf s u = 0#32 → ∃ t', exec i s = .next t' ∧ OnlyGang s t' u ∧ leaves g (t'.gang u.team u.gang) u.slices last) ∧
      (partOf s u ≠ 0#32 → readStop g ⟨t, false⟩ (partOf s u) = none → (∀ r ∈ routineInputs x [] ws, readStop g r (partOf s u) = none) →
        owedStop g regs (partOf s u) = none → operandStop (s.team u.team) u.gang s.cycle regs (partOf s u) = none →
        (violated start = 0#32 → ∃ t' g1, exec i s = .next t' ∧ OnlyGang s t' u ∧ stays g1 (t'.gang u.team u.gang) u.slices ∧ worked g g1 ∧
          (∀ l, l < 32 → (partOf s u).getLsbD l = false → g1.lane l = g.lane l) ∧ (∀ l y, (l, y) ∈ start → g1.lane l = y.lane) ∧
          g1.searches = g.searches.filter (fun r => r.slices ≠ u.slices) ++
            [{ slices := u.slices, pc := pcAt s u, word := word, routine := hs, gmode := g.gmode, part := partOf s u,
               lanes := start.map (fun y => (y.1, y.2.toInvLane)) }]) ∧
        (violated start ≠ 0#32 → fails s u (violated start) (partOf s u)))) ∧
    (∀ s u r, s.running word = some (u, r) → (r.lanes.map (·.1)).Nodup → (∀ y ∈ r.lanes, y.1 < 32 ∧ r.part.getLsbD y.1 = true) →
      let g := s.gang u.team u.gang
      let et := (gmEt r.gmode).getD .i8
      let md := modesOf r.gmode
      let on := r.lanes.any (fun y => y.2.searching)
      let last := r.pc + BitVec.ofNat 64 (4 * r.routine.length)
      let xs := r.pass g (fun y => if on then y.narrow et md r.words x br tol.toNat dec else y.final et md r.words x)
      (violated xs = 0#32 → ∃ t' g1, exec i s = .next t' ∧ OnlyGang s t' u ∧ worked g g1 ∧
        (∀ l, l < 32 → r.part.getLsbD l = false → g1.lane l = g.lane l) ∧ (∀ l y, (l, y) ∈ xs → g1.lane l = y.lane) ∧
        (on = true → stays g1 (t'.gang u.team u.gang) u.slices ∧
          g1.searches = g.searches.filter (fun r => r.slices ≠ u.slices) ++ [{ r with lanes := xs.map (fun y => (y.1, y.2.toInvLane)) }]) ∧
        (on = false → leaves g1 (t'.gang u.team u.gang) u.slices last ∧ g1.searches = g.searches.filter (fun r => r.slices ≠ u.slices) ∧
          ∀ y ∈ r.lanes, (g1.lane y.1).vreg x = { val := BitVec.ofNat 64 y.2.res } ∧ (g1.lane y.1).invst.getLsbD 8 = false)) ∧
      (violated xs ≠ 0#32 → fails s u (violated xs) r.part)) ∧
    ∀ (y : Search) et md ws, invTypes et = true → y.searching = true → y.lo < 2 ^ 32 → y.hi < 2 ^ 32 → ord et y.lo ≤ ord et y.hi →
      let y' := y.narrow et md ws x br tol.toNat dec
      (ord et y.hi - ord et y.lo ≤ 2 ^ tol.toNat →
        y'.searching = false ∧ y'.res = y.hi ∧ y'.lo = y.lo ∧ y'.hi = y.hi ∧ y'.violated = y.violated) ∧
      (2 ^ tol.toNat < ord et y.hi - ord et y.lo → y'.violated = true ∨
        (y'.searching = true ∧ y'.lo < 2 ^ 32 ∧ y'.hi < 2 ^ 32 ∧ ord et y.lo ≤ ord et y'.lo ∧ ord et y'.lo ≤ ord et y'.hi ∧ ord et y'.hi ≤ ord et y.hi ∧
          2 * (ord et y'.hi - ord et y'.lo) ≤ ord et y.hi - ord et y.lo + 1))

/-! ### Cross-lane words -/

/-- Where every member has arrived, the sources can be read and the destination is awaited by nothing: SHFL writes into each
contributor the sub-elements that its b selects, 0 for a lane that is no member; BCST the value of one lane, or 0; REDUCE the
root of the fixed tree over the contributors, and SCAN the combination of the lanes up to the contributor's, with the causes of
every combination logged for the contributor; VOTE.ANY and VOTE.ALL the OR and the AND of the contributors' predicates, and
VOTE.BALLOT their mask into K.d. Nothing else of any register changes; the unit goes to its next word, and slices of other
sub-gangs that were held at the word go on there. A zero mask makes the word do nothing, without waiting. (R78, R134, R135,
R136, R137, R138, R242.) -/
def Obligations.CrossLaneWords : Prop :=
  (∀ i f kf s u vals s1 popped,
    ((∃ d a b wa wb, i = .shfl d a b wa wb kf ∧ f = { own := [⟨a, wa⟩, ⟨b, wb⟩], named := [d], ks := [kf.setWidth 5], mode := fun gm => readsEt notSmall gm && !isQueue gm d }) ∨
     (∃ d a l wa, i = .bcst d a l wa kf ∧ f = { own := [⟨a, wa⟩], named := [d], ks := [kf.setWidth 5], mode := fun gm => readsEt notSmall gm && !isQueue gm d }) ∨
     (∃ op d a wa, (i = .reduce op d a wa kf ∨ ∃ ex, i = .scan op ex d a wa kf) ∧
       f = { own := [⟨a, wa⟩], named := [d], ks := [kf.setWidth 5], mode := fun gm => readsEt (combineLegal op) gm && !isQueue gm d }) ∨
     (∃ d p, (i = .voteAny d p kf ∨ i = .voteAll d p kf ∨ ∃ kd, i = .voteBallot kd p kf) ∧ f = { ks := [kf.setWidth 5] })) →
    GangIssues i f u s vals s1 popped → ((s.gang u.team u.gang).kreg (kf.setWidth 5)).setWidth 32 = 0#32 →
    ∃ t, exec i s = .next t ∧ OnlyGang s t u ∧ ControlOnly (s.gang u.team u.gang) (t.gang u.team u.gang) ∧
      PassesWord (s.gang u.team u.gang) (t.gang u.team u.gang) u.slices) ∧
  (∀ d a b wa wb kf s u vals s1 popped members contributors held,
    GangIssues (.shfl d a b wa wb kf) { own := [⟨a, wa⟩, ⟨b, wb⟩], named := [d], ks := [kf.setWidth 5], mode := fun gm => readsEt notSmall gm && !isQueue gm d } u s vals s1 popped →
    Meets s u kf members contributors held →
    let g := s.gang u.team u.gang
    let c := ctxOf (.shfl d a b wa wb kf) u s vals
    let w := (etOf s u).width
    owedStop g [d] contributors = none → operandStop (s.team u.team) u.gang s.cycle [d] contributors = none →
    ∀ vb0 s0 va s2 vb s3, readOwn c ⟨b, wb⟩ contributors s = .ok (vb0, s0) →
      readOwn c ⟨a, wa⟩ (maskOf (fun x => members.getLsbD x &&
        (lanesOf contributors).any (fun l => (upTo (etOf s u).count).any (fun i => subGet w (rowGet 0 vb0 l) i % 32 = x)))) s = .ok (va, s2) →
      readOwn c ⟨b, wb⟩ contributors s2 = .ok (vb, s3) →
    ∃ t, exec (.shfl d a b wa wb kf) s = .next t ∧ OnlyGang s t u ∧ Crosses g (t.gang u.team u.gang) u.slices held ∧ (t.gang u.team u.gang).log = g.log ∧
      OnlyV g (t.gang u.team u.gang) contributors d (fun l => packWord w ((upTo (etOf s u).count).map (fun i =>
        let x := subGet w (rowGet 0 vb l) i
        if members.getLsbD (x % 32) then subGet w (rowGet 0 va (x % 32)) (x / 32 % (etOf s u).count) else 0)))) ∧
  (∀ d a lane wa kf s u vals s1 popped members contributors held,
    GangIssues (.bcst d a lane wa kf) { own := [⟨a, wa⟩], named := [d], ks := [kf.setWidth 5], mode := fun gm => readsEt notSmall gm && !isQueue gm d } u s vals s1 popped →
    Meets s u kf members contributors held →
    let g := s.gang u.team u.gang
    owedStop g [d] contributors = none → operandStop (s.team u.team) u.gang s.cycle [d] contributors = none →
    ∀ va s2, readOwn (ctxOf (.bcst d a lane wa kf) u s vals) ⟨a, wa⟩ (if members.getLsbD lane.toNat && contributors ≠ 0#32 then 1#32 <<< lane.toNat else 0#32) s = .ok (va, s2) →
    ∃ t, exec (.bcst d a lane wa kf) s = .next t ∧ OnlyGang s t u ∧ Crosses g (t.gang u.team u.gang) u.slices held ∧ (t.gang u.team u.gang).log = g.log ∧
      OnlyV g (t.gang u.team u.gang) contributors d (fun _ => if members.getLsbD lane.toNat then rowGet 0 va lane.toNat else 0#64)) ∧
  (∀ i op d a wa kf value s u vals s1 popped members contributors held,
    ((i = .reduce op d a wa kf ∧ value = fun f leaves _ => rowGet none (treeLevel f leaves 5) 0) ∨
     (∃ ex, i = .scan op ex d a wa kf ∧ value = fun f leaves l => coverFrom f leaves (if ex then l else l + 1) 6 0 none)) →
    GangIssues i { own := [⟨a, wa⟩], named := [d], ks := [kf.setWidth 5], mode := fun gm => readsEt (combineLegal op) gm && !isQueue gm d } u s vals s1 popped →
    Meets s u kf members contributors held →
    let g := s.gang u.team u.gang
    owedStop g [d] contributors = none → operandStop (s.team u.team) u.gang s.cycle [d] contributors = none →
    ∀ va s2, readOwn (ctxOf i u s vals) ⟨a, wa⟩ contributors s = .ok (va, s2) →
    let leaves : List Node := (upTo 32).map (fun l => if contributors.getLsbD l then some (rowGet 0 va l, noCause) else none)
    let res := fun l => (value (combine op (etOf s u) (mdOf s u)) leaves l).getD (identityWord op (etOf s u), noCause)
    ∃ t, exec i s = .next t ∧ OnlyGang s t u ∧ Crosses g (t.gang u.team u.gang) u.slices held ∧
      OnlyV g (t.gang u.team u.gang) contributors d (fun l => (res l).1) ∧
      (t.gang u.team u.gang).log = logRaised s u contributors (fun l => (res l).2)) ∧
  (∀ i d p kf value s u vals s1 popped members contributors held,
    ((i = .voteAny d p kf ∧ value = (lanesOf contributors).any (fun l => ((s.gang u.team u.gang).lane l).pred p)) ∨
     (i = .voteAll d p kf ∧ value = (lanesOf contributors).all (fun l => ((s.gang u.team u.gang).lane l).pred p))) →
    GangIssues i { ks := [kf.setWidth 5] } u s vals s1 popped → Meets s u kf members contributors held →
    ∃ t, exec i s = .next t ∧ OnlyGang s t u ∧ Crosses (s.gang u.team u.gang) (t.gang u.team u.gang) u.slices held ∧
      OnlyP (s.gang u.team u.gang) (t.gang u.team u.gang) contributors d (fun _ => value)) ∧
  ∀ kd p kf s u vals s1 popped members contributors held,
    GangIssues (.voteBallot kd p kf) { ks := [kf.setWidth 5] } u s vals s1 popped → Meets s u kf members contributors held →
    ∃ t, exec (.voteBallot kd p kf) s = .next t ∧ OnlyGang s t u ∧ Crosses (s.gang u.team u.gang) (t.gang u.team u.gang) u.slices held ∧
      OnlyK (s.gang u.team u.gang) (t.gang u.team u.gang) kd ((maskOf (fun l => contributors.getLsbD l && ((s.gang u.team u.gang).lane l).pred p)).setWidth 64)

/-- For SHFL, BCST, REDUCE, SCAN and the votes, with a mask that is not zero, and the mask of the first arrival at the word
deciding which lanes are named: an exited lane among them traps with MEMBER_EXITED in every arrived slice; a named lane of an
arrived slice that is not active traps with CONVERGENCE and reports those lanes; a mask that differs from the first arrival's
traps with CONVERGENCE and reports the lanes that differ; and where a named lane has not arrived the unit waits, with its mask.
DETAIL is the first arrival's mask. LANEK writes the lane's value into K.d where the lane is active, and otherwise traps with
CONVERGENCE and reports that lane. (R134, R242, R369.) -/
def Obligations.MemberRows : Prop :=
  (∀ i f kf s u vals s1 popped,
    ((∃ d a b wa wb, i = .shfl d a b wa wb kf ∧ f = { own := [⟨a, wa⟩, ⟨b, wb⟩], named := [d], ks := [kf.setWidth 5], mode := fun gm => readsEt notSmall gm && !isQueue gm d }) ∨
     (∃ d a l wa, i = .bcst d a l wa kf ∧ f = { own := [⟨a, wa⟩], named := [d], ks := [kf.setWidth 5], mode := fun gm => readsEt notSmall gm && !isQueue gm d }) ∨
     (∃ op d a wa, (i = .reduce op d a wa kf ∨ ∃ ex, i = .scan op ex d a wa kf) ∧
       f = { own := [⟨a, wa⟩], named := [d], ks := [kf.setWidth 5], mode := fun gm => readsEt (combineLegal op) gm && !isQueue gm d }) ∨
     (∃ d p, (i = .voteAny d p kf ∨ i = .voteAll d p kf ∨ ∃ kd, i = .voteBallot kd p kf) ∧ f = { ks := [kf.setWidth 5] })) →
    GangIssues i f u s vals s1 popped →
    let g := s.gang u.team u.gang
    let mask : Half := (g.kreg (kf.setWidth 5)).setWidth 32
    let held := g.memberHeld (pcAt s u) &&& ~~~ u.slices
    let first := (g.firstMask held).getD mask
    let arrived := held ||| u.slices
    let active := g.activeOf arrived
    let away := maskOf (fun l => first.getLsbD l && arrived.getLsbD (l / 4) && !active.getLsbD l)
    mask ≠ 0#32 →
    (first &&& g.exitedLanes ≠ 0#32 → exec i s = .next (s.takeTrap u
      { cause := .memberExited, lanes := some (first &&& g.exitedLanes), detail := BitVec.ofNat 64 first.toNat, slices := some arrived })) ∧
    (first &&& g.exitedLanes = 0#32 → away ≠ 0#32 → exec i s = .next (s.takeTrap u
      { cause := .convergence, lanes := some away, detail := BitVec.ofNat 64 first.toNat })) ∧
    (first &&& g.exitedLanes = 0#32 → away = 0#32 → mask ≠ first → exec i s = .next (s.takeTrap u
      { cause := .convergence, lanes := some (mask ^^^ first), detail := BitVec.ofNat 64 first.toNat })) ∧
    (first &&& g.exitedLanes = 0#32 → away = 0#32 → mask = first → first &&& ~~~ active ≠ 0#32 →
      exec i s = .next (s.hold u (.member mask (g.nextRank held))))) ∧
  ∀ kd a lane wa s u vals s1 popped, GangIssues (.lanek kd a lane wa) { own := [⟨a, wa⟩] } u s vals s1 popped →
    let g := s.gang u.team u.gang
    ((g.activeOf u.slices).getLsbD lane.toNat = true → ∀ va s2, readOwn (ctxOf (.lanek kd a lane wa) u s vals) ⟨a, wa⟩ (1#32 <<< lane.toNat) s = .ok (va, s2) →
      ∃ t, exec (.lanek kd a lane wa) s = .next t ∧ OnlyGang s t u ∧ KResult g (t.gang u.team u.gang) u.slices kd (rowGet 0 va lane.toNat)) ∧
    ((g.activeOf u.slices).getLsbD lane.toNat = false →
      exec (.lanek kd a lane wa) s = .next (s.takeTrap u { cause := .convergence, lanes := some (1#32 <<< lane.toNat) }))

/-! ### Scratchpad words -/

/-- For LD and LDX whose accesses are aligned, lie in the window and race with no gang: each participating lane takes the bytes
at window base plus its offset, little-endian, sign-extended or zero-extended to 64 bits, as a FULL register without poison; a
lane whose word is uncorrectable is poisoned with code 6, and its value is free. KLD, of a gang or a sidecar, takes eight bytes
into K.d. Of everything else only control, metering and, in deterministic mode, line tags change: every byte of every memory
reads as before. Of bytes of a Skipper command's regions whose completion nobody has observed the value is free. A misaligned
access traps with MISALIGNED, then one outside the window with SCRATCH_RANGE, then in deterministic mode one that meets another
gang's access with RACE; a KLD of an uncorrectable word traps with POISON. The values of a poisoned lane and of undefined bytes
are the model's free values (assumption 1: DESIGN CHOICE), and so is the PRODPC of KLD's trap (assumption 11). (R80, R189, R218,
R274, R275, R277, R278, R369, R392.) -/
def Obligations.ScratchLoads : Prop :=
  (∀ i srcs d w sx ad s u vals s1 popped,
    ((∃ m a wa, i = .ld m sx d a wa ∧ srcs = [⟨a, wa⟩] ∧ w = widthBytes m ∧ ad = fun l => valOf vals 0 l) ∨
     (∃ (a : VNum) (imm : BitVec 12), i = .ldx d a imm ∧ srcs = [⟨a, false⟩] ∧ w = 8 ∧ sx = false ∧ ad = fun l => valOf vals 0 l + imm.signExtend 64)) →
    GangIssues i { srcs := srcs, dsts := [d] } u s vals s1 popped → LaneTraps i s u w ad .read ∧ (LanesOk s u w ad .read →
    ∃ t, exec i s = .next t ∧ Within s t u ∧ NoStore s t ∧ TagsKept s t u ∧
      ((∀ l, l < 32 → (partOf s u).getLsbD l = true →
        s.spadBad (placeOf s u (ad l)) w = false ∧ s.veils (placeOf s u (ad l)) w = false) → t.fresh = s.fresh) ∧
      RegResult (s.gang u.team u.gang) (t.gang u.team u.gang) u.slices (partOf s u) d (fun l =>
        if s.spadBad (placeOf s u (ad l)) w = true then { val := Config.freeWord (s.fresh + l), poison := true, ppc := parityPc, pcode := 6#8 }
        else { val := extendTo w sx (if s.veils (placeOf s u (ad l)) w = true then s.seenNat (s.fresh + 32 + 8 * l) (placeOf s u (ad l)) w
                                     else memNat s.spad (placeOf s u (ad l)) w) }))) ∧
  ∀ (d a : KNum) (imm : BitVec 12) (s : State) u, PartyIssues (.kld d a imm) { ks := [a], sidecar := true } u s →
    let ad := kOf s u a + imm.signExtend 64
    UniformTraps (.kld d a imm) s u 8 8 ad .read ∧
    (UniformOk s u 8 8 ad .read → s.spadBad (placeOf s u ad) 8 = true → exec (.kld d a imm) s = .next (s.takeTrap u (badWordTrap s u))) ∧
    (UniformOk s u 8 8 ad .read → s.spadBad (placeOf s u ad) 8 = false →
    ∃ t, exec (.kld d a imm) s = .next t ∧ Within s t u ∧ NoStore s t ∧ TagsKept s t u ∧
      t.fresh = (if s.veils (placeOf s u ad) 8 = true then s.fresh + 8 else s.fresh) ∧
      PartyK s t u d (BitVec.ofNat 64 (if s.veils (placeOf s u ad) 8 = true then s.seenNat s.fresh (placeOf s u ad) 8
                                       else memNat s.spad (placeOf s u ad) 8)))

/-- For ST and STX whose accesses are aligned, lie in the window and race with no gang: each participating lane stores the low
bytes of its value, little-endian, at window base plus its offset; where lanes store to one byte the highest lane's stays; every
other byte of memory reads as before. KST, of a gang or a sidecar, stores the eight bytes of K.d. No register changes; besides
memory only control, metering, error marks that the stores clear, in deterministic mode line tags, what the gang's own
operand-buffer fills have noted of their sources, and what engine commands under way have noted of the store. A misaligned
access traps with MISALIGNED, then one outside the window with SCRATCH_RANGE, then in deterministic mode one that meets another
gang's access with RACE. (R80, R163, R189, R218, R274, R275, R277, R278, R295, R369.) -/
def Obligations.ScratchStores : Prop :=
  (∀ i srcs w ad val s u vals s1 popped,
    ((∃ m a b wa wb, i = .st m a b wa wb ∧ srcs = [⟨a, wa⟩, ⟨b, wb⟩] ∧ w = widthBytes m ∧ ad = fun l => valOf vals 0 l) ∨
     (∃ (d a : VNum) (imm : BitVec 12), i = .stx d a imm ∧ srcs = [⟨a, false⟩, ⟨d, false⟩] ∧ w = 8 ∧ ad = fun l => valOf vals 0 l + imm.signExtend 64)) →
    GangIssues i { srcs := srcs } u s vals s1 popped → val = (fun l (b : Nat) => (valOf vals 1 l).extractLsb' (8 * b) 8) →
    LaneTraps i s u w ad .write ∧ (LanesOk s u w ad .write →
    ∃ t, exec i s = .next t ∧ Within s t u ∧ FillsNote s t u ∧ CommandsNote s t ∧ t.syncCodes = s.syncCodes ∧ TagsKept s t u ∧
      LanesStored s t (partOf s u) w (fun l => placeOf s u (ad l)) val ∧
      Passes (s.gang u.team u.gang) (t.gang u.team u.gang) u.slices)) ∧
  ∀ (d a : KNum) (imm : BitVec 12) (s : State) u, PartyIssues (.kst d a imm) { ks := [a, d], sidecar := true } u s →
    let ad := kOf s u a + imm.signExtend 64
    UniformTraps (.kst d a imm) s u 8 8 ad .write ∧ (UniformOk s u 8 8 ad .write →
    ∃ t, exec (.kst d a imm) s = .next t ∧ Within s t u ∧ FillsNote s t u ∧ CommandsNote s t ∧ t.syncCodes = s.syncCodes ∧ TagsKept s t u ∧
      Stored s t (placeOf s u ad) (leBytes 8 (kOf s u d).toNat) ∧ PartyPasses s t u)

/-- For ATOM and ACAS whose accesses are aligned, lie in the window, race with no gang and meet no uncorrectable word: lane by
lane in ascending order, the element at window base plus the lane's offset is replaced, by Op of the old one and sub-element 0
of source b, or, for ACAS, by b where the old one equals d; the lane takes the old element, which the lower lanes have already
changed, and the causes that the operation raises are logged. Every byte outside the elements reads as before; no other register
changes. Where an element lies in a Skipper command's region whose completion nobody has observed, the old element is the
model's free value (assumption 1: DESIGN CHOICE) and the word completes all the same. A misaligned access traps with MISALIGNED,
then one outside the window with SCRATCH_RANGE, then in deterministic mode one that meets another gang's access with RACE, then
an uncorrectable word with POISON and DETAIL bit 6 (its PRODPC free: assumption 11). (R80, R189, R218, R274, R275, R277, R279,
R280, R369, R392.) -/
def Obligations.ScratchAtomics : Prop :=
  ∀ i f kind fn (d : VNum) s u vals s1 popped,
    let g := s.gang u.team u.gang
    let t := etOf s u
    ((∃ op a b wa wb, i = .atom op d a b wa wb ∧ f = { srcs := [⟨a, wa⟩, ⟨b, wb⟩], dsts := [d], mode := readsEt (atomLegal op), closes := true } ∧
       kind = atomKind op t ∧ fn = fun l old => atomOp op t (mdOf s u) old (subGet t.width (valOf vals 1 l) 0)) ∨
     (∃ a b wa wb, i = .acas d a b wa wb ∧ f = { srcs := [⟨a, wa⟩, ⟨b, wb⟩, ⟨d, false⟩], dsts := [d], mode := readsEt notSmall, closes := true } ∧
       kind = .write ∧ fn = fun l old => (if old = subGet t.width (valOf vals 2 l) 0 then subGet t.width (valOf vals 1 l) 0 else old, noCause))) →
    GangIssues i f u s vals s1 popped →
    let w := t.width / 8
    let at_ := fun l => placeOf s u (valOf vals 0 l)
    LaneTraps i s u w (valOf vals 0) kind ∧
    (LanesOk s u w (valOf vals 0) kind → (∃ l, l < 32 ∧ (partOf s u).getLsbD l = true ∧ s.spadBad (at_ l) w = true) →
      exec i s = .next (s.takeTrap u (badWordTrap s u))) ∧
    (LanesOk s u w (valOf vals 0) kind → (∀ l, l < 32 → (partOf s u).getLsbD l = true → s.spadBad (at_ l) w = false) →
      ∃ (t : State) (old : Nat → Nat), exec i s = .next t ∧ Within s t u ∧ CommandsNote s t ∧ t.syncCodes = s.syncCodes ∧ TagsKept s t u ∧
        (∀ x, (∀ l, l < 32 → (partOf s u).getLsbD l = true → x < at_ l ∨ at_ l + w ≤ x) → memGet t.spad x = memGet s.spad x) ∧
        VectorResult g (t.gang u.team u.gang) u.slices (partOf s u) d (fun l => BitVec.ofNat 64 (old l)) ∧
        (t.gang u.team u.gang).log = logRaised s u (partOf s u) (fun l => (fn l (old l)).2)) ∧
    (LanesOk s u w (valOf vals 0) kind →
      (∀ l, l < 32 → (partOf s u).getLsbD l = true → s.spadBad (at_ l) w = false ∧ s.veils (at_ l) w = false) →
    let old := rmwOld w at_ (fun l x => (fn l x).1) (partOf s u) s.spad
    ∃ t, exec i s = .next t ∧ Within s t u ∧ FillsNote s t u ∧ CommandsNote s t ∧ t.syncCodes = s.syncCodes ∧ TagsKept s t u ∧
      t.spad = rmwMem w at_ (fun l x => (fn l x).1) (lanesOf (partOf s u)) s.spad ∧
      (∀ x, (∀ l, l < 32 → (partOf s u).getLsbD l = true → x < at_ l ∨ at_ l + w ≤ x) → memGet t.spad x = memGet s.spad x) ∧
      (t.bad = { s.bad with spad := t.bad.spad } ∧ ∀ n ∈ t.bad.spad, n ∈ s.bad.spad) ∧
      VectorResult g (t.gang u.team u.gang) u.slices (partOf s u) d (fun l => BitVec.ofNat 64 (old l)) ∧
      (t.gang u.team u.gang).log = logRaised s u (partOf s u) (fun l => (fn l (old l)).2))

/-! ### Tag table -/

/-- TLOOK: lanes in ascending order, each takes the slot of the valid way that holds its key, which becomes the most recent, or
the miss code of the way to fill; TLOOK.K does the same once into K.d, for a gang or a sidecar. TSET with every participating
lane's miss code naming a way of the team: lanes in ascending order, the way becomes valid with the lane's key and slot and the
most recent; TINV: the way becomes invalid and the least recent. Where a lane's code names no way of the team, SCRATCH_RANGE
with those lanes and the lowest one's code. In a team with no tag block TLOOK.K traps with ILLEGAL_INSTRUCTION, step 3, also in
a sidecar (assumption 43: DEDUCED). Memory, line tags and every other register stay. (R63, R81, R281, R282, R283.) -/
def Obligations.TagWords : Prop :=
  (∀ d a wa s u vals s1 popped, GangIssues (.tlook d a wa) { srcs := [⟨a, wa⟩], dsts := [d], team := hasTags } u s vals s1 popped →
    ∃ t, exec (.tlook d a wa) s = .next t ∧ Within s t u ∧ NoStore s t ∧ t.fresh = s.fresh ∧ (t.team u.team).lines = (s.team u.team).lines ∧
      (t.team u.team).tags = (lookups (s1.team u.team) (valOf vals 0) (lanesOf (partOf s u))).tags ∧
      VectorResult (s.gang u.team u.gang) (t.gang u.team u.gang) u.slices (partOf s u) d (lookedUp (s1.team u.team) (valOf vals 0) (partOf s u)) ∧
      (t.gang u.team u.gang).log = (s.gang u.team u.gang).log) ∧
  (∀ d a s u, PartyIssues (.tlookK d a) { ks := [a], team := hasTags, sidecar := true } u s →
    ∃ t, exec (.tlookK d a) s = .next t ∧ Within s t u ∧ NoStore s t ∧ t.fresh = s.fresh ∧ (t.team u.team).lines = (s.team u.team).lines ∧
      (t.team u.team).tags = ((s.team u.team).lookup (kOf s u a)).1.tags ∧ PartyK s t u d ((s.team u.team).lookup (kOf s u a)).2) ∧
  (∀ d a s u, s.issuer = some u → s.issuable u = true → u.gang = 16 → hasTags (s.team u.team) = false →
    exec (.tlookK d a) s = .next (s.takeTrap u
      { cause := .illegalInstruction, detail := BitVec.ofNat 64 (((encode (.tlookK d a)).getD 0#32).toNat + 3 * 2 ^ 32) })) ∧
  ∀ i f put s u vals s1 popped,
    ((∃ d a b wa wb, i = .tset d a b wa wb ∧ f = { srcs := [⟨a, wa⟩, ⟨b, wb⟩, ⟨d, false⟩], team := hasTags, closes := true } ∧
       put = fun l (x : TagSet) w => (x.setWay w { valid := true, key := valOf vals 1 l, slot := (valOf vals 2 l).extractLsb' 0 31 }).touch w) ∨
     (∃ a wa, i = .tinv a wa ∧ f = { srcs := [⟨a, wa⟩], team := hasTags, closes := true } ∧
       put = fun _ (x : TagSet) w => (x.setWay w { x.way w with valid := false, bad := false }).demote w)) →
    GangIssues i f u s vals s1 popped →
    let bad := maskOf (fun l => (partOf s u).getLsbD l && !codeOk (s.team u.team) (valOf vals 0 l))
    (bad = 0#32 → ∃ t, exec i s = .next t ∧ Within s t u ∧ NoStore s t ∧ t.fresh = s.fresh ∧ (t.team u.team).lines = (s.team u.team).lines ∧
      (t.team u.team).tags = ((lanesOf (partOf s u)).foldl (fun (y : Team) l => y.modWay (valOf vals 0 l) (put l)) (s1.team u.team)).tags ∧
      Passes (s.gang u.team u.gang) (t.gang u.team u.gang) u.slices) ∧
    (bad ≠ 0#32 → exec i s = .next (s.takeTrap u { cause := .scratchRange, lanes := some bad, detail := valOf vals 0 (lowLane bad) }))

/-! ### Synchronisation words -/

/-- A sync word that is misaligned, then one outside the window, traps; then one whose bits are uncorrectable traps with POISON
(for SWINIT, SWADD and QPUSH that trap is assumption 11, DEDUCED, and the PRODPC everywhere, DESIGN CHOICE). Else SWINIT makes
COUNT, FLAGS and the reserved bits 0, keeps GEN and sets TARGET; SWADD increments by source 2, COUNT and GEN as R285 computes
them; both store nothing else. SWAIT goes on where GEN has passed the operand and FAULT is clear, is held while it has not, and
traps where FAULT is set; an acquire observes the Skipper commands that released there. WAITC goes on where the counter is low
enough and no operation it covers is flagged, is held while it is not, and traps on the oldest flagged operation, whose flags
are consumed. QPUSH, of a sidecar, appends one entry of 32 values, is held while the queue has 16, and discards it where every
gang has exited. A held word keeps the operands with which it began. DETAIL's code of a FAULT that no engine set is free
(assumption 11: DESIGN CHOICE); the address that DETAIL gives of a flagged ENC operation is the one the engine refused
(assumption 28: DEDUCED). (R17, R190, R216, R275, R284, R285, R286, R287, R288, R289, R291, R392.) -/
def Obligations.SyncWords : Prop :=
  (∀ ka kb s u vals popped, GangIssues (.swinit ka kb) { ks := [ka, kb], closes := true } u s vals s popped →
    let a := placeOf s u (kOf s u ka)
    RangeTraps (.swinit ka kb) s u 16 16 (kOf s u ka) ∧
    ((kOf s u ka).toNat % 16 = 0 → (kOf s u ka).toNat + 16 ≤ (s.team u.team).scratch →
    (s.spadBad a 8 = true → exec (.swinit ka kb) s = .next (s.takeTrap u (badWordTrap s u))) ∧
    (s.spadBad a 8 = false → ∃ b t, exec (.swinit ka kb) s = .next t ∧ Finished b t u ∧
      b = { s with spad := b.spad, bad := b.bad, cores := b.cores, fresh := b.fresh, cmds := b.cmds, syncCodes := s.syncCodes.filter (fun x => x.1 ≠ a) } ∧
      FillsNote s b u ∧ CommandsNote s b ∧ Stored s b a (leBytes 8 (swGen (memNat s.spad a 8) * 2 ^ 40) ++ leBytes 8 ((kOf s u kb).toNat % 2 ^ 40))))) ∧
  (∀ sc ka kb s u vals popped, GangIssues (.swadd sc ka kb) { ks := [ka, kb], closes := true } u s vals s popped →
    let a := placeOf s u (kOf s u ka)
    RangeTraps (.swadd sc ka kb) s u 16 16 (kOf s u ka) ∧
    ((kOf s u ka).toNat % 16 = 0 → (kOf s u ka).toNat + 16 ≤ (s.team u.team).scratch →
    (s.spadBad a 16 = true → exec (.swadd sc ka kb) s = .next (s.takeTrap u (badWordTrap s u))) ∧
    let lo := memNat s.spad a 8
    let target := memNat s.spad (a + 8) 8 % 2 ^ 40
    let n := lo % 2 ^ 40 + (kOf s u kb).toNat % 2 ^ 40
    (s.spadBad a 16 = false → ∃ b t, exec (.swadd sc ka kb) s = .next t ∧ Finished b t u ∧
      b = { s with spad := b.spad, bad := b.bad, cores := b.cores, fresh := b.fresh, cmds := b.cmds } ∧ FillsNote s b u ∧ CommandsNote s b ∧
      Stored s b a (leBytes 8 (lo / 2 ^ 56 * 2 ^ 56 +
        (if target = 0 then n % 2 ^ 40 + lo / 2 ^ 40 % 2 ^ 16 * 2 ^ 40 else n % target + (lo / 2 ^ 40 % 2 ^ 16 + n / target) % 2 ^ 16 * 2 ^ 40)))))) ∧
  (∀ sc ka kb s u a g, PartyIssues (.swait sc ka kb) { ks := [ka, kb], sidecar := true } u s →
    ((s.unitWait u = some (.swait a g)) ∨ ((∀ a g, s.unitWait u ≠ some (.swait a g)) ∧ a = kOf s u ka ∧ g = (kOf s u kb).setWidth 16)) →
    RangeTraps (.swait sc ka kb) s u 16 16 a ∧
    (a.toNat % 16 = 0 → a.toNat + 16 ≤ (s.team u.team).scratch →
    (s.spadBad (placeOf s u a) 16 = true → exec (.swait sc ka kb) s = .next (s.takeTrap u (badWordTrap s u))) ∧
    (s.spadBad (placeOf s u a) 16 = false →
    let lo := memNat s.spad (placeOf s u a) 8
    let past := (lo / 2 ^ 40 % 2 ^ 16 + 2 ^ 16 - g.toNat) % 2 ^ 16
    (1 ≤ past ∧ past < 2 ^ 15 → lo / 2 ^ 56 % 2 = 0 → ∃ t, exec (.swait sc ka kb) s = .next t ∧ Finished (s.observe (observes u sc a.toNat)) t u) ∧
    (1 ≤ past ∧ past < 2 ^ 15 → lo / 2 ^ 56 % 2 = 1 → exec (.swait sc ka kb) s = .next (s.takeTrap u (syncTrap s (s.team u.team) a))) ∧
    (¬ (1 ≤ past ∧ past < 2 ^ 15) → exec (.swait sc ka kb) s = .next (s.hold u (.swait a g)))))) ∧
  (∀ cn (n : BitVec 8) s u, PartyIssues (.waitc cn n) { sidecar := true } u s →
    let x := s.partyCounter u.team u.gang cn
    let covered := x.flags.filter (fun f => decide (f.seq + n.toNat < x.issued))
    (x.value ≤ n.toNat → covered = [] → ∃ t, exec (.waitc cn n) s = .next t ∧ Finished (if cn = .enc then s.observe (decremented s u) else s) t u) ∧
    (x.value ≤ n.toNat → ∀ f fs, covered = f :: fs → exec (.waitc cn n) s =
      .next ((s.modPartyCounter u.team u.gang cn (fun y => { y with flags := y.flags.filter (fun f => !decide (f.seq + n.toNat < x.issued)) })).takeTrap u
        (flagTrap cn (fs.foldl olderFlag f)))) ∧
    (n.toNat < x.value → exec (.waitc cn n) s = .next (s.hold u (.waitc cn n)))) ∧
  ∀ q ka bcast s u e b, SidecarIssues (.qpush q ka bcast) { ks := [ka], sidecar := true, gang := false } u s →
    let a := kOf s u ka
    let own := ∀ q' e', s.unitWait u ≠ some (.qpush q' e')
    (bcast = false → own → RangeTraps (.qpush q ka bcast) s u 8 256 a ∧
      (a.toNat % 8 = 0 → a.toNat + 256 ≤ (s.team u.team).scratch → s.spadBad (placeOf s u a) 256 = true →
        exec (.qpush q ka bcast) s = .next (s.takeTrap u (badWordTrap s u)))) ∧
    (((∃ q', s.unitWait u = some (.qpush q' e)) ∧ b = s) ∨
     (own ∧
      ((bcast = true ∧ b = s ∧ e = (upTo 32).map (fun _ => kOf s u ka)) ∨
       (bcast = false ∧ a.toNat % 8 = 0 ∧ a.toNat + 256 ≤ (s.team u.team).scratch ∧ s.spadBad (placeOf s u a) 256 = false ∧
        b = { s with fresh := if s.veils (placeOf s u a) 256 = true then s.fresh + 256 else s.fresh } ∧
        e = (upTo 32).map (fun l => BitVec.ofNat 64 (field
          (if s.veils (placeOf s u a) 256 = true then s.seenBytes s.fresh (placeOf s u a) 256 else memRead s.spad (placeOf s u a) 256) (8 * l) 8)))))) →
    let n := ((s.team u.team).queue q).entries.length
    ((s.team u.team).gangsExited = true → ∃ t, exec (.qpush q ka bcast) s = .next t ∧ Finished b t u) ∧
    ((s.team u.team).gangsExited = false → n < 16 → ∃ t, exec (.qpush q ka bcast) s = .next t ∧
      Finished (b.modTeam u.team (fun t => { t with queues := rowMod {} t.queues q.toNat (fun x => { x with entries := x.entries ++ [e] }) })) t u) ∧
    ((s.team u.team).gangsExited = false → 16 ≤ n → exec (.qpush q ka bcast) s = .next (b.hold u (.qpush q e)))

/-! ### Barriers, launches and the early trigger -/

/-- An arrival at barrier n of a gang that is not exited: the gang has arrived at the phase where every live slice has issued;
where every other gang of the team has arrived at it or exited, the phase advances by one and the epoch by one; otherwise both
stay; nothing but barriers, phases, the epoch and the gang's Instar region, which the issue closes, changes. BAR arrives and
goes on where its phase completes, or is held at that phase until it does. BARA is held while the gang stands at the same phase
already, and otherwise arrives, and goes on once the gang has arrived. BARW goes on at once where the gang has not arrived, and
otherwise when the phase at which it arrived has completed. (R82, R273, R292, R293, R379.) -/
def Obligations.BarrierWords : Prop :=
  (∀ (s : State) (u : Issuer) (n : BitVec 4) (keep : Bool), u.gang < (s.team u.team).ngang → (s.gang u.team u.gang).live ≠ 0#8 →
    let t := s.team u.team
    let g := s.gang u.team u.gang
    let p := t.phase n
    let all := (g.bar n).slices ||| u.slices
    let now := if g.live &&& ~~~ all = 0#8 then some p else (g.bar n).arrived
    let s' := s.arriveAt u n keep
    let t' := s'.team u.team
    s' = { s with teams := s'.teams } ∧ (∀ v, v ≠ u.team → s'.team v = s.team v) ∧
      t' = { t with gangs := t'.gangs, phases := t'.phases, epoch := t'.epoch } ∧ (∀ h, t'.gang h = { t.gang h with bars := (t'.gang h).bars, instar := (t'.gang h).instar } ∧
        (t'.gang h).instar = if h = u.gang then { (t.gang h).instar with rewindable := false } else (t.gang h).instar) ∧
      ((t'.gang u.gang).bar n).arrived = now ∧ (∀ m, m ≠ n → t'.phase m = t.phase m) ∧
      (if now = some p ∧ ∀ h, h < t.ngang → h ≠ u.gang → (t.gang h).exited = true ∨ ((t.gang h).bar n).arrived = some p then
        t'.phase n = p + 1 ∧ t'.epoch = t.epoch + 1
       else t'.phase n = p ∧ t'.epoch = t.epoch)) ∧
  (∀ n s u vals popped, GangIssues (.bar n) { closes := true } u s vals s popped →
    (∀ m p, s.unitWait u = some (.bar m p) →
      (p < (s.team u.team).phase n → ∃ t, exec (.bar n) s = .next t ∧ Finished s t u) ∧
      ((s.team u.team).phase n ≤ p → exec (.bar n) s = .next (s.hold u (.bar n p)))) ∧
    ((∀ m p, s.unitWait u ≠ some (.bar m p)) →
      let p := (s.team u.team).phase n
      let s' := s.arriveAt u n false
      (p < (s'.team u.team).phase n → ∃ t, exec (.bar n) s = .next t ∧ Finished s' t u) ∧
      ((s'.team u.team).phase n ≤ p → exec (.bar n) s = .next (s'.hold u (.bar n p))))) ∧
  (∀ n s u vals popped, GangIssues (.bara n) { closes := true } u s vals s popped →
    (∀ m p, s.unitWait u = some (.gather m p) →
      let past := ((s.gang u.team u.gang).bar n).arrived = some p ∨ p < (s.team u.team).phase n
      (past → ∃ t, exec (.bara n) s = .next t ∧ Finished s t u) ∧ (¬ past → exec (.bara n) s = .next (s.hold u (.gather n p)))) ∧
    ((∀ m p, s.unitWait u ≠ some (.gather m p)) →
      let p := (s.team u.team).phase n
      let s' := s.arriveAt u n true
      let past := ((s'.gang u.team u.gang).bar n).arrived = some p ∨ p < (s'.team u.team).phase n
      (((s.gang u.team u.gang).bar n).arrived = some p → exec (.bara n) s = .next (s.hold u (.bara n p))) ∧
      (((s.gang u.team u.gang).bar n).arrived ≠ some p →
        (past → ∃ t, exec (.bara n) s = .next t ∧ Finished s' t u) ∧ (¬ past → exec (.bara n) s = .next (s'.hold u (.gather n p)))))) ∧
  ∀ n s u vals popped q, GangIssues (.barw n) { closes := true } u s vals s popped →
    ((∃ m p, s.unitWait u = some (.barw m p) ∧ q = some p) ∨ ((∀ m p, s.unitWait u ≠ some (.barw m p)) ∧ q = ((s.gang u.team u.gang).bar n).arrived)) →
    (q = none → ∃ t, exec (.barw n) s = .next t ∧ Finished s t u) ∧
    (∀ p, q = some p →
      (p < (s.team u.team).phase n → ∃ t, exec (.barw n) s = .next t ∧ Finished s t u) ∧
      ((s.team u.team).phase n ≤ p → exec (.barw n) s = .next (s.hold u (.barw n p))))

/-- TRIG makes every active lane of the unit triggered, whatever the guard, and where that triggers or finds exited every lane
of the grid, raises the grid's event. DETEP, with some lane participating, withdraws the gang as writer and reader from every
line tag of the team, and changes nothing else. LAUNCH with a misaligned descriptor, then one outside the window, traps. A unit
that does not hold the leader's lane only goes on; at depth 10 it traps, and where the descriptor holds an uncorrectable word it
traps with POISON (assumption 11: DEDUCED, its PRODPC DESIGN CHOICE). Where the limit of grids is reached or the DONE word's
page is being zeroed it is held, and keeps the address that it read; in deterministic mode a conflict traps with RACE; otherwise
a legal descriptor enters the queue as a grid one level deeper, of the issuing grid's priority, and an illegal one is refused;
the word goes on and closes the region. (R198, R201, R204, R208, R218, R219, R275, R294, R392.) -/
def Obligations.LaunchWords : Prop :=
  (∀ s u vals popped, GangIssues .trig { closes := true } u s vals s popped →
    let active := (s.gang u.team u.gang).activeOf u.slices
    ∃ t, exec .trig s = .next t ∧
      Finished ((s.modGang u.team u.gang (fun g => g.modLanes active (fun _ l => { l with triggered := true }))).trigEvent (s.team u.team).grid) t u ∧
      ∀ l, l < 32 → ((t.gang u.team u.gang).lane l).triggered = (active.getLsbD l || ((s.gang u.team u.gang).lane l).triggered)) ∧
  (∀ s u vals popped, GangIssues .detep {} u s vals s popped →
    ∃ t, exec .detep s = .next t ∧ Finished (if partOf s u = 0#32 then s else s.modTeam u.team (fun t =>
      { t with lines := t.lines.map (fun x =>
        { x with writer := if x.writer = some u.gang then none else x.writer, atomic := if x.writer = some u.gang then none else x.atomic,
                 readers := x.readers &&& ~~~ (1#16 <<< u.gang) }) })) t u) ∧
  ∀ ka s u vals popped, GangIssues (.launch ka) { ks := [ka] } u s vals s popped →
    ∀ a, ((s.unitWait u = some (.launch a)) ∨ ((∀ a, s.unitWait u ≠ some (.launch a)) ∧ a = kOf s u ka)) →
    let tm := s.team u.team
    let leader := (∀ h, h < u.gang → (tm.gang h).exited = true) ∧
      ((s.gang u.team u.gang).activeOf u.slices).getLsbD (lowLane (~~~ (s.gang u.team u.gang).exitedLanes)) = true
    let b := if s.veils (placeOf s u a) 64 = true then s.seenBytes s.fresh (placeOf s u a) 64 else memRead s.spad (placeOf s u a) 64
    let gr := s.grid tm.grid
    RangeTraps (.launch ka) s u 64 64 a ∧ (a.toNat % 64 = 0 → a.toNat + 64 ≤ tm.scratch →
    (¬ leader → ∃ t, exec (.launch ka) s = .next t ∧ Finished s t u) ∧
    (leader → 10 ≤ gr.depth → exec (.launch ka) s = .next (s.takeTrap u { cause := .launchDepth })) ∧
    (leader → gr.depth < 10 → s.spadBad (placeOf s u a) 64 = true → exec (.launch ka) s = .next (s.takeTrap u (badWordTrap s u))) ∧
    (leader → gr.depth < 10 → s.spadBad (placeOf s u a) 64 = false →
      Config.launchLimit ≤ s.launched tm.part ∨ s.doneHeld tm.part (descOf b).doneWord = true → exec (.launch ka) s = .next (s.hold u (.launch a))) ∧
    (leader → gr.depth < 10 → s.spadBad (placeOf s u a) 64 = false → s.launched tm.part < Config.launchLimit → s.doneHeld tm.part (descOf b).doneWord = false →
      let det := gmDet (s.gang u.team u.gang).gmode = true
      (det → ∀ n g, tm.raceAt u.gang a.toNat 64 .read = some (n, g) →
        exec (.launch ka) s = .next (s.takeTrap u { cause := .race, detail := BitVec.ofNat 64 (n * 64 % 2 ^ 22 + g * 2 ^ 24) })) ∧
      ((det → tm.raceAt u.gang a.toNat 64 .read = none) →
      let s0 := if s.veils (placeOf s u a) 64 = true then { s with fresh := s.fresh + 64 } else s
      let r := if det then s0.modTeam u.team (fun t => t.recordLines u.gang a.toNat 64 .read) else s0
      let r' := r.modGang u.team u.gang (fun g => { g with instar := { g.instar with rewindable := false } })
      (s.descLegal tm.part b = true → ∃ t, exec (.launch ka) s = .next t ∧
        Finished (r'.enqueue { part := tm.part, desc := descOf b, depth := gr.depth + 1, prio := gr.prio, parent := some u.team }) t u) ∧
      (s.descLegal tm.part b = false → ∃ t, exec (.launch ka) s = .next t ∧
        Finished (r'.refuseDesc tm.part (some (descOf b).doneWord) none 196) t u))))

/-! ### Engine commands and time -/

/-- COPY and SKIP trap in order where the header or block is misaligned, outside the window, or, in deterministic mode,
conflicts; where it holds an uncorrectable word (POISON with DETAIL bit 6; a free PRODPC, assumption 11: DESIGN CHOICE); and
SKIP where its comparator, guarantee and result regions, in this order, are misaligned or outside the window. With ENC at 255
the word is held and keeps what it read. Else COPY writes the header's fourteen bytes with the address of the first entry, zero
counts and state RUNNING, and SKIP marks the block running and clears its result words; every other byte stays. The command is
counted at issue, belongs to the party, performs nothing for 16 cycles, and in a context being saved stops at its first
boundary. In deterministic mode the words record their read and nothing for the bytes they write at issue (assumption 25:
DEDUCED). Undefined bytes of a block are the model's free values (assumption 1: DESIGN CHOICE). ENGQ writes into K.d the status
of the latest command from the address that has not released ENC, or 0. TIME writes the edges of the interval into K.d and K.d+1
where the timebase is not in holdover, and traps with TIME_HELD otherwise. (R17, R26, R192, R193, R194, R218, R275, R295, R303,
R313, R392, R408.) -/
def Obligations.EngineWords : Prop :=
  (∀ i (k : KNum) n al skipper (blk : List Byte) (regs : List (Nat × Nat × Nat)) (a : Word) hdr chain (skip : SkipCmd) (s : State) (u : Issuer),
    let key := placeOf s u a
    ((i = .copy k ∧ n = 16 ∧ al = 16 ∧ skipper = false ∧ hdr = [(0, leBytes 4 (a.toNat + 16) ++ leBytes 4 0 ++ leBytes 4 0 ++ leBytes 1 1 ++ leBytes 1 0)] ∧
        chain = { entry := a.toNat + 16, run := a.toNat + 16 } ∧ skip = {}) ∨
     (i = .skip k ∧ n = 96 ∧ al = 32 ∧ skipper = true ∧ hdr = [(4, leBytes 2 1), (64, leBytes 32 0)] ∧ chain = {} ∧ skip = { block := blk.take 64 })) →
    PartyIssues i { ks := [k], sidecar := true, closes := true } u s →
    (s.unitWait u = some (.command a blk) → CommandStarts i s s u skipper a hdr chain skip blk) ∧
    ((∀ x y, s.unitWait u ≠ some (.command x y)) → a = kOf s u k →
      blk = (if skipper = false then [] else if s.veils key n = true then s.seenBytes s.fresh key n else memRead s.spad key n) →
      regs = (if skipper = false then [] else
        [(field blk 56 8, 16, 16), (field blk 40 8, 8 * field blk 32 4, 8), (field blk 48 8, 4 * field blk 36 4, 4)]) →
      let det := u.gang ≠ 16 ∧ gmDet (s.gang u.team u.gang).gmode = true
      let s0 := if skipper = true ∧ s.veils key n = true then { s with fresh := s.fresh + n } else s
      let r := if det then s0.modTeam u.team (fun t => t.recordLines u.gang a.toNat n .read) else s0
      let ok := fun (g : Nat × Nat × Nat) => g.2.1 = 0 ∨ (g.1 % g.2.2 = 0 ∧ g.1 + g.2.1 ≤ (s.team u.team).scratch)
      UniformTraps i s u al n a .read ∧
      (UniformOk s u al n a .read → s.spadBad key n = true → exec i s = .next (s.takeTrap u (badWordTrap s u))) ∧
      (UniformOk s u al n a .read → s.spadBad key n = false →
        (∀ p g q, regs = p ++ g :: q → (∀ h ∈ p, ok h) → ¬ ok g → exec i s = .next (s.takeTrap u
          { cause := if g.1 % g.2.2 = 0 then .scratchRange else .misaligned, detail := BitVec.ofNat 64 g.1 })) ∧
        ((∀ g ∈ regs, ok g) → CommandStarts i s r u skipper a hdr chain skip blk)))) ∧
  (∀ kd ka s u vals popped, GangIssues (.engq kd ka) { ks := [ka] } u s vals s popped →
    ∃ t, exec (.engq kd ka) s = .next t ∧ OnlyGang s t u ∧ KResult (s.gang u.team u.gang) (t.gang u.team u.gang) u.slices kd
      (match (s.cmds.filter (fun c => c.team = u.team && c.addr = (kOf s u ka).toNat && (s.partyCounter c.team c.gang .enc).pend.any (fun x => x.seq = c.seq))).getLast? with
       | none => 0#64
       | some c => if c.skipper then BitVec.ofNat 64 (2 ^ 63 + 2 ^ 62 + c.skip.cursor % 2 ^ 48)
                   else BitVec.ofNat 64 (2 ^ 63 + c.chain.entry % 2 ^ 22 * 2 ^ 26 + c.chain.doneb % 2 ^ 26))) ∧
  ∀ (kd : KNum) s u vals popped, GangIssues (.time kd) {} u s vals s popped →
    (s.tb.holds = true → exec (.time kd) s = .next (s.takeTrap u { cause := .timeHeld, detail := s.tb.tstate.setWidth 64 })) ∧
    (s.tb.holds = false → ∃ t, exec (.time kd) s = .next t ∧ OnlyGang s t u ∧ GangKeeps (s.gang u.team u.gang) (t.gang u.team u.gang) u.slices ∧
      (t.gang u.team u.gang).lanes = (s.gang u.team u.gang).lanes ∧ (t.gang u.team u.gang).log = (s.gang u.team u.gang).log ∧
      ∀ k, (t.gang u.team u.gang).kreg k = if k = kd + 1#5 then BitVec.ofNat 64 s.tb.tl else if k = kd then BitVec.ofNat 64 s.tb.te
        else (s.gang u.team u.gang).kreg k)

/-! ### Remote words -/

/-- A remote word with no lane participating only goes on. Otherwise, with its counter below 255, it starts one operation that
its counter (OLC where it returns values, OSC else) counts: its lanes have the addresses and values of the sources, its
destinations become EMPTY in the participating lanes, and each lane is sent; at 255 it is held. STMP, out of holdover, stamps
the operation with TL, writes the stamp into d, and its lanes are sent; LDAT's lanes fault where the time or the address is bad
and else wait at the port; both trap in HELD and FAILED, and are held with their counter at 255. A lane sent faults with code 2
where its address is misaligned, reserved, or core-local outside the scratchpad or for stamped operations, with code 7 where no
grant covers a window; else it is sent, metered, and a window of another module gets the message; a lane of RST.F whose gang has
a lane of an earlier write not performed at the same module waits to send (assumption 34: DESIGN CHOICE). (R12, R17, R23, R251,
R304, R305, R313, R317, R319, R320, R353.) -/
def Obligations.RemoteWords : Prop :=
  (∀ i x s u vals s1 popped, remoteSpec i = some x → GangIssues i x.form u s vals s1 popped →
    let cn := RemKind.counter x.kind
    (partOf s u = 0#32 → ∃ t, exec i s = .next t ∧ Finished s1 t u) ∧
    (partOf s u ≠ 0#32 → (s.partyCounter u.team u.gang cn).value < 255 →
      ∃ y t, exec i s = .next t ∧ Finished ((lanesOf (partOf s u)).foldl (fun z l => z.sendLane s.ops.length l false) y) t u ∧
        OpStarted s1 y u (opOf s u x.kind x.d 0#64 (fun l =>
          { stage := .sent, addr := valOf vals 0 l, val := x.val (valOf vals) l, cmp := x.cmp (valOf vals) l })) (partOf s u) x.dsts
          (awaits s.ops.length)) ∧
    (partOf s u ≠ 0#32 → 255 ≤ (s.partyCounter u.team u.gang cn).value → exec i s = .next (s.hold u (.counter cn)))) ∧
  (∀ d a b wa wb s u vals s1 popped, GangIssues (.stmp d a b wa wb) { srcs := [⟨a, wa⟩, ⟨b, wb⟩], dsts := [d], closes := true } u s vals s1 popped →
    let stamp := BitVec.ofNat 64 s.tb.tl
    (partOf s u = 0#32 → ∃ t, exec (.stmp d a b wa wb) s = .next t ∧ Finished s1 t u) ∧
    (partOf s u ≠ 0#32 → 2 ≤ s.tb.tstate.toNat →
      exec (.stmp d a b wa wb) s = .next (s.takeTrap u { cause := .timeHeld, detail := s.tb.tstate.setWidth 64 })) ∧
    (partOf s u ≠ 0#32 → s.tb.tstate.toNat < 2 → (s.partyCounter u.team u.gang .osc).value < 255 →
      ∃ y t, exec (.stmp d a b wa wb) s = .next t ∧ Finished ((lanesOf (partOf s u)).foldl (fun z l => z.sendLane s.ops.length l true) y) t u ∧
        OpStarted s1 y u (opOf s u .stmp d stamp (fun l => { stage := .sent, addr := valOf vals 0 l, val := valOf vals 1 l })) (partOf s u) [d]
          (fun _ => { val := stamp })) ∧
    (partOf s u ≠ 0#32 → s.tb.tstate.toNat < 2 → 255 ≤ (s.partyCounter u.team u.gang .osc).value →
      exec (.stmp d a b wa wb) s = .next (s.hold u (.counter .osc)))) ∧
  (∀ d a b wa wb s u vals s1 popped, GangIssues (.ldat d a b wa wb) { srcs := [⟨a, wa⟩, ⟨b, wb⟩], dsts := [d, d + 1#6] } u s vals s1 popped →
    (partOf s u = 0#32 → ∃ t, exec (.ldat d a b wa wb) s = .next t ∧ Finished s1 t u) ∧
    (partOf s u ≠ 0#32 → 2 ≤ s.tb.tstate.toNat →
      exec (.ldat d a b wa wb) s = .next (s.takeTrap u { cause := .timeHeld, detail := s.tb.tstate.setWidth 64 })) ∧
    (partOf s u ≠ 0#32 → s.tb.tstate.toNat < 2 → (s.partyCounter u.team u.gang .olc).value < 255 →
      ∃ y t lane, exec (.ldat d a b wa wb) s = .next t ∧ Finished y t u ∧
        OpStarted s1 y u (opOf s u .ldat d 0#64 lane) (partOf s u) [d, d + 1#6] (awaits s.ops.length) ∧
        ∀ l, (lane l).addr = valOf vals 0 l ∧ (lane l).val = valOf vals 1 l ∧
          ((2 ^ 62 ≤ (valOf vals 1 l).toNat ∨ s.tb.tl + 2 ^ 24 < (valOf vals 1 l).toNat) → (lane l).stage = .reply (.fault 2#8)) ∧
          ((valOf vals 1 l).toNat < 2 ^ 62 → (valOf vals 1 l).toNat ≤ s.tb.tl + 2 ^ 24 →
            (∀ c, s.route (s.team u.team).part (valOf vals 0 l) true = .fault c → (lane l).stage = .reply (.fault c)) ∧
            ((∀ c, s.route (s.team u.team).part (valOf vals 0 l) true ≠ .fault c) → (lane l).stage = .port))) ∧
    (partOf s u ≠ 0#32 → s.tb.tstate.toNat < 2 → 255 ≤ (s.partyCounter u.team u.gang .olc).value →
      exec (.ldat d a b wa wb) s = .next (s.hold u (.counter .olc)))) ∧
  (∀ (s : State) p a stamped,
    (a.toNat % 8 ≠ 0 ∨ s.engAddr a = .reserved ∨ (∃ core obuf off, s.engAddr a = .local_ core obuf off ∧ (stamped || obuf) = true) →
      s.route p a stamped = .fault 2#8) ∧
    (a.toNat % 8 = 0 → ((∃ va, s.engAddr a = .device va) ∨ (stamped = false ∧ ∃ core off, s.engAddr a = .local_ core false off)) →
      s.route p a stamped = .home 0#64) ∧
    (a.toNat % 8 = 0 → ∀ dev win off, s.engAddr a = .pod dev win off →
      (s.grantKey p dev win = none → s.route p a stamped = .fault 7#8) ∧
      ∀ key, s.grantKey p dev win = some key → s.route p a stamped = if dev = s.devid then .home key else .away dev win key off)) ∧
  ∀ (s : State) i l stamped,
    let o := s.op i
    let x := o.lane l
    let m := if stamped then (s.meter o.part 4 8).meter o.part 5 1 else s.meter o.part 4 8
    (∀ c, s.route o.part x.addr stamped = .fault c → s.sendLane i l stamped = s.modLane i l (fun y => { y with stage := .reply (.fault c) })) ∧
    (∀ key, s.route o.part x.addr stamped = .home key → s.sendLane i l stamped = m.modLane i l (fun y => { y with stage := .sent, key := key })) ∧
    ∀ dev win key off, s.route o.part x.addr stamped = .away dev win key off →
      s.sendLane i l stamped = if s.flagHeld i l = true then s.modLane i l (fun y => { y with stage := .flagged }) else (m.send (.request dev win key (RemKind.req o.kind) off 8 x.val (if o.kind = .stmp then o.stamp else x.cmp) i l [])).modLane i l
        (fun y => { y with stage := .sent })

/-! ### The array and its banks -/

/-- With all 32 lanes active, an owned sound bank, a LIVE record, A registers FULL and unpoisoned or latched, MMA is held, in
the order of coming, while the array is busy or the context is being saved (assumption 38: DEDUCED); else it records the rows, A
elements, tile bytes and scales that it reads, holds the array 4 cycles a plane, writes 20 later, and loads or invalidates the
latch. The oldest due MMA of a core writes: in its rows each element becomes the fold of its segments, never −0, other elements
stay; DONE counts, INF and NAN gather an element that becomes one (assumption 31: DEDUCED), and the causes raised are logged.
MCLR clears participating rows and DONE, INF and NAN. MST stores participating rows in ET at 64-aligned K.a and logs. MRD
delivers columns 2c and 2c+1. MSTAT reads the status. The arithmetic of one segment is the model's `accumulate` (R98, R145).
(R144, R145, R146, R148, R152, R153, R155, R156, R157, R158, R159, R160.) -/
def Obligations.MatrixWords : Prop :=
  (∀ (bank : BankNum) (a : VNum) (kb : KNum) (wa reuse : Bool) (la : BlockLen) (clear : Bool) s u vals popped,
    GangIssues (.mma bank a kb wa reuse la clear)
      { named := regRange a 9, ks := [kb], mode := fun gm => !(gmQmap gm && decide (60 ≤ a.toNat + 8)), closes := true } u s vals s popped →
    let g := s.gang u.team u.gang
    let tm := s.team u.team
    let w := kOf s u kb
    let r := s.record tm.home (w.extractLsb' 0 6).toNat
    let blk := (w.extractLsb' 24 16).toNat
    let slab := (w.extractLsb' 8 16).toNat
    let woff := obufKey tm.home (r.base + (blk * (r.rows / 64) + slab) * r.fmt * 1664)
    let soff := fun j => obufKey tm.home
      (r.base + r.cols / 128 * (r.rows / 64) * r.fmt * 1664 + (128 * blk + j) * (r.rows / r.lb) + 64 * slab / r.lb)
    let n := max 1 (64 / r.lb)
    g.activeOf u.slices = 0xFFFFFFFF#32 → bank.toNat < tm.nbanks → (tm.bank bank.toNat).poisoned = false → (clear = false → s.bankBad tm bank = false) →
    r.state = .live → r.team = u.team → blk < r.cols / 128 → slab < r.rows / 64 → w.extractLsb' 6 2 = 0#2 →
    (¬ (reuse = true ∧ g.latch = some a) → ∀ v ∈ regRange a 9, ∀ l, l < 32 →
      ((g.lane l).vreg v).full = true ∧ ((g.lane l).vreg v).poison = false ∧ ((g.lane l).vreg v).bad = false) →
    let me := (u.team, 8 * u.gang + (g.slice (lowSlice u.slices)).sub)
    let turn := tm.status = .running ∧ (s.core tm.core).arrayFree ≤ s.cycle ∧ s.arrayTurn tm.core me = true
    (¬ turn → exec (.mma bank a kb wa reuse la clear) s = .next ((s.queueArray tm.core me).hold u .array)) ∧
    (turn →
    (∀ y, y < r.fmt * 1664 → ((woff + y) / 8) ∉ s.bad.obuf) → (∀ j, j < 128 → ∀ y, y < n → ((soff j + y) / 8) ∉ s.bad.obuf) →
    let m : MmaOp :=
      { bank := bank.toNat, gang := u.gang, pc := g.pcOf u.slices, rows := partOf s u, clear := clear,
        a := (upTo 32).map (fun l => (regRange a 9).map (fun v => ((g.lane l).vreg v).val)), la := BlockLen.size la, lb := r.lb,
        planes := r.fmt, areg := a, record := (w.extractLsb' 0 6).toNat, weights := memRead s.obuf woff (r.fmt * 1664),
        scales := (upTo 128).map (fun j => memRead s.obuf (soff j) n), woff := woff, soff := (upTo 128).map soff, gmode := g.gmode,
        passEnd := s.cycle + 4 * r.fmt, writeAt := s.cycle + 4 * r.fmt + 20, frozen := false }
    ∃ t, exec (.mma bank a kb wa reuse la clear) s = .next t ∧
      Finished ((((s.modTeam u.team (fun t => { t with mmas := t.mmas ++ [m] })).takeArray tm.core me m.passEnd).modGang
        u.team u.gang (fun g => { g with latch := if reuse then some a else none })).meter tm.part 1 r.fmt) t u)) ∧
  (∀ core (s : State) u (m : MmaOp), u < s.teams.length → (s.team u).core = core → m ∈ (s.team u).mmas → m.frozen = false → m.writeAt ≤ s.cycle →
    (∀ v n, v < s.teams.length → (s.team v).core = core → n ∈ (s.team v).mmas → n.frozen = false → n.writeAt ≤ s.cycle →
      (v = u ∧ n = m) ∨ m.writeAt < n.writeAt) →
    let old := (s.team u).bank m.bank
    let pack := if m.weights.any (fun b => 243 ≤ b.toNat) then cBadpack else noCause
    let causes := fun i => ((upTo 128).map (fun j => (elemAfter m old i j).causes)).foldl (fun x y => x ||| y) pack
    ∃ t, exec (.mmaResultWrite core) s = .next t ∧ t = { s with teams := t.teams } ∧ (∀ v, v ≠ u → t.team v = s.team v) ∧
      t.team u = { s.team u with banks := (t.team u).banks, gangs := (t.team u).gangs, mmas := (s.team u).mmas.filter (fun x => x ≠ m) } ∧
      (∀ b, b ≠ m.bank → (t.team u).bank b = (s.team u).bank b) ∧
      (let new := (t.team u).bank m.bank
       (∀ i j, i < 32 → j < 128 → new.elem i j = if m.rows.getLsbD i then BitVec.ofNat 32 (elemAfter m old i j).val else old.elem i j) ∧
       (1 ≤ 64 / min m.la m.lb → ∀ i j, (elemAfter m old i j).val ≠ 0x80000000) ∧
       new.done = old.done + 1#16 ∧ new.poisoned = old.poisoned ∧
       (new.inf = true ↔ old.inf = true ∨ ∃ i j, i < 32 ∧ j < 128 ∧ m.rows.getLsbD i = true ∧ (elemAfter m old i j).inf = true) ∧
       (new.nan = true ↔ old.nan = true ∨ ∃ i j, i < 32 ∧ j < 128 ∧ m.rows.getLsbD i = true ∧ (elemAfter m old i j).nan = true)) ∧
      (let raised := fun k => if causeOn (gmAen m.gmode) k then maskOf (fun i => m.rows.getLsbD i && (causes i).getLsbD k) else 0#32
       let after := logAfter (s.gang u m.gang).log raised (blockOf m.pc) s.cycle (s.team u).core
       ∀ g, t.gang u g = { s.gang u g with log := if g = m.gang then after else (s.gang u g).log })) ∧
  (∀ (bank : BankNum) s u vals popped, GangIssues (.mclr bank) {} u s vals s popped → bank.toNat < (s.team u.team).nbanks →
    (s.team u.team).mmas.any (fun m => m.bank = bank.toNat) = false →
    let old := (s.team u.team).bank bank.toNat
    ∃ b t, exec (.mclr bank) s = .next t ∧ Finished b t u ∧ b = { s with teams := b.teams, cores := b.cores } ∧
      (∀ v, v ≠ u.team → b.team v = s.team v) ∧ b.team u.team = { s.team u.team with banks := (b.team u.team).banks } ∧
      (∀ n, n ≠ bank.toNat → (b.team u.team).bank n = (s.team u.team).bank n) ∧
      (∀ i j, i < 32 → j < 128 → ((b.team u.team).bank bank.toNat).elem i j = if (partOf s u).getLsbD i then 0#32 else old.elem i j) ∧
      ((b.team u.team).bank bank.toNat).done = 0#16 ∧ ((b.team u.team).bank bank.toNat).inf = false ∧
      ((b.team u.team).bank bank.toNat).nan = false ∧
      ((b.team u.team).bank bank.toNat).poisoned = (old.poisoned && partOf s u != 0xFFFFFFFF#32) ∧
      (partOf s u ≠ 0xFFFFFFFF#32 → b.cores = s.cores)) ∧
  (∀ (bank : BankNum) (ka : KNum) s u vals popped, GangIssues (.mst bank ka) { ks := [ka], mode := readsEt bigFloat } u s vals s popped → BankOk s u bank →
    let t := etOf s u
    let w := t.width / 8
    let a := kOf s u ka
    let rowAt := fun i => a + BitVec.ofNat 64 (i * 128 * w)
    let row := fun i => (((s.team u.team).bank bank.toNat).row i).map (fun e => deliverElem t (mdOf s u) e.toNat)
    a.toNat % 64 = 0 → a.toNat + 4096 * w ≤ (s.team u.team).scratch →
    (gmDet (s.gang u.team u.gang).gmode = true → ∀ i, i < 32 → (partOf s u).getLsbD i = true →
      (s.team u.team).raceAt u.gang (rowAt i).toNat (128 * w) .write = none) →
    ∃ t, exec (.mst bank ka) s = .next t ∧ Within s t u ∧ FillsNote s t u ∧ CommandsNote s t ∧ t.syncCodes = s.syncCodes ∧ TagsKept s t u ∧
      LanesStored s t (partOf s u) (128 * w) (fun i => placeOf s u (rowAt i))
        (fun i b => BitVec.ofNat 8 ((rowGet (0, noCause) (row i) (b / w)).1 / 256 ^ (b % w))) ∧
      GangKeeps (s.gang u.team u.gang) (t.gang u.team u.gang) u.slices ∧
      (t.gang u.team u.gang).lanes = (s.gang u.team u.gang).lanes ∧ (t.gang u.team u.gang).k = (s.gang u.team u.gang).k ∧
      (t.gang u.team u.gang).log = logRaised s u (partOf s u) (fun i => (row i).foldl (fun x e => x ||| e.2) noCause)) ∧
  (∀ (d : VNum) (bank : BankNum) (kb : KNum) s u vals popped, GangIssues (.mrd d bank kb) { ks := [kb], dsts := [d] } u s vals s popped → BankOk s u bank →
    let b := (s.team u.team).bank bank.toNat
    let c := ((kOf s u kb).extractLsb' 0 6).toNat
    ∃ t, exec (.mrd d bank kb) s = .next t ∧ OnlyGang s t u ∧
      VectorResult (s.gang u.team u.gang) (t.gang u.team u.gang) u.slices (partOf s u) d (fun l => b.elem l (2 * c + 1) ++ b.elem l (2 * c))) ∧
  ∀ (kd : KNum) (bank : BankNum) s u vals popped, GangIssues (.mstat kd bank) {} u s vals s popped → bank.toNat < (s.team u.team).nbanks →
    let b := (s.team u.team).bank bank.toNat
    ∃ t, exec (.mstat kd bank) s = .next t ∧ OnlyGang s t u ∧ KResult (s.gang u.team u.gang) (t.gang u.team u.gang) u.slices kd
      (BitVec.ofNat 64 (b.done.toNat * 2 ^ 16 + (if b.inf then 2 ^ 10 else 0) + (if b.nan then 2 ^ 9 else 0)
        + ((s.team u.team).mmas.filter (fun m => m.bank = bank.toNat)).length))

/-! ### Reservation records -/

/-- OBRES traps where the request is misaligned, outside the window, conflicts in deterministic mode, or holds an uncorrectable
word (POISON: assumption 11, DEDUCED); else the reservation that RESULT names and that was made from this address is given
again; else malformed fields give code 3, no FREE record code 1, no span code 2, and otherwise the lowest FREE record becomes
LIVE for the team at the lowest fitting multiple of 256; RESULT and K.d take the result. OBREL of a record LIVE for the team,
read by no MMA, quarantines it; held while it fills or is read; else no effect. OBLD traps in order where its source is not
64-aligned, the record is not the team's, the source leaves the window, or, in deterministic mode, conflicts (there before the
wait: assumption 38, DEDUCED); it is held as OBREL is, then traps on an uncorrectable word; else it makes such a record FILLING
with the source's bytes, at 128 bytes a cycle. At the end of the fill, unless its context stands saved, the record is LIVE and
holds those bytes wherever the source has not changed; every other byte stays. The contents of a new record are the model's free
values, and undefined source bytes too (assumption 1: DESIGN CHOICE). (R147, R148, R149, R154, R161, R162, R163, R165, R218,
R275, R369, R392.) -/
def Obligations.RecordWords : Prop :=
  (∀ (kd ka : KNum) s u vals popped, GangIssues (.obres kd ka) { ks := [ka] } u s vals s popped →
    let a := kOf s u ka
    let key := placeOf s u a
    let home := (s.team u.team).home
    UniformTraps (.obres kd ka) s u 32 32 a .read ∧
    (UniformOk s u 32 32 a .read → s.spadBad key 32 = true → exec (.obres kd ka) s = .next (s.takeTrap u (badWordTrap s u))) ∧
    (UniformOk s u 32 32 a .read → s.spadBad key 32 = false →
    let b := if s.veils key 32 = true then s.seenBytes s.fresh key 32 else memRead s.spad key 32
    let num := fun o n => field b o n
    let old := BitVec.ofNat 64 (num 16 8)
    let x := s.record home (old.extractLsb' 0 6).toNat
    let again := old.toNat < 2 ^ 63 ∧ (x.state = .live ∨ x.state = .filling) ∧ x.team = u.team ∧ x.req = a
    let rows := num 0 4
    let cols := num 4 4
    let fmt := num 8 1
    let lb := 16 * 2 ^ num 9 1
    let good := (fmt = 1 ∨ fmt = 3 ∨ fmt = 5) ∧ num 9 1 ≤ 3 ∧ rows % 64 = 0 ∧ rows % lb = 0 ∧ 64 ≤ rows ∧ cols % 128 = 0 ∧ 128 ≤ cols ∧
      num 10 6 = 0 ∧ num 24 8 = 0
    let len := (cols / 128 * (rows / 64) * fmt * 1664 + cols * rows / lb + 255) / 256 * 256
    let free := fun i => i < 64 ∧ (s.record home i).state = .free
    let fits := fun o => o % 256 = 0 ∧ o + len ≤ 2 ^ 20 ∧
      ∀ i, i < 64 → (s.record home i).state ≠ .free → o + len ≤ (s.record home i).base ∨ (s.record home i).base + (s.record home i).len ≤ o
    ∀ (res : Word) (new : Option (Nat × Nat)),
      ((again ∧ res = old ∧ new = none) ∨
       (¬ again ∧ ¬ good ∧ res.toNat = 2 ^ 63 + 3 ∧ new = none) ∨
       (¬ again ∧ good ∧ (∀ i, ¬ free i) ∧ res.toNat = 2 ^ 63 + 1 ∧ new = none) ∨
       (¬ again ∧ good ∧ (∃ i, free i) ∧ (∀ o, ¬ fits o) ∧ res.toNat = 2 ^ 63 + 2 ∧ new = none) ∨
       (¬ again ∧ good ∧ ∃ r base, free r ∧ (∀ i, i < r → ¬ free i) ∧ fits base ∧ (∀ o, o < base → ¬ fits o) ∧
          res.toNat = base * 2 ^ 40 + r ∧ new = some (r, base))) →
      ∃ y z t, exec (.obres kd ka) s = .next t ∧
        y = { s with cores := y.cores, obuf := y.obuf, bad := y.bad, fresh := y.fresh } ∧
        (new = none → y = if s.veils key 32 = true then { s with fresh := s.fresh + 32 } else s) ∧
        (∀ r base, new = some (r, base) →
          (∀ c, y.core c = { s.core c with records := (y.core c).records }) ∧
          (∀ c i, y.record c i = if c = home ∧ i = r then
            { state := .live, team := u.team, rows := rows, cols := cols, fmt := fmt, lb := lb, req := a, base := base, len := len }
           else s.record c i) ∧
          (∀ p, p < obufKey home base ∨ obufKey home base + len ≤ p → memGet y.obuf p = memGet s.obuf p) ∧
          y.bad = { s.bad with obuf := y.bad.obuf }) ∧
        z = { y with spad := z.spad, bad := z.bad, cores := z.cores, fresh := z.fresh, cmds := z.cmds } ∧ CommandsNote y z ∧ FillsNote y z u ∧ Stored y z (key + 16) (leBytes 8 res.toNat) ∧
        Finished (let w := z.writeK u kd res
                  if gmDet (s.gang u.team u.gang).gmode = true then w.modTeam u.team (fun t => t.recordLines u.gang a.toNat 32 .read) else w) t u)) ∧
  (∀ (ka : KNum) s u vals popped, GangIssues (.obrel ka) { ks := [ka] } u s vals s popped →
    let n := (kOf s u ka).extractLsb' 0 6
    let home := (s.team u.team).home
    let r := s.record home n.toNat
    let read := (s.team u.team).mmas.any (fun m => m.record = n.toNat && decide (s.cycle < m.passEnd)) = true
    let mine := (r.state = .live ∨ r.state = .filling) ∧ r.team = u.team
    (¬ mine → ∃ t, exec (.obrel ka) s = .next t ∧ Finished s t u) ∧
    (mine → (r.state = .filling ∨ read) → exec (.obrel ka) s = .next (s.hold u (.record n))) ∧
    (mine → r.state = .live → ¬ read → ∃ t, exec (.obrel ka) s = .next t ∧
      Finished (s.modRecord home n.toNat (fun x => { x with state := .quarantined, by_ := u.gang })) t u)) ∧
  (∀ (ka kb : KNum) s u vals popped, GangIssues (.obld ka kb) { ks := [ka, kb] } u s vals s popped →
    let n := (kOf s u ka).extractLsb' 0 6
    let b := kOf s u kb
    let key := placeOf s u b
    let home := (s.team u.team).home
    let r := s.record home n.toNat
    let read := (s.team u.team).mmas.any (fun m => m.record = n.toNat && decide (s.cycle < m.passEnd)) = true
    let mine := (r.state = .live ∨ r.state = .filling) ∧ r.team = u.team
    let race := (s.team u.team).raceAt u.gang b.toNat r.len .read
    (b.toNat % 64 ≠ 0 → exec (.obld ka kb) s = .next (s.takeTrap u { cause := .misaligned, detail := b })) ∧
    (b.toNat % 64 = 0 → ¬ mine → exec (.obld ka kb) s = .next (s.takeTrap u { cause := .recordInvalid, detail := n.setWidth 64 })) ∧
    (b.toNat % 64 = 0 → mine → (s.team u.team).scratch < b.toNat + r.len →
      exec (.obld ka kb) s = .next (s.takeTrap u { cause := .scratchRange, detail := b })) ∧
    (b.toNat % 64 = 0 → mine → b.toNat + r.len ≤ (s.team u.team).scratch →
    (gmDet (s.gang u.team u.gang).gmode = true → ∀ m g, race = some (m, g) →
      exec (.obld ka kb) s = .next (s.takeTrap u { cause := .race, detail := BitVec.ofNat 64 (m * 64 % 2 ^ 22 + g * 2 ^ 24) })) ∧
    ((gmDet (s.gang u.team u.gang).gmode = true → race = none) →
    (r.state = .filling ∨ read → exec (.obld ka kb) s = .next (s.hold u (.record n))) ∧
    (r.state = .live → ¬ read → s.spadBad key r.len = true → exec (.obld ka kb) s = .next (s.takeTrap u (badWordTrap s u))) ∧
    (r.state = .live → ¬ read → s.spadBad key r.len = false →
      let veil := s.veils key r.len = true
      let bs := if veil then s.seenBytes s.fresh key r.len else memRead s.spad key r.len
      let y := ({ s with fresh := if veil then s.fresh + r.len else s.fresh } : State).modRecord home n.toNat (fun x =>
        { x with state := .filling, by_ := u.gang, fillEnd := s.cycle + (x.len + 127) / 128, src := bs, srcKey := key, seen := bs })
      ∃ t, exec (.obld ka kb) s = .next t ∧
        Finished (if gmDet (s.gang u.team u.gang).gmode = true then y.modTeam u.team (fun t => t.recordLines u.gang b.toNat r.len .read) else y) t u)))) ∧
  ∀ core n (s : State), let r := s.record core n
    r.state = .filling → r.fillEnd ≤ s.cycle → (s.team r.team).status ≠ .saved → r.src.length = r.len → r.seen.length = r.len →
    ∃ t, exec (.obldFillEnd core n) s = .next t ∧
      t = { s with cores := t.cores, obuf := t.obuf, bad := t.bad, fresh := t.fresh, teams := t.teams } ∧
      (∀ c i, t.record c i = if c = core ∧ i = n then { r with state := .live, src := [], seen := [] } else s.record c i) ∧
      (Memory.wf s.obuf = true → ∀ p, p < r.len → memGet s.spad (r.srcKey + p) = rowGet 0 r.seen p →
        memGet t.obuf (obufKey core r.base + p) = rowGet 0 r.src p) ∧
      (∀ p, p < obufKey core r.base ∨ obufKey core r.base + r.len ≤ p → memGet t.obuf p = memGet s.obuf p) ∧
      t.bad = { s.bad with obuf := t.bad.obuf } ∧ (∀ v, t.team v = { s.team v with mmas := (t.team v).mmas }) ∧
      ∀ c, t.core c = { s.core c with records := (t.core c).records }

/-! ### The issue stage -/

/-- Of the gangs of a quadrant, the one that has been ready longest becomes ACTIVE where fewer than eight are, as the youngest
of the set; with the set full, ROTATION makes the gang promoted longest ago the youngest ready one and puts the longest-ready in
its place; with nothing ready both do nothing. A wait that the watchdog covers, in a scheduled gang or sidecar that is not
stopped, traps with WAIT_TIMEOUT and its detail once the unit's limit has passed since it began, unless what it waits for has
come: every slice held in a REGANG or member-mask wait, else the sub-gang's; the arrival of the slices at a BAR is withdrawn,
but not of those that a BARA brought to the phase; before the limit nothing happens. That slices held at a BARA for their gang
are timed, with kind 7, that a REGANG or member mask is one wait, and that record, trap and withdrawal come in one step is
assumption 32 (DEDUCED). LOG_RECORD_WRITE writes the oldest record that the gang holds, or counts it as dropped. (R211, R247,
R293, R369, R376.) -/
def Obligations.IssueStageEvents : Prop :=
  (∀ core quad (s : State) x n,
    let gs := s.quadGangs core quad
    let ready := fun (y : Nat × Nat) => (s.gang y.1 y.2).ready
    let full := 8 ≤ (gs.filter (fun y => (s.gang y.1 y.2).active.isSome)).length
    x ∈ gs → ready x = some n → (∀ y ∈ gs, ∀ m, ready y = some m → y = x ∨ n < m) →
    (¬ full → exec (.promotion core quad) s =
      .next (({ s with order := s.order + 1 } : State).modGang x.1 x.2 (fun g => { g with active := some s.order, ready := none }))) ∧
    (full → ∀ z k, z ∈ gs → (s.gang z.1 z.2).active = some k → (∀ y ∈ gs, ∀ m, (s.gang y.1 y.2).active = some m → y = z ∨ k < m) →
      exec (.rotation core quad) s = .next ((({ s with order := s.order + 2 } : State).modGang z.1 z.2
        (fun g => { g with active := none, ready := some s.order })).modGang x.1 x.2
        (fun g => { g with active := some (s.order + 1), ready := none })))) ∧
  (∀ core quad (s : State), (∀ y ∈ s.quadGangs core quad, (s.gang y.1 y.2).ready = none) →
    exec (.promotion core quad) s = .next s ∧ exec (.rotation core quad) s = .next s) ∧
  (∀ team gang sub (s : State) w d,
    let t := s.team team
    let g := t.gang gang
    let slices := g.subgang sub
    let limit := if gang = 16 then t.side.watchdog else g.watchdog
    t.scheduled = true → (gang = 16 → t.side.stopped = false ∧ t.side.wait = some w) →
    (gang ≠ 16 → g.halted = false ∧ slices ≠ 0#8 ∧ (g.slice (lowSlice slices)).wait = some w) → timeoutDetail w.kind = some d →
    let come := s.cleared team gang slices w.kind = true
    (s.cycle < w.since + limit ∨ come → exec (.watchdogExpiry team gang sub) s = .next s) ∧
    (w.since + limit ≤ s.cycle → ¬ come → gang = 16 → exec (.watchdogExpiry team gang sub) s =
      .next (s.takeTrap { team := team, gang := 16, slices := 0 } { cause := .waitTimeout, detail := BitVec.ofNat 64 d })) ∧
    (w.since + limit ≤ s.cycle → ¬ come → gang ≠ 16 → ∃ held t', exec (.watchdogExpiry team gang sub) s = .next t' ∧
      (∀ p, w.kind = .regang p → held = g.regangHeld (g.pcOf slices)) ∧ (∀ kf b, w.kind = .member kf b → held = g.memberHeld (g.pcOf slices)) ∧
      ((∀ p, w.kind ≠ .regang p) → (∀ kf b, w.kind ≠ .member kf b) → held = slices) ∧
      (let y := s.takeTrap { team := team, gang := gang, slices := held } { cause := .waitTimeout, detail := BitVec.ofNat 64 d }
       ((∀ n p, w.kind ≠ .bar n p) → t' = y) ∧
       ∀ n p, w.kind = .bar n p → t' = y.modGang team gang (fun g =>
         let b := g.bar n
         let out := held &&& ~~~ b.kept
         let b' := if out = 0#8 then b
           else if b.arrived = some p then { b with arrived := none, slices := g.live &&& ~~~ out } else { b with slices := b.slices &&& ~~~ out }
         { g with bars := rowPut {} g.bars n.toNat b' })))) ∧
  ∀ team gang (s : State),
    let t := s.team team
    ((t.gang gang).log = [] → exec (.logRecordWrite team gang) s = .next s) ∧
    ∀ x rest, (t.gang gang).log = x :: rest →
      let bs := leBytes 1 x.cause.code ++ leBytes 1 gang ++ leBytes 1 t.part ++ leBytes 1 0 ++ leBytes 4 t.num ++ leBytes 4 t.grid ++
        leBytes 4 x.lanes.toNat ++ leBytes 8 x.block.toNat ++ leBytes 4 x.count ++ leBytes 2 x.core ++ leBytes 2 0
      exec (.logRecordWrite team gang) s =
        .next (({ s with kmem := ringLog s.kmem (s.part t.part).log bs } : State).modGang team gang (fun g => { g with log := rest }))

/-! ### Engines -/

/-- A running chain whose engine has reached an entry: an entry that breaks the rules faults with FCODE 1, and a word of another
KIND does nothing. Else COPYE and FILL begin (their chunks are another statement); SWADDE counts into the sync word it names;
LOOPE with COUNT 0 is passed, one entered sets LOOPLEFT and the strides and goes to its body, and one reached from its body's
end goes back while iterations are left; CONDE skips one entry where its test on the sync word holds; NEXT starts a new run;
STOP ends the command with STATE 2. An entry that was written after COPY issued, or whose bytes are undefined, makes what the
chain writes from then on undefined. Passing to entry `a` writes ENTRY a and DONEB 0 in the head, and a fault writes STATE 3
with its FCODE there and ends the command with its flag on ENC; nothing else changes but line tags. A chain asked to stop does
so at its boundary. That a CONDE which skips its LOOPE leaves the loop, and the codes of CONDE's sources and of misaligned sums,
is assumption 12 (DEDUCED); that the flag on ENC carries the head's address is assumption 28 (DEDUCED); undefined values are the
model's free ones (assumption 1: DESIGN CHOICE). (R295, R297, R298, R299, R301, R302, R303.) -/
def Obligations.ChainEntries : Prop :=
  (∀ (cmd : Nat) (s : State) b,
    let c := s.cmd cmd
    let t := s.team c.team
    let ch := c.chain
    let e := entryOf b
    let past := ch.entry + 32
    let late := (placesOf (t.key ch.entry) 32).any (fun x => c.wrote.contains x) = true ∨ s.veils (t.key ch.entry) 32 = true
    let m := if late then s.modCmd cmd (fun x => { x with chain := { x.chain with wild := true } }) else s
    let fault := fun code => Host.Outcome.next (φ := Fault) (ρ := Refusal) (m.chainFault cmd code ch.lastSync)
    s.cmdRuns cmd = true → c.skipper = false → ch.opened = false → s.entryBytes cmd = some b →
    (∀ i, chainWord e.kind cmd = some i → e.ok t = false → exec i s = .next (s.chainFault cmd 1 ch.lastSync)) ∧
    (∀ k i, k ≠ e.kind → chainWord k cmd = some i → exec i s = .next s) ∧
    (e.ok t = true →
      (∀ i, (i = .copye cmd ∧ e.kind = 1) ∨ (i = .fill cmd ∧ e.kind = 2) →
        (∀ w, entrySync t ch e = .ok w →
          exec i s = .next (m.modCmd cmd (fun x => { x with chain := { x.chain with opened := true, cur := some b } }))) ∧
        ∀ code, entrySync t ch e = .error code → exec i s = .next ((m.spoilChunk cmd e).chainFault cmd code ch.lastSync)) ∧
      (e.kind = 3 →
        (∀ key, m.namedSync t e.dst e.dwin (ch.strideOf ch.ystride) = .ok key → exec (.swadde cmd) s =
          .next ((((m.engineSync t.part key e.len 0).wildSync (m.cmd cmd).chain.wild key).modCmd cmd (fun x => { x with chain := { x.chain with lastSync := some key } })).nextEntry cmd past)) ∧
        ∀ code, m.namedSync t e.dst e.dwin (ch.strideOf ch.ystride) = .error code → exec (.swadde cmd) s = fault code) ∧
      (e.kind = 4 →
        let count := (e.src.extractLsb' 0 32).toNat
        let start := ch.entry - 32 * e.len
        (m.bodyOk t ch e.len = false → exec (.loope cmd) s = fault 1) ∧
        (m.bodyOk t ch e.len = true →
          (ch.loopAt ≠ some ch.entry → count = 0 → exec (.loope cmd) s = .next (m.nextEntry cmd past)) ∧
          (ch.loopAt ≠ some ch.entry → count ≠ 0 → exec (.loope cmd) s = .next (((m.loopLeft cmd count).modCmd cmd (fun x =>
            { x with chain := { x.chain with loopAt := some ch.entry, iter := 1, sstride := (e.src.extractLsb' 32 32).toInt,
                                             dstride := (e.dst.extractLsb' 0 32).toInt, ystride := (e.dst.extractLsb' 32 32).toInt } })).nextEntry cmd start)) ∧
          (ch.loopAt = some ch.entry → ch.loopLeft ≤ 1 → exec (.loope cmd) s = .next (((m.loopLeft cmd (ch.loopLeft - 1)).modCmd cmd (fun x =>
            { x with chain := { x.chain with loopAt := none, iter := 0 } })).nextEntry cmd past)) ∧
          (ch.loopAt = some ch.entry → 1 < ch.loopLeft → exec (.loope cmd) s = .next (((m.loopLeft cmd (ch.loopLeft - 1)).modCmd cmd (fun x =>
            { x with chain := { x.chain with iter := x.chain.iter + 1 } })).nextEntry cmd start)))) ∧
      (e.kind = 5 →
        (∀ code, m.namedSync t e.src e.swin 0 = .error code → exec (.conde cmd) s = fault code) ∧
        ∀ key, m.namedSync t e.src e.swin 0 = .ok key →
          let lo := memNat s.spad key 8
          let gap := (lo / 2 ^ 40 % 65536 + 65536 - e.dst.toNat % 65536) % 65536
          let reached := 1 ≤ gap ∧ gap < 32768
          let flags := BitVec.ofNat 3 (lo / 2 ^ 56) &&& BitVec.ofNat 3 e.fmask
          let skips := (e.cond = 0 ∧ reached) ∨ (e.cond = 1 ∧ ¬ reached) ∨ (e.cond = 2 ∧ flags ≠ 0#3)
          (¬ skips → exec (.conde cmd) s = .next (m.nextEntry cmd past)) ∧
          (skips → ch.loopAt ≠ some past → exec (.conde cmd) s = .next (m.nextEntry cmd (ch.entry + 64))) ∧
          (skips → ch.loopAt = some past → exec (.conde cmd) s = .next ((m.modCmd cmd (fun x =>
            { x with chain := { x.chain with loopAt := none, iter := 0 } })).nextEntry cmd (ch.entry + 64)))) ∧
      (e.kind = 6 → exec (.next cmd) s = .next ((m.modCmd cmd (fun x => { x with chain := { x.chain with run := e.src.toNat } })).nextEntry cmd e.src.toNat)) ∧
      (e.kind = 7 → exec (.stop cmd) s = .next ((m.windowSet c.team (c.addr + 12) 1 2).endCmd cmd none)))) ∧
  (∀ (cmd : Nat) (s : State) a,
    let c := s.cmd cmd
    let key := (s.team c.team).key c.addr
    let t := s.nextEntry cmd a
    EngineWrites s t cmd (fun x => { x with chain := { x.chain with entry := a, doneb := 0, cur := none, opened := false } }) ∧
      Stored s t key (leBytes 4 a ++ leBytes 4 0)) ∧
  (∀ (cmd code : Nat) (s : State),
    let c := s.cmd cmd
    let key := (s.team c.team).key c.addr
    let flag : OpFlag := { seq := c.seq, lane := 0, code := BitVec.ofNat 8 code, addr := BitVec.ofNat 64 c.addr, rlate := none, unsynced := true }
    ∃ y, EngineWrites s y cmd (fun x => { x with stage := .ended }) ∧ Stored s y (key + 12) [3#8, BitVec.ofNat 8 code] ∧
      s.chainFault cmd code none = y.modPartyCounter c.team c.gang .enc (fun x => (x.flag flag).finish c.seq)) ∧
  ∀ (cmd : Nat) (s : State), (s.cmd cmd).skipper = false →
    ((s.cmd cmd).stage = .stopping → exec (.chainStop cmd) s = .next (s.modCmd cmd (fun c => { c with stage := .stopped }))) ∧
    ((s.cmd cmd).stage ≠ .stopping → exec (.chainStop cmd) s = .next s)

/-- COPY_CHUNK, for a chain that runs: with an entry begun, the next chunk of it is judged, read, written, counted into its sync
word and noted in the head, in that order; it is held, without effect, where an access is held; it faults with the code of the
first failure, and then its destination bytes are undefined. Between places of the scratchpad that do not overlap, and for FILL,
the bytes written are the source's or the pattern's, and every other byte stays. Where the engine has reached no entry, or an
entry of no KIND, the chain faults. SKIPPER_CHUNK, for a command whose turn it is: a bad block ends it with FCODE 1 or 2; a
chunk's elements are scanned in order, and with the last chunk the command ends. In filter mode the records are the qualifying
elements in ascending order as far as KCAP goes, QUALIFIED and NANS count all, and the status area says so. A command asked to
stop does so at its boundary. Bytes of a faulting chunk and results that a program has interfered with are free values
(assumption 1: DESIGN CHOICE). The codes and that a destination is judged before its source are assumption 12 (DEDUCED), the
order of a block's fields, interference and OVERFLOW assumption 25 (DEDUCED), another module's answers within the chunk's step
assumption 34 (DESIGN CHOICE). (R182, R183, R184, R185, R187, R189, R190, R194, R299, R301, R359, R392.) -/
def Obligations.EngineChunks : Prop :=
  (∀ (cmd : Nat) pod (s : State), let c := s.cmd cmd
    (s.cmdRuns cmd = false ∨ c.skipper = true → exec (.copyChunk cmd pod) s = .next s) ∧
    (s.cmdRuns cmd = true → c.skipper = false → c.chain.opened = false →
      (s.entryBytes cmd = none → exec (.copyChunk cmd pod) s =
        .next (s.chainFault cmd (if entryAt (s.team c.team) c.chain.entry = true then 6 else 1) c.chain.lastSync)) ∧
      (∀ b, s.entryBytes cmd = some b → chainWord (entryOf b).kind cmd = none → exec (.copyChunk cmd pod) s = .next (s.chainFault cmd 1 c.chain.lastSync)) ∧
      ∀ b i, s.entryBytes cmd = some b → chainWord (entryOf b).kind cmd = some i → exec (.copyChunk cmd pod) s = .next s)) ∧
  (∀ (cmd : Nat) pod (s : State) b own,
    let c := s.cmd cmd
    let t := s.team c.team
    let ch := c.chain
    let e := entryOf b
    let n := min 4096 (e.len - ch.doneb)
    let word := own.or ch.lastSync
    let to_ := s.resolve t e.dst e.dwin (ch.strideOf ch.dstride + ch.doneb) n
    s.cmdRuns cmd = true → c.skipper = false → ch.opened = true → ch.cur = some b →
    (∀ code, entrySync t ch e = .error code → exec (.copyChunk cmd pod) s = .next ((s.spoilChunk cmd e).chainFault cmd code ch.lastSync)) ∧
    (entrySync t ch e = .ok own →
    (to_ = none → exec (.copyChunk cmd pod) s = .next (s.chainFault cmd 2 word)) ∧
    ∀ dst, to_ = some dst →
      (chunkSource s t ch e n pod = none → exec (.copyChunk cmd pod) s = .next ((s.scramble t dst n).chainFault cmd 2 word)) ∧
      ∀ rd, chunkSource s t ch e n pod = some rd →
        (rd.held = true → exec (.copyChunk cmd pod) s = .next s) ∧
        (rd.held = false →
          (∀ code, rd.code = some code → exec (.copyChunk cmd pod) s = .next (((rd.s.tierMiss t.part rd.far word).scramble t dst n).chainFault cmd code word)) ∧
          (rd.code = none →
            let bs := chunkBytes rd.s t ch e dst rd.bytes
            let wr := ({ rd with s := { rd.s with fresh := rd.s.fresh + n } } : Io).write t dst bs
            let y := wr.s.tierMiss t.part wr.far word
            (wr.held = true → exec (.copyChunk cmd pod) s = .next s) ∧
            (wr.held = false →
              (∀ code, wr.code = some code → exec (.copyChunk cmd pod) s = .next ((y.scramble t dst n).chainFault cmd code word)) ∧
              (wr.code = none →
                (∀ key, own = some key → y.spadBad key 16 = true → exec (.copyChunk cmd pod) s = .next ((y.scramble t dst n).chainFault cmd 6 word)) ∧
                ((∀ key, own = some key → y.spadBad key 16 = false) → exec (.copyChunk cmd pod) s = .next (y.chunkDone cmd n e own)))))))) ∧
  (∀ (cmd : Nat) pod (s : State) b core off bs,
    let c := s.cmd cmd
    let t := s.team c.team
    let ch := c.chain
    let e := entryOf b
    let n := min 4096 (e.len - ch.doneb)
    s.cmdRuns cmd = true → c.skipper = false → ch.opened = true → ch.cur = some b → ch.wild = false → entrySync t ch e = .ok none →
    s.resolve t e.dst e.dwin (ch.strideOf ch.dstride + ch.doneb) n = some (.spad core off) →
    (e.kind = 2 ∧ bs = (upTo n).map (fun j => e.src.extractLsb' (8 * ((ch.doneb + j) % 8)) 8)) ∨
    (e.kind = 1 ∧ ∃ sc so sc' so', s.resolve t e.src e.swin (ch.strideOf ch.sstride + ch.doneb) n = some (.spad sc so) ∧
      s.resolve t e.src e.swin (ch.strideOf ch.sstride) e.len = some (.spad sc' so') ∧
      (spadKey sc' so' + e.len ≤ spadKey core off ∨ spadKey core off + n ≤ spadKey sc' so') ∧ s.spadBad (spadKey sc so) n = false ∧ s.veils (spadKey sc so) n = false ∧
      bs = memRead s.spad (spadKey sc so) n) →
    ∃ y, exec (.copyChunk cmd pod) s = .next (y.chunkDone cmd n e none) ∧
      y = { s.meter t.part 2 n with spad := y.spad, bad := y.bad, teams := y.teams, fresh := y.fresh, cmds := y.cmds } ∧ CommandsNote s y ∧
      (∀ v, y.team v = { s.team v with lines := (y.team v).lines }) ∧ Stored s y (spadKey core off) bs) ∧
  (∀ (cmd n : Nat) e (s : State), let c := s.cmd cmd
    let d := c.chain.doneb + n
    (d < e.len → ∃ t, s.chunkDone cmd n e none = t ∧
      EngineWrites s t cmd (fun x => { x with chain := { x.chain with doneb := d } }) ∧
      Stored s t ((s.team c.team).key (c.addr + 4)) (leBytes 4 d)) ∧
    (e.len ≤ d → s.chunkDone cmd n e none = s.nextEntry cmd (c.chain.entry + 32))) ∧
  (∀ (cmd : Nat) (s : State),
    let c := s.cmd cmd
    let t := s.team c.team
    let b := blockFields c.skip.block
    let w := b.width
    let n := min (65536 / w) (b.count - c.skip.cursor)
    let va := b.source.toNat + c.skip.cursor * w
    (s.cmdRuns cmd = false ∨ c.skipper = false ∨ s.skipTurn cmd = false → exec (.skipperChunk cmd) s = .next s) ∧
    (s.cmdRuns cmd = true → c.skipper = true → s.skipTurn cmd = true →
      (∀ f, b.fault = some f → exec (.skipperChunk cmd) s = .next (s.skipEnd cmd (some f))) ∧
      (b.fault = none →
        (s.scanFrom t.part 3 va (n * w) = .held → exec (.skipperChunk cmd) s = .next s) ∧
        (∀ f far, s.scanFrom t.part 3 va (n * w) = .fault f (some far) → exec (.skipperChunk cmd) s = .next ((s.farMiss t.part 3 t.core far).skipEnd cmd (some f))) ∧
        (∀ f, s.scanFrom t.part 3 va (n * w) = .fault f none →
          exec (.skipperChunk cmd) s = .next ((if f = 3 then s.reportMalformed t.part va (n * w) else s).skipEnd cmd (some f))) ∧
        ∀ bs, s.scanFrom t.part 3 va (n * w) = .bytes bs →
          let badSync := b.count ≤ c.skip.cursor + n ∧ s.spadBad (t.key b.sync) 16 = true
          (badSync → exec (.skipperChunk cmd) s = .next (s.skipEnd cmd (some 6))) ∧
          (¬ badSync →
          let k := b.scan c.skip bs n
          let z := (s.meter t.part 3 (w * n)).modCmd cmd (fun x => { x with skip := { k with cursor := k.cursor + n, tainted := x.skip.tainted } })
          let z := if b.count = 0 then z else z.writeResultState cmd
          exec (.skipperChunk cmd) s = .next (if b.count ≤ c.skip.cursor + n then z.skipEnd cmd none else z))))) ∧
  (∀ (b : Block) (k : SkipCmd) bs n,
    let el := fun i => field bs (b.width * i) b.width
    let nan := fun i => b.isFloat && (widen b.ty false (el i)).isNan
    let fits := (upTo n).filter (fun i => !nan i && b.qualifies (el i) (b.widened (el i)))
    let k' := b.scan k bs n
    k'.nans = k.nans + ((upTo n).filter nan).length ∧ k'.qualified = k.qualified + fits.length ∧ k'.cursor = k.cursor ∧ k'.block = k.block ∧
    (b.mode = 0 → k.recs.length ≤ b.kcap → k'.recs = (k.recs ++ fits.map (fun i => (k.cursor + i, b.widened (el i)))).take b.kcap)) ∧
  (∀ (cmd : Nat) (s : State), let c := s.cmd cmd
    let t := s.writeResultState cmd
    c.skip.tainted = false → Memory.wf s.spad = true →
    memRead t.spad ((s.team c.team).key (c.addr + 64)) 32 =
      leBytes 8 c.skip.qualified ++ leBytes 8 c.skip.nans ++ leBytes 8 c.skip.cursor ++ leBytes 4 c.skip.recs.length ++ leBytes 4 c.skip.dropped.length) ∧
  ∀ (cmd : Nat) (s : State), (s.cmd cmd).skipper = true →
    ((s.cmd cmd).stage = .stopping → exec (.skipperStop cmd) s = .next (s.modCmd cmd (fun c => { c with stage := .stopped }))) ∧
    ((s.cmd cmd).stage ≠ .stopping → exec (.skipperStop cmd) s = .next s)

/-! ### Grids -/

/-- FRONT_END_ENTRY: with intake closed, or its page held, nothing; an unexpected SEQ is reported and takes no number; else the
number is taken, and the entry is refused as a breach of R197, as the dependent of a refused entry (R199), or for its descriptor
(R204), or is queued as WAITING on its unsatisfied dependences. The dispatcher serves, of the ready entries with teams left, one
of the highest priority (the lowest number) and the oldest of those. DISPATCH_TEAM starts its next team: every gang at ENTRY and
ready with PARAM in k0 and all else 0, the sidecar at its entry; each byte of the window is kept or becomes 0. Without a
placement, nothing happens. TEAM_RETIREMENT of a team that may retire frees its records and its place, and its grid counts it;
with the last team DONE gets its increment and the number is RETIRED. THERMAL_MIGRATION, with the core above its limit, starts
the save of the longest-resident team, to land on the coolest other core that fits it, or throttles the core. The model's
choices: whether a window byte is kept is free (assumption 1), a gang's slot (41), the kernel's stores ride with the entry (8),
the area of a migration comes with the event (18): all DESIGN CHOICE; an unreadable descriptor refused as R204 says with DONE
left alone and the hold for Z (16), retirement after the last MMA write (14) and DETAIL of what a party left (28): DEDUCED.
(R196, R197, R198, R199, R200, R203, R204, R205, R206, R207, R208, R214.) -/
def Obligations.GridEvents : Prop :=
  (∀ part prio entry stores (s : State),
    let b := (entry.map (fun w => leBytes 8 w.toNat)).flatten
    let y := s.kstores stores
    let x := y.part part
    let f := x.fe
    let q := BitVec.ofNat 32 (field b 8 4)
    let z := y.modPart part (fun x => { x with fe := { x.fe with expected := q + 1#32, taken := x.fe.taken + 1 } })
    let ndep := field b 12 1
    let dep := fun i => BitVec.ofNat 32 (field b (16 + 8 * i) 4)
    let legal := field b 0 8 % 64 = 0 ∧ ndep ≤ 4 ∧ field b 13 3 = 0 ∧ field b 48 16 = 0 ∧ (∀ i, i < 4 → field b (20 + 8 * i) 4 < 2) ∧ ∀ i, i < ndep →
      1 ≤ (q - dep i).toNat ∧ (q - dep i).toNat ≤ 4096 ∧ (q - dep i).toNat ≤ f.taken
    let hit := ∃ i, i < ndep ∧ f.seqState (dep i) = .refused
    let desc := z.descBytes part (field b 0 8)
    let go := exec (.frontEndEntry part prio entry stores) s
    (s.phase ≠ .running ∨ x.live = false ∨ x.closing = true → go = .next s) ∧
    (s.phase = .running → x.live = true → x.closing = false →
      (q ≠ f.expected → go = .next ((y.modPart part (fun x => { x with fe := { x.fe with errors := x.fe.errors ++ [(field b 8 4, 197)] } })).notify
        (.refusedEntry part (some (field b 8 4))))) ∧
      (q = f.expected →
        (y.entryHeld part b = true → go = .next s) ∧
        (y.entryHeld part b = false →
          (¬ legal → go = .next (z.refuseEntry part q none 197)) ∧
          (legal → hit → go = .next (z.refuseEntry part q none 199)) ∧
          (legal → ¬ hit → (∀ xs, desc.1 ≠ .spans xs) → go = .next (z.refuseEntry part q none 204)) ∧
          ∀ xs, legal → ¬ hit → desc.1 = .spans xs →
            (z.descLegal part desc.2 = false → go = .next (z.refuseEntry part q (some (descOf desc.2).doneWord) 204)) ∧
            (z.descLegal part desc.2 = true → ∃ g, go = .next ((z.enqueue g).setSeq part q .waiting) ∧
              g = { part := part, desc := descOf desc.2, depth := 1, prio := prio, seq := some q, deps := g.deps } ∧
              ∀ d, d ∈ g.deps ↔ ∃ i, i < ndep ∧ d = (dep i, decide (field b (20 + 8 * i) 4 % 2 = 1)) ∧ f.seqState (dep i) ≠ .retired ∧
                ¬ (field b (20 + 8 * i) 4 % 2 = 1 ∧ f.seqState (dep i) = .triggered)))))) ∧
  (∀ p (s : State), let ready := fun i => i < s.grids.length ∧ (s.grid i).live = true ∧ (s.grid i).part = p ∧ (s.grid i).deps = [] ∧ (s.grid i).placed < (s.grid i).desc.teams
    (s.served p = none → ∀ i, ¬ ready i) ∧
    ∀ i, s.served p = some i → ready i ∧ ∀ j, ready j → (s.grid i).prio < (s.grid j).prio ∨ ((s.grid i).prio = (s.grid j).prio ∧ (s.grid i).order ≤ (s.grid j).order)) ∧
  (∀ part (s : State), (s.phase ≠ .running ∧ s.phase ≠ .restarting) ∨ s.placeable part = none → exec (.dispatchTeam part) s = .next s) ∧
  (∀ part (s : State) i c x, (s.phase = .running ∨ s.phase = .restarting) → s.placeable part = some (i, c, x) →
    let g := s.grid i
    let d := g.desc
    let n := s.teams.length
    let gang := fun (k : Nat) => if k < d.gangs then { slices := (upTo 8).map (fun _ => { pc := d.entry }), k := [d.param], ready := some s.order, slot := rowGet 0 (s.openSlots c (k % 4)) (k / 4) } else ({} : Gang)
    s.served part = some i ∧ ∃ t, exec (.dispatchTeam part) s = .next t ∧
      t = { s with teams := t.teams, grids := t.grids, spad := t.spad, parts := t.parts, order := s.order + 1, fresh := t.fresh } ∧
      (∀ v, v ≠ n → t.team v = s.team v) ∧
      t.team n = { live := true, grid := i, num := g.placed, part := g.part, home := c, core := c, base := x.base, resBase := x.base,
                   scratch := d.scratch, tagBase := x.tagBase, tagSets := d.tagSets, nbanks := d.banks, physBanks := x.banks, ngang := d.gangs,
                   vregs := d.vregs, gangs := (t.team n).gangs, side := { present := d.sidecar ≠ 0#64, k := [d.param], pc := d.sidecar },
                   sideSlot := x.slot, placedAt := s.cycle } ∧
      (∀ k, (t.team n).gang k = gang k) ∧
      (∀ j, t.grid j = if j = i then { g with placed := g.placed + 1, teams := g.teams ++ [n] } else s.grid j) ∧
      (∀ p, t.part p = { s.part p with fe := { (s.part p).fe with seqs := (t.part p).fe.seqs } }) ∧
      (∀ q, g.seq = some q → g.placed = 0 → ((s.part g.part).fe.expected - 1#32 - q).toNat < 4096 → (t.part g.part).fe.seqState q = .running) ∧
      (Memory.wf s.spad = true → ∀ a, memGet t.spad a = memGet s.spad a ∨
        (spadKey c x.base ≤ a ∧ a < spadKey c x.base + d.scratch ∧ memGet t.spad a = 0#8))) ∧
  (∀ u (s : State),
    (s.mayRetire u = false → exec (.teamRetirement u) s = .next s) ∧
    (s.mayRetire u = true →
      let y := (upTo (s.team u).ngang).foldl (fun s g => s.flushLog u g) s
      exec (.teamRetirement u) s = .next ((y.reportAllLeft u).freeTeam u) ∧
      ((∀ g, g < (s.team u).ngang → (s.gang u g).log = [] ∧ ∀ f ∈ (s.gang u g).enc.flags, f.unsynced = false) →
        (∀ f ∈ (s.team u).side.enc.flags, f.unsynced = false) → exec (.teamRetirement u) s = .next (s.freeTeam u)))) ∧
  (∀ u (s : State), let i := (s.team u).grid
    let home := (s.team u).home
    let g := s.grid i
    ∃ y, s.freeTeam u = y.gridCheck i ∧ y = { s with cores := y.cores, teams := y.teams, grids := y.grids } ∧
      (∀ v, y.team v = if v = u then { s.team u with live := false } else s.team v) ∧
      (∀ j, y.grid j = if j = i then { g with retired := g.retired + 1 } else s.grid j) ∧
      (∀ c, y.core c = { s.core c with records := (y.core c).records }) ∧
      (∀ c r, y.record c r = if c = home ∧ r < (s.core home).records.length ∧ (s.record c r).team = u then { s.record c r with state := .free } else s.record c r) ∧
      (g.retired + 1 ≠ g.desc.teams → s.freeTeam u = y) ∧
      (g.live = true → g.placed = g.desc.teams → g.retired + 1 = g.desc.teams → y.doneHeld g.part g.desc.doneWord = false → g.seq = none →
        s.freeTeam u = (((if g.desc.doneWord = 0#64 then y else y.syncAt g.part g.desc.doneWord 1 (if g.fault then 1 else 0)).modGrid i
          (fun g => { g with live := false })).meter g.part 10 1)) ∧
      ∀ q, g.live = true → g.placed = g.desc.teams → g.retired + 1 = g.desc.teams → y.doneHeld g.part g.desc.doneWord = false → g.seq = some q →
        s.freeTeam u = (((((if g.desc.doneWord = 0#64 then y else y.syncAt g.part g.desc.doneWord 1 (if g.fault then 1 else 0)).modGrid i
          (fun g => { g with live := false })).meter g.part 10 1).setSeq g.part q .retired).satisfy g.part q true)) ∧
  ∀ core (heat : HeatReport) (s : State),
    let early := ∃ x, (s.core core).lastMigration = some x ∧ s.cycle < x + 625000
    let above := ∃ x, (s.core core).thermalLimit = some x ∧ x < heat.temp
    let others := heat.coolest.filter (fun d => d ≠ core)
    let hot := s.modCore core (fun c => { c with hot := true })
    (s.clocked = false ∨ ¬ above → exec (.thermalMigration core heat) s = .next s) ∧
    (s.clocked = true → above →
      (early ∨ s.phase ≠ .running ∨ hot.migrant core = none ∨ (∀ u, hot.migrant core = some u → hot.coolTarget u others = none) →
        exec (.thermalMigration core heat) s = .next (hot.modCore core (fun c => { c with throttled := true }))) ∧
      ∀ u d, ¬ early → s.phase = .running → hot.migrant core = some u → hot.coolTarget u others = some d →
        exec (.thermalMigration core heat) s = .next
          ((hot.modCore core (fun c => { c with lastMigration := some s.cycle })).startSave u heat.area others))

/-! ### Operations in flight -/

/-- HOME_REQUEST of this module's own lane at its home: held, or refused with its FCODE, or performed at once: a load reads, a
store writes, RAADD adds modulo 2^64, RCAS writes where the old value equals the one given; each but RST answers the old value,
and a lane of LDAT goes on to wait for its time. RST.F waits for the gang's earlier writes. A request of another module is
judged through its window and performed whole, and its answer sent. REMOTE_LANDING puts the value, or the poison with its code
and program counter, into the register that the operation still owes, in that lane, and nothing else. REMOTE_ACKNOWLEDGEMENT
flags a fault or a late release on OSC. When a lane is done, lanes of RST.F that it held are sent, and with the last lane the
counter counts the operation as ended. Without an answer, nothing happens. That a lane of the module itself on a FAR page counts
FARBYTES and gives no tier-log record is assumption 34 (DESIGN CHOICE). (R12, R15, R17, R25, R251, R291, R304, R305, R306, R307,
R347, R354.) -/
def Obligations.RemoteArrivals : Prop :=
  (∀ (i l : Nat) reply (s : State), let o := s.op i
    let cn := RemKind.counter o.kind
    (s.answerOf i l reply = none → exec (.remoteLanding i l reply) s = .next s ∧ exec (.remoteAcknowledgement i l reply) s = .next s) ∧
    ∀ a, s.answerOf i l reply = some a →
      (cn ≠ .olc → exec (.remoteLanding i l reply) s = .next s) ∧
      (cn ≠ .osc → exec (.remoteAcknowledgement i l reply) s = .next s) ∧
      (cn = .osc →
        let flags := fun (f : OpFlag) => exec (.remoteAcknowledgement i l reply) s = .next ((s.modPartyCounter o.team o.gang .osc (fun x => x.flag f)).laneDone i l)
        (∀ c, a = .fault c → flags { seq := o.seq, lane := l, code := c, addr := 0, rlate := none }) ∧
        (∀ st, a = .rlate st → flags { seq := o.seq, lane := l, code := 0, addr := 0, rlate := some st }) ∧
        ((∀ c, a ≠ .fault c) → (∀ st, a ≠ .rlate st) → exec (.remoteAcknowledgement i l reply) s = .next (s.laneDone i l))) ∧
      (cn = .olc → ∃ y, exec (.remoteLanding i l reply) s = .next (y.laneDone i l) ∧ OnlyGang s y ⟨o.team, o.gang, 0#8, false⟩ ∧
        y.gang o.team o.gang = { s.gang o.team o.gang with lanes := (y.gang o.team o.gang).lanes, latch := (y.gang o.team o.gang).latch } ∧
        (∀ k, k < 32 → (y.gang o.team o.gang).lane k = { (s.gang o.team o.gang).lane k with v := ((y.gang o.team o.gang).lane k).v }) ∧
        ∀ k, k < 32 → ∀ r, let x := ((s.gang o.team o.gang).lane k).vreg r
          ((y.gang o.team o.gang).lane k).vreg r =
            if k = l ∧ x.owed = some i ∧ r = o.d then landed (landing a (o.kind = .ldat)).1 o.pc x
            else if k = l ∧ x.owed = some i ∧ o.kind = .ldat ∧ r = o.d + 1#6 then landed (landing a true).2 o.pc x
            else x)) ∧
  (∀ (i l : Nat) (s : State), let o := s.op i
    let y := s.setStage i l .idle
    let others := ∀ k, k < 32 → k ≠ l → (o.lane k).stage = .idle
    (∀ j, y.op j = if j = i then { o with lanes := (y.op i).lanes } else s.op j) ∧
    (∀ k, (y.op i).lane k = if k = l then { o.lane l with stage := .idle } else o.lane k) ∧ y = { s with ops := y.ops } ∧
    let z := y.sendFlagged
    ((∀ j k, ((y.op j).lane k).stage ≠ .flagged) → z = y) ∧
    (others → s.laneDone i l = z.modPartyCounter o.team o.gang (RemKind.counter o.kind) (fun x => x.finish o.seq)) ∧
    (¬ others → s.laneDone i l = z)) ∧
  (∀ (i l : Nat) (s : State), let o := s.op i
    let x := o.lane l
    let kind := RemKind.req o.kind
    let go := exec (.homeRequest (.own i l)) s
    (s.atHome i l = false ∨ o.kind = .stmp ∨ s.flagHeld i l = true → go = .next s) ∧
    (s.atHome i l = true → o.kind ≠ .stmp → s.flagHeld i l = false →
      (s.ownPlace o.part x kind = .held → go = .next s) ∧
      (∀ c, s.ownPlace o.part x kind = .fault c → go = .next ((s.reportLane o.part x kind).setStage i l (.reply (.fault (BitVec.ofNat 8 c))))) ∧
      (∀ core off, s.ownPlace o.part x kind = .spad core off → o.kind ≠ .ldat →
        let key := spadKey core off
        let old := memNat s.spad key 8
        let stores := o.kind = .rst ∨ o.kind = .rstf
        (¬ stores → s.spadBad key 8 = true → go = .next (s.setStage i l (.reply (.fault 6#8)))) ∧
        (stores ∨ s.spadBad key 8 = false → ∃ y, go = .next (y.setStage i l (.reply (homeAnswer o.kind old))) ∧
          (homeWrites o.kind old x.val x.cmp = none → y = s) ∧
          ∀ v, homeWrites o.kind old x.val x.cmp = some v → y = { s with spad := y.spad, bad := y.bad, teams := y.teams, cmds := y.cmds } ∧ CommandsNote s y ∧
            (∀ v, y.team v = { s.team v with lines := (y.team v).lines }) ∧ Stored s y key (leBytes 8 v))) ∧
      (∀ xs win, s.ownPlace o.part x kind = .mem xs win →
        (o.kind ≠ .ldat →
          let far := match win with
            | some w => s.farMisses w.2 2 65535 xs
            | none => if anyFar xs = true then s.meter o.part 7 8 else s
          let old := leNat (far.spanBytes xs)
          let stores := o.kind = .rst ∨ o.kind = .rstf
          (¬ stores → far.spanBad xs = true → go = .next (far.setStage i l (.reply (.fault 6#8)))) ∧
          (stores ∨ far.spanBad xs = false → go = .next (State.setStage (match homeWrites o.kind old x.val x.cmp with
            | some v => far.spanWrite xs (leBytes 8 v)
            | none => far) i l (.reply (homeAnswer o.kind old))))) ∧
        (o.kind = .ldat →
          (s.tb.tstate = 3#2 → go = .next (s.setStage i l (.reply (.fault 7#8)))) ∧
          (s.tb.tstate ≠ 3#2 →
            (win = none → go = .next (s.modLane i l (fun y => { y with stage := .settling, cell := stampCell xs, window := none }))) ∧
            ∀ w, win = some w → go = .next ((s.modWindow w.1 (fun w => { w with inflight := w.inflight + 1 })).modLane i l (fun y =>
              { y with stage := .settling, cell := stampCell xs, window := some (BitVec.ofNat 7 w.1) }))))))) ∧
  ∀ (r : ExtReq) (s : State), let j := s.judgeWindow r.window r.key r.kind r.off r.size
    let go := exec (.homeRequest (.ext r)) s
    (j.1 = .held → go = .next s) ∧
    (∀ c, j.1 = .fault c → go = .next ((s.reportWindow r.window r.key r.kind r.off r.size).send (.answer r.src r.id (.fault (BitVec.ofNat 8 c)) false))) ∧
    ∀ xs, j.1 = .spans xs →
      let y := s.farMisses j.2 2 65535 xs
      let far := anyFar xs
      let read : Inbound := { src := r.src, id := r.id, window := r.window, part := j.2, cell := stampCell xs, va := (s.window r.window.toNat).base + r.off, t := r.val, read := true }
      (r.kind = .engRead → y.spanBad xs = true → go = .next (y.send (.answer r.src r.id (.fault 6#8) far))) ∧
      (r.kind = .engRead → y.spanBad xs = false → go = .next (y.send (.bytes r.src r.id (y.spanBytes xs) far))) ∧
      (r.kind = .engWrite → go = .next ((y.spanWrite xs ((r.data ++ leBytes r.size 0).take r.size)).send (.answer r.src r.id .ack far))) ∧
      (r.kind = .sync → y.spanBad xs = true → go = .next (y.send (.answer r.src r.id (.fault 6#8) far))) ∧
      (r.kind = .sync → y.spanBad xs = false → go = .next ((y.spanSync xs r.val.toNat r.cmp.toNat).send (.answer r.src r.id .ack far))) ∧
      (r.kind = .stmp → go = .next s) ∧
      (r.kind = .ldat → s.tb.tstate = 3#2 → go = .next (s.send (.answer r.src r.id (.fault 7#8) false))) ∧
      (r.kind = .ldat → s.tb.tstate ≠ 3#2 → go = .next (({ s with inbound := s.inbound ++ [read] } : State).modWindow r.window.toNat (fun w => { w with inflight := w.inflight + 1 }))) ∧
      (∀ k, (r.kind = .rld ∧ k = .rld) ∨ (r.kind = .rst ∧ k = .rst) ∨ (r.kind = .rstf ∧ k = .rst) ∨ (r.kind = .raadd ∧ k = .raadd) ∨ (r.kind = .rcas ∧ k = .rcas) →
        let old := leNat (y.spanBytes xs)
        (k ≠ .rst → y.spanBad xs = true → go = .next (y.send (.answer r.src r.id (.fault 6#8) far))) ∧
        (k = .rst ∨ y.spanBad xs = false → go = .next (State.send (match homeWrites k old r.val r.cmp with
          | some v => y.spanWrite xs (leBytes 8 v)
          | none => y) (.answer r.src r.id (homeAnswer k old) far))))

/-- STAMPED_STORE_ARRIVAL: in a gang's issue order, a lane is held, refused with its FCODE, or judged: a stamp below the oldest
slot's is counted and discarded; else the version takes its place among the slots in order of stamps and the oldest leaves,
SUSPECT at once where the stamp with Λ lies before TE, else PENDING until its release. COMMIT_WAIT_END sends the releases of an
operation whose stamp TE has passed; a stored lane is then releasing. STAMPED_RELEASE_ARRIVAL clears PENDING of the lane's
version and answers, with FCODE 6 and no change where its cell is bad. A waiting reader is sent when its TE has passed its time,
and a read is served when t + Λ lies before the home's TE and no PENDING version stands at or before t: the newest version at or
before t with SUSPECT's status, else HORIZON. A module in FAILED answers FCODE 7. A suspect mark marks the versions of its
stamp. Requests of other modules take the same course through their window. A discarded store acknowledged at once, and the test
with the Λ of the moment, are assumption 27 (DEDUCED); a mark that reaches every version of its stamp is assumption 13
(DEDUCED). (R315, R316, R317, R318, R319, R320, R322, R325, R357.) -/
def Obligations.StampedArrivals : Prop :=
  (∀ (i l : Nat) (s : State), let o := s.op i
    let x := o.lane l
    let go := exec (.stampedStoreArrival (.own i l)) s
    (s.atHome i l = false ∨ o.kind ≠ .stmp ∨ s.stampTurn i l = false → go = .next s) ∧
    (s.atHome i l = true → o.kind = .stmp → s.stampTurn i l = true →
      (s.tb.tstate = 3#2 → go = .next (s.setStage i l (.reply (.fault 7#8)))) ∧
      (s.tb.tstate ≠ 3#2 →
        (s.ownPlace o.part x .stmp = .held → go = .next s) ∧
        (∀ c, s.ownPlace o.part x .stmp = .fault c → go = .next ((s.reportLane o.part x .stmp).setStage i l (.reply (.fault (BitVec.ofNat 8 c))))) ∧
        ∀ xs win, s.ownPlace o.part x .stmp = .mem xs win →
          let cell := stampCell xs
          let z := s.insertVersion cell x.val.toNat o.stamp.toNat (.own i l)
          (s.physBad false cell 64 = true → go = .next (s.setStage i l (.reply (.fault 6#8)))) ∧
          (s.physBad false cell 64 = false →
            (z.2 = .discarded → go = .next (z.1.setStage i l (.reply .ack))) ∧
            (z.2 = .late → go = .next (z.1.setStage i l (.reply (.rlate o.stamp)))) ∧
            (z.2 = .inserted → go = .next (State.modLane (match win with
              | some w => z.1.modWindow w.1 (fun y => { y with inflight := y.inflight + 1 })
              | none => z.1) i l (fun y => { y with
                stage := if o.committed = true then .releasing o.suspect else .stored, cell := cell, window := win.map (fun w => BitVec.ofNat 7 w.1) }))))))) ∧
  (∀ (r : ExtReq) (s : State), let j := s.judgeWindow r.window r.key .stmp r.off 8
    let go := exec (.stampedStoreArrival (.ext r)) s
    let answers := fun (z : State) a => z.send (.answer r.src r.id a false)
    (r.kind ≠ .stmp → go = .next s) ∧
    (r.kind = .stmp → s.tb.tstate = 3#2 → go = .next (answers s (.fault 7#8))) ∧
    (r.kind = .stmp → s.tb.tstate ≠ 3#2 →
      (j.1 = .held → go = .next s) ∧
      (∀ c, j.1 = .fault c → go = .next (answers (s.reportWindow r.window r.key .stmp r.off 8) (.fault (BitVec.ofNat 8 c)))) ∧
      ∀ xs, j.1 = .spans xs →
        let cell := stampCell xs
        let z := s.insertVersion cell r.val.toNat (r.cmp.toNat % 2 ^ 62) (.ext r.src r.id)
        let y : Inbound := { src := r.src, id := r.id, window := r.window, part := j.2, cell := cell, va := (s.window r.window.toNat).base + r.off, t := r.cmp, read := false }
        (s.physBad false cell 64 = true → go = .next (answers s (.fault 6#8))) ∧
        (s.physBad false cell 64 = false →
          (z.2 = .discarded → go = .next (answers z.1 .ack)) ∧ (z.2 = .late → go = .next (answers z.1 (.rlate r.cmp))) ∧
          (z.2 = .inserted → go = .next (({ z.1 with inbound := z.1.inbound ++ [y] } : State).modWindow r.window.toNat (fun w => { w with inflight := w.inflight + 1 })))))) ∧
  (∀ (s : State) cell val stamp owner,
    let vs := s.slots cell
    let z := s.insertVersion cell val stamp owner
    let oldest := memNat s.hbm (cell + 8) 8 % 2 ^ 62
    let late := stamp + s.tb.lambda < s.tb.te
    let k := (vs.filter (fun v => v.tick ≤ stamp)).length
    (stamp < oldest → z = ({ s with discards := s.discards + 1 }, .discarded)) ∧
    (oldest ≤ stamp → (late → z.2 = .late) ∧ (¬ late → z.2 = .inserted) ∧ z.1 = { s with hbm := z.1.hbm, bad := z.1.bad, pendings := z.1.pendings } ∧
      (∀ a, a < cell ∨ cell + 64 ≤ a → memGet z.1.hbm a = memGet s.hbm a) ∧
      (Memory.wf s.hbm = true → val < 2 ^ 64 → stamp < 2 ^ 62 →
        z.1.slots cell = (vs.take k ++ { val := val, pending := !decide late, suspect := decide late, tick := stamp } :: vs.drop k).drop 1))) ∧
  (∀ (i : Nat) (s : State), let o := s.op i
    let due := i < s.ops.length ∧ o.kind = .stmp ∧ o.committed = false ∧ o.stamp.toNat < s.tb.te
    (¬ due → exec (.commitWaitEnd i) s = .next s) ∧ (due → exec (.commitWaitEnd i) s = .next (s.sendReleases i false))) ∧
  (∀ (i : Nat) (s : State) suspect, let o := s.op i
    let t := s.sendReleases i suspect
    t = { s with ops := t.ops, suspects := t.suspects, suspectFull := t.suspectFull, notices := t.notices, outbox := t.outbox } ∧
    (∀ j, j ≠ i → t.op j = s.op j) ∧ t.op i = { o with committed := true, suspect := suspect, lanes := (t.op i).lanes } ∧
    ∀ l, l < 32 → (t.op i).lane l = if (o.lane l).stage = .stored then { o.lane l with stage := .releasing suspect } else o.lane l) ∧
  (∀ (i l : Nat) (s : State) suspect, let o := s.op i
    let go := exec (.stampedReleaseArrival (.own i l) suspect) s
    let y := s.windowEnd (o.lane l).window
    ((∀ x, (o.lane l).stage ≠ .releasing x) → go = .next s) ∧
    (∀ x, i < s.ops.length → l < 32 → (o.lane l).stage = .releasing x →
      (s.tb.tstate = 3#2 → go = .next (y.setStage i l (.reply (.fault 7#8)))) ∧
      (s.tb.tstate ≠ 3#2 → go = .next ((y.clearPending (.own i l) x).setStage i l (.reply
        (if y.releaseBad (.own i l) = true then .fault 6#8 else if x = true then .rlate o.stamp else .ack)))))) ∧
  (∀ src id (s : State) suspect, let at_ := s.inbound.find? (fun x => x.src = src && x.id = id && !x.read)
    let go := exec (.stampedReleaseArrival (.ext src id) suspect) s
    (at_ = none → go = .next s) ∧
    ∀ x, at_ = some x →
      let y := ({ s with inbound := s.inbound.filter (fun y => !(y.src = src && y.id = id && !y.read)) } : State).windowEnd (some x.window)
      (s.tb.tstate = 3#2 → go = .next (y.send (.answer src id (.fault 7#8) false))) ∧
      (s.tb.tstate ≠ 3#2 → go = .next ((y.clearPending (.ext src id) suspect).send (.answer src id
        (if y.releaseBad (.ext src id) = true then .fault 6#8 else if suspect = true then .rlate x.t else .ack) false)))) ∧
  (∀ (i l : Nat) (s : State), let x := (s.op i).lane l
    let due := i < s.ops.length ∧ l < 32 ∧ x.stage = .port ∧ x.val.toNat < s.tb.te
    (¬ due → exec (.ldatReaderWaitEnd i l) s = .next s) ∧ (due → exec (.ldatReaderWaitEnd i l) s = .next (s.sendLane i l true))) ∧
  (∀ (s : State) cell t, let vs := s.slots cell
    let before := vs.filter (fun v => v.tick ≤ t)
    (s.settled cell t = true ↔ t + s.tb.lambda < s.tb.te ∧ (s.physBad false cell 64 = true ∨ ∀ v ∈ vs, v.pending = true → t < v.tick)) ∧
    (s.physBad false cell 64 = true → s.readAt cell t = .fault 6#8) ∧
    (s.physBad false cell 64 = false → (before = [] → s.readAt cell t = .pair 0#64 1#64) ∧
      ∀ us v, before = us ++ [v] → s.readAt cell t = .pair (BitVec.ofNat 64 v.val) (if v.suspect = true then 2#64 else 0#64))) ∧
  (∀ (i l : Nat) (s : State), let x := (s.op i).lane l
    let due := i < s.ops.length ∧ l < 32 ∧ x.stage = .settling ∧ s.settled x.cell x.val.toNat = true
    (¬ due → exec (.ldatServe (.own i l)) s = .next s) ∧
    (due → exec (.ldatServe (.own i l)) s = .next ((s.windowEnd x.window).setStage i l (.reply (s.readAt x.cell x.val.toNat))))) ∧
  (∀ src id (s : State), let at_ := s.inbound.find? (fun x => x.src = src && x.id = id && x.read)
    let go := exec (.ldatServe (.ext src id)) s
    (at_ = none → go = .next s) ∧
    ∀ x, at_ = some x → (s.settled x.cell x.t.toNat = false → go = .next s) ∧
      (s.settled x.cell x.t.toNat = true →
        go = .next ((({ s with inbound := s.inbound.filter (fun y => !(y.src = src && y.id = id && y.read)) } : State).windowEnd (some x.window)).send
          (.answer src id (s.readAt x.cell x.t.toNat) false)))) ∧
  ∀ va part window stamp (s : State),
    let p := match window with
      | none => part
      | some w => (s.window w.toNat).part
    let a := match window with
      | none => va.toNat
      | some w => (s.window w.toNat).base + va.toNat
    let j := s.judge p a 8 false true true
    ((∀ xs, j ≠ .spans xs) → exec (.suspectMark va part window stamp) s = .next (s.reportMalformed p a 8)) ∧
    ∀ xs, j = .spans xs → exec (.suspectMark va part window stamp) s = .next (s.markCell (stampCell xs) stamp.toNat)

/-! ### The timebase -/

/-- UNC is the first uncertainty plus 50 parts in a million of the ticks since the last transfer, rounded up; TE and TL are
raised to now less and plus it, and never fall; the state follows R312, and entry to WIDENED is reported. TIMEBASE_TICK counts
one tick and ten cycles, ends no wait of a gang with a stopped slice or of a saved context, and meters the teams on a core.
TIME_TRANSFER over the enabled links: an interval of a good transfer that misses the module's makes it FAILED; else the unit
takes a good transfer of the least uncertainty. Entry to FAILED answers each lane that waits at the remote port with FCODE 7 and
releases each stored version as suspect. TIMEBASE_CONFIG keeps a parameter whose new value is out of range, with status 1.
REJOIN of a FAILED unit, with a good transfer that agrees on every enabled one of the 32 links, enters HELD for twice the third
parameter; at the end of the wait every PENDING version of the waiting cells that are not bad is SUSPECT. That the first
transfer after boot meets no cross-check is assumption 3 (DESIGN CHOICE). (R232, R247, R309, R310, R311, R312, R325, R326, R327,
R359.) -/
def Obligations.TimebaseEvents : Prop :=
  (∀ (s : State), let t := s.settleTime
    let held := s.tb.rejoin ≠ none ∨ s.tb.fresh = true ∨ s.tb.lost = true ∨ s.tb.epsFail < s.tb.eps0 + (50 * s.tb.n + 999999) / 1000000
    (s.tb.tstate = 3#2 → t = s) ∧
    (s.tb.tstate ≠ 3#2 → t = { s with tb := { s.tb with tstate := t.tb.tstate }, notices := t.notices } ∧
      (held → t.tb.tstate = 2#2) ∧ (¬ held → s.tb.eps ≤ s.tb.epsCommit → t.tb.tstate = 0#2) ∧ (¬ held → s.tb.epsCommit < s.tb.eps → t.tb.tstate = 1#2) ∧
      t.notices = if t.tb.tstate = 1#2 ∧ s.tb.tstate ≠ 1#2 then s.notices ++ [.widened] else s.notices)) ∧
  (∀ (s : State), let e := s.tb.eps0 + (50 * (s.tb.n + 1) + 999999) / 1000000
    (s.clocked = false → exec .timebaseTick s = .next s) ∧
    (s.clocked = true → ∃ y : State, exec .timebaseTick s = .next y.settleTime ∧
      y = { s with tb := y.tb, cycle := s.cycle + 10, teams := y.teams, parts := y.parts } ∧
      y.tb = { s.tb with now := s.tb.now + 1, n := s.tb.n + 1, rejoin := s.tb.rejoin.map (fun k => k - 1),
                         te := max (s.tb.now + 1 - e) s.tb.te, tl := max (s.tb.now + 1 + e) s.tb.tl } ∧
      (∀ p, y.part p = { s.part p with counters := (y.part p).counters }) ∧
      (∀ p i, rowGet 0 (y.part p).counters i = rowGet 0 (s.part p).counters i + (if i = 6 ∧ p < 16 ∧ (s.part p).live = true then
        BitVec.ofNat 64 (s.teams.filter (fun t => t.part = p && t.resident)).length else 0#64)) ∧
      (∀ u, y.team u = { s.team u with gangs := (y.team u).gangs, side := (y.team u).side }) ∧
      ∀ u g, y.gang u g = { s.gang u g with slices := (y.gang u g).slices } ∧ ∀ i, (y.gang u g).slice i =
        if (s.team u).status = .saved ∨ (s.gang u g).halted = true
        then { (s.gang u g).slice i with wait := ((s.gang u g).slice i).wait.map (fun w => { w with since := w.since + 10 }) }
        else (s.gang u g).slice i)) ∧
  (∀ links (s : State), let xs := links.filter (fun x => !s.portsOff.contains x.link)
    let good := fun (x : LinkTransfer) => x ∈ xs ∧ x.ok = true
    let clash := ∃ x, good x ∧ ¬ (x.te ≤ s.tb.tl ∧ s.tb.te ≤ x.tl)
    let lost := if xs = [] then s.tb.lost else xs.all (·.lost)
    let go := exec (.timeTransfer links) s
    (s.clocked = false → go = .next s) ∧
    (s.clocked = true →
      (s.tb.tstate ≠ 3#2 → s.tb.fresh = false → clash → go = .next s.enterFailed) ∧
      (s.tb.tstate = 3#2 ∨ s.tb.fresh = true ∨ ¬ clash →
        ((∀ x, ¬ good x) → go = .next ({ s with tb := { s.tb with lost := lost } } : State).settleTime) ∧
        ((∃ x, good x) → ∃ x, good x ∧ (∀ z, good z → x.eps ≤ z.eps) ∧
          let tb := { s.tb with now := x.est, eps0 := x.eps, n := 0, fresh := false, lost := lost, te := max (x.est - x.eps) s.tb.te, tl := max (x.est + x.eps) s.tb.tl }
          go = .next (if s.tb.tstate = 3#2 then { s with tb := tb } else { s with tb := tb, suspects := [], suspectFull := false } : State).settleTime)))) ∧
  (∀ (s : State), (s.clocked = false → exec .oscillatorFault s = .next s) ∧ (s.clocked = true → exec .oscillatorFault s = .next s.enterFailed)) ∧
  (∀ (s : State), let t := s.enterFailed
    (s.tb.tstate = 3#2 → t = s) ∧
    (s.tb.tstate ≠ 3#2 → t = { s with tb := { s.tb with tstate := 3#2, rejoin := none }, ops := t.ops, suspects := t.suspects, suspectFull := t.suspectFull,
                                      outbox := t.outbox, agenda := t.agenda, notices := t.notices } ∧
      ∀ i l, l < 32 → let o := s.op i
        (t.op i).lane l = { o.lane l with stage :=
          if (o.lane l).stage = .port then .reply (.fault 7#8)
          else if (o.lane l).stage = .stored ∧ o.kind = .stmp ∧ o.committed = false then .releasing true else (o.lane l).stage })) ∧
  (∀ c f l (s : State), let go := exec (.timebaseConfig c f l) s
    (s.phase ≠ .running → go = .next s) ∧
    (s.phase = .running → ∃ c' f' l', go = .next ((({ s with tb := { s.tb with epsCommit := c', epsFail := f', lambda := l' } } : State).settleTime).notify
        (.status (if c' = c ∧ f' = f ∧ l' = l then 0 else 1))) ∧
      (c' = c ∨ c' = s.tb.epsCommit) ∧ (f' = f ∨ f' = s.tb.epsFail) ∧ (16 ≤ l ∧ l ≤ 2 ^ 20 → l' = l) ∧ (¬ (16 ≤ l ∧ l ≤ 2 ^ 20) → l' = s.tb.lambda) ∧
      (1 ≤ c ∧ c ≤ 65535 ∧ c ≤ f ∧ f ≤ 2 ^ 20 → c' = c ∧ f' = f) ∧
      (1 ≤ s.tb.epsCommit ∧ s.tb.epsCommit ≤ 65535 ∧ s.tb.epsCommit ≤ s.tb.epsFail ∧ s.tb.epsFail ≤ 2 ^ 20 →
        1 ≤ c' ∧ c' ≤ 65535 ∧ c' ≤ f' ∧ f' ≤ 2 ^ 20))) ∧
  (∀ links (s : State), let xs := links.filter (fun x => !s.portsOff.contains x.link)
    let go := exec (.rejoin links) s
    (s.phase ≠ .running ∨ s.tb.tstate ≠ 3#2 ∨ (∀ x ∈ xs, x.ok = false) → go = .next s) ∧
    (s.phase = .running → s.tb.tstate = 3#2 → (∃ x ∈ xs, x.ok = true) → ∃ x, x ∈ xs ∧ x.ok = true ∧ (∀ z ∈ xs, z.ok = true → x.eps ≤ z.eps) ∧
      let full := ∀ n, n < 32 → n ∉ s.portsOff → ∃ z ∈ xs, z.link = n ∧ z.ok = true ∧ z.te ≤ x.est + x.eps ∧ x.est - x.eps ≤ z.tl
      (¬ full → go = .next s) ∧
      (full →
        let tb := { s.tb with now := x.est, eps0 := x.eps, n := 0, fresh := false, te := max (x.est - x.eps) s.tb.te, tl := max (x.est + x.eps) s.tb.tl,
                              tstate := 2#2, rejoin := some (2 * s.tb.epsFail), lost := xs.all (·.lost) }
        go = .next { s with tb := tb, suspects := [], suspectFull := false }))) ∧
  (∀ (s : State), (s.tb.rejoin ≠ some 0 → exec .rejoinWaitEnd s = .next s) ∧
    (s.tb.rejoin = some 0 → ∃ y : State, y = s.pendings.foldl (fun s x => s.settleCell x.1) s ∧
      exec .rejoinWaitEnd s = .next (({ y with pendings := [], tb := { y.tb with rejoin := none } } : State).settleTime))) ∧
  ∀ (s : State) cell, Memory.wf s.hbm = true → s.physBad false cell 64 = false → let t := s.settleCell cell
    t = { s with hbm := t.hbm, bad := t.bad } ∧ (∀ a, a < cell ∨ cell + 64 ≤ a → memGet t.hbm a = memGet s.hbm a) ∧
    t.slots cell = (s.slots cell).map (fun v => if v.pending = true then { v with pending := false, suspect := true } else v)

/-! ### Partitions -/

/-- CREATE refuses a block that breaks its table with the status of a field that breaks it and changes nothing else; else it
takes the next epoch, writes zero to the stores of the range and to the staging lines of its colours, copies the image, reads
the tables, and writes the opening record. A usage record has the layout of R360; written, SEQUENCE rises by one and the next
holds its hash. USAGE writes one of kind 2, or fails where the ring is full; a periodic one that finds it full is skipped and
counted as dropped. HBMUNITS is sampled every 1,024 ticks. ATTEST answers with a signed report. INVALIDATE reads the tables,
which reports their malformed entries, and completes when the judged requests in its range have ended. DESTROY closes the intake
and resets each team; when the operations and engine commands have ended and the windows are free, the closing record is written
as soon as there is space, and the partition is freed. SETRINGS and TRAP_RING_SPACE let held trap records enter the ring in
order, as far as there is space. The order of a block's checks is assumption 19 (DEDUCED), SHAKE256 assumption 23 (PRESUMED);
the signature is a function without a body (6), the kernel's stores ride with the command (8), a line's colour is free (40), and
what a freed partition keeps is assumption 20: DESIGN CHOICE. (R339, R341, R342, R343, R344, R348, R359, R360, R361, R362,
R366.) -/
def Obligations.PartitionCommands : Prop :=
  (∀ block stores (s : State), let b := (block.map (fun w => leBytes 8 w.toNat)).flatten
    let y := s.kstores stores
    let go := exec (.create block stores) s
    (s.phase ≠ .running → go = .next s) ∧
    (s.phase = .running → (∀ code, y.createStatus b = some code → go = .next (y.notify (.status code))) ∧
      (y.createStatus b = none → go = .next ((y.create b).notify (.status 0))))) ∧
  (∀ (s : State) b, let f := fun off n => field b off n
    let live := fun q => q < 16 ∧ (s.part q).live = true
    let pow := fun lo hi n => lo ≤ n ∧ n ≤ hi ∧ ∃ i, i < 64 ∧ n = 2 ^ i
    let part := f 0 1 < 16 ∧ (s.part (f 0 1)).live = false
    let range := f 1 1 ≤ f 2 1 ∧ f 2 1 < s.nclusters ∧ ∀ q, live q → ¬ (f 1 1 < (s.part q).hi + 1 ∧ (s.part q).lo < f 2 1 + 1)
    let colours := f 4 2 ≠ 0 ∧ ∀ q, live q → (s.part q).colours &&& BitVec.ofNat 16 (f 4 2) = 0#16
    let image := f 8 8 % 4096 = 0 ∧ f 16 8 % 4096 = 0 ∧ 4096 ≤ f 16 8 ∧ f 16 8 ≤ 2 ^ 34 ∧ f 24 8 % 4096 = 0 ∧ f 32 8 % 32768 = 0 ∧ f 32 8 + 32768 ≤ f 16 8 ∧
      ∀ q, live q → ¬ (f 24 8 < (s.part q).tableBase + (s.part q).tableLen ∧ (s.part q).tableBase < f 24 8 + f 16 8)
    let rest := f 3 1 = 0 ∧ f 6 2 = 0 ∧ f 40 8 % 64 = 0 ∧ pow 4 1048576 (f 48 4) ∧ 10 ≤ f 52 4 ∧ f 52 4 ≤ 10000 ∧ f 56 8 % 64 = 0 ∧ pow 16 1048576 (f 64 4) ∧
      (f 68 4 = 0 ∨ (pow 1 1048576 (f 68 4) ∧ f 72 8 % 64 = 0)) ∧ f 80 48 = 0
    (s.createStatus b = none ↔ part ∧ range ∧ colours ∧ image ∧ rest ∧ s.epochNext < s.epochMax) ∧
    ∀ c, s.createStatus b = some c → (c = 1 ∧ ¬ part) ∨ (c = 2 ∧ ¬ range) ∨ (c = 3 ∧ ¬ colours) ∨ (c = 5 ∧ ¬ image) ∨ (c = 4 ∧ ¬ rest) ∨ (c = 6 ∧ s.epochMax ≤ s.epochNext)) ∧
  (∀ (s : State) b, let p := field b 0 1
    let lo := 4 * field b 1 1
    let hi := 4 * (field b 2 1 + 1)
    let x := partitionOf b (s.part p) s.epochNext s.tb.now
    let copied := memCopy s.kmem (field b 8 8) (field b 24 8) (field b 16 8)
    let t := s.create b
    let rest : State := { s with parts := t.parts, spad := t.spad, obuf := t.obuf, bad := t.bad, cores := t.cores, kmem := t.kmem, zPending := t.zPending,
                                 staging := t.staging, syncCodes := t.syncCodes, notices := t.notices }
    let mine := fun (line : Nat) => x.colours.getLsbD (Config.stagingColour line).toNat
    ∃ rec, t = { rest with epochNext := s.epochNext + 1 } ∧
      (∀ q, q ≠ p → t.part q = s.part q) ∧ t.part p = { x with hbmUnits := (t.part p).hbmUnits, sequence := 1, prevHash := shake256 rec } ∧
      x.counters = [] ∧ x.epoch = s.epochNext ∧ t.kmem = ringPush copied x.usage rec ∧ rec.length = 1536 ∧ field rec 17 1 = 0 ∧ field rec 24 8 = 0 ∧
      (∀ a, memGet t.spad a = if lo * 4194304 ≤ a ∧ a < hi * 4194304 then 0#8 else memGet s.spad a) ∧
      (∀ a, memGet t.obuf a = if lo * 1048576 ≤ a ∧ a < hi * 1048576 then 0#8 else memGet s.obuf a) ∧
      (∀ y, y ∈ t.staging ↔ y ∈ s.staging ∧ mine y.line = false) ∧ (∀ w, w ∈ t.bad.staging ↔ w ∈ s.bad.staging ∧ mine (w / 8) = false) ∧
      (∀ y, y ∈ t.syncCodes ↔ y ∈ s.syncCodes ∧ ¬ (lo * 4194304 ≤ y.1 ∧ y.1 < hi * 4194304)) ∧
      ∀ c, (lo ≤ c ∧ c < hi → (t.core c).records = [] ∧ (t.core c).badBanks = []) ∧ (¬ (lo ≤ c ∧ c < hi) → t.core c = s.core c)) ∧
  (∀ m src dst n, Memory.wf m = true → ∀ a, memGet (memCopy m src dst n) a = if dst ≤ a ∧ a < dst + n then memGet m (src + (a - dst)) else memGet m a) ∧
  (∀ (s : State) p kind, let r := s.usageRecord p kind
    let x := s.part p
    r.length = 1536 ∧ field r 0 4 = 0x6D745201 ∧ field r 4 2 = 1 ∧ field r 6 2 = 1280 ∧ field r 8 8 = s.serial.toNat ∧ field r 16 1 = p % 256 ∧
    field r 17 1 = kind % 256 ∧ field r 18 1 = s.tb.tstate.toNat ∧ field r 20 4 = x.epoch % 2 ^ 32 ∧ field r 24 8 = x.sequence % 2 ^ 64 ∧
    field r 32 8 = s.tb.te % 2 ^ 64 ∧ field r 40 8 = s.tb.tl % 2 ^ 64 ∧ (∀ i, i < 12 → field r (48 + 8 * i) 8 = (rowGet 0 x.counters i).toNat) ∧
    (r.drop 144).take 64 = (x.prevHash ++ leBytes 64 0).take 64 ∧ field r 208 4 = x.skipped % 2 ^ 32 ∧
    r.drop 256 = (Config.falconSign (r.take 256) ++ leBytes 1280 0).take 1280) ∧
  (∀ p (s : State), let meters := p < 16 ∧ (s.part p).live = true ∧ (s.part p).heldClosing = none
    let ms := 125000
    (s.phase ≠ .running → exec (.usage p) s = .next s) ∧
    (s.phase = .running → meters → s.usageFull p = false → exec (.usage p) s = .next ((s.putUsage p (s.usageRecord p 2)).notify (.status 0))) ∧
    (s.phase = .running → ¬ (meters ∧ s.usageFull p = false) → exec (.usage p) s = .next (s.notify (.status 1))) ∧
    (¬ (s.clocked = true ∧ meters ∧ (s.part p).nextDue ≤ s.tb.now) → exec (.periodicUsageRecord p) s = .next s) ∧
    (s.clocked = true → meters → (s.part p).nextDue ≤ s.tb.now →
      let y := s.modPart p (fun x => { x with nextDue := x.nextDue + x.period * ms })
      (s.usageFull p = true → exec (.periodicUsageRecord p) s =
        .next (({ y with kmem := ringDrop y.kmem (s.part p).usage } : State).modPart p (fun x => { x with skipped := x.skipped + 1 }))) ∧
      (s.usageFull p = false → exec (.periodicUsageRecord p) s = .next (y.putUsage p (s.usageRecord p 1)))) ∧
    ∀ rec, s.putUsage p rec = { s with kmem := ringPush s.kmem (s.part p).usage rec, parts := (s.putUsage p rec).parts } ∧
      (s.putUsage p rec).part p = { s.part p with sequence := (s.part p).sequence + 1, prevHash := shake256 rec, skipped := 0 } ∧
      ∀ q, q ≠ p → (s.putUsage p rec).part q = s.part q) ∧
  (∀ (s : State), (¬ (s.clocked = true ∧ s.unitsDue ≤ s.tb.now) → exec .hbmunitsSample s = .next s) ∧
    (s.clocked = true → s.unitsDue ≤ s.tb.now → ∃ y : State, exec .hbmunitsSample s = .next y ∧ y = { s with unitsDue := s.unitsDue + 1024, parts := y.parts } ∧
      (∀ p, y.part p = { s.part p with counters := (y.part p).counters }) ∧
      ∀ p i, rowGet 0 (y.part p).counters i = rowGet 0 (s.part p).counters i +
        (if i = 9 ∧ p < 16 ∧ (s.part p).live = true then BitVec.ofNat 64 (s.part p).hbmUnits else 0#64))) ∧
  (∀ part nonce (s : State), let dev := part = 0xFF#8
    let ok := dev ∨ (part.toNat < 16 ∧ (s.part part.toNat).live = true)
    (s.phase ≠ .running → exec (.attest part nonce) s = .next s) ∧
    (s.phase = .running → ¬ ok → exec (.attest part nonce) s = .next (s.notify (.status 1))) ∧
    (s.phase = .running → ok → ∃ r, exec (.attest part nonce) s = .next ((s.notify (.report r)).notify (.status 0)) ∧
      r.length = 1536 ∧ field r 0 4 = 0x5A710C3E ∧ field r 4 2 = 1 ∧ field r 8 8 = s.serial.toNat ∧ (r.drop 16).take 64 = (s.fwmeas ++ leBytes 64 0).take 64 ∧
      (r.drop 80).take 64 = (nonce ++ leBytes 64 0).take 64 ∧ field r 144 1 = part.toNat ∧ (dev → field r 148 4 = 0 ∧ field r 168 64 = 0) ∧
      (¬ dev → field r 148 4 = (s.part part.toNat).epoch % 2 ^ 32 ∧ (r.drop 168).take 64 = shake256 (s.part part.toNat).block) ∧
      field r 152 8 = s.tb.te % 2 ^ 64 ∧ field r 160 8 = s.tb.tl % 2 ^ 64 ∧ r.drop 256 = (Config.falconSign (r.take 256) ++ leBytes 1280 0).take 1280)) ∧
  (∀ p va len stores (s : State), let y := s.kstores stores
    (s.phase ≠ .running → exec (.invalidate p va len stores) s = .next s) ∧
    (s.phase = .running → (y.part p).live = false → exec (.invalidate p va len stores) s = .next (y.notify (.status 1))) ∧
    (s.phase = .running → (y.part p).live = true → ∃ t d : State, exec (.invalidate p va len stores) s = .next t ∧ d = y.readTables p ∧
      t = { d with drains := d.drains ++ [(d.judgedRefs.filter (fun r => r.2.1 = p && rangesMeet r.2.2.2 8 va len)).map (·.1)] })) ∧
  (∀ p (s : State), let t := s.readTables p
    t = { s with zPending := t.zPending, parts := t.parts, notices := t.notices } ∧ (∀ q, q ≠ p → t.part q = s.part q) ∧
    t.notices = s.notices ++ ((s.entries p).filter (fun x => x.2.isNone)).map (fun x => Notice.malformed p x.1) ∧
    t.part p = { s.part p with hbmUnits := (((s.entries p).filterMap (fun x => x.2.map (fun l => (x.1, l)))).map (fun y => y.2.units)).foldl (· + ·) 0 } ∧
    ∀ x, x ∈ t.zPending ↔ x ∈ s.zPending ∨ (x.1 = p ∧ ∃ l, (x.2, some l) ∈ s.entries p ∧ l.z = true)) ∧
  (∀ p (s : State), let go := exec (.destroy p) s
    (s.phase ≠ .running → go = .next s) ∧ (s.phase = .running → (s.part p).live = false → go = .next (s.notify (.status 1))) ∧
    (s.phase = .running → (s.part p).live = true → (s.part p).closing = true → go = .next s) ∧
    (s.phase = .running → (s.part p).live = true → (s.part p).closing = false → go = .next
      ((upTo s.teams.length).foldl (fun s u => if (s.team u).live = true ∧ (s.team u).part = p then s.resetTeam u else s) (s.modPart p (fun x => { x with closing := true }))))) ∧
  (∀ p (s : State), (s.part p).live = true → (s.part p).closing = true →
    let y := { s with windows := s.windows.map (fun w => w.close p) }
    let free := ∀ w ∈ y.windows, w.part = p → w.state = .free
    ((∃ r, (s.part p).heldClosing = some r) → s.destroyCheck p = s.writeClosing p) ∧
    let ended := s.opsEnded p = true ∧ ∀ c ∈ s.cmds, (s.team c.team).part = p → c.stage = .ended
    ((s.part p).heldClosing = none → ¬ ended → s.destroyCheck p = s) ∧
    ((s.part p).heldClosing = none → ended → ¬ free → s.destroyCheck p = y) ∧
    ((s.part p).heldClosing = none → ended → free →
      s.destroyCheck p = (y.modPart p (fun x => { x with heldClosing := some (s.usageRecord p 3) })).writeClosing p)) ∧
  (∀ p (s : State) consumer, let y : State := { s with kmem := memSet s.kmem ((s.part p).usage.base + 8) 8 consumer.toNat }
    (s.phase ≠ .running ∨ (s.part p).live = false → exec (.usageRingSpace p consumer) s = .next s) ∧
    (s.phase = .running → (s.part p).live = true →
      ((s.part p).heldClosing = none ∨ y.usageFull p = true → exec (.usageRingSpace p consumer) s = .next y) ∧
      ∀ r, (s.part p).heldClosing = some r → y.usageFull p = false → exec (.usageRingSpace p consumer) s = .next ((y.putUsage p r).freePartition p))) ∧
  (∀ p base n logBase logN (s : State), let pow := fun n => 16 ≤ n ∧ n ≤ 1048576 ∧ ∃ i, i < 64 ∧ n = 2 ^ i
    let ok := (s.part p).live = true ∧ pow n ∧ pow logN
    let rings := fun (x : Partition) => { x with trap := { set := true, base := base, n := n }, log := { set := true, base := logBase, n := logN } }
    let go := exec (.setrings p base n logBase logN) s
    (s.phase ≠ .running → go = .next s) ∧ (s.phase = .running → ¬ ok → go = .next (s.notify (.status 1))) ∧
    (s.phase = .running → ok → go = .next (((s.modPart p rings).flushTraps p).notify (.status 0)))) ∧
  (∀ p (s : State) consumer, let go := exec (.trapRingSpace p consumer) s
    (s.phase ≠ .running ∨ (s.part p).trap.set = false → go = .next s) ∧
    (s.phase = .running → (s.part p).trap.set = true →
      go = .next (({ s with kmem := memSet s.kmem ((s.part p).trap.base + 8) 8 consumer.toNat } : State).flushTraps p))) ∧
  ∀ p (s : State), let t := s.flushTraps p
    let x := s.part p
    ∃ k, k ≤ x.held.length ∧ t = { s with kmem := t.kmem, parts := t.parts } ∧ (∀ q, q ≠ p → t.part q = s.part q) ∧ t.part p = { x with held := x.held.drop k } ∧
      t.kmem = (x.held.take k).foldl (fun m h => ringPush m x.trap h.bytes) s.kmem ∧ (k = x.held.length ∨ x.trap.set = false ∨ ringFull t.kmem x.trap = true)

/-! ### Windows and pages -/

/-- WOPEN of a FREE window with legal fields opens it with its fields and nothing in flight; else status 1 and nothing changes,
as for a partition that is closing. GRANT replaces the key of its partition, device and window, and UNGRANT removes it; no other
grant changes. WREVOKE makes an open window REVOKING and waits for it, and WREVOKE_DRAIN_END makes it FREE once nothing is in
flight and answers each WREVOKE that waits. PAGE_ZEROING of a page with Z whose frame no judged request uses writes zero to
every byte of the frame, and ZEROING_COMPLETE clears bit 57 of its leaf, unless the leaf has changed. PAGE_IN ends a copy: with
the leaf still the old one with MIG and the far data good, the frame holds the far page, the leaf is the old one with tier HBM,
P and MIG clear and the new frame, and a record of kind 1 is made; with the far data bad the old leaf is restored; in that case
and where the leaf has changed, the frame goes back to the pool and a record of kind 2 is made. That the bytes of an abandoned
page-in count as FARBYTES, how the frame goes back, and the refusal for a closing partition are assumption 20 (DESIGN CHOICE).
(R346, R349, R351, R352, R353, R355, R357.) -/
def Obligations.WindowsAndPages : Prop :=
  (∀ w part base limit key r wr (s : State), let ok := w < 128 ∧ (s.window w).state = .free ∧ part < 16 ∧ (s.part part).live = true ∧ (s.part part).closing = false ∧ base % 65536 = 0 ∧
      limit % 65536 = 0 ∧ 65536 ≤ limit ∧ limit ≤ 2 ^ 34 ∧ (r = true ∨ wr = true)
    let go := exec (.wopen w part base limit key r wr) s
    (s.phase ≠ .running → go = .next s) ∧ (s.phase = .running → ¬ ok → go = .next (s.notify (.status 1))) ∧
    (s.phase = .running → ok → ∃ t : State, go = .next (t.notify (.status 0)) ∧ t = { s with windows := t.windows } ∧ (∀ v, v ≠ w → t.window v = s.window v) ∧
      t.window w = { state := .open_, part := part, base := base, limit := limit, key := key, r := r, w := wr, inflight := 0 })) ∧
  (∀ part device w key (s : State), let same := fun (g : Grant) => g.part = part ∧ g.device = device ∧ g.window = w
    (s.phase ≠ .running → exec (.grant part device w key) s = .next s ∧ exec (.ungrant part device w) s = .next s) ∧
    (s.phase = .running → (s.part part).live = false → exec (.grant part device w key) s = .next (s.notify (.status 1))) ∧
    (s.phase = .running → (s.part part).live = true → ∃ t : State, exec (.grant part device w key) s = .next (t.notify (.status 0)) ∧ t = { s with grants := t.grants } ∧
      ∀ g, g ∈ t.grants ↔ (g ∈ s.grants ∧ ¬ same g) ∨ g = { part := part, device := device, window := w, key := key }) ∧
    (s.phase = .running → ∃ t : State, exec (.ungrant part device w) s = .next (t.notify (.status 0)) ∧ t = { s with grants := t.grants } ∧
      ∀ g, g ∈ t.grants ↔ g ∈ s.grants ∧ ¬ same g)) ∧
  (∀ w (s : State), let x := s.window w
    (s.phase ≠ .running → exec (.wrevoke w) s = .next s) ∧ (s.phase = .running → x.state = .free → exec (.wrevoke w) s = .next (s.notify (.status 0))) ∧
    (s.phase = .running → x.state ≠ .free → ∃ t : State, exec (.wrevoke w) s = .next t ∧ t = { s with windows := t.windows } ∧
      (∀ v, v ≠ w → t.window v = s.window v) ∧ t.window w = { x with state := .revoking, revokers := x.revokers + 1 }) ∧
    (¬ (w < 128 ∧ x.state = .revoking ∧ x.inflight = 0) → exec (.wrevokeDrainEnd w) s = .next s) ∧
    (w < 128 → x.state = .revoking → x.inflight = 0 → ∃ t : State, exec (.wrevokeDrainEnd w) s = .next t ∧
      t = { s with windows := t.windows, notices := s.notices ++ List.replicate x.revokers (.status 0) } ∧
      (∀ v, v ≠ w → t.window v = s.window v) ∧ t.window w = { x with state := .free, revokers := 0 })) ∧
  (∀ part va (s : State), let may := fun (l : Leaf) => s.walk part va = .leaf l ∧ l.z = true ∧ (∀ x ∈ s.zeroing, ¬ (x.1 = part ∧ x.2.1 = va)) ∧
      ∀ r ∈ s.judgedRefs, ¬ (l.frame ≤ r.2.2.1 ∧ r.2.2.1 < l.frame + l.bytes)
    ((∀ l, ¬ may l) → exec (.pageZeroing part va) s = .next s) ∧
    ∀ l, may l → ∃ t y : State, exec (.pageZeroing part va) s = .next t ∧ y = { s with zPending := s.zPending.filter (fun x => x ≠ (part, va)) } ∧
      t = { y with hbm := t.hbm, bad := t.bad, zeroing := s.zeroing ++ [(part, va, l.raw)] } ∧
      ∀ a, memGet t.hbm a = if l.frame ≤ a ∧ a < l.frame + (if l.big = true then 33554432 else if l.s = true then 524288 else 65536) then 0#8 else memGet s.hbm a) ∧
  (∀ part va (s : State), let at_ := s.zeroing.find? (fun x => x.1 = part && x.2.1 = va)
    (at_ = none → exec (.zeroingComplete part va) s = .next s) ∧
    ∀ x, at_ = some x → let y := { s with zeroing := s.zeroing.filter (fun y => y ≠ x) }
      (∀ l, s.walk part va = .leaf l → l.raw = x.2.2 →
        exec (.zeroingComplete part va) s = .next { y with kmem := memSet s.kmem l.entry 8 (l.raw &&& ~~~ (1#64 <<< 57)).toNat }) ∧
      ((∀ l, s.walk part va = .leaf l → l.raw ≠ x.2.2) → exec (.zeroingComplete part va) s = .next y)) ∧
  (∀ part va (s : State), let at_ := s.pageIns.find? (fun x => x.part = part && x.va = va / 65536 * 65536)
    let go := exec (.pageIn part va) s
    (at_ = none → go = .next s) ∧
    ∀ x, at_ = some x →
      let far := (x.old.extractLsb' 16 36).toNat * 65536
      let y := ({ s with pageIns := s.pageIns.filter (fun y => y ≠ x) } : State).meter x.part 7 65536
      let same := fun (l : Leaf) => s.walk x.part x.va = .leaf l ∧ l.big = false ∧ l.raw = x.old ||| (1#64 <<< 54)
      let dropped := fun (z : State) => (z.poolReturn x.part x.frame).tierRecord x.part x.va 4 2 0 65535 x.frame
      ((∀ l, ¬ same l) → go = .next (dropped y)) ∧
      (∀ l, same l → s.physBad true far 65536 = true → go = .next (dropped { y with kmem := memSet s.kmem l.entry 8 x.old.toNat })) ∧
      ∀ l, same l → s.physBad true far 65536 = false → ∃ z : State, go = .next ((z.meter x.part 8 1).tierRecord x.part x.va 4 1 0 65535 far) ∧
        z = { y with hbm := z.hbm, bad := z.bad, kmem := memSet s.kmem l.entry 8 (promoted x.old x.frame).toNat } ∧
        (Memory.wf s.hbm = true → Memory.wf s.far = true →
          ∀ a, memGet z.hbm a = if x.frame ≤ a ∧ a < x.frame + 65536 then memGet s.far (far + (a - x.frame)) else memGet s.hbm a)) ∧
  (∀ old frame i, i < 64 → (promoted old frame).getLsbD i =
    if i = 54 ∨ i = 56 ∨ i = 61 ∨ i = 62 then false else if 16 ≤ i ∧ i < 52 then (frame / 65536).testBit (i - 16) else old.getLsbD i) ∧
  ∀ p frame (s : State), let r := (s.part p).pool
    let n := (memNat s.kmem (r.base + 8) 8 + 2 ^ 64 - 1) % 2 ^ 64
    let t := s.poolReturn p frame
    t = { s with kmem := t.kmem } ∧
    (Memory.wf s.kmem = true → memNat t.kmem (r.base + 8) 8 = n ∧ (0 < r.n → memNat t.kmem (r.base + 64 + n % r.n * 8) 8 = frame % 2 ^ 64) ∧
      ∀ a, (a < r.base + 8 ∨ r.base + 16 ≤ a) → (a < r.base + 64 + n % r.n * 8 ∨ r.base + 72 + n % r.n * 8 ≤ a) → memGet t.kmem a = memGet s.kmem a)

/-! ### Contexts -/

/-- SAVE of a placed context with a deadline in range counts in SAVES, freezes the MMA in its planes, asks engine commands to
stop and rewinds the rewindable gangs; with each gang done, and commands and array standing, it is SAVED: it enters the saves
under the next number and the area's header is written; else status 1. At the deadline with a gang that still runs, and at KILL,
the context is reset: every lane of its gangs exits, its commands end, its grid faults, it frees what it held. RESTORE with bad
headers resets it; without a fit it stays saved; else it runs at its new place as the saves in the area have it, a rewound gang
at its recipe with the snapshot's GMODE and no guard, every other where it stood, after the check of R225. A rewind keeps the
registers of the masks and empties the others. RESUME and SKIP act on the stopped slices whose record is in the ring: they go on
at the word, past its comparator where it is the one that trapped, or after it, and the gang is ready; else status 1.
Context-state access needs the context saved or the unit stopped; what is written is read back, enters the snapshot of a rewound
gang, and changes only the context named. How a save's number ties an area to State is assumption 18, what INVST drops
assumption 42 (DESIGN CHOICE); that exited lanes go back to the snapshot, and SKIP over an INV, assumption 30 (DEDUCED). (R164,
R165, R371, R372, R381, R382, R383, R384, R385, R386, R180, R238.) -/
def Obligations.ContextCommands : Prop :=
  (∀ u area d (s : State), let c := d.getD (s.team u).deadline
    let ok := u < s.teams.length ∧ (s.team u).live = true ∧ (s.team u).released = false ∧ (s.team u).status = .running ∧ 12500 ≤ c ∧ c ≤ 125000000
    (s.phase ≠ .running → exec (.save u area d) s = .next s) ∧ (s.phase = .running → ¬ ok → exec (.save u area d) s = .next (s.notify (.status 1))) ∧
    (s.phase = .running → ok → ∃ t y : State, exec (.save u area d) s = .next t ∧ t = y.saveCheck u ∧
      y = { s with teams := y.teams, parts := y.parts, cores := y.cores, cmds := y.cmds } ∧ (∀ v, v ≠ u → y.team v = s.team v) ∧
      y.team u = { s.team u with deadline := c, status := .saving (s.cycle + c), area := area, migrate := [], rewound := 0#16,
                                 mmas := (s.team u).mmas.map (fun m => if s.cycle < m.passEnd then { m with frozen := true } else m) } ∧
      (∀ p i, rowGet 0 (y.part p).counters i = rowGet 0 (s.part p).counters i + if p = (s.team u).part ∧ i = 11 then 1#64 else 0#64) ∧
      ∀ i, y.cmd i = if (s.cmd i).team = u ∧ (s.cmd i).stage = .running then { s.cmd i with stage := .stopping } else s.cmd i)) ∧
  (∀ u d (s : State), (s.team u).status = .saving d → let y := s.modTeam u Team.rewindGangs
    let z := (upTo (s.team u).ngang).foldl (fun s g => s.closeLog u g) y
    let num := z.saves.length
    (∀ g, g < 16 → (y.team u).rewound.getLsbD g = ((s.team u).rewound.getLsbD g || (decide (g < (s.team u).ngang) && (s.gang u g).mayRewind))) ∧
    (∀ g, y.gang u g = s.gang u g) ∧ (y.saveDone u = false → s.saveCheck u = y) ∧
    (y.saveDone u = true → ∃ t : State, s.saveCheck u = t.notify (.saved u) ∧ t = { z with teams := t.teams, hbm := t.hbm, bad := t.bad, cores := t.cores, fresh := t.fresh, saves := t.saves } ∧
      (∀ v, v ≠ u → t.team v = z.team v) ∧ t.team u = { z.team u with status := .saved, saveNum := num, gangs := (t.team u).gangs } ∧
      (∀ g, g < (z.team u).ngang → t.gang u g = { (if (z.team u).rewound.getLsbD g = true then (z.gang u g).rewind else z.gang u g) with
        latch := none, active := none, ready := none }) ∧
      (∀ c r, t.record c r = if c = (z.team u).home ∧ (z.record c r).team = u ∧ (z.record c r).state = .filling
        then { z.record c r with fillEnd := (z.record c r).fillEnd - s.cycle } else z.record c r) ∧
      t.saves = z.saves ++ [{ slot := u, team := t.team u, window := memRead z.spad ((z.team u).key 0) (z.team u).scratch, records := t.savedRecords u }] ∧
      (Memory.wf z.hbm = true → memRead t.hbm (z.team u).area (t.saveHeader u).length = t.saveHeader u))) ∧
  (∀ (g : Gang) l r, l < 32 → ((g.rewind).lane l).vreg r = if g.instar.vmask.getLsbD r.toNat = true then (g.lane l).vreg r else {}) ∧
  (∀ (g : Gang) r, g.rewind.kreg r = if g.instar.kmask.getLsbD r.toNat = true then g.kreg r else 0#64) ∧
  (∀ (g : Gang) r, g.rewind.kbad.getLsbD r = (g.kbad.getLsbD r && g.instar.kmask.getLsbD r)) ∧
  (∀ u (s : State), let late := u < s.teams.length ∧ (s.team u).live = true ∧ (∃ g, g < (s.team u).ngang ∧ (s.team u).gangDone g = false) ∧ ∃ d, (s.team u).status = .saving d ∧ d ≤ s.cycle
    (¬ late → exec (.saveDeadline u) s = .next s) ∧ (late → exec (.saveDeadline u) s = .next (s.resetTeam u))) ∧
  (∀ u (s : State), let ok := u < s.teams.length ∧ (s.team u).live = true
    (s.phase ≠ .running → exec (.kill u) s = .next s) ∧ (s.phase = .running → ¬ ok → exec (.kill u) s = .next (s.notify (.status 1))) ∧
    (s.phase = .running → ok → exec (.kill u) s = .next (s.resetTeam u))) ∧
  (∀ u (s : State), ∃ y z : State, s.resetTeam u = (z.freeTeam u).trigEvent (s.team u).grid ∧ y = (upTo (s.team u).ngang).foldl (fun s g => s.closeLog u g) s ∧
    z = { y with teams := z.teams, cmds := z.cmds, parts := z.parts, kmem := z.kmem, notices := z.notices, grids := z.grids } ∧
    (∀ v, v ≠ u → z.team v = y.team v) ∧ (∀ i, z.cmd i = if (y.cmd i).team = u then { y.cmd i with stage := .ended } else y.cmd i) ∧
    (∀ g, z.grid g = if g = (s.team u).grid then { y.grid g with fault := true } else y.grid g) ∧
    (z.team u).status = .retired ∧ (z.team u).wasReset = true ∧ (z.team u).side.exited = true ∧ (z.team u).queues = [] ∧ (z.team u).mmas = [] ∧
    ∀ g, g < (y.team u).gangs.length → (z.gang u g).active = none ∧ (z.gang u g).ready = none ∧ (z.gang u g).lanes = (y.gang u g).lanes ∧
      ∀ i, i < 8 → ((z.gang u g).slice i).x = 15#4 ∧ ((z.gang u g).slice i).wait = none) ∧
  (∀ u core area (s : State), let ok := u < s.teams.length ∧ (s.team u).live = true ∧ (s.team u).status = .saved
    let go := exec (.restore u core area) s
    (s.phase ≠ .running → go = .next s) ∧ (s.phase = .running → ¬ ok → go = .next (s.notify (.restored u false))) ∧
    (s.phase = .running → ok → (s.areaOk u area = false → go = .next (((s.resetTeam u).noteTrap u 0 2 0 0 0).notify (.restored u false))) ∧
      (s.areaOk u area = true → s.fitTeam u core = none → go = .next (s.notify (.restored u false))) ∧
      ∀ x, s.areaOk u area = true → s.fitTeam u core = some x → let m := s.loadArea u area
        ∃ y : State, go = .next (((y.restartMmas u).restartCmds u).notify (.restored u true)) ∧
        y = { m with teams := y.teams, order := m.order + 1, cores := y.cores } ∧ (∀ v, v ≠ u → y.team v = m.team v) ∧
        (∀ c r, y.record c r = if c = (m.team u).home ∧ (m.record c r).team = u ∧ (m.record c r).state = .filling
          then { m.record c r with fillEnd := (m.record c r).fillEnd + m.cycle } else m.record c r) ∧
        (let w := { m.team u with core := core, resBase := x.base, tagBase := x.tagBase, physBanks := x.banks, sideSlot := x.slot, placedAt := s.cycle }
         y.team u = { w with status := .running, migrate := [], rewound := 0#16, side := { (m.team u).side with wait := (y.team u).side.wait }, gangs := (y.team u).gangs }) ∧
        (∀ z, (y.team u).side.wait = some z ↔ (m.team u).side.wait = some z ∧ (∀ a n, z.kind ≠ .swait a n) ∧ ∀ q e, z.kind ≠ .qpush q e) ∧
        ∀ g, g < (m.team u).ngang → let i := (m.gang u g).instar
          (y.gang u g).lanes = (m.gang u g).lanes ∧ (y.gang u g).k = (m.gang u g).k ∧
          ((m.team u).rewound.getLsbD g = false → (y.gang u g).slices = (m.gang u g).recheck.slices ∧ (y.gang u g).gmode = (m.gang u g).gmode) ∧
          ((m.team u).rewound.getLsbD g = true → i.blen ≠ 0 → (y.gang u g).gmode = i.snap.gmode &&& ~~~ 0xF00#32 ∧ (y.gang u g).levels = [] ∧
            ∀ j, j < 8 → ((y.gang u g).slice j).pc = i.recipe + 16#64 ∧ ((y.gang u g).slice j).m = ~~~ ((m.gang u g).slice j).x ∧
              ((y.gang u g).slice j).stack = [] ∧ ((y.gang u g).slice j).ret = []))) ∧
  (∀ u area (s : State), (∀ a x, (a = area + 256 ∨ ∃ b, b < (s.team u).nbanks ∧ a = area + s.imageOffset u + 20480 * b + 8) → s.savedIn u a = some x →
    x.team.saveNum = (s.team u).saveNum) → s.loadArea u area = s) ∧
  (∀ u g sub (s : State), let x := s.gang u g
    let slices := x.stoppedOf sub
    (s.actOn u 16 sub ≠ none ↔ s.phase = .running ∧ u < s.teams.length ∧ (s.team u).live = true ∧ (s.team u).side.present = true ∧ (s.team u).side.stopped = true ∧
      s.stopRecorded (s.team u).part (s.team u).side.held = true) ∧
    (g ≠ 16 → ∀ sl, s.actOn u g sub = some sl ↔ sl = slices ∧ s.phase = .running ∧ u < s.teams.length ∧ (s.team u).live = true ∧ g < (s.team u).ngang ∧ slices ≠ 0#8 ∧
      ∀ i, i < 8 → slices.getLsbD i = true → s.stopRecorded (s.team u).part (x.slice i).held = true)) ∧
  (∀ u g sub (s : State), (s.actOn u g sub = none → exec (.resume u g sub) s = .next (s.notify (.status 1)) ∧ exec (.kernelSkip u g sub) s = .next (s.notify (.status 1))) ∧
    ∀ sl, s.actOn u g sub = some sl →
      (g = 16 → ∃ t w : State, exec (.resume u g sub) s = .next t ∧ exec (.kernelSkip u g sub) s = .next w ∧
        OnlySide s t ⟨u, 16, 0#8, false⟩ ∧ (t.team u).side = { (s.team u).side with stopped := false, held := none } ∧
        OnlySide s w ⟨u, 16, 0#8, false⟩ ∧ (w.team u).side = { (s.team u).side with stopped := false, held := none, pc := (s.team u).side.pc + 4#64 }) ∧
      (g ≠ 16 → let x := s.gang u g
        let n := s.routineAt (s.team u).part (x.pcOf sl)
        ∃ t w : State, exec (.resume u g sub) s = .next t ∧ exec (.kernelSkip u g sub) s = .next w ∧
        t = { s with teams := t.teams, order := s.order + 1 } ∧ w = { s with teams := w.teams, order := s.order + 1 } ∧
        (∀ v k, (v ≠ u ∨ k ≠ g) → t.gang v k = s.gang v k ∧ w.gang v k = s.gang v k) ∧
        (∀ i, i < 8 → (t.gang u g).skipCmp.getLsbD i = (x.skipCmp.getLsbD i || (sl.getLsbD i && decide ((x.slice i).stopPc = some (x.slice i).pc))) ∧
          (t.gang u g).slice i = if sl.getLsbD i = true
            then { placed { x.slice i with stopped := false, stopPc := none, held := none } with sub := ((t.gang u g).slice i).sub } else x.slice i) ∧
        (x.instar.body = none → x.loopEnd sl (x.pcOf sl + BitVec.ofNat 64 (4 * n)) = none →
          ∀ i, i < 8 → (w.gang u g).skipCmp.getLsbD i = (x.skipCmp.getLsbD i && !sl.getLsbD i) ∧ (w.gang u g).slice i = if sl.getLsbD i = true
            then { placed { x.slice i with stopped := false, stopPc := none, held := none, pc := (if n = 0 then (x.slice i).pc else x.pcOf sl + BitVec.ofNat 64 (4 * n)) + 4#64 } with
                   sub := ((w.gang u g).slice i).sub }
            else x.slice i) ∧
        (x.active = none → x.ready = none → (upTo 8).any (fun i => !((t.gang u g).slice i).exited && !((t.gang u g).slice i).stopped && ((t.gang u g).slice i).wait.isNone) = true →
          (t.gang u g).ready = some s.order))) ∧
  (∀ u it v (s : State), (s.ctxOpen u it = false → exec (.contextStateRead u it) s = .next (s.notify (.status 1)) ∧ exec (.contextStateWrite u it v) s = .next (s.notify (.status 1))) ∧
    (s.ctxOpen u it = true → (∃ n t, exec (.contextStateRead u it) s = .next (t.notify n) ∧ (n, t) = s.ctxRead u it ∧ t = { s with fresh := t.fresh }) ∧
      (ctxWritable it v = false → exec (.contextStateWrite u it v) s = .next (s.notify (.status 1))) ∧
      (ctxWritable it v = true → ∃ t : State, exec (.contextStateWrite u it v) s = .next (t.notify (.status 0)) ∧ t = s.ctxWrite u it v ∧
        ∀ w, w ≠ u → t.team w = s.team w))) ∧
  ∀ u g l r i v (s : State), g < 16 → l < 32 → i < 8 →
    let at_ := fun it => (s.ctxWrite u it v).ctxRead u it
    (r < 64 → (at_ (.vreg g l r)).1 = .ctxValue v.val v.full v.poison) ∧ (0 < r → r < 8 → (at_ (.pred g l r)).1 = .ctxValue (boolWord (v.val.getLsbD 0)) true false) ∧
    (r < 4 → (at_ (.bracket g l r)).1 = .ctxValue v.val true false) ∧ (at_ (.invst g l)).1 = .ctxValue (v.val &&& 0xFFFFFFFF000001FF#64) true false ∧
    (r < 32 → (at_ (.kreg g r)).1 = .ctxValue v.val true false) ∧ (r < 3 → (at_ (.lcount g r)).1 = .ctxValue ((v.val.setWidth 32).setWidth 64) true false) ∧
    (at_ (.gmode g)).1 = .ctxValue ((v.val.setWidth 32).setWidth 64) true false ∧
    ((s.team u).status ≠ .running → (at_ (.pc g i)).1 = .ctxValue v.val true false) ∧
    ((s.team u).status = .saved → (s.team u).rewound.getLsbD g = true →
      ((s.ctxWrite u (.gmode g) v).gang u g).instar.snap.gmode = v.val.setWidth 32 ∧
      (r < 3 → rowGet 0 ((s.ctxWrite u (.lcount g r) v).gang u g).instar.snap.lc r = v.val.setWidth 32) ∧
      ∀ z, (rowGet z ((s.ctxWrite u (.pc g i) v).gang u g).instar.snap.slices i).pc = v.val)

/-! ### The module -/

/-- BOOT with flash that cannot be read or an image that is refused halts and says which step failed; else FWMEAS is the
SHAKE256 of the image, a failed unit enters the disable map and the module boots again, and without one the map is applied, the
timebase is in HELD, the kernel is told of the map and the module runs. A firmware image written is kept for the next boot. A
scrub counts a correction or an uncorrectable find for its unit and marks the word of the latter; no memory changes. A health
record holds its fields at their offsets, EOL being the distance to LIMIT over the daily approach of 30 days; the discarded
stores are reported with it, and a unit with EOL below 30 enters the disable map. KERNEL_RESTART starts a restart that ends
within 300 ms, a memory error during one resets the module, and at its end the kernel runs if its image passes the checks. A
reset ends every context with a record of KIND 1 where a ring can take one, reports the records that it could not write, and
leaves the reset state over the memories and flash. A port's disabling, a link's retraining, a power cap, a hot die and a core's
limit each change their own state alone; a die that trips resets the module. What a reset keeps is assumption 22, the numbers of
units and of the disable map 21, a falling margin too (DEDUCED), failed units as an operand 33, the verdict of the key 6, the
free length of a restart 1: DESIGN CHOICE; SHAKE256 is assumption 23 (PRESUMED). (R391, R394, R395, R396, R397, R398, R399,
R214, R366, R8.) -/
def Obligations.ModuleEvents : Prop :=
  (∀ failed (s : State), let go := exec (.boot failed) s
    (s.phase ≠ .off → go = .next s) ∧
    (s.phase = .off → s.flashOk = false → go = .next { s with phase := .halted, notices := s.notices ++ [.bootHalt 1] }) ∧
    (s.phase = .off → s.flashOk = true → Config.falconAccepts s.firmware = false → go = .next { s with phase := .halted, notices := s.notices ++ [.bootHalt 2] }) ∧
    (s.phase = .off → s.flashOk = true → Config.falconAccepts s.firmware = true →
      (failed ≠ [] → go = .next { s with fwmeas := shake256 s.firmware, disabled := s.disabled ++ failed }) ∧
      (failed = [] → ∃ y : State, go = .next y ∧ y.tb.tstate = 2#2 ∧
        y = { s with fwmeas := shake256 s.firmware, nclusterMap := y.nclusterMap, nchan := y.nchan, portsOff := y.portsOff, tb := {}, unitsDue := 1024, phase := .running, notices := s.notices ++ [.disabled s.disabled] } ∧
        y.nclusterMap = ((List.range 48).filter (fun i => i ∉ s.disabled)).length ∧ y.nchan = ((List.range Config.maxChannels).filter (fun i => 1024 + i ∉ s.disabled)).length ∧
        ∀ i, i ∈ y.portsOff ↔ i < 32 ∧ 4096 + i ∈ s.disabled))) ∧
  (∀ image (s : State), exec (.firmwareImageWrite image) s = .next { s with firmware := image }) ∧
  (∀ store addr f (s : State), let day := 86400000000 * Config.cyclesPerMicrosecond
    let die := fun core => rowGet 0 ((upTo 48).filter (fun i => !s.disabled.contains i)) (core / 4) / 12
    let unit := match store with
      | SramStore.scratchpad => die (addr / 4194304)
      | SramStore.operand => die (addr / 1048576)
      | SramStore.staging => 4
    let counted := fun (y : State) unit (bad : BadMarks) => y = { s with corrections := y.corrections, uncorrectable := y.uncorrectable, bad := bad } ∧
      (y.corrections = if f = .corrected then s.corrections.filter (fun x => s.cycle < x.2 + day) ++ [(unit, s.cycle)] else s.corrections) ∧
      ∀ n, rowGet 0 y.uncorrectable n = rowGet 0 s.uncorrectable n + if f = .uncorrectable ∧ n = unit then 1 else 0
    (s.clocked = false → exec (.sramScrub store addr f) s = .next s ∧ exec (.patrolScrub addr f) s = .next s) ∧
    (s.clocked = true →
      (∃ y, exec (.patrolScrub addr f) s = .next y ∧ counted y (16 + Config.hbmStack addr % 12) { s.bad with hbm := mark f s.bad.hbm addr }) ∧
      ∃ y, exec (.sramScrub store addr f) s = .next y ∧ counted y unit (match store with
        | .scratchpad => { s.bad with spad := mark f s.bad.spad addr }
        | .operand => { s.bad with obuf := mark f s.bad.obuf addr }
        | .staging => { s.bad with staging := mark f s.bad.staging addr }))) ∧
  (∀ f l addr w, w ∈ mark f l addr ↔ w ∈ l ∨ (f = .uncorrectable ∧ w = addr / 8)) ∧
  (∀ base n samples (s : State), let go := exec (.healthRecord base n samples) s
    (s.clocked = false ∨ n = 0 → go = .next s) ∧
    (s.clocked = true → n ≠ 0 → ∃ y : State, y = samples.foldl (fun s x => s.health { set := true, base := base, n := n } x) s ∧ go = .next (y.notify (.discards y.discards)))) ∧
  (∀ r (x : HealthSample) (s : State), let day := 86400000000 * Config.cyclesPerMicrosecond
    let v := if x.monitor = 3#8 then (s.corrections.filter (fun y => y.1 = x.unit.toNat && decide (s.cycle < y.2 + day))).length else x.value.toNat
    let near := if x.monitor = 2#8 then -x.change30 else x.change30
    let dist := if x.monitor = 2#8 then v - x.limit.toNat else x.limit.toNat - v
    let eol := if near ≤ 0 then 65535 else min 65535 (dist * 30 / near.toNat)
    let b := s.healthBytes x
    let y := s.health r x
    y = { s with kmem := ringLog s.kmem r b, disabled := y.disabled } ∧
    (∀ d, d ∈ y.disabled ↔ d ∈ s.disabled ∨ (eol < 30 ∧ d ∈ wornUnits x)) ∧
    b.length = 32 ∧ field b 0 1 = x.monitor.toNat ∧ field b 1 1 = x.unit.toNat ∧ field b 2 2 = 0 ∧ field b 4 4 = v % 2 ^ 32 ∧ field b 8 4 = x.limit.toNat ∧
    field b 12 2 = eol ∧ field b 14 2 = 0 ∧ field b 16 8 = s.tb.te % 2 ^ 64 ∧
    field b 24 8 = (if x.monitor = 3#8 then rowGet 0 s.uncorrectable x.unit.toNat else x.uncorrectable.toNat) % 2 ^ 64) ∧
  (∀ cause (s : State), let go := exec (.kernelRestart cause) s
    (s.phase = .off ∨ s.phase = .halted → go = .next s) ∧
    (s.phase = .running → ∃ n, n ≤ 300000 * Config.cyclesPerMicrosecond ∧
      go = .next { s with phase := .restarting, restartEnd := s.cycle + n, fresh := s.fresh + 1 }) ∧
    (s.phase = .restarting → go = .next (if cause = .memoryError then s.moduleReset else s))) ∧
  (∀ (s : State), let done := s.phase = .restarting ∧ s.restartEnd ≤ s.cycle
    let good := s.flashOk = true ∧ Config.falconAccepts s.firmware = true
    (¬ done → s.restartCheck = s) ∧ (done → good → s.restartCheck = { s with phase := .running }) ∧ (done → ¬ good → s.restartCheck = s.moduleReset)) ∧
  (∀ (s : State), exec .moduleReset s = .next s.moduleReset ∧ ∃ z : State, ∃ lost, (z, lost) = s.endContexts ∧
    z = { s with kmem := z.kmem, parts := z.parts, notices := z.notices } ∧ (∀ p, (z.part p).held = (s.part p).held) ∧
    s.moduleReset = { State.reset with
      cycle := s.cycle, hbm := s.hbm, far := s.far, kmem := z.kmem, bad := { hbm := s.bad.hbm, far := s.bad.far },
      epochNext := s.epochNext, epochMax := s.epochMax, firmware := s.firmware, flashOk := s.flashOk, disabled := s.disabled,
      serial := s.serial, identityKey := s.identityKey, certificates := s.certificates, saves := s.saves, devid := s.devid, outbox := s.outbox,
      notices := z.notices ++ [.failed (lost + (z.parts.map (fun p => p.held.length)).foldl (· + ·) 0)], order := s.order, fresh := s.fresh }) ∧
  (∀ (s : State), s.endContexts = (upTo s.teams.length).foldl (fun (x : State × Nat) u =>
    if (s.team u).live = false then x
    else if x.1.trapHeld (s.team u).part = none then (x.1.noteTrap u 0 1 0 0 0, x.2) else (x.1, x.2 + 1)) (s, 0)) ∧
  (∀ die (heat : CoreHeat) port link (s : State), let core := heat.core
    (s.clocked = false → exec (.fabricPortDisable port) s = .next s ∧ exec (.linkRetrain link) s = .next s ∧ exec .powerCap s = .next s ∧
      exec .powerEstimateFalls s = .next s ∧ exec (.dieOvertempThrottle die) s = .next s ∧ exec (.dieOvertempTrip die) s = .next s ∧
      exec (.coreBackBelowLimit heat) s = .next s) ∧
    (s.clocked = true → exec (.dieOvertempTrip die) s = .next s.moduleReset ∧
      exec .powerCap s = .next { s with powerCap := if s.powerCap = 0 then 1 else 2 } ∧ exec .powerEstimateFalls s = .next { s with powerCap := 0 } ∧
      (port ∈ s.portsOff → exec (.fabricPortDisable port) s = .next s) ∧
      (port ∉ s.portsOff → exec (.fabricPortDisable port) s = .next { s with portsOff := s.portsOff ++ [port], notices := s.notices ++ [.disabled [4096 + port]] }) ∧
      (∃ y : State, exec (.linkRetrain link) s = .next y ∧ y = { s with retrains := y.retrains } ∧
        ∀ n, rowGet 0 y.retrains n = rowGet 0 s.retrains n + if n = link then 1 else 0) ∧
      (∃ y : State, exec (.dieOvertempThrottle die) s = .next y ∧ y = { s with dieHot := y.dieHot } ∧
        ∀ n, rowGet false y.dieHot n = (rowGet false s.dieHot n || decide (n = die))) ∧
      ((∃ x, (s.core core).thermalLimit = some x ∧ x ≤ heat.temp) → exec (.coreBackBelowLimit heat) s = .next s) ∧
      ((∀ x, (s.core core).thermalLimit = some x → heat.temp < x) → ∃ y : State, exec (.coreBackBelowLimit heat) s = .next y ∧ y = { s with cores := y.cores } ∧
        ∀ c, y.core c = if c = core then { s.core c with hot := false, throttled := false } else s.core c))) ∧
  ∀ core limit (s : State), (s.phase ≠ .running → exec (.thermalLimitSet core limit) s = .next s) ∧
    (s.phase = .running → ∃ y : State, exec (.thermalLimitSet core limit) s = .next y ∧ y = { s with cores := y.cores } ∧
      ∀ c, y.core c = if c = core then { s.core c with thermalLimit := some limit } else s.core c)
end

