-- ==== Sys2Proof/Laws/Memory.lean ====
section
/-!
SUPPORT. The laws of the sparse memories: every operation keeps the canonical form, a read after a write gives the bytes written,
a write leaves every other byte alone, and equal reads make equal memories.
-/
namespace Sys2Proof.Machine

open Sys2Proof

/-! ### The canonical form -/

/-- The canonical form above a higher bound is the canonical form above a lower one. -/
theorem memWfFrom_mono {lo hi : Nat} (h : lo ≤ hi) : ∀ {m : List Host.Cell}, memWfFrom hi m = true → memWfFrom lo m = true
  | [], _ => rfl
  | (a, b) :: t, hm => by
    simp only [memWfFrom, Bool.and_eq_true, decide_eq_true_eq] at hm ⊢
    exact ⟨Nat.le_trans h hm.1, hm.2⟩

/-- Writing one byte keeps the canonical form. -/
theorem memWfFrom_memPut {x : Nat} {v : Byte} : ∀ {m : List Host.Cell} {lo : Nat}, lo ≤ x → memWfFrom lo m = true →
    memWfFrom lo (memPut m x v) = true
  | [], lo, hx, _ => by
    by_cases hv : v = memDefault <;> simp [memPut, memWfFrom, hv, hx]
  | (a, b) :: t, lo, hx, hm => by
    have hm' := hm
    simp only [memWfFrom, Bool.and_eq_true, decide_eq_true_eq, Bool.not_eq_true', decide_eq_false_iff_not] at hm
    obtain ⟨ha, hb, ht⟩ := hm
    unfold memPut
    by_cases hxa : x < a
    · by_cases hv : v = memDefault
      · simp [hxa, hv, hm']
      · have h2 : memWfFrom (x + 1) ((a, b) :: t) = true := by simp [memWfFrom, hb, ht]; omega
        simp [hxa, hv, memWfFrom, hx] at h2 ⊢
        exact h2
    · by_cases he : a = x
      · by_cases hv : v = memDefault
        · subst he
          simp [hv]
          exact memWfFrom_mono (by omega) ht
        · subst he
          simp [hv, memWfFrom, ha, ht]
      · have h3 := memWfFrom_memPut (x := x) (v := v) (m := t) (lo := a + 1) (by omega) ht
        simp [hxa, he, memWfFrom, ha, hb, h3]

/-- Writing one byte keeps the canonical form. -/
theorem memPut_wf {m : List Host.Cell} (x : Nat) (v : Byte) (h : Memory.wf m = true) : Memory.wf (memPut m x v) = true :=
  memWfFrom_memPut (Nat.zero_le x) h

/-- Writing bytes keeps the canonical form. -/
theorem memWrite_wf : ∀ (bs : List Byte) {m : List Host.Cell} (a : Nat), Memory.wf m = true → Memory.wf (memWrite m a bs) = true
  | [], _, _, h => h
  | b :: t, _, a, h => memWrite_wf t (a + 1) (memPut_wf a b h)

/-- Writing a number keeps the canonical form. -/
theorem memSet_wf {m : List Host.Cell} (a n v : Nat) (h : Memory.wf m = true) : Memory.wf (memSet m a n v) = true :=
  memWrite_wf _ a h

/-- Dropping bytes keeps the canonical form. -/
theorem memWfFrom_filter (p : Host.Cell → Bool) : ∀ {m : List Host.Cell} {lo : Nat}, memWfFrom lo m = true →
    memWfFrom lo (m.filter p) = true
  | [], _, _ => rfl
  | (a, b) :: t, lo, hm => by
    simp only [memWfFrom, Bool.and_eq_true, decide_eq_true_eq, Bool.not_eq_true', decide_eq_false_iff_not] at hm
    have ht := memWfFrom_filter p hm.2.2
    by_cases hp : p (a, b) = true
    · simp [List.filter_cons, hp, memWfFrom, hm.1, hm.2.1, ht]
    · simp [List.filter_cons, hp]
      exact memWfFrom_mono (by omega) ht

/-- Dropping bytes keeps the canonical form. -/
theorem filter_wf {m : List Host.Cell} (p : Host.Cell → Bool) (h : Memory.wf m = true) : Memory.wf (m.filter p) = true :=
  memWfFrom_filter p h

/-- A fold of single writes keeps the canonical form. -/
theorem foldl_memPut_wf {α : Type} (at_ : α → Nat) (val : α → Byte) : ∀ (l : List α) {m : List Host.Cell}, Memory.wf m = true →
    Memory.wf (l.foldl (fun z c => memPut z (at_ c) (val c)) m) = true
  | [], _, h => h
  | c :: t, _, h => foldl_memPut_wf at_ val t (memPut_wf (at_ c) (val c) h)

/-- Clearing a range keeps the canonical form. -/
theorem memClear_wf {m : List Host.Cell} (a n : Nat) (h : Memory.wf m = true) : Memory.wf (memClear m a n) = true :=
  filter_wf _ h

/-- Copying a range keeps the canonical form. -/
theorem memCopy_wf {m : List Host.Cell} (src dst n : Nat) (h : Memory.wf m = true) : Memory.wf (memCopy m src dst n) = true :=
  foldl_memPut_wf (fun c : Host.Cell => dst + (c.1 - src)) (fun c => c.2) _ (memClear_wf dst n h)

/-- A ring entry keeps the canonical form of kernel memory. -/
theorem ringPush_wf {m : List Host.Cell} (r : Ring) (e : List Byte) (h : Memory.wf m = true) : Memory.wf (ringPush m r e) = true :=
  memSet_wf _ _ _ (memWrite_wf _ _ h)

/-- A count of dropped entries keeps the canonical form of kernel memory. -/
theorem ringDrop_wf {m : List Host.Cell} (r : Ring) (h : Memory.wf m = true) : Memory.wf (ringDrop m r) = true :=
  memSet_wf _ _ _ h

/-- A logged entry keeps the canonical form of kernel memory. -/
theorem ringLog_wf {m : List Host.Cell} (r : Ring) (e : List Byte) (h : Memory.wf m = true) : Memory.wf (ringLog m r e) = true := by
  unfold ringLog
  split
  · split
    · exact ringDrop_wf r h
    · exact h
  · exact ringPush_wf r e h

/-! ### Reading after writing -/

/-- Below the first listed address, every byte reads as the default. -/
theorem memGet_below : ∀ {m : List Host.Cell} {lo x : Nat}, memWfFrom lo m = true → x < lo → memGet m x = memDefault
  | [], _, _, _, _ => rfl
  | (a, b) :: t, lo, x, hm, hx => by
    simp only [memWfFrom, Bool.and_eq_true, decide_eq_true_eq] at hm
    have hne : a ≠ x := by omega
    simp [memGet, hne]
    exact memGet_below hm.2.2 (by omega)

/-- The byte written is the byte read. -/
theorem memGet_memPut_same {v : Byte} {x : Nat} : ∀ {m : List Host.Cell} {lo : Nat}, memWfFrom lo m = true →
    memGet (memPut m x v) x = v
  | [], _, _ => by
    by_cases hv : v = memDefault <;> simp [memPut, memGet, hv]
  | (a, b) :: t, lo, hm => by
    have hm' := hm
    simp only [memWfFrom, Bool.and_eq_true, decide_eq_true_eq] at hm
    unfold memPut
    by_cases hxa : x < a
    · by_cases hv : v = memDefault
      · simp only [hxa, hv, if_true]
        have : memWfFrom a ((a, b) :: t) = true := by
          simp only [memWfFrom, Bool.and_eq_true, decide_eq_true_eq, Nat.le_refl, true_and]
          exact hm.2
        exact memGet_below this hxa
      · simp [hxa, hv, memGet]
    · by_cases he : a = x
      · by_cases hv : v = memDefault
        · subst he
          simp only [hv, if_true, Nat.lt_irrefl, if_false]
          exact memGet_below hm.2.2 (by omega)
        · subst he
          simp [hv, memGet]
      · simp only [hxa, he, if_false, memGet]
        exact memGet_memPut_same hm.2.2

/-- Every other byte reads as before. -/
theorem memGet_memPut_other {v : Byte} {x y : Nat} (h : x ≠ y) : ∀ (m : List Host.Cell), memGet (memPut m x v) y = memGet m y
  | [] => by
    by_cases hv : v = memDefault <;> simp [memPut, memGet, hv, h]
  | (a, b) :: t => by
    unfold memPut
    by_cases hxa : x < a
    · by_cases hv : v = memDefault <;> simp [hxa, hv, memGet, h]
    · by_cases he : a = x
      · subst he
        by_cases hv : v = memDefault <;> simp [hv, memGet, h]
      · simp only [hxa, he, if_false, memGet, memGet_memPut_other h t]

/-- A write of bytes leaves every byte outside alone. -/
theorem memGet_memWrite_other : ∀ (bs : List Byte) (m : List Host.Cell) (a y : Nat), (y < a ∨ a + bs.length ≤ y) →
    memGet (memWrite m a bs) y = memGet m y
  | [], _, _, _, _ => rfl
  | b :: t, m, a, y, h => by
    simp only [List.length_cons] at h
    show memGet (memWrite (memPut m a b) (a + 1) t) y = _
    rw [memGet_memWrite_other t _ (a + 1) y (by omega), memGet_memPut_other (by omega)]

/-- A byte of a write reads as it was written. -/
theorem memGet_memWrite_same : ∀ (bs : List Byte) {m : List Host.Cell} (a i : Nat) (_ : Memory.wf m = true) (hi : i < bs.length),
    memGet (memWrite m a bs) (a + i) = bs[i]
  | b :: t, m, a, 0, h, _ => by
    show memGet (memWrite (memPut m a b) (a + 1) t) a = b
    rw [memGet_memWrite_other t _ (a + 1) a (by omega)]
    exact memGet_memPut_same h
  | b :: t, m, a, i + 1, h, hi => by
    have ih := memGet_memWrite_same t (a + 1) i (memPut_wf a b h) (by simpa using hi)
    have e : a + (i + 1) = a + 1 + i := by omega
    rw [e]
    simpa [memWrite] using ih

/-- The bytes read are as many as asked for. -/
@[simp] theorem memRead_length (m : List Host.Cell) : ∀ (n a : Nat), (memRead m a n).length = n
  | 0, _ => rfl
  | n + 1, a => by simp [memRead, memRead_length m n (a + 1)]

/-- Two memories that agree on a range give the same bytes. -/
theorem memRead_congr {m m' : List Host.Cell} : ∀ (n a : Nat), (∀ x, a ≤ x → x < a + n → memGet m x = memGet m' x) →
    memRead m a n = memRead m' a n
  | 0, _, _ => rfl
  | n + 1, a, h => by
    simp only [memRead]
    rw [h a (by omega) (by omega), memRead_congr n (a + 1) (fun x h1 h2 => h x (by omega) (by omega))]

/-- Reading back the whole of a write gives what was written. -/
theorem memRead_memWrite_same : ∀ (bs : List Byte) {m : List Host.Cell} (a : Nat), Memory.wf m = true →
    memRead (memWrite m a bs) a bs.length = bs
  | [], _, _, _ => rfl
  | b :: t, m, a, h => by
    have h0 : memGet (memWrite m a (b :: t)) a = b := memGet_memWrite_same (b :: t) a 0 h (by simp)
    have h1 : memRead (memWrite m a (b :: t)) (a + 1) t.length = t := memRead_memWrite_same t (a + 1) (memPut_wf a b h)
    simp only [List.length_cons, memRead]
    rw [h0, h1]

/-- A range that a write does not touch reads as before. -/
theorem memRead_memWrite_other (bs : List Byte) (m : List Host.Cell) (a y n : Nat) (h : y + n ≤ a ∨ a + bs.length ≤ y) :
    memRead (memWrite m a bs) y n = memRead m y n :=
  memRead_congr n y (fun x h1 h2 => memGet_memWrite_other bs m a x (by omega))

/-! ### Numbers -/

/-- The little-endian bytes of a number are as many as asked for. -/
@[simp] theorem leBytes_length : ∀ (n v : Nat), (leBytes n v).length = n
  | 0, _ => rfl
  | n + 1, v => by simp [leBytes, leBytes_length n]

/-- Little-endian bytes stand for the number they were made from, modulo their width (R3). -/
theorem leNat_leBytes : ∀ (n v : Nat), leNat (leBytes n v) = v % 256 ^ n
  | 0, v => by simp [leBytes, leNat, Nat.mod_one]
  | n + 1, v => by
    simp only [leBytes, leNat, leNat_leBytes n, BitVec.toNat_ofNat]
    have e : (256 : Nat) ^ (n + 1) = 256 * 256 ^ n := by ring
    rw [e, Nat.mod_mul]

/-- The number read back is the number written. -/
theorem memNat_memSet {m : List Host.Cell} (a n v : Nat) (h : Memory.wf m = true) : memNat (memSet m a n v) a n = v % 256 ^ n := by
  have := memRead_memWrite_same (leBytes n v) a h
  rw [leBytes_length] at this
  unfold memNat memSet
  rw [this, leNat_leBytes]

/-- A number at another place reads as before. -/
theorem memNat_memSet_other (m : List Host.Cell) (a n v y k : Nat) (h : y + k ≤ a ∨ a + n ≤ y) :
    memNat (memSet m a n v) y k = memNat m y k := by
  unfold memNat memSet
  rw [memRead_memWrite_other _ _ _ _ _ (by simpa using h)]

/-! ### Equal reads, equal memories -/

/-- Two memories in canonical form that read alike are equal. -/
theorem memory_ext : ∀ {m m' : List Host.Cell} {lo : Nat}, memWfFrom lo m = true → memWfFrom lo m' = true →
    (∀ x, memGet m x = memGet m' x) → m = m'
  | [], [], _, _, _, _ => rfl
  | [], (a, b) :: t, lo, _, h', hx => by
    simp only [memWfFrom, Bool.and_eq_true, decide_eq_true_eq, Bool.not_eq_true', decide_eq_false_iff_not] at h'
    have := hx a
    simp [memGet] at this
    exact absurd this.symm h'.2.1
  | (a, b) :: t, [], lo, h, _, hx => by
    simp only [memWfFrom, Bool.and_eq_true, decide_eq_true_eq, Bool.not_eq_true', decide_eq_false_iff_not] at h
    have := hx a
    simp [memGet] at this
    exact absurd this h.2.1
  | (a, b) :: t, (a', b') :: t', lo, h, h', hx => by
    simp only [memWfFrom, Bool.and_eq_true, decide_eq_true_eq, Bool.not_eq_true', decide_eq_false_iff_not] at h h'
    obtain ⟨_, hb, ht⟩ := h
    obtain ⟨_, hb', ht'⟩ := h'
    have haa : a = a' := by
      by_contra hne
      rcases Nat.lt_or_gt_of_ne hne with hl | hl
      · have := hx a
        simp [memGet, Ne.symm hne] at this
        rw [memGet_below ht' (by omega)] at this
        exact hb this
      · have := hx a'
        simp [memGet, hne] at this
        rw [memGet_below ht (by omega)] at this
        exact hb' this.symm
    subst haa
    have hbb : b = b' := by simpa [memGet] using hx a
    subst hbb
    have htt : t = t' := memory_ext ht ht' (fun x => by
      by_cases hxa : a = x
      · subst hxa
        rw [memGet_below ht (by omega), memGet_below ht' (by omega)]
      · have := hx x
        simpa [memGet, hxa] using this)
    rw [htt]

end Sys2Proof.Machine
end

