-- ==== Sys2Proof/Laws/Canonical.lean ====
section
/-!
SUPPORT. The form of what an operation answers, and the operations over memory, registers and issue: each keeps the memories in
canonical form.
-/
namespace Sys2Proof.Machine

open Sys2Proof Sys2Proof.Safety

/-! ### The form of what an operation answers -/

/-- A stop's states have their memories in canonical form. -/
inductive StopWf : Stop → Prop where
  | trap (t : TrapInfo) : StopWf (.trap t)
  | trapIn (t : TrapInfo) {s : State} (h : MemoriesWf s) : StopWf (.trapIn t s)
  | wait (k : WaitKind) : StopWf (.wait k none)
  | waitIn (k : WaitKind) {s : State} (h : MemoriesWf s) : StopWf (.wait k (some s))
/-- So has the stop of a check, where it stops. -/
inductive OptWf : Option Stop → Prop where
  | none : OptWf none
  | some {x : Stop} (h : StopWf x) : OptWf (some x)
/-- So has the state of an effect, or its stop. -/
inductive ExWf : Except Stop State → Prop where
  | ok {s : State} (h : MemoriesWf s) : ExWf (.ok s)
  | error {x : Stop} (h : StopWf x) : ExWf (.error x)
/-- So has the state after a read, or its stop. -/
inductive ReadWf {α : Type} : Except Stop (α × State) → Prop where
  | ok (a : α) {s : State} (h : MemoriesWf s) : ReadWf (.ok (a, s))
  | error {x : Stop} (h : StopWf x) : ReadWf (.error x)
/-- So has the state after the reading of operands, or its stop. -/
inductive IssueWf {α β : Type} : Except Stop (α × State × β) → Prop where
  | ok (a : α) (b : β) {s : State} (h : MemoriesWf s) : IssueWf (.ok (a, s, b))
  | error {x : Stop} (h : StopWf x) : IssueWf (.error x)
/-- So has the stop of a check that answers a value. -/
inductive PopWf {α : Type} : Except Stop α → Prop where
  | ok (a : α) : PopWf (.ok a)
  | error {x : Stop} (h : StopWf x) : PopWf (.error x)
/-- So has a next state. -/
inductive OutWf : Host.Outcome State Fault Refusal → Prop where
  | next {s : State} (h : MemoriesWf s) : OutWf (.next s)
  | fault (f : Fault) : OutWf (.fault f)
  | refused (r : Refusal) : OutWf (.refused r)

theorem ite_keeps {c : Prop} [Decidable c] {a b : State} (ha : MemoriesWf a) (hb : MemoriesWf b) : MemoriesWf (if c then a else b) := by
  split
  · exact ha
  · exact hb
theorem foldl_keeps {α : Type} {f : State → α → State} (h : ∀ s a, MemoriesWf s → MemoriesWf (f s a)) :
    ∀ {l : List α} {s : State}, MemoriesWf s → MemoriesWf (l.foldl f s)
  | [], _, hs => hs
  | x :: l, s, hs => foldl_keeps h (l := l) (h s x hs)
theorem firstStop_nil : OptWf (firstStop []) := .none
theorem firstStop_cons {x : Option Stop} {l : List (Option Stop)} (h : OptWf x) (hl : OptWf (firstStop l)) :
    OptWf (firstStop (x :: l)) := by
  cases h with
  | none => exact hl
  | some h => exact .some h
theorem firstStop_map {α : Type} {f : α → Option Stop} (h : ∀ a, OptWf (f a)) : ∀ {l : List α}, OptWf (firstStop (l.map f))
  | [] => .none
  | a :: _ => firstStop_cons (h a) (firstStop_map h)
theorem need_keeps {b : Bool} {x : Stop} (h : StopWf x) : OptWf (need b x) := by
  unfold need
  split
  · exact .none
  · exact .some h
theorem map_keeps {α : Type} {o : Option α} {f : α → Stop} (h : ∀ a, StopWf (f a)) : OptWf (o.map f) := by
  cases o with
  | none => exact .none
  | some a => exact .some (h a)
theorem mapOpt_keeps {o : Option Stop} {f : Stop → Stop} (h : OptWf o) (hf : ∀ a, StopWf a → StopWf (f a)) : OptWf (o.map f) := by
  cases h with
  | none => exact .none
  | some h => exact .some (hf _ h)
theorem mapEx_keeps {α β : Type} {x : Except Stop α} {f : α → β} (h : PopWf x) : PopWf (x.map f) := by
  cases h with
  | ok a => exact .ok _
  | error h => exact .error h
theorem foldlFst_keeps {α β : Type} {f : State × β → α → State × β} (h : ∀ x a, MemoriesWf x.1 → MemoriesWf (f x a).1) :
    ∀ {l : List α} {x : State × β}, MemoriesWf x.1 → MemoriesWf (l.foldl f x).1
  | [], _, hx => hx
  | a :: l, x, hx => foldlFst_keeps h (l := l) (h x a hx)
theorem reset_keeps : MemoriesWf State.reset := ⟨rfl, rfl, rfl, rfl, rfl⟩
theorem pair_keeps {α : Type} {a : α} {s : State} (h : MemoriesWf s) : MemoriesWf (a, s).2 := h
theorem some_of {x : Option Stop} {st : Stop} (e : x = some st) (h : OptWf x) : StopWf st := by subst e; cases h; assumption
theorem ok_of {x : Except Stop State} {s : State} (e : x = .ok s) (h : ExWf x) : MemoriesWf s := by subst e; cases h; assumption
theorem error_of {x : Except Stop State} {st : Stop} (e : x = .error st) (h : ExWf x) : StopWf st := by subst e; cases h; assumption
theorem readOk_of {α : Type} {x : Except Stop (α × State)} {a : α} {s : State} (e : x = .ok (a, s)) (h : ReadWf x) : MemoriesWf s := by
  subst e
  cases h
  assumption
theorem readError_of {α : Type} {x : Except Stop (α × State)} {st : Stop} (e : x = .error st) (h : ReadWf x) : StopWf st := by
  subst e
  cases h
  assumption
theorem popError_of {α : Type} {x : Except Stop α} {st : Stop} (e : x = .error st) (h : PopWf x) : StopWf st := by
  subst e
  cases h
  assumption
theorem issueOk_of {α β : Type} {x : Except Stop (α × State × β)} {a : α} {s : State} {b : β} (e : x = .ok (a, s, b)) (h : IssueWf x) :
    MemoriesWf s := by
  subst e
  cases h
  assumption
theorem issueError_of {α β : Type} {x : Except Stop (α × State × β)} {st : Stop} (e : x = .error st) (h : IssueWf x) : StopWf st := by
  subst e
  cases h
  assumption
theorem fst_of {α : Type} {x : State × α} {s : State} {a : α} (e : x = (s, a)) (h : MemoriesWf x.1) : MemoriesWf s := by subst e; exact h
theorem snd_of {α : Type} {x : α × State} {s : State} {a : α} (e : x = (a, s)) (h : MemoriesWf x.2) : MemoriesWf s := by subst e; exact h
theorem spad_of {s : State} (h : MemoriesWf s) : Memory.wf s.spad = true := h.1
theorem obuf_of {s : State} (h : MemoriesWf s) : Memory.wf s.obuf = true := h.2.1
theorem hbm_of {s : State} (h : MemoriesWf s) : Memory.wf s.hbm = true := h.2.2.1
theorem far_of {s : State} (h : MemoriesWf s) : Memory.wf s.far = true := h.2.2.2.1
theorem kmem_of {s : State} (h : MemoriesWf s) : Memory.wf s.kmem = true := h.2.2.2.2
theorem memIte_keeps {c : Prop} [Decidable c] {a b : List Host.Cell} (ha : Memory.wf a = true) (hb : Memory.wf b = true) :
    Memory.wf (if c then a else b) = true := by
  split
  · exact ha
  · exact hb
/-- A state written out. -/
theorem mk_keeps
    {phase : Phase} {cycle : Nat} {teams : List Team} {grids : List Grid} {cores : List CoreState} {parts : List Partition}
    {spad : List Host.Cell} {obuf : List Host.Cell} {hbm : List Host.Cell} {far : List Host.Cell} {kmem : List Host.Cell}
    {staging : List StageLine} {bad : BadMarks} {syncCodes : List (Nat × Nat)} {ops : List RemOp} {pendings : List (Nat × HomeRef)}
    {inbound : List Inbound} {cmds : List Cmd} {suspects : List Suspect} {suspectFull : Bool} {discards : Nat} {tb : Timebase}
    {windows : List Window} {grants : List Grant} {zeroing : List (Nat × Nat × Word)} {zPending : List (Nat × Nat)}
    {pageIns : List PageIn} {drains : List (List HomeRef)} {epochNext : Nat} {epochMax : Nat} {fwmeas : List Byte}
    {firmware : List Byte} {flashOk : Bool} {disabled : List Nat} {serial : Word} {identityKey : List Byte} {certificates : List Byte}
    {devid : BitVec 21} {nclusterMap : Nat} {nchan : Nat} {powerCap : Nat} {dieHot : List Bool} {portsOff : List Nat}
    {retrains : List Nat} {corrections : List (Nat × Nat)} {uncorrectable : List Nat} {restartEnd : Nat} {unitsDue : Nat}
    {outbox : List Message} {notices : List Notice} {saves : List SavedCtx} {order : Nat} {agenda : List Instr} {issuer : Option Issuer}
    {pair : Option Issuer} {beat : Nat} {turn : Nat} {fresh : Nat} :
    MemoriesWf
      { phase, cycle, teams, grids, cores, parts, spad, obuf, hbm, far, kmem, staging, bad, syncCodes, ops, pendings, inbound, cmds,
        suspects, suspectFull, discards, tb, windows, grants, zeroing, zPending, pageIns, drains, epochNext, epochMax, fwmeas, firmware,
        flashOk, disabled, serial, identityKey, certificates, devid, nclusterMap, nchan, powerCap, dieHot, portsOff, retrains,
        corrections, uncorrectable, restartEnd, unitsDue, outbox, notices, saves, order, agenda, issuer, pair, beat, turn, fresh }
      ↔
      Memory.wf spad = true ∧ Memory.wf obuf = true ∧ Memory.wf hbm = true ∧ Memory.wf far = true ∧ Memory.wf kmem = true := Iff.rfl

/-! ### The operations of Machine/Ops.lean -/

theorem State.modTeam_keeps {s : State} (u : Nat) (f : Team → Team) (h : MemoriesWf s) : MemoriesWf (s.modTeam u f) := h

theorem State.modGrid_keeps {s : State} (g : Nat) (f : Grid → Grid) (h : MemoriesWf s) : MemoriesWf (s.modGrid g f) := h

theorem State.modCore_keeps {s : State} (c : Nat) (f : CoreState → CoreState) (h : MemoriesWf s) : MemoriesWf (s.modCore c f) := h

theorem State.modPart_keeps {s : State} (p : Nat) (f : Partition → Partition) (h : MemoriesWf s) : MemoriesWf (s.modPart p f) := h

theorem State.modWindow_keeps {s : State} (w : Nat) (f : Window → Window) (h : MemoriesWf s) : MemoriesWf (s.modWindow w f) := h

theorem State.modGang_keeps {s : State} (u g : Nat) (f : Gang → Gang) (h : MemoriesWf s) : MemoriesWf (s.modGang u g f) := by
  unfold State.modGang
  with_reducible repeat' first | assumption | apply State.modTeam_keeps

theorem State.modPartyCounter_keeps {s : State} (u g : Nat) (c : CounterName) (f : Counter → Counter) (h : MemoriesWf s) :
    MemoriesWf (s.modPartyCounter u g c f) := by
  unfold State.modPartyCounter
  dsimp only
  with_reducible repeat' first | assumption | apply State.modGang_keeps | apply State.modTeam_keeps | apply ite_keeps

theorem State.draw_keeps {s : State} (h : MemoriesWf s) : MemoriesWf (s.draw).2 := h

theorem State.nextOrder_keeps {s : State} (h : MemoriesWf s) : MemoriesWf (s.nextOrder).2 := h

theorem State.notify_keeps {s : State} (n : Notice) (h : MemoriesWf s) : MemoriesWf (s.notify n) := h

theorem State.send_keeps {s : State} (m : Message) (h : MemoriesWf s) : MemoriesWf (s.send m) := h

theorem State.meter_keeps {s : State} (p i n : Nat) (h : MemoriesWf s) : MemoriesWf (s.meter p i n) := by
  unfold State.meter
  with_reducible repeat' first | assumption | apply State.modPart_keeps

theorem State.pushTrap_keeps {s : State} (p : Nat) (mk : Nat → List Byte) (h : MemoriesWf s) : MemoriesWf (s.pushTrap p mk) := by
  unfold State.pushTrap
  dsimp only
  with_reducible
    repeat' first
      | assumption | apply State.notify_keeps | apply State.modPart_keeps | apply ite_keeps | apply spad_of | apply obuf_of | apply hbm_of
      | apply far_of | apply kmem_of | apply ringPush_wf | apply And.intro | simp only [mk_keeps]

theorem State.takeTrap_keeps {s : State} (u : Issuer) (t : TrapInfo) (h : MemoriesWf s) : MemoriesWf (s.takeTrap u t) := by
  unfold State.takeTrap
  dsimp only
  with_reducible
    repeat' first
      | assumption | apply State.pushTrap_keeps | apply State.modGang_keeps | apply State.modTeam_keeps | apply ite_keeps

theorem State.noteTrap_keeps {s : State} (u gang : Nat) (kind cause : Nat) (pc : Addr) (detail : Word) (h : MemoriesWf s) :
    MemoriesWf (s.noteTrap u gang kind cause pc detail) := by
  unfold State.noteTrap
  dsimp only
  with_reducible repeat' first | assumption | apply State.pushTrap_keeps

theorem State.unstop_keeps {s : State} (u g : Nat) (slices : BitVec 8) (h : MemoriesWf s) : MemoriesWf (s.unstop u g slices) := by
  unfold State.unstop
  dsimp only
  with_reducible repeat' first | assumption | apply State.modGang_keeps | apply State.modTeam_keeps | apply ite_keeps

/-! ### The operations of Machine/Spaces.lean -/

theorem State.spadWrite_keeps {s : State} (key : Nat) (bs : List Byte) (h : MemoriesWf s) : MemoriesWf (s.spadWrite key bs) := by
  unfold State.spadWrite
  dsimp only
  with_reducible
    repeat' first
      | assumption | apply spad_of | apply obuf_of | apply hbm_of | apply far_of | apply kmem_of | apply memWrite_wf | apply And.intro
      | simp only [mk_keeps]

theorem State.spadSet_keeps {s : State} (key n v : Nat) (h : MemoriesWf s) : MemoriesWf (s.spadSet key n v) := by
  unfold State.spadSet
  with_reducible repeat' first | assumption | apply State.spadWrite_keeps

theorem State.spadSeen_keeps {s : State} (key n : Nat) (h : MemoriesWf s) : MemoriesWf (s.spadSeen key n).2 := by
  unfold State.spadSeen
  dsimp only
  with_reducible
    repeat' first
      | assumption | apply ite_keeps | apply spad_of | apply obuf_of | apply hbm_of | apply far_of | apply kmem_of | apply And.intro
      | simp only [mk_keeps]

theorem State.clearLines_keeps {s : State} (u off n : Nat) (h : MemoriesWf s) : MemoriesWf (s.clearLines u off n) := by
  unfold State.clearLines
  with_reducible repeat' first | assumption | apply State.modTeam_keeps

theorem State.engineSpadWrite_keeps {s : State} (p core off : Nat) (bs : List Byte) (h : MemoriesWf s) :
    MemoriesWf (s.engineSpadWrite p core off bs) := by
  unfold State.engineSpadWrite
  dsimp only
  with_reducible repeat' first | assumption | apply State.clearLines_keeps | apply State.spadWrite_keeps | split

theorem State.syncAdd_keeps {s : State} (key inc flags : Nat) (h : MemoriesWf s) : MemoriesWf (s.syncAdd key inc flags) := by
  unfold State.syncAdd
  with_reducible repeat' first | assumption | apply State.spadSet_keeps | apply ite_keeps

theorem State.syncFault_keeps {s : State} (key code : Nat) (h : MemoriesWf s) : MemoriesWf (s.syncFault key code) := by
  unfold State.syncFault
  dsimp only
  with_reducible
    repeat' first
      | assumption | apply State.spadSet_keeps | apply ite_keeps | apply spad_of | apply obuf_of | apply hbm_of | apply far_of
      | apply kmem_of | apply And.intro | simp only [mk_keeps]

theorem State.translate_keeps {s : State} (p va : Nat) (h : MemoriesWf s) : MemoriesWf (s.translate p va).1 := by
  unfold State.translate
  with_reducible repeat' first | assumption | apply State.notify_keeps | split

theorem State.physWrite_keeps {s : State} (far : Bool) (a : Nat) (bs : List Byte) (h : MemoriesWf s) :
    MemoriesWf (s.physWrite far a bs) := by
  unfold State.physWrite
  dsimp only
  with_reducible
    repeat' first
      | assumption | apply ite_keeps | apply spad_of | apply obuf_of | apply hbm_of | apply far_of | apply kmem_of | apply memWrite_wf
      | apply And.intro | simp only [mk_keeps]

theorem State.kstore_keeps {s : State} (k : KStore) (h : MemoriesWf s) : MemoriesWf (s.kstore k) := by
  unfold State.kstore
  with_reducible
    repeat' first
      | assumption | apply State.physWrite_keeps | apply spad_of | apply obuf_of | apply hbm_of | apply far_of | apply kmem_of
      | apply memSet_wf | apply And.intro | simp only [mk_keeps] | split

theorem State.kstores_keeps {s : State} (ks : List KStore) (h : MemoriesWf s) : MemoriesWf (s.kstores ks) := by
  unfold State.kstores
  with_reducible repeat' first | (intro) | assumption | apply State.kstore_keeps | apply foldl_keeps

theorem State.noteFetch_keeps {s : State} (p : Nat) (pc : Addr) (h : MemoriesWf s) : MemoriesWf (s.noteFetch p pc) := by
  unfold State.noteFetch
  with_reducible repeat' first | assumption | apply State.meter_keeps | apply State.notify_keeps | apply ite_keeps | split

theorem State.modRecord_keeps {s : State} (core r : Nat) (f : ObRecord → ObRecord) (h : MemoriesWf s) :
    MemoriesWf (s.modRecord core r f) := by
  unfold State.modRecord
  with_reducible repeat' first | assumption | apply State.modCore_keeps

/-! ### The operations of Machine/Flags.lean -/

theorem State.raiseIn_keeps {s : State} (gm : Half) (u g : Nat) (pc : Addr) (lanes : Half) (cs : Nat → Causes) (h : MemoriesWf s) :
    MemoriesWf (s.raiseIn gm u g pc lanes cs) := by
  unfold State.raiseIn
  dsimp only
  with_reducible repeat' first | assumption | apply State.modGang_keeps

theorem State.raise_keeps {s : State} (u g : Nat) (pc : Addr) (lanes : Half) (cs : Nat → Causes) (h : MemoriesWf s) :
    MemoriesWf (s.raise u g pc lanes cs) := by
  unfold State.raise
  with_reducible repeat' first | assumption | apply State.raiseIn_keeps

theorem State.writeLog_keeps {s : State} (u g : Nat) (h : MemoriesWf s) : MemoriesWf (s.writeLog u g) := by
  unfold State.writeLog
  dsimp only
  with_reducible
    repeat' first
      | assumption | apply State.modGang_keeps | apply spad_of | apply obuf_of | apply hbm_of | apply far_of | apply kmem_of
      | apply ringLog_wf | apply And.intro | simp only [mk_keeps] | split

theorem State.flushLog_keeps {s : State} (u g : Nat) (h : MemoriesWf s) : MemoriesWf (s.flushLog u g) := by
  unfold State.flushLog
  with_reducible repeat' first | (intro) | assumption | apply State.writeLog_keeps | apply foldl_keeps

/-! ### The operations of Machine/Operands.lean -/

theorem comparatorStop_keeps (g : Gang) (slices : BitVec 8) (pc : Addr) (n : Nat) : OptWf (comparatorStop g slices pc n) := by
  unfold comparatorStop
  with_reducible repeat' first | (intro) | apply map_keeps | apply StopWf.trap | apply OptWf.none | split

theorem formStop_keeps (f : Form) (t : Team) (g : Gang) (word : Half) : OptWf (formStop f t g word) := by
  unfold formStop
  dsimp only
  with_reducible
    repeat' first
      | (intro) | apply need_keeps | apply map_keeps | apply firstStop_cons | apply firstStop_nil | apply StopWf.trap

theorem loopStop_keeps (g : Gang) (slices : BitVec 8) (pc : Addr) (word : Half) : OptWf (loopStop g slices pc word) := by
  unfold loopStop
  with_reducible
    repeat' first
      | apply OptWf.some | apply need_keeps | apply firstStop_cons | apply firstStop_nil | apply StopWf.trap | apply OptWf.none | split

theorem owedStop_keeps (g : Gang) (dsts : List VNum) (lanes : Half) : OptWf (owedStop g dsts lanes) := by
  unfold owedStop
  with_reducible repeat' first | (intro) | apply map_keeps | apply StopWf.wait

theorem operandStop_keeps (t : Team) (gang cycle : Nat) (dsts : List VNum) (lanes : Half) :
    OptWf (operandStop t gang cycle dsts lanes) := by
  unfold operandStop
  with_reducible repeat' first | (intro) | apply map_keeps | apply StopWf.wait | apply OptWf.none | split

theorem kStop_keeps (bad : Half) (ks : List KNum) : OptWf (kStop bad ks) := by
  unfold kStop
  with_reducible repeat' first | (intro) | apply map_keeps | apply StopWf.trap

theorem readStop_keeps (g : Gang) (x : Src) (lanes : Half) : OptWf (readStop g x lanes) := by
  unfold readStop
  dsimp only
  with_reducible
    repeat' first
      | apply need_keeps | apply firstStop_cons | apply firstStop_nil | apply StopWf.trap | apply StopWf.wait | split

theorem readSrcs_keeps (g : Gang) (who : Nat) (lanes : Half) : ∀ (l : List Src) (t : Team), PopWf (readSrcs g who lanes l t) := by
  intro l
  induction l with
  | nil => exact fun _ => .ok _
  | cons x xs ih =>
    intro t
    unfold readSrcs
    split
    · split
      · exact .error (.wait _)
      · split
        · next heq => exact .error (popError_of heq (ih _))
        · exact .ok _
    · split
      · next heq => exact .error (some_of heq (readStop_keeps g x lanes))
      · split
        · next heq => exact .error (popError_of heq (ih t))
        · exact .ok _

theorem State.writeK_keeps {s : State} (u : Issuer) (k : KNum) (w : Word) (h : MemoriesWf s) : MemoriesWf (s.writeK u k w) := by
  unfold State.writeK
  dsimp only
  with_reducible repeat' first | assumption | apply State.modGang_keeps | apply State.modTeam_keeps | apply ite_keeps

theorem State.writeV_keeps {s : State} (u : Issuer) (r : VNum) (lanes : Half) (f : Nat → Word) (h : MemoriesWf s) :
    MemoriesWf (s.writeV u r lanes f) := by
  unfold State.writeV
  with_reducible repeat' first | assumption | apply State.modGang_keeps

theorem State.writeP_keeps {s : State} (u : Issuer) (p : PNum) (lanes : Half) (f : Nat → Bool) (h : MemoriesWf s) :
    MemoriesWf (s.writeP u p lanes f) := by
  unfold State.writeP
  with_reducible repeat' first | assumption | apply State.modGang_keeps

theorem readOwn_keeps (c : Ctx) (x : Src) (lanes : Half) {s : State} (h : MemoriesWf s) : ReadWf (readOwn c x lanes s) := by
  unfold readOwn
  dsimp only
  with_reducible
    repeat' first
      | assumption | apply readStop_keeps | apply State.modGang_keeps | apply State.modTeam_keeps | apply StopWf.wait | apply ReadWf.ok
      | apply ReadWf.error | refine some_of (by assumption) ?_ | split

theorem finish_keeps (f : Form) (popped : Bool) (u : Issuer) {s : State} (h : MemoriesWf s) : MemoriesWf (finish f popped u s) := by
  unfold finish
  dsimp only
  with_reducible
    repeat' first
      | assumption | apply State.meter_keeps | apply State.modGang_keeps | apply State.modTeam_keeps | apply ite_keeps

theorem State.hold_keeps {s : State} (u : Issuer) (k : WaitKind) (h : MemoriesWf s) : MemoriesWf (s.hold u k) := by
  unfold State.hold
  dsimp only
  with_reducible repeat' first | assumption | apply State.modGang_keeps | apply State.modTeam_keeps | apply ite_keeps

theorem stopUnit_keeps (u : Issuer) (st : Stop) {s : State} (h : MemoriesWf s) (h_st : StopWf st) : MemoriesWf (stopUnit u st s) := by
  unfold stopUnit
  cases h_st with
  | trap t => exact State.takeTrap_keeps _ _ h
  | trapIn t h' => exact State.takeTrap_keeps _ _ h'
  | wait k => exact State.hold_keeps _ _ h
  | waitIn k h' => exact State.hold_keeps _ _ h'

theorem preStop_keeps (i : Instr) (f : Form) (u : Issuer) (s : State) : OptWf (preStop i f u s) := by
  have body : ∀ x : Option Stop, OptWf x → OptWf (x.map (bodyIllegal ((encode i).getD 0#32))) := by
    intro x hx
    cases hx with
    | none => exact .none
    | some h =>
      refine .some ?_
      cases h with
      | trap t => exact .trap _
      | trapIn t h => exact .trapIn _ h
      | wait k => exact .wait _
      | waitIn k h => exact .waitIn _ h
  unfold preStop
  dsimp only
  split
  · exact firstStop_cons (need_keeps (.trap _)) (firstStop_cons (need_keeps (.trap _)) (firstStop_cons (kStop_keeps _ _) firstStop_nil))
  · refine firstStop_cons (comparatorStop_keeps _ _ _ _) (firstStop_cons (need_keeps (.trap _)) (firstStop_cons (need_keeps (.trap _))
      (firstStop_cons ?_ (firstStop_cons (loopStop_keeps _ _ _ _) (firstStop_cons (kStop_keeps _ _) firstStop_nil)))))
    split
    · exact body _ (formStop_keeps _ _ _ _)
    · exact formStop_keeps _ _ _ _

theorem operandsOf_keeps {s : State} (f : Form) (u : Issuer) (h : MemoriesWf s) : IssueWf (operandsOf f u s) := by
  unfold operandsOf
  split
  · exact .ok _ _ h
  · dsimp only
    split
    · next heq =>
      exact .error (some_of heq (firstStop_cons (owedStop_keeps _ _ _) (firstStop_cons (operandStop_keeps _ _ _ _ _) firstStop_nil)))
    · split
      · next heq => exact .error (popError_of heq (readSrcs_keeps _ _ _ _ _))
      · exact .ok _ _ (ite_keeps (State.modTeam_keeps _ _ h) h)

theorem issueBy_keeps (i : Instr) (f : Form) (body : Ctx → State → Except Stop State) (u : Issuer) {s : State} (h : MemoriesWf s)
    (h_body : ∀ c s, MemoriesWf s → ExWf (body c s)) :
    MemoriesWf (issueBy i f body u s) := by
  unfold issueBy
  split
  · next heq => exact stopUnit_keeps u _ h (some_of heq (preStop_keeps i f u s))
  · split
    · next heq => exact stopUnit_keeps u _ h (issueError_of heq (operandsOf_keeps f u h))
    · next vals s1 popped heq =>
      have hx := h_body (ctxOf i u s vals) s1 (issueOk_of heq (operandsOf_keeps f u h))
      split
      · next heq => exact stopUnit_keeps u _ h (error_of heq hx)
      · next heq => exact finish_keeps f _ u (ok_of heq hx)

theorem issue_keeps (i : Instr) (f : Form) (body : Ctx → State → Except Stop State) {s : State} (h : MemoriesWf s)
    (h_body : ∀ c s, MemoriesWf s → ExWf (body c s)) :
    OutWf (issue i f body s) := by
  unfold issue
  with_reducible repeat' first | (intro) | assumption | apply issueBy_keeps | apply h_body | apply OutWf.next | split

end Sys2Proof.Machine
end

