-- ==== Sys2Proof/Laws/CanonicalWords.lean ====
section
/-!
SUPPORT. Words of gangs and sidecars, and what they share, keep the memories in canonical form.
-/
namespace Sys2Proof.Machine

open Sys2Proof Sys2Proof.Safety

/-! ### The operations of Machine/Meet.lean -/

theorem State.memberExits_keeps {s : State} (u gang : Nat) (h : MemoriesWf s) : MemoriesWf (s.memberExits u gang) := by
  unfold State.memberExits
  dsimp only
  with_reducible repeat' first | (intro) | assumption | apply State.takeTrap_keeps | apply ite_keeps | apply foldl_keeps | split

theorem State.satisfy_keeps {s : State} (p : Nat) (q : BitVec 32) (retired : Bool) (h : MemoriesWf s) :
    MemoriesWf (s.satisfy p q retired) := h

theorem State.setSeq_keeps {s : State} (p : Nat) (q : BitVec 32) (x : SeqState) (h : MemoriesWf s) : MemoriesWf (s.setSeq p q x) := by
  unfold State.setSeq
  with_reducible repeat' first | assumption | apply State.modPart_keeps

theorem State.trigEvent_keeps {s : State} (gr : Nat) (h : MemoriesWf s) : MemoriesWf (s.trigEvent gr) := by
  unfold State.trigEvent
  dsimp only
  with_reducible
    repeat' first
      | assumption | apply State.setSeq_keeps | apply State.satisfy_keeps | apply State.modGrid_keeps | apply ite_keeps | split

theorem State.freeQuarantined_keeps {s : State} (u gang : Nat) (h : MemoriesWf s) : MemoriesWf (s.freeQuarantined u gang) := by
  unfold State.freeQuarantined
  dsimp only
  with_reducible repeat' first | assumption | apply State.modCore_keeps

theorem State.afterExit_keeps {s : State} (u gang : Nat) (h : MemoriesWf s) : MemoriesWf (s.afterExit u gang) := by
  unfold State.afterExit
  dsimp only
  with_reducible
    repeat' first
      | assumption | apply State.freeQuarantined_keeps | apply State.trigEvent_keeps | apply State.memberExits_keeps
      | apply State.modGang_keeps | apply State.modTeam_keeps | apply ite_keeps

/-! ### The operations of Machine/Control.lean -/

theorem transfer_keeps (c : Ctx) (tgt : Addr) {s : State} (h : MemoriesWf s) : ExWf (transfer c tgt s) := by
  unfold transfer
  dsimp only
  with_reducible repeat' first | assumption | apply State.modGang_keeps | apply ExWf.ok | apply ExWf.error | apply StopWf.trap | split

theorem execNop_keeps {s : State} (h : MemoriesWf s) : OutWf (execNop s) := by
  unfold execNop
  with_reducible repeat' first | (intro) | assumption | apply issue_keeps | apply ExWf.ok

theorem execExit_keeps {s : State} (h : MemoriesWf s) : OutWf (execExit s) := by
  unfold execExit
  dsimp only
  with_reducible
    repeat' first
      | (intro) | assumption | apply State.afterExit_keeps | apply issue_keeps | apply State.modGang_keeps | apply State.modTeam_keeps
      | apply ExWf.ok | split

theorem execBra_keeps (off : BitVec 20) {s : State} (h : MemoriesWf s) : OutWf (execBra off s) := by
  unfold execBra
  with_reducible repeat' first | (intro) | assumption | apply transfer_keeps | apply issue_keeps

theorem execBrc_keeps (p : PNum) (n : Bool) (off : BitVec 20) {s : State} (h : MemoriesWf s) : OutWf (execBrc p n off s) := by
  unfold execBrc
  dsimp only
  with_reducible
    repeat' first
      | (intro) | assumption | apply issue_keeps | apply State.modGang_keeps | apply ExWf.ok | apply ExWf.error | apply StopWf.trap
      | split

theorem execRcv_keeps (off : BitVec 20) {s : State} (h : MemoriesWf s) : OutWf (execRcv off s) := by
  unfold execRcv
  with_reducible repeat' first | (intro) | assumption | apply issue_keeps | apply State.modGang_keeps | apply ExWf.ok

theorem indirectTarget_keeps (c : Ctx) : PopWf (indirectTarget c) := by
  unfold indirectTarget
  dsimp only
  with_reducible repeat' first | apply StopWf.trap | apply PopWf.ok | apply PopWf.error | split

theorem execJmpi_keeps (a : VNum) (wa : Bool) {s : State} (h : MemoriesWf s) : OutWf (execJmpi a wa s) := by
  unfold execJmpi
  with_reducible
    repeat' first
      | (intro) | assumption | apply indirectTarget_keeps | apply transfer_keeps | apply issue_keeps | apply ExWf.error
      | refine popError_of (by assumption) ?_ | split

theorem callTo_keeps (c : Ctx) (tgt : Addr) {s : State} (h : MemoriesWf s) : ExWf (callTo c tgt s) := by
  unfold callTo
  with_reducible repeat' first | assumption | apply State.modGang_keeps | apply ExWf.ok | apply ExWf.error | apply StopWf.trap | split

theorem execCall_keeps (off : BitVec 20) {s : State} (h : MemoriesWf s) : OutWf (execCall off s) := by
  unfold execCall
  with_reducible repeat' first | (intro) | assumption | apply callTo_keeps | apply issue_keeps

theorem execCalli_keeps (a : VNum) (wa : Bool) {s : State} (h : MemoriesWf s) : OutWf (execCalli a wa s) := by
  unfold execCalli
  with_reducible
    repeat' first
      | (intro) | assumption | apply callTo_keeps | apply indirectTarget_keeps | apply issue_keeps | apply ExWf.error
      | refine popError_of (by assumption) ?_ | split

theorem returnBy_keeps (c : Ctx) (target : Option Addr) {s : State} (h : MemoriesWf s) : ExWf (returnBy c target s) := by
  unfold returnBy
  dsimp only
  with_reducible repeat' first | assumption | apply State.modGang_keeps | apply ExWf.ok | apply ExWf.error | apply StopWf.trap | split

theorem execRet_keeps {s : State} (h : MemoriesWf s) : OutWf (execRet s) := by
  unfold execRet
  with_reducible repeat' first | (intro) | assumption | apply returnBy_keeps | apply issue_keeps

theorem execRetr_keeps (a : VNum) (wa : Bool) {s : State} (h : MemoriesWf s) : OutWf (execRetr a wa s) := by
  unfold execRetr
  with_reducible
    repeat' first
      | (intro) | assumption | apply returnBy_keeps | apply indirectTarget_keeps | apply issue_keeps | apply ExWf.error
      | refine popError_of (by assumption) ?_ | split

theorem execLoop_keeps (lc : BitVec 2) (ka : KNum) (words : BitVec 8) {s : State} (h : MemoriesWf s) :
    OutWf (execLoop lc ka words s) := by
  unfold execLoop
  dsimp only
  with_reducible
    repeat' first
      | (intro) | assumption | apply issue_keeps | apply State.modGang_keeps | apply ExWf.ok | apply ExWf.error | apply StopWf.trap
      | split

theorem execLexit_keeps {s : State} (h : MemoriesWf s) : OutWf (execLexit s) := by
  unfold execLexit
  dsimp only
  with_reducible
    repeat' first
      | (intro) | assumption | apply issue_keeps | apply State.modGang_keeps | apply ExWf.ok | apply ExWf.error | apply StopWf.trap
      | split

theorem execRegang_keeps (mask : BitVec 8) {s : State} (h : MemoriesWf s) : OutWf (execRegang mask s) := by
  unfold execRegang
  dsimp only
  with_reducible
    repeat' first
      | (intro) | assumption | apply issue_keeps | apply State.modGang_keeps | apply ExWf.ok | apply ExWf.error | apply StopWf.trap
      | apply StopWf.wait | split

theorem execKbr_keeps (ka kb : KNum) (cc : KbrCond) (off : BitVec 9) {s : State} (h : MemoriesWf s) : OutWf (execKbr ka kb cc off s) := by
  unfold execKbr
  dsimp only
  with_reducible
    repeat' first
      | (intro) | assumption | apply transfer_keeps | apply issue_keeps | apply State.modGang_keeps | apply State.modTeam_keeps
      | apply ExWf.ok | split

theorem execBkpt_keeps (code : BitVec 24) {s : State} (h : MemoriesWf s) : OutWf (execBkpt code s) := by
  unfold execBkpt
  with_reducible repeat' first | (intro) | assumption | apply issue_keeps | apply ExWf.error | apply StopWf.trap

/-! ### The operations of Machine/Mode.lean -/

theorem setGmode_keeps (c : Ctx) (ok : Bool) (new : Half) {s : State} (h : MemoriesWf s) : ExWf (setGmode c ok new s) := by
  unfold setGmode
  with_reducible repeat' first | assumption | apply State.modGang_keeps | apply ExWf.ok | apply ExWf.error | apply StopWf.trap | split

theorem execSetmode_keeps (ka : KNum) {s : State} (h : MemoriesWf s) : OutWf (execSetmode ka s) := by
  unfold execSetmode
  with_reducible repeat' first | (intro) | assumption | apply setGmode_keeps | apply issue_keeps

theorem execSetmk_keeps (ka kb : KNum) {s : State} (h : MemoriesWf s) : OutWf (execSetmk ka kb s) := by
  unfold execSetmk
  dsimp only
  with_reducible repeat' first | (intro) | assumption | apply setGmode_keeps | apply issue_keeps

theorem execGetmode_keeps (kd : KNum) {s : State} (h : MemoriesWf s) : OutWf (execGetmode kd s) := by
  unfold execGetmode
  with_reducible repeat' first | (intro) | assumption | apply issue_keeps | apply State.writeK_keeps | apply ExWf.ok

theorem execCsrr_keeps (d : BitVec 6) (csr : BitVec 12) {s : State} (h : MemoriesWf s) : OutWf (execCsrr d csr s) := by
  unfold execCsrr
  dsimp only
  with_reducible
    repeat' first
      | (intro) | assumption | apply issue_keeps | apply State.writeV_keeps | apply State.writeK_keeps | apply ExWf.ok | split

theorem execCsrw_keeps (a : BitVec 6) (csr : BitVec 12) {s : State} (h : MemoriesWf s) : OutWf (execCsrw a csr s) := by
  unfold execCsrw
  dsimp only
  with_reducible
    repeat' first
      | (intro) | assumption | apply issue_keeps | apply State.modGang_keeps | apply ExWf.ok | apply ExWf.error | apply StopWf.trap
      | split

theorem invstAct_keeps (f : Lane → Lane) {s : State} (h : MemoriesWf s) : OutWf (invstAct f s) := by
  unfold invstAct
  with_reducible repeat' first | assumption | apply State.modGang_keeps | apply OutWf.next | split

theorem execInvstSetState_keeps (st : BitVec 9) {s : State} (h : MemoriesWf s) : OutWf (execInvstSetState st s) := by
  unfold execInvstSetState
  with_reducible repeat' first | assumption | apply invstAct_keeps

theorem execInvstLoadLo_keeps (n : BitVec 2) (x : Half) {s : State} (h : MemoriesWf s) : OutWf (execInvstLoadLo n x s) := by
  unfold execInvstLoadLo
  with_reducible repeat' first | assumption | apply invstAct_keeps

theorem execInvstLoadHi_keeps (n : BitVec 2) (x : Half) {s : State} (h : MemoriesWf s) : OutWf (execInvstLoadHi n x s) := by
  unfold execInvstLoadHi
  with_reducible repeat' first | assumption | apply invstAct_keeps

theorem execInvstViewLo_keeps (n : BitVec 2) {s : State} (h : MemoriesWf s) : OutWf (execInvstViewLo n s) := by
  unfold execInvstViewLo
  with_reducible repeat' first | assumption | apply invstAct_keeps

theorem execInvstViewHi_keeps (n : BitVec 2) {s : State} (h : MemoriesWf s) : OutWf (execInvstViewHi n s) := by
  unfold execInvstViewHi
  with_reducible repeat' first | assumption | apply invstAct_keeps

theorem execTrap_keeps (code : BitVec 24) {s : State} (h : MemoriesWf s) : OutWf (execTrap code s) := by
  unfold execTrap
  with_reducible repeat' first | (intro) | assumption | apply issue_keeps | apply ExWf.error | apply StopWf.trap

theorem State.noteWords_keeps (p : Nat) : ∀ (n : Nat) (pc : Addr) {s : State}, MemoriesWf s → MemoriesWf (s.noteWords p pc n) := by
  intro n
  induction n with
  | zero => exact fun _ _ h => h
  | succ n ih =>
    intro pc s h
    unfold State.noteWords
    split
    · exact ih _ (State.noteFetch_keeps _ _ h)
    · exact State.noteFetch_keeps _ _ h

theorem fetchStop_keeps {s : State} (word : Half) (f : Fetched) (h : MemoriesWf s) : StopWf (fetchStop word f s) := by
  unfold fetchStop
  with_reducible repeat' first | assumption | apply StopWf.trapIn | apply StopWf.wait | split

theorem execInstar_keeps (off : BitVec 24) {s : State} (h : MemoriesWf s) : OutWf (execInstar off s) := by
  unfold execInstar
  dsimp only
  with_reducible
    repeat' first
      | (intro) | assumption | apply fetchStop_keeps | apply State.noteWords_keeps | apply State.freeQuarantined_keeps | apply issue_keeps
      | apply State.modGang_keeps | apply State.modTeam_keeps | apply ExWf.ok | apply ExWf.error | apply StopWf.trapIn | split

/-! ### The operations of Machine/Vector.lean -/

theorem State.writeResult_keeps {s : State} (c : Ctx) (d : VNum) (f : Nat → Word × Causes) (h : MemoriesWf s) :
    MemoriesWf (s.writeResult c d f) := by
  unfold State.writeResult
  with_reducible repeat' first | assumption | apply State.writeV_keeps | apply State.raise_keeps

theorem laneWord_keeps (i : Instr) (srcs : List Src) (d : VNum) (legal : ElemType → Bool) (f : LaneFn) {s : State} (h : MemoriesWf s) :
    OutWf (laneWord i srcs d legal f s) := by
  unfold laneWord
  with_reducible repeat' first | (intro) | assumption | apply State.writeResult_keeps | apply issue_keeps | apply ExWf.ok

theorem State.writeCompare_keeps {s : State} (c : Ctx) (p : PNum) (f : Nat → Bool × Causes) (h : MemoriesWf s) :
    MemoriesWf (s.writeCompare c p f) := by
  unfold State.writeCompare
  with_reducible repeat' first | assumption | apply State.writeP_keeps | apply State.raise_keeps

theorem execAdd_keeps (d a b : VNum) (wa wb : Bool) {s : State} (h : MemoriesWf s) : OutWf (execAdd d a b wa wb s) := by
  unfold execAdd
  with_reducible repeat' first | assumption | apply laneWord_keeps

theorem execSub_keeps (d a b : VNum) (wa wb : Bool) {s : State} (h : MemoriesWf s) : OutWf (execSub d a b wa wb s) := by
  unfold execSub
  with_reducible repeat' first | assumption | apply laneWord_keeps

theorem execMul_keeps (d a b : VNum) (wa wb : Bool) {s : State} (h : MemoriesWf s) : OutWf (execMul d a b wa wb s) := by
  unfold execMul
  with_reducible repeat' first | assumption | apply laneWord_keeps

theorem execMulh_keeps (d a b : VNum) (wa wb : Bool) {s : State} (h : MemoriesWf s) : OutWf (execMulh d a b wa wb s) := by
  unfold execMulh
  with_reducible repeat' first | assumption | apply laneWord_keeps

theorem execFma_keeps (d a b : VNum) (wa wb : Bool) {s : State} (h : MemoriesWf s) : OutWf (execFma d a b wa wb s) := by
  unfold execFma
  with_reducible repeat' first | assumption | apply laneWord_keeps

theorem execFms_keeps (d a b : VNum) (wa wb : Bool) {s : State} (h : MemoriesWf s) : OutWf (execFms d a b wa wb s) := by
  unfold execFms
  with_reducible repeat' first | assumption | apply laneWord_keeps

theorem execMin_keeps (d a b : VNum) (wa wb : Bool) {s : State} (h : MemoriesWf s) : OutWf (execMin d a b wa wb s) := by
  unfold execMin
  with_reducible repeat' first | assumption | apply laneWord_keeps

theorem execMax_keeps (d a b : VNum) (wa wb : Bool) {s : State} (h : MemoriesWf s) : OutWf (execMax d a b wa wb s) := by
  unfold execMax
  with_reducible repeat' first | assumption | apply laneWord_keeps

theorem execAbs_keeps (d a : VNum) (wa : Bool) {s : State} (h : MemoriesWf s) : OutWf (execAbs d a wa s) := by
  unfold execAbs
  with_reducible repeat' first | assumption | apply laneWord_keeps

theorem execNeg_keeps (d a : VNum) (wa : Bool) {s : State} (h : MemoriesWf s) : OutWf (execNeg d a wa s) := by
  unfold execNeg
  with_reducible repeat' first | assumption | apply laneWord_keeps

theorem execAnd_keeps (d a b : VNum) (wa wb : Bool) {s : State} (h : MemoriesWf s) : OutWf (execAnd d a b wa wb s) := by
  unfold execAnd
  with_reducible repeat' first | assumption | apply laneWord_keeps

theorem execOr_keeps (d a b : VNum) (wa wb : Bool) {s : State} (h : MemoriesWf s) : OutWf (execOr d a b wa wb s) := by
  unfold execOr
  with_reducible repeat' first | assumption | apply laneWord_keeps

theorem execXor_keeps (d a b : VNum) (wa wb : Bool) {s : State} (h : MemoriesWf s) : OutWf (execXor d a b wa wb s) := by
  unfold execXor
  with_reducible repeat' first | assumption | apply laneWord_keeps

theorem execAndn_keeps (d a b : VNum) (wa wb : Bool) {s : State} (h : MemoriesWf s) : OutWf (execAndn d a b wa wb s) := by
  unfold execAndn
  with_reducible repeat' first | assumption | apply laneWord_keeps

theorem execShl_keeps (d a b : VNum) (wa wb : Bool) {s : State} (h : MemoriesWf s) : OutWf (execShl d a b wa wb s) := by
  unfold execShl
  with_reducible repeat' first | assumption | apply laneWord_keeps

theorem execShr_keeps (d a b : VNum) (wa wb : Bool) {s : State} (h : MemoriesWf s) : OutWf (execShr d a b wa wb s) := by
  unfold execShr
  with_reducible repeat' first | assumption | apply laneWord_keeps

theorem execRot_keeps (d a b : VNum) (wa wb : Bool) {s : State} (h : MemoriesWf s) : OutWf (execRot d a b wa wb s) := by
  unfold execRot
  with_reducible repeat' first | assumption | apply laneWord_keeps

theorem execBits_keeps (op : BitsOp) (d a : VNum) (wa : Bool) {s : State} (h : MemoriesWf s) : OutWf (execBits op d a wa s) := by
  unfold execBits
  with_reducible repeat' first | assumption | apply laneWord_keeps

theorem execBfx_keeps (d a b : VNum) (wa wb : Bool) {s : State} (h : MemoriesWf s) : OutWf (execBfx d a b wa wb s) := by
  unfold execBfx
  with_reducible repeat' first | assumption | apply laneWord_keeps

theorem execBfi_keeps (d a b : VNum) (wa wb : Bool) {s : State} (h : MemoriesWf s) : OutWf (execBfi d a b wa wb s) := by
  unfold execBfi
  with_reducible repeat' first | assumption | apply laneWord_keeps

theorem execDiv_keeps (d a b : VNum) (wa wb : Bool) {s : State} (h : MemoriesWf s) : OutWf (execDiv d a b wa wb s) := by
  unfold execDiv
  with_reducible repeat' first | assumption | apply laneWord_keeps

theorem execRem_keeps (d a b : VNum) (wa wb : Bool) {s : State} (h : MemoriesWf s) : OutWf (execRem d a b wa wb s) := by
  unfold execRem
  with_reducible repeat' first | assumption | apply laneWord_keeps

theorem execMov_keeps (d a : VNum) (wa : Bool) {s : State} (h : MemoriesWf s) : OutWf (execMov d a wa s) := by
  unfold execMov
  with_reducible repeat' first | assumption | apply laneWord_keeps

theorem execSel_keeps (d a b : VNum) (wa wb : Bool) (n : Bool) (p : PNum) {s : State} (h : MemoriesWf s) :
    OutWf (execSel d a b wa wb n p s) := by
  unfold execSel
  with_reducible repeat' first | (intro) | assumption | apply issue_keeps | apply State.writeV_keeps | apply ExWf.ok

theorem execCmp_keeps (cc : CmpCond) (p : PNum) (a b : VNum) (wa wb : Bool) {s : State} (h : MemoriesWf s) :
    OutWf (execCmp cc p a b wa wb s) := by
  unfold execCmp
  with_reducible repeat' first | (intro) | assumption | apply State.writeCompare_keeps | apply issue_keeps | apply ExWf.ok

theorem execPlop_keeps (d a b : PNum) (tt : BitVec 4) {s : State} (h : MemoriesWf s) : OutWf (execPlop d a b tt s) := by
  unfold execPlop
  with_reducible repeat' first | (intro) | assumption | apply issue_keeps | apply State.writeP_keeps | apply ExWf.ok

theorem execDot4_keeps (d a b : VNum) (wa wb : Bool) {s : State} (h : MemoriesWf s) : OutWf (execDot4 d a b wa wb s) := by
  unfold execDot4
  with_reducible repeat' first | assumption | apply laneWord_keeps

theorem execCrc_keeps (d a : VNum) (wa : Bool) {s : State} (h : MemoriesWf s) : OutWf (execCrc d a wa s) := by
  unfold execCrc
  with_reducible repeat' first | assumption | apply laneWord_keeps

theorem execAddi_keeps (d a : VNum) (imm : BitVec 12) {s : State} (h : MemoriesWf s) : OutWf (execAddi d a imm s) := by
  unfold execAddi
  with_reducible repeat' first | assumption | apply laneWord_keeps

theorem execMuli_keeps (d a : VNum) (imm : BitVec 12) {s : State} (h : MemoriesWf s) : OutWf (execMuli d a imm s) := by
  unfold execMuli
  with_reducible repeat' first | assumption | apply laneWord_keeps

theorem execAndi_keeps (d a : VNum) (imm : BitVec 12) {s : State} (h : MemoriesWf s) : OutWf (execAndi d a imm s) := by
  unfold execAndi
  with_reducible repeat' first | assumption | apply laneWord_keeps

theorem execOri_keeps (d a : VNum) (imm : BitVec 12) {s : State} (h : MemoriesWf s) : OutWf (execOri d a imm s) := by
  unfold execOri
  with_reducible repeat' first | assumption | apply laneWord_keeps

theorem execXori_keeps (d a : VNum) (imm : BitVec 12) {s : State} (h : MemoriesWf s) : OutWf (execXori d a imm s) := by
  unfold execXori
  with_reducible repeat' first | assumption | apply laneWord_keeps

theorem execShli_keeps (d a : VNum) (count : BitVec 6) {s : State} (h : MemoriesWf s) : OutWf (execShli d a count s) := by
  unfold execShli
  with_reducible repeat' first | assumption | apply laneWord_keeps

theorem execShri_keeps (d a : VNum) (count : BitVec 6) {s : State} (h : MemoriesWf s) : OutWf (execShri d a count s) := by
  unfold execShri
  with_reducible repeat' first | assumption | apply laneWord_keeps

theorem execCmpi_keeps (cc : CmpiCond) (p : PNum) (a : VNum) (imm : BitVec 12) {s : State} (h : MemoriesWf s) :
    OutWf (execCmpi cc p a imm s) := by
  unfold execCmpi
  with_reducible repeat' first | (intro) | assumption | apply State.writeCompare_keeps | apply issue_keeps | apply ExWf.ok

theorem execMovi_keeps (d : VNum) (imm : BitVec 18) {s : State} (h : MemoriesWf s) : OutWf (execMovi d imm s) := by
  unfold execMovi
  with_reducible repeat' first | assumption | apply laneWord_keeps

theorem execMovhi_keeps (d : VNum) (imm : BitVec 18) {s : State} (h : MemoriesWf s) : OutWf (execMovhi d imm s) := by
  unfold execMovhi
  with_reducible repeat' first | assumption | apply laneWord_keeps

theorem execMini_keeps (d a : VNum) (imm : BitVec 12) {s : State} (h : MemoriesWf s) : OutWf (execMini d a imm s) := by
  unfold execMini
  with_reducible repeat' first | assumption | apply laneWord_keeps

theorem execMaxi_keeps (d a : VNum) (imm : BitVec 12) {s : State} (h : MemoriesWf s) : OutWf (execMaxi d a imm s) := by
  unfold execMaxi
  with_reducible repeat' first | assumption | apply laneWord_keeps

/-! ### The operations of Machine/Uniform.lean -/

theorem uniformWord_keeps (i : Instr) (ks : List KNum) (d : KNum) (f : Ctx → Word) {s : State} (h : MemoriesWf s) :
    OutWf (uniformWord i ks d f s) := by
  unfold uniformWord
  with_reducible repeat' first | (intro) | assumption | apply issue_keeps | apply State.writeK_keeps | apply ExWf.ok

theorem execKadd_keeps (d a b : KNum) {s : State} (h : MemoriesWf s) : OutWf (execKadd d a b s) := by
  unfold execKadd
  with_reducible repeat' first | assumption | apply uniformWord_keeps

theorem execKsub_keeps (d a b : KNum) {s : State} (h : MemoriesWf s) : OutWf (execKsub d a b s) := by
  unfold execKsub
  with_reducible repeat' first | assumption | apply uniformWord_keeps

theorem execKmul_keeps (d a b : KNum) {s : State} (h : MemoriesWf s) : OutWf (execKmul d a b s) := by
  unfold execKmul
  with_reducible repeat' first | assumption | apply uniformWord_keeps

theorem execKand_keeps (d a b : KNum) {s : State} (h : MemoriesWf s) : OutWf (execKand d a b s) := by
  unfold execKand
  with_reducible repeat' first | assumption | apply uniformWord_keeps

theorem execKor_keeps (d a b : KNum) {s : State} (h : MemoriesWf s) : OutWf (execKor d a b s) := by
  unfold execKor
  with_reducible repeat' first | assumption | apply uniformWord_keeps

theorem execKxor_keeps (d a b : KNum) {s : State} (h : MemoriesWf s) : OutWf (execKxor d a b s) := by
  unfold execKxor
  with_reducible repeat' first | assumption | apply uniformWord_keeps

theorem execKshl_keeps (d a b : KNum) {s : State} (h : MemoriesWf s) : OutWf (execKshl d a b s) := by
  unfold execKshl
  with_reducible repeat' first | assumption | apply uniformWord_keeps

theorem execKshr_keeps (d a b : KNum) (arith : Bool) {s : State} (h : MemoriesWf s) : OutWf (execKshr d a b arith s) := by
  unfold execKshr
  with_reducible repeat' first | assumption | apply uniformWord_keeps

theorem execKaddi_keeps (d a : KNum) (imm : BitVec 12) {s : State} (h : MemoriesWf s) : OutWf (execKaddi d a imm s) := by
  unfold execKaddi
  with_reducible repeat' first | assumption | apply uniformWord_keeps

theorem execKmovi_keeps (d : KNum) (imm : BitVec 18) {s : State} (h : MemoriesWf s) : OutWf (execKmovi d imm s) := by
  unfold execKmovi
  with_reducible repeat' first | assumption | apply uniformWord_keeps

theorem execKmovhi_keeps (d : KNum) (imm : BitVec 18) {s : State} (h : MemoriesWf s) : OutWf (execKmovhi d imm s) := by
  unfold execKmovhi
  with_reducible repeat' first | assumption | apply uniformWord_keeps

theorem execKmin_keeps (d a b : KNum) (u : Bool) {s : State} (h : MemoriesWf s) : OutWf (execKmin d a b u s) := by
  unfold execKmin
  with_reducible repeat' first | assumption | apply uniformWord_keeps

theorem execKmax_keeps (d a b : KNum) (u : Bool) {s : State} (h : MemoriesWf s) : OutWf (execKmax d a b u s) := by
  unfold execKmax
  with_reducible repeat' first | assumption | apply uniformWord_keeps

theorem execKsel_keeps (d a b : KNum) (kf : BitVec 4) {s : State} (h : MemoriesWf s) : OutWf (execKsel d a b kf s) := by
  unfold execKsel
  with_reducible repeat' first | assumption | apply uniformWord_keeps

/-! ### The operations of Machine/Convert.lean -/

theorem execCvt_keeps (src : ElemType) (d a : VNum) (wa : Bool) {s : State} (h : MemoriesWf s) : OutWf (execCvt src d a wa s) := by
  unfold execCvt
  with_reducible repeat' first | assumption | apply laneWord_keeps

theorem execPack_keeps (src : ElemType) (d a : VNum) (part : BitVec 3) (wa : Bool) {s : State} (h : MemoriesWf s) :
    OutWf (execPack src d a part wa s) := by
  unfold execPack
  with_reducible repeat' first | assumption | apply laneWord_keeps

theorem execUnpk_keeps (src : ElemType) (d a : VNum) (part : BitVec 3) (wa : Bool) {s : State} (h : MemoriesWf s) :
    OutWf (execUnpk src d a part wa s) := by
  unfold execUnpk
  with_reducible repeat' first | assumption | apply laneWord_keeps

theorem State.writeNine_keeps {s : State} (c : Ctx) (d : VNum) (f : Nat → List Word) (h : MemoriesWf s) :
    MemoriesWf (s.writeNine c d f) := by
  unfold State.writeNine
  with_reducible repeat' first | (intro) | assumption | apply State.writeV_keeps | apply foldl_keeps

theorem execQnt_keeps (l : BlockLen) (d a b : VNum) (wa wb : Bool) {s : State} (h : MemoriesWf s) : OutWf (execQnt l d a b wa wb s) := by
  unfold execQnt
  dsimp only
  with_reducible
    repeat' first
      | (intro) | assumption | apply State.writeNine_keeps | apply issue_keeps | apply State.raise_keeps | apply ExWf.ok

theorem execRnd_keeps (m : RndMode) (d a : VNum) (wa : Bool) {s : State} (h : MemoriesWf s) : OutWf (execRnd m d a wa s) := by
  unfold execRnd
  with_reducible repeat' first | assumption | apply laneWord_keeps

theorem execClassf_keeps (d a : VNum) (wa : Bool) {s : State} (h : MemoriesWf s) : OutWf (execClassf d a wa s) := by
  unfold execClassf
  with_reducible repeat' first | assumption | apply laneWord_keeps

theorem execScalb_keeps (d a b : VNum) (wa wb : Bool) {s : State} (h : MemoriesWf s) : OutWf (execScalb d a b wa wb s) := by
  unfold execScalb
  with_reducible repeat' first | assumption | apply laneWord_keeps

/-! ### The operations of Machine/Cross.lean -/

theorem Meeting.stop_keeps (m : Meeting) {x : Stop} (h_x : StopWf x) : StopWf (m.stop x) := by
  cases h_x with
  | trap t => exact .trap _
  | trapIn t h => exact .trapIn _ h
  | wait k => exact .wait _
  | waitIn k h => exact .waitIn _ h

theorem Meeting.read_keeps (m : Meeting) (x : Src) (lanes : Half) {s : State} (h : MemoriesWf s) : ReadWf (Meeting.read m x lanes s) := by
  unfold Meeting.read
  split
  · next heq =>
    refine .error ?_
    cases readError_of heq (readOwn_keeps _ _ _ h) with
    | trap t => exact .trap _
    | trapIn t h => exact .trapIn _ h
    | wait k => exact .wait _
    | waitIn k h => exact .waitIn _ h
  · next heq => exact heq ▸ readOwn_keeps _ _ _ h

theorem Meeting.destStop_keeps (m : Meeting) (s : State) (d : VNum) : OptWf (Meeting.destStop m s d) := by
  unfold Meeting.destStop
  exact firstStop_cons (owedStop_keeps _ _ _) (firstStop_cons (operandStop_keeps _ _ _ _ _) firstStop_nil)

theorem State.releaseOthers_keeps {s : State} (c : Ctx) (held : BitVec 8) (h : MemoriesWf s) : MemoriesWf (s.releaseOthers c held) := by
  unfold State.releaseOthers
  dsimp only
  with_reducible repeat' first | assumption | apply State.meter_keeps | apply State.modGang_keeps

theorem meet_keeps (kf : BitVec 4) (effect : Meeting → State → Except Stop State) (c : Ctx) {s : State} (h : MemoriesWf s)
    (h_effect : ∀ c s, MemoriesWf s → ExWf (effect c s)) :
    ExWf (meet kf effect c s) := by
  unfold meet
  dsimp only
  with_reducible
    repeat' first
      | assumption | apply State.releaseOthers_keeps | apply h_effect | apply ExWf.ok | apply ExWf.error | apply StopWf.trap
      | apply StopWf.wait | refine ok_of (by assumption) ?_ | refine error_of (by assumption) ?_ | split

theorem State.writeMeeting_keeps {s : State} (m : Meeting) (d : VNum) (f : Nat → Word × Causes) (h : MemoriesWf s) :
    MemoriesWf (s.writeMeeting m d f) := by
  unfold State.writeMeeting
  with_reducible repeat' first | assumption | apply State.writeV_keeps | apply State.raise_keeps

theorem shflEffect_keeps (d a b : VNum) (wa wb : Bool) (m : Meeting) {s : State} (h : MemoriesWf s) :
    ExWf (shflEffect d a b wa wb m s) := by
  unfold shflEffect
  dsimp only
  with_reducible
    repeat' first
      | assumption | apply State.writeMeeting_keeps | apply Meeting.destStop_keeps | apply Meeting.read_keeps | apply Meeting.stop_keeps
      | apply ExWf.ok | apply ExWf.error | refine some_of (by assumption) ?_ | refine readOk_of (by assumption) ?_
      | refine readError_of (by assumption) ?_ | split

theorem execShfl_keeps (d a b : VNum) (wa wb : Bool) (kf : BitVec 4) {s : State} (h : MemoriesWf s) :
    OutWf (execShfl d a b wa wb kf s) := by
  unfold execShfl
  with_reducible repeat' first | (intro) | assumption | apply shflEffect_keeps | apply meet_keeps | apply issue_keeps

theorem bcstEffect_keeps (d a : VNum) (lane : BitVec 5) (wa : Bool) (m : Meeting) {s : State} (h : MemoriesWf s) :
    ExWf (bcstEffect d a lane wa m s) := by
  unfold bcstEffect
  dsimp only
  with_reducible
    repeat' first
      | assumption | apply State.writeMeeting_keeps | apply Meeting.destStop_keeps | apply Meeting.read_keeps | apply Meeting.stop_keeps
      | apply ExWf.ok | apply ExWf.error | refine some_of (by assumption) ?_ | refine readOk_of (by assumption) ?_
      | refine readError_of (by assumption) ?_ | split

theorem execBcst_keeps (d a : VNum) (lane : BitVec 5) (wa : Bool) (kf : BitVec 4) {s : State} (h : MemoriesWf s) :
    OutWf (execBcst d a lane wa kf s) := by
  unfold execBcst
  with_reducible repeat' first | (intro) | assumption | apply bcstEffect_keeps | apply meet_keeps | apply issue_keeps

theorem execSubx_keeps (d a b : VNum) (wa wb : Bool) {s : State} (h : MemoriesWf s) : OutWf (execSubx d a b wa wb s) := by
  unfold execSubx
  with_reducible repeat' first | assumption | apply laneWord_keeps

theorem execLanek_keeps (kd : KNum) (a : VNum) (lane : BitVec 5) (wa : Bool) {s : State} (h : MemoriesWf s) :
    OutWf (execLanek kd a lane wa s) := by
  unfold execLanek
  dsimp only
  with_reducible
    repeat' first
      | (intro) | assumption | apply issue_keeps | apply readOwn_keeps | apply State.writeK_keeps | apply ExWf.ok | apply ExWf.error
      | apply StopWf.trap | refine readOk_of (by assumption) ?_ | refine readError_of (by assumption) ?_ | split

theorem execKbcast_keeps (d : VNum) (ka : KNum) {s : State} (h : MemoriesWf s) : OutWf (execKbcast d ka s) := by
  unfold execKbcast
  with_reducible repeat' first | (intro) | assumption | apply issue_keeps | apply State.writeV_keeps | apply ExWf.ok

theorem combineEffect_keeps (op : CombineOp) (d a : VNum) (wa : Bool) (f : (Node → Node → Node) → List Node → Nat → Node) (m : Meeting)
    {s : State} (h : MemoriesWf s) :
    ExWf (combineEffect op d a wa f m s) := by
  unfold combineEffect
  with_reducible
    repeat' first
      | assumption | apply State.writeMeeting_keeps | apply Meeting.destStop_keeps | apply Meeting.read_keeps | apply Meeting.stop_keeps
      | apply ExWf.ok | apply ExWf.error | refine some_of (by assumption) ?_ | refine readOk_of (by assumption) ?_
      | refine readError_of (by assumption) ?_ | split

theorem combineWord_keeps (i : Instr) (op : CombineOp) (d a : VNum) (wa : Bool) (kf : BitVec 4)
    (f : (Node → Node → Node) → List Node → Nat → Node) {s : State} (h : MemoriesWf s) :
    OutWf (combineWord i op d a wa kf f s) := by
  unfold combineWord
  with_reducible repeat' first | (intro) | assumption | apply combineEffect_keeps | apply meet_keeps | apply issue_keeps

theorem execReduce_keeps (op : CombineOp) (d a : VNum) (wa : Bool) (kf : BitVec 4) {s : State} (h : MemoriesWf s) :
    OutWf (execReduce op d a wa kf s) := by
  unfold execReduce
  with_reducible repeat' first | assumption | apply combineWord_keeps

theorem execScan_keeps (op : CombineOp) (ex : Bool) (d a : VNum) (wa : Bool) (kf : BitVec 4) {s : State} (h : MemoriesWf s) :
    OutWf (execScan op ex d a wa kf s) := by
  unfold execScan
  with_reducible repeat' first | assumption | apply combineWord_keeps

theorem execVoteBallot_keeps (kd : KNum) (p : PNum) (kf : BitVec 4) {s : State} (h : MemoriesWf s) :
    OutWf (execVoteBallot kd p kf s) := by
  unfold execVoteBallot
  with_reducible repeat' first | (intro) | assumption | apply meet_keeps | apply issue_keeps | apply State.writeK_keeps | apply ExWf.ok

theorem execVoteAny_keeps (d p : PNum) (kf : BitVec 4) {s : State} (h : MemoriesWf s) : OutWf (execVoteAny d p kf s) := by
  unfold execVoteAny
  with_reducible repeat' first | (intro) | assumption | apply meet_keeps | apply issue_keeps | apply State.writeP_keeps | apply ExWf.ok

theorem execVoteAll_keeps (d p : PNum) (kf : BitVec 4) {s : State} (h : MemoriesWf s) : OutWf (execVoteAll d p kf s) := by
  unfold execVoteAll
  with_reducible repeat' first | (intro) | assumption | apply meet_keeps | apply issue_keeps | apply State.writeP_keeps | apply ExWf.ok

/-! ### The operations of Machine/Special.lean -/

theorem execRcp_keeps (d a : VNum) (wa : Bool) {s : State} (h : MemoriesWf s) : OutWf (execRcp d a wa s) := by
  unfold execRcp
  with_reducible repeat' first | assumption | apply laneWord_keeps

theorem execRsq_keeps (d a : VNum) (wa : Bool) {s : State} (h : MemoriesWf s) : OutWf (execRsq d a wa s) := by
  unfold execRsq
  with_reducible repeat' first | assumption | apply laneWord_keeps

theorem execSqrt_keeps (d a : VNum) (wa : Bool) {s : State} (h : MemoriesWf s) : OutWf (execSqrt d a wa s) := by
  unfold execSqrt
  with_reducible repeat' first | assumption | apply laneWord_keeps

theorem execExp2_keeps (d a : VNum) (wa : Bool) {s : State} (h : MemoriesWf s) : OutWf (execExp2 d a wa s) := by
  unfold execExp2
  with_reducible repeat' first | assumption | apply laneWord_keeps

theorem execLog2_keeps (d a : VNum) (wa : Bool) {s : State} (h : MemoriesWf s) : OutWf (execLog2 d a wa s) := by
  unfold execLog2
  with_reducible repeat' first | assumption | apply laneWord_keeps

theorem execSinpi_keeps (d a : VNum) (wa : Bool) {s : State} (h : MemoriesWf s) : OutWf (execSinpi d a wa s) := by
  unfold execSinpi
  with_reducible repeat' first | assumption | apply laneWord_keeps

theorem execCospi_keeps (d a : VNum) (wa : Bool) {s : State} (h : MemoriesWf s) : OutWf (execCospi d a wa s) := by
  unfold execCospi
  with_reducible repeat' first | assumption | apply laneWord_keeps

theorem execTanh_keeps (d a : VNum) (wa : Bool) {s : State} (h : MemoriesWf s) : OutWf (execTanh d a wa s) := by
  unfold execTanh
  with_reducible repeat' first | assumption | apply laneWord_keeps

/-! ### The operations of Machine/Scratch.lean -/

theorem laneStop_keeps (c : Ctx) (w : Nat) (addr : Nat → Word) (k : TagKind) : OptWf (laneStop c w addr k) := by
  unfold laneStop
  dsimp only
  with_reducible repeat' first | apply need_keeps | apply firstStop_cons | apply firstStop_nil | apply StopWf.trap

theorem uniformStop_keeps (c : Ctx) (al w : Nat) (a : Word) : OptWf (uniformStop c al w a) := by
  unfold uniformStop
  with_reducible repeat' first | apply need_keeps | apply firstStop_cons | apply firstStop_nil | apply StopWf.trap

theorem uniformRace_keeps (c : Ctx) (w : Nat) (a : Word) (k : TagKind) : OptWf (uniformRace c w a k) := by
  unfold uniformRace
  with_reducible repeat' first | (intro) | apply map_keeps | apply StopWf.trap | apply OptWf.none | split

theorem State.recordLanes_keeps {s : State} (c : Ctx) (w : Nat) (addr : Nat → Word) (k : TagKind) (h : MemoriesWf s) :
    MemoriesWf (s.recordLanes c w addr k) := by
  unfold State.recordLanes
  with_reducible repeat' first | assumption | apply State.modTeam_keeps | apply ite_keeps

theorem State.recordRange_keeps {s : State} (c : Ctx) (w : Nat) (a : Word) (k : TagKind) (h : MemoriesWf s) :
    MemoriesWf (s.recordRange c w a k) := by
  unfold State.recordRange
  with_reducible repeat' first | assumption | apply State.modTeam_keeps | apply ite_keeps

theorem badStop_keeps (s : State) (c : Ctx) (a : Word) (w : Nat) : OptWf (badStop s c a w) := by
  unfold badStop
  with_reducible repeat' first | apply need_keeps | apply StopWf.trap

theorem stopOr_keeps {x : Option Stop} {k : Except Stop State} (h_x : OptWf x) (h_k : ExWf k) : ExWf (stopOr x k) := by
  cases h_x with
  | none => exact h_k
  | some h => exact .error h

theorem State.lookFill_keeps {s : State} (core i : Nat) (h : MemoriesWf s) : MemoriesWf (s.lookFill core i) := by
  unfold State.lookFill
  dsimp only
  with_reducible
    repeat' first
      | assumption | apply State.modRecord_keeps | apply spad_of | apply obuf_of | apply hbm_of | apply far_of | apply kmem_of
      | apply And.intro | simp only [mk_keeps]

theorem State.ownStore_keeps {s : State} (u : Issuer) (f : State → State) (h : MemoriesWf s)
    (h_f : ∀ s, MemoriesWf s → MemoriesWf (f s)) :
    MemoriesWf (s.ownStore u f) := by
  unfold State.ownStore
  dsimp only
  with_reducible
    repeat' first
      | (intro) | assumption | apply State.lookFill_keeps | apply State.modRecord_keeps | apply h_f | apply foldl_keeps

theorem State.loadLanes_keeps {s : State} (c : Ctx) (d : VNum) (w : Nat) (sx : Bool) (addr : Nat → Word) (h : MemoriesWf s) :
    MemoriesWf (s.loadLanes c d w sx addr) := by
  unfold State.loadLanes
  dsimp only
  with_reducible
    repeat' first
      | assumption | apply State.modGang_keeps | apply ite_keeps | apply spad_of | apply obuf_of | apply hbm_of | apply far_of
      | apply kmem_of | apply And.intro | simp only [mk_keeps]

theorem State.storeLanes_keeps {s : State} (c : Ctx) (w : Nat) (addr val : Nat → Word) (h : MemoriesWf s) :
    MemoriesWf (s.storeLanes c w addr val) := by
  unfold State.storeLanes
  with_reducible repeat' first | (intro) | assumption | apply State.ownStore_keeps | apply State.spadWrite_keeps | apply foldl_keeps

theorem loadWord_keeps (i : Instr) (srcs : List Src) (d : VNum) (w : Nat) (sx : Bool) (addr : Ctx → Nat → Word) {s : State}
    (h : MemoriesWf s) :
    OutWf (loadWord i srcs d w sx addr s) := by
  unfold loadWord
  with_reducible
    repeat' first
      | (intro) | assumption | apply State.loadLanes_keeps | apply stopOr_keeps | apply State.recordLanes_keeps | apply laneStop_keeps
      | apply issue_keeps | apply ExWf.ok

theorem storeWord_keeps (i : Instr) (srcs : List Src) (w : Nat) (addr : Ctx → Nat → Word) (j : Nat) {s : State} (h : MemoriesWf s) :
    OutWf (storeWord i srcs w addr j s) := by
  unfold storeWord
  with_reducible
    repeat' first
      | (intro) | assumption | apply State.storeLanes_keeps | apply stopOr_keeps | apply State.recordLanes_keeps | apply laneStop_keeps
      | apply issue_keeps | apply ExWf.ok

theorem execLd_keeps (w : MemWidth) (sx : Bool) (d a : VNum) (wa : Bool) {s : State} (h : MemoriesWf s) :
    OutWf (execLd w sx d a wa s) := by
  unfold execLd
  with_reducible repeat' first | assumption | apply loadWord_keeps

theorem execSt_keeps (w : MemWidth) (a b : VNum) (wa wb : Bool) {s : State} (h : MemoriesWf s) : OutWf (execSt w a b wa wb s) := by
  unfold execSt
  with_reducible repeat' first | assumption | apply storeWord_keeps

theorem execLdx_keeps (d a : VNum) (imm : BitVec 12) {s : State} (h : MemoriesWf s) : OutWf (execLdx d a imm s) := by
  unfold execLdx
  with_reducible repeat' first | assumption | apply loadWord_keeps

theorem execStx_keeps (d a : VNum) (imm : BitVec 12) {s : State} (h : MemoriesWf s) : OutWf (execStx d a imm s) := by
  unfold execStx
  with_reducible repeat' first | assumption | apply storeWord_keeps

theorem State.rmwLanes_keeps {s : State} (c : Ctx) (w : Nat) (f : Nat → Nat → Nat × Causes) (h : MemoriesWf s) :
    MemoriesWf (s.rmwLanes c w f).1 := by
  unfold State.rmwLanes
  have fold : ∀ (ls : List Nat) (x : State × List (Nat × Nat × Causes)), MemoriesWf x.1 → MemoriesWf (ls.foldl (fun x l =>
      (x.1.spadSet (c.t.key (c.src 0 l).toNat) w (f l (x.1.seenNat (s.fresh + 8 * l) (c.t.key (c.src 0 l).toNat) w)).1,
       x.2 ++ [(l, x.1.seenNat (s.fresh + 8 * l) (c.t.key (c.src 0 l).toNat) w,
         (f l (x.1.seenNat (s.fresh + 8 * l) (c.t.key (c.src 0 l).toNat) w)).2)])) x).1 := by
    intro ls
    induction ls with
    | nil => exact fun _ h => h
    | cons l ls ih => exact fun x h => ih _ (State.spadSet_keeps _ _ _ h)
  exact fold _ _ h

theorem atomicWord_keeps (i : Instr) (f : Form) (d : VNum) (kind : Ctx → TagKind) (fn : Ctx → Nat → Nat → Nat × Causes) {s : State}
    (h : MemoriesWf s) :
    OutWf (atomicWord i f d kind fn s) := by
  unfold atomicWord
  dsimp only
  with_reducible
    repeat' first
      | (intro) | assumption | apply State.rmwLanes_keeps | apply State.ownStore_keeps | apply stopOr_keeps
      | apply State.recordLanes_keeps | apply laneStop_keeps | apply issue_keeps | apply State.writeV_keeps | apply State.raise_keeps
      | apply ite_keeps | apply ExWf.ok | apply need_keeps | apply spad_of | apply obuf_of | apply hbm_of | apply far_of | apply kmem_of
      | apply StopWf.trap | apply And.intro | simp only [mk_keeps]

theorem execAtom_keeps (op : AtomOp) (d a b : VNum) (wa wb : Bool) {s : State} (h : MemoriesWf s) :
    OutWf (execAtom op d a b wa wb s) := by
  unfold execAtom
  with_reducible repeat' first | assumption | apply atomicWord_keeps

theorem execAcas_keeps (d a b : VNum) (wa wb : Bool) {s : State} (h : MemoriesWf s) : OutWf (execAcas d a b wa wb s) := by
  unfold execAcas
  with_reducible repeat' first | assumption | apply atomicWord_keeps

theorem execKld_keeps (d a : KNum) (imm : BitVec 12) {s : State} (h : MemoriesWf s) : OutWf (execKld d a imm s) := by
  unfold execKld
  dsimp only
  with_reducible
    repeat' first
      | (intro) | assumption | apply stopOr_keeps | apply badStop_keeps | apply State.recordRange_keeps | apply uniformRace_keeps
      | apply uniformStop_keeps | apply issue_keeps | apply State.writeK_keeps | apply State.spadSeen_keeps | apply ExWf.ok

theorem execKst_keeps (d a : KNum) (imm : BitVec 12) {s : State} (h : MemoriesWf s) : OutWf (execKst d a imm s) := by
  unfold execKst
  dsimp only
  with_reducible
    repeat' first
      | (intro) | assumption | apply State.ownStore_keeps | apply stopOr_keeps | apply State.recordRange_keeps | apply uniformRace_keeps
      | apply uniformStop_keeps | apply issue_keeps | apply State.spadSet_keeps | apply ExWf.ok

/-! ### The operations of Machine/Tag.lean -/

theorem codeStop_keeps (c : Ctx) : OptWf (codeStop c) := by
  unfold codeStop
  dsimp only
  with_reducible repeat' first | apply need_keeps | apply StopWf.trap

theorem execTlook_keeps (d a : VNum) (wa : Bool) {s : State} (h : MemoriesWf s) : OutWf (execTlook d a wa s) := by
  unfold execTlook
  dsimp only
  with_reducible
    repeat' first
      | (intro) | assumption | apply issue_keeps | apply State.writeV_keeps | apply State.modTeam_keeps | apply ExWf.ok

theorem execTlookK_keeps (d a : KNum) {s : State} (h : MemoriesWf s) : OutWf (execTlookK d a s) := by
  unfold execTlookK
  dsimp only
  with_reducible
    repeat' first
      | (intro) | assumption | apply issue_keeps | apply State.writeK_keeps | apply State.modTeam_keeps | apply ExWf.ok

theorem wayWord_keeps (i : Instr) (f : Form) (put : Ctx → Nat → TagSet → Nat → TagSet) {s : State} (h : MemoriesWf s) :
    OutWf (wayWord i f put s) := by
  unfold wayWord
  with_reducible
    repeat' first
      | (intro) | assumption | apply codeStop_keeps | apply stopOr_keeps | apply issue_keeps | apply State.modTeam_keeps | apply ExWf.ok

theorem execTset_keeps (d a b : VNum) (wa wb : Bool) {s : State} (h : MemoriesWf s) : OutWf (execTset d a b wa wb s) := by
  unfold execTset
  with_reducible repeat' first | assumption | apply wayWord_keeps

theorem execTinv_keeps (a : VNum) (wa : Bool) {s : State} (h : MemoriesWf s) : OutWf (execTinv a wa s) := by
  unfold execTinv
  dsimp only
  with_reducible repeat' first | assumption | apply wayWord_keeps

/-! ### The operations of Machine/Access.lean -/

theorem State.reportMalformed_keeps {s : State} (p va n : Nat) (h : MemoriesWf s) : MemoriesWf (s.reportMalformed p va n) := by
  unfold State.reportMalformed
  dsimp only
  with_reducible repeat' first | assumption | apply State.translate_keeps | apply ite_keeps

theorem State.spanWrite_keeps : ∀ (xs : List Span) (bs : List Byte) {s : State}, MemoriesWf s → MemoriesWf (s.spanWrite xs bs) := by
  intro xs
  induction xs with
  | nil => exact fun _ _ h => h
  | cons x xs ih => exact fun bs _ h => ih _ (State.physWrite_keeps _ _ _ h)

theorem State.stageLine_keeps {s : State} (p line : Nat) (bs : List Byte) (h : MemoriesWf s) : MemoriesWf (s.stageLine p line bs) := by
  unfold State.stageLine
  with_reducible
    repeat' first
      | assumption | apply ite_keeps | apply spad_of | apply obuf_of | apply hbm_of | apply far_of | apply kmem_of | apply And.intro
      | simp only [mk_keeps]

theorem State.stage_keeps {s : State} (p : Nat) (bs : List Byte) (h : MemoriesWf s) : MemoriesWf (s.stage p bs) := by
  unfold State.stage
  dsimp only
  with_reducible
    repeat' first
      | (intro) | assumption | apply State.stageLine_keeps | apply foldl_keeps | apply spad_of | apply obuf_of | apply hbm_of
      | apply far_of | apply kmem_of | apply And.intro | simp only [mk_keeps]

theorem State.tierRecord_keeps {s : State} (p page source kind flags core frame : Nat) (h : MemoriesWf s) :
    MemoriesWf (s.tierRecord p page source kind flags core frame) := by
  unfold State.tierRecord
  with_reducible
    repeat' first
      | assumption | apply spad_of | apply obuf_of | apply hbm_of | apply far_of | apply kmem_of | apply ringLog_wf | apply And.intro
      | simp only [mk_keeps]

theorem State.pageInStart_keeps {s : State} (p va : Nat) (l : Leaf) (h : MemoriesWf s) : MemoriesWf (s.pageInStart p va l) := by
  unfold State.pageInStart
  dsimp only
  with_reducible
    repeat' first
      | assumption | apply spad_of | apply obuf_of | apply hbm_of | apply far_of | apply kmem_of | apply memSet_wf | apply And.intro
      | simp only [mk_keeps]

theorem State.farMiss_keeps {s : State} (p source core : Nat) (x : Span) (h : MemoriesWf s) : MemoriesWf (s.farMiss p source core x) := by
  unfold State.farMiss
  dsimp only
  with_reducible repeat' first | assumption | apply State.pageInStart_keeps | apply State.tierRecord_keeps | apply ite_keeps

theorem State.farMisses_keeps {s : State} (p source core : Nat) (xs : List Span) (h : MemoriesWf s) :
    MemoriesWf (s.farMisses p source core xs) := by
  unfold State.farMisses
  with_reducible
    repeat' first
      | (intro) | assumption | apply State.farMiss_keeps | apply State.stage_keeps | apply State.meter_keeps | apply ite_keeps
      | apply foldl_keeps

theorem State.reportWindow_keeps {s : State} (w : BitVec 7) (key : Word) (kind : ReqKind) (off size : Nat) (h : MemoriesWf s) :
    MemoriesWf (s.reportWindow w key kind off size) := by
  unfold State.reportWindow
  dsimp only
  with_reducible repeat' first | assumption | apply State.reportMalformed_keeps | apply ite_keeps

theorem State.spanSync_keeps {s : State} (xs : List Span) (inc flags : Nat) (h : MemoriesWf s) :
    MemoriesWf (s.spanSync xs inc flags) := by
  unfold State.spanSync
  dsimp only
  with_reducible repeat' first | assumption | apply State.spanWrite_keeps | apply ite_keeps

theorem State.syncAt_keeps {s : State} (p : Nat) (a : Word) (inc flags : Nat) (h : MemoriesWf s) :
    MemoriesWf (s.syncAt p a inc flags) := by
  unfold State.syncAt
  with_reducible
    repeat' first
      | assumption | apply State.spanSync_keeps | apply State.reportWindow_keeps | apply State.reportMalformed_keeps
      | apply State.syncAdd_keeps | apply State.send_keeps | apply ite_keeps | split

/-! ### The operations of Machine/Launch.lean -/

theorem State.refuseDesc_keeps {s : State} (p : Nat) (done : Option Word) (seq : Option Nat) (rule : Nat) (h : MemoriesWf s) :
    MemoriesWf (s.refuseDesc p done seq rule) := by
  unfold State.refuseDesc
  dsimp only
  with_reducible
    repeat' first
      | assumption | apply State.syncAt_keeps | apply State.notify_keeps | apply State.modPart_keeps | apply ite_keeps | split

theorem State.enqueue_keeps {s : State} (g : Grid) (h : MemoriesWf s) : MemoriesWf (s.enqueue g) := h

/-! ### The operations of Machine/Sync.lean -/

theorem execSwinit_keeps (ka kb : KNum) {s : State} (h : MemoriesWf s) : OutWf (execSwinit ka kb s) := by
  unfold execSwinit
  dsimp only
  with_reducible
    repeat' first
      | (intro) | assumption | apply State.ownStore_keeps | apply stopOr_keeps | apply badStop_keeps | apply uniformStop_keeps
      | apply issue_keeps | apply State.spadWrite_keeps | apply ExWf.ok | apply spad_of | apply obuf_of | apply hbm_of | apply far_of
      | apply kmem_of | apply And.intro | simp only [mk_keeps]

theorem execSwadd_keeps (sc : Scope) (ka kb : KNum) {s : State} (h : MemoriesWf s) : OutWf (execSwadd sc ka kb s) := by
  unfold execSwadd
  with_reducible
    repeat' first
      | (intro) | assumption | apply State.ownStore_keeps | apply stopOr_keeps | apply badStop_keeps | apply uniformStop_keeps
      | apply issue_keeps | apply State.syncAdd_keeps | apply ExWf.ok

theorem State.observe_keeps {s : State} (f : Cmd → Bool) (h : MemoriesWf s) : MemoriesWf (s.observe f) := h

theorem execSwait_keeps (sc : Scope) (ka kb : KNum) {s : State} (h : MemoriesWf s) : OutWf (execSwait sc ka kb s) := by
  unfold execSwait
  dsimp only
  with_reducible
    repeat' first
      | (intro) | assumption | apply State.observe_keeps | apply stopOr_keeps | apply badStop_keeps | apply uniformStop_keeps
      | apply issue_keeps | apply ExWf.ok | apply need_keeps | apply StopWf.trap | apply StopWf.wait

theorem execWaitc_keeps (cn : CounterName) (n : BitVec 8) {s : State} (h : MemoriesWf s) : OutWf (execWaitc cn n s) := by
  unfold execWaitc
  dsimp only
  with_reducible
    repeat' first
      | (intro) | assumption | apply State.observe_keeps | apply stopOr_keeps | apply issue_keeps | apply State.modPartyCounter_keeps
      | apply ite_keeps | apply ExWf.ok | apply ExWf.error | apply StopWf.trapIn | apply need_keeps | apply StopWf.wait | split

theorem State.closeRegion_keeps {s : State} (u : Issuer) (h : MemoriesWf s) : MemoriesWf (s.closeRegion u) := by
  unfold State.closeRegion
  dsimp only
  with_reducible repeat' first | assumption | apply State.modGang_keeps

theorem State.arriveAt_keeps {s : State} (u : Issuer) (n : BitVec 4) (keep : Bool) (h : MemoriesWf s) :
    MemoriesWf (s.arriveAt u n keep) := by
  unfold State.arriveAt
  with_reducible repeat' first | assumption | apply State.closeRegion_keeps | apply State.modTeam_keeps

theorem execBar_keeps (n : BitVec 4) {s : State} (h : MemoriesWf s) : OutWf (execBar n s) := by
  unfold execBar
  dsimp only
  with_reducible
    repeat' first
      | (intro) | assumption | apply State.arriveAt_keeps | apply stopOr_keeps | apply issue_keeps | apply ExWf.ok | apply StopWf.waitIn
      | apply need_keeps | apply StopWf.wait | split

theorem execBara_keeps (n : BitVec 4) {s : State} (h : MemoriesWf s) : OutWf (execBara n s) := by
  unfold execBara
  dsimp only
  with_reducible
    repeat' first
      | (intro) | assumption | apply State.arriveAt_keeps | apply stopOr_keeps | apply issue_keeps | apply ExWf.ok | apply ExWf.error
      | apply StopWf.waitIn | apply need_keeps | apply StopWf.wait | split

theorem execBarw_keeps (n : BitVec 4) {s : State} (h : MemoriesWf s) : OutWf (execBarw n s) := by
  unfold execBarw
  dsimp only
  with_reducible
    repeat' first
      | (intro) | assumption | apply stopOr_keeps | apply issue_keeps | apply ExWf.ok | apply need_keeps | apply StopWf.wait | split

theorem execTrig_keeps {s : State} (h : MemoriesWf s) : OutWf (execTrig s) := by
  unfold execTrig
  with_reducible
    repeat' first
      | (intro) | assumption | apply State.trigEvent_keeps | apply issue_keeps | apply State.modGang_keeps | apply ExWf.ok

theorem execDetep_keeps {s : State} (h : MemoriesWf s) : OutWf (execDetep s) := by
  unfold execDetep
  with_reducible repeat' first | (intro) | assumption | apply issue_keeps | apply State.modTeam_keeps | apply ite_keeps | apply ExWf.ok

theorem execLaunch_keeps (ka : KNum) {s : State} (h : MemoriesWf s) : OutWf (execLaunch ka s) := by
  unfold execLaunch
  dsimp only
  with_reducible
    repeat' first
      | (intro) | assumption | apply State.closeRegion_keeps | apply State.enqueue_keeps | apply State.refuseDesc_keeps
      | apply stopOr_keeps | apply badStop_keeps | apply State.recordRange_keeps | apply uniformRace_keeps | apply uniformStop_keeps
      | apply issue_keeps | apply State.spadSeen_keeps | apply ite_keeps | apply ExWf.ok | apply need_keeps | apply StopWf.trap
      | apply StopWf.wait | split

theorem execQpush_keeps (q : BitVec 2) (ka : KNum) (bcast : Bool) {s : State} (h : MemoriesWf s) : OutWf (execQpush q ka bcast s) := by
  unfold execQpush
  dsimp only
  with_reducible
    repeat' first
      | (intro) | assumption | apply stopOr_keeps | apply badStop_keeps | apply uniformStop_keeps | apply issue_keeps
      | apply State.spadSeen_keeps | apply State.modTeam_keeps | apply ExWf.ok | apply ExWf.error | apply StopWf.waitIn | split

/-! ### The operations of Machine/Engine.lean -/

theorem State.modCmd_keeps {s : State} (i : Nat) (f : Cmd → Cmd) (h : MemoriesWf s) : MemoriesWf (s.modCmd i f) := h

theorem State.windowWrite_keeps {s : State} (u off : Nat) (bs : List Byte) (h : MemoriesWf s) : MemoriesWf (s.windowWrite u off bs) := by
  unfold State.windowWrite
  with_reducible repeat' first | assumption | apply State.clearLines_keeps | apply State.spadWrite_keeps

theorem State.windowSet_keeps {s : State} (u off n v : Nat) (h : MemoriesWf s) : MemoriesWf (s.windowSet u off n v) := by
  unfold State.windowSet
  with_reducible repeat' first | assumption | apply State.windowWrite_keeps

theorem State.clearSync_keeps {s : State} (p key : Nat) (h : MemoriesWf s) : MemoriesWf (s.clearSync p key) := by
  unfold State.clearSync
  with_reducible repeat' first | assumption | apply State.clearLines_keeps | split

theorem State.engineSync_keeps {s : State} (p key inc flags : Nat) (h : MemoriesWf s) : MemoriesWf (s.engineSync p key inc flags) := by
  unfold State.engineSync
  with_reducible repeat' first | assumption | apply State.clearSync_keeps | apply State.syncAdd_keeps

theorem State.engineFlags_keeps {s : State} (p key flags : Nat) (h : MemoriesWf s) : MemoriesWf (s.engineFlags p key flags) := by
  unfold State.engineFlags
  with_reducible repeat' first | assumption | apply State.clearSync_keeps | apply State.spadSet_keeps | apply ite_keeps

theorem State.endCmd_keeps {s : State} (i : Nat) (fault : Option OpFlag) (h : MemoriesWf s) : MemoriesWf (s.endCmd i fault) := by
  unfold State.endCmd
  dsimp only
  with_reducible repeat' first | assumption | apply State.modCmd_keeps | apply State.modPartyCounter_keeps

theorem State.startCmd_keeps {s : State} (u : Issuer) (skipper : Bool) (addr : Nat) (chain : Chain) (skip : SkipCmd) (h : MemoriesWf s) :
    MemoriesWf (s.startCmd u skipper addr chain skip) := by
  unfold State.startCmd
  dsimp only
  with_reducible
    repeat' first
      | assumption | apply State.modPartyCounter_keeps | apply spad_of | apply obuf_of | apply hbm_of | apply far_of | apply kmem_of
      | apply And.intro | simp only [mk_keeps]

theorem counterStop_keeps (c : Counter) (n : CounterName) : OptWf (counterStop c n) := by
  unfold counterStop
  with_reducible repeat' first | apply need_keeps | apply StopWf.wait

theorem commandStop_keeps {s : State} (c : Ctx) (a : Word) (block : List Byte) (h : MemoriesWf s) :
    OptWf (commandStop s c a block) := by
  unfold commandStop
  with_reducible repeat' first | assumption | apply StopWf.waitIn | apply need_keeps

theorem startCopy_keeps (c : Ctx) (a : Word) (b : List Byte) {s : State} (h : MemoriesWf s) : ExWf (startCopy c a b s) := by
  unfold startCopy
  dsimp only
  with_reducible
    repeat' first
      | (intro) | assumption | apply commandStop_keeps | apply State.startCmd_keeps | apply State.ownStore_keeps | apply stopOr_keeps
      | apply State.spadWrite_keeps | apply ExWf.ok

theorem execCopy_keeps (ka : KNum) {s : State} (h : MemoriesWf s) : OutWf (execCopy ka s) := by
  unfold execCopy
  dsimp only
  with_reducible
    repeat' first
      | (intro) | assumption | apply startCopy_keeps | apply stopOr_keeps | apply badStop_keeps | apply State.recordRange_keeps
      | apply uniformRace_keeps | apply uniformStop_keeps | apply issue_keeps | split

theorem regionStop_keeps (c : Ctx) (a : Nat) (size al : Nat) : OptWf (regionStop c a size al) := by
  unfold regionStop
  with_reducible
    repeat' first
      | apply need_keeps | apply firstStop_cons | apply firstStop_nil | apply StopWf.trap | apply OptWf.none | split

theorem startSkip_keeps (c : Ctx) (a : Word) (b : List Byte) {s : State} (h : MemoriesWf s) : ExWf (startSkip c a b s) := by
  unfold startSkip
  dsimp only
  with_reducible
    repeat' first
      | (intro) | assumption | apply commandStop_keeps | apply State.startCmd_keeps | apply State.ownStore_keeps | apply stopOr_keeps
      | apply State.spadWrite_keeps | apply ExWf.ok

theorem execSkip_keeps (ka : KNum) {s : State} (h : MemoriesWf s) : OutWf (execSkip ka s) := by
  unfold execSkip
  dsimp only
  with_reducible
    repeat' first
      | (intro) | assumption | apply startSkip_keeps | apply regionStop_keeps | apply stopOr_keeps | apply badStop_keeps
      | apply State.recordRange_keeps | apply uniformRace_keeps | apply uniformStop_keeps | apply issue_keeps | apply State.spadSeen_keeps
      | split

theorem execEngq_keeps (kd ka : KNum) {s : State} (h : MemoriesWf s) : OutWf (execEngq kd ka s) := by
  unfold execEngq
  with_reducible repeat' first | (intro) | assumption | apply issue_keeps | apply State.writeK_keeps | apply ExWf.ok

end Sys2Proof.Machine
end

