-- ==== Sys2Proof/Laws/CanonicalUnits.lean ====
section
/-!
SUPPORT. Engines, remote operations, the timebase, the array and the search keep the memories in canonical form.
-/
namespace Sys2Proof.Machine

open Sys2Proof Sys2Proof.Safety

/-! ### The operations of Machine/Chain.lean -/

theorem State.chainFault_keeps {s : State} (i code : Nat) (sync : Option Nat) (h : MemoriesWf s) :
    MemoriesWf (s.chainFault i code sync) := by
  unfold State.chainFault
  dsimp only
  with_reducible
    repeat' first
      | assumption | apply State.endCmd_keeps | apply State.clearSync_keeps | apply State.windowSet_keeps | apply State.syncFault_keeps
      | split

theorem State.nextEntry_keeps {s : State} (i e : Nat) (h : MemoriesWf s) : MemoriesWf (s.nextEntry i e) := by
  unfold State.nextEntry
  dsimp only
  with_reducible repeat' first | assumption | apply State.windowSet_keeps | apply State.modCmd_keeps

theorem State.obufWrite_keeps {s : State} (key : Nat) (bs : List Byte) (h : MemoriesWf s) : MemoriesWf (s.obufWrite key bs) := by
  unfold State.obufWrite
  dsimp only
  with_reducible
    repeat' first
      | assumption | apply spad_of | apply obuf_of | apply hbm_of | apply far_of | apply kmem_of | apply memWrite_wf | apply And.intro
      | simp only [mk_keeps]

theorem Io.fail_keeps (x : Io) (code : Nat) (h : MemoriesWf x.s) : MemoriesWf (Io.fail x code).s := by
  unfold Io.fail
  dsimp only
  with_reducible repeat' assumption

theorem Io.answer_keeps (x : Io) (n : Nat) (h : MemoriesWf x.s) : MemoriesWf (Io.answer x n).s := by
  unfold Io.answer
  with_reducible repeat' first | assumption | apply Io.fail_keeps | split

theorem State.meterWrite_keeps {s : State} (p n : Nat) (data : Option (List Byte)) (h : MemoriesWf s) :
    MemoriesWf (s.meterWrite p n data) := by
  unfold State.meterWrite
  with_reducible repeat' first | assumption | apply State.meter_keeps | apply ite_keeps

theorem Io.podUnit_keeps (x : Io) (p : Nat) (dev : BitVec 21) (win : BitVec 7) (off n : Nat) (data : Option (List Byte))
    (h : MemoriesWf x.s) :
    MemoriesWf (Io.podUnit x p dev win off n data).s := by
  unfold Io.podUnit
  dsimp only
  with_reducible
    repeat' first
      | assumption | apply State.meterWrite_keeps | apply Io.answer_keeps | apply Io.fail_keeps | apply State.reportWindow_keeps
      | apply State.farMisses_keeps | apply State.stage_keeps | apply State.spanWrite_keeps | apply State.meter_keeps
      | apply State.send_keeps | simp only [mk_keeps] | split

theorem Io.read_keeps (x : Io) (t : Team) (pl : Place) (n : Nat) (h : MemoriesWf x.s) : MemoriesWf (Io.read x t pl n).s := by
  have units : ∀ (l : List (Nat × Nat)) (p : Nat) (dev : BitVec 21) (win : BitVec 7) {x : Io}, MemoriesWf x.s →
      MemoriesWf (l.foldl (fun x u => x.podUnit p dev win u.1 u.2 none) x).s := by
    intro l p dev win
    induction l with
    | nil => exact fun h => h
    | cons u l ih => exact fun h => ih (Io.podUnit_keeps _ _ _ _ _ _ _ h)
  unfold Io.read
  dsimp only
  split
  all_goals
    with_reducible
      repeat' first
        | assumption | split | apply units | apply State.spadSeen_keeps | apply Io.fail_keeps | apply State.farMisses_keeps
        | apply State.reportMalformed_keeps | (dsimp only)

theorem Io.write_keeps (x : Io) (t : Team) (pl : Place) (bs : List Byte) (h : MemoriesWf x.s) : MemoriesWf (Io.write x t pl bs).s := by
  have units : ∀ (l : List (Nat × Nat)) (p : Nat) (dev : BitVec 21) (win : BitVec 7) (f : Nat × Nat → Option (List Byte)) {x : Io},
      MemoriesWf x.s → MemoriesWf (l.foldl (fun x u => x.podUnit p dev win u.1 u.2 (f u)) x).s := by
    intro l p dev win f
    induction l with
    | nil => exact fun h => h
    | cons u l ih => exact fun h => ih (Io.podUnit_keeps _ _ _ _ _ _ _ h)
  unfold Io.write
  dsimp only
  split
  all_goals
    with_reducible
      repeat' first
        | assumption | split | apply units | apply State.meter_keeps | apply Io.fail_keeps | apply State.engineSpadWrite_keeps
        | apply State.obufWrite_keeps | apply State.spanWrite_keeps | apply State.farMisses_keeps | apply State.reportMalformed_keeps
        | (dsimp only)

theorem State.pagesWrite_keeps (p : Nat) : ∀ (n va : Nat) (bs : List Byte) {s : State}, MemoriesWf s → MemoriesWf
    (s.pagesWrite p n va bs) := by
  intro n
  induction n with
  | zero => exact fun _ _ _ h => h
  | succ n ih =>
    intro va bs s h
    unfold State.pagesWrite
    split
    · exact h
    · refine ih _ _ ?_
      split
      · exact State.spanWrite_keeps _ _ h
      · exact h

theorem State.scramble_keeps {s : State} (t : Team) (pl : Place) (n : Nat) (h : MemoriesWf s) : MemoriesWf (s.scramble t pl n) := by
  unfold State.scramble
  dsimp only
  with_reducible
    repeat' first
      | (intro) | assumption | apply State.pagesWrite_keeps | apply State.obufWrite_keeps | apply State.spanWrite_keeps
      | apply State.engineSpadWrite_keeps | apply ite_keeps | apply foldl_keeps | apply spad_of | apply obuf_of | apply hbm_of
      | apply far_of | apply kmem_of | apply And.intro | simp only [mk_keeps] | split

theorem State.markWild_keeps {s : State} (i : Nat) (h : MemoriesWf s) : MemoriesWf (s.markWild i) := by
  unfold State.markWild
  dsimp only
  with_reducible repeat' first | assumption | apply State.modCmd_keeps | apply ite_keeps

theorem State.reach_keeps {s : State} (i kind : Nat) (f : Entry → State → State) (h : MemoriesWf s)
    (h_f : ∀ e s, MemoriesWf s → MemoriesWf (f e s)) :
    MemoriesWf (s.reach i kind f) := by
  unfold State.reach
  dsimp only
  with_reducible
    repeat' first
      | assumption | apply State.markWild_keeps | apply State.chainFault_keeps | apply h_f | apply ite_keeps | split

theorem State.spoilChunk_keeps {s : State} (i : Nat) (e : Entry) (h : MemoriesWf s) : MemoriesWf (s.spoilChunk i e) := by
  unfold State.spoilChunk
  dsimp only
  with_reducible repeat' first | assumption | apply State.scramble_keeps | split

theorem openEntry_keeps (i : Nat) (e : Entry) {s : State} (h : MemoriesWf s) : MemoriesWf (openEntry i e s) := by
  unfold openEntry
  dsimp only
  with_reducible
    repeat' first
      | assumption | apply State.spoilChunk_keeps | apply State.chainFault_keeps | apply State.modCmd_keeps | split

theorem execCopye_keeps (cmd : Nat) {s : State} (h : MemoriesWf s) : OutWf (execCopye cmd s) := by
  unfold execCopye
  with_reducible repeat' first | (intro) | assumption | apply openEntry_keeps | apply State.reach_keeps | apply OutWf.next

theorem execFill_keeps (cmd : Nat) {s : State} (h : MemoriesWf s) : OutWf (execFill cmd s) := by
  unfold execFill
  with_reducible repeat' first | (intro) | assumption | apply openEntry_keeps | apply State.reach_keeps | apply OutWf.next

theorem State.tierMiss_keeps {s : State} (p : Nat) (far : Bool) (word : Option Nat) (h : MemoriesWf s) :
    MemoriesWf (s.tierMiss p far word) := by
  unfold State.tierMiss
  with_reducible repeat' first | assumption | apply State.engineFlags_keeps | apply ite_keeps | split

theorem State.wildSync_keeps {s : State} (wild : Bool) (key : Nat) (h : MemoriesWf s) : MemoriesWf (s.wildSync wild key) := by
  unfold State.wildSync
  dsimp only
  with_reducible
    repeat' first
      | assumption | apply State.spadSet_keeps | apply ite_keeps | apply spad_of | apply obuf_of | apply hbm_of | apply far_of
      | apply kmem_of | apply And.intro | simp only [mk_keeps]

theorem chunkSource_keeps {s : State} {t : Team} {c : Chain} {e : Entry} {n : Nat} {pod : List PodAns} {rd : Io}
    (eq : chunkSource s t c e n pod = some rd)
    (h : MemoriesWf s) : MemoriesWf rd.s := by
  unfold chunkSource at eq
  split at eq
  · cases eq
    exact h
  · cases hr : s.resolve t e.src e.swin (c.strideOf c.sstride + c.doneb) n with
    | none => simp [hr] at eq
    | some pl =>
      simp only [hr, Option.map_some, Option.some.injEq] at eq
      exact eq ▸ Io.read_keeps _ _ _ _ h

theorem State.chunkDone_keeps {s : State} (i n : Nat) (e : Entry) (word : Option Nat) (h : MemoriesWf s) :
    MemoriesWf (s.chunkDone i n e word) := by
  unfold State.chunkDone
  dsimp only
  with_reducible
    repeat' first
      | assumption | apply State.wildSync_keeps | apply State.nextEntry_keeps | apply State.engineSync_keeps | apply State.windowSet_keeps
      | apply State.modCmd_keeps | apply ite_keeps | split

theorem State.chunk_keeps {s : State} (i : Nat) (pod : List PodAns) (e : Entry) (h : MemoriesWf s) : MemoriesWf (s.chunk i pod e) := by
  unfold State.chunk
  dsimp only
  with_reducible
    repeat' first
      | assumption | apply State.chunkDone_keeps | apply State.tierMiss_keeps | apply State.spoilChunk_keeps | apply State.scramble_keeps
      | apply Io.write_keeps | apply State.chainFault_keeps | refine chunkSource_keeps (by assumption) ?_ | apply ite_keeps
      | apply spad_of | apply obuf_of | apply hbm_of | apply far_of | apply kmem_of | apply And.intro | simp only [mk_keeps] | split

theorem execCopyChunk_keeps (cmd : Nat) (pod : List PodAns) {s : State} (h : MemoriesWf s) : OutWf (execCopyChunk cmd pod s) := by
  unfold execCopyChunk
  dsimp only
  with_reducible
    repeat' first
      | assumption | apply State.chunk_keeps | apply State.chainFault_keeps | apply ite_keeps | apply OutWf.next | split

theorem execSwadde_keeps (cmd : Nat) {s : State} (h : MemoriesWf s) : OutWf (execSwadde cmd s) := by
  unfold execSwadde
  dsimp only
  with_reducible
    repeat' first
      | (intro) | assumption | apply State.wildSync_keeps | apply State.reach_keeps | apply State.nextEntry_keeps
      | apply State.chainFault_keeps | apply State.engineSync_keeps | apply State.modCmd_keeps | apply OutWf.next | split

theorem State.loopLeft_keeps {s : State} (i n : Nat) (h : MemoriesWf s) : MemoriesWf (s.loopLeft i n) := by
  unfold State.loopLeft
  dsimp only
  with_reducible repeat' first | assumption | apply State.windowSet_keeps | apply State.modCmd_keeps

theorem execLoope_keeps (cmd : Nat) {s : State} (h : MemoriesWf s) : OutWf (execLoope cmd s) := by
  unfold execLoope
  dsimp only
  with_reducible
    repeat' first
      | (intro) | assumption | apply State.loopLeft_keeps | apply State.reach_keeps | apply State.nextEntry_keeps
      | apply State.chainFault_keeps | apply State.modCmd_keeps | apply ite_keeps | apply OutWf.next

theorem execConde_keeps (cmd : Nat) {s : State} (h : MemoriesWf s) : OutWf (execConde cmd s) := by
  unfold execConde
  dsimp only
  with_reducible
    repeat' first
      | (intro) | assumption | apply State.reach_keeps | apply State.nextEntry_keeps | apply State.chainFault_keeps
      | apply State.modCmd_keeps | apply ite_keeps | apply OutWf.next | split

theorem execNext_keeps (cmd : Nat) {s : State} (h : MemoriesWf s) : OutWf (execNext cmd s) := by
  unfold execNext
  dsimp only
  with_reducible
    repeat' first
      | (intro) | assumption | apply State.reach_keeps | apply State.nextEntry_keeps | apply State.modCmd_keeps | apply OutWf.next

theorem execStop_keeps (cmd : Nat) {s : State} (h : MemoriesWf s) : OutWf (execStop cmd s) := by
  unfold execStop
  dsimp only
  with_reducible
    repeat' first
      | (intro) | assumption | apply State.reach_keeps | apply State.endCmd_keeps | apply State.windowSet_keeps | apply OutWf.next

theorem execChainStop_keeps (cmd : Nat) {s : State} (h : MemoriesWf s) : OutWf (execChainStop cmd s) := by
  unfold execChainStop
  with_reducible repeat' first | assumption | apply State.modCmd_keeps | apply ite_keeps | apply OutWf.next

/-! ### The operations of Machine/Skipper.lean -/

theorem State.ownResult_keeps {s : State} (i : Nat) (f : State → State) (h : MemoriesWf s) (h_f : ∀ s, MemoriesWf s → MemoriesWf (f s)) :
    MemoriesWf (s.ownResult i f) := by
  unfold State.ownResult
  dsimp only
  with_reducible repeat' first | assumption | apply State.modCmd_keeps | apply h_f

theorem State.writeResultState_keeps {s : State} (i : Nat) (h : MemoriesWf s) : MemoriesWf (s.writeResultState i) := by
  unfold State.writeResultState
  dsimp only
  with_reducible
    repeat' first
      | (intro) | assumption | apply State.ownResult_keeps | apply State.windowWrite_keeps | apply ite_keeps | apply spad_of
      | apply obuf_of | apply hbm_of | apply far_of | apply kmem_of | apply And.intro | simp only [mk_keeps]

theorem State.skipSync_keeps {s : State} (i flags : Nat) (h : MemoriesWf s) : MemoriesWf (s.skipSync i flags) := by
  unfold State.skipSync
  dsimp only
  with_reducible
    repeat' first
      | assumption | apply State.engineSync_keeps | apply State.spadSet_keeps | apply ite_keeps | apply spad_of | apply obuf_of
      | apply hbm_of | apply far_of | apply kmem_of | apply And.intro | simp only [mk_keeps]

theorem State.skipEnd_keeps {s : State} (i : Nat) (code : Option Nat) (h : MemoriesWf s) : MemoriesWf (s.skipEnd i code) := by
  unfold State.skipEnd
  dsimp only
  with_reducible
    repeat' first
      | (intro) | assumption | apply State.skipSync_keeps | apply State.writeResultState_keeps | apply State.ownResult_keeps
      | apply State.endCmd_keeps | apply State.windowSet_keeps | apply ite_keeps | apply spad_of | apply obuf_of | apply hbm_of
      | apply far_of | apply kmem_of | apply And.intro | simp only [mk_keeps] | split

theorem execSkipperChunk_keeps (cmd : Nat) {s : State} (h : MemoriesWf s) : OutWf (execSkipperChunk cmd s) := by
  unfold execSkipperChunk
  dsimp only
  with_reducible
    repeat' first
      | assumption | apply State.skipEnd_keeps | apply State.writeResultState_keeps | apply State.modCmd_keeps | apply State.farMiss_keeps
      | apply State.reportMalformed_keeps | apply State.meter_keeps | apply ite_keeps | apply OutWf.next | split

theorem execSkipperStop_keeps (cmd : Nat) {s : State} (h : MemoriesWf s) : OutWf (execSkipperStop cmd s) := by
  unfold execSkipperStop
  with_reducible repeat' first | assumption | apply State.modCmd_keeps | apply ite_keeps | apply OutWf.next

theorem State.skipRestart_keeps {s : State} (i : Nat) (h : MemoriesWf s) : MemoriesWf (s.skipRestart i) := by
  unfold State.skipRestart
  dsimp only
  with_reducible repeat' first | assumption | apply State.modCmd_keeps

/-! ### The operations of Machine/Remote.lean -/

theorem State.modOp_keeps {s : State} (i : Nat) (f : RemOp → RemOp) (h : MemoriesWf s) : MemoriesWf (s.modOp i f) := h

theorem State.modLane_keeps {s : State} (i l : Nat) (f : RemLane → RemLane) (h : MemoriesWf s) : MemoriesWf (s.modLane i l f) := by
  unfold State.modLane
  with_reducible repeat' first | assumption | apply State.modOp_keeps

theorem State.setStage_keeps {s : State} (i l : Nat) (x : LaneStage) (h : MemoriesWf s) : MemoriesWf (s.setStage i l x) := by
  unfold State.setStage
  with_reducible repeat' first | assumption | apply State.modLane_keeps

theorem State.sendLane_keeps {s : State} (i l : Nat) (stamped : Bool) (h : MemoriesWf s) : MemoriesWf (s.sendLane i l stamped) := by
  unfold State.sendLane
  dsimp only
  with_reducible
    repeat' first
      | assumption | apply State.setStage_keeps | apply State.modLane_keeps | apply State.meter_keeps | apply State.send_keeps
      | apply ite_keeps | split

theorem State.issueOp_keeps {s : State} (c : Ctx) (kind : RemKind) (d : VNum) (dsts : List VNum) (stamp : Word) (lanes : List RemLane)
    (h : MemoriesWf s) :
    MemoriesWf (s.issueOp c kind d dsts stamp lanes) := by
  unfold State.issueOp
  dsimp only
  with_reducible
    repeat' first
      | assumption | apply State.modPartyCounter_keeps | apply State.modGang_keeps | apply spad_of | apply obuf_of | apply hbm_of
      | apply far_of | apply kmem_of | apply And.intro | simp only [mk_keeps]

theorem remoteWord_keeps (i : Instr) (f : Form) (kind : RemKind) (d : VNum) (dsts : List VNum) (val cmp : Ctx → Nat → Word) {s : State}
    (h : MemoriesWf s) :
    OutWf (remoteWord i f kind d dsts val cmp s) := by
  unfold remoteWord
  dsimp only
  with_reducible
    repeat' first
      | (intro) | assumption | apply State.issueOp_keeps | apply State.sendLane_keeps | apply counterStop_keeps | apply stopOr_keeps
      | apply issue_keeps | apply foldl_keeps | apply ExWf.ok | split

theorem execRld_keeps (d a : VNum) (wa : Bool) {s : State} (h : MemoriesWf s) : OutWf (execRld d a wa s) := by
  unfold execRld
  with_reducible repeat' first | assumption | apply remoteWord_keeps

theorem execRst_keeps (f : Bool) (a b : VNum) (wa wb : Bool) {s : State} (h : MemoriesWf s) : OutWf (execRst f a b wa wb s) := by
  unfold execRst
  with_reducible repeat' first | assumption | apply remoteWord_keeps

theorem execRaadd_keeps (d a b : VNum) (wa wb : Bool) {s : State} (h : MemoriesWf s) : OutWf (execRaadd d a b wa wb s) := by
  unfold execRaadd
  with_reducible repeat' first | assumption | apply remoteWord_keeps

theorem execRaaddD_keeps (a b : VNum) (wa wb : Bool) {s : State} (h : MemoriesWf s) : OutWf (execRaaddD a b wa wb s) := by
  unfold execRaaddD
  with_reducible repeat' first | assumption | apply remoteWord_keeps

theorem execRcas_keeps (d a b : VNum) (wa wb : Bool) {s : State} (h : MemoriesWf s) : OutWf (execRcas d a b wa wb s) := by
  unfold execRcas
  with_reducible repeat' first | assumption | apply remoteWord_keeps

theorem State.perform_keeps {s : State} (p : Nat) (pl : HomePlace) (kind : ReqKind) (val cmp : Word) (h : MemoriesWf s) :
    MemoriesWf (s.perform p pl kind val cmp).1 := by
  unfold State.perform
  dsimp only
  with_reducible
    repeat' first
      | assumption | apply State.farMisses_keeps | apply State.spanWrite_keeps | apply State.engineSpadWrite_keeps
      | apply State.meter_keeps | simp only [mk_keeps] | split

theorem State.reportLane_keeps {s : State} (p : Nat) (x : RemLane) (kind : ReqKind) (h : MemoriesWf s) :
    MemoriesWf (s.reportLane p x kind) := by
  unfold State.reportLane
  with_reducible repeat' first | assumption | apply State.reportWindow_keeps | apply State.reportMalformed_keeps | split

theorem State.reply_keeps {s : State} (r : ExtReq) (a : RemAns) (far : Bool) (h : MemoriesWf s) : MemoriesWf (s.reply r a far) := by
  unfold State.reply
  with_reducible repeat' first | assumption | apply State.send_keeps

theorem State.extRequest_keeps {s : State} (r : ExtReq) (h : MemoriesWf s) : MemoriesWf (s.extRequest r) := by
  unfold State.extRequest
  dsimp only
  with_reducible
    repeat' first
      | assumption | apply State.reply_keeps | apply State.perform_keeps | apply State.spanSync_keeps | apply State.reportWindow_keeps
      | apply State.farMisses_keeps | apply State.spanWrite_keeps | apply State.send_keeps | apply State.modWindow_keeps | apply ite_keeps
      | apply spad_of | apply obuf_of | apply hbm_of | apply far_of | apply kmem_of | apply And.intro | simp only [mk_keeps] | split

theorem execHomeRequest_keeps (r : HomeReq) {s : State} (h : MemoriesWf s) : OutWf (execHomeRequest r s) := by
  unfold execHomeRequest
  dsimp only
  with_reducible
    repeat' first
      | assumption | apply State.extRequest_keeps | apply State.reportLane_keeps | apply State.perform_keeps | apply State.setStage_keeps
      | apply State.modLane_keeps | apply State.modWindow_keeps | apply ite_keeps | apply OutWf.next | split

theorem State.sendFlagged_keeps {s : State} (h : MemoriesWf s) : MemoriesWf (s.sendFlagged) := by
  unfold State.sendFlagged
  with_reducible repeat' first | (intro) | assumption | apply State.sendLane_keeps | apply ite_keeps | apply foldl_keeps

theorem State.laneDone_keeps {s : State} (i l : Nat) (h : MemoriesWf s) : MemoriesWf (s.laneDone i l) := by
  unfold State.laneDone
  dsimp only
  with_reducible
    repeat' first
      | assumption | apply State.sendFlagged_keeps | apply State.setStage_keeps | apply State.modPartyCounter_keeps | apply ite_keeps

theorem execRemoteLanding_keeps (op lane : Nat) (reply : Option RemAns) {s : State} (h : MemoriesWf s) :
    OutWf (execRemoteLanding op lane reply s) := by
  unfold execRemoteLanding
  dsimp only
  with_reducible
    repeat' first
      | assumption | apply State.laneDone_keeps | apply State.modGang_keeps | apply ite_keeps | apply OutWf.next | split

theorem execRemoteAcknowledgement_keeps (op lane : Nat) (reply : Option RemAns) {s : State} (h : MemoriesWf s) :
    OutWf (execRemoteAcknowledgement op lane reply s) := by
  unfold execRemoteAcknowledgement
  dsimp only
  with_reducible
    repeat' first
      | assumption | apply State.laneDone_keeps | apply State.modPartyCounter_keeps | apply ite_keeps | apply OutWf.next | split

/-! ### The operations of Machine/Stamp.lean -/

theorem heldStop_keeps (s : State) : OptWf (heldStop s) := by
  unfold heldStop
  with_reducible repeat' first | apply need_keeps | apply StopWf.trap

theorem execTime_keeps (kd : KNum) {s : State} (h : MemoriesWf s) : OutWf (execTime kd s) := by
  unfold execTime
  with_reducible
    repeat' first
      | (intro) | assumption | apply heldStop_keeps | apply stopOr_keeps | apply issue_keeps | apply State.writeK_keeps | apply ExWf.ok

theorem State.setSlots_keeps {s : State} (cell : Nat) (vs : List Version) (h : MemoriesWf s) : MemoriesWf (s.setSlots cell vs) := by
  unfold State.setSlots
  with_reducible repeat' first | assumption | apply State.physWrite_keeps

theorem State.insertVersion_keeps {s : State} (cell val stamp : Nat) (owner : HomeRef) (h : MemoriesWf s) :
    MemoriesWf (s.insertVersion cell val stamp owner).1 := by
  unfold State.insertVersion
  dsimp only
  with_reducible
    repeat' first
      | assumption | apply State.setSlots_keeps | apply spad_of | apply obuf_of | apply hbm_of | apply far_of | apply kmem_of
      | apply And.intro | simp only [mk_keeps] | split

theorem State.clearPending_keeps {s : State} (owner : HomeRef) (suspect : Bool) (h : MemoriesWf s) :
    MemoriesWf (s.clearPending owner suspect) := by
  unfold State.clearPending
  dsimp only
  with_reducible
    repeat' first
      | assumption | apply State.setSlots_keeps | apply ite_keeps | apply spad_of | apply obuf_of | apply hbm_of | apply far_of
      | apply kmem_of | apply And.intro | simp only [mk_keeps] | split

theorem State.windowEnd_keeps {s : State} (w : Option (BitVec 7)) (h : MemoriesWf s) : MemoriesWf (s.windowEnd w) := by
  unfold State.windowEnd
  with_reducible repeat' first | assumption | apply State.modWindow_keeps | split

theorem execStmp_keeps (d a b : VNum) (wa wb : Bool) {s : State} (h : MemoriesWf s) : OutWf (execStmp d a b wa wb s) := by
  unfold execStmp
  dsimp only
  with_reducible
    repeat' first
      | (intro) | assumption | apply heldStop_keeps | apply State.issueOp_keeps | apply State.sendLane_keeps | apply counterStop_keeps
      | apply stopOr_keeps | apply issue_keeps | apply State.writeV_keeps | apply foldl_keeps | apply ExWf.ok | split

theorem execStampedStoreArrival_keeps (r : HomeReq) {s : State} (h : MemoriesWf s) : OutWf (execStampedStoreArrival r s) := by
  unfold execStampedStoreArrival
  dsimp only
  with_reducible
    repeat' first
      | assumption | apply State.insertVersion_keeps | apply State.reply_keeps | apply State.reportLane_keeps | apply State.setStage_keeps
      | apply State.modLane_keeps | apply State.reportWindow_keeps | apply State.modWindow_keeps | apply ite_keeps | apply OutWf.next
      | apply spad_of | apply obuf_of | apply hbm_of | apply far_of | apply kmem_of | refine fst_of (by assumption) ?_ | apply And.intro
      | simp only [mk_keeps] | split

theorem State.recordRelease_keeps {s : State} (i l : Nat) (h : MemoriesWf s) : MemoriesWf (s.recordRelease i l) := by
  unfold State.recordRelease
  dsimp only
  with_reducible
    repeat' first
      | assumption | apply State.notify_keeps | apply ite_keeps | apply spad_of | apply obuf_of | apply hbm_of | apply far_of
      | apply kmem_of | apply And.intro | simp only [mk_keeps]

theorem State.sendRelease_keeps {s : State} (i l : Nat) (suspect : Bool) (h : MemoriesWf s) : MemoriesWf (s.sendRelease i l suspect) := by
  unfold State.sendRelease
  dsimp only
  with_reducible
    repeat' first
      | assumption | apply State.recordRelease_keeps | apply State.setStage_keeps | apply State.send_keeps | apply ite_keeps | split

theorem State.sendReleases_keeps {s : State} (i : Nat) (suspect : Bool) (h : MemoriesWf s) : MemoriesWf (s.sendReleases i suspect) := by
  unfold State.sendReleases
  with_reducible repeat' first | (intro) | assumption | apply State.sendRelease_keeps | apply State.modOp_keeps | apply foldl_keeps

theorem execCommitWaitEnd_keeps (op : Nat) {s : State} (h : MemoriesWf s) : OutWf (execCommitWaitEnd op s) := by
  unfold execCommitWaitEnd
  dsimp only
  with_reducible repeat' first | assumption | apply State.sendReleases_keeps | apply ite_keeps | apply OutWf.next

theorem execStampedReleaseArrival_keeps (r : HomeRef) (suspect : Bool) {s : State} (h : MemoriesWf s) :
    OutWf (execStampedReleaseArrival r suspect s) := by
  unfold execStampedReleaseArrival
  dsimp only
  with_reducible
    repeat' first
      | assumption | apply State.windowEnd_keeps | apply State.clearPending_keeps | apply State.setStage_keeps | apply State.send_keeps
      | apply ite_keeps | apply OutWf.next | apply spad_of | apply obuf_of | apply hbm_of | apply far_of | apply kmem_of | apply And.intro
      | simp only [mk_keeps] | split

theorem execLdat_keeps (d a b : VNum) (wa wb : Bool) {s : State} (h : MemoriesWf s) : OutWf (execLdat d a b wa wb s) := by
  unfold execLdat
  dsimp only
  with_reducible
    repeat' first
      | (intro) | assumption | apply heldStop_keeps | apply State.issueOp_keeps | apply counterStop_keeps | apply stopOr_keeps
      | apply issue_keeps | apply ExWf.ok | split

theorem execLdatReaderWaitEnd_keeps (op lane : Nat) {s : State} (h : MemoriesWf s) : OutWf (execLdatReaderWaitEnd op lane s) := by
  unfold execLdatReaderWaitEnd
  dsimp only
  with_reducible repeat' first | assumption | apply State.sendLane_keeps | apply ite_keeps | apply OutWf.next

theorem execLdatServe_keeps (r : HomeRef) {s : State} (h : MemoriesWf s) : OutWf (execLdatServe r s) := by
  unfold execLdatServe
  dsimp only
  with_reducible
    repeat' first
      | assumption | apply State.windowEnd_keeps | apply State.setStage_keeps | apply State.send_keeps | apply ite_keeps
      | apply OutWf.next | apply spad_of | apply obuf_of | apply hbm_of | apply far_of | apply kmem_of | apply And.intro
      | simp only [mk_keeps] | split

theorem State.markCell_keeps {s : State} (cell stamp : Nat) (h : MemoriesWf s) : MemoriesWf (s.markCell cell stamp) := by
  unfold State.markCell
  dsimp only
  with_reducible repeat' first | assumption | apply State.setSlots_keeps | apply ite_keeps

theorem execSuspectMark_keeps (va : Word) (part : Nat) (window : Option (BitVec 7)) (stamp : Word) {s : State} (h : MemoriesWf s) :
    OutWf (execSuspectMark va part window stamp s) := by
  unfold execSuspectMark
  dsimp only
  with_reducible repeat' first | assumption | apply State.markCell_keeps | apply State.reportMalformed_keeps | apply OutWf.next | split

theorem State.sendMark_keeps {s : State} (x : Suspect) (h : MemoriesWf s) : MemoriesWf (s.sendMark x) := by
  unfold State.sendMark
  with_reducible
    repeat' first
      | assumption | apply State.send_keeps | apply ite_keeps | apply spad_of | apply obuf_of | apply hbm_of | apply far_of
      | apply kmem_of | apply And.intro | simp only [mk_keeps] | split

theorem State.enterFailed_keeps {s : State} (h : MemoriesWf s) : MemoriesWf (s.enterFailed) := by
  unfold State.enterFailed
  dsimp only
  with_reducible
    repeat' first
      | (intro) | assumption | apply State.sendMark_keeps | apply State.sendReleases_keeps | apply ite_keeps | apply foldl_keeps
      | apply spad_of | apply obuf_of | apply hbm_of | apply far_of | apply kmem_of | apply And.intro | simp only [mk_keeps]

/-! ### The operations of Machine/Timebase.lean -/

theorem State.settleTime_keeps {s : State} (h : MemoriesWf s) : MemoriesWf (s.settleTime) := by
  unfold State.settleTime
  dsimp only
  with_reducible
    repeat' first
      | assumption | apply State.notify_keeps | apply ite_keeps | apply spad_of | apply obuf_of | apply hbm_of | apply far_of
      | apply kmem_of | apply And.intro | simp only [mk_keeps]

theorem State.meterResident_keeps {s : State} (h : MemoriesWf s) : MemoriesWf (s.meterResident) := by
  unfold State.meterResident
  with_reducible repeat' first | (intro) | assumption | apply State.meter_keeps | apply ite_keeps | apply foldl_keeps

theorem execTimebaseTick_keeps {s : State} (h : MemoriesWf s) : OutWf (execTimebaseTick s) := by
  unfold execTimebaseTick
  dsimp only
  with_reducible
    repeat' first
      | assumption | apply State.meterResident_keeps | apply State.settleTime_keeps | apply ite_keeps | apply OutWf.next | apply spad_of
      | apply obuf_of | apply hbm_of | apply far_of | apply kmem_of | apply And.intro | simp only [mk_keeps]

theorem State.goodCheck_keeps {s : State} (h : MemoriesWf s) : MemoriesWf (s.goodCheck) := h

theorem execTimeTransfer_keeps (links : List LinkTransfer) {s : State} (h : MemoriesWf s) : OutWf (execTimeTransfer links s) := by
  unfold execTimeTransfer
  dsimp only
  with_reducible
    repeat' first
      | assumption | apply State.goodCheck_keeps | apply State.settleTime_keeps | apply State.enterFailed_keeps | apply ite_keeps
      | apply OutWf.next | apply spad_of | apply obuf_of | apply hbm_of | apply far_of | apply kmem_of | apply And.intro
      | simp only [mk_keeps]

theorem execOscillatorFault_keeps {s : State} (h : MemoriesWf s) : OutWf (execOscillatorFault s) := by
  unfold execOscillatorFault
  with_reducible repeat' first | assumption | apply State.enterFailed_keeps | apply ite_keeps | apply OutWf.next

theorem execTimebaseConfig_keeps (epsCommit epsFail lam : Nat) {s : State} (h : MemoriesWf s) :
    OutWf (execTimebaseConfig epsCommit epsFail lam s) := by
  unfold execTimebaseConfig
  dsimp only
  with_reducible
    repeat' first
      | assumption | apply State.settleTime_keeps | apply State.notify_keeps | apply ite_keeps | apply OutWf.next | apply spad_of
      | apply obuf_of | apply hbm_of | apply far_of | apply kmem_of | apply And.intro | simp only [mk_keeps]

theorem execRejoin_keeps (links : List LinkTransfer) {s : State} (h : MemoriesWf s) : OutWf (execRejoin links s) := by
  unfold execRejoin
  dsimp only
  with_reducible
    repeat' first
      | assumption | apply State.goodCheck_keeps | apply ite_keeps | apply OutWf.next | apply spad_of | apply obuf_of | apply hbm_of
      | apply far_of | apply kmem_of | apply And.intro | simp only [mk_keeps] | split

theorem State.settleCell_keeps {s : State} (cell : Nat) (h : MemoriesWf s) : MemoriesWf (s.settleCell cell) := by
  unfold State.settleCell
  dsimp only
  with_reducible repeat' first | assumption | apply State.setSlots_keeps | apply ite_keeps

theorem execRejoinWaitEnd_keeps {s : State} (h : MemoriesWf s) : OutWf (execRejoinWaitEnd s) := by
  unfold execRejoinWaitEnd
  dsimp only
  with_reducible
    repeat' first
      | (intro) | assumption | apply State.settleCell_keeps | apply State.settleTime_keeps | apply ite_keeps | apply foldl_keeps
      | apply OutWf.next | apply spad_of | apply obuf_of | apply hbm_of | apply far_of | apply kmem_of | apply And.intro
      | simp only [mk_keeps]

/-! ### The operations of Machine/Matrix.lean -/

theorem bankStop_keeps (c : Ctx) (b : BankNum) : OptWf (bankStop c b) := by
  unfold bankStop
  with_reducible repeat' first | apply need_keeps | apply StopWf.trap

theorem bankWait_keeps (c : Ctx) (b : BankNum) : OptWf (bankWait c b) := by
  unfold bankWait
  with_reducible repeat' first | apply need_keeps | apply StopWf.wait

theorem State.modBank_keeps {s : State} (u b : Nat) (f : Bank → Bank) (h : MemoriesWf s) : MemoriesWf (s.modBank u b f) := by
  unfold State.modBank
  with_reducible repeat' first | assumption | apply State.modTeam_keeps

theorem poisonedStop_keeps (s : State) (c : Ctx) (b : BankNum) : OptWf (poisonedStop s c b) := by
  unfold poisonedStop
  with_reducible repeat' first | apply need_keeps | apply StopWf.trap

theorem badBankStop_keeps {s : State} (c : Ctx) (b : BankNum) (h : MemoriesWf s) : OptWf (badBankStop s c b) := by
  unfold badBankStop
  with_reducible repeat' first | assumption | apply State.modBank_keeps | apply StopWf.trapIn | apply need_keeps

theorem recordWait_keeps (s : State) (c : Ctx) (r : BitVec 6) : OptWf (recordWait s c r) := by
  unfold recordWait
  with_reducible repeat' first | apply need_keeps | apply StopWf.wait

theorem State.queueArray_keeps {s : State} (core : Nat) (me : Nat × Nat) (h : MemoriesWf s) : MemoriesWf (s.queueArray core me) := by
  unfold State.queueArray
  dsimp only
  with_reducible repeat' first | assumption | apply State.modCore_keeps

theorem State.takeArray_keeps {s : State} (core : Nat) (me : Nat × Nat) (till : Nat) (h : MemoriesWf s) :
    MemoriesWf (s.takeArray core me till) := by
  unfold State.takeArray
  with_reducible repeat' first | assumption | apply State.modCore_keeps

theorem execMma_keeps (bank : BankNum) (a : VNum) (kb : KNum) (wa : Bool) (reuse : Bool) (la : BlockLen) (clear : Bool) {s : State}
    (h : MemoriesWf s) :
    OutWf (execMma bank a kb wa reuse la clear s) := by
  unfold execMma
  dsimp only
  with_reducible
    repeat' first
      | (intro) | assumption | apply State.takeArray_keeps | apply State.queueArray_keeps | apply poisonedStop_keeps
      | apply State.modBank_keeps | apply bankStop_keeps | apply stopOr_keeps | apply issue_keeps | apply readStop_keeps
      | apply State.meter_keeps | apply State.modGang_keeps | apply State.modTeam_keeps | apply ite_keeps | apply ExWf.ok
      | apply StopWf.waitIn | apply need_keeps | apply firstStop_map | apply spad_of | apply obuf_of | apply hbm_of | apply far_of
      | apply kmem_of | apply StopWf.trap | apply StopWf.wait | apply OptWf.none | apply And.intro | simp only [mk_keeps] | split

theorem State.writeMma_keeps {s : State} (u : Nat) (m : MmaOp) (h : MemoriesWf s) : MemoriesWf (s.writeMma u m) := by
  unfold State.writeMma
  dsimp only
  with_reducible repeat' first | assumption | apply State.modBank_keeps | apply State.raiseIn_keeps | apply State.modTeam_keeps

theorem execMmaResultWrite_keeps (core : Nat) {s : State} (h : MemoriesWf s) : OutWf (execMmaResultWrite core s) := by
  unfold execMmaResultWrite
  with_reducible repeat' first | assumption | apply State.writeMma_keeps | apply OutWf.next | split

theorem execMclr_keeps (bank : BankNum) {s : State} (h : MemoriesWf s) : OutWf (execMclr bank s) := by
  unfold execMclr
  dsimp only
  with_reducible
    repeat' first
      | (intro) | assumption | apply State.modBank_keeps | apply bankWait_keeps | apply bankStop_keeps | apply stopOr_keeps
      | apply issue_keeps | apply State.modCore_keeps | apply ite_keeps | apply ExWf.ok

theorem execMst_keeps (bank : BankNum) (ka : KNum) {s : State} (h : MemoriesWf s) : OutWf (execMst bank ka s) := by
  unfold execMst
  dsimp only
  with_reducible
    repeat' first
      | (intro) | assumption | apply badBankStop_keeps | apply poisonedStop_keeps | apply bankWait_keeps | apply bankStop_keeps
      | apply State.ownStore_keeps | apply stopOr_keeps | apply uniformStop_keeps | apply issue_keeps | apply State.raise_keeps
      | apply State.spadWrite_keeps | apply State.modTeam_keeps | apply ite_keeps | apply foldl_keeps | apply ExWf.ok | apply map_keeps
      | apply StopWf.trap | apply OptWf.none | split

theorem execMrd_keeps (d : VNum) (bank : BankNum) (kb : KNum) {s : State} (h : MemoriesWf s) : OutWf (execMrd d bank kb s) := by
  unfold execMrd
  dsimp only
  with_reducible
    repeat' first
      | (intro) | assumption | apply badBankStop_keeps | apply poisonedStop_keeps | apply bankWait_keeps | apply bankStop_keeps
      | apply stopOr_keeps | apply issue_keeps | apply State.writeV_keeps | apply ExWf.ok

theorem execMstat_keeps (kd : KNum) (bank : BankNum) {s : State} (h : MemoriesWf s) : OutWf (execMstat kd bank s) := by
  unfold execMstat
  dsimp only
  with_reducible
    repeat' first
      | (intro) | assumption | apply bankStop_keeps | apply stopOr_keeps | apply issue_keeps | apply State.writeK_keeps | apply ExWf.ok

theorem State.reserved_keeps {s : State} (core : Nat) (new : Option (Nat × ObRecord)) (h : MemoriesWf s) :
    MemoriesWf (s.reserved core new) := by
  unfold State.reserved
  dsimp only
  with_reducible
    repeat' first
      | assumption | apply State.modRecord_keeps | apply spad_of | apply obuf_of | apply hbm_of | apply far_of | apply kmem_of
      | apply memWrite_wf | apply And.intro | simp only [mk_keeps] | split

theorem execObres_keeps (kd ka : KNum) {s : State} (h : MemoriesWf s) : OutWf (execObres kd ka s) := by
  unfold execObres
  dsimp only
  with_reducible
    repeat' first
      | (intro) | assumption | apply State.reserved_keeps | apply State.ownStore_keeps | apply stopOr_keeps | apply badStop_keeps
      | apply State.recordRange_keeps | apply uniformRace_keeps | apply uniformStop_keeps | apply issue_keeps | apply State.writeK_keeps
      | apply State.spadSeen_keeps | apply State.spadWrite_keeps | apply ExWf.ok

theorem execObrel_keeps (ka : KNum) {s : State} (h : MemoriesWf s) : OutWf (execObrel ka s) := by
  unfold execObrel
  dsimp only
  with_reducible
    repeat' first
      | (intro) | assumption | apply recordWait_keeps | apply stopOr_keeps | apply issue_keeps | apply State.modRecord_keeps
      | apply ExWf.ok | split

theorem execObld_keeps (ka kb : KNum) {s : State} (h : MemoriesWf s) : OutWf (execObld ka kb s) := by
  unfold execObld
  dsimp only
  with_reducible
    repeat' first
      | (intro) | assumption | apply recordWait_keeps | apply stopOr_keeps | apply badStop_keeps | apply State.recordRange_keeps
      | apply uniformRace_keeps | apply issue_keeps | apply State.modRecord_keeps | apply State.spadSeen_keeps | apply ExWf.ok
      | apply need_keeps | apply StopWf.trap

theorem execObldFillEnd_keeps (core rec : Nat) {s : State} (h : MemoriesWf s) : OutWf (execObldFillEnd core rec s) := by
  unfold execObldFillEnd
  dsimp only
  with_reducible
    repeat' first
      | assumption | apply State.obufWrite_keeps | apply State.lookFill_keeps | apply State.modRecord_keeps | apply ite_keeps
      | apply OutWf.next

/-! ### The operations of Machine/Invert.lean -/

theorem routineWords_keeps (s : State) (c : Ctx) : ∀ (ws : List Half), PopWf (routineWords s c ws) := by
  intro ws
  induction ws with
  | nil => exact .ok _
  | cons w ws ih =>
    unfold routineWords
    split
    · exact .error (.trap _)
    · exact mapEx_keeps ih

theorem routineOf_keeps (c : Ctx) (x t : VNum) (inside : Nat → Bool) :
    ∀ (is : List Instr) (n : Nat) (inputs written : List VNum), PopWf (routineOf c x t inside n inputs written is) := by
  intro is
  induction is with
  | nil => exact fun _ _ _ => by unfold routineOf; exact .ok _
  | cons i is ih =>
    intro n inputs written
    unfold routineOf
    split
    · exact mapEx_keeps (ih _ _ _)
    · exact .error (.trap _)
    · exact .error (.trap _)

theorem routineLoopStop_keeps (c : Ctx) (last : Addr) : OptWf (routineLoopStop c last) := by
  unfold routineLoopStop
  with_reducible
    repeat' first
      | apply need_keeps | apply firstStop_cons | apply firstStop_nil | apply StopWf.trap | apply OptWf.none | split

theorem inRoutine_keeps (x : Stop) (h_x : StopWf x) : StopWf (inRoutine x) := by
  cases h_x with
  | trap t => exact .trap _
  | trapIn t h => exact .trapIn _ h
  | wait k => exact .wait _
  | waitIn k h => exact .waitIn _ h

theorem State.putPass_keeps {s : State} (u : Issuer) (regs : List VNum) (n : Nat) (xs : List (Nat × Search)) (h : MemoriesWf s) :
    MemoriesWf (s.putPass u regs n xs) := by
  unfold State.putPass
  dsimp only
  with_reducible repeat' first | assumption | apply State.meter_keeps | apply State.modGang_keeps | apply ite_keeps

theorem State.raiseRun_keeps {s : State} (u g : Nat) (r : InvRun) (h : MemoriesWf s) : MemoriesWf (s.raiseRun u g r) := by
  unfold State.raiseRun
  with_reducible repeat' first | assumption | apply State.raiseIn_keeps

theorem State.endPass_keeps {s : State} (u : Issuer) (r : InvRun) (x : VNum) (final : Bool) (xs : List (Nat × Search))
    (h : MemoriesWf s) :
    ExWf (s.endPass u r x final xs) := by
  unfold State.endPass
  dsimp only
  with_reducible
    repeat' first
      | assumption | apply State.raiseRun_keeps | apply State.putPass_keeps | apply State.modGang_keeps | apply ExWf.ok | apply ExWf.error
      | apply StopWf.trapIn | apply spad_of | apply obuf_of | apply hbm_of | apply far_of | apply kmem_of | apply And.intro
      | simp only [mk_keeps] | split

theorem State.nextPass_keeps {s : State} (u : Issuer) (r : InvRun) (x : VNum) (br : BitVec 2) (tol : Nat) (dec : Bool)
    (h : MemoriesWf s) :
    ExWf (s.nextPass u r x br tol dec) := by
  unfold State.nextPass
  dsimp only
  with_reducible repeat' first | assumption | apply State.endPass_keeps | split

theorem State.cutRuns_keeps {s : State} (u g : Nat) (slices : BitVec 8) (h : MemoriesWf s) : MemoriesWf (s.cutRuns u g slices) := by
  unfold State.cutRuns
  dsimp only
  with_reducible repeat' first | (intro) | assumption | apply State.raiseRun_keeps | apply State.modGang_keeps | apply foldl_keeps

theorem startInv_keeps (x t : VNum) (br : BitVec 2) (len : BitVec 4) (dec : Bool) (c : Ctx) {s : State} (h : MemoriesWf s) :
    ExWf (startInv x t br len dec c s) := by
  unfold startInv
  dsimp only
  have hn : MemoriesWf (s.noteWords c.t.part (c.pc + 4#64) (len.toNat + 1)) := State.noteWords_keeps _ _ _ h
  refine stopOr_keeps (routineLoopStop_keeps _ _) ?_
  split
  · exact .error (inRoutine_keeps _ (fetchStop_keeps _ _ hn))
  · split
    · next heq => exact .error (popError_of heq (routineWords_keeps _ _ _))
    · split
      · next heq => exact .error (popError_of heq (routineOf_keeps _ _ _ _ _ _ _ _))
      · split
        · exact .ok (State.modGang_keeps _ _ _ hn)
        · refine stopOr_keeps (readStop_keeps _ _ _)
            (stopOr_keeps (mapOpt_keeps ?_ inRoutine_keeps) (stopOr_keeps (owedStop_keeps _ _ _) ?_))
          · exact firstStop_map (fun _ => readStop_keeps _ _ _)
          · exact stopOr_keeps (operandStop_keeps _ _ _ _ _) (State.endPass_keeps _ _ _ _ _ hn)

theorem execInv_keeps (x t : VNum) (br : BitVec 2) (tol len : BitVec 4) (dec : Bool) {s : State} (h : MemoriesWf s) :
    OutWf (execInv x t br tol len dec s) := by
  unfold execInv
  dsimp only
  with_reducible
    repeat' first
      | (intro) | assumption | apply startInv_keeps | apply State.nextPass_keeps | apply issue_keeps | apply stopUnit_keeps
      | apply finish_keeps | apply OutWf.next | refine ok_of (by assumption) ?_ | refine error_of (by assumption) ?_ | split

end Sys2Proof.Machine
end

