-- ==== Sys2Proof/Laws/CanonicalSteps.lean ====
section
/-!
SUPPORT. Front ends, contexts, partitions, pages, health and scheduling keep the memories in canonical form, and so does every instruction.
-/
namespace Sys2Proof.Machine

open Sys2Proof Sys2Proof.Safety

/-! ### The operations of Machine/FrontEnd.lean -/

theorem State.refuseDependent_keeps {s : State} (p i : Nat) (h : MemoriesWf s) : MemoriesWf (s.refuseDependent p i) := by
  unfold State.refuseDependent
  dsimp only
  with_reducible
    repeat' first
      | assumption | apply State.setSeq_keeps | apply State.notify_keeps | apply State.modPart_keeps | apply State.modGrid_keeps

theorem State.refuseDependents_keeps (p : Nat) :
    ∀ (n : Nat) (qs : List (BitVec 32)) {s : State}, MemoriesWf s → MemoriesWf (s.refuseDependents p n qs) := by
  intro n
  induction n with
  | zero => exact fun _ _ h => h
  | succ n ih =>
    intro qs s h
    cases qs with
    | nil => exact h
    | cons q qs => exact ih _ (foldl_keeps (fun _ _ h => State.refuseDependent_keeps _ _ h) h)

theorem State.refuseEntry_keeps {s : State} (p : Nat) (q : BitVec 32) (done : Option Word) (rule : Nat) (h : MemoriesWf s) :
    MemoriesWf (s.refuseEntry p q done rule) := by
  unfold State.refuseEntry
  with_reducible repeat' first | assumption | apply State.refuseDependents_keeps | apply State.refuseDesc_keeps | apply State.setSeq_keeps

theorem State.takeEntry_keeps {s : State} (p prio : Nat) (b : List Byte) (h : MemoriesWf s) : MemoriesWf (s.takeEntry p prio b) := by
  unfold State.takeEntry
  dsimp only
  with_reducible
    repeat' first
      | assumption | apply State.refuseEntry_keeps | apply State.enqueue_keeps | apply State.setSeq_keeps | apply State.modPart_keeps
      | apply ite_keeps | split

theorem execFrontEndEntry_keeps (part prio : Nat) (entry : List Word) (stores : List KStore) {s : State} (h : MemoriesWf s) :
    OutWf (execFrontEndEntry part prio entry stores s) := by
  unfold execFrontEndEntry
  dsimp only
  with_reducible
    repeat' first
      | assumption | apply State.takeEntry_keeps | apply State.kstores_keeps | apply State.notify_keeps | apply State.modPart_keeps
      | apply ite_keeps | apply OutWf.next

theorem State.startWindow_keeps {s : State} (key n : Nat) (h : MemoriesWf s) : MemoriesWf (s.startWindow key n) := by
  unfold State.startWindow
  with_reducible
    repeat' first
      | assumption | apply spad_of | apply obuf_of | apply hbm_of | apply far_of | apply kmem_of | apply filter_wf | apply And.intro
      | simp only [mk_keeps]

theorem State.startTeam_keeps {s : State} (i : Nat) (c : Nat) (x : Placement) (h : MemoriesWf s) : MemoriesWf (s.startTeam i c x) := by
  unfold State.startTeam
  dsimp only
  with_reducible
    repeat' first
      | assumption | apply State.startWindow_keeps | apply State.setSeq_keeps | apply State.modGrid_keeps | apply ite_keeps
      | apply spad_of | apply obuf_of | apply hbm_of | apply far_of | apply kmem_of | apply And.intro | simp only [mk_keeps] | split

theorem execDispatchTeam_keeps (part : Nat) {s : State} (h : MemoriesWf s) : OutWf (execDispatchTeam part s) := by
  unfold execDispatchTeam
  with_reducible repeat' first | assumption | apply State.startTeam_keeps | apply ite_keeps | apply OutWf.next | split

theorem State.gridCheck_keeps {s : State} (i : Nat) (h : MemoriesWf s) : MemoriesWf (s.gridCheck i) := by
  unfold State.gridCheck
  dsimp only
  with_reducible
    repeat' first
      | assumption | apply State.syncAt_keeps | apply State.setSeq_keeps | apply State.satisfy_keeps | apply State.meter_keeps
      | apply State.modGrid_keeps | apply ite_keeps | split

theorem State.freeTeam_keeps {s : State} (u : Nat) (h : MemoriesWf s) : MemoriesWf (s.freeTeam u) := by
  unfold State.freeTeam
  dsimp only
  with_reducible
    repeat' first
      | assumption | apply State.gridCheck_keeps | apply State.modCore_keeps | apply State.modGrid_keeps | apply State.modTeam_keeps

theorem State.reportLeft_keeps {s : State} (u gang : Nat) (pc : Addr) (c : Counter) (h : MemoriesWf s) :
    MemoriesWf (s.reportLeft u gang pc c) := by
  unfold State.reportLeft
  with_reducible repeat' first | (intro) | assumption | apply State.noteTrap_keeps | apply foldl_keeps

theorem State.reportAllLeft_keeps {s : State} (u : Nat) (h : MemoriesWf s) : MemoriesWf (s.reportAllLeft u) := by
  unfold State.reportAllLeft
  dsimp only
  with_reducible repeat' first | (intro) | assumption | apply State.reportLeft_keeps | apply ite_keeps | apply foldl_keeps

theorem execTeamRetirement_keeps (team : Nat) {s : State} (h : MemoriesWf s) : OutWf (execTeamRetirement team s) := by
  unfold execTeamRetirement
  dsimp only
  with_reducible
    repeat' first
      | (intro) | assumption | apply State.reportAllLeft_keeps | apply State.freeTeam_keeps | apply State.flushLog_keeps | apply ite_keeps
      | apply foldl_keeps | apply OutWf.next

/-! ### The operations of Machine/Context.lean -/

theorem State.makeReady_keeps {s : State} (u g : Nat) (h : MemoriesWf s) : MemoriesWf (s.makeReady u g) := by
  unfold State.makeReady
  with_reducible
    repeat' first
      | assumption | apply State.modGang_keeps | apply spad_of | apply obuf_of | apply hbm_of | apply far_of | apply kmem_of
      | apply And.intro | simp only [mk_keeps]

theorem State.closeLog_keeps {s : State} (u g : Nat) (h : MemoriesWf s) : MemoriesWf (s.closeLog u g) := by
  unfold State.closeLog
  with_reducible repeat' first | assumption | apply State.cutRuns_keeps | apply State.flushLog_keeps

theorem State.resetTeam_keeps {s : State} (u : Nat) (h : MemoriesWf s) : MemoriesWf (s.resetTeam u) := by
  unfold State.resetTeam
  dsimp only
  with_reducible
    repeat' first
      | (intro) | assumption | apply State.closeLog_keeps | apply State.freeTeam_keeps | apply State.trigEvent_keeps
      | apply State.noteTrap_keeps | apply State.modGrid_keeps | apply State.modTeam_keeps | apply foldl_keeps | apply spad_of
      | apply obuf_of | apply hbm_of | apply far_of | apply kmem_of | apply And.intro | simp only [mk_keeps]

theorem State.writeOpaque_keeps {s : State} (a n : Nat) (h : MemoriesWf s) : MemoriesWf (s.writeOpaque a n) := by
  unfold State.writeOpaque
  dsimp only
  with_reducible
    repeat' first
      | assumption | apply State.physWrite_keeps | apply spad_of | apply obuf_of | apply hbm_of | apply far_of | apply kmem_of
      | apply And.intro | simp only [mk_keeps]

theorem State.writeArea_keeps {s : State} (u : Nat) (h : MemoriesWf s) : MemoriesWf (s.writeArea u) := by
  unfold State.writeArea
  dsimp only
  with_reducible repeat' first | (intro) | assumption | apply State.writeOpaque_keeps | apply State.physWrite_keeps | apply foldl_keeps

theorem State.keepSave_keeps {s : State} (u : Nat) (h : MemoriesWf s) : MemoriesWf (s.keepSave u) := by
  unfold State.keepSave
  dsimp only
  with_reducible
    repeat' first
      | assumption | apply State.writeArea_keeps | apply State.modTeam_keeps | apply spad_of | apply obuf_of | apply hbm_of | apply far_of
      | apply kmem_of | apply And.intro | simp only [mk_keeps]

theorem State.stopFills_keeps {s : State} (u : Nat) (h : MemoriesWf s) : MemoriesWf (s.stopFills u) := by
  unfold State.stopFills
  with_reducible repeat' first | assumption | apply State.modCore_keeps

theorem State.startFills_keeps {s : State} (u : Nat) (h : MemoriesWf s) : MemoriesWf (s.startFills u) := by
  unfold State.startFills
  with_reducible repeat' first | assumption | apply State.modCore_keeps

theorem State.saveCheck_keeps {s : State} (u : Nat) (h : MemoriesWf s) : MemoriesWf (s.saveCheck u) := by
  unfold State.saveCheck
  dsimp only
  with_reducible
    repeat' first
      | (intro) | assumption | apply State.stopFills_keeps | apply State.keepSave_keeps | apply State.closeLog_keeps
      | apply State.notify_keeps | apply State.modTeam_keeps | apply ite_keeps | apply foldl_keeps | split

theorem State.startSave_keeps {s : State} (u area : Nat) (dst : List Nat) (h : MemoriesWf s) : MemoriesWf (s.startSave u area dst) := by
  unfold State.startSave
  dsimp only
  with_reducible
    repeat' first
      | assumption | apply State.saveCheck_keeps | apply State.meter_keeps | apply State.modCore_keeps | apply State.modTeam_keeps
      | apply ite_keeps | apply spad_of | apply obuf_of | apply hbm_of | apply far_of | apply kmem_of | apply And.intro
      | simp only [mk_keeps]

theorem execSave_keeps (team area : Nat) (deadline : Option Nat) {s : State} (h : MemoriesWf s) :
    OutWf (execSave team area deadline s) := by
  unfold execSave
  dsimp only
  with_reducible
    repeat' first
      | assumption | apply State.startSave_keeps | apply State.notify_keeps | apply State.modTeam_keeps | apply ite_keeps
      | apply OutWf.next

theorem execSaveDeadline_keeps (team : Nat) {s : State} (h : MemoriesWf s) : OutWf (execSaveDeadline team s) := by
  unfold execSaveDeadline
  with_reducible repeat' first | assumption | apply State.resetTeam_keeps | apply ite_keeps | apply OutWf.next

theorem State.chainRestart_keeps {s : State} (i : Nat) (h : MemoriesWf s) : MemoriesWf (s.chainRestart i) := by
  unfold State.chainRestart
  dsimp only
  with_reducible repeat' first | assumption | apply State.chainFault_keeps | apply State.modCmd_keeps | apply ite_keeps

theorem State.restartCmds_keeps {s : State} (u : Nat) (h : MemoriesWf s) : MemoriesWf (s.restartCmds u) := by
  unfold State.restartCmds
  dsimp only
  with_reducible
    repeat' first
      | (intro) | assumption | apply State.chainRestart_keeps | apply State.skipRestart_keeps | apply ite_keeps | apply foldl_keeps

theorem State.restartMmas_keeps {s : State} (u : Nat) (h : MemoriesWf s) : MemoriesWf (s.restartMmas u) := by
  unfold State.restartMmas
  dsimp only
  with_reducible repeat' first | (intro) | assumption | apply State.modCore_keeps | apply State.modTeam_keeps | apply foldl_keeps

theorem State.place_keeps {s : State} (u c : Nat) (x : Placement) (h : MemoriesWf s) : MemoriesWf (s.place u c x) := by
  unfold State.place
  dsimp only
  with_reducible
    repeat' first
      | assumption | apply State.restartMmas_keeps | apply State.restartCmds_keeps | apply State.startFills_keeps
      | apply State.notify_keeps | apply State.modTeam_keeps | apply spad_of | apply obuf_of | apply hbm_of | apply far_of | apply kmem_of
      | apply And.intro | simp only [mk_keeps]

theorem State.loadRecord_keeps {s : State} (u : Nat) (x : Nat × ObRecord × List Byte) (h : MemoriesWf s) :
    MemoriesWf (s.loadRecord u x) := by
  unfold State.loadRecord
  dsimp only
  with_reducible
    repeat' first
      | assumption | apply State.modRecord_keeps | apply ite_keeps | apply spad_of | apply obuf_of | apply hbm_of | apply far_of
      | apply kmem_of | apply memWrite_wf | apply And.intro | simp only [mk_keeps]

theorem State.loadSave_keeps {s : State} (x : SavedCtx) (h : MemoriesWf s) : MemoriesWf (s.loadSave x) := by
  unfold State.loadSave
  dsimp only
  with_reducible
    repeat' first
      | (intro) | assumption | apply State.loadRecord_keeps | apply State.spadWrite_keeps | apply State.modCore_keeps
      | apply State.modTeam_keeps | apply foldl_keeps

theorem State.loadArea_keeps {s : State} (u area : Nat) (h : MemoriesWf s) : MemoriesWf (s.loadArea u area) := by
  unfold State.loadArea
  dsimp only
  with_reducible
    repeat' first
      | (intro) | assumption | apply State.loadSave_keeps | apply State.modTeam_keeps | apply ite_keeps | apply foldl_keeps | split

theorem execRestore_keeps (team core area : Nat) {s : State} (h : MemoriesWf s) : OutWf (execRestore team core area s) := by
  unfold execRestore
  with_reducible
    repeat' first
      | assumption | apply State.loadArea_keeps | apply State.place_keeps | apply State.resetTeam_keeps | apply State.noteTrap_keeps
      | apply State.notify_keeps | apply ite_keeps | apply OutWf.next | split

theorem execResume_keeps (team gang sub : Nat) {s : State} (h : MemoriesWf s) : OutWf (execResume team gang sub s) := by
  unfold execResume
  dsimp only
  with_reducible
    repeat' first
      | assumption | apply State.makeReady_keeps | apply State.unstop_keeps | apply State.notify_keeps | apply State.modGang_keeps
      | apply ite_keeps | apply OutWf.next | split

theorem execKernelSkip_keeps (team gang sub : Nat) {s : State} (h : MemoriesWf s) : OutWf (execKernelSkip team gang sub s) := by
  unfold execKernelSkip
  dsimp only
  with_reducible
    repeat' first
      | assumption | apply State.makeReady_keeps | apply State.notify_keeps | apply State.modGang_keeps | apply State.modTeam_keeps
      | apply ite_keeps | apply OutWf.next | split

theorem execKill_keeps (team : Nat) {s : State} (h : MemoriesWf s) : OutWf (execKill team s) := by
  unfold execKill
  with_reducible repeat' first | assumption | apply State.resetTeam_keeps | apply State.notify_keeps | apply ite_keeps | apply OutWf.next

theorem State.ctxRead_keeps {s : State} (u : Nat) (it : CtxItem) (h : MemoriesWf s) : MemoriesWf (s.ctxRead u it).2 := by
  unfold State.ctxRead
  dsimp only
  with_reducible
    repeat' first
      | assumption | apply spad_of | apply obuf_of | apply hbm_of | apply far_of | apply kmem_of | apply And.intro | simp only [mk_keeps]
      | split

theorem execContextStateRead_keeps (team : Nat) (item : CtxItem) {s : State} (h : MemoriesWf s) :
    OutWf (execContextStateRead team item s) := by
  unfold execContextStateRead
  dsimp only
  with_reducible repeat' first | assumption | apply State.ctxRead_keeps | apply State.notify_keeps | apply ite_keeps | apply OutWf.next

theorem State.resnap_keeps {s : State} (u g : Nat) (f : Snapshot → Snapshot) (h : MemoriesWf s) : MemoriesWf (s.resnap u g f) := by
  unfold State.resnap
  with_reducible repeat' first | assumption | apply State.modTeam_keeps

theorem State.ctxWrite_keeps {s : State} (u : Nat) (it : CtxItem) (v : CtxValue) (h : MemoriesWf s) : MemoriesWf (s.ctxWrite u it v) := by
  unfold State.ctxWrite
  dsimp only
  with_reducible
    repeat' first
      | assumption | apply State.resnap_keeps | apply State.makeReady_keeps | apply State.cutRuns_keeps | apply State.windowSet_keeps
      | apply State.writeK_keeps | apply State.modGang_keeps | apply State.modTeam_keeps | apply ite_keeps | split

theorem execContextStateWrite_keeps (team : Nat) (item : CtxItem) (v : CtxValue) {s : State} (h : MemoriesWf s) :
    OutWf (execContextStateWrite team item v s) := by
  unfold execContextStateWrite
  with_reducible repeat' first | assumption | apply State.ctxWrite_keeps | apply State.notify_keeps | apply ite_keeps | apply OutWf.next

theorem execThermalMigration_keeps (core : Nat) (heat : HeatReport) {s : State} (h : MemoriesWf s) :
    OutWf (execThermalMigration core heat s) := by
  unfold execThermalMigration
  dsimp only
  with_reducible
    repeat' first
      | assumption | apply State.startSave_keeps | apply State.modCore_keeps | apply ite_keeps | apply OutWf.next | split

theorem State.landMigrant_keeps {s : State} (u : Nat) (h : MemoriesWf s) : MemoriesWf (s.landMigrant u) := by
  unfold State.landMigrant
  dsimp only
  with_reducible repeat' first | assumption | apply State.place_keeps | apply ite_keeps | split

/-! ### The operations of Machine/Partition.lean -/

theorem State.done_keeps {s : State} (code : Nat) (h : MemoriesWf s) : MemoriesWf (s.done code) := by
  unfold State.done
  with_reducible repeat' first | assumption | apply State.notify_keeps

theorem State.readTables_keeps {s : State} (p : Nat) (h : MemoriesWf s) : MemoriesWf (s.readTables p) := by
  unfold State.readTables
  dsimp only
  with_reducible
    repeat' first
      | (intro) | assumption | apply State.notify_keeps | apply State.modPart_keeps | apply foldl_keeps | apply spad_of | apply obuf_of
      | apply hbm_of | apply far_of | apply kmem_of | apply And.intro | simp only [mk_keeps]

theorem State.putUsage_keeps {s : State} (p : Nat) (rec : List Byte) (h : MemoriesWf s) : MemoriesWf (s.putUsage p rec) := by
  unfold State.putUsage
  with_reducible
    repeat' first
      | assumption | apply State.modPart_keeps | apply spad_of | apply obuf_of | apply hbm_of | apply far_of | apply kmem_of
      | apply ringPush_wf | apply And.intro | simp only [mk_keeps]

theorem execUsage_keeps (part : Nat) {s : State} (h : MemoriesWf s) : OutWf (execUsage part s) := by
  unfold execUsage
  with_reducible repeat' first | assumption | apply State.putUsage_keeps | apply State.done_keeps | apply ite_keeps | apply OutWf.next

theorem execPeriodicUsageRecord_keeps (part : Nat) {s : State} (h : MemoriesWf s) : OutWf (execPeriodicUsageRecord part s) := by
  unfold execPeriodicUsageRecord
  dsimp only
  with_reducible
    repeat' first
      | assumption | apply State.putUsage_keeps | apply State.modPart_keeps | apply ite_keeps | apply OutWf.next | apply spad_of
      | apply obuf_of | apply hbm_of | apply far_of | apply kmem_of | apply ringDrop_wf | apply And.intro | simp only [mk_keeps]

theorem execHbmunitsSample_keeps {s : State} (h : MemoriesWf s) : OutWf (execHbmunitsSample s) := by
  unfold execHbmunitsSample
  with_reducible
    repeat' first
      | (intro) | assumption | apply State.meter_keeps | apply ite_keeps | apply foldl_keeps | apply OutWf.next | apply spad_of
      | apply obuf_of | apply hbm_of | apply far_of | apply kmem_of | apply And.intro | simp only [mk_keeps]

theorem State.zeroCores_keeps {s : State} (lo hi : Nat) (h : MemoriesWf s) : MemoriesWf (s.zeroCores lo hi) := by
  unfold State.zeroCores
  dsimp only
  with_reducible
    repeat' first
      | assumption | apply spad_of | apply obuf_of | apply hbm_of | apply far_of | apply kmem_of | apply memClear_wf | apply And.intro
      | simp only [mk_keeps]

theorem State.zeroStaging_keeps {s : State} (p : Nat) (h : MemoriesWf s) : MemoriesWf (s.zeroStaging p) := h

theorem State.create_keeps {s : State} (b : List Byte) (h : MemoriesWf s) : MemoriesWf (s.create b) := by
  unfold State.create
  dsimp only
  with_reducible
    repeat' first
      | assumption | apply State.zeroStaging_keeps | apply State.zeroCores_keeps | apply State.putUsage_keeps
      | apply State.readTables_keeps | apply State.modPart_keeps | apply spad_of | apply obuf_of | apply hbm_of | apply far_of
      | apply kmem_of | apply memCopy_wf | apply And.intro | simp only [mk_keeps]

theorem execCreate_keeps (block : List Word) (stores : List KStore) {s : State} (h : MemoriesWf s) :
    OutWf (execCreate block stores s) := by
  unfold execCreate
  dsimp only
  with_reducible
    repeat' first
      | assumption | apply State.create_keeps | apply State.done_keeps | apply State.kstores_keeps | apply ite_keeps | apply OutWf.next
      | split

theorem execInvalidate_keeps (part va len : Nat) (stores : List KStore) {s : State} (h : MemoriesWf s) :
    OutWf (execInvalidate part va len stores s) := by
  unfold execInvalidate
  dsimp only
  with_reducible
    repeat' first
      | assumption | apply State.readTables_keeps | apply State.done_keeps | apply State.kstores_keeps | apply ite_keeps
      | apply OutWf.next | apply spad_of | apply obuf_of | apply hbm_of | apply far_of | apply kmem_of | apply And.intro
      | simp only [mk_keeps]

theorem State.drainCheck_keeps {s : State} (h : MemoriesWf s) : MemoriesWf (s.drainCheck) := by
  unfold State.drainCheck
  dsimp only
  with_reducible
    repeat' first
      | (intro) | assumption | apply State.done_keeps | apply ite_keeps | apply foldl_keeps | apply spad_of | apply obuf_of | apply hbm_of
      | apply far_of | apply kmem_of | apply And.intro | simp only [mk_keeps]

theorem execDestroy_keeps (part : Nat) {s : State} (h : MemoriesWf s) : OutWf (execDestroy part s) := by
  unfold execDestroy
  dsimp only
  with_reducible
    repeat' first
      | (intro) | assumption | apply State.done_keeps | apply State.resetTeam_keeps | apply State.modPart_keeps | apply ite_keeps
      | apply foldl_keeps | apply OutWf.next

theorem State.freePartition_keeps {s : State} (p : Nat) (h : MemoriesWf s) : MemoriesWf (s.freePartition p) := by
  unfold State.freePartition
  dsimp only
  with_reducible
    repeat' first
      | assumption | apply State.done_keeps | apply State.modPart_keeps | apply spad_of | apply obuf_of | apply hbm_of | apply far_of
      | apply kmem_of | apply And.intro | simp only [mk_keeps]

theorem State.writeClosing_keeps {s : State} (p : Nat) (h : MemoriesWf s) : MemoriesWf (s.writeClosing p) := by
  unfold State.writeClosing
  with_reducible repeat' first | assumption | apply State.freePartition_keeps | apply State.putUsage_keeps | apply ite_keeps | split

theorem State.destroyCheck_keeps {s : State} (p : Nat) (h : MemoriesWf s) : MemoriesWf (s.destroyCheck p) := by
  unfold State.destroyCheck
  dsimp only
  with_reducible
    repeat' first
      | assumption | apply State.writeClosing_keeps | apply State.modPart_keeps | apply ite_keeps | apply spad_of | apply obuf_of
      | apply hbm_of | apply far_of | apply kmem_of | apply And.intro | simp only [mk_keeps]

theorem execUsageRingSpace_keeps (part : Nat) (consumer : Word) {s : State} (h : MemoriesWf s) :
    OutWf (execUsageRingSpace part consumer s) := by
  unfold execUsageRingSpace
  with_reducible
    repeat' first
      | assumption | apply State.writeClosing_keeps | apply ite_keeps | apply OutWf.next | apply spad_of | apply obuf_of | apply hbm_of
      | apply far_of | apply kmem_of | apply memSet_wf | apply And.intro | simp only [mk_keeps]

theorem execAttest_keeps (part : Byte) (nonce : List Byte) {s : State} (h : MemoriesWf s) : OutWf (execAttest part nonce s) := by
  unfold execAttest
  with_reducible repeat' first | assumption | apply State.done_keeps | apply State.notify_keeps | apply ite_keeps | apply OutWf.next

theorem State.flushTraps_keeps {s : State} (p : Nat) (h : MemoriesWf s) : MemoriesWf (s.flushTraps p) := by
  unfold State.flushTraps
  dsimp only
  with_reducible
    repeat' first
      | (intro) | assumption | apply State.modPart_keeps | apply ite_keeps | apply foldl_keeps | apply spad_of | apply obuf_of
      | apply hbm_of | apply far_of | apply kmem_of | apply ringPush_wf | apply And.intro | simp only [mk_keeps]

theorem execSetrings_keeps (part base n logBase logN : Nat) {s : State} (h : MemoriesWf s) :
    OutWf (execSetrings part base n logBase logN s) := by
  unfold execSetrings
  with_reducible
    repeat' first
      | assumption | apply State.flushTraps_keeps | apply State.done_keeps | apply State.modPart_keeps | apply ite_keeps
      | apply OutWf.next

theorem execTrapRingSpace_keeps (part : Nat) (consumer : Word) {s : State} (h : MemoriesWf s) :
    OutWf (execTrapRingSpace part consumer s) := by
  unfold execTrapRingSpace
  with_reducible
    repeat' first
      | assumption | apply State.flushTraps_keeps | apply ite_keeps | apply OutWf.next | apply spad_of | apply obuf_of | apply hbm_of
      | apply far_of | apply kmem_of | apply memSet_wf | apply And.intro | simp only [mk_keeps]

/-! ### The operations of Machine/Paging.lean -/

theorem execPageZeroing_keeps (part va : Nat) {s : State} (h : MemoriesWf s) : OutWf (execPageZeroing part va s) := by
  unfold execPageZeroing
  dsimp only
  with_reducible
    repeat' first
      | assumption | apply OutWf.next | apply spad_of | apply obuf_of | apply hbm_of | apply far_of | apply kmem_of | apply memClear_wf
      | apply And.intro | simp only [mk_keeps] | split

theorem execZeroingComplete_keeps (part va : Nat) {s : State} (h : MemoriesWf s) : OutWf (execZeroingComplete part va s) := by
  unfold execZeroingComplete
  dsimp only
  with_reducible
    repeat' first
      | assumption | apply ite_keeps | apply OutWf.next | apply spad_of | apply obuf_of | apply hbm_of | apply far_of | apply kmem_of
      | apply memSet_wf | apply And.intro | simp only [mk_keeps] | split

theorem State.poolReturn_keeps {s : State} (p frame : Nat) (h : MemoriesWf s) : MemoriesWf (s.poolReturn p frame) := by
  unfold State.poolReturn
  dsimp only
  with_reducible
    repeat' first
      | assumption | apply spad_of | apply obuf_of | apply hbm_of | apply far_of | apply kmem_of | apply memSet_wf | apply And.intro
      | simp only [mk_keeps]

theorem State.pageInEnd_keeps {s : State} (x : PageIn) (h : MemoriesWf s) : MemoriesWf (s.pageInEnd x) := by
  unfold State.pageInEnd
  dsimp only
  with_reducible
    repeat' first
      | assumption | apply State.poolReturn_keeps | apply State.tierRecord_keeps | apply State.meter_keeps | apply foldl_memPut_wf
      | apply ite_keeps | apply spad_of | apply obuf_of | apply hbm_of | apply far_of | apply kmem_of | apply memSet_wf
      | apply memClear_wf | apply And.intro | simp only [mk_keeps] | split

theorem execPageIn_keeps (part va : Nat) {s : State} (h : MemoriesWf s) : OutWf (execPageIn part va s) := by
  unfold execPageIn
  with_reducible repeat' first | assumption | apply State.pageInEnd_keeps | apply OutWf.next | split

theorem execWopen_keeps (w part base limit : Nat) (key : Word) (r wr : Bool) {s : State} (h : MemoriesWf s) :
    OutWf (execWopen w part base limit key r wr s) := by
  unfold execWopen
  with_reducible repeat' first | assumption | apply State.done_keeps | apply State.modWindow_keeps | apply ite_keeps | apply OutWf.next

theorem State.dropGrant_keeps {s : State} (part : Nat) (device : BitVec 21) (w : BitVec 7) (h : MemoriesWf s) :
    MemoriesWf (s.dropGrant part device w) := h

theorem execGrant_keeps (part : Nat) (device : BitVec 21) (w : BitVec 7) (key : Word) {s : State} (h : MemoriesWf s) :
    OutWf (execGrant part device w key s) := by
  unfold execGrant
  dsimp only
  with_reducible
    repeat' first
      | assumption | apply State.dropGrant_keeps | apply State.done_keeps | apply ite_keeps | apply OutWf.next | apply spad_of
      | apply obuf_of | apply hbm_of | apply far_of | apply kmem_of | apply And.intro | simp only [mk_keeps]

theorem execUngrant_keeps (part : Nat) (device : BitVec 21) (w : BitVec 7) {s : State} (h : MemoriesWf s) :
    OutWf (execUngrant part device w s) := by
  unfold execUngrant
  with_reducible repeat' first | assumption | apply State.dropGrant_keeps | apply State.done_keeps | apply ite_keeps | apply OutWf.next

theorem execWrevoke_keeps (w : Nat) {s : State} (h : MemoriesWf s) : OutWf (execWrevoke w s) := by
  unfold execWrevoke
  with_reducible
    repeat' first
      | assumption | apply State.done_keeps | apply State.modWindow_keeps | apply ite_keeps | apply OutWf.next | split

theorem execWrevokeDrainEnd_keeps (w : Nat) {s : State} (h : MemoriesWf s) : OutWf (execWrevokeDrainEnd w s) := by
  unfold execWrevokeDrainEnd
  with_reducible
    repeat' first
      | (intro) | assumption | apply State.done_keeps | apply State.modWindow_keeps | apply ite_keeps | apply foldl_keeps
      | apply OutWf.next

/-! ### The operations of Machine/Health.lean -/

theorem State.countFind_keeps {s : State} (f : ScrubFind) (unit : Nat) (h : MemoriesWf s) : MemoriesWf (s.countFind f unit) := by
  unfold State.countFind
  with_reducible
    repeat' first
      | assumption | apply spad_of | apply obuf_of | apply hbm_of | apply far_of | apply kmem_of | apply And.intro | simp only [mk_keeps]
      | split

theorem execSramScrub_keeps (store : SramStore) (addr : Nat) (find : ScrubFind) {s : State} (h : MemoriesWf s) :
    OutWf (execSramScrub store addr find s) := by
  unfold execSramScrub
  dsimp only
  with_reducible
    repeat' first
      | assumption | apply State.countFind_keeps | apply ite_keeps | apply OutWf.next | apply spad_of | apply obuf_of | apply hbm_of
      | apply far_of | apply kmem_of | apply And.intro | simp only [mk_keeps] | split

theorem execPatrolScrub_keeps (addr : Nat) (find : ScrubFind) {s : State} (h : MemoriesWf s) : OutWf (execPatrolScrub addr find s) := by
  unfold execPatrolScrub
  dsimp only
  with_reducible
    repeat' first
      | assumption | apply State.countFind_keeps | apply ite_keeps | apply OutWf.next | apply spad_of | apply obuf_of | apply hbm_of
      | apply far_of | apply kmem_of | apply And.intro | simp only [mk_keeps]

theorem State.health_keeps {s : State} (r : Ring) (x : HealthSample) (h : MemoriesWf s) : MemoriesWf (s.health r x) := by
  unfold State.health
  dsimp only
  with_reducible
    repeat' first
      | assumption | apply spad_of | apply obuf_of | apply hbm_of | apply far_of | apply kmem_of | apply ringLog_wf | apply And.intro
      | simp only [mk_keeps]

theorem execHealthRecord_keeps (base n : Nat) (samples : List HealthSample) {s : State} (h : MemoriesWf s) :
    OutWf (execHealthRecord base n samples s) := by
  unfold execHealthRecord
  with_reducible
    repeat' first
      | (intro) | assumption | apply State.health_keeps | apply State.notify_keeps | apply ite_keeps | apply foldl_keeps
      | apply OutWf.next

theorem State.endContexts_keeps {s : State} (h : MemoriesWf s) : MemoriesWf (s.endContexts).1 := by
  unfold State.endContexts
  refine foldlFst_keeps (fun x u hx => ?_) h
  dsimp only
  split
  · exact hx
  · split
    · exact State.noteTrap_keeps _ _ _ _ _ _ hx
    · exact hx

theorem State.moduleReset_keeps {s : State} (h : MemoriesWf s) : MemoriesWf (s.moduleReset) := by
  unfold State.moduleReset
  dsimp only
  with_reducible
    repeat' first
      | assumption | apply State.endContexts_keeps | exact reset_keeps | apply spad_of | apply obuf_of | apply hbm_of | apply far_of
      | apply kmem_of | apply And.intro | simp only [mk_keeps]

theorem execModuleReset_keeps {s : State} (h : MemoriesWf s) : OutWf (execModuleReset s) := by
  unfold execModuleReset
  with_reducible repeat' first | assumption | apply State.moduleReset_keeps | apply OutWf.next

theorem execKernelRestart_keeps (cause : RestartCause) {s : State} (h : MemoriesWf s) : OutWf (execKernelRestart cause s) := by
  unfold execKernelRestart
  with_reducible
    repeat' first
      | assumption | apply State.moduleReset_keeps | apply OutWf.next | apply spad_of | apply obuf_of | apply hbm_of | apply far_of
      | apply kmem_of | apply And.intro | simp only [mk_keeps] | split

theorem State.restartCheck_keeps {s : State} (h : MemoriesWf s) : MemoriesWf (s.restartCheck) := by
  unfold State.restartCheck
  with_reducible
    repeat' first
      | assumption | apply State.moduleReset_keeps | apply ite_keeps | apply spad_of | apply obuf_of | apply hbm_of | apply far_of
      | apply kmem_of | apply And.intro | simp only [mk_keeps] | split

theorem execBoot_keeps (failed : List Nat) {s : State} (h : MemoriesWf s) : OutWf (execBoot failed s) := by
  unfold execBoot
  dsimp only
  with_reducible
    repeat' first
      | assumption | apply State.notify_keeps | apply ite_keeps | apply OutWf.next | apply spad_of | apply obuf_of | apply hbm_of
      | apply far_of | apply kmem_of | apply And.intro | simp only [mk_keeps] | split

theorem execFirmwareImageWrite_keeps (image : List Byte) {s : State} (h : MemoriesWf s) : OutWf (execFirmwareImageWrite image s) := by
  unfold execFirmwareImageWrite
  with_reducible
    repeat' first
      | assumption | apply OutWf.next | apply spad_of | apply obuf_of | apply hbm_of | apply far_of | apply kmem_of | apply And.intro
      | simp only [mk_keeps]

theorem execFabricPortDisable_keeps (port : Nat) {s : State} (h : MemoriesWf s) : OutWf (execFabricPortDisable port s) := by
  unfold execFabricPortDisable
  with_reducible
    repeat' first
      | assumption | apply State.notify_keeps | apply ite_keeps | apply OutWf.next | apply spad_of | apply obuf_of | apply hbm_of
      | apply far_of | apply kmem_of | apply And.intro | simp only [mk_keeps]

theorem execLinkRetrain_keeps (link : Nat) {s : State} (h : MemoriesWf s) : OutWf (execLinkRetrain link s) := by
  unfold execLinkRetrain
  with_reducible
    repeat' first
      | assumption | apply ite_keeps | apply OutWf.next | apply spad_of | apply obuf_of | apply hbm_of | apply far_of | apply kmem_of
      | apply And.intro | simp only [mk_keeps]

theorem execPowerCap_keeps {s : State} (h : MemoriesWf s) : OutWf (execPowerCap s) := by
  unfold execPowerCap
  with_reducible
    repeat' first
      | assumption | apply ite_keeps | apply OutWf.next | apply spad_of | apply obuf_of | apply hbm_of | apply far_of | apply kmem_of
      | apply And.intro | simp only [mk_keeps]

theorem execPowerEstimateFalls_keeps {s : State} (h : MemoriesWf s) : OutWf (execPowerEstimateFalls s) := by
  unfold execPowerEstimateFalls
  with_reducible
    repeat' first
      | assumption | apply ite_keeps | apply OutWf.next | apply spad_of | apply obuf_of | apply hbm_of | apply far_of | apply kmem_of
      | apply And.intro | simp only [mk_keeps]

theorem execDieOvertempThrottle_keeps (die : Nat) {s : State} (h : MemoriesWf s) : OutWf (execDieOvertempThrottle die s) := by
  unfold execDieOvertempThrottle
  with_reducible
    repeat' first
      | assumption | apply ite_keeps | apply OutWf.next | apply spad_of | apply obuf_of | apply hbm_of | apply far_of | apply kmem_of
      | apply And.intro | simp only [mk_keeps]

theorem execDieOvertempTrip_keeps (_die : Nat) {s : State} (h : MemoriesWf s) : OutWf (execDieOvertempTrip _die s) := by
  unfold execDieOvertempTrip
  with_reducible repeat' first | assumption | apply State.moduleReset_keeps | apply ite_keeps | apply OutWf.next

theorem execCoreBackBelowLimit_keeps (heat : CoreHeat) {s : State} (h : MemoriesWf s) : OutWf (execCoreBackBelowLimit heat s) := by
  unfold execCoreBackBelowLimit
  with_reducible repeat' first | assumption | apply State.modCore_keeps | apply ite_keeps | apply OutWf.next

theorem execThermalLimitSet_keeps (core limit : Nat) {s : State} (h : MemoriesWf s) : OutWf (execThermalLimitSet core limit s) := by
  unfold execThermalLimitSet
  with_reducible repeat' first | assumption | apply State.modCore_keeps | apply ite_keeps | apply OutWf.next

/-! ### The operations of Machine/Sched.lean -/

theorem State.settleGang_keeps {s : State} (u g : Nat) (h : MemoriesWf s) : MemoriesWf (s.settleGang u g) := by
  unfold State.settleGang
  dsimp only
  with_reducible
    repeat' first
      | assumption | apply State.modGang_keeps | apply ite_keeps | apply spad_of | apply obuf_of | apply hbm_of | apply far_of
      | apply kmem_of | apply And.intro | simp only [mk_keeps]

theorem State.promote_keeps {s : State} (x : Nat × Nat) (h : MemoriesWf s) : MemoriesWf (s.promote x) := by
  unfold State.promote
  with_reducible
    repeat' first
      | assumption | apply State.modGang_keeps | apply spad_of | apply obuf_of | apply hbm_of | apply far_of | apply kmem_of
      | apply And.intro | simp only [mk_keeps]

theorem execPromotion_keeps (core quad : Nat) {s : State} (h : MemoriesWf s) : OutWf (execPromotion core quad s) := by
  unfold execPromotion
  dsimp only
  with_reducible repeat' first | assumption | apply State.promote_keeps | apply ite_keeps | apply OutWf.next | split

theorem execRotation_keeps (core quad : Nat) {s : State} (h : MemoriesWf s) : OutWf (execRotation core quad s) := by
  unfold execRotation
  dsimp only
  with_reducible
    repeat' first
      | assumption | apply State.promote_keeps | apply State.modGang_keeps | apply ite_keeps | apply OutWf.next | apply spad_of
      | apply obuf_of | apply hbm_of | apply far_of | apply kmem_of | apply And.intro | simp only [mk_keeps] | split

theorem execWatchdogExpiry_keeps (team gang sub : Nat) {s : State} (h : MemoriesWf s) : OutWf (execWatchdogExpiry team gang sub s) := by
  unfold execWatchdogExpiry
  dsimp only
  with_reducible
    repeat' first
      | assumption | apply State.takeTrap_keeps | apply State.modGang_keeps | apply ite_keeps | apply OutWf.next | split

theorem execLogRecordWrite_keeps (team gang : Nat) {s : State} (h : MemoriesWf s) : OutWf (execLogRecordWrite team gang s) := by
  unfold execLogRecordWrite
  with_reducible repeat' first | assumption | apply State.writeLog_keeps | apply OutWf.next

theorem execIllegalInstructionWord_keeps (w : Option Half) {s : State} (h : MemoriesWf s) : OutWf (execIllegalInstructionWord w s) := by
  unfold execIllegalInstructionWord
  dsimp only
  with_reducible
    repeat' first
      | assumption | apply stopUnit_keeps | apply comparatorStop_keeps | apply State.takeTrap_keeps | apply OutWf.next | apply OptWf.none
      | refine some_of (by assumption) ?_ | split

/-! ### Dispatch -/

/-- An instruction's step keeps every memory in canonical form. -/
theorem exec_keeps (i : Instr) {s : State} (h : MemoriesWf s) : OutWf (exec i s) := by
  cases i with
  | nop => exact execNop_keeps h
  | exit => exact execExit_keeps h
  | bra off => exact execBra_keeps off h
  | brc p n off => exact execBrc_keeps p n off h
  | rcv off => exact execRcv_keeps off h
  | jmpi a wa => exact execJmpi_keeps a wa h
  | call off => exact execCall_keeps off h
  | calli a wa => exact execCalli_keeps a wa h
  | ret => exact execRet_keeps h
  | retr a wa => exact execRetr_keeps a wa h
  | loop c ka words => exact execLoop_keeps c ka words h
  | lexit => exact execLexit_keeps h
  | regang mask => exact execRegang_keeps mask h
  | kbr ka kb cc off => exact execKbr_keeps ka kb cc off h
  | bkpt code => exact execBkpt_keeps code h
  | setmode ka => exact execSetmode_keeps ka h
  | setmk ka kb => exact execSetmk_keeps ka kb h
  | getmode kd => exact execGetmode_keeps kd h
  | csrr d csr => exact execCsrr_keeps d csr h
  | csrw a csr => exact execCsrw_keeps a csr h
  | invstSetState st => exact execInvstSetState_keeps st h
  | invstLoadLo n x => exact execInvstLoadLo_keeps n x h
  | invstLoadHi n x => exact execInvstLoadHi_keeps n x h
  | invstViewLo n => exact execInvstViewLo_keeps n h
  | invstViewHi n => exact execInvstViewHi_keeps n h
  | trap code => exact execTrap_keeps code h
  | instar off => exact execInstar_keeps off h
  | inv x t br tol len dec => exact execInv_keeps x t br tol len dec h
  | add d a b wa wb => exact execAdd_keeps d a b wa wb h
  | sub d a b wa wb => exact execSub_keeps d a b wa wb h
  | mul d a b wa wb => exact execMul_keeps d a b wa wb h
  | mulh d a b wa wb => exact execMulh_keeps d a b wa wb h
  | fma d a b wa wb => exact execFma_keeps d a b wa wb h
  | fms d a b wa wb => exact execFms_keeps d a b wa wb h
  | min d a b wa wb => exact execMin_keeps d a b wa wb h
  | max d a b wa wb => exact execMax_keeps d a b wa wb h
  | abs d a wa => exact execAbs_keeps d a wa h
  | neg d a wa => exact execNeg_keeps d a wa h
  | and d a b wa wb => exact execAnd_keeps d a b wa wb h
  | or d a b wa wb => exact execOr_keeps d a b wa wb h
  | xor d a b wa wb => exact execXor_keeps d a b wa wb h
  | andn d a b wa wb => exact execAndn_keeps d a b wa wb h
  | shl d a b wa wb => exact execShl_keeps d a b wa wb h
  | shr d a b wa wb => exact execShr_keeps d a b wa wb h
  | rot d a b wa wb => exact execRot_keeps d a b wa wb h
  | bits op d a wa => exact execBits_keeps op d a wa h
  | bfx d a b wa wb => exact execBfx_keeps d a b wa wb h
  | bfi d a b wa wb => exact execBfi_keeps d a b wa wb h
  | div d a b wa wb => exact execDiv_keeps d a b wa wb h
  | rem d a b wa wb => exact execRem_keeps d a b wa wb h
  | mov d a wa => exact execMov_keeps d a wa h
  | sel d a b wa wb n p => exact execSel_keeps d a b wa wb n p h
  | cmp cc p a b wa wb => exact execCmp_keeps cc p a b wa wb h
  | plop d a b tt => exact execPlop_keeps d a b tt h
  | dot4 d a b wa wb => exact execDot4_keeps d a b wa wb h
  | crc d a wa => exact execCrc_keeps d a wa h
  | addi d a imm => exact execAddi_keeps d a imm h
  | muli d a imm => exact execMuli_keeps d a imm h
  | andi d a imm => exact execAndi_keeps d a imm h
  | ori d a imm => exact execOri_keeps d a imm h
  | xori d a imm => exact execXori_keeps d a imm h
  | shli d a count => exact execShli_keeps d a count h
  | shri d a count => exact execShri_keeps d a count h
  | cmpi cc p a imm => exact execCmpi_keeps cc p a imm h
  | movi d imm => exact execMovi_keeps d imm h
  | movhi d imm => exact execMovhi_keeps d imm h
  | mini d a imm => exact execMini_keeps d a imm h
  | maxi d a imm => exact execMaxi_keeps d a imm h
  | rcp d a wa => exact execRcp_keeps d a wa h
  | rsq d a wa => exact execRsq_keeps d a wa h
  | sqrt d a wa => exact execSqrt_keeps d a wa h
  | exp2 d a wa => exact execExp2_keeps d a wa h
  | log2 d a wa => exact execLog2_keeps d a wa h
  | sinpi d a wa => exact execSinpi_keeps d a wa h
  | cospi d a wa => exact execCospi_keeps d a wa h
  | tanh d a wa => exact execTanh_keeps d a wa h
  | cvt src d a wa => exact execCvt_keeps src d a wa h
  | pack src d a part wa => exact execPack_keeps src d a part wa h
  | unpk src d a part wa => exact execUnpk_keeps src d a part wa h
  | qnt l d a b wa wb => exact execQnt_keeps l d a b wa wb h
  | rnd m d a wa => exact execRnd_keeps m d a wa h
  | classf d a wa => exact execClassf_keeps d a wa h
  | scalb d a b wa wb => exact execScalb_keeps d a b wa wb h
  | shfl d a b wa wb kf => exact execShfl_keeps d a b wa wb kf h
  | bcst d a lane wa kf => exact execBcst_keeps d a lane wa kf h
  | reduce op d a wa kf => exact execReduce_keeps op d a wa kf h
  | scan op ex d a wa kf => exact execScan_keeps op ex d a wa kf h
  | voteBallot kd p kf => exact execVoteBallot_keeps kd p kf h
  | voteAny d p kf => exact execVoteAny_keeps d p kf h
  | voteAll d p kf => exact execVoteAll_keeps d p kf h
  | subx d a b wa wb => exact execSubx_keeps d a b wa wb h
  | lanek kd a lane wa => exact execLanek_keeps kd a lane wa h
  | kbcast d ka => exact execKbcast_keeps d ka h
  | kadd d a b => exact execKadd_keeps d a b h
  | ksub d a b => exact execKsub_keeps d a b h
  | kmul d a b => exact execKmul_keeps d a b h
  | kand d a b => exact execKand_keeps d a b h
  | kor d a b => exact execKor_keeps d a b h
  | kxor d a b => exact execKxor_keeps d a b h
  | kshl d a b => exact execKshl_keeps d a b h
  | kshr d a b arith => exact execKshr_keeps d a b arith h
  | kaddi d a imm => exact execKaddi_keeps d a imm h
  | kmovi d imm => exact execKmovi_keeps d imm h
  | kmovhi d imm => exact execKmovhi_keeps d imm h
  | kmin d a b u => exact execKmin_keeps d a b u h
  | kmax d a b u => exact execKmax_keeps d a b u h
  | ksel d a b kf => exact execKsel_keeps d a b kf h
  | qpush q ka bcast => exact execQpush_keeps q ka bcast h
  | ld w sx d a wa => exact execLd_keeps w sx d a wa h
  | st w a b wa wb => exact execSt_keeps w a b wa wb h
  | ldx d a imm => exact execLdx_keeps d a imm h
  | stx d a imm => exact execStx_keeps d a imm h
  | atom op d a b wa wb => exact execAtom_keeps op d a b wa wb h
  | acas d a b wa wb => exact execAcas_keeps d a b wa wb h
  | kld d a imm => exact execKld_keeps d a imm h
  | kst d a imm => exact execKst_keeps d a imm h
  | tlook d a wa => exact execTlook_keeps d a wa h
  | tlookK d a => exact execTlookK_keeps d a h
  | tset d a b wa wb => exact execTset_keeps d a b wa wb h
  | tinv a wa => exact execTinv_keeps a wa h
  | swinit ka kb => exact execSwinit_keeps ka kb h
  | swadd sc ka kb => exact execSwadd_keeps sc ka kb h
  | swait sc ka kb => exact execSwait_keeps sc ka kb h
  | waitc c n => exact execWaitc_keeps c n h
  | bar n => exact execBar_keeps n h
  | bara n => exact execBara_keeps n h
  | barw n => exact execBarw_keeps n h
  | trig => exact execTrig_keeps h
  | launch ka => exact execLaunch_keeps ka h
  | detep => exact execDetep_keeps h
  | copy ka => exact execCopy_keeps ka h
  | skip ka => exact execSkip_keeps ka h
  | engq kd ka => exact execEngq_keeps kd ka h
  | rld d a wa => exact execRld_keeps d a wa h
  | rst f a b wa wb => exact execRst_keeps f a b wa wb h
  | raadd d a b wa wb => exact execRaadd_keeps d a b wa wb h
  | raaddD a b wa wb => exact execRaaddD_keeps a b wa wb h
  | rcas d a b wa wb => exact execRcas_keeps d a b wa wb h
  | stmp d a b wa wb => exact execStmp_keeps d a b wa wb h
  | ldat d a b wa wb => exact execLdat_keeps d a b wa wb h
  | time kd => exact execTime_keeps kd h
  | mma bank a kb wa reuse la clear => exact execMma_keeps bank a kb wa reuse la clear h
  | mmaResultWrite core => exact execMmaResultWrite_keeps core h
  | mclr bank => exact execMclr_keeps bank h
  | mst bank ka => exact execMst_keeps bank ka h
  | mrd d bank kb => exact execMrd_keeps d bank kb h
  | obres kd ka => exact execObres_keeps kd ka h
  | obrel ka => exact execObrel_keeps ka h
  | obld ka kb => exact execObld_keeps ka kb h
  | obldFillEnd core rec => exact execObldFillEnd_keeps core rec h
  | mstat kd bank => exact execMstat_keeps kd bank h
  | promotion core quad => exact execPromotion_keeps core quad h
  | rotation core quad => exact execRotation_keeps core quad h
  | watchdogExpiry team gang sub => exact execWatchdogExpiry_keeps team gang sub h
  | trapRingSpace part consumer => exact execTrapRingSpace_keeps part consumer h
  | logRecordWrite team gang => exact execLogRecordWrite_keeps team gang h
  | remoteLanding op lane reply => exact execRemoteLanding_keeps op lane reply h
  | remoteAcknowledgement op lane reply => exact execRemoteAcknowledgement_keeps op lane reply h
  | homeRequest r => exact execHomeRequest_keeps r h
  | stampedStoreArrival r => exact execStampedStoreArrival_keeps r h
  | commitWaitEnd op => exact execCommitWaitEnd_keeps op h
  | stampedReleaseArrival r suspect => exact execStampedReleaseArrival_keeps r suspect h
  | ldatReaderWaitEnd op lane => exact execLdatReaderWaitEnd_keeps op lane h
  | ldatServe r => exact execLdatServe_keeps r h
  | suspectMark va part window stamp => exact execSuspectMark_keeps va part window stamp h
  | copye cmd => exact execCopye_keeps cmd h
  | fill cmd => exact execFill_keeps cmd h
  | swadde cmd => exact execSwadde_keeps cmd h
  | loope cmd => exact execLoope_keeps cmd h
  | conde cmd => exact execConde_keeps cmd h
  | next cmd => exact execNext_keeps cmd h
  | stop cmd => exact execStop_keeps cmd h
  | copyChunk cmd pod => exact execCopyChunk_keeps cmd pod h
  | chainStop cmd => exact execChainStop_keeps cmd h
  | skipperChunk cmd => exact execSkipperChunk_keeps cmd h
  | skipperStop cmd => exact execSkipperStop_keeps cmd h
  | frontEndEntry part prio entry stores => exact execFrontEndEntry_keeps part prio entry stores h
  | dispatchTeam part => exact execDispatchTeam_keeps part h
  | teamRetirement team => exact execTeamRetirement_keeps team h
  | thermalMigration core heat => exact execThermalMigration_keeps core heat h
  | timebaseTick => exact execTimebaseTick_keeps h
  | timeTransfer links => exact execTimeTransfer_keeps links h
  | oscillatorFault => exact execOscillatorFault_keeps h
  | timebaseConfig epsCommit epsFail lam => exact execTimebaseConfig_keeps epsCommit epsFail lam h
  | rejoin links => exact execRejoin_keeps links h
  | rejoinWaitEnd => exact execRejoinWaitEnd_keeps h
  | create block stores => exact execCreate_keeps block stores h
  | destroy part => exact execDestroy_keeps part h
  | invalidate part va len stores => exact execInvalidate_keeps part va len stores h
  | wopen w part base limit key r wr => exact execWopen_keeps w part base limit key r wr h
  | grant part device w key => exact execGrant_keeps part device w key h
  | ungrant part device w => exact execUngrant_keeps part device w h
  | wrevoke w => exact execWrevoke_keeps w h
  | wrevokeDrainEnd w => exact execWrevokeDrainEnd_keeps w h
  | usage part => exact execUsage_keeps part h
  | periodicUsageRecord part => exact execPeriodicUsageRecord_keeps part h
  | hbmunitsSample => exact execHbmunitsSample_keeps h
  | attest part nonce => exact execAttest_keeps part nonce h
  | setrings part base n logBase logN => exact execSetrings_keeps part base n logBase logN h
  | pageZeroing part va => exact execPageZeroing_keeps part va h
  | zeroingComplete part va => exact execZeroingComplete_keeps part va h
  | pageIn part va => exact execPageIn_keeps part va h
  | save team area deadline => exact execSave_keeps team area deadline h
  | saveDeadline team => exact execSaveDeadline_keeps team h
  | restore team core area => exact execRestore_keeps team core area h
  | resume team gang sub => exact execResume_keeps team gang sub h
  | kernelSkip team gang sub => exact execKernelSkip_keeps team gang sub h
  | kill team => exact execKill_keeps team h
  | contextStateRead team item => exact execContextStateRead_keeps team item h
  | contextStateWrite team item v => exact execContextStateWrite_keeps team item v h
  | sramScrub store addr find => exact execSramScrub_keeps store addr find h
  | patrolScrub addr find => exact execPatrolScrub_keeps addr find h
  | healthRecord base n samples => exact execHealthRecord_keeps base n samples h
  | kernelRestart cause => exact execKernelRestart_keeps cause h
  | moduleReset => exact execModuleReset_keeps h
  | boot failed => exact execBoot_keeps failed h
  | firmwareImageWrite image => exact execFirmwareImageWrite_keeps image h
  | powerCap => exact execPowerCap_keeps h
  | dieOvertempThrottle die => exact execDieOvertempThrottle_keeps die h
  | dieOvertempTrip die => exact execDieOvertempTrip_keeps die h
  | fabricPortDisable port => exact execFabricPortDisable_keeps port h
  | linkRetrain link => exact execLinkRetrain_keeps link h
  | illegalInstructionWord w => exact execIllegalInstructionWord_keeps w h
  | coreBackBelowLimit heat => exact execCoreBackBelowLimit_keeps heat h
  | thermalLimitSet core limit => exact execThermalLimitSet_keeps core limit h
  | powerEstimateFalls => exact execPowerEstimateFalls_keeps h
  | usageRingSpace part consumer => exact execUsageRingSpace_keeps part consumer h

/-! ### The operations of Machine/Policy.lean -/

theorem State.pickUnit_keeps {s : State} {x : Issuer × State} (e : s.pickUnit = some x) (h : MemoriesWf s) : MemoriesWf x.2 := by
  unfold State.pickUnit at e
  obtain ⟨y, -, rfl⟩ := Option.map_eq_some_iff.mp e
  exact State.modCore_keeps _ _ h

theorem State.noteUnit_keeps {s : State} (u : Issuer) (h : MemoriesWf s) : MemoriesWf (s.noteUnit u) := by
  unfold State.noteUnit
  with_reducible repeat' first | assumption | apply State.noteFetch_keeps | apply ite_keeps

theorem State.pairUp_keeps {s : State} (u : Issuer) (i : Instr) (h : MemoriesWf s) : MemoriesWf (s.pairUp u i).2 := by
  unfold State.pairUp
  dsimp only
  with_reducible
    repeat' first
      | assumption | apply State.modCore_keeps | apply spad_of | apply obuf_of | apply hbm_of | apply far_of | apply kmem_of
      | apply And.intro | simp only [mk_keeps] | split

theorem State.nextEvent_keeps {s : State} (h : MemoriesWf s) : MemoriesWf (s.nextEvent).2 := h

theorem State.issueNext_keeps {s : State} (u : Issuer) (h : MemoriesWf s) : MemoriesWf (s.issueNext u).2 := by
  unfold State.issueNext
  with_reducible
    repeat' first
      | assumption | apply State.nextEvent_keeps | apply State.noteUnit_keeps | apply State.hold_keeps | apply spad_of | apply obuf_of
      | apply hbm_of | apply far_of | apply kmem_of | apply And.intro | simp only [mk_keeps] | split

theorem State.nextOwn_keeps {s : State} (h : MemoriesWf s) : MemoriesWf (s.nextOwn).2 := by
  unfold State.nextOwn
  split
  · exact State.nextEvent_keeps h
  · split
    · exact State.nextEvent_keeps h
    · next u s' heq =>
      have h' : MemoriesWf { s' with beat := s'.beat + 1 } := State.pickUnit_keeps heq h
      dsimp only
      split
      · exact State.issueNext_keeps _ (State.pairUp_keeps _ _ h')
      · exact State.issueNext_keeps _ h'

theorem State.nextPair_keeps {s : State} (v : Issuer) (h : MemoriesWf s) : MemoriesWf (s.nextPair v).2 := by
  unfold State.nextPair
  dsimp only
  with_reducible
    repeat' first
      | assumption | apply State.issueNext_keeps | apply spad_of | apply obuf_of | apply hbm_of | apply far_of | apply kmem_of
      | apply And.intro | simp only [mk_keeps]

theorem State.next_keeps {s : State} {x : Instr × State} (e : s.next = some x) (h : MemoriesWf s) : MemoriesWf x.2 := by
  unfold State.next at e
  split at e
  · cases e
    exact State.nextPair_keeps _ h
  · split at e
    · cases e
      exact h
    · split at e
      · cases e
        exact h
      · cases e
      · cases e
        exact State.nextOwn_keeps h
      · cases e
        exact State.nextOwn_keeps h

theorem State.settleWork_keeps {s : State} (h : MemoriesWf s) : MemoriesWf (s.settleWork) := by
  unfold State.settleWork
  dsimp only
  with_reducible
    repeat' first
      | (intro) | assumption | apply State.landMigrant_keeps | apply State.saveCheck_keeps | apply State.gridCheck_keeps | apply ite_keeps
      | apply foldl_keeps

theorem State.settleCommands_keeps {s : State} (h : MemoriesWf s) : MemoriesWf (s.settleCommands) := by
  unfold State.settleCommands
  with_reducible
    repeat' first
      | (intro) | assumption | apply State.restartCheck_keeps | apply State.destroyCheck_keeps | apply State.drainCheck_keeps
      | apply foldl_keeps

theorem State.settleGangs_keeps {s : State} (h : MemoriesWf s) : MemoriesWf (s.settleGangs) := by
  unfold State.settleGangs
  with_reducible repeat' first | (intro) | assumption | apply State.settleGang_keeps | apply foldl_keeps

theorem State.settle_keeps {s : State} (h : MemoriesWf s) : MemoriesWf (s.settle) := by
  unfold State.settle
  with_reducible
    repeat' first
      | assumption | apply State.settleGangs_keeps | apply State.settleCommands_keeps | apply State.settleWork_keeps | apply ite_keeps

end Sys2Proof.Machine
end

