-- ==== Sys2Proof/Laws/Exec.lean ====
section
/-!
SUPPORT. Which meaning each instruction has: one equation per constructor.
-/
namespace Sys2Proof.Machine

open Sys2Proof

@[simp] theorem exec_nop (s) : exec (.nop) s = execNop s := rfl
@[simp] theorem exec_exit (s) : exec (.exit) s = execExit s := rfl
@[simp] theorem exec_bra (off s) : exec (.bra off) s = execBra off s := rfl
@[simp] theorem exec_brc (p n off s) : exec (.brc p n off) s = execBrc p n off s := rfl
@[simp] theorem exec_rcv (off s) : exec (.rcv off) s = execRcv off s := rfl
@[simp] theorem exec_jmpi (a wa s) : exec (.jmpi a wa) s = execJmpi a wa s := rfl
@[simp] theorem exec_call (off s) : exec (.call off) s = execCall off s := rfl
@[simp] theorem exec_calli (a wa s) : exec (.calli a wa) s = execCalli a wa s := rfl
@[simp] theorem exec_ret (s) : exec (.ret) s = execRet s := rfl
@[simp] theorem exec_retr (a wa s) : exec (.retr a wa) s = execRetr a wa s := rfl
@[simp] theorem exec_loop (c ka words s) : exec (.loop c ka words) s = execLoop c ka words s := rfl
@[simp] theorem exec_lexit (s) : exec (.lexit) s = execLexit s := rfl
@[simp] theorem exec_regang (mask s) : exec (.regang mask) s = execRegang mask s := rfl
@[simp] theorem exec_kbr (ka kb cc off s) : exec (.kbr ka kb cc off) s = execKbr ka kb cc off s := rfl
@[simp] theorem exec_bkpt (code s) : exec (.bkpt code) s = execBkpt code s := rfl
@[simp] theorem exec_setmode (ka s) : exec (.setmode ka) s = execSetmode ka s := rfl
@[simp] theorem exec_setmk (ka kb s) : exec (.setmk ka kb) s = execSetmk ka kb s := rfl
@[simp] theorem exec_getmode (kd s) : exec (.getmode kd) s = execGetmode kd s := rfl
@[simp] theorem exec_csrr (d csr s) : exec (.csrr d csr) s = execCsrr d csr s := rfl
@[simp] theorem exec_csrw (a csr s) : exec (.csrw a csr) s = execCsrw a csr s := rfl
@[simp] theorem exec_invstSetState (st s) : exec (.invstSetState st) s = execInvstSetState st s := rfl
@[simp] theorem exec_invstLoadLo (n x s) : exec (.invstLoadLo n x) s = execInvstLoadLo n x s := rfl
@[simp] theorem exec_invstLoadHi (n x s) : exec (.invstLoadHi n x) s = execInvstLoadHi n x s := rfl
@[simp] theorem exec_invstViewLo (n s) : exec (.invstViewLo n) s = execInvstViewLo n s := rfl
@[simp] theorem exec_invstViewHi (n s) : exec (.invstViewHi n) s = execInvstViewHi n s := rfl
@[simp] theorem exec_trap (code s) : exec (.trap code) s = execTrap code s := rfl
@[simp] theorem exec_instar (off s) : exec (.instar off) s = execInstar off s := rfl
@[simp] theorem exec_inv (x t br tol len dec s) : exec (.inv x t br tol len dec) s = execInv x t br tol len dec s := rfl
@[simp] theorem exec_add (d a b wa wb s) : exec (.add d a b wa wb) s = execAdd d a b wa wb s := rfl
@[simp] theorem exec_sub (d a b wa wb s) : exec (.sub d a b wa wb) s = execSub d a b wa wb s := rfl
@[simp] theorem exec_mul (d a b wa wb s) : exec (.mul d a b wa wb) s = execMul d a b wa wb s := rfl
@[simp] theorem exec_mulh (d a b wa wb s) : exec (.mulh d a b wa wb) s = execMulh d a b wa wb s := rfl
@[simp] theorem exec_fma (d a b wa wb s) : exec (.fma d a b wa wb) s = execFma d a b wa wb s := rfl
@[simp] theorem exec_fms (d a b wa wb s) : exec (.fms d a b wa wb) s = execFms d a b wa wb s := rfl
@[simp] theorem exec_min (d a b wa wb s) : exec (.min d a b wa wb) s = execMin d a b wa wb s := rfl
@[simp] theorem exec_max (d a b wa wb s) : exec (.max d a b wa wb) s = execMax d a b wa wb s := rfl
@[simp] theorem exec_abs (d a wa s) : exec (.abs d a wa) s = execAbs d a wa s := rfl
@[simp] theorem exec_neg (d a wa s) : exec (.neg d a wa) s = execNeg d a wa s := rfl
@[simp] theorem exec_and (d a b wa wb s) : exec (.and d a b wa wb) s = execAnd d a b wa wb s := rfl
@[simp] theorem exec_or (d a b wa wb s) : exec (.or d a b wa wb) s = execOr d a b wa wb s := rfl
@[simp] theorem exec_xor (d a b wa wb s) : exec (.xor d a b wa wb) s = execXor d a b wa wb s := rfl
@[simp] theorem exec_andn (d a b wa wb s) : exec (.andn d a b wa wb) s = execAndn d a b wa wb s := rfl
@[simp] theorem exec_shl (d a b wa wb s) : exec (.shl d a b wa wb) s = execShl d a b wa wb s := rfl
@[simp] theorem exec_shr (d a b wa wb s) : exec (.shr d a b wa wb) s = execShr d a b wa wb s := rfl
@[simp] theorem exec_rot (d a b wa wb s) : exec (.rot d a b wa wb) s = execRot d a b wa wb s := rfl
@[simp] theorem exec_bits (op d a wa s) : exec (.bits op d a wa) s = execBits op d a wa s := rfl
@[simp] theorem exec_bfx (d a b wa wb s) : exec (.bfx d a b wa wb) s = execBfx d a b wa wb s := rfl
@[simp] theorem exec_bfi (d a b wa wb s) : exec (.bfi d a b wa wb) s = execBfi d a b wa wb s := rfl
@[simp] theorem exec_div (d a b wa wb s) : exec (.div d a b wa wb) s = execDiv d a b wa wb s := rfl
@[simp] theorem exec_rem (d a b wa wb s) : exec (.rem d a b wa wb) s = execRem d a b wa wb s := rfl
@[simp] theorem exec_mov (d a wa s) : exec (.mov d a wa) s = execMov d a wa s := rfl
@[simp] theorem exec_sel (d a b wa wb n p s) : exec (.sel d a b wa wb n p) s = execSel d a b wa wb n p s := rfl
@[simp] theorem exec_cmp (cc p a b wa wb s) : exec (.cmp cc p a b wa wb) s = execCmp cc p a b wa wb s := rfl
@[simp] theorem exec_plop (d a b tt s) : exec (.plop d a b tt) s = execPlop d a b tt s := rfl
@[simp] theorem exec_dot4 (d a b wa wb s) : exec (.dot4 d a b wa wb) s = execDot4 d a b wa wb s := rfl
@[simp] theorem exec_crc (d a wa s) : exec (.crc d a wa) s = execCrc d a wa s := rfl
@[simp] theorem exec_addi (d a imm s) : exec (.addi d a imm) s = execAddi d a imm s := rfl
@[simp] theorem exec_muli (d a imm s) : exec (.muli d a imm) s = execMuli d a imm s := rfl
@[simp] theorem exec_andi (d a imm s) : exec (.andi d a imm) s = execAndi d a imm s := rfl
@[simp] theorem exec_ori (d a imm s) : exec (.ori d a imm) s = execOri d a imm s := rfl
@[simp] theorem exec_xori (d a imm s) : exec (.xori d a imm) s = execXori d a imm s := rfl
@[simp] theorem exec_shli (d a count s) : exec (.shli d a count) s = execShli d a count s := rfl
@[simp] theorem exec_shri (d a count s) : exec (.shri d a count) s = execShri d a count s := rfl
@[simp] theorem exec_cmpi (cc p a imm s) : exec (.cmpi cc p a imm) s = execCmpi cc p a imm s := rfl
@[simp] theorem exec_movi (d imm s) : exec (.movi d imm) s = execMovi d imm s := rfl
@[simp] theorem exec_movhi (d imm s) : exec (.movhi d imm) s = execMovhi d imm s := rfl
@[simp] theorem exec_mini (d a imm s) : exec (.mini d a imm) s = execMini d a imm s := rfl
@[simp] theorem exec_maxi (d a imm s) : exec (.maxi d a imm) s = execMaxi d a imm s := rfl
@[simp] theorem exec_rcp (d a wa s) : exec (.rcp d a wa) s = execRcp d a wa s := rfl
@[simp] theorem exec_rsq (d a wa s) : exec (.rsq d a wa) s = execRsq d a wa s := rfl
@[simp] theorem exec_sqrt (d a wa s) : exec (.sqrt d a wa) s = execSqrt d a wa s := rfl
@[simp] theorem exec_exp2 (d a wa s) : exec (.exp2 d a wa) s = execExp2 d a wa s := rfl
@[simp] theorem exec_log2 (d a wa s) : exec (.log2 d a wa) s = execLog2 d a wa s := rfl
@[simp] theorem exec_sinpi (d a wa s) : exec (.sinpi d a wa) s = execSinpi d a wa s := rfl
@[simp] theorem exec_cospi (d a wa s) : exec (.cospi d a wa) s = execCospi d a wa s := rfl
@[simp] theorem exec_tanh (d a wa s) : exec (.tanh d a wa) s = execTanh d a wa s := rfl
@[simp] theorem exec_cvt (src d a wa s) : exec (.cvt src d a wa) s = execCvt src d a wa s := rfl
@[simp] theorem exec_pack (src d a part wa s) : exec (.pack src d a part wa) s = execPack src d a part wa s := rfl
@[simp] theorem exec_unpk (src d a part wa s) : exec (.unpk src d a part wa) s = execUnpk src d a part wa s := rfl
@[simp] theorem exec_qnt (l d a b wa wb s) : exec (.qnt l d a b wa wb) s = execQnt l d a b wa wb s := rfl
@[simp] theorem exec_rnd (m d a wa s) : exec (.rnd m d a wa) s = execRnd m d a wa s := rfl
@[simp] theorem exec_classf (d a wa s) : exec (.classf d a wa) s = execClassf d a wa s := rfl
@[simp] theorem exec_scalb (d a b wa wb s) : exec (.scalb d a b wa wb) s = execScalb d a b wa wb s := rfl
@[simp] theorem exec_shfl (d a b wa wb kf s) : exec (.shfl d a b wa wb kf) s = execShfl d a b wa wb kf s := rfl
@[simp] theorem exec_bcst (d a lane wa kf s) : exec (.bcst d a lane wa kf) s = execBcst d a lane wa kf s := rfl
@[simp] theorem exec_reduce (op d a wa kf s) : exec (.reduce op d a wa kf) s = execReduce op d a wa kf s := rfl
@[simp] theorem exec_scan (op ex d a wa kf s) : exec (.scan op ex d a wa kf) s = execScan op ex d a wa kf s := rfl
@[simp] theorem exec_voteBallot (kd p kf s) : exec (.voteBallot kd p kf) s = execVoteBallot kd p kf s := rfl
@[simp] theorem exec_voteAny (d p kf s) : exec (.voteAny d p kf) s = execVoteAny d p kf s := rfl
@[simp] theorem exec_voteAll (d p kf s) : exec (.voteAll d p kf) s = execVoteAll d p kf s := rfl
@[simp] theorem exec_subx (d a b wa wb s) : exec (.subx d a b wa wb) s = execSubx d a b wa wb s := rfl
@[simp] theorem exec_lanek (kd a lane wa s) : exec (.lanek kd a lane wa) s = execLanek kd a lane wa s := rfl
@[simp] theorem exec_kbcast (d ka s) : exec (.kbcast d ka) s = execKbcast d ka s := rfl
@[simp] theorem exec_kadd (d a b s) : exec (.kadd d a b) s = execKadd d a b s := rfl
@[simp] theorem exec_ksub (d a b s) : exec (.ksub d a b) s = execKsub d a b s := rfl
@[simp] theorem exec_kmul (d a b s) : exec (.kmul d a b) s = execKmul d a b s := rfl
@[simp] theorem exec_kand (d a b s) : exec (.kand d a b) s = execKand d a b s := rfl
@[simp] theorem exec_kor (d a b s) : exec (.kor d a b) s = execKor d a b s := rfl
@[simp] theorem exec_kxor (d a b s) : exec (.kxor d a b) s = execKxor d a b s := rfl
@[simp] theorem exec_kshl (d a b s) : exec (.kshl d a b) s = execKshl d a b s := rfl
@[simp] theorem exec_kshr (d a b arith s) : exec (.kshr d a b arith) s = execKshr d a b arith s := rfl
@[simp] theorem exec_kaddi (d a imm s) : exec (.kaddi d a imm) s = execKaddi d a imm s := rfl
@[simp] theorem exec_kmovi (d imm s) : exec (.kmovi d imm) s = execKmovi d imm s := rfl
@[simp] theorem exec_kmovhi (d imm s) : exec (.kmovhi d imm) s = execKmovhi d imm s := rfl
@[simp] theorem exec_kmin (d a b u s) : exec (.kmin d a b u) s = execKmin d a b u s := rfl
@[simp] theorem exec_kmax (d a b u s) : exec (.kmax d a b u) s = execKmax d a b u s := rfl
@[simp] theorem exec_ksel (d a b kf s) : exec (.ksel d a b kf) s = execKsel d a b kf s := rfl
@[simp] theorem exec_qpush (q ka bcast s) : exec (.qpush q ka bcast) s = execQpush q ka bcast s := rfl
@[simp] theorem exec_ld (w sx d a wa s) : exec (.ld w sx d a wa) s = execLd w sx d a wa s := rfl
@[simp] theorem exec_st (w a b wa wb s) : exec (.st w a b wa wb) s = execSt w a b wa wb s := rfl
@[simp] theorem exec_ldx (d a imm s) : exec (.ldx d a imm) s = execLdx d a imm s := rfl
@[simp] theorem exec_stx (d a imm s) : exec (.stx d a imm) s = execStx d a imm s := rfl
@[simp] theorem exec_atom (op d a b wa wb s) : exec (.atom op d a b wa wb) s = execAtom op d a b wa wb s := rfl
@[simp] theorem exec_acas (d a b wa wb s) : exec (.acas d a b wa wb) s = execAcas d a b wa wb s := rfl
@[simp] theorem exec_kld (d a imm s) : exec (.kld d a imm) s = execKld d a imm s := rfl
@[simp] theorem exec_kst (d a imm s) : exec (.kst d a imm) s = execKst d a imm s := rfl
@[simp] theorem exec_tlook (d a wa s) : exec (.tlook d a wa) s = execTlook d a wa s := rfl
@[simp] theorem exec_tlookK (d a s) : exec (.tlookK d a) s = execTlookK d a s := rfl
@[simp] theorem exec_tset (d a b wa wb s) : exec (.tset d a b wa wb) s = execTset d a b wa wb s := rfl
@[simp] theorem exec_tinv (a wa s) : exec (.tinv a wa) s = execTinv a wa s := rfl
@[simp] theorem exec_swinit (ka kb s) : exec (.swinit ka kb) s = execSwinit ka kb s := rfl
@[simp] theorem exec_swadd (sc ka kb s) : exec (.swadd sc ka kb) s = execSwadd sc ka kb s := rfl
@[simp] theorem exec_swait (sc ka kb s) : exec (.swait sc ka kb) s = execSwait sc ka kb s := rfl
@[simp] theorem exec_waitc (c n s) : exec (.waitc c n) s = execWaitc c n s := rfl
@[simp] theorem exec_bar (n s) : exec (.bar n) s = execBar n s := rfl
@[simp] theorem exec_bara (n s) : exec (.bara n) s = execBara n s := rfl
@[simp] theorem exec_barw (n s) : exec (.barw n) s = execBarw n s := rfl
@[simp] theorem exec_trig (s) : exec (.trig) s = execTrig s := rfl
@[simp] theorem exec_launch (ka s) : exec (.launch ka) s = execLaunch ka s := rfl
@[simp] theorem exec_detep (s) : exec (.detep) s = execDetep s := rfl
@[simp] theorem exec_copy (ka s) : exec (.copy ka) s = execCopy ka s := rfl
@[simp] theorem exec_skip (ka s) : exec (.skip ka) s = execSkip ka s := rfl
@[simp] theorem exec_engq (kd ka s) : exec (.engq kd ka) s = execEngq kd ka s := rfl
@[simp] theorem exec_rld (d a wa s) : exec (.rld d a wa) s = execRld d a wa s := rfl
@[simp] theorem exec_rst (f a b wa wb s) : exec (.rst f a b wa wb) s = execRst f a b wa wb s := rfl
@[simp] theorem exec_raadd (d a b wa wb s) : exec (.raadd d a b wa wb) s = execRaadd d a b wa wb s := rfl
@[simp] theorem exec_raaddD (a b wa wb s) : exec (.raaddD a b wa wb) s = execRaaddD a b wa wb s := rfl
@[simp] theorem exec_rcas (d a b wa wb s) : exec (.rcas d a b wa wb) s = execRcas d a b wa wb s := rfl
@[simp] theorem exec_stmp (d a b wa wb s) : exec (.stmp d a b wa wb) s = execStmp d a b wa wb s := rfl
@[simp] theorem exec_ldat (d a b wa wb s) : exec (.ldat d a b wa wb) s = execLdat d a b wa wb s := rfl
@[simp] theorem exec_time (kd s) : exec (.time kd) s = execTime kd s := rfl
@[simp] theorem exec_mma (bank a kb wa reuse la clear s) : exec (.mma bank a kb wa reuse la clear) s = execMma bank a kb wa reuse la clear s := rfl
@[simp] theorem exec_mmaResultWrite (core s) : exec (.mmaResultWrite core) s = execMmaResultWrite core s := rfl
@[simp] theorem exec_mclr (bank s) : exec (.mclr bank) s = execMclr bank s := rfl
@[simp] theorem exec_mst (bank ka s) : exec (.mst bank ka) s = execMst bank ka s := rfl
@[simp] theorem exec_mrd (d bank kb s) : exec (.mrd d bank kb) s = execMrd d bank kb s := rfl
@[simp] theorem exec_obres (kd ka s) : exec (.obres kd ka) s = execObres kd ka s := rfl
@[simp] theorem exec_obrel (ka s) : exec (.obrel ka) s = execObrel ka s := rfl
@[simp] theorem exec_obld (ka kb s) : exec (.obld ka kb) s = execObld ka kb s := rfl
@[simp] theorem exec_obldFillEnd (core rec s) : exec (.obldFillEnd core rec) s = execObldFillEnd core rec s := rfl
@[simp] theorem exec_mstat (kd bank s) : exec (.mstat kd bank) s = execMstat kd bank s := rfl
@[simp] theorem exec_promotion (core quad s) : exec (.promotion core quad) s = execPromotion core quad s := rfl
@[simp] theorem exec_rotation (core quad s) : exec (.rotation core quad) s = execRotation core quad s := rfl
@[simp] theorem exec_watchdogExpiry (team gang sub s) : exec (.watchdogExpiry team gang sub) s = execWatchdogExpiry team gang sub s := rfl
@[simp] theorem exec_trapRingSpace (part consumer s) : exec (.trapRingSpace part consumer) s = execTrapRingSpace part consumer s := rfl
@[simp] theorem exec_logRecordWrite (team gang s) : exec (.logRecordWrite team gang) s = execLogRecordWrite team gang s := rfl
@[simp] theorem exec_remoteLanding (op lane reply s) : exec (.remoteLanding op lane reply) s = execRemoteLanding op lane reply s := rfl
@[simp] theorem exec_remoteAcknowledgement (op lane reply s) : exec (.remoteAcknowledgement op lane reply) s = execRemoteAcknowledgement op lane reply s := rfl
@[simp] theorem exec_homeRequest (r s) : exec (.homeRequest r) s = execHomeRequest r s := rfl
@[simp] theorem exec_stampedStoreArrival (r s) : exec (.stampedStoreArrival r) s = execStampedStoreArrival r s := rfl
@[simp] theorem exec_commitWaitEnd (op s) : exec (.commitWaitEnd op) s = execCommitWaitEnd op s := rfl
@[simp] theorem exec_stampedReleaseArrival (r suspect s) : exec (.stampedReleaseArrival r suspect) s = execStampedReleaseArrival r suspect s := rfl
@[simp] theorem exec_ldatReaderWaitEnd (op lane s) : exec (.ldatReaderWaitEnd op lane) s = execLdatReaderWaitEnd op lane s := rfl
@[simp] theorem exec_ldatServe (r s) : exec (.ldatServe r) s = execLdatServe r s := rfl
@[simp] theorem exec_suspectMark (va part window stamp s) : exec (.suspectMark va part window stamp) s = execSuspectMark va part window stamp s := rfl
@[simp] theorem exec_copye (cmd s) : exec (.copye cmd) s = execCopye cmd s := rfl
@[simp] theorem exec_fill (cmd s) : exec (.fill cmd) s = execFill cmd s := rfl
@[simp] theorem exec_swadde (cmd s) : exec (.swadde cmd) s = execSwadde cmd s := rfl
@[simp] theorem exec_loope (cmd s) : exec (.loope cmd) s = execLoope cmd s := rfl
@[simp] theorem exec_conde (cmd s) : exec (.conde cmd) s = execConde cmd s := rfl
@[simp] theorem exec_next (cmd s) : exec (.next cmd) s = execNext cmd s := rfl
@[simp] theorem exec_stop (cmd s) : exec (.stop cmd) s = execStop cmd s := rfl
@[simp] theorem exec_copyChunk (cmd pod s) : exec (.copyChunk cmd pod) s = execCopyChunk cmd pod s := rfl
@[simp] theorem exec_chainStop (cmd s) : exec (.chainStop cmd) s = execChainStop cmd s := rfl
@[simp] theorem exec_skipperChunk (cmd s) : exec (.skipperChunk cmd) s = execSkipperChunk cmd s := rfl
@[simp] theorem exec_skipperStop (cmd s) : exec (.skipperStop cmd) s = execSkipperStop cmd s := rfl
@[simp] theorem exec_frontEndEntry (part prio entry stores s) : exec (.frontEndEntry part prio entry stores) s = execFrontEndEntry part prio entry stores s := rfl
@[simp] theorem exec_dispatchTeam (part s) : exec (.dispatchTeam part) s = execDispatchTeam part s := rfl
@[simp] theorem exec_teamRetirement (team s) : exec (.teamRetirement team) s = execTeamRetirement team s := rfl
@[simp] theorem exec_thermalMigration (core coolest s) : exec (.thermalMigration core coolest) s = execThermalMigration core coolest s := rfl
@[simp] theorem exec_timebaseTick (s) : exec (.timebaseTick) s = execTimebaseTick s := rfl
@[simp] theorem exec_timeTransfer (links s) : exec (.timeTransfer links) s = execTimeTransfer links s := rfl
@[simp] theorem exec_oscillatorFault (s) : exec (.oscillatorFault) s = execOscillatorFault s := rfl
@[simp] theorem exec_timebaseConfig (epsCommit epsFail lam s) : exec (.timebaseConfig epsCommit epsFail lam) s = execTimebaseConfig epsCommit epsFail lam s := rfl
@[simp] theorem exec_rejoin (links s) : exec (.rejoin links) s = execRejoin links s := rfl
@[simp] theorem exec_rejoinWaitEnd (s) : exec (.rejoinWaitEnd) s = execRejoinWaitEnd s := rfl
@[simp] theorem exec_create (block stores s) : exec (.create block stores) s = execCreate block stores s := rfl
@[simp] theorem exec_destroy (part s) : exec (.destroy part) s = execDestroy part s := rfl
@[simp] theorem exec_invalidate (part va len stores s) : exec (.invalidate part va len stores) s = execInvalidate part va len stores s := rfl
@[simp] theorem exec_wopen (w part base limit key r wr s) : exec (.wopen w part base limit key r wr) s = execWopen w part base limit key r wr s := rfl
@[simp] theorem exec_grant (part device w key s) : exec (.grant part device w key) s = execGrant part device w key s := rfl
@[simp] theorem exec_ungrant (part device w s) : exec (.ungrant part device w) s = execUngrant part device w s := rfl
@[simp] theorem exec_wrevoke (w s) : exec (.wrevoke w) s = execWrevoke w s := rfl
@[simp] theorem exec_wrevokeDrainEnd (w s) : exec (.wrevokeDrainEnd w) s = execWrevokeDrainEnd w s := rfl
@[simp] theorem exec_usage (part s) : exec (.usage part) s = execUsage part s := rfl
@[simp] theorem exec_periodicUsageRecord (part s) : exec (.periodicUsageRecord part) s = execPeriodicUsageRecord part s := rfl
@[simp] theorem exec_hbmunitsSample (s) : exec (.hbmunitsSample) s = execHbmunitsSample s := rfl
@[simp] theorem exec_attest (part nonce s) : exec (.attest part nonce) s = execAttest part nonce s := rfl
@[simp] theorem exec_setrings (part base n logBase logN s) : exec (.setrings part base n logBase logN) s = execSetrings part base n logBase logN s := rfl
@[simp] theorem exec_pageZeroing (part va s) : exec (.pageZeroing part va) s = execPageZeroing part va s := rfl
@[simp] theorem exec_zeroingComplete (part va s) : exec (.zeroingComplete part va) s = execZeroingComplete part va s := rfl
@[simp] theorem exec_pageIn (part va s) : exec (.pageIn part va) s = execPageIn part va s := rfl
@[simp] theorem exec_save (team area deadline s) : exec (.save team area deadline) s = execSave team area deadline s := rfl
@[simp] theorem exec_saveDeadline (team s) : exec (.saveDeadline team) s = execSaveDeadline team s := rfl
@[simp] theorem exec_restore (team core area s) : exec (.restore team core area) s = execRestore team core area s := rfl
@[simp] theorem exec_resume (team gang sub s) : exec (.resume team gang sub) s = execResume team gang sub s := rfl
@[simp] theorem exec_kernelSkip (team gang sub s) : exec (.kernelSkip team gang sub) s = execKernelSkip team gang sub s := rfl
@[simp] theorem exec_kill (team s) : exec (.kill team) s = execKill team s := rfl
@[simp] theorem exec_contextStateRead (team item s) : exec (.contextStateRead team item) s = execContextStateRead team item s := rfl
@[simp] theorem exec_contextStateWrite (team item v s) : exec (.contextStateWrite team item v) s = execContextStateWrite team item v s := rfl
@[simp] theorem exec_sramScrub (store addr find s) : exec (.sramScrub store addr find) s = execSramScrub store addr find s := rfl
@[simp] theorem exec_patrolScrub (addr find s) : exec (.patrolScrub addr find) s = execPatrolScrub addr find s := rfl
@[simp] theorem exec_healthRecord (base n samples s) : exec (.healthRecord base n samples) s = execHealthRecord base n samples s := rfl
@[simp] theorem exec_kernelRestart (cause s) : exec (.kernelRestart cause) s = execKernelRestart cause s := rfl
@[simp] theorem exec_moduleReset (s) : exec (.moduleReset) s = execModuleReset s := rfl
@[simp] theorem exec_boot (failed s) : exec (.boot failed) s = execBoot failed s := rfl
@[simp] theorem exec_firmwareImageWrite (image s) : exec (.firmwareImageWrite image) s = execFirmwareImageWrite image s := rfl
@[simp] theorem exec_powerCap (s) : exec (.powerCap) s = execPowerCap s := rfl
@[simp] theorem exec_dieOvertempThrottle (die s) : exec (.dieOvertempThrottle die) s = execDieOvertempThrottle die s := rfl
@[simp] theorem exec_dieOvertempTrip (die s) : exec (.dieOvertempTrip die) s = execDieOvertempTrip die s := rfl
@[simp] theorem exec_fabricPortDisable (port s) : exec (.fabricPortDisable port) s = execFabricPortDisable port s := rfl
@[simp] theorem exec_linkRetrain (link s) : exec (.linkRetrain link) s = execLinkRetrain link s := rfl
@[simp] theorem exec_illegalInstructionWord (w s) : exec (.illegalInstructionWord w) s = execIllegalInstructionWord w s := rfl
@[simp] theorem exec_coreBackBelowLimit (core s) : exec (.coreBackBelowLimit core) s = execCoreBackBelowLimit core s := rfl
@[simp] theorem exec_thermalLimitSet (core limit s) : exec (.thermalLimitSet core limit) s = execThermalLimitSet core limit s := rfl
@[simp] theorem exec_powerEstimateFalls (s) : exec (.powerEstimateFalls) s = execPowerEstimateFalls s := rfl
@[simp] theorem exec_usageRingSpace (part consumer s) : exec (.usageRingSpace part consumer) s = execUsageRingSpace part consumer s := rfl

end Sys2Proof.Machine
end

