-- ==== Sys2Proof/Laws/State.lean ====
section
/-!
SUPPORT. What each update of the state leaves alone and what it sets, field by field, and the laws of the banks of like things,
so that no later proof unfolds a record update.
-/
namespace Sys2Proof

/-! ### Banks -/

/-- A position replaced reads as it was set. -/
@[simp] theorem rowGet_rowPut_same {α : Type} (d : α) : ∀ (l : List α) (i : Nat) (y : α), rowGet d (rowPut d l i y) i = y
  | [], 0, _ => rfl
  | [], i + 1, y => rowGet_rowPut_same d [] i y
  | _ :: _, 0, _ => rfl
  | _ :: t, i + 1, y => rowGet_rowPut_same d t i y

/-- Every other position reads as before. -/
theorem rowGet_rowPut_other {α : Type} (d : α) : ∀ (l : List α) {i j : Nat} (y : α), i ≠ j →
    rowGet d (rowPut d l i y) j = rowGet d l j
  | [], 0, 0, _, h => absurd rfl h
  | [], 0, _ + 1, _, _ => rfl
  | [], _ + 1, 0, _, _ => rfl
  | [], i + 1, j + 1, y, h => rowGet_rowPut_other d [] (i := i) (j := j) y (fun e => h (by rw [e]))
  | _ :: _, 0, 0, _, h => absurd rfl h
  | _ :: _, 0, _ + 1, _, _ => rfl
  | _ :: _, _ + 1, 0, _, _ => rfl
  | _ :: t, i + 1, j + 1, y, h => rowGet_rowPut_other d t (i := i) (j := j) y (fun e => h (by rw [e]))

/-- A position changed reads as the change gives. -/
@[simp] theorem rowGet_rowMod_same {α : Type} (d : α) (l : List α) (i : Nat) (f : α → α) :
    rowGet d (rowMod d l i f) i = f (rowGet d l i) := rowGet_rowPut_same d l i _

/-- Every other position reads as before. -/
theorem rowGet_rowMod_other {α : Type} (d : α) (l : List α) {i j : Nat} (f : α → α) (h : i ≠ j) :
    rowGet d (rowMod d l i f) j = rowGet d l j := rowGet_rowPut_other d l _ h

/-- The numbers below a bound. -/
@[simp] theorem mem_upTo {n i : Nat} : i ∈ upTo n ↔ i < n := by
  induction n with
  | zero => simp [upTo]
  | succ n ih => simp [upTo, ih]; omega

/-- The list of numbers is as long as its bound. -/
@[simp] theorem upTo_length (n : Nat) : (upTo n).length = n := by
  induction n with
  | zero => rfl
  | succ n ih => simp [upTo, ih]

/-- A list made position by position reads as the function gives. -/
theorem rowGet_map_upTo {α : Type} (d : α) (f : Nat → α) : ∀ {n i : Nat}, i < n → rowGet d ((upTo n).map f) i = f i := by
  have append : ∀ (l l' : List α) (i : Nat), i < l.length → rowGet d (l ++ l') i = rowGet d l i := by
    intro l
    induction l with
    | nil => intro l' i h; simp at h
    | cons x t ih =>
      intro l' i h
      cases i with
      | zero => rfl
      | succ i => exact ih l' i (by simpa using h)
  have last : ∀ (l : List α) (x : α), rowGet d (l ++ [x]) l.length = x := by
    intro l
    induction l with
    | nil => intro x; rfl
    | cons y t ih => intro x; exact ih x
  intro n
  induction n with
  | zero => intro i h; omega
  | succ n ih =>
    intro i h
    simp only [upTo, List.map_append, List.map_cons, List.map_nil]
    by_cases hi : i < n
    · rw [append _ _ _ (by simpa using hi), ih hi]
    · have : i = ((upTo n).map f).length := by simp; omega
      rw [this, last]
      simp

end Sys2Proof

namespace Sys2Proof.Machine

open Sys2Proof

/-! ### modTeam -/

@[simp] theorem State.modTeam_phase (s : State) (u : Nat) (f : Team → Team) : (s.modTeam u f).phase = s.phase := rfl
@[simp] theorem State.modTeam_cycle (s : State) (u : Nat) (f : Team → Team) : (s.modTeam u f).cycle = s.cycle := rfl
@[simp] theorem State.modTeam_teams (s : State) (u : Nat) (f : Team → Team) : (s.modTeam u f).teams = rowMod {} s.teams u f := rfl
@[simp] theorem State.modTeam_grids (s : State) (u : Nat) (f : Team → Team) : (s.modTeam u f).grids = s.grids := rfl
@[simp] theorem State.modTeam_cores (s : State) (u : Nat) (f : Team → Team) : (s.modTeam u f).cores = s.cores := rfl
@[simp] theorem State.modTeam_parts (s : State) (u : Nat) (f : Team → Team) : (s.modTeam u f).parts = s.parts := rfl
@[simp] theorem State.modTeam_spad (s : State) (u : Nat) (f : Team → Team) : (s.modTeam u f).spad = s.spad := rfl
@[simp] theorem State.modTeam_obuf (s : State) (u : Nat) (f : Team → Team) : (s.modTeam u f).obuf = s.obuf := rfl
@[simp] theorem State.modTeam_hbm (s : State) (u : Nat) (f : Team → Team) : (s.modTeam u f).hbm = s.hbm := rfl
@[simp] theorem State.modTeam_far (s : State) (u : Nat) (f : Team → Team) : (s.modTeam u f).far = s.far := rfl
@[simp] theorem State.modTeam_kmem (s : State) (u : Nat) (f : Team → Team) : (s.modTeam u f).kmem = s.kmem := rfl
@[simp] theorem State.modTeam_staging (s : State) (u : Nat) (f : Team → Team) : (s.modTeam u f).staging = s.staging := rfl
@[simp] theorem State.modTeam_bad (s : State) (u : Nat) (f : Team → Team) : (s.modTeam u f).bad = s.bad := rfl
@[simp] theorem State.modTeam_syncCodes (s : State) (u : Nat) (f : Team → Team) : (s.modTeam u f).syncCodes = s.syncCodes := rfl
@[simp] theorem State.modTeam_ops (s : State) (u : Nat) (f : Team → Team) : (s.modTeam u f).ops = s.ops := rfl
@[simp] theorem State.modTeam_pendings (s : State) (u : Nat) (f : Team → Team) : (s.modTeam u f).pendings = s.pendings := rfl
@[simp] theorem State.modTeam_inbound (s : State) (u : Nat) (f : Team → Team) : (s.modTeam u f).inbound = s.inbound := rfl
@[simp] theorem State.modTeam_cmds (s : State) (u : Nat) (f : Team → Team) : (s.modTeam u f).cmds = s.cmds := rfl
@[simp] theorem State.modTeam_suspects (s : State) (u : Nat) (f : Team → Team) : (s.modTeam u f).suspects = s.suspects := rfl
@[simp] theorem State.modTeam_suspectFull (s : State) (u : Nat) (f : Team → Team) : (s.modTeam u f).suspectFull = s.suspectFull := rfl
@[simp] theorem State.modTeam_discards (s : State) (u : Nat) (f : Team → Team) : (s.modTeam u f).discards = s.discards := rfl
@[simp] theorem State.modTeam_tb (s : State) (u : Nat) (f : Team → Team) : (s.modTeam u f).tb = s.tb := rfl
@[simp] theorem State.modTeam_windows (s : State) (u : Nat) (f : Team → Team) : (s.modTeam u f).windows = s.windows := rfl
@[simp] theorem State.modTeam_grants (s : State) (u : Nat) (f : Team → Team) : (s.modTeam u f).grants = s.grants := rfl
@[simp] theorem State.modTeam_zeroing (s : State) (u : Nat) (f : Team → Team) : (s.modTeam u f).zeroing = s.zeroing := rfl
@[simp] theorem State.modTeam_zPending (s : State) (u : Nat) (f : Team → Team) : (s.modTeam u f).zPending = s.zPending := rfl
@[simp] theorem State.modTeam_pageIns (s : State) (u : Nat) (f : Team → Team) : (s.modTeam u f).pageIns = s.pageIns := rfl
@[simp] theorem State.modTeam_drains (s : State) (u : Nat) (f : Team → Team) : (s.modTeam u f).drains = s.drains := rfl
@[simp] theorem State.modTeam_epochNext (s : State) (u : Nat) (f : Team → Team) : (s.modTeam u f).epochNext = s.epochNext := rfl
@[simp] theorem State.modTeam_epochMax (s : State) (u : Nat) (f : Team → Team) : (s.modTeam u f).epochMax = s.epochMax := rfl
@[simp] theorem State.modTeam_fwmeas (s : State) (u : Nat) (f : Team → Team) : (s.modTeam u f).fwmeas = s.fwmeas := rfl
@[simp] theorem State.modTeam_firmware (s : State) (u : Nat) (f : Team → Team) : (s.modTeam u f).firmware = s.firmware := rfl
@[simp] theorem State.modTeam_flashOk (s : State) (u : Nat) (f : Team → Team) : (s.modTeam u f).flashOk = s.flashOk := rfl
@[simp] theorem State.modTeam_disabled (s : State) (u : Nat) (f : Team → Team) : (s.modTeam u f).disabled = s.disabled := rfl
@[simp] theorem State.modTeam_serial (s : State) (u : Nat) (f : Team → Team) : (s.modTeam u f).serial = s.serial := rfl
@[simp] theorem State.modTeam_identityKey (s : State) (u : Nat) (f : Team → Team) : (s.modTeam u f).identityKey = s.identityKey := rfl
@[simp] theorem State.modTeam_certificates (s : State) (u : Nat) (f : Team → Team) : (s.modTeam u f).certificates = s.certificates := rfl
@[simp] theorem State.modTeam_devid (s : State) (u : Nat) (f : Team → Team) : (s.modTeam u f).devid = s.devid := rfl
@[simp] theorem State.modTeam_nclusterMap (s : State) (u : Nat) (f : Team → Team) : (s.modTeam u f).nclusterMap = s.nclusterMap := rfl
@[simp] theorem State.modTeam_nchan (s : State) (u : Nat) (f : Team → Team) : (s.modTeam u f).nchan = s.nchan := rfl
@[simp] theorem State.modTeam_powerCap (s : State) (u : Nat) (f : Team → Team) : (s.modTeam u f).powerCap = s.powerCap := rfl
@[simp] theorem State.modTeam_dieHot (s : State) (u : Nat) (f : Team → Team) : (s.modTeam u f).dieHot = s.dieHot := rfl
@[simp] theorem State.modTeam_portsOff (s : State) (u : Nat) (f : Team → Team) : (s.modTeam u f).portsOff = s.portsOff := rfl
@[simp] theorem State.modTeam_retrains (s : State) (u : Nat) (f : Team → Team) : (s.modTeam u f).retrains = s.retrains := rfl
@[simp] theorem State.modTeam_corrections (s : State) (u : Nat) (f : Team → Team) : (s.modTeam u f).corrections = s.corrections := rfl
@[simp] theorem State.modTeam_uncorrectable (s : State) (u : Nat) (f : Team → Team) : (s.modTeam u f).uncorrectable = s.uncorrectable := rfl
@[simp] theorem State.modTeam_restartEnd (s : State) (u : Nat) (f : Team → Team) : (s.modTeam u f).restartEnd = s.restartEnd := rfl
@[simp] theorem State.modTeam_unitsDue (s : State) (u : Nat) (f : Team → Team) : (s.modTeam u f).unitsDue = s.unitsDue := rfl
@[simp] theorem State.modTeam_outbox (s : State) (u : Nat) (f : Team → Team) : (s.modTeam u f).outbox = s.outbox := rfl
@[simp] theorem State.modTeam_notices (s : State) (u : Nat) (f : Team → Team) : (s.modTeam u f).notices = s.notices := rfl
@[simp] theorem State.modTeam_saves (s : State) (u : Nat) (f : Team → Team) : (s.modTeam u f).saves = s.saves := rfl
@[simp] theorem State.modTeam_order (s : State) (u : Nat) (f : Team → Team) : (s.modTeam u f).order = s.order := rfl
@[simp] theorem State.modTeam_agenda (s : State) (u : Nat) (f : Team → Team) : (s.modTeam u f).agenda = s.agenda := rfl
@[simp] theorem State.modTeam_issuer (s : State) (u : Nat) (f : Team → Team) : (s.modTeam u f).issuer = s.issuer := rfl
@[simp] theorem State.modTeam_pair (s : State) (u : Nat) (f : Team → Team) : (s.modTeam u f).pair = s.pair := rfl
@[simp] theorem State.modTeam_beat (s : State) (u : Nat) (f : Team → Team) : (s.modTeam u f).beat = s.beat := rfl
@[simp] theorem State.modTeam_turn (s : State) (u : Nat) (f : Team → Team) : (s.modTeam u f).turn = s.turn := rfl
@[simp] theorem State.modTeam_fresh (s : State) (u : Nat) (f : Team → Team) : (s.modTeam u f).fresh = s.fresh := rfl

/-! ### modGrid -/

@[simp] theorem State.modGrid_phase (s : State) (g : Nat) (f : Grid → Grid) : (s.modGrid g f).phase = s.phase := rfl
@[simp] theorem State.modGrid_cycle (s : State) (g : Nat) (f : Grid → Grid) : (s.modGrid g f).cycle = s.cycle := rfl
@[simp] theorem State.modGrid_teams (s : State) (g : Nat) (f : Grid → Grid) : (s.modGrid g f).teams = s.teams := rfl
@[simp] theorem State.modGrid_grids (s : State) (g : Nat) (f : Grid → Grid) : (s.modGrid g f).grids = rowMod {} s.grids g f := rfl
@[simp] theorem State.modGrid_cores (s : State) (g : Nat) (f : Grid → Grid) : (s.modGrid g f).cores = s.cores := rfl
@[simp] theorem State.modGrid_parts (s : State) (g : Nat) (f : Grid → Grid) : (s.modGrid g f).parts = s.parts := rfl
@[simp] theorem State.modGrid_spad (s : State) (g : Nat) (f : Grid → Grid) : (s.modGrid g f).spad = s.spad := rfl
@[simp] theorem State.modGrid_obuf (s : State) (g : Nat) (f : Grid → Grid) : (s.modGrid g f).obuf = s.obuf := rfl
@[simp] theorem State.modGrid_hbm (s : State) (g : Nat) (f : Grid → Grid) : (s.modGrid g f).hbm = s.hbm := rfl
@[simp] theorem State.modGrid_far (s : State) (g : Nat) (f : Grid → Grid) : (s.modGrid g f).far = s.far := rfl
@[simp] theorem State.modGrid_kmem (s : State) (g : Nat) (f : Grid → Grid) : (s.modGrid g f).kmem = s.kmem := rfl
@[simp] theorem State.modGrid_staging (s : State) (g : Nat) (f : Grid → Grid) : (s.modGrid g f).staging = s.staging := rfl
@[simp] theorem State.modGrid_bad (s : State) (g : Nat) (f : Grid → Grid) : (s.modGrid g f).bad = s.bad := rfl
@[simp] theorem State.modGrid_syncCodes (s : State) (g : Nat) (f : Grid → Grid) : (s.modGrid g f).syncCodes = s.syncCodes := rfl
@[simp] theorem State.modGrid_ops (s : State) (g : Nat) (f : Grid → Grid) : (s.modGrid g f).ops = s.ops := rfl
@[simp] theorem State.modGrid_pendings (s : State) (g : Nat) (f : Grid → Grid) : (s.modGrid g f).pendings = s.pendings := rfl
@[simp] theorem State.modGrid_inbound (s : State) (g : Nat) (f : Grid → Grid) : (s.modGrid g f).inbound = s.inbound := rfl
@[simp] theorem State.modGrid_cmds (s : State) (g : Nat) (f : Grid → Grid) : (s.modGrid g f).cmds = s.cmds := rfl
@[simp] theorem State.modGrid_suspects (s : State) (g : Nat) (f : Grid → Grid) : (s.modGrid g f).suspects = s.suspects := rfl
@[simp] theorem State.modGrid_suspectFull (s : State) (g : Nat) (f : Grid → Grid) : (s.modGrid g f).suspectFull = s.suspectFull := rfl
@[simp] theorem State.modGrid_discards (s : State) (g : Nat) (f : Grid → Grid) : (s.modGrid g f).discards = s.discards := rfl
@[simp] theorem State.modGrid_tb (s : State) (g : Nat) (f : Grid → Grid) : (s.modGrid g f).tb = s.tb := rfl
@[simp] theorem State.modGrid_windows (s : State) (g : Nat) (f : Grid → Grid) : (s.modGrid g f).windows = s.windows := rfl
@[simp] theorem State.modGrid_grants (s : State) (g : Nat) (f : Grid → Grid) : (s.modGrid g f).grants = s.grants := rfl
@[simp] theorem State.modGrid_zeroing (s : State) (g : Nat) (f : Grid → Grid) : (s.modGrid g f).zeroing = s.zeroing := rfl
@[simp] theorem State.modGrid_zPending (s : State) (g : Nat) (f : Grid → Grid) : (s.modGrid g f).zPending = s.zPending := rfl
@[simp] theorem State.modGrid_pageIns (s : State) (g : Nat) (f : Grid → Grid) : (s.modGrid g f).pageIns = s.pageIns := rfl
@[simp] theorem State.modGrid_drains (s : State) (g : Nat) (f : Grid → Grid) : (s.modGrid g f).drains = s.drains := rfl
@[simp] theorem State.modGrid_epochNext (s : State) (g : Nat) (f : Grid → Grid) : (s.modGrid g f).epochNext = s.epochNext := rfl
@[simp] theorem State.modGrid_epochMax (s : State) (g : Nat) (f : Grid → Grid) : (s.modGrid g f).epochMax = s.epochMax := rfl
@[simp] theorem State.modGrid_fwmeas (s : State) (g : Nat) (f : Grid → Grid) : (s.modGrid g f).fwmeas = s.fwmeas := rfl
@[simp] theorem State.modGrid_firmware (s : State) (g : Nat) (f : Grid → Grid) : (s.modGrid g f).firmware = s.firmware := rfl
@[simp] theorem State.modGrid_flashOk (s : State) (g : Nat) (f : Grid → Grid) : (s.modGrid g f).flashOk = s.flashOk := rfl
@[simp] theorem State.modGrid_disabled (s : State) (g : Nat) (f : Grid → Grid) : (s.modGrid g f).disabled = s.disabled := rfl
@[simp] theorem State.modGrid_serial (s : State) (g : Nat) (f : Grid → Grid) : (s.modGrid g f).serial = s.serial := rfl
@[simp] theorem State.modGrid_identityKey (s : State) (g : Nat) (f : Grid → Grid) : (s.modGrid g f).identityKey = s.identityKey := rfl
@[simp] theorem State.modGrid_certificates (s : State) (g : Nat) (f : Grid → Grid) : (s.modGrid g f).certificates = s.certificates := rfl
@[simp] theorem State.modGrid_devid (s : State) (g : Nat) (f : Grid → Grid) : (s.modGrid g f).devid = s.devid := rfl
@[simp] theorem State.modGrid_nclusterMap (s : State) (g : Nat) (f : Grid → Grid) : (s.modGrid g f).nclusterMap = s.nclusterMap := rfl
@[simp] theorem State.modGrid_nchan (s : State) (g : Nat) (f : Grid → Grid) : (s.modGrid g f).nchan = s.nchan := rfl
@[simp] theorem State.modGrid_powerCap (s : State) (g : Nat) (f : Grid → Grid) : (s.modGrid g f).powerCap = s.powerCap := rfl
@[simp] theorem State.modGrid_dieHot (s : State) (g : Nat) (f : Grid → Grid) : (s.modGrid g f).dieHot = s.dieHot := rfl
@[simp] theorem State.modGrid_portsOff (s : State) (g : Nat) (f : Grid → Grid) : (s.modGrid g f).portsOff = s.portsOff := rfl
@[simp] theorem State.modGrid_retrains (s : State) (g : Nat) (f : Grid → Grid) : (s.modGrid g f).retrains = s.retrains := rfl
@[simp] theorem State.modGrid_corrections (s : State) (g : Nat) (f : Grid → Grid) : (s.modGrid g f).corrections = s.corrections := rfl
@[simp] theorem State.modGrid_uncorrectable (s : State) (g : Nat) (f : Grid → Grid) : (s.modGrid g f).uncorrectable = s.uncorrectable := rfl
@[simp] theorem State.modGrid_restartEnd (s : State) (g : Nat) (f : Grid → Grid) : (s.modGrid g f).restartEnd = s.restartEnd := rfl
@[simp] theorem State.modGrid_unitsDue (s : State) (g : Nat) (f : Grid → Grid) : (s.modGrid g f).unitsDue = s.unitsDue := rfl
@[simp] theorem State.modGrid_outbox (s : State) (g : Nat) (f : Grid → Grid) : (s.modGrid g f).outbox = s.outbox := rfl
@[simp] theorem State.modGrid_notices (s : State) (g : Nat) (f : Grid → Grid) : (s.modGrid g f).notices = s.notices := rfl
@[simp] theorem State.modGrid_saves (s : State) (g : Nat) (f : Grid → Grid) : (s.modGrid g f).saves = s.saves := rfl
@[simp] theorem State.modGrid_order (s : State) (g : Nat) (f : Grid → Grid) : (s.modGrid g f).order = s.order := rfl
@[simp] theorem State.modGrid_agenda (s : State) (g : Nat) (f : Grid → Grid) : (s.modGrid g f).agenda = s.agenda := rfl
@[simp] theorem State.modGrid_issuer (s : State) (g : Nat) (f : Grid → Grid) : (s.modGrid g f).issuer = s.issuer := rfl
@[simp] theorem State.modGrid_pair (s : State) (g : Nat) (f : Grid → Grid) : (s.modGrid g f).pair = s.pair := rfl
@[simp] theorem State.modGrid_beat (s : State) (g : Nat) (f : Grid → Grid) : (s.modGrid g f).beat = s.beat := rfl
@[simp] theorem State.modGrid_turn (s : State) (g : Nat) (f : Grid → Grid) : (s.modGrid g f).turn = s.turn := rfl
@[simp] theorem State.modGrid_fresh (s : State) (g : Nat) (f : Grid → Grid) : (s.modGrid g f).fresh = s.fresh := rfl

/-! ### modCore -/

@[simp] theorem State.modCore_phase (s : State) (c : Nat) (f : CoreState → CoreState) : (s.modCore c f).phase = s.phase := rfl
@[simp] theorem State.modCore_cycle (s : State) (c : Nat) (f : CoreState → CoreState) : (s.modCore c f).cycle = s.cycle := rfl
@[simp] theorem State.modCore_teams (s : State) (c : Nat) (f : CoreState → CoreState) : (s.modCore c f).teams = s.teams := rfl
@[simp] theorem State.modCore_grids (s : State) (c : Nat) (f : CoreState → CoreState) : (s.modCore c f).grids = s.grids := rfl
@[simp] theorem State.modCore_cores (s : State) (c : Nat) (f : CoreState → CoreState) : (s.modCore c f).cores = rowMod {} s.cores c f := rfl
@[simp] theorem State.modCore_parts (s : State) (c : Nat) (f : CoreState → CoreState) : (s.modCore c f).parts = s.parts := rfl
@[simp] theorem State.modCore_spad (s : State) (c : Nat) (f : CoreState → CoreState) : (s.modCore c f).spad = s.spad := rfl
@[simp] theorem State.modCore_obuf (s : State) (c : Nat) (f : CoreState → CoreState) : (s.modCore c f).obuf = s.obuf := rfl
@[simp] theorem State.modCore_hbm (s : State) (c : Nat) (f : CoreState → CoreState) : (s.modCore c f).hbm = s.hbm := rfl
@[simp] theorem State.modCore_far (s : State) (c : Nat) (f : CoreState → CoreState) : (s.modCore c f).far = s.far := rfl
@[simp] theorem State.modCore_kmem (s : State) (c : Nat) (f : CoreState → CoreState) : (s.modCore c f).kmem = s.kmem := rfl
@[simp] theorem State.modCore_staging (s : State) (c : Nat) (f : CoreState → CoreState) : (s.modCore c f).staging = s.staging := rfl
@[simp] theorem State.modCore_bad (s : State) (c : Nat) (f : CoreState → CoreState) : (s.modCore c f).bad = s.bad := rfl
@[simp] theorem State.modCore_syncCodes (s : State) (c : Nat) (f : CoreState → CoreState) : (s.modCore c f).syncCodes = s.syncCodes := rfl
@[simp] theorem State.modCore_ops (s : State) (c : Nat) (f : CoreState → CoreState) : (s.modCore c f).ops = s.ops := rfl
@[simp] theorem State.modCore_pendings (s : State) (c : Nat) (f : CoreState → CoreState) : (s.modCore c f).pendings = s.pendings := rfl
@[simp] theorem State.modCore_inbound (s : State) (c : Nat) (f : CoreState → CoreState) : (s.modCore c f).inbound = s.inbound := rfl
@[simp] theorem State.modCore_cmds (s : State) (c : Nat) (f : CoreState → CoreState) : (s.modCore c f).cmds = s.cmds := rfl
@[simp] theorem State.modCore_suspects (s : State) (c : Nat) (f : CoreState → CoreState) : (s.modCore c f).suspects = s.suspects := rfl
@[simp] theorem State.modCore_suspectFull (s : State) (c : Nat) (f : CoreState → CoreState) : (s.modCore c f).suspectFull = s.suspectFull := rfl
@[simp] theorem State.modCore_discards (s : State) (c : Nat) (f : CoreState → CoreState) : (s.modCore c f).discards = s.discards := rfl
@[simp] theorem State.modCore_tb (s : State) (c : Nat) (f : CoreState → CoreState) : (s.modCore c f).tb = s.tb := rfl
@[simp] theorem State.modCore_windows (s : State) (c : Nat) (f : CoreState → CoreState) : (s.modCore c f).windows = s.windows := rfl
@[simp] theorem State.modCore_grants (s : State) (c : Nat) (f : CoreState → CoreState) : (s.modCore c f).grants = s.grants := rfl
@[simp] theorem State.modCore_zeroing (s : State) (c : Nat) (f : CoreState → CoreState) : (s.modCore c f).zeroing = s.zeroing := rfl
@[simp] theorem State.modCore_zPending (s : State) (c : Nat) (f : CoreState → CoreState) : (s.modCore c f).zPending = s.zPending := rfl
@[simp] theorem State.modCore_pageIns (s : State) (c : Nat) (f : CoreState → CoreState) : (s.modCore c f).pageIns = s.pageIns := rfl
@[simp] theorem State.modCore_drains (s : State) (c : Nat) (f : CoreState → CoreState) : (s.modCore c f).drains = s.drains := rfl
@[simp] theorem State.modCore_epochNext (s : State) (c : Nat) (f : CoreState → CoreState) : (s.modCore c f).epochNext = s.epochNext := rfl
@[simp] theorem State.modCore_epochMax (s : State) (c : Nat) (f : CoreState → CoreState) : (s.modCore c f).epochMax = s.epochMax := rfl
@[simp] theorem State.modCore_fwmeas (s : State) (c : Nat) (f : CoreState → CoreState) : (s.modCore c f).fwmeas = s.fwmeas := rfl
@[simp] theorem State.modCore_firmware (s : State) (c : Nat) (f : CoreState → CoreState) : (s.modCore c f).firmware = s.firmware := rfl
@[simp] theorem State.modCore_flashOk (s : State) (c : Nat) (f : CoreState → CoreState) : (s.modCore c f).flashOk = s.flashOk := rfl
@[simp] theorem State.modCore_disabled (s : State) (c : Nat) (f : CoreState → CoreState) : (s.modCore c f).disabled = s.disabled := rfl
@[simp] theorem State.modCore_serial (s : State) (c : Nat) (f : CoreState → CoreState) : (s.modCore c f).serial = s.serial := rfl
@[simp] theorem State.modCore_identityKey (s : State) (c : Nat) (f : CoreState → CoreState) : (s.modCore c f).identityKey = s.identityKey := rfl
@[simp] theorem State.modCore_certificates (s : State) (c : Nat) (f : CoreState → CoreState) : (s.modCore c f).certificates = s.certificates := rfl
@[simp] theorem State.modCore_devid (s : State) (c : Nat) (f : CoreState → CoreState) : (s.modCore c f).devid = s.devid := rfl
@[simp] theorem State.modCore_nclusterMap (s : State) (c : Nat) (f : CoreState → CoreState) : (s.modCore c f).nclusterMap = s.nclusterMap := rfl
@[simp] theorem State.modCore_nchan (s : State) (c : Nat) (f : CoreState → CoreState) : (s.modCore c f).nchan = s.nchan := rfl
@[simp] theorem State.modCore_powerCap (s : State) (c : Nat) (f : CoreState → CoreState) : (s.modCore c f).powerCap = s.powerCap := rfl
@[simp] theorem State.modCore_dieHot (s : State) (c : Nat) (f : CoreState → CoreState) : (s.modCore c f).dieHot = s.dieHot := rfl
@[simp] theorem State.modCore_portsOff (s : State) (c : Nat) (f : CoreState → CoreState) : (s.modCore c f).portsOff = s.portsOff := rfl
@[simp] theorem State.modCore_retrains (s : State) (c : Nat) (f : CoreState → CoreState) : (s.modCore c f).retrains = s.retrains := rfl
@[simp] theorem State.modCore_corrections (s : State) (c : Nat) (f : CoreState → CoreState) : (s.modCore c f).corrections = s.corrections := rfl
@[simp] theorem State.modCore_uncorrectable (s : State) (c : Nat) (f : CoreState → CoreState) : (s.modCore c f).uncorrectable = s.uncorrectable := rfl
@[simp] theorem State.modCore_restartEnd (s : State) (c : Nat) (f : CoreState → CoreState) : (s.modCore c f).restartEnd = s.restartEnd := rfl
@[simp] theorem State.modCore_unitsDue (s : State) (c : Nat) (f : CoreState → CoreState) : (s.modCore c f).unitsDue = s.unitsDue := rfl
@[simp] theorem State.modCore_outbox (s : State) (c : Nat) (f : CoreState → CoreState) : (s.modCore c f).outbox = s.outbox := rfl
@[simp] theorem State.modCore_notices (s : State) (c : Nat) (f : CoreState → CoreState) : (s.modCore c f).notices = s.notices := rfl
@[simp] theorem State.modCore_saves (s : State) (c : Nat) (f : CoreState → CoreState) : (s.modCore c f).saves = s.saves := rfl
@[simp] theorem State.modCore_order (s : State) (c : Nat) (f : CoreState → CoreState) : (s.modCore c f).order = s.order := rfl
@[simp] theorem State.modCore_agenda (s : State) (c : Nat) (f : CoreState → CoreState) : (s.modCore c f).agenda = s.agenda := rfl
@[simp] theorem State.modCore_issuer (s : State) (c : Nat) (f : CoreState → CoreState) : (s.modCore c f).issuer = s.issuer := rfl
@[simp] theorem State.modCore_pair (s : State) (c : Nat) (f : CoreState → CoreState) : (s.modCore c f).pair = s.pair := rfl
@[simp] theorem State.modCore_beat (s : State) (c : Nat) (f : CoreState → CoreState) : (s.modCore c f).beat = s.beat := rfl
@[simp] theorem State.modCore_turn (s : State) (c : Nat) (f : CoreState → CoreState) : (s.modCore c f).turn = s.turn := rfl
@[simp] theorem State.modCore_fresh (s : State) (c : Nat) (f : CoreState → CoreState) : (s.modCore c f).fresh = s.fresh := rfl

/-! ### modPart -/

@[simp] theorem State.modPart_phase (s : State) (p : Nat) (f : Partition → Partition) : (s.modPart p f).phase = s.phase := rfl
@[simp] theorem State.modPart_cycle (s : State) (p : Nat) (f : Partition → Partition) : (s.modPart p f).cycle = s.cycle := rfl
@[simp] theorem State.modPart_teams (s : State) (p : Nat) (f : Partition → Partition) : (s.modPart p f).teams = s.teams := rfl
@[simp] theorem State.modPart_grids (s : State) (p : Nat) (f : Partition → Partition) : (s.modPart p f).grids = s.grids := rfl
@[simp] theorem State.modPart_cores (s : State) (p : Nat) (f : Partition → Partition) : (s.modPart p f).cores = s.cores := rfl
@[simp] theorem State.modPart_parts (s : State) (p : Nat) (f : Partition → Partition) : (s.modPart p f).parts = rowMod {} s.parts p f := rfl
@[simp] theorem State.modPart_spad (s : State) (p : Nat) (f : Partition → Partition) : (s.modPart p f).spad = s.spad := rfl
@[simp] theorem State.modPart_obuf (s : State) (p : Nat) (f : Partition → Partition) : (s.modPart p f).obuf = s.obuf := rfl
@[simp] theorem State.modPart_hbm (s : State) (p : Nat) (f : Partition → Partition) : (s.modPart p f).hbm = s.hbm := rfl
@[simp] theorem State.modPart_far (s : State) (p : Nat) (f : Partition → Partition) : (s.modPart p f).far = s.far := rfl
@[simp] theorem State.modPart_kmem (s : State) (p : Nat) (f : Partition → Partition) : (s.modPart p f).kmem = s.kmem := rfl
@[simp] theorem State.modPart_staging (s : State) (p : Nat) (f : Partition → Partition) : (s.modPart p f).staging = s.staging := rfl
@[simp] theorem State.modPart_bad (s : State) (p : Nat) (f : Partition → Partition) : (s.modPart p f).bad = s.bad := rfl
@[simp] theorem State.modPart_syncCodes (s : State) (p : Nat) (f : Partition → Partition) : (s.modPart p f).syncCodes = s.syncCodes := rfl
@[simp] theorem State.modPart_ops (s : State) (p : Nat) (f : Partition → Partition) : (s.modPart p f).ops = s.ops := rfl
@[simp] theorem State.modPart_pendings (s : State) (p : Nat) (f : Partition → Partition) : (s.modPart p f).pendings = s.pendings := rfl
@[simp] theorem State.modPart_inbound (s : State) (p : Nat) (f : Partition → Partition) : (s.modPart p f).inbound = s.inbound := rfl
@[simp] theorem State.modPart_cmds (s : State) (p : Nat) (f : Partition → Partition) : (s.modPart p f).cmds = s.cmds := rfl
@[simp] theorem State.modPart_suspects (s : State) (p : Nat) (f : Partition → Partition) : (s.modPart p f).suspects = s.suspects := rfl
@[simp] theorem State.modPart_suspectFull (s : State) (p : Nat) (f : Partition → Partition) : (s.modPart p f).suspectFull = s.suspectFull := rfl
@[simp] theorem State.modPart_discards (s : State) (p : Nat) (f : Partition → Partition) : (s.modPart p f).discards = s.discards := rfl
@[simp] theorem State.modPart_tb (s : State) (p : Nat) (f : Partition → Partition) : (s.modPart p f).tb = s.tb := rfl
@[simp] theorem State.modPart_windows (s : State) (p : Nat) (f : Partition → Partition) : (s.modPart p f).windows = s.windows := rfl
@[simp] theorem State.modPart_grants (s : State) (p : Nat) (f : Partition → Partition) : (s.modPart p f).grants = s.grants := rfl
@[simp] theorem State.modPart_zeroing (s : State) (p : Nat) (f : Partition → Partition) : (s.modPart p f).zeroing = s.zeroing := rfl
@[simp] theorem State.modPart_zPending (s : State) (p : Nat) (f : Partition → Partition) : (s.modPart p f).zPending = s.zPending := rfl
@[simp] theorem State.modPart_pageIns (s : State) (p : Nat) (f : Partition → Partition) : (s.modPart p f).pageIns = s.pageIns := rfl
@[simp] theorem State.modPart_drains (s : State) (p : Nat) (f : Partition → Partition) : (s.modPart p f).drains = s.drains := rfl
@[simp] theorem State.modPart_epochNext (s : State) (p : Nat) (f : Partition → Partition) : (s.modPart p f).epochNext = s.epochNext := rfl
@[simp] theorem State.modPart_epochMax (s : State) (p : Nat) (f : Partition → Partition) : (s.modPart p f).epochMax = s.epochMax := rfl
@[simp] theorem State.modPart_fwmeas (s : State) (p : Nat) (f : Partition → Partition) : (s.modPart p f).fwmeas = s.fwmeas := rfl
@[simp] theorem State.modPart_firmware (s : State) (p : Nat) (f : Partition → Partition) : (s.modPart p f).firmware = s.firmware := rfl
@[simp] theorem State.modPart_flashOk (s : State) (p : Nat) (f : Partition → Partition) : (s.modPart p f).flashOk = s.flashOk := rfl
@[simp] theorem State.modPart_disabled (s : State) (p : Nat) (f : Partition → Partition) : (s.modPart p f).disabled = s.disabled := rfl
@[simp] theorem State.modPart_serial (s : State) (p : Nat) (f : Partition → Partition) : (s.modPart p f).serial = s.serial := rfl
@[simp] theorem State.modPart_identityKey (s : State) (p : Nat) (f : Partition → Partition) : (s.modPart p f).identityKey = s.identityKey := rfl
@[simp] theorem State.modPart_certificates (s : State) (p : Nat) (f : Partition → Partition) : (s.modPart p f).certificates = s.certificates := rfl
@[simp] theorem State.modPart_devid (s : State) (p : Nat) (f : Partition → Partition) : (s.modPart p f).devid = s.devid := rfl
@[simp] theorem State.modPart_nclusterMap (s : State) (p : Nat) (f : Partition → Partition) : (s.modPart p f).nclusterMap = s.nclusterMap := rfl
@[simp] theorem State.modPart_nchan (s : State) (p : Nat) (f : Partition → Partition) : (s.modPart p f).nchan = s.nchan := rfl
@[simp] theorem State.modPart_powerCap (s : State) (p : Nat) (f : Partition → Partition) : (s.modPart p f).powerCap = s.powerCap := rfl
@[simp] theorem State.modPart_dieHot (s : State) (p : Nat) (f : Partition → Partition) : (s.modPart p f).dieHot = s.dieHot := rfl
@[simp] theorem State.modPart_portsOff (s : State) (p : Nat) (f : Partition → Partition) : (s.modPart p f).portsOff = s.portsOff := rfl
@[simp] theorem State.modPart_retrains (s : State) (p : Nat) (f : Partition → Partition) : (s.modPart p f).retrains = s.retrains := rfl
@[simp] theorem State.modPart_corrections (s : State) (p : Nat) (f : Partition → Partition) : (s.modPart p f).corrections = s.corrections := rfl
@[simp] theorem State.modPart_uncorrectable (s : State) (p : Nat) (f : Partition → Partition) : (s.modPart p f).uncorrectable = s.uncorrectable := rfl
@[simp] theorem State.modPart_restartEnd (s : State) (p : Nat) (f : Partition → Partition) : (s.modPart p f).restartEnd = s.restartEnd := rfl
@[simp] theorem State.modPart_unitsDue (s : State) (p : Nat) (f : Partition → Partition) : (s.modPart p f).unitsDue = s.unitsDue := rfl
@[simp] theorem State.modPart_outbox (s : State) (p : Nat) (f : Partition → Partition) : (s.modPart p f).outbox = s.outbox := rfl
@[simp] theorem State.modPart_notices (s : State) (p : Nat) (f : Partition → Partition) : (s.modPart p f).notices = s.notices := rfl
@[simp] theorem State.modPart_saves (s : State) (p : Nat) (f : Partition → Partition) : (s.modPart p f).saves = s.saves := rfl
@[simp] theorem State.modPart_order (s : State) (p : Nat) (f : Partition → Partition) : (s.modPart p f).order = s.order := rfl
@[simp] theorem State.modPart_agenda (s : State) (p : Nat) (f : Partition → Partition) : (s.modPart p f).agenda = s.agenda := rfl
@[simp] theorem State.modPart_issuer (s : State) (p : Nat) (f : Partition → Partition) : (s.modPart p f).issuer = s.issuer := rfl
@[simp] theorem State.modPart_pair (s : State) (p : Nat) (f : Partition → Partition) : (s.modPart p f).pair = s.pair := rfl
@[simp] theorem State.modPart_beat (s : State) (p : Nat) (f : Partition → Partition) : (s.modPart p f).beat = s.beat := rfl
@[simp] theorem State.modPart_turn (s : State) (p : Nat) (f : Partition → Partition) : (s.modPart p f).turn = s.turn := rfl
@[simp] theorem State.modPart_fresh (s : State) (p : Nat) (f : Partition → Partition) : (s.modPart p f).fresh = s.fresh := rfl

/-! ### modWindow -/

@[simp] theorem State.modWindow_phase (s : State) (w : Nat) (f : Window → Window) : (s.modWindow w f).phase = s.phase := rfl
@[simp] theorem State.modWindow_cycle (s : State) (w : Nat) (f : Window → Window) : (s.modWindow w f).cycle = s.cycle := rfl
@[simp] theorem State.modWindow_teams (s : State) (w : Nat) (f : Window → Window) : (s.modWindow w f).teams = s.teams := rfl
@[simp] theorem State.modWindow_grids (s : State) (w : Nat) (f : Window → Window) : (s.modWindow w f).grids = s.grids := rfl
@[simp] theorem State.modWindow_cores (s : State) (w : Nat) (f : Window → Window) : (s.modWindow w f).cores = s.cores := rfl
@[simp] theorem State.modWindow_parts (s : State) (w : Nat) (f : Window → Window) : (s.modWindow w f).parts = s.parts := rfl
@[simp] theorem State.modWindow_spad (s : State) (w : Nat) (f : Window → Window) : (s.modWindow w f).spad = s.spad := rfl
@[simp] theorem State.modWindow_obuf (s : State) (w : Nat) (f : Window → Window) : (s.modWindow w f).obuf = s.obuf := rfl
@[simp] theorem State.modWindow_hbm (s : State) (w : Nat) (f : Window → Window) : (s.modWindow w f).hbm = s.hbm := rfl
@[simp] theorem State.modWindow_far (s : State) (w : Nat) (f : Window → Window) : (s.modWindow w f).far = s.far := rfl
@[simp] theorem State.modWindow_kmem (s : State) (w : Nat) (f : Window → Window) : (s.modWindow w f).kmem = s.kmem := rfl
@[simp] theorem State.modWindow_staging (s : State) (w : Nat) (f : Window → Window) : (s.modWindow w f).staging = s.staging := rfl
@[simp] theorem State.modWindow_bad (s : State) (w : Nat) (f : Window → Window) : (s.modWindow w f).bad = s.bad := rfl
@[simp] theorem State.modWindow_syncCodes (s : State) (w : Nat) (f : Window → Window) : (s.modWindow w f).syncCodes = s.syncCodes := rfl
@[simp] theorem State.modWindow_ops (s : State) (w : Nat) (f : Window → Window) : (s.modWindow w f).ops = s.ops := rfl
@[simp] theorem State.modWindow_pendings (s : State) (w : Nat) (f : Window → Window) : (s.modWindow w f).pendings = s.pendings := rfl
@[simp] theorem State.modWindow_inbound (s : State) (w : Nat) (f : Window → Window) : (s.modWindow w f).inbound = s.inbound := rfl
@[simp] theorem State.modWindow_cmds (s : State) (w : Nat) (f : Window → Window) : (s.modWindow w f).cmds = s.cmds := rfl
@[simp] theorem State.modWindow_suspects (s : State) (w : Nat) (f : Window → Window) : (s.modWindow w f).suspects = s.suspects := rfl
@[simp] theorem State.modWindow_suspectFull (s : State) (w : Nat) (f : Window → Window) : (s.modWindow w f).suspectFull = s.suspectFull := rfl
@[simp] theorem State.modWindow_discards (s : State) (w : Nat) (f : Window → Window) : (s.modWindow w f).discards = s.discards := rfl
@[simp] theorem State.modWindow_tb (s : State) (w : Nat) (f : Window → Window) : (s.modWindow w f).tb = s.tb := rfl
@[simp] theorem State.modWindow_windows (s : State) (w : Nat) (f : Window → Window) : (s.modWindow w f).windows = rowMod {} s.windows w f := rfl
@[simp] theorem State.modWindow_grants (s : State) (w : Nat) (f : Window → Window) : (s.modWindow w f).grants = s.grants := rfl
@[simp] theorem State.modWindow_zeroing (s : State) (w : Nat) (f : Window → Window) : (s.modWindow w f).zeroing = s.zeroing := rfl
@[simp] theorem State.modWindow_zPending (s : State) (w : Nat) (f : Window → Window) : (s.modWindow w f).zPending = s.zPending := rfl
@[simp] theorem State.modWindow_pageIns (s : State) (w : Nat) (f : Window → Window) : (s.modWindow w f).pageIns = s.pageIns := rfl
@[simp] theorem State.modWindow_drains (s : State) (w : Nat) (f : Window → Window) : (s.modWindow w f).drains = s.drains := rfl
@[simp] theorem State.modWindow_epochNext (s : State) (w : Nat) (f : Window → Window) : (s.modWindow w f).epochNext = s.epochNext := rfl
@[simp] theorem State.modWindow_epochMax (s : State) (w : Nat) (f : Window → Window) : (s.modWindow w f).epochMax = s.epochMax := rfl
@[simp] theorem State.modWindow_fwmeas (s : State) (w : Nat) (f : Window → Window) : (s.modWindow w f).fwmeas = s.fwmeas := rfl
@[simp] theorem State.modWindow_firmware (s : State) (w : Nat) (f : Window → Window) : (s.modWindow w f).firmware = s.firmware := rfl
@[simp] theorem State.modWindow_flashOk (s : State) (w : Nat) (f : Window → Window) : (s.modWindow w f).flashOk = s.flashOk := rfl
@[simp] theorem State.modWindow_disabled (s : State) (w : Nat) (f : Window → Window) : (s.modWindow w f).disabled = s.disabled := rfl
@[simp] theorem State.modWindow_serial (s : State) (w : Nat) (f : Window → Window) : (s.modWindow w f).serial = s.serial := rfl
@[simp] theorem State.modWindow_identityKey (s : State) (w : Nat) (f : Window → Window) : (s.modWindow w f).identityKey = s.identityKey := rfl
@[simp] theorem State.modWindow_certificates (s : State) (w : Nat) (f : Window → Window) : (s.modWindow w f).certificates = s.certificates := rfl
@[simp] theorem State.modWindow_devid (s : State) (w : Nat) (f : Window → Window) : (s.modWindow w f).devid = s.devid := rfl
@[simp] theorem State.modWindow_nclusterMap (s : State) (w : Nat) (f : Window → Window) : (s.modWindow w f).nclusterMap = s.nclusterMap := rfl
@[simp] theorem State.modWindow_nchan (s : State) (w : Nat) (f : Window → Window) : (s.modWindow w f).nchan = s.nchan := rfl
@[simp] theorem State.modWindow_powerCap (s : State) (w : Nat) (f : Window → Window) : (s.modWindow w f).powerCap = s.powerCap := rfl
@[simp] theorem State.modWindow_dieHot (s : State) (w : Nat) (f : Window → Window) : (s.modWindow w f).dieHot = s.dieHot := rfl
@[simp] theorem State.modWindow_portsOff (s : State) (w : Nat) (f : Window → Window) : (s.modWindow w f).portsOff = s.portsOff := rfl
@[simp] theorem State.modWindow_retrains (s : State) (w : Nat) (f : Window → Window) : (s.modWindow w f).retrains = s.retrains := rfl
@[simp] theorem State.modWindow_corrections (s : State) (w : Nat) (f : Window → Window) : (s.modWindow w f).corrections = s.corrections := rfl
@[simp] theorem State.modWindow_uncorrectable (s : State) (w : Nat) (f : Window → Window) : (s.modWindow w f).uncorrectable = s.uncorrectable := rfl
@[simp] theorem State.modWindow_restartEnd (s : State) (w : Nat) (f : Window → Window) : (s.modWindow w f).restartEnd = s.restartEnd := rfl
@[simp] theorem State.modWindow_unitsDue (s : State) (w : Nat) (f : Window → Window) : (s.modWindow w f).unitsDue = s.unitsDue := rfl
@[simp] theorem State.modWindow_outbox (s : State) (w : Nat) (f : Window → Window) : (s.modWindow w f).outbox = s.outbox := rfl
@[simp] theorem State.modWindow_notices (s : State) (w : Nat) (f : Window → Window) : (s.modWindow w f).notices = s.notices := rfl
@[simp] theorem State.modWindow_saves (s : State) (w : Nat) (f : Window → Window) : (s.modWindow w f).saves = s.saves := rfl
@[simp] theorem State.modWindow_order (s : State) (w : Nat) (f : Window → Window) : (s.modWindow w f).order = s.order := rfl
@[simp] theorem State.modWindow_agenda (s : State) (w : Nat) (f : Window → Window) : (s.modWindow w f).agenda = s.agenda := rfl
@[simp] theorem State.modWindow_issuer (s : State) (w : Nat) (f : Window → Window) : (s.modWindow w f).issuer = s.issuer := rfl
@[simp] theorem State.modWindow_pair (s : State) (w : Nat) (f : Window → Window) : (s.modWindow w f).pair = s.pair := rfl
@[simp] theorem State.modWindow_beat (s : State) (w : Nat) (f : Window → Window) : (s.modWindow w f).beat = s.beat := rfl
@[simp] theorem State.modWindow_turn (s : State) (w : Nat) (f : Window → Window) : (s.modWindow w f).turn = s.turn := rfl
@[simp] theorem State.modWindow_fresh (s : State) (w : Nat) (f : Window → Window) : (s.modWindow w f).fresh = s.fresh := rfl

/-! ### notify -/

@[simp] theorem State.notify_phase (s : State) (n : Notice) : (s.notify n).phase = s.phase := rfl
@[simp] theorem State.notify_cycle (s : State) (n : Notice) : (s.notify n).cycle = s.cycle := rfl
@[simp] theorem State.notify_teams (s : State) (n : Notice) : (s.notify n).teams = s.teams := rfl
@[simp] theorem State.notify_grids (s : State) (n : Notice) : (s.notify n).grids = s.grids := rfl
@[simp] theorem State.notify_cores (s : State) (n : Notice) : (s.notify n).cores = s.cores := rfl
@[simp] theorem State.notify_parts (s : State) (n : Notice) : (s.notify n).parts = s.parts := rfl
@[simp] theorem State.notify_spad (s : State) (n : Notice) : (s.notify n).spad = s.spad := rfl
@[simp] theorem State.notify_obuf (s : State) (n : Notice) : (s.notify n).obuf = s.obuf := rfl
@[simp] theorem State.notify_hbm (s : State) (n : Notice) : (s.notify n).hbm = s.hbm := rfl
@[simp] theorem State.notify_far (s : State) (n : Notice) : (s.notify n).far = s.far := rfl
@[simp] theorem State.notify_kmem (s : State) (n : Notice) : (s.notify n).kmem = s.kmem := rfl
@[simp] theorem State.notify_staging (s : State) (n : Notice) : (s.notify n).staging = s.staging := rfl
@[simp] theorem State.notify_bad (s : State) (n : Notice) : (s.notify n).bad = s.bad := rfl
@[simp] theorem State.notify_syncCodes (s : State) (n : Notice) : (s.notify n).syncCodes = s.syncCodes := rfl
@[simp] theorem State.notify_ops (s : State) (n : Notice) : (s.notify n).ops = s.ops := rfl
@[simp] theorem State.notify_pendings (s : State) (n : Notice) : (s.notify n).pendings = s.pendings := rfl
@[simp] theorem State.notify_inbound (s : State) (n : Notice) : (s.notify n).inbound = s.inbound := rfl
@[simp] theorem State.notify_cmds (s : State) (n : Notice) : (s.notify n).cmds = s.cmds := rfl
@[simp] theorem State.notify_suspects (s : State) (n : Notice) : (s.notify n).suspects = s.suspects := rfl
@[simp] theorem State.notify_suspectFull (s : State) (n : Notice) : (s.notify n).suspectFull = s.suspectFull := rfl
@[simp] theorem State.notify_discards (s : State) (n : Notice) : (s.notify n).discards = s.discards := rfl
@[simp] theorem State.notify_tb (s : State) (n : Notice) : (s.notify n).tb = s.tb := rfl
@[simp] theorem State.notify_windows (s : State) (n : Notice) : (s.notify n).windows = s.windows := rfl
@[simp] theorem State.notify_grants (s : State) (n : Notice) : (s.notify n).grants = s.grants := rfl
@[simp] theorem State.notify_zeroing (s : State) (n : Notice) : (s.notify n).zeroing = s.zeroing := rfl
@[simp] theorem State.notify_zPending (s : State) (n : Notice) : (s.notify n).zPending = s.zPending := rfl
@[simp] theorem State.notify_pageIns (s : State) (n : Notice) : (s.notify n).pageIns = s.pageIns := rfl
@[simp] theorem State.notify_drains (s : State) (n : Notice) : (s.notify n).drains = s.drains := rfl
@[simp] theorem State.notify_epochNext (s : State) (n : Notice) : (s.notify n).epochNext = s.epochNext := rfl
@[simp] theorem State.notify_epochMax (s : State) (n : Notice) : (s.notify n).epochMax = s.epochMax := rfl
@[simp] theorem State.notify_fwmeas (s : State) (n : Notice) : (s.notify n).fwmeas = s.fwmeas := rfl
@[simp] theorem State.notify_firmware (s : State) (n : Notice) : (s.notify n).firmware = s.firmware := rfl
@[simp] theorem State.notify_flashOk (s : State) (n : Notice) : (s.notify n).flashOk = s.flashOk := rfl
@[simp] theorem State.notify_disabled (s : State) (n : Notice) : (s.notify n).disabled = s.disabled := rfl
@[simp] theorem State.notify_serial (s : State) (n : Notice) : (s.notify n).serial = s.serial := rfl
@[simp] theorem State.notify_identityKey (s : State) (n : Notice) : (s.notify n).identityKey = s.identityKey := rfl
@[simp] theorem State.notify_certificates (s : State) (n : Notice) : (s.notify n).certificates = s.certificates := rfl
@[simp] theorem State.notify_devid (s : State) (n : Notice) : (s.notify n).devid = s.devid := rfl
@[simp] theorem State.notify_nclusterMap (s : State) (n : Notice) : (s.notify n).nclusterMap = s.nclusterMap := rfl
@[simp] theorem State.notify_nchan (s : State) (n : Notice) : (s.notify n).nchan = s.nchan := rfl
@[simp] theorem State.notify_powerCap (s : State) (n : Notice) : (s.notify n).powerCap = s.powerCap := rfl
@[simp] theorem State.notify_dieHot (s : State) (n : Notice) : (s.notify n).dieHot = s.dieHot := rfl
@[simp] theorem State.notify_portsOff (s : State) (n : Notice) : (s.notify n).portsOff = s.portsOff := rfl
@[simp] theorem State.notify_retrains (s : State) (n : Notice) : (s.notify n).retrains = s.retrains := rfl
@[simp] theorem State.notify_corrections (s : State) (n : Notice) : (s.notify n).corrections = s.corrections := rfl
@[simp] theorem State.notify_uncorrectable (s : State) (n : Notice) : (s.notify n).uncorrectable = s.uncorrectable := rfl
@[simp] theorem State.notify_restartEnd (s : State) (n : Notice) : (s.notify n).restartEnd = s.restartEnd := rfl
@[simp] theorem State.notify_unitsDue (s : State) (n : Notice) : (s.notify n).unitsDue = s.unitsDue := rfl
@[simp] theorem State.notify_outbox (s : State) (n : Notice) : (s.notify n).outbox = s.outbox := rfl
@[simp] theorem State.notify_notices (s : State) (n : Notice) : (s.notify n).notices = s.notices ++ [n] := rfl
@[simp] theorem State.notify_saves (s : State) (n : Notice) : (s.notify n).saves = s.saves := rfl
@[simp] theorem State.notify_order (s : State) (n : Notice) : (s.notify n).order = s.order := rfl
@[simp] theorem State.notify_agenda (s : State) (n : Notice) : (s.notify n).agenda = s.agenda := rfl
@[simp] theorem State.notify_issuer (s : State) (n : Notice) : (s.notify n).issuer = s.issuer := rfl
@[simp] theorem State.notify_pair (s : State) (n : Notice) : (s.notify n).pair = s.pair := rfl
@[simp] theorem State.notify_beat (s : State) (n : Notice) : (s.notify n).beat = s.beat := rfl
@[simp] theorem State.notify_turn (s : State) (n : Notice) : (s.notify n).turn = s.turn := rfl
@[simp] theorem State.notify_fresh (s : State) (n : Notice) : (s.notify n).fresh = s.fresh := rfl

/-! ### send -/

@[simp] theorem State.send_phase (s : State) (m : Message) : (s.send m).phase = s.phase := rfl
@[simp] theorem State.send_cycle (s : State) (m : Message) : (s.send m).cycle = s.cycle := rfl
@[simp] theorem State.send_teams (s : State) (m : Message) : (s.send m).teams = s.teams := rfl
@[simp] theorem State.send_grids (s : State) (m : Message) : (s.send m).grids = s.grids := rfl
@[simp] theorem State.send_cores (s : State) (m : Message) : (s.send m).cores = s.cores := rfl
@[simp] theorem State.send_parts (s : State) (m : Message) : (s.send m).parts = s.parts := rfl
@[simp] theorem State.send_spad (s : State) (m : Message) : (s.send m).spad = s.spad := rfl
@[simp] theorem State.send_obuf (s : State) (m : Message) : (s.send m).obuf = s.obuf := rfl
@[simp] theorem State.send_hbm (s : State) (m : Message) : (s.send m).hbm = s.hbm := rfl
@[simp] theorem State.send_far (s : State) (m : Message) : (s.send m).far = s.far := rfl
@[simp] theorem State.send_kmem (s : State) (m : Message) : (s.send m).kmem = s.kmem := rfl
@[simp] theorem State.send_staging (s : State) (m : Message) : (s.send m).staging = s.staging := rfl
@[simp] theorem State.send_bad (s : State) (m : Message) : (s.send m).bad = s.bad := rfl
@[simp] theorem State.send_syncCodes (s : State) (m : Message) : (s.send m).syncCodes = s.syncCodes := rfl
@[simp] theorem State.send_ops (s : State) (m : Message) : (s.send m).ops = s.ops := rfl
@[simp] theorem State.send_pendings (s : State) (m : Message) : (s.send m).pendings = s.pendings := rfl
@[simp] theorem State.send_inbound (s : State) (m : Message) : (s.send m).inbound = s.inbound := rfl
@[simp] theorem State.send_cmds (s : State) (m : Message) : (s.send m).cmds = s.cmds := rfl
@[simp] theorem State.send_suspects (s : State) (m : Message) : (s.send m).suspects = s.suspects := rfl
@[simp] theorem State.send_suspectFull (s : State) (m : Message) : (s.send m).suspectFull = s.suspectFull := rfl
@[simp] theorem State.send_discards (s : State) (m : Message) : (s.send m).discards = s.discards := rfl
@[simp] theorem State.send_tb (s : State) (m : Message) : (s.send m).tb = s.tb := rfl
@[simp] theorem State.send_windows (s : State) (m : Message) : (s.send m).windows = s.windows := rfl
@[simp] theorem State.send_grants (s : State) (m : Message) : (s.send m).grants = s.grants := rfl
@[simp] theorem State.send_zeroing (s : State) (m : Message) : (s.send m).zeroing = s.zeroing := rfl
@[simp] theorem State.send_zPending (s : State) (m : Message) : (s.send m).zPending = s.zPending := rfl
@[simp] theorem State.send_pageIns (s : State) (m : Message) : (s.send m).pageIns = s.pageIns := rfl
@[simp] theorem State.send_drains (s : State) (m : Message) : (s.send m).drains = s.drains := rfl
@[simp] theorem State.send_epochNext (s : State) (m : Message) : (s.send m).epochNext = s.epochNext := rfl
@[simp] theorem State.send_epochMax (s : State) (m : Message) : (s.send m).epochMax = s.epochMax := rfl
@[simp] theorem State.send_fwmeas (s : State) (m : Message) : (s.send m).fwmeas = s.fwmeas := rfl
@[simp] theorem State.send_firmware (s : State) (m : Message) : (s.send m).firmware = s.firmware := rfl
@[simp] theorem State.send_flashOk (s : State) (m : Message) : (s.send m).flashOk = s.flashOk := rfl
@[simp] theorem State.send_disabled (s : State) (m : Message) : (s.send m).disabled = s.disabled := rfl
@[simp] theorem State.send_serial (s : State) (m : Message) : (s.send m).serial = s.serial := rfl
@[simp] theorem State.send_identityKey (s : State) (m : Message) : (s.send m).identityKey = s.identityKey := rfl
@[simp] theorem State.send_certificates (s : State) (m : Message) : (s.send m).certificates = s.certificates := rfl
@[simp] theorem State.send_devid (s : State) (m : Message) : (s.send m).devid = s.devid := rfl
@[simp] theorem State.send_nclusterMap (s : State) (m : Message) : (s.send m).nclusterMap = s.nclusterMap := rfl
@[simp] theorem State.send_nchan (s : State) (m : Message) : (s.send m).nchan = s.nchan := rfl
@[simp] theorem State.send_powerCap (s : State) (m : Message) : (s.send m).powerCap = s.powerCap := rfl
@[simp] theorem State.send_dieHot (s : State) (m : Message) : (s.send m).dieHot = s.dieHot := rfl
@[simp] theorem State.send_portsOff (s : State) (m : Message) : (s.send m).portsOff = s.portsOff := rfl
@[simp] theorem State.send_retrains (s : State) (m : Message) : (s.send m).retrains = s.retrains := rfl
@[simp] theorem State.send_corrections (s : State) (m : Message) : (s.send m).corrections = s.corrections := rfl
@[simp] theorem State.send_uncorrectable (s : State) (m : Message) : (s.send m).uncorrectable = s.uncorrectable := rfl
@[simp] theorem State.send_restartEnd (s : State) (m : Message) : (s.send m).restartEnd = s.restartEnd := rfl
@[simp] theorem State.send_unitsDue (s : State) (m : Message) : (s.send m).unitsDue = s.unitsDue := rfl
@[simp] theorem State.send_outbox (s : State) (m : Message) : (s.send m).outbox = s.outbox ++ [m] := rfl
@[simp] theorem State.send_notices (s : State) (m : Message) : (s.send m).notices = s.notices := rfl
@[simp] theorem State.send_saves (s : State) (m : Message) : (s.send m).saves = s.saves := rfl
@[simp] theorem State.send_order (s : State) (m : Message) : (s.send m).order = s.order := rfl
@[simp] theorem State.send_agenda (s : State) (m : Message) : (s.send m).agenda = s.agenda := rfl
@[simp] theorem State.send_issuer (s : State) (m : Message) : (s.send m).issuer = s.issuer := rfl
@[simp] theorem State.send_pair (s : State) (m : Message) : (s.send m).pair = s.pair := rfl
@[simp] theorem State.send_beat (s : State) (m : Message) : (s.send m).beat = s.beat := rfl
@[simp] theorem State.send_turn (s : State) (m : Message) : (s.send m).turn = s.turn := rfl
@[simp] theorem State.send_fresh (s : State) (m : Message) : (s.send m).fresh = s.fresh := rfl

/-! ### modGang -/

@[simp] theorem State.modGang_phase (s : State) (u g : Nat) (f : Gang → Gang) : (s.modGang u g f).phase = s.phase := rfl
@[simp] theorem State.modGang_cycle (s : State) (u g : Nat) (f : Gang → Gang) : (s.modGang u g f).cycle = s.cycle := rfl
@[simp] theorem State.modGang_teams (s : State) (u g : Nat) (f : Gang → Gang) : (s.modGang u g f).teams = rowMod {} s.teams u (fun t => t.modGang g f) := rfl
@[simp] theorem State.modGang_grids (s : State) (u g : Nat) (f : Gang → Gang) : (s.modGang u g f).grids = s.grids := rfl
@[simp] theorem State.modGang_cores (s : State) (u g : Nat) (f : Gang → Gang) : (s.modGang u g f).cores = s.cores := rfl
@[simp] theorem State.modGang_parts (s : State) (u g : Nat) (f : Gang → Gang) : (s.modGang u g f).parts = s.parts := rfl
@[simp] theorem State.modGang_spad (s : State) (u g : Nat) (f : Gang → Gang) : (s.modGang u g f).spad = s.spad := rfl
@[simp] theorem State.modGang_obuf (s : State) (u g : Nat) (f : Gang → Gang) : (s.modGang u g f).obuf = s.obuf := rfl
@[simp] theorem State.modGang_hbm (s : State) (u g : Nat) (f : Gang → Gang) : (s.modGang u g f).hbm = s.hbm := rfl
@[simp] theorem State.modGang_far (s : State) (u g : Nat) (f : Gang → Gang) : (s.modGang u g f).far = s.far := rfl
@[simp] theorem State.modGang_kmem (s : State) (u g : Nat) (f : Gang → Gang) : (s.modGang u g f).kmem = s.kmem := rfl
@[simp] theorem State.modGang_staging (s : State) (u g : Nat) (f : Gang → Gang) : (s.modGang u g f).staging = s.staging := rfl
@[simp] theorem State.modGang_bad (s : State) (u g : Nat) (f : Gang → Gang) : (s.modGang u g f).bad = s.bad := rfl
@[simp] theorem State.modGang_syncCodes (s : State) (u g : Nat) (f : Gang → Gang) : (s.modGang u g f).syncCodes = s.syncCodes := rfl
@[simp] theorem State.modGang_ops (s : State) (u g : Nat) (f : Gang → Gang) : (s.modGang u g f).ops = s.ops := rfl
@[simp] theorem State.modGang_pendings (s : State) (u g : Nat) (f : Gang → Gang) : (s.modGang u g f).pendings = s.pendings := rfl
@[simp] theorem State.modGang_inbound (s : State) (u g : Nat) (f : Gang → Gang) : (s.modGang u g f).inbound = s.inbound := rfl
@[simp] theorem State.modGang_cmds (s : State) (u g : Nat) (f : Gang → Gang) : (s.modGang u g f).cmds = s.cmds := rfl
@[simp] theorem State.modGang_suspects (s : State) (u g : Nat) (f : Gang → Gang) : (s.modGang u g f).suspects = s.suspects := rfl
@[simp] theorem State.modGang_suspectFull (s : State) (u g : Nat) (f : Gang → Gang) : (s.modGang u g f).suspectFull = s.suspectFull := rfl
@[simp] theorem State.modGang_discards (s : State) (u g : Nat) (f : Gang → Gang) : (s.modGang u g f).discards = s.discards := rfl
@[simp] theorem State.modGang_tb (s : State) (u g : Nat) (f : Gang → Gang) : (s.modGang u g f).tb = s.tb := rfl
@[simp] theorem State.modGang_windows (s : State) (u g : Nat) (f : Gang → Gang) : (s.modGang u g f).windows = s.windows := rfl
@[simp] theorem State.modGang_grants (s : State) (u g : Nat) (f : Gang → Gang) : (s.modGang u g f).grants = s.grants := rfl
@[simp] theorem State.modGang_zeroing (s : State) (u g : Nat) (f : Gang → Gang) : (s.modGang u g f).zeroing = s.zeroing := rfl
@[simp] theorem State.modGang_zPending (s : State) (u g : Nat) (f : Gang → Gang) : (s.modGang u g f).zPending = s.zPending := rfl
@[simp] theorem State.modGang_pageIns (s : State) (u g : Nat) (f : Gang → Gang) : (s.modGang u g f).pageIns = s.pageIns := rfl
@[simp] theorem State.modGang_drains (s : State) (u g : Nat) (f : Gang → Gang) : (s.modGang u g f).drains = s.drains := rfl
@[simp] theorem State.modGang_epochNext (s : State) (u g : Nat) (f : Gang → Gang) : (s.modGang u g f).epochNext = s.epochNext := rfl
@[simp] theorem State.modGang_epochMax (s : State) (u g : Nat) (f : Gang → Gang) : (s.modGang u g f).epochMax = s.epochMax := rfl
@[simp] theorem State.modGang_fwmeas (s : State) (u g : Nat) (f : Gang → Gang) : (s.modGang u g f).fwmeas = s.fwmeas := rfl
@[simp] theorem State.modGang_firmware (s : State) (u g : Nat) (f : Gang → Gang) : (s.modGang u g f).firmware = s.firmware := rfl
@[simp] theorem State.modGang_flashOk (s : State) (u g : Nat) (f : Gang → Gang) : (s.modGang u g f).flashOk = s.flashOk := rfl
@[simp] theorem State.modGang_disabled (s : State) (u g : Nat) (f : Gang → Gang) : (s.modGang u g f).disabled = s.disabled := rfl
@[simp] theorem State.modGang_serial (s : State) (u g : Nat) (f : Gang → Gang) : (s.modGang u g f).serial = s.serial := rfl
@[simp] theorem State.modGang_identityKey (s : State) (u g : Nat) (f : Gang → Gang) : (s.modGang u g f).identityKey = s.identityKey := rfl
@[simp] theorem State.modGang_certificates (s : State) (u g : Nat) (f : Gang → Gang) : (s.modGang u g f).certificates = s.certificates := rfl
@[simp] theorem State.modGang_devid (s : State) (u g : Nat) (f : Gang → Gang) : (s.modGang u g f).devid = s.devid := rfl
@[simp] theorem State.modGang_nclusterMap (s : State) (u g : Nat) (f : Gang → Gang) : (s.modGang u g f).nclusterMap = s.nclusterMap := rfl
@[simp] theorem State.modGang_nchan (s : State) (u g : Nat) (f : Gang → Gang) : (s.modGang u g f).nchan = s.nchan := rfl
@[simp] theorem State.modGang_powerCap (s : State) (u g : Nat) (f : Gang → Gang) : (s.modGang u g f).powerCap = s.powerCap := rfl
@[simp] theorem State.modGang_dieHot (s : State) (u g : Nat) (f : Gang → Gang) : (s.modGang u g f).dieHot = s.dieHot := rfl
@[simp] theorem State.modGang_portsOff (s : State) (u g : Nat) (f : Gang → Gang) : (s.modGang u g f).portsOff = s.portsOff := rfl
@[simp] theorem State.modGang_retrains (s : State) (u g : Nat) (f : Gang → Gang) : (s.modGang u g f).retrains = s.retrains := rfl
@[simp] theorem State.modGang_corrections (s : State) (u g : Nat) (f : Gang → Gang) : (s.modGang u g f).corrections = s.corrections := rfl
@[simp] theorem State.modGang_uncorrectable (s : State) (u g : Nat) (f : Gang → Gang) : (s.modGang u g f).uncorrectable = s.uncorrectable := rfl
@[simp] theorem State.modGang_restartEnd (s : State) (u g : Nat) (f : Gang → Gang) : (s.modGang u g f).restartEnd = s.restartEnd := rfl
@[simp] theorem State.modGang_unitsDue (s : State) (u g : Nat) (f : Gang → Gang) : (s.modGang u g f).unitsDue = s.unitsDue := rfl
@[simp] theorem State.modGang_outbox (s : State) (u g : Nat) (f : Gang → Gang) : (s.modGang u g f).outbox = s.outbox := rfl
@[simp] theorem State.modGang_notices (s : State) (u g : Nat) (f : Gang → Gang) : (s.modGang u g f).notices = s.notices := rfl
@[simp] theorem State.modGang_saves (s : State) (u g : Nat) (f : Gang → Gang) : (s.modGang u g f).saves = s.saves := rfl
@[simp] theorem State.modGang_order (s : State) (u g : Nat) (f : Gang → Gang) : (s.modGang u g f).order = s.order := rfl
@[simp] theorem State.modGang_agenda (s : State) (u g : Nat) (f : Gang → Gang) : (s.modGang u g f).agenda = s.agenda := rfl
@[simp] theorem State.modGang_issuer (s : State) (u g : Nat) (f : Gang → Gang) : (s.modGang u g f).issuer = s.issuer := rfl
@[simp] theorem State.modGang_pair (s : State) (u g : Nat) (f : Gang → Gang) : (s.modGang u g f).pair = s.pair := rfl
@[simp] theorem State.modGang_beat (s : State) (u g : Nat) (f : Gang → Gang) : (s.modGang u g f).beat = s.beat := rfl
@[simp] theorem State.modGang_turn (s : State) (u g : Nat) (f : Gang → Gang) : (s.modGang u g f).turn = s.turn := rfl
@[simp] theorem State.modGang_fresh (s : State) (u g : Nat) (f : Gang → Gang) : (s.modGang u g f).fresh = s.fresh := rfl

/-! ### meter -/

@[simp] theorem State.meter_phase (s : State) (p i n : Nat) : (s.meter p i n).phase = s.phase := rfl
@[simp] theorem State.meter_cycle (s : State) (p i n : Nat) : (s.meter p i n).cycle = s.cycle := rfl
@[simp] theorem State.meter_teams (s : State) (p i n : Nat) : (s.meter p i n).teams = s.teams := rfl
@[simp] theorem State.meter_grids (s : State) (p i n : Nat) : (s.meter p i n).grids = s.grids := rfl
@[simp] theorem State.meter_cores (s : State) (p i n : Nat) : (s.meter p i n).cores = s.cores := rfl
@[simp] theorem State.meter_parts (s : State) (p i n : Nat) : (s.meter p i n).parts = rowMod {} s.parts p (fun x => { x with counters := rowMod 0 x.counters i (fun c => c + BitVec.ofNat 64 n) }) := rfl
@[simp] theorem State.meter_spad (s : State) (p i n : Nat) : (s.meter p i n).spad = s.spad := rfl
@[simp] theorem State.meter_obuf (s : State) (p i n : Nat) : (s.meter p i n).obuf = s.obuf := rfl
@[simp] theorem State.meter_hbm (s : State) (p i n : Nat) : (s.meter p i n).hbm = s.hbm := rfl
@[simp] theorem State.meter_far (s : State) (p i n : Nat) : (s.meter p i n).far = s.far := rfl
@[simp] theorem State.meter_kmem (s : State) (p i n : Nat) : (s.meter p i n).kmem = s.kmem := rfl
@[simp] theorem State.meter_staging (s : State) (p i n : Nat) : (s.meter p i n).staging = s.staging := rfl
@[simp] theorem State.meter_bad (s : State) (p i n : Nat) : (s.meter p i n).bad = s.bad := rfl
@[simp] theorem State.meter_syncCodes (s : State) (p i n : Nat) : (s.meter p i n).syncCodes = s.syncCodes := rfl
@[simp] theorem State.meter_ops (s : State) (p i n : Nat) : (s.meter p i n).ops = s.ops := rfl
@[simp] theorem State.meter_pendings (s : State) (p i n : Nat) : (s.meter p i n).pendings = s.pendings := rfl
@[simp] theorem State.meter_inbound (s : State) (p i n : Nat) : (s.meter p i n).inbound = s.inbound := rfl
@[simp] theorem State.meter_cmds (s : State) (p i n : Nat) : (s.meter p i n).cmds = s.cmds := rfl
@[simp] theorem State.meter_suspects (s : State) (p i n : Nat) : (s.meter p i n).suspects = s.suspects := rfl
@[simp] theorem State.meter_suspectFull (s : State) (p i n : Nat) : (s.meter p i n).suspectFull = s.suspectFull := rfl
@[simp] theorem State.meter_discards (s : State) (p i n : Nat) : (s.meter p i n).discards = s.discards := rfl
@[simp] theorem State.meter_tb (s : State) (p i n : Nat) : (s.meter p i n).tb = s.tb := rfl
@[simp] theorem State.meter_windows (s : State) (p i n : Nat) : (s.meter p i n).windows = s.windows := rfl
@[simp] theorem State.meter_grants (s : State) (p i n : Nat) : (s.meter p i n).grants = s.grants := rfl
@[simp] theorem State.meter_zeroing (s : State) (p i n : Nat) : (s.meter p i n).zeroing = s.zeroing := rfl
@[simp] theorem State.meter_zPending (s : State) (p i n : Nat) : (s.meter p i n).zPending = s.zPending := rfl
@[simp] theorem State.meter_pageIns (s : State) (p i n : Nat) : (s.meter p i n).pageIns = s.pageIns := rfl
@[simp] theorem State.meter_drains (s : State) (p i n : Nat) : (s.meter p i n).drains = s.drains := rfl
@[simp] theorem State.meter_epochNext (s : State) (p i n : Nat) : (s.meter p i n).epochNext = s.epochNext := rfl
@[simp] theorem State.meter_epochMax (s : State) (p i n : Nat) : (s.meter p i n).epochMax = s.epochMax := rfl
@[simp] theorem State.meter_fwmeas (s : State) (p i n : Nat) : (s.meter p i n).fwmeas = s.fwmeas := rfl
@[simp] theorem State.meter_firmware (s : State) (p i n : Nat) : (s.meter p i n).firmware = s.firmware := rfl
@[simp] theorem State.meter_flashOk (s : State) (p i n : Nat) : (s.meter p i n).flashOk = s.flashOk := rfl
@[simp] theorem State.meter_disabled (s : State) (p i n : Nat) : (s.meter p i n).disabled = s.disabled := rfl
@[simp] theorem State.meter_serial (s : State) (p i n : Nat) : (s.meter p i n).serial = s.serial := rfl
@[simp] theorem State.meter_identityKey (s : State) (p i n : Nat) : (s.meter p i n).identityKey = s.identityKey := rfl
@[simp] theorem State.meter_certificates (s : State) (p i n : Nat) : (s.meter p i n).certificates = s.certificates := rfl
@[simp] theorem State.meter_devid (s : State) (p i n : Nat) : (s.meter p i n).devid = s.devid := rfl
@[simp] theorem State.meter_nclusterMap (s : State) (p i n : Nat) : (s.meter p i n).nclusterMap = s.nclusterMap := rfl
@[simp] theorem State.meter_nchan (s : State) (p i n : Nat) : (s.meter p i n).nchan = s.nchan := rfl
@[simp] theorem State.meter_powerCap (s : State) (p i n : Nat) : (s.meter p i n).powerCap = s.powerCap := rfl
@[simp] theorem State.meter_dieHot (s : State) (p i n : Nat) : (s.meter p i n).dieHot = s.dieHot := rfl
@[simp] theorem State.meter_portsOff (s : State) (p i n : Nat) : (s.meter p i n).portsOff = s.portsOff := rfl
@[simp] theorem State.meter_retrains (s : State) (p i n : Nat) : (s.meter p i n).retrains = s.retrains := rfl
@[simp] theorem State.meter_corrections (s : State) (p i n : Nat) : (s.meter p i n).corrections = s.corrections := rfl
@[simp] theorem State.meter_uncorrectable (s : State) (p i n : Nat) : (s.meter p i n).uncorrectable = s.uncorrectable := rfl
@[simp] theorem State.meter_restartEnd (s : State) (p i n : Nat) : (s.meter p i n).restartEnd = s.restartEnd := rfl
@[simp] theorem State.meter_unitsDue (s : State) (p i n : Nat) : (s.meter p i n).unitsDue = s.unitsDue := rfl
@[simp] theorem State.meter_outbox (s : State) (p i n : Nat) : (s.meter p i n).outbox = s.outbox := rfl
@[simp] theorem State.meter_notices (s : State) (p i n : Nat) : (s.meter p i n).notices = s.notices := rfl
@[simp] theorem State.meter_saves (s : State) (p i n : Nat) : (s.meter p i n).saves = s.saves := rfl
@[simp] theorem State.meter_order (s : State) (p i n : Nat) : (s.meter p i n).order = s.order := rfl
@[simp] theorem State.meter_agenda (s : State) (p i n : Nat) : (s.meter p i n).agenda = s.agenda := rfl
@[simp] theorem State.meter_issuer (s : State) (p i n : Nat) : (s.meter p i n).issuer = s.issuer := rfl
@[simp] theorem State.meter_pair (s : State) (p i n : Nat) : (s.meter p i n).pair = s.pair := rfl
@[simp] theorem State.meter_beat (s : State) (p i n : Nat) : (s.meter p i n).beat = s.beat := rfl
@[simp] theorem State.meter_turn (s : State) (p i n : Nat) : (s.meter p i n).turn = s.turn := rfl
@[simp] theorem State.meter_fresh (s : State) (p i n : Nat) : (s.meter p i n).fresh = s.fresh := rfl

/-! ### writeV -/

@[simp] theorem State.writeV_phase (s : State) (u : Issuer) (r : VNum) (m : Half) (f : Nat → Word) : (s.writeV u r m f).phase = s.phase := rfl
@[simp] theorem State.writeV_cycle (s : State) (u : Issuer) (r : VNum) (m : Half) (f : Nat → Word) : (s.writeV u r m f).cycle = s.cycle := rfl
@[simp] theorem State.writeV_teams (s : State) (u : Issuer) (r : VNum) (m : Half) (f : Nat → Word) : (s.writeV u r m f).teams = rowMod {} s.teams u.team (fun t => t.modGang u.gang (fun g => g.writeV r m f)) := rfl
@[simp] theorem State.writeV_grids (s : State) (u : Issuer) (r : VNum) (m : Half) (f : Nat → Word) : (s.writeV u r m f).grids = s.grids := rfl
@[simp] theorem State.writeV_cores (s : State) (u : Issuer) (r : VNum) (m : Half) (f : Nat → Word) : (s.writeV u r m f).cores = s.cores := rfl
@[simp] theorem State.writeV_parts (s : State) (u : Issuer) (r : VNum) (m : Half) (f : Nat → Word) : (s.writeV u r m f).parts = s.parts := rfl
@[simp] theorem State.writeV_spad (s : State) (u : Issuer) (r : VNum) (m : Half) (f : Nat → Word) : (s.writeV u r m f).spad = s.spad := rfl
@[simp] theorem State.writeV_obuf (s : State) (u : Issuer) (r : VNum) (m : Half) (f : Nat → Word) : (s.writeV u r m f).obuf = s.obuf := rfl
@[simp] theorem State.writeV_hbm (s : State) (u : Issuer) (r : VNum) (m : Half) (f : Nat → Word) : (s.writeV u r m f).hbm = s.hbm := rfl
@[simp] theorem State.writeV_far (s : State) (u : Issuer) (r : VNum) (m : Half) (f : Nat → Word) : (s.writeV u r m f).far = s.far := rfl
@[simp] theorem State.writeV_kmem (s : State) (u : Issuer) (r : VNum) (m : Half) (f : Nat → Word) : (s.writeV u r m f).kmem = s.kmem := rfl
@[simp] theorem State.writeV_staging (s : State) (u : Issuer) (r : VNum) (m : Half) (f : Nat → Word) : (s.writeV u r m f).staging = s.staging := rfl
@[simp] theorem State.writeV_bad (s : State) (u : Issuer) (r : VNum) (m : Half) (f : Nat → Word) : (s.writeV u r m f).bad = s.bad := rfl
@[simp] theorem State.writeV_syncCodes (s : State) (u : Issuer) (r : VNum) (m : Half) (f : Nat → Word) : (s.writeV u r m f).syncCodes = s.syncCodes := rfl
@[simp] theorem State.writeV_ops (s : State) (u : Issuer) (r : VNum) (m : Half) (f : Nat → Word) : (s.writeV u r m f).ops = s.ops := rfl
@[simp] theorem State.writeV_pendings (s : State) (u : Issuer) (r : VNum) (m : Half) (f : Nat → Word) : (s.writeV u r m f).pendings = s.pendings := rfl
@[simp] theorem State.writeV_inbound (s : State) (u : Issuer) (r : VNum) (m : Half) (f : Nat → Word) : (s.writeV u r m f).inbound = s.inbound := rfl
@[simp] theorem State.writeV_cmds (s : State) (u : Issuer) (r : VNum) (m : Half) (f : Nat → Word) : (s.writeV u r m f).cmds = s.cmds := rfl
@[simp] theorem State.writeV_suspects (s : State) (u : Issuer) (r : VNum) (m : Half) (f : Nat → Word) : (s.writeV u r m f).suspects = s.suspects := rfl
@[simp] theorem State.writeV_suspectFull (s : State) (u : Issuer) (r : VNum) (m : Half) (f : Nat → Word) : (s.writeV u r m f).suspectFull = s.suspectFull := rfl
@[simp] theorem State.writeV_discards (s : State) (u : Issuer) (r : VNum) (m : Half) (f : Nat → Word) : (s.writeV u r m f).discards = s.discards := rfl
@[simp] theorem State.writeV_tb (s : State) (u : Issuer) (r : VNum) (m : Half) (f : Nat → Word) : (s.writeV u r m f).tb = s.tb := rfl
@[simp] theorem State.writeV_windows (s : State) (u : Issuer) (r : VNum) (m : Half) (f : Nat → Word) : (s.writeV u r m f).windows = s.windows := rfl
@[simp] theorem State.writeV_grants (s : State) (u : Issuer) (r : VNum) (m : Half) (f : Nat → Word) : (s.writeV u r m f).grants = s.grants := rfl
@[simp] theorem State.writeV_zeroing (s : State) (u : Issuer) (r : VNum) (m : Half) (f : Nat → Word) : (s.writeV u r m f).zeroing = s.zeroing := rfl
@[simp] theorem State.writeV_zPending (s : State) (u : Issuer) (r : VNum) (m : Half) (f : Nat → Word) : (s.writeV u r m f).zPending = s.zPending := rfl
@[simp] theorem State.writeV_pageIns (s : State) (u : Issuer) (r : VNum) (m : Half) (f : Nat → Word) : (s.writeV u r m f).pageIns = s.pageIns := rfl
@[simp] theorem State.writeV_drains (s : State) (u : Issuer) (r : VNum) (m : Half) (f : Nat → Word) : (s.writeV u r m f).drains = s.drains := rfl
@[simp] theorem State.writeV_epochNext (s : State) (u : Issuer) (r : VNum) (m : Half) (f : Nat → Word) : (s.writeV u r m f).epochNext = s.epochNext := rfl
@[simp] theorem State.writeV_epochMax (s : State) (u : Issuer) (r : VNum) (m : Half) (f : Nat → Word) : (s.writeV u r m f).epochMax = s.epochMax := rfl
@[simp] theorem State.writeV_fwmeas (s : State) (u : Issuer) (r : VNum) (m : Half) (f : Nat → Word) : (s.writeV u r m f).fwmeas = s.fwmeas := rfl
@[simp] theorem State.writeV_firmware (s : State) (u : Issuer) (r : VNum) (m : Half) (f : Nat → Word) : (s.writeV u r m f).firmware = s.firmware := rfl
@[simp] theorem State.writeV_flashOk (s : State) (u : Issuer) (r : VNum) (m : Half) (f : Nat → Word) : (s.writeV u r m f).flashOk = s.flashOk := rfl
@[simp] theorem State.writeV_disabled (s : State) (u : Issuer) (r : VNum) (m : Half) (f : Nat → Word) : (s.writeV u r m f).disabled = s.disabled := rfl
@[simp] theorem State.writeV_serial (s : State) (u : Issuer) (r : VNum) (m : Half) (f : Nat → Word) : (s.writeV u r m f).serial = s.serial := rfl
@[simp] theorem State.writeV_identityKey (s : State) (u : Issuer) (r : VNum) (m : Half) (f : Nat → Word) : (s.writeV u r m f).identityKey = s.identityKey := rfl
@[simp] theorem State.writeV_certificates (s : State) (u : Issuer) (r : VNum) (m : Half) (f : Nat → Word) : (s.writeV u r m f).certificates = s.certificates := rfl
@[simp] theorem State.writeV_devid (s : State) (u : Issuer) (r : VNum) (m : Half) (f : Nat → Word) : (s.writeV u r m f).devid = s.devid := rfl
@[simp] theorem State.writeV_nclusterMap (s : State) (u : Issuer) (r : VNum) (m : Half) (f : Nat → Word) : (s.writeV u r m f).nclusterMap = s.nclusterMap := rfl
@[simp] theorem State.writeV_nchan (s : State) (u : Issuer) (r : VNum) (m : Half) (f : Nat → Word) : (s.writeV u r m f).nchan = s.nchan := rfl
@[simp] theorem State.writeV_powerCap (s : State) (u : Issuer) (r : VNum) (m : Half) (f : Nat → Word) : (s.writeV u r m f).powerCap = s.powerCap := rfl
@[simp] theorem State.writeV_dieHot (s : State) (u : Issuer) (r : VNum) (m : Half) (f : Nat → Word) : (s.writeV u r m f).dieHot = s.dieHot := rfl
@[simp] theorem State.writeV_portsOff (s : State) (u : Issuer) (r : VNum) (m : Half) (f : Nat → Word) : (s.writeV u r m f).portsOff = s.portsOff := rfl
@[simp] theorem State.writeV_retrains (s : State) (u : Issuer) (r : VNum) (m : Half) (f : Nat → Word) : (s.writeV u r m f).retrains = s.retrains := rfl
@[simp] theorem State.writeV_corrections (s : State) (u : Issuer) (r : VNum) (m : Half) (f : Nat → Word) : (s.writeV u r m f).corrections = s.corrections := rfl
@[simp] theorem State.writeV_uncorrectable (s : State) (u : Issuer) (r : VNum) (m : Half) (f : Nat → Word) : (s.writeV u r m f).uncorrectable = s.uncorrectable := rfl
@[simp] theorem State.writeV_restartEnd (s : State) (u : Issuer) (r : VNum) (m : Half) (f : Nat → Word) : (s.writeV u r m f).restartEnd = s.restartEnd := rfl
@[simp] theorem State.writeV_unitsDue (s : State) (u : Issuer) (r : VNum) (m : Half) (f : Nat → Word) : (s.writeV u r m f).unitsDue = s.unitsDue := rfl
@[simp] theorem State.writeV_outbox (s : State) (u : Issuer) (r : VNum) (m : Half) (f : Nat → Word) : (s.writeV u r m f).outbox = s.outbox := rfl
@[simp] theorem State.writeV_notices (s : State) (u : Issuer) (r : VNum) (m : Half) (f : Nat → Word) : (s.writeV u r m f).notices = s.notices := rfl
@[simp] theorem State.writeV_saves (s : State) (u : Issuer) (r : VNum) (m : Half) (f : Nat → Word) : (s.writeV u r m f).saves = s.saves := rfl
@[simp] theorem State.writeV_order (s : State) (u : Issuer) (r : VNum) (m : Half) (f : Nat → Word) : (s.writeV u r m f).order = s.order := rfl
@[simp] theorem State.writeV_agenda (s : State) (u : Issuer) (r : VNum) (m : Half) (f : Nat → Word) : (s.writeV u r m f).agenda = s.agenda := rfl
@[simp] theorem State.writeV_issuer (s : State) (u : Issuer) (r : VNum) (m : Half) (f : Nat → Word) : (s.writeV u r m f).issuer = s.issuer := rfl
@[simp] theorem State.writeV_pair (s : State) (u : Issuer) (r : VNum) (m : Half) (f : Nat → Word) : (s.writeV u r m f).pair = s.pair := rfl
@[simp] theorem State.writeV_beat (s : State) (u : Issuer) (r : VNum) (m : Half) (f : Nat → Word) : (s.writeV u r m f).beat = s.beat := rfl
@[simp] theorem State.writeV_turn (s : State) (u : Issuer) (r : VNum) (m : Half) (f : Nat → Word) : (s.writeV u r m f).turn = s.turn := rfl
@[simp] theorem State.writeV_fresh (s : State) (u : Issuer) (r : VNum) (m : Half) (f : Nat → Word) : (s.writeV u r m f).fresh = s.fresh := rfl

/-! ### writeP -/

@[simp] theorem State.writeP_phase (s : State) (u : Issuer) (p : PNum) (m : Half) (f : Nat → Bool) : (s.writeP u p m f).phase = s.phase := rfl
@[simp] theorem State.writeP_cycle (s : State) (u : Issuer) (p : PNum) (m : Half) (f : Nat → Bool) : (s.writeP u p m f).cycle = s.cycle := rfl
@[simp] theorem State.writeP_teams (s : State) (u : Issuer) (p : PNum) (m : Half) (f : Nat → Bool) : (s.writeP u p m f).teams = rowMod {} s.teams u.team (fun t => t.modGang u.gang (fun g => g.writeP p m f)) := rfl
@[simp] theorem State.writeP_grids (s : State) (u : Issuer) (p : PNum) (m : Half) (f : Nat → Bool) : (s.writeP u p m f).grids = s.grids := rfl
@[simp] theorem State.writeP_cores (s : State) (u : Issuer) (p : PNum) (m : Half) (f : Nat → Bool) : (s.writeP u p m f).cores = s.cores := rfl
@[simp] theorem State.writeP_parts (s : State) (u : Issuer) (p : PNum) (m : Half) (f : Nat → Bool) : (s.writeP u p m f).parts = s.parts := rfl
@[simp] theorem State.writeP_spad (s : State) (u : Issuer) (p : PNum) (m : Half) (f : Nat → Bool) : (s.writeP u p m f).spad = s.spad := rfl
@[simp] theorem State.writeP_obuf (s : State) (u : Issuer) (p : PNum) (m : Half) (f : Nat → Bool) : (s.writeP u p m f).obuf = s.obuf := rfl
@[simp] theorem State.writeP_hbm (s : State) (u : Issuer) (p : PNum) (m : Half) (f : Nat → Bool) : (s.writeP u p m f).hbm = s.hbm := rfl
@[simp] theorem State.writeP_far (s : State) (u : Issuer) (p : PNum) (m : Half) (f : Nat → Bool) : (s.writeP u p m f).far = s.far := rfl
@[simp] theorem State.writeP_kmem (s : State) (u : Issuer) (p : PNum) (m : Half) (f : Nat → Bool) : (s.writeP u p m f).kmem = s.kmem := rfl
@[simp] theorem State.writeP_staging (s : State) (u : Issuer) (p : PNum) (m : Half) (f : Nat → Bool) : (s.writeP u p m f).staging = s.staging := rfl
@[simp] theorem State.writeP_bad (s : State) (u : Issuer) (p : PNum) (m : Half) (f : Nat → Bool) : (s.writeP u p m f).bad = s.bad := rfl
@[simp] theorem State.writeP_syncCodes (s : State) (u : Issuer) (p : PNum) (m : Half) (f : Nat → Bool) : (s.writeP u p m f).syncCodes = s.syncCodes := rfl
@[simp] theorem State.writeP_ops (s : State) (u : Issuer) (p : PNum) (m : Half) (f : Nat → Bool) : (s.writeP u p m f).ops = s.ops := rfl
@[simp] theorem State.writeP_pendings (s : State) (u : Issuer) (p : PNum) (m : Half) (f : Nat → Bool) : (s.writeP u p m f).pendings = s.pendings := rfl
@[simp] theorem State.writeP_inbound (s : State) (u : Issuer) (p : PNum) (m : Half) (f : Nat → Bool) : (s.writeP u p m f).inbound = s.inbound := rfl
@[simp] theorem State.writeP_cmds (s : State) (u : Issuer) (p : PNum) (m : Half) (f : Nat → Bool) : (s.writeP u p m f).cmds = s.cmds := rfl
@[simp] theorem State.writeP_suspects (s : State) (u : Issuer) (p : PNum) (m : Half) (f : Nat → Bool) : (s.writeP u p m f).suspects = s.suspects := rfl
@[simp] theorem State.writeP_suspectFull (s : State) (u : Issuer) (p : PNum) (m : Half) (f : Nat → Bool) : (s.writeP u p m f).suspectFull = s.suspectFull := rfl
@[simp] theorem State.writeP_discards (s : State) (u : Issuer) (p : PNum) (m : Half) (f : Nat → Bool) : (s.writeP u p m f).discards = s.discards := rfl
@[simp] theorem State.writeP_tb (s : State) (u : Issuer) (p : PNum) (m : Half) (f : Nat → Bool) : (s.writeP u p m f).tb = s.tb := rfl
@[simp] theorem State.writeP_windows (s : State) (u : Issuer) (p : PNum) (m : Half) (f : Nat → Bool) : (s.writeP u p m f).windows = s.windows := rfl
@[simp] theorem State.writeP_grants (s : State) (u : Issuer) (p : PNum) (m : Half) (f : Nat → Bool) : (s.writeP u p m f).grants = s.grants := rfl
@[simp] theorem State.writeP_zeroing (s : State) (u : Issuer) (p : PNum) (m : Half) (f : Nat → Bool) : (s.writeP u p m f).zeroing = s.zeroing := rfl
@[simp] theorem State.writeP_zPending (s : State) (u : Issuer) (p : PNum) (m : Half) (f : Nat → Bool) : (s.writeP u p m f).zPending = s.zPending := rfl
@[simp] theorem State.writeP_pageIns (s : State) (u : Issuer) (p : PNum) (m : Half) (f : Nat → Bool) : (s.writeP u p m f).pageIns = s.pageIns := rfl
@[simp] theorem State.writeP_drains (s : State) (u : Issuer) (p : PNum) (m : Half) (f : Nat → Bool) : (s.writeP u p m f).drains = s.drains := rfl
@[simp] theorem State.writeP_epochNext (s : State) (u : Issuer) (p : PNum) (m : Half) (f : Nat → Bool) : (s.writeP u p m f).epochNext = s.epochNext := rfl
@[simp] theorem State.writeP_epochMax (s : State) (u : Issuer) (p : PNum) (m : Half) (f : Nat → Bool) : (s.writeP u p m f).epochMax = s.epochMax := rfl
@[simp] theorem State.writeP_fwmeas (s : State) (u : Issuer) (p : PNum) (m : Half) (f : Nat → Bool) : (s.writeP u p m f).fwmeas = s.fwmeas := rfl
@[simp] theorem State.writeP_firmware (s : State) (u : Issuer) (p : PNum) (m : Half) (f : Nat → Bool) : (s.writeP u p m f).firmware = s.firmware := rfl
@[simp] theorem State.writeP_flashOk (s : State) (u : Issuer) (p : PNum) (m : Half) (f : Nat → Bool) : (s.writeP u p m f).flashOk = s.flashOk := rfl
@[simp] theorem State.writeP_disabled (s : State) (u : Issuer) (p : PNum) (m : Half) (f : Nat → Bool) : (s.writeP u p m f).disabled = s.disabled := rfl
@[simp] theorem State.writeP_serial (s : State) (u : Issuer) (p : PNum) (m : Half) (f : Nat → Bool) : (s.writeP u p m f).serial = s.serial := rfl
@[simp] theorem State.writeP_identityKey (s : State) (u : Issuer) (p : PNum) (m : Half) (f : Nat → Bool) : (s.writeP u p m f).identityKey = s.identityKey := rfl
@[simp] theorem State.writeP_certificates (s : State) (u : Issuer) (p : PNum) (m : Half) (f : Nat → Bool) : (s.writeP u p m f).certificates = s.certificates := rfl
@[simp] theorem State.writeP_devid (s : State) (u : Issuer) (p : PNum) (m : Half) (f : Nat → Bool) : (s.writeP u p m f).devid = s.devid := rfl
@[simp] theorem State.writeP_nclusterMap (s : State) (u : Issuer) (p : PNum) (m : Half) (f : Nat → Bool) : (s.writeP u p m f).nclusterMap = s.nclusterMap := rfl
@[simp] theorem State.writeP_nchan (s : State) (u : Issuer) (p : PNum) (m : Half) (f : Nat → Bool) : (s.writeP u p m f).nchan = s.nchan := rfl
@[simp] theorem State.writeP_powerCap (s : State) (u : Issuer) (p : PNum) (m : Half) (f : Nat → Bool) : (s.writeP u p m f).powerCap = s.powerCap := rfl
@[simp] theorem State.writeP_dieHot (s : State) (u : Issuer) (p : PNum) (m : Half) (f : Nat → Bool) : (s.writeP u p m f).dieHot = s.dieHot := rfl
@[simp] theorem State.writeP_portsOff (s : State) (u : Issuer) (p : PNum) (m : Half) (f : Nat → Bool) : (s.writeP u p m f).portsOff = s.portsOff := rfl
@[simp] theorem State.writeP_retrains (s : State) (u : Issuer) (p : PNum) (m : Half) (f : Nat → Bool) : (s.writeP u p m f).retrains = s.retrains := rfl
@[simp] theorem State.writeP_corrections (s : State) (u : Issuer) (p : PNum) (m : Half) (f : Nat → Bool) : (s.writeP u p m f).corrections = s.corrections := rfl
@[simp] theorem State.writeP_uncorrectable (s : State) (u : Issuer) (p : PNum) (m : Half) (f : Nat → Bool) : (s.writeP u p m f).uncorrectable = s.uncorrectable := rfl
@[simp] theorem State.writeP_restartEnd (s : State) (u : Issuer) (p : PNum) (m : Half) (f : Nat → Bool) : (s.writeP u p m f).restartEnd = s.restartEnd := rfl
@[simp] theorem State.writeP_unitsDue (s : State) (u : Issuer) (p : PNum) (m : Half) (f : Nat → Bool) : (s.writeP u p m f).unitsDue = s.unitsDue := rfl
@[simp] theorem State.writeP_outbox (s : State) (u : Issuer) (p : PNum) (m : Half) (f : Nat → Bool) : (s.writeP u p m f).outbox = s.outbox := rfl
@[simp] theorem State.writeP_notices (s : State) (u : Issuer) (p : PNum) (m : Half) (f : Nat → Bool) : (s.writeP u p m f).notices = s.notices := rfl
@[simp] theorem State.writeP_saves (s : State) (u : Issuer) (p : PNum) (m : Half) (f : Nat → Bool) : (s.writeP u p m f).saves = s.saves := rfl
@[simp] theorem State.writeP_order (s : State) (u : Issuer) (p : PNum) (m : Half) (f : Nat → Bool) : (s.writeP u p m f).order = s.order := rfl
@[simp] theorem State.writeP_agenda (s : State) (u : Issuer) (p : PNum) (m : Half) (f : Nat → Bool) : (s.writeP u p m f).agenda = s.agenda := rfl
@[simp] theorem State.writeP_issuer (s : State) (u : Issuer) (p : PNum) (m : Half) (f : Nat → Bool) : (s.writeP u p m f).issuer = s.issuer := rfl
@[simp] theorem State.writeP_pair (s : State) (u : Issuer) (p : PNum) (m : Half) (f : Nat → Bool) : (s.writeP u p m f).pair = s.pair := rfl
@[simp] theorem State.writeP_beat (s : State) (u : Issuer) (p : PNum) (m : Half) (f : Nat → Bool) : (s.writeP u p m f).beat = s.beat := rfl
@[simp] theorem State.writeP_turn (s : State) (u : Issuer) (p : PNum) (m : Half) (f : Nat → Bool) : (s.writeP u p m f).turn = s.turn := rfl
@[simp] theorem State.writeP_fresh (s : State) (u : Issuer) (p : PNum) (m : Half) (f : Nat → Bool) : (s.writeP u p m f).fresh = s.fresh := rfl

/-! ### Reading what was changed -/

/-- The team changed. -/
@[simp] theorem State.team_modTeam_same (s : State) (u : Nat) (f : Team → Team) : (s.modTeam u f).team u = f (s.team u) :=
  rowGet_rowMod_same _ _ _ _
/-- Every other team is as before. -/
theorem State.team_modTeam_other (s : State) {u u' : Nat} (f : Team → Team) (h : u ≠ u') : (s.modTeam u f).team u' = s.team u' :=
  rowGet_rowMod_other _ _ _ h

/-- The grid changed. -/
@[simp] theorem State.grid_modGrid_same (s : State) (g : Nat) (f : Grid → Grid) : (s.modGrid g f).grid g = f (s.grid g) :=
  rowGet_rowMod_same _ _ _ _
/-- Every other grid is as before. -/
theorem State.grid_modGrid_other (s : State) {g g' : Nat} (f : Grid → Grid) (h : g ≠ g') : (s.modGrid g f).grid g' = s.grid g' :=
  rowGet_rowMod_other _ _ _ h

/-- The core changed. -/
@[simp] theorem State.core_modCore_same (s : State) (c : Nat) (f : CoreState → CoreState) : (s.modCore c f).core c = f (s.core c) :=
  rowGet_rowMod_same _ _ _ _
/-- Every other core is as before. -/
theorem State.core_modCore_other (s : State) {c c' : Nat} (f : CoreState → CoreState) (h : c ≠ c') : (s.modCore c f).core c' = s.core c' :=
  rowGet_rowMod_other _ _ _ h

/-- The partition changed. -/
@[simp] theorem State.part_modPart_same (s : State) (p : Nat) (f : Partition → Partition) : (s.modPart p f).part p = f (s.part p) :=
  rowGet_rowMod_same _ _ _ _
/-- Every other partition is as before. -/
theorem State.part_modPart_other (s : State) {p p' : Nat} (f : Partition → Partition) (h : p ≠ p') : (s.modPart p f).part p' = s.part p' :=
  rowGet_rowMod_other _ _ _ h

/-- The window changed. -/
@[simp] theorem State.window_modWindow_same (s : State) (w : Nat) (f : Window → Window) : (s.modWindow w f).window w = f (s.window w) :=
  rowGet_rowMod_same _ _ _ _
/-- Every other window is as before. -/
theorem State.window_modWindow_other (s : State) {w w' : Nat} (f : Window → Window) (h : w ≠ w') : (s.modWindow w f).window w' = s.window w' :=
  rowGet_rowMod_other _ _ _ h

/-- The gang changed. -/
@[simp] theorem Team.gang_modGang_same (t : Team) (g : Nat) (f : Gang → Gang) : (t.modGang g f).gang g = f (t.gang g) :=
  rowGet_rowMod_same _ _ _ _
/-- Every other gang is as before. -/
theorem Team.gang_modGang_other (t : Team) {g g' : Nat} (f : Gang → Gang) (h : g ≠ g') : (t.modGang g f).gang g' = t.gang g' :=
  rowGet_rowMod_other _ _ _ h
/-- The gang changed, in its team. -/
@[simp] theorem State.gang_modGang_same (s : State) (u g : Nat) (f : Gang → Gang) : (s.modGang u g f).gang u g = f (s.gang u g) := by
  simp only [State.gang, State.modGang, State.team_modTeam_same, Team.gang_modGang_same]
/-- Every other gang is as before. -/
theorem State.gang_modGang_other (s : State) {u g u' g' : Nat} (f : Gang → Gang) (h : u ≠ u' ∨ g ≠ g') :
    (s.modGang u g f).gang u' g' = s.gang u' g' := by
  by_cases hu : u = u'
  · subst hu
    have hg : g ≠ g' := h.resolve_left (fun e => e rfl)
    simp only [State.gang, State.modGang, State.team_modTeam_same, Team.gang_modGang_other _ _ hg]
  · simp only [State.gang, State.modGang, State.team_modTeam_other _ _ hu]
/-- Every other team is as before. -/
theorem State.team_modGang_other (s : State) {u u' : Nat} (g : Nat) (f : Gang → Gang) (h : u ≠ u') :
    (s.modGang u g f).team u' = s.team u' := State.team_modTeam_other _ _ h
/-- A partition's change touches no team. -/
@[simp] theorem State.team_modPart (s : State) (p u : Nat) (f : Partition → Partition) : (s.modPart p f).team u = s.team u := rfl
/-- Metering touches no team. -/
@[simp] theorem State.team_meter (s : State) (p i n u : Nat) : (s.meter p i n).team u = s.team u := rfl
/-- Metering touches no gang. -/
@[simp] theorem State.gang_meter (s : State) (p i n u g : Nat) : (s.meter p i n).gang u g = s.gang u g := rfl

/-! ### Slices, lanes and registers -/

/-- A slice of the mask is changed. -/
theorem Gang.slice_modSlices_in (g : Gang) (m : BitVec 8) (f : Nat → Slice → Slice) {i : Nat} (hi : i < 8) (hm : m.getLsbD i = true) :
    (g.modSlices m f).slice i = f i (g.slice i) := by
  have : (g.modSlices m f).slice i = if m.getLsbD i then f i (g.slice i) else g.slice i :=
    rowGet_map_upTo _ (fun i => if m.getLsbD i then f i (g.slice i) else g.slice i) hi
  rw [this, hm]
  rfl
/-- Every other slice is as before. -/
theorem Gang.slice_modSlices_out (g : Gang) (m : BitVec 8) (f : Nat → Slice → Slice) {i : Nat} (hi : i < 8) (hm : m.getLsbD i = false) :
    (g.modSlices m f).slice i = g.slice i := by
  have : (g.modSlices m f).slice i = if m.getLsbD i then f i (g.slice i) else g.slice i :=
    rowGet_map_upTo _ (fun i => if m.getLsbD i then f i (g.slice i) else g.slice i) hi
  rw [this, hm]
  simp
/-- A lane of the mask is changed. -/
theorem Gang.lane_modLanes_in (g : Gang) (m : Half) (f : Nat → Lane → Lane) {l : Nat} (hl : l < 32) (hm : m.getLsbD l = true) :
    (g.modLanes m f).lane l = f l (g.lane l) := by
  have : (g.modLanes m f).lane l = if m.getLsbD l then f l (g.lane l) else g.lane l :=
    rowGet_map_upTo _ (fun l => if m.getLsbD l then f l (g.lane l) else g.lane l) hl
  rw [this, hm]
  rfl
/-- Every other lane is as before. -/
theorem Gang.lane_modLanes_out (g : Gang) (m : Half) (f : Nat → Lane → Lane) {l : Nat} (hl : l < 32) (hm : m.getLsbD l = false) :
    (g.modLanes m f).lane l = g.lane l := by
  have : (g.modLanes m f).lane l = if m.getLsbD l then f l (g.lane l) else g.lane l :=
    rowGet_map_upTo _ (fun l => if m.getLsbD l then f l (g.lane l) else g.lane l) hl
  rw [this, hm]
  simp
/-- A change of slices touches no lane. -/
@[simp] theorem Gang.lane_modSlices (g : Gang) (m : BitVec 8) (f : Nat → Slice → Slice) (l : Nat) :
    (g.modSlices m f).lane l = g.lane l := rfl
/-- A change of lanes touches no slice. -/
@[simp] theorem Gang.slice_modLanes (g : Gang) (m : Half) (f : Nat → Lane → Lane) (i : Nat) :
    (g.modLanes m f).slice i = g.slice i := rfl
/-- A vector register replaced reads as it was set. -/
@[simp] theorem Lane.vreg_setV_same (l : Lane) (r : VNum) (x : VReg) : (l.setV r x).vreg r = x := rowGet_rowPut_same _ _ _ _
/-- Every other vector register is as before. -/
theorem Lane.vreg_setV_other (l : Lane) {r r' : VNum} (x : VReg) (h : r ≠ r') : (l.setV r x).vreg r' = l.vreg r' :=
  rowGet_rowPut_other _ _ _ (fun e => h (BitVec.eq_of_toNat_eq e))
/-- A write of a vector register touches no predicate. -/
@[simp] theorem Lane.pred_setV (l : Lane) (r : VNum) (x : VReg) (p : PNum) : (l.setV r x).pred p = l.pred p := rfl
/-- A write of a predicate touches no vector register. -/
@[simp] theorem Lane.vreg_setP (l : Lane) (p : PNum) (x : Bool) (r : VNum) : (l.setP p x).vreg r = l.vreg r := by
  unfold Lane.setP
  split <;> rfl
/-- p0 always reads 1 (R10). -/
@[simp] theorem Lane.pred_zero (l : Lane) : l.pred 0#3 = true := rfl
/-- A predicate other than p0 reads as it was written. -/
theorem Lane.pred_setP_same (l : Lane) {p : PNum} (x : Bool) (h : p ≠ 0#3) : (l.setP p x).pred p = x := by
  have hp : p.toNat < 8 := p.isLt
  cases x <;> simp [Lane.setP, Lane.pred, h, hp]
/-- Every other predicate is as before. -/
theorem Lane.pred_setP_other (l : Lane) {p p' : PNum} (x : Bool) (h : p ≠ p') : (l.setP p x).pred p' = l.pred p' := by
  unfold Lane.setP
  split
  · rfl
  · unfold Lane.pred
    split
    · rfl
    · have hne : p'.toNat ≠ p.toNat := fun e => h (BitVec.eq_of_toNat_eq e.symm)
      have hp : p.toNat < 8 := p.isLt
      have hp' : p'.toNat < 8 := p'.isLt
      cases x
      · simp [BitVec.getLsbD_shiftLeft, hp']
        intro _
        omega
      · simp [BitVec.getLsbD_shiftLeft, hp']
        intro _
        omega

/-! ### Writes of registers (R13, R16) -/

/-- The marks of a write touch no lane. -/
@[simp] theorem Gang.lane_touchV (g : Gang) (r : VNum) (l : Nat) : (g.touchV r).lane l = g.lane l := rfl
/-- The marks of a write touch no k register. -/
@[simp] theorem Gang.kreg_touchV (g : Gang) (r : VNum) (k : KNum) : (g.touchV r).kreg k = g.kreg k := rfl
/-- The marks of a write touch no slice. -/
@[simp] theorem Gang.slice_touchV (g : Gang) (r : VNum) (i : Nat) : (g.touchV r).slice i = g.slice i := rfl

/-- A vector register written in a lane is FULL with the value, its poison cleared (R13). -/
theorem Gang.vreg_writeV_in (g : Gang) (r : VNum) (m : Half) (f : Nat → Word) {l : Nat} (hl : l < 32) (hm : m.getLsbD l = true) :
    ((g.writeV r m f).lane l).vreg r = { val := f l } := by
  have h0 : m ≠ 0#32 := by
    rintro rfl
    simp at hm
  unfold Gang.writeV
  rw [if_neg h0]
  rw [Gang.lane_touchV, Gang.lane_modLanes_in g m _ hl hm]
  simp
/-- A lane outside the mask keeps all its registers. -/
theorem Gang.lane_writeV_out (g : Gang) (r : VNum) (m : Half) (f : Nat → Word) {l : Nat} (hl : l < 32) (hm : m.getLsbD l = false) :
    (g.writeV r m f).lane l = g.lane l := by
  unfold Gang.writeV
  split
  · rfl
  · rw [Gang.lane_touchV]
    exact Gang.lane_modLanes_out g m _ hl hm
/-- Every other vector register keeps its value. -/
theorem Gang.vreg_writeV_other (g : Gang) {r r' : VNum} (m : Half) (f : Nat → Word) {l : Nat} (hl : l < 32) (h : r ≠ r') :
    ((g.writeV r m f).lane l).vreg r' = (g.lane l).vreg r' := by
  cases hm : m.getLsbD l with
  | false => rw [Gang.lane_writeV_out g r m f hl hm]
  | true =>
    have h0 : m ≠ 0#32 := by
      rintro rfl
      simp at hm
    unfold Gang.writeV
    rw [if_neg h0]
    rw [Gang.lane_touchV, Gang.lane_modLanes_in g m _ hl hm]
    exact Lane.vreg_setV_other _ _ h
/-- A k register written reads as it was set (R16). -/
@[simp] theorem Gang.kreg_writeK_same (g : Gang) (k : KNum) (w : Word) : (g.writeK k w).kreg k = w := rowGet_rowPut_same _ _ _ _
/-- Every other k register is as before. -/
theorem Gang.kreg_writeK_other (g : Gang) {k k' : KNum} (w : Word) (h : k ≠ k') : (g.writeK k w).kreg k' = g.kreg k' :=
  rowGet_rowPut_other _ _ _ (fun e => h (BitVec.eq_of_toNat_eq e))
/-- A write of a k register touches no lane. -/
@[simp] theorem Gang.lane_writeK (g : Gang) (k : KNum) (w : Word) (l : Nat) : (g.writeK k w).lane l = g.lane l := rfl
/-- A write of a vector register touches no k register. -/
@[simp] theorem Gang.kreg_writeV (g : Gang) (r : VNum) (m : Half) (f : Nat → Word) (k : KNum) : (g.writeV r m f).kreg k = g.kreg k := by
  unfold Gang.writeV
  split <;> rfl

/-! ### Masks -/

/-- Below its length a mask made bit by bit reads as the condition. -/
theorem getLsbD_maskUpTo (f : Nat → Bool) : ∀ (n i : Nat), n ≤ 32 → (maskUpTo f n).getLsbD i = (decide (i < n) && f i)
  | 0, i, _ => by simp [maskUpTo]
  | n + 1, i, h => by
    have ih := getLsbD_maskUpTo f n i (by omega)
    unfold maskUpTo
    by_cases hn : i = n
    · subst hn
      cases hf : f i <;> simp [ih, hf, BitVec.getLsbD_shiftLeft] <;> omega
    · have : decide (i < n + 1) = decide (i < n) := by
        apply decide_eq_decide.mpr
        omega
      have hle : decide (i ≤ n) = decide (i < n) := by
        apply decide_eq_decide.mpr
        omega
      have hb : (1#32 <<< n).getLsbD i = false := by
        rw [BitVec.getLsbD_shiftLeft]
        rcases Nat.lt_or_ge i n with hlt | hge
        · simp [hlt]
        · have h1 : i - n ≠ 0 := by omega
          simp [h1]
      rw [this]
      cases hf : f n
      · simpa [hf] using ih
      · simp only [hf, if_true, BitVec.getLsbD_or, ih, hb, Bool.or_false]

/-- A lane mask reads as its condition. -/
theorem getLsbD_maskOf (f : Nat → Bool) {l : Nat} (hl : l < 32) : (maskOf f).getLsbD l = f l := by
  unfold maskOf
  rw [getLsbD_maskUpTo f 32 l (Nat.le_refl _)]
  simp [hl]

/-- A slice mask reads as its condition. -/
theorem getLsbD_sliceMask (f : Nat → Bool) {i : Nat} (hi : i < 8) : (sliceMask f).getLsbD i = f i := by
  unfold sliceMask
  rw [BitVec.getLsbD_setWidth, getLsbD_maskUpTo f 8 i (by omega)]
  simp [hi]

/-- The lowest slice of a mask is in it. -/
theorem lowSlice_mem {m : BitVec 8} (h : m ≠ 0#8) : lowSlice m < 8 ∧ m.getLsbD (lowSlice m) = true := by
  have hex : ∃ i, i < 8 ∧ m.getLsbD i = true := by
    apply Classical.byContradiction
    intro hn
    apply h
    apply BitVec.eq_of_getLsbD_eq
    intro i hi
    cases hb : m.getLsbD i with
    | false => simp
    | true => exact absurd ⟨i, hi, hb⟩ hn
  obtain ⟨i, hi, hb⟩ := hex
  unfold lowSlice
  have hm : i ∈ (upTo 8).filter (fun i => m.getLsbD i) := by simp [hi, hb]
  cases hl : (upTo 8).filter (fun i => m.getLsbD i) with
  | nil => rw [hl] at hm; cases hm
  | cons x xs =>
    have hx : x ∈ (upTo 8).filter (fun i => m.getLsbD i) := by rw [hl]; exact List.mem_cons_self
    simpa using hx

/-- A slice of a sub-gang has not exited. -/
theorem Gang.subgang_live {g : Gang} {n i : Nat} (hi : i < 8) (h : (g.subgang n).getLsbD i = true) :
    (g.slice i).exited = false ∧ (g.slice i).sub = n := by
  unfold Gang.subgang at h
  rw [getLsbD_sliceMask _ hi] at h
  simpa using h

/-- The slices of a unit that may issue have not exited, have not stopped, and stand at the unit's program counter. -/
theorem Gang.unitOk_slice {g : Gang} {m : BitVec 8} (h : g.unitOk m = true) {i : Nat} (hi : i < 8) (hm : m.getLsbD i = true) :
    (g.slice i).exited = false ∧ (g.slice i).stopped = false ∧ (g.slice i).pc = g.pcOf m := by
  simp only [Gang.unitOk, Bool.and_eq_true, decide_eq_true_eq, List.all_eq_true, mem_upTo] at h
  obtain ⟨⟨_, h2⟩, h3⟩ := h
  have h4 := h3 i hi
  rw [hm] at h4
  have h5 : (g.subgang (g.slice (lowSlice m)).sub).getLsbD i = true := by rw [← h2]; exact hm
  refine ⟨(Gang.subgang_live hi h5).1, ?_⟩
  simpa using h4

/-- A unit that may issue holds a slice. -/
theorem Gang.unitOk_ne {g : Gang} {m : BitVec 8} (h : g.unitOk m = true) : m ≠ 0#8 := by
  simp only [Gang.unitOk, Bool.and_eq_true, decide_eq_true_eq] at h
  exact h.1.1

/-- The lowest lane of a mask is in it. -/
theorem lowLane_mem {m : Half} (h : m ≠ 0#32) : lowLane m < 32 ∧ m.getLsbD (lowLane m) = true := by
  have hex : ∃ i, i < 32 ∧ m.getLsbD i = true := by
    apply Classical.byContradiction
    intro hn
    apply h
    apply BitVec.eq_of_getLsbD_eq
    intro i hi
    cases hb : m.getLsbD i with
    | false => simp
    | true => exact absurd ⟨i, hi, hb⟩ hn
  obtain ⟨i, hi, hb⟩ := hex
  unfold lowLane lanesOf
  have hm : i ∈ (upTo 32).filter (fun i => m.getLsbD i) := by simp [hi, hb]
  cases hl : (upTo 32).filter (fun i => m.getLsbD i) with
  | nil => rw [hl] at hm; cases hm
  | cons x xs =>
    have hx : x ∈ (upTo 32).filter (fun i => m.getLsbD i) := by rw [hl]; exact List.mem_cons_self
    simpa using hx

end Sys2Proof.Machine
end

