-- ==== Sys2Proof/Laws/Issue.lean ====
section
/-!
SUPPORT. What issuing a word does: the four ways it ends, the completion of a word whose checks pass, and what the effects that go
with every word (`finish`) leave alone.
-/
namespace Sys2Proof.Machine

open Sys2Proof Sys2Proof.Safety

/-- Issue always answers a next state. -/
theorem issue_next (i : Instr) (f : Form) (body : Ctx → State → Except Stop State) (s : State) : ∃ t, issue i f body s = .next t := by
  unfold issue
  cases s.issuer with
  | none => exact ⟨s, rfl⟩
  | some u =>
    by_cases h : s.issuable u = true
    · exact ⟨issueBy i f body u s, by simp [h]⟩
    · exact ⟨s, by simp [h]⟩

/-- A word whose checks pass, whose operands are there and whose own effect does not stop takes that effect, and then all that
goes with every word. -/
theorem issue_completes {i : Instr} {f : Form} {body : Ctx → State → Except Stop State} {s s1 s2 : State} {u : Issuer}
    {vals : List (List Word)} {popped : Bool} (h : Issues i f u s vals s1 popped) (hb : body (ctxOf i u s vals) s1 = .ok s2) :
    issue i f body s = .next (finish f popped u s2) := by
  unfold issue
  rw [h.issuer]
  simp only [h.issuable, if_true]
  unfold issueBy
  rw [h.checks, h.operands]
  simp only [hb]

/-- A word whose checks pass and whose own effect stops it. -/
theorem issue_stops {i : Instr} {f : Form} {body : Ctx → State → Except Stop State} {s s1 : State} {u : Issuer} {st : Stop}
    {vals : List (List Word)} {popped : Bool} (h : Issues i f u s vals s1 popped) (hb : body (ctxOf i u s vals) s1 = .error st) :
    issue i f body s = .next (stopUnit u st s) := by
  unfold issue
  rw [h.issuer]
  simp only [h.issuable, if_true]
  unfold issueBy
  rw [h.checks, h.operands]
  simp only [hb]

/-- A word that a check stops before issue. -/
theorem issue_checked {i : Instr} {f : Form} {body : Ctx → State → Except Stop State} {s : State} {u : Issuer} {st : Stop}
    (hu : s.issuer = some u) (hi : s.issuable u = true) (h : preStop i f u s = some st) :
    issue i f body s = .next (stopUnit u st s) := by
  unfold issue
  rw [hu]
  simp only [hi, if_true]
  unfold issueBy
  rw [h]

/-- A word that an operand holds back or stops. -/
theorem issue_operand {i : Instr} {f : Form} {body : Ctx → State → Except Stop State} {s : State} {u : Issuer} {st : Stop}
    (hu : s.issuer = some u) (hi : s.issuable u = true) (hc : preStop i f u s = none) (h : operandsOf f u s = .error st) :
    issue i f body s = .next (stopUnit u st s) := by
  unfold issue
  rw [hu]
  simp only [hi, if_true]
  unfold issueBy
  rw [hc, h]

/-- A sidecar's word reads no vector source and pops nothing. -/
theorem operandsOf_sidecar {f : Form} {u : Issuer} {s : State} (h : u.gang = 16) : operandsOf f u s = .ok ([], s, false) := by
  unfold operandsOf
  rw [if_pos h]

/-- A word with no vector source and no vector destination is held back by no operand. -/
theorem operandsOf_none {f : Form} {u : Issuer} {s : State} (hs : f.srcs = []) (hd : f.dsts = []) :
    operandsOf f u s = .ok ([], s, false) := by
  unfold operandsOf
  split
  · rfl
  · simp [hs, hd, owedStop, operandStop, firstStop, readSrcs]

/-- The pops of sources change only the queues of the issuing team. -/
theorem readSrcs_team (g : Gang) (who : Nat) (lanes : Half) : ∀ (xs : List Src) (t : Team) {vals : List (List Word)} {t' : Team}
    {p : Bool}, readSrcs g who lanes xs t = .ok (vals, t', p) → t' = { t with queues := t'.queues }
  | [], t, _, _, _, h => by
    simp only [readSrcs, Except.ok.injEq, Prod.mk.injEq] at h
    obtain ⟨-, rfl, -⟩ := h
    rfl
  | x :: xs, t, vals, t', p, h => by
    unfold readSrcs at h
    split at h
    · split at h
      · cases h
      · rename_i e t1 hp
        split at h
        · cases h
        · rename_i vs t2 p2 hr
          cases h
          have h1 := readSrcs_team g who lanes xs t1 hr
          have h0 : t1 = { t with queues := t1.queues } := by
            simp only [Team.pop] at hp
            split at hp
            · cases hp
            · split at hp
              · cases hp
                rfl
              · cases hp
          rw [h1, h0]
    · split at h
      · cases h
      · split at h
        · cases h
        · rename_i vs t2 p2 hr
          cases h
          exact readSrcs_team g who lanes xs t hr

/-! ### What `finish` leaves alone -/

@[simp] theorem Gang.lanes_part (g : Gang) (m : BitVec 8) : (g.part m).lanes = g.lanes := rfl
@[simp] theorem Gang.k_part (g : Gang) (m : BitVec 8) : (g.part m).k = g.k := rfl

/-- The parting of a unit touches nothing but slices. -/
theorem Gang.part_keeps (g : Gang) (m : BitVec 8) : g.part m = { g with slices := (g.part m).slices } := rfl

/-- The turn after a parting touches nothing but the sub-gang served last. -/
theorem Gang.partTurn_keeps (g : Gang) (m : BitVec 8) : g.partTurn m = { g with lastSub := (g.partTurn m).lastSub } := by
  unfold Gang.partTurn
  split <;> rfl

@[simp] theorem Gang.slice_partTurn (g : Gang) (m : BitVec 8) (i : Nat) : (g.partTurn m).slice i = g.slice i := by
  rw [Gang.partTurn_keeps]
  rfl
@[simp] theorem Gang.lc_partTurn (g : Gang) (m : BitVec 8) : (g.partTurn m).lc = g.lc := by rw [Gang.partTurn_keeps]
@[simp] theorem Gang.levels_partTurn (g : Gang) (m : BitVec 8) : (g.partTurn m).levels = g.levels := by rw [Gang.partTurn_keeps]

/-- The advance past a word touches nothing but slices, loop counters and levels. -/
theorem Gang.advance_keeps (g : Gang) (m : BitVec 8) :
    g.advance m = { g with slices := (g.advance m).slices, lc := (g.advance m).lc, levels := (g.advance m).levels } := by
  unfold Gang.advance
  split
  · unfold Gang.loopStep
    dsimp only
    split <;> rfl
  · rfl

/-- The check of R225 touches nothing but slices. -/
theorem Gang.recheck_keeps (g : Gang) : g.recheck = { g with slices := g.recheck.slices } := by
  have : ∀ (l : List Nat) (h : Gang), h = { g with slices := h.slices } →
      l.foldl (fun g n => if (g.slice (lowSlice (g.subgang n))).stopped then g else g.part (g.subgang n)) h =
        { g with slices := (l.foldl (fun g n => if (g.slice (lowSlice (g.subgang n))).stopped then g else g.part (g.subgang n)) h).slices } := by
    intro l
    induction l with
    | nil => exact fun _ hh => hh
    | cons n l ih =>
      intro h hh
      refine ih _ ?_
      by_cases hs : (h.slice (lowSlice (h.subgang n))).stopped = true
      · simp only [hs, if_true]
        exact hh
      · simp only [hs]
        rw [hh]
        rfl
  exact this g.subs g rfl

/-- The end of a recipe body touches nothing but control, as a snapshot holds it, and Instar. -/
theorem Gang.bodyCheck_keeps (g : Gang) (m : BitVec 8) :
    g.bodyCheck m = { g with slices := (g.bodyCheck m).slices, lc := (g.bodyCheck m).lc, levels := (g.bodyCheck m).levels,
                             gmode := (g.bodyCheck m).gmode, instar := (g.bodyCheck m).instar, lcbad := (g.bodyCheck m).lcbad } := by
  unfold Gang.bodyCheck
  split
  · unfold Gang.bodyEnd
    dsimp only
    generalize hA : Gang.recheck _ = A
    rw [Gang.recheck_keeps] at hA
    subst hA
    rfl
  · rfl

/-- Outside a recipe body nothing ends. -/
theorem Gang.bodyCheck_none (g : Gang) (m : BitVec 8) (h : g.instar.body = none) : g.bodyCheck m = g := by
  unfold Gang.bodyCheck
  rw [h]
  simp

/-- What `finish` does to the issuing gang. -/
def finishGang (f : Form) (popped : Bool) (u : Issuer) (g : Gang) : Gang :=
  let sub := (g.slice (lowSlice u.slices)).sub
  let slices := if f.merges then g.subgang sub else u.slices
  let g := { g with instar := { g.instar with rewindable := g.instar.rewindable && !(f.closes || popped) },
                    skipCmp := g.skipCmp &&& ~~~ slices,
                    lastSub := sub }
  let g := g.modSlices slices (fun _ x => { x with wait := none })
  let g := if f.jumps then g else g.advance slices
  ((g.part slices).partTurn slices).bodyCheck slices

/-- The issue slot that a word counts: none for the second word of a pair (R213, R359). -/
def State.meterWord (s : State) (u : Issuer) : State := if u.second then s else s.meter (s.team u.team).part 0 1

/-- For a gang's word, `finish` meters the word and changes the gang. -/
theorem finish_gang {f : Form} {popped : Bool} {u : Issuer} {s : State} (h : u.gang ≠ 16) :
    finish f popped u s = (s.meterWord u).modGang u.team u.gang (finishGang f popped u) := by
  unfold finish
  rw [if_neg h]
  rfl

/-- For a sidecar's word, `finish` meters the word and moves the sidecar's program counter. -/
theorem finish_sidecar {f : Form} {popped : Bool} {u : Issuer} {s : State} (h : u.gang = 16) :
    finish f popped u s = (s.meterWord u).modTeam u.team (fun t => { t with side :=
      { t.side with pc := if f.jumps then t.side.pc else t.side.pc + 4#64, wait := none } }) := by
  unfold finish
  rw [if_pos h]
  rfl

/-- `finish` keeps every register of the gang, and GMODE outside a recipe body. -/
theorem finishGang_keeps (f : Form) (popped : Bool) (u : Issuer) (g : Gang) :
    finishGang f popped u g =
      { g with slices := (finishGang f popped u g).slices, lc := (finishGang f popped u g).lc,
               levels := (finishGang f popped u g).levels, gmode := (finishGang f popped u g).gmode,
               instar := (finishGang f popped u g).instar, skipCmp := (finishGang f popped u g).skipCmp,
               lastSub := (finishGang f popped u g).lastSub, lcbad := (finishGang f popped u g).lcbad } := by
  unfold finishGang
  dsimp only
  rw [Gang.bodyCheck_keeps, Gang.partTurn_keeps]
  split
  · rfl
  · generalize hA : Gang.advance _ _ = A
    rw [Gang.advance_keeps] at hA
    subst hA
    rfl

theorem finishGang_gmode (f : Form) (popped : Bool) (u : Issuer) (g : Gang) (h : g.instar.body = none) :
    (finishGang f popped u g).gmode = g.gmode := by
  unfold finishGang
  dsimp only
  rw [Gang.bodyCheck_none]
  · rw [Gang.partTurn_keeps]
    split
    · rfl
    · show (Gang.advance _ _).gmode = _
      rw [Gang.advance_keeps]
      rfl
  · rw [Gang.partTurn_keeps]
    split
    · exact h
    · show (Gang.advance _ _).instar.body = none
      rw [Gang.advance_keeps]
      exact h

theorem finishGang_lcbad (f : Form) (popped : Bool) (u : Issuer) (g : Gang) (h : g.instar.body = none) :
    (finishGang f popped u g).lcbad = g.lcbad := by
  unfold finishGang
  dsimp only
  rw [Gang.bodyCheck_none]
  · rw [Gang.partTurn_keeps]
    split
    · rfl
    · show (Gang.advance _ _).lcbad = _
      rw [Gang.advance_keeps]
      rfl
  · rw [Gang.partTurn_keeps]
    split
    · exact h
    · show (Gang.advance _ _).instar.body = none
      rw [Gang.advance_keeps]
      exact h

@[simp] theorem finishGang_lane (f : Form) (popped : Bool) (u : Issuer) (g : Gang) (l : Nat) :
    (finishGang f popped u g).lane l = g.lane l := by
  rw [finishGang_keeps]
  rfl
@[simp] theorem finishGang_kreg (f : Form) (popped : Bool) (u : Issuer) (g : Gang) (k : KNum) :
    (finishGang f popped u g).kreg k = g.kreg k := by
  rw [finishGang_keeps]
  rfl

end Sys2Proof.Machine
end

