-- ==== Sys2Proof/Laws/Gang.lean ====
section
/-!
SUPPORT. The words of a gang that touch nothing but the gang: how the frame of `OnlyGang` goes through every change they are made
of, and what becomes of the gang.
-/
namespace Sys2Proof.Machine

open Sys2Proof Sys2Proof.Safety

/-! ### The frame -/

/-- Nothing changed is within the frame. -/
theorem onlyGang_refl (s : State) (u : Issuer) : OnlyGang s s u :=
  ⟨rfl, fun _ => rfl, fun _ _ => rfl, rfl, fun _ _ => rfl⟩

/-- A change of the gang stays within the frame. -/
theorem onlyGang_modGang {s s1 : State} {u : Issuer} (h : OnlyGang s s1 u) (f : Gang → Gang) :
    OnlyGang s (s1.modGang u.team u.gang f) u where
  rest := congrArg (fun z => { z with teams := (s1.modGang u.team u.gang f).teams }) h.rest
  parts := h.parts
  teams v hv := by
    rw [← h.teams v hv]
    exact State.team_modTeam_other s1 _ (Ne.symm hv)
  team := by
    have e : (s1.modGang u.team u.gang f).team u.team = (s1.team u.team).modGang u.gang f := State.team_modTeam_same s1 u.team _
    rw [e]
    exact congrArg (fun z => { z with gangs := ((s1.team u.team).modGang u.gang f).gangs }) h.team
  gangs g hg := by
    rw [← h.gangs g hg]
    have e : (s1.modGang u.team u.gang f).team u.team = (s1.team u.team).modGang u.gang f := State.team_modTeam_same s1 u.team _
    rw [e]
    exact rowGet_rowMod_other {} _ f (Ne.symm hg)

/-- Metering stays within the frame. -/
theorem onlyGang_meter {s s1 : State} {u : Issuer} (h : OnlyGang s s1 u) (p i n : Nat) : OnlyGang s (s1.meter p i n) u where
  rest := congrArg (fun z => { z with parts := (s1.meter p i n).parts }) h.rest
  parts q := by
    by_cases e : p = q
    · subst e
      have e : (s1.meter p i n).part p = _ := State.part_modPart_same s1 p _
      rw [e, h.parts p]
    · have e : (s1.meter p i n).part q = s1.part q := State.part_modPart_other s1 _ e
      rw [e]
      exact h.parts q
  teams := h.teams
  team := h.team
  gangs := h.gangs

/-- A change of the team's queues stays within the frame. -/
theorem onlyGang_queues {s s1 : State} {u : Issuer} (h : OnlyGang s s1 u) {t : Team} (ht : t = { s1.team u.team with queues := t.queues }) :
    OnlyGang s (s1.modTeam u.team (fun _ => t)) u where
  rest := congrArg (fun z => { z with teams := (s1.modTeam u.team (fun _ => t)).teams }) h.rest
  parts := h.parts
  teams v hv := by
    rw [← h.teams v hv]
    exact State.team_modTeam_other s1 _ (Ne.symm hv)
  team := by
    have e : (s1.modTeam u.team (fun _ => t)).team u.team = t := State.team_modTeam_same s1 u.team _
    rw [e, ht]
    exact congrArg (fun z => { z with queues := t.queues }) h.team
  gangs g hg := by
    rw [← h.gangs g hg]
    have e : (s1.modTeam u.team (fun _ => t)).team u.team = t := State.team_modTeam_same s1 u.team _
    rw [e, ht]
    rfl

/-- A word that issues changes nothing but a counter of its partition by counting itself. -/
theorem onlyGang_meterWord {s s1 : State} {u : Issuer} (h : OnlyGang s s1 u) : OnlyGang s (s1.meterWord u) u := by
  unfold State.meterWord
  split
  · exact h
  · exact onlyGang_meter h _ _ _

/-- A team as it was when the word that issues counts itself. -/
@[simp] theorem State.team_meterWord (s : State) (u : Issuer) (v : Nat) : (s.meterWord u).team v = s.team v := by
  unfold State.meterWord
  split <;> rfl

/-- A gang as it was when the word that issues counts itself. -/
@[simp] theorem State.gang_meterWord (s : State) (u : Issuer) (v g : Nat) : (s.meterWord u).gang v g = s.gang v g := by
  unfold State.meterWord
  split <;> rfl

/-- The end of a sub-gang's standing at queues changes only queues. -/
theorem Team.unblock_keeps (t : Team) (g sub : Nat) : t.unblock g sub = { t with queues := (t.unblock g sub).queues } := rfl

/-- The pops of sources stay within the frame, and leave the gangs as they are. -/
theorem onlyGang_operands {f : Form} {s s1 : State} {u : Issuer} {vals : List (List Word)} {popped : Bool}
    (h : operandsOf f u s = .ok (vals, s1, popped)) : OnlyGang s s1 u ∧ s1.gang u.team u.gang = s.gang u.team u.gang := by
  unfold operandsOf at h
  split at h
  · cases h
    exact ⟨onlyGang_refl s u, rfl⟩
  · dsimp only at h
    split at h
    · cases h
    · split at h
      · cases h
      · rename_i vs t' p hr
        simp only [Except.ok.injEq, Prod.mk.injEq] at h
        obtain ⟨-, rfl, -⟩ := h
        split
        · have ht := readSrcs_team _ _ _ _ _ hr
          refine ⟨onlyGang_queues (onlyGang_refl s u) (by rw [ht]; rfl), ?_⟩
          unfold State.gang
          rw [State.team_modTeam_same, ht]
          rfl
        · exact ⟨onlyGang_refl s u, rfl⟩

/-- What goes with every word of a gang stays within the frame. -/
theorem onlyGang_finish {s s1 : State} {u : Issuer} (h : OnlyGang s s1 u) (hg : u.gang ≠ 16) (f : Form) (popped : Bool) :
    OnlyGang s (finish f popped u s1) u := by
  rw [finish_gang hg]
  exact onlyGang_modGang (onlyGang_meterWord h) _

/-- The gang after what goes with every word. -/
theorem gang_finish {s : State} {u : Issuer} (hg : u.gang ≠ 16) (f : Form) (popped : Bool) :
    (finish f popped u s).gang u.team u.gang = finishGang f popped u (s.gang u.team u.gang) := by
  rw [finish_gang hg, State.gang_modGang_same, State.gang_meterWord]

/-! ### Control after a word -/

/-- The program counter of a unit depends on its slices alone. -/
theorem Gang.pcOf_congr {g g' : Gang} {m : BitVec 8} (hm : m ≠ 0#8) (h : ∀ i, i < 8 → (g'.slice i).pc = (g.slice i).pc) :
    g'.pcOf m = g.pcOf m := h _ (lowSlice_mem hm).1

/-- Whether a level ends at a word depends on the levels and the return depths alone. -/
theorem Gang.loopEnd_congr {g g' : Gang} (m : BitVec 8) (pc : Addr) (hl : g'.levels = g.levels)
    (h : ∀ i, i < 8 → (g'.slice i).ret = (g.slice i).ret) : g'.loopEnd m pc = g.loopEnd m pc := by
  unfold Gang.loopEnd
  rw [hl]
  cases g.levels with
  | nil => rfl
  | cons x xs =>
    have e : (upTo 8).any (fun i => m.getLsbD i && decide ((g'.slice i).ret.length = x.depth)) =
        (upTo 8).any (fun i => m.getLsbD i && decide ((g.slice i).ret.length = x.depth)) := by
      rw [Bool.eq_iff_iff, List.any_eq_true, List.any_eq_true]
      constructor <;> rintro ⟨i, hi, hx⟩ <;> refine ⟨i, hi, ?_⟩ <;> rw [mem_upTo] at hi <;> rw [h i hi] at * <;> exact hx
    dsimp only
    rw [e]

/-- The parting of slices: each slice of the unit reconverges where it may, and is named for its sub-gang. -/
theorem Gang.slice_part_in (g : Gang) (m : BitVec 8) {i : Nat} (hi : i < 8) (hm : m.getLsbD i = true) (hx : (g.slice i).exited = false) :
    (g.part m).slice i = { Slice.reconverge ((g.slice i).stack.length + 1) (g.slice i) with sub := ((g.part m).slice i).sub } := by
  unfold Gang.part
  rw [Gang.slice_modSlices_in _ _ _ hi hm, Gang.slice_modSlices_in _ _ _ hi hm, hx]
  simp only [Bool.false_eq_true, if_false]
  split <;> rfl
/-- Every other slice is as before. -/
theorem Gang.slice_part_out (g : Gang) (m : BitVec 8) {i : Nat} (hi : i < 8) (hm : m.getLsbD i = false) :
    (g.part m).slice i = g.slice i := by
  unfold Gang.part
  rw [Gang.slice_modSlices_out _ _ _ hi hm, Gang.slice_modSlices_out _ _ _ hi hm]

/-- The loop-end step: the counter, the levels, and where the slices of the unit go. -/
theorem Gang.loopStep_ends (g : Gang) (m : BitVec 8) (x : LoopLevel) :
    (∀ j, (g.loopStep m x).lcount j = if j = x.lc then g.lcount x.lc - 1#32 else g.lcount j) ∧
    (g.loopStep m x).levels = (if g.lcount x.lc - 1#32 = 0#32 then g.levels.drop 1 else g.levels) ∧
    ∀ i, i < 8 → m.getLsbD i = true → (g.loopStep m x).slice i =
      { g.slice i with pc := if g.lcount x.lc - 1#32 ≠ 0#32 ∧ (g.slice i).ret.length = x.depth then x.start else x.stop + 4#64 } := by
  have hr : ∀ j, rowGet 0 (rowPut 0 g.lc x.lc (g.lcount x.lc - 1#32)) j = if j = x.lc then g.lcount x.lc - 1#32 else g.lcount j := by
    intro j
    by_cases h : j = x.lc
    · subst h; rw [if_pos rfl]; exact rowGet_rowPut_same _ _ _ _
    · rw [if_neg h]; exact rowGet_rowPut_other _ _ _ (fun e => h e.symm)
  unfold Gang.loopStep
  dsimp only
  by_cases hn : g.lcount x.lc - 1#32 = 0#32
  · rw [if_neg (by rw [hn]; exact fun h => h rfl)]
    refine ⟨hr, by rw [if_pos hn], fun i hi hs => ?_⟩
    refine Eq.trans (Gang.slice_modSlices_in { g with lc := rowPut 0 g.lc x.lc (g.lcount x.lc - 1#32) } m
      (fun _ y => { y with pc := x.stop + 4#64 }) hi hs) ?_
    rw [if_neg (fun h => h.1 hn)]
    rfl
  · rw [if_pos hn]
    refine ⟨hr, by rw [if_neg hn]; rfl, fun i hi hs => ?_⟩
    have hg : ∀ l : List Half, ({ g with lc := l } : Gang).slice i = g.slice i := fun _ => rfl
    rw [Gang.slice_modSlices_in _ _ _ hi hs, hg]
    by_cases hd : (g.slice i).ret.length = x.depth
    · rw [if_pos hd, if_pos ⟨hn, hd⟩]
    · rw [if_neg hd, if_neg (fun h => hd h.2)]

/-- A word that does not set the program counters itself passes its word. -/
theorem finishGang_passes {f : Form} {popped : Bool} {u : Issuer} {g : Gang} (hj : f.jumps = false) (hm : f.merges = false)
    (hok : g.unitOk u.slices = true) : PassesWord g (finishGang f popped u g) u.slices := by
  intro hb
  refine ⟨⟨finishGang_gmode f popped u g hb, finishGang_lcbad f popped u g hb⟩, ?_⟩
  have hne := Gang.unitOk_ne hok
  unfold finishGang
  rw [hj, hm]
  simp only [Bool.false_eq_true, if_false]
  generalize hA :
    ({ g with instar := { g.instar with rewindable := g.instar.rewindable && !(f.closes || popped) },
              skipCmp := g.skipCmp &&& ~~~ u.slices,
              lastSub := (g.slice (lowSlice u.slices)).sub } : Gang) = A
  have hA1 : ∀ i, A.slice i = g.slice i := fun i => by rw [← hA]; rfl
  have hA2 : A.levels = g.levels ∧ A.lc = g.lc ∧ A.instar.body = none := by rw [← hA]; exact ⟨rfl, rfl, hb⟩
  generalize hB : A.modSlices u.slices (fun _ x => { x with wait := none }) = B
  have hB1 : ∀ i, i < 8 → u.slices.getLsbD i = true → B.slice i = { g.slice i with wait := none } := by
    intro i hi hs
    rw [← hB, Gang.slice_modSlices_in _ _ _ hi hs, hA1]
  have hB0 : ∀ i, i < 8 → u.slices.getLsbD i = false → B.slice i = g.slice i := by
    intro i hi hs
    rw [← hB, Gang.slice_modSlices_out _ _ _ hi hs, hA1]
  have hB2 : B.levels = g.levels ∧ B.lc = g.lc ∧ B.instar.body = none := by rw [← hB]; exact hA2
  have hBr : ∀ i, i < 8 → (B.slice i).ret = (g.slice i).ret ∧ (B.slice i).pc = (g.slice i).pc := by
    intro i hi
    cases hs : u.slices.getLsbD i with
    | true => rw [hB1 i hi hs]; exact ⟨rfl, rfl⟩
    | false => rw [hB0 i hi hs]; exact ⟨rfl, rfl⟩
  have hpc : B.pcOf u.slices = g.pcOf u.slices := Gang.pcOf_congr hne (fun i hi => (hBr i hi).2)
  have hle : B.loopEnd u.slices (B.pcOf u.slices) = g.loopEnd u.slices (g.pcOf u.slices) := by
    rw [hpc]
    exact Gang.loopEnd_congr _ _ hB2.1 (fun i hi => (hBr i hi).1)
  have hbody : (((B.advance u.slices).part u.slices).partTurn u.slices).instar.body = none := by
    rw [Gang.partTurn_keeps]
    show (B.advance u.slices).instar.body = none
    rw [Gang.advance_keeps]
    exact hB2.2.2
  rw [Gang.bodyCheck_none _ _ hbody]
  simp only [Gang.slice_partTurn, Gang.lc_partTurn, Gang.levels_partTurn]
  constructor
  · intro i hi hs
    rw [Gang.slice_part_out _ _ hi hs]
    unfold Gang.advance
    split
    · unfold Gang.loopStep
      dsimp only
      split
      · rw [Gang.slice_modSlices_out _ _ _ hi hs]
        exact hB0 i hi hs
      · rename_i x _ _
        refine Eq.trans (b := (Gang.modSlices { B with lc := rowPut 0 B.lc x.lc (B.lcount x.lc - 1#32) } u.slices
          (fun _ y => { y with pc := x.stop + 4#64 })).slice i) rfl ?_
        rw [Gang.slice_modSlices_out _ _ _ hi hs]
        exact hB0 i hi hs
    · rw [Gang.slice_modSlices_out _ _ _ hi hs]
      exact hB0 i hi hs
  refine ⟨?_, ?_⟩
  · intro hl
    rw [hl] at hle
    have hadv : B.advance u.slices = B.modSlices u.slices (fun _ y => { y with pc := y.pc + 4#64 }) := by
      unfold Gang.advance
      rw [hle]
    rw [hadv]
    refine ⟨hB2.2.1, hB2.1, ?_⟩
    intro i hi hs
    have hC : (B.modSlices u.slices (fun _ y => { y with pc := y.pc + 4#64 })).slice i =
        { g.slice i with wait := none, pc := (g.slice i).pc + 4#64 } := by
      rw [Gang.slice_modSlices_in _ _ _ hi hs, hB1 i hi hs]
    have hx : ((B.modSlices u.slices (fun _ y => { y with pc := y.pc + 4#64 })).slice i).exited = false := by
      rw [hC]
      exact (Gang.unitOk_slice hok hi hs).1
    rw [Gang.slice_part_in _ _ hi hs hx, hC]
    rfl
  · intro x hl
    rw [hl] at hle
    have hadv : B.advance u.slices = B.loopStep u.slices x := by
      unfold Gang.advance
      rw [hle]
    have hlc : ∀ j, B.lcount j = g.lcount j := fun j => by unfold Gang.lcount; rw [hB2.2.1]
    obtain ⟨e1, e2, e3⟩ := Gang.loopStep_ends B u.slices x
    rw [hadv]
    refine ⟨fun j => ?_, ?_, fun i hi hs => ?_⟩
    · have e : (((B.loopStep u.slices x).part u.slices).partTurn u.slices).lcount j = (B.loopStep u.slices x).lcount j := by
        unfold Gang.lcount
        rw [Gang.lc_partTurn]
        rfl
      rw [e, ← hlc x.lc, ← hlc j]
      exact e1 j
    · rw [Gang.levels_partTurn, ← hlc x.lc, ← hB2.1]
      exact e2
    · have hC := e3 i hi hs
      rw [hB1 i hi hs, hlc] at hC
      have hx : ((B.loopStep u.slices x).slice i).exited = false := by
        rw [hC]
        exact (Gang.unitOk_slice hok hi hs).1
      have ho : ∀ a : Addr, Slice.exited { g.slice i with pc := a, wait := none } = false := fun _ => (Gang.unitOk_slice hok hi hs).1
      rw [Gang.slice_partTurn, Gang.slice_part_in _ _ hi hs hx, hC]
      unfold placed
      rw [ho]
      simp only [Bool.false_eq_true, if_false]

/-- The parts of control that `PassesWord` speaks of. -/
theorem passesWord_congr {g g1 g' : Gang} {m : BitVec 8} (h1 : g1.slices = g.slices) (h2 : g1.lc = g.lc) (h3 : g1.levels = g.levels)
    (h4 : g1.gmode = g.gmode ∧ g1.lcbad = g.lcbad) (h5 : g1.instar.body = g.instar.body) (h : PassesWord g1 g' m) : PassesWord g g' m := by
  have hs : ∀ i, g1.slice i = g.slice i := fun i => by unfold Gang.slice; rw [h1]
  intro hb
  obtain ⟨a, b, c, y⟩ := h (by rw [h5]; exact hb)
  have hp : g1.pcOf m = g.pcOf m := by unfold Gang.pcOf; rw [hs]
  refine ⟨⟨by rw [a.1, h4.1], by rw [a.2, h4.2]⟩, fun i hi hm => by rw [b i hi hm, hs], fun hl => ?_, fun x hx => ?_⟩
  rotate_left
  · have e := y x (by rw [hp, Gang.loopEnd_congr m _ h3 (fun i _ => by rw [hs])]; exact hx)
    unfold LoopEnds Gang.lcount at e ⊢
    rw [h2, h3] at e
    simp only [hs] at e
    exact e
  obtain ⟨d, e, f⟩ := c (by rw [hp, Gang.loopEnd_congr m _ h3 (fun i _ => by rw [hs])]; exact hl)
  refine ⟨by rw [d, h2], by rw [e, h3], fun i hi hm => ?_⟩
  have := f i hi hm
  rw [hs] at this
  exact this

/-- Whether a unit may issue depends on the slices alone. -/
theorem Gang.unitOk_congr {g g1 : Gang} {m : BitVec 8} (h1 : g1.slices = g.slices) (h : g.unitOk m = true) : g1.unitOk m = true := by
  have hs : ∀ i, g1.slice i = g.slice i := fun i => by unfold Gang.slice; rw [h1]
  unfold Gang.unitOk Gang.subgang Gang.pcOf at h ⊢
  simp only [hs]
  exact h

/-- Of Instar, what goes with every word changes only the marks. -/
theorem finishGang_instar (f : Form) (popped : Bool) (u : Issuer) (g : Gang) :
    (finishGang f popped u g).instar =
      { g.instar with rewindable := (finishGang f popped u g).instar.rewindable,
                      body := (finishGang f popped u g).instar.body,
                      vdirty := (finishGang f popped u g).instar.vdirty,
                      kdirty := (finishGang f popped u g).instar.kdirty } := by
  have h : ∀ (x : Gang) (m : BitVec 8), x.instar = { g.instar with rewindable := x.instar.rewindable } →
      (x.bodyCheck m).instar =
        { g.instar with rewindable := (x.bodyCheck m).instar.rewindable,
                        body := (x.bodyCheck m).instar.body,
                        vdirty := (x.bodyCheck m).instar.vdirty,
                        kdirty := (x.bodyCheck m).instar.kdirty } := by
    intro x m hx
    unfold Gang.bodyCheck
    split
    · unfold Gang.bodyEnd
      dsimp only
      rw [Gang.recheck_keeps]
      have : (x.control x.instar.snap).instar = x.instar := rfl
      dsimp only
      rw [this, hx]
    · rw [hx]
  unfold finishGang
  dsimp only
  apply h
  rw [Gang.partTurn_keeps]
  split
  · rfl
  · show (Gang.advance _ _).instar = _
    generalize hA : Gang.advance _ _ = A
    rw [Gang.advance_keeps] at hA
    rw [← hA]
    rfl

/-- What goes with a word, after an effect on registers, the reuse latch, the log and Instar's marks alone. -/
theorem gangKeeps_finish {f : Form} {popped : Bool} {u : Issuer} {g g1 : Gang} (hj : f.jumps = false) (hm : f.merges = false)
    (hok : g.unitOk u.slices = true)
    (h : g1 = { g with lanes := g1.lanes, k := g1.k, kbad := g1.kbad, latch := g1.latch, instar := g1.instar, log := g1.log })
    (hi : g1.instar = { g.instar with rewindable := g1.instar.rewindable, vdirty := g1.instar.vdirty, kdirty := g1.instar.kdirty }) :
    GangKeeps g (finishGang f popped u g1) u.slices := by
  have hs : g1.slices = g.slices := by rw [h]
  refine ⟨?_, ?_, ?_⟩
  · rw [finishGang_keeps, h]
  · rw [finishGang_instar, hi]
  · exact passesWord_congr hs (by rw [h]) (by rw [h]) (by rw [h]; exact ⟨rfl, rfl⟩) (by rw [hi])
      (finishGang_passes hj hm (Gang.unitOk_congr hs hok))

/-- What a write of a vector register in lanes does to the gang. -/
theorem Gang.writeV_keeps (g : Gang) (r : VNum) (m : Half) (v : Nat → Word) :
    g.writeV r m v = { g with lanes := (g.writeV r m v).lanes, latch := (g.writeV r m v).latch, instar := (g.writeV r m v).instar } := by
  unfold Gang.writeV
  split <;> rfl

/-- Of Instar, a write of a vector register changes only the marks. -/
theorem Gang.writeV_instar (g : Gang) (r : VNum) (m : Half) (v : Nat → Word) :
    (g.writeV r m v).instar = { g.instar with rewindable := (g.writeV r m v).instar.rewindable, vdirty := (g.writeV r m v).instar.vdirty } := by
  unfold Gang.writeV
  split <;> rfl

/-- A write of a vector register changes only vector registers of a lane. -/
theorem Gang.lane_writeV_keeps (g : Gang) (r : VNum) (m : Half) (v : Nat → Word) {l : Nat} (hl : l < 32) :
    (g.writeV r m v).lane l = { g.lane l with v := ((g.writeV r m v).lane l).v } := by
  cases hm : m.getLsbD l with
  | false => rw [Gang.lane_writeV_out g r m v hl hm]
  | true =>
    have h0 : m ≠ 0#32 := by
      rintro rfl
      simp at hm
    unfold Gang.writeV
    rw [if_neg h0]
    rw [Gang.lane_touchV, Gang.lane_modLanes_in g m _ hl hm]
    rfl

/-- A vector register written, with whatever the log takes, and the word finished. -/
theorem vectorResult_finish {f : Form} {popped : Bool} {u : Issuer} {g : Gang} (hj : f.jumps = false) (hm : f.merges = false)
    (hok : g.unitOk u.slices = true) (d : VNum) (m : Half) (v : Nat → Word) (lg : List LogHeld) :
    VectorResult g (finishGang f popped u { g.writeV d m v with log := lg }) u.slices m d v where
  toGangKeeps := gangKeeps_finish hj hm hok
    (by rw [Gang.writeV_keeps g d m v])
    (by
      show (g.writeV d m v).instar = _
      rw [Gang.writeV_instar g d m v])
  k := by
    rw [finishGang_keeps]
    have := Gang.writeV_keeps g d m v
    constructor
    · show (g.writeV d m v).k = g.k
      rw [this]
    · show (g.writeV d m v).kbad = g.kbad
      rw [this]
  lane l hl := by
    rw [finishGang_lane]
    exact Gang.lane_writeV_keeps g d m v hl
  regs l hl r := by
    rw [finishGang_lane]
    show ((g.writeV d m v).lane l).vreg r = _
    cases hb : m.getLsbD l with
    | false =>
      rw [Gang.lane_writeV_out g d m v hl hb]
      simp
    | true =>
      by_cases hr : r = d
      · subst hr
        rw [Gang.vreg_writeV_in g r m v hl hb]
        simp
      · rw [Gang.vreg_writeV_other g m v hl (fun e => hr e.symm)]
        simp [hr]

/-- What a write of a predicate in lanes does to the gang. -/
theorem Gang.writeP_keeps (g : Gang) (p : PNum) (m : Half) (v : Nat → Bool) :
    g.writeP p m v = { g with lanes := (g.writeP p m v).lanes } := rfl

/-- A predicate written, with whatever the log takes, and the word finished. -/
theorem predicateResult_finish {f : Form} {popped : Bool} {u : Issuer} {g : Gang} (hj : f.jumps = false) (hm : f.merges = false)
    (hok : g.unitOk u.slices = true) (p : PNum) (m : Half) (v : Nat → Bool) (lg : List LogHeld) :
    PredicateResult g (finishGang f popped u { g.writeP p m v with log := lg }) u.slices m p v where
  toGangKeeps := gangKeeps_finish hj hm hok rfl rfl
  k := by rw [finishGang_keeps]; exact ⟨rfl, rfl⟩
  latch := by rw [finishGang_keeps]; rfl
  lane l hl := by
    rw [finishGang_lane]
    show (g.writeP p m v).lane l = { g.lane l with p := ((g.writeP p m v).lane l).p }
    unfold Gang.writeP
    cases hb : m.getLsbD l with
    | false => rw [Gang.lane_modLanes_out g m _ hl hb]
    | true =>
      rw [Gang.lane_modLanes_in g m _ hl hb]
      unfold Lane.setP
      split <;> rfl
  preds l hl q := by
    rw [finishGang_lane]
    show ((g.writeP p m v).lane l).pred q = _
    unfold Gang.writeP
    cases hb : m.getLsbD l with
    | false =>
      rw [Gang.lane_modLanes_out g m _ hl hb]
      simp
    | true =>
      rw [Gang.lane_modLanes_in g m _ hl hb]
      by_cases hq : q = p
      · subst hq
        by_cases h0 : q = 0#3
        · subst h0
          simp
        · rw [Lane.pred_setP_same _ _ h0]
          simp [h0]
      · rw [Lane.pred_setP_other _ _ (fun e => hq e.symm)]
        simp [hq]

/-- A k register written, and the word finished. -/
theorem kResult_finish {f : Form} {popped : Bool} {u : Issuer} {g : Gang} (hj : f.jumps = false) (hm : f.merges = false)
    (hok : g.unitOk u.slices = true) (d : KNum) (w : Word) :
    KResult g (finishGang f popped u (g.writeK d w)) u.slices d w where
  toGangKeeps := gangKeeps_finish hj hm hok rfl rfl
  lanes := by rw [finishGang_keeps]; rfl
  others := by rw [finishGang_keeps]; exact ⟨rfl, rfl⟩
  regs k := by
    rw [finishGang_kreg]
    by_cases h : k = d
    · subst h
      simp
    · rw [if_neg h]
      exact Gang.kreg_writeK_other g w (fun e => h e.symm)
  bad k := by
    rw [finishGang_keeps]
    show (g.kbad &&& ~~~ (1#32 <<< d.toNat)).getLsbD k.toNat = _
    have hk : k.toNat < 32 := k.isLt
    by_cases h : k = d
    · subst h
      simp [hk]
    · have hne : k.toNat ≠ d.toNat := fun e => h (BitVec.eq_of_toNat_eq e)
      have hd : d.toNat < 32 := d.isLt
      cases hb : g.kbad.getLsbD k.toNat
      · simp [hb]
      · simp [hb, h, hk]
        omega

/-- Nothing but control changed, and the word finished. -/
theorem controlOnly_finish (f : Form) (popped : Bool) (u : Issuer) {g g1 : Gang}
    (h : g1 = { g with slices := g1.slices, lc := g1.lc, levels := g1.levels }) : ControlOnly g (finishGang f popped u g1) where
  rest := by
    rw [finishGang_keeps, h]
  instar := by
    rw [finishGang_instar, h]
  gmode hb := by
    rw [finishGang_gmode _ _ _ _ (by rw [h]; exact hb), finishGang_lcbad _ _ _ _ (by rw [h]; exact hb), h]
    exact ⟨rfl, rfl⟩

/-! ### Writes by the issuing gang -/

/-- A write of a vector register by a gang is a change of the gang. -/
theorem State.writeK_gang (s : State) {u : Issuer} (h : u.gang ≠ 16) (k : KNum) (w : Word) :
    s.writeK u k w = s.modGang u.team u.gang (fun g => g.writeK k w) := by
  unfold State.writeK
  rw [if_neg h]

/-- A write of a k register by a sidecar is a change of the sidecar. -/
theorem State.writeK_side (s : State) {u : Issuer} (h : u.gang = 16) (k : KNum) (w : Word) :
    s.writeK u k w = s.modTeam u.team (fun t => { t with side :=
      { t.side with k := rowPut 0 t.side.k k.toNat w, kbad := t.side.kbad &&& ~~~ (1#32 <<< k.toNat) } }) := by
  unfold State.writeK
  rw [if_pos h]

/-- A unit of a gang that may issue. -/
theorem State.issuable_gang {s : State} {u : Issuer} (h : s.issuable u = true) (hg : u.gang ≠ 16) :
    (s.gang u.team u.gang).unitOk u.slices = true := by
  unfold State.issuable at h
  dsimp only at h
  rw [if_neg hg] at h
  simp only [Bool.and_eq_true] at h
  exact h.2.2

/-- The completion of a gang's word whose effect stays within the gang. -/
theorem gang_completes {i : Instr} {f : Form} {body : Ctx → State → Except Stop State} {s s1 s2 : State} {u : Issuer}
    {vals : List (List Word)} {popped : Bool} (h : GangIssues i f u s vals s1 popped) (hb : body (ctxOf i u s vals) s1 = .ok s2)
    (ho : OnlyGang s s2 u) :
    ∃ t, issue i f body s = .next t ∧ OnlyGang s t u ∧ t.gang u.team u.gang = finishGang f popped u (s2.gang u.team u.gang) :=
  ⟨_, issue_completes h.toIssues hb, onlyGang_finish ho h.isGang f popped, gang_finish h.isGang f popped⟩

/-- What a gang's word sees. -/
theorem ctxOf_gang {i : Instr} {u : Issuer} {s : State} {vals : List (List Word)} (hg : u.gang ≠ 16) :
    ctxOf i u s vals = { u := u, t := s.team u.team, g := s.gang u.team u.gang, pc := (s.gang u.team u.gang).pcOf u.slices,
                         word := (encode i).getD 0#32, active := (s.gang u.team u.gang).activeOf u.slices,
                         part := (s.gang u.team u.gang).participants u.slices, vals := vals } := by
  unfold ctxOf
  dsimp only
  rw [if_neg hg]
  rfl

/-- The state after the pops of a word's sources has the same gang, cycle, and core of residence. -/
theorem operandsOf_same {f : Form} {s s1 : State} {u : Issuer} {vals : List (List Word)} {popped : Bool}
    (h : operandsOf f u s = .ok (vals, s1, popped)) :
    s1.gang u.team u.gang = s.gang u.team u.gang ∧ s1.cycle = s.cycle ∧ (s1.team u.team).core = (s.team u.team).core := by
  obtain ⟨ho, hg⟩ := onlyGang_operands h
  exact ⟨hg, by rw [ho.rest], by rw [ho.team]⟩

/-- The gang after a write of a vector register in lanes with the causes it raises. -/
theorem State.gang_writeV_raise (s : State) (u : Issuer) (d : VNum) (m : Half) (v : Nat → Word) (pc : Addr) (cs : Nat → Causes) :
    ((s.writeV u d m v).raise u.team u.gang pc m cs).gang u.team u.gang =
      { (s.gang u.team u.gang).writeV d m v with
        log := logAfter (s.gang u.team u.gang).log
          (fun i => if causeOn (gmAen (s.gang u.team u.gang).gmode) i then maskOf (fun l => m.getLsbD l && (cs l).getLsbD i) else 0#32)
          (blockOf pc) s.cycle (s.team u.team).core } := by
  have e : (s.writeV u d m v).gang u.team u.gang = (s.gang u.team u.gang).writeV d m v := State.gang_modGang_same s u.team u.gang _
  have hk := Gang.writeV_keeps (s.gang u.team u.gang) d m v
  have hc : ((s.writeV u d m v).team u.team).core = (s.team u.team).core := by
    have : (s.writeV u d m v).team u.team = (s.team u.team).modGang u.gang (fun g => g.writeV d m v) := State.team_modTeam_same s u.team _
    rw [this]
    rfl
  unfold State.raise State.raiseIn
  rw [State.gang_modGang_same, e, hc, hk]
  rfl

/-- A write of a predicate in lanes, with the causes raised. -/
theorem State.gang_writeP_raise (s : State) (u : Issuer) (p : PNum) (m : Half) (v : Nat → Bool) (pc : Addr) (cs : Nat → Causes) :
    ∃ lg, ((s.writeP u p m v).raise u.team u.gang pc m cs).gang u.team u.gang = { (s.gang u.team u.gang).writeP p m v with log := lg } := by
  have e : (s.writeP u p m v).gang u.team u.gang = (s.gang u.team u.gang).writeP p m v := State.gang_modGang_same s u.team u.gang _
  unfold State.raise State.raiseIn
  rw [State.gang_modGang_same, e]
  exact ⟨_, rfl⟩

/-- A word that writes a vector register in the participating lanes with its causes raised. -/
theorem vector_word {i : Instr} {f : Form} {body : Ctx → State → Except Stop State} {s s1 : State} {u : Issuer}
    {vals : List (List Word)} {popped : Bool} (h : GangIssues i f u s vals s1 popped) (hj : f.jumps = false) (hm : f.merges = false)
    (d : VNum) (r : Nat → Word × Causes)
    (hb : body (ctxOf i u s vals) s1 = .ok ((s1.writeV u d (partOf s u) (fun l => (r l).1)).raise u.team u.gang (pcAt s u)
      (partOf s u) (fun l => (r l).2))) :
    ∃ t, issue i f body s = .next t ∧ OnlyGang s t u ∧
      VectorResult (s.gang u.team u.gang) (t.gang u.team u.gang) u.slices (partOf s u) d (fun l => (r l).1) ∧
      (t.gang u.team u.gang).log = logRaised s u (partOf s u) (fun l => (r l).2) := by
  obtain ⟨ho, -⟩ := onlyGang_operands h.operands
  obtain ⟨hg, hc, hcore⟩ := operandsOf_same h.operands
  obtain ⟨t, ht, hO, hG⟩ := gang_completes h hb (onlyGang_modGang (onlyGang_modGang ho _) _)
  rw [State.gang_writeV_raise, hg, hc, hcore] at hG
  refine ⟨t, ht, hO, ?_, ?_⟩
  · rw [hG]
    exact vectorResult_finish hj hm (State.issuable_gang h.issuable h.isGang) _ _ _ _
  · rw [hG, finishGang_keeps]
    rfl

/-- A word of the shared lane-wise path is its row. -/
theorem lane_word {i : Instr} {srcs : List Src} {d : VNum} {legal : ElemType → Bool} {fn : LaneFn} {s s1 : State} {u : Issuer}
    {vals : List (List Word)} {popped : Bool} {sp : LaneSpec} (h : GangIssues i sp.form u s vals s1 popped) (hs : sp.srcs = srcs)
    (hm : sp.mode = readsEt legal) (hk : sp.ks = []) (hd : sp.d = d)
    (hr : ∀ g v l, sp.res g v l = fn ((gmEt g.gmode).getD .i8) (modesOf g.gmode) (fun j => v j l)) :
    ∃ t, laneWord i srcs d legal fn s = .next t ∧ OnlyGang s t u ∧
      VectorResult (s.gang u.team u.gang) (t.gang u.team u.gang) u.slices (partOf s u) sp.d
        (fun l => (sp.res (s.gang u.team u.gang) (valOf vals) l).1) ∧
      (t.gang u.team u.gang).log = logRaised s u (partOf s u) (fun l => (sp.res (s.gang u.team u.gang) (valOf vals) l).2) := by
  subst hd hs
  have hf : sp.form = { srcs := sp.srcs, dsts := [sp.d], mode := readsEt legal } := by
    unfold LaneSpec.form
    rw [hm, hk]
  rw [hf] at h
  unfold laneWord
  apply vector_word h rfl rfl sp.d (fun l => sp.res (s.gang u.team u.gang) (valOf vals) l)
  rw [ctxOf_gang h.isGang]
  simp only [hr]
  rfl

/-- A gang whose log raises no cause keeps it. -/
theorem logRaised_none (s : State) (u : Issuer) (m : Half) : logRaised s u m (fun _ => noCause) = (s.gang u.team u.gang).log := by
  unfold logRaised
  dsimp only
  have hz : ∀ i, (if causeOn (gmAen (s.gang u.team u.gang).gmode) i then maskOf (fun l => m.getLsbD l && noCause.getLsbD i) else 0#32) = 0#32 := by
    intro i
    split
    · apply BitVec.eq_of_getLsbD_eq
      intro l hl
      rw [getLsbD_maskOf _ hl]
      simp [noCause]
    · rfl
  unfold logAfter
  simp only [hz]
  simp

/-- A word that writes a vector register and raises nothing. -/
theorem quiet_word {i : Instr} {f : Form} {body : Ctx → State → Except Stop State} {s s1 : State} {u : Issuer}
    {vals : List (List Word)} {popped : Bool} (h : GangIssues i f u s vals s1 popped) (hj : f.jumps = false) (hm : f.merges = false)
    (d : VNum) (r : Nat → Word)
    (hb : body (ctxOf i u s vals) s1 = .ok (s1.writeV u d (partOf s u) r)) :
    ∃ t, issue i f body s = .next t ∧ OnlyGang s t u ∧
      VectorResult (s.gang u.team u.gang) (t.gang u.team u.gang) u.slices (partOf s u) d r ∧
      (t.gang u.team u.gang).log = (s.gang u.team u.gang).log := by
  obtain ⟨ho, -⟩ := onlyGang_operands h.operands
  obtain ⟨hg, hc, hcore⟩ := operandsOf_same h.operands
  obtain ⟨t, ht, hO, hG⟩ := gang_completes h hb (onlyGang_modGang ho _)
  have e : (s1.writeV u d (partOf s u) r).gang u.team u.gang = (s1.gang u.team u.gang).writeV d (partOf s u) r :=
    State.gang_modGang_same s1 u.team u.gang _
  rw [e, hg] at hG
  have hl : (s.gang u.team u.gang).writeV d (partOf s u) r =
      { (s.gang u.team u.gang).writeV d (partOf s u) r with log := (s.gang u.team u.gang).log } := by
    rw [Gang.writeV_keeps]
  refine ⟨t, ht, hO, ?_, ?_⟩
  · rw [hG, hl]
    exact vectorResult_finish hj hm (State.issuable_gang h.issuable h.isGang) _ _ _ _
  · rw [hG, finishGang_keeps]
    rw [hl]

/-- A word that writes a predicate in the participating lanes. -/
theorem predicate_word {i : Instr} {f : Form} {body : Ctx → State → Except Stop State} {s s1 : State} {u : Issuer}
    {vals : List (List Word)} {popped : Bool} (h : GangIssues i f u s vals s1 popped) (hj : f.jumps = false) (hm : f.merges = false)
    (p : PNum) (r : Nat → Bool) (cs : Option (Nat → Causes))
    (hb : body (ctxOf i u s vals) s1 = .ok (match cs with
      | none => s1.writeP u p (partOf s u) r
      | some cs => (s1.writeP u p (partOf s u) r).raise u.team u.gang (pcAt s u) (partOf s u) cs)) :
    ∃ t, issue i f body s = .next t ∧ OnlyGang s t u ∧
      PredicateResult (s.gang u.team u.gang) (t.gang u.team u.gang) u.slices (partOf s u) p r := by
  obtain ⟨ho, -⟩ := onlyGang_operands h.operands
  obtain ⟨hg, hc, hcore⟩ := operandsOf_same h.operands
  have e : (s1.writeP u p (partOf s u) r).gang u.team u.gang = (s1.gang u.team u.gang).writeP p (partOf s u) r :=
    State.gang_modGang_same s1 u.team u.gang _
  cases cs with
  | none =>
    obtain ⟨t, ht, hO, hG⟩ := gang_completes h hb (onlyGang_modGang ho _)
    refine ⟨t, ht, hO, ?_⟩
    rw [hG, e, hg]
    exact predicateResult_finish hj hm (State.issuable_gang h.issuable h.isGang) p (partOf s u) r (s.gang u.team u.gang).log
  | some cs =>
    obtain ⟨t, ht, hO, hG⟩ := gang_completes h hb (onlyGang_modGang (onlyGang_modGang ho _) _)
    obtain ⟨lg, hl⟩ := State.gang_writeP_raise s1 u p (partOf s u) r (pcAt s u) cs
    refine ⟨t, ht, hO, ?_⟩
    rw [hG, hl, hg]
    exact predicateResult_finish hj hm (State.issuable_gang h.issuable h.isGang) p (partOf s u) r lg

/-- A word that writes a k register of its gang. -/
theorem k_word {i : Instr} {f : Form} {body : Ctx → State → Except Stop State} {s s1 : State} {u : Issuer}
    {vals : List (List Word)} {popped : Bool} (h : GangIssues i f u s vals s1 popped) (hj : f.jumps = false) (hm : f.merges = false)
    (d : KNum) (w : Word) (hb : body (ctxOf i u s vals) s1 = .ok (s1.writeK u d w)) :
    ∃ t, issue i f body s = .next t ∧ OnlyGang s t u ∧
      KResult (s.gang u.team u.gang) (t.gang u.team u.gang) u.slices d w ∧
      t.gang u.team u.gang = finishGang f popped u ((s.gang u.team u.gang).writeK d w) := by
  obtain ⟨ho, -⟩ := onlyGang_operands h.operands
  obtain ⟨hg, -, -⟩ := operandsOf_same h.operands
  rw [State.writeK_gang s1 h.isGang] at hb
  obtain ⟨t, ht, hO, hG⟩ := gang_completes h hb (onlyGang_modGang ho _)
  rw [State.gang_modGang_same, hg] at hG
  refine ⟨t, ht, hO, ?_, hG⟩
  rw [hG]
  exact kResult_finish hj hm (State.issuable_gang h.issuable h.isGang) d w

/-- Outside a recipe's body, an Instar region stays open but for the word's own closing, pops, and writes of named registers. -/
theorem finishGang_rewindable (f : Form) (popped : Bool) (u : Issuer) (g : Gang) (h : g.instar.body = none) :
    (finishGang f popped u g).instar.rewindable = (g.instar.rewindable && !(f.closes || popped)) := by
  unfold finishGang
  dsimp only
  rw [Gang.bodyCheck_none]
  · rw [Gang.partTurn_keeps]
    split
    · rfl
    · show (Gang.advance _ _).instar.rewindable = _
      rw [Gang.advance_keeps]
      rfl
  · rw [Gang.partTurn_keeps]
    split
    · exact h
    · show (Gang.advance _ _).instar.body = none
      rw [Gang.advance_keeps]
      exact h

/-! ### A sidecar's word -/

/-- Nothing changed is within the frame. -/
theorem onlySide_refl (s : State) (u : Issuer) : OnlySide s s u := ⟨rfl, fun _ => rfl, fun _ _ => rfl, rfl⟩

/-- A change of the sidecar stays within the frame. -/
theorem onlySide_modSide {s s1 : State} {u : Issuer} (h : OnlySide s s1 u) (f : Sidecar → Sidecar) :
    OnlySide s (s1.modTeam u.team (fun t => { t with side := f t.side })) u where
  rest := congrArg (fun z => { z with teams := (s1.modTeam u.team (fun t => { t with side := f t.side })).teams }) h.rest
  parts := h.parts
  teams v hv := by
    rw [← h.teams v hv]
    exact State.team_modTeam_other s1 _ (Ne.symm hv)
  team := by
    rw [State.team_modTeam_same]
    exact congrArg (fun z => { z with side := f (s1.team u.team).side }) h.team

/-- Metering stays within the frame. -/
theorem onlySide_meter {s s1 : State} {u : Issuer} (h : OnlySide s s1 u) (p i n : Nat) : OnlySide s (s1.meter p i n) u where
  rest := congrArg (fun z => { z with parts := (s1.meter p i n).parts }) h.rest
  parts q := by
    by_cases e : p = q
    · subst e
      have e : (s1.meter p i n).part p = _ := State.part_modPart_same s1 p _
      rw [e, h.parts p]
    · have e : (s1.meter p i n).part q = s1.part q := State.part_modPart_other s1 _ e
      rw [e]
      exact h.parts q
  teams := h.teams
  team := h.team

/-- So does a word that counts itself. -/
theorem onlySide_meterWord {s s1 : State} {u : Issuer} (h : OnlySide s s1 u) : OnlySide s (s1.meterWord u) u := by
  unfold State.meterWord
  split
  · exact h
  · exact onlySide_meter h _ _ _

/-- The completion of a sidecar's word whose effect stays within the sidecar. -/
theorem side_completes {i : Instr} {f : Form} {body : Ctx → State → Except Stop State} {s s2 : State} {u : Issuer}
    (h : SidecarIssues i f u s) (hb : body (ctxOf i u s []) s = .ok s2) (ho : OnlySide s s2 u) :
    ∃ t, issue i f body s = .next t ∧ OnlySide s t u ∧
      (t.team u.team).side = { (s2.team u.team).side with
        pc := if f.jumps then (s2.team u.team).side.pc else (s2.team u.team).side.pc + 4#64, wait := none } := by
  refine ⟨_, issue_completes ⟨h.issuer, h.issuable, h.checks, operandsOf_sidecar h.isSidecar⟩ hb, ?_, ?_⟩
  · rw [finish_sidecar h.isSidecar]
    exact onlySide_modSide (onlySide_meterWord ho)
      (fun x => { x with pc := if f.jumps then x.pc else x.pc + 4#64, wait := none })
  · rw [finish_sidecar h.isSidecar, State.team_modTeam_same, State.team_meterWord]

/-- What a sidecar's word sees. -/
theorem ctxOf_side {i : Instr} {u : Issuer} {s : State} {vals : List (List Word)} (hg : u.gang = 16) :
    ctxOf i u s vals = { u := u, t := s.team u.team, g := {}, pc := (s.team u.team).side.pc, word := (encode i).getD 0#32,
                         active := 0#32, part := 0#32, vals := vals } := by
  unfold ctxOf
  dsimp only
  rw [if_pos hg]

/-- A word that writes a k register of its sidecar. -/
theorem side_k_word {i : Instr} {f : Form} {body : Ctx → State → Except Stop State} {s : State} {u : Issuer}
    (h : SidecarIssues i f u s) (hj : f.jumps = false) (d : KNum) (w : Word) (hb : body (ctxOf i u s []) s = .ok (s.writeK u d w)) :
    ∃ t, issue i f body s = .next t ∧ OnlySide s t u ∧ SideKResult (s.team u.team).side (t.team u.team).side d w := by
  rw [State.writeK_side s h.isSidecar] at hb
  obtain ⟨t, ht, hO, hS⟩ := side_completes h hb (onlySide_modSide (onlySide_refl s u)
    (fun x => { x with k := rowPut 0 x.k d.toNat w, kbad := x.kbad &&& ~~~ (1#32 <<< d.toNat) }))
  rw [State.team_modTeam_same, hj] at hS
  refine ⟨t, ht, hO, ?_, ?_, ?_⟩
  · rw [hS]
    rfl
  · intro k
    rw [hS]
    show rowGet 0 (rowPut 0 (s.team u.team).side.k d.toNat w) k.toNat = _
    by_cases hk : k = d
    · subst hk
      simp
    · rw [if_neg hk]
      exact rowGet_rowPut_other _ _ _ (fun e => hk (BitVec.eq_of_toNat_eq e.symm))
  · intro k
    rw [hS]
    show ((s.team u.team).side.kbad &&& ~~~ (1#32 <<< d.toNat)).getLsbD k.toNat = _
    have hk : k.toNat < 32 := k.isLt
    by_cases h : k = d
    · subst h
      simp [hk]
    · have hne : k.toNat ≠ d.toNat := fun e => h (BitVec.eq_of_toNat_eq e)
      cases hb : (s.team u.team).side.kbad.getLsbD k.toNat
      · simp [hb]
      · simp [hb, h, hk]
        omega

/-- Of the gang, a raise of causes changes only the log. -/
theorem State.gang_raise (s : State) (u g : Nat) (pc : Addr) (m : Half) (cs : Nat → Causes) :
    ∃ lg, (s.raise u g pc m cs).gang u g = { s.gang u g with log := lg } := by
  unfold State.raise State.raiseIn
  rw [State.gang_modGang_same]
  exact ⟨_, rfl⟩

/-! ### Transfers -/

/-- Counters set to 0 one after another. -/
theorem rowGet_zeros : ∀ (ls : List LoopLevel) (lc : List Half) (n : Nat),
    rowGet 0 (ls.foldl (fun lc x => rowPut 0 lc x.lc 0) lc) n = if ls.any (fun x => x.lc = n) then 0 else rowGet 0 lc n
  | [], _, _ => rfl
  | x :: ls, lc, n => by
    rw [List.foldl_cons, rowGet_zeros ls, List.any_cons]
    by_cases h : x.lc = n
    · subst h
      simp
    · rw [rowGet_rowPut_other _ _ _ h]
      simp [h]

/-- The parting of slices that may have exited. -/
theorem Gang.slice_part_placed (g : Gang) (m : BitVec 8) {i : Nat} (hi : i < 8) (hm : m.getLsbD i = true) :
    (g.part m).slice i = { placed (g.slice i) with sub := ((g.part m).slice i).sub } := by
  unfold Gang.part placed
  rw [Gang.slice_modSlices_in _ _ _ hi hm, Gang.slice_modSlices_in _ _ _ hi hm]
  cases hx : (g.slice i).exited
  · simp only [Bool.false_eq_true, if_false]
    split <;> rfl
  · simp only [if_true, hx]

/-- A transfer, and all that goes with the word. -/
theorem transfers_finish {f : Form} {popped : Bool} {u : Issuer} {g : Gang} (hj : f.jumps = true) (hm : f.merges = false)
    (place : Nat → Slice → Slice) (ends : LoopLevel → Bool) :
    Transfers g (finishGang f popped u ((g.closeLevels ends).modSlices u.slices place)) u.slices place ends := by
  have hc := controlOnly_finish f popped u (g := g) (g1 := (g.closeLevels ends).modSlices u.slices place) rfl
  have hl : ∀ h : g.instar.body = none, finishGang f popped u ((g.closeLevels ends).modSlices u.slices place) =
      ((({ (g.closeLevels ends).modSlices u.slices place with
          instar := { g.instar with rewindable := g.instar.rewindable && !(f.closes || popped) },
          skipCmp := g.skipCmp &&& ~~~ u.slices,
          lastSub := (((g.closeLevels ends).modSlices u.slices place).slice (lowSlice u.slices)).sub } : Gang).modSlices u.slices
        (fun _ x => { x with wait := none })).part u.slices).partTurn u.slices := by
    intro h
    unfold finishGang
    rw [hj, hm]
    simp only [Bool.false_eq_true, if_false, if_true]
    rw [Gang.bodyCheck_none]
    · rfl
    · rw [Gang.partTurn_keeps]
      exact h
  refine ⟨hc, ?_, ?_, ?_⟩
  · intro h i hi
    rw [hl h, Gang.slice_partTurn]
    cases hs : u.slices.getLsbD i
    · rw [Gang.slice_part_out _ _ hi hs, Gang.slice_modSlices_out _ _ _ hi hs]
      simp only [Bool.false_eq_true, if_false]
      exact Gang.slice_modSlices_out (g.closeLevels ends) _ _ hi hs
    · rw [Gang.slice_part_placed _ _ hi hs, Gang.slice_modSlices_in _ _ _ hi hs]
      simp only [if_true]
      have : (({ (g.closeLevels ends).modSlices u.slices place with
          instar := { g.instar with rewindable := g.instar.rewindable && !(f.closes || popped) },
          skipCmp := g.skipCmp &&& ~~~ u.slices,
          lastSub := (((g.closeLevels ends).modSlices u.slices place).slice (lowSlice u.slices)).sub } : Gang)).slice i =
          place i (g.slice i) := Gang.slice_modSlices_in (g.closeLevels ends) _ _ hi hs
      rw [this]
  · intro h
    rw [hl h, Gang.levels_partTurn]
    rfl
  · intro h n
    rw [hl h, Gang.lc_partTurn]
    show rowGet 0 ((g.levels.filter ends).foldl (fun lc x => rowPut 0 lc x.lc 0) g.lc) n = _
    rw [rowGet_zeros, List.any_filter]

/-- No level closed is no change. -/
@[simp] theorem Gang.closeLevels_none (g : Gang) : g.closeLevels (fun _ => false) = g := by
  have h1 : g.levels.filter (fun _ => false) = [] := by simp
  have h2 : g.levels.filter (fun _ => true) = g.levels := by simp
  unfold Gang.closeLevels
  simp only [h1, Bool.not_false, h2, List.foldl_nil]

/-- A word that transfers control. -/
theorem transfer_word {i : Instr} {f : Form} {body : Ctx → State → Except Stop State} {s s1 : State} {u : Issuer}
    {vals : List (List Word)} {popped : Bool} (h : GangIssues i f u s vals s1 popped) (hj : f.jumps = true) (hm : f.merges = false)
    (place : Nat → Slice → Slice) (ends : LoopLevel → Bool)
    (hb : body (ctxOf i u s vals) s1 =
      .ok (s1.modGang u.team u.gang (fun g => (g.closeLevels ends).modSlices u.slices place))) :
    ∃ t, issue i f body s = .next t ∧ OnlyGang s t u ∧
      Transfers (s.gang u.team u.gang) (t.gang u.team u.gang) u.slices place ends := by
  obtain ⟨ho, -⟩ := onlyGang_operands h.operands
  obtain ⟨hg, -, -⟩ := operandsOf_same h.operands
  obtain ⟨t, ht, hO, hG⟩ := gang_completes h hb (onlyGang_modGang ho _)
  refine ⟨t, ht, hO, ?_⟩
  rw [hG, State.gang_modGang_same, hg]
  exact transfers_finish hj hm place ends

/-- Reconvergence does not look at the name of the sub-gang. -/
theorem Slice.reconverge_sub (k : Nat) : ∀ (n : Nat) (x : Slice),
    Slice.reconverge n { x with sub := k } = { Slice.reconverge n x with sub := k }
  | 0, _ => rfl
  | n + 1, ⟨pc, m, x, rc, [], ret, sub, wait, stopped, stopPc, held⟩ => rfl
  | n + 1, ⟨pc, m, x, rc, e :: rest, ret, sub, wait, stopped, stopPc, held⟩ => by
    unfold Slice.reconverge
    dsimp only
    by_cases h : e.ra ≠ some pc
    · rw [if_pos h, if_pos h]
    · rw [if_neg h, if_neg h]
      by_cases h2 : e.pc ≠ e.ra
      · rw [if_pos h2, if_pos h2]
        exact Slice.reconverge_sub k n ⟨e.pc.getD 0, e.mask &&& ~~~ x, x, _, rest, ret, sub, wait, stopped, stopPc, held⟩
      · rw [if_neg h2, if_neg h2]
        exact Slice.reconverge_sub k n ⟨pc, e.mask &&& ~~~ x, x, _, rest, ret, sub, wait, stopped, stopPc, held⟩

/-- A gang's word that changes the gang by a function that leaves slices alone. -/
theorem gang_word {i : Instr} {f : Form} {body : Ctx → State → Except Stop State} {s s1 : State} {u : Issuer}
    {vals : List (List Word)} {popped : Bool} (h : GangIssues i f u s vals s1 popped) (F : Gang → Gang)
    (hb : body (ctxOf i u s vals) s1 = .ok (s1.modGang u.team u.gang F)) :
    ∃ t, issue i f body s = .next t ∧ OnlyGang s t u ∧ t.gang u.team u.gang = finishGang f popped u (F (s.gang u.team u.gang)) := by
  obtain ⟨ho, hg⟩ := onlyGang_operands h.operands
  obtain ⟨t, ht, hO, hG⟩ := gang_completes h hb (onlyGang_modGang ho _)
  refine ⟨t, ht, hO, ?_⟩
  rw [hG, State.gang_modGang_same, hg]

/-- A word that writes a vector register in some lanes, and raises no cause. -/
theorem quiet_word_in {i : Instr} {f : Form} {body : Ctx → State → Except Stop State} {s s1 : State} {u : Issuer}
    {vals : List (List Word)} {popped : Bool} (h : GangIssues i f u s vals s1 popped) (hj : f.jumps = false) (hm : f.merges = false)
    (d : VNum) (m : Half) (r : Nat → Word) (hb : body (ctxOf i u s vals) s1 = .ok (s1.writeV u d m r)) :
    ∃ t, issue i f body s = .next t ∧ OnlyGang s t u ∧ VectorResult (s.gang u.team u.gang) (t.gang u.team u.gang) u.slices m d r ∧
      (t.gang u.team u.gang).log = (s.gang u.team u.gang).log := by
  obtain ⟨t, ht, hO, hG⟩ := gang_word h (fun g => g.writeV d m r) hb
  have hok := State.issuable_gang h.issuable h.isGang
  have e : (s.gang u.team u.gang).writeV d m r = { (s.gang u.team u.gang).writeV d m r with log := (s.gang u.team u.gang).log } := by
    rw [Gang.writeV_keeps]
  refine ⟨t, ht, hO, ?_, ?_⟩
  · rw [hG, e]; exact vectorResult_finish hj hm hok d m r _
  · rw [hG, finishGang_keeps, e]

/-- Lanes of a gang changed, and the word finished. -/
theorem lanesChange_finish {f : Form} {popped : Bool} {u : Issuer} {g : Gang} (hj : f.jumps = false) (hm : f.merges = false)
    (hok : g.unitOk u.slices = true) (m : Half) (F : Nat → Lane → Lane) (R : Nat → Lane → Lane → Prop)
    (h : ∀ l, l < 32 → m.getLsbD l = true → R l (g.lane l) (F l (g.lane l))) :
    LanesChange g (finishGang f popped u (g.modLanes m F)) u.slices m R where
  toGangKeeps := gangKeeps_finish hj hm hok rfl rfl
  k := by rw [finishGang_keeps]; exact ⟨rfl, rfl⟩
  others := by rw [finishGang_keeps]; exact ⟨rfl, rfl⟩
  lane l hl := by
    have e : (finishGang f popped u (g.modLanes m F)).lane l = (g.modLanes m F).lane l := by
      unfold Gang.lane; rw [finishGang_keeps]
    rw [e]
    split
    · next hm => rw [Gang.lane_modLanes_in _ _ _ hl hm]; exact h l hl hm
    · next hm => exact Gang.lane_modLanes_out _ _ _ hl (by simpa using hm)

end Sys2Proof.Machine
end

