-- ==== Sys2Proof/Laws/Cross.lean ====
section
/-!
SUPPORT. What a cross-lane word does (R134, R242): where every member has arrived it takes its effect, releases the slices that
were held, and finishes; and what reading a source by the word itself leaves alone.
-/
namespace Sys2Proof.Machine

open Sys2Proof Sys2Proof.Safety

/-- Slices outside the unit are as they were after its step to the next word. -/
theorem Gang.slice_advance_out (g : Gang) (m : BitVec 8) {i : Nat} (hi : i < 8) (ho : m.getLsbD i = false) :
    (g.advance m).slice i = g.slice i := by
  unfold Gang.advance
  split
  · next x _ =>
    unfold Gang.loopStep
    dsimp only
    split
    · exact Gang.slice_modSlices_out _ _ _ hi ho
    · exact Gang.slice_modSlices_out g m (fun _ y => { y with pc := x.stop + 4#64 }) hi ho
  · exact Gang.slice_modSlices_out _ _ _ hi ho

/-- Slices outside the unit are as they were after what goes with every word. -/
theorem finishGang_slice_out {f : Form} {popped : Bool} {u : Issuer} {g : Gang} (hm : f.merges = false)
    (hb : g.instar.body = none) {i : Nat} (hi : i < 8) (ho : u.slices.getLsbD i = false) :
    (finishGang f popped u g).slice i = g.slice i := by
  unfold finishGang
  dsimp only
  rw [hm]
  simp only [Bool.false_eq_true, if_false]
  rw [Gang.bodyCheck_none]
  · rw [Gang.slice_partTurn, Gang.slice_part_out _ _ hi ho]
    split
    · exact Gang.slice_modSlices_out g u.slices (fun _ x => { x with wait := none }) hi ho
    · rw [Gang.slice_advance_out _ _ hi ho]
      exact Gang.slice_modSlices_out g u.slices (fun _ x => { x with wait := none }) hi ho
  · rw [Gang.partTurn_keeps]
    have e : ∀ x : Gang, (x.part u.slices).instar = x.instar := fun x => rfl
    dsimp only
    rw [e]
    split
    · exact hb
    · rw [Gang.advance_keeps]; exact hb

/-- Groups of slices go on at the next word, one group after the other. -/
def Gang.moveOn (m : Nat → BitVec 8) (ns : List Nat) (g : Gang) : Gang :=
  ns.foldl (fun g n => (g.modSlices (m n) (fun _ x => { x with pc := x.pc + 4#64, wait := none })).part (m n)) g

/-- Only slices change. -/
theorem Gang.moveOn_keeps (m : Nat → BitVec 8) : ∀ (ns : List Nat) (g : Gang), g.moveOn m ns = { g with slices := (g.moveOn m ns).slices }
  | [], _ => rfl
  | n :: ns, g => by
    unfold Gang.moveOn
    rw [List.foldl_cons]
    have := Gang.moveOn_keeps m ns ((g.modSlices (m n) (fun _ x => { x with pc := x.pc + 4#64, wait := none })).part (m n))
    unfold Gang.moveOn at this
    rw [this]
    rfl

/-- A slice of no group stays. -/
theorem Gang.slice_moveOn_out (m : Nat → BitVec 8) {i : Nat} (hi : i < 8) : ∀ (ns : List Nat) (g : Gang),
    (∀ n ∈ ns, (m n).getLsbD i = false) → (g.moveOn m ns).slice i = g.slice i
  | [], _, _ => rfl
  | n :: ns, g, h => by
    have := Gang.slice_moveOn_out m hi ns ((g.modSlices (m n) (fun _ x => { x with pc := x.pc + 4#64, wait := none })).part (m n))
      (fun k hk => h k (by simp [hk]))
    unfold Gang.moveOn at this ⊢
    rw [List.foldl_cons, this, Gang.slice_part_out _ _ hi (h n (by simp)), Gang.slice_modSlices_out _ _ _ hi (h n (by simp))]

/-- A slice of one group goes on at the next word. -/
theorem Gang.slice_moveOn_in (m : Nat → BitVec 8) {i k : Nat} (hi : i < 8) : ∀ (ns : List Nat) (g : Gang), ns.Nodup → k ∈ ns →
    (m k).getLsbD i = true → (∀ n ∈ ns, n ≠ k → (m n).getLsbD i = false) →
    (g.moveOn m ns).slice i = { placed { g.slice i with pc := (g.slice i).pc + 4#64, wait := none } with sub := ((g.moveOn m ns).slice i).sub }
  | [], _, _, h, _, _ => by cases h
  | n :: ns, g, hn, hk, hm, ho => by
    rw [List.nodup_cons] at hn
    by_cases e : n = k
    · subst e
      have h1 := Gang.slice_moveOn_out m hi ns ((g.modSlices (m n) (fun _ x => { x with pc := x.pc + 4#64, wait := none })).part (m n))
        (fun j hj => ho j (by simp [hj]) (fun e => hn.1 (e ▸ hj)))
      have h2 : (g.moveOn m (n :: ns)).slice i = ((g.modSlices (m n) (fun _ x => { x with pc := x.pc + 4#64, wait := none })).part (m n)).slice i := h1
      rw [h2, Gang.slice_part_placed _ _ hi hm, Gang.slice_modSlices_in _ _ _ hi hm]
    · have h1 := Gang.slice_moveOn_in m hi ns ((g.modSlices (m n) (fun _ x => { x with pc := x.pc + 4#64, wait := none })).part (m n)) hn.2
        (by simpa [Ne.symm e] using hk) hm (fun j hj => ho j (by simp [hj]))
      have h3 : ((g.modSlices (m n) (fun _ x => { x with pc := x.pc + 4#64, wait := none })).part (m n)).slice i = g.slice i := by
        rw [Gang.slice_part_out _ _ hi (ho n (by simp) e), Gang.slice_modSlices_out _ _ _ hi (ho n (by simp) e)]
      rw [h3] at h1
      exact h1

/-- A source that a word reads itself changes nothing of the gang but the mark of its Instar region. -/
theorem readOwn_gang {c : Ctx} {x : Src} {lanes : Half} {s s1 : State} {v : List Word} (h : readOwn c x lanes s = .ok (v, s1)) :
    OnlyGang s s1 c.u ∧ ∃ r, s1.gang c.u.team c.u.gang =
      { s.gang c.u.team c.u.gang with instar := { (s.gang c.u.team c.u.gang).instar with rewindable := r } } := by
  unfold readOwn at h
  split at h
  · split at h
    · cases h
    · next e t hp =>
      simp only [Except.ok.injEq, Prod.mk.injEq] at h
      obtain ⟨-, rfl⟩ := h
      have ht : t = { s.team c.u.team with queues := t.queues } := by
        unfold Team.pop at hp
        dsimp only at hp
        split at hp
        · cases hp
        · split at hp
          · simp only [Option.some.injEq, Prod.mk.injEq] at hp
            rw [← hp.2]
          · cases hp
      refine ⟨onlyGang_modGang (onlyGang_queues (onlyGang_refl s c.u) (by rw [ht]; rfl)) _, false, ?_⟩
      rw [State.gang_modGang_same]
      have : (s.modTeam c.u.team (fun _ => t.unblock c.u.gang (c.g.slice (lowSlice c.u.slices)).sub)).gang c.u.team c.u.gang =
          s.gang c.u.team c.u.gang := by
        unfold State.gang
        rw [State.team_modTeam_same, ht]
        rfl
      rw [this]
  · split at h
    · cases h
    · simp only [Except.ok.injEq, Prod.mk.injEq] at h
      obtain ⟨-, rfl⟩ := h
      exact ⟨onlyGang_refl s c.u, (s.gang c.u.team c.u.gang).instar.rewindable, rfl⟩

/-- Frames follow one another. -/
theorem onlyGang_trans {s s1 s2 : State} {u : Issuer} (h1 : OnlyGang s s1 u) (h2 : OnlyGang s1 s2 u) : OnlyGang s s2 u where
  rest := h2.rest.trans (congrArg (fun z : State => { z with teams := s2.teams, parts := s2.parts }) h1.rest)
  parts p := (h2.parts p).trans (congrArg (fun z : Partition => { z with counters := (s2.part p).counters }) (h1.parts p))
  teams v hv := (h2.teams v hv).trans (h1.teams v hv)
  team := h2.team.trans (congrArg (fun z : Team => { z with gangs := (s2.team u.team).gangs, queues := (s2.team u.team).queues }) h1.team)
  gangs g hg := (h2.gangs g hg).trans (h1.gangs g hg)

/-- A cross-lane word whose members have all arrived: its effect changes the gang's registers to `G`, the held slices go on, and the
word finishes. -/
theorem cross_word {i : Instr} {f : Form} {kf : BitVec 4} {effect : Meeting → State → Except Stop State} {s s1 s2 : State} {u : Issuer}
    {vals : List (List Word)} {popped : Bool} {members contributors : Half} {held : BitVec 8} (h : GangIssues i f u s vals s1 popped)
    (hj : f.jumps = false) (hm : f.merges = false) (hM : Meets s u kf members contributors held)
    (he : effect { c := ctxOf i u s vals, arrived := held ||| u.slices, members := members, contributors := contributors } s1 = .ok s2)
    (ho : OnlyGang s s2 u) {G : Gang} (hG : s2.gang u.team u.gang = G)
    (hGr : G = { s.gang u.team u.gang with lanes := G.lanes, k := G.k, kbad := G.kbad, latch := G.latch, instar := G.instar, log := G.log })
    (hGi : G.instar = { (s.gang u.team u.gang).instar with
      rewindable := G.instar.rewindable, vdirty := G.instar.vdirty, kdirty := G.instar.kdirty }) :
    ∃ t, issue i f (meet kf effect) s = .next t ∧ OnlyGang s t u ∧
      Crosses (s.gang u.team u.gang) (t.gang u.team u.gang) u.slices held ∧
      (t.gang u.team u.gang).lanes = G.lanes ∧ (t.gang u.team u.gang).k = G.k ∧ (t.gang u.team u.gang).kbad = G.kbad ∧
      (t.gang u.team u.gang).latch = G.latch ∧ (t.gang u.team u.gang).log = G.log := by
  have hok := State.issuable_gang h.issuable h.isGang
  generalize hc : ctxOf i u s vals = c at he
  have hc' := hc.symm.trans (ctxOf_gang h.isGang)
  have hcu : c.u = u := by rw [hc']
  have hcg : c.g = s.gang u.team u.gang := by rw [hc']
  let m : Nat → BitVec 8 := fun n => (s.gang u.team u.gang).subgang n &&& (held &&& ~~~ u.slices)
  let ns := (upTo 8).filter (fun n => (s.gang u.team u.gang).subgang n &&& (held &&& ~~~ u.slices) ≠ 0#8)
  have hbody : meet kf effect c s1 = .ok (s2.releaseOthers c held) := by
    unfold meet
    have hk : (c.k (kf.setWidth 5)).setWidth 32 = members := by
      unfold Ctx.k; rw [hcu, if_neg h.isGang, hcg]; exact hM.mask.1.symm
    have hp : c.pc = (s.gang u.team u.gang).pcOf u.slices := by rw [hc']
    dsimp only
    rw [hk, if_neg hM.mask.2, hcg, hcu, hp, ← hM.waiting, hM.first]
    have hin : members &&& laneMask (held ||| u.slices) (fun _ => 15#4) &&& ~~~ (s.gang u.team u.gang).activeOf (held ||| u.slices) = 0#32 := by
      have := hM.here
      rw [BitVec.and_assoc, BitVec.and_comm (laneMask _ _), ← BitVec.and_assoc, this]
      simp
    have n1 : ¬ (members &&& (s.gang u.team u.gang).exitedLanes ≠ 0#32) := fun h => h hM.alive
    have n2 : ¬ (members &&& ~~~ (s.gang u.team u.gang).activeOf (held ||| u.slices) ≠ 0#32) := fun h => h hM.here
    rw [if_neg n1, hin, if_neg (by simp), if_neg (by simp), if_neg n2, ← hM.contribute, he]
  have ho2 : OnlyGang s (s2.releaseOthers c held) u := by
    unfold State.releaseOthers
    dsimp only
    rw [hcu]
    exact onlyGang_modGang (onlyGang_meter ho _ _ _) _
  generalize hH : ({ G with skipCmp := G.skipCmp &&& ~~~ (held &&& ~~~ u.slices) } : Gang) = H
  have hg2 : (s2.releaseOthers c held).gang u.team u.gang = H.moveOn m ns := by
    unfold State.releaseOthers
    dsimp only
    rw [hcu, State.gang_modGang_same, hcg, ← hH]
    show Gang.moveOn m ns { s2.gang u.team u.gang with skipCmp := (s2.gang u.team u.gang).skipCmp &&& ~~~ (held &&& ~~~ u.slices) } = _
    rw [hG]
  obtain ⟨t, ht, hO, hT⟩ := gang_completes (body := meet kf effect) (s2 := s2.releaseOthers c held) h (by rw [hc]; exact hbody) ho2
  rw [hg2] at hT
  have hGb : H.instar.body = (s.gang u.team u.gang).instar.body := by rw [← hH]; dsimp only; rw [hGi]
  have hGs : ∀ j, H.slice j = (s.gang u.team u.gang).slice j := fun j => by unfold Gang.slice; rw [← hH, hGr]
  have hmk := Gang.moveOn_keeps m ns H
  refine ⟨t, ht, hO, ⟨?_, ?_, ?_, ?_⟩, ?_, ?_, ?_, ?_, ?_⟩
  · rw [hT, finishGang_keeps, hmk, ← hH, hGr]
  · rw [hT, finishGang_instar, hmk]
    show ({ H.instar with rewindable := _, body := _, vdirty := _, kdirty := _ } : Instar) = _
    rw [← hH]; dsimp only; rw [hGi]
  · intro h0
    have hns : ns = [] := by
      show (upTo 8).filter _ = []
      rw [h0]; simp
    rw [hT, hns]
    refine passesWord_congr (g1 := H) (by rw [← hH, hGr]) (by rw [← hH, hGr]) (by rw [← hH, hGr]) (by rw [← hH, hGr]; exact ⟨rfl, rfl⟩) hGb ?_
    exact finishGang_passes hj hm (Gang.unitOk_congr (by rw [← hH, hGr]) hok)
  · intro hb j hj8 hh hk
    have hout : u.slices.getLsbD j = false := by
      have := hh
      rw [hM.waiting] at this
      simp only [BitVec.getLsbD_and, BitVec.getLsbD_not, Bool.and_eq_true, Bool.not_eq_true', decide_eq_true_eq] at this
      exact this.2.2
    have hne : ((s.gang u.team u.gang).slice j).exited = false := by
      have := hh
      rw [hM.waiting] at this
      simp only [BitVec.getLsbD_and, Bool.and_eq_true] at this
      have h2 := this.1
      unfold Gang.memberHeld at h2
      rw [getLsbD_sliceMask _ hj8] at h2
      simp only [Bool.and_eq_true, Bool.not_eq_true'] at h2
      exact h2.1.1
    have hbit : ∀ n, (m n).getLsbD j = decide (((s.gang u.team u.gang).slice j).sub = n) := by
      intro n
      show ((s.gang u.team u.gang).subgang n &&& (held &&& ~~~ u.slices)).getLsbD j = _
      simp only [BitVec.getLsbD_and, BitVec.getLsbD_not, hh, hout]
      unfold Gang.subgang
      rw [getLsbD_sliceMask _ hj8, hne]
      simp [hj8]
    rw [hT, finishGang_slice_out hm (by rw [hmk]; exact hGb.trans hb) hj8 hout]
    have hmem : ((s.gang u.team u.gang).slice j).sub ∈ ns := by
      show _ ∈ (upTo 8).filter _
      rw [List.mem_filter, mem_upTo]
      refine ⟨hk, ?_⟩
      have := hbit ((s.gang u.team u.gang).slice j).sub
      simp only [decide_eq_true_eq]
      intro e
      have e' : m ((s.gang u.team u.gang).slice j).sub = 0#8 := e
      rw [e'] at this
      simp at this
    have hnd : ns.Nodup := by
      have : (upTo 8).Nodup := by decide
      exact this.filter _
    have := Gang.slice_moveOn_in m hj8 ns H hnd hmem (by rw [hbit]; simp) (fun n _ hn => by rw [hbit]; simp [Ne.symm hn])
    rw [hGs] at this
    exact this
  all_goals rw [hT, finishGang_keeps, hmk, ← hH]

/-- A gang whose lanes are those of a write of a vector register. -/
theorem onlyV_of {g g' : Gang} {d : VNum} {m : Half} {v : Nat → Word} (hl : g'.lanes = (g.writeV d m v).lanes) (hk : g'.k = g.k)
    (hb : g'.kbad = g.kbad) : OnlyV g g' m d v := by
  have e : ∀ l, g'.lane l = (g.writeV d m v).lane l := fun l => by unfold Gang.lane; rw [hl]
  refine ⟨hk, hb, fun l h => ?_, fun l h r => ?_⟩
  · rw [e]; exact Gang.lane_writeV_keeps g d m v h
  · rw [e]
    cases hb : m.getLsbD l with
    | false => rw [Gang.lane_writeV_out g d m v h hb]; simp
    | true =>
      by_cases hr : r = d
      · subst hr; rw [Gang.vreg_writeV_in g r m v h hb]; simp
      · rw [Gang.vreg_writeV_other g m v h (fun e => hr e.symm)]; simp [hr]

/-- A vector register written in the contributors with its causes. -/
theorem cross_v {i : Instr} {f : Form} {kf : BitVec 4} {effect : Meeting → State → Except Stop State} {s s1 s3 : State} {u : Issuer}
    {vals : List (List Word)} {popped : Bool} {members contributors : Half} {held : BitVec 8} (h : GangIssues i f u s vals s1 popped)
    (hj : f.jumps = false) (hm : f.merges = false) (hM : Meets s u kf members contributors held) (d : VNum) (r : Nat → Word × Causes)
    (ho : OnlyGang s s3 u) {rw_ : Bool} (hg : s3.gang u.team u.gang = { s.gang u.team u.gang with instar := { (s.gang u.team u.gang).instar with rewindable := rw_ } })
    (he : effect { c := ctxOf i u s vals, arrived := held ||| u.slices, members := members, contributors := contributors } s1 =
      .ok (s3.writeMeeting { c := ctxOf i u s vals, arrived := held ||| u.slices, members := members, contributors := contributors } d r)) :
    ∃ t, issue i f (meet kf effect) s = .next t ∧ OnlyGang s t u ∧
      Crosses (s.gang u.team u.gang) (t.gang u.team u.gang) u.slices held ∧
      OnlyV (s.gang u.team u.gang) (t.gang u.team u.gang) contributors d (fun l => (r l).1) ∧
      (t.gang u.team u.gang).log = logRaised s u contributors (fun l => (r l).2) := by
  have hc' := ctxOf_gang (i := i) (s := s) (vals := vals) h.isGang
  have hcu : (ctxOf i u s vals).u = u := by rw [hc']
  have hw : s3.writeMeeting { c := ctxOf i u s vals, arrived := held ||| u.slices, members := members, contributors := contributors } d r =
      (s3.writeV u d contributors (fun l => (r l).1)).raise u.team u.gang (pcAt s u) contributors (fun l => (r l).2) := by
    unfold State.writeMeeting
    dsimp only
    rw [hcu, hc']; rfl
  rw [hw] at he
  have hcy : s3.cycle = s.cycle := by have := congrArg State.cycle ho.rest; exact this
  have hco : (s3.team u.team).core = (s.team u.team).core := by have := congrArg Team.core ho.team; exact this
  have hG := State.gang_writeV_raise s3 u d contributors (fun l => (r l).1) (pcAt s u) (fun l => (r l).2)
  rw [hg, hcy, hco] at hG
  have hkp := Gang.writeV_keeps { s.gang u.team u.gang with instar := { (s.gang u.team u.gang).instar with rewindable := rw_ } } d contributors (fun l => (r l).1)
  have hin := Gang.writeV_instar { s.gang u.team u.gang with instar := { (s.gang u.team u.gang).instar with rewindable := rw_ } } d contributors (fun l => (r l).1)
  have hla : (Gang.writeV { s.gang u.team u.gang with instar := { (s.gang u.team u.gang).instar with rewindable := rw_ } } d contributors (fun l => (r l).1)).lanes =
      ((s.gang u.team u.gang).writeV d contributors (fun l => (r l).1)).lanes := by
    unfold Gang.writeV; split <;> rfl
  generalize hW : Gang.writeV { s.gang u.team u.gang with instar := { (s.gang u.team u.gang).instar with rewindable := rw_ } } d contributors (fun l => (r l).1) = W at hG hkp hin hla
  obtain ⟨t, ht, hO, hC, h1, h2, h3, h4, h5⟩ := cross_word h hj hm hM he (onlyGang_modGang (onlyGang_modGang ho _) _) hG
    (by rw [hkp]) (by show W.instar = _; rw [hin])
  refine ⟨t, ht, hO, hC, onlyV_of (h1.trans hla) (h2.trans ?_) (h3.trans ?_), h5.trans rfl⟩
  · show W.k = _; rw [hkp]
  · show W.kbad = _; rw [hkp]

/-- A source that can be read. -/
theorem read_ok {m : Meeting} {x : Src} {la : Half} {s : State} {r : List Word × State} (h : readOwn m.c x la s = .ok r) : m.read x la s = .ok r := by
  unfold Meeting.read; rw [h]

/-- A zero mask makes a cross-lane word do nothing (R242). -/
theorem zero_mask {i : Instr} {f : Form} {kf : BitVec 4} {effect : Meeting → State → Except Stop State} {s s1 : State} {u : Issuer}
    {vals : List (List Word)} {popped : Bool} (h : GangIssues i f u s vals s1 popped) (hj : f.jumps = false) (hm : f.merges = false)
    (hs : f.srcs = []) (hd : f.dsts = [])
    (hz : ((s.gang u.team u.gang).kreg (kf.setWidth 5)).setWidth 32 = 0#32) :
    ∃ t, issue i f (meet kf effect) s = .next t ∧ OnlyGang s t u ∧ ControlOnly (s.gang u.team u.gang) (t.gang u.team u.gang) ∧
      PassesWord (s.gang u.team u.gang) (t.gang u.team u.gang) u.slices := by
  have e1 : s1 = s := by
    have := h.operands; rw [operandsOf_none hs hd] at this; simp only [Except.ok.injEq, Prod.mk.injEq] at this; exact this.2.1.symm
  subst e1
  obtain ⟨t, ht, hO, hG⟩ := gang_completes (body := meet kf effect) (s2 := s1) h (by
    unfold meet
    have hk : ((ctxOf i u s1 vals).k (kf.setWidth 5)).setWidth 32 = 0#32 := by
      rw [ctxOf_gang h.isGang]; unfold Ctx.k; rw [if_neg h.isGang]; exact hz
    dsimp only
    rw [if_pos hk]) (onlyGang_refl _ _)
  refine ⟨t, ht, hO, ?_, ?_⟩
  · rw [hG]; exact controlOnly_finish f popped u rfl
  · rw [hG]; exact finishGang_passes hj hm (State.issuable_gang h.issuable h.isGang)

/-- A form without sources to pop leaves the state as it was. -/
theorem issues_s1 {i : Instr} {f : Form} {u : Issuer} {s s1 : State} {vals : List (List Word)} {popped : Bool} (h : GangIssues i f u s vals s1 popped) (hs : f.srcs = []) (hd : f.dsts = []) : s1 = s := by
  have := h.operands; rw [operandsOf_none hs hd] at this; simp only [Except.ok.injEq, Prod.mk.injEq] at this; exact this.2.1.symm

/-- A destination that nothing awaits. -/
theorem dest_none {i : Instr} {f : Form} {u : Issuer} {s s1 : State} {vals : List (List Word)} {popped : Bool} (h : GangIssues i f u s vals s1 popped) {d : VNum} {a : BitVec 8} {m co : Half}
    (h1 : owedStop (s.gang u.team u.gang) [d] co = none) (h2 : operandStop (s.team u.team) u.gang s.cycle [d] co = none) :
    Meeting.destStop { c := ctxOf i u s vals, arrived := a, members := m, contributors := co } s d = none := by
  unfold Meeting.destStop; rw [ctxOf_gang h.isGang]; dsimp only; rw [h1, h2]; rfl

/-- What SHFL does where its sources can be read. -/
theorem shflEffect_ok {d a b : VNum} {wa wb : Bool} {m : Meeting} {s s0 s2 s3 : State} {vb0 va vb : List Word}
    (hd : m.destStop s d = none) (r0 : readOwn m.c ⟨b, wb⟩ m.contributors s = .ok (vb0, s0))
    (ra : readOwn m.c ⟨a, wa⟩ (maskOf (fun x => m.members.getLsbD x &&
        (lanesOf m.contributors).any (fun l => (upTo m.c.et.count).any (fun i => addrLane (subGet m.c.et.width (rowGet 0 vb0 l) i) = x)))) s = .ok (va, s2))
    (rb : readOwn m.c ⟨b, wb⟩ m.contributors s2 = .ok (vb, s3)) :
    shflEffect d a b wa wb m s = .ok (s3.writeMeeting m d (fun l => (packWord m.c.et.width ((upTo m.c.et.count).map (fun i =>
            let x := subGet m.c.et.width (rowGet 0 vb l) i
            if m.members.getLsbD (addrLane x) then subGet m.c.et.width (rowGet 0 va (addrLane x)) (addrSub m.c.et x) else 0)), noCause))) := by
  unfold shflEffect
  dsimp only
  rw [hd, read_ok r0]
  dsimp only
  rw [read_ok ra]
  dsimp only
  rw [read_ok rb]

/-- What BCST does where its source can be read. -/
theorem bcstEffect_ok {d a : VNum} {lane : BitVec 5} {wa : Bool} {m : Meeting} {s s2 : State} {va : List Word}
    (hd : m.destStop s d = none)
    (ra : readOwn m.c ⟨a, wa⟩ (if m.members.getLsbD lane.toNat && m.contributors ≠ 0#32 then 1#32 <<< lane.toNat else 0#32) s = .ok (va, s2)) :
    bcstEffect d a lane wa m s = .ok (s2.writeMeeting m d (fun _ => (if m.members.getLsbD lane.toNat then rowGet 0 va lane.toNat else 0#64, noCause))) := by
  unfold bcstEffect
  dsimp only
  rw [hd, read_ok ra]

/-- What REDUCE and SCAN do where their source can be read. -/
theorem combineEffect_ok {op : CombineOp} {d a : VNum} {wa : Bool} {f} {m : Meeting} {s s2 : State} {va : List Word}
    (hd : m.destStop s d = none) (ra : readOwn m.c ⟨a, wa⟩ m.contributors s = .ok (va, s2)) :
    combineEffect op d a wa f m s = .ok (s2.writeMeeting m d (fun l =>
        (f (combine op m.c.et m.c.modes) (treeLeaves m va) l).getD (identityWord op m.c.et, noCause))) := by
  unfold combineEffect
  rw [hd, read_ok ra]

end Sys2Proof.Machine
end

