-- ==== Sys2Proof/Laws/Decode.lean ====
section
/-!
SUPPORT. What each field reads of a word built by a format (R61): the lemmas that the round trip of the encoder and the decoder
rests on, field by field.
-/
namespace Sys2Proof

/-! ### Fields of an appended pattern -/

/-- The upper part of an appended pattern. -/
theorem slice_upper {n m : Nat} (x : BitVec n) (y : BitVec m) : (x ++ y).extractLsb' m n = x := by
  ext i hi
  simp [BitVec.getLsbD_append, hi]

/-- A field that lies in the lower part. -/
theorem slice_lower {n m : Nat} (x : BitVec n) (y : BitVec m) (s k : Nat) (h : s + k ≤ m) :
    (x ++ y).extractLsb' s k = y.extractLsb' s k := by
  ext i hi
  simp [BitVec.getLsbD_append]
  intro h'
  omega

/-- A field that lies in the upper part. -/
theorem slice_in_upper {n m : Nat} (x : BitVec n) (y : BitVec m) (s k : Nat) :
    (x ++ y).extractLsb' (m + s) k = x.extractLsb' s k := by
  ext i hi
  simp [BitVec.getLsbD_append, Nat.add_assoc]

/-- The whole pattern as a field. -/
theorem slice_whole {n : Nat} (x : BitVec n) : x.extractLsb' 0 n = x := by
  ext i hi
  simp

/-- The bit on top. -/
theorem bit_upper {m : Nat} (x : Bool) (y : BitVec m) : (BitVec.ofBool x ++ y).getLsbD m = x := by
  rw [BitVec.getLsbD_append]
  simp

/-- A bit that lies in the lower part. -/
theorem bit_lower {n m : Nat} (x : BitVec n) (y : BitVec m) (s : Nat) (h : s < m) :
    (x ++ y).getLsbD s = y.getLsbD s := by
  rw [BitVec.getLsbD_append]
  simp [h]

/-! ### Fields of a word, by format -/

/-- op of a word. -/
@[simp] theorem rrWord_op (op : BitVec 8) (d : BitVec 6) (a : BitVec 6) (b : BitVec 6) (wa : Bool) (wb : Bool) (fn : BitVec 4) :
    opOf (rrWord op d a b wa wb fn) = op := slice_upper _ _

/-- d of a word. -/
@[simp] theorem rrWord_d (op : BitVec 8) (d : BitVec 6) (a : BitVec 6) (b : BitVec 6) (wa : Bool) (wb : Bool) (fn : BitVec 4) :
    dOf (rrWord op d a b wa wb fn) = d := (slice_lower _ _ 18 6 (by decide)).trans (slice_upper _ _)

/-- a of a word. -/
@[simp] theorem rrWord_a (op : BitVec 8) (d : BitVec 6) (a : BitVec 6) (b : BitVec 6) (wa : Bool) (wb : Bool) (fn : BitVec 4) :
    aOf (rrWord op d a b wa wb fn) = a := (slice_lower _ _ 12 6 (by decide)).trans ((slice_lower _ _ 12 6 (by decide)).trans (slice_upper _ _))

/-- b of a word. -/
@[simp] theorem rrWord_b (op : BitVec 8) (d : BitVec 6) (a : BitVec 6) (b : BitVec 6) (wa : Bool) (wb : Bool) (fn : BitVec 4) :
    bOf (rrWord op d a b wa wb fn) = b := (slice_lower _ _ 6 6 (by decide)).trans ((slice_lower _ _ 6 6 (by decide)).trans ((slice_lower _ _ 6 6 (by decide)).trans (slice_upper _ _)))

/-- wa of a word. -/
@[simp] theorem rrWord_wa (op : BitVec 8) (d : BitVec 6) (a : BitVec 6) (b : BitVec 6) (wa : Bool) (wb : Bool) (fn : BitVec 4) :
    waOf (rrWord op d a b wa wb fn) = wa := (bit_lower _ _ 5 (by decide)).trans ((bit_lower _ _ 5 (by decide)).trans ((bit_lower _ _ 5 (by decide)).trans ((bit_lower _ _ 5 (by decide)).trans (bit_upper _ _))))

/-- wb of a word. -/
@[simp] theorem rrWord_wb (op : BitVec 8) (d : BitVec 6) (a : BitVec 6) (b : BitVec 6) (wa : Bool) (wb : Bool) (fn : BitVec 4) :
    wbOf (rrWord op d a b wa wb fn) = wb := (bit_lower _ _ 4 (by decide)).trans ((bit_lower _ _ 4 (by decide)).trans ((bit_lower _ _ 4 (by decide)).trans ((bit_lower _ _ 4 (by decide)).trans ((bit_lower _ _ 4 (by decide)).trans (bit_upper _ _)))))

/-- fn of a word. -/
@[simp] theorem rrWord_fn (op : BitVec 8) (d : BitVec 6) (a : BitVec 6) (b : BitVec 6) (wa : Bool) (wb : Bool) (fn : BitVec 4) :
    fnOf (rrWord op d a b wa wb fn) = fn := (slice_lower _ _ 0 4 (by decide)).trans ((slice_lower _ _ 0 4 (by decide)).trans ((slice_lower _ _ 0 4 (by decide)).trans ((slice_lower _ _ 0 4 (by decide)).trans ((slice_lower _ _ 0 4 (by decide)).trans ((slice_lower _ _ 0 4 (by decide)).trans (slice_whole _))))))

/-- The family of a word, which the high half of its opcode selects. -/
@[simp] theorem rrWord_top (op : BitVec 8) (d : BitVec 6) (a : BitVec 6) (b : BitVec 6) (wa : Bool) (wb : Bool) (fn : BitVec 4) :
    (rrWord op d a b wa wb fn).extractLsb' 28 4 = op.extractLsb' 4 4 := slice_in_upper op _ 4 4

/-- op of a word. -/
@[simp] theorem riWord_op (op : BitVec 8) (d : BitVec 6) (a : BitVec 6) (imm : BitVec 12) :
    opOf (riWord op d a imm) = op := slice_upper _ _

/-- d of a word. -/
@[simp] theorem riWord_d (op : BitVec 8) (d : BitVec 6) (a : BitVec 6) (imm : BitVec 12) :
    dOf (riWord op d a imm) = d := (slice_lower _ _ 18 6 (by decide)).trans (slice_upper _ _)

/-- a of a word. -/
@[simp] theorem riWord_a (op : BitVec 8) (d : BitVec 6) (a : BitVec 6) (imm : BitVec 12) :
    aOf (riWord op d a imm) = a := (slice_lower _ _ 12 6 (by decide)).trans ((slice_lower _ _ 12 6 (by decide)).trans (slice_upper _ _))

/-- imm of a word. -/
@[simp] theorem riWord_imm (op : BitVec 8) (d : BitVec 6) (a : BitVec 6) (imm : BitVec 12) :
    imm12Of (riWord op d a imm) = imm := (slice_lower _ _ 0 12 (by decide)).trans ((slice_lower _ _ 0 12 (by decide)).trans ((slice_lower _ _ 0 12 (by decide)).trans (slice_whole _)))

/-- The family of a word, which the high half of its opcode selects. -/
@[simp] theorem riWord_top (op : BitVec 8) (d : BitVec 6) (a : BitVec 6) (imm : BitVec 12) :
    (riWord op d a imm).extractLsb' 28 4 = op.extractLsb' 4 4 := slice_in_upper op _ 4 4

/-- op of a word. -/
@[simp] theorem rkWord_op (op : BitVec 8) (d : BitVec 6) (imm : BitVec 18) :
    opOf (rkWord op d imm) = op := slice_upper _ _

/-- d of a word. -/
@[simp] theorem rkWord_d (op : BitVec 8) (d : BitVec 6) (imm : BitVec 18) :
    dOf (rkWord op d imm) = d := (slice_lower _ _ 18 6 (by decide)).trans (slice_upper _ _)

/-- imm of a word. -/
@[simp] theorem rkWord_imm (op : BitVec 8) (d : BitVec 6) (imm : BitVec 18) :
    imm18Of (rkWord op d imm) = imm := (slice_lower _ _ 0 18 (by decide)).trans ((slice_lower _ _ 0 18 (by decide)).trans (slice_whole _))

/-- The family of a word, which the high half of its opcode selects. -/
@[simp] theorem rkWord_top (op : BitVec 8) (d : BitVec 6) (imm : BitVec 18) :
    (rkWord op d imm).extractLsb' 28 4 = op.extractLsb' 4 4 := slice_in_upper op _ 4 4

/-- op of a word. -/
@[simp] theorem brWord_op (op : BitVec 8) (p : BitVec 3) (n : Bool) (off : BitVec 20) :
    opOf (brWord op p n off) = op := slice_upper _ _

/-- p of a word. -/
@[simp] theorem brWord_p (op : BitVec 8) (p : BitVec 3) (n : Bool) (off : BitVec 20) :
    brP (brWord op p n off) = p := (slice_lower _ _ 21 3 (by decide)).trans (slice_upper _ _)

/-- n of a word. -/
@[simp] theorem brWord_n (op : BitVec 8) (p : BitVec 3) (n : Bool) (off : BitVec 20) :
    brN (brWord op p n off) = n := (bit_lower _ _ 20 (by decide)).trans ((bit_lower _ _ 20 (by decide)).trans (bit_upper _ _))

/-- off of a word. -/
@[simp] theorem brWord_off (op : BitVec 8) (p : BitVec 3) (n : Bool) (off : BitVec 20) :
    off20Of (brWord op p n off) = off := (slice_lower _ _ 0 20 (by decide)).trans ((slice_lower _ _ 0 20 (by decide)).trans ((slice_lower _ _ 0 20 (by decide)).trans (slice_whole _)))

/-- The family of a word, which the high half of its opcode selects. -/
@[simp] theorem brWord_top (op : BitVec 8) (p : BitVec 3) (n : Bool) (off : BitVec 20) :
    (brWord op p n off).extractLsb' 28 4 = op.extractLsb' 4 4 := slice_in_upper op _ 4 4

/-- op of a word. -/
@[simp] theorem xsWord_op (op : BitVec 8) (imm : BitVec 24) :
    opOf (xsWord op imm) = op := slice_upper _ _

/-- imm of a word. -/
@[simp] theorem xsWord_imm (op : BitVec 8) (imm : BitVec 24) :
    imm24Of (xsWord op imm) = imm := (slice_lower _ _ 0 24 (by decide)).trans (slice_whole _)

/-- The family of a word, which the high half of its opcode selects. -/
@[simp] theorem xsWord_top (op : BitVec 8) (imm : BitVec 24) :
    (xsWord op imm).extractLsb' 28 4 = op.extractLsb' 4 4 := slice_in_upper op _ 4 4

/-- op of a word. -/
@[simp] theorem ivWord_op (op : BitVec 8) (x : BitVec 6) (t : BitVec 6) (br : BitVec 2) (tol : BitVec 4) (len : BitVec 4) (dir : Bool) :
    opOf (ivWord op x t br tol len dir) = op := slice_upper _ _

/-- x of a word. -/
@[simp] theorem ivWord_x (op : BitVec 8) (x : BitVec 6) (t : BitVec 6) (br : BitVec 2) (tol : BitVec 4) (len : BitVec 4) (dir : Bool) :
    dOf (ivWord op x t br tol len dir) = x := (slice_lower _ _ 18 6 (by decide)).trans (slice_upper _ _)

/-- t of a word. -/
@[simp] theorem ivWord_t (op : BitVec 8) (x : BitVec 6) (t : BitVec 6) (br : BitVec 2) (tol : BitVec 4) (len : BitVec 4) (dir : Bool) :
    aOf (ivWord op x t br tol len dir) = t := (slice_lower _ _ 12 6 (by decide)).trans ((slice_lower _ _ 12 6 (by decide)).trans (slice_upper _ _))

/-- br of a word. -/
@[simp] theorem ivWord_br (op : BitVec 8) (x : BitVec 6) (t : BitVec 6) (br : BitVec 2) (tol : BitVec 4) (len : BitVec 4) (dir : Bool) :
    (ivWord op x t br tol len dir).extractLsb' 10 2 = br := (slice_lower _ _ 10 2 (by decide)).trans ((slice_lower _ _ 10 2 (by decide)).trans ((slice_lower _ _ 10 2 (by decide)).trans (slice_upper _ _)))

/-- tol of a word. -/
@[simp] theorem ivWord_tol (op : BitVec 8) (x : BitVec 6) (t : BitVec 6) (br : BitVec 2) (tol : BitVec 4) (len : BitVec 4) (dir : Bool) :
    (ivWord op x t br tol len dir).extractLsb' 6 4 = tol := (slice_lower _ _ 6 4 (by decide)).trans ((slice_lower _ _ 6 4 (by decide)).trans ((slice_lower _ _ 6 4 (by decide)).trans ((slice_lower _ _ 6 4 (by decide)).trans (slice_upper _ _))))

/-- len of a word. -/
@[simp] theorem ivWord_len (op : BitVec 8) (x : BitVec 6) (t : BitVec 6) (br : BitVec 2) (tol : BitVec 4) (len : BitVec 4) (dir : Bool) :
    (ivWord op x t br tol len dir).extractLsb' 2 4 = len := (slice_lower _ _ 2 4 (by decide)).trans ((slice_lower _ _ 2 4 (by decide)).trans ((slice_lower _ _ 2 4 (by decide)).trans ((slice_lower _ _ 2 4 (by decide)).trans ((slice_lower _ _ 2 4 (by decide)).trans (slice_upper _ _)))))

/-- dir of a word. -/
@[simp] theorem ivWord_dir (op : BitVec 8) (x : BitVec 6) (t : BitVec 6) (br : BitVec 2) (tol : BitVec 4) (len : BitVec 4) (dir : Bool) :
    (ivWord op x t br tol len dir).getLsbD 1 = dir := (bit_lower _ _ 1 (by decide)).trans ((bit_lower _ _ 1 (by decide)).trans ((bit_lower _ _ 1 (by decide)).trans ((bit_lower _ _ 1 (by decide)).trans ((bit_lower _ _ 1 (by decide)).trans ((bit_lower _ _ 1 (by decide)).trans (bit_upper _ _))))))

/-- The family of a word, which the high half of its opcode selects. -/
@[simp] theorem ivWord_top (op : BitVec 8) (x : BitVec 6) (t : BitVec 6) (br : BitVec 2) (tol : BitVec 4) (len : BitVec 4) (dir : Bool) :
    (ivWord op x t br tol len dir).extractLsb' 28 4 = op.extractLsb' 4 4 := slice_in_upper op _ 4 4

/-! ### Sub-fields of field b and fn in format RR -/

/-- Bits of field b. -/
@[simp] theorem rrWord_b_6_4 (op : BitVec 8) (d : BitVec 6) (a : BitVec 6) (b : BitVec 6) (wa : Bool) (wb : Bool) (fn : BitVec 4) :
    (rrWord op d a b wa wb fn).extractLsb' 6 4 = b.extractLsb' 0 4 :=
  (slice_lower _ _ 6 4 (by decide)).trans ((slice_lower _ _ 6 4 (by decide)).trans ((slice_lower _ _ 6 4 (by decide)).trans (slice_in_upper b _ 0 4)))

/-- Bits of field b. -/
@[simp] theorem rrWord_b_10_2 (op : BitVec 8) (d : BitVec 6) (a : BitVec 6) (b : BitVec 6) (wa : Bool) (wb : Bool) (fn : BitVec 4) :
    (rrWord op d a b wa wb fn).extractLsb' 10 2 = b.extractLsb' 4 2 :=
  (slice_lower _ _ 10 2 (by decide)).trans ((slice_lower _ _ 10 2 (by decide)).trans ((slice_lower _ _ 10 2 (by decide)).trans (slice_in_upper b _ 4 2)))

/-- Bits of field b. -/
@[simp] theorem rrWord_b_6_2 (op : BitVec 8) (d : BitVec 6) (a : BitVec 6) (b : BitVec 6) (wa : Bool) (wb : Bool) (fn : BitVec 4) :
    (rrWord op d a b wa wb fn).extractLsb' 6 2 = b.extractLsb' 0 2 :=
  (slice_lower _ _ 6 2 (by decide)).trans ((slice_lower _ _ 6 2 (by decide)).trans ((slice_lower _ _ 6 2 (by decide)).trans (slice_in_upper b _ 0 2)))

/-- Bits of field b. -/
@[simp] theorem rrWord_b_8_4 (op : BitVec 8) (d : BitVec 6) (a : BitVec 6) (b : BitVec 6) (wa : Bool) (wb : Bool) (fn : BitVec 4) :
    (rrWord op d a b wa wb fn).extractLsb' 8 4 = b.extractLsb' 2 4 :=
  (slice_lower _ _ 8 4 (by decide)).trans ((slice_lower _ _ 8 4 (by decide)).trans ((slice_lower _ _ 8 4 (by decide)).trans (slice_in_upper b _ 2 4)))

/-- Bits of fn. -/
@[simp] theorem rrWord_fn_0_3 (op : BitVec 8) (d : BitVec 6) (a : BitVec 6) (b : BitVec 6) (wa : Bool) (wb : Bool) (fn : BitVec 4) :
    (rrWord op d a b wa wb fn).extractLsb' 0 3 = fn.extractLsb' 0 3 :=
  (slice_lower _ _ 0 3 (by decide)).trans ((slice_lower _ _ 0 3 (by decide)).trans ((slice_lower _ _ 0 3 (by decide)).trans ((slice_lower _ _ 0 3 (by decide)).trans ((slice_lower _ _ 0 3 (by decide)).trans ((slice_lower _ _ 0 3 (by decide)).trans (rfl))))))

/-- Bits of fn. -/
@[simp] theorem rrWord_fn_0_2 (op : BitVec 8) (d : BitVec 6) (a : BitVec 6) (b : BitVec 6) (wa : Bool) (wb : Bool) (fn : BitVec 4) :
    (rrWord op d a b wa wb fn).extractLsb' 0 2 = fn.extractLsb' 0 2 :=
  (slice_lower _ _ 0 2 (by decide)).trans ((slice_lower _ _ 0 2 (by decide)).trans ((slice_lower _ _ 0 2 (by decide)).trans ((slice_lower _ _ 0 2 (by decide)).trans ((slice_lower _ _ 0 2 (by decide)).trans ((slice_lower _ _ 0 2 (by decide)).trans (rfl))))))

/-- Bits of fn. -/
@[simp] theorem rrWord_fn_2_2 (op : BitVec 8) (d : BitVec 6) (a : BitVec 6) (b : BitVec 6) (wa : Bool) (wb : Bool) (fn : BitVec 4) :
    (rrWord op d a b wa wb fn).extractLsb' 2 2 = fn.extractLsb' 2 2 :=
  (slice_lower _ _ 2 2 (by decide)).trans ((slice_lower _ _ 2 2 (by decide)).trans ((slice_lower _ _ 2 2 (by decide)).trans ((slice_lower _ _ 2 2 (by decide)).trans ((slice_lower _ _ 2 2 (by decide)).trans ((slice_lower _ _ 2 2 (by decide)).trans (rfl))))))

/-- Bits of fn. -/
@[simp] theorem rrWord_fn_1_2 (op : BitVec 8) (d : BitVec 6) (a : BitVec 6) (b : BitVec 6) (wa : Bool) (wb : Bool) (fn : BitVec 4) :
    (rrWord op d a b wa wb fn).extractLsb' 1 2 = fn.extractLsb' 1 2 :=
  (slice_lower _ _ 1 2 (by decide)).trans ((slice_lower _ _ 1 2 (by decide)).trans ((slice_lower _ _ 1 2 (by decide)).trans ((slice_lower _ _ 1 2 (by decide)).trans ((slice_lower _ _ 1 2 (by decide)).trans ((slice_lower _ _ 1 2 (by decide)).trans (rfl))))))

/-- A bit of fn. -/
@[simp] theorem rrWord_fn_bit0 (op : BitVec 8) (d : BitVec 6) (a : BitVec 6) (b : BitVec 6) (wa : Bool) (wb : Bool) (fn : BitVec 4) :
    (rrWord op d a b wa wb fn).getLsbD 0 = fn.getLsbD 0 :=
  (bit_lower _ _ 0 (by decide)).trans ((bit_lower _ _ 0 (by decide)).trans ((bit_lower _ _ 0 (by decide)).trans ((bit_lower _ _ 0 (by decide)).trans ((bit_lower _ _ 0 (by decide)).trans ((bit_lower _ _ 0 (by decide)).trans (rfl))))))

/-- A bit of fn. -/
@[simp] theorem rrWord_fn_bit1 (op : BitVec 8) (d : BitVec 6) (a : BitVec 6) (b : BitVec 6) (wa : Bool) (wb : Bool) (fn : BitVec 4) :
    (rrWord op d a b wa wb fn).getLsbD 1 = fn.getLsbD 1 :=
  (bit_lower _ _ 1 (by decide)).trans ((bit_lower _ _ 1 (by decide)).trans ((bit_lower _ _ 1 (by decide)).trans ((bit_lower _ _ 1 (by decide)).trans ((bit_lower _ _ 1 (by decide)).trans ((bit_lower _ _ 1 (by decide)).trans (rfl))))))

/-- A bit of fn. -/
@[simp] theorem rrWord_fn_bit2 (op : BitVec 8) (d : BitVec 6) (a : BitVec 6) (b : BitVec 6) (wa : Bool) (wb : Bool) (fn : BitVec 4) :
    (rrWord op d a b wa wb fn).getLsbD 2 = fn.getLsbD 2 :=
  (bit_lower _ _ 2 (by decide)).trans ((bit_lower _ _ 2 (by decide)).trans ((bit_lower _ _ 2 (by decide)).trans ((bit_lower _ _ 2 (by decide)).trans ((bit_lower _ _ 2 (by decide)).trans ((bit_lower _ _ 2 (by decide)).trans (rfl))))))

/-- A bit of fn. -/
@[simp] theorem rrWord_fn_bit3 (op : BitVec 8) (d : BitVec 6) (a : BitVec 6) (b : BitVec 6) (wa : Bool) (wb : Bool) (fn : BitVec 4) :
    (rrWord op d a b wa wb fn).getLsbD 3 = fn.getLsbD 3 :=
  (bit_lower _ _ 3 (by decide)).trans ((bit_lower _ _ 3 (by decide)).trans ((bit_lower _ _ 3 (by decide)).trans ((bit_lower _ _ 3 (by decide)).trans ((bit_lower _ _ 3 (by decide)).trans ((bit_lower _ _ 3 (by decide)).trans (rfl))))))

/-- A bit of field b. -/
@[simp] theorem rrWord_b_bit11 (op : BitVec 8) (d : BitVec 6) (a : BitVec 6) (b : BitVec 6) (wa : Bool) (wb : Bool) (fn : BitVec 4) :
    (rrWord op d a b wa wb fn).getLsbD 11 = b.getLsbD 5 :=
  (bit_lower _ _ 11 (by decide)).trans ((bit_lower _ _ 11 (by decide)).trans ((bit_lower _ _ 11 (by decide)).trans
    (by rw [BitVec.getLsbD_append]; simp)))

/-- A bit of field b. -/
@[simp] theorem rrWord_b_bit10 (op : BitVec 8) (d : BitVec 6) (a : BitVec 6) (b : BitVec 6) (wa : Bool) (wb : Bool) (fn : BitVec 4) :
    (rrWord op d a b wa wb fn).getLsbD 10 = b.getLsbD 4 :=
  (bit_lower _ _ 10 (by decide)).trans ((bit_lower _ _ 10 (by decide)).trans ((bit_lower _ _ 10 (by decide)).trans
    (by rw [BitVec.getLsbD_append]; simp)))

/-! ### Sub-fields of the 24 bits of format XS, and of fields of RI -/

/-- Bits of imm24. -/
@[simp] theorem xsWord_imm_22_2 (op : BitVec 8) (imm : BitVec 24) :
    (xsWord op imm).extractLsb' 22 2 = imm.extractLsb' 22 2 := slice_lower _ _ 22 2 (by decide)

/-- Bits of imm24. -/
@[simp] theorem xsWord_imm_8_8 (op : BitVec 8) (imm : BitVec 24) :
    (xsWord op imm).extractLsb' 8 8 = imm.extractLsb' 8 8 := slice_lower _ _ 8 8 (by decide)

/-- Bits of imm24. -/
@[simp] theorem xsWord_imm_16_6 (op : BitVec 8) (imm : BitVec 24) :
    (xsWord op imm).extractLsb' 16 6 = imm.extractLsb' 16 6 := slice_lower _ _ 16 6 (by decide)

/-- Bits of imm24. -/
@[simp] theorem xsWord_imm_0_8 (op : BitVec 8) (imm : BitVec 24) :
    (xsWord op imm).extractLsb' 0 8 = imm.extractLsb' 0 8 := slice_lower _ _ 0 8 (by decide)

/-- Bits of imm24. -/
@[simp] theorem xsWord_imm_8_16 (op : BitVec 8) (imm : BitVec 24) :
    (xsWord op imm).extractLsb' 8 16 = imm.extractLsb' 8 16 := slice_lower _ _ 8 16 (by decide)

/-- Bits of imm24. -/
@[simp] theorem xsWord_imm_9_3 (op : BitVec 8) (imm : BitVec 24) :
    (xsWord op imm).extractLsb' 9 3 = imm.extractLsb' 9 3 := slice_lower _ _ 9 3 (by decide)

/-- Bits of imm24. -/
@[simp] theorem xsWord_imm_0_9 (op : BitVec 8) (imm : BitVec 24) :
    (xsWord op imm).extractLsb' 0 9 = imm.extractLsb' 0 9 := slice_lower _ _ 0 9 (by decide)

/-- Bits of imm24. -/
@[simp] theorem xsWord_imm_8_2 (op : BitVec 8) (imm : BitVec 24) :
    (xsWord op imm).extractLsb' 8 2 = imm.extractLsb' 8 2 := slice_lower _ _ 8 2 (by decide)

/-- Bits of imm24. -/
@[simp] theorem xsWord_imm_10_14 (op : BitVec 8) (imm : BitVec 24) :
    (xsWord op imm).extractLsb' 10 14 = imm.extractLsb' 10 14 := slice_lower _ _ 10 14 (by decide)

/-- Bits of imm24. -/
@[simp] theorem xsWord_imm_4_20 (op : BitVec 8) (imm : BitVec 24) :
    (xsWord op imm).extractLsb' 4 20 = imm.extractLsb' 4 20 := slice_lower _ _ 4 20 (by decide)

/-- Bits of imm24. -/
@[simp] theorem xsWord_imm_0_4 (op : BitVec 8) (imm : BitVec 24) :
    (xsWord op imm).extractLsb' 0 4 = imm.extractLsb' 0 4 := slice_lower _ _ 0 4 (by decide)

/-- Field d of format XS. -/
@[simp] theorem xsWord_d (op : BitVec 8) (imm : BitVec 24) : dOf (xsWord op imm) = imm.extractLsb' 18 6 :=
  slice_lower _ _ 18 6 (by decide)

/-- Field a of format XS. -/
@[simp] theorem xsWord_a (op : BitVec 8) (imm : BitVec 24) : aOf (xsWord op imm) = imm.extractLsb' 12 6 :=
  slice_lower _ _ 12 6 (by decide)

/-- The high half of imm12. -/
@[simp] theorem riWord_imm_hi (op : BitVec 8) (d a : BitVec 6) (imm : BitVec 12) :
    (riWord op d a imm).extractLsb' 6 6 = imm.extractLsb' 6 6 :=
  (slice_lower _ _ 6 6 (by decide)).trans ((slice_lower _ _ 6 6 (by decide)).trans (slice_lower _ _ 6 6 (by decide)))

/-- The low half of imm12. -/
@[simp] theorem riWord_imm_lo (op : BitVec 8) (d a : BitVec 6) (imm : BitVec 12) :
    (riWord op d a imm).extractLsb' 0 6 = imm.extractLsb' 0 6 :=
  (slice_lower _ _ 0 6 (by decide)).trans ((slice_lower _ _ 0 6 (by decide)).trans (slice_lower _ _ 0 6 (by decide)))

/-- The high half of field d. -/
@[simp] theorem riWord_d_hi (op : BitVec 8) (d a : BitVec 6) (imm : BitVec 12) :
    (riWord op d a imm).extractLsb' 21 3 = d.extractLsb' 3 3 :=
  (slice_lower _ _ 21 3 (by decide)).trans (slice_in_upper d _ 3 3)

/-- The low half of field d. -/
@[simp] theorem riWord_d_lo (op : BitVec 8) (d a : BitVec 6) (imm : BitVec 12) :
    (riWord op d a imm).extractLsb' 18 3 = d.extractLsb' 0 3 :=
  (slice_lower _ _ 18 3 (by decide)).trans (slice_in_upper d _ 0 3)

/-- The lowest bit of format IV is zero. -/
@[simp] theorem ivWord_zero (op : BitVec 8) (x t : BitVec 6) (br : BitVec 2) (tol len : BitVec 4) (dir : Bool) :
    (ivWord op x t br tol len dir).getLsbD 0 = false :=
  (bit_lower _ _ 0 (by decide)).trans ((bit_lower _ _ 0 (by decide)).trans ((bit_lower _ _ 0 (by decide)).trans
    ((bit_lower _ _ 0 (by decide)).trans ((bit_lower _ _ 0 (by decide)).trans ((bit_lower _ _ 0 (by decide)).trans
      ((bit_lower _ _ 0 (by decide)).trans rfl))))))

/-! ### Codes and register fields -/

/-- A k register's field is legal. -/
@[simp] theorem kOk_kField (k : KNum) : kOk (kField k) = true := by revert k; decide
/-- And names the register. -/
@[simp] theorem kNum_kField (k : KNum) : kNum (kField k) = k := by revert k; decide
/-- A predicate's or bank's field is legal. -/
@[simp] theorem lowOk_lowField (p : BitVec 3) : lowOk (lowField p) = true := by revert p; decide
/-- And names it. -/
@[simp] theorem lowNum_lowField (p : BitVec 3) : lowNum (lowField p) = p := by revert p; decide
/-- The flag of fn is a code of R79. -/
@[simp] theorem flagFn_le_one (f : Bool) : (flagFn f).toNat ≤ 1 := by cases f <;> decide
@[simp] theorem flagFn_small (f : Bool) : (flagFn f).toNat < 2 := by cases f <;> decide
/-- And is read back. -/
@[simp] theorem flagFn_bit (f : Bool) : (flagFn f).getLsbD 0 = f := by cases f <;> rfl
/-- The code of an element type names it (R66). -/
@[simp] theorem ElemType.ofCode_code (t : ElemType) : ElemType.ofCode t.code = some t := by cases t <;> rfl
/-- The code of a condition of KBR names it (R71). -/
@[simp] theorem KbrCond.ofCode_code (c : KbrCond) : KbrCond.ofCode c.code = some c := by cases c <;> rfl
/-- The code of a condition of CMP names it (R74). -/
@[simp] theorem CmpCond.ofCode_code (c : CmpCond) : CmpCond.ofCode c.code = some c := by cases c <;> rfl
/-- The code of a condition of CMPI names it (R76). -/
@[simp] theorem CmpiCond.ofCode_code (c : CmpiCond) : CmpiCond.ofCode c.code = some c := by cases c <;> rfl
/-- The code of an operation of BITS names it (R73). -/
@[simp] theorem BitsOp.ofCode_code (c : BitsOp) : BitsOp.ofCode c.code = some c := by cases c <;> rfl
/-- The code of a mode of RND names it (R77). -/
@[simp] theorem RndMode.ofCode_code (c : RndMode) : RndMode.ofCode c.code = some c := by cases c <;> rfl
/-- The code of an operation of REDUCE and SCAN names it (R78). -/
@[simp] theorem CombineOp.ofCode_code (c : CombineOp) : CombineOp.ofCode c.code = some c := by cases c <;> rfl
/-- The code of an operation of ATOM names it (R80). -/
@[simp] theorem AtomOp.ofCode_code (c : AtomOp) : AtomOp.ofCode c.code = some c := by cases c <;> rfl
/-- The code of a width names it (R80). -/
@[simp] theorem MemWidth.ofCode_code (c : MemWidth) : MemWidth.ofCode c.code = c := by cases c <;> rfl
/-- The code of a scope names it (R255). -/
@[simp] theorem Scope.ofCode_code (c : Scope) : Scope.ofCode c.code = some c := by cases c <;> rfl
/-- The code of a counter names it (R82). -/
@[simp] theorem CounterName.ofCode_code (c : CounterName) : CounterName.ofCode c.code = some c := by cases c <;> rfl

end Sys2Proof
end

