-- ==== Sys2Proof/Laws/DecodeFields.lean ====
section
/-! SUPPORT. A word is the word of its own fields, and a field's code gives back the field: what the other direction of the round trip (a word that decodes is the encoding of its instruction) goes by. -/

namespace Sys2Proof

/-! ### Words from their fields -/

theorem rrWord_fields (w : Half) : rrWord (opOf w) (dOf w) (aOf w) (bOf w) (waOf w) (wbOf w) (fnOf w) = w := by
  apply BitVec.eq_of_getLsbD_eq
  intro i hi
  simp only [rrWord, opOf, dOf, aOf, bOf, waOf, wbOf, fnOf, BitVec.getLsbD_append, BitVec.getLsbD_extractLsb', BitVec.getLsbD_ofBool]
  have : i < 32 := hi
  repeat' split
  all_goals first
    | (have e : i = 5 := by omega
       subst e; simp)
    | (have e : i = 4 := by omega
       subst e; simp)
    | (simp only [Bool.and_eq_true, decide_eq_true_eq, Bool.and_eq_right_iff_imp]; congr 1; omega)
    | (rw [decide_eq_true (by omega), Bool.true_and]; congr 1; omega)
    | omega

theorem riWord_fields (w : Half) : riWord (opOf w) (dOf w) (aOf w) (imm12Of w) = w := by
  apply BitVec.eq_of_getLsbD_eq
  intro i hi
  simp only [riWord, opOf, dOf, aOf, imm12Of, BitVec.getLsbD_append, BitVec.getLsbD_extractLsb']
  repeat' split
  all_goals (rw [decide_eq_true (by omega), Bool.true_and]; congr 1; omega)

theorem rkWord_fields (w : Half) : rkWord (opOf w) (dOf w) (imm18Of w) = w := by
  apply BitVec.eq_of_getLsbD_eq
  intro i hi
  simp only [rkWord, opOf, dOf, imm18Of, BitVec.getLsbD_append, BitVec.getLsbD_extractLsb']
  repeat' split
  all_goals (rw [decide_eq_true (by omega), Bool.true_and]; congr 1; omega)

theorem xsWord_fields (w : Half) : xsWord (opOf w) (imm24Of w) = w := by
  apply BitVec.eq_of_getLsbD_eq
  intro i hi
  simp only [xsWord, opOf, imm24Of, BitVec.getLsbD_append, BitVec.getLsbD_extractLsb']
  repeat' split
  all_goals (rw [decide_eq_true (by omega), Bool.true_and]; congr 1; omega)

theorem brWord_fields (w : Half) : brWord (opOf w) (brP w) (brN w) (off20Of w) = w := by
  apply BitVec.eq_of_getLsbD_eq
  intro i hi
  simp only [brWord, opOf, brP, brN, off20Of, BitVec.getLsbD_append, BitVec.getLsbD_extractLsb', BitVec.getLsbD_ofBool]
  repeat' split
  all_goals first
    | (rw [decide_eq_true (by omega), Bool.true_and]; congr 1; omega)
    | (have e : i = 20 := by omega
       subst e; simp)

theorem ivWord_fields (w : Half) (h : w.getLsbD 0 = false) :
    ivWord (opOf w) (dOf w) (aOf w) (w.extractLsb' 10 2) (w.extractLsb' 6 4) (w.extractLsb' 2 4) (w.getLsbD 1) = w := by
  apply BitVec.eq_of_getLsbD_eq
  intro i hi
  simp only [ivWord, opOf, dOf, aOf, BitVec.getLsbD_append, BitVec.getLsbD_extractLsb', BitVec.getLsbD_ofBool]
  repeat' split
  all_goals first
    | (rw [decide_eq_true (by omega), Bool.true_and]; congr 1; omega)
    | (have e : i = 1 := by omega
       subst e; simp)
    | (have e : i = 0 := by omega
       subst e; simpa using h)

theorem kField_kNum {f : BitVec 6} (h : kOk f = true) : kField (kNum f) = f := by revert f; decide

theorem lowField_lowNum {f : BitVec 6} (h : lowOk f = true) : lowField (lowNum f) = f := by revert f; decide

theorem flagFn_of {f : BitVec 4} (h : f.toNat < 2) : flagFn (f.getLsbD 0) = f := by revert f; decide

theorem wide5 {f : BitVec 6} (h : f.toNat < 32) : (f.setWidth 5).setWidth 6 = f := by revert f; decide

theorem wide2 {f : BitVec 6} (h : f.toNat < 4) : (f.setWidth 2).setWidth 6 = f := by revert f; decide

theorem op_of {w : Half} {n : Nat} (h : (opOf w).toNat = n) : opOf w = BitVec.ofNat 8 n := by rw [← h]; simp

theorem code_of {α β : Type} {o : Option α} {f : α → β} {c : β} {x : α} (e : o = none ∨ o.map f = some c) (h : o = some x) : f x = c := by
  subst h
  simpa using e

theorem ElemType.code_ofCode {c : BitVec 4} {x : ElemType} (h : ElemType.ofCode c = some x) : x.code = c :=
  code_of (o := ElemType.ofCode c) (by clear h; revert c; decide) h

theorem KbrCond.code_ofCode {c : BitVec 3} {x : KbrCond} (h : KbrCond.ofCode c = some x) : x.code = c :=
  code_of (o := KbrCond.ofCode c) (by clear h; revert c; decide) h

theorem CmpCond.code_ofCode {c : BitVec 4} {x : CmpCond} (h : CmpCond.ofCode c = some x) : x.code = c :=
  code_of (o := CmpCond.ofCode c) (by clear h; revert c; decide) h

theorem CmpiCond.code_ofCode {c : BitVec 3} {x : CmpiCond} (h : CmpiCond.ofCode c = some x) : x.code = c :=
  code_of (o := CmpiCond.ofCode c) (by clear h; revert c; decide) h

theorem BitsOp.code_ofCode {c : BitVec 4} {x : BitsOp} (h : BitsOp.ofCode c = some x) : x.code = c :=
  code_of (o := BitsOp.ofCode c) (by clear h; revert c; decide) h

theorem RndMode.code_ofCode {c : BitVec 4} {x : RndMode} (h : RndMode.ofCode c = some x) : x.code = c :=
  code_of (o := RndMode.ofCode c) (by clear h; revert c; decide) h

theorem CombineOp.code_ofCode {c : BitVec 4} {x : CombineOp} (h : CombineOp.ofCode c = some x) : x.code = c :=
  code_of (o := CombineOp.ofCode c) (by clear h; revert c; decide) h

theorem AtomOp.code_ofCode {c : BitVec 4} {x : AtomOp} (h : AtomOp.ofCode c = some x) : x.code = c :=
  code_of (o := AtomOp.ofCode c) (by clear h; revert c; decide) h

theorem Scope.code_ofCode {c : BitVec 3} {x : Scope} (h : Scope.ofCode c = some x) : x.code = c :=
  code_of (o := Scope.ofCode c) (by clear h; revert c; decide) h

theorem CounterName.code_ofCode {c : BitVec 2} {x : CounterName} (h : CounterName.ofCode c = some x) : x.code = c :=
  code_of (o := CounterName.ofCode c) (by clear h; revert c; decide) h

theorem BlockLen.code_ofCode {c : BitVec 4} {x : BlockLen} (h : BlockLen.ofCode c.toNat = some x) : BitVec.ofNat 4 x.code = c :=
  code_of (o := BlockLen.ofCode c.toNat) (f := fun x => BitVec.ofNat 4 x.code) (by clear h; revert c; decide) h

theorem BlockLen.code_ofCode2 {c : BitVec 2} {x : BlockLen} (h : BlockLen.ofCode c.toNat = some x) : BitVec.ofNat 2 x.code = c :=
  code_of (o := BlockLen.ofCode c.toNat) (f := fun x => BitVec.ofNat 2 x.code) (by clear h; revert c; decide) h

theorem MemWidth.code_ofCode (c : BitVec 2) : (MemWidth.ofCode c).code = c := by revert c; decide

end Sys2Proof
end

