-- ==== Sys2Proof/Laws/Keeps.lean ====
section
/-!
SUPPORT. What traps, waits and exits leave alone: the registers of every gang, the exited lanes, and every memory but kernel memory.
-/
namespace Sys2Proof.Machine

open Sys2Proof Sys2Proof.Safety

/-- The gang's registers and exited lanes are as they were. -/
structure GangRegs (g g' : Gang) : Prop where
  lanes : g'.lanes = g.lanes
  k : g'.k = g.k
  x : ∀ i, i < 8 → (g'.slice i).x = (g.slice i).x
  body : g'.instar.body = g.instar.body

/-- The registers of every gang, the exited lanes, and every memory but kernel memory are as they were. -/
structure KeepsRegs (s t : State) : Prop where
  gang : ∀ v g, GangRegs (s.gang v g) (t.gang v g)
  mem : t.spad = s.spad ∧ t.obuf = s.obuf ∧ t.hbm = s.hbm ∧ t.far = s.far

theorem gangRegs_refl (g : Gang) : GangRegs g g := ⟨rfl, rfl, fun _ _ => rfl, rfl⟩
theorem gangRegs_trans {a b c : Gang} (h1 : GangRegs a b) (h2 : GangRegs b c) : GangRegs a c :=
  ⟨h2.lanes.trans h1.lanes, h2.k.trans h1.k, fun i hi => (h2.x i hi).trans (h1.x i hi), h2.body.trans h1.body⟩
theorem keepsRegs_refl (s : State) : KeepsRegs s s := ⟨fun _ _ => gangRegs_refl _, rfl, rfl, rfl, rfl⟩
theorem keepsRegs_trans {a b c : State} (h1 : KeepsRegs a b) (h2 : KeepsRegs b c) : KeepsRegs a c :=
  ⟨fun v g => gangRegs_trans (h1.gang v g) (h2.gang v g), h2.mem.1.trans h1.mem.1, h2.mem.2.1.trans h1.mem.2.1,
   h2.mem.2.2.1.trans h1.mem.2.2.1, h2.mem.2.2.2.trans h1.mem.2.2.2⟩

/-- A change of slices that keeps exited lanes. -/
theorem gangRegs_modSlices (g : Gang) (m : BitVec 8) (f : Nat → Slice → Slice) (h : ∀ i x, (f i x).x = x.x) :
    GangRegs g (g.modSlices m f) := by
  refine ⟨rfl, rfl, fun i hi => ?_, rfl⟩
  cases hm : m.getLsbD i
  · rw [Gang.slice_modSlices_out g m f hi hm]
  · rw [Gang.slice_modSlices_in g m f hi hm, h]

/-- Reconvergence keeps exited lanes. -/
theorem Slice.reconverge_x : ∀ (n : Nat) (x : Slice), (Slice.reconverge n x).x = x.x
  | 0, _ => rfl
  | n + 1, ⟨pc, m, x, rc, [], ret, sub, wait, stopped, stopPc, held⟩ => rfl
  | n + 1, ⟨pc, m, x, rc, e :: rest, ret, sub, wait, stopped, stopPc, held⟩ => by
    unfold Slice.reconverge
    dsimp only
    by_cases h : e.ra ≠ some pc
    · rw [if_pos h]
    · rw [if_neg h]
      by_cases h2 : e.pc ≠ e.ra
      · rw [if_pos h2]
        exact Slice.reconverge_x n ⟨e.pc.getD 0, e.mask &&& ~~~ x, x, _, rest, ret, sub, wait, stopped, stopPc, held⟩
      · rw [if_neg h2]
        exact Slice.reconverge_x n ⟨pc, e.mask &&& ~~~ x, x, _, rest, ret, sub, wait, stopped, stopPc, held⟩

/-- Parting keeps registers and exited lanes. -/
theorem gangRegs_part (g : Gang) (m : BitVec 8) : GangRegs g (g.part m) := by
  unfold Gang.part
  refine gangRegs_trans (gangRegs_modSlices g m _ (fun i x => ?_)) (gangRegs_modSlices _ m _ (fun i x => ?_))
  · split
    · rfl
    · exact Slice.reconverge_x _ _
  · split <;> rfl

/-- A change of one gang that keeps its registers. -/
theorem keepsRegs_modGang (s : State) (u g : Nat) (f : Gang → Gang) (h : GangRegs (s.gang u g) (f (s.gang u g))) :
    KeepsRegs s (s.modGang u g f) := by
  refine ⟨fun v i => ?_, rfl, rfl, rfl, rfl⟩
  by_cases e : u = v ∧ g = i
  · obtain ⟨rfl, rfl⟩ := e
    rw [State.gang_modGang_same]
    exact h
  · rw [State.gang_modGang_other s f (Classical.byCases (p := u = v) (fun hu => .inr (fun hg => e ⟨hu, hg⟩)) .inl)]
    exact gangRegs_refl _

/-- A change of one team that keeps the registers of its gangs. -/
theorem keepsRegs_modTeam (s : State) (u : Nat) (f : Team → Team) (h : ∀ i, GangRegs ((s.team u).gang i) ((f (s.team u)).gang i)) :
    KeepsRegs s (s.modTeam u f) := by
  refine ⟨fun v i => ?_, rfl, rfl, rfl, rfl⟩
  unfold State.gang
  by_cases e : u = v
  · subst e
    rw [State.team_modTeam_same]
    exact h i
  · rw [State.team_modTeam_other s f e]
    exact gangRegs_refl _

/-- A state with the same teams and the same four memories. -/
theorem keepsRegs_same {s t : State} (h : t.teams = s.teams) (hm : t.spad = s.spad ∧ t.obuf = s.obuf ∧ t.hbm = s.hbm ∧ t.far = s.far) :
    KeepsRegs s t := by
  refine ⟨fun v g => ?_, hm⟩
  have : t.gang v g = s.gang v g := by unfold State.gang State.team; rw [h]
  rw [this]
  exact gangRegs_refl _

/-- A record of a trap keeps registers. -/
theorem keepsRegs_pushTrap (s : State) (p : Nat) (mk : Nat → List Byte) : KeepsRegs s (s.pushTrap p mk) := by
  unfold State.pushTrap
  dsimp only
  split <;> exact keepsRegs_same rfl ⟨rfl, rfl, rfl, rfl⟩

/-- Leaving the queues keeps registers. -/
theorem gangRegs_unblock (t : Team) (g n i : Nat) : GangRegs (t.gang i) ((t.unblock g n).gang i) := ⟨rfl, rfl, fun _ _ => rfl, rfl⟩

/-- The stop of slices, and of a sidecar, keeps registers. -/
theorem keepsRegs_stop (s : State) (u : Issuer) (n : Nat) (m : BitVec 8) (h : Option Nat) :
    KeepsRegs s ((s.modTeam u.team (fun x => x.unblock u.gang n)).modGang u.team u.gang (fun x =>
      { x.modSlices m (fun _ y => { y with stopped := true, stopPc := some y.pc, wait := none, held := h }) with
        skipCmp := x.skipCmp &&& ~~~ m
        searches := x.searches.filter (fun r => r.slices &&& m = 0#8) })) :=
  keepsRegs_trans (keepsRegs_modTeam s u.team (fun x => x.unblock u.gang n) (fun i => gangRegs_unblock _ _ _ i))
    (keepsRegs_modGang _ _ _ _ (by
      have e := fun g => gangRegs_modSlices g m (fun _ y => { y with stopped := true, stopPc := some y.pc, wait := none, held := h })
        (fun _ _ => rfl)
      exact ⟨(e _).lanes, (e _).k, (e _).x, (e _).body⟩))

/-- Taking a trap keeps every register (R364, R365). -/
theorem keepsRegs_takeTrap (s : State) (u : Issuer) (t : TrapInfo) : KeepsRegs s (s.takeTrap u t) := by
  unfold State.takeTrap
  dsimp only
  split
  · exact keepsRegs_trans (keepsRegs_pushTrap _ _ _) (keepsRegs_modTeam _ _ _ (fun i => gangRegs_refl _))
  · exact keepsRegs_trans (keepsRegs_pushTrap _ _ _) (keepsRegs_stop _ _ _ _ _)

/-- A fold of changes that keep registers. -/
theorem keepsRegs_foldl {α : Type} (f : State → α → State) (h : ∀ s a, KeepsRegs s (f s a)) : ∀ (l : List α) (s : State),
    KeepsRegs s (l.foldl f s)
  | [], s => keepsRegs_refl s
  | a :: l, s => keepsRegs_trans (h s a) (keepsRegs_foldl f h l (f s a))

/-- A fold of changes that keep a gang's registers. -/
theorem gangRegs_foldl {α : Type} (f : Gang → α → Gang) (h : ∀ g a, GangRegs g (f g a)) : ∀ (l : List α) (g : Gang),
    GangRegs g (l.foldl f g)
  | [], g => gangRegs_refl g
  | a :: l, g => gangRegs_trans (h g a) (gangRegs_foldl f h l (f g a))

/-- Merging slices keeps registers. -/
theorem gangRegs_merge (g : Gang) (m : BitVec 8) : GangRegs g (g.merge m) := gangRegs_modSlices _ _ _ (fun _ _ => rfl)

/-- Moving slices past their word keeps registers. -/
theorem gangRegs_step (g : Gang) (m : BitVec 8) : GangRegs g ((g.modSlices m (fun _ x => { x with pc := x.pc + 4#64 })).part m) :=
  gangRegs_trans (gangRegs_modSlices g m (fun _ x => { x with pc := x.pc + 4#64 }) (fun _ _ => rfl)) (gangRegs_part _ _)

/-- Other fields of a gang do not matter. -/
theorem gangRegs_of {g g' h : Gang} (h1 : h.lanes = g.lanes) (h2 : h.k = g.k) (h3 : h.slices = g.slices)
    (h5 : h.instar.body = g.instar.body) (h4 : GangRegs h g') : GangRegs g g' :=
  ⟨h4.lanes.trans h1, h4.k.trans h2, fun i hi => (h4.x i hi).trans (by unfold Gang.slice; rw [h3]), h4.body.trans h5⟩

/-- The release of slices held at a REGANG keeps registers. -/
theorem gangRegs_regangRelease (g : Gang) : GangRegs g g.regangRelease := by
  unfold Gang.regangRelease
  apply gangRegs_foldl
  intro g i
  split
  · dsimp only
    split
    · exact gangRegs_refl g
    · exact gangRegs_trans (gangRegs_merge g _)
        (gangRegs_of (h := { g.merge (g.regangHeld (g.slice i).pc) with skipCmp := g.skipCmp &&& ~~~ g.regangHeld (g.slice i).pc })
          rfl rfl rfl rfl (gangRegs_step _ _))
  · exact gangRegs_refl g

/-- A team whose gangs keep their registers. -/
def TeamRegs (t t' : Team) : Prop := ∀ i, GangRegs (t.gang i) (t'.gang i)

/-- A bank mapped reads as the map of what it held, or as the default. -/
theorem rowGet_map {α β : Type} (d : α) (d' : β) (f : α → β) : ∀ (l : List α) (i : Nat),
    rowGet d' (l.map f) i = if i < l.length then f (rowGet d l i) else d'
  | [], i => by simp [rowGet]
  | _ :: _, 0 => by simp [rowGet]
  | _ :: t, i + 1 => by
    simp only [List.map_cons, rowGet, List.length_cons, Nat.add_lt_add_iff_right]
    exact rowGet_map d d' f t i

/-- A position beyond a bank reads as the default. -/
theorem rowGet_beyond {α : Type} (d : α) : ∀ (l : List α) (i : Nat), l.length ≤ i → rowGet d l i = d
  | [], _, _ => rfl
  | _ :: t, i + 1, h => rowGet_beyond d t i (by simpa using h)

/-- The completion of a phase keeps registers. -/
theorem teamRegs_completePhase (t : Team) (n : BitVec 4) : TeamRegs t (t.completePhase n) := by
  intro i
  unfold Team.completePhase
  dsimp only
  split
  · show GangRegs (t.gang i) (rowGet {} (t.gangs.map _) i)
    rw [rowGet_map ({} : Gang) ({} : Gang)]
    split
    · exact ⟨rfl, rfl, fun _ _ => rfl, rfl⟩
    · have : t.gang i = {} := rowGet_beyond _ _ _ (by omega)
      rw [this]
      exact gangRegs_refl _
  · exact gangRegs_refl _

/-- The arrival of a gang at a barrier keeps registers. -/
theorem gangRegs_arrive (g : Gang) (n : BitVec 4) (p : Nat) (m k : BitVec 8) : GangRegs g (g.arrive n p m k) := by
  unfold Gang.arrive
  dsimp only
  split <;> exact ⟨rfl, rfl, fun _ _ => rfl, rfl⟩

/-- What an exit changes at barriers keeps registers. -/
theorem teamRegs_barrierExits (t : Team) (g : Nat) : TeamRegs t (t.barrierExits g) := by
  have fold : ∀ (l : List Nat) (t : Team), TeamRegs t (l.foldl (fun t i =>
      let n := BitVec.ofNat 4 i
      let t := if ((t.gang g).bar n).slices ≠ 0#8 then t.modGang g (fun x => x.arrive n (t.phase n) 0#8 0#8) else t
      t.completePhase n) t) := by
    intro l
    induction l with
    | nil => exact fun t i => gangRegs_refl _
    | cons a l ih =>
      intro t i
      refine gangRegs_trans ?_ (ih _ i)
      dsimp only
      refine gangRegs_trans (b := (if ((t.gang g).bar (BitVec.ofNat 4 a)).slices ≠ 0#8 then
        t.modGang g (fun x => x.arrive (BitVec.ofNat 4 a) (t.phase (BitVec.ofNat 4 a)) 0#8 0#8) else t).gang i) ?_ (teamRegs_completePhase _ _ i)
      split
      · by_cases e : g = i
        · subst e
          rw [Team.gang_modGang_same]
          exact gangRegs_arrive _ _ _ _ _
        · rw [Team.gang_modGang_other _ _ e]
          exact gangRegs_refl _
      · exact gangRegs_refl _
  exact fold _ t

/-- MEMBER_EXITED in arrived slices keeps registers. -/
theorem keepsRegs_memberExits (s : State) (u g : Nat) : KeepsRegs s (s.memberExits u g) := by
  unfold State.memberExits
  apply keepsRegs_foldl
  intro s i
  dsimp only
  split
  · exact keepsRegs_refl s
  · split
    · exact keepsRegs_refl s
    · split
      · exact keepsRegs_refl s
      · exact keepsRegs_takeTrap s _ _

/-- The TRIG event of a grid keeps registers. -/
theorem keepsRegs_trigEvent (s : State) (g : Nat) : KeepsRegs s (s.trigEvent g) := by
  unfold State.trigEvent
  dsimp only
  split
  · split
    · exact keepsRegs_same rfl ⟨rfl, rfl, rfl, rfl⟩
    · split <;> exact keepsRegs_same rfl ⟨rfl, rfl, rfl, rfl⟩
  · exact keepsRegs_refl s

/-- What an exit changes for others keeps registers. -/
theorem keepsRegs_afterExit (s : State) (u g : Nat) : KeepsRegs s (s.afterExit u g) := by
  unfold State.afterExit
  dsimp only
  generalize h1 : s.freeQuarantined u g = s1
  have k1 : KeepsRegs s s1 := by rw [← h1]; exact keepsRegs_same rfl ⟨rfl, rfl, rfl, rfl⟩
  generalize h2 : s1.modGang u g Gang.regangRelease = s2
  have k2 : KeepsRegs s s2 := by
    rw [← h2]; exact keepsRegs_trans k1 (keepsRegs_modGang _ _ _ _ (gangRegs_regangRelease _))
  generalize h3 : s2.memberExits u g = s3
  have k3 : KeepsRegs s s3 := by rw [← h3]; exact keepsRegs_trans k2 (keepsRegs_memberExits _ _ _)
  generalize h4 : s3.modTeam u (fun t => t.barrierExits g) = s4
  have k4 : KeepsRegs s s4 := by
    rw [← h4]; exact keepsRegs_trans k3 (keepsRegs_modTeam _ _ _ (teamRegs_barrierExits _ _))
  generalize h5 : (if (s4.gang u g).exited = true then s4.modGang u g (fun g => { g with active := none, ready := none }) else s4) = s5
  have k5 : KeepsRegs s s5 := by
    rw [← h5]
    split
    · exact keepsRegs_trans k4 (keepsRegs_modGang _ _ _ _ ⟨rfl, rfl, fun _ _ => rfl, rfl⟩)
    · exact k4
  have k6 : KeepsRegs s (s5.trigEvent (s5.team u).grid) := keepsRegs_trans k5 (keepsRegs_trigEvent _ _)
  split
  · exact keepsRegs_trans k6 (keepsRegs_modTeam _ _ _ (fun i => gangRegs_refl _))
  · exact k6

/-- The turn after a parting keeps registers. -/
theorem gangRegs_partTurn (g : Gang) (m : BitVec 8) : GangRegs g (g.partTurn m) := by
  rw [Gang.partTurn_keeps]
  exact ⟨rfl, rfl, fun _ _ => rfl, rfl⟩

/-- The advance past a word keeps registers. -/
theorem gangRegs_advance (g : Gang) (m : BitVec 8) : GangRegs g (g.advance m) := by
  unfold Gang.advance
  split
  · rename_i x _
    unfold Gang.loopStep
    dsimp only
    have h := fun f hf => gangRegs_of (g := g) (h := { g with lc := rowPut 0 g.lc x.lc (g.lcount x.lc - 1#32) }) rfl rfl rfl rfl (gangRegs_modSlices _ m f hf)
    split
    · exact h _ (fun _ _ => rfl)
    · have := h (fun _ y => { y with pc := x.stop + 4#64 }) (fun _ _ => rfl)
      exact ⟨this.lanes, this.k, this.x, this.body⟩
  · exact gangRegs_modSlices _ _ _ (fun _ _ => rfl)

/-- What goes with every word of a gang keeps registers, and outside a recipe's body the exited lanes. -/
theorem gangRegs_finish (f : Form) (popped : Bool) (u : Issuer) (g : Gang) (hb : g.instar.body = none) :
    GangRegs g (finishGang f popped u g) := by
  unfold finishGang
  dsimp only
  generalize hm : (if f.merges = true then g.subgang (g.slice (lowSlice u.slices)).sub else u.slices) = m
  generalize hA : ({ g with instar := { g.instar with rewindable := g.instar.rewindable && !(f.closes || popped) },
                            skipCmp := g.skipCmp &&& ~~~ m,
                            lastSub := (g.slice (lowSlice u.slices)).sub } : Gang) = A
  have h1 : A.lanes = g.lanes ∧ A.k = g.k ∧ A.slices = g.slices ∧ A.instar.body = none := by rw [← hA]; exact ⟨rfl, rfl, rfl, hb⟩
  have h2 : GangRegs g (A.modSlices m (fun _ x => { x with wait := none })) :=
    gangRegs_of h1.1 h1.2.1 h1.2.2.1 (h1.2.2.2.trans hb.symm) (gangRegs_modSlices _ _ _ (fun _ _ => rfl))
  have h3 : GangRegs g (if f.jumps = true then A.modSlices m (fun _ x => { x with wait := none })
      else (A.modSlices m (fun _ x => { x with wait := none })).advance m) := by
    split
    · exact h2
    · exact gangRegs_trans h2 (gangRegs_advance _ _)
  have h4 : (if f.jumps = true then A.modSlices m (fun _ x => { x with wait := none })
      else (A.modSlices m (fun _ x => { x with wait := none })).advance m).instar.body = none := by
    split
    · exact h1.2.2.2
    · rw [Gang.advance_keeps]
      exact h1.2.2.2
  generalize (if f.jumps = true then A.modSlices m (fun _ x => { x with wait := none })
      else (A.modSlices m (fun _ x => { x with wait := none })).advance m) = B at h3 h4
  have h5 : ((B.part m).partTurn m).instar.body = none := by
    rw [Gang.partTurn_keeps]
    exact h4
  rw [Gang.bodyCheck_none _ m h5]
  exact gangRegs_trans h3 (gangRegs_trans (gangRegs_part _ _) (gangRegs_partTurn _ _))

/-- What goes with every word of a gang keeps lanes and k registers, in a recipe's body too. -/
theorem keeps_finish (f : Form) (popped : Bool) (u : Issuer) (s : State) (hg : u.gang ≠ 16) :
    (∀ v g, ((finish f popped u s).gang v g).lanes = (s.gang v g).lanes ∧ ((finish f popped u s).gang v g).k = (s.gang v g).k) ∧
    (finish f popped u s).spad = s.spad ∧ (finish f popped u s).obuf = s.obuf ∧ (finish f popped u s).hbm = s.hbm ∧
    (finish f popped u s).far = s.far ∧
    ((s.gang u.team u.gang).instar.body = none → GangRegs (s.gang u.team u.gang) ((finish f popped u s).gang u.team u.gang)) := by
  refine ⟨fun v g => ?_, ?_, ?_, ?_, ?_, fun hb => ?_⟩
  · rw [finish_gang hg]
    by_cases e : u.team = v ∧ u.gang = g
    · obtain ⟨rfl, rfl⟩ := e
      rw [State.gang_modGang_same, finishGang_keeps, State.gang_meterWord]
      exact ⟨rfl, rfl⟩
    · rw [State.gang_modGang_other _ _ (Classical.byCases (p := u.team = v) (fun hu => .inr (fun hg => e ⟨hu, hg⟩)) .inl),
        State.gang_meterWord]
      exact ⟨rfl, rfl⟩
  · rw [finish_gang hg]; unfold State.meterWord; split <;> rfl
  · rw [finish_gang hg]; unfold State.meterWord; split <;> rfl
  · rw [finish_gang hg]; unfold State.meterWord; split <;> rfl
  · rw [finish_gang hg]; unfold State.meterWord; split <;> rfl
  · rw [gang_finish hg]
    exact gangRegs_finish _ _ _ _ hb

end Sys2Proof.Machine
end

