-- ==== Sys2Proof/Laws/PerInstr.lean ====
section
/-!
SUPPORT. The round trip of the encoder and the decoder, one lemma per constructor (R61, R62, R71 to R84): a word that the encoder
gives for a well-formed instruction decodes to that instruction, with every operand as it was. A step that is no word has no
encoding, and its lemma says so.
-/
namespace Sys2Proof.Laws.RoundTrip

open Sys2Proof

set_option linter.unusedSimpArgs false
set_option linter.unusedVariables false

/-- The word of a well-formed instruction decodes to it. -/
def Statement (i : Instr) : Prop := i.wellFormed = true → ∀ w, encode i = some w → decode w = .ok i

/-- From the decoding of the one word that encodes an instruction. -/
theorem of_word {i : Instr} {w : Half} (he : encode i = some w) (hd : i.wellFormed = true → decode w = .ok i) : Statement i := by
  intro hw v hv
  rw [he] at hv
  cases hv
  exact hd hw

/-- A step that no word encodes. -/
theorem of_none {i : Instr} (he : encode i = none) : Statement i := by
  intro _ v hv
  rw [he] at hv
  cases hv

theorem nop : Statement (.nop) := of_word rfl (by
  intro hw
  simp [-BitVec.getLsbD_eq_getElem, decode, decodeControl, vvv, vv, vvFn, vvi, kkk, kkkF, pick, pickOpt])
theorem exit : Statement (.exit) := of_word rfl (by
  intro hw
  simp [-BitVec.getLsbD_eq_getElem, decode, decodeControl, vvv, vv, vvFn, vvi, kkk, kkkF, pick, pickOpt])
theorem bra (off : BitVec 20) : Statement (.bra off) := of_word rfl (by
  intro hw
  simp [-BitVec.getLsbD_eq_getElem, decode, decodeControl, vvv, vv, vvFn, vvi, kkk, kkkF, pick, pickOpt])
theorem brc (p : PNum) (n : Bool) (off : BitVec 20) : Statement (.brc p n off) := of_word rfl (by
  intro hw
  simp [-BitVec.getLsbD_eq_getElem, decode, decodeControl, vvv, vv, vvFn, vvi, kkk, kkkF, pick, pickOpt])
theorem rcv (off : BitVec 20) : Statement (.rcv off) := of_word rfl (by
  intro hw
  simp [-BitVec.getLsbD_eq_getElem, decode, decodeControl, vvv, vv, vvFn, vvi, kkk, kkkF, pick, pickOpt])
theorem jmpi (a : VNum) (wa : Bool) : Statement (.jmpi a wa) := of_word rfl (by
  intro hw
  simp [-BitVec.getLsbD_eq_getElem, decode, decodeControl, vvv, vv, vvFn, vvi, kkk, kkkF, pick, pickOpt])
theorem call (off : BitVec 20) : Statement (.call off) := of_word rfl (by
  intro hw
  simp [-BitVec.getLsbD_eq_getElem, decode, decodeControl, vvv, vv, vvFn, vvi, kkk, kkkF, pick, pickOpt])
theorem calli (a : VNum) (wa : Bool) : Statement (.calli a wa) := of_word rfl (by
  intro hw
  simp [-BitVec.getLsbD_eq_getElem, decode, decodeControl, vvv, vv, vvFn, vvi, kkk, kkkF, pick, pickOpt])
theorem ret : Statement (.ret) := of_word rfl (by
  intro hw
  simp [-BitVec.getLsbD_eq_getElem, decode, decodeControl, vvv, vv, vvFn, vvi, kkk, kkkF, pick, pickOpt])
theorem retr (a : VNum) (wa : Bool) : Statement (.retr a wa) := of_word rfl (by
  intro hw
  simp [-BitVec.getLsbD_eq_getElem, decode, decodeControl, vvv, vv, vvFn, vvi, kkk, kkkF, pick, pickOpt])
theorem loop (c : BitVec 2) (ka : KNum) (words : BitVec 8) : Statement (.loop c ka words) := of_word rfl (by
  intro hw
  have h0 : BitVec.extractLsb' (n := 24) 22 2 (c ++ (kField ka ++ (0#8 ++ words))) = c := slice_upper c _
  have h1 : BitVec.extractLsb' (n := 24) 16 6 (c ++ (kField ka ++ (0#8 ++ words))) = kField ka := (slice_lower _ _ 16 6 (by decide)).trans (slice_upper _ _)
  have h2 : BitVec.extractLsb' (n := 24) 8 8 (c ++ (kField ka ++ (0#8 ++ words))) = 0#8 := (slice_lower _ _ 8 8 (by decide)).trans ((slice_lower _ _ 8 8 (by decide)).trans (slice_upper _ _))
  have h3 : BitVec.extractLsb' (n := 24) 0 8 (c ++ (kField ka ++ (0#8 ++ words))) = words := (slice_lower _ _ 0 8 (by decide)).trans ((slice_lower _ _ 0 8 (by decide)).trans ((slice_lower _ _ 0 8 (by decide)).trans (slice_whole _)))
  have h4 : c.toNat < 3 := by simpa [Instr.wellFormed] using hw
  simp [-BitVec.getLsbD_eq_getElem, decode, decodeControl, vvv, vv, vvFn, vvi, kkk, kkkF, pick, pickOpt, h0, h1, h2, h3, h4])
theorem lexit : Statement (.lexit) := of_word rfl (by
  intro hw
  simp [-BitVec.getLsbD_eq_getElem, decode, decodeControl, vvv, vv, vvFn, vvi, kkk, kkkF, pick, pickOpt])
theorem regang (mask : BitVec 8) : Statement (.regang mask) := of_word rfl (by
  intro hw
  have h0 : BitVec.extractLsb' (n := 24) 8 16 (0#16 ++ mask) = 0#16 := slice_upper _ _
  have h1 : BitVec.extractLsb' (n := 24) 0 8 (0#16 ++ mask) = mask := (slice_lower _ _ 0 8 (by decide)).trans (slice_whole _)
  have h2 : ¬ mask = 0#8 := by simpa [Instr.wellFormed] using hw
  simp [-BitVec.getLsbD_eq_getElem, decode, decodeControl, vvv, vv, vvFn, vvi, kkk, kkkF, pick, pickOpt, h0, h1, h2])
theorem kbr (ka kb : KNum) (cc : KbrCond) (off : BitVec 9) : Statement (.kbr ka kb cc off) := of_word rfl (by
  intro hw
  have h0 : BitVec.extractLsb' (n := 24) 18 6 (kField ka ++ (kField kb ++ (cc.code ++ off))) = kField ka := slice_upper _ _
  have h1 : BitVec.extractLsb' (n := 24) 12 6 (kField ka ++ (kField kb ++ (cc.code ++ off))) = kField kb := (slice_lower _ _ 12 6 (by decide)).trans (slice_upper _ _)
  have h2 : BitVec.extractLsb' (n := 24) 9 3 (kField ka ++ (kField kb ++ (cc.code ++ off))) = cc.code := (slice_lower _ _ 9 3 (by decide)).trans ((slice_lower _ _ 9 3 (by decide)).trans (slice_upper _ _))
  have h3 : BitVec.extractLsb' (n := 24) 0 9 (kField ka ++ (kField kb ++ (cc.code ++ off))) = off := (slice_lower _ _ 0 9 (by decide)).trans ((slice_lower _ _ 0 9 (by decide)).trans ((slice_lower _ _ 0 9 (by decide)).trans (slice_whole _)))
  have h4 : cc = .always → ka = 0#5 ∧ kb = 0#5 := by
    intro hc
    subst hc
    simpa [Instr.wellFormed] using hw
  have h5 : ∀ k : KNum, kField k = 0#6 ↔ k = 0#5 := by decide
  simp [-BitVec.getLsbD_eq_getElem, decode, decodeControl, vvv, vv, vvFn, vvi, kkk, kkkF, pick, pickOpt, h0, h1, h2, h3, h4, h5]
  cases cc <;> simp_all)
theorem bkpt (code : BitVec 24) : Statement (.bkpt code) := of_word rfl (by
  intro hw
  simp [-BitVec.getLsbD_eq_getElem, decode, decodeControl, vvv, vv, vvFn, vvi, kkk, kkkF, pick, pickOpt])
theorem setmode (ka : KNum) : Statement (.setmode ka) := of_word rfl (by
  intro hw
  simp [-BitVec.getLsbD_eq_getElem, decode, decodeControl, vvv, vv, vvFn, vvi, kkk, kkkF, pick, pickOpt])
theorem setmk (ka kb : KNum) : Statement (.setmk ka kb) := of_word rfl (by
  intro hw
  simp [-BitVec.getLsbD_eq_getElem, decode, decodeControl, vvv, vv, vvFn, vvi, kkk, kkkF, pick, pickOpt])
theorem getmode (kd : KNum) : Statement (.getmode kd) := of_word rfl (by
  intro hw
  simp [-BitVec.getLsbD_eq_getElem, decode, decodeControl, vvv, vv, vvFn, vvi, kkk, kkkF, pick, pickOpt])
theorem csrr (d : BitVec 6) (csr : BitVec 12) : Statement (.csrr d csr) := of_word rfl (by
  intro hw
  have h : csrFieldOk d csr = true := hw
  have h2 : (Csr.ofNum csr).isSome = true := by
    unfold csrFieldOk at h
    cases hc : Csr.ofNum csr with
    | none => simp [hc] at h
    | some c => rfl
  obtain ⟨c, hc⟩ := Option.isSome_iff_exists.mp h2
  simp [-BitVec.getLsbD_eq_getElem, decode, decodeControl, pick, pickOpt, hc, h])
theorem csrw (a : BitVec 6) (csr : BitVec 12) : Statement (.csrw a csr) := of_word rfl (by
  intro hw
  have h : csrFieldOk a csr = true := hw
  have h2 : (Csr.ofNum csr).isSome = true := by
    unfold csrFieldOk at h
    cases hc : Csr.ofNum csr with
    | none => simp [hc] at h
    | some c => rfl
  obtain ⟨c, hc⟩ := Option.isSome_iff_exists.mp h2
  simp [-BitVec.getLsbD_eq_getElem, decode, decodeControl, pick, pickOpt, hc, h])
theorem invstSetState (st : BitVec 9) : Statement (.invstSetState st) := of_none rfl
theorem invstLoadLo (n : BitVec 2) (x : Half) : Statement (.invstLoadLo n x) := of_none rfl
theorem invstLoadHi (n : BitVec 2) (x : Half) : Statement (.invstLoadHi n x) := of_none rfl
theorem invstViewLo (n : BitVec 2) : Statement (.invstViewLo n) := of_none rfl
theorem invstViewHi (n : BitVec 2) : Statement (.invstViewHi n) := of_none rfl
theorem trap (code : BitVec 24) : Statement (.trap code) := of_word rfl (by
  intro hw
  simp [-BitVec.getLsbD_eq_getElem, decode, decodeControl, vvv, vv, vvFn, vvi, kkk, kkkF, pick, pickOpt])
theorem instar (off : BitVec 24) : Statement (.instar off) := of_word rfl (by
  intro hw
  have h0 : ¬ off = 0#24 := by simpa [Instr.wellFormed] using hw
  simp [-BitVec.getLsbD_eq_getElem, decode, decodeControl, vvv, vv, vvFn, vvi, kkk, kkkF, pick, pickOpt, h0])
theorem inv (x t : VNum) (br : BitVec 2) (tol len : BitVec 4) (dec : Bool) : Statement (.inv x t br tol len dec) := of_word rfl (by
  intro hw
  have h0 : (ivWord 0x17#8 x t br tol len dec).getLsbD 0 = false := ivWord_zero _ _ _ _ _ _ _
  have h1 : (ivWord 0x17#8 x t br tol len dec).getLsbD 1 = dec := ivWord_dir _ _ _ _ _ _ _
  simp [-BitVec.getLsbD_eq_getElem, decode, decodeControl, vvv, vv, vvFn, vvi, kkk, kkkF, pick, pickOpt, h0, h1])
theorem add (d a b : VNum) (wa wb : Bool) : Statement (.add d a b wa wb) := of_word rfl (by
  intro hw
  simp [-BitVec.getLsbD_eq_getElem, decode, decodeGeneric, vvv, vv, vvFn, vvi, kkk, kkkF, pick, pickOpt])
theorem sub (d a b : VNum) (wa wb : Bool) : Statement (.sub d a b wa wb) := of_word rfl (by
  intro hw
  simp [-BitVec.getLsbD_eq_getElem, decode, decodeGeneric, vvv, vv, vvFn, vvi, kkk, kkkF, pick, pickOpt])
theorem mul (d a b : VNum) (wa wb : Bool) : Statement (.mul d a b wa wb) := of_word rfl (by
  intro hw
  simp [-BitVec.getLsbD_eq_getElem, decode, decodeGeneric, vvv, vv, vvFn, vvi, kkk, kkkF, pick, pickOpt])
theorem mulh (d a b : VNum) (wa wb : Bool) : Statement (.mulh d a b wa wb) := of_word rfl (by
  intro hw
  simp [-BitVec.getLsbD_eq_getElem, decode, decodeGeneric, vvv, vv, vvFn, vvi, kkk, kkkF, pick, pickOpt])
theorem fma (d a b : VNum) (wa wb : Bool) : Statement (.fma d a b wa wb) := of_word rfl (by
  intro hw
  simp [-BitVec.getLsbD_eq_getElem, decode, decodeGeneric, vvv, vv, vvFn, vvi, kkk, kkkF, pick, pickOpt])
theorem fms (d a b : VNum) (wa wb : Bool) : Statement (.fms d a b wa wb) := of_word rfl (by
  intro hw
  simp [-BitVec.getLsbD_eq_getElem, decode, decodeGeneric, vvv, vv, vvFn, vvi, kkk, kkkF, pick, pickOpt])
theorem min (d a b : VNum) (wa wb : Bool) : Statement (.min d a b wa wb) := of_word rfl (by
  intro hw
  simp [-BitVec.getLsbD_eq_getElem, decode, decodeGeneric, vvv, vv, vvFn, vvi, kkk, kkkF, pick, pickOpt])
theorem max (d a b : VNum) (wa wb : Bool) : Statement (.max d a b wa wb) := of_word rfl (by
  intro hw
  simp [-BitVec.getLsbD_eq_getElem, decode, decodeGeneric, vvv, vv, vvFn, vvi, kkk, kkkF, pick, pickOpt])
theorem abs (d a : VNum) (wa : Bool) : Statement (.abs d a wa) := of_word rfl (by
  intro hw
  simp [-BitVec.getLsbD_eq_getElem, decode, decodeGeneric, vvv, vv, vvFn, vvi, kkk, kkkF, pick, pickOpt])
theorem neg (d a : VNum) (wa : Bool) : Statement (.neg d a wa) := of_word rfl (by
  intro hw
  simp [-BitVec.getLsbD_eq_getElem, decode, decodeGeneric, vvv, vv, vvFn, vvi, kkk, kkkF, pick, pickOpt])
theorem and (d a b : VNum) (wa wb : Bool) : Statement (.and d a b wa wb) := of_word rfl (by
  intro hw
  simp [-BitVec.getLsbD_eq_getElem, decode, decodeGeneric, vvv, vv, vvFn, vvi, kkk, kkkF, pick, pickOpt])
theorem or (d a b : VNum) (wa wb : Bool) : Statement (.or d a b wa wb) := of_word rfl (by
  intro hw
  simp [-BitVec.getLsbD_eq_getElem, decode, decodeGeneric, vvv, vv, vvFn, vvi, kkk, kkkF, pick, pickOpt])
theorem xor (d a b : VNum) (wa wb : Bool) : Statement (.xor d a b wa wb) := of_word rfl (by
  intro hw
  simp [-BitVec.getLsbD_eq_getElem, decode, decodeGeneric, vvv, vv, vvFn, vvi, kkk, kkkF, pick, pickOpt])
theorem andn (d a b : VNum) (wa wb : Bool) : Statement (.andn d a b wa wb) := of_word rfl (by
  intro hw
  simp [-BitVec.getLsbD_eq_getElem, decode, decodeGeneric, vvv, vv, vvFn, vvi, kkk, kkkF, pick, pickOpt])
theorem shl (d a b : VNum) (wa wb : Bool) : Statement (.shl d a b wa wb) := of_word rfl (by
  intro hw
  simp [-BitVec.getLsbD_eq_getElem, decode, decodeGeneric, vvv, vv, vvFn, vvi, kkk, kkkF, pick, pickOpt])
theorem shr (d a b : VNum) (wa wb : Bool) : Statement (.shr d a b wa wb) := of_word rfl (by
  intro hw
  simp [-BitVec.getLsbD_eq_getElem, decode, decodeGeneric, vvv, vv, vvFn, vvi, kkk, kkkF, pick, pickOpt])
theorem rot (d a b : VNum) (wa wb : Bool) : Statement (.rot d a b wa wb) := of_word rfl (by
  intro hw
  simp [-BitVec.getLsbD_eq_getElem, decode, decodeGeneric, vvv, vv, vvFn, vvi, kkk, kkkF, pick, pickOpt])
theorem bits (op : BitsOp) (d a : VNum) (wa : Bool) : Statement (.bits op d a wa) := of_word rfl (by
  intro hw
  simp [-BitVec.getLsbD_eq_getElem, decode, decodeGeneric, vvv, vv, vvFn, vvi, kkk, kkkF, pick, pickOpt])
theorem bfx (d a b : VNum) (wa wb : Bool) : Statement (.bfx d a b wa wb) := of_word rfl (by
  intro hw
  simp [-BitVec.getLsbD_eq_getElem, decode, decodeGeneric, vvv, vv, vvFn, vvi, kkk, kkkF, pick, pickOpt])
theorem bfi (d a b : VNum) (wa wb : Bool) : Statement (.bfi d a b wa wb) := of_word rfl (by
  intro hw
  simp [-BitVec.getLsbD_eq_getElem, decode, decodeGeneric, vvv, vv, vvFn, vvi, kkk, kkkF, pick, pickOpt])
theorem div (d a b : VNum) (wa wb : Bool) : Statement (.div d a b wa wb) := of_word rfl (by
  intro hw
  simp [-BitVec.getLsbD_eq_getElem, decode, decodeGeneric, vvv, vv, vvFn, vvi, kkk, kkkF, pick, pickOpt])
theorem rem (d a b : VNum) (wa wb : Bool) : Statement (.rem d a b wa wb) := of_word rfl (by
  intro hw
  simp [-BitVec.getLsbD_eq_getElem, decode, decodeGeneric, vvv, vv, vvFn, vvi, kkk, kkkF, pick, pickOpt])
theorem mov (d a : VNum) (wa : Bool) : Statement (.mov d a wa) := of_word rfl (by
  intro hw
  simp [-BitVec.getLsbD_eq_getElem, decode, decodeGeneric, vvv, vv, vvFn, vvi, kkk, kkkF, pick, pickOpt])
theorem sel (d a b : VNum) (wa wb : Bool) (n : Bool) (p : PNum) : Statement (.sel d a b wa wb n p) := of_word rfl (by
  intro hw
  have h0 : BitVec.getLsbD (w := 4) (BitVec.ofBool n ++ p) 3 = n := bit_upper n p
  have h1 : BitVec.extractLsb' (n := 4) 0 3 (BitVec.ofBool n ++ p) = p := (slice_lower _ _ 0 3 (by decide)).trans (slice_whole _)
  simp only [decode, decodeGeneric, rrWord_top, rrWord_op, rrWord_d, rrWord_a, rrWord_b, rrWord_wa, rrWord_wb, rrWord_fn, h0, h1]
  rfl)
theorem cmp (cc : CmpCond) (p : PNum) (a b : VNum) (wa wb : Bool) : Statement (.cmp cc p a b wa wb) := of_word rfl (by
  intro hw
  simp [-BitVec.getLsbD_eq_getElem, decode, decodeGeneric, vvv, vv, vvFn, vvi, kkk, kkkF, pick, pickOpt])
theorem plop (d a b : PNum) (tt : BitVec 4) : Statement (.plop d a b tt) := of_word rfl (by
  intro hw
  simp [-BitVec.getLsbD_eq_getElem, decode, decodeGeneric, vvv, vv, vvFn, vvi, kkk, kkkF, pick, pickOpt])
theorem dot4 (d a b : VNum) (wa wb : Bool) : Statement (.dot4 d a b wa wb) := of_word rfl (by
  intro hw
  simp [-BitVec.getLsbD_eq_getElem, decode, decodeGeneric, vvv, vv, vvFn, vvi, kkk, kkkF, pick, pickOpt])
theorem crc (d a : VNum) (wa : Bool) : Statement (.crc d a wa) := of_word rfl (by
  intro hw
  simp [-BitVec.getLsbD_eq_getElem, decode, decodeGeneric, vvv, vv, vvFn, vvi, kkk, kkkF, pick, pickOpt])
theorem addi (d a : VNum) (imm : BitVec 12) : Statement (.addi d a imm) := of_word rfl (by
  intro hw
  simp [-BitVec.getLsbD_eq_getElem, decode, decodeImmediate, vvv, vv, vvFn, vvi, kkk, kkkF, pick, pickOpt])
theorem muli (d a : VNum) (imm : BitVec 12) : Statement (.muli d a imm) := of_word rfl (by
  intro hw
  simp [-BitVec.getLsbD_eq_getElem, decode, decodeImmediate, vvv, vv, vvFn, vvi, kkk, kkkF, pick, pickOpt])
theorem andi (d a : VNum) (imm : BitVec 12) : Statement (.andi d a imm) := of_word rfl (by
  intro hw
  simp [-BitVec.getLsbD_eq_getElem, decode, decodeImmediate, vvv, vv, vvFn, vvi, kkk, kkkF, pick, pickOpt])
theorem ori (d a : VNum) (imm : BitVec 12) : Statement (.ori d a imm) := of_word rfl (by
  intro hw
  simp [-BitVec.getLsbD_eq_getElem, decode, decodeImmediate, vvv, vv, vvFn, vvi, kkk, kkkF, pick, pickOpt])
theorem xori (d a : VNum) (imm : BitVec 12) : Statement (.xori d a imm) := of_word rfl (by
  intro hw
  simp [-BitVec.getLsbD_eq_getElem, decode, decodeImmediate, vvv, vv, vvFn, vvi, kkk, kkkF, pick, pickOpt])
theorem shli (d a : VNum) (count : BitVec 6) : Statement (.shli d a count) := of_word rfl (by
  intro hw
  have h0 : BitVec.extractLsb' (n := 12) 6 6 (0#6 ++ count) = 0#6 := slice_upper _ _
  have h1 : BitVec.extractLsb' (n := 12) 0 6 (0#6 ++ count) = count := (slice_lower _ _ 0 6 (by decide)).trans (slice_whole _)
  simp [-BitVec.getLsbD_eq_getElem, decode, decodeImmediate, vvv, vv, vvFn, vvi, kkk, kkkF, pick, pickOpt, h0, h1])
theorem shri (d a : VNum) (count : BitVec 6) : Statement (.shri d a count) := of_word rfl (by
  intro hw
  have h0 : BitVec.extractLsb' (n := 12) 6 6 (0#6 ++ count) = 0#6 := slice_upper _ _
  have h1 : BitVec.extractLsb' (n := 12) 0 6 (0#6 ++ count) = count := (slice_lower _ _ 0 6 (by decide)).trans (slice_whole _)
  simp [-BitVec.getLsbD_eq_getElem, decode, decodeImmediate, vvv, vv, vvFn, vvi, kkk, kkkF, pick, pickOpt, h0, h1])
theorem cmpi (cc : CmpiCond) (p : PNum) (a : VNum) (imm : BitVec 12) : Statement (.cmpi cc p a imm) := of_word rfl (by
  intro hw
  have h0 : BitVec.extractLsb' (n := 6) 3 3 (cc.code ++ p) = cc.code := slice_upper _ _
  have h1 : BitVec.extractLsb' (n := 6) 0 3 (cc.code ++ p) = p := (slice_lower _ _ 0 3 (by decide)).trans (slice_whole _)
  simp [-BitVec.getLsbD_eq_getElem, decode, decodeImmediate, vvv, vv, vvFn, vvi, kkk, kkkF, pick, pickOpt, h0, h1])
theorem movi (d : VNum) (imm : BitVec 18) : Statement (.movi d imm) := of_word rfl (by
  intro hw
  simp [-BitVec.getLsbD_eq_getElem, decode, decodeImmediate, vvv, vv, vvFn, vvi, kkk, kkkF, pick, pickOpt])
theorem movhi (d : VNum) (imm : BitVec 18) : Statement (.movhi d imm) := of_word rfl (by
  intro hw
  simp [-BitVec.getLsbD_eq_getElem, decode, decodeImmediate, vvv, vv, vvFn, vvi, kkk, kkkF, pick, pickOpt])
theorem mini (d a : VNum) (imm : BitVec 12) : Statement (.mini d a imm) := of_word rfl (by
  intro hw
  simp [-BitVec.getLsbD_eq_getElem, decode, decodeImmediate, vvv, vv, vvFn, vvi, kkk, kkkF, pick, pickOpt])
theorem maxi (d a : VNum) (imm : BitVec 12) : Statement (.maxi d a imm) := of_word rfl (by
  intro hw
  simp [-BitVec.getLsbD_eq_getElem, decode, decodeImmediate, vvv, vv, vvFn, vvi, kkk, kkkF, pick, pickOpt])
theorem rcp (d a : VNum) (wa : Bool) : Statement (.rcp d a wa) := of_word rfl (by
  intro hw
  simp [-BitVec.getLsbD_eq_getElem, decode, decodeImmediate, vvv, vv, vvFn, vvi, kkk, kkkF, pick, pickOpt])
theorem rsq (d a : VNum) (wa : Bool) : Statement (.rsq d a wa) := of_word rfl (by
  intro hw
  simp [-BitVec.getLsbD_eq_getElem, decode, decodeImmediate, vvv, vv, vvFn, vvi, kkk, kkkF, pick, pickOpt])
theorem sqrt (d a : VNum) (wa : Bool) : Statement (.sqrt d a wa) := of_word rfl (by
  intro hw
  simp [-BitVec.getLsbD_eq_getElem, decode, decodeImmediate, vvv, vv, vvFn, vvi, kkk, kkkF, pick, pickOpt])
theorem exp2 (d a : VNum) (wa : Bool) : Statement (.exp2 d a wa) := of_word rfl (by
  intro hw
  simp [-BitVec.getLsbD_eq_getElem, decode, decodeImmediate, vvv, vv, vvFn, vvi, kkk, kkkF, pick, pickOpt])
theorem log2 (d a : VNum) (wa : Bool) : Statement (.log2 d a wa) := of_word rfl (by
  intro hw
  simp [-BitVec.getLsbD_eq_getElem, decode, decodeImmediate, vvv, vv, vvFn, vvi, kkk, kkkF, pick, pickOpt])
theorem sinpi (d a : VNum) (wa : Bool) : Statement (.sinpi d a wa) := of_word rfl (by
  intro hw
  simp [-BitVec.getLsbD_eq_getElem, decode, decodeImmediate, vvv, vv, vvFn, vvi, kkk, kkkF, pick, pickOpt])
theorem cospi (d a : VNum) (wa : Bool) : Statement (.cospi d a wa) := of_word rfl (by
  intro hw
  simp [-BitVec.getLsbD_eq_getElem, decode, decodeImmediate, vvv, vv, vvFn, vvi, kkk, kkkF, pick, pickOpt])
theorem tanh (d a : VNum) (wa : Bool) : Statement (.tanh d a wa) := of_word rfl (by
  intro hw
  simp [-BitVec.getLsbD_eq_getElem, decode, decodeImmediate, vvv, vv, vvFn, vvi, kkk, kkkF, pick, pickOpt])
theorem cvt (src : ElemType) (d a : VNum) (wa : Bool) : Statement (.cvt src d a wa) := of_word rfl (by
  intro hw
  simp [-BitVec.getLsbD_eq_getElem, decode, decodeImmediate, vvv, vv, vvFn, vvi, kkk, kkkF, pick, pickOpt])
theorem pack (src : ElemType) (d a : VNum) (part : BitVec 3) (wa : Bool) : Statement (.pack src d a part wa) := of_word rfl (by
  intro hw
  simp [-BitVec.getLsbD_eq_getElem, decode, decodeImmediate, vvv, vv, vvFn, vvi, kkk, kkkF, pick, pickOpt])
theorem unpk (src : ElemType) (d a : VNum) (part : BitVec 3) (wa : Bool) : Statement (.unpk src d a part wa) := of_word rfl (by
  intro hw
  simp [-BitVec.getLsbD_eq_getElem, decode, decodeImmediate, vvv, vv, vvFn, vvi, kkk, kkkF, pick, pickOpt])
theorem qnt (l : BlockLen) (d a b : VNum) (wa wb : Bool) : Statement (.qnt l d a b wa wb) := of_word rfl (by
  intro hw
  have h : (d.toNat ≤ 55 ∧ a.toNat ≤ 56) ∧ b.toNat ≤ 56 := by simpa [Instr.wellFormed] using hw
  cases l <;> simp [-BitVec.getLsbD_eq_getElem, decode, decodeImmediate, pick, pickOpt, BlockLen.ofCode, BlockLen.code, h])
theorem rnd (m : RndMode) (d a : VNum) (wa : Bool) : Statement (.rnd m d a wa) := of_word rfl (by
  intro hw
  simp [-BitVec.getLsbD_eq_getElem, decode, decodeImmediate, vvv, vv, vvFn, vvi, kkk, kkkF, pick, pickOpt])
theorem classf (d a : VNum) (wa : Bool) : Statement (.classf d a wa) := of_word rfl (by
  intro hw
  simp [-BitVec.getLsbD_eq_getElem, decode, decodeImmediate, vvv, vv, vvFn, vvi, kkk, kkkF, pick, pickOpt])
theorem scalb (d a b : VNum) (wa wb : Bool) : Statement (.scalb d a b wa wb) := of_word rfl (by
  intro hw
  simp [-BitVec.getLsbD_eq_getElem, decode, decodeImmediate, vvv, vv, vvFn, vvi, kkk, kkkF, pick, pickOpt])
theorem shfl (d a b : VNum) (wa wb : Bool) (kf : BitVec 4) : Statement (.shfl d a b wa wb kf) := of_word rfl (by
  intro hw
  simp [-BitVec.getLsbD_eq_getElem, decode, decodeCross, vvv, vv, vvFn, vvi, kkk, kkkF, pick, pickOpt])
theorem bcst (d a : VNum) (lane : BitVec 5) (wa : Bool) (kf : BitVec 4) : Statement (.bcst d a lane wa kf) := of_word rfl (by
  intro hw
  have h0 : lane.toNat < 32 ∧ (lane.setWidth 6 : BitVec 6).toNat < 32 ∧ ((lane.setWidth 6 : BitVec 6).setWidth 5) = lane ∧ lane.toNat % 64 < 32 := by
    clear hw
    revert lane
    decide
  simp [-BitVec.getLsbD_eq_getElem, decode, decodeCross, vvv, vv, vvFn, vvi, kkk, kkkF, pick, pickOpt, h0])
theorem reduce (op : CombineOp) (d a : VNum) (wa : Bool) (kf : BitVec 4) : Statement (.reduce op d a wa kf) := of_word rfl (by
  intro hw
  have h0 : CombineOp.ofCode (BitVec.extractLsb' (n := 6) 0 4 (0#2 ++ op.code)) = some op := by
    cases op <;> decide
  have h1 : BitVec.extractLsb' (n := 6) 4 2 (0#2 ++ op.code) = 0#2 := by
    cases op <;> decide
  simp [-BitVec.getLsbD_eq_getElem, decode, decodeCross, vvv, vv, vvFn, vvi, kkk, kkkF, pick, pickOpt, h0, h1])
theorem scan (op : CombineOp) (ex : Bool) (d a : VNum) (wa : Bool) (kf : BitVec 4) : Statement (.scan op ex d a wa kf) := of_word rfl (by
  intro hw
  have h0 : CombineOp.ofCode (BitVec.extractLsb' (n := 6) 0 4 (0#1 ++ (BitVec.ofBool ex ++ op.code))) = some op := by
    cases op <;> cases ex <;> decide
  have h1 : BitVec.getLsbD (w := 6) (0#1 ++ (BitVec.ofBool ex ++ op.code)) 5 = false := by
    cases op <;> cases ex <;> decide
  have h2 : BitVec.getLsbD (w := 6) (0#1 ++ (BitVec.ofBool ex ++ op.code)) 4 = ex := by
    cases op <;> cases ex <;> decide
  simp [-BitVec.getLsbD_eq_getElem, decode, decodeCross, vvv, vv, vvFn, vvi, kkk, kkkF, pick, pickOpt, h0, h1, h2])
theorem voteBallot (kd : KNum) (p : PNum) (kf : BitVec 4) : Statement (.voteBallot kd p kf) := of_word rfl (by
  intro hw
  simp [-BitVec.getLsbD_eq_getElem, decode, decodeCross, vvv, vv, vvFn, vvi, kkk, kkkF, pick, pickOpt])
theorem voteAny (d p : PNum) (kf : BitVec 4) : Statement (.voteAny d p kf) := of_word rfl (by
  intro hw
  simp [-BitVec.getLsbD_eq_getElem, decode, decodeCross, vvv, vv, vvFn, vvi, kkk, kkkF, pick, pickOpt])
theorem voteAll (d p : PNum) (kf : BitVec 4) : Statement (.voteAll d p kf) := of_word rfl (by
  intro hw
  simp [-BitVec.getLsbD_eq_getElem, decode, decodeCross, vvv, vv, vvFn, vvi, kkk, kkkF, pick, pickOpt])
theorem subx (d a b : VNum) (wa wb : Bool) : Statement (.subx d a b wa wb) := of_word rfl (by
  intro hw
  simp [-BitVec.getLsbD_eq_getElem, decode, decodeCross, vvv, vv, vvFn, vvi, kkk, kkkF, pick, pickOpt])
theorem lanek (kd : KNum) (a : VNum) (lane : BitVec 5) (wa : Bool) : Statement (.lanek kd a lane wa) := of_word rfl (by
  intro hw
  have h0 : lane.toNat < 32 ∧ (lane.setWidth 6 : BitVec 6).toNat < 32 ∧ ((lane.setWidth 6 : BitVec 6).setWidth 5) = lane ∧ lane.toNat % 64 < 32 := by
    clear hw
    revert lane
    decide
  simp [-BitVec.getLsbD_eq_getElem, decode, decodeCross, vvv, vv, vvFn, vvi, kkk, kkkF, pick, pickOpt, h0])
theorem kbcast (d : VNum) (ka : KNum) : Statement (.kbcast d ka) := of_word rfl (by
  intro hw
  simp [-BitVec.getLsbD_eq_getElem, decode, decodeCross, vvv, vv, vvFn, vvi, kkk, kkkF, pick, pickOpt])
theorem kadd (d a b : KNum) : Statement (.kadd d a b) := of_word rfl (by
  intro hw
  simp [-BitVec.getLsbD_eq_getElem, decode, decodeCross, vvv, vv, vvFn, vvi, kkk, kkkF, pick, pickOpt])
theorem ksub (d a b : KNum) : Statement (.ksub d a b) := of_word rfl (by
  intro hw
  simp [-BitVec.getLsbD_eq_getElem, decode, decodeCross, vvv, vv, vvFn, vvi, kkk, kkkF, pick, pickOpt])
theorem kmul (d a b : KNum) : Statement (.kmul d a b) := of_word rfl (by
  intro hw
  simp [-BitVec.getLsbD_eq_getElem, decode, decodeCross, vvv, vv, vvFn, vvi, kkk, kkkF, pick, pickOpt])
theorem kand (d a b : KNum) : Statement (.kand d a b) := of_word rfl (by
  intro hw
  simp [-BitVec.getLsbD_eq_getElem, decode, decodeCross, vvv, vv, vvFn, vvi, kkk, kkkF, pick, pickOpt])
theorem kor (d a b : KNum) : Statement (.kor d a b) := of_word rfl (by
  intro hw
  simp [-BitVec.getLsbD_eq_getElem, decode, decodeCross, vvv, vv, vvFn, vvi, kkk, kkkF, pick, pickOpt])
theorem kxor (d a b : KNum) : Statement (.kxor d a b) := of_word rfl (by
  intro hw
  simp [-BitVec.getLsbD_eq_getElem, decode, decodeCross, vvv, vv, vvFn, vvi, kkk, kkkF, pick, pickOpt])
theorem kshl (d a b : KNum) : Statement (.kshl d a b) := of_word rfl (by
  intro hw
  simp [-BitVec.getLsbD_eq_getElem, decode, decodeCross, vvv, vv, vvFn, vvi, kkk, kkkF, pick, pickOpt])
theorem kshr (d a b : KNum) (arith : Bool) : Statement (.kshr d a b arith) := of_word rfl (by
  intro hw
  simp [-BitVec.getLsbD_eq_getElem, decode, decodeCross, vvv, vv, vvFn, vvi, kkk, kkkF, pick, pickOpt])
theorem kaddi (d a : KNum) (imm : BitVec 12) : Statement (.kaddi d a imm) := of_word rfl (by
  intro hw
  simp [-BitVec.getLsbD_eq_getElem, decode, decodeScratch, vvv, vv, vvFn, vvi, kkk, kkkF, pick, pickOpt])
theorem kmovi (d : KNum) (imm : BitVec 18) : Statement (.kmovi d imm) := of_word rfl (by
  intro hw
  simp [-BitVec.getLsbD_eq_getElem, decode, decodeScratch, vvv, vv, vvFn, vvi, kkk, kkkF, pick, pickOpt])
theorem kmovhi (d : KNum) (imm : BitVec 18) : Statement (.kmovhi d imm) := of_word rfl (by
  intro hw
  simp [-BitVec.getLsbD_eq_getElem, decode, decodeScratch, vvv, vv, vvFn, vvi, kkk, kkkF, pick, pickOpt])
theorem kmin (d a b : KNum) (u : Bool) : Statement (.kmin d a b u) := of_word rfl (by
  intro hw
  simp [-BitVec.getLsbD_eq_getElem, decode, decodeScratch, vvv, vv, vvFn, vvi, kkk, kkkF, pick, pickOpt])
theorem kmax (d a b : KNum) (u : Bool) : Statement (.kmax d a b u) := of_word rfl (by
  intro hw
  simp [-BitVec.getLsbD_eq_getElem, decode, decodeScratch, vvv, vv, vvFn, vvi, kkk, kkkF, pick, pickOpt])
theorem ksel (d a b : KNum) (kf : BitVec 4) : Statement (.ksel d a b kf) := of_word rfl (by
  intro hw
  simp [-BitVec.getLsbD_eq_getElem, decode, decodeScratch, vvv, vv, vvFn, vvi, kkk, kkkF, pick, pickOpt])
theorem qpush (q : BitVec 2) (ka : KNum) (bcast : Bool) : Statement (.qpush q ka bcast) := of_word rfl (by
  intro hw
  have h0 : q.toNat < 4 ∧ q.toNat % 64 < 4 ∧ (q.setWidth 6 : BitVec 6).setWidth 2 = q := by
    clear hw
    revert q
    decide
  simp [-BitVec.getLsbD_eq_getElem, decode, decodeScratch, vvv, vv, vvFn, vvi, kkk, kkkF, pick, pickOpt, h0])
theorem ld (w : MemWidth) (sx : Bool) (d a : VNum) (wa : Bool) : Statement (.ld w sx d a wa) := of_word rfl (by
  intro hw
  have h0 : (Instr.ld w sx d a wa).wellFormed = true → (MemWidth.ofCode (BitVec.extractLsb' (n := 4) 0 2 (0#1 ++ (BitVec.ofBool sx ++ w.code))) = w ∧ BitVec.getLsbD (w := 4) (0#1 ++ (BitVec.ofBool sx ++ w.code)) 3 = false ∧ BitVec.getLsbD (w := 4) (0#1 ++ (BitVec.ofBool sx ++ w.code)) 2 = sx ∧ (sx = false ∨ ¬BitVec.extractLsb' (n := 4) 0 2 (0#1 ++ (BitVec.ofBool sx ++ w.code)) = 3#2)) := by
    cases w <;> cases sx <;> simp [Instr.wellFormed] <;> decide
  simp [-BitVec.getLsbD_eq_getElem, decode, decodeScratch, vvv, vv, vvFn, vvi, kkk, kkkF, pick, pickOpt, h0 hw])
theorem st (w : MemWidth) (a b : VNum) (wa wb : Bool) : Statement (.st w a b wa wb) := of_word rfl (by
  intro hw
  have h0 : MemWidth.ofCode (BitVec.extractLsb' (n := 4) 0 2 (0#2 ++ w.code)) = w := by
    cases w <;> decide
  have h1 : BitVec.extractLsb' (n := 4) 2 2 (0#2 ++ w.code) = 0#2 := by
    cases w <;> decide
  simp [-BitVec.getLsbD_eq_getElem, decode, decodeScratch, vvv, vv, vvFn, vvi, kkk, kkkF, pick, pickOpt, h0, h1])
theorem ldx (d a : VNum) (imm : BitVec 12) : Statement (.ldx d a imm) := of_word rfl (by
  intro hw
  simp [-BitVec.getLsbD_eq_getElem, decode, decodeScratch, vvv, vv, vvFn, vvi, kkk, kkkF, pick, pickOpt])
theorem stx (d a : VNum) (imm : BitVec 12) : Statement (.stx d a imm) := of_word rfl (by
  intro hw
  simp [-BitVec.getLsbD_eq_getElem, decode, decodeScratch, vvv, vv, vvFn, vvi, kkk, kkkF, pick, pickOpt])
theorem atom (op : AtomOp) (d a b : VNum) (wa wb : Bool) : Statement (.atom op d a b wa wb) := of_word rfl (by
  intro hw
  simp [-BitVec.getLsbD_eq_getElem, decode, decodeScratch, vvv, vv, vvFn, vvi, kkk, kkkF, pick, pickOpt])
theorem acas (d a b : VNum) (wa wb : Bool) : Statement (.acas d a b wa wb) := of_word rfl (by
  intro hw
  simp [-BitVec.getLsbD_eq_getElem, decode, decodeScratch, vvv, vv, vvFn, vvi, kkk, kkkF, pick, pickOpt])
theorem kld (d a : KNum) (imm : BitVec 12) : Statement (.kld d a imm) := of_word rfl (by
  intro hw
  simp [-BitVec.getLsbD_eq_getElem, decode, decodeScratch, vvv, vv, vvFn, vvi, kkk, kkkF, pick, pickOpt])
theorem kst (d a : KNum) (imm : BitVec 12) : Statement (.kst d a imm) := of_word rfl (by
  intro hw
  simp [-BitVec.getLsbD_eq_getElem, decode, decodeScratch, vvv, vv, vvFn, vvi, kkk, kkkF, pick, pickOpt])
theorem tlook (d a : VNum) (wa : Bool) : Statement (.tlook d a wa) := of_word rfl (by
  intro hw
  simp [-BitVec.getLsbD_eq_getElem, decode, decodeSync, vvv, vv, vvFn, vvi, kkk, kkkF, pick, pickOpt])
theorem tlookK (d a : KNum) : Statement (.tlookK d a) := of_word rfl (by
  intro hw
  simp [-BitVec.getLsbD_eq_getElem, decode, decodeSync, vvv, vv, vvFn, vvi, kkk, kkkF, pick, pickOpt])
theorem tset (d a b : VNum) (wa wb : Bool) : Statement (.tset d a b wa wb) := of_word rfl (by
  intro hw
  simp [-BitVec.getLsbD_eq_getElem, decode, decodeSync, vvv, vv, vvFn, vvi, kkk, kkkF, pick, pickOpt])
theorem tinv (a : VNum) (wa : Bool) : Statement (.tinv a wa) := of_word rfl (by
  intro hw
  simp [-BitVec.getLsbD_eq_getElem, decode, decodeSync, vvv, vv, vvFn, vvi, kkk, kkkF, pick, pickOpt])
theorem swinit (ka kb : KNum) : Statement (.swinit ka kb) := of_word rfl (by
  intro hw
  simp [-BitVec.getLsbD_eq_getElem, decode, decodeSync, vvv, vv, vvFn, vvi, kkk, kkkF, pick, pickOpt])
theorem swadd (sc : Scope) (ka kb : KNum) : Statement (.swadd sc ka kb) := of_word rfl (by
  intro hw
  have h0 : Scope.ofCode (BitVec.extractLsb' (n := 4) 0 3 (0#1 ++ sc.code)) = some sc := by
    cases sc <;> decide
  have h1 : BitVec.getLsbD (w := 4) (0#1 ++ sc.code) 3 = false := by
    cases sc <;> decide
  simp [-BitVec.getLsbD_eq_getElem, decode, decodeSync, vvv, vv, vvFn, vvi, kkk, kkkF, pick, pickOpt, h0, h1])
theorem swait (sc : Scope) (ka kb : KNum) : Statement (.swait sc ka kb) := of_word rfl (by
  intro hw
  have h0 : Scope.ofCode (BitVec.extractLsb' (n := 4) 0 3 (0#1 ++ sc.code)) = some sc := by
    cases sc <;> decide
  have h1 : BitVec.getLsbD (w := 4) (0#1 ++ sc.code) 3 = false := by
    cases sc <;> decide
  simp [-BitVec.getLsbD_eq_getElem, decode, decodeSync, vvv, vv, vvFn, vvi, kkk, kkkF, pick, pickOpt, h0, h1])
theorem waitc (c : CounterName) (n : BitVec 8) : Statement (.waitc c n) := of_word rfl (by
  intro hw
  have h0 : BitVec.extractLsb' (n := 24) 8 2 (0#14 ++ (c.code ++ n)) = c.code := (slice_lower _ _ 8 2 (by decide)).trans (slice_upper _ _)
  have h1 : BitVec.extractLsb' (n := 24) 10 14 (0#14 ++ (c.code ++ n)) = 0#14 := slice_upper _ _
  have h2 : BitVec.extractLsb' (n := 24) 0 8 (0#14 ++ (c.code ++ n)) = n := (slice_lower _ _ 0 8 (by decide)).trans ((slice_lower _ _ 0 8 (by decide)).trans (slice_whole _))
  simp [-BitVec.getLsbD_eq_getElem, decode, decodeSync, vvv, vv, vvFn, vvi, kkk, kkkF, pick, pickOpt, h0, h1, h2])
theorem bar (n : BitVec 4) : Statement (.bar n) := of_word rfl (by
  intro hw
  have h0 : BitVec.extractLsb' (n := 24) 4 20 (0#20 ++ n) = 0#20 := slice_upper _ _
  have h1 : BitVec.extractLsb' (n := 24) 0 4 (0#20 ++ n) = n := (slice_lower _ _ 0 4 (by decide)).trans (slice_whole _)
  simp [-BitVec.getLsbD_eq_getElem, decode, decodeSync, vvv, vv, vvFn, vvi, kkk, kkkF, pick, pickOpt, h0, h1])
theorem bara (n : BitVec 4) : Statement (.bara n) := of_word rfl (by
  intro hw
  have h0 : BitVec.extractLsb' (n := 24) 4 20 (0#20 ++ n) = 0#20 := slice_upper _ _
  have h1 : BitVec.extractLsb' (n := 24) 0 4 (0#20 ++ n) = n := (slice_lower _ _ 0 4 (by decide)).trans (slice_whole _)
  simp [-BitVec.getLsbD_eq_getElem, decode, decodeSync, vvv, vv, vvFn, vvi, kkk, kkkF, pick, pickOpt, h0, h1])
theorem barw (n : BitVec 4) : Statement (.barw n) := of_word rfl (by
  intro hw
  have h0 : BitVec.extractLsb' (n := 24) 4 20 (0#20 ++ n) = 0#20 := slice_upper _ _
  have h1 : BitVec.extractLsb' (n := 24) 0 4 (0#20 ++ n) = n := (slice_lower _ _ 0 4 (by decide)).trans (slice_whole _)
  simp [-BitVec.getLsbD_eq_getElem, decode, decodeSync, vvv, vv, vvFn, vvi, kkk, kkkF, pick, pickOpt, h0, h1])
theorem trig : Statement (.trig) := of_word rfl (by
  intro hw
  simp [-BitVec.getLsbD_eq_getElem, decode, decodeSync, vvv, vv, vvFn, vvi, kkk, kkkF, pick, pickOpt])
theorem launch (ka : KNum) : Statement (.launch ka) := of_word rfl (by
  intro hw
  simp [-BitVec.getLsbD_eq_getElem, decode, decodeSync, vvv, vv, vvFn, vvi, kkk, kkkF, pick, pickOpt])
theorem detep : Statement (.detep) := of_word rfl (by
  intro hw
  simp [-BitVec.getLsbD_eq_getElem, decode, decodeSync, vvv, vv, vvFn, vvi, kkk, kkkF, pick, pickOpt])
theorem copy (ka : KNum) : Statement (.copy ka) := of_word rfl (by
  intro hw
  simp [-BitVec.getLsbD_eq_getElem, decode, decodeEngine, vvv, vv, vvFn, vvi, kkk, kkkF, pick, pickOpt])
theorem skip (ka : KNum) : Statement (.skip ka) := of_word rfl (by
  intro hw
  simp [-BitVec.getLsbD_eq_getElem, decode, decodeEngine, vvv, vv, vvFn, vvi, kkk, kkkF, pick, pickOpt])
theorem engq (kd ka : KNum) : Statement (.engq kd ka) := of_word rfl (by
  intro hw
  simp [-BitVec.getLsbD_eq_getElem, decode, decodeEngine, vvv, vv, vvFn, vvi, kkk, kkkF, pick, pickOpt])
theorem rld (d a : VNum) (wa : Bool) : Statement (.rld d a wa) := of_word rfl (by
  intro hw
  simp [-BitVec.getLsbD_eq_getElem, decode, decodeEngine, vvv, vv, vvFn, vvi, kkk, kkkF, pick, pickOpt])
theorem rst (f : Bool) (a b : VNum) (wa wb : Bool) : Statement (.rst f a b wa wb) := of_word rfl (by
  intro hw
  simp [-BitVec.getLsbD_eq_getElem, decode, decodeEngine, vvv, vv, vvFn, vvi, kkk, kkkF, pick, pickOpt])
theorem raadd (d a b : VNum) (wa wb : Bool) : Statement (.raadd d a b wa wb) := of_word rfl (by
  intro hw
  simp [-BitVec.getLsbD_eq_getElem, decode, decodeEngine, vvv, vv, vvFn, vvi, kkk, kkkF, pick, pickOpt])
theorem raaddD (a b : VNum) (wa wb : Bool) : Statement (.raaddD a b wa wb) := of_word rfl (by
  intro hw
  simp [-BitVec.getLsbD_eq_getElem, decode, decodeEngine, vvv, vv, vvFn, vvi, kkk, kkkF, pick, pickOpt])
theorem rcas (d a b : VNum) (wa wb : Bool) : Statement (.rcas d a b wa wb) := of_word rfl (by
  intro hw
  simp [-BitVec.getLsbD_eq_getElem, decode, decodeEngine, vvv, vv, vvFn, vvi, kkk, kkkF, pick, pickOpt])
theorem stmp (d a b : VNum) (wa wb : Bool) : Statement (.stmp d a b wa wb) := of_word rfl (by
  intro hw
  simp [-BitVec.getLsbD_eq_getElem, decode, decodeEngine, vvv, vv, vvFn, vvi, kkk, kkkF, pick, pickOpt])
theorem ldat (d a b : VNum) (wa wb : Bool) : Statement (.ldat d a b wa wb) := of_word rfl (by
  intro hw
  have h0 : d.toNat % 2 = 0 := by simpa [Instr.wellFormed] using hw
  simp [-BitVec.getLsbD_eq_getElem, decode, decodeEngine, vvv, vv, vvFn, vvi, kkk, kkkF, pick, pickOpt, h0])
theorem time (kd : KNum) : Statement (.time kd) := of_word rfl (by
  intro hw
  have h0 : (kField kd).toNat % 2 = 0 := by
    have h : kd.toNat % 2 = 0 := by simpa [Instr.wellFormed] using hw
    clear hw
    revert kd
    decide
  simp [-BitVec.getLsbD_eq_getElem, decode, decodeEngine, vvv, vv, vvFn, vvi, kkk, kkkF, pick, pickOpt, h0])
theorem mma (bank : BankNum) (a : VNum) (kb : KNum) (wa : Bool) (reuse : Bool) (la : BlockLen) (clear : Bool) : Statement (.mma bank a kb wa reuse la clear) := of_word rfl (by
  intro hw
  have h0 : a.toNat ≤ 55 := by simpa [Instr.wellFormed] using hw
  have h1 : BlockLen.ofCode (BitVec.extractLsb' (n := 4) 1 2 (BitVec.ofBool reuse ++ (BitVec.ofNat 2 la.code ++ BitVec.ofBool clear)) : BitVec 2).toNat = some la := by
    cases reuse <;> cases la <;> cases clear <;> decide
  have h2 : BlockLen.ofCode (BitVec.toNat (w := 4) (BitVec.ofBool reuse ++ (BitVec.ofNat 2 la.code ++ BitVec.ofBool clear)) >>> 1 % 4) = some la := by
    cases reuse <;> cases la <;> cases clear <;> decide
  have h3 : BitVec.getLsbD (w := 4) (BitVec.ofBool reuse ++ (BitVec.ofNat 2 la.code ++ BitVec.ofBool clear)) 3 = reuse := by
    cases reuse <;> cases la <;> cases clear <;> decide
  have h4 : BitVec.getLsbD (w := 4) (BitVec.ofBool reuse ++ (BitVec.ofNat 2 la.code ++ BitVec.ofBool clear)) 0 = clear := by
    cases reuse <;> cases la <;> cases clear <;> decide
  simp [-BitVec.getLsbD_eq_getElem, decode, decodeMatrix, vvv, vv, vvFn, vvi, kkk, kkkF, pick, pickOpt, h0, h1, h2, h3, h4])
theorem mmaResultWrite (core : Nat) : Statement (.mmaResultWrite core) := of_none rfl
theorem mclr (bank : BankNum) : Statement (.mclr bank) := of_word rfl (by
  intro hw
  simp [-BitVec.getLsbD_eq_getElem, decode, decodeMatrix, vvv, vv, vvFn, vvi, kkk, kkkF, pick, pickOpt])
theorem mst (bank : BankNum) (ka : KNum) : Statement (.mst bank ka) := of_word rfl (by
  intro hw
  simp [-BitVec.getLsbD_eq_getElem, decode, decodeMatrix, vvv, vv, vvFn, vvi, kkk, kkkF, pick, pickOpt])
theorem mrd (d : VNum) (bank : BankNum) (kb : KNum) : Statement (.mrd d bank kb) := of_word rfl (by
  intro hw
  simp [-BitVec.getLsbD_eq_getElem, decode, decodeMatrix, vvv, vv, vvFn, vvi, kkk, kkkF, pick, pickOpt])
theorem obres (kd ka : KNum) : Statement (.obres kd ka) := of_word rfl (by
  intro hw
  simp [-BitVec.getLsbD_eq_getElem, decode, decodeMatrix, vvv, vv, vvFn, vvi, kkk, kkkF, pick, pickOpt])
theorem obrel (ka : KNum) : Statement (.obrel ka) := of_word rfl (by
  intro hw
  simp [-BitVec.getLsbD_eq_getElem, decode, decodeMatrix, vvv, vv, vvFn, vvi, kkk, kkkF, pick, pickOpt])
theorem obld (ka kb : KNum) : Statement (.obld ka kb) := of_word rfl (by
  intro hw
  simp [-BitVec.getLsbD_eq_getElem, decode, decodeMatrix, vvv, vv, vvFn, vvi, kkk, kkkF, pick, pickOpt])
theorem obldFillEnd (core rec : Nat) : Statement (.obldFillEnd core rec) := of_none rfl
theorem mstat (kd : KNum) (bank : BankNum) : Statement (.mstat kd bank) := of_word rfl (by
  intro hw
  simp [-BitVec.getLsbD_eq_getElem, decode, decodeMatrix, vvv, vv, vvFn, vvi, kkk, kkkF, pick, pickOpt])
theorem promotion (core quad : Nat) : Statement (.promotion core quad) := of_none rfl
theorem rotation (core quad : Nat) : Statement (.rotation core quad) := of_none rfl
theorem watchdogExpiry (team gang sub : Nat) : Statement (.watchdogExpiry team gang sub) := of_none rfl
theorem trapRingSpace (part : Nat) (consumer : Word) : Statement (.trapRingSpace part consumer) := of_none rfl
theorem logRecordWrite (team gang : Nat) : Statement (.logRecordWrite team gang) := of_none rfl
theorem remoteLanding (op lane : Nat) (reply : Option RemAns) : Statement (.remoteLanding op lane reply) := of_none rfl
theorem remoteAcknowledgement (op lane : Nat) (reply : Option RemAns) : Statement (.remoteAcknowledgement op lane reply) := of_none rfl
theorem homeRequest (r : HomeReq) : Statement (.homeRequest r) := of_none rfl
theorem stampedStoreArrival (r : HomeReq) : Statement (.stampedStoreArrival r) := of_none rfl
theorem commitWaitEnd (op : Nat) : Statement (.commitWaitEnd op) := of_none rfl
theorem stampedReleaseArrival (r : HomeRef) (suspect : Bool) : Statement (.stampedReleaseArrival r suspect) := of_none rfl
theorem ldatReaderWaitEnd (op lane : Nat) : Statement (.ldatReaderWaitEnd op lane) := of_none rfl
theorem ldatServe (r : HomeRef) : Statement (.ldatServe r) := of_none rfl
theorem suspectMark (va : Word) (part : Nat) (window : Option (BitVec 7)) (stamp : Word) : Statement (.suspectMark va part window stamp) := of_none rfl
theorem copye (cmd : Nat) : Statement (.copye cmd) := of_none rfl
theorem fill (cmd : Nat) : Statement (.fill cmd) := of_none rfl
theorem swadde (cmd : Nat) : Statement (.swadde cmd) := of_none rfl
theorem loope (cmd : Nat) : Statement (.loope cmd) := of_none rfl
theorem conde (cmd : Nat) : Statement (.conde cmd) := of_none rfl
theorem next (cmd : Nat) : Statement (.next cmd) := of_none rfl
theorem stop (cmd : Nat) : Statement (.stop cmd) := of_none rfl
theorem copyChunk (cmd : Nat) (pod : List PodAns) : Statement (.copyChunk cmd pod) := of_none rfl
theorem chainStop (cmd : Nat) : Statement (.chainStop cmd) := of_none rfl
theorem skipperChunk (cmd : Nat) : Statement (.skipperChunk cmd) := of_none rfl
theorem skipperStop (cmd : Nat) : Statement (.skipperStop cmd) := of_none rfl
theorem frontEndEntry (part prio : Nat) (entry : List Word) (stores : List KStore) : Statement (.frontEndEntry part prio entry stores) := of_none rfl
theorem dispatchTeam (part : Nat) : Statement (.dispatchTeam part) := of_none rfl
theorem teamRetirement (team : Nat) : Statement (.teamRetirement team) := of_none rfl
theorem thermalMigration (core : Nat) (heat : HeatReport) : Statement (.thermalMigration core heat) := of_none rfl
theorem timebaseTick : Statement (.timebaseTick) := of_none rfl
theorem timeTransfer (links : List LinkTransfer) : Statement (.timeTransfer links) := of_none rfl
theorem oscillatorFault : Statement (.oscillatorFault) := of_none rfl
theorem timebaseConfig (epsCommit epsFail lam : Nat) : Statement (.timebaseConfig epsCommit epsFail lam) := of_none rfl
theorem rejoin (links : List LinkTransfer) : Statement (.rejoin links) := of_none rfl
theorem rejoinWaitEnd : Statement (.rejoinWaitEnd) := of_none rfl
theorem create (block : List Word) (stores : List KStore) : Statement (.create block stores) := of_none rfl
theorem destroy (part : Nat) : Statement (.destroy part) := of_none rfl
theorem invalidate (part va len : Nat) (stores : List KStore) : Statement (.invalidate part va len stores) := of_none rfl
theorem wopen (w part base limit : Nat) (key : Word) (r wr : Bool) : Statement (.wopen w part base limit key r wr) := of_none rfl
theorem grant (part : Nat) (device : BitVec 21) (w : BitVec 7) (key : Word) : Statement (.grant part device w key) := of_none rfl
theorem ungrant (part : Nat) (device : BitVec 21) (w : BitVec 7) : Statement (.ungrant part device w) := of_none rfl
theorem wrevoke (w : Nat) : Statement (.wrevoke w) := of_none rfl
theorem wrevokeDrainEnd (w : Nat) : Statement (.wrevokeDrainEnd w) := of_none rfl
theorem usage (part : Nat) : Statement (.usage part) := of_none rfl
theorem periodicUsageRecord (part : Nat) : Statement (.periodicUsageRecord part) := of_none rfl
theorem hbmunitsSample : Statement (.hbmunitsSample) := of_none rfl
theorem attest (part : Byte) (nonce : List Byte) : Statement (.attest part nonce) := of_none rfl
theorem setrings (part base n logBase logN : Nat) : Statement (.setrings part base n logBase logN) := of_none rfl
theorem pageZeroing (part va : Nat) : Statement (.pageZeroing part va) := of_none rfl
theorem zeroingComplete (part va : Nat) : Statement (.zeroingComplete part va) := of_none rfl
theorem pageIn (part va : Nat) : Statement (.pageIn part va) := of_none rfl
theorem save (team area : Nat) (deadline : Option Nat) : Statement (.save team area deadline) := of_none rfl
theorem saveDeadline (team : Nat) : Statement (.saveDeadline team) := of_none rfl
theorem restore (team core area : Nat) : Statement (.restore team core area) := of_none rfl
theorem resume (team gang sub : Nat) : Statement (.resume team gang sub) := of_none rfl
theorem kernelSkip (team gang sub : Nat) : Statement (.kernelSkip team gang sub) := of_none rfl
theorem kill (team : Nat) : Statement (.kill team) := of_none rfl
theorem contextStateRead (team : Nat) (item : CtxItem) : Statement (.contextStateRead team item) := of_none rfl
theorem contextStateWrite (team : Nat) (item : CtxItem) (v : CtxValue) : Statement (.contextStateWrite team item v) := of_none rfl
theorem sramScrub (store : SramStore) (addr : Nat) (find : ScrubFind) : Statement (.sramScrub store addr find) := of_none rfl
theorem patrolScrub (addr : Nat) (find : ScrubFind) : Statement (.patrolScrub addr find) := of_none rfl
theorem healthRecord (base n : Nat) (samples : List HealthSample) : Statement (.healthRecord base n samples) := of_none rfl
theorem kernelRestart (cause : RestartCause) : Statement (.kernelRestart cause) := of_none rfl
theorem moduleReset : Statement (.moduleReset) := of_none rfl
theorem boot (failed : List Nat) : Statement (.boot failed) := of_none rfl
theorem firmwareImageWrite (image : List Byte) : Statement (.firmwareImageWrite image) := of_none rfl
theorem powerCap : Statement (.powerCap) := of_none rfl
theorem dieOvertempThrottle (die : Nat) : Statement (.dieOvertempThrottle die) := of_none rfl
theorem dieOvertempTrip (die : Nat) : Statement (.dieOvertempTrip die) := of_none rfl
theorem fabricPortDisable (port : Nat) : Statement (.fabricPortDisable port) := of_none rfl
theorem linkRetrain (link : Nat) : Statement (.linkRetrain link) := of_none rfl
theorem illegalInstructionWord (w : Option Half) : Statement (.illegalInstructionWord w) := of_none rfl
theorem coreBackBelowLimit (heat : CoreHeat) : Statement (.coreBackBelowLimit heat) := of_none rfl
theorem thermalLimitSet (core limit : Nat) : Statement (.thermalLimitSet core limit) := of_none rfl
theorem powerEstimateFalls : Statement (.powerEstimateFalls) := of_none rfl
theorem usageRingSpace (part : Nat) (consumer : Word) : Statement (.usageRingSpace part consumer) := of_none rfl

end Sys2Proof.Laws.RoundTrip
end

