-- ==== Sys2Proof/Laws/Reach.lean ====
section
/-!
SUPPORT. Words that reach beyond the gang: how the frame `Within` goes through every change they are made of, and what a word that
completes leaves.
-/
namespace Sys2Proof.Machine

open Sys2Proof Sys2Proof.Safety

/-! ### The frame -/

/-- Nothing changed is within the frame. -/
theorem within_refl (s : State) (u : Issuer) : Within s s u :=
  ⟨rfl, fun _ => rfl, fun _ _ => rfl, rfl, fun _ _ => rfl, fun _ => rfl⟩

/-- The narrower frame is within. -/
theorem within_onlyGang {s t : State} {u : Issuer} (h : OnlyGang s t u) : Within s t u where
  rest := by rw [h.rest]
  parts := h.parts
  teams := h.teams
  team := by rw [h.team]
  gangs := h.gangs
  side _ := by rw [h.team]

/-- The scratchpad, error marks, fault codes, records and the supply of free values may change. -/
theorem within_same {s s1 s2 : State} {u : Issuer} (h : Within s s1 u)
    (e : s2 = { s1 with spad := s2.spad, bad := s2.bad, cores := s2.cores, fresh := s2.fresh, syncCodes := s2.syncCodes, cmds := s2.cmds }) :
    Within s s2 u := by
  have ht : ∀ v, s2.team v = s1.team v := fun v => by rw [e]; rfl
  have hp : ∀ p, s2.part p = s1.part p := fun p => by rw [e]; rfl
  exact {
    rest := by rw [e, h.rest]
    parts := fun p => by rw [hp]; exact h.parts p
    teams := fun v hv => by rw [ht]; exact h.teams v hv
    team := by rw [ht]; exact h.team
    gangs := fun g hg => by rw [ht]; exact h.gangs g hg
    side := fun hg => by rw [ht]; exact h.side hg }

/-- The team's own parts may change. -/
theorem within_modTeam {s s1 : State} {u : Issuer} (h : Within s s1 u) (f : Team → Team)
    (hf : f (s1.team u.team) = { s1.team u.team with
      gangs := (f (s1.team u.team)).gangs, side := (f (s1.team u.team)).side, queues := (f (s1.team u.team)).queues,
      lines := (f (s1.team u.team)).lines, tags := (f (s1.team u.team)).tags })
    (hg : ∀ g, g ≠ u.gang → (f (s1.team u.team)).gang g = (s1.team u.team).gang g)
    (hs : u.gang ≠ 16 → (f (s1.team u.team)).side = (s1.team u.team).side) : Within s (s1.modTeam u.team f) u := by
  have e : (s1.modTeam u.team f).team u.team = f (s1.team u.team) := State.team_modTeam_same s1 u.team f
  exact {
    rest := congrArg (fun z : State => { z with teams := (s1.modTeam u.team f).teams }) h.rest
    parts := h.parts
    teams := fun v hv => (State.team_modTeam_other s1 f (Ne.symm hv)).trans (h.teams v hv)
    team := by
      rw [e, hf]
      exact congrArg (fun z : Team => { z with
        gangs := (f (s1.team u.team)).gangs, side := (f (s1.team u.team)).side, queues := (f (s1.team u.team)).queues,
        lines := (f (s1.team u.team)).lines, tags := (f (s1.team u.team)).tags }) h.team
    gangs := fun g hne => by rw [e]; exact (hg g hne).trans (h.gangs g hne)
    side := fun hne => by rw [e]; exact (hs hne).trans (h.side hne) }

/-- The gang may change. -/
theorem within_modGang {s s1 : State} {u : Issuer} (h : Within s s1 u) (f : Gang → Gang) :
    Within s (s1.modGang u.team u.gang f) u :=
  within_modTeam h _ rfl (fun g hg => by unfold Team.gang Team.modGang; exact rowGet_rowMod_other {} _ f (Ne.symm hg)) (fun _ => rfl)

/-- Metering stays within. -/
theorem within_meter {s s1 : State} {u : Issuer} (h : Within s s1 u) (p i n : Nat) : Within s (s1.meter p i n) u where
  rest := congrArg (fun z : State => { z with parts := (s1.meter p i n).parts }) h.rest
  parts q := by
    by_cases e : p = q
    · subst e
      have e : (s1.meter p i n).part p = _ := State.part_modPart_same s1 p _
      rw [e, h.parts p]
    · have e : (s1.meter p i n).part q = s1.part q := State.part_modPart_other s1 _ e
      rw [e]
      exact h.parts q
  teams := h.teams
  team := h.team
  gangs := h.gangs
  side := h.side

/-- So does a word that counts itself. -/
theorem within_meterWord {s s1 : State} {u : Issuer} (h : Within s s1 u) : Within s (s1.meterWord u) u := by
  unfold State.meterWord
  split
  · exact h
  · exact within_meter h _ _ _

/-- What goes with every word stays within. -/
theorem within_finish {s s1 : State} {u : Issuer} (h : Within s s1 u) (f : Form) (popped : Bool) :
    Within s (finish f popped u s1) u := by
  by_cases hg : u.gang = 16
  · rw [finish_sidecar hg]
    exact within_modTeam (within_meterWord h) _ rfl (fun _ _ => rfl) (fun h => absurd hg h)
  · rw [finish_gang hg]
    exact within_modGang (within_meterWord h) _

/-- Frames follow one another. -/
theorem within_trans {s s1 s2 : State} {u : Issuer} (h1 : Within s s1 u) (h2 : Within s1 s2 u) : Within s s2 u where
  rest := by
    have := h2.rest
    rw [h1.rest] at this
    exact this
  parts p := (h2.parts p).trans (congrArg (fun z : Partition => { z with counters := (s2.part p).counters }) (h1.parts p))
  teams v hv := (h2.teams v hv).trans (h1.teams v hv)
  team := by
    have := h2.team
    rw [h1.team] at this
    exact this
  gangs g hg := (h2.gangs g hg).trans (h1.gangs g hg)
  side hg := (h2.side hg).trans (h1.side hg)

/-! ### What goes with a word leaves memory and tags -/

/-- What goes with a word stores nothing. -/
theorem finish_noStore (f : Form) (popped : Bool) (u : Issuer) (s : State) : NoStore s (finish f popped u s) := by
  by_cases hg : u.gang = 16
  · rw [finish_sidecar hg]; unfold State.meterWord; split <;> exact ⟨rfl, rfl, rfl, rfl, rfl⟩
  · rw [finish_gang hg]; unfold State.meterWord; split <;> exact ⟨rfl, rfl, rfl, rfl, rfl⟩
/-- What goes with a word draws no free value. -/
theorem finish_fresh (f : Form) (popped : Bool) (u : Issuer) (s : State) : (finish f popped u s).fresh = s.fresh := by
  by_cases hg : u.gang = 16
  · rw [finish_sidecar hg]; unfold State.meterWord; split <;> rfl
  · rw [finish_gang hg]; unfold State.meterWord; split <;> rfl
/-- What goes with a word leaves the tags of lines and the tag table. -/
theorem finish_tags (f : Form) (popped : Bool) (u : Issuer) (s : State) :
    ((finish f popped u s).team u.team).tags = (s.team u.team).tags ∧ ((finish f popped u s).team u.team).lines = (s.team u.team).lines := by
  by_cases hg : u.gang = 16
  · rw [finish_sidecar hg, State.team_modTeam_same, State.team_meterWord]; exact ⟨rfl, rfl⟩
  · rw [finish_gang hg]
    have e : ((s.meterWord u).modGang u.team u.gang (finishGang f popped u)).team u.team =
      ((s.meterWord u).team u.team).modGang u.gang (finishGang f popped u) := State.team_modTeam_same _ u.team _
    rw [e, State.team_meterWord]
    exact ⟨rfl, rfl⟩

/-- No store, twice. -/
theorem noStore_trans {a b c : State} (h1 : NoStore a b) (h2 : NoStore b c) : NoStore a c :=
  ⟨h2.1.trans h1.1, h2.2.1.trans h1.2.1, h2.2.2.1.trans h1.2.2.1, h2.2.2.2.1.trans h1.2.2.2.1, h2.2.2.2.2.trans h1.2.2.2.2⟩

/-- The completion of a gang's word. -/
theorem gang_reaches {i : Instr} {f : Form} {body : Ctx → State → Except Stop State} {s s1 s2 : State} {u : Issuer}
    {vals : List (List Word)} {popped : Bool} (h : GangIssues i f u s vals s1 popped) (hb : body (ctxOf i u s vals) s1 = .ok s2)
    (hw : Within s s2 u) :
    ∃ t, issue i f body s = .next t ∧ Within s t u ∧ t.gang u.team u.gang = finishGang f popped u (s2.gang u.team u.gang) ∧
      NoStore s2 t ∧ t.fresh = s2.fresh ∧ (t.team u.team).tags = (s2.team u.team).tags ∧ (t.team u.team).lines = (s2.team u.team).lines :=
  ⟨_, issue_completes h.toIssues hb, within_finish hw f popped, gang_finish h.isGang f popped, finish_noStore _ _ _ _,
    finish_fresh _ _ _ _, finish_tags _ _ _ _⟩

/-- The completion of a sidecar's word. -/
theorem side_reaches {i : Instr} {f : Form} {body : Ctx → State → Except Stop State} {s s2 : State} {u : Issuer}
    (h : SidecarIssues i f u s) (hb : body (ctxOf i u s []) s = .ok s2) (hw : Within s s2 u) :
    ∃ t, issue i f body s = .next t ∧ Within s t u ∧
      (t.team u.team).side = { (s2.team u.team).side with
        pc := if f.jumps then (s2.team u.team).side.pc else (s2.team u.team).side.pc + 4#64, wait := none } ∧
      NoStore s2 t ∧ t.fresh = s2.fresh ∧ (t.team u.team).tags = (s2.team u.team).tags ∧ (t.team u.team).lines = (s2.team u.team).lines := by
  refine ⟨_, issue_completes ⟨h.issuer, h.issuable, h.checks, operandsOf_sidecar h.isSidecar⟩ hb, within_finish hw f false, ?_,
    finish_noStore _ _ _ _, finish_fresh _ _ _ _, finish_tags _ _ _ _⟩
  rw [finish_sidecar h.isSidecar, State.team_modTeam_same, State.team_meterWord]

/-- A gang's word that changes no register has passed. -/
theorem passes_finish {f : Form} {popped : Bool} {u : Issuer} {g : Gang} (hj : f.jumps = false) (hm : f.merges = false)
    (hok : g.unitOk u.slices = true) : Passes g (finishGang f popped u g) u.slices where
  toGangKeeps := gangKeeps_finish hj hm hok rfl rfl
  regs := by rw [finishGang_keeps]; exact ⟨rfl, rfl, rfl, rfl, rfl⟩

/-- A gang's word after a change of the marks of Instar alone has passed. -/
theorem passes_finish_marks {f : Form} {popped : Bool} {u : Issuer} {g : Gang} (hj : f.jumps = false) (hm : f.merges = false)
    (hok : g.unitOk u.slices = true) (r : Bool) :
    Passes g (finishGang f popped u { g with instar := { g.instar with rewindable := r } }) u.slices where
  toGangKeeps := gangKeeps_finish hj hm hok rfl rfl
  regs := by rw [finishGang_keeps]; exact ⟨rfl, rfl, rfl, rfl, rfl⟩

/-! ### Checks of accesses -/

/-- A check that holds stops nothing. -/
theorem need_true {b : Bool} (h : b = true) (x : Stop) : need b x = none := by unfold need; rw [h]; rfl
/-- A check that fails stops. -/
theorem need_false {b : Bool} (h : b = false) (x : Stop) : need b x = some x := by unfold need; rw [h]; rfl

/-- No lane fails. -/
theorem maskOf_none {f : Nat → Bool} (h : ∀ l, l < 32 → f l = false) : maskOf f = 0#32 := by
  apply BitVec.eq_of_getLsbD_eq
  intro l hl
  rw [getLsbD_maskOf _ hl, h l hl]
  simp

/-- Accesses that pass every check are not stopped. -/
theorem laneStop_none {i : Instr} {s : State} {u : Issuer} {vals : List (List Word)} (hg : u.gang ≠ 16) {w : Nat} {ad : Nat → Word}
    {k : TagKind} (h : LanesOk s u w ad k) : laneStop (ctxOf i u s vals) w ad k = none := by
  have e := ctxOf_gang (i := i) (s := s) (vals := vals) hg
  have ht : (ctxOf i u s vals).t = s.team u.team := by rw [e]
  have hp : (ctxOf i u s vals).part = partOf s u := by rw [e]; rfl
  have hu : (ctxOf i u s vals).u = u := by rw [e]
  have hgm : (ctxOf i u s vals).g = s.gang u.team u.gang := by rw [e]
  have hd : (ctxOf i u s vals).det = gmDet (s.gang u.team u.gang).gmode := by
    unfold Ctx.det
    rw [hu, hgm]
    simp [hg]
  unfold laneStop
  dsimp only
  rw [ht, hp, hu, hd]
  have h1 : maskOf (fun l => (partOf s u).getLsbD l && decide ((ad l).toNat % w ≠ 0)) = 0#32 :=
    maskOf_none (fun l hl => by
      cases hb : (partOf s u).getLsbD l
      · rfl
      · simp [h.aligned l hl hb])
  have h2 : maskOf (fun l => (partOf s u).getLsbD l && !inWindow (s.team u.team) (ad l) w) = 0#32 :=
    maskOf_none (fun l hl => by
      cases hb : (partOf s u).getLsbD l
      · rfl
      · simp [inWindow, h.inside l hl hb])
  have h3 : (!gmDet (s.gang u.team u.gang).gmode ||
      maskOf (fun l => (partOf s u).getLsbD l && ((s.team u.team).raceAt u.gang (ad l).toNat w k).isSome) = 0#32) = true := by
    cases hd : gmDet (s.gang u.team u.gang).gmode
    · rfl
    · simp only [Bool.not_true, Bool.false_or, decide_eq_true_eq]
      exact maskOf_none (fun l hl => by
        cases hb : (partOf s u).getLsbD l
        · rfl
        · simp [h.alone hd l hl hb])
  unfold firstStop
  rw [need_true (by rw [h1]; rfl)]
  dsimp only
  unfold firstStop
  rw [need_true (by rw [h2]; rfl)]
  dsimp only
  unfold firstStop
  rw [need_true h3]
  rfl

end Sys2Proof.Machine
end

