-- ==== Sys2Proof/Laws/Store.lean ====
section
/-!
SUPPORT. Stores to the scratchpad: what a store by a word of a gang notes for the gang's own fills (R163), and what the stores of
lanes in ascending order leave in memory (R277).
-/
namespace Sys2Proof.Machine

open Sys2Proof Sys2Proof.Safety

/-- Of the cores, only what records have noted of their sources differs. -/
structure Noted (s t : State) : Prop where
  rest : t = { s with cores := t.cores, fresh := t.fresh }
  cores : ∀ c, t.core c = { s.core c with records := (t.core c).records }
  records : ∀ c r, t.record c r = { s.record c r with src := (t.record c r).src, seen := (t.record c r).seen }

/-- Nothing noted. -/
theorem noted_refl (s : State) : Noted s s := ⟨rfl, fun _ => rfl, fun _ _ => rfl⟩

/-- Notes follow one another. -/
theorem noted_trans {a b c : State} (h1 : Noted a b) (h2 : Noted b c) : Noted a c where
  rest := by
    have := h2.rest
    rw [h1.rest] at this
    exact this
  cores n := by
    have := h2.cores n
    rw [h1.cores n] at this
    exact this
  records n r := by
    have := h2.records n r
    rw [h1.records n r] at this
    exact this

/-- A record takes note. -/
theorem noted_modRecord (s : State) (core i : Nat) (f : ObRecord → ObRecord)
    (hf : ∀ r, f r = { r with src := (f r).src, seen := (f r).seen }) : Noted s (s.modRecord core i f) where
  rest := rfl
  cores c := by
    by_cases e : core = c
    · subst e
      have e : (s.modRecord core i f).core core = { s.core core with records := rowMod {} (s.core core).records i f } :=
        State.core_modCore_same s core _
      rw [e]
    · have e : (s.modRecord core i f).core c = s.core c := State.core_modCore_other s _ e
      rw [e]
  records c r := by
    by_cases e : core = c
    · subst e
      have e : (s.modRecord core i f).core core = { s.core core with records := rowMod {} (s.core core).records i f } :=
        State.core_modCore_same s core _
      by_cases hr : i = r
      · subst hr
        have e2 : (s.modRecord core i f).record core i = f (s.record core i) := by
          unfold State.record
          rw [e]
          exact rowGet_rowMod_same _ _ _ _
        rw [e2]
        exact hf _
      · have e2 : (s.modRecord core i f).record core r = s.record core r := by
          unfold State.record
          rw [e]
          exact rowGet_rowMod_other _ _ _ hr
        rw [e2]
    · have e2 : (s.modRecord core i f).record c r = s.record c r := by
        unfold State.record
        have e : (s.modRecord core i f).core c = s.core c := State.core_modCore_other s _ e
        rw [e]
      rw [e2]

/-- A fill takes note of its source. -/
theorem noted_lookFill (s : State) (core i : Nat) : Noted s (s.lookFill core i) := by
  unfold State.lookFill
  dsimp only
  have h1 : Noted s ({ s with fresh := s.fresh + (s.record core i).src.length } : State) := ⟨rfl, fun _ => rfl, fun _ _ => rfl⟩
  exact noted_trans h1 (noted_modRecord _ core i _ (fun r => rfl))

/-- A fold of notes. -/
theorem noted_foldl {α : Type} (f : State → α → State) (h : ∀ s a, Noted s (f s a)) : ∀ (l : List α) (s : State), Noted s (l.foldl f s)
  | [], s => noted_refl s
  | a :: l, s => noted_trans (h s a) (noted_foldl f h l (f s a))

/-- A store by a word of a gang: the store, on a state that differs in notes alone, and then notes. -/
theorem ownStore_noted (s : State) (u : Issuer) (f : State → State) :
    ∃ a, Noted s a ∧ Noted (f a) (s.ownStore u f) ∧
      (s.fillsOf (s.team u.team).home u.team u.gang = [] → a = s ∧ s.ownStore u f = f s) := by
  unfold State.ownStore
  dsimp only
  generalize (s.team u.team).home = core
  refine ⟨_, noted_foldl (fun s i => s.lookFill core i) (fun s i => noted_lookFill s core i) (s.fillsOf core u.team u.gang) s,
    noted_foldl (fun s i => s.modRecord core i (fun r => { r with seen := s.spadBytes r.srcKey r.src.length }))
      (fun s i => noted_modRecord s core i _ (fun r => rfl)) _ _, ?_⟩
  intro h
  rw [h]
  exact ⟨rfl, rfl⟩

/-! ### Accesses recorded (R218) -/

/-- Recording the accesses of lanes changes line tags alone. -/
theorem foldl_recordLines (g n : Nat) (ad : Nat → Word) (k : TagKind) : ∀ (ls : List Nat) (t : Team),
    ∃ x, ls.foldl (fun t l => t.recordLines g (ad l).toNat n k) t = { t with lines := x }
  | [], t => ⟨t.lines, rfl⟩
  | l :: ls, t => by
    obtain ⟨x, hx⟩ := foldl_recordLines g n ad k ls (t.recordLines g (ad l).toNat n k)
    exact ⟨x, by rw [List.foldl_cons, hx]; rfl⟩

/-- After a record of accesses the frame holds, and only the tags of lines differ, and none where nothing is recorded. -/
structure Recorded (s t : State) (u : Issuer) (det : Bool) : Prop where
  within : ∀ s0, Within s0 s u → Within s0 t u
  noStore : NoStore s t
  fresh : t.fresh = s.fresh
  gang : t.gang u.team u.gang = s.gang u.team u.gang
  side : (t.team u.team).side = (s.team u.team).side
  tags : (t.team u.team).tags = (s.team u.team).tags
  lines : det = false → (t.team u.team).lines = (s.team u.team).lines

/-- A change of line tags is such a record. -/
theorem recorded_of {s : State} {u : Issuer} {det : Bool} {f : Team → Team} (hf : ∃ x, f (s.team u.team) = { s.team u.team with lines := x }) :
    Recorded s (if det then s.modTeam u.team f else s) u det := by
  obtain ⟨x, hx⟩ := hf
  cases det
  · exact ⟨fun _ h => h, ⟨rfl, rfl, rfl, rfl, rfl⟩, rfl, rfl, rfl, rfl, fun _ => rfl⟩
  · have e : (s.modTeam u.team f).team u.team = { s.team u.team with lines := x } := (State.team_modTeam_same _ _ _).trans hx
    refine ⟨fun s0 h => within_modTeam h f ?_ ?_ ?_, ⟨rfl, rfl, rfl, rfl, rfl⟩, rfl, ?_, ?_, ?_, fun h => by cases h⟩
    · rw [hx]
    · intro g _; rw [hx]; rfl
    · intro _; rw [hx]
    · rw [if_pos rfl]; unfold State.gang; rw [e]; rfl
    · rw [if_pos rfl, e]
    · rw [if_pos rfl, e]

/-- Recording the accesses of lanes. -/
theorem recorded_lanes (s : State) (c : Ctx) (w : Nat) (ad : Nat → Word) (k : TagKind) : Recorded s (s.recordLanes c w ad k) c.u c.det := by
  unfold State.recordLanes
  exact recorded_of (foldl_recordLines _ _ _ _ _ _)
/-- Recording a uniform access. -/
theorem recorded_range (s : State) (c : Ctx) (w : Nat) (a : Word) (k : TagKind) : Recorded s (s.recordRange c w a k) c.u c.det := by
  unfold State.recordRange
  exact recorded_of ⟨_, rfl⟩

/-- Whether a gang's word is recorded. -/
theorem det_gang {i : Instr} {u : Issuer} {s : State} {vals : List (List Word)} (hg : u.gang ≠ 16) :
    (ctxOf i u s vals).det = gmDet (s.gang u.team u.gang).gmode := by
  unfold Ctx.det
  rw [ctxOf_gang hg]
  simp [hg]
/-- A sidecar's word is not recorded. -/
theorem det_side {i : Instr} {u : Issuer} {s : State} {vals : List (List Word)} (hg : u.gang = 16) : (ctxOf i u s vals).det = false := by
  unfold Ctx.det
  rw [ctxOf_side hg]
  simp [hg]

/-! ### Stores in order -/

/-- Writes of bytes at places, one after the other. -/
def writeAll (at_ : Nat → Nat) (val : Nat → List Byte) (ls : List Nat) (m : List Host.Cell) : List Host.Cell :=
  ls.foldl (fun m l => memWrite m (at_ l) (val l)) m

/-- Writes keep the canonical form. -/
theorem writeAll_wf (at_ : Nat → Nat) (val : Nat → List Byte) : ∀ (ls : List Nat) {m : List Host.Cell}, Memory.wf m = true →
    Memory.wf (writeAll at_ val ls m) = true
  | [], _, h => h
  | l :: ls, _, h => writeAll_wf at_ val ls (memWrite_wf (val l) (at_ l) h)

/-- A byte that no write covers is as it was. -/
theorem writeAll_other (at_ : Nat → Nat) (val : Nat → List Byte) (x : Nat) : ∀ (ls : List Nat) (m : List Host.Cell),
    (∀ l ∈ ls, x < at_ l ∨ at_ l + (val l).length ≤ x) → memGet (writeAll at_ val ls m) x = memGet m x
  | [], _, _ => rfl
  | l :: ls, m, h => by
    show memGet (writeAll at_ val ls (memWrite m (at_ l) (val l))) x = _
    rw [writeAll_other at_ val x ls _ (fun k hk => h k (by simp [hk])), memGet_memWrite_other _ _ _ _ (h l (by simp))]

/-- A byte that one write covers and no later one. -/
theorem writeAll_last (at_ : Nat → Nat) (val : Nat → List Byte) {l b : Nat} : ∀ (ls : List Nat) {m : List Host.Cell},
    ls.Pairwise (· < ·) → Memory.wf m = true → l ∈ ls → (hb : b < (val l).length) →
    (∀ k ∈ ls, l < k → at_ l + b < at_ k ∨ at_ k + (val k).length ≤ at_ l + b) →
    memGet (writeAll at_ val ls m) (at_ l + b) = (val l)[b]
  | [], _, _, _, h, _, _ => by cases h
  | k :: ls, m, hp, hm, hl, hb, h => by
    rw [List.pairwise_cons] at hp
    show memGet (writeAll at_ val ls (memWrite m (at_ k) (val k))) (at_ l + b) = _
    rcases List.mem_cons.mp hl with e | e
    · subst e
      rw [writeAll_other at_ val _ ls _ (fun j hj => h j (by simp [hj]) (hp.1 j hj))]
      exact memGet_memWrite_same _ _ _ hm hb
    · exact writeAll_last at_ val ls hp.2 (memWrite_wf _ _ hm) e hb (fun j hj => h j (by simp [hj]))

/-- The lanes of a mask ascend. -/
theorem lanesOf_sorted (m : Half) : (lanesOf m).Pairwise (· < ·) := by
  unfold lanesOf
  have : (upTo 32).Pairwise (· < ·) := by decide
  exact this.filter _

/-- The lanes of a mask. -/
theorem mem_lanesOf {m : Half} {l : Nat} : l ∈ lanesOf m ↔ l < 32 ∧ m.getLsbD l = true := by
  unfold lanesOf
  rw [List.mem_filter, mem_upTo]

/-- Stores of lanes: the scratchpad is written in their order, and words replaced whole are good again. -/
theorem foldl_spadWrite (at_ : Nat → Nat) (val : Nat → List Byte) : ∀ (ls : List Nat) (s : State),
    ls.foldl (fun s l => s.spadWrite (at_ l) (val l)) s =
      { s with spad := writeAll at_ val ls s.spad,
               bad := { s.bad with spad := ls.foldl (fun b l => unmark b (at_ l) (val l).length) s.bad.spad },
               cmds := (ls.foldl (fun s l => s.spadWrite (at_ l) (val l)) s).cmds }
  | [], _ => rfl
  | l :: ls, s => by
    rw [List.foldl_cons]
    conv => lhs; rw [foldl_spadWrite at_ val ls]
    rfl

/-- Nothing noted by commands. -/
theorem commandsNote_same {s t : State} (h : t.cmds = s.cmds) : CommandsNote s t :=
  ⟨by rw [h], fun i => by rw [show t.cmd i = s.cmd i by unfold State.cmd; rw [h]]⟩
/-- Notes of commands follow one another. -/
theorem commandsNote_trans {a b c : State} (h1 : CommandsNote a b) (h2 : CommandsNote b c) : CommandsNote a c :=
  ⟨h2.1.trans h1.1, fun i => by have := h2.2 i; rw [h1.2 i] at this; exact this⟩
/-- A command that takes note of a write changes in its notes alone. -/
theorem note_same (c : Cmd) (base key n : Nat) :
    c.note base key n = { c with skip := { c.skip with tainted := (c.note base key n).skip.tainted }, wrote := (c.note base key n).wrote } := by
  unfold Cmd.note
  split
  · rfl
  · split
    · split <;> rfl
    · rfl
/-- Of a write to the scratchpad commands take note, and nothing else of them changes. -/
theorem commandsNote_spadWrite (s : State) (key : Nat) (bs : List Byte) : CommandsNote s (s.spadWrite key bs) := by
  have h : ∀ (l : List Cmd) (i : Nat), rowGet noCmd (l.map (fun c => c.note ((s.team c.team).key 0) key bs.length)) i =
      { rowGet noCmd l i with
        skip := { (rowGet noCmd l i).skip with
                  tainted := (rowGet noCmd (l.map (fun c => c.note ((s.team c.team).key 0) key bs.length)) i).skip.tainted }
        wrote := (rowGet noCmd (l.map (fun c => c.note ((s.team c.team).key 0) key bs.length)) i).wrote } := by
    intro l
    induction l with
    | nil => intro i; rfl
    | cons c l ih =>
      intro i
      cases i with
      | zero => exact note_same c _ _ _
      | succ n => exact ih n
  exact ⟨List.length_map .., fun i => h s.cmds i⟩
/-- The same of many. -/
theorem commandsNote_foldl (at_ : Nat → Nat) (val : Nat → List Byte) : ∀ (ls : List Nat) (s : State),
    CommandsNote s (ls.foldl (fun s l => s.spadWrite (at_ l) (val l)) s)
  | [], _ => commandsNote_same rfl
  | l :: ls, s => commandsNote_trans (commandsNote_spadWrite s (at_ l) (val l)) (commandsNote_foldl at_ val ls _)
/-- The same of a store by a word of a gang. -/
theorem commandsNote_ownStore (s : State) (u : Issuer) (f : State → State) (hf : ∀ x, CommandsNote x (f x)) :
    CommandsNote s (s.ownStore u f) := by
  obtain ⟨a, h1, h2, -⟩ := ownStore_noted s u f
  have e1 : a.cmds = s.cmds := by rw [h1.rest]
  have e2 : (s.ownStore u f).cmds = (f a).cmds := by rw [h2.rest]
  exact commandsNote_trans (commandsNote_same e1) (commandsNote_trans (hf a) (commandsNote_same e2))

/-- Marks only go. -/
theorem unmark_sub (l : List Nat) (a n : Nat) : ∀ x ∈ unmark l a n, x ∈ l := fun x h => (List.mem_filter.mp h).1
/-- Marks only go, over many writes. -/
theorem foldl_unmark_sub (at_ len : Nat → Nat) : ∀ (ls : List Nat) (b : List Nat),
    ∀ x ∈ ls.foldl (fun b l => unmark b (at_ l) (len l)) b, x ∈ b
  | [], _, _, h => h
  | l :: ls, b, x, h => unmark_sub _ _ _ x (foldl_unmark_sub at_ len ls _ x h)

/-- What stores have left: memory and marks as `f` says of a state that differs in notes alone, and notes. -/
theorem fillsNote_ownStore {s s0 : State} {u : Issuer} (f : State → State) (h0 : s0.cores = s.cores ∧ s0.fresh = s.fresh ∧
      (s0.team u.team).home = (s.team u.team).home)
    (hf : ∀ x, (f x).cores = x.cores ∧ (f x).fresh = x.fresh) : FillsNote s (s0.ownStore u f) u := by
  obtain ⟨a, h1, h2, h3⟩ := ownStore_noted s0 u f
  have hc : ∀ c, s0.core c = s.core c := fun c => by unfold State.core; rw [h0.1]
  have hr : ∀ c r, s0.record c r = s.record c r := fun c r => by unfold State.record; rw [hc]
  have ha : ∀ c, (f a).core c = a.core c := fun c => by unfold State.core; rw [(hf a).1]
  have har : ∀ c r, (f a).record c r = a.record c r := fun c r => by unfold State.record; rw [ha]
  refine ⟨fun c => ?_, fun c r => ?_, fun h => ?_⟩
  · have e1 := h1.cores c
    have e2 := h2.cores c
    rw [ha, e1, hc] at e2
    exact e2
  · have e1 := h1.records c r
    have e2 := h2.records c r
    rw [har, e1, hr] at e2
    exact e2
  · have hfo : s0.fillsOf (s0.team u.team).home u.team u.gang = [] := by
      rw [h0.2.2]
      unfold State.fillsOf at h ⊢
      simp only [hr]
      exact h
    obtain ⟨-, e⟩ := h3 hfo
    rw [e]
    exact ⟨(hf s0).1.trans h0.1, (hf s0).2.trans h0.2.1⟩

/-- A store leaves everything but scratchpad, marks, records, free values and the engine commands' notes. -/
theorem ownStore_rest (s : State) (u : Issuer) (f : State → State)
    (hf : ∀ x, f x = { x with spad := (f x).spad, bad := (f x).bad, cmds := (f x).cmds }) :
    s.ownStore u f = { s with spad := (s.ownStore u f).spad, bad := (s.ownStore u f).bad, cores := (s.ownStore u f).cores,
                              fresh := (s.ownStore u f).fresh, cmds := (s.ownStore u f).cmds } := by
  obtain ⟨a, h1, h2, -⟩ := ownStore_noted s u f
  have e1 := h2.rest
  have e2 := h1.rest
  generalize s.ownStore u f = t at e1
  rw [hf a, e2] at e1
  rw [e1]

/-- What a store leaves in scratchpad. -/
theorem ownStore_spad (s : State) (u : Issuer) (f : State → State) (A : List Host.Cell → List Host.Cell) (B : BadMarks → BadMarks)
    (hf : ∀ x, (f x).spad = A x.spad ∧ (f x).bad = B x.bad) :
    (s.ownStore u f).spad = A s.spad ∧ (s.ownStore u f).bad = B s.bad := by
  obtain ⟨a, h1, h2, -⟩ := ownStore_noted s u f
  have e1 : (s.ownStore u f).spad = (f a).spad ∧ (s.ownStore u f).bad = (f a).bad := by
    rw [h2.rest]
    exact ⟨rfl, rfl⟩
  have e2 : a.spad = s.spad ∧ a.bad = s.bad := by
    rw [h1.rest]
    exact ⟨rfl, rfl⟩
  rw [e1.1, e1.2, (hf a).1, (hf a).2, e2.1, e2.2]
  exact ⟨rfl, rfl⟩

/-! ### Registers loaded, and uniform accesses -/

/-- A register given contents in lanes, and the word finished. -/
theorem regResult_finish {f : Form} {popped : Bool} {u : Issuer} {g : Gang} (hj : f.jumps = false) (hm : f.merges = false)
    (hok : g.unitOk u.slices = true) (d : VNum) (m : Half) (v : Nat → VReg) :
    RegResult g (finishGang f popped u (g.loadV d m v)) u.slices m d v := by
  have hk : g.loadV d m v = { g with lanes := (g.loadV d m v).lanes, latch := (g.loadV d m v).latch, instar := (g.loadV d m v).instar } := by
    unfold Gang.loadV; split <;> rfl
  have hi : (g.loadV d m v).instar = { g.instar with rewindable := (g.loadV d m v).instar.rewindable, vdirty := (g.loadV d m v).instar.vdirty } := by
    unfold Gang.loadV; split <;> rfl
  have hin : ∀ l, l < 32 → (g.loadV d m v).lane l = if m.getLsbD l = true then (g.lane l).setV d (v l) else g.lane l := by
    intro l hl
    unfold Gang.loadV
    by_cases h0 : m = 0#32
    · subst h0; simp
    · rw [if_neg h0, Gang.lane_touchV]
      cases hb : m.getLsbD l
      · rw [Gang.lane_modLanes_out g m _ hl hb]; simp
      · rw [Gang.lane_modLanes_in g m _ hl hb]; simp
  refine ⟨gangKeeps_finish hj hm hok (by rw [hk]) (by show (g.loadV d m v).instar = _; rw [hi]), ?_, ?_, ?_⟩
  · rw [finishGang_keeps, hk]; exact ⟨rfl, rfl, rfl⟩
  · intro l hl
    rw [finishGang_lane, hin l hl]
    split <;> rfl
  · intro l hl r
    rw [finishGang_lane, hin l hl]
    cases hb : m.getLsbD l
    · simp
    · by_cases hr : r = d
      · subst hr; simp
      · simp [hr, Lane.vreg_setV_other _ _ (fun e => hr e.symm)]

/-- What a load changes. -/
theorem loadLanes_mod (s : State) (c : Ctx) (d : VNum) (w : Nat) (sx : Bool) (ad : Nat → Word) :
    ∃ fr, s.loadLanes c d w sx ad = { s.modGang c.u.team c.u.gang (fun g => g.loadV d c.part (s.laneLoad c.t w sx ad)) with fresh := fr } ∧
      ((∀ l, l < 32 → c.part.getLsbD l = true → s.spadBad (c.t.key (ad l).toNat) w = false ∧ s.veils (c.t.key (ad l).toNat) w = false) →
        fr = s.fresh) := by
  unfold State.loadLanes
  dsimp only
  split
  · exact ⟨s.fresh, rfl, fun _ => rfl⟩
  · next h =>
    refine ⟨s.fresh + 288, rfl, fun hh => absurd ?_ h⟩
    rw [List.all_eq_true]
    intro l hl
    rw [mem_lanesOf] at hl
    simp [hh l hl.1 hl.2]

/-- The place of a window offset. -/
theorem place_key (s : State) (u : Issuer) (a : Word) : (s.team u.team).key a.toNat = placeOf s u a := rfl

/-- A uniform access that passes the checks is not stopped. -/
theorem uniformStop_none {i : Instr} {u : Issuer} {s : State} {vals : List (List Word)} {al w : Nat} {a : Word} {k : TagKind} (h : UniformOk s u al w a k) : uniformStop (ctxOf i u s vals) al w a = none := by
  have ht : (ctxOf i u s vals).t = s.team u.team := by
    by_cases hg : u.gang = 16
    · rw [ctxOf_side hg]
    · rw [ctxOf_gang hg]
  unfold uniformStop
  rw [ht]
  unfold firstStop
  rw [need_true (by simpa using h.aligned)]
  dsimp only
  unfold firstStop
  rw [need_true (by simpa [inWindow] using h.inside)]
  rfl

/-- A uniform access that races with no gang is not stopped. -/
theorem uniformRace_none {i : Instr} {u : Issuer} {s : State} {vals : List (List Word)} {al w : Nat} {a : Word} {k : TagKind} (h : UniformOk s u al w a k) : uniformRace (ctxOf i u s vals) w a k = none := by
  unfold uniformRace
  by_cases hg : u.gang = 16
  · rw [det_side hg]; rfl
  · rw [det_gang hg]
    split
    · next hd => rw [ctxOf_gang hg]; dsimp only; rw [h.alone hg hd]; rfl
    · rfl

/-- The k register that a word sees. -/
theorem ctx_k {i : Instr} {u : Issuer} {s : State} {vals : List (List Word)} (k : KNum) : (ctxOf i u s vals).k k = kOf s u k := by
  unfold Ctx.k kOf
  by_cases hg : u.gang = 16
  · rw [ctxOf_side hg]; simp [hg]
  · rw [ctxOf_gang hg]
/-- The unit that a word sees. -/
theorem ctx_u {i : Instr} {u : Issuer} {s : State} {vals : List (List Word)} : (ctxOf i u s vals).u = u := by
  by_cases hg : u.gang = 16
  · rw [ctxOf_side hg]
  · rw [ctxOf_gang hg]
/-- The team that a word sees. -/
theorem ctx_t {i : Instr} {u : Issuer} {s : State} {vals : List (List Word)} : (ctxOf i u s vals).t = s.team u.team := by
  by_cases hg : u.gang = 16
  · rw [ctxOf_side hg]
  · rw [ctxOf_gang hg]

/-- A gang's or sidecar's word whose effect writes a k register, recorded. -/
theorem party_k {i : Instr} {f : Form} {body : Ctx → State → Except Stop State} {s : State} {u : Issuer}
    (h : PartyIssues i f u s) (hj : f.jumps = false) (hm : f.merges = false) (d : KNum) (w : Word) {s2 : State} {det : Bool}
    (hb : ∀ vals, body (ctxOf i u s vals) s = .ok s2) (hR : Recorded (s.writeK u d w) s2 u det)
    (hd : u.gang = 16 ∨ gmDet (s.gang u.team u.gang).gmode = false → det = false) :
    ∃ t, issue i f body s = .next t ∧ Within s t u ∧ NoStore s t ∧ TagsKept s t u ∧ t.fresh = s.fresh ∧ PartyK s t u d w := by
  rcases h with ⟨hg, h⟩ | ⟨hg, vals, popped, h⟩
  · have hw := State.writeK_side s hg d w
    have hW : Within s s2 u := hR.within _ (by
      rw [hw]; exact within_modTeam (within_refl s u) _ rfl (fun _ _ => rfl) (fun h => absurd hg h))
    obtain ⟨t, ht, w1, g1, n1, f1, t1, l1⟩ := side_reaches h (hb []) hW
    have et : (s.writeK u d w).team u.team = { s.team u.team with side := { (s.team u.team).side with
        k := rowPut 0 (s.team u.team).side.k d.toNat w, kbad := (s.team u.team).side.kbad &&& ~~~ (1#32 <<< d.toNat) } } := by
      rw [hw, State.team_modTeam_same]
    refine ⟨t, ht, w1, ?_, ?_, ?_, ?_⟩
    · refine noStore_trans (noStore_trans ?_ hR.noStore) n1
      rw [hw]; exact ⟨rfl, rfl, rfl, rfl, rfl⟩
    · refine ⟨t1.trans (hR.tags.trans (by rw [et])), fun hh => l1.trans ((hR.lines (hd hh)).trans (by rw [et]))⟩
    · rw [f1, hR.fresh, hw]; rfl
    · unfold PartyK
      rw [if_pos hg]
      rw [hR.side, et, hj] at g1
      refine ⟨by rw [g1]; rfl, fun k => ?_, fun k => ?_⟩
      · rw [g1]
        show rowGet 0 (rowPut 0 (s.team u.team).side.k d.toNat w) k.toNat = _
        by_cases hk : k = d
        · subst hk; simp
        · rw [if_neg hk]; exact rowGet_rowPut_other _ _ _ (fun e => hk (BitVec.eq_of_toNat_eq e.symm))
      · rw [g1]
        show ((s.team u.team).side.kbad &&& ~~~ (1#32 <<< d.toNat)).getLsbD k.toNat = _
        have hk : k.toNat < 32 := k.isLt
        by_cases h : k = d
        · subst h; simp [hk]
        · have hne : k.toNat ≠ d.toNat := fun e => h (BitVec.eq_of_toNat_eq e)
          cases hb : (s.team u.team).side.kbad.getLsbD k.toNat
          · simp [hb]
          · simp [hb, h, hk]; omega
  · have hw := State.writeK_gang s hg d w
    have hW : Within s s2 u := hR.within _ (by rw [hw]; exact within_modGang (within_refl s u) _)
    obtain ⟨t, ht, w1, g1, n1, f1, t1, l1⟩ := gang_reaches h (hb vals) hW
    have et : (s.writeK u d w).team u.team = (s.team u.team).modGang u.gang (fun g => g.writeK d w) := by
      rw [hw]; exact State.team_modTeam_same _ _ _
    refine ⟨t, ht, w1, ?_, ?_, ?_, ?_⟩
    · refine noStore_trans (noStore_trans ?_ hR.noStore) n1
      rw [hw]; exact ⟨rfl, rfl, rfl, rfl, rfl⟩
    · refine ⟨t1.trans (hR.tags.trans (by rw [et]; rfl)), fun hh => l1.trans ((hR.lines (hd hh)).trans (by rw [et]; rfl))⟩
    · rw [f1, hR.fresh, hw]; rfl
    · unfold PartyK
      rw [if_neg hg, g1, hR.gang, hw, State.gang_modGang_same]
      exact kResult_finish hj hm (State.issuable_gang h.issuable hg) d w

/-! ### Words that store -/

/-- A byte of a number. -/
theorem leBytes_get : ∀ (n v b : Nat) (h : b < (leBytes n v).length), (leBytes n v)[b] = BitVec.ofNat 8 (v / 256 ^ b)
  | 0, v, b, h => by simp [leBytes] at h
  | n + 1, v, 0, h => by simp [leBytes]
  | n + 1, v, b + 1, h => by
    simp only [leBytes, List.getElem_cons_succ]
    rw [leBytes_get n]
    congr 1
    rw [Nat.pow_succ, Nat.div_div_eq_div_mul, Nat.mul_comm]

/-- A byte of a word. -/
theorem leBytes_word (n : Nat) (x : Word) (b : Nat) (h : b < (leBytes n x.toNat).length) : (leBytes n x.toNat)[b] = x.extractLsb' (8 * b) 8 := by
  rw [leBytes_get]
  apply BitVec.eq_of_toNat_eq
  rw [BitVec.extractLsb'_toNat, BitVec.toNat_ofNat, Nat.shiftRight_eq_div_pow, Nat.pow_mul]

/-- What the stores of lanes change. -/
theorem storeLanes_rest (s : State) (c : Ctx) (w : Nat) (ad val : Nat → Word) :
    let f := fun (s : State) => (lanesOf c.part).foldl (fun s l => s.spadWrite (c.t.key (ad l).toNat) (leBytes w (val l).toNat)) s
    (∀ x, f x = { x with spad := (f x).spad, bad := (f x).bad, cmds := (f x).cmds }) ∧ (∀ x, (f x).cores = x.cores ∧ (f x).fresh = x.fresh) ∧
    (∀ x, (f x).spad = writeAll (fun l => c.t.key (ad l).toNat) (fun l => leBytes w (val l).toNat) (lanesOf c.part) x.spad ∧
      (f x).bad = { x.bad with spad := (lanesOf c.part).foldl (fun b l => unmark b (c.t.key (ad l).toNat) (leBytes w (val l).toNat).length) x.bad.spad }) := by
  intro f
  have h : ∀ x, f x = _ := fun x => foldl_spadWrite (fun l => c.t.key (ad l).toNat) (fun l => leBytes w (val l).toNat) (lanesOf c.part) x
  have own : ∀ {y x : State} {a : List Host.Cell} {b : BadMarks} {k : List Cmd}, y = { x with spad := a, bad := b, cmds := k } →
      y = { x with spad := y.spad, bad := y.bad, cmds := y.cmds } := by
    intro y x a b k e
    rw [e]
  refine ⟨fun x => own (h x), fun x => by rw [h x]; exact ⟨rfl, rfl⟩, fun x => by rw [h x]; exact ⟨rfl, rfl⟩⟩

/-- A gang's or sidecar's word whose effect is a store, recorded. -/
theorem party_store {i : Instr} {f : Form} {body : Ctx → State → Except Stop State} {s X : State} {u : Issuer}
    (h : PartyIssues i f u s) (hj : f.jumps = false) (hm : f.merges = false) {s2 : State} {det : Bool}
    (hX : X = { s with spad := X.spad, bad := X.bad, cores := X.cores, fresh := X.fresh, syncCodes := X.syncCodes, cmds := X.cmds })
    (hb : ∀ vals, body (ctxOf i u s vals) s = .ok s2) (hR : Recorded X s2 u det)
    (hd : u.gang = 16 ∨ gmDet (s.gang u.team u.gang).gmode = false → det = false) :
    ∃ t, issue i f body s = .next t ∧ Within s t u ∧ NoStore X t ∧ TagsKept s t u ∧ t.fresh = X.fresh ∧ PartyPasses s t u := by
  have hW : Within s s2 u := hR.within _ (within_same (within_refl s u) hX)
  have hXt : X.team u.team = s.team u.team := by rw [hX]; rfl
  rcases h with ⟨hg, h⟩ | ⟨hg, vals, popped, h⟩
  · obtain ⟨t, ht, w1, g1, n1, f1, t1, l1⟩ := side_reaches h (hb []) hW
    refine ⟨t, ht, w1, noStore_trans hR.noStore n1, ⟨t1.trans (hR.tags.trans (by rw [hXt])), fun hh => l1.trans ((hR.lines (hd hh)).trans (by rw [hXt]))⟩, f1.trans hR.fresh, ?_⟩
    unfold PartyPasses
    rw [if_pos hg, g1, hR.side, hXt, hj]; rfl
  · obtain ⟨t, ht, w1, g1, n1, f1, t1, l1⟩ := gang_reaches h (hb vals) hW
    refine ⟨t, ht, w1, noStore_trans hR.noStore n1, ⟨t1.trans (hR.tags.trans (by rw [hXt])), fun hh => l1.trans ((hR.lines (hd hh)).trans (by rw [hXt]))⟩, f1.trans hR.fresh, ?_⟩
    unfold PartyPasses
    rw [if_neg hg, g1, hR.gang]
    have : X.gang u.team u.gang = s.gang u.team u.gang := by unfold State.gang; rw [hXt]
    rw [this]
    exact passes_finish hj hm (State.issuable_gang h.issuable hg)

/-- A store of bytes at one place. -/
theorem stored_at (s : State) (u : Issuer) (key : Nat) (bs : List Byte) (f : State → State)
    (hf : ∀ x, Noted s x → f x = x.spadWrite key bs) :
    s.ownStore u f = { s with spad := (s.ownStore u f).spad, bad := (s.ownStore u f).bad, cores := (s.ownStore u f).cores,
                              fresh := (s.ownStore u f).fresh, cmds := (s.ownStore u f).cmds } ∧
    FillsNote s (s.ownStore u f) u ∧ Stored s (s.ownStore u f) key bs := by
  obtain ⟨a, h1, h2, h3⟩ := ownStore_noted s u f
  have hfa := hf a h1
  have hfs := hf s (noted_refl s)
  rw [hfa] at h2
  have e1 := h2.rest
  have e2 := h1.rest
  have hsp : (s.ownStore u f).spad = memWrite s.spad key bs := by
    rw [e1, e2]
    rfl
  have hbd : (s.ownStore u f).bad = { s.bad with spad := unmark s.bad.spad key bs.length } := by
    rw [e1, e2]
    rfl
  refine ⟨?_, ⟨fun c => ?_, fun c r => ?_, fun h => ?_⟩, ⟨fun hm => ?_, fun x hx => ?_, ?_, fun n hn => ?_⟩⟩
  · rw [e2] at e1
    generalize s.ownStore u f = t at e1
    rw [e1]
    rfl
  · have x1 := h1.cores c
    have x2 := h2.cores c
    have : (a.spadWrite key bs).core c = a.core c := rfl
    rw [this, x1] at x2
    exact x2
  · have x1 := h1.records c r
    have x2 := h2.records c r
    have : (a.spadWrite key bs).record c r = a.record c r := rfl
    rw [this, x1] at x2
    exact x2
  · obtain ⟨-, e⟩ := h3 h
    rw [e, hfs]
    exact ⟨rfl, rfl⟩
  · rw [hsp]
    exact memRead_memWrite_same bs key hm
  · rw [hsp]
    exact memGet_memWrite_other bs _ _ _ hx
  · rw [hbd]
  · rw [hbd] at hn
    exact unmark_sub _ _ _ n hn

/-- A store of given bytes. -/
theorem stored_one (s : State) (u : Issuer) (key : Nat) (bs : List Byte) :
    let X := s.ownStore u (fun s => s.spadWrite key bs)
    X = { s with spad := X.spad, bad := X.bad, cores := X.cores, fresh := X.fresh, cmds := X.cmds } ∧ FillsNote s X u ∧ Stored s X key bs :=
  stored_at s u key bs _ (fun _ _ => rfl)

/-- The notes depend on cores and free values alone. -/
theorem fillsNote_same {s X t : State} {u : Issuer} (h : FillsNote s X u) (e1 : t.cores = X.cores) (e2 : t.fresh = X.fresh) : FillsNote s t u := by
  have hcore : ∀ c, t.core c = X.core c := fun c => by unfold State.core; rw [e1]
  have hrec : ∀ c r, t.record c r = X.record c r := fun c r => by unfold State.record; rw [hcore]
  refine ⟨fun c => by rw [hcore]; exact h.cores c, fun c r => by rw [hrec]; exact h.records c r, fun hh => ?_⟩
  obtain ⟨a, b⟩ := h.none hh
  exact ⟨e1.trans a, e2.trans b⟩
/-- A store depends on the scratchpad and its marks alone. -/
theorem stored_same {s X t : State} {a : Nat} {bs : List Byte} (h : Stored s X a bs) (e1 : t.spad = X.spad) (e2 : t.bad = X.bad) : Stored s t a bs :=
  ⟨fun hm => by rw [e1]; exact h.stored hm, fun x hx => by rw [e1]; exact h.others x hx, by rw [e2]; exact h.bad⟩

/-- A number is below the power of its length. -/
theorem leNat_lt : ∀ (bs : List Byte), leNat bs < 256 ^ bs.length
  | [] => by simp [leNat]
  | b :: t => by
    have := leNat_lt t
    have hb : b.toNat < 256 := b.isLt
    simp only [leNat, List.length_cons, Nat.pow_succ]
    omega
/-- A number read is below the power of its length. -/
theorem memNat_lt (m : List Host.Cell) (a n : Nat) : memNat m a n < 256 ^ n := by
  have := leNat_lt (memRead m a n); rw [memRead_length] at this; exact this

/-- No flag set leaves the first eight bytes of a sync word. -/
theorem setFlags_zero {lo : Nat} (h : lo < 2 ^ 64) : swSetFlags lo 0 = lo := by
  unfold swSetFlags
  have : ((BitVec.ofNat 8 (lo / 2 ^ 56)) ||| (BitVec.ofNat 8 0)).toNat = lo / 2 ^ 56 := by
    rw [BitVec.or_zero, BitVec.toNat_ofNat]
    have : lo / 2 ^ 56 < 2 ^ 8 := by omega
    omega
  rw [this]
  omega

/-- A uniform access that is aligned and inside is not stopped. -/
theorem uniform_none {i : Instr} {u : Issuer} {s : State} {vals : List (List Word)} {al w : Nat} {a : Word} (hal : a.toNat % al = 0) (hin : a.toNat + w ≤ (s.team u.team).scratch) : uniformStop (ctxOf i u s vals) al w a = none := by
  unfold uniformStop
  rw [ctx_t]
  unfold firstStop
  rw [need_true (by simpa using hal)]
  dsimp only
  unfold firstStop
  rw [need_true (by simpa [inWindow] using hin)]
  rfl

/-- Notes leave the scratchpad and its marks. -/
theorem noted_spad {s x : State} (h : Noted s x) : x.spad = s.spad ∧ x.bad = s.bad := by rw [h.rest]; exact ⟨rfl, rfl⟩

/-! ### Words finished -/

/-- What goes with a word, after any effect that leaves the unit's slices where they were. -/
theorem finished_finish {f : Form} {popped : Bool} {u : Issuer} {b : State} (hj : f.jumps = false) (hm : f.merges = false)
    (hok : u.gang ≠ 16 → (b.gang u.team u.gang).unitOk u.slices = true) : Finished b (finish f popped u b) u := by
  unfold Finished
  by_cases hg : u.gang = 16
  · rw [if_pos hg, finish_sidecar hg]
    refine ⟨onlySide_modSide (onlySide_meterWord (onlySide_refl b u))
      (fun x => { x with pc := if f.jumps then x.pc else x.pc + 4#64, wait := none }), ?_⟩
    rw [State.team_modTeam_same, hj, State.team_meterWord]
    rfl
  · rw [if_neg hg]
    refine ⟨onlyGang_finish (onlyGang_refl b u) hg f popped, ?_⟩
    rw [gang_finish hg]
    exact passes_finish hj hm (hok hg)

/-- A gang's word completes with the effect `b`. -/
theorem gang_finishes {i : Instr} {f : Form} {body : Ctx → State → Except Stop State} {s s1 b : State} {u : Issuer}
    {vals : List (List Word)} {popped : Bool} (h : GangIssues i f u s vals s1 popped) (hj : f.jumps = false) (hm : f.merges = false)
    (hb : body (ctxOf i u s vals) s1 = .ok b)
    (hs : (b.gang u.team u.gang).slices = (s.gang u.team u.gang).slices) : ∃ t, issue i f body s = .next t ∧ Finished b t u :=
  ⟨_, issue_completes h.toIssues hb, finished_finish hj hm (fun _ => Gang.unitOk_congr hs (State.issuable_gang h.issuable h.isGang))⟩

/-- A sidecar's word completes with the effect `b`. -/
theorem side_finishes {i : Instr} {f : Form} {body : Ctx → State → Except Stop State} {s b : State} {u : Issuer}
    (h : SidecarIssues i f u s) (hj : f.jumps = false) (hm : f.merges = false) (hb : body (ctxOf i u s []) s = .ok b) :
    ∃ t, issue i f body s = .next t ∧ Finished b t u :=
  ⟨_, issue_completes ⟨h.issuer, h.issuable, h.checks, operandsOf_sidecar h.isSidecar⟩ hb,
    finished_finish hj hm (fun hg => absurd h.isSidecar hg)⟩

/-- A party's word completes with the effect `b`. -/
theorem party_finishes {i : Instr} {f : Form} {body : Ctx → State → Except Stop State} {s b : State} {u : Issuer}
    (h : PartyIssues i f u s) (hj : f.jumps = false) (hm : f.merges = false) (hb : ∀ vals, body (ctxOf i u s vals) s = .ok b)
    (hs : u.gang ≠ 16 → (b.gang u.team u.gang).slices = (s.gang u.team u.gang).slices) :
    ∃ t, issue i f body s = .next t ∧ Finished b t u := by
  rcases h with ⟨-, h⟩ | ⟨hg, vals, popped, h⟩
  · exact side_finishes h hj hm (hb [])
  · exact gang_finishes h hj hm (hb vals) (hs hg)

/-- A party's word stops. -/
theorem party_stops {i : Instr} {f : Form} {body : Ctx → State → Except Stop State} {s : State} {u : Issuer} {st : Stop}
    (h : PartyIssues i f u s) (hb : ∀ vals, body (ctxOf i u s vals) s = .error st) : issue i f body s = .next (stopUnit u st s) := by
  rcases h with ⟨-, h⟩ | ⟨-, vals, popped, h⟩
  · exact issue_stops ⟨h.issuer, h.issuable, h.checks, operandsOf_sidecar h.isSidecar⟩ (hb [])
  · exact issue_stops h.toIssues (hb vals)

end Sys2Proof.Machine
end

