-- ==== Sys2Proof/Tests/Slice0.lean ====
section
/-!
SUPPORT. Tests: words written out from the encoding tables, ill-formed terms that WellFormed refuses, worked values of the manual, and for
every obligation with hypotheses a state and operands that meet them.
-/
set_option maxRecDepth 20000

namespace Sys2Proof.Tests

open Sys2Proof Sys2Proof.Machine Sys2Proof.Safety

/-- The unit of the tests: all eight slices of the one gang of the one team. -/
def unit0 : Issuer := ⟨0, 0, 0xFF#8, false⟩
/-- The sidecar of the one team. -/
def unit16 : Issuer := ⟨0, 16, 0#8, false⟩
/-- The state after reset with a word loaded and its unit about to issue it. -/
def loaded (i : Instr) : State := { State.reset.loadWord ((encode i).getD 0#32).toNat with issuer := some unit0 }
/-- The same with the gang changed. -/
def withGang (i : Instr) (f : Gang → Gang) : State := (loaded i).modGang 0 0 f
/-- The same with the team's sidecar there, and about to issue. -/
def withSide (i : Instr) (k : List Word) : State :=
  ({ loaded i with issuer := some unit16 } : State).modTeam 0 (fun t => { t with side := { t.side with present := true, exited := false, k := k } })
/-- A word passes its checks and finds its operands. -/
def canIssue (i : Instr) (f : Form) (u : Issuer) (s : State) : Bool :=
  s.issuer = some u && s.issuable u && (preStop i f u s).isNone && (match operandsOf f u s with | .ok _ => true | .error _ => false)
/-- A gang's word that passes its checks and finds its operands issues. -/
theorem issues_of {i : Instr} {f : Form} {u : Issuer} {s : State} (h : canIssue i f u s = true) (hg : u.gang ≠ 16) :
    ∃ vals s1 popped, GangIssues i f u s vals s1 popped := by
  unfold canIssue at h
  simp only [Bool.and_eq_true, decide_eq_true_eq, Option.isNone_iff_eq_none] at h
  obtain ⟨⟨⟨h1, h2⟩, h3⟩, h4⟩ := h
  cases ho : operandsOf f u s with
  | error e => rw [ho] at h4; simp at h4
  | ok x => exact ⟨x.1, x.2.1, x.2.2, ⟨h1, h2, h3, ho⟩, hg⟩
/-- A sidecar's word that passes its checks issues. -/
theorem side_issues_of {i : Instr} {f : Form} {u : Issuer} {s : State} (h : canIssue i f u s = true) (hg : u.gang = 16) :
    SidecarIssues i f u s := by
  unfold canIssue at h
  simp only [Bool.and_eq_true, decide_eq_true_eq, Option.isNone_iff_eq_none] at h
  exact ⟨h.1.1.1, h.1.1.2, h.1.2, hg⟩
/-- The state that a step of an instruction gives. -/
def after (i : Instr) (s : State) : State := match exec i s with | .next t => t | _ => s

/-! ### Decoding -/

/-- Words of R71, field by field. -/
theorem test_decode_control :
    decode 0b00000001_000000000000000000000000#32 = .ok (.nop) ∧
    decode 0b00000010_000000000000000000000000#32 = .ok (.exit) ∧
    decode 0b00000011_000_0_10000000000000000001#32 = .ok (.bra 0x80001#20) ∧
    decode 0b00000100_101_1_11111111111111111110#32 = .ok (.brc 5 true 0xFFFFE#20) ∧
    decode 0b00000101_000_0_00000000000000000111#32 = .ok (.rcv 7#20) ∧
    decode 0b00000110_000000_100001_000000_1_0_0000#32 = .ok (.jmpi 33 true) ∧
    decode 0b00000111_000_0_01000000000000000000#32 = .ok (.call 0x40000#20) ∧
    decode 0b00001000_000000_111110_000000_0_0_0000#32 = .ok (.calli 62 false) ∧
    decode 0b00001001_000000000000000000000000#32 = .ok (.ret) ∧
    decode 0b00001010_000000_000001_000000_1_0_0000#32 = .ok (.retr 1 true) ∧
    decode 0b00001011_10_011111_00000000_11111111#32 = .ok (.loop 2 31 255) ∧
    decode 0b00001100_000000000000000000000000#32 = .ok (.lexit) ∧
    decode 0b00001101_0000000000000000_10000001#32 = .ok (.regang 0x81#8) ∧
    decode 0b00001110_000001_011110_101_100000000#32 = .ok (.kbr 1 30 .geu 0x100#9) ∧
    decode 0b00001110_000000_000000_110_000000001#32 = .ok (.kbr 0 0 .always 1#9) ∧
    decode 0b00001111_100000000000000000000001#32 = .ok (.bkpt 0x800001#24) :=
  ⟨rfl, rfl, rfl, rfl, rfl, rfl, rfl, rfl, rfl, rfl, rfl, rfl, rfl, rfl, rfl, rfl⟩

/-- Words of R72, field by field. -/
theorem test_decode_system :
    decode 0b00010000_000000_011101_000000_0_0_0000#32 = .ok (.setmode 29) ∧
    decode 0b00010001_000000_000011_011100_0_0_0000#32 = .ok (.setmk 3 28) ∧
    decode 0b00010010_010001_000000_000000_0_0_0000#32 = .ok (.getmode 17) ∧
    decode 0b00010011_111111_000000_000000000000#32 = .ok (.csrr 63 0#12) ∧
    decode 0b00010011_011111_000000_000000000011#32 = .ok (.csrr 31 3#12) ∧
    decode 0b00010100_000000_111111_000000100000#32 = .ok (.csrw 63 0x20#12) ∧
    decode 0b00010100_000000_001001_000000110011#32 = .ok (.csrw 9 0x33#12) ∧
    decode 0b00010101_101010111100110111101111#32 = .ok (.trap 0xABCDEF#24) ∧
    decode 0b00010110_111111111111111111111111#32 = .ok (.instar 0xFFFFFF#24) ∧
    decode 0b00010111_000100_000010_00_0000_0001_0_0#32 = .ok (.inv 4 2 0 0 1 false) ∧
    decode 0b00010111_111011_100001_10_1111_1010_1_0#32 = .ok (.inv 59 33 2 15 10 true) :=
  ⟨rfl, rfl, rfl, rfl, rfl, rfl, rfl, rfl, rfl, rfl, rfl⟩

/-- Words of R73 to R75, field by field. -/
theorem test_decode_generic :
    decode 0b00100000_101000_000011_111100_0_1_0000#32 = .ok (.add 40 3 60 false true) ∧
    decode 0b00100001_101001_000011_111011_1_0_0000#32 = .ok (.sub 41 3 59 true false) ∧
    decode 0b00100010_101010_000011_111010_0_1_0000#32 = .ok (.mul 42 3 58 false true) ∧
    decode 0b00100011_101011_000011_111001_1_0_0000#32 = .ok (.mulh 43 3 57 true false) ∧
    decode 0b00100100_101100_000011_111000_0_1_0000#32 = .ok (.fma 44 3 56 false true) ∧
    decode 0b00100101_101101_000011_110111_1_0_0000#32 = .ok (.fms 45 3 55 true false) ∧
    decode 0b00100110_101110_000011_110110_0_1_0000#32 = .ok (.min 46 3 54 false true) ∧
    decode 0b00100111_101111_000011_110101_1_0_0000#32 = .ok (.max 47 3 53 true false) ∧
    decode 0b00101000_001001_110010_000000_1_0_0000#32 = .ok (.abs 9 50 true) ∧
    decode 0b00101001_110010_001001_000000_0_0_0000#32 = .ok (.neg 50 9 false) ∧
    decode 0b00101010_000001_100000_111111_1_0_0000#32 = .ok (.and 1 32 63 true false) ∧
    decode 0b00101011_000010_100001_111110_1_0_0000#32 = .ok (.or 2 33 62 true false) ∧
    decode 0b00101100_000011_100010_111101_1_0_0000#32 = .ok (.xor 3 34 61 true false) ∧
    decode 0b00101101_000100_100011_111100_1_0_0000#32 = .ok (.andn 4 35 60 true false) ∧
    decode 0b00101110_000101_100100_111011_1_0_0000#32 = .ok (.shl 5 36 59 true false) ∧
    decode 0b00101111_000110_100101_111010_1_0_0000#32 = .ok (.shr 6 37 58 true false) ∧
    decode 0b00110000_000111_100110_111001_1_0_0000#32 = .ok (.rot 7 38 57 true false) ∧
    decode 0b00110001_000111_001000_000000_1_0_0011#32 = .ok (.bits .brev 7 8 true) ∧
    decode 0b00110001_000111_001000_000000_0_0_0001#32 = .ok (.bits .clz 7 8 false) ∧
    decode 0b00110010_000001_000010_000011_0_1_0000#32 = .ok (.bfx 1 2 3 false true) ∧
    decode 0b00110011_000011_000010_000001_1_1_0000#32 = .ok (.bfi 3 2 1 true true) ∧
    decode 0b00110100_001010_010100_011110_0_0_0000#32 = .ok (.div 10 20 30 false false) ∧
    decode 0b00110101_011110_010100_001010_1_0_0000#32 = .ok (.rem 30 20 10 true false) ∧
    decode 0b00110110_001001_111100_000000_1_0_0000#32 = .ok (.mov 9 60 true) ∧
    decode 0b00110111_000001_000010_000011_0_1_1101#32 = .ok (.sel 1 2 3 false true true 5) ∧
    decode 0b00111000_000110_000010_000011_1_0_1110#32 = .ok (.cmp .uno 6 2 3 true false) ∧
    decode 0b00111000_000000_000010_000011_0_0_0101#32 = .ok (.cmp .ge 0 2 3 false false) ∧
    decode 0b00111001_000111_000001_000100_0_0_0110#32 = .ok (.plop 7 1 4 6) ∧
    decode 0b00111010_000001_000010_000011_0_0_0000#32 = .ok (.dot4 1 2 3 false false) ∧
    decode 0b00111011_000001_000010_000000_1_0_0000#32 = .ok (.crc 1 2 true) :=
  ⟨rfl, rfl, rfl, rfl, rfl, rfl, rfl, rfl, rfl, rfl, rfl, rfl, rfl, rfl, rfl, rfl, rfl, rfl, rfl, rfl, rfl, rfl, rfl, rfl, rfl, rfl, rfl, rfl, rfl, rfl⟩

/-- Words of R76, field by field. -/
theorem test_decode_immediate :
    decode 0b01000000_000010_000001_100000000001#32 = .ok (.addi 2 1 2049) ∧
    decode 0b01000001_000011_000001_100000000010#32 = .ok (.muli 3 1 2050) ∧
    decode 0b01000010_000100_000001_100000000011#32 = .ok (.andi 4 1 2051) ∧
    decode 0b01000011_000101_000001_100000000100#32 = .ok (.ori 5 1 2052) ∧
    decode 0b01000100_000110_000001_100000000101#32 = .ok (.xori 6 1 2053) ∧
    decode 0b01000101_000100_000101_000000111111#32 = .ok (.shli 4 5 63) ∧
    decode 0b01000110_000100_000101_000000000001#32 = .ok (.shri 4 5 1) ∧
    decode 0b01000111_011101_001001_111111111111#32 = .ok (.cmpi .le 5 9 0xFFF#12) ∧
    decode 0b01001000_100001_100000000000000001#32 = .ok (.movi 33 0x20001#18) ∧
    decode 0b01001001_100000_111111111111111111#32 = .ok (.movhi 32 0x3FFFF#18) ∧
    decode 0b01001010_000001_000010_000000000011#32 = .ok (.mini 1 2 3) ∧
    decode 0b01001011_000011_000010_000000000001#32 = .ok (.maxi 3 2 1) :=
  ⟨rfl, rfl, rfl, rfl, rfl, rfl, rfl, rfl, rfl, rfl, rfl, rfl⟩

/-- Words of R77, field by field. -/
theorem test_decode_function :
    decode 0b01010000_000000_111111_000000_0_0_0000#32 = .ok (.rcp 0 63 false) ∧
    decode 0b01010001_000001_111110_000000_1_0_0000#32 = .ok (.rsq 1 62 true) ∧
    decode 0b01010010_000010_111101_000000_0_0_0000#32 = .ok (.sqrt 2 61 false) ∧
    decode 0b01010011_000011_111100_000000_1_0_0000#32 = .ok (.exp2 3 60 true) ∧
    decode 0b01010100_000100_111011_000000_0_0_0000#32 = .ok (.log2 4 59 false) ∧
    decode 0b01010101_000101_111010_000000_1_0_0000#32 = .ok (.sinpi 5 58 true) ∧
    decode 0b01010110_000110_111001_000000_0_0_0000#32 = .ok (.cospi 6 57 false) ∧
    decode 0b01010111_000111_111000_000000_1_0_0000#32 = .ok (.tanh 7 56 true) ∧
    decode 0b01011000_000001_000010_000000_1_0_1010#32 = .ok (.cvt .f32 1 2 true) ∧
    decode 0b01011001_000001_000010_000101_0_0_1000#32 = .ok (.pack .f16 1 2 5 false) ∧
    decode 0b01011010_000010_000001_000111_1_0_1101#32 = .ok (.unpk .e5m2 2 1 7 true) ∧
    decode 0b01011011_110111_111000_001000_0_1_0010#32 = .ok (.qnt .l64 55 56 8 false true) ∧
    decode 0b01011100_000001_000010_000000_0_0_0011#32 = .ok (.rnd .rint 1 2 false) ∧
    decode 0b01011101_000011_000100_000000_1_0_0000#32 = .ok (.classf 3 4 true) ∧
    decode 0b01011110_000101_000110_000111_1_1_0000#32 = .ok (.scalb 5 6 7 true true) :=
  ⟨rfl, rfl, rfl, rfl, rfl, rfl, rfl, rfl, rfl, rfl, rfl, rfl, rfl, rfl, rfl⟩

/-- Words of R78, field by field. -/
theorem test_decode_cross :
    decode 0b01100000_000001_000010_000011_0_1_1111#32 = .ok (.shfl 1 2 3 false true 15) ∧
    decode 0b01100001_000001_000010_011111_1_0_1001#32 = .ok (.bcst 1 2 31 true 9) ∧
    decode 0b01100010_000001_000010_000101_0_0_0011#32 = .ok (.reduce .xor 1 2 false 3) ∧
    decode 0b01100011_000001_000010_010010_1_0_0100#32 = .ok (.scan .max true 1 2 true 4) ∧
    decode 0b01100011_000001_000010_000000_0_0_0100#32 = .ok (.scan .add false 1 2 false 4) ∧
    decode 0b01100100_011111_000110_000000_0_0_0010#32 = .ok (.voteBallot 31 6 2) ∧
    decode 0b01100100_000011_000110_000001_0_0_0010#32 = .ok (.voteAny 3 6 2) ∧
    decode 0b01100100_000100_000101_000010_0_0_0001#32 = .ok (.voteAll 4 5 1) ∧
    decode 0b01100101_000001_000010_000011_1_0_0000#32 = .ok (.subx 1 2 3 true false) ∧
    decode 0b01100110_011110_111110_010001_1_0_0000#32 = .ok (.lanek 30 62 17 true) ∧
    decode 0b01100111_111111_011111_000000_0_0_0000#32 = .ok (.kbcast 63 31) :=
  ⟨rfl, rfl, rfl, rfl, rfl, rfl, rfl, rfl, rfl, rfl, rfl⟩

/-- Words of R79, field by field. -/
theorem test_decode_uniform :
    decode 0b01101000_000000_011111_001000_0_0_0000#32 = .ok (.kadd 0 31 8) ∧
    decode 0b01101001_000001_011110_001001_0_0_0000#32 = .ok (.ksub 1 30 9) ∧
    decode 0b01101010_000010_011101_001010_0_0_0000#32 = .ok (.kmul 2 29 10) ∧
    decode 0b01101011_000011_011100_001011_0_0_0000#32 = .ok (.kand 3 28 11) ∧
    decode 0b01101100_000100_011011_001100_0_0_0000#32 = .ok (.kor 4 27 12) ∧
    decode 0b01101101_000101_011010_001101_0_0_0000#32 = .ok (.kxor 5 26 13) ∧
    decode 0b01101110_000110_011001_001110_0_0_0000#32 = .ok (.kshl 6 25 14) ∧
    decode 0b01101111_000001_000010_000011_0_0_0001#32 = .ok (.kshr 1 2 3 true) ∧
    decode 0b01101111_000001_000010_000011_0_0_0000#32 = .ok (.kshr 1 2 3 false) ∧
    decode 0b01110000_000001_000010_111111111111#32 = .ok (.kaddi 1 2 0xFFF#12) ∧
    decode 0b01110001_000001_000000000000000110#32 = .ok (.kmovi 1 6) ∧
    decode 0b01110010_011111_111111111111111111#32 = .ok (.kmovhi 31 0x3FFFF#18) ∧
    decode 0b01110011_000001_000010_000011_0_0_0001#32 = .ok (.kmin 1 2 3 true) ∧
    decode 0b01110100_000001_000010_000011_0_0_0000#32 = .ok (.kmax 1 2 3 false) ∧
    decode 0b01110101_000001_000010_000011_0_0_1111#32 = .ok (.ksel 1 2 3 15) ∧
    decode 0b01110110_000010_001001_000000_0_0_0001#32 = .ok (.qpush 2 9 true) ∧
    decode 0b01110110_000011_001001_000000_0_0_0000#32 = .ok (.qpush 3 9 false) :=
  ⟨rfl, rfl, rfl, rfl, rfl, rfl, rfl, rfl, rfl, rfl, rfl, rfl, rfl, rfl, rfl, rfl, rfl⟩

/-- Words of R80 and R81, field by field. -/
theorem test_decode_scratch :
    decode 0b01111000_000010_000001_000000_0_0_0101#32 = .ok (.ld .h16 true 2 1 false) ∧
    decode 0b01111000_000011_001001_000000_0_0_0011#32 = .ok (.ld .d64 false 3 9 false) ∧
    decode 0b01111001_000000_000101_000110_0_0_0010#32 = .ok (.st .w32 5 6 false false) ∧
    decode 0b01111010_000011_001001_000000010000#32 = .ok (.ldx 3 9 16) ∧
    decode 0b01111011_000011_001001_111111111000#32 = .ok (.stx 3 9 0xFF8#12) ∧
    decode 0b01111100_000001_000010_000011_1_0_0110#32 = .ok (.atom .xchg 1 2 3 true false) ∧
    decode 0b01111101_000001_000010_000011_0_1_0000#32 = .ok (.acas 1 2 3 false true) ∧
    decode 0b01111110_000101_000110_000000000000#32 = .ok (.kld 5 6 0) ∧
    decode 0b01111111_000101_000110_000000001000#32 = .ok (.kst 5 6 8) ∧
    decode 0b10000000_100001_100010_000000_1_0_0000#32 = .ok (.tlook 33 34 true) ∧
    decode 0b10000000_000001_011111_000000_0_0_0001#32 = .ok (.tlookK 1 31) ∧
    decode 0b10000001_000001_000010_000011_0_1_0000#32 = .ok (.tset 1 2 3 false true) ∧
    decode 0b10000010_000000_001001_000000_1_0_0000#32 = .ok (.tinv 9 true) :=
  ⟨rfl, rfl, rfl, rfl, rfl, rfl, rfl, rfl, rfl, rfl, rfl, rfl, rfl⟩

/-- Words of R82, field by field. -/
theorem test_decode_sync :
    decode 0b10000100_000000_000001_000010_0_0_0000#32 = .ok (.swinit 1 2) ∧
    decode 0b10000101_000000_000001_000010_0_0_0100#32 = .ok (.swadd .pod 1 2) ∧
    decode 0b10000110_000000_000001_000010_0_0_0001#32 = .ok (.swait .team 1 2) ∧
    decode 0b10000111_00000000000000_10_11111111#32 = .ok (.waitc .enc 255) ∧
    decode 0b10001000_00000000000000000000_1111#32 = .ok (.bar 15) ∧
    decode 0b10001001_00000000000000000000_0001#32 = .ok (.bara 1) ∧
    decode 0b10001010_00000000000000000000_1000#32 = .ok (.barw 8) ∧
    decode 0b10001011_000000000000000000000000#32 = .ok (.trig) ∧
    decode 0b10001100_000000_011111_000000_0_0_0000#32 = .ok (.launch 31) ∧
    decode 0b10001101_000000000000000000000000#32 = .ok (.detep) :=
  ⟨rfl, rfl, rfl, rfl, rfl, rfl, rfl, rfl, rfl, rfl⟩

/-- Words of R83, field by field. -/
theorem test_decode_remote :
    decode 0b10010000_000000_000100_000000_0_0_0000#32 = .ok (.copy 4) ∧
    decode 0b10010001_000000_000100_000000_0_0_0000#32 = .ok (.skip 4) ∧
    decode 0b10010010_000001_000010_000000_0_0_0000#32 = .ok (.engq 1 2) ∧
    decode 0b10010011_000001_000010_000000_1_0_0000#32 = .ok (.rld 1 2 true) ∧
    decode 0b10010100_000000_000001_000010_0_1_0001#32 = .ok (.rst true 1 2 false true) ∧
    decode 0b10010100_000000_000001_000010_1_0_0000#32 = .ok (.rst false 1 2 true false) ∧
    decode 0b10010101_000011_000001_000010_0_0_0000#32 = .ok (.raadd 3 1 2 false false) ∧
    decode 0b10010101_000000_000001_000010_0_1_0001#32 = .ok (.raaddD 1 2 false true) ∧
    decode 0b10010110_000011_000001_000010_0_0_0000#32 = .ok (.rcas 3 1 2 false false) ∧
    decode 0b10010111_000011_000001_000010_1_0_0000#32 = .ok (.stmp 3 1 2 true false) ∧
    decode 0b10011000_111110_000001_000010_0_0_0000#32 = .ok (.ldat 62 1 2 false false) ∧
    decode 0b10011001_011110_000000_000000_0_0_0000#32 = .ok (.time 30) :=
  ⟨rfl, rfl, rfl, rfl, rfl, rfl, rfl, rfl, rfl, rfl, rfl, rfl⟩

/-- Words of R84, field by field. -/
theorem test_decode_matrix :
    decode 0b10100000_000111_110111_011111_1_0_1101#32 = .ok (.mma 7 55 31 true true .l64 true) ∧
    decode 0b10100000_000011_010000_000101_0_0_0010#32 = .ok (.mma 3 16 5 false false .l32 false) ∧
    decode 0b10100001_000101_000000_000000_0_0_0000#32 = .ok (.mclr 5) ∧
    decode 0b10100010_000010_000100_000000_0_0_0000#32 = .ok (.mst 2 4) ∧
    decode 0b10100011_111100_000110_011111_0_0_0000#32 = .ok (.mrd 60 6 31) ∧
    decode 0b10100100_000001_000010_000000_0_0_0000#32 = .ok (.obres 1 2) ∧
    decode 0b10100101_000000_011111_000000_0_0_0000#32 = .ok (.obrel 31) ∧
    decode 0b10100110_000000_000001_000010_0_0_0000#32 = .ok (.obld 1 2) ∧
    decode 0b10100111_001001_000111_000000_0_0_0000#32 = .ok (.mstat 9 7) :=
  ⟨rfl, rfl, rfl, rfl, rfl, rfl, rfl, rfl, rfl⟩

/-- Words that R62 and the rows of R71 to R85 refuse, and the step of R63 that each fails. -/
theorem test_decode_refused :
    decode 0#32 = .error .unallocated ∧
    decode 0xFFFFFFFF#32 = .error .unallocated ∧
    decode 0b00000001_000000000000000000000001#32 = .error .reserved ∧
    decode 0b00000011_001_0_00000000000000000000#32 = .error .reserved ∧
    decode 0b00000101_000_1_00000000000000000000#32 = .error .reserved ∧
    decode 0b00000110_000001_000000_000000_0_0_0000#32 = .error .reserved ∧
    decode 0b00000110_000000_000000_000000_0_1_0000#32 = .error .operand ∧
    decode 0b00001011_11_000000_00000000_00000000#32 = .error .reserved ∧
    decode 0b00001011_00_100000_00000000_00000000#32 = .error .operand ∧
    decode 0b00001101_000000000000000000000000#32 = .error .reserved ∧
    decode 0b00001110_000000_000000_111_000000000#32 = .error .reserved ∧
    decode 0b00001110_000001_000000_110_000000000#32 = .error .reserved ∧
    decode 0b00010000_000000_100000_000000_0_0_0000#32 = .error .operand ∧
    decode 0b00010011_000000_000000_111111111111#32 = .error .reserved ∧
    decode 0b00010011_100000_000000_000000000011#32 = .error .operand ∧
    decode 0b00010110_000000000000000000000000#32 = .error .reserved ∧
    decode 0b00010111_000100_000010_00_0000_0001_0_1#32 = .error .reserved ∧
    decode 0b00100000_000001_000010_000011_0_0_0001#32 = .error .reserved ∧
    decode 0b00101000_000001_000010_000011_0_0_0000#32 = .error .reserved ∧
    decode 0b00101000_000001_000010_000000_0_1_0000#32 = .error .operand ∧
    decode 0b00110001_000001_000010_000000_0_0_0100#32 = .error .reserved ∧
    decode 0b00111000_001000_000010_000011_0_0_0000#32 = .error .reserved ∧
    decode 0b00111000_000000_000010_000011_0_0_0110#32 = .error .reserved ∧
    decode 0b01000101_000001_000010_000001000000#32 = .error .reserved ∧
    decode 0b01000111_110000_000010_000000000000#32 = .error .reserved ∧
    decode 0b01011000_000001_000010_000000_0_0_1110#32 = .error .reserved ∧
    decode 0b01011011_111000_000000_000000_0_0_0000#32 = .error .operand ∧
    decode 0b01100001_000001_000010_100000_0_0_0000#32 = .error .reserved ∧
    decode 0b01100010_000001_000010_000110_0_0_0000#32 = .error .reserved ∧
    decode 0b01100100_000001_000010_000011_0_0_0000#32 = .error .reserved ∧
    decode 0b01101000_000001_000010_000011_1_0_0000#32 = .error .operand ∧
    decode 0b01110110_000100_000001_000000_0_0_0000#32 = .error .reserved ∧
    decode 0b01111000_000001_000010_000000_0_0_0111#32 = .error .reserved ∧
    decode 0b01111100_000001_000010_000011_0_0_0111#32 = .error .reserved ∧
    decode 0b10000101_000000_000001_000010_0_0_0101#32 = .error .reserved ∧
    decode 0b10000111_00000000000000_11_00000000#32 = .error .reserved ∧
    decode 0b10010101_000011_000001_000010_0_0_0001#32 = .error .reserved ∧
    decode 0b10011000_000011_000001_000010_0_0_0000#32 = .error .reserved ∧
    decode 0b10100000_000000_000000_000000_0_0_0110#32 = .error .reserved ∧
    decode 0b10100000_001000_000000_000000_0_0_0000#32 = .error .reserved ∧
    decode 0b10100000_000000_111000_000000_0_0_0000#32 = .error .reserved ∧
    decode 0b10100011_000001_001000_000000_0_0_0000#32 = .error .reserved :=
  ⟨rfl, rfl, rfl, rfl, rfl, rfl, rfl, rfl, rfl, rfl, rfl, rfl, rfl, rfl, rfl, rfl, rfl, rfl, rfl, rfl, rfl, rfl, rfl, rfl, rfl, rfl, rfl, rfl, rfl, rfl, rfl, rfl, rfl, rfl, rfl, rfl, rfl, rfl, rfl, rfl, rfl, rfl⟩

/-! ### Ill-formed terms, one for each check -/

theorem test_illformed_words : ∀ i ∈ [Instr.loop 3 0 1, .regang 0, .kbr 1 0 .always 0, .kbr 0 1 .always 0, .csrr 32 3, .csrr 0 0x014, .csrw 32 0x30, .instar 0,
    .qnt .l16 56 0 0 false false, .qnt .l16 0 57 0 false false, .qnt .l16 0 0 57 false false, .ld .d64 true 0 0 false, .ldat 1 0 0 false false, .time 1,
    .mma 0 56 0 false false .l16 false], i.wellFormed = false := by decide
theorem test_illformed_events : ∀ i ∈ [Instr.mmaResultWrite 192, .obldFillEnd 192 0, .obldFillEnd 0 64, .promotion 192 0, .promotion 0 4, .rotation 192 0, .rotation 0 4,
    .watchdogExpiry 0 17 0, .watchdogExpiry 0 0 8, .trapRingSpace 16 0, .logRecordWrite 0 16, .remoteLanding 0 32 none, .remoteAcknowledgement 0 32 none,
    .ldatReaderWaitEnd 0 32, .frontEndEntry 16 0 (List.replicate 8 0) [], .frontEndEntry 0 8 (List.replicate 8 0) [], .frontEndEntry 0 0 [] [], .dispatchTeam 16,
    .thermalMigration 192 { temp := 0, coolest := [], area := 0 }, .thermalMigration 0 { temp := 0, coolest := [192], area := 0 }], i.wellFormed = false := by decide
theorem test_illformed_commands : ∀ i ∈ [Instr.create (List.replicate 15 0) [], .destroy 16, .usage 16, .periodicUsageRecord 16, .invalidate 16 0 0 [], .wopen 128 0 0 0 0 true true,
    .grant 16 0 0 0, .ungrant 16 0 0, .wrevoke 128, .wrevokeDrainEnd 128, .attest 0 [], .setrings 16 0 0 0 0, .pageZeroing 16 0, .zeroingComplete 16 0, .pageIn 16 0,
    .restore 0 192 0, .resume 0 17 0, .resume 0 0 8, .kernelSkip 0 17 0, .kernelSkip 0 0 8, .dieOvertempThrottle 4, .dieOvertempTrip 4, .fabricPortDisable 32,
    .linkRetrain 4, .coreBackBelowLimit { core := 192, temp := 0 }, .thermalLimitSet 192 0, .usageRingSpace 16 0], i.wellFormed = false := by decide
theorem test_illformed_items : ∀ it ∈ [CtxItem.vreg 16 0 0, .vreg 0 32 0, .vreg 0 0 64, .pred 16 0 1, .pred 0 32 1, .pred 0 0 0, .pred 0 0 8, .bracket 16 0 0, .bracket 0 32 0,
    .bracket 0 0 4, .invst 16 0, .invst 0 32, .kreg 17 0, .kreg 0 32, .lcount 16 0, .lcount 0 3, .gmode 16, .pc 17 0, .pc 0 8, .masks 16 0, .masks 0 8, .rc 16 0, .recStack 16 0,
    .retStack 16 0, .levels 16, .counter 17 .olc, .watchdog 17, .window 3145728, .record 64, .bank 8 0, .bank 0 4096, .tagWay 256 0, .tagWay 0 4, .queue 4],
    it.wellFormed = false ∧ (Instr.contextStateRead 0 it).wellFormed = false := by decide

/-! ### Values that the manual works out -/

/-- The modes of GMODE 0 with RM as given. -/
def rm (n : BitVec 2) : Modes := { rm := n, sat := false, ftz := false }
/-- "Worked encodings" and the note on decoding after it. -/
theorem test_worked_words :
    decode 0x42081001#32 = .ok (.andi 2 1 1) ∧ decode 0x38042000#32 = .ok (.cmp .eq 1 2 0 false false) ∧ decode 0x05000004#32 = .ok (.rcv 4) ∧
    decode 0x04200002#32 = .ok (.brc 1 false 2) ∧ decode 0x20080050#32 = .ok (.add 2 0 1 false true) ∧ decode 0x0B02000B#32 = .ok (.loop 0 2 11) ∧
    decode 0x17105004#32 = .ok (.inv 4 5 0 0 1 false) ∧ decode 0xA00D014A#32 = .ok (.mma 3 16 5 false true .l32 false) ∧
    decode 0x38042006#32 = .error .reserved ∧ decode 0x381C2000#32 = .ok (.cmp .eq 7 2 0 false false) ∧ decode 0x0E000C00#32 = .ok (.kbr 0 0 .always 0) ∧
    decode 0x0E040C00#32 = .error .reserved :=
  ⟨rfl, rfl, rfl, rfl, rfl, rfl, rfl, rfl, rfl, rfl, rfl, rfl⟩
/-- Words of R156, R275 and R305 and of the worked programs. -/
theorem test_listed_words :
    decode 0xA2084000#32 = .ok (.mst 2 4) ∧ decode 0x780C9003#32 = .ok (.ld .d64 false 3 9 false) ∧ decode 0x78081005#32 = .ok (.ld .h16 true 2 1 false) ∧
    decode 0x79005182#32 = .ok (.st .w32 5 6 false false) ∧ decode 0x7A0C9010#32 = .ok (.ldx 3 9 16) ∧ decode 0x7B0C9FF8#32 = .ok (.stx 3 9 0xFF8) ∧
    decode 0x930C8000#32 = .ok (.rld 3 8 false) ∧ decode 0x94008040#32 = .ok (.rst false 8 1 false false) ∧ decode 0x9400A041#32 = .ok (.rst true 10 1 false false) ∧
    decode 0x950C8040#32 = .ok (.raadd 3 8 1 false false) ∧ decode 0x95008041#32 = .ok (.raaddD 8 1 false false) ∧ decode 0x96108140#32 = .ok (.rcas 4 8 5 false false) ∧
    decode 0x0E15F22D#32 = .ok (.kbr 5 31 .ne 45) ∧ decode 0x86011401#32 = .ok (.swait .team 17 16) ∧ decode 0x90017000#32 = .ok (.copy 23) ∧
    decode 0x87000200#32 = .ok (.waitc .enc 0) ∧ decode 0x0E2195D3#32 = .ok (.kbr 8 25 .lt (-45)) ∧ decode 0x97088240#32 = .ok (.stmp 2 8 9 false false) ∧
    decode 0x98108240#32 = .ok (.ldat 4 8 9 false false) ∧ decode 0x66142000#32 = .ok (.lanek 5 2 0 false) :=
  ⟨rfl, rfl, rfl, rfl, rfl, rfl, rfl, rfl, rfl, rfl, rfl, rfl, rfl, rfl, rfl, rfl, rfl, rfl, rfl, rfl⟩
/-- The table of R94: 1.0, −2.5, 448 and 2⁻⁹ in every format. -/
theorem test_float_patterns :
    ∀ x ∈ [(ElemType.f32, 0x3F800000, 0xC0200000, 0x43E00000, 0x3B000000), (.f16, 0x3C00, 0xC100, 0x5F00, 0x1800), (.bf16, 0x3F80, 0xC020, 0x43E0, 0x3B00),
      (.e4m3, 0x38, 0xC2, 0x7E, 0x01), (.e5m2, 0x3C, 0xC1, 0x5F, 0x18)],
      (floatToFloat .f64 x.1 (rm 0) 0x3FF0000000000000).1 = x.2.1 ∧ (floatToFloat .f64 x.1 (rm 0) 0xC004000000000000).1 = x.2.2.1 ∧
      (floatToFloat .f64 x.1 (rm 0) 0x407C000000000000).1 = x.2.2.2.1 ∧ (floatToFloat .f64 x.1 (rm 0) 0x3F60000000000000).1 = x.2.2.2.2 := by decide
/-- R101's NaN, narrowed and widened. -/
theorem test_nan_converted :
    floatToFloat .f32 .f16 (rm 0) 0x7F800001 = (0x7E00, cInvalid) ∧ (floatToFloat .f32 .f64 (rm 0) 0x7F800001).1 = 0x7FF8000020000000 := by decide
/-- R102's −2.5, 300.0 and −0.5. -/
theorem test_float_to_int :
    floatToInt .f32 .i8 (rm 0) 0xC0200000 = (0xFE, cInexact) ∧ floatToInt .f32 .i8 (rm 2) 0xC0200000 = (0xFD, cInexact) ∧
    floatToInt .f32 .i8 (rm 0) 0x43960000 = (127, cInvalid) ∧ (∀ r ∈ [0#2, 1, 3], (floatToInt .f32 .n8 (rm r) 0xBF000000).1 = 0) ∧
    floatToInt .f32 .n8 (rm 2) 0xBF000000 = (0, cInvalid) := by decide
/-- R103's N32, with SAT and without. -/
theorem test_int_to_int :
    convert .n32 .i32 { rm 0 with sat := true } 0xFFFFFFFF = (0x7FFFFFFF, cOverflow) ∧ convert .n32 .i32 (rm 0) 0xFFFFFFFF = (0xFFFFFFFF, cOverflow) := by decide
/-- R104's Ord. -/
theorem test_ord : ord .f32 0x3F800000 = 1065353216 ∧ ord .f32 0xBF800000 = -1065353217 ∧ ordInv .f32 (-1) = 0x80000000 ∧ ordInv .f32 0 = 0 := by decide
/-- R121's BFX under N16. -/
theorem test_bfx : (opBfx .n16 (rm 0) 0xABCD 0x00C4).1 = 0x0ABC := by decide
/-- The worked element of "The matrix engine": S of the first two segments, the roundings of the bank, and the trits of 0x94 and 0x5E. -/
theorem test_worked_element :
    tritsOf 0x94#8 = [0, 0, 0, 1, 0] ∧ tritsOf 0x5E#8 = [0, 0, 0, -1, 0] ∧
    segmentSum [[0, 0, 0, 1], [0, 0, 0, -1], [0, 0, 0, -1]] [0, 0, 0, 100] = 500 ∧ segmentSum [[-1], [-1], [-1]] [-7] = 91 ∧
    (({ val := 0x4B800000 } : Elem).segment 500 0x7F 0x7D).val = 0x4B80003E ∧ (({ val := 0x4B80003E } : Elem).segment 91 0x7F 0x7F).val = 0x4B80006C ∧
    (({ val := 0x4B80006C } : Elem).segment 13 0x7E 0x80).val = 0x4B800072 := by decide
/-- No MMA writes −0: a sum that underflows to zero from below leaves +0 (R146). -/
theorem test_no_minus_zero : (({ val := 0 } : Elem).segment (-1) 0 0).val = 0 := by decide
/-- KBCAST is outside the sidecar's subset, the uniform words and QPUSH are in it (R30). -/
theorem test_sidecar_subset : sidecarOpcode 0x67000000#32 = false ∧ sidecarOpcode 0x68000000#32 = true ∧ sidecarOpcode 0x76000000#32 = true := by decide
/-- R23's engine addresses. -/
theorem test_engine_addresses :
    (loaded .nop).engAddr 0x8940000000012000#64 = .local_ 37 false 0x12000 ∧ (loaded .nop).engAddr 0xC027100C00000040#64 = .pod 5000 3 0x40 := by decide
/-- The page walk after R348: the three indices, and the frame of the leaf. -/
theorem test_page_walk :
    vaL1 0x7A3C4E2F1D80 = 0x7A3 ∧ vaL2 0x7A3C4E2F1D80 = 0x627 ∧ vaL3 0x7A3C4E2F1D80 = 0x02F ∧
    ((leafOf 0x9800001234500000#64 0 false false).map (fun l => (l.tier, l.r, l.w, l.phys 0x7A3C4E2F1D80))) = some (.hbm, true, true, 0x1234501D80) := by decide
/-- The oscillator of R391: 450 days. -/
theorem test_eol : field ((loaded .nop).healthBytes { monitor := 1, unit := 0, value := 1200, limit := 3000, change30 := 120, uncorrectable := 0 }) 12 2 = 450 := by decide

/-! ### Steps -/

/-- Register `r` of lane 5 after a word. -/
def lane5 (i : Instr) (f : Gang → Gang) (r : VNum) : Word := (((after i (withGang i f)).gang 0 0).lane 5).vreg r |>.val
/-- Two vector registers of every lane, and GMODE. -/
def v12 (gm : Half) (a b : Word) (g : Gang) : Gang :=
  { g.modLanes 0xFFFFFFFF#32 (fun _ x => (x.setV 1 { val := a }).setV 2 { val := b }) with gmode := gm }
/-- The record of a trap that a word takes. -/
def trapOf (i : Instr) (f : Gang → Gang) : List Byte := (((after i (withGang i f)).part 0).held.map (·.bytes)).flatten
/-- ADD of I32 wraps in each of the two sub-elements (R90, R113). -/
theorem test_add_wraps : lane5 (.add 3 1 2 false false) (v12 4 0x7FFFFFFF00000001 0x00000001FFFFFFFF) 3 = 0x8000000000000000#64 := by decide
/-- The same with the destination a source. -/
theorem test_sub_own_source : lane5 (.sub 1 2 1 false false) (v12 4 0x0000000500000007 0x0000000300000009) 1 = 0xFFFFFFFE00000002#64 := by decide
/-- BFX of R121 by a step, under N16. -/
theorem test_bfx_step : lane5 (.bfx 3 1 2 false false) (v12 3 0xABCD 0x00C4) 3 = 0x0ABC#64 := by decide
/-- ANDI under E4M3 passes steps 1 to 3 and traps with ILLEGAL_MODE at step 4. -/
theorem test_andi_e4m3 : (trapOf (.andi 2 1 1) (fun g => { g with gmode := 0xC })).take 4 = [0, 0x02, 0, 0xFF] := by decide
/-- A reader of lanes 5 and 9 of a poisoned register reports mask 0x220 and the producer's address (R307). -/
theorem test_poison_record :
    (let b := trapOf (.add 4 3 2 false false) (fun g => g.modLanes 0x220#32 (fun _ x => x.setV 3 { poison := true, ppc := 0x1000 }))
     (b.drop 1).take 1 = [0x06] ∧ field b 24 4 = 0x220 ∧ field b 40 8 = 0x1000) := by decide
/-- Line 8 of the publishing program: KSHL makes the pod form. -/
theorem test_kshl : ((after (.kshl 2 2 3) (withGang (.kshl 2 2 3) (fun g => { g with k := [0, 0, 0xC00, 52] }))).gang 0 0).kreg 2 = 0xC000000000000000#64 := by decide
/-- KADDI of its line 13. -/
theorem test_kaddi : ((after (.kaddi 2 2 0x40) (withGang (.kaddi 2 2 0x40) (fun g => { g with k := [0, 0, 0xC000080400000000] }))).gang 0 0).kreg 2 = 0xC000080400000040#64 := by decide
/-- TRAP 0x40: SOFT_TRAP, with the code in DETAIL (R374). -/
theorem test_trap_code : (let b := trapOf (.trap 0x40) id; (b.drop 1).take 1 = [0x15] ∧ field b 48 8 = 0x40 ∧ field b 24 4 = 0xFFFFFFFF) := by decide
/-- LD.H.S extends the sign of 0x8001 at 6 of the window (R276). -/
theorem test_ld_sign : (let i : Instr := .ld .h16 true 2 1 false
    let s := (withGang i (v12 0 6 0)).spadWrite (placeOf (loaded i) unit0 6) [0x01, 0x80]
    (((after i s).gang 0 0).lane 5).vreg 2).val = 0xFFFFFFFFFFFF8001#64 := by decide
/-- ST.W writes the low four bytes, the least significant first, and nothing after them. -/
theorem test_st_bytes : (let i : Instr := .st .w32 1 2 false false
    memRead (after i (withGang i (v12 0 8 0xAABBCCDD11223344))).spad (placeOf (loaded i) unit0 7) 6 = [0, 0x44, 0x33, 0x22, 0x11, 0]) := by decide
/-- LD at an address that is no multiple of its width: MISALIGNED, in every lane (R275). -/
theorem test_ld_misaligned : (let b := trapOf (.ld .d64 false 3 1 false) (v12 0 4 0); (b.drop 1).take 1 = [0x04] ∧ field b 24 4 = 0xFFFFFFFF) := by decide
/-- EXIT in a slice with an empty stack: all lanes exit (R227). -/
theorem test_exit : (upTo 8).all (fun j => decide (((after .exit (loaded .exit)).gang 0 0).slice j = { ((loaded .exit).gang 0 0).slice j with x := 15 })) = true := by decide
/-- RCV at 0x14 with off20 4 names 0x28 (R224); BRC at 0x18 with off20 2 goes to 0x24 where p1 is 1 in every lane. -/
theorem test_brc_taken : (let i : Instr := .brc 1 false 2
    (((after i (withGang i (fun g => (g.modLanes 0xFFFFFFFF#32 (fun _ x => x.setP 1 true)).modSlices 0xFF#8 (fun _ x => { x with pc := 0x18 })))).gang 0 0).slice 3).pc) = 0x24#64 := by decide

/-! ### Hypotheses that are met -/

/-! ### States and operands that meet the hypotheses of the obligations -/

/-- A word of a family of rows issues from the state loaded with it. -/
theorem issues_loaded {i : Instr} {f : Form} (h : canIssue i f unit0 (loaded i) = true) :
    ∃ s u vals s1 popped, GangIssues i f u s vals s1 popped := by
  obtain ⟨v, t, p, hi⟩ := issues_of h (by decide)
  exact ⟨_, _, v, t, p, hi⟩
/-- The same from the state with the gang changed. -/
theorem issues_with {i : Instr} {f : Form} (g : Gang → Gang) (h : canIssue i f unit0 (withGang i g) = true) :
    ∃ vals s1 popped, GangIssues i f unit0 (withGang i g) vals s1 popped := issues_of h (by decide)
/-- A sidecar's word issues. -/
theorem issues_side {i : Instr} {f : Form} (k : List Word) (h : canIssue i f unit16 (withSide i k) = true) :
    SidecarIssues i f unit16 (withSide i k) := side_issues_of h rfl

theorem witness_DecodeEncode : (Instr.jmpi 63 true).wellFormed = true ∧ encode (.jmpi 63 true) = some 0x0603F020#32 := by decide
theorem witness_EncodeDecode : decode 0x0603F020#32 = .ok (.jmpi 63 true) := rfl

/-- Comparator 1 is enabled at address 0. -/
def withComparator (g : Gang) : Gang := { g with dbpc := [0, 1] }
theorem witness_IllegalWords : (opOf 0x18000000#32).toNat = 0x18 ∧ (opOf 0xFF000000#32).toNat = 0xFF ∧
    (loaded .nop).issuer = some unit0 ∧ (loaded .nop).issuable unit0 = true ∧
    comparatorStop ((loaded .nop).gang 0 0) 0xFF#8 (pcAt (loaded .nop) unit0) 0 = none ∧
    (match comparatorStop ((withGang .nop withComparator).gang 0 0) 0xFF#8 (pcAt (withGang .nop withComparator) unit0) 0 with
      | some (.trap x) => decide (x.cause = .breakpoint)
      | _ => false) = true ∧
    decode 0x10020000#32 = .error .operand ∧ (loaded .nop).barsOpcode unit0 0x10020000#32 = false ∧ decode 0x18000000#32 = .error .unallocated :=
  ⟨by decide, by decide, by decide, by decide, by decide, by decide, rfl, by decide, rfl⟩

/-- A step of an instruction gives a next state. -/
def goesOn (i : Instr) (s : State) : Bool := match exec i s with | .next _ => true | _ => false
theorem next_of {i : Instr} {s : State} (h : goesOn i s = true) : ∃ t, exec i s = .next t := by
  unfold goesOn at h
  cases he : exec i s with
  | next t => exact ⟨t, rfl⟩
  | fault f => rw [he] at h; cases h
  | refused r => rw [he] at h; cases h
/-- A unit that is in no run of an INV fetches the word of an instruction. -/
def fetches (i : Instr) (s : State) (u : Issuer) : Bool :=
  !(u.gang ≠ 16 && ((s.gang u.team u.gang).runAt u.slices).isSome) && s.fetch (s.team u.team).part (s.unitPc u) = .word ((encode i).getD 0#32)
/-- The word of the pairs. -/
def addWord : Instr := .add 3 1 2 false false
/-- Gangs 0 and 4 of a team at one word, with slices at other positions. -/
def abreast : State := (loaded addWord).modTeam 0 (fun t =>
  { t with ngang := 5, gangs := [{ slices := (upTo 8).map (fun i => if i < 4 then {} else { x := 15, m := 0 }), active := some 0 }, {}, {}, {},
                                 { slices := (upTo 8).map (fun i => if i < 4 then { x := 15, m := 0 } else {}), active := some 1, slot := 1 }] })
/-- The unit of gang 0, and that of gang 4. -/
def low0 : Issuer := ⟨0, 0, 0x0F#8, false⟩
def high4 : Issuer := ⟨0, 4, 0xF0#8, false⟩
/-- What the issue policy leaves in both. -/
def served0 (s : State) : State := { s with turn := 1, cores := [{ lastSlot := [1] }], beat := 1 }
theorem witness_StepRunsDecodedWord_one :
    takeAgenda ((loaded .nop).phase = .restarting) (loaded .nop).agenda = none ∧ (loaded .nop).phase = .running ∧ (loaded .nop).pair = none ∧
      (loaded .nop).beat % 2 = 0 ∧ (loaded .nop).pickUnit = some (unit0, { loaded .nop with turn := 1, cores := [{ lastSlot := [1] }] }) ∧
      fetches .nop (served0 (loaded .nop)) unit0 = true ∧ pairable .nop = false ∧
      goesOn .nop (({ served0 (loaded .nop) with issuer := some unit0 } : State).noteFetch 0 0) = true := by decide
theorem witness_StepRunsDecodedWord_pair :
    abreast.pickUnit = some (low0, { abreast with turn := 1, cores := [{ lastSlot := [1] }] }) ∧ fetches addWord (served0 abreast) low0 = true ∧
      pairable addWord = true ∧ (served0 abreast).partner low0 = some high4 ∧ fetches addWord ((served0 abreast).pairUp low0 addWord).2 low0 = true ∧
      goesOn addWord (({ ((served0 abreast).pairUp low0 addWord).2 with issuer := some low0 } : State).noteFetch 0 0) = true := by decide
theorem witness_StepRunsDecodedWord_second :
    abreast.clocked = true ∧ fetches addWord { abreast with pair := none } { high4 with second := true } = true ∧
      goesOn addWord (({ abreast with pair := none, issuer := some { high4 with second := true } } : State).noteFetch 0 0) = true := by decide
theorem witness_StepRunsDecodedWord_agenda :
    (takeAgenda ((loaded .nop).phase = .restarting) [.powerCap, .nop] = some (.powerCap, [.nop]) ∧
      goesOn .powerCap { loaded .nop with agenda := [.nop] } = true) ∧
    (match State.walk (loaded .nop) 0 0 with
      | .leaf l => l.grants true false && !l.s && !l.z && !(loaded .nop).physBad (l.tier = .far) (l.phys 0) 4
      | _ => false) = true := by decide

theorem witness_StepKeepsMemories : MemoriesWf State.reset ∧ ∃ t, step State.reset = .next t := ⟨by unfold MemoriesWf; decide, _, rfl⟩

/-- A word with a row of a table issues, from the state with the gang changed. -/
def Meets1 (i : Instr) (f : Form) (g : Gang → Gang) : Prop := ∃ vals s1 popped, GangIssues i f unit0 (withGang i g) vals s1 popped
/-- The gang of that state. -/
def gangOf (i : Instr) (g : Gang → Gang) : Gang := (withGang i g).gang 0 0

theorem witness_ArithmeticWords : ∃ sp, arithmeticSpec (.add 1 2 3 false true) = some sp ∧ Meets1 (.add 1 2 3 false true) sp.form id :=
  ⟨_, rfl, issues_with _ (by decide)⟩
theorem witness_ImmediateWords : ∃ sp, immediateSpec (.addi 1 2 6) = some sp ∧ Meets1 (.addi 1 2 6) sp.form id := ⟨_, rfl, issues_with _ (by decide)⟩
theorem witness_FunctionWords : ∃ sp, functionSpec (.rcp 1 2 false) = some sp ∧ Meets1 (.rcp 1 2 false) sp.form (fun g => { g with gmode := 10 }) :=
  ⟨_, rfl, issues_with _ (by decide)⟩
theorem witness_MoveWords : ∃ sp, moveSpec (.sel 1 2 3 false false true 1) = some sp ∧ Meets1 (.sel 1 2 3 false false true 1) sp.form id :=
  ⟨_, rfl, issues_with _ (by decide)⟩
theorem witness_PredicateWords : ∃ sp, predSpec (.cmpi .ge 0 2 6) = some sp ∧ Meets1 (.cmpi .ge 0 2 6) { srcs := sp.srcs, mode := sp.mode } id :=
  ⟨_, rfl, issues_with _ (by decide)⟩
theorem witness_QuantWord : Meets1 (.qnt .l64 55 0 8 false false)
    { srcs := (regRange 0 8).map (fun r => ⟨r, false⟩) ++ (regRange 8 8).map (fun r => ⟨r, false⟩), dsts := regRange 55 9,
      mode := readsEt (fun t => t = .f16 || t = .bf16) } (fun g => { g with gmode := 8 }) := issues_with _ (by decide)
theorem witness_ReadyWordIssues : Ready { srcs := [⟨2, false⟩], dsts := [1] } unit0 (loaded (.mov 1 2 false)) where
  issuer := rfl
  issuable := by decide
  isGang := by decide
  executes := rfl
  noBody := by decide
  noComparator := by decide
  noLevelEnd := by decide
  noQmap := by decide
  exist := by decide
  team := rfl
  mode := rfl
  kGood := by decide
  free := by decide
  full := by decide
/-- A level whose body is the words at 0 to 8. -/
def level0 : LoopLevel := { lc := 0, start := 0, stop := 8, depth := 0, rdepth := (upTo 8).map (fun _ => 0) }
/-- That level is open. -/
def inLoop (g : Gang) : Gang := { g with levels := [level0], lc := [2] }
/-- One lane of slice 0 is not active. -/
def parted (g : Gang) : Gang := g.modSlices 1#8 (fun _ x => { x with m := 7 })

/-- An MMA of the tests, due. -/
def mma0 : MmaOp :=
  { bank := 3, gang := 0, pc := 0, rows := 1, clear := true, a := [], la := 16, lb := 16, planes := 1, areg := 16, record := 0, weights := [],
    scales := [], woff := 0, soff := [], gmode := 0, passEnd := 0, writeAt := 0, frozen := false }
/-- A form of the checks on words of rows, from its state: the unit may issue, and the word's form is in the tables. -/
def stopping (i : Instr) (s : State) : Bool := (rowForm i).isSome && s.issuer = some unit0 && s.issuable unit0
/-- The same, with every check before the operands passed. -/
def reading (i : Instr) (s : State) : Bool :=
  stopping i s && (match rowForm i with | some f => (preStop i f unit0 s).isNone | none => false)
/-- v1 of lane 5 changed. -/
def v1At5 (f : VReg → VReg) (g : Gang) : Gang := g.modLanes 0x20#32 (fun _ x => x.setV 1 (f (x.vreg 1)))
/-- A sidecar's queue 3 holds the entries given, with QMAP on. -/
def queued3 (i : Instr) (es : List (List Word)) : State :=
  (withGang i (fun g => { g with gmode := 0x1000 })).modTeam 0 (fun t => { t with side := { t.side with present := true }, queues := rowPut {} t.queues 3 { entries := es } })
theorem witness_ReadyWordIssues_checks :
    stopping addWord (withGang addWord withComparator) = true ∧ ((gangOf addWord withComparator).comparator 1).getLsbD 0 = true ∧
    stopping addWord ((loaded addWord).modTeam 0 (fun t => { t with vregs := 16 })) = true ∧
    (let i : Instr := .add 16 1 2 false false
     stopping i ((loaded i).modTeam 0 (fun t => { t with vregs := 16 })) = true) ∧
    stopping addWord (withGang addWord (fun g => { g with gmode := 0xC })) = true ∧
    (rowForm addWord).map (fun f => f.mode 0xC) = some false ∧ (rowForm addWord).map (fun f => f.mode 0) = some true ∧
    (let i : Instr := .add 3 1 63 false false
     let s := withGang i (fun g => { g with gmode := 0x1000 })
     stopping i s = true ∧ isQueue (s.gang 0 0).gmode 63 = true ∧ (s.team 0).side.present = false ∧ (s.gang 0 0).instar.body = none) ∧
    (let f := fun g => parted { inLoop g with levels := [{ level0 with stop := 0 }] }
     stopping addWord (withGang addWord f) = true ∧ (gangOf addWord f).loopEnd 0xFF#8 0 = some { level0 with stop := 0 }) := by decide
theorem witness_ReadyWordIssues_reads :
    (∀ f ∈ [fun g => g.modLanes 0x20#32 (fun _ x => x.setV 3 { full := false, owed := some 0 }), v1At5 (fun _ => { full := false }),
        v1At5 (fun _ => { full := false, owed := some 0 }), v1At5 (fun _ => { bad := true }), v1At5 (fun _ => { poison := true, pcode := 5 }),
        v1At5 (fun _ => { poison := true, ppc := 64 })], reading addWord (withGang addWord f) = true) ∧
    reading (.add 3 1 2 true false) (withGang (.add 3 1 2 true false) (v1At5 (fun _ => { full := false }))) = true ∧
    (let s := (loaded addWord).modTeam 0 (fun t => { t with mmas := [{ mma0 with areg := 3, passEnd := 4, writeAt := 24 }] })
     reading addWord s = true ∧ (s.team 0).mmaReads 0 s.cycle 3 = true) ∧
    (let i : Instr := .add 3 1 63 false false
     reading i (queued3 i []) = true ∧ (((queued3 i []).team 0).queue 3).entries.length = 0 ∧ reading i (queued3 i [[7]]) = true) ∧
    (let i : Instr := .add 3 63 63 false false
     ∀ f, rowForm i = some f → canIssue i f unit0 (queued3 i [[7], [9]]) = true) := by
  refine ⟨by decide, by decide, by decide, by decide, ?_⟩
  intro i f h
  cases h
  decide
theorem witness_UniformWords : ∃ sp, uniformSpec (.kadd 1 2 3) = some sp ∧ Meets1 (.kadd 1 2 3) { ks := sp.ks, sidecar := true } (fun g => { g with gmode := 14 }) :=
  ⟨_, rfl, issues_with _ (by decide)⟩
theorem witness_SidecarUniformWords : ∃ sp, uniformSpec (.kmovi 31 6) = some sp ∧
    SidecarIssues (.kmovi 31 6) { ks := sp.ks, sidecar := true } unit16 (withSide (.kmovi 31 6) []) := ⟨_, rfl, issues_side _ (by decide)⟩
theorem witness_NopWord : Meets1 .nop { sidecar := true } id ∧ SidecarIssues .nop { sidecar := true } unit16 (withSide .nop []) :=
  ⟨issues_with _ (by decide), issues_side _ (by decide)⟩
theorem witness_RcvWord : Meets1 (.rcv 7) {} id ∧ (gangOf (.rcv 7) id).instar.body = none ∧
    (gangOf (.rcv 7) id).loopEnd 0xFF#8 ((gangOf (.rcv 7) id).pcOf 0xFF#8) = none := ⟨issues_with _ (by decide), by decide, by decide⟩

theorem witness_DirectTransfers :
    Meets1 (.bra 8) { jumps := true } inLoop ∧ (gangOf (.bra 8) inLoop).mayLeave 0xFF#8 = true ∧
    Meets1 (.bra 8) { jumps := true } (fun g => parted (inLoop g)) ∧ (gangOf (.bra 8) (fun g => parted (inLoop g))).mayLeave 0xFF#8 = false ∧
    (gangOf (.bra 8) inLoop).levels.any (fun x => x.depth = (gangOf (.bra 8) inLoop).retDepth 0xFF#8 && !(x.start.toNat ≤ 36 && 36 ≤ x.stop.toNat)) = true ∧
    Meets1 (.kbr 1 2 .lt 0x1FF) { ks := [1, 2], jumps := true, sidecar := true } id := by
  refine ⟨issues_with _ (by decide), by decide, issues_with _ (by decide), by decide, by decide, issues_with _ (by decide)⟩
theorem witness_SidecarBranch : SidecarIssues (.kbr 1 2 .always 0x100) { ks := [], jumps := true, sidecar := true } unit16 (withSide (.kbr 1 2 .always 0x100) []) :=
  issues_side _ (by decide)
theorem witness_BrcWord :
    Meets1 (.brc 0 false 8) { jumps := true } inLoop ∧ (gangOf (.brc 0 false 8) inLoop).mayLeave 0xFF#8 = true ∧
    (upTo 8).all (fun i => takenLanes (gangOf (.brc 0 false 8) inLoop) i 0 false = ((gangOf (.brc 0 false 8) inLoop).slice i).m) = true ∧
    Meets1 (.brc 1 true 8) { jumps := true } (fun g => parted (inLoop g)) ∧ (gangOf (.brc 1 true 8) (fun g => parted (inLoop g))).mayLeave 0xFF#8 = false := by
  refine ⟨issues_with _ (by decide), by decide, by decide, issues_with _ (by decide), by decide⟩

/-- Every slice has called once. -/
def called (g : Gang) : Gang := g.modSlices 0xFF#8 (fun _ x => { x with ret := [⟨64, 0⟩] })
/-- Every slice has called sixteen times. -/
def callFull (g : Gang) : Gang := g.modSlices 0xFF#8 (fun _ x => { x with ret := (upTo 16).map (fun _ => ⟨64, 0⟩) })
/-- Slice 0 returns at another depth than it called at. -/
def callOff (g : Gang) : Gang := (called g).modSlices 1#8 (fun _ x => { x with ret := [⟨64, 1⟩] })
/-- Every lane holds 256 in v1, but for lane 31, which holds `w`. -/
def targets (w : Word) (g : Gang) : Gang :=
  g.modLanes 0xFFFFFFFF#32 (fun l x => x.setV 1 { val := if l = 31 then w else 256#64 })
/-- The values of a word's sources. -/
def valsOf (f : Form) (s : State) : List (List Word) := match operandsOf f unit0 s with | .ok x => x.1 | .error _ => []

theorem witness_CallWords :
    Meets1 (.call 8) { jumps := true } id ∧ (∀ j, j < 8 → ((gangOf (.call 8) id).slice j).ret.length < 16) ∧
    Meets1 (.call 8) { jumps := true } callFull ∧ 16 ≤ ((gangOf (.call 8) callFull).slice 7).ret.length ∧
    Meets1 (.calli 1 false) { srcs := [⟨1, false⟩], allActive := true, jumps := true } (targets 256) ∧
    Agreed (withGang (.calli 1 false) (targets 256)) unit0 (valsOf { srcs := [⟨1, false⟩], allActive := true, jumps := true } (withGang (.calli 1 false) (targets 256))) 256 := by
  refine ⟨issues_with _ (by decide), by decide, issues_with _ (by decide), by decide, issues_with _ (by decide), ?_⟩
  unfold Agreed
  decide
theorem witness_ReturnWords :
    Meets1 .ret { jumps := true } id ∧ ((gangOf .ret id).slice 0).ret = [] ∧
    Meets1 .ret { jumps := true } callOff ∧ ((gangOf .ret callOff).slice 0).ret.head?.map (·.depth) ≠ some ((gangOf .ret callOff).slice 0).stack.length ∧
    Meets1 .ret { jumps := true } called ∧ (gangOf .ret called).levels = [] ∧
    (let f := fun g => parted (called { inLoop g with levels := [{ level0 with depth := 1 }] })
     Meets1 .ret { jumps := true } f ∧ (gangOf .ret f).mayLeave 0xFF#8 = false ∧
       (gangOf .ret f).levels.any (fun y => (upTo 8).any (fun j => ((gangOf .ret f).slice j).ret.length ≤ y.depth)) = true) ∧
    Meets1 (.retr 1 true) { srcs := [⟨1, true⟩], allActive := true, jumps := true } (fun g => targets 256 (called g)) := by
  refine ⟨issues_with _ (by decide), by decide, issues_with _ (by decide), by decide, issues_with _ (by decide), by decide,
    ⟨issues_with _ (by decide), by decide, by decide⟩, issues_with _ (by decide)⟩
theorem witness_ReturnWords_level :
    (let i : Instr := .retr 1 false
     let f : Form := { srcs := [⟨1, false⟩], allActive := true, jumps := true }
     let s := withGang i (fun g => inLoop (targets 256 (called g)))
     canIssue i f unit0 s = true ∧ (s.gang 0 0).levels = [level0] ∧ ((s.gang 0 0).slice 0).ret.length = level0.depth + 1 ∧ (s.gang 0 0).mayLeave 0xFF#8 = true ∧
       (∀ l, l < 32 → valOf (valsOf f s) 0 l = 256#64) ∧ ¬ (level0.start.toNat ≤ 256 ∧ 256 ≤ level0.stop.toNat)) := by decide
theorem witness_IndirectTraps :
    (let s := withGang (.jmpi 1 false) (targets 260)
     let v := valsOf { srcs := [⟨1, false⟩], allActive := true, jumps := true } s
     Meets1 (.jmpi 1 false) { srcs := [⟨1, false⟩], allActive := true, jumps := true } (targets 260) ∧
       maskOf (fun l => valOf v 0 l ≠ valOf v 0 0) ≠ 0#32) ∧
    (let f := fun g => g.modLanes 0xFFFFFFFF#32 (fun _ (x : Lane) => x.setV 1 { val := 2#64 })
     let s := withGang (.jmpi 1 false) f
     let v := valsOf { srcs := [⟨1, false⟩], allActive := true, jumps := true } s
     Meets1 (.jmpi 1 false) { srcs := [⟨1, false⟩], allActive := true, jumps := true } f ∧
       maskOf (fun l => valOf v 0 l ≠ valOf v 0 0) = 0#32 ∧ (valOf v 0 0).extractLsb' 0 2 ≠ 0#2) ∧
    (let s := withGang (.jmpi 1 false) (targets 256)
     Agreed s unit0 (valsOf { srcs := [⟨1, false⟩], allActive := true, jumps := true } s) 256 ∧
       Meets1 (.jmpi 1 false) { srcs := [⟨1, false⟩], allActive := true, jumps := true } (targets 256) ∧ (s.gang 0 0).levels = []) := by
  refine ⟨⟨issues_with _ (by decide), by decide⟩, ⟨issues_with _ (by decide), by decide, by decide⟩, ⟨?_, issues_with _ (by decide), by decide⟩⟩
  unfold Agreed
  decide

/-- K.1 is `w`. -/
def withK1 (w : Word) (g : Gang) : Gang := { g with k := rowPut 0 g.k 1 w }
theorem witness_LoopWord :
    (∀ f ∈ [withK1 0, withK1 0xFFFFFFFF, fun g => withK1 3 (parted g), fun g => withK1 3 (inLoop g)],
      canIssue (.loop 0 1 255) { ks := [1], jumps := true } unit0 (withGang (.loop 0 1 255) f) = true) ∧
    (let g := gangOf (.loop 0 1 255) (withK1 0xFFFFFFFF)
     g.whole 0xFF#8 = true ∧ (∀ i, i < 8 → (g.slice i).ret.length = g.retDepth 0xFF#8) ∧ g.levels.length < 3 ∧ (g.kreg 1).setWidth 32 ≠ 0#32) ∧
    (gangOf (.loop 0 1 255) (fun g => withK1 3 (inLoop g))).levels.map (·.lc) = [0] ∧
    ((gangOf (.loop 0 1 255) (withK1 0)).kreg 1).setWidth 32 = 0#32 := by decide
/-- The innermost open level at each slice's return depth. -/
def levelOf (g : Gang) (j : Nat) : Option LoopLevel := g.levels.find? (fun x => x.depth = (g.slice j).ret.length)
theorem witness_LexitAndLoopEnd :
    (let f := fun g => { inLoop g with levels := [{ level0 with stop := 0 }] }
     Meets1 .nop { sidecar := true } f ∧ (gangOf .nop f).instar.body = none ∧ (gangOf .nop f).loopEnd 0xFF#8 0 = some { level0 with stop := 0 }) ∧
    (∃ sp, ((((arithmeticSpec addWord).or (immediateSpec addWord)).or (functionSpec addWord)).or (moveSpec addWord)) = some sp ∧
      Meets1 addWord sp.form (fun g => { inLoop g with levels := [{ level0 with stop := 0 }] })) ∧
    (Meets1 .lexit { jumps := true } id ∧ levelOf (gangOf .lexit id) 0 = none) ∧
    (Meets1 .lexit { jumps := true } inLoop ∧ (gangOf .lexit inLoop).whole 0xFF#8 = true ∧
      ∀ j, j < 8 → levelOf (gangOf .lexit inLoop) j = some level0 ∧ ((gangOf .lexit inLoop).slice j).stack.length = rowGet 0 level0.rdepth j) ∧
    Meets1 .lexit { jumps := true } (fun g => { inLoop g with levels := [{ level0 with rdepth := [1] }] }) ∧
    ((gangOf .lexit inLoop).slice 0).stack.length ≠ rowGet 0 ({ level0 with rdepth := [1] } : LoopLevel).rdepth 0 := by
  refine ⟨⟨issues_with _ (by decide), by decide, by decide⟩, ⟨_, rfl, issues_with _ (by decide)⟩, ⟨issues_with _ (by decide), by decide⟩,
    ⟨issues_with _ (by decide), by decide, by decide⟩, issues_with _ (by decide), by decide⟩
theorem witness_RegangWord :
    Meets1 (.regang 0xFF) { merges := true } id ∧ (gangOf (.regang 0xFF) id).live &&& ~~~ ((gangOf (.regang 0xFF) id).regangHeld 0 ||| 0xFF#8) = 0#8 ∧
    Meets1 (.regang 0x7F) { merges := true } id ∧ 0xFF#8 &&& ~~~ 0x7F#8 ≠ 0#8 ∧
    (let i : Instr := .regang 3
     let s := { withGang i (fun g => g.modSlices 0xFE#8 (fun _ x => { x with sub := 1 })) with issuer := some ⟨0, 0, 1#8, false⟩ }
     canIssue i { merges := true } ⟨0, 0, 1#8, false⟩ s = true ∧ (s.gang 0 0).live &&& 3#8 &&& ~~~ ((s.gang 0 0).regangHeld 0 ||| 1#8) ≠ 0#8) := by
  refine ⟨issues_with _ (by decide), by decide, issues_with _ (by decide), by decide, by decide, by decide⟩
theorem witness_ExitWord : Meets1 .exit { sidecar := true, jumps := true } id ∧ (gangOf .exit id).instar.body = none ∧
    SidecarIssues .exit { sidecar := true, jumps := true } unit16 (withSide .exit []) := ⟨issues_with _ (by decide), by decide, issues_side _ (by decide)⟩

/-- K.1 and K.2. -/
def withK12 (a b : Word) (g : Gang) : Gang := { g with k := [0, a, b] }
theorem witness_ModeWords :
    encode (.setmode 1) ≠ none ∧ Meets1 (.setmode 1) { ks := [1] } (withK12 0x3FFF0D 0) ∧
    Meets1 (.setmode 1) { ks := [1] } (withK12 (1#64 <<< 32) 0) ∧ ((gangOf (.setmode 1) (withK12 (1#64 <<< 32) 0)).kreg 1).extractLsb' 32 32 ≠ 0#32 ∧
    Meets1 (.setmk 1 2) { ks := [1, 2] } (withK12 10 15) ∧ Meets1 (.getmode 31) {} id ∧
    (let m : Half := 0x3FFF0D &&& ~~~ 0xC000; m.extractLsb' 22 10 = 0#10 ∧ m.extractLsb' 14 2 = 0#2 ∧ (m.extractLsb' 0 4).toNat ≤ 13 ∧ m.extractLsb' 8 3 ≠ 0#3) := by
  refine ⟨by decide, issues_with _ (by decide), issues_with _ (by decide), by decide, issues_with _ (by decide), issues_with _ (by decide), by decide⟩
theorem witness_CsrReads : Meets1 (.csrr 31 0x033) { allActive := true } id ∧ Meets1 (.csrr 63 0x020) { dsts := [63], allActive := true } id :=
  ⟨issues_with _ (by decide), issues_with _ (by decide)⟩

/-- Every lane holds `w` in v1. -/
def allLanes (w : Word) (g : Gang) : Gang := g.modLanes 0xFFFFFFFF#32 (fun _ x => x.setV 1 { val := w })
theorem witness_InvstCommands :
    (let i : Instr := .csrw 1 0x020
     let f : Form := { srcs := [⟨1, false⟩], named := [1], allActive := true }
     Meets1 i f (allLanes (3#64 <<< 61)) ∧ invstLegal (valOf (valsOf f (withGang i (allLanes (3#64 <<< 61)))) 0 0) = false ∧
     Meets1 i f (allLanes (4#64 <<< 61)) ∧ invstLegal (valOf (valsOf f (withGang i (allLanes (4#64 <<< 61)))) 0 31) = true) ∧
    (loaded .nop).issuer = some unit0 ∧ (loaded .nop).issuable unit0 = true ∧ unit0.gang ≠ 16 := by
  refine ⟨⟨issues_with _ (by decide), by decide, issues_with _ (by decide), by decide⟩, by decide, by decide, by decide⟩
theorem witness_ComparatorWrites :
    Meets1 (.csrw 1 0x033) { ks := [1], allActive := true } (withK1 0x0000FFFFFFFFFFFD) ∧ Meets1 (.csrw 1 0x030) { ks := [1], allActive := true } (withK1 2) ∧
    Csr.ofNum 0x004 = some .grid ∧ Csr.writable .grid = false ∧ Meets1 (.csrw 1 0x004) { named := [], ks := [1], allActive := true } id ∧
    Meets1 (.csrw 63 0x000) { named := [63], ks := [], allActive := true } id := by
  refine ⟨issues_with _ (by decide), issues_with _ (by decide), rfl, rfl, issues_with _ (by decide), issues_with _ (by decide)⟩
theorem witness_TrapTaken : Meets1 (.trap 0xABCDEF) {} id ∧ Meets1 (.bkpt 1) {} id := ⟨issues_with _ (by decide), issues_with _ (by decide)⟩
/-- A ring of two entries at 4096. -/
def ring0 : Ring := { set := true, base := 4096, n := 2 }
theorem witness_RingEntry : Memory.wf State.reset.kmem = true ∧ ring0.set = true ∧ ringFull State.reset.kmem ring0 = false ∧
    ringFull (memSet State.reset.kmem 4096 8 2) ring0 = true := by decide

/-- The state with the four header words of a recipe at 64. -/
def recipeAt (i : Instr) (w3 : Half) : State := { loaded i with hbm := memWrite (memWrite (memWrite (loaded i).hbm 64 (wordBytes 3#32)) 72 (wordBytes 5#32)) 76 (wordBytes w3) }
/-- Four words fetched. -/
def fetched4 (s : State) : Bool := match s.fetchWords 0 64 4 with | .ok [_, _, _, _] => true | _ => false
/-- INSTAR at 0 whose recipe lies at 65536, in a page with the leaf given. -/
def recipeIn (leaf : Nat) : State := { loaded (.instar 16384) with kmem := memSet (loaded (.instar 16384)).kmem (114688 + 8) 8 leaf }
/-- The fetch of a header is held, or finds a fault. -/
def headerHeld (s : State) : Bool := match s.fetchWords 0 65536 4 with | .error .held => true | _ => false
theorem witness_InstarWord_fetch :
    canIssue (.instar 16384) {} unit0 (recipeIn 0) = true ∧ (match (recipeIn 0).fetchWords 0 65536 4 with | .error .fault => true | _ => false) = true ∧
    canIssue (.instar 16384) {} unit0 (recipeIn (2 ^ 63 + 2 ^ 60 + 2 ^ 57)) = true ∧ headerHeld (recipeIn (2 ^ 63 + 2 ^ 60 + 2 ^ 57)) = true ∧
    ((recipeIn 0).gang 0 0).whole 0xFF#8 = true := by decide
theorem witness_InstarWord :
    (let s := { withGang (.instar 16) (fun g => g.modSlices 0xFE#8 (fun _ x => { x with sub := 1 })) with issuer := some ⟨0, 0, 1#8, false⟩ }
     canIssue (.instar 16) {} ⟨0, 0, 1#8, false⟩ s = true ∧ (s.gang 0 0).whole 1#8 = false) ∧
    (∃ s vals s1 popped, GangIssues (.instar 16) {} unit0 s vals s1 popped ∧ s = recipeAt (.instar 16) 255 ∧ (s.gang 0 0).whole 0xFF#8 = true ∧
      s.fetchWords 0 64 4 = .ok [3, 0, 5, 255]) ∧
    (recipeAt (.instar 16) 256).fetchWords 0 64 4 = .ok [3, 0, 5, 256] := by
  refine ⟨⟨by decide, by decide⟩, ?_, rfl⟩
  obtain ⟨v, t, p, h⟩ := issues_of (i := .instar 16) (f := {}) (u := unit0) (s := recipeAt (.instar 16) 255) (by decide) (by decide)
  exact ⟨_, v, t, p, h, rfl, by decide, rfl⟩

/-- The invert prefix of the tests: argument v4, target v2, bracket 0, a routine of one word. -/
def invWord : Instr := .inv 4 2 0 0 0 false
/-- What the checks know of it. -/
def invForm : Form := { named := [4, 2], mode := fun gm => readsEt invTypes gm && !isQueue gm 4 && !isQueue gm 2, jumps := true, routine := 1 }
/-- The word of the prefix. -/
def invHalf : Half := (encode invWord).getD 0#32
/-- The prefix under N32, its routine's word after it, every lane's bracket 0 from `lo` to `hi`, and the target. -/
def inverting (w : Instr) (lo hi u : Half) : State :=
  let s := withGang invWord (fun g => { g.modLanes 0xFFFFFFFF#32 (fun _ x => (x.setB 0 (hi ++ lo)).setV 2 { val := u.setWidth 64 }) with gmode := 5 })
  { s with hbm := memWrite s.hbm 4 (wordBytes ((encode w).getD 0#32)) }
/-- The word passes its checks and its operands are there, up to the first pass. -/
def invStarts (w : Instr) (s : State) : Bool :=
  let c := ctxOf invWord unit0 s []
  let r := routineOf c 4 2 (fun _ => true) 0 [4] [] [w]
  canIssue invWord invForm unit0 s && (s.running invHalf).isNone &&
    decide ((s.fetchWords 0 4 1).toOption = some [(encode w).getD 0#32]) && decide ((routineWords s c [(encode w).getD 0#32]).toOption = some [w]) &&
    r.toOption.isSome && (routineLoopStop c 4).isNone && (readStop (s.gang 0 0) ⟨2, false⟩ (partOf s unit0)).isNone &&
    (routineInputs 4 [] (r.toOption.getD [])).isEmpty && (owedStop (s.gang 0 0) [4, 6] (partOf s unit0)).isNone &&
    (operandStop (s.team 0) 0 s.cycle [4, 6] (partOf s unit0)).isNone
/-- A lane violates at an endpoint. -/
def endsBadly (w : Instr) (s : State) : Bool :=
  ((routineOf (ctxOf invWord unit0 s []) 4 2 (fun _ => true) 0 [4] [] [w]).toOption.getD []).length = 1 &&
  (lanesOf (partOf s unit0)).any (fun l =>
    let g := s.gang 0 0
    let y : Search := { lane := g.lane l, u := subGet 32 ((g.lane l).vreg 2).val 0, lo := subGet 32 ((g.lane l).bracket 0) 0, hi := subGet 32 ((g.lane l).bracket 0) 1 }
    (y.endpoints .n32 (mdOf s unit0) ((routineOf (ctxOf invWord unit0 s []) 4 2 (fun _ => true) 0 [4] [] [w]).toOption.getD []) 4 false).violated)
theorem witness_InvWord_start :
    (∀ x ∈ [(Instr.add 6 4 4 false false, 1#32, 9#32, 9#32, false), (.neg 6 4 false, 1, 9, 9, true)],
      invStarts x.1 (inverting x.1 x.2.1 x.2.2.1 x.2.2.2.1) = true ∧ partOf (inverting x.1 x.2.1 x.2.2.1 x.2.2.2.1) unit0 ≠ 0#32 ∧
      endsBadly x.1 (inverting x.1 x.2.1 x.2.2.1 x.2.2.2.1) = x.2.2.2.2) ∧
    (let s := (inverting (.add 6 4 4 false false) 1 9 9).modGang 0 0 (fun g => { g with gmode := 0x105 })
     invStarts (.add 6 4 4 false false) s = true ∧ partOf s unit0 = 0#32) := by decide
/-- The state after the first pass, with the unit to issue again. -/
def started (w : Instr) (lo hi u : Half) : State := { after invWord (inverting w lo hi u) with issuer := some unit0 }
/-- The unit is in a run, in which a lane searches as given, and a lane violates in the next pass as given. -/
def runs (s : State) (on bad : Bool) : Bool :=
  match s.running invHalf with
  | some (_, r) => decide (r.lanes.map (·.1)).Nodup && r.lanes.all (fun y => y.1 < 32 && r.part.getLsbD y.1) &&
      decide (r.lanes.any (fun y => y.2.searching) = on) &&
      decide ((r.pass (s.gang 0 0) (fun y => if on then y.narrow .n32 (modesOf r.gmode) r.words 4 0 0 false
        else y.final .n32 (modesOf r.gmode) r.words 4)).any (fun y => y.2.violated) = bad)
  | none => false
theorem witness_InvWord_run :
    runs (started (.add 6 4 4 false false) 1 9 9) true false = true ∧ runs (started (.andi 6 4 5) 4 13 5) true true = true ∧
    runs (started (.add 6 4 4 false false) 1 9 0) false false = true := by decide
theorem witness_InvWord_narrow : ∀ hi ∈ [9, 2], let y : Search := { lane := {}, u := 0, lo := 1, hi := hi, searching := true }
    invTypes .n32 = true ∧ y.searching = true ∧ y.lo < 2 ^ 32 ∧ y.hi < 2 ^ 32 ∧ ord .n32 y.lo ≤ ord .n32 y.hi ∧
    (ord .n32 y.hi - ord .n32 y.lo ≤ 2 ^ (0#4 : BitVec 4).toNat ↔ hi = 2) := by decide

/-- What the checks know of SHFL, and of BCST, with v2 and v3 and the mask in K.1. -/
def shflForm : Form := { own := [⟨2, false⟩, ⟨3, false⟩], named := [4], ks := [1], mode := fun gm => readsEt notSmall gm && !isQueue gm 4 }
/-- The same of BCST. -/
def bcstForm : Form := { own := [⟨2, false⟩], named := [4], ks := [1], mode := fun gm => readsEt notSmall gm && !isQueue gm 4 }
/-- The same of REDUCE and SCAN. -/
def foldForm : Form := { own := [⟨2, false⟩], named := [4], ks := [1], mode := fun gm => readsEt (combineLegal .add) gm && !isQueue gm 4 }
/-- Every lane is a member, under F32. -/
def allMembers (g : Gang) : Gang := { withK1 0xFFFFFFFF g with gmode := 10 }
/-- Every member has arrived at such a word. -/
theorem meets_all : Meets (withGang (.shfl 4 2 3 false false 1) allMembers) unit0 1 0xFFFFFFFF#32 0xFFFFFFFF#32 0#8 where
  mask := by decide
  waiting := by decide
  first := by decide
  alive := by decide
  here := by decide
  contribute := by decide
theorem witness_CrossLaneWords :
    Meets1 (.voteAny 1 2 1) { ks := [1] } id ∧ ((gangOf (.voteAny 1 2 1) id).kreg 1).setWidth 32 = 0#32 ∧
    (∀ p ∈ ([(.shfl 4 2 3 false false 1, shflForm), (.bcst 4 2 31 false 1, bcstForm), (.reduce .add 4 2 false 1, foldForm), (.scan .add true 4 2 false 1, foldForm),
        (.voteAny 1 2 1, { ks := [1] }), (.voteAll 1 2 1, { ks := [1] }), (.voteBallot 4 2 1, { ks := [1] })] : List (Instr × Form)),
      let s := withGang p.1 allMembers
      canIssue p.1 p.2 unit0 s = true ∧ owedStop (s.gang 0 0) [4] 0xFFFFFFFF#32 = none ∧ operandStop (s.team 0) 0 s.cycle [4] 0xFFFFFFFF#32 = none ∧
      (readOwn (ctxOf p.1 unit0 s []) ⟨3, false⟩ 0xFFFFFFFF#32 s).toOption.isSome = true ∧
      (readOwn (ctxOf p.1 unit0 s []) ⟨2, false⟩ 0x80000000#32 s).toOption.isSome = true) ∧
    Meets (withGang (.shfl 4 2 3 false false 1) allMembers) unit0 1 0xFFFFFFFF#32 0xFFFFFFFF#32 0#8 :=
  ⟨issues_with _ (by decide), by decide, by decide, meets_all⟩
theorem witness_MemberRows :
    (let i : Instr := .voteAll 1 2 1
     let f : Form := { ks := [1] }
     canIssue i f unit0 (withGang i (fun g => withK1 0xFFFFFFFF (g.modSlices 0x80#8 (fun _ x => { x with x := 8, m := 7 })))) = true ∧
     (gangOf i (fun g => withK1 0xFFFFFFFF (g.modSlices 0x80#8 (fun _ x => { x with x := 8, m := 7 })))).exitedLanes = 0x80000000#32 ∧
     canIssue i f unit0 (withGang i (fun g => withK1 0xFFFFFFFF (parted g))) = true ∧
     (gangOf i (fun g => withK1 0xFFFFFFFF (parted g))).activeOf 0xFF#8 = 0xFFFFFFF7#32 ∧
     (let s := { withGang i (fun g => withK1 3 (g.modSlices 0xFE#8 (fun _ x => { x with sub := 1, wait := some ⟨.member 5 0, 0⟩ }))) with issuer := some ⟨0, 0, 1#8, false⟩ }
      canIssue i f ⟨0, 0, 1#8, false⟩ s = true ∧ (s.gang 0 0).firstMask ((s.gang 0 0).memberHeld 0 &&& ~~~ 1#8) = some 5#32) ∧
     (let s := { withGang i (fun g => withK1 0xFFFFFFFF (g.modSlices 0xFE#8 (fun _ x => { x with sub := 1 }))) with issuer := some ⟨0, 0, 1#8, false⟩ }
      canIssue i f ⟨0, 0, 1#8, false⟩ s = true ∧ (s.gang 0 0).memberHeld 0 = 0#8 ∧ 0xFFFFFFFF#32 &&& ~~~ (s.gang 0 0).activeOf 1#8 ≠ 0#32)) ∧
    (let i : Instr := .lanek 4 2 3 false
     let f : Form := { own := [⟨2, false⟩] }
     canIssue i f unit0 (loaded i) = true ∧ ((loaded i).gang 0 0).activeOf 0xFF#8 = 0xFFFFFFFF#32 ∧
     (readOwn (ctxOf i unit0 (loaded i) []) ⟨2, false⟩ 8#32 (loaded i)).toOption.isSome = true ∧
     canIssue i f unit0 (withGang i parted) = true ∧ ((gangOf i parted).activeOf 0xFF#8).getLsbD 3 = false) := by decide

/-- v2 holds `w` in every lane. -/
def v2 (w : Word) (g : Gang) : Gang := g.modLanes 0xFFFFFFFF#32 (fun _ x => x.setV 2 { val := w })
theorem lanesOk_at {i : Instr} {w : Nat} {a : Word} {k : TagKind} (h1 : a.toNat % w = 0) (h2 : a.toNat + w ≤ 16384) :
    LanesOk (loaded i) unit0 w (fun _ => a) k :=
  ⟨fun _ _ _ => h1, fun _ _ _ => h2, fun h => absurd h (by show ¬ gmDet 0#32 = true; decide)⟩
theorem uniformOk_at {i : Instr} {al w : Nat} {a : Word} {k : TagKind} (h1 : a.toNat % al = 0) (h2 : a.toNat + w ≤ 16384) :
    UniformOk (loaded i) unit0 al w a k := ⟨h1, h2, fun _ h => absurd h (by show ¬ gmDet 0#32 = true; decide)⟩
theorem witness_ScratchLoads :
    (canIssue (.ld .d64 false 1 2 false) { srcs := [⟨2, false⟩], dsts := [1] } unit0 (loaded (.ld .d64 false 1 2 false)) = true ∧
      LanesOk (loaded (.ld .d64 false 1 2 false)) unit0 8 (fun _ => 16376) .read) ∧
    canIssue (.ldx 1 2 0x7F8) { srcs := [⟨2, false⟩], dsts := [1] } unit0 (loaded (.ldx 1 2 0x7F8)) = true ∧
    canIssue (.kld 1 2 8) { ks := [2], sidecar := true } unit0 (loaded (.kld 1 2 8)) = true ∧ UniformOk (loaded (.kld 1 2 8)) unit0 8 8 8 .read ∧
    (loaded (.kld 1 2 8)).spadBad (placeOf (loaded (.kld 1 2 8)) unit0 8) 8 = false ∧
    SidecarIssues (.kld 1 2 8) { ks := [2], sidecar := true } unit16 (withSide (.kld 1 2 8) []) :=
  ⟨⟨by decide, lanesOk_at (by decide) (by decide)⟩, by decide, by decide, uniformOk_at (by decide) (by decide), by decide, issues_side _ (by decide)⟩
theorem witness_ScratchStores :
    (canIssue (.st .b8 2 3 false false) { srcs := [⟨2, false⟩, ⟨3, false⟩] } unit0 (loaded (.st .b8 2 3 false false)) = true ∧
      LanesOk (loaded (.st .b8 2 3 false false)) unit0 1 (fun _ => 16383) .write) ∧
    canIssue (.stx 3 2 8) { srcs := [⟨2, false⟩, ⟨3, false⟩] } unit0 (loaded (.stx 3 2 8)) = true ∧
    canIssue (.kst 1 2 8) { ks := [2, 1], sidecar := true } unit0 (loaded (.kst 1 2 8)) = true ∧ UniformOk (loaded (.kst 1 2 8)) unit0 8 8 8 .write :=
  ⟨⟨by decide, lanesOk_at (by decide) (by decide)⟩, by decide, by decide, uniformOk_at (by decide) (by decide)⟩
theorem witness_ScratchAtomics :
    (let i : Instr := .atom .xchg 1 2 3 false false
     canIssue i { srcs := [⟨2, false⟩, ⟨3, false⟩], dsts := [1], mode := readsEt (atomLegal .xchg), closes := true } unit0 (withGang i (fun g => { g with gmode := 6 })) = true ∧
     (withGang i (fun g => { g with gmode := 6 })).spadBad (placeOf (loaded i) unit0 0) 8 = false) ∧
    (let i : Instr := .acas 1 2 3 false false
     canIssue i { srcs := [⟨2, false⟩, ⟨3, false⟩, ⟨1, false⟩], dsts := [1], mode := readsEt notSmall, closes := true } unit0 (withGang i (fun g => { g with gmode := 6 })) = true) := by
  decide
/-- Deterministic mode, with line 0 written by gang 1. -/
def raced (s : State) : State := (s.modGang 0 0 (fun g => { g with gmode := g.gmode ||| 0x2000#32 })).modTeam 0 (fun t => { t with lines := [{ writer := some 1 }] })
/-- The first word of the window is uncorrectable. -/
def marred (s : State) : State := { s with bad := { s.bad with spad := [0] } }
/-- A Skipper command's results at 64 of the window, which nobody has observed. -/
def unseen (s : State) : State :=
  { s with cmds := [{ team := 0, gang := 0, seq := 0, skipper := true, addr := 0, startAt := 0, stage := .running, chain := {}, skip := {} }] }
/-- The traps of accesses: a word issues with addresses that are misaligned, outside the window, in a race, and at a word that is uncorrectable
or undefined. -/
theorem witness_ScratchLoads_traps :
    (let i : Instr := .ld .d64 false 1 2 false
     let f : Form := { srcs := [⟨2, false⟩], dsts := [1] }
     (∀ a ∈ [4, 16384, 64], canIssue i f unit0 (withGang i (v2 (BitVec.ofNat 64 a))) = true) ∧ canIssue i f unit0 (raced (loaded i)) = true ∧
     canIssue i f unit0 (marred (loaded i)) = true ∧ canIssue i f unit0 (unseen (withGang i (v2 64))) = true) ∧
    (4 % 8 ≠ 0 ∧ 16384 % 8 = 0 ∧ 16384 < 16384 + 8) ∧ ((raced (loaded .nop)).team 0).raceAt 0 0 8 .read = some (0, 1) ∧
    (marred (loaded .nop)).spadBad (placeOf (loaded .nop) unit0 0) 8 = true ∧ (unseen (loaded .nop)).veils (placeOf (loaded .nop) unit0 64) 8 = true ∧
    (let i : Instr := .kld 1 2 0
     let f : Form := { ks := [2], sidecar := true }
     (∀ a ∈ [4, 16384, 64], canIssue i f unit0 (withGang i (fun g => { g with k := [0, 0, (BitVec.ofNat 64 a)] })) = true) ∧ canIssue i f unit0 (raced (loaded i)) = true ∧
     canIssue i f unit0 (marred (loaded i)) = true ∧ canIssue i f unit0 (unseen (loaded i)) = true) := by decide +kernel
theorem witness_ScratchStores_traps :
    (let i : Instr := .st .d64 2 3 false false
     let f : Form := { srcs := [⟨2, false⟩, ⟨3, false⟩] }
     (∀ a ∈ [4, 16384], canIssue i f unit0 (withGang i (v2 (BitVec.ofNat 64 a))) = true) ∧ canIssue i f unit0 (raced (loaded i)) = true) ∧
    ((raced (loaded .nop)).team 0).raceAt 0 0 8 .write = some (0, 1) ∧
    (let i : Instr := .kst 1 2 0
     let f : Form := { ks := [2, 1], sidecar := true }
     (∀ a ∈ [4, 16384], canIssue i f unit0 (withGang i (fun g => { g with k := [0, 0, (BitVec.ofNat 64 a)] })) = true) ∧ canIssue i f unit0 (raced (loaded i)) = true) ∧
    (raced (loaded .nop)).fillsOf 0 0 0 = [] := by decide +kernel
theorem witness_ScratchAtomics_traps :
    (let i : Instr := .atom .xchg 1 2 3 false false
     let f : Form := { srcs := [⟨2, false⟩, ⟨3, false⟩], dsts := [1], mode := readsEt (atomLegal .xchg), closes := true }
     let s := fun a => withGang i (fun g => { v2 a g with gmode := 6 })
     (∀ a ∈ [4, 16384], canIssue i f unit0 (s (BitVec.ofNat 64 a)) = true) ∧ (∀ g ∈ [raced, marred, unseen], canIssue i f unit0 (g (s 0)) = true)) ∧
    ((raced (loaded .nop)).team 0).raceAt 0 0 8 .write = some (0, 1) := by decide +kernel
theorem witness_TagWords_sidecar :
    (let s := (withSide (.tlookK 1 2) []).modTeam 0 (fun t => { t with tagSets := 0 })
     s.issuer = some unit16 ∧ s.issuable unit16 = true ∧ unit16.gang = 16 ∧ hasTags (s.team 0) = false) := by decide +kernel
theorem witness_TagWords :
    canIssue (.tlook 1 2 false) { srcs := [⟨2, false⟩], dsts := [1], team := hasTags } unit0 (loaded (.tlook 1 2 false)) = true ∧
    canIssue (.tlookK 1 2) { ks := [2], team := hasTags, sidecar := true } unit0 (loaded (.tlookK 1 2)) = true ∧
    SidecarIssues (.tlookK 1 2) { ks := [2], team := hasTags, sidecar := true } unit16 (withSide (.tlookK 1 2) []) ∧
    (let i : Instr := .tset 1 2 3 false false
     let f : Form := { srcs := [⟨2, false⟩, ⟨3, false⟩, ⟨1, false⟩], team := hasTags, closes := true }
     canIssue i f unit0 (withGang i (v2 3)) = true ∧ codeOk ((withGang i (v2 3)).team 0) (valOf (valsOf f (withGang i (v2 3))) 0 31) = true ∧
     canIssue i f unit0 (withGang i (v2 4)) = true ∧ codeOk ((withGang i (v2 4)).team 0) (valOf (valsOf f (withGang i (v2 4))) 0 0) = false) ∧
    canIssue (.tinv 2 false) { srcs := [⟨2, false⟩], team := hasTags, closes := true } unit0 (loaded (.tinv 2 false)) = true :=
  ⟨by decide, by decide, issues_side _ (by decide), by decide, by decide⟩

/-- The state with the sync word at 0 of the window holding the two words. -/
def syncAt0 (i : Instr) (lo : Nat) : State := (loaded i).spadSet (placeOf (loaded i) unit0 0) 8 lo
theorem witness_SyncWords :
    (let i : Instr := .swinit 1 2
     canIssue i { ks := [1, 2], closes := true } unit0 (withGang i (withK12 16368 7)) = true ∧ 16368 % 16 = 0 ∧ 16368 + 16 ≤ ((loaded i).team 0).scratch ∧
       (loaded i).spadBad (placeOf (loaded i) unit0 16368) 16 = false) ∧
    canIssue (.swadd .pod 1 2) { ks := [1, 2], closes := true } unit0 (withGang (.swadd .pod 1 2) (withK12 0 1)) = true ∧
    (∀ lo ∈ [2 ^ 40, 2 ^ 40 + 2 ^ 56, 0], canIssue (.swait .gang 1 2) { ks := [1, 2], sidecar := true } unit0 (syncAt0 (.swait .gang 1 2) lo) = true ∧
      memNat (syncAt0 (.swait .gang 1 2) lo).spad (placeOf (loaded (.swait .gang 1 2)) unit0 0) 8 = lo ∧ (syncAt0 (.swait .gang 1 2) lo).unitWait unit0 = none) ∧
    (let i : Instr := .waitc .osc 0
     canIssue i { sidecar := true } unit0 (loaded i) = true ∧ ((loaded i).partyCounter 0 0 .osc).value = 0 ∧ ((loaded i).partyCounter 0 0 .osc).flags = [] ∧
     (let s := withGang i (fun g => { g with osc := { issued := 1, flags := [{ seq := 0, lane := 0, code := 2, addr := 0, rlate := none }] } })
      canIssue i { sidecar := true } unit0 s = true ∧ ((s.partyCounter 0 0 .osc).flags.filter (fun f => decide (f.seq + 0 < (s.partyCounter 0 0 .osc).issued))).length = 1) ∧
     (let s := withGang i (fun g => { g with osc := ({} : Counter).count })
      canIssue i { sidecar := true } unit0 s = true ∧ 0 < (s.partyCounter 0 0 .osc).value)) ∧
    (let i : Instr := .qpush 3 1 true
     let f : Form := { ks := [1], sidecar := true, gang := false }
     let full := fun (s : State) => s.modTeam 0 (fun t => { t with queues := rowMod {} t.queues 3 (fun x => { x with entries := (upTo 16).map (fun _ => []) }) })
     let gone := fun (s : State) => s.modGang 0 0 (fun g => g.modSlices 0xFF#8 (fun _ x => { x with x := 15, m := 0 }))
     canIssue i f unit16 (withSide i []) = true ∧ ((withSide i []).team 0).gangsExited = false ∧ (((withSide i []).team 0).queue 3).entries.length = 0 ∧
     canIssue i f unit16 (full (withSide i [])) = true ∧ (((full (withSide i [])).team 0).queue 3).entries.length = 16 ∧
     canIssue i f unit16 (gone (withSide i [])) = true ∧ ((gone (withSide i [])).team 0).gangsExited = true) := by decide +kernel

theorem witness_SyncWords_traps :
    (∀ i ∈ [Instr.swinit 1 2, .swadd .team 1 2], (∀ a ∈ [8, 16384], canIssue i { ks := [1, 2], closes := true } unit0 (withGang i (withK12 (BitVec.ofNat 64 a) 0)) = true) ∧
      canIssue i { ks := [1, 2], closes := true } unit0 (marred (loaded i)) = true) ∧
    (let i : Instr := .swait .gang 1 2
     let f : Form := { ks := [1, 2], sidecar := true }
     (∀ a ∈ [8, 16384], canIssue i f unit0 (withGang i (withK12 (BitVec.ofNat 64 a) 0)) = true) ∧ canIssue i f unit0 (marred (loaded i)) = true ∧
     (let s := withGang i (fun g => g.modSlices 0xFF#8 (fun _ x => { x with wait := some ⟨.swait 16 3, 0⟩ }))
      canIssue i f unit0 s = true ∧ s.unitWait unit0 = some (.swait 16 3))) ∧
    (let i : Instr := .qpush 3 1 false
     let f : Form := { ks := [1], sidecar := true, gang := false }
     (∀ a ∈ [4, 16384, 64], canIssue i f unit16 (withSide i [0, (BitVec.ofNat 64 a)]) = true) ∧ canIssue i f unit16 (marred (withSide i [])) = true ∧
     (unseen (withSide i [0, 64])).veils (placeOf (loaded i) unit16 64) 256 = true ∧
     (let s := (withSide i []).modTeam 0 (fun t => { t with side := { t.side with wait := some ⟨.qpush 3 [7], 0⟩ } })
      canIssue i f unit16 s = true ∧ s.unitWait unit16 = some (.qpush 3 [7]))) := by decide +kernel

/-- The gang waits as given, in every slice. -/
def waiting (k : WaitKind) (g : Gang) : Gang := g.modSlices 0xFF#8 (fun _ x => { x with wait := some ⟨k, 0⟩ })
/-- The gang has arrived at phase 0 of barrier 15. -/
def arrived15 (g : Gang) : Gang := { g with bars := rowPut {} g.bars 15 { arrived := some 0, slices := 0 } }
/-- The phase of barrier 15 is 1. -/
def phase1 (s : State) : State := s.modTeam 0 (fun t => { t with phases := rowPut 0 t.phases 15 1 })
theorem witness_BarrierWords :
    (0 < ((loaded .nop).team 0).ngang ∧ ((loaded .nop).gang 0 0).live = 0xFF#8 ∧
      (((loaded .nop).gang 0 0).bar 15).slices ||| 0xFF#8 = 0xFF#8) ∧
    (∀ s ∈ [loaded (.bar 15), withGang (.bar 15) (waiting (.bar 15 0)), phase1 (withGang (.bar 15) (waiting (.bar 15 0)))],
      canIssue (.bar 15) { closes := true } unit0 s = true) ∧
    ((phase1 (withGang (.bar 15) (waiting (.bar 15 0)))).team 0).phase 15 = 1 ∧ (loaded (.bar 15)).unitWait unit0 = none ∧
    (∀ s ∈ [loaded (.bara 15), withGang (.bara 15) (waiting (.gather 15 0)), withGang (.bara 15) arrived15, withGang (.bara 15) (fun g => arrived15 (waiting (.gather 15 0) g))],
      canIssue (.bara 15) { closes := true } unit0 s = true) ∧
    (∀ s ∈ [loaded (.barw 15), withGang (.barw 15) arrived15, phase1 (withGang (.barw 15) arrived15), withGang (.barw 15) (waiting (.barw 15 0))],
      canIssue (.barw 15) { closes := true } unit0 s = true) ∧ ((gangOf (.barw 15) arrived15).bar 15).arrived = some 0 := by decide +kernel

/-- A grid descriptor: entry 256, one team, one gang, 16 registers. -/
def desc0 : List Byte := leBytes 8 256 ++ leBytes 8 0 ++ leBytes 8 7 ++ leBytes 8 0 ++ leBytes 4 1 ++ leBytes 4 0 ++ leBytes 2 0 ++ [1, 16, 0, 0, 0] ++ leBytes 17 0
/-- The state with a descriptor at 0 of the window. -/
def launching (b : List Byte) : State := (loaded (.launch 1)).spadWrite (placeOf (loaded (.launch 1)) unit0 0) b
theorem witness_LaunchWords :
    canIssue .trig { closes := true } unit0 (loaded .trig) = true ∧ canIssue .detep {} unit0 (loaded .detep) = true ∧
    (∀ b ∈ [desc0, leBytes 64 0], canIssue (.launch 1) { ks := [1] } unit0 (launching b) = true ∧
      ((launching b).grid 0).depth < 10 ∧ (launching b).launched 0 < Config.launchLimit ∧ (launching b).doneHeld 0 (descOf b).doneWord = false ∧
      memRead (launching b).spad (placeOf (launching b) unit0 0) 64 = b ∧ (launching b).descLegal 0 b = decide (b = desc0)) ∧
    (let s := (launching desc0).modGrid 0 (fun g => { g with depth := 10 })
     canIssue (.launch 1) { ks := [1] } unit0 s = true ∧ 10 ≤ (s.grid 0).depth) ∧
    (let s := { (withGang (.launch 1) (fun g => g.modSlices 1#8 (fun _ x => { x with sub := 1 }))) with issuer := some ⟨0, 0, 0xFE#8, false⟩ }
     canIssue (.launch 1) { ks := [1] } ⟨0, 0, 0xFE#8, false⟩ s = true ∧
       ((s.gang 0 0).activeOf 0xFE#8).getLsbD (lowLane (~~~ (s.gang 0 0).exitedLanes)) = false) := by decide +kernel
/-- The same descriptor with a DONE word at 65536, in a page that is to be zeroed. -/
def held0 : State :=
  let s := launching (desc0.take 24 ++ leBytes 8 65536 ++ desc0.drop 32)
  { s with kmem := memSet s.kmem (114688 + 8) 8 (2 ^ 63 + 2 ^ 60 + 2 ^ 59 + 2 ^ 57) }
theorem witness_LaunchWords_stops :
    (∀ a ∈ [32, 16384], canIssue (.launch 1) { ks := [1] } unit0 (withGang (.launch 1) (withK1 (BitVec.ofNat 64 a))) = true) ∧
    canIssue (.launch 1) { ks := [1] } unit0 (marred (launching desc0)) = true ∧ canIssue (.launch 1) { ks := [1] } unit0 (raced (launching desc0)) = true ∧
    ((raced (launching desc0)).team 0).raceAt 0 0 64 .read = some (0, 1) ∧
    (unseen (loaded .nop)).veils (placeOf (loaded .nop) unit0 64) 64 = true ∧ canIssue (.launch 1) { ks := [1] } unit0 (unseen (withGang (.launch 1) (withK1 64))) = true ∧
    canIssue (.launch 1) { ks := [1] } unit0 held0 = true ∧ held0.doneHeld 0 65536#64 = true ∧
    (let s := withGang (.launch 1) (fun g => g.modSlices 0xFF#8 (fun _ x => { x with wait := some ⟨.launch 0, 0⟩ }))
     canIssue (.launch 1) { ks := [1] } unit0 s = true ∧ s.unitWait unit0 = some (.launch 0)) := by decide +kernel
theorem witness_LaunchWords_limit : canIssue (.launch 1) { ks := [1] } unit0 { launching desc0 with grids := (launching desc0).grids ++ List.replicate 4096 { probeGrid with part := 0 } } = true ∧
    Config.launchLimit ≤ ({ launching desc0 with grids := (launching desc0).grids ++ List.replicate 4096 { probeGrid with part := 0 } } : State).launched 0 := by
  refine ⟨by decide, ?_⟩
  unfold State.launched Config.launchLimit
  simp only [List.filter_append, List.length_append, List.filter_replicate]
  rw [if_pos (by decide), List.length_replicate]
  omega

theorem witness_EngineWords :
    canIssue (.copy 1) { ks := [1], sidecar := true, closes := true } unit0 (withGang (.copy 1) (withK1 16368)) = true ∧ 16368 + 16 ≤ ((loaded (.copy 1)).team 0).scratch ∧
    (loaded (.copy 1)).spadBad (placeOf (loaded (.copy 1)) unit0 16368) 16 = false ∧ ((loaded (.copy 1)).partyCounter 0 0 .enc).value < 255 ∧
    canIssue (.skip 1) { ks := [1], sidecar := true, closes := true } unit0 (loaded (.skip 1)) = true ∧
    (∀ o ∈ [0, 32, 36, 40, 48, 56], memNat (loaded (.skip 1)).spad (placeOf (loaded (.skip 1)) unit0 0 + o) 8 = 0) ∧
    canIssue (.engq 2 1) { ks := [1] } unit0 (loaded (.engq 2 1)) = true ∧
    canIssue (.time 30) {} unit0 (loaded (.time 30)) = true ∧ (loaded (.time 30)).tb.holds = true ∧
    (let s := { loaded (.time 30) with tb := { (loaded (.time 30)).tb with tstate := 0#2 } }
     canIssue (.time 30) {} unit0 s = true ∧ s.tb.holds = false) := by decide +kernel

/-- ENC of the gang is at 255. -/
def enc255 (g : Gang) : Gang := { g with enc := { g.enc with pend := List.replicate 255 ⟨0, false⟩ } }
theorem witness_EngineWords_stops :
    (let f : Form := { ks := [1], sidecar := true, closes := true }
     (∀ a ∈ [8, 16384], canIssue (.copy 1) f unit0 (withGang (.copy 1) (withK1 (BitVec.ofNat 64 a))) = true) ∧
     (∀ g ∈ [raced, marred], canIssue (.copy 1) f unit0 (g (loaded (.copy 1))) = true ∧ canIssue (.skip 1) f unit0 (g (loaded (.skip 1))) = true) ∧
     canIssue (.copy 1) f unit0 (withGang (.copy 1) enc255) = true ∧ ((withGang (.copy 1) enc255).partyCounter 0 0 .enc).value = 255 ∧
     (let s := withGang (.skip 1) (fun g => g.modSlices 0xFF#8 (fun _ x => { x with wait := some ⟨.command 0 [7], 0⟩ }))
      canIssue (.skip 1) f unit0 s = true ∧ s.unitWait unit0 = some (.command 0 [7])) ∧
     canIssue (.copy 1) f unit0 ((loaded (.copy 1)).modTeam 0 (fun t => { t with status := .saving 100 })) = true ∧
     (let s := (loaded (.skip 1)).spadSet (placeOf (loaded .nop) unit0 56) 8 8
      canIssue (.skip 1) f unit0 s = true ∧ field (memRead s.spad (placeOf s unit0 0) 96) 56 8 = 8 ∧ 8 % 16 ≠ 0) ∧
     (let s := unseen (withGang (.skip 1) (withK1 64))
      canIssue (.skip 1) f unit0 s = true ∧ s.veils (placeOf s unit0 64) 96 = true)) := by decide +kernel

/-- The timebase is in SYNC. -/
def inSync (s : State) : State := { s with tb := { s.tb with tstate := 0#2, te := 1000, tl := 1010 } }
/-- Every lane is masked by a guard that is false: guard p1. -/
def noLane (g : Gang) : Gang := { g with gmode := 1 <<< 8 }
/-- OLC and OSC are at 255. -/
def counted255 (g : Gang) : Gang :=
  { g with olc := { g.olc with pend := List.replicate 255 ⟨0, false⟩ }, osc := { g.osc with pend := List.replicate 255 ⟨0, false⟩ } }
theorem witness_RemoteWords :
    (∃ x, remoteSpec (.rld 1 2 false) = some x ∧ (∀ f ∈ [id, noLane, counted255], canIssue (.rld 1 2 false) x.form unit0 (withGang (.rld 1 2 false) f) = true) ∧
      partOf (withGang (.rld 1 2 false) noLane) unit0 = 0#32 ∧ partOf (loaded (.rld 1 2 false)) unit0 ≠ 0#32 ∧
      ((gangOf (.rld 1 2 false) counted255).olc).value = 255 ∧ ((gangOf (.rld 1 2 false) id).olc).value = 0) ∧
    (let f : Form := { srcs := [⟨2, false⟩, ⟨3, false⟩], dsts := [4], closes := true }
     canIssue (.stmp 4 2 3 false false) f unit0 (loaded (.stmp 4 2 3 false false)) = true ∧ 2 ≤ (loaded .nop).tb.tstate.toNat ∧
     canIssue (.stmp 4 2 3 false false) f unit0 (inSync (loaded (.stmp 4 2 3 false false))) = true ∧ (inSync (loaded .nop)).tb.tstate.toNat < 2) ∧
    (let f : Form := { srcs := [⟨2, false⟩, ⟨3, false⟩], dsts := [4, 4 + 1#6] }
     canIssue (.ldat 4 2 3 false false) f unit0 (inSync (loaded (.ldat 4 2 3 false false))) = true ∧
     (valOf (valsOf f (inSync (loaded (.ldat 4 2 3 false false)))) 1 0).toNat < 2 ^ 62) ∧
    (let s := loaded .nop
     s.engAddr 0x1000#64 = .device 0x1000 ∧ s.engAddr 0x8000000000000008#64 = .local_ 0 false 8 ∧
     s.engAddr 0xC027100C00000040#64 = .pod 5000 3 0x40 ∧ s.grantKey 0 5000 3 = none ∧
     ({ s with grants := [{ part := 0, device := 5000, window := 3, key := 9 }] } : State).grantKey 0 5000 3 = some 9 ∧ s.devid ≠ 5000) := by
  refine ⟨⟨_, rfl, by decide, by decide, by decide, by decide, by decide⟩, by decide, by decide, by decide⟩

theorem witness_RemoteWords_held :
    (let i : Instr := .stmp 4 2 3 false false
     let s := inSync (withGang i counted255)
     canIssue i { srcs := [⟨2, false⟩, ⟨3, false⟩], dsts := [4], closes := true } unit0 s = true ∧ (s.partyCounter 0 0 .osc).value = 255) ∧
    (let i : Instr := .ldat 4 2 3 false false
     let s := inSync (withGang i counted255)
     canIssue i { srcs := [⟨2, false⟩, ⟨3, false⟩], dsts := [4, 4 + 1#6] } unit0 s = true ∧ (s.partyCounter 0 0 .olc).value = 255) ∧
    (let o : RemKind → RemOp := fun k =>
       { kind := k, team := 0, gang := 0, part := 0, core := 0, d := 4, pc := 0, seq := 0, stamp := 5, committed := false,
         lanes := [{ stage := .sent, addr := 0xC027100C00000040#64, val := 5 }] }
     let s := { loaded .nop with ops := [o .rst, o .rstf], grants := [{ part := 0, device := 5000, window := 3, key := 9 }] }
     s.flagHeld 1 0 = true ∧ s.flagHeld 0 0 = false ∧ s.route 0 0xC027100C00000040#64 false = .away 5000 3 9 64) := by decide

/-- A LIVE record of one tile, L16, ternary. -/
def record0 : ObRecord := { state := .live, rows := 64, cols := 128, fmt := 1, lb := 16, len := 2304 }
/-- Core 0 holds that record, changed. -/
def withRecord (s : State) (f : ObRecord → ObRecord) : State := { s with cores := [{ records := [f record0] }] }
theorem witness_MatrixWords :
    (let i : Instr := .mma 7 55 1 false false .l16 true
     let s := withRecord (loaded i) id
     canIssue i { named := regRange 55 9, ks := [1], mode := fun gm => !(gmQmap gm && decide (60 ≤ 55 + 8)), closes := true } unit0 s = true ∧
     (s.gang 0 0).activeOf 0xFF#8 = 0xFFFFFFFF#32 ∧ 7 < (s.team 0).nbanks ∧ ((s.team 0).bank 7).poisoned = false ∧ s.bankBad (s.team 0) 7 = false ∧
     (s.record 0 0).state = .live ∧ (s.record 0 0).team = 0 ∧ 0 < (s.record 0 0).cols / 128 ∧ 0 < (s.record 0 0).rows / 64 ∧
     (∀ v ∈ regRange 55 9, ∀ l, l < 32 → (((s.gang 0 0).lane l).vreg v).full = true ∧ (((s.gang 0 0).lane l).vreg v).poison = false ∧
       (((s.gang 0 0).lane l).vreg v).bad = false) ∧ (s.team 0).status = .running ∧ (s.core 0).arrayFree ≤ s.cycle ∧ s.bad.obuf = []) ∧
    (let s := (loaded .nop).modTeam 0 (fun t => { t with mmas := [mma0] })
     0 < s.teams.length ∧ (s.team 0).core = 0 ∧ mma0 ∈ (s.team 0).mmas ∧ mma0.writeAt ≤ s.cycle ∧ s.teams.length = 1 ∧ (s.team 0).mmas = [mma0]) ∧
    canIssue (.mclr 7) {} unit0 (loaded (.mclr 7)) = true ∧
    (let i : Instr := .mst 7 1
     let s := withGang i (fun g => { g with gmode := 8 })
     canIssue i { ks := [1], mode := readsEt bigFloat } unit0 s = true ∧ (etOf s unit0).width = 16 ∧ 4096 * 2 ≤ (s.team 0).scratch) ∧
    canIssue (.mrd 1 7 2) { ks := [2], dsts := [1] } unit0 (loaded (.mrd 1 7 2)) = true ∧ canIssue (.mstat 1 7) {} unit0 (loaded (.mstat 1 7)) = true := by decide
theorem witness_MatrixWords_waits :
    (let i : Instr := .mma 7 55 1 false false .l16 true
     let s := (withRecord (loaded i) id).modCore 0 (fun c => { c with arrayFree := 4 })
     canIssue i { named := regRange 55 9, ks := [1], mode := fun gm => !(gmQmap gm && decide (60 ≤ 55 + 8)), closes := true } unit0 s = true ∧
     ¬ (s.core 0).arrayFree ≤ s.cycle ∧ (withRecord (loaded i) id).arrayTurn 0 (0, 0) = true ∧
     (s.record 0 0).state = .live) ∧
    ((loaded (.mclr 7)).team 0).mmas.any (fun m => m.bank = 7) = false := by decide
theorem witness_BankOk : BankOk (loaded (.mrd 1 7 2)) unit0 7 := ⟨by decide, by decide, by decide⟩

/-- The state of OBRES with its request at 0 of the window: 64 rows, 128 columns, one trit, L16, and RESULT. -/
def reserving (fmt result : Nat) (s : State) : State :=
  s.spadWrite (placeOf s unit0 0) (leBytes 4 64 ++ leBytes 4 128 ++ leBytes 1 fmt ++ leBytes 7 0 ++ leBytes 8 result ++ leBytes 8 0)
theorem witness_RecordWords :
    (∀ s ∈ [reserving 1 (2 ^ 63) (loaded (.obres 2 1)), reserving 2 (2 ^ 63) (loaded (.obres 2 1)), reserving 1 0 (withRecord (loaded (.obres 2 1)) id)],
      canIssue (.obres 2 1) { ks := [1] } unit0 s = true ∧ s.spadBad (placeOf s unit0 0) 32 = false ∧ memNat s.spad (placeOf s unit0 0) 4 = 64) ∧
    ((reserving 1 0 (withRecord (loaded (.obres 2 1)) id)).record 0 0).req = 0#64 ∧
    (∀ s ∈ [loaded (.obrel 1), withRecord (loaded (.obrel 1)) id, withRecord (loaded (.obrel 1)) (fun r => { r with state := .filling })],
      canIssue (.obrel 1) { ks := [1] } unit0 s = true) ∧
    (∀ s ∈ [withRecord (loaded (.obld 1 2)) id, withRecord (loaded (.obld 1 2)) (fun r => { r with state := .filling })],
      canIssue (.obld 1 2) { ks := [1, 2] } unit0 s = true ∧ (s.record 0 0).team = 0 ∧ (s.record 0 0).len ≤ (s.team 0).scratch ∧ s.bad.spad = []) ∧
    (let s := withRecord (loaded .nop) (fun r => { r with state := .filling, len := 0 })
     (s.record 0 0).state = .filling ∧ (s.record 0 0).fillEnd ≤ s.cycle ∧ (s.record 0 0).src.length = (s.record 0 0).len ∧
       (s.record 0 0).seen.length = (s.record 0 0).len) := by decide
theorem witness_RecordWords_full :
    (let s := { loaded (.obres 2 1) with cores := [{ records := List.replicate 64 { record0 with len := 256 } }] }
     ∀ i, i < 64 → (s.record 0 i).state = .live) ∧
    (let s := { loaded (.obres 2 1) with cores := [{ records := [{ record0 with len := 2 ^ 20 }] }] }
     (s.record 0 1).state = .free ∧ (s.record 0 0).len = 2 ^ 20) := by decide

theorem witness_RecordWords_stops :
    (∀ a ∈ [8, 16384], canIssue (.obres 2 1) { ks := [1] } unit0 (withGang (.obres 2 1) (withK1 (BitVec.ofNat 64 a))) = true) ∧
    (∀ g ∈ [raced, marred], canIssue (.obres 2 1) { ks := [1] } unit0 (g (loaded (.obres 2 1))) = true) ∧
    ((raced (loaded .nop)).team 0).raceAt 0 0 32 .read = some (0, 1) ∧
    (let i : Instr := .obld 1 2
     let f : Form := { ks := [1, 2] }
     let s := fun a => withRecord (withGang i (withK12 0 a)) id
     (∀ a ∈ [32, 16384], canIssue i f unit0 (s (BitVec.ofNat 64 a)) = true) ∧ canIssue i f unit0 (loaded i) = true ∧ ((loaded i).record 0 0).state = .free ∧
     (∀ g ∈ [raced, marred], canIssue i f unit0 (g (s 0)) = true) ∧ ((raced (s 0)).team 0).raceAt 0 0 2304 .read = some (0, 1) ∧
     (marred (s 0)).spadBad (placeOf (s 0) unit0 0) 8 = true) := by decide +kernel

/-- The gang of the tests stands as given in the pending set. -/
def standing (a r : Option Nat) : State := withGang .nop (fun g => { g with active := a, ready := r })
/-- Nine gangs of quadrant 0: eight ACTIVE and one ready. -/
def nineGangs : State := { loaded .nop with
  teams := (upTo 9).map (fun i => { probeTeam with gangs := [if i = 8 then { active := none, ready := some 9 } else { active := some i, ready := none }] }) }
theorem witness_IssueStageEvents :
    (let s := standing none (some 5)
     (0, 0) ∈ s.quadGangs 0 0 ∧ (s.gang 0 0).ready = some 5 ∧ s.quadGangs 0 0 = [(0, 0)] ∧
       ((s.quadGangs 0 0).filter (fun y => (s.gang y.1 y.2).active.isSome)).length = 0) ∧
    (let s := nineGangs
     (8, 0) ∈ s.quadGangs 0 0 ∧ (s.gang 8 0).ready = some 9 ∧ (s.gang 0 0).active = some 0 ∧
       8 ≤ ((s.quadGangs 0 0).filter (fun y => (s.gang y.1 y.2).active.isSome)).length ∧
       (∀ y ∈ s.quadGangs 0 0, y ≠ (0, 0) → (s.gang y.1 y.2).active = some 0 → False)) ∧
    (∀ y ∈ (standing (some 0) none).quadGangs 0 0, ((standing (some 0) none).gang y.1 y.2).ready = none) ∧
    (∀ k ∈ [.bar 15 0, .swait 0 0, .regang 0xFF], let s := withGang .nop (waiting k)
      (s.team 0).scheduled = true ∧ (s.gang 0 0).halted = false ∧ (s.gang 0 0).subgang 0 ≠ 0#8 ∧ ((s.gang 0 0).slice 0).wait = some ⟨k, 0⟩ ∧
        (timeoutDetail k).isSome = true ∧ s.cycle < 0 + (s.gang 0 0).watchdog ∧ ({ s with cycle := 2 ^ 31 } : State).cycle = 2 ^ 31) ∧
    (let s := (withSide .nop []).modTeam 0 (fun t => { t with side := { t.side with wait := some ⟨.qpush 0 [], 0⟩ } })
     (s.team 0).scheduled = true ∧ (s.team 0).side.stopped = false ∧ (s.team 0).side.wait = some ⟨.qpush 0 [], 0⟩) ∧
    ((loaded .nop).gang 0 0).log = [] ∧
    ((withGang .nop (fun g => { g with log := [⟨.invalid, 0, 1, 1, 0, 0, false⟩] })).gang 0 0).log.length = 1 := by decide

theorem witness_IssueStageEvents_over :
    (let s := { phase1 (withGang .nop (waiting (.bar 15 0))) with cycle := 2 ^ 31 }
     s.cleared 0 0 ((s.gang 0 0).subgang 0) (.bar 15 0) = true ∧ (s.gang 0 0).watchdog ≤ s.cycle) ∧
    (let s := { withGang .nop (waiting (.bar 15 0)) with cycle := 2 ^ 31 }
     s.cleared 0 0 ((s.gang 0 0).subgang 0) (.bar 15 0) = false ∧ (s.gang 0 0).watchdog ≤ s.cycle) := by decide

/-- An entry: KIND, FLAGS, COND, LEN, SRC, DST and SYNC. -/
def entry0 (kind flags cond len src dst sync : Nat) : List Byte :=
  leBytes 1 kind ++ leBytes 1 flags ++ leBytes 1 cond ++ [0] ++ leBytes 4 len ++ leBytes 8 src ++ leBytes 8 dst ++ leBytes 8 sync
/-- No sync word. -/
def noSync : Nat := 2 ^ 64 - 1
/-- A chain in progress at the entry at 64 of the window. -/
def cmd0 : Cmd := { team := 0, gang := 0, seq := 0, skipper := false, addr := 0, startAt := 0, stage := .running, chain := { entry := 64, run := 32 }, skip := {} }
/-- The state with that chain, changed, and an entry. -/
def chained (e : List Byte) (f : Chain → Chain) : State :=
  let s : State := { loaded .nop with cmds := [{ cmd0 with chain := f cmd0.chain }] }
  s.spadWrite (placeOf s unit0 64) e
/-- The engine has reached the entry. -/
def reached (s : State) (e : List Byte) : Bool :=
  s.cmdRuns 0 && !(s.cmd 0).skipper && !(s.cmd 0).chain.opened && decide (s.entryBytes 0 = some e)
theorem witness_ChainEntries_open :
    (∀ e ∈ [entry0 1 0x60 0 64 128 256 512, entry0 2 0x40 0 64 5 256 512],
      reached (chained e id) e = true ∧ (entryOf e).ok ((chained e id).team 0) = true ∧
      (entrySync ((chained e id).team 0) ((chained e id).cmd 0).chain (entryOf e)).isOk = true) ∧
    (let e := entry0 2 0x40 0 64 5 256 512
     let f := fun c : Chain => { c with loopAt := some 96, iter := 1, ystride := 8 }
     reached (chained e f) e = true ∧ (entryOf e).ok ((chained e f).team 0) = true ∧
      (entrySync ((chained e f).team 0) ((chained e f).cmd 0).chain (entryOf e)).isOk = false) ∧
    (let e := entry0 1 0xFF 0 64 128 256 512
     reached (chained e id) e = true ∧ (entryOf e).ok ((chained e id).team 0) = false ∧ chainWord (entryOf e).kind 0 = some (.copye 0)) := by decide
theorem witness_ChainEntries_rest :
    (∀ d ∈ [(0x40, true), (0, false)], let e := entry0 3 d.1 0 1 0 512 noSync
      reached (chained e id) e = true ∧ (entryOf e).ok ((chained e id).team 0) = true ∧
      ((chained e id).namedSync ((chained e id).team 0) (entryOf e).dst (entryOf e).dwin 0).isOk = d.2) ∧
    (∀ n ∈ [0, 3], let e := entry0 4 0 0 1 n 0 noSync
      reached (chained e id) e = true ∧ (entryOf e).ok ((chained e id).team 0) = true ∧ (entryOf e).src.extractLsb' 0 32 = BitVec.ofNat 32 n ∧
      (chained e id).bodyOk ((chained e id).team 0) ((chained e id).cmd 0).chain 1 = true) ∧
    (∀ n ∈ [1, 2], let e := entry0 4 0 0 1 3 0 noSync
      let f := fun c : Chain => { c with loopAt := some 64, loopLeft := n }
      reached (chained e f) e = true ∧ ((chained e f).cmd 0).chain.loopLeft = n ∧
      (chained e f).bodyOk ((chained e f).team 0) ((chained e f).cmd 0).chain 1 = true) ∧
    (let e := entry0 4 0 0 2 3 0 noSync
     reached (chained e id) e = true ∧ (entryOf e).ok ((chained e id).team 0) = true ∧
      (chained e id).bodyOk ((chained e id).team 0) ((chained e id).cmd 0).chain 2 = false) ∧
    (∀ x ∈ [(0, false), (1, true), (2, false)], let e := entry0 5 0x20 x.1 0 512 0 noSync
      reached (chained e id) e = true ∧ (entryOf e).ok ((chained e id).team 0) = true ∧
      ((chained e id).namedSync ((chained e id).team 0) (entryOf e).src (entryOf e).swin 0).isOk = true) ∧
    (∀ e ∈ [entry0 6 0 0 0 512 0 noSync, entry0 7 0 0 0 0 0 noSync],
      reached (chained e id) e = true ∧ (entryOf e).ok ((chained e id).team 0) = true) ∧
    (((({ loaded .nop with cmds := [{ cmd0 with stage := .stopping }] } : State).cmd 0).stage = .stopping)) := by decide

/-- The same chain with its entry begun. -/
def begun (e : List Byte) : State := chained e (fun c => { c with opened := true, cur := some e })
/-- The next chunk's source, read. -/
def chunkRead (s : State) (e : List Byte) : Option Io :=
  let c := s.cmd 0
  chunkSource s (s.team c.team) c.chain (entryOf e) (min 4096 (entryOf e).len) []
theorem witness_EngineChunks_copy :
    (let s := (loaded .nop : State)
     let s : State := { s with cmds := [{ cmd0 with chain := { entry := 8 } }] }
     s.cmdRuns 0 = true ∧ (s.cmd 0).chain.opened = false ∧ s.entryBytes 0 = none) ∧
    (reached (chained (leBytes 32 9) id) (leBytes 32 9) = true ∧ chainWord (entryOf (leBytes 32 9)).kind 0 = none) ∧
    (∀ e ∈ [entry0 1 0x60 0 64 128 256 noSync, entry0 2 0x40 0 64 5 256 noSync, entry0 1 0x60 0 64 128 256 512],
      let s := begun e
      let t := s.team 0
      s.cmdRuns 0 = true ∧ (s.cmd 0).chain.cur = some e ∧ (entrySync t (s.cmd 0).chain (entryOf e)).isOk = true ∧
      s.resolve t (entryOf e).dst (entryOf e).dwin 0 64 = some (.spad t.home (t.base + 256)) ∧
      (match chunkRead s e with | some rd => !rd.held && rd.code.isNone | none => false) = true ∧
      s.spadBad (t.key 128) 64 = false ∧ s.spadBad (t.key 512) 16 = false) ∧
    (let e := entry0 1 0x60 0 64 128 16384 noSync
     let s := begun e
     s.resolve (s.team 0) (entryOf e).dst (entryOf e).dwin 0 64 = none) ∧
    (let e := entry0 1 0x60 0 64 16384 256 noSync
     (chunkRead (begun e) e).isNone = true) ∧
    (let e := entry0 1 0x40 0 64 (2 ^ 47) 256 noSync
     (match chunkRead (begun e) e with | some rd => !rd.held && rd.code = some 3 | none => false) = true) := by decide

/-- A command block: MODE 0, I32, a predicate, SOURCE, COUNT, KCAP. -/
def block0 (mode ty pred src count kcap : Nat) : List Byte :=
  leBytes 1 mode ++ leBytes 1 ty ++ leBytes 1 pred ++ leBytes 5 0 ++ leBytes 8 0 ++ leBytes 8 src ++ leBytes 8 count ++ leBytes 4 kcap ++ leBytes 28 0
/-- A Skipper command in progress. -/
def skipping (b : List Byte) : State := { loaded .nop with cmds := [{ cmd0 with skipper := true, skip := { block := b } }] }
theorem witness_EngineChunks_skip :
    (let s := skipping (block0 0 0 99 0 4 4)
     s.cmdRuns 0 = true ∧ (s.cmd 0).skipper = true ∧ s.skipTurn 0 = true ∧ (blockFields (s.cmd 0).skip.block).fault = some 1) ∧
    ((blockFields (block0 0 0 1 (2 ^ 48) 4 4)).fault = some 2) ∧
    (let s := skipping (block0 0 0 1 0 4 4)
     (blockFields (s.cmd 0).skip.block).fault = none ∧ s.skipTurn 0 = true ∧ (s.cmd 0).skip.tainted = false) ∧
    (let s := skipping (block0 0 0 1 0 0 4)
     (blockFields (s.cmd 0).skip.block).fault = none ∧ (match s.scanFrom 0 3 0 0 with | .bytes bs => bs.isEmpty | _ => false) = true) ∧
    (let s := skipping (block0 0 0 1 (2 ^ 47) 4 4)
     (match s.scanFrom 0 3 (2 ^ 47) 16 with | .fault _ none => true | _ => false) = true) ∧
    ({ cmd0 with skipper := true, stage := .stopping } : Cmd).stage = .stopping := by decide

/-- The state of the tests with a grid descriptor at 4096 of device memory. -/
def queued (b : List Byte) : State := (loaded .nop).physWrite false 4096 b
/-- A queue entry: a descriptor at 4096, a sequence number, and dependences. -/
def qentry (q : Nat) (deps : List (Nat × Nat)) : List Word :=
  [4096#64, BitVec.ofNat 64 (q + deps.length * 2 ^ 32)] ++ ((deps.map (fun d => BitVec.ofNat 64 (d.1 + d.2 * 2 ^ 32))) ++ List.replicate 6 0#64).take 6
/-- The bytes of an entry. -/
def qbytes (e : List Word) : List Byte := (e.map (fun w => leBytes 8 w.toNat)).flatten
/-- The front end has taken one entry, whose standing is given. -/
def took1 (x : SeqState) (s : State) : State := { s with parts := [{ probePart with fe := { expected := 1#32, taken := 1, seqs := [x] } }] }
theorem witness_GridEvents_entry :
    (let s := queued desc0
     s.phase = .running ∧ (s.part 0).live = true ∧ (s.part 0).closing = false ∧ (s.part 0).fe.expected = 0#32 ∧
      s.entryHeld 0 (qbytes (qentry 0 [])) = false ∧ entryFieldsOk (s.part 0).fe (qbytes (qentry 0 [])) = true ∧
      (match s.descBytes 0 4096 with | (.spans _, b) => s.descLegal 0 b | _ => false) = true) ∧
    (let s := queued (leBytes 64 0)
     (match s.descBytes 0 4096 with | (.spans _, b) => s.descLegal 0 b | _ => true) = false) ∧
    field (qbytes (qentry 5 [])) 8 4 = 5 ∧
    (let e := (qentry 0 []).set 0 1#64
     entryFieldsOk ((queued desc0).part 0).fe (qbytes e) = false ∧ (queued desc0).entryHeld 0 (qbytes e) = false) ∧
    (let e := (qentry 0 []).set 0 (BitVec.ofNat 64 (2 ^ 40))
     entryFieldsOk ((queued desc0).part 0).fe (qbytes e) = true ∧ (queued desc0).entryHeld 0 (qbytes e) = false ∧
      (match (queued desc0).descBytes 0 (2 ^ 40) with | (.spans _, _) => false | _ => true) = true) ∧
    (∀ x ∈ [.refused, .retired, .waiting], let s := took1 x (queued desc0)
      (s.part 0).fe.expected = 1#32 ∧ entryFieldsOk (s.part 0).fe (qbytes (qentry 1 [(0, 0)])) = true ∧ (s.part 0).fe.seqState 0#32 = x ∧
      s.entryHeld 0 (qbytes (qentry 1 [(0, 0)])) = false) := by decide

/-- A grid that waits for its team. -/
def grid0 : Grid := { live := true, desc := { teams := 1, scratch := 16384, tagSets := 1, gangs := 1, vregs := 16 }, seq := some 0#32 }
/-- The state with that grid and no team. -/
def waiting1 : State := ({ loaded .nop with teams := [], grids := [grid0] } : State).modPart 0 (fun p => { p with fe := { expected := 1#32 } })
/-- The team has exited. -/
def exited1 : State := (loaded .nop).modTeam 0 (fun t => { t with gangs := [{ slices := (upTo 8).map (fun _ => { x := 15#4 }), ready := none }] })
theorem witness_GridEvents_teams :
    waiting1.served 0 = some 0 ∧ (waiting1.placeable 0).isSome = true ∧
    (waiting1.grid 0).seq = some 0#32 ∧ (waiting1.grid 0).placed = 0 ∧ ((waiting1.part 0).fe.expected - 1#32 - 0#32).toNat < 4096 ∧
    (loaded .nop).placeable 0 = none ∧ (loaded .nop).served 0 = none ∧
    exited1.mayRetire 0 = true ∧ (loaded .nop).mayRetire 0 = false ∧
    (∀ g, g < (exited1.team 0).ngang → (exited1.gang 0 g).log = [] ∧ ∀ f ∈ (exited1.gang 0 g).enc.flags, f.unsynced = false) ∧
    (exited1.grid 0).live = true ∧ (exited1.grid 0).placed = 1 ∧ (exited1.grid 0).retired + 1 = (exited1.grid 0).desc.teams ∧ (exited1.grid 0).seq = none ∧
    (let s := exited1.modGrid 0 (fun g => { g with seq := some 0#32 })
     (s.grid 0).seq = some 0#32 ∧ (s.grid 0).retired + 1 = (s.grid 0).desc.teams) ∧
    (let s := exited1.modGrid 0 (fun g => { g with desc := { g.desc with teams := 2 } })
     (s.grid 0).retired + 1 ≠ (s.grid 0).desc.teams) := by decide

/-- The core of the test's team is above its limit, and the team has been there long enough. -/
def hot0 : State := { loaded .nop with cycle := 625000, cores := [{ thermalLimit := some 50 }] }
theorem witness_GridEvents_heat :
    hot0.clocked = true ∧ (hot0.core 0).lastMigration = none ∧ hot0.phase = .running ∧ (hot0.core 0).thermalLimit = some 50 ∧ 50 < 60 ∧
    (loaded .nop).clocked = true ∧ ((loaded .nop).core 0).thermalLimit = none ∧
    (hot0.modCore 0 (fun c => { c with hot := true })).migrant 0 = some 0 ∧
    ((hot0.modCore 0 (fun c => { c with hot := true })).coolTarget 0 ([0, 1].filter (fun d => d ≠ 0))).map (·.1) = some 1 ∧
    ((hot0.modCore 0 (fun c => { c with hot := true })).coolTarget 0 ([0].filter (fun d => d ≠ 0))).isNone = true ∧
    ((loaded .nop).modCore 0 (fun c => { c with hot := true })).migrant 0 = none := by decide

/-- Lane 0 of an operation, at an address, in a stage. -/
def lane0 (a : Word) (st : LaneStage) : RemLane := { stage := st, addr := a, val := 5 }
/-- An operation of the test's gang with that lane. -/
def op0 (k : RemKind) (x : RemLane) : RemOp :=
  { kind := k, team := 0, gang := 0, part := 0, core := 0, d := 4, pc := 0, seq := 0, stamp := 5, committed := false, lanes := [x] }
/-- The state of the tests with operations; page 1 is a stamped page over frame 8. -/
def flying (os : List RemOp) : State :=
  let s := loaded .nop
  { s with ops := os, kmem := memSet s.kmem (114688 + 8) 8 (2 ^ 63 + 2 ^ 60 + 2 ^ 59 + 2 ^ 58 + 524288),
           windows := [{ state := .open_, part := 0, base := 0, limit := 131072, key := 7, r := true, w := true }] }
/-- The address of offset 8 of core 0's scratchpad. -/
def spad8 : Word := 0x8000000000000008#64
/-- A request of another module. -/
def extReq (k : ReqKind) (off : Nat) : ExtReq := { src := 3, id := 1, window := 0, key := 7, kind := k, off := off, size := 8, val := 5, cmp := 5, data := [] }
/-- What the judgement of a lane's address finds. -/
def judgedMem (x : HomePlace) : Bool := match x with | .mem _ _ => true | _ => false
/-- What the judgement of a request finds. -/
def judgedSpans (x : Judged × Nat) : Bool := match x.1 with | .spans _ => true | _ => false
theorem witness_RemoteArrivals_answer :
    ((flying [op0 .rld (lane0 spad8 .sent)]).answerOf 0 0 none).isNone = true ∧
    (∀ a ∈ [.value 7#64, .fault 6#8], (flying [op0 .rld (lane0 spad8 (.reply a))]).answerOf 0 0 none = some a) ∧ RemKind.counter .rld = .olc ∧
    (flying [op0 .ldat (lane0 0x10000 (.reply (.pair 7#64 2#64)))]).answerOf 0 0 none = some (.pair 7#64 2#64) ∧ RemKind.counter .ldat = .olc ∧
    (∀ a ∈ [.ack, .rlate 5#64, .fault 3#8], (flying [op0 .stmp (lane0 0x10000 (.reply a))]).answerOf 0 0 none = some a) ∧ RemKind.counter .stmp = .osc ∧
    (let s := flying [op0 .rld (lane0 spad8 (.reply .ack))]
     ∀ k, k < 32 → k ≠ 0 → ((s.op 0).lane k).stage = .idle) ∧
    (let s := flying [{ op0 .rld (lane0 spad8 (.reply .ack)) with lanes := [lane0 spad8 (.reply .ack), lane0 spad8 .sent] }]
     ((s.op 0).lane 1).stage ≠ .idle) := by decide
theorem witness_RemoteArrivals_own :
    (let s := flying [op0 .rld (lane0 spad8 .sent)]
     s.atHome 0 0 = true ∧ s.flagHeld 0 0 = false ∧ s.ownPlace 0 ((s.op 0).lane 0) .rld = .spad 0 8 ∧ s.spadBad (spadKey 0 8) 8 = false) ∧
    (let s := { flying [op0 .rld (lane0 spad8 .sent)] with bad := { spad := [1] } }
     s.ownPlace 0 ((s.op 0).lane 0) .rld = .spad 0 8 ∧ s.spadBad (spadKey 0 8) 8 = true) ∧
    (let s := flying [op0 .rst (lane0 spad8 .sent), op0 .rstf (lane0 spad8 .sent)]
     s.atHome 1 0 = true ∧ s.flagHeld 1 0 = true) ∧
    (let s := flying [op0 .rld (lane0 (BitVec.ofNat 64 (2 ^ 47)) .sent)]
     s.ownPlace 0 ((s.op 0).lane 0) .rld = .fault 3) ∧
    (let s := flying [op0 .rst (lane0 64#64 .sent)]
     judgedMem (s.ownPlace 0 ((s.op 0).lane 0) .rst) = true) ∧
    (let s := flying [op0 .ldat (lane0 0x10000#64 .sent)]
     s.atHome 0 0 = true ∧ s.flagHeld 0 0 = false ∧ judgedMem (s.ownPlace 0 ((s.op 0).lane 0) .ldat) = true ∧ s.tb.tstate ≠ 3#2) := by decide
theorem witness_RemoteArrivals_other :
    (∀ k ∈ [ReqKind.rld, .rst, .raadd, .rcas, .engRead, .engWrite, .sync], judgedSpans ((flying []).judgeWindow 0 7 k 64 8) = true) ∧
    (∀ k ∈ [ReqKind.ldat, .stmp], judgedSpans ((flying []).judgeWindow 0 7 k 65536 8) = true) ∧
    ((flying []).judgeWindow 0 8 .rld 64 8).1 = .fault 7 ∧ ((flying []).judgeWindow 0 7 .rld 131072 8).1 = .fault 7 ∧
    ((flying []).judgeWindow 0 7 .rld 65536 8).1 = .fault 5 ∧ (flying []).tb.tstate ≠ 3#2 := by decide

/-- The timebase unit has given the interval's lower end. -/
def atTe (n : Nat) (s : State) : State := { s with tb := { s.tb with te := n } }
/-- The stamped store of the tests, at its cell. -/
def storing : State := flying [op0 .stmp (lane0 0x10000#64 .sent)]
theorem witness_StampedArrivals_stores :
    storing.atHome 0 0 = true ∧ (storing.op 0).kind = .stmp ∧ storing.stampTurn 0 0 = true ∧ storing.tb.tstate ≠ 3#2 ∧
    judgedMem (storing.ownPlace 0 ((storing.op 0).lane 0) .stmp) = true ∧ storing.physBad false 524288 64 = false ∧
    (storing.insertVersion 524288 5 5 (.own 0 0)).2 = .inserted ∧
    ((atTe 326 storing).insertVersion 524288 5 5 (.own 0 0)).2 = .late ∧ ((atTe 325 storing).insertVersion 524288 5 5 (.own 0 0)).2 = .inserted ∧
    (let s := storing.physWrite false (524288 + 8) (leBytes 8 6)
     (s.insertVersion 524288 5 5 (.own 0 0)).2 = .discarded) ∧
    ({ storing with bad := { hbm := [65536] } } : State).physBad false 524288 64 = true ∧
    Memory.wf storing.hbm = true := by decide
theorem witness_StampedArrivals_releases :
    (atTe 6 storing).op 0 = storing.op 0 ∧ 0 < (atTe 6 storing).ops.length ∧ (storing.op 0).committed = false ∧ (storing.op 0).stamp.toNat < (atTe 6 storing).tb.te ∧
    ¬ (storing.op 0).stamp.toNat < (atTe 5 storing).tb.te ∧
    (∀ x ∈ [true, false], let s := flying [op0 .stmp (lane0 0x10000#64 (.releasing x))]
      ((s.op 0).lane 0).stage = .releasing x ∧ 0 < s.ops.length ∧ s.tb.tstate ≠ 3#2) ∧
    (∀ x ∈ [true, false], let s := { flying [] with inbound := [{ src := 3, id := 1, window := 0, part := 0, cell := 524288, va := 65536, t := 5, read := x }] }
      (s.inbound.find? (fun y => y.src = 3 && y.id = 1 && y.read = x)).isSome = true) := by decide
theorem witness_StampedArrivals_reads :
    (let s := atTe 6 (flying [op0 .ldat (lane0 0x10000#64 .port)])
     ((s.op 0).lane 0).stage = .port ∧ ((s.op 0).lane 0).val.toNat < s.tb.te) ∧
    (∀ x ∈ [(326, true), (325, false)], let s := atTe x.1 (flying [op0 .ldat { lane0 0x10000#64 .settling with cell := 524288 }])
      ((s.op 0).lane 0).stage = .settling ∧ s.settled 524288 ((s.op 0).lane 0).val.toNat = x.2) ∧
    (let s := flying []
     s.physBad false 524288 64 = false ∧ (s.slots 524288).filter (fun v => v.tick ≤ 5) ≠ []) ∧
    (let s := (flying []).physWrite false 524288 (((upTo 4).map (fun i => leBytes 16 ((6 + i) * 2 ^ 64))).flatten)
     (s.slots 524288).filter (fun v => v.tick ≤ 5) = []) ∧
    (∃ xs, (flying []).judge 0 0x10000 8 false true true = .spans xs) ∧ (∀ xs, (flying []).judge 0 0 8 false true true ≠ .spans xs) :=
  ⟨by decide, by decide, by decide, by decide, ⟨_, rfl⟩, fun _ h => by cases h⟩

/-- A running module whose timebase unit is as given. -/
def ticking (f : Timebase → Timebase) : State := { loaded .nop with tb := f { fresh := false, now := 1000, te := 990, tl := 1010 } }
/-- A link transfer. -/
def link0 (n est eps te tl : Nat) : LinkTransfer := { link := n, est := est, eps := eps, te := te, tl := tl, ok := true, lost := false }
theorem witness_TimebaseEvents_state :
    (let held := fun t : Timebase => t.rejoin.isSome || t.fresh || t.lost || decide (t.epsFail < t.eps0 + (50 * t.n + 999999) / 1000000)
     let s := ticking id
     s.tb.tstate ≠ 3#2 ∧ held s.tb = false ∧ s.tb.eps ≤ s.tb.epsCommit ∧ s.clocked = true ∧
     (let s := ticking (fun t => { t with eps0 := 33 })
      held s.tb = false ∧ s.tb.epsCommit < s.tb.eps) ∧
     (let s := ticking (fun t => { t with eps0 := 257 })
      held s.tb = true)) ∧
    State.reset.clocked = false ∧ (ticking (fun t => { t with tstate := 3#2 })).tb.tstate = 3#2 ∧
    (ticking (fun t => { t with rejoin := some 0 })).tb.rejoin = some 0 := by decide
theorem witness_TimebaseEvents_links :
    (let s := ticking id
     let good := link0 0 1000 4 996 1010
     (s.portsOff.contains good.link = false ∧ good.ok = true ∧ good.te ≤ s.tb.tl ∧ s.tb.te ≤ good.tl) ∧
     (let bad := link0 0 2000 4 1996 2010
      bad.ok = true ∧ ¬ (bad.te ≤ s.tb.tl ∧ s.tb.te ≤ bad.tl))) ∧
    (let s := ticking (fun t => { t with tstate := 3#2 })
     s.phase = .running ∧ s.tb.tstate = 3#2 ∧ ∀ z ∈ [link0 0 1000 4 996 1010, link0 1 1001 5 1004 1010], z.ok = true ∧ 4 ≤ z.eps ∧
       z.te ≤ 1000 + 4 ∧ 1000 - 4 ≤ z.tl) ∧
    (¬ (link0 1 1001 5 1005 1010).te ≤ 1000 + 4) ∧ (16 ≤ 16 ∧ 16 ≤ 2 ^ 20 ∧ ¬ 16 ≤ 15 ∧ 1 ≤ 32 ∧ 32 ≤ 65535 ∧ 32 ≤ 256 ∧ 256 ≤ 2 ^ 20) ∧
    Memory.wf (ticking id).hbm = true := by decide

/-- A CREATE block, its first 80 bytes in order. -/
def create0 (part lo hi colours len period : Nat) : List Byte :=
  [BitVec.ofNat 8 part, BitVec.ofNat 8 lo, BitVec.ofNat 8 hi, 0] ++ leBytes 2 colours ++ [0, 0] ++ leBytes 8 0 ++ leBytes 8 len ++ leBytes 8 (2 ^ 24) ++
    leBytes 8 0 ++ leBytes 8 0 ++ leBytes 4 4 ++ leBytes 4 period ++ leBytes 8 0 ++ leBytes 4 16 ++ leBytes 4 0 ++ leBytes 56 0
theorem witness_PartitionCommands_create :
    (∀ x ∈ [(create0 1 1 1 1 65536 10, none), (create0 0 1 1 1 65536 10, some 1), (create0 1 0 1 1 65536 10, some 2), (create0 1 1 1 0 65536 10, some 3),
        (create0 1 1 1 1 65536 9, some 4), (create0 1 1 1 1 4096 10, some 5)], (loaded .nop).createStatus x.1 = x.2) ∧
    ({ loaded .nop with epochNext := 2 ^ 32 } : State).createStatus (create0 1 1 1 1 65536 10) = some 6 ∧ (loaded .nop).phase = .running := by decide

/-- The partition of the tests, changed. -/
def withPart (f : Partition → Partition) : State := { loaded .nop with parts := [f probePart] }
theorem witness_PartitionCommands_rest :
    (let s := withPart (fun x => { x with usage := { set := true, base := 0, n := 4 } })
     s.usageFull 0 = false ∧ (s.part 0).heldClosing = none ∧ (s.part 0).nextDue ≤ s.tb.now) ∧
    (let s := withPart (fun x => { x with usage := { set := true, base := 0, n := 0 } })
     s.usageFull 0 = true) ∧
    (loaded .nop).unitsDue ≤ (loaded .nop).tb.now ∧ ((loaded .nop).part 0).live = true ∧ ((loaded .nop).part 0).closing = false ∧ ((loaded .nop).part 1).live = false ∧
    (let s := withPart (fun x => { x with closing := true })
     (s.part 0).closing = true ∧ (s.part 0).heldClosing = none ∧ s.opsEnded 0 = true ∧ (∀ w ∈ s.windows, w.part = 0 → w.state = .free) ∧
      ({ s with ops := [op0 .rld (lane0 spad8 .sent)] } : State).opsEnded 0 = false ∧
      ¬ (∀ w ∈ [({ state := .open_, inflight := 1 } : Window)].map (fun w => w.close 0), w.part = 0 → w.state = .free)) ∧
    ((withPart (fun x => { x with closing := true, heldClosing := some [] })).part 0).heldClosing = some [] ∧
    ((withPart (fun x => { x with trap := { set := true, base := 0, n := 16 }, held := [⟨0, []⟩] })).part 0).trap.set = true ∧
    (16 ≤ 16 ∧ 16 ≤ 1048576 ∧ 16 = 2 ^ 4) := by decide

/-- The page at 65536 of the test's partition, by its leaf. -/
def leafed (raw : Nat) : State :=
  let s := loaded .nop
  { s with kmem := memSet s.kmem (114688 + 8) 8 raw }
/-- A FAR leaf over far frame 3, with R and W. -/
def farLeaf : Nat := 2 ^ 63 + 2 ^ 61 + 2 ^ 60 + 2 ^ 59 + 3 * 65536
/-- The leaf that a walk finds, as its bits. -/
def leafRaw (w : Walk) : Option Word := match w with | .leaf l => some l.raw | _ => none
theorem witness_WindowsAndPages :
    (let s := loaded .nop
     s.phase = .running ∧ (s.window 127).state = .free ∧ (s.part 0).live = true ∧ (s.part 1).live = false ∧ 65536 % 65536 = 0) ∧
    (let s := flying []
     (s.window 0).state = .open_ ∧ (s.window 0).inflight = 0) ∧
    (let s := { flying [] with windows := [{ state := .revoking }] }
     (s.window 0).state = .revoking ∧ (s.window 0).inflight = 0) ∧
    (let raw := 2 ^ 63 + 2 ^ 57 + 5 * 65536
     let s := leafed raw
     leafRaw (s.walk 0 65536) = some (BitVec.ofNat 64 raw) ∧ (BitVec.ofNat 64 raw).getLsbD 57 = true ∧ s.zeroing = [] ∧ s.judgedRefs = []) ∧
    (∀ raw ∈ [2 ^ 63 + 2 ^ 57 + 5 * 65536, 2 ^ 63 + 5 * 65536], let s := { leafed raw with zeroing := [(0, 65536, BitVec.ofNat 64 (2 ^ 63 + 2 ^ 57 + 5 * 65536))] }
      (s.zeroing.find? (fun x => x.1 = 0 && x.2.1 = 65536)).isSome = true ∧ leafRaw (s.walk 0 65536) = some (BitVec.ofNat 64 raw)) ∧
    (∀ mig ∈ [2 ^ 54, 0], ∀ b ∈ [[], [3 * 8192]],
      let s := { leafed (farLeaf + mig) with pageIns := [{ part := 0, va := 65536, old := BitVec.ofNat 64 farLeaf, frame := 9 * 65536 }], bad := { far := b } }
      (s.pageIns.find? (fun x => x.part = 0 && x.va = 65536)).isSome = true ∧ leafRaw (s.walk 0 65536) = some (BitVec.ofNat 64 (farLeaf + mig))) ∧
    Memory.wf (loaded .nop).hbm = true ∧ Memory.wf (loaded .nop).far = true ∧ Memory.wf (loaded .nop).kmem = true := by decide
theorem witness_WindowsAndPages_far :
    (loaded .nop).physBad true (3 * 65536) 65536 = false ∧ ({ loaded .nop with bad := { far := [3 * 8192] } } : State).physBad true (3 * 65536) 65536 = true := by
  constructor
  · rw [show (loaded .nop).physBad true (3 * 65536) 65536 = marked [] (3 * 65536) 65536 from rfl]
    simp [marked]
  · rw [show ({ loaded .nop with bad := { far := [3 * 8192] } } : State).physBad true (3 * 65536) 65536 = marked [3 * 8192] (3 * 65536) 65536 from rfl]
    unfold marked wordsOf
    rw [if_neg (by decide), List.any_map, List.any_eq_true]
    exact ⟨0, mem_upTo.2 (by decide), by decide⟩

/-- A team that is being saved, with its gang as given. -/
def saving (f : Gang → Gang) : State := (withGang .nop f).modTeam 0 (fun t => { t with status := .saving 100 })
/-- A saved team whose area at 8192 holds what a restore reads of it: the header, and the save's number in each part. -/
def saved0 : State :=
  let s := (loaded .nop).modTeam 0 (fun t => { t with status := .saved, area := 8192, nbanks := 1, physBanks := [0], rewound := 1,
                                                      gangs := [{ instar := { recipe := 64, blen := 3 } }] })
  { s with
    hbm := memWrite (memWrite (memWrite s.hbm 8192 (s.saveHeader 0)) (8192 + 256) (leBytes 8 0)) (8192 + s.imageOffset 0)
      ((s.team 0).imageHeader 0 ++ leBytes 8 0)
    saves := [{ slot := 0, team := s.team 0, window := [], records := [] }] }
/-- Every slice of the gang stands stopped. -/
def stoppedAll (g : Gang) : Gang := g.modSlices 0xFF#8 (fun _ x => { x with stopped := true })
theorem witness_ContextCommands_save :
    (let s := loaded .nop
     0 < s.teams.length ∧ (s.team 0).live = true ∧ (s.team 0).released = false ∧ (s.team 0).status = .running ∧ 12500 ≤ 250000 ∧ 250000 ≤ 125000000) ∧
    ((saving id).team 0).status = .saving 100 ∧ ((saving id).modTeam 0 Team.rewindGangs).saveDone 0 = false ∧
    ((saving stoppedAll).modTeam 0 Team.rewindGangs).saveDone 0 = true ∧
    ((saving (fun g => { g with instar := { g.instar with rewindable := true } })).modTeam 0 Team.rewindGangs).saveDone 0 = true ∧
    ({ saving id with cycle := 100 } : State).saveDone 0 = false ∧ ((saving id).team 0).gangDone 0 = false := by decide
theorem witness_ContextCommands_restore :
    (saved0.team 0).status = .saved ∧ (saved0.team 0).live = true ∧ saved0.areaOk 0 8192 = true ∧ saved0.areaOk 0 4096 = false ∧
    (saved0.fitTeam 0 1).isSome = true ∧ (saved0.fitTeam 0 400).isNone = true ∧
    (saved0.team 0).rewound.getLsbD 0 = true ∧ (saved0.gang 0 0).instar.blen ≠ 0 ∧ 0 < (saved0.team 0).ngang ∧
    (((saved0.savedIn 0 (8192 + 256)).map (·.team.saveNum)) = some (saved0.team 0).saveNum) := by decide
theorem witness_ContextCommands_stopped :
    (let s := withGang .nop stoppedAll
     s.actOn 0 0 0 = some 0xFF#8 ∧ s.actOn 0 0 1 = none ∧ (s.gang 0 0).instar.body = none ∧
      s.ctxOpen 0 (.kreg 0 1) = true ∧ ctxWritable (.kreg 0 1) { val := 0, full := true, poison := false, entries := [] } = true ∧
      ctxWritable (.levels 0) { val := 0, full := true, poison := false, entries := [] } = false) ∧
    (loaded .nop).ctxOpen 0 (.kreg 0 1) = false ∧ (loaded .nop).actOn 0 0 0 = none ∧
    (let s := (withSide .nop []).modTeam 0 (fun t => { t with side := { t.side with stopped := true } })
     s.actOn 0 16 0 = some 0#8) := by decide

/-- A module that restarts its kernel until cycle 100. -/
def restarting (c : Nat) : State := { loaded .nop with phase := .restarting, restartEnd := 100, cycle := c }
/-- The hypotheses that rest on the fused key's answer (log entry 6) hold of every module for one of its two values. -/
theorem witness_ModuleEvents :
    State.reset.phase = .off ∧ State.reset.flashOk = true ∧ ({ State.reset with flashOk := false } : State).flashOk = false ∧ (loaded .nop).phase ≠ .off ∧
    (loaded .nop).clocked = true ∧ State.reset.clocked = false ∧ (loaded .nop).phase = .running ∧
    (restarting 99).phase = .restarting ∧ ¬ (restarting 99).restartEnd ≤ (restarting 99).cycle ∧ (restarting 100).restartEnd ≤ (restarting 100).cycle ∧
    ((loaded .nop).team 0).live = true ∧ (loaded .nop).trapHeld 0 ≠ none ∧
    (withPart (fun x => { x with trap := { set := true, base := 0, n := 16 } })).trapHeld 0 = none := by decide
theorem witness_ModuleEvents_key (s : State) : Config.falconAccepts s.firmware = true ∨ Config.falconAccepts s.firmware = false := by
  cases Config.falconAccepts s.firmware <;> simp

end Sys2Proof.Tests
end

section
namespace Sys2Proof.Machine

open Sys2Proof Sys2Proof.Safety

/-! ### Rows of the vector tables -/

/-- The word is its row: where it issues, it completes, the participating lanes of the row's destination take the row's results, and the
log takes the row's causes. -/
def MeetsRow (i : Instr) (sp : LaneSpec) : Prop :=
  ∀ s u vals s1 popped, GangIssues i sp.form u s vals s1 popped →
    ∃ t, exec i s = .next t ∧ OnlyGang s t u ∧
      VectorResult (s.gang u.team u.gang) (t.gang u.team u.gang) u.slices (partOf s u) sp.d
        (fun l => (sp.res (s.gang u.team u.gang) (valOf vals) l).1) ∧
      (t.gang u.team u.gang).log = logRaised s u (partOf s u) (fun l => (sp.res (s.gang u.team u.gang) (valOf vals) l).2)

/-- The word takes the shared lane-wise path (R108 to R110) with what its row says. -/
def LaneRow (i : Instr) (sp : LaneSpec) : Prop :=
  ∃ legal fn, (∀ s, exec i s = laneWord i sp.srcs sp.d legal fn s) ∧ sp.mode = readsEt legal ∧ sp.ks = [] ∧
    ∀ g v l, sp.res g v l = fn ((gmEt g.gmode).getD .i8) (modesOf g.gmode) (fun j => v j l)

/-- A word of the shared lane-wise path meets its row. -/
theorem LaneRow.meets {i : Instr} {sp : LaneSpec} (h : LaneRow i sp) : MeetsRow i sp := by
  obtain ⟨legal, fn, hx, hm, hk, hr⟩ := h
  intro s u vals s1 popped hi
  rw [hx]
  exact lane_word hi rfl hm hk rfl hr

/-- Every row of the arithmetic table is on the shared path. -/
theorem arithmeticSpec_laneRow {i : Instr} {sp : LaneSpec} (h : arithmeticSpec i = some sp) : LaneRow i sp := by
  unfold arithmeticSpec at h
  split at h <;> cases h
  all_goals
    unfold LaneRow
    dsimp only [exec_add, exec_sub, exec_mul, exec_mulh, exec_fma, exec_fms, exec_min, exec_max, exec_abs, exec_neg,
      exec_and, exec_or, exec_xor, exec_andn, exec_shl, exec_shr, exec_rot, exec_bits, exec_bfx, exec_bfi, exec_div,
      exec_rem, exec_mov, exec_dot4, exec_crc, exec_subx]
    exact ⟨_, _, fun _ => rfl, rfl, rfl, fun _ _ _ => rfl⟩

/-- Every row of the immediate table is on the shared path. -/
theorem immediateSpec_laneRow {i : Instr} {sp : LaneSpec} (h : immediateSpec i = some sp) : LaneRow i sp := by
  unfold immediateSpec at h
  split at h <;> cases h
  all_goals
    unfold LaneRow
    dsimp only [exec_addi, exec_muli, exec_mini, exec_maxi, exec_andi, exec_ori, exec_xori, exec_shli, exec_shri,
      exec_movi, exec_movhi]
    exact ⟨_, _, fun _ => rfl, rfl, rfl, fun _ _ _ => rfl⟩

/-- Every row of the table of special functions and conversions is on the shared path. -/
theorem functionSpec_laneRow {i : Instr} {sp : LaneSpec} (h : functionSpec i = some sp) : LaneRow i sp := by
  unfold functionSpec at h
  split at h <;> cases h
  all_goals
    unfold LaneRow
    dsimp only [exec_rcp, exec_rsq, exec_sqrt, exec_exp2, exec_log2, exec_sinpi, exec_cospi, exec_tanh, exec_cvt,
      exec_pack, exec_unpk, exec_rnd, exec_classf, exec_scalb]
    exact ⟨_, _, fun _ => rfl, rfl, rfl, fun _ _ _ => rfl⟩

/-- SEL and KBCAST write one register in the participating lanes and raise nothing, so they meet their rows (R117, R140). -/
theorem moveSpec_meets {i : Instr} {sp : LaneSpec} (h : moveSpec i = some sp) : MeetsRow i sp := by
  unfold moveSpec at h
  split at h <;> cases h
  case h_1 d a b wa wb n p =>
    intro s u vals s1 popped hi
    rw [logRaised_none]
    refine quiet_word hi rfl rfl d _ ?_
    rw [ctxOf_gang hi.isGang]
    congr 3
    funext l
    generalize hq : ((s.gang u.team u.gang).lane l).pred p = q
    show (if (q != n) = true then valOf vals 0 l else valOf vals 1 l) = if _ = n then valOf vals 1 l else valOf vals 0 l
    by_cases e : q = n <;> simp [hq, e]
  case h_2 d ka =>
    intro s u vals s1 popped hi
    rw [logRaised_none]
    refine quiet_word hi rfl rfl d _ ?_
    rw [ctx_k, ctxOf_gang hi.isGang]
    simp [kOf, hi.isGang, partOf]

/-! ### The obligations -/

/-- Settles O8: every row of the arithmetic table is a word of the shared lane-wise path. -/
theorem arithmeticWords : Obligations.ArithmeticWords :=
  fun _ _ h => (arithmeticSpec_laneRow h).meets

/-- Settles O9: every row of the immediate table is a word of the shared lane-wise path. -/
theorem immediateWords : Obligations.ImmediateWords :=
  fun _ _ h => (immediateSpec_laneRow h).meets

/-- Settles O10: every row of the table of special functions and conversions is a word of the shared lane-wise path. -/
theorem functionWords : Obligations.FunctionWords :=
  fun _ _ h => (functionSpec_laneRow h).meets

/-- Settles O11: SEL and KBCAST are quiet writes of one register. -/
theorem moveWords : Obligations.MoveWords :=
  fun _ _ h => moveSpec_meets h

end Sys2Proof.Machine
end

section
namespace Sys2Proof.Machine

open Sys2Proof Sys2Proof.Safety

/-! ### Uniform words -/

/-- The word takes the shared path of uniform words with what its row says: its value is the row's of the k registers the word sees. -/
def UniformRow (i : Instr) (sp : UniformSpec) : Prop :=
  ∃ f : Ctx → Word, (∀ s, exec i s = uniformWord i sp.ks sp.d f s) ∧ ∀ c, f c = sp.val c.k

/-- A shift of the sign takes at most 63 places. -/
theorem kShr_eq (arith : Bool) (a b : Word) : kShr arith a b =
    if arith then a.sshiftRight (min b.toNat 63) else if 64 ≤ b.toNat then 0#64 else a >>> b.toNat := by
  have e : (if 64 ≤ b.toNat then 63 else b.toNat) = min b.toNat 63 := by split <;> omega
  rw [kShr, e]

/-- The larger or the smaller of two. -/
theorem kPick_eq (u isMax : Bool) (a b : Word) : kPick u isMax a b =
    if (if u then a.ult b else a.slt b) then (if isMax then b else a) else (if isMax then a else b) := by
  unfold kPick
  generalize (if u then a.ult b else a.slt b) = lt
  cases lt <;> cases isMax <;> rfl

/-- Every uniform word is on the shared path. -/
theorem uniformSpec_row {i : Instr} {sp : UniformSpec} (h : uniformSpec i = some sp) : UniformRow i sp := by
  unfold uniformSpec at h
  split at h <;> cases h
  case h_8 d a b arith => exact ⟨_, exec_kshr d a b arith, fun c => kShr_eq arith (c.k a) (c.k b)⟩
  case h_12 d a b u => exact ⟨_, exec_kmin d a b u, fun c => kPick_eq u false (c.k a) (c.k b)⟩
  case h_13 d a b u => exact ⟨_, exec_kmax d a b u, fun c => kPick_eq u true (c.k a) (c.k b)⟩
  case h_14 d a b kf => exact ⟨_, exec_ksel d a b kf, fun c => ite_not ..⟩
  all_goals
    unfold UniformRow
    dsimp only [exec_kadd, exec_ksub, exec_kmul, exec_kand, exec_kor, exec_kxor, exec_kshl, exec_kaddi, exec_kmovi, exec_kmovhi]
    exact ⟨_, fun _ => rfl, fun _ => rfl⟩

/-- Settles O16: a uniform word of a sidecar is a write of one of the sidecar's k registers. -/
theorem sidecarUniformWords : Obligations.SidecarUniformWords := by
  intro i sp h s u hi
  obtain ⟨f, hx, hf⟩ := uniformSpec_row h
  have hk : (ctxOf i u s []).k = fun k => rowGet 0 (s.team u.team).side.k k.toNat := by
    funext k
    rw [ctx_k, kOf, if_pos hi.isSidecar]
  rw [hx]
  exact side_k_word hi rfl sp.d _ (by rw [ctx_u, hf, hk])

/-- A sidecar's word that changes the sidecar and sets the program counter itself. -/
theorem side_jump_word {i : Instr} {f : Form} {body : Ctx → State → Except Stop State} {s : State} {u : Issuer}
    (h : SidecarIssues i f u s) (hj : f.jumps = true) (F : Sidecar → Sidecar)
    (hb : body (ctxOf i u s []) s = .ok (s.modTeam u.team (fun t => { t with side := F t.side }))) :
    ∃ t, issue i f body s = .next t ∧ OnlySide s t u ∧ (t.team u.team).side = { F (s.team u.team).side with wait := none } := by
  obtain ⟨t, ht, hO, hS⟩ := side_completes h hb (onlySide_modSide (onlySide_refl s u) F)
  refine ⟨t, ht, hO, ?_⟩
  rw [hS, State.team_modTeam_same, hj]
  rfl

/-- Settles O20: a sidecar's KBR sets the sidecar's program counter, and the word's completion adds nothing. -/
theorem sidecarBranch : Obligations.SidecarBranch := by
  intro ka kb cc off s u hi
  have hg := hi.isSidecar
  have hk : ∀ k, (ctxOf (.kbr ka kb cc off) u s []).k k = rowGet 0 (s.team u.team).side.k k.toNat := by
    intro k
    rw [ctx_k, kOf, if_pos hg]
  refine side_jump_word hi rfl (fun x => { x with
    pc := if kbrHolds cc (rowGet 0 (s.team u.team).side.k ka.toNat) (rowGet 0 (s.team u.team).side.k kb.toNat)
      then (s.team u.team).side.pc + 4#64 + (off.signExtend 64 <<< 2) else (s.team u.team).side.pc + 4#64 }) ?_
  dsimp only
  rw [hk, hk, ctx_u, if_pos hg, ctxOf_side hg]
  rfl

end Sys2Proof.Machine
end

section
namespace Sys2Proof.Machine

open Sys2Proof Sys2Proof.Safety

/-! ### CSRR (R18 to R20) -/

/-- CSRR of a uniform register writes its value into the k register that the field names. -/
theorem csrr_uniform {d : BitVec 6} {n : BitVec 12} {s : State} {u : Issuer} {vals : List (List Word)} {s1 : State} {popped : Bool}
    (h : GangIssues (.csrr d n) { allActive := true } u s vals s1 popped) (hp : (csrOf n).perLane = false) :
    ∃ t, exec (.csrr d n) s = .next t ∧ OnlyGang s t u ∧ KResult (s.gang u.team u.gang) (t.gang u.team u.gang) u.slices (d.setWidth 5)
      (csrUniform s (ctxOf (.csrr d n) u s vals) (csrOf n)) := by
  obtain rfl : s = s1 := by
    have := h.operands
    rw [operandsOf_none rfl rfl] at this
    cases this
    rfl
  have hf : ({ dsts := if (csrOf n).perLane then [d] else [], allActive := true } : Form) = { allActive := true } := by rw [hp]; rfl
  rw [exec_csrr]
  unfold execCsrr
  dsimp only
  rw [hf]
  obtain ⟨t, ht, hO, hK, -⟩ := k_word h rfl rfl (d.setWidth 5) (csrUniform s (ctxOf (.csrr d n) u s vals) (csrOf n))
    (body := fun c s => if (csrOf n).perLane then .ok (s.writeV c.u d c.active (fun l => csrLane c (csrOf n) l))
      else .ok (s.writeK c.u (kNum d) (csrUniform s c (csrOf n)))) (by
      rw [hp, ctx_u]
      rfl)
  exact ⟨t, ht, hO, hK⟩

/-- CSRR of a per-lane register writes it into a vector register of the active lanes. -/
theorem csrr_perLane {d : BitVec 6} {n : BitVec 12} {s : State} {u : Issuer} {vals : List (List Word)} {s1 : State} {popped : Bool}
    (h : GangIssues (.csrr d n) { dsts := [d], allActive := true } u s vals s1 popped) (hp : (csrOf n).perLane = true) :
    ∃ t, exec (.csrr d n) s = .next t ∧ OnlyGang s t u ∧
      VectorResult (s.gang u.team u.gang) (t.gang u.team u.gang) u.slices ((s.gang u.team u.gang).activeOf u.slices) d
        (fun l => csrLane (ctxOf (.csrr d n) u s vals) (csrOf n) l) ∧
      (t.gang u.team u.gang).log = (s.gang u.team u.gang).log := by
  rw [exec_csrr]
  unfold execCsrr
  dsimp only
  rw [hp]
  refine quiet_word_in h rfl rfl d _ _ ?_
  rw [if_pos rfl, ctx_u, ctxOf_gang h.isGang]

/-- Settles O30: each number of R18 names its register, and CSRR writes what the register reads. -/
theorem csrReads : Obligations.CsrReads := by
  refine ⟨fun n v s u hmem d vals s1 popped h => ?_, fun d n s u vals s1 popped hn h => ?_⟩
  · have hv : (csrOf n).perLane = false ∧ csrUniform s (ctxOf (.csrr d n) u s vals) (csrOf n) = BitVec.ofNat 64 v := by
      rw [ctxOf_gang h.isGang]
      simp only [List.mem_cons, Prod.mk.injEq, List.not_mem_nil, or_false] at hmem
      rcases hmem with ⟨rfl, rfl⟩ | ⟨rfl, rfl⟩ | ⟨rfl, rfl⟩ | ⟨rfl, rfl⟩ | ⟨rfl, rfl⟩ | ⟨rfl, rfl⟩ | ⟨rfl, rfl⟩ | ⟨rfl, rfl⟩ |
        ⟨rfl, rfl⟩ | ⟨rfl, rfl⟩ | ⟨rfl, rfl⟩ | ⟨rfl, rfl⟩ | ⟨rfl, rfl⟩ | ⟨rfl, rfl⟩ | ⟨rfl, rfl⟩ | ⟨rfl, rfl⟩ | ⟨rfl, rfl⟩ |
        ⟨rfl, rfl⟩ | ⟨rfl, rfl⟩ <;> exact ⟨rfl, rfl⟩
    rw [← hv.2]
    exact csrr_uniform h hv.1
  · have hv : (csrOf n).perLane = true ∧ csrLane (ctxOf (.csrr d n) u s vals) (csrOf n) = fun l =>
        if n = 0x000#12 then BitVec.ofNat 64 l else if n = 0x001#12 then BitVec.ofNat 64 (l / 4)
        else ((s.gang u.team u.gang).lane l).invst := by
      rw [ctxOf_gang h.isGang]
      rcases hn with rfl | rfl | rfl <;> exact ⟨rfl, rfl⟩
    rw [← hv.2]
    exact csrr_perLane h hv.1

end Sys2Proof.Machine
end

section
namespace Sys2Proof.Machine

open Sys2Proof Sys2Proof.Safety

/-! ### Commands of INVST (R171) -/

/-- The nine state bits of a value, as a mask keeps them. -/
theorem setWidth_state (w : Half) : (w.extractLsb' 0 9).setWidth 64 = w.setWidth 64 &&& 0x1FF#64 := by
  apply BitVec.eq_of_toNat_eq
  have hm : (0x1FF : Nat) = 2 ^ 9 - 1 := rfl
  simp only [BitVec.toNat_and, BitVec.toNat_setWidth, BitVec.extractLsb'_toNat, BitVec.toNat_ofNat, Nat.shiftRight_zero]
  rw [show 511 % 2 ^ 64 = 2 ^ 9 - 1 from rfl, Nat.and_two_pow_sub_one_eq_mod]
  have := w.isLt
  omega

/-- A bracket read after one was written. -/
theorem bracket_setB (x : Lane) (n b : BitVec 2) (w : Word) : (x.setB n w).bracket b = if b = n then w else x.bracket b := by
  unfold Lane.setB Lane.bracket
  split
  · next h => subst h; exact rowGet_rowPut_same _ _ _ _
  · next h => exact rowGet_rowPut_other _ _ _ (fun e => h (BitVec.eq_of_toNat_eq e.symm))

/-- Command 0 replaces ACTIVE, ITER and STATUS. -/
theorem invstDone_set (n : BitVec 2) (w : Half) (x : Lane) : InvstDone 0 n w x (x.invstSet (w.extractLsb' 0 9)) := by
  refine ⟨rfl, rfl, rfl, fun b => ?_, ?_⟩
  · simp [Lane.invstSet, Lane.bracket]
  · rw [if_pos rfl, ← setWidth_state]
    rfl
/-- Command 4 loads the low endpoint. -/
theorem invstDone_lo (n : BitVec 2) (w : Half) (x : Lane) : InvstDone 4 n w x (x.invstLo n w) := by
  refine ⟨rfl, rfl, rfl, fun b => ?_, ?_⟩
  · refine (bracket_setB x n b _).trans ?_
    simp
  · exact BitVec.or_zero
/-- Command 5 loads the high endpoint. -/
theorem invstDone_hi (n : BitVec 2) (w : Half) (x : Lane) : InvstDone 5 n w x (x.invstHi n w) := by
  refine ⟨rfl, rfl, rfl, fun b => ?_, ?_⟩
  · refine (bracket_setB x n b _).trans ?_
    simp [BitVec.setWidth_eq_extractLsb']
  · exact BitVec.or_zero
/-- Command 6 copies the low endpoint into VIEW. -/
theorem invstDone_seeLo (n : BitVec 2) (w : Half) (x : Lane) : InvstDone 6 n w x (x.invstSeeLo n) := by
  refine ⟨rfl, rfl, rfl, fun b => ?_, ?_⟩
  · simp [Lane.invstSeeLo, Lane.bracket]
  · simp [Lane.invstSeeLo, invstView, BitVec.setWidth_eq_extractLsb']
/-- Command 7 copies the high endpoint into VIEW. -/
theorem invstDone_seeHi (n : BitVec 2) (w : Half) (x : Lane) : InvstDone 7 n w x (x.invstSeeHi n) := by
  refine ⟨rfl, rfl, rfl, fun b => ?_, ?_⟩
  · simp [Lane.invstSeeHi, Lane.bracket]
  · simp [Lane.invstSeeHi, invstView, BitVec.setWidth_eq_extractLsb']

/-- The values that are commands of the layout. -/
theorem invstLegal_iff (v : Word) : invstLegal v = true ↔ v.extractLsb' 34 27 = 0#27 ∧
    ((v.extractLsb' 61 3 = 0#3 ∧ v.extractLsb' 32 2 = 0#2 ∧ v.extractLsb' 9 23 = 0#23) ∨ v.extractLsb' 61 3 = 4#3 ∨ v.extractLsb' 61 3 = 5#3 ∨
      ((v.extractLsb' 61 3 = 6#3 ∨ v.extractLsb' 61 3 = 7#3) ∧ v.extractLsb' 0 32 = 0#32)) := by
  unfold invstLegal
  generalize v.extractLsb' 34 27 = r
  generalize v.extractLsb' 32 2 = n
  generalize v.extractLsb' 9 23 = z
  generalize v.extractLsb' 0 32 = w
  have h : ∀ c : BitVec 3, c = 0#3 ∨ c = 1#3 ∨ c = 2#3 ∨ c = 3#3 ∨ c = 4#3 ∨ c = 5#3 ∨ c = 6#3 ∨ c = 7#3 := by decide
  rcases h (v.extractLsb' 61 3) with h | h | h | h | h | h | h | h <;> rw [h] <;> simp

/-- A command of the layout acts as its number says. -/
theorem invstDone_write {v : Word} (h : invstLegal v = true) (x : Lane) :
    InvstDone (v.extractLsb' 61 3).toNat (v.extractLsb' 32 2) (v.setWidth 32) x (x.invstWrite v) := by
  have hs : invstState v = (v.setWidth 32).extractLsb' 0 9 := by
    unfold invstState
    apply BitVec.eq_of_toNat_eq
    simp [BitVec.extractLsb'_toNat]
  obtain ⟨-, ⟨h, -⟩ | h | h | ⟨h | h, -⟩⟩ := (invstLegal_iff v).mp h <;> unfold Lane.invstWrite <;> dsimp only <;> rw [h]
  · rw [hs]
    exact invstDone_set _ _ x
  · exact invstDone_lo _ _ x
  · exact invstDone_hi _ _ x
  · exact invstDone_seeLo _ _ x
  · exact invstDone_seeHi _ _ x

/-- An act of INVST of a unit that may issue. -/
theorem invstAct_of {s : State} {u : Issuer} (hu : s.issuer = some u) (hi : s.issuable u = true) (hg : u.gang ≠ 16) (f : Lane → Lane) :
    invstAct f s = .next (s.modGang u.team u.gang (fun g => g.modLanes (g.activeOf u.slices) (fun _ x => f x))) := by
  unfold invstAct
  rw [hu]
  simp [hi, hg]

/-- An act of INVST changes the active lanes as its command says, and nothing else. -/
theorem invstAct_done {s : State} {u : Issuer} (hu : s.issuer = some u) (hi : s.issuable u = true) (hg : u.gang ≠ 16) {f : Lane → Lane}
    {cmd : Nat} {n : BitVec 2} {w : Half} (hf : ∀ x, InvstDone cmd n w x (f x)) :
    ∃ t, invstAct f s = .next t ∧ OnlyGang s t u ∧ t.parts = s.parts ∧ (t.team u.team).queues = (s.team u.team).queues ∧
      let g := s.gang u.team u.gang
      t.gang u.team u.gang = { g with lanes := (t.gang u.team u.gang).lanes } ∧
      ∀ l, l < 32 → if (g.activeOf u.slices).getLsbD l = true then InvstDone cmd n w (g.lane l) ((t.gang u.team u.gang).lane l)
        else (t.gang u.team u.gang).lane l = g.lane l := by
  refine ⟨_, invstAct_of hu hi hg f, onlyGang_modGang (onlyGang_refl s u) _, rfl, ?_, ?_⟩
  · show ((s.modTeam u.team _).team u.team).queues = _
    rw [State.team_modTeam_same]
    rfl
  · rw [State.gang_modGang_same]
    refine ⟨rfl, fun l hl => ?_⟩
    split
    · next h => rw [Gang.lane_modLanes_in _ _ _ hl h]; exact hf _
    · next h => exact Gang.lane_modLanes_out _ _ _ hl (by simpa using h)

/-- Settles O31: by the acts of the five commands, for a CSRW and for each step by itself. -/
theorem invstCommands : Obligations.InvstCommands := by
  refine ⟨fun a s u vals s1 popped h => ?_, invstLegal_iff, fun i cmd n w s u hc hu hi hg => ?_⟩
  · have hctx := ctxOf_gang (i := .csrw a 0x020#12) (s := s) (vals := vals) h.isGang
    refine ⟨fun hb => ?_, fun hb => ?_⟩
    · obtain ⟨t, ht, hO, hG⟩ := gang_word h (body := fun c s =>
          if maskOf (fun l => c.active.getLsbD l && !invstLegal (c.src 0 l)) ≠ 0#32 then _
          else .ok (s.modGang c.u.team c.u.gang (fun g => g.modLanes c.active (fun l x => x.invstWrite (c.src 0 l)))))
        (fun g => g.modLanes ((s.gang u.team u.gang).activeOf u.slices) (fun l x => x.invstWrite (valOf vals 0 l)))
        (by
          rw [hctx]
          exact if_neg (fun e => e hb))
      refine ⟨t, ht, hO, ?_⟩
      rw [hG]
      refine lanesChange_finish rfl rfl (State.issuable_gang h.issuable h.isGang) _ _ _ (fun l hl ha => invstDone_write ?_ _)
      have e := getLsbD_maskOf (fun l => ((s.gang u.team u.gang).activeOf u.slices).getLsbD l && !invstLegal (valOf vals 0 l)) hl
      rw [hb, ha] at e
      simpa using e.symm
    · refine (issue_stops h.toIssues (body := fun c s =>
          if maskOf (fun l => c.active.getLsbD l && !invstLegal (c.src 0 l)) ≠ 0#32 then
            .error (.trap { illegalAt c.word 0 with lanes := some (maskOf (fun l => c.active.getLsbD l && !invstLegal (c.src 0 l))) })
          else _) (by
          rw [hctx]
          exact if_pos hb)).trans ?_
      simp [stopUnit, illegalAt]
      rfl
  · rcases hc with ⟨st, rfl, rfl, rfl⟩ | ⟨rfl, rfl⟩ | ⟨rfl, rfl⟩ | ⟨rfl, rfl⟩ | ⟨rfl, rfl⟩
    · refine invstAct_done hu hi hg (fun x => ?_)
      have e : (st.setWidth 32).extractLsb' 0 9 = st := by
        apply BitVec.eq_of_toNat_eq
        simpa [BitVec.extractLsb'_toNat] using st.isLt
      have := invstDone_set n (st.setWidth 32) x
      rwa [e] at this
    · exact invstAct_done hu hi hg (invstDone_lo n w)
    · exact invstAct_done hu hi hg (invstDone_hi n w)
    · exact invstAct_done hu hi hg (invstDone_seeLo n w)
    · exact invstAct_done hu hi hg (invstDone_seeHi n w)

/-! ### CSRW to a comparator, and to a register that only reads -/

/-- A CSRW whose register is a comparator, by whether its value keeps the reserved bits zero. -/
theorem csrw_dbpc {a : BitVec 6} {n : BitVec 12} {i : BitVec 2} {s : State} {u : Issuer} {vals : List (List Word)} {s1 : State} {popped : Bool}
    (h : GangIssues (.csrw a n) { ks := [a.setWidth 5], allActive := true } u s vals s1 popped) (hn : csrOf n = .dbpc i) :
    let g := s.gang u.team u.gang
    let v := g.kreg (a.setWidth 5)
    (v.extractLsb' 48 16 = 0#16 ∧ v.getLsbD 1 = false → ∃ t, exec (.csrw a n) s = .next t ∧ OnlyGang s t u ∧
      t.gang u.team u.gang = finishGang { ks := [a.setWidth 5], allActive := true } popped u { g with dbpc := rowPut 0 g.dbpc i.toNat v }) ∧
    (¬ (v.extractLsb' 48 16 = 0#16 ∧ v.getLsbD 1 = false) →
      exec (.csrw a n) s = .next (s.takeTrap u (illegalAt ((encode (.csrw a n)).getD 0#32) 0))) := by
  intro g v
  have hx : exec (.csrw a n) s = issue (.csrw a n) { ks := [a.setWidth 5], allActive := true } (fun c s =>
      if (c.k (kNum a)).extractLsb' 48 16 ≠ 0#16 || (c.k (kNum a)).getLsbD 1 then .error (.trap (illegalAt c.word 0))
      else .ok (s.modGang c.u.team c.u.gang (fun g => { g with dbpc := rowPut 0 g.dbpc i.toNat (c.k (kNum a)) }))) s := by
    rw [exec_csrw]
    unfold execCsrw
    dsimp only
    rw [hn]
    rfl
  have hv : (ctxOf (.csrw a n) u s vals).k (kNum a) = v := by
    rw [ctx_k, kOf, if_neg h.isGang]
    rfl
  rw [hx]
  refine ⟨fun hz => ?_, fun hz => ?_⟩
  · refine gang_word h (fun g => { g with dbpc := rowPut 0 g.dbpc i.toNat v }) ?_
    rw [hv, ctx_u, if_neg (by simpa using hz)]
  · refine issue_stops h.toIssues (st := .trap (illegalAt ((encode (.csrw a n)).getD 0#32) 0)) ?_
    rw [hv, if_pos (by simpa [imp_iff_not_or] using hz), ctxOf_gang h.isGang]

/-- What goes with a word changes control alone, and takes the unit past its word. -/
theorem controlOnly_passes_finish {f : Form} {popped : Bool} {u : Issuer} {g : Gang} (hj : f.jumps = false) (hm : f.merges = false)
    (hok : g.unitOk u.slices = true) : ControlOnly g (finishGang f popped u g) ∧ PassesWord g (finishGang f popped u g) u.slices :=
  ⟨controlOnly_finish f popped u rfl, finishGang_passes hj hm hok⟩

/-- A CSRW to a register that it may not write traps. -/
theorem csrw_readOnly {a : BitVec 6} {n : BitVec 12} {r : Csr} {s : State} {u : Issuer} {vals : List (List Word)} {s1 : State} {popped : Bool}
    (hn : csrOf n = r) (hr : r.writable = false)
    (h : GangIssues (.csrw a n) { own := if r.perLane then [⟨a, false⟩] else [], named := if r.perLane then [a] else [],
                                  ks := if r.perLane then [] else [a.setWidth 5], allActive := true } u s vals s1 popped) :
    exec (.csrw a n) s = .next (s.takeTrap u (illegalAt ((encode (.csrw a n)).getD 0#32) 0)) := by
  have hx : exec (.csrw a n) s = issue (.csrw a n)
      { own := if r.perLane then [⟨a, false⟩] else [], named := if r.perLane then [a] else [],
        ks := if r.perLane then [] else [a.setWidth 5], allActive := true } (fun c _ => .error (.trap (illegalAt c.word 0))) s := by
    rw [exec_csrw]
    unfold execCsrw
    dsimp only
    rw [hn, hr]
    cases r with
    | invst => cases hr
    | dbpc => cases hr
    | _ => rfl
  rw [hx]
  refine issue_stops h.toIssues (st := .trap (illegalAt ((encode (.csrw a n)).getD 0#32) 0)) ?_
  rw [ctxOf_gang h.isGang]

/-- The trap of a CSR rule reports the word and step 0. -/
theorem illegalAt_zero (word : Half) : illegalAt word 0 = { cause := .illegalInstruction, detail := BitVec.ofNat 64 word.toNat } := by
  unfold illegalAt
  simp

/-- Settles O32: a CSRW writes the comparator whose number it names, or traps with step 0. -/
theorem comparatorWrites : Obligations.ComparatorWrites := by
  refine ⟨fun a n s u vals s1 popped h => ?_, fun a n r s u vals s1 popped hn hr h => ?_⟩
  · have hn : csrOf (0x030#12 + n.setWidth 12) = .dbpc n := (by decide : ∀ n : BitVec 2, csrOf (0x030#12 + n.setWidth 12) = .dbpc n) n
    obtain ⟨hw, ht⟩ := csrw_dbpc h hn
    refine ⟨fun hz => ?_, fun hz => ?_⟩
    · obtain ⟨t, ht, hO, hG⟩ := hw hz
      obtain ⟨hc, hp⟩ := controlOnly_passes_finish (f := { ks := [a.setWidth 5], allActive := true }) (popped := popped) (u := u) (g := _) rfl rfl
        (Gang.unitOk_congr (g1 := { s.gang u.team u.gang with
          dbpc := rowPut 0 (s.gang u.team u.gang).dbpc n.toNat ((s.gang u.team u.gang).kreg (a.setWidth 5)) }) rfl
          (State.issuable_gang h.issuable h.isGang))
      refine ⟨t, _, ht, hO, rfl, fun m => ?_, by rw [hG]; exact hc, by rw [hG]; exact hp⟩
      show rowGet 0 (rowPut 0 _ _ _) _ = _
      split
      · next e => subst e; exact rowGet_rowPut_same _ _ _ _
      · next e => exact rowGet_rowPut_other _ _ _ (fun e' => e (BitVec.eq_of_toNat_eq e'.symm))
    · rw [← illegalAt_zero]
      exact ht hz
  · rw [← illegalAt_zero]
    exact csrw_readOnly (by unfold csrOf; rw [hn]; rfl) hr h

end Sys2Proof.Machine
end

section
namespace Sys2Proof.Machine

open Sys2Proof Sys2Proof.Safety

/-! ### The checks before issue, one by one (R63, R238, R245) -/

@[simp] theorem firstStop_cons_none (l : List (Option Stop)) : firstStop (none :: l) = firstStop l := rfl
@[simp] theorem firstStop_cons_some (x : Stop) (l : List (Option Stop)) : firstStop (some x :: l) = some x := rfl

/-- Outside a recipe body the checks of a gang's word are the comparators, the form, the loop's end and the k registers. -/
theorem preStop_gang {i : Instr} {f : Form} {u : Issuer} {s : State} (hg : u.gang ≠ 16) (hx : f.gang = true)
    (hb : (s.gang u.team u.gang).instar.body = none) :
    preStop i f u s = firstStop [comparatorStop (s.gang u.team u.gang) u.slices (pcAt s u) f.routine,
      formStop f (s.team u.team) (s.gang u.team u.gang) ((encode i).getD 0#32),
      loopStop (s.gang u.team u.gang) u.slices (pcAt s u) ((encode i).getD 0#32), kStop (s.gang u.team u.gang).kbad f.ks] := by
  have hb' : ((s.team u.team).gang u.gang).instar.body = none := hb
  simp only [preStop, if_neg hg, hx, hb', Option.isSome_none, need_true, Bool.not_false, Bool.true_or]
  show _ = firstStop [comparatorStop ((s.team u.team).gang u.gang) u.slices (((s.team u.team).gang u.gang).pcOf u.slices) f.routine, _, _, _]
  cases comparatorStop ((s.team u.team).gang u.gang) u.slices (((s.team u.team).gang u.gang).pcOf u.slices) f.routine <;> rfl

/-- A comparator stops a gang's word before every other check. -/
theorem preStop_comparator {i : Instr} {f : Form} {u : Issuer} {s : State} {st : Stop} (hg : u.gang ≠ 16)
    (h : comparatorStop (s.gang u.team u.gang) u.slices (pcAt s u) f.routine = some st) : preStop i f u s = some st := by
  have h' : comparatorStop ((s.team u.team).gang u.gang) u.slices (((s.team u.team).gang u.gang).pcOf u.slices) f.routine = some st := h
  simp only [preStop, if_neg hg, h', firstStop_cons_some]

/-- Comparators that match neither the word nor the rest of its routine stop nothing. -/
theorem comparatorStop_none {g : Gang} {m : BitVec 8} {pc : Addr} {n : Nat}
    (h : ∀ i, i < 4 → ∀ j, j ≤ n → g.comparatorAt i (pc + BitVec.ofNat 64 (4 * j)) = false) : comparatorStop g m pc n = none := by
  have hit : g.comparatorHit pc n = none := by
    unfold Gang.comparatorHit
    rw [List.find?_eq_none]
    intro i hi
    simp only [List.any_eq_true, mem_upTo, not_exists, not_and]
    intro j hj
    rw [h i (mem_upTo.mp hi) j (by omega)]
    decide
  unfold comparatorStop
  rw [hit]
  split <;> rfl

/-- The lowest comparator that matches the word is the one that hits. -/
theorem find_upTo_lowest {p : Nat → Bool} : ∀ {k n : Nat}, n < k → p n = true → (∀ m, m < n → p m = false) → (upTo k).find? p = some n
  | k + 1, n, hn, hp, hlow => by
    unfold upTo
    rw [List.find?_append]
    rcases Nat.lt_or_ge n k with h | h
    · rw [find_upTo_lowest h hp hlow]
      rfl
    · obtain rfl : n = k := by omega
      have : (upTo n).find? p = none := by
        rw [List.find?_eq_none]
        intro m hm
        rw [hlow m (mem_upTo.mp hm)]
        decide
      rw [this]
      simp [hp]

/-- The lowest comparator at the word stops it. -/
theorem comparatorStop_lowest {g : Gang} {m : BitVec 8} {pc : Addr} {n : Nat} (hs : g.skipCmp &&& m = 0#8) (hn : n < 4)
    (hf : g.comparatorAt n pc = true) (hlow : ∀ k, k < n → g.comparatorAt k pc = false) :
    comparatorStop g m pc 0 = some (.trap { cause := .breakpoint, detail := BitVec.ofNat 64 (n * 2 ^ 32), cmp := true }) := by
  have one : ∀ k, (upTo (0 + 1)).any (fun j => g.comparatorAt k (pc + BitVec.ofNat 64 (4 * j))) = g.comparatorAt k pc := by
    intro k
    simp [upTo]
  have hit : g.comparatorHit pc 0 = some n := by
    unfold Gang.comparatorHit
    exact find_upTo_lowest hn ((one n).trans hf) (fun k hk => (one k).trans (hlow k hk))
  unfold comparatorStop
  rw [hit, hs]
  rfl

/-- Without a queue among its registers, a word whose registers exist and for which GMODE is legal passes steps 3 to 5. -/
theorem formStop_none {f : Form} {t : Team} {g : Gang} {word : Half}
    (h3 : ∀ r ∈ f.srcs.map (·.r) ++ f.own.map (·.r) ++ f.dsts ++ f.named, r.toNat < t.vregs ∨ isQueue g.gmode r = true)
    (ht : f.team t = true) (h4 : f.mode g.gmode = true) (hd : ∀ r ∈ f.dsts, isQueue g.gmode r = false)
    (h5 : t.side.present = true ∨ ∀ x ∈ f.srcs ++ f.own, isQueue g.gmode x.r = false) : formStop f t g word = none := by
  unfold formStop
  dsimp only
  rw [need_true, need_true]
  · have : (f.srcs ++ f.own).find? (fun x => isQueue g.gmode x.r && !t.side.present) = none := by
      rw [List.find?_eq_none]
      intro x hx
      rcases h5 with h | h
      · simp [h]
      · simp [h x hx]
    rw [this]
    rfl
  · rw [h4, Bool.true_and, List.all_eq_true]
    intro r hr
    rw [hd r hr]
    rfl
  · rw [ht, Bool.and_true, List.all_eq_true]
    intro r hr
    simpa using h3 r hr

/-- A unit that stands at no body's end is not stopped by one. -/
theorem loopStop_none {g : Gang} {m : BitVec 8} {pc : Addr} {word : Half} (h : g.loopEnd m pc = none) : loopStop g m pc word = none := by
  unfold loopStop
  rw [h]

/-- Sound k registers stop nothing. -/
theorem kStop_none {bad : Half} {ks : List KNum} (h : ∀ k ∈ ks, bad.getLsbD k.toNat = false) : kStop bad ks = none := by
  unfold kStop
  have : ks.find? (fun k => bad.getLsbD k.toNat) = none := by
    rw [List.find?_eq_none]
    intro k hk
    rw [h k hk]
    decide
  rw [this]
  rfl

/-! ### Operands (R12, R13, R154) -/

/-- A destination that no producer awaits holds nothing back. -/
theorem owedStop_none {g : Gang} {ds : List VNum} {m : Half}
    (h : ∀ r ∈ ds, ∀ l, l < 32 → m.getLsbD l = true → ((g.lane l).vreg r).owed.isSome = false) : owedStop g ds m = none := by
  unfold owedStop
  have : ds.find? (fun r => (lanesOf m).any (fun l => ((g.lane l).vreg r).owed.isSome)) = none := by
    rw [List.find?_eq_none]
    intro r hr
    simp only [List.any_eq_true, not_exists, not_and]
    intro l hl
    rw [h r hr l (mem_lanesOf.mp hl).1 (mem_lanesOf.mp hl).2]
    decide
  rw [this]
  rfl

/-- A destination that a producer awaits holds the word. -/
theorem owedStop_awaited {g : Gang} {d : VNum} {m : Half}
    (h : ∃ l, l < 32 ∧ m.getLsbD l = true ∧ ((g.lane l).vreg d).owed.isSome = true) :
    owedStop g [d] m = some (.wait (.register d) none) := by
  obtain ⟨l, hl, hm, ho⟩ := h
  have : (lanesOf m).any (fun l => ((g.lane l).vreg d).owed.isSome) = true :=
    List.any_eq_true.mpr ⟨l, mem_lanesOf.mpr ⟨hl, hm⟩, ho⟩
  simp only [owedStop, List.find?_cons, this]
  rfl

/-- A destination that no MMA reads holds nothing back. -/
theorem operandStop_none {t : Team} {gang cycle : Nat} {ds : List VNum} {m : Half}
    (h : ∀ r ∈ ds, ¬ (m ≠ 0#32 ∧ t.mmaReads gang cycle r = true)) : operandStop t gang cycle ds m = none := by
  unfold operandStop
  split
  · rfl
  · next hm =>
    have : ds.find? (fun r => t.mmaReads gang cycle r) = none := by
      rw [List.find?_eq_none]
      exact fun r hr e => h r hr ⟨hm, e⟩
    rw [this]
    rfl

/-- A destination that an MMA reads holds the word. -/
theorem operandStop_read {t : Team} {gang cycle : Nat} {d : VNum} {m : Half} (hm : m ≠ 0#32) (h : t.mmaReads gang cycle d = true) :
    operandStop t gang cycle [d] m = some (.wait (.operands d) none) := by
  unfold operandStop
  rw [if_neg hm, List.find?_cons_of_pos h]
  rfl

/-- A register is FULL and sound in lanes. -/
def Fine (g : Gang) (m : Half) (r : VNum) : Prop :=
  ∀ l, l < 32 → m.getLsbD l = true →
    ((g.lane l).vreg r).full = true ∧ ((g.lane l).vreg r).poison = false ∧ ((g.lane l).vreg r).bad = false

/-- A FULL and sound register is read. -/
theorem readStop_none {g : Gang} {x : Src} {m : Half} (h : Fine g m x.r) : readStop g x m = none := by
  have none_of : ∀ p : VReg → Bool, (∀ r : VReg, r.full = true → r.poison = false → r.bad = false → p r = false) →
      maskOf (fun l => m.getLsbD l && p ((g.lane l).vreg x.r)) = 0#32 := by
    intro p hp
    refine maskOf_none (fun l hl => ?_)
    cases hm : m.getLsbD l
    · rfl
    · obtain ⟨hf, hpo, hb⟩ := h l hl hm
      rw [hp _ hf hpo hb]
      rfl
  have empty := none_of (fun r => !r.full) (fun r hf _ _ => by rw [hf]; rfl)
  have orphan := none_of (fun r => !r.full && r.owed.isNone) (fun r hf _ _ => by rw [hf]; rfl)
  have bad := none_of (fun r => r.poison || r.bad) (fun r _ hp hb => by rw [hp, hb]; rfl)
  simp only [← Bool.and_assoc] at orphan
  unfold readStop
  dsimp only
  rw [empty, orphan, bad]
  split <;> rfl

/-! ### Pops of queues (R217) -/

/-- The team after the sources of a list have taken their entries: of each queue as many entries have left as sources name it, and
the order of the waiting stays. -/
def Drained (gm : Half) (t t' : Team) (l : List Src) : Prop :=
  ∀ q, t'.queue q = { t.queue q with entries := (t.queue q).entries.drop (takersOf gm q l) }

/-- The oldest entry that no source of a list takes is there, and the sub-gang is the first in the order of the waiting. -/
def Takes (gm : Half) (who : Nat) (t : Team) (p : List Src) (r : VNum) : Prop :=
  takersOf gm (queueOf r) p < (t.queue (queueOf r)).entries.length ∧ (t.queue (queueOf r)).blocked.headD who = who

theorem takersOf_append (gm : Half) (q : BitVec 2) (l l' : List Src) : takersOf gm q (l ++ l') = takersOf gm q l + takersOf gm q l' := by
  simp [takersOf]

/-- No entry leaves for sources none of which names a queue. -/
theorem takersOf_zero {gm : Half} {l : List Src} (q : BitVec 2) (h : l.any (fun x => isQueue gm x.r) = false) : takersOf gm q l = 0 := by
  rw [List.any_eq_false] at h
  unfold takersOf
  rw [List.length_eq_zero_iff, List.filter_eq_nil_iff]
  intro x hx
  rw [Bool.and_eq_true]
  exact fun e => h x hx e.1

theorem drained_nil (gm : Half) (t : Team) : Drained gm t t [] := fun _ => rfl

/-- A source that names no queue takes nothing. -/
theorem drained_register {gm : Half} (t : Team) {x : Src} (h : isQueue gm x.r = false) : Drained gm t t [x] := by
  intro q
  rw [takersOf_zero q (by simp [h])]
  rfl

theorem Drained.append {gm : Half} {t t' t'' : Team} {l l' : List Src} (h : Drained gm t t' l) (h' : Drained gm t' t'' l') :
    Drained gm t t'' (l ++ l') := by
  intro q
  rw [h' q, h q, takersOf_append, ← List.drop_drop]

/-- After earlier sources have taken theirs, a source's entry is there just where it was before. -/
theorem Takes.drained {gm : Half} {who : Nat} {t t' : Team} {l p : List Src} {r : VNum} (h : Drained gm t t' l) :
    Takes gm who t' p r ↔ Takes gm who t (l ++ p) r := by
  unfold Takes
  rw [h (queueOf r), takersOf_append, List.length_drop]
  constructor
  · rintro ⟨h1, h2⟩
    exact ⟨by omega, h2⟩
  · rintro ⟨h1, h2⟩
    exact ⟨by omega, h2⟩

/-- What is left for a source after earlier ones. -/
theorem Drained.entry {gm : Half} {t t' : Team} {l : List Src} (h : Drained gm t t' l) (q : BitVec 2) (n : Nat) :
    rowGet [] (t'.queue q).entries n = rowGet [] (t.queue q).entries (takersOf gm q l + n) := by
  have drop : ∀ (k : Nat) (es : List (List Word)), rowGet [] (es.drop k) n = rowGet [] es (k + n) := by
    intro k
    induction k with
    | zero => intro es; simp
    | succ k ih =>
      intro es
      cases es with
      | nil => rfl
      | cons e es =>
        rw [List.drop_succ_cons, ih, show k + 1 + n = k + n + 1 by omega]
        rfl
  rw [h q]
  exact drop _ _

/-- A pop takes the oldest entry of its queue, and nothing else (R217). -/
theorem Team.pop_some {t t' : Team} {gm : Half} {who : Nat} {x : Src} {e : List Word} (hq : isQueue gm x.r = true)
    (h : t.pop (queueOf x.r) who = some (e, t')) : rowGet [] (t.queue (queueOf x.r)).entries 0 = e ∧ Drained gm t t' [x] := by
  unfold Team.pop at h
  dsimp only at h
  split at h
  · cases h
  · next e' rest he =>
    split at h
    · cases h
      refine ⟨by rw [he]; rfl, fun q => ?_⟩
      by_cases hne : queueOf x.r = q
      · subst hne
        have one : takersOf gm (queueOf x.r) [x] = 1 := by simp [takersOf, hq]
        rw [one, he]
        exact rowGet_rowPut_same _ _ _ _
      · have zero : takersOf gm q [x] = 0 := by simp [takersOf, hne]
        rw [zero]
        exact rowGet_rowPut_other _ _ _ (fun h => hne (BitVec.eq_of_toNat_eq h))
    · cases h

/-- A source whose entry is there takes it. -/
theorem Team.pop_takes {t : Team} {gm : Half} {who : Nat} {r : VNum} (h : Takes gm who t [] r) :
    ∃ e t', t.pop (queueOf r) who = some (e, t') := by
  obtain ⟨h1, h2⟩ := h
  unfold Team.pop
  dsimp only
  cases he : (t.queue (queueOf r)).entries with
  | nil =>
    rw [he] at h1
    cases h1
  | cons e rest =>
    exact ⟨_, _, if_pos h2⟩

/-- A source whose entry is not there takes nothing. -/
theorem Team.pop_none {t : Team} {gm : Half} {who : Nat} {r : VNum} (h : ¬ Takes gm who t [] r) : t.pop (queueOf r) who = none := by
  unfold Team.pop
  dsimp only
  split
  · rfl
  · next e rest he =>
    refine if_neg (fun hw => h ⟨?_, hw⟩)
    rw [he]
    exact Nat.succ_pos _

/-- The end of a standing at queues takes no entry. -/
theorem Team.entries_unblock (t : Team) (g sub : Nat) (q : BitVec 2) : ((t.unblock g sub).queue q).entries = (t.queue q).entries := by
  have : ∀ (l : List Queue) (n : Nat),
      (rowGet ({} : Queue) (l.map (fun q : Queue => { q with blocked := q.blocked.filter (fun x => x ≠ g * 8 + sub) })) n).entries =
        (rowGet {} l n).entries := by
    intro l
    induction l with
    | nil => exact fun _ => rfl
    | cons x xs ih =>
      intro n
      cases n with
      | zero => rfl
      | succ n => exact ih n
  exact this _ _

/-! ### Reading the sources in order (R64, R217) -/

/-- What a source reads once earlier ones have taken their entries. -/
def readsAs (g : Gang) (t : Team) (pre : List Src) (x : Src) : List Word :=
  if isQueue g.gmode x.r then rowGet [] (t.queue (queueOf x.r)).entries (takersOf g.gmode (queueOf x.r) pre) else g.column x.r

theorem readsAs_drained {g : Gang} {t t' : Team} {l : List Src} (h : Drained g.gmode t t' l) (pre : List Src) (x : Src) :
    readsAs g t' pre x = readsAs g t (l ++ pre) x := by
  unfold readsAs
  rw [h.entry, takersOf_append]

/-- The sources that are read have their values in order, and of each queue just their entries have left. -/
theorem readSrcs_reads {g : Gang} {who : Nat} {lanes : Half} : ∀ {xs : List Src} {t : Team} {vals : List (List Word)} {t' : Team}
    {popped : Bool}, readSrcs g who lanes xs t = .ok (vals, t', popped) →
      popped = xs.any (fun x => isQueue g.gmode x.r) ∧ vals.length = xs.length ∧
      (∀ pre x post, xs = pre ++ x :: post → rowGet [] vals pre.length = readsAs g t pre x) ∧ Drained g.gmode t t' xs := by
  intro xs
  induction xs with
  | nil =>
    intro t vals t' popped h
    cases h
    exact ⟨rfl, rfl, fun pre x post e => absurd e (by simp), drained_nil _ _⟩
  | cons x xs ih =>
    intro t vals t' popped h
    have step : ∃ v t1 vs p, vals = v :: vs ∧ v = readsAs g t [] x ∧ Drained g.gmode t t1 [x] ∧
        popped = (isQueue g.gmode x.r || p) ∧ readSrcs g who lanes xs t1 = .ok (vs, t', p) := by
      unfold readSrcs at h
      cases hq : isQueue g.gmode x.r
      · rw [hq] at h
        simp only [Bool.false_eq_true, if_false] at h
        split at h
        · cases h
        · split at h
          · cases h
          · next vs t2 p hr =>
            cases h
            exact ⟨_, t, vs, _, rfl, by simp [readsAs, hq], drained_register t hq, rfl, hr⟩
      · rw [hq] at h
        simp only [if_true] at h
        split at h
        · cases h
        · next e t1 hp =>
          split at h
          · cases h
          · next vs t2 p hr =>
            cases h
            obtain ⟨he, hd⟩ := Team.pop_some hq hp
            refine ⟨e, t1, vs, p, rfl, ?_, hd, rfl, hr⟩
            rw [readsAs, if_pos hq, ← he]
            rfl
    obtain ⟨v, t1, vs, p, rfl, hv, hd, rfl, hr⟩ := step
    obtain ⟨hp, hl, hreads, hdr⟩ := ih hr
    refine ⟨by rw [hp, List.any_cons], by rw [List.length_cons, hl, List.length_cons], fun pre y post e => ?_, hd.append hdr⟩
    cases pre with
    | nil =>
      cases e
      exact hv
    | cons z pre =>
      cases e
      have := hreads pre y post rfl
      rw [readsAs_drained hd] at this
      exact this

/-- Sources that name no queue and are FULL and sound are read from their registers. -/
theorem readSrcs_columns {g : Gang} {who : Nat} {lanes : Half} {t : Team} : ∀ {xs : List Src},
    (∀ x ∈ xs, isQueue g.gmode x.r = false ∧ Fine g lanes x.r) →
      readSrcs g who lanes xs t = .ok (xs.map (fun x => g.column x.r), t, false)
  | [], _ => rfl
  | x :: xs, h => by
    obtain ⟨hq, hf⟩ := h x List.mem_cons_self
    rw [readSrcs, if_neg (by rw [hq]; decide), readStop_none hf, readSrcs_columns (fun y hy => h y (List.mem_cons_of_mem _ hy))]
    rfl

/-- A source is there: its entry, or its register in the lanes. -/
def SrcThere (g : Gang) (who : Nat) (lanes : Half) (t : Team) (p : List Src) (x : Src) : Prop :=
  if isQueue g.gmode x.r = true then Takes g.gmode who t p x.r else Fine g lanes x.r

theorem SrcThere.drained {g : Gang} {who : Nat} {lanes : Half} {t t' : Team} {l p : List Src} {x : Src}
    (h : Drained g.gmode t t' l) : SrcThere g who lanes t' p x ↔ SrcThere g who lanes t (l ++ p) x := by
  unfold SrcThere
  rw [Takes.drained h]

/-- The word stops where its first source that is not there does, after the earlier ones have taken their entries. -/
theorem readSrcs_stops {g : Gang} {who : Nat} {lanes : Half} {x : Src} {post : List Src} {st : Stop} :
    ∀ {pre : List Src} {t : Team}, (∀ p y r, pre = p ++ y :: r → SrcThere g who lanes t p y) →
      (∀ t', Drained g.gmode t t' pre → readSrcs g who lanes (x :: post) t' = .error st) →
      readSrcs g who lanes (pre ++ x :: post) t = .error st := by
  intro pre
  induction pre with
  | nil => exact fun _ hx => hx _ (drained_nil _ _)
  | cons y pre ih =>
    intro t hpre hx
    have hy := hpre [] y pre rfl
    have rest : ∀ t1, Drained g.gmode t t1 [y] → readSrcs g who lanes (pre ++ x :: post) t1 = .error st := fun t1 hd =>
      ih (fun p z r e => (SrcThere.drained hd).mpr (hpre (y :: p) z r (by rw [e]; rfl))) (fun t' hd' => hx t' (hd.append hd'))
    rw [List.cons_append, readSrcs]
    cases hq : isQueue g.gmode y.r
    · rw [SrcThere, if_neg (by rw [hq]; decide)] at hy
      rw [if_neg (by decide), readStop_none hy, rest t (drained_register t hq)]
    · rw [SrcThere, if_pos hq] at hy
      obtain ⟨e, t1, hp⟩ := Team.pop_takes hy
      simp only [if_true, hp, rest t1 (Team.pop_some hq hp).2]

/-- A register that is not there stops its word. -/
theorem readSrcs_register {g : Gang} {who : Nat} {lanes : Half} {x : Src} {post : List Src} {t : Team} {st : Stop}
    (hq : isQueue g.gmode x.r = false) (h : readStop g x lanes = some st) : readSrcs g who lanes (x :: post) t = .error st := by
  rw [readSrcs, if_neg (by rw [hq]; decide), h]

/-- An entry that is not there holds its word. -/
theorem readSrcs_queue {g : Gang} {who : Nat} {lanes : Half} {x : Src} {post : List Src} {t : Team}
    (hq : isQueue g.gmode x.r = true) (h : ¬ Takes g.gmode who t [] x.r) :
    readSrcs g who lanes (x :: post) t = .error (.wait (.queue (queueOf x.r)) none) := by
  rw [readSrcs, if_pos hq, Team.pop_none h]

/-! ### A word that issues -/

/-- With no destination held, the operands are the sources as they are read. -/
theorem operandsOf_gang {f : Form} {u : Issuer} {s : State} (hg : u.gang ≠ 16)
    (hd : firstStop [owedStop (s.gang u.team u.gang) f.dsts
        (if f.allActive then (s.gang u.team u.gang).activeOf u.slices else partOf s u),
      operandStop (s.team u.team) u.gang s.cycle f.dsts
        (if f.allActive then (s.gang u.team u.gang).activeOf u.slices else partOf s u)] = none) :
    operandsOf f u s =
      match readSrcs (s.gang u.team u.gang) (u.gang * 8 + ((s.gang u.team u.gang).slice (lowSlice u.slices)).sub)
          (if f.allActive then (s.gang u.team u.gang).activeOf u.slices else partOf s u) f.srcs (s.team u.team) with
      | .error st => .error st
      | .ok (vals, t', popped) =>
        .ok (vals, if popped then s.modTeam u.team (fun _ => t'.unblock u.gang ((s.gang u.team u.gang).slice (lowSlice u.slices)).sub) else s,
          popped) := by
  have hd' : firstStop [owedStop ((s.team u.team).gang u.gang) f.dsts
        (if f.allActive then ((s.team u.team).gang u.gang).activeOf u.slices else ((s.team u.team).gang u.gang).participants u.slices),
      operandStop (s.team u.team) u.gang s.cycle f.dsts
        (if f.allActive then ((s.team u.team).gang u.gang).activeOf u.slices else ((s.team u.team).gang u.gang).participants u.slices)] = none := hd
  unfold operandsOf
  rw [if_neg hg]
  dsimp only
  rw [hd']
  rfl

/-- The checks before issue let a ready word pass. -/
theorem ready_checks {i : Instr} {f : Form} {u : Issuer} {s : State} (h : Ready f u s) : preStop i f u s = none := by
  have noQueue : ∀ r : VNum, isQueue (s.gang u.team u.gang).gmode r = false := fun r => by simp [isQueue, h.noQmap]
  have cmp : comparatorStop (s.gang u.team u.gang) u.slices (pcAt s u) f.routine = none :=
    comparatorStop_none (fun n hn j _ => by rw [Gang.comparatorAt, h.noComparator n hn]; rfl)
  have form : formStop f (s.team u.team) (s.gang u.team u.gang) ((encode i).getD 0#32) = none :=
    formStop_none (fun r hr => .inl (h.exist r hr)) h.team h.mode (fun r _ => noQueue r) (.inr (fun x _ => noQueue x.r))
  rw [preStop_gang h.isGang h.executes h.noBody, cmp, form, loopStop_none (pc := pcAt s u) h.noLevelEnd, kStop_none h.kGood]
  rfl

/-- A ready word reads its registers. -/
theorem ready_reads {f : Form} {u : Issuer} {s : State} (h : Ready f u s) :
    operandsOf f u s = .ok (f.srcs.map (fun x => (s.gang u.team u.gang).column x.r), s, false) := by
  have owed : ∀ m, owedStop (s.gang u.team u.gang) f.dsts m = none := fun m =>
    owedStop_none (fun r hr l hl _ => by rw [(h.free r hr).2 l hl]; rfl)
  have read : ∀ m, operandStop (s.team u.team) u.gang s.cycle f.dsts m = none := fun m =>
    operandStop_none (fun r hr e => by rw [(h.free r hr).1] at e; exact absurd e.2 (by decide))
  rw [operandsOf_gang h.isGang (by rw [owed, read]; rfl),
    readSrcs_columns (fun x hx => ⟨by simp [isQueue, h.noQmap], fun l hl _ => h.full x hx l hl⟩)]
  rfl

/-- Where a word's operands are there, the sources were read in order, and the state has changed by their entries alone. -/
theorem operandsOf_reads {f : Form} {u : Issuer} {s s1 : State} {vals : List (List Word)} {popped : Bool} (hg : u.gang ≠ 16)
    (h : operandsOf f u s = .ok (vals, s1, popped)) :
    ∃ t' lanes, readSrcs (s.gang u.team u.gang) (u.gang * 8 + ((s.gang u.team u.gang).slice (lowSlice u.slices)).sub) lanes f.srcs
        (s.team u.team) = .ok (vals, t', popped) ∧
      s1 = if popped then s.modTeam u.team (fun _ => t'.unblock u.gang ((s.gang u.team u.gang).slice (lowSlice u.slices)).sub) else s := by
  unfold operandsOf at h
  rw [if_neg hg] at h
  dsimp only at h
  split at h
  · cases h
  · split at h
    · cases h
    · next vs t' p hr =>
      cases h
      exact ⟨t', _, hr, rfl⟩

/-- Where a word issues, only the entries of its sources leave (R217). -/
theorem operandsOf_drained {f : Form} {u : Issuer} {s s1 : State} {vals : List (List Word)} {popped : Bool} (hg : u.gang ≠ 16)
    (h : operandsOf f u s = .ok (vals, s1, popped)) :
    (∀ v, v ≠ u.team → s1.team v = s.team v) ∧ s1 = { s with teams := s1.teams } ∧
    s1.team u.team = { s.team u.team with queues := (s1.team u.team).queues } ∧
    ∀ q, ((s1.team u.team).queue q).entries =
      ((s.team u.team).queue q).entries.drop (takersOf (s.gang u.team u.gang).gmode q f.srcs) := by
  obtain ⟨t', lanes, hr, rfl⟩ := operandsOf_reads hg h
  obtain ⟨hp, -, -, hd⟩ := readSrcs_reads hr
  cases popped with
  | false =>
    refine ⟨fun _ _ => rfl, rfl, rfl, fun q => ?_⟩
    rw [takersOf_zero q hp.symm]
    rfl
  | true =>
    refine ⟨fun v hv => State.team_modTeam_other s _ (Ne.symm hv), rfl, ?_, fun q => ?_⟩
    · simp only [if_true]
      rw [State.team_modTeam_same, readSrcs_team _ _ _ _ _ hr]
      rfl
    · simp only [if_true]
      rw [State.team_modTeam_same, Team.entries_unblock, hd q]

/-! ### Words of the vector, predicate and relaxed remote tables -/

/-- A word with nothing of its own in the checks before issue: it is issued with its form, whose sources and destinations are all that
it names, and its opcode is none of the issuer's. -/
structure PlainRow (i : Instr) (f : Form) : Prop where
  issues : ∃ body, ∀ s, exec i s = issue i f body s
  own : f.own = []
  named : f.named = []
  gang : f.gang = true
  team : ∀ t, f.team t = true
  participants : f.allActive = false
  alone : f.routine = 0
  opcode : 0x0E < (opOf ((encode i).getD 0#32)).toNat

/-- The words of the shared lane-wise path are plain, but for their opcodes. -/
theorem LaneRow.plain {i : Instr} {sp : LaneSpec} (h : LaneRow i sp) (ho : 0x0E < (opOf ((encode i).getD 0#32)).toNat) :
    PlainRow i sp.form := by
  obtain ⟨legal, fn, hx, hm, hk, -⟩ := h
  refine ⟨⟨fun c s => .ok (s.writeResult c sp.d (fun l => fn c.et c.modes (fun j => c.src j l))), fun s => (hx s).trans ?_⟩,
    rfl, rfl, rfl, fun _ => rfl, rfl, rfl, ho⟩
  unfold LaneSpec.form laneWord
  rw [hm, hk]

/-- An opcode above those of the issuer, at the start of the word that encodes an instruction. -/
theorem opcode_above {i : Instr} {op : BitVec 8} {x : BitVec 24} (h : encode i = some (op ++ x)) (ho : 0x0E < op.toNat) :
    0x0E < (opOf ((encode i).getD 0#32)).toNat := by
  have : opOf (op ++ x) = op := slice_upper _ _
  rw [h, Option.getD_some, this]
  exact ho

theorem arithmeticSpec_opcode {i : Instr} {sp : LaneSpec} (h : arithmeticSpec i = some sp) :
    0x0E < (opOf ((encode i).getD 0#32)).toNat := by
  unfold arithmeticSpec at h
  split at h <;> cases h
  all_goals exact opcode_above rfl (by decide)

theorem immediateSpec_opcode {i : Instr} {sp : LaneSpec} (h : immediateSpec i = some sp) :
    0x0E < (opOf ((encode i).getD 0#32)).toNat := by
  unfold immediateSpec at h
  split at h <;> cases h
  all_goals exact opcode_above rfl (by decide)

theorem functionSpec_opcode {i : Instr} {sp : LaneSpec} (h : functionSpec i = some sp) :
    0x0E < (opOf ((encode i).getD 0#32)).toNat := by
  unfold functionSpec at h
  split at h <;> cases h
  all_goals exact opcode_above rfl (by decide)

theorem moveSpec_plain {i : Instr} {sp : LaneSpec} (h : moveSpec i = some sp) : PlainRow i sp.form := by
  unfold moveSpec at h
  split at h <;> cases h
  all_goals
    dsimp only [LaneSpec.form]
    refine ⟨?_, rfl, rfl, rfl, fun _ => rfl, rfl, rfl, opcode_above rfl (by decide)⟩
  case h_1 => exact ⟨_, fun s => exec_sel _ _ _ _ _ _ _ s⟩
  case h_2 => exact ⟨_, fun s => exec_kbcast _ _ s⟩

theorem predSpec_plain {i : Instr} {sp : PredSpec} (h : predSpec i = some sp) : PlainRow i { srcs := sp.srcs, mode := sp.mode } := by
  unfold predSpec at h
  split at h <;> cases h
  all_goals refine ⟨?_, rfl, rfl, rfl, fun _ => rfl, rfl, rfl, opcode_above rfl (by decide)⟩
  case h_1 => exact ⟨_, fun s => exec_cmp _ _ _ _ _ _ s⟩
  case h_2 => exact ⟨_, fun s => exec_cmpi _ _ _ _ s⟩
  case h_3 => exact ⟨_, fun s => exec_plop _ _ _ _ s⟩

theorem remoteSpec_plain {i : Instr} {sp : RemoteSpec} (h : remoteSpec i = some sp) : PlainRow i sp.form := by
  unfold remoteSpec at h
  split at h <;> cases h
  all_goals
    dsimp only [RemoteSpec.form]
    refine ⟨?_, rfl, rfl, rfl, fun _ => rfl, rfl, rfl, opcode_above rfl (by decide)⟩
  case h_1 => exact ⟨_, fun s => exec_rld _ _ _ s⟩
  case h_2 => exact ⟨_, fun s => exec_rst _ _ _ _ _ s⟩
  case h_3 => exact ⟨_, fun s => exec_raadd _ _ _ _ _ s⟩
  case h_4 => exact ⟨_, fun s => exec_raaddD _ _ _ _ s⟩
  case h_5 => exact ⟨_, fun s => exec_rcas _ _ _ _ _ s⟩

/-- Every word of these tables is plain. -/
theorem rowForm_plain {i : Instr} {f : Form} (h : rowForm i = some f) : PlainRow i f := by
  unfold rowForm at h
  simp only [Option.or_eq_some_iff, Option.map_eq_some_iff] at h
  rcases h with (⟨sp, h, rfl⟩ | ⟨-, sp, h, rfl⟩) | ⟨-, sp, h, rfl⟩
  · rcases h with ((h | ⟨-, h⟩) | ⟨-, h⟩) | ⟨-, h⟩
    · exact (arithmeticSpec_laneRow h).plain (arithmeticSpec_opcode h)
    · exact (immediateSpec_laneRow h).plain (immediateSpec_opcode h)
    · exact (functionSpec_laneRow h).plain (functionSpec_opcode h)
    · exact moveSpec_plain h
  · exact predSpec_plain h
  · exact remoteSpec_plain h

/-! ### Where a plain word stops -/

/-- A check before issue stops a plain word. -/
theorem PlainRow.checked {i : Instr} {f : Form} {s : State} {u : Issuer} {st : Stop} (h : PlainRow i f) (hu : s.issuer = some u)
    (hi : s.issuable u = true) (hs : preStop i f u s = some st) : exec i s = .next (stopUnit u st s) := by
  obtain ⟨body, hx⟩ := h.issues
  rw [hx]
  exact issue_checked hu hi hs

/-- An operand stops a plain word. -/
theorem PlainRow.operand {i : Instr} {f : Form} {s : State} {u : Issuer} {st : Stop} (h : PlainRow i f) (hu : s.issuer = some u)
    (hi : s.issuable u = true) (hc : preStop i f u s = none) (hs : operandsOf f u s = .error st) :
    exec i s = .next (stopUnit u st s) := by
  obtain ⟨body, hx⟩ := h.issues
  rw [hx]
  exact issue_operand hu hi hc hs

/-- The registers that a plain word names are its sources and destinations. -/
theorem PlainRow.names {i : Instr} {f : Form} (h : PlainRow i f) :
    f.srcs.map (·.r) ++ f.own.map (·.r) ++ f.dsts ++ f.named = f.srcs.map (·.r) ++ f.dsts := by
  rw [h.own, h.named]
  simp

/-- A register exists in the team, or names a queue (R11). -/
def Here (t : Team) (g : Gang) (r : VNum) : Prop := r.toNat < t.vregs ∨ isQueue g.gmode r = true

/-- GMODE is legal for the word, and no destination names a queue (R11, R67). -/
def Legal (f : Form) (g : Gang) : Prop := f.mode g.gmode = true ∧ ∀ r ∈ f.dsts, isQueue g.gmode r = false

theorem here_check {f : Form} {t : Team} {g : Gang} (rs : List VNum) (ht : f.team t = true) :
    (rs.all (fun r => decide (r.toNat < t.vregs) || isQueue g.gmode r) && f.team t) = true ↔ ∀ r ∈ rs, Here t g r := by
  rw [ht, Bool.and_true, List.all_eq_true]
  simp [Here]

theorem legal_check {f : Form} {g : Gang} : (f.mode g.gmode && f.dsts.all (fun r => !isQueue g.gmode r)) = true ↔ Legal f g := by
  rw [Bool.and_eq_true, List.all_eq_true]
  simp [Legal]

/-- Step 3 of R63 comes first. -/
theorem PlainRow.formStop_missing {i : Instr} {f : Form} {t : Team} {g : Gang} {word : Half} (h : PlainRow i f)
    (hr : ¬ ∀ r ∈ f.srcs.map (·.r) ++ f.dsts, Here t g r) : formStop f t g word = some (.trap (illegalAt word 3)) := by
  unfold formStop
  dsimp only
  rw [h.names, need_false (Bool.eq_false_iff.mpr (mt (here_check _ (h.team t)).mp hr)), firstStop_cons_some]

/-- Then step 4. -/
theorem PlainRow.formStop_mode {i : Instr} {f : Form} {t : Team} {g : Gang} {word : Half} (h : PlainRow i f)
    (hr : ∀ r ∈ f.srcs.map (·.r) ++ f.dsts, Here t g r) (hl : ¬ Legal f g) :
    formStop f t g word = some (.trap (illegalModeOf word g.gmode)) := by
  unfold formStop
  dsimp only
  rw [h.names, need_true ((here_check _ (h.team t)).mpr hr), need_false (Bool.eq_false_iff.mpr (mt legal_check.mp hl))]
  rfl

/-- The number of the queue that a register field names. -/
theorem queueOf_toNat {gm : Half} {r : VNum} (h : isQueue gm r = true) : (queueOf r).toNat = r.toNat - 60 := by
  simp only [isQueue, Bool.and_eq_true, decide_eq_true_eq] at h
  have := r.isLt
  simp only [queueOf, BitVec.extractLsb'_toNat, Nat.shiftRight_zero]
  omega

/-- Then step 5: the first source that names a queue which the team does not have. -/
theorem PlainRow.formStop_queue {i : Instr} {f : Form} {t : Team} {g : Gang} {word : Half} (h : PlainRow i f)
    (hr : ∀ r ∈ f.srcs.map (·.r) ++ f.dsts, Here t g r) (hl : Legal f g) {pre : List Src} {x : Src} {post : List Src}
    (hs : f.srcs = pre ++ x :: post) (hx : isQueue g.gmode x.r = true) (hpre : ∀ y ∈ pre, isQueue g.gmode y.r = false)
    (hside : t.side.present = false) :
    formStop f t g word = some (.trap { cause := .queueUnmapped, detail := BitVec.ofNat 64 (x.r.toNat - 60) }) := by
  have find : (f.srcs ++ f.own).find? (fun x => isQueue g.gmode x.r && !t.side.present) = some x := by
    rw [h.own, List.append_nil, hs, List.find?_append, List.find?_cons_of_pos (by rw [hx, hside]; rfl), List.find?_eq_none.mpr]
    · rfl
    · intro y hy
      simp [hpre y hy]
  unfold formStop
  dsimp only
  rw [h.names, need_true ((here_check _ (h.team t)).mpr hr), need_true (legal_check.mpr hl), find, ← queueOf_toNat hx]
  rfl

/-- At a body's last word a unit that is not whole, or a slice at another depth than the level's, stops the word (R238). -/
theorem loopStop_convergence {g : Gang} {m : BitVec 8} {pc : Addr} {word : Half} {x : LoopLevel} (hx : g.loopEnd m pc = some x)
    (ho : 0x0E < (opOf word).toNat)
    (hc : g.whole m = false ∨ ∃ j, j < 8 ∧ m.getLsbD j = true ∧ (g.slice j).stack.length ≠ rowGet 0 x.rdepth j) :
    loopStop g m pc word = some (.trap { cause := .convergence }) := by
  have ok : g.levelOk m x = false := by
    rw [Gang.levelOk, Bool.and_eq_false_iff]
    refine hc.imp_right (fun ⟨j, hj, hm, hd⟩ => List.all_eq_false.mpr ⟨j, mem_upTo.mpr hj, ?_⟩)
    simp [hm, hd]
  unfold loopStop
  rw [hx]
  dsimp only
  rw [if_neg (by simp; omega), need_false ok]
  rfl

/-- Where a destination is held, the word waits. -/
theorem operandsOf_held {f : Form} {u : Issuer} {s : State} {st : Stop} (hg : u.gang ≠ 16) (ha : f.allActive = false)
    (h : firstStop [owedStop (s.gang u.team u.gang) f.dsts (partOf s u),
      operandStop (s.team u.team) u.gang s.cycle f.dsts (partOf s u)] = some st) : operandsOf f u s = .error st := by
  have h' : firstStop [owedStop ((s.team u.team).gang u.gang) f.dsts (((s.team u.team).gang u.gang).participants u.slices),
      operandStop (s.team u.team) u.gang s.cycle f.dsts (((s.team u.team).gang u.gang).participants u.slices)] = some st := h
  unfold operandsOf
  rw [if_neg hg, ha]
  simp only [Bool.false_eq_true, if_false, h']

/-- Where no destination is held and a source is not there, the word stops at the source. -/
theorem operandsOf_source {f : Form} {u : Issuer} {s : State} {st : Stop} (hg : u.gang ≠ 16) (ha : f.allActive = false)
    (hd : firstStop [owedStop (s.gang u.team u.gang) f.dsts (partOf s u),
      operandStop (s.team u.team) u.gang s.cycle f.dsts (partOf s u)] = none)
    (h : readSrcs (s.gang u.team u.gang) (u.gang * 8 + ((s.gang u.team u.gang).slice (lowSlice u.slices)).sub) (partOf s u) f.srcs
      (s.team u.team) = .error st) : operandsOf f u s = .error st := by
  rw [operandsOf_gang hg (by rw [ha]; exact hd), ha]
  simp only [Bool.false_eq_true, if_false, h]

/-- A place in the order of the waiting takes no entry of a queue. -/
theorem State.entries_hold {s : State} {u : Issuer} (hg : u.gang ≠ 16) (k : WaitKind) (p : BitVec 2) :
    (((s.hold u k).team u.team).queue p).entries = ((s.team u.team).queue p).entries := by
  have place : ∀ (t : Team) (q : BitVec 2) (b : List Nat),
      (rowGet ({} : Queue) (rowPut {} t.queues q.toNat { t.queue q with blocked := b }) p.toNat).entries = (t.queue p).entries := by
    intro t q b
    by_cases h : q = p
    · subst h
      rw [rowGet_rowPut_same]
    · rw [rowGet_rowPut_other _ _ _ (fun e => h (BitVec.eq_of_toNat_eq e))]
      rfl
  unfold State.hold
  rw [if_neg hg]
  dsimp only
  rw [State.modGang, State.team_modTeam_same, State.team_modTeam_same]
  cases k
  case queue q =>
    dsimp only
    split
    · rfl
    · exact place _ _ _
  all_goals rfl

/-! ### Where a source stops its word (R12) -/

section
variable (g : Gang) (m : Half) (x : Src)

/-- The lanes in which a register is EMPTY. -/
def emptyLanes : Half := maskOf (fun l => m.getLsbD l && !((g.lane l).vreg x.r).full)
/-- The lanes in which it is EMPTY and no producer owes it. -/
def orphanLanes : Half := maskOf (fun l => m.getLsbD l && !((g.lane l).vreg x.r).full && ((g.lane l).vreg x.r).owed.isNone)
/-- The lanes in which it is poisoned, or its bits are. -/
def badLanes : Half := maskOf (fun l => m.getLsbD l && (((g.lane l).vreg x.r).poison || ((g.lane l).vreg x.r).bad))

/-- The checks of a source in their order, by its disposition. -/
theorem readStop_eq : readStop g x m =
    if x.trap then
      firstStop [need (emptyLanes g m x = 0#32) (.trap { cause := .emptySource, lanes := some (emptyLanes g m x), detail := BitVec.ofNat 64 x.r.toNat }),
        need (badLanes g m x = 0#32) (.trap (poisonTrap g x.r (badLanes g m x)))]
    else
      firstStop [need (orphanLanes g m x = 0#32) (.trap { cause := .orphanWait, lanes := some (orphanLanes g m x), detail := BitVec.ofNat 64 x.r.toNat }),
        need (emptyLanes g m x = 0#32) (.wait (.register x.r) none),
        need (badLanes g m x = 0#32) (.trap (poisonTrap g x.r (badLanes g m x)))] := rfl

variable {g m x}

/-- An EMPTY source of the disposition EMPTY_SOURCE traps. -/
theorem readStop_emptySource (ht : x.trap = true) (he : emptyLanes g m x ≠ 0#32) :
    readStop g x m = some (.trap { cause := .emptySource, lanes := some (emptyLanes g m x), detail := BitVec.ofNat 64 x.r.toNat }) := by
  rw [readStop_eq, if_pos ht, need_false (decide_eq_false he)]
  rfl

/-- An EMPTY source that no producer owes traps. -/
theorem readStop_orphan (ht : x.trap = false) (ho : orphanLanes g m x ≠ 0#32) :
    readStop g x m = some (.trap { cause := .orphanWait, lanes := some (orphanLanes g m x), detail := BitVec.ofNat 64 x.r.toNat }) := by
  rw [readStop_eq, ht, need_false (decide_eq_false ho)]
  rfl

/-- An EMPTY source with its producer outstanding waits. -/
theorem readStop_waits (ht : x.trap = false) (ho : orphanLanes g m x = 0#32) (he : emptyLanes g m x ≠ 0#32) :
    readStop g x m = some (.wait (.register x.r) none) := by
  rw [readStop_eq, if_neg (by rw [ht]; decide), need_true (decide_eq_true ho), need_false (decide_eq_false he)]
  rfl

/-- Where no lane is EMPTY none is an orphan. -/
theorem orphanLanes_none (he : emptyLanes g m x = 0#32) : orphanLanes g m x = 0#32 := by
  refine maskOf_none (fun l hl => ?_)
  have e : (emptyLanes g m x).getLsbD l = (m.getLsbD l && !((g.lane l).vreg x.r).full) := getLsbD_maskOf _ hl
  rw [← e, he]
  simp

/-- A poisoned source traps. -/
theorem readStop_poison {t : TrapInfo} (he : emptyLanes g m x = 0#32) (hb : badLanes g m x ≠ 0#32)
    (ht : poisonTrap g x.r (badLanes g m x) = t) : readStop g x m = some (.trap t) := by
  rw [readStop_eq, ht, need_true (decide_eq_true (orphanLanes_none he)), need_false (decide_eq_false hb)]
  split
  · rw [need_true (decide_eq_true he)]
    rfl
  · rw [need_true (decide_eq_true he)]
    rfl

/-- The trap of a poisoned source follows its lowest lane: bits that no correction restores first, then fault code 5, then the
producer. -/
theorem poisonTrap_bad {r : VNum} (h : ((g.lane (lowLane m)).vreg r).bad = true) :
    poisonTrap g r m = { cause := .poison, lanes := some m, detail := BitVec.ofNat 64 r.toNat, prodpc := 0xFFFFFFFFFFFFFFFF#64 } := by
  unfold poisonTrap
  dsimp only
  rw [if_pos h]
  rfl

theorem poisonTrap_stamped {r : VNum} (h : ((g.lane (lowLane m)).vreg r).bad = false) (hc : ((g.lane (lowLane m)).vreg r).pcode = 5#8) :
    poisonTrap g r m = { cause := .stampedAccess, lanes := some m, detail := 5#64 } := by
  unfold poisonTrap
  dsimp only
  rw [if_neg (by rw [h]; decide), if_pos hc]

theorem poisonTrap_producer {r : VNum} (h : ((g.lane (lowLane m)).vreg r).bad = false) (hc : ((g.lane (lowLane m)).vreg r).pcode ≠ 5#8) :
    poisonTrap g r m =
      { cause := .poison, lanes := some m, detail := BitVec.ofNat 64 r.toNat, prodpc := ((g.lane (lowLane m)).vreg r).ppc } := by
  unfold poisonTrap
  dsimp only
  rw [if_neg (by rw [h]; decide), if_neg hc]

end

/-! ### The obligation -/

/-- Settles O14: a ready word passes each check and reads its registers; the sources of a word that issues are read in order, by
induction on them; a plain word stops at the first check or operand that fails. -/
theorem readyWordIssues : Obligations.ReadyWordIssues := by
  refine ⟨fun i f u s h => ⟨⟨h.issuer, h.issuable, ready_checks h, ready_reads h⟩, h.isGang⟩, ?_, ?_⟩
  · intro i f u s vals s1 popped h
    obtain ⟨t', lanes, hr, -⟩ := operandsOf_reads h.isGang h.operands
    obtain ⟨hp, hl, hreads, -⟩ := readSrcs_reads hr
    exact ⟨hp, hl, hreads, operandsOf_drained h.isGang h.operands⟩
  · intro i f u s hf hu hi hg word tm g stops waits part here fires
    have h := rowForm_plain hf
    have fires_iff : ∀ n, g.comparatorAt n (pcAt s u) = true ↔ fires n := fun n => by
      simp [Gang.comparatorAt, fires, and_assoc]
    refine ⟨?_, ?_, ?_⟩
    · intro n hn hfire hlow hskip
      refine h.checked hu hi (st := .trap { cause := .breakpoint, detail := BitVec.ofNat 64 (n * 2 ^ 32), cmp := true })
        (preStop_comparator hg ?_)
      rw [h.alone]
      exact comparatorStop_lowest hskip hn ((fires_iff n).mpr hfire) (fun k hk => Bool.eq_false_iff.mpr (mt (fires_iff k).mp (hlow k hk)))
    · intro hno hb
      have checks : preStop i f u s = firstStop [formStop f tm g ((encode i).getD 0#32),
          loopStop g u.slices (pcAt s u) ((encode i).getD 0#32), kStop g.kbad f.ks] := by
        rw [preStop_gang hg h.gang hb, comparatorStop_none, firstStop_cons_none]
        rw [h.alone]
        intro n hn j hj
        obtain rfl : j = 0 := by omega
        rw [Nat.mul_zero, BitVec.add_zero]
        exact Bool.eq_false_iff.mpr (mt (fires_iff n).mp (hno n hn))
      refine ⟨fun ⟨r, hr, hm⟩ => ?_, fun hhere => ⟨fun hl => ?_, fun hl pre x post hs hx hpre hside => ?_, fun hl hq x hx hc => ?_⟩⟩
      · refine h.checked hu hi (st := .trap (illegalAt ((encode i).getD 0#32) 3)) ?_
        rw [checks, h.formStop_missing (fun hall => hm (hall r hr)), firstStop_cons_some]
      · refine h.checked hu hi (st := .trap (illegalModeOf ((encode i).getD 0#32) g.gmode)) ?_
        rw [checks, h.formStop_mode hhere hl, firstStop_cons_some]
      · refine h.checked hu hi (st := .trap { cause := .queueUnmapped, detail := BitVec.ofNat 64 (x.r.toNat - 60) }) ?_
        rw [checks, h.formStop_queue hhere hl hs hx hpre hside, firstStop_cons_some]
      · refine h.checked hu hi (st := .trap { cause := .convergence }) ?_
        have form : formStop f tm g ((encode i).getD 0#32) = none :=
          formStop_none (by rw [h.names]; exact hhere) (h.team tm) hl.1 hl.2 (by rw [h.own, List.append_nil]; exact hq)
        rw [checks, form, loopStop_convergence hx h.opcode hc]
        rfl
    · intro hc awaited who takes read
      refine ⟨fun d hd => ⟨fun ha => ?_, fun ha hr => ?_⟩, fun hfree pre x post hs hpre => ?_⟩
      · refine h.operand hu hi hc (st := .wait (.register d) none) (operandsOf_held hg h.participants ?_)
        rw [hd, owedStop_awaited ha, firstStop_cons_some]
      · refine h.operand hu hi hc (st := .wait (.operands d) none) (operandsOf_held hg h.participants ?_)
        rw [hd, owedStop_none, operandStop_read hr.1 hr.2]
        · rfl
        · intro r hr l hl hm
          rw [List.mem_singleton] at hr
          subst hr
          exact Bool.eq_false_iff.mpr (fun ho => ha ⟨l, hl, hm, ho⟩)
      · have free : firstStop [owedStop g f.dsts part, operandStop tm u.gang s.cycle f.dsts part] = none := by
          rw [owedStop_none, operandStop_none (fun r hr => (hfree r hr).2)]
          · rfl
          · exact fun r hr l hl hm => Bool.eq_false_iff.mpr (fun ho => (hfree r hr).1 ⟨l, hl, hm, ho⟩)
        have at_source : ∀ st, (∀ t', Drained g.gmode tm t' pre → readSrcs g who part (x :: post) t' = .error st) →
            exec i s = .next (stopUnit u st s) := fun st hst =>
          h.operand hu hi hc (operandsOf_source hg h.participants free (by rw [hs]; exact readSrcs_stops hpre hst))
        refine ⟨fun hx => ?_, fun hx ht => ⟨?_, fun p => State.entries_hold hg _ p⟩⟩
        · have at_register : ∀ st, readStop g x part = some st → exec i s = .next (stopUnit u st s) := fun st hst =>
            at_source st (fun t' _ => readSrcs_register hx hst)
          refine ⟨fun hd he => at_register _ (readStop_emptySource hd he), fun hd ho => at_register _ (readStop_orphan hd ho),
            fun hd ho he => at_register _ (readStop_waits hd ho he), fun he hb => ⟨fun hl => ?_, fun hl hp => ?_, fun hl hp => ?_⟩⟩
          · exact at_register _ (readStop_poison he hb (poisonTrap_bad (m := badLanes g part x) hl))
          · exact at_register _ (readStop_poison he hb (poisonTrap_stamped (m := badLanes g part x) hl hp))
          · exact at_register _ (readStop_poison he hb (poisonTrap_producer (m := badLanes g part x) hl hp))
        · refine at_source _ (fun t' hd => readSrcs_queue hx ?_)
          rw [Takes.drained hd, List.append_nil]
          exact ht

end Sys2Proof.Machine
end

section
namespace Sys2Proof.Machine

open Sys2Proof Sys2Proof.Safety

/-! ### Checks of uniform accesses (R275, R392) -/

section
variable {i : Instr} {u : Issuer} {s : State} {vals : List (List Word)} {al w : Nat} {a : Word}

/-- A uniform access that is misaligned traps. -/
theorem uniformStop_misaligned (h : a.toNat % al ≠ 0) :
    uniformStop (ctxOf i u s vals) al w a = some (.trap { cause := .misaligned, detail := a }) := by
  unfold uniformStop
  rw [need_false (decide_eq_false h)]
  rfl

/-- A uniform access that is aligned and not in the window traps. -/
theorem uniformStop_outside (h : a.toNat % al = 0) (ho : (s.team u.team).scratch < a.toNat + w) :
    uniformStop (ctxOf i u s vals) al w a = some (.trap { cause := .scratchRange, detail := a }) := by
  have out : inWindow (s.team u.team) a w = false := decide_eq_false (by omega)
  unfold uniformStop
  rw [need_true (decide_eq_true h), ctx_t, need_false out]
  rfl

/-- A uniform read of an uncorrectable word traps. -/
theorem badStop_bad (h : s.spadBad (placeOf s u a) w = true) :
    badStop s (ctxOf i u s vals) a w = some (.trap (badWordTrap s u)) := by
  unfold badStop
  rw [ctx_t, place_key, h]
  rfl

/-- A uniform read of sound words goes on. -/
theorem badStop_none (h : s.spadBad (placeOf s u a) w = false) : badStop s (ctxOf i u s vals) a w = none := by
  unfold badStop
  rw [ctx_t, place_key, h]
  rfl

end

/-- What the effect of a word whose first checks are those of a uniform access does: their traps, and then that of a word that no
correction restores, before anything else. -/
structure UniformChecks (i : Instr) (s : State) (u : Issuer) (al w bad : Nat) (a : Word) : Prop where
  range : RangeTraps i s u al w a
  poison : a.toNat % al = 0 → a.toNat + w ≤ (s.team u.team).scratch → s.spadBad (placeOf s u a) bad = true →
    exec i s = .next (s.takeTrap u (badWordTrap s u))

/-- A word whose effect begins with these checks takes their traps. -/
theorem uniformChecks {i : Instr} {f : Form} {body : Ctx → State → Except Stop State} {s : State} {u : Issuer} {al w bad : Nat} {a : Word}
    (h : PartyIssues i f u s) (hx : exec i s = issue i f body s)
    (hb : ∀ vals, ∃ k, body (ctxOf i u s vals) s = stopOr (uniformStop (ctxOf i u s vals) al w a)
      (stopOr (badStop s (ctxOf i u s vals) a bad) k)) : UniformChecks i s u al w bad a := by
  refine ⟨⟨fun hm => ?_, fun hal ho => ?_⟩, fun hal hin hbad => ?_⟩ <;> rw [hx]
  · refine party_stops h (st := .trap _) (fun vals => ?_)
    obtain ⟨k, hk⟩ := hb vals
    rw [hk, uniformStop_misaligned hm]
    rfl
  · refine party_stops h (st := .trap _) (fun vals => ?_)
    obtain ⟨k, hk⟩ := hb vals
    rw [hk, uniformStop_outside hal ho]
    rfl
  · refine party_stops h (st := .trap _) (fun vals => ?_)
    obtain ⟨k, hk⟩ := hb vals
    rw [hk, uniform_none hal hin, badStop_bad hbad]
    rfl

/-- A gang's word is a party's. -/
theorem partyIssues_gang {i : Instr} {f : Form} {u : Issuer} {s : State} {vals : List (List Word)} {popped : Bool}
    (h : GangIssues i f u s vals s popped) : PartyIssues i f u s := .inr ⟨h.isGang, vals, popped, h⟩

/-- A state with the same teams has the same gangs. -/
theorem gang_of_teams {s b : State} (h : b.teams = s.teams) (v g : Nat) : b.gang v g = s.gang v g := by
  unfold State.gang State.team
  rw [h]

/-! ### Stores to a sync word (R284 to R287) -/

/-- The low 40 bits of a word. -/
theorem low40 (x : Word) : (x.extractLsb' 0 40).toNat = x.toNat % 2 ^ 40 := by
  rw [BitVec.extractLsb'_toNat, Nat.shiftRight_zero]

/-- The first eight bytes of a sync word after an increment, by COUNT, GEN, TARGET and what stands above GEN (R285). -/
theorem swIncrement_eq (lo target inc : Nat) : swIncrement lo target inc = lo / 2 ^ 56 * 2 ^ 56 +
    (if target = 0 then (lo % 2 ^ 40 + inc) % 2 ^ 40 + lo / 2 ^ 40 % 2 ^ 16 * 2 ^ 40
     else (lo % 2 ^ 40 + inc) % target + (lo / 2 ^ 40 % 2 ^ 16 + (lo % 2 ^ 40 + inc) / target) % 2 ^ 16 * 2 ^ 40) := by
  unfold swIncrement swWith swCount swGen
  dsimp only
  split <;> exact Nat.add_comm _ _

/-- An increment of a sound sync word, with no flag, stores its first eight bytes. -/
theorem syncAdd_eq {s : State} {key inc : Nat} (h : s.spadBad key 16 = false) :
    s.syncAdd key inc 0 = s.spadWrite key (leBytes 8 (swIncrement (memNat s.spad key 8) (memNat s.spad (key + 8) 8 % 2 ^ 40) inc)) := by
  unfold State.syncAdd
  rw [if_neg (by rw [h]; decide), State.spadNat, setFlags_zero (memNat_lt s.spad key 8)]
  rfl

/-- SWINIT's store keeps GEN and makes COUNT, FLAGS and the reserved bits 0 (R286). -/
def initBytes (s : State) (key : Nat) (target : Nat) : List Byte :=
  leBytes 8 (swGen (memNat s.spad key 8) * 2 ^ 40) ++ leBytes 8 target

theorem swinit_stores {ka kb : KNum} {s : State} {u : Issuer} {vals : List (List Word)} {popped : Bool}
    (h : GangIssues (.swinit ka kb) { ks := [ka, kb], closes := true } u s vals s popped)
    (hal : (kOf s u ka).toNat % 16 = 0) (hin : (kOf s u ka).toNat + 16 ≤ (s.team u.team).scratch)
    (hbad : s.spadBad (placeOf s u (kOf s u ka)) 8 = false) :
    ∃ b t, exec (.swinit ka kb) s = .next t ∧ Finished b t u ∧
      b = { s with spad := b.spad, bad := b.bad, cores := b.cores, fresh := b.fresh, cmds := b.cmds,
                   syncCodes := s.syncCodes.filter (fun x => x.1 ≠ placeOf s u (kOf s u ka)) } ∧
      FillsNote s b u ∧ CommandsNote s b ∧
      Stored s b (placeOf s u (kOf s u ka)) (initBytes s (placeOf s u (kOf s u ka)) ((kOf s u kb).toNat % 2 ^ 40)) := by
  let a := placeOf s u (kOf s u ka)
  let store := fun (x : State) => x.spadWrite a (leBytes 8 (swGen (x.spadNat a 8) * 2 ^ 40) ++ leBytes 8 ((kOf s u kb).extractLsb' 0 40).toNat)
  let X := s.ownStore u store
  obtain ⟨rest, fills, stored⟩ := stored_at s u a (initBytes s a ((kOf s u kb).toNat % 2 ^ 40)) store (fun x hx => by
    show x.spadWrite a _ = _
    rw [low40, State.spadNat, (noted_spad hx).1]
    rfl)
  have cmds : CommandsNote s X := commandsNote_ownStore s u store (fun x => commandsNote_spadWrite x _ _)
  have codes : X.syncCodes = s.syncCodes := by
    show (s.ownStore u store).syncCodes = _
    rw [rest]
  let b : State := { X with syncCodes := X.syncCodes.filter (fun x => x.1 ≠ a) }
  have hrest : b = { s with spad := b.spad, bad := b.bad, cores := b.cores, fresh := b.fresh, cmds := b.cmds,
                            syncCodes := s.syncCodes.filter (fun x => x.1 ≠ a) } := by
    show ({ X with syncCodes := X.syncCodes.filter (fun x => x.1 ≠ a) } : State) = _
    rw [codes]
    exact congrArg (fun y : State => { y with syncCodes := s.syncCodes.filter (fun x => x.1 ≠ a) }) rest
  have teams : b.teams = s.teams := by rw [hrest]
  have done : ∃ t, exec (.swinit ka kb) s = .next t ∧ Finished b t u := by
    rw [exec_swinit]
    refine party_finishes (partyIssues_gang h) rfl rfl (fun vals => ?_) (fun _ => by rw [gang_of_teams teams])
    dsimp only
    rw [ctx_k, ctx_k, ctx_u, ctx_t, uniform_none hal hin, badStop_none hbad]
    rfl
  obtain ⟨t, ht, hf⟩ := done
  exact ⟨b, t, ht, hf, hrest, fillsNote_same fills rfl rfl, commandsNote_trans cmds (commandsNote_same rfl), stored_same stored rfl rfl⟩

/-- The first eight bytes of a sync word after SWADD (R285, R287). -/
def addedBytes (s : State) (key inc : Nat) : List Byte :=
  leBytes 8 (swIncrement (memNat s.spad key 8) (memNat s.spad (key + 8) 8 % 2 ^ 40) inc)

theorem swadd_stores {sc : Scope} {ka kb : KNum} {s : State} {u : Issuer} {vals : List (List Word)} {popped : Bool}
    (h : GangIssues (.swadd sc ka kb) { ks := [ka, kb], closes := true } u s vals s popped)
    (hal : (kOf s u ka).toNat % 16 = 0) (hin : (kOf s u ka).toNat + 16 ≤ (s.team u.team).scratch)
    (hbad : s.spadBad (placeOf s u (kOf s u ka)) 16 = false) :
    ∃ b t, exec (.swadd sc ka kb) s = .next t ∧ Finished b t u ∧
      b = { s with spad := b.spad, bad := b.bad, cores := b.cores, fresh := b.fresh, cmds := b.cmds } ∧ FillsNote s b u ∧
      CommandsNote s b ∧
      Stored s b (placeOf s u (kOf s u ka)) (addedBytes s (placeOf s u (kOf s u ka)) ((kOf s u kb).toNat % 2 ^ 40)) := by
  let a := placeOf s u (kOf s u ka)
  let store := fun (x : State) => x.syncAdd a ((kOf s u kb).extractLsb' 0 40).toNat 0
  let b := s.ownStore u store
  have adds : ∀ x, Noted s x → store x = x.spadWrite a (addedBytes s a ((kOf s u kb).toNat % 2 ^ 40)) := by
    intro x hx
    have hs : x.spadBad a 16 = false := by
      unfold State.spadBad
      rw [(noted_spad hx).2]
      exact hbad
    show x.syncAdd a _ 0 = _
    rw [syncAdd_eq hs, low40, (noted_spad hx).1]
    rfl
  obtain ⟨rest, fills, stored⟩ := stored_at s u a _ store adds
  have cmds : CommandsNote s b := commandsNote_ownStore s u store (fun x => by
    show CommandsNote x (x.syncAdd a _ 0)
    unfold State.syncAdd
    split
    · exact commandsNote_same rfl
    · exact commandsNote_spadWrite x _ _)
  have teams : b.teams = s.teams := by
    show (s.ownStore u store).teams = _
    rw [rest]
  have done : ∃ t, exec (.swadd sc ka kb) s = .next t ∧ Finished b t u := by
    rw [exec_swadd]
    refine party_finishes (partyIssues_gang h) rfl rfl (fun vals => ?_) (fun _ => by rw [gang_of_teams teams])
    rw [ctx_k, ctx_k, ctx_u, ctx_t, uniform_none hal hin, badStop_none hbad]
    rfl
  obtain ⟨t, ht, hf⟩ := done
  exact ⟨b, t, ht, hf, rest, fills, cmds, stored⟩

/-! ### SWAIT (R288, R289) -/

/-- The operands of SWAIT: a word that waits keeps those with which it began. -/
def swaitOps (c : Ctx) (s : State) (ka kb : KNum) : Word × BitVec 16 :=
  match s.unitWait c.u with
  | some (.swait a g) => (a, g)
  | _ => (c.k ka, (c.k kb).extractLsb' 0 16)
/-- The effect of SWAIT with its operands, once its sync word may be read. -/
def swaitEffect (sc : Scope) (a : Word) (g : BitVec 16) (c : Ctx) (s : State) : Except Stop State :=
  stopOr (need (genReached (swGen (s.spadNat (c.t.key a.toNat) 8)) g.toNat) (.wait (.swait a g) none))
    (stopOr (need (!swFault (s.spadNat (c.t.key a.toNat) 8)) (.trap (syncTrap s c.t a))) (.ok (s.observe (observes c.u sc a.toNat))))

/-- SWAIT has its effect behind the checks of a uniform access. -/
theorem execSwait_eq (sc : Scope) (ka kb : KNum) (s : State) :
    execSwait sc ka kb s = issue (.swait sc ka kb) { ks := [ka, kb], sidecar := true } (fun c s =>
      stopOr (uniformStop c 16 16 (swaitOps c s ka kb).1) (stopOr (badStop s c (swaitOps c s ka kb).1 16)
        (swaitEffect sc (swaitOps c s ka kb).1 (swaitOps c s ka kb).2 c s))) s := rfl

theorem swaitOps_eq {i : Instr} {ka kb : KNum} {s : State} {u : Issuer} {vals : List (List Word)} {a : Word} {g : BitVec 16}
    (h : s.unitWait u = some (.swait a g) ∨
      ((∀ a g, s.unitWait u ≠ some (.swait a g)) ∧ a = kOf s u ka ∧ g = (kOf s u kb).setWidth 16)) :
    swaitOps (ctxOf i u s vals) s ka kb = (a, g) := by
  unfold swaitOps
  rw [ctx_u, ctx_k, ctx_k]
  rcases h with h | ⟨h, rfl, rfl⟩
  · rw [h]
  · split
    · next hw => exact absurd hw (h _ _)
    · rw [BitVec.setWidth_eq_extractLsb' (by decide)]

/-- What the effect of SWAIT reads of the sync word. -/
theorem swaitEffect_eq {i : Instr} {sc : Scope} {s : State} {u : Issuer} {vals : List (List Word)} {a : Word} {g : BitVec 16} :
    swaitEffect sc a g (ctxOf i u s vals) s =
      stopOr (need (genReached (memNat s.spad (placeOf s u a) 8 / 2 ^ 40 % 2 ^ 16) g.toNat) (.wait (.swait a g) none))
        (stopOr (need (!decide (memNat s.spad (placeOf s u a) 8 / 2 ^ 56 % 2 = 1)) (.trap (syncTrap s (s.team u.team) a)))
          (.ok (s.observe (observes u sc a.toNat)))) := by
  unfold swaitEffect
  rw [ctx_t, ctx_u]
  rfl

/-- GEN has passed a value when it is ahead by less than half of its range (R288). -/
theorem genReached_iff {gen g : Nat} : genReached gen g = true ↔ 1 ≤ (gen + 2 ^ 16 - g) % 2 ^ 16 ∧ (gen + 2 ^ 16 - g) % 2 ^ 16 < 2 ^ 15 := by
  unfold genReached
  rw [Bool.and_eq_true, decide_eq_true_eq, decide_eq_true_eq]
  exact Iff.rfl

/-! ### QPUSH (R216) -/

/-- QPUSH of an entry: nothing where every gang has exited, and held where the queue is full. -/
def pushEffect (q : BitVec 2) (e : List Word) (c : Ctx) (s : State) : Except Stop State :=
  if c.t.gangsExited then .ok s
  else if 16 ≤ (c.t.queue q).entries.length then .error (.wait (.qpush q e) (some s))
  else .ok (s.modTeam c.u.team (fun t =>
    { t with queues := rowMod {} t.queues q.toNat (fun x => { x with entries := x.entries ++ [e] }) }))
/-- The entry that QPUSH reads, behind the checks of a uniform access where it is in memory. -/
def qpushEffect (q : BitVec 2) (ka : KNum) (bcast : Bool) (c : Ctx) (s : State) : Except Stop State :=
  if bcast then pushEffect q ((upTo 32).map (fun _ => c.k ka)) c s
  else stopOr (uniformStop c 8 256 (c.k ka)) (stopOr (badStop s c (c.k ka) 256)
    (pushEffect q ((upTo 32).map (fun l => BitVec.ofNat 64 (field (s.spadSeen (c.t.key (c.k ka).toNat) 256).1 (8 * l) 8))) c
      (s.spadSeen (c.t.key (c.k ka).toNat) 256).2))

/-- The effect of QPUSH: a word that waits keeps the entry it read. -/
def qpushBody (q : BitVec 2) (ka : KNum) (bcast : Bool) (c : Ctx) (s : State) : Except Stop State :=
  match s.unitWait c.u with
  | some (.qpush _ e) => pushEffect q e c s
  | _ => qpushEffect q ka bcast c s

theorem execQpush_eq (q : BitVec 2) (ka : KNum) (bcast : Bool) (s : State) :
    execQpush q ka bcast s = issue (.qpush q ka bcast) { ks := [ka], sidecar := true, gang := false } (qpushBody q ka bcast) s := rfl

theorem qpushBody_kept {i : Instr} {q q' : BitVec 2} {ka : KNum} {bcast : Bool} {s : State} {u : Issuer} {vals : List (List Word)}
    {e : List Word} (h : s.unitWait u = some (.qpush q' e)) :
    qpushBody q ka bcast (ctxOf i u s vals) s = pushEffect q e (ctxOf i u s vals) s := by
  unfold qpushBody
  rw [ctx_u, h]

theorem qpushBody_own {i : Instr} {q : BitVec 2} {ka : KNum} {bcast : Bool} {s : State} {u : Issuer} {vals : List (List Word)}
    (h : ∀ q' e', s.unitWait u ≠ some (.qpush q' e')) :
    qpushBody q ka bcast (ctxOf i u s vals) s = qpushEffect q ka bcast (ctxOf i u s vals) s := by
  unfold qpushBody
  rw [ctx_u]
  split
  · next hw => exact absurd hw (h _ _)
  · rfl

/-- The entry that a QPUSH pushes and the state in which it does so, after reading where it has not waited. -/
structure Pushes (q : BitVec 2) (ka : KNum) (bcast : Bool) (u : Issuer) (s : State) (e : List Word) (b : State) : Prop where
  effect : ∀ vals, qpushBody q ka bcast (ctxOf (.qpush q ka bcast) u s vals) s = pushEffect q e (ctxOf (.qpush q ka bcast) u s vals) b
  teams : b.teams = s.teams

section
variable {q : BitVec 2} {ka : KNum} {bcast : Bool} {u : Issuer} {s b : State} {e : List Word}

/-- QPUSH.B pushes the k register in every position. -/
theorem pushes_register (hown : ∀ q' e', s.unitWait u ≠ some (.qpush q' e')) (hb : bcast = true) :
    Pushes q ka bcast u s ((upTo 32).map (fun _ => kOf s u ka)) s := by
  refine ⟨fun vals => ?_, rfl⟩
  rw [qpushBody_own hown, qpushEffect, if_pos hb, ctx_k]

/-- Another QPUSH pushes 32 words of memory as the program sees them, and draws free values where they are veiled (R189). -/
theorem pushes_memory (hown : ∀ q' e', s.unitWait u ≠ some (.qpush q' e')) (hb : bcast = false) (hal : (kOf s u ka).toNat % 8 = 0)
    (hin : (kOf s u ka).toNat + 256 ≤ (s.team u.team).scratch) (hbad : s.spadBad (placeOf s u (kOf s u ka)) 256 = false) :
    Pushes q ka bcast u s
      ((upTo 32).map (fun l => BitVec.ofNat 64 (field
        (if s.veils (placeOf s u (kOf s u ka)) 256 = true then s.seenBytes s.fresh (placeOf s u (kOf s u ka)) 256
         else memRead s.spad (placeOf s u (kOf s u ka)) 256) (8 * l) 8)))
      { s with fresh := if s.veils (placeOf s u (kOf s u ka)) 256 = true then s.fresh + 256 else s.fresh } := by
  refine ⟨fun vals => ?_, rfl⟩
  rw [qpushBody_own hown, qpushEffect, if_neg (by rw [hb]; decide), ctx_k, uniform_none hal hin, badStop_none hbad, ctx_t, place_key]
  show pushEffect q _ _ _ = _
  cases hv : s.veils (placeOf s u (kOf s u ka)) 256
  · simp only [State.spadSeen, State.seenBytes, hv, Bool.false_eq_true, if_false]
    rfl
  · simp only [State.spadSeen, hv, if_true]

/-- With every gang exited the entry is discarded. -/
theorem Pushes.discards (hp : Pushes q ka bcast u s e b) (h : SidecarIssues (.qpush q ka bcast) { ks := [ka], sidecar := true, gang := false } u s)
    (hx : (s.team u.team).gangsExited = true) : ∃ t, exec (.qpush q ka bcast) s = .next t ∧ Finished b t u := by
  rw [exec_qpush, execQpush_eq]
  refine side_finishes h rfl rfl ?_
  rw [hp.effect, pushEffect, ctx_t, if_pos hx]

/-- With room the entry is appended. -/
theorem Pushes.appends (hp : Pushes q ka bcast u s e b) (h : SidecarIssues (.qpush q ka bcast) { ks := [ka], sidecar := true, gang := false } u s)
    (hx : (s.team u.team).gangsExited = false) (hn : ((s.team u.team).queue q).entries.length < 16) :
    ∃ t, exec (.qpush q ka bcast) s = .next t ∧
      Finished (b.modTeam u.team (fun t => { t with queues := rowMod {} t.queues q.toNat (fun x => { x with entries := x.entries ++ [e] }) })) t u := by
  rw [exec_qpush, execQpush_eq]
  refine side_finishes h rfl rfl ?_
  rw [hp.effect, pushEffect, ctx_t, ctx_u, if_neg (by rw [hx]; decide), if_neg (by omega)]

/-- Without room the sidecar is held, and keeps the entry. -/
theorem Pushes.held (hp : Pushes q ka bcast u s e b) (h : SidecarIssues (.qpush q ka bcast) { ks := [ka], sidecar := true, gang := false } u s)
    (hx : (s.team u.team).gangsExited = false) (hn : 16 ≤ ((s.team u.team).queue q).entries.length) :
    exec (.qpush q ka bcast) s = .next (b.hold u (.qpush q e)) := by
  rw [exec_qpush, execQpush_eq]
  refine party_stops (.inl ⟨h.isSidecar, h⟩) (st := .wait (.qpush q e) (some b)) (fun vals => ?_)
  rw [hp.effect, pushEffect, ctx_t, if_neg (by rw [hx]; decide), if_pos hn]

end

/-! ### WAITC (R290, R291) -/

/-- A flagged operation that WAITC of a count covers. -/
def coveredBy (n : BitVec 8) (x : Counter) (f : OpFlag) : Bool := decide (f.seq + n.toNat < x.issued)
/-- The effect of WAITC of a counter as it stands. -/
def waitcEffect (cn : CounterName) (n : BitVec 8) (x : Counter) (u : Issuer) (s : State) : Except Stop State :=
  stopOr (need (x.value ≤ n.toNat) (.wait (.waitc cn n) none))
    (match x.flags.filter (coveredBy n x) with
      | [] => .ok (if cn = .enc then s.observe (decremented s u) else s)
      | f :: fs => .error (.trapIn (flagTrap cn (fs.foldl olderFlag f))
          (s.modPartyCounter u.team u.gang cn (fun y => { y with flags := y.flags.filter (fun z => !coveredBy n x z) }))))

theorem execWaitc_eq (cn : CounterName) (n : BitVec 8) (s : State) :
    execWaitc cn n s = issue (.waitc cn n) { sidecar := true } (fun c s =>
      waitcEffect cn n (s.partyCounter c.u.team c.u.gang cn) c.u s) s := rfl

section
variable {cn : CounterName} {n : BitVec 8} {u : Issuer} {s : State} (h : PartyIssues (.waitc cn n) { sidecar := true } u s)
include h

/-- A counter low enough, with no flag on what it covers, lets the word go on. -/
theorem waitc_passes (hn : (s.partyCounter u.team u.gang cn).value ≤ n.toNat)
    (hc : (s.partyCounter u.team u.gang cn).flags.filter (coveredBy n (s.partyCounter u.team u.gang cn)) = []) :
    ∃ t, exec (.waitc cn n) s = .next t ∧ Finished (if cn = .enc then s.observe (decremented s u) else s) t u := by
  rw [exec_waitc, execWaitc_eq]
  refine party_finishes h rfl rfl (fun vals => ?_) (fun _ => by split <;> rfl)
  rw [ctx_u, waitcEffect, need_true (decide_eq_true hn), hc]
  rfl

/-- The oldest flagged operation that it covers traps, and the flags are consumed. -/
theorem waitc_traps (hn : (s.partyCounter u.team u.gang cn).value ≤ n.toNat) {f : OpFlag} {fs : List OpFlag}
    (hc : (s.partyCounter u.team u.gang cn).flags.filter (coveredBy n (s.partyCounter u.team u.gang cn)) = f :: fs) :
    exec (.waitc cn n) s = .next ((s.modPartyCounter u.team u.gang cn (fun y =>
      { y with flags := y.flags.filter (fun z => !coveredBy n (s.partyCounter u.team u.gang cn) z) })).takeTrap u
        (flagTrap cn (fs.foldl olderFlag f))) := by
  rw [exec_waitc, execWaitc_eq]
  refine party_stops h (st := .trapIn (flagTrap cn (fs.foldl olderFlag f)) _) (fun vals => ?_)
  rw [ctx_u, waitcEffect, need_true (decide_eq_true hn), hc]
  rfl

/-- A counter that is too high holds the word. -/
theorem waitc_holds (hn : n.toNat < (s.partyCounter u.team u.gang cn).value) :
    exec (.waitc cn n) s = .next (s.hold u (.waitc cn n)) := by
  rw [exec_waitc, execWaitc_eq]
  refine party_stops h (st := .wait (.waitc cn n) none) (fun vals => ?_)
  rw [ctx_u, waitcEffect, need_false (decide_eq_false (by omega))]
  rfl

end

/-! ### The obligation -/

/-- Settles O43: a sync word's stores are stores at one place; SWAIT, WAITC and QPUSH go on, trap or are held by their condition. -/
theorem syncWords : Obligations.SyncWords := by
  refine ⟨?_, ?_, ?_, ?_, ?_⟩
  · intro ka kb s u vals popped h a
    have checks : UniformChecks (.swinit ka kb) s u 16 16 8 (kOf s u ka) :=
      uniformChecks (partyIssues_gang h) (exec_swinit ka kb s) (fun vals => ⟨_, by rw [ctx_k]⟩)
    exact ⟨checks.range, fun hal hin => ⟨checks.poison hal hin, fun hbad => swinit_stores h hal hin hbad⟩⟩
  · intro sc ka kb s u vals popped h a
    have checks : UniformChecks (.swadd sc ka kb) s u 16 16 16 (kOf s u ka) :=
      uniformChecks (partyIssues_gang h) (exec_swadd sc ka kb s) (fun vals => ⟨_, by rw [ctx_k]⟩)
    refine ⟨checks.range, fun hal hin => ⟨checks.poison hal hin, fun hbad => ?_⟩⟩
    obtain ⟨b, t, ht, hf, hrest, hn, hc, hs⟩ := swadd_stores h hal hin hbad
    rw [addedBytes, swIncrement_eq] at hs
    exact ⟨b, t, ht, hf, hrest, hn, hc, hs⟩
  · intro sc ka kb s u a g h hops
    have ops : ∀ vals, swaitOps (ctxOf (.swait sc ka kb) u s vals) s ka kb = (a, g) := fun vals => swaitOps_eq hops
    have checks : UniformChecks (.swait sc ka kb) s u 16 16 16 a :=
      uniformChecks h (execSwait_eq sc ka kb s) (fun vals => ⟨_, by rw [ops]⟩)
    refine ⟨checks.range, fun hal hin => ⟨checks.poison hal hin, fun hbad => ?_⟩⟩
    have effect := fun vals => (swaitEffect_eq (i := .swait sc ka kb) (sc := sc) (s := s) (u := u) (vals := vals) (a := a) (g := g))
    rw [exec_swait, execSwait_eq]
    refine ⟨fun hp hf => ?_, fun hp hf => ?_, fun hp => ?_⟩
    · refine party_finishes h rfl rfl (fun vals => ?_) (fun _ => rfl)
      rw [ops, uniform_none hal hin, badStop_none hbad, stopOr, stopOr, effect, need_true (genReached_iff.mpr hp),
        need_true (by rw [hf]; rfl)]
      rfl
    · refine party_stops h (st := .trap (syncTrap s (s.team u.team) a)) (fun vals => ?_)
      rw [ops, uniform_none hal hin, badStop_none hbad, stopOr, stopOr, effect, need_true (genReached_iff.mpr hp),
        need_false (by rw [hf]; rfl)]
      rfl
    · refine party_stops h (st := .wait (.swait a g) none) (fun vals => ?_)
      rw [ops, uniform_none hal hin, badStop_none hbad, stopOr, stopOr, effect,
        need_false (Bool.eq_false_iff.mpr (mt genReached_iff.mp hp))]
      rfl
  · intro cn n s u h x covered
    exact ⟨fun hn hc => waitc_passes h hn hc, fun hn f fs hc => waitc_traps h hn hc, fun hn => waitc_holds h hn⟩
  · rintro q ka bcast s u e b h a own ⟨-, hfrom⟩ n
    have pushes : Pushes q ka bcast u s e b := by
      rcases hfrom with ⟨⟨q', hw⟩, rfl⟩ | ⟨hown, ⟨hb, rfl, rfl⟩ | ⟨hb, hal, hin, hbad, rfl, rfl⟩⟩
      · exact ⟨fun vals => qpushBody_kept hw, rfl⟩
      · exact pushes_register hown hb
      · exact pushes_memory hown hb hal hin hbad
    exact ⟨pushes.discards h, pushes.appends h, pushes.held h⟩

end Sys2Proof.Machine
end

section
namespace Sys2Proof.Machine

open Sys2Proof Sys2Proof.Safety

/-! ### Several stores of one word -/

/-- Memory after stores at offsets from a place, in order. -/
def writeParts (key : Nat) (hdr : List (Nat × List Byte)) (m : List Host.Cell) : List Host.Cell :=
  hdr.foldl (fun m h => memWrite m (key + h.1) h.2) m
/-- The stores on the state. -/
def storeParts (key : Nat) (hdr : List (Nat × List Byte)) (s : State) : State :=
  hdr.foldl (fun s h => s.spadWrite (key + h.1) h.2) s

/-- The parts share no byte. -/
def Disjoint2 (h h' : Nat × List Byte) : Prop := h.1 + h.2.length ≤ h'.1 ∨ h'.1 + h'.2.length ≤ h.1

theorem writeParts_other (key y : Nat) : ∀ (hdr : List (Nat × List Byte)) (m : List Host.Cell),
    (∀ h ∈ hdr, y < key + h.1 ∨ key + h.1 + h.2.length ≤ y) → memGet (writeParts key hdr m) y = memGet m y
  | [], _, _ => rfl
  | h :: hdr, m, hy => by
    show memGet (writeParts key hdr (memWrite m (key + h.1) h.2)) y = _
    rw [writeParts_other key y hdr _ (fun g hg => hy g (List.mem_cons_of_mem _ hg)),
      memGet_memWrite_other _ _ _ _ (hy h List.mem_cons_self)]

theorem writeParts_read (key : Nat) : ∀ {hdr : List (Nat × List Byte)} {m : List Host.Cell}, Memory.wf m = true →
    hdr.Pairwise Disjoint2 → ∀ h ∈ hdr, memRead (writeParts key hdr m) (key + h.1) h.2.length = h.2
  | g :: hdr, m, hm, hp, h, hh => by
    obtain ⟨hfirst, hrest⟩ := List.pairwise_cons.mp hp
    show memRead (writeParts key hdr (memWrite m (key + g.1) g.2)) _ _ = _
    rcases List.mem_cons.mp hh with rfl | hmem
    · rw [memRead_congr (m' := memWrite m (key + h.1) h.2)]
      · exact memRead_memWrite_same _ _ hm
      · intro x h1 h2
        refine writeParts_other key x hdr _ (fun g hg => ?_)
        rcases hfirst g hg with hd | hd <;> omega
    · exact writeParts_read key (memWrite_wf _ _ hm) hrest h hmem

/-- One store. -/
theorem storeParts_one (key : Nat) (bs : List Byte) : storeParts key [(0, bs)] = fun s => s.spadWrite key bs := by
  funext s
  rfl

/-- The stores change scratchpad, marks and the notes of commands. -/
theorem storeParts_rest (key : Nat) : ∀ (hdr : List (Nat × List Byte)) (s : State),
    storeParts key hdr s = { s with spad := (storeParts key hdr s).spad, bad := (storeParts key hdr s).bad,
                                    cmds := (storeParts key hdr s).cmds }
  | [], _ => rfl
  | h :: hdr, s => storeParts_rest key hdr (s.spadWrite (key + h.1) h.2)

theorem storeParts_spad (key : Nat) : ∀ (hdr : List (Nat × List Byte)) (s : State),
    (storeParts key hdr s).spad = writeParts key hdr s.spad
  | [], _ => rfl
  | h :: hdr, s => storeParts_spad key hdr (s.spadWrite (key + h.1) h.2)

theorem storeParts_notes (key : Nat) : ∀ (hdr : List (Nat × List Byte)) (s : State), CommandsNote s (storeParts key hdr s)
  | [], _ => commandsNote_same rfl
  | h :: hdr, s => commandsNote_trans (commandsNote_spadWrite s _ _) (storeParts_notes key hdr (s.spadWrite (key + h.1) h.2))

/-- What the stores of a word leave in scratchpad. -/
theorem ownStore_parts (r : State) (u : Issuer) (key : Nat) (hdr : List (Nat × List Byte)) :
    (r.ownStore u (storeParts key hdr)).spad = writeParts key hdr r.spad := by
  obtain ⟨a, h1, h2, -⟩ := ownStore_noted r u (storeParts key hdr)
  rw [h2.rest]
  show (storeParts key hdr a).spad = _
  rw [storeParts_spad, (noted_spad h1).1]

/-! ### The start of an engine command (R17, R192, R194, R295, R408) -/

/-- The effect of COPY and SKIP with what they have read: held where ENC is at 255, else stores and a command. -/
def commandEffect (skipper : Bool) (a : Word) (hdr : List (Nat × List Byte)) (chain : Chain) (skip : SkipCmd) (blk : List Byte)
    (c : Ctx) (r : State) : Except Stop State :=
  stopOr (commandStop r c a blk)
    (.ok ((r.ownStore c.u (storeParts (c.t.key a.toNat) hdr)).startCmd c.u skipper a.toNat chain skip))

/-- What COPY writes at its chain's head. -/
def copyHead (a : Word) : List (Nat × List Byte) := [(0, leBytes 4 (a.toNat + 16) ++ leBytes 4 0 ++ leBytes 4 0 ++ leBytes 1 1 ++ leBytes 1 0)]
/-- What SKIP writes in its block. -/
def skipHead : List (Nat × List Byte) := [(4, leBytes 2 1), (64, leBytes 32 0)]

theorem startCopy_eq (c : Ctx) (a : Word) (b : List Byte) (s : State) :
    startCopy c a b s = commandEffect false a (copyHead a) { entry := a.toNat + 16, run := a.toNat + 16 } {} b c s := by
  unfold startCopy commandEffect copyHead
  rw [storeParts_one]
theorem startSkip_eq (c : Ctx) (a : Word) (b : List Byte) (s : State) :
    startSkip c a b s = commandEffect true a skipHead {} { block := b.take 64 } b c s := rfl

/-- The state in which a word has read differs from the one before in nothing that the start of a command uses. -/
structure HasRead (s r : State) (u : Issuer) : Prop where
  spad : r.spad = s.spad
  cycle : r.cycle = s.cycle
  counter : r.partyCounter u.team u.gang .enc = s.partyCounter u.team u.gang .enc
  status : (r.team u.team).status = (s.team u.team).status
  slices : (r.gang u.team u.gang).slices = (s.gang u.team u.gang).slices

theorem hasRead_refl (s : State) (u : Issuer) : HasRead s s u := ⟨rfl, rfl, rfl, rfl, rfl⟩

/-- A party's counter depends on the teams alone. -/
theorem partyCounter_of_teams {s b : State} (h : b.teams = s.teams) (v g : Nat) (c : CounterName) :
    b.partyCounter v g c = s.partyCounter v g c := by
  unfold State.partyCounter State.gang State.team
  rw [h]

/-- The counting of a command leaves the slices where they are. -/
theorem slices_modPartyCounter {s : State} {u : Issuer} (hg : u.gang ≠ 16) :
    ((s.modPartyCounter u.team u.gang .enc Counter.count).gang u.team u.gang).slices = (s.gang u.team u.gang).slices := by
  unfold State.modPartyCounter
  rw [if_neg hg, State.gang_modGang_same]
  rfl

/-- A command that starts is counted, belongs to the party, and performs nothing for 16 cycles. -/
theorem startCmd_eq {x s : State} {u : Issuer} (skipper : Bool) (addr : Nat) (chain : Chain) (skip : SkipCmd)
    (hc : x.partyCounter u.team u.gang .enc = s.partyCounter u.team u.gang .enc) (ht : x.cycle = s.cycle)
    (hs : (x.team u.team).status = (s.team u.team).status) :
    x.startCmd u skipper addr chain skip =
      ({ x with cmds := x.cmds ++ [⟨u.team, u.gang, (s.partyCounter u.team u.gang .enc).issued, skipper, addr, s.cycle + 16,
        (match (s.team u.team).status with
          | .saving _ => CmdStage.stopping
          | _ => CmdStage.running), chain, skip, []⟩] } : State).modPartyCounter u.team u.gang .enc Counter.count := by
  unfold State.startCmd
  rw [hc, ht, hs]
  cases (s.team u.team).status <;> rfl

/-- A word with this effect starts its command. -/
theorem commandStarts {i : Instr} {f : Form} {body : Ctx → State → Except Stop State} {s r : State} {u : Issuer} {skipper : Bool}
    {a : Word} {hdr : List (Nat × List Byte)} {chain : Chain} {skip : SkipCmd} {blk : List Byte} (h : PartyIssues i f u s)
    (hj : f.jumps = false) (hm : f.merges = false) (hx : exec i s = issue i f body s) (hr : HasRead s r u)
    (hd : hdr.Pairwise Disjoint2)
    (hb : ∀ vals, body (ctxOf i u s vals) s = commandEffect skipper a hdr chain skip blk (ctxOf i u s vals) r) :
    CommandStarts i s r u skipper a hdr chain skip blk := by
  refine ⟨fun hfull => ?_, fun hroom => ?_⟩
  · rw [hx]
    refine party_stops h (st := .wait (.command a blk) (some r)) (fun vals => ?_)
    rw [hb, commandEffect, commandStop, ctx_u, hr.counter, need_false (decide_eq_false (by omega))]
    rfl
  · let x := r.ownStore u (storeParts (placeOf s u a) hdr)
    have rest : x = { r with spad := x.spad, bad := x.bad, cores := x.cores, fresh := x.fresh, cmds := x.cmds } :=
      ownStore_rest r u _ (storeParts_rest _ hdr)
    have teams : x.teams = r.teams := by rw [rest]
    have notes : FillsNote r x u := fillsNote_ownStore _ ⟨rfl, rfl, rfl⟩ (fun y => by rw [storeParts_rest]; exact ⟨rfl, rfl⟩)
    have cmds : CommandsNote r x := commandsNote_ownStore r u _ (storeParts_notes _ hdr)
    have spad : x.spad = writeParts (placeOf s u a) hdr s.spad := (ownStore_parts r u _ hdr).trans (by rw [hr.spad])
    have started := startCmd_eq (x := x) skipper a.toNat chain skip ((partyCounter_of_teams teams _ _ _).trans hr.counter)
      (by rw [rest]; exact hr.cycle) ((congrArg (fun l => (rowGet ({} : Team) l u.team).status) teams).trans hr.status)
    have done : ∃ t, exec i s = .next t ∧ Finished (x.startCmd u skipper a.toNat chain skip) t u := by
      rw [hx]
      refine party_finishes h hj hm (fun vals => ?_) (fun hg => ?_)
      · rw [hb, commandEffect, commandStop, ctx_u, ctx_t, hr.counter, need_true (decide_eq_true hroom)]
        rfl
      · rw [started, slices_modPartyCounter hg, ← hr.slices, ← gang_of_teams teams]
        rfl
    obtain ⟨t, ht, hf⟩ := done
    rw [started] at hf
    refine ⟨x, t, ht, rest, notes, cmds, fun hm h hh => ?_, fun y hy => ?_, hf⟩
    · rw [spad]
      exact writeParts_read _ hm hd h hh
    · rw [spad]
      exact writeParts_other _ y hdr _ hy

/-! ### What COPY and SKIP read (R192, R218, R275, R295) -/

/-- The regions of a block are checked in order, before anything else. -/
def regionsOr (c : Ctx) (k : Except Stop State) : List (Nat × Nat × Nat) → Except Stop State
  | [] => k
  | g :: regs => stopOr (regionStop c g.1 g.2.1 g.2.2) (regionsOr c k regs)

/-- A region is empty, or aligned and inside the window. -/
def RegionOk (s : State) (u : Issuer) (g : Nat × Nat × Nat) : Prop :=
  g.2.1 = 0 ∨ (g.1 % g.2.2 = 0 ∧ g.1 + g.2.1 ≤ (s.team u.team).scratch)

section
variable {i : Instr} {u : Issuer} {s : State} {vals : List (List Word)}

theorem regionStop_none {g : Nat × Nat × Nat} (h : RegionOk s u g) : regionStop (ctxOf i u s vals) g.1 g.2.1 g.2.2 = none := by
  unfold regionStop
  rcases h with h | ⟨hal, hin⟩
  · rw [if_pos h]
  · rw [ctx_t, need_true (decide_eq_true hal), need_true (decide_eq_true hin)]
    split <;> rfl

theorem regionStop_bad {g : Nat × Nat × Nat} (h : ¬ RegionOk s u g) :
    regionStop (ctxOf i u s vals) g.1 g.2.1 g.2.2 = some (.trap
      { cause := if g.1 % g.2.2 = 0 then .scratchRange else .misaligned, detail := BitVec.ofNat 64 g.1 }) := by
  unfold RegionOk at h
  unfold regionStop
  rw [if_neg (fun e => h (.inl e)), ctx_t]
  by_cases hal : g.1 % g.2.2 = 0
  · rw [need_true (decide_eq_true hal), need_false (decide_eq_false (fun hin => h (.inr ⟨hal, hin⟩))), if_pos hal]
    rfl
  · rw [need_false (decide_eq_false hal), if_neg hal]
    rfl

/-- Where every region is in order the word goes on. -/
theorem regionsOr_ok {k : Except Stop State} : ∀ {regs : List (Nat × Nat × Nat)}, (∀ g ∈ regs, RegionOk s u g) →
    regionsOr (ctxOf i u s vals) k regs = k
  | [], _ => rfl
  | g :: regs, h => by
    rw [regionsOr, regionStop_none (h g List.mem_cons_self)]
    exact regionsOr_ok (fun y hy => h y (List.mem_cons_of_mem _ hy))

/-- The first region that is not traps. -/
theorem regionsOr_bad {k : Except Stop State} {g : Nat × Nat × Nat} {q : List (Nat × Nat × Nat)} (hg : ¬ RegionOk s u g) :
    ∀ {p : List (Nat × Nat × Nat)}, (∀ y ∈ p, RegionOk s u y) → regionsOr (ctxOf i u s vals) k (p ++ g :: q) = .error (.trap
      { cause := if g.1 % g.2.2 = 0 then .scratchRange else .misaligned, detail := BitVec.ofNat 64 g.1 })
  | [], _ => by
    rw [List.nil_append, regionsOr, regionStop_bad hg]
    rfl
  | y :: p, h => by
    rw [List.cons_append, regionsOr, regionStop_none (h y List.mem_cons_self)]
    exact regionsOr_bad hg (fun z hz => h z (List.mem_cons_of_mem _ hz))

/-- A uniform access that races with another gang traps in deterministic mode (R218, R369). -/
theorem uniformRace_some {n : Nat} {a : Word} {k : TagKind} (hg : u.gang ≠ 16) (hd : gmDet (s.gang u.team u.gang).gmode = true) {x : Nat × Nat}
    (h : (s.team u.team).raceAt u.gang a.toNat n k = some x) :
    uniformRace (ctxOf i u s vals) n a k = some (.trap (raceTrap x none)) := by
  unfold uniformRace
  rw [det_gang hg, hd, ctx_t, ctx_u, h]
  rfl

end

/-- A word whose effect begins with the checks of a uniform access, its race and a sound word, and then does the rest. -/
structure ReadsBlock (i : Instr) (s : State) (u : Issuer) (al n : Nat) (a : Word) : Prop where
  traps : UniformTraps i s u al n a .read
  poison : UniformOk s u al n a .read → s.spadBad (placeOf s u a) n = true → exec i s = .next (s.takeTrap u (badWordTrap s u))

theorem readsBlock {i : Instr} {f : Form} {body : Ctx → State → Except Stop State} {s : State} {u : Issuer} {al n : Nat} {a : Word}
    (h : PartyIssues i f u s) (hx : exec i s = issue i f body s)
    (hb : ∀ vals, ∃ k, body (ctxOf i u s vals) s = stopOr (uniformStop (ctxOf i u s vals) al n a)
      (stopOr (uniformRace (ctxOf i u s vals) n a .read) (stopOr (badStop s (ctxOf i u s vals) a n) k))) : ReadsBlock i s u al n a := by
  have stops : ∀ x, (∀ vals k, stopOr (uniformStop (ctxOf i u s vals) al n a) (stopOr (uniformRace (ctxOf i u s vals) n a .read)
      (stopOr (badStop s (ctxOf i u s vals) a n) k)) = .error (.trap x)) → exec i s = .next (s.takeTrap u x) := by
    intro x hx'
    rw [hx]
    refine party_stops h (st := .trap x) (fun vals => ?_)
    obtain ⟨k, hk⟩ := hb vals
    rw [hk, hx']
  refine ⟨⟨⟨fun hm => stops _ (fun vals k => ?_), fun hal ho => stops _ (fun vals k => ?_)⟩,
    fun hal hin hg hd m g hr => stops _ (fun vals k => ?_)⟩, fun hok hbad => stops _ (fun vals k => ?_)⟩
  · rw [uniformStop_misaligned hm]
    rfl
  · rw [uniformStop_outside hal ho]
    rfl
  · rw [uniform_none hal hin, uniformRace_some hg hd hr]
    rfl
  · rw [uniformStop_none hok, uniformRace_none hok, badStop_bad hbad]
    rfl

/-- The read of a word recorded in deterministic mode, on a state that differs in free values alone. -/
theorem hasRead_recordRange {s s0 : State} {c : Ctx} (h0 : s0 = { s with fresh := s0.fresh }) (n : Nat) (a : Word) (k : TagKind) :
    HasRead s (s0.recordRange c n a k) c.u := by
  have hr := recorded_range s0 c n a k
  have hw := hr.within s0 (within_refl s0 c.u)
  obtain ⟨hspad, -, -, -, -⟩ := hr.noStore
  have hs : s0.spad = s.spad ∧ s0.cycle = s.cycle ∧ s0.teams = s.teams := by rw [h0]; exact ⟨rfl, rfl, rfl⟩
  obtain ⟨spad, cycle, teams⟩ := hs
  refine ⟨hspad.trans spad, ?_, ?_, ?_, ?_⟩
  · rw [hw.rest]
    exact cycle
  · rw [← partyCounter_of_teams teams]
    unfold State.partyCounter
    rw [hr.side, hr.gang]
  · rw [hw.team]
    show (s0.team c.u.team).status = _
    unfold State.team
    rw [teams]
  · rw [hr.gang, gang_of_teams teams]

/-- What a word has recorded of a read: the lines of its access, of a gang in deterministic mode (R218). -/
theorem recordRange_ctx {i : Instr} {u : Issuer} {s s0 : State} {vals : List (List Word)} (n : Nat) (a : Word) (k : TagKind) :
    s0.recordRange (ctxOf i u s vals) n a k =
      if u.gang ≠ 16 ∧ gmDet (s.gang u.team u.gang).gmode = true then s0.modTeam u.team (fun t => t.recordLines u.gang a.toNat n k) else s0 := by
  unfold State.recordRange
  rw [ctx_u]
  by_cases hg : u.gang = 16
  · rw [det_side hg, if_neg (by decide), if_neg (fun e => e.1 hg)]
  · rw [det_gang hg]
    by_cases hd : gmDet (s.gang u.team u.gang).gmode = true
    · rw [if_pos hd, if_pos ⟨hg, hd⟩]
    · rw [if_neg hd, if_neg (fun e => hd e.2)]

/-- SKIP's two stores share no byte. -/
theorem skipHead_disjoint : skipHead.Pairwise Disjoint2 :=
  List.pairwise_cons.mpr ⟨fun h hh => .inl (by rw [List.mem_singleton.mp hh]; decide), List.pairwise_singleton _ _⟩

/-- A draw of free values, or none, changes nothing else. -/
theorem drawn_rest (s : State) (n : Nat) (c : Prop) [Decidable c] :
    (if c then { s with fresh := s.fresh + n } else s) = { s with fresh := (if c then { s with fresh := s.fresh + n } else s).fresh } := by
  split <;> rfl

/-- What a program's read gives, and the state after it (R189). -/
theorem spadSeen_eq (s : State) (key n : Nat) : s.spadSeen key n =
    (if s.veils key n = true then s.seenBytes s.fresh key n else memRead s.spad key n,
     if true = true ∧ s.veils key n = true then { s with fresh := s.fresh + n } else s) := by
  unfold State.spadSeen
  cases hv : s.veils key n
  · simp only [State.seenBytes, hv, Bool.false_eq_true, and_false, if_false]
    rfl
  · simp only [and_self, if_true]

/-! ### COPY and SKIP, by their operands -/

/-- The effect of COPY and SKIP: a word that waits keeps what it read; another reads. -/
def commandBody (start : Ctx → Word → List Byte → State → Except Stop State) (reads : Ctx → State → Except Stop State) (c : Ctx) (s : State) :
    Except Stop State :=
  match s.unitWait c.u with
  | some (.command a b) => start c a b s
  | _ => reads c s

theorem commandBody_kept {start : Ctx → Word → List Byte → State → Except Stop State} {reads : Ctx → State → Except Stop State} {i : Instr}
    {u : Issuer} {s : State} {vals : List (List Word)} {a : Word} {b : List Byte} (h : s.unitWait u = some (.command a b)) :
    commandBody start reads (ctxOf i u s vals) s = start (ctxOf i u s vals) a b s := by
  unfold commandBody
  rw [ctx_u, h]

theorem commandBody_own {start : Ctx → Word → List Byte → State → Except Stop State} {reads : Ctx → State → Except Stop State} {i : Instr}
    {u : Issuer} {s : State} {vals : List (List Word)} (h : ∀ x y, s.unitWait u ≠ some (.command x y)) :
    commandBody start reads (ctxOf i u s vals) s = reads (ctxOf i u s vals) s := by
  unfold commandBody
  rw [ctx_u]
  split
  · next hw => exact absurd hw (h _ _)
  · rfl

/-- What COPY reads and checks. -/
def copyReads (ka : KNum) (c : Ctx) (s : State) : Except Stop State :=
  stopOr (uniformStop c 16 16 (c.k ka)) (stopOr (uniformRace c 16 (c.k ka) .read) (stopOr (badStop s c (c.k ka) 16)
    (regionsOr c (startCopy c (c.k ka) [] (s.recordRange c 16 (c.k ka) .read)) [])))
/-- The regions that a command block names, with their sizes and alignments: the sync word, DEST and OVF (R183, R192). -/
def blockRegions (b : List Byte) : List (Nat × Nat × Nat) :=
  [(field b 56 8, 16, 16), (field b 40 8, 8 * field b 32 4, 8), (field b 48 8, 4 * field b 36 4, 4)]
/-- What SKIP reads and checks. -/
def skipReads (ka : KNum) (c : Ctx) (s : State) : Except Stop State :=
  stopOr (uniformStop c 32 96 (c.k ka)) (stopOr (uniformRace c 96 (c.k ka) .read) (stopOr (badStop s c (c.k ka) 96)
    (regionsOr c (startSkip c (c.k ka) (s.spadSeen (c.t.key (c.k ka).toNat) 96).1
      ((s.spadSeen (c.t.key (c.k ka).toNat) 96).2.recordRange c 96 (c.k ka) .read)) (blockRegions (s.spadSeen (c.t.key (c.k ka).toNat) 96).1))))

theorem execCopy_eq (ka : KNum) (s : State) :
    execCopy ka s = issue (.copy ka) { ks := [ka], sidecar := true, closes := true } (commandBody startCopy (copyReads ka)) s := by
  unfold execCopy
  refine congrArg (fun body => issue _ _ body s) (funext fun c => funext fun s => ?_)
  rfl
theorem execSkip_eq (ka : KNum) (s : State) :
    execSkip ka s = issue (.skip ka) { ks := [ka], sidecar := true, closes := true } (commandBody startSkip (skipReads ka)) s := by
  unfold execSkip
  refine congrArg (fun body => issue _ _ body s) (funext fun c => funext fun s => ?_)
  unfold commandBody skipReads
  dsimp only [regionsOr, blockRegions] <;> rfl
/-- What COPY and SKIP do from a block that they read: the traps of the access, then of its regions in order, then the start. -/
theorem command_reads {i : Instr} {f : Form} {body : Ctx → State → Except Stop State} {s s0 : State} {u : Issuer} {al n : Nat}
    {skipper : Bool} {a : Word} {hdr : List (Nat × List Byte)} {chain : Chain} {skip : SkipCmd} {blk : List Byte}
    {regs : List (Nat × Nat × Nat)} (h : PartyIssues i f u s) (hj : f.jumps = false) (hm : f.merges = false)
    (hx : exec i s = issue i f body s) (h0 : s0 = { s with fresh := s0.fresh }) (hd : hdr.Pairwise Disjoint2)
    (hb : ∀ vals, body (ctxOf i u s vals) s = stopOr (uniformStop (ctxOf i u s vals) al n a)
      (stopOr (uniformRace (ctxOf i u s vals) n a .read) (stopOr (badStop s (ctxOf i u s vals) a n)
        (regionsOr (ctxOf i u s vals) (commandEffect skipper a hdr chain skip blk (ctxOf i u s vals)
          (s0.recordRange (ctxOf i u s vals) n a .read)) regs)))) :
    ReadsBlock i s u al n a ∧ (UniformOk s u al n a .read → s.spadBad (placeOf s u a) n = false →
      (∀ p g q, regs = p ++ g :: q → (∀ y ∈ p, RegionOk s u y) → ¬ RegionOk s u g → exec i s = .next (s.takeTrap u
        { cause := if g.1 % g.2.2 = 0 then .scratchRange else .misaligned, detail := BitVec.ofNat 64 g.1 })) ∧
      ((∀ g ∈ regs, RegionOk s u g) → CommandStarts i s
        (if u.gang ≠ 16 ∧ gmDet (s.gang u.team u.gang).gmode = true then s0.modTeam u.team (fun t => t.recordLines u.gang a.toNat n .read) else s0)
        u skipper a hdr chain skip blk)) := by
  refine ⟨readsBlock h hx (fun vals => ⟨_, hb vals⟩), fun hok hbad => ⟨fun p g q hregs hp hg => ?_, fun hregs => ?_⟩⟩
  · rw [hx]
    refine party_stops h (st := .trap _) (fun vals => ?_)
    rw [hb, uniformStop_none hok, uniformRace_none hok, badStop_none hbad, hregs, regionsOr_bad hg hp]
    rfl
  · have hr := hasRead_recordRange (c := ctxOf i u s []) h0 n a .read
    rw [ctx_u, recordRange_ctx] at hr
    refine commandStarts h hj hm hx hr hd (fun vals => ?_)
    rw [hb, uniformStop_none hok, uniformRace_none hok, badStop_none hbad, regionsOr_ok hregs, recordRange_ctx]
    rfl

/-! ### ENGQ and TIME (R193, R313) -/

/-- A k register after a write of one (R16). -/
theorem kreg_writeK (g : Gang) (d : KNum) (w : Word) (k : KNum) : (g.writeK d w).kreg k = if k = d then w else g.kreg k := by
  split
  · next h => rw [h, Gang.kreg_writeK_same]
  · next h => exact Gang.kreg_writeK_other g w (Ne.symm h)

/-- Two k registers written one after the other. -/
theorem time_writes {kd : KNum} {s : State} {u : Issuer} {vals : List (List Word)} {popped : Bool}
    (h : GangIssues (.time kd) {} u s vals s popped) (hh : s.tb.holds = false) :
    ∃ t, exec (.time kd) s = .next t ∧ OnlyGang s t u ∧ t.gang u.team u.gang = finishGang {} popped u
      (((s.gang u.team u.gang).writeK kd (BitVec.ofNat 64 s.tb.te)).writeK (kd + 1#5) (BitVec.ofNat 64 s.tb.tl)) := by
  let s1 := s.modGang u.team u.gang (fun g => g.writeK kd (BitVec.ofNat 64 s.tb.te))
  let s2 := s1.modGang u.team u.gang (fun g => g.writeK (kd + 1#5) (BitVec.ofNat 64 s.tb.tl))
  have writes : (s.writeK u kd (BitVec.ofNat 64 s.tb.te)).writeK u (kd + 1#5) (BitVec.ofNat 64 s.tb.tl) = s2 := by
    rw [State.writeK_gang _ h.isGang, State.writeK_gang _ h.isGang]
  have gang : s2.gang u.team u.gang =
      ((s.gang u.team u.gang).writeK kd (BitVec.ofNat 64 s.tb.te)).writeK (kd + 1#5) (BitVec.ofNat 64 s.tb.tl) := by
    show (s1.modGang u.team u.gang _).gang u.team u.gang = _
    rw [State.gang_modGang_same]
    show ((s.modGang u.team u.gang _).gang u.team u.gang).writeK _ _ = _
    rw [State.gang_modGang_same]
  rw [exec_time, ← gang]
  refine gang_completes h ?_ (onlyGang_modGang (onlyGang_modGang (onlyGang_refl s u) _) _)
  rw [heldStop, hh, ctx_u, writes]
  rfl

/-! ### The obligation -/

/-- Settles O46: COPY and SKIP read, check their regions and start a command; ENGQ writes one k register, TIME two. -/
theorem engineWords : Obligations.EngineWords := by
  refine ⟨?_, ?_, ?_⟩
  · rintro i k n al skipper blk regs a hdr chain skip s u key hword hissues
    rcases hword with ⟨rfl, rfl, rfl, rfl, rfl, rfl, rfl⟩ | ⟨rfl, rfl, rfl, rfl, rfl, rfl, rfl⟩
    · refine ⟨fun hw => ?_, ?_⟩
      · refine commandStarts hissues rfl rfl ((exec_copy k s).trans (execCopy_eq k s)) (hasRead_refl s u) (List.pairwise_singleton _ _)
          (fun vals => ?_)
        rw [commandBody_kept hw, startCopy_eq]
        rfl
      · intro hown ha hblk hregs det s0 r ok
        rw [if_pos rfl] at hblk hregs
        subst ha hblk hregs
        obtain ⟨hread, hstart⟩ := command_reads (s0 := s) (regs := []) hissues rfl rfl ((exec_copy k s).trans (execCopy_eq k s)) rfl
          (List.pairwise_singleton _ _) (fun vals => by
            rw [commandBody_own hown, copyReads, ctx_k, startCopy_eq]
            rfl)
        exact ⟨hread.traps, hread.poison, hstart⟩
    · refine ⟨fun hw => ?_, ?_⟩
      · refine commandStarts hissues rfl rfl ((exec_skip k s).trans (execSkip_eq k s)) (hasRead_refl s u) skipHead_disjoint (fun vals => ?_)
        rw [commandBody_kept hw, startSkip_eq]
        rfl
      · intro hown ha hblk hregs det s0 r ok
        rw [if_neg (by decide)] at hblk hregs
        subst ha hregs
        have seen : s.spadSeen key 96 = (blk, s0) := by
          rw [hblk]
          exact spadSeen_eq s key 96
        obtain ⟨hread, hstart⟩ := command_reads (s0 := s0) (regs := blockRegions blk) hissues rfl rfl
          ((exec_skip k s).trans (execSkip_eq k s)) (drawn_rest s 96 _) skipHead_disjoint (fun vals => by
            rw [commandBody_own hown, skipReads, ctx_k, ctx_t, place_key, seen, startSkip_eq])
        exact ⟨hread.traps, hread.poison, hstart⟩
  · intro kd ka s u vals popped h
    rw [exec_engq]
    have done := k_word (f := { ks := [ka] }) (body := fun c s => .ok (s.writeK c.u kd (s.engineWord c.u.team (c.k ka)))) h rfl rfl kd
      (s.engineWord u.team (kOf s u ka)) (by rw [ctx_u, ctx_k])
    obtain ⟨t, ht, ho, hk, -⟩ := done
    unfold State.engineWord State.liveCmd at hk
    exact ⟨t, ht, ho, hk⟩
  · intro kd s u vals popped h
    refine ⟨fun hh => ?_, fun hh => ?_⟩
    · rw [exec_time]
      refine party_stops (partyIssues_gang h) (st := .trap _) (fun vals => ?_)
      rw [heldStop, hh]
      rfl
    · obtain ⟨t, ht, ho, hg⟩ := time_writes h hh
      refine ⟨t, ht, ho, ?_, ?_, ?_, fun k => ?_⟩ <;> rw [hg]
      · exact gangKeeps_finish rfl rfl (State.issuable_gang h.issuable h.isGang) rfl rfl
      · rw [finishGang_keeps]
        rfl
      · rw [finishGang_keeps]
        rfl
      · rw [finishGang_kreg, kreg_writeK, kreg_writeK]

end Sys2Proof.Machine
end

section
namespace Sys2Proof.Machine

open Sys2Proof Sys2Proof.Safety

/-! ### Registers changed in the participating lanes (R12, R13, R380) -/

/-- A vector register changed in lanes by a function of its contents, with the marks of a write. -/
def changeIn (m : Half) (f : VReg → VReg) (g : Gang) (r : VNum) : Gang :=
  (g.modLanes m (fun _ x => x.setV r (f (x.vreg r)))).touchV r

section
variable {m : Half} {f : VReg → VReg}

theorem lane_changeIn (g : Gang) (r : VNum) {l : Nat} (hl : l < 32) :
    (changeIn m f g r).lane l = if m.getLsbD l = true then (g.lane l).setV r (f ((g.lane l).vreg r)) else g.lane l := by
  unfold changeIn
  rw [Gang.lane_touchV]
  cases hm : m.getLsbD l
  · rw [Gang.lane_modLanes_out g m _ hl hm]
    rfl
  · rw [Gang.lane_modLanes_in g m _ hl hm]
    rfl

/-- The same of several registers, one after the other. -/
structure Changed (m : Half) (f : VReg → VReg) (g g' : Gang) (ds : List VNum) : Prop where
  rest : g' = { g with lanes := g'.lanes, latch := g'.latch, instar := g'.instar }
  instar : g'.instar = { g.instar with vdirty := g'.instar.vdirty, rewindable := g'.instar.rewindable }
  lane : ∀ l, l < 32 → g'.lane l = { g.lane l with v := (g'.lane l).v }
  regs : ∀ l, l < 32 → ∀ r, (g'.lane l).vreg r = if m.getLsbD l = true ∧ r ∈ ds then f ((g.lane l).vreg r) else (g.lane l).vreg r

theorem foldl_changeIn : ∀ {ds : List VNum} (g : Gang), ds.Nodup → Changed m f g (ds.foldl (changeIn m f) g) ds
  | [], g, _ => ⟨rfl, rfl, fun _ _ => rfl, fun l _ r => by simp⟩
  | d :: ds, g, hn => by
    obtain ⟨hd, hds⟩ := List.nodup_cons.mp hn
    obtain ⟨hrest, hinstar, hlane, hregs⟩ := foldl_changeIn (changeIn m f g d) hds
    refine ⟨hrest, hinstar, fun l hl => ?_, fun l hl r => ?_⟩
    · have h := hlane l hl
      rw [List.foldl_cons, h, lane_changeIn g d hl]
      split <;> rfl
    · rw [List.foldl_cons, hregs l hl r, lane_changeIn g d hl]
      cases hm : m.getLsbD l
      · simp
      · by_cases hr : r = d
        · subst hr
          simp [hd]
        · simp [hr, Lane.vreg_setV_other _ _ (Ne.symm hr)]

end

/-- The counting of an operation leaves everything else of a gang. -/
theorem modCounter_keeps (g : Gang) (c : CounterName) (f : Counter → Counter) :
    g.modCounter c f = { g with olc := (g.modCounter c f).olc, osc := (g.modCounter c f).osc, enc := (g.modCounter c f).enc } := by
  cases c <;> rfl

/-! ### An operation starts (R12, R17, R304) -/

/-- The state after an operation of a gang has been counted and its destinations changed. -/
def startOp (s : State) (u : Issuer) (o : RemOp) (m : Half) (dsts : List VNum) (f : VReg → VReg) : State :=
  (({ s with ops := s.ops ++ [o] } : State).modGang u.team u.gang (fun g => g.modCounter (RemKind.counter o.kind) Counter.count)).modGang
    u.team u.gang (fun g => dsts.foldl (changeIn m f) g)

theorem gang_startOp (s : State) (u : Issuer) (o : RemOp) (m : Half) (dsts : List VNum) (f : VReg → VReg) :
    (startOp s u o m dsts f).gang u.team u.gang =
      dsts.foldl (changeIn m f) ((s.gang u.team u.gang).modCounter (RemKind.counter o.kind) Counter.count) := by
  unfold startOp
  rw [State.gang_modGang_same, State.gang_modGang_same]
  rfl

theorem opStarted {s : State} {u : Issuer} (o : RemOp) (m : Half) {dsts : List VNum} (f : VReg → VReg) (hn : dsts.Nodup) :
    OpStarted s (startOp s u o m dsts f) u o m dsts f := by
  have counted := modCounter_keeps (s.gang u.team u.gang) (RemKind.counter o.kind) Counter.count
  have lanes : ∀ l, ((s.gang u.team u.gang).modCounter (RemKind.counter o.kind) Counter.count).lane l = (s.gang u.team u.gang).lane l :=
    fun l => by rw [counted]; rfl
  obtain ⟨hrest, hinstar, hlane, hregs⟩ :=
    foldl_changeIn (m := m) (f := f) ((s.gang u.team u.gang).modCounter (RemKind.counter o.kind) Counter.count) hn
  rw [← gang_startOp] at hrest hinstar hlane hregs
  have only : OnlyGang ({ s with ops := s.ops ++ [o] } : State) (startOp s u o m dsts f) u :=
    onlyGang_modGang (onlyGang_modGang (onlyGang_refl _ u) _) _
  have team : (startOp s u o m dsts f).team u.team =
      ((s.team u.team).modGang u.gang (fun g => g.modCounter (RemKind.counter o.kind) Counter.count)).modGang u.gang
        (fun g => dsts.foldl (changeIn m f) g) := by
    unfold startOp State.modGang
    rw [State.team_modTeam_same, State.team_modTeam_same]
    rfl
  refine ⟨rfl, only.teams, by rw [team]; rfl, only.gangs, hrest, ?_, fun l hl => ?_, fun l hl r => ?_⟩
  · rw [hinstar, counted]
  · rw [← lanes]
    exact hlane l hl
  · rw [hregs l hl r, lanes]

/-- What a word issues is the operation of its unit. -/
theorem issueOp_eq {i : Instr} {s s1 : State} {u : Issuer} {vals : List (List Word)} (hg : u.gang ≠ 16) (hs : s1.gang u.team u.gang = s.gang u.team u.gang)
    (kind : RemKind) (d : VNum) (dsts : List VNum) (stamp : Word) (lane : Nat → RemLane) :
    s1.issueOp (ctxOf i u s vals) kind d dsts stamp ((upTo 32).map (fun l => if (partOf s u).getLsbD l then lane l else {})) =
      startOp s1 u (Safety.opOf s u kind d stamp lane) (partOf s u) dsts (awaits s1.ops.length) := by
  have counter : s1.partyCounter u.team u.gang (RemKind.counter kind) = s.partyCounter u.team u.gang (RemKind.counter kind) := by
    unfold State.partyCounter
    rw [if_neg hg, if_neg hg, hs]
  unfold State.issueOp
  rw [ctxOf_gang hg]
  dsimp only
  rw [counter, State.modPartyCounter, if_neg hg]
  rfl

/-! ### Lanes sent -/

/-- A lane sent changes no team. -/
theorem sendLane_teams (s : State) (i l : Nat) (stamped : Bool) : (s.sendLane i l stamped).teams = s.teams := by
  unfold State.sendLane
  dsimp only
  split
  · rfl
  · split <;> rfl
  · split
    · rfl
    · split <;> rfl

theorem foldl_sendLane_teams (i : Nat) (stamped : Bool) : ∀ (ls : List Nat) (s : State),
    (ls.foldl (fun z l => z.sendLane i l stamped) s).teams = s.teams
  | [], _ => rfl
  | l :: ls, s => (foldl_sendLane_teams i stamped ls (s.sendLane i l stamped)).trans (sendLane_teams s i l stamped)

/-! ### A word that starts an operation -/

section
variable {i : Instr} {s s1 : State} {u : Issuer} {vals : List (List Word)}

/-- The source values that a word sees. -/
theorem ctx_src (hg : u.gang ≠ 16) : (ctxOf i u s vals).src = valOf vals := by
  rw [ctxOf_gang hg]
  rfl
/-- The participating lanes that a word sees. -/
theorem ctx_part (hg : u.gang ≠ 16) : (ctxOf i u s vals).part = partOf s u := by
  rw [ctxOf_gang hg]
  rfl

/-- The operation that a word starts in a state with the same gang, with the operation's state as the rows of a table give it. -/
structure Starting (s s1 : State) (u : Issuer) : Prop where
  isGang : u.gang ≠ 16
  gang : s1.gang u.team u.gang = s.gang u.team u.gang
  rest : s1 = { s with teams := s1.teams }

theorem starting_of {f : Form} {popped : Bool} (h : GangIssues i f u s vals s1 popped) : Starting s s1 u :=
  ⟨h.isGang, (onlyGang_operands h.operands).2, (operandsOf_drained h.isGang h.operands).2.1⟩

theorem Starting.counter (h : Starting s s1 u) (c : CounterName) : s1.partyCounter u.team u.gang c = s.partyCounter u.team u.gang c := by
  unfold State.partyCounter
  rw [if_neg h.isGang, if_neg h.isGang, h.gang]
theorem Starting.ops (h : Starting s s1 u) : s1.ops = s.ops := by rw [h.rest]
theorem Starting.tb (h : Starting s s1 u) : s1.tb = s.tb := by rw [h.rest]
theorem Starting.route (h : Starting s s1 u) (p : Nat) (a : Word) (stamped : Bool) : s1.route p a stamped = s.route p a stamped := by
  rw [h.rest]
  rfl

/-- A started operation leaves the slices where they are. -/
theorem slices_startOp (o : RemOp) (m : Half) {dsts : List VNum} (f : VReg → VReg) (hn : dsts.Nodup) :
    ((startOp s u o m dsts f).gang u.team u.gang).slices = (s.gang u.team u.gang).slices := by
  rw [(opStarted o m f hn).gang, modCounter_keeps]

/-- Below 255 a counter holds nothing back. -/
theorem counterStop_none {c : Counter} {n : CounterName} (h : c.value < 255) : counterStop c n = none := need_true (decide_eq_true h) _
theorem counterStop_full {c : Counter} {n : CounterName} (h : 255 ≤ c.value) : counterStop c n = some (.wait (.counter n) none) :=
  need_false (decide_eq_false (by omega)) _

/-- In HELD and FAILED a word that needs the time traps; else it goes on (R312). -/
theorem heldStop_trap (h : 2 ≤ s.tb.tstate.toNat) : heldStop s = some (.trap { cause := .timeHeld, detail := s.tb.tstate.setWidth 64 }) := by
  unfold heldStop Timebase.holds
  rw [decide_eq_true h]
  rfl
theorem heldStop_none (h : s.tb.tstate.toNat < 2) : heldStop s = none := by
  unfold heldStop Timebase.holds
  rw [decide_eq_false (by omega)]
  rfl

end

/-! ### The relaxed remote words (R305) -/

/-- The word is a relaxed remote word as its row says. -/
def RemoteRow (i : Instr) (x : RemoteSpec) : Prop :=
  ∃ val cmp, (∀ s, exec i s = remoteWord i x.form x.kind x.d x.dsts val cmp s) ∧
    (∀ c l, val c l = x.val c.src l) ∧ (∀ c l, cmp c l = x.cmp c.src l) ∧ x.dsts.Nodup

theorem remoteSpec_row {i : Instr} {x : RemoteSpec} (h : remoteSpec i = some x) : RemoteRow i x := by
  unfold remoteSpec at h
  split at h <;> cases h
  all_goals unfold RemoteRow
  case h_1 d a wa => exact ⟨_, _, fun s => exec_rld d a wa s, fun _ _ => rfl, fun _ _ => rfl, List.nodup_singleton _⟩
  case h_2 f a b wa wb => exact ⟨_, _, fun s => exec_rst f a b wa wb s, fun _ _ => rfl, fun _ _ => rfl, List.nodup_nil⟩
  case h_3 d a b wa wb => exact ⟨_, _, fun s => exec_raadd d a b wa wb s, fun _ _ => rfl, fun _ _ => rfl, List.nodup_singleton _⟩
  case h_4 a b wa wb => exact ⟨_, _, fun s => exec_raaddD a b wa wb s, fun _ _ => rfl, fun _ _ => rfl, List.nodup_nil⟩
  case h_5 d a b wa wb => exact ⟨_, _, fun s => exec_rcas d a b wa wb s, fun _ _ => rfl, fun _ _ => rfl, List.nodup_singleton _⟩

section
variable {i : Instr} {x : RemoteSpec} {s s1 : State} {u : Issuer} {vals : List (List Word)} {popped : Bool}
  (hr : RemoteRow i x) (h : GangIssues i x.form u s vals s1 popped)
include hr h

/-- With no lane participating a remote word only goes on. -/
theorem RemoteRow.passes (hp : partOf s u = 0#32) : ∃ t, exec i s = .next t ∧ Finished s1 t u := by
  obtain ⟨val, cmp, hx, -, -, -⟩ := hr
  rw [hx]
  refine gang_finishes h rfl rfl ?_ (by rw [(starting_of h).gang])
  rw [if_pos (by rw [ctx_part h.isGang]; exact hp)]

/-- With its counter full it is held. -/
theorem RemoteRow.held (hp : partOf s u ≠ 0#32) (hc : 255 ≤ (s.partyCounter u.team u.gang (RemKind.counter x.kind)).value) :
    exec i s = .next (s.hold u (.counter (RemKind.counter x.kind))) := by
  obtain ⟨val, cmp, hx, -, -, -⟩ := hr
  rw [hx]
  refine issue_stops h.toIssues (st := .wait (.counter (RemKind.counter x.kind)) none) ?_
  rw [if_neg (by rw [ctx_part h.isGang]; exact hp), ctx_u]
  dsimp only
  rw [(starting_of h).counter, counterStop_full hc]
  rfl

/-- Otherwise its operation starts and its lanes are sent. -/
theorem RemoteRow.starts (hp : partOf s u ≠ 0#32) (hc : (s.partyCounter u.team u.gang (RemKind.counter x.kind)).value < 255) :
    ∃ y t, exec i s = .next t ∧ Finished ((lanesOf (partOf s u)).foldl (fun z l => z.sendLane s.ops.length l false) y) t u ∧
      OpStarted s1 y u (Safety.opOf s u x.kind x.d 0#64 (fun l =>
        { stage := .sent, addr := valOf vals 0 l, val := x.val (valOf vals) l, cmp := x.cmp (valOf vals) l })) (partOf s u) x.dsts
        (awaits s.ops.length) := by
  obtain ⟨val, cmp, hx, hval, hcmp, hn⟩ := hr
  have start := starting_of h
  let o := Safety.opOf s u x.kind x.d 0#64 (fun l =>
    { stage := .sent, addr := valOf vals 0 l, val := x.val (valOf vals) l, cmp := x.cmp (valOf vals) l })
  let y := startOp s1 u o (partOf s u) x.dsts (awaits s.ops.length)
  have lanes : (ctxOf i u s vals).part = partOf s u := ctx_part h.isGang
  have src : (ctxOf i u s vals).src = valOf vals := ctx_src h.isGang
  have done : ∃ t, exec i s = .next t ∧ Finished ((lanesOf (partOf s u)).foldl (fun z l => z.sendLane s.ops.length l false) y) t u := by
    rw [hx]
    refine gang_finishes h rfl rfl ?_ ?_
    · rw [if_neg (by rw [lanes]; exact hp), ctx_u]
      dsimp only
      rw [start.counter, counterStop_none hc]
      simp only [hval, hcmp, src, lanes, start.ops]
      rw [issueOp_eq h.isGang start.gang x.kind x.d x.dsts 0#64 (fun l =>
        { stage := .sent, addr := valOf vals 0 l, val := x.val (valOf vals) l, cmp := x.cmp (valOf vals) l }), start.ops]
      rfl
    · rw [gang_of_teams (foldl_sendLane_teams _ _ _ _), slices_startOp o _ _ hn, start.gang]
  obtain ⟨t, ht, hf⟩ := done
  exact ⟨y, t, ht, hf, opStarted o _ _ hn⟩

end

/-! ### STMP (R317) -/

/-- The later of two values put at a position stays. -/
theorem rowPut_rowPut {α : Type} (d : α) : ∀ (l : List α) (i : Nat) (x y : α), rowPut d (rowPut d l i x) i y = rowPut d l i y
  | [], 0, _, _ => rfl
  | [], i + 1, x, y => congrArg (d :: ·) (rowPut_rowPut d [] i x y)
  | _ :: _, 0, _, _ => rfl
  | z :: t, i + 1, x, y => congrArg (z :: ·) (rowPut_rowPut d t i x y)

/-- Changes of one gang follow one another. -/
theorem modGang_modGang (s : State) (u g : Nat) (f h : Gang → Gang) : (s.modGang u g f).modGang u g h = s.modGang u g (fun x => h (f x)) := by
  simp only [State.modGang, State.modTeam, Team.modGang, rowMod, rowGet_rowPut_same, rowPut_rowPut]

/-- A write of a register in some lane is a change of it. -/
theorem writeV_changeIn {m : Half} (hm : m ≠ 0#32) (g : Gang) (d : VNum) (w : Word) :
    g.writeV d m (fun _ => w) = changeIn m (fun _ => { val := w }) g d := by
  unfold Gang.writeV
  rw [if_neg hm]
  rfl

section
variable {d a b : VNum} {wa wb : Bool} {s s1 : State} {u : Issuer} {vals : List (List Word)} {popped : Bool}

section
variable (h : GangIssues (.stmp d a b wa wb) { srcs := [⟨a, wa⟩, ⟨b, wb⟩], dsts := [d], closes := true } u s vals s1 popped)
include h

/-- With no lane participating STMP only goes on. -/
theorem stmp_passes (hp : partOf s u = 0#32) : ∃ t, exec (.stmp d a b wa wb) s = .next t ∧ Finished s1 t u := by
  rw [exec_stmp]
  refine gang_finishes h rfl rfl ?_ (by rw [(starting_of h).gang])
  rw [if_pos (by rw [ctx_part h.isGang]; exact hp)]

/-- In HELD and FAILED it traps. -/
theorem stmp_timeHeld (hp : partOf s u ≠ 0#32) (ht : 2 ≤ s.tb.tstate.toNat) :
    exec (.stmp d a b wa wb) s = .next (s.takeTrap u { cause := .timeHeld, detail := s.tb.tstate.setWidth 64 }) := by
  rw [exec_stmp, ← (starting_of h).tb]
  refine issue_stops h.toIssues (st := .trap _) ?_
  rw [if_neg (by rw [ctx_part h.isGang]; exact hp), heldStop_trap (by rw [(starting_of h).tb]; exact ht)]
  rfl

/-- With OSC full it is held. -/
theorem stmp_held (hp : partOf s u ≠ 0#32) (ht : s.tb.tstate.toNat < 2) (hc : 255 ≤ (s.partyCounter u.team u.gang .osc).value) :
    exec (.stmp d a b wa wb) s = .next (s.hold u (.counter .osc)) := by
  rw [exec_stmp]
  refine issue_stops h.toIssues (st := .wait (.counter .osc) none) ?_
  rw [if_neg (by rw [ctx_part h.isGang]; exact hp), heldStop_none (by rw [(starting_of h).tb]; exact ht), ctx_u,
    (starting_of h).counter, counterStop_full hc]
  rfl

/-- Otherwise its operation starts, its register takes the stamp, and its lanes are sent. -/
theorem stmp_starts (hp : partOf s u ≠ 0#32) (ht : s.tb.tstate.toNat < 2) (hc : (s.partyCounter u.team u.gang .osc).value < 255) :
    ∃ y t, exec (.stmp d a b wa wb) s = .next t ∧ Finished ((lanesOf (partOf s u)).foldl (fun z l => z.sendLane s.ops.length l true) y) t u ∧
      OpStarted s1 y u (Safety.opOf s u .stmp d (BitVec.ofNat 64 s.tb.tl) (fun l =>
        { stage := .sent, addr := valOf vals 0 l, val := valOf vals 1 l })) (partOf s u) [d] (fun _ => { val := BitVec.ofNat 64 s.tb.tl }) := by
  have start := starting_of h
  let o := Safety.opOf s u .stmp d (BitVec.ofNat 64 s.tb.tl) (fun l => { stage := .sent, addr := valOf vals 0 l, val := valOf vals 1 l })
  let y := startOp s1 u o (partOf s u) [d] (fun _ => { val := BitVec.ofNat 64 s.tb.tl })
  have written : (startOp s1 u o (partOf s u) [] (awaits s.ops.length)).writeV u d (partOf s u) (fun _ => BitVec.ofNat 64 s.tb.tl) = y := by
    unfold State.writeV
    simp only [y, startOp, modGang_modGang, writeV_changeIn hp]
    rfl
  have done : ∃ t, exec (.stmp d a b wa wb) s = .next t ∧
      Finished ((lanesOf (partOf s u)).foldl (fun z l => z.sendLane s.ops.length l true) y) t u := by
    rw [exec_stmp]
    refine gang_finishes h rfl rfl ?_ ?_
    · rw [if_neg (by rw [ctx_part h.isGang]; exact hp), heldStop_none (by rw [start.tb]; exact ht), ctx_u, start.counter,
        counterStop_none hc]
      simp only [ctx_src h.isGang, ctx_part h.isGang, start.ops, start.tb]
      rw [issueOp_eq h.isGang start.gang .stmp d [] _ (fun l => { stage := .sent, addr := valOf vals 0 l, val := valOf vals 1 l }), start.ops,
        written]
      rfl
    · rw [gang_of_teams (foldl_sendLane_teams _ _ _ _), slices_startOp o _ _ (List.nodup_singleton d), start.gang]
  obtain ⟨t, ht, hf⟩ := done
  exact ⟨y, t, ht, hf, opStarted o _ _ (List.nodup_singleton d)⟩

end

/-! ### LDAT (R320) -/

/-- A lane of LDAT: a bad time, then a bad address, faults it; else it waits at the port. -/
def ldatLane (s : State) (p : Nat) (addr t : Word) : RemLane :=
  let x : RemLane := { stage := .port, addr := addr, val := t }
  if !timeOk s t then { x with stage := .reply (.fault 2#8) }
  else match s.route p addr true with
    | .fault code => { x with stage := .reply (.fault code) }
    | _ => x

theorem ldatLane_operands (s : State) (p : Nat) (addr t : Word) : (ldatLane s p addr t).addr = addr ∧ (ldatLane s p addr t).val = t := by
  unfold ldatLane
  dsimp only
  split
  · exact ⟨rfl, rfl⟩
  · split <;> exact ⟨rfl, rfl⟩

theorem ldatLane_badTime {p : Nat} {addr t : Word} (ht : 2 ^ 62 ≤ t.toNat ∨ s.tb.tl + 2 ^ 24 < t.toNat) :
    (ldatLane s p addr t).stage = .reply (.fault 2#8) := by
  have : timeOk s t = false := by
    unfold timeOk
    rw [Bool.and_eq_false_iff, decide_eq_false_iff_not, decide_eq_false_iff_not]
    omega
  unfold ldatLane
  rw [this]
  rfl

theorem timeOk_of {t : Word} (h1 : t.toNat < 2 ^ 62) (h2 : t.toNat ≤ s.tb.tl + 2 ^ 24) : timeOk s t = true := by
  unfold timeOk
  rw [decide_eq_true h1, decide_eq_true h2]
  rfl

theorem ldatLane_badAddress {p : Nat} {addr t : Word} {c : Byte} (h : timeOk s t = true) (hr : s.route p addr true = .fault c) :
    (ldatLane s p addr t).stage = .reply (.fault c) := by
  unfold ldatLane
  rw [h, hr]
  rfl

theorem ldatLane_port {p : Nat} {addr t : Word} (h : timeOk s t = true) (hr : ∀ c, s.route p addr true ≠ .fault c) :
    (ldatLane s p addr t).stage = .port := by
  unfold ldatLane
  rw [h]
  cases he : s.route p addr true with
  | fault c => exact absurd he (hr c)
  | home key => rfl
  | away dev win key off => rfl

/-- The two registers of LDAT are distinct. -/
theorem pair_nodup (d : VNum) : [d, d + 1#6].Nodup := by
  have : d ≠ d + 1#6 := by bv_omega
  simp [this]

section
variable (h : GangIssues (.ldat d a b wa wb) { srcs := [⟨a, wa⟩, ⟨b, wb⟩], dsts := [d, d + 1#6] } u s vals s1 popped)
include h

/-- With no lane participating LDAT only goes on. -/
theorem ldat_passes (hp : partOf s u = 0#32) : ∃ t, exec (.ldat d a b wa wb) s = .next t ∧ Finished s1 t u := by
  rw [exec_ldat]
  refine gang_finishes h rfl rfl ?_ (by rw [(starting_of h).gang])
  rw [if_pos (by rw [ctx_part h.isGang]; exact hp)]

/-- In HELD and FAILED it traps. -/
theorem ldat_timeHeld (hp : partOf s u ≠ 0#32) (ht : 2 ≤ s.tb.tstate.toNat) :
    exec (.ldat d a b wa wb) s = .next (s.takeTrap u { cause := .timeHeld, detail := s.tb.tstate.setWidth 64 }) := by
  rw [exec_ldat, ← (starting_of h).tb]
  refine issue_stops h.toIssues (st := .trap _) ?_
  rw [if_neg (by rw [ctx_part h.isGang]; exact hp), heldStop_trap (by rw [(starting_of h).tb]; exact ht)]
  rfl

/-- With OLC full it is held. -/
theorem ldat_held (hp : partOf s u ≠ 0#32) (ht : s.tb.tstate.toNat < 2) (hc : 255 ≤ (s.partyCounter u.team u.gang .olc).value) :
    exec (.ldat d a b wa wb) s = .next (s.hold u (.counter .olc)) := by
  rw [exec_ldat]
  refine issue_stops h.toIssues (st := .wait (.counter .olc) none) ?_
  rw [if_neg (by rw [ctx_part h.isGang]; exact hp), heldStop_none (by rw [(starting_of h).tb]; exact ht), ctx_u,
    (starting_of h).counter, counterStop_full hc]
  rfl

/-- Otherwise its operation starts with its lanes at the port or answered with their faults. -/
theorem ldat_starts (hp : partOf s u ≠ 0#32) (ht : s.tb.tstate.toNat < 2) (hc : (s.partyCounter u.team u.gang .olc).value < 255) :
    ∃ y t, exec (.ldat d a b wa wb) s = .next t ∧ Finished y t u ∧
      OpStarted s1 y u (Safety.opOf s u .ldat d 0#64 (fun l => ldatLane s (s.team u.team).part (valOf vals 0 l) (valOf vals 1 l)))
        (partOf s u) [d, d + 1#6] (awaits s.ops.length) := by
  have start := starting_of h
  let o := Safety.opOf s u .ldat d 0#64 (fun l => ldatLane s (s.team u.team).part (valOf vals 0 l) (valOf vals 1 l))
  let y := startOp s1 u o (partOf s u) [d, d + 1#6] (awaits s.ops.length)
  have lane : ∀ l, ldatLane s1 (s.team u.team).part (valOf vals 0 l) (valOf vals 1 l) =
      ldatLane s (s.team u.team).part (valOf vals 0 l) (valOf vals 1 l) := fun l => by
    unfold ldatLane timeOk
    rw [start.tb, start.route]
  have done : ∃ t, exec (.ldat d a b wa wb) s = .next t ∧ Finished y t u := by
    rw [exec_ldat]
    refine gang_finishes h rfl rfl ?_ ?_
    · rw [if_neg (by rw [ctx_part h.isGang]; exact hp), heldStop_none (by rw [start.tb]; exact ht), ctx_u, start.counter,
        counterStop_none hc]
      show Except.ok (s1.issueOp _ .ldat d [d, d + 1#6] 0#64 ((upTo 32).map (fun l =>
        if (ctxOf (.ldat d a b wa wb) u s vals).part.getLsbD l then ldatLane s1 (ctxOf (.ldat d a b wa wb) u s vals).t.part
          ((ctxOf (.ldat d a b wa wb) u s vals).src 0 l) ((ctxOf (.ldat d a b wa wb) u s vals).src 1 l) else {}))) = _
      simp only [ctx_src h.isGang, ctx_part h.isGang, ctx_t, lane]
      rw [issueOp_eq h.isGang start.gang .ldat d [d, d + 1#6] 0#64
        (fun l => ldatLane s (s.team u.team).part (valOf vals 0 l) (valOf vals 1 l)), start.ops]
    · rw [slices_startOp o _ _ (pair_nodup d), start.gang]
  obtain ⟨t, ht, hf⟩ := done
  exact ⟨y, t, ht, hf, opStarted o _ _ (pair_nodup d)⟩

end

end

/-! ### The sender's judgement (R304, R319, R354) -/

section
variable {s : State} {p : Nat} {a : Word} {stamped : Bool}

theorem route_fault (h : a.toNat % 8 ≠ 0 ∨ s.engAddr a = .reserved ∨
    (∃ core obuf off, s.engAddr a = .local_ core obuf off ∧ (stamped || obuf) = true)) : s.route p a stamped = .fault 2#8 := by
  unfold State.route
  split
  · rfl
  · next hal =>
    rcases h with h | h | ⟨core, obuf, off, h, hb⟩
    · exact absurd h hal
    · rw [h]
    · rw [h]
      exact if_pos hb

theorem route_home (hal : a.toNat % 8 = 0)
    (h : (∃ va, s.engAddr a = .device va) ∨ (stamped = false ∧ ∃ core off, s.engAddr a = .local_ core false off)) :
    s.route p a stamped = .home 0#64 := by
  unfold State.route
  rw [if_neg (fun e => e hal)]
  rcases h with ⟨va, h⟩ | ⟨hs, core, off, h⟩
  · rw [h]
  · rw [h, hs]
    rfl

theorem route_pod (hal : a.toNat % 8 = 0) {dev : BitVec 21} {win : BitVec 7} {off : Nat} (h : s.engAddr a = .pod dev win off) :
    (s.grantKey p dev win = none → s.route p a stamped = .fault 7#8) ∧
    ∀ key, s.grantKey p dev win = some key → s.route p a stamped = if dev = s.devid then .home key else .away dev win key off := by
  unfold State.route
  rw [if_neg (fun e => e hal), h]
  refine ⟨fun hk => ?_, fun key hk => ?_⟩
  · dsimp only
    rw [hk]
  · dsimp only
    rw [hk]

end

section
variable {s : State} {i l : Nat} {stamped : Bool}

/-- What a lane sent counts: the bytes, and a stamped message (R359). -/
def meterSent (s : State) (p : Nat) (stamped : Bool) : State := if stamped then (s.meter p 4 8).meter p 5 1 else s.meter p 4 8

theorem sendLane_fault {c : Byte} (h : s.route (s.op i).part ((s.op i).lane l).addr stamped = .fault c) :
    s.sendLane i l stamped = s.modLane i l (fun y => { y with stage := .reply (.fault c) }) := by
  unfold State.sendLane
  dsimp only
  rw [h]
  rfl

theorem sendLane_home {key : Word} (h : s.route (s.op i).part ((s.op i).lane l).addr stamped = .home key) :
    s.sendLane i l stamped = (meterSent s (s.op i).part stamped).modLane i l (fun y => { y with stage := .sent, key := key }) := by
  unfold State.sendLane
  dsimp only
  rw [h]
  rfl

theorem sendLane_away {dev : BitVec 21} {win : BitVec 7} {key : Word} {off : Nat}
    (h : s.route (s.op i).part ((s.op i).lane l).addr stamped = .away dev win key off) :
    s.sendLane i l stamped =
      if s.flagHeld i l = true then s.modLane i l (fun y => { y with stage := .flagged })
      else ((meterSent s (s.op i).part stamped).send (.request dev win key (RemKind.req (s.op i).kind) off 8 ((s.op i).lane l).val
        (if (s.op i).kind = .stmp then (s.op i).stamp else ((s.op i).lane l).cmp) i l [])).modLane i l (fun y => { y with stage := .sent }) := by
  unfold State.sendLane
  dsimp only
  rw [h]
  rfl

end

/-! ### The obligation -/

/-- Settles O47: the relaxed remote words take one path, STMP and LDAT their own with the same start; routes and lanes sent are judged
by the form of the address. -/
theorem remoteWords : Obligations.RemoteWords := by
  refine ⟨?_, ?_, ?_, fun s p a stamped => ⟨route_fault, route_home, fun hal dev win off => route_pod hal⟩, fun s i l stamped =>
    ⟨fun c => sendLane_fault, fun key => sendLane_home, fun dev win key off => sendLane_away⟩⟩
  · intro i x s u vals s1 popped hx h
    have hr := remoteSpec_row hx
    exact ⟨hr.passes h, hr.starts h, hr.held h⟩
  · intro d a b wa wb s u vals s1 popped h
    exact ⟨stmp_passes h, stmp_timeHeld h, stmp_starts h, stmp_held h⟩
  · intro d a b wa wb s u vals s1 popped h
    refine ⟨ldat_passes h, ldat_timeHeld h, fun hp ht hc => ?_, ldat_held h⟩
    obtain ⟨y, t, hx, hf, ho⟩ := ldat_starts h hp ht hc
    refine ⟨y, t, _, hx, hf, ho, fun l => ?_⟩
    obtain ⟨haddr, hval⟩ := ldatLane_operands s (s.team u.team).part (valOf vals 0 l) (valOf vals 1 l)
    exact ⟨haddr, hval, ldatLane_badTime, fun h1 h2 => ⟨fun c => ldatLane_badAddress (timeOk_of h1 h2), ldatLane_port (timeOk_of h1 h2)⟩⟩

end Sys2Proof.Machine
end

section
namespace Sys2Proof.Machine

open Sys2Proof Sys2Proof.Safety

/-! ### A lane of an operation changed -/

theorem op_modOp_same (s : State) (i : Nat) (f : RemOp → RemOp) : (s.modOp i f).op i = f (s.op i) := rowGet_rowMod_same noOp s.ops i f
theorem op_modOp_other (s : State) {i j : Nat} (f : RemOp → RemOp) (h : i ≠ j) : (s.modOp i f).op j = s.op j :=
  rowGet_rowMod_other noOp s.ops f h

section
variable {s : State} {i l : Nat} {f : RemLane → RemLane}

theorem op_modLane_same : (s.modLane i l f).op i = { s.op i with lanes := rowMod {} (s.op i).lanes l f } :=
  op_modOp_same s i _
theorem op_modLane_other {j : Nat} (h : i ≠ j) : (s.modLane i l f).op j = s.op j := op_modOp_other s _ h

theorem lane_modLane (k : Nat) : ((s.modLane i l f).op i).lane k = if k = l then f ((s.op i).lane l) else (s.op i).lane k := by
  rw [op_modLane_same]
  split
  · next h =>
    subst h
    exact rowGet_rowMod_same _ _ _ _
  · next h => exact rowGet_rowMod_other _ _ _ (Ne.symm h)

end

/-! ### Lanes of RST.F sent (R305) -/

/-- Of an operation nothing but its lanes is changed, and its idle lanes are the same. -/
structure SameIdle (s t : State) (i : Nat) : Prop where
  rest : t.op i = { s.op i with lanes := (t.op i).lanes }
  idle : ∀ k, ((t.op i).lane k).stage = .idle ↔ ((s.op i).lane k).stage = .idle

theorem sameIdle_refl (s : State) (i : Nat) : SameIdle s s i := ⟨rfl, fun _ => Iff.rfl⟩

theorem SameIdle.trans {a b c : State} {i : Nat} (h1 : SameIdle a b i) (h2 : SameIdle b c i) : SameIdle a c i :=
  ⟨by rw [h2.rest, h1.rest], fun k => (h2.idle k).trans (h1.idle k)⟩

theorem sameIdle_foldl {α : Type} {f : State → α → State} {i : Nat} (h : ∀ s a, SameIdle s (f s a) i) :
    ∀ (as : List α) (s : State), SameIdle s (as.foldl f s) i
  | [], s => sameIdle_refl s i
  | a :: as, s => (h s a).trans (sameIdle_foldl h as (f s a))

/-- A change of a busy lane into a busy lane. -/
theorem sameIdle_modLane {s : State} {j k : Nat} {f : RemLane → RemLane} (hb : ((s.op j).lane k).stage ≠ .idle)
    (hf : ∀ x, (f x).stage ≠ .idle) (i : Nat) : SameIdle s (s.modLane j k f) i := by
  by_cases hj : j = i
  · subst hj
    refine ⟨by rw [op_modLane_same], fun k' => ?_⟩
    rw [lane_modLane]
    split
    · next hk => exact iff_of_false (hf _) (hk ▸ hb)
    · rfl
  · exact ⟨by rw [op_modLane_other hj], fun k' => by rw [op_modLane_other hj]⟩

theorem sameIdle_sendLane {s : State} {j k : Nat} (stamped : Bool) (hb : ((s.op j).lane k).stage ≠ .idle) (i : Nat) :
    SameIdle s (s.sendLane j k stamped) i := by
  have step : ∀ (x : State) (f : RemLane → RemLane), x.ops = s.ops → (∀ y, (f y).stage ≠ .idle) → SameIdle s (x.modLane j k f) i :=
    fun x f hx hf => by
      have op : ∀ n, x.op n = s.op n := fun n => by rw [State.op, hx]; rfl
      have h := sameIdle_modLane (s := x) (f := f) (by rw [op]; exact hb) hf i
      exact ⟨by rw [h.rest, op], fun n => by rw [h.idle, op]⟩
  cases hr : s.route (s.op j).part ((s.op j).lane k).addr stamped with
  | fault c =>
    rw [sendLane_fault hr]
    exact step s _ rfl (fun _ => nofun)
  | home key =>
    rw [sendLane_home hr]
    exact step _ _ (by unfold meterSent; split <;> rfl) (fun _ => nofun)
  | away dev win key off =>
    rw [sendLane_away hr]
    split
    · exact step s _ rfl (fun _ => nofun)
    · refine step _ _ ?_ (fun _ => nofun)
      show (meterSent s _ stamped).ops = _
      unfold meterSent
      split <;> rfl

theorem sameIdle_sendFlagged (s : State) (i : Nat) : SameIdle s s.sendFlagged i := by
  refine sameIdle_foldl (fun s j => sameIdle_foldl (fun s k => ?_) _ s) _ s
  split
  · next h =>
    refine sameIdle_sendLane false ?_ i
    simp only [Bool.and_eq_true, decide_eq_true_eq] at h
    rw [h.1]
    nofun
  · exact sameIdle_refl s i

/-- With no lane held back nothing is sent. -/
theorem sendFlagged_none {s : State} (h : ∀ j k, ((s.op j).lane k).stage ≠ .flagged) : s.sendFlagged = s := by
  have fixed : ∀ (f : State → Nat → State), (∀ n, f s n = s) → ∀ ns : List Nat, ns.foldl f s = s := fun f hf ns => by
    induction ns with
    | nil => rfl
    | cons n ns ih => rw [List.foldl_cons, hf, ih]
  refine fixed _ (fun j => fixed _ (fun k => ?_) _) _
  rw [decide_eq_false (h j k)]
  rfl

/-! ### A lane is done (R17, R253) -/

/-- All lanes are idle once lane `l` is: the others are. -/
theorem allIdle_iff {s : State} {i l : Nat} :
    ((upTo 32).all (fun k => (((s.setStage i l .idle).sendFlagged.op i).lane k).stage = .idle)) = true ↔
      ∀ k, k < 32 → k ≠ l → ((s.op i).lane k).stage = .idle := by
  have idle : ∀ k, (((s.setStage i l .idle).sendFlagged.op i).lane k).stage = .idle ↔ (k ≠ l → ((s.op i).lane k).stage = .idle) := fun k => by
    rw [(sameIdle_sendFlagged _ i).idle k, State.setStage, lane_modLane]
    by_cases hk : k = l
    · simp [hk]
    · simp [hk]
  simp only [List.all_eq_true, mem_upTo, decide_eq_true_eq, idle]

theorem laneDone_last {s : State} {i l : Nat} (h : ∀ k, k < 32 → k ≠ l → ((s.op i).lane k).stage = .idle) :
    s.laneDone i l = (s.setStage i l .idle).sendFlagged.modPartyCounter (s.op i).team (s.op i).gang (RemKind.counter (s.op i).kind)
      (fun x => x.finish (s.op i).seq) := by
  have same : (s.setStage i l .idle).sendFlagged.op i = { s.op i with lanes := ((s.setStage i l .idle).sendFlagged.op i).lanes } := by
    rw [(sameIdle_sendFlagged _ i).rest, State.setStage, op_modLane_same]
  unfold State.laneDone
  dsimp only
  rw [if_pos (allIdle_iff.mpr h), same]

theorem laneDone_more {s : State} {i l : Nat} (h : ¬ ∀ k, k < 32 → k ≠ l → ((s.op i).lane k).stage = .idle) :
    s.laneDone i l = (s.setStage i l .idle).sendFlagged := by
  unfold State.laneDone
  dsimp only
  rw [if_neg (fun e => h (allIdle_iff.mp e))]

/-! ### Landings and acknowledgements (R12, R25, R307) -/

section
variable {g : Gang} {op l : Nat} {r : VNum} {pc : Addr} {v : Except Byte Word}

/-- The mask of one lane. -/
theorem getLsbD_one_shift {k : Nat} (hl : l < 32) : (1#32 <<< l).getLsbD k = decide (k = l) := by
  rw [BitVec.getLsbD_shiftLeft]
  by_cases hk : k = l
  · simp [hk, hl]
  · rcases Nat.lt_or_ge k l with hlt | hge
    · simp [hlt, hk]
    · have : k - l ≠ 0 := by omega
      simp [hk, this]

theorem land_rest : g.land op l r pc v = { g with lanes := (g.land op l r pc v).lanes, latch := (g.land op l r pc v).latch } := by
  unfold Gang.land
  dsimp only
  split <;> rfl

theorem lanes_land_owed (h : ((g.lane l).vreg r).owed = some op) : (g.land op l r pc v).lanes =
    (g.modLanes (1#32 <<< l) (fun _ x => x.setV r (landed v pc ((g.lane l).vreg r)))).lanes := by
  unfold Gang.land
  dsimp only
  rw [if_neg (fun e => e h)]
  rfl

/-- The lane takes the value in the register that it owes; nothing else changes. -/
theorem lane_land (hl : l < 32) {k : Nat} (hk : k < 32) : (g.land op l r pc v).lane k =
    if k = l ∧ ((g.lane k).vreg r).owed = some op then (g.lane k).setV r (landed v pc ((g.lane k).vreg r)) else g.lane k := by
  by_cases ho : ((g.lane l).vreg r).owed = some op
  · rw [Gang.lane, lanes_land_owed ho, ← Gang.lane]
    by_cases hkl : k = l
    · subst hkl
      rw [Gang.lane_modLanes_in g _ _ hk (by rw [getLsbD_one_shift hl]; exact decide_eq_true rfl), if_pos ⟨rfl, ho⟩]
    · rw [Gang.lane_modLanes_out g _ _ hk (by rw [getLsbD_one_shift hl]; exact decide_eq_false hkl), if_neg (fun e => hkl e.1)]
  · rw [if_neg]
    · unfold Gang.land
      dsimp only
      rw [if_pos ho]
    · rintro ⟨rfl, h⟩
      exact ho h

theorem lane_land_rest (hl : l < 32) {k : Nat} (hk : k < 32) :
    (g.land op l r pc v).lane k = { g.lane k with v := ((g.land op l r pc v).lane k).v } := by
  rw [lane_land hl hk]
  split <;> rfl

theorem vreg_land (hl : l < 32) {k : Nat} (hk : k < 32) (q : VNum) : ((g.land op l r pc v).lane k).vreg q =
    if k = l ∧ ((g.lane k).vreg q).owed = some op ∧ q = r then landed v pc ((g.lane k).vreg q) else (g.lane k).vreg q := by
  rw [lane_land hl hk]
  by_cases hq : q = r
  · subst hq
    by_cases hc : k = l ∧ ((g.lane k).vreg q).owed = some op
    · rw [if_pos hc, if_pos ⟨hc.1, hc.2, rfl⟩, Lane.vreg_setV_same]
    · rw [if_neg hc, if_neg (fun e => hc ⟨e.1, e.2.1⟩)]
  · simp only [hq, and_false, if_false]
    split
    · exact Lane.vreg_setV_other _ _ (Ne.symm hq)
    · rfl

end

/-- The landing of an answer in a gang: in the register d, and for LDAT in d+1 as well. -/
def landAnswer (o : RemOp) (op l : Nat) (a : RemAns) (g : Gang) : Gang :=
  if o.kind = .ldat then (g.land op l o.d o.pc (landing a (o.kind = .ldat)).1).land op l (o.d + 1#6) o.pc (landing a (o.kind = .ldat)).2
  else g.land op l o.d o.pc (landing a (o.kind = .ldat)).1

section
variable {g : Gang} {o : RemOp} {op l : Nat} {a : RemAns}

theorem landAnswer_rest :
    landAnswer o op l a g = { g with lanes := (landAnswer o op l a g).lanes, latch := (landAnswer o op l a g).latch } := by
  unfold landAnswer
  split
  · rw [land_rest, land_rest (g := g)]
  · exact land_rest

theorem lane_landAnswer_rest (hl : l < 32) {k : Nat} (hk : k < 32) :
    (landAnswer o op l a g).lane k = { g.lane k with v := ((landAnswer o op l a g).lane k).v } := by
  unfold landAnswer
  split
  · rw [lane_land_rest hl hk, lane_land_rest (g := g) hl hk]
  · exact lane_land_rest hl hk

theorem vreg_landAnswer (hl : l < 32) {k : Nat} (hk : k < 32) (q : VNum) : ((landAnswer o op l a g).lane k).vreg q =
    if k = l ∧ ((g.lane k).vreg q).owed = some op ∧ q = o.d then landed (landing a (o.kind = .ldat)).1 o.pc ((g.lane k).vreg q)
    else if k = l ∧ ((g.lane k).vreg q).owed = some op ∧ o.kind = .ldat ∧ q = o.d + 1#6 then landed (landing a true).2 o.pc ((g.lane k).vreg q)
    else (g.lane k).vreg q := by
  unfold landAnswer
  by_cases hld : o.kind = .ldat
  · rw [if_pos hld, vreg_land hl hk, vreg_land hl hk, decide_eq_true hld]
    by_cases hq : q = o.d + 1#6
    · have hd : ¬ q = o.d := fun e => by bv_omega
      simp only [hd, and_false, if_false]
      simp only [hq, hld, and_true]
    · simp only [hq, and_false, if_false]
  · rw [if_neg hld, vreg_land hl hk]
    simp only [hld, false_and, and_false, if_false]

end

section
variable {s : State} {i l : Nat} {reply : Option RemAns}

theorem answerOf_lane {a : RemAns} (h : s.answerOf i l reply = some a) : l < 32 := by
  unfold State.answerOf at h
  split at h
  · cases h
  · next hc =>
    simp only [Bool.not_eq_true', Bool.and_eq_true, decide_eq_true_eq, Bool.not_eq_false] at hc
    exact hc.2

/-- Without an answer nothing happens. -/
theorem unanswered (h : s.answerOf i l reply = none) :
    exec (.remoteLanding i l reply) s = .next s ∧ exec (.remoteAcknowledgement i l reply) s = .next s := by
  rw [exec_remoteLanding, exec_remoteAcknowledgement, execRemoteLanding, execRemoteAcknowledgement, h]
  exact ⟨rfl, rfl⟩

variable {a : RemAns} (h : s.answerOf i l reply = some a)
include h

theorem landing_notOlc (hc : RemKind.counter (s.op i).kind ≠ .olc) : exec (.remoteLanding i l reply) s = .next s := by
  rw [exec_remoteLanding, execRemoteLanding, h]
  dsimp only
  rw [if_pos hc]

theorem landing_olc (hc : RemKind.counter (s.op i).kind = .olc) : exec (.remoteLanding i l reply) s =
    .next ((s.modGang (s.op i).team (s.op i).gang (landAnswer (s.op i) i l a)).laneDone i l) := by
  rw [exec_remoteLanding, execRemoteLanding, h]
  dsimp only
  rw [if_neg (fun e => e hc)]
  rfl

theorem acknowledgement_notOsc (hc : RemKind.counter (s.op i).kind ≠ .osc) : exec (.remoteAcknowledgement i l reply) s = .next s := by
  rw [exec_remoteAcknowledgement, execRemoteAcknowledgement, h]
  dsimp only
  rw [if_pos hc]

/-- A fault or a late release is flagged; the lane is done. -/
theorem acknowledgement_osc (hc : RemKind.counter (s.op i).kind = .osc) :
    (∀ c, a = .fault c → exec (.remoteAcknowledgement i l reply) s = .next ((s.modPartyCounter (s.op i).team (s.op i).gang .osc (fun x =>
      x.flag { seq := (s.op i).seq, lane := l, code := c, addr := 0, rlate := none })).laneDone i l)) ∧
    (∀ st, a = .rlate st → exec (.remoteAcknowledgement i l reply) s = .next ((s.modPartyCounter (s.op i).team (s.op i).gang .osc (fun x =>
      x.flag { seq := (s.op i).seq, lane := l, code := 0, addr := 0, rlate := some st })).laneDone i l)) ∧
    ((∀ c, a ≠ .fault c) → (∀ st, a ≠ .rlate st) → exec (.remoteAcknowledgement i l reply) s = .next (s.laneDone i l)) := by
  rw [exec_remoteAcknowledgement, execRemoteAcknowledgement, h]
  dsimp only
  rw [if_neg (fun e => e hc)]
  refine ⟨fun c ha => ?_, fun st ha => ?_, fun hf hl => ?_⟩
  · subst ha
    rfl
  · subst ha
    rfl
  · cases a with
    | fault c => exact absurd rfl (hf c)
    | rlate st => exact absurd rfl (hl st)
    | value w => rfl
    | pair w st => rfl
    | ack => rfl

end

/-! ### At the home (R304, R305, R354) -/

/-- A kind of request asks of its home what a kind of operation asks. -/
structure AsksAs (kind : ReqKind) (k : RemKind) : Prop where
  stores : ReqKind.plainStore kind = decide (k = .rst ∨ k = .rstf)
  writes : ∀ old val cmp, reqWrites kind old val cmp = homeWrites k old val cmp
  answer : ∀ old, reqAnswer kind old = homeAnswer k old

theorem asksAs_req (k : RemKind) : AsksAs (RemKind.req k) k := by
  cases k <;> exact ⟨rfl, fun _ _ _ => rfl, fun _ => rfl⟩

/-- Bytes of FAR are counted for the partition, or for the window's (R347, R360). -/
def countFar (s : State) (p : Nat) (xs : List Span) (win : Option (Nat × Nat)) : State :=
  match win with
  | some w => s.farMisses w.2 2 65535 xs
  | none => if anyFar xs = true then s.meter p 7 8 else s
/-- The new value, if there is one, written to memory. -/
def writeSpans (s : State) (xs : List Span) (new : Option Nat) : State :=
  match new with
  | some v => s.spanWrite xs (leBytes 8 v)
  | none => s
/-- The new value, if there is one, written to scratchpad. -/
def writeSpad (s : State) (p core off : Nat) (new : Option Nat) : State :=
  match new with
  | some v => s.engineSpadWrite p core off (leBytes 8 v)
  | none => s

section
variable {s : State} {p core off : Nat} {kind : ReqKind} {k : RemKind} {val cmp : Word} {xs : List Span} {win : Option (Nat × Nat)}
  (hk : AsksAs kind k)
include hk

theorem AsksAs.reads_bad {bad : Bool} (h : ¬ (k = .rst ∨ k = .rstf)) (hb : bad = true) : (!ReqKind.plainStore kind && bad) = true := by
  rw [hk.stores, decide_eq_false h, hb]
  rfl
theorem AsksAs.reads_sound {bad : Bool} (h : (k = .rst ∨ k = .rstf) ∨ bad = false) : ¬ (!ReqKind.plainStore kind && bad) = true := by
  rw [hk.stores]
  rcases h with h | h
  · rw [decide_eq_true h]
    nofun
  · rw [h, Bool.and_false]
    nofun

theorem perform_spad_bad (h : ¬ (k = .rst ∨ k = .rstf)) (hb : s.spadBad (spadKey core off) 8 = true) :
    s.perform p (.spad core off) kind val cmp = (s, .fault 6#8) := by
  unfold State.perform
  exact if_pos (hk.reads_bad h hb)

theorem perform_spad (h : (k = .rst ∨ k = .rstf) ∨ s.spadBad (spadKey core off) 8 = false) :
    s.perform p (.spad core off) kind val cmp =
      (writeSpad s p core off (homeWrites k (memNat s.spad (spadKey core off) 8) val cmp), homeAnswer k (memNat s.spad (spadKey core off) 8)) := by
  unfold State.perform
  dsimp only
  rw [if_neg (hk.reads_sound h), hk.writes, hk.answer]
  rfl

theorem perform_mem_bad (h : ¬ (k = .rst ∨ k = .rstf)) (hb : (countFar s p xs win).spanBad xs = true) :
    s.perform p (.mem xs win) kind val cmp = (countFar s p xs win, .fault 6#8) := by
  unfold State.perform
  exact if_pos (hk.reads_bad h hb)

theorem perform_mem (h : (k = .rst ∨ k = .rstf) ∨ (countFar s p xs win).spanBad xs = false) :
    s.perform p (.mem xs win) kind val cmp =
      (writeSpans (countFar s p xs win) xs (homeWrites k (leNat ((countFar s p xs win).spanBytes xs)) val cmp),
        homeAnswer k (leNat ((countFar s p xs win).spanBytes xs))) := by
  unfold State.perform
  refine (if_neg (hk.reads_sound h)).trans ?_
  dsimp only
  rw [hk.writes, hk.answer]
  rfl

end

/-! ### An engine's write to scratchpad (R218) -/

section
variable {s : State} {p core off : Nat} {bs : List Byte}

/-- An engine's write is the write, with tags of lines cleared. -/
theorem engineSpadWrite_eq : s.engineSpadWrite p core off bs = s.spadWrite (spadKey core off) bs ∨
    ∃ u o, s.engineSpadWrite p core off bs = (s.spadWrite (spadKey core off) bs).clearLines u o bs.length := by
  unfold State.engineSpadWrite
  dsimp only
  split
  · exact .inr ⟨_, _, rfl⟩
  · exact .inl rfl

theorem engineSpadWrite_rest : s.engineSpadWrite p core off bs = { s with
    spad := (s.engineSpadWrite p core off bs).spad, bad := (s.engineSpadWrite p core off bs).bad,
    teams := (s.engineSpadWrite p core off bs).teams, cmds := (s.engineSpadWrite p core off bs).cmds } := by
  rcases engineSpadWrite_eq (s := s) (p := p) (core := core) (off := off) (bs := bs) with h | ⟨u, o, h⟩ <;> rw [h] <;> rfl

theorem engineSpadWrite_notes : CommandsNote s (s.engineSpadWrite p core off bs) := by
  have write := commandsNote_spadWrite s (spadKey core off) bs
  rcases engineSpadWrite_eq (s := s) (p := p) (core := core) (off := off) (bs := bs) with h | ⟨u, o, h⟩ <;> rw [h]
  · exact write
  · exact commandsNote_trans write (commandsNote_same rfl)

theorem engineSpadWrite_team (v : Nat) :
    (s.engineSpadWrite p core off bs).team v = { s.team v with lines := ((s.engineSpadWrite p core off bs).team v).lines } := by
  rcases engineSpadWrite_eq (s := s) (p := p) (core := core) (off := off) (bs := bs) with h | ⟨u, o, h⟩ <;> rw [h]
  · rfl
  · unfold State.clearLines
    by_cases hv : u = v
    · subst hv
      rw [State.team_modTeam_same]
      rfl
    · rw [State.team_modTeam_other _ _ hv]
      rfl

theorem stored_spadWrite (s : State) (key : Nat) (bs : List Byte) : Stored s (s.spadWrite key bs) key bs :=
  ⟨memRead_memWrite_same bs key, fun x hx => memGet_memWrite_other bs s.spad key x hx, rfl, unmark_sub _ _ _⟩

theorem engineSpadWrite_stored : Stored s (s.engineSpadWrite p core off bs) (spadKey core off) bs := by
  have write := stored_spadWrite s (spadKey core off) bs
  rcases engineSpadWrite_eq (s := s) (p := p) (core := core) (off := off) (bs := bs) with h | ⟨u, o, h⟩ <;> rw [h]
  · exact write
  · exact stored_same write rfl rfl

end

/-! ### A lane of this module's own operation -/

section
variable {s : State} {i l : Nat}

theorem ownRequest_waits (h : s.atHome i l = false ∨ (s.op i).kind = .stmp ∨ s.flagHeld i l = true) :
    exec (.homeRequest (.own i l)) s = .next s := by
  rw [exec_homeRequest, execHomeRequest]
  dsimp only
  rw [if_pos]
  rcases h with h | h | h <;> simp [h]

/-- The lane is at its home and nothing holds it back. -/
structure AtHome (s : State) (i l : Nat) : Prop where
  sent : s.atHome i l = true
  plain : (s.op i).kind ≠ .stmp
  free : s.flagHeld i l = false

variable (h : AtHome s i l)
include h

theorem AtHome.goes : ¬ (!s.atHome i l || decide ((s.op i).kind = .stmp) || s.flagHeld i l) = true := by
  rw [h.sent, h.free, decide_eq_false h.plain]
  nofun

theorem ownRequest_held (hp : s.ownPlace (s.op i).part ((s.op i).lane l) (RemKind.req (s.op i).kind) = .held) :
    exec (.homeRequest (.own i l)) s = .next s := by
  rw [exec_homeRequest, execHomeRequest]
  dsimp only
  rw [if_neg h.goes, hp]

theorem ownRequest_fault {c : Nat} (hp : s.ownPlace (s.op i).part ((s.op i).lane l) (RemKind.req (s.op i).kind) = .fault c) :
    exec (.homeRequest (.own i l)) s = .next ((s.reportLane (s.op i).part ((s.op i).lane l) (RemKind.req (s.op i).kind)).setStage i l
      (.reply (.fault (BitVec.ofNat 8 c)))) := by
  rw [exec_homeRequest, execHomeRequest]
  dsimp only
  rw [if_neg h.goes, hp]

/-- At a place in scratchpad, or in memory for a word other than LDAT, the request is performed and answered. -/
theorem ownRequest_performed {core off : Nat}
    (hp : s.ownPlace (s.op i).part ((s.op i).lane l) (RemKind.req (s.op i).kind) = .spad core off) {y : State × RemAns}
    (hy : s.perform (s.op i).part (.spad core off) (RemKind.req (s.op i).kind) ((s.op i).lane l).val ((s.op i).lane l).cmp = y) :
    exec (.homeRequest (.own i l)) s = .next (y.1.setStage i l (.reply y.2)) := by
  rw [exec_homeRequest, execHomeRequest]
  dsimp only
  rw [if_neg h.goes, hp]
  dsimp only
  rw [hy]

theorem ownRequest_performed_mem {xs : List Span} {win : Option (Nat × Nat)}
    (hp : s.ownPlace (s.op i).part ((s.op i).lane l) (RemKind.req (s.op i).kind) = .mem xs win) (hl : (s.op i).kind ≠ .ldat) {y : State × RemAns}
    (hy : s.perform (s.op i).part (.mem xs win) (RemKind.req (s.op i).kind) ((s.op i).lane l).val ((s.op i).lane l).cmp = y) :
    exec (.homeRequest (.own i l)) s = .next (y.1.setStage i l (.reply y.2)) := by
  rw [exec_homeRequest, execHomeRequest]
  dsimp only
  rw [if_neg h.goes, hp]
  dsimp only
  rw [if_neg hl, hy]

/-- A lane of LDAT fails in a failed module, and else goes on to wait for its time. -/
theorem ownRequest_ldat {xs : List Span} {win : Option (Nat × Nat)}
    (hp : s.ownPlace (s.op i).part ((s.op i).lane l) (RemKind.req (s.op i).kind) = .mem xs win) (hl : (s.op i).kind = .ldat) :
    (s.tb.tstate = 3#2 → exec (.homeRequest (.own i l)) s = .next (s.setStage i l (.reply (.fault 7#8)))) ∧
    (s.tb.tstate ≠ 3#2 →
      (win = none → exec (.homeRequest (.own i l)) s = .next (s.modLane i l (fun y =>
        { y with stage := .settling, cell := stampCell xs, window := none }))) ∧
      ∀ w, win = some w → exec (.homeRequest (.own i l)) s =
        .next ((s.modWindow w.1 (fun w => { w with inflight := w.inflight + 1 })).modLane i l (fun y =>
          { y with stage := .settling, cell := stampCell xs, window := some (BitVec.ofNat 7 w.1) }))) := by
  rw [exec_homeRequest, execHomeRequest]
  dsimp only
  rw [if_neg h.goes, hp]
  dsimp only
  rw [if_pos hl]
  refine ⟨fun ht => by rw [if_pos ht], fun ht => ?_⟩
  rw [if_neg ht]
  refine ⟨fun hw => ?_, fun w hw => ?_⟩
  · subst hw
    rfl
  · subst hw
    rfl

theorem ownRequest_spad {core off : Nat}
    (hp : s.ownPlace (s.op i).part ((s.op i).lane l) (RemKind.req (s.op i).kind) = .spad core off)
    (hb : ((s.op i).kind = .rst ∨ (s.op i).kind = .rstf) ∨ s.spadBad (spadKey core off) 8 = false) :
    ∃ y, exec (.homeRequest (.own i l)) s =
        .next (y.setStage i l (.reply (homeAnswer (s.op i).kind (memNat s.spad (spadKey core off) 8)))) ∧
      (homeWrites (s.op i).kind (memNat s.spad (spadKey core off) 8) ((s.op i).lane l).val ((s.op i).lane l).cmp = none → y = s) ∧
      ∀ v, homeWrites (s.op i).kind (memNat s.spad (spadKey core off) 8) ((s.op i).lane l).val ((s.op i).lane l).cmp = some v →
        y = { s with spad := y.spad, bad := y.bad, teams := y.teams, cmds := y.cmds } ∧ CommandsNote s y ∧
        (∀ v, y.team v = { s.team v with lines := (y.team v).lines }) ∧ Stored s y (spadKey core off) (leBytes 8 v) := by
  refine ⟨_, ownRequest_performed h hp (perform_spad (asksAs_req _) hb), fun hn => ?_, fun v hv => ?_⟩
  · rw [hn]
    rfl
  · rw [hv]
    exact ⟨engineSpadWrite_rest, engineSpadWrite_notes, engineSpadWrite_team, engineSpadWrite_stored⟩

end

/-! ### A request of another module (R354) -/

section
variable {r : ExtReq} {s : State}

theorem extRequest_held (h : (s.judgeWindow r.window r.key r.kind r.off r.size).1 = .held) :
    exec (.homeRequest (.ext r)) s = .next s := by
  rw [exec_homeRequest, execHomeRequest, State.extRequest]
  cases hj : s.judgeWindow r.window r.key r.kind r.off r.size with
  | mk j o =>
    rw [hj] at h
    dsimp only at h ⊢
    rw [h]

theorem extRequest_fault {c : Nat} (h : (s.judgeWindow r.window r.key r.kind r.off r.size).1 = .fault c) :
    exec (.homeRequest (.ext r)) s =
      .next ((s.reportWindow r.window r.key r.kind r.off r.size).send (.answer r.src r.id (.fault (BitVec.ofNat 8 c)) false)) := by
  rw [exec_homeRequest, execHomeRequest, State.extRequest]
  cases hj : s.judgeWindow r.window r.key r.kind r.off r.size with
  | mk j o =>
    rw [hj] at h
    dsimp only at h ⊢
    rw [h]
    rfl

/-- A read of a stamped word that waits to be served (R320). -/
def readOf (s : State) (r : ExtReq) (o : Nat) (xs : List Span) : Inbound :=
  { src := r.src, id := r.id, window := r.window, part := o, cell := stampCell xs, va := (s.window r.window.toNat).base + r.off, t := r.val, read := true }

/-- What a request of another module does at the bytes `xs` of the partition `o`. -/
def servedAt (s : State) (r : ExtReq) (o : Nat) (xs : List Span) : State :=
  let far := anyFar xs
  let y := s.farMisses o 2 65535 xs
  match r.kind with
  | .engRead => if y.spanBad xs then y.reply r (.fault 6#8) far else y.send (.bytes r.src r.id (y.spanBytes xs) far)
  | .engWrite => (y.spanWrite xs ((r.data ++ leBytes r.size 0).take r.size)).reply r .ack far
  | .sync => if y.spanBad xs then y.reply r (.fault 6#8) far else (y.spanSync xs r.val.toNat r.cmp.toNat).reply r .ack far
  | .ldat =>
    if s.tb.tstate = 3#2 then s.reply r (.fault 7#8) false
    else ({ s with inbound := s.inbound ++ [readOf s r o xs] } : State).modWindow r.window.toNat (fun w => { w with inflight := w.inflight + 1 })
  | .stmp => s
  | .rld | .rst | .rstf | .raadd | .rcas =>
    let z := s.perform o (.mem xs (some (r.window.toNat, o))) r.kind r.val r.cmp
    z.1.reply r z.2 far

theorem extRequest_spans {xs : List Span} (h : (s.judgeWindow r.window r.key r.kind r.off r.size).1 = .spans xs) :
    exec (.homeRequest (.ext r)) s = .next (servedAt s r (s.judgeWindow r.window r.key r.kind r.off r.size).2 xs) := by
  rw [exec_homeRequest, execHomeRequest, State.extRequest]
  cases hj : s.judgeWindow r.window r.key r.kind r.off r.size with
  | mk j o =>
    rw [hj] at h
    dsimp only at h ⊢
    rw [h]
    rfl

/-- The remote words that another module's request may carry, and what they ask of the home. -/
def Carries (kind : ReqKind) (k : RemKind) : Prop :=
  (kind = .rld ∧ k = .rld) ∨ (kind = .rst ∧ k = .rst) ∨ (kind = .rstf ∧ k = .rst) ∨ (kind = .raadd ∧ k = .raadd) ∨ (kind = .rcas ∧ k = .rcas)

theorem Carries.asksAs {kind : ReqKind} {k : RemKind} (h : Carries kind k) : AsksAs kind k := by
  rcases h with ⟨rfl, rfl⟩ | ⟨rfl, rfl⟩ | ⟨rfl, rfl⟩ | ⟨rfl, rfl⟩ | ⟨rfl, rfl⟩ <;> exact ⟨rfl, fun _ _ _ => rfl, fun _ => rfl⟩

theorem Carries.notFlagged {kind : ReqKind} {k : RemKind} (h : Carries kind k) : k ≠ .rstf := by
  rcases h with ⟨-, rfl⟩ | ⟨-, rfl⟩ | ⟨-, rfl⟩ | ⟨-, rfl⟩ | ⟨-, rfl⟩ <;> nofun

variable {o : Nat} {xs : List Span}

theorem servedAt_remote {k : RemKind} (h : Carries r.kind k) {y : State × RemAns}
    (hy : s.perform o (.mem xs (some (r.window.toNat, o))) r.kind r.val r.cmp = y) :
    servedAt s r o xs = y.1.send (.answer r.src r.id y.2 (anyFar xs)) := by
  unfold servedAt
  subst hy
  rcases h with ⟨hk, -⟩ | ⟨hk, -⟩ | ⟨hk, -⟩ | ⟨hk, -⟩ | ⟨hk, -⟩ <;> rw [hk] <;> rfl

theorem servedAt_read (h : r.kind = .engRead) : servedAt s r o xs =
    if (s.farMisses o 2 65535 xs).spanBad xs = true then (s.farMisses o 2 65535 xs).send (.answer r.src r.id (.fault 6#8) (anyFar xs))
    else (s.farMisses o 2 65535 xs).send (.bytes r.src r.id ((s.farMisses o 2 65535 xs).spanBytes xs) (anyFar xs)) := by
  unfold servedAt
  rw [h]
  rfl

theorem servedAt_sync (h : r.kind = .sync) : servedAt s r o xs =
    if (s.farMisses o 2 65535 xs).spanBad xs = true then (s.farMisses o 2 65535 xs).send (.answer r.src r.id (.fault 6#8) (anyFar xs))
    else ((s.farMisses o 2 65535 xs).spanSync xs r.val.toNat r.cmp.toNat).send (.answer r.src r.id .ack (anyFar xs)) := by
  unfold servedAt
  rw [h]
  rfl

theorem servedAt_ldat (h : r.kind = .ldat) : servedAt s r o xs =
    if s.tb.tstate = 3#2 then s.send (.answer r.src r.id (.fault 7#8) false)
    else ({ s with inbound := s.inbound ++ [readOf s r o xs] } : State).modWindow r.window.toNat (fun w => { w with inflight := w.inflight + 1 }) := by
  unfold servedAt
  rw [h]
  rfl

end

/-! ### The obligation -/

/-- Settles O54: an answer lands in the gang and ends its lane; a lane done leaves the other lanes as idle as they were; a request is
performed at its place, and what its kind asks there is the same for this module's lanes and for another module's. -/
theorem remoteArrivals : Obligations.RemoteArrivals := by
  refine ⟨?_, ?_, ?_, ?_⟩
  · intro i l reply s
    refine ⟨unanswered, fun a h => ⟨landing_notOlc h, acknowledgement_notOsc h, acknowledgement_osc h, fun hc => ?_⟩⟩
    have hl := answerOf_lane h
    have gang := State.gang_modGang_same s (s.op i).team (s.op i).gang (landAnswer (s.op i) i l a)
    refine ⟨_, landing_olc h hc, onlyGang_modGang (onlyGang_refl s ⟨(s.op i).team, (s.op i).gang, 0#8, false⟩) _, ?_, ?_, ?_⟩
    · rw [gang]
      exact landAnswer_rest
    · rw [gang]
      exact fun k => lane_landAnswer_rest hl
    · rw [gang]
      exact fun k => vreg_landAnswer hl
  · intro i l s
    refine ⟨fun j => ?_, fun k => ?_, rfl, sendFlagged_none, laneDone_last, laneDone_more⟩
    · by_cases hj : j = i
      · subst hj
        rw [if_pos rfl, State.setStage, op_modLane_same]
      · rw [if_neg hj]
        exact op_modLane_other (Ne.symm hj)
    · exact lane_modLane k
  · intro i l s
    refine ⟨ownRequest_waits, fun h1 h2 h3 => ?_⟩
    have h : AtHome s i l := ⟨h1, h2, h3⟩
    refine ⟨ownRequest_held h, fun c => ownRequest_fault h, fun core off hp hl => ⟨fun hs hb => ?_, ownRequest_spad h hp⟩,
      fun xs win hp => ⟨fun hl => ⟨fun hs hb => ?_, fun hb => ?_⟩, ownRequest_ldat h hp⟩⟩
    · exact ownRequest_performed h hp (perform_spad_bad (asksAs_req _) hs hb)
    · exact ownRequest_performed_mem h hp hl (perform_mem_bad (asksAs_req _) hs hb)
    · exact ownRequest_performed_mem h hp hl (perform_mem (asksAs_req _) hb)
  · intro r s
    refine ⟨extRequest_held, fun c => extRequest_fault, fun xs h => ?_⟩
    have served := extRequest_spans h
    refine ⟨fun hk hb => ?_, fun hk hb => ?_, fun hk => ?_, fun hk hb => ?_, fun hk hb => ?_, fun hk => ?_, fun hk ht => ?_, fun hk ht => ?_,
      fun k hk => ⟨fun hs hb => ?_, fun hb => ?_⟩⟩
    · rw [served, servedAt_read hk, if_pos hb]
    · rw [served, servedAt_read hk, if_neg (by rw [hb]; nofun)]
    · rw [served]
      unfold servedAt
      rw [hk]
      rfl
    · rw [served, servedAt_sync hk, if_pos hb]
    · rw [served, servedAt_sync hk, if_neg (by rw [hb]; nofun)]
    · rw [served]
      unfold servedAt
      rw [hk]
    · rw [served, servedAt_ldat hk, if_pos ht]
    · rw [served, servedAt_ldat hk, if_neg ht]
      rfl
    · have asks := Carries.asksAs hk
      rw [served, servedAt_remote hk (perform_mem_bad asks (fun e => e.elim hs (Carries.notFlagged hk)) hb)]
      rfl
    · have asks := Carries.asksAs hk
      rw [served, servedAt_remote hk (perform_mem asks (hb.imp_left Or.inl))]
      rfl

end Sys2Proof.Machine
end

section
namespace Sys2Proof.Machine

open Sys2Proof Sys2Proof.Safety

/-! ### The worked encodings -/

/-- Settles O1, row by row: each word evaluates to its instruction. -/
theorem workedEncodings : Obligations.WorkedEncodings :=
  ⟨rfl, rfl, rfl, rfl, rfl, rfl, rfl, rfl, rfl, rfl⟩

end Sys2Proof.Machine
end

section
namespace Sys2Proof.Laws.RoundTrip

open Sys2Proof

/-! ### The encoder's words decode to their instructions -/

/-- The round trip of every instruction, constructor by constructor; a step that is no word has no encoding. -/
theorem statement_all (i : Instr) : Statement i := by
  cases i with
  | nop => exact nop
  | exit => exact exit
  | bra off => exact bra off
  | brc p n off => exact brc p n off
  | rcv off => exact rcv off
  | jmpi a wa => exact jmpi a wa
  | call off => exact call off
  | calli a wa => exact calli a wa
  | ret => exact ret
  | retr a wa => exact retr a wa
  | loop c ka words => exact loop c ka words
  | lexit => exact lexit
  | regang mask => exact regang mask
  | kbr ka kb cc off => exact kbr ka kb cc off
  | bkpt code => exact bkpt code
  | setmode ka => exact setmode ka
  | setmk ka kb => exact setmk ka kb
  | getmode kd => exact getmode kd
  | csrr d csr => exact csrr d csr
  | csrw a csr => exact csrw a csr
  | trap code => exact trap code
  | instar off => exact instar off
  | inv x t br tol len dec => exact inv x t br tol len dec
  | add d a b wa wb => exact add d a b wa wb
  | sub d a b wa wb => exact sub d a b wa wb
  | mul d a b wa wb => exact mul d a b wa wb
  | mulh d a b wa wb => exact mulh d a b wa wb
  | fma d a b wa wb => exact fma d a b wa wb
  | fms d a b wa wb => exact fms d a b wa wb
  | min d a b wa wb => exact min d a b wa wb
  | max d a b wa wb => exact max d a b wa wb
  | abs d a wa => exact abs d a wa
  | neg d a wa => exact neg d a wa
  | and d a b wa wb => exact and d a b wa wb
  | or d a b wa wb => exact or d a b wa wb
  | xor d a b wa wb => exact xor d a b wa wb
  | andn d a b wa wb => exact andn d a b wa wb
  | shl d a b wa wb => exact shl d a b wa wb
  | shr d a b wa wb => exact shr d a b wa wb
  | rot d a b wa wb => exact rot d a b wa wb
  | bits op d a wa => exact bits op d a wa
  | bfx d a b wa wb => exact bfx d a b wa wb
  | bfi d a b wa wb => exact bfi d a b wa wb
  | div d a b wa wb => exact div d a b wa wb
  | rem d a b wa wb => exact rem d a b wa wb
  | mov d a wa => exact mov d a wa
  | sel d a b wa wb n p => exact sel d a b wa wb n p
  | cmp cc p a b wa wb => exact cmp cc p a b wa wb
  | plop d a b tt => exact plop d a b tt
  | dot4 d a b wa wb => exact dot4 d a b wa wb
  | crc d a wa => exact crc d a wa
  | addi d a imm => exact addi d a imm
  | muli d a imm => exact muli d a imm
  | andi d a imm => exact andi d a imm
  | ori d a imm => exact ori d a imm
  | xori d a imm => exact xori d a imm
  | shli d a count => exact shli d a count
  | shri d a count => exact shri d a count
  | cmpi cc p a imm => exact cmpi cc p a imm
  | movi d imm => exact movi d imm
  | movhi d imm => exact movhi d imm
  | mini d a imm => exact mini d a imm
  | maxi d a imm => exact maxi d a imm
  | rcp d a wa => exact rcp d a wa
  | rsq d a wa => exact rsq d a wa
  | sqrt d a wa => exact sqrt d a wa
  | exp2 d a wa => exact exp2 d a wa
  | log2 d a wa => exact log2 d a wa
  | sinpi d a wa => exact sinpi d a wa
  | cospi d a wa => exact cospi d a wa
  | tanh d a wa => exact tanh d a wa
  | cvt src d a wa => exact cvt src d a wa
  | pack src d a part wa => exact pack src d a part wa
  | unpk src d a part wa => exact unpk src d a part wa
  | qnt l d a b wa wb => exact qnt l d a b wa wb
  | rnd m d a wa => exact rnd m d a wa
  | classf d a wa => exact classf d a wa
  | scalb d a b wa wb => exact scalb d a b wa wb
  | shfl d a b wa wb kf => exact shfl d a b wa wb kf
  | bcst d a lane wa kf => exact bcst d a lane wa kf
  | reduce op d a wa kf => exact reduce op d a wa kf
  | scan op ex d a wa kf => exact scan op ex d a wa kf
  | voteBallot kd p kf => exact voteBallot kd p kf
  | voteAny d p kf => exact voteAny d p kf
  | voteAll d p kf => exact voteAll d p kf
  | subx d a b wa wb => exact subx d a b wa wb
  | lanek kd a lane wa => exact lanek kd a lane wa
  | kbcast d ka => exact kbcast d ka
  | kadd d a b => exact kadd d a b
  | ksub d a b => exact ksub d a b
  | kmul d a b => exact kmul d a b
  | kand d a b => exact kand d a b
  | kor d a b => exact kor d a b
  | kxor d a b => exact kxor d a b
  | kshl d a b => exact kshl d a b
  | kshr d a b arith => exact kshr d a b arith
  | kaddi d a imm => exact kaddi d a imm
  | kmovi d imm => exact kmovi d imm
  | kmovhi d imm => exact kmovhi d imm
  | kmin d a b u => exact kmin d a b u
  | kmax d a b u => exact kmax d a b u
  | ksel d a b kf => exact ksel d a b kf
  | qpush q ka bcast => exact qpush q ka bcast
  | ld w sx d a wa => exact ld w sx d a wa
  | st w a b wa wb => exact st w a b wa wb
  | ldx d a imm => exact ldx d a imm
  | stx d a imm => exact stx d a imm
  | atom op d a b wa wb => exact atom op d a b wa wb
  | acas d a b wa wb => exact acas d a b wa wb
  | kld d a imm => exact kld d a imm
  | kst d a imm => exact kst d a imm
  | tlook d a wa => exact tlook d a wa
  | tlookK d a => exact tlookK d a
  | tset d a b wa wb => exact tset d a b wa wb
  | tinv a wa => exact tinv a wa
  | swinit ka kb => exact swinit ka kb
  | swadd sc ka kb => exact swadd sc ka kb
  | swait sc ka kb => exact swait sc ka kb
  | waitc c n => exact waitc c n
  | bar n => exact bar n
  | bara n => exact bara n
  | barw n => exact barw n
  | trig => exact trig
  | launch ka => exact launch ka
  | detep => exact detep
  | copy ka => exact copy ka
  | skip ka => exact skip ka
  | engq kd ka => exact engq kd ka
  | rld d a wa => exact rld d a wa
  | rst f a b wa wb => exact rst f a b wa wb
  | raadd d a b wa wb => exact raadd d a b wa wb
  | raaddD a b wa wb => exact raaddD a b wa wb
  | rcas d a b wa wb => exact rcas d a b wa wb
  | stmp d a b wa wb => exact stmp d a b wa wb
  | ldat d a b wa wb => exact ldat d a b wa wb
  | time kd => exact time kd
  | mma bank a kb wa reuse la clear => exact mma bank a kb wa reuse la clear
  | mclr bank => exact mclr bank
  | mst bank ka => exact mst bank ka
  | mrd d bank kb => exact mrd d bank kb
  | obres kd ka => exact obres kd ka
  | obrel ka => exact obrel ka
  | obld ka kb => exact obld ka kb
  | mstat kd bank => exact mstat kd bank
  | _ => exact of_none rfl

end Sys2Proof.Laws.RoundTrip

namespace Sys2Proof.Machine

open Sys2Proof Sys2Proof.Safety

/-- Settles O2, by the round trip of each constructor; two instructions with one word are both what that word decodes to. -/
theorem decodeEncode : Obligations.DecodeEncode := by
  refine ⟨fun i w hi he => Laws.RoundTrip.statement_all i hi w he, fun i j w hi hj hei hej => ?_⟩
  have hdi : decode w = .ok i := Laws.RoundTrip.statement_all i hi w hei
  have hdj : decode w = .ok j := Laws.RoundTrip.statement_all j hj w hej
  rw [hdi] at hdj
  exact Except.ok.inj hdj

end Sys2Proof.Machine
end

section
namespace Sys2Proof

/-! ### Adjacent fields -/

/-- Two adjacent fields, appended, are the field that spans both. -/
theorem slice_join {n : Nat} (x : BitVec n) (s k m : Nat) : x.extractLsb' (s + k) m ++ x.extractLsb' s k = x.extractLsb' s (m + k) := by
  apply BitVec.eq_of_getLsbD_eq
  intro i hi
  rw [BitVec.getLsbD_append]
  by_cases hk : i < k
  · simp [hk, hi]
  · have e : s + k + (i - k) = s + i := by omega
    simp [hk, hi, e, show i - k < m by omega]

/-- A bit as the field of one bit. -/
theorem bit_slice {n : Nat} (x : BitVec n) (i : Nat) : BitVec.ofBool (x.getLsbD i) = x.extractLsb' i 1 := by
  apply BitVec.eq_of_getLsbD_eq
  intro j hj
  obtain rfl : j = 0 := by omega
  simp

/-! ### A word from the fields that a format names -/

section
variable {w : Half} {op : BitVec 8}

theorem rrWord_of {d a b : BitVec 6} {wa wb : Bool} {fn : BitVec 4} (hop : opOf w = op) (hd : dOf w = d) (ha : aOf w = a)
    (hb : bOf w = b) (hwa : waOf w = wa) (hwb : wbOf w = wb) (hfn : fnOf w = fn) : some (rrWord op d a b wa wb fn) = some w := by
  subst hop hd ha hb hwa hwb hfn
  rw [rrWord_fields]

theorem riWord_of {d a : BitVec 6} {imm : BitVec 12} (hop : opOf w = op) (hd : dOf w = d) (ha : aOf w = a)
    (himm : imm12Of w = imm) : some (riWord op d a imm) = some w := by
  subst hop hd ha himm
  rw [riWord_fields]

theorem rkWord_of {d : BitVec 6} {imm : BitVec 18} (hop : opOf w = op) (hd : dOf w = d) (himm : imm18Of w = imm) :
    some (rkWord op d imm) = some w := by
  subst hop hd himm
  rw [rkWord_fields]

theorem brWord_of {p : BitVec 3} {n : Bool} {off : BitVec 20} (hop : opOf w = op) (hp : brP w = p) (hn : brN w = n)
    (hoff : off20Of w = off) : some (brWord op p n off) = some w := by
  subst hop hp hn hoff
  rw [brWord_fields]

theorem xsWord_of {imm : BitVec 24} (hop : opOf w = op) (himm : imm24Of w = imm) : some (xsWord op imm) = some w := by
  subst hop himm
  rw [xsWord_fields]

theorem ivWord_of (hop : opOf w = op) (h0 : w.getLsbD 0 = false) :
    some (ivWord op (dOf w) (aOf w) (w.extractLsb' 10 2) (w.extractLsb' 6 4) (w.extractLsb' 2 4) (w.getLsbD 1)) = some w := by
  subst hop
  rw [ivWord_fields w h0]

end

/-! ### What the decoder's steps accept -/

/-- What `r` accepts of `w` is well-formed, and its encoding is `w`. -/
def Faithful (w : Half) (r : Except DecodeErr Instr) : Prop := ∀ i, r = .ok i → i.wellFormed = true ∧ encode i = some w

namespace Faithful

variable {w : Half} {op : BitVec 8}

theorem refuse {e : DecodeErr} : Faithful w (.error e) := by
  intro i h
  cases h

theorem accept {i : Instr} (hw : i.wellFormed = true) (he : encode i = some w) : Faithful w (.ok i) := by
  intro j h
  cases h
  exact ⟨hw, he⟩

theorem of_pick {ok1 ok2 : Bool} {i : Instr} (h : ok1 = true → ok2 = true → i.wellFormed = true ∧ encode i = some w) :
    Faithful w (pick ok1 ok2 i) := by
  cases ok1 with
  | false => exact refuse
  | true =>
    cases ok2 with
    | false => exact refuse
    | true => exact accept (h rfl rfl).1 (h rfl rfl).2

theorem of_pickOpt {α : Type} {c : Option α} {ok1 ok2 : Bool} {mk : α → Instr}
    (h : ∀ x, c = some x → ok1 = true → ok2 = true → (mk x).wellFormed = true ∧ encode (mk x) = some w) :
    Faithful w (pickOpt c ok1 ok2 mk) := by
  cases c with
  | none => exact refuse
  | some x => exact of_pick (h x rfl)

/-! ### By the operands of a word -/

theorem of_vvv {mk : VNum → VNum → VNum → Bool → Bool → Instr} (hop : opOf w = op)
    (h : ∀ d a b wa wb, (mk d a b wa wb).wellFormed = true ∧ encode (mk d a b wa wb) = eVVV op d a b wa wb) : Faithful w (vvv w mk) :=
  of_pick fun h1 _ => by
    obtain ⟨hw, he⟩ := h (dOf w) (aOf w) (bOf w) (waOf w) (wbOf w)
    exact ⟨hw, he.trans (rrWord_of hop rfl rfl rfl rfl rfl (of_decide_eq_true h1))⟩

theorem of_vv {mk : VNum → VNum → Bool → Instr} (hop : opOf w = op)
    (h : ∀ d a wa, (mk d a wa).wellFormed = true ∧ encode (mk d a wa) = eVV op d a wa 0#4) : Faithful w (vv w mk) :=
  of_pick fun h1 h2 => by
    simp only [Bool.and_eq_true, decide_eq_true_eq, Bool.not_eq_true'] at h1 h2
    obtain ⟨hw, he⟩ := h (dOf w) (aOf w) (waOf w)
    exact ⟨hw, he.trans (rrWord_of hop rfl rfl h1.2 rfl h2 h1.1)⟩

theorem of_vvFn {α : Type} {c : Option α} {mk : α → VNum → VNum → Bool → Instr} {code : α → BitVec 4} (hop : opOf w = op)
    (hc : ∀ x, c = some x → code x = fnOf w)
    (h : ∀ x d a wa, (mk x d a wa).wellFormed = true ∧ encode (mk x d a wa) = eVV op d a wa (code x)) : Faithful w (vvFn w c mk) :=
  of_pickOpt fun x hx h1 h2 => by
    simp only [decide_eq_true_eq, Bool.not_eq_true'] at h1 h2
    obtain ⟨hw, he⟩ := h x (dOf w) (aOf w) (waOf w)
    exact ⟨hw, he.trans (rrWord_of hop rfl rfl h1 rfl h2 (hc x hx).symm)⟩

theorem of_vvi {mk : VNum → VNum → BitVec 12 → Instr} (hop : opOf w = op)
    (h : ∀ d a imm, (mk d a imm).wellFormed = true ∧ encode (mk d a imm) = some (riWord op d a imm)) : Faithful w (vvi w mk) := by
  obtain ⟨hw, he⟩ := h (dOf w) (aOf w) (imm12Of w)
  exact accept hw (he.trans (riWord_of hop rfl rfl rfl))

theorem of_kkk {mk : KNum → KNum → KNum → Instr} (hop : opOf w = op)
    (h : ∀ d a b, (mk d a b).wellFormed = true ∧ encode (mk d a b) = eKKK op d a b 0#4) : Faithful w (kkk w mk) :=
  of_pick fun h1 h2 => by
    simp only [Bool.and_eq_true, decide_eq_true_eq, Bool.not_eq_true'] at h1 h2
    obtain ⟨⟨⟨⟨hd, ha⟩, hb⟩, hwa⟩, hwb⟩ := h2
    obtain ⟨hw, he⟩ := h (kNum (dOf w)) (kNum (aOf w)) (kNum (bOf w))
    exact ⟨hw, he.trans (rrWord_of hop (kField_kNum hd).symm (kField_kNum ha).symm (kField_kNum hb).symm hwa hwb h1)⟩

theorem of_kkkF {mk : KNum → KNum → KNum → Bool → Instr} (hop : opOf w = op)
    (h : ∀ d a b f, (mk d a b f).wellFormed = true ∧ encode (mk d a b f) = eKKK op d a b (flagFn f)) : Faithful w (kkkF w mk) :=
  of_pick fun h1 h2 => by
    simp only [Bool.and_eq_true, decide_eq_true_eq, Bool.not_eq_true'] at h1 h2
    obtain ⟨⟨⟨⟨hd, ha⟩, hb⟩, hwa⟩, hwb⟩ := h2
    obtain ⟨hw, he⟩ := h (kNum (dOf w)) (kNum (aOf w)) (kNum (bOf w)) ((fnOf w).getLsbD 0)
    exact ⟨hw, he.trans
      (rrWord_of hop (kField_kNum hd).symm (kField_kNum ha).symm (kField_kNum hb).symm hwa hwb (flagFn_of h1).symm)⟩

/-- Words without operands. -/
theorem of_plain {i : Instr} (hop : opOf w = op) (h : i.wellFormed = true ∧ encode i = some (xsWord op 0#24)) :
    Faithful w (pick (imm24Of w = 0#24) true i) :=
  of_pick fun h1 _ => ⟨h.1, h.2.trans (xsWord_of hop (of_decide_eq_true h1))⟩

/-- Words of format BR with an offset alone. -/
theorem of_offset {mk : BitVec 20 → Instr} (hop : opOf w = op)
    (h : ∀ off, (mk off).wellFormed = true ∧ encode (mk off) = some (brWord op 0#3 false off)) :
    Faithful w (pick (brP w = 0#3 && !brN w) true (mk (off20Of w))) :=
  of_pick fun h1 _ => by
    simp only [Bool.and_eq_true, decide_eq_true_eq, Bool.not_eq_true'] at h1
    obtain ⟨hw, he⟩ := h (off20Of w)
    exact ⟨hw, he.trans (brWord_of hop h1.1 h1.2 rfl)⟩

/-- Words with one vector register in field a. -/
theorem of_va {mk : VNum → Bool → Instr} (hop : opOf w = op)
    (h : ∀ a wa, (mk a wa).wellFormed = true ∧ encode (mk a wa) = eVa op a wa) :
    Faithful w (pick (dOf w = 0#6 && bOf w = 0#6 && fnOf w = 0#4) (!wbOf w) (mk (aOf w) (waOf w))) :=
  of_pick fun h1 h2 => by
    simp only [Bool.and_eq_true, decide_eq_true_eq, Bool.not_eq_true'] at h1 h2
    obtain ⟨⟨hd, hb⟩, hfn⟩ := h1
    obtain ⟨hw, he⟩ := h (aOf w) (waOf w)
    exact ⟨hw, he.trans (rrWord_of hop hd rfl hb rfl h2 hfn)⟩

/-- Words with one k register in field a. -/
theorem of_ka {mk : KNum → Instr} (hop : opOf w = op) (h : ∀ a, (mk a).wellFormed = true ∧ encode (mk a) = eKa op a) :
    Faithful w (pick (dOf w = 0#6 && bOf w = 0#6 && fnOf w = 0#4) (kOk (aOf w) && !waOf w && !wbOf w) (mk (kNum (aOf w)))) :=
  of_pick fun h1 h2 => by
    simp only [Bool.and_eq_true, decide_eq_true_eq, Bool.not_eq_true'] at h1 h2
    obtain ⟨⟨hd, hb⟩, hfn⟩ := h1
    obtain ⟨⟨ha, hwa⟩, hwb⟩ := h2
    obtain ⟨hw, he⟩ := h (kNum (aOf w))
    exact ⟨hw, he.trans (rrWord_of hop hd (kField_kNum ha).symm hb hwa hwb hfn)⟩

/-- Words with k registers in fields a and b. -/
theorem of_kab {mk : KNum → KNum → Instr} (hop : opOf w = op)
    (h : ∀ a b, (mk a b).wellFormed = true ∧ encode (mk a b) = some (rrWord op 0#6 (kField a) (kField b) false false 0#4)) :
    Faithful w (pick (dOf w = 0#6 && fnOf w = 0#4) (kOk (aOf w) && kOk (bOf w) && !waOf w && !wbOf w)
      (mk (kNum (aOf w)) (kNum (bOf w)))) :=
  of_pick fun h1 h2 => by
    simp only [Bool.and_eq_true, decide_eq_true_eq, Bool.not_eq_true'] at h1 h2
    obtain ⟨⟨⟨ha, hb⟩, hwa⟩, hwb⟩ := h2
    obtain ⟨hw, he⟩ := h (kNum (aOf w)) (kNum (bOf w))
    exact ⟨hw, he.trans (rrWord_of hop h1.1 (kField_kNum ha).symm (kField_kNum hb).symm hwa hwb h1.2)⟩

/-- Words with k registers in fields d and a. -/
theorem of_kda {mk : KNum → KNum → Instr} (hop : opOf w = op)
    (h : ∀ d a, (mk d a).wellFormed = true ∧ encode (mk d a) = some (rrWord op (kField d) (kField a) 0#6 false false 0#4)) :
    Faithful w (pick (bOf w = 0#6 && fnOf w = 0#4) (kOk (dOf w) && kOk (aOf w) && !waOf w && !wbOf w)
      (mk (kNum (dOf w)) (kNum (aOf w)))) :=
  of_pick fun h1 h2 => by
    simp only [Bool.and_eq_true, decide_eq_true_eq, Bool.not_eq_true'] at h1 h2
    obtain ⟨⟨⟨hd, ha⟩, hwa⟩, hwb⟩ := h2
    obtain ⟨hw, he⟩ := h (kNum (dOf w)) (kNum (aOf w))
    exact ⟨hw, he.trans (rrWord_of hop (kField_kNum hd).symm (kField_kNum ha).symm h1.1 hwa hwb h1.2)⟩

/-- Words with k registers in fields d and a of format RI. -/
theorem of_kki {mk : KNum → KNum → BitVec 12 → Instr} (hop : opOf w = op)
    (h : ∀ d a imm, (mk d a imm).wellFormed = true ∧ encode (mk d a imm) = some (riWord op (kField d) (kField a) imm)) :
    Faithful w (pick true (kOk (dOf w) && kOk (aOf w)) (mk (kNum (dOf w)) (kNum (aOf w)) (imm12Of w))) :=
  of_pick fun _ h2 => by
    simp only [Bool.and_eq_true] at h2
    obtain ⟨hw, he⟩ := h (kNum (dOf w)) (kNum (aOf w)) (imm12Of w)
    exact ⟨hw, he.trans (riWord_of hop (kField_kNum h2.1).symm (kField_kNum h2.2).symm rfl)⟩

/-- Words with a k register in field d of format RK. -/
theorem of_ki {mk : KNum → BitVec 18 → Instr} (hop : opOf w = op)
    (h : ∀ d imm, (mk d imm).wellFormed = true ∧ encode (mk d imm) = some (rkWord op (kField d) imm)) :
    Faithful w (pick true (kOk (dOf w)) (mk (kNum (dOf w)) (imm18Of w))) :=
  of_pick fun _ h2 => by
    obtain ⟨hw, he⟩ := h (kNum (dOf w)) (imm18Of w)
    exact ⟨hw, he.trans (rkWord_of hop (kField_kNum h2).symm rfl)⟩

/-- Words with a scope in fn. -/
theorem of_scope {mk : Scope → KNum → KNum → Instr} (hop : opOf w = op)
    (h : ∀ s a b, (mk s a b).wellFormed = true ∧
      encode (mk s a b) = some (rrWord op 0#6 (kField a) (kField b) false false (0#1 ++ s.code))) :
    Faithful w (pickOpt (Scope.ofCode (w.extractLsb' 0 3)) (dOf w = 0#6 && !w.getLsbD 3)
      (kOk (aOf w) && kOk (bOf w) && !waOf w && !wbOf w) (fun s => mk s (kNum (aOf w)) (kNum (bOf w)))) :=
  of_pickOpt fun s hs h1 h2 => by
    simp only [Bool.and_eq_true, decide_eq_true_eq, Bool.not_eq_true'] at h1 h2
    obtain ⟨hd, h3⟩ := h1
    obtain ⟨⟨⟨ha, hb⟩, hwa⟩, hwb⟩ := h2
    obtain ⟨hw, he⟩ := h s (kNum (aOf w)) (kNum (bOf w))
    have hfn : fnOf w = 0#1 ++ s.code := by
      rw [Scope.code_ofCode hs, show 0#1 = BitVec.ofBool (w.getLsbD 3) by rw [h3]; rfl, bit_slice]
      exact (slice_join w 0 3 1).symm
    exact ⟨hw, he.trans (rrWord_of hop hd (kField_kNum ha).symm (kField_kNum hb).symm hwa hwb hfn)⟩

/-- Words with a barrier number. -/
theorem of_barrier {mk : BitVec 4 → Instr} (hop : opOf w = op)
    (h : ∀ n, (mk n).wellFormed = true ∧ encode (mk n) = some (xsWord op (0#20 ++ n))) :
    Faithful w (pick ((w.extractLsb' 4 20 : BitVec 20) = 0#20) true (mk (w.extractLsb' 0 4))) :=
  of_pick fun h1 _ => by
    obtain ⟨hw, he⟩ := h (w.extractLsb' 0 4)
    refine ⟨hw, he.trans (xsWord_of hop ?_)⟩
    rw [← of_decide_eq_true h1]
    exact (slice_join w 0 4 20).symm

/-- Shifts by an immediate count. -/
theorem of_count {mk : VNum → VNum → BitVec 6 → Instr} (hop : opOf w = op)
    (h : ∀ d a c, (mk d a c).wellFormed = true ∧ encode (mk d a c) = some (riWord op d a (0#6 ++ c))) :
    Faithful w (pick ((w.extractLsb' 6 6 : BitVec 6) = 0#6) true (mk (dOf w) (aOf w) (w.extractLsb' 0 6))) :=
  of_pick fun h1 _ => by
    obtain ⟨hw, he⟩ := h (dOf w) (aOf w) (w.extractLsb' 0 6)
    refine ⟨hw, he.trans (riWord_of hop rfl rfl ?_)⟩
    rw [← of_decide_eq_true h1]
    exact (slice_join w 0 6 6).symm

/-- PACK and UNPK. -/
theorem of_part {mk : ElemType → VNum → VNum → BitVec 3 → Bool → Instr} (hop : opOf w = op)
    (h : ∀ t d a p wa, (mk t d a p wa).wellFormed = true ∧
      encode (mk t d a p wa) = some (rrWord op d a (lowField p) wa false t.code)) :
    Faithful w (pickOpt (ElemType.ofCode (fnOf w)) (lowOk (bOf w)) (!wbOf w)
      (fun t => mk t (dOf w) (aOf w) (lowNum (bOf w)) (waOf w))) :=
  of_pickOpt fun t ht h1 h2 => by
    simp only [Bool.not_eq_true'] at h2
    obtain ⟨hw, he⟩ := h t (dOf w) (aOf w) (lowNum (bOf w)) (waOf w)
    exact ⟨hw, he.trans (rrWord_of hop rfl rfl (lowField_lowNum h1).symm rfl h2 (ElemType.code_ofCode ht).symm)⟩

end Faithful

end Sys2Proof
end

section
namespace Sys2Proof.Faithful

open Sys2Proof

variable {w : Half}

/-! ### Words with operands of their own -/

theorem of_loop (hop : opOf w = 0x0B#8) :
    Faithful w (pick ((w.extractLsb' 22 2 : BitVec 2).toNat < 3 && (w.extractLsb' 8 8 : BitVec 8) = 0#8) (kOk (w.extractLsb' 16 6))
      (.loop (w.extractLsb' 22 2) (kNum (w.extractLsb' 16 6)) (w.extractLsb' 0 8))) :=
  of_pick fun h1 h2 => by
    rw [Bool.and_eq_true] at h1
    refine ⟨h1.1, xsWord_of hop ?_⟩
    rw [kField_kNum h2, ← of_decide_eq_true h1.2]
    exact ((congrArg _ ((congrArg _ (slice_join w 0 8 8)).trans (slice_join w 0 16 6))).trans (slice_join w 0 22 2)).symm

theorem of_regang (hop : opOf w = 0x0D#8) :
    Faithful w (pick ((w.extractLsb' 8 16 : BitVec 16) = 0#16 && (w.extractLsb' 0 8 : BitVec 8) ≠ 0#8) true
      (.regang (w.extractLsb' 0 8))) :=
  of_pick fun h1 _ => by
    rw [Bool.and_eq_true] at h1
    refine ⟨h1.2, xsWord_of hop ?_⟩
    rw [← of_decide_eq_true h1.1]
    exact (slice_join w 0 8 16).symm

theorem of_kbr (hop : opOf w = 0x0E#8) :
    Faithful w (pickOpt (KbrCond.ofCode (w.extractLsb' 9 3))
      (KbrCond.ofCode (w.extractLsb' 9 3) ≠ some .always || (dOf w = 0#6 && aOf w = 0#6)) (kOk (dOf w) && kOk (aOf w))
      (fun cc => .kbr (kNum (dOf w)) (kNum (aOf w)) cc (w.extractLsb' 0 9))) :=
  of_pickOpt fun cc hcc h1 h2 => by
    rw [Bool.and_eq_true] at h2
    simp only [hcc, ne_eq, Option.some.injEq, Bool.or_eq_true, Bool.and_eq_true, decide_eq_true_eq] at h1
    constructor
    · simp only [Instr.wellFormed, ne_eq, Bool.or_eq_true, Bool.and_eq_true, decide_eq_true_eq]
      exact h1.imp_right fun ⟨hd, ha⟩ => by simp [hd, ha, kNum]
    · refine xsWord_of hop ?_
      rw [kField_kNum h2.1, kField_kNum h2.2, KbrCond.code_ofCode hcc]
      exact ((congrArg _ ((congrArg _ (slice_join w 0 9 3)).trans (slice_join w 0 12 6))).trans (slice_join w 0 18 6)).symm

theorem of_getmode (hop : opOf w = 0x12#8) :
    Faithful w (pick (aOf w = 0#6 && bOf w = 0#6 && fnOf w = 0#4) (kOk (dOf w) && !waOf w && !wbOf w) (.getmode (kNum (dOf w)))) :=
  of_pick fun h1 h2 => by
    simp only [Bool.and_eq_true, decide_eq_true_eq, Bool.not_eq_true'] at h1 h2
    exact ⟨rfl, rrWord_of hop (kField_kNum h2.1.1).symm h1.1.1 h1.1.2 h2.1.2 h2.2 h1.2⟩

theorem of_csrr (hop : opOf w = 0x13#8) :
    Faithful w (pickOpt (Csr.ofNum (imm12Of w)) (aOf w = 0#6) (csrFieldOk (dOf w) (imm12Of w))
      (fun _ => .csrr (dOf w) (imm12Of w))) :=
  of_pickOpt fun _ _ h1 h2 => ⟨h2, riWord_of hop rfl (of_decide_eq_true h1) rfl⟩

theorem of_csrw (hop : opOf w = 0x14#8) :
    Faithful w (pickOpt (Csr.ofNum (imm12Of w)) (dOf w = 0#6) (csrFieldOk (aOf w) (imm12Of w))
      (fun _ => .csrw (aOf w) (imm12Of w))) :=
  of_pickOpt fun _ _ h1 h2 => ⟨h2, riWord_of hop (of_decide_eq_true h1) rfl rfl⟩

theorem of_sel (hop : opOf w = 0x37#8) :
    Faithful w (.ok (.sel (dOf w) (aOf w) (bOf w) (waOf w) (wbOf w) ((fnOf w).getLsbD 3) ((fnOf w).extractLsb' 0 3))) :=
  accept rfl (rrWord_of hop rfl rfl rfl rfl rfl (by
    rw [bit_slice]
    exact ((slice_join (fnOf w) 0 3 1).trans (slice_whole _)).symm))

theorem of_cmp (hop : opOf w = 0x38#8) :
    Faithful w (pickOpt (CmpCond.ofCode (fnOf w)) (lowOk (dOf w)) true
      (fun cc => .cmp cc (lowNum (dOf w)) (aOf w) (bOf w) (waOf w) (wbOf w))) :=
  of_pickOpt fun _ hcc h1 _ =>
    ⟨rfl, rrWord_of hop (lowField_lowNum h1).symm rfl rfl rfl rfl (CmpCond.code_ofCode hcc).symm⟩

theorem of_plop (hop : opOf w = 0x39#8) :
    Faithful w (pick (lowOk (dOf w) && lowOk (aOf w) && lowOk (bOf w)) (!waOf w && !wbOf w)
      (.plop (lowNum (dOf w)) (lowNum (aOf w)) (lowNum (bOf w)) (fnOf w))) :=
  of_pick fun h1 h2 => by
    simp only [Bool.and_eq_true, Bool.not_eq_true'] at h1 h2
    exact ⟨rfl, rrWord_of hop (lowField_lowNum h1.1.1).symm (lowField_lowNum h1.1.2).symm (lowField_lowNum h1.2).symm h2.1 h2.2 rfl⟩

theorem of_cmpi (hop : opOf w = 0x47#8) :
    Faithful w (pickOpt (CmpiCond.ofCode (w.extractLsb' 21 3)) true true
      (fun cc => .cmpi cc (w.extractLsb' 18 3) (aOf w) (imm12Of w))) :=
  of_pickOpt fun cc hcc _ _ => ⟨rfl, riWord_of hop (by
    rw [CmpiCond.code_ofCode hcc]
    exact (slice_join w 18 3 3).symm) rfl rfl⟩

theorem of_qnt (hop : opOf w = 0x5B#8) :
    Faithful w (pickOpt (BlockLen.ofCode (fnOf w).toNat) true ((dOf w).toNat ≤ 55 && (aOf w).toNat ≤ 56 && (bOf w).toNat ≤ 56)
      (fun l => .qnt l (dOf w) (aOf w) (bOf w) (waOf w) (wbOf w))) :=
  of_pickOpt fun _ hl _ h2 => ⟨h2, rrWord_of hop rfl rfl rfl rfl rfl (BlockLen.code_ofCode hl).symm⟩

theorem of_bcst (hop : opOf w = 0x61#8) :
    Faithful w (pick ((bOf w).toNat < 32) (!wbOf w) (.bcst (dOf w) (aOf w) ((bOf w).setWidth 5) (waOf w) (fnOf w))) :=
  of_pick fun h1 h2 => by
    simp only [decide_eq_true_eq, Bool.not_eq_true'] at h1 h2
    exact ⟨rfl, rrWord_of hop rfl rfl (wide5 h1).symm rfl h2 rfl⟩

theorem of_reduce (hop : opOf w = 0x62#8) :
    Faithful w (pickOpt (CombineOp.ofCode (w.extractLsb' 6 4)) ((w.extractLsb' 10 2 : BitVec 2) = 0#2) (!wbOf w)
      (fun o => .reduce o (dOf w) (aOf w) (waOf w) (fnOf w))) :=
  of_pickOpt fun o ho h1 h2 => by
    simp only [decide_eq_true_eq, Bool.not_eq_true'] at h1 h2
    refine ⟨rfl, rrWord_of hop rfl rfl ?_ rfl h2 rfl⟩
    rw [CombineOp.code_ofCode ho, ← h1]
    exact (slice_join w 6 4 2).symm

theorem of_scan (hop : opOf w = 0x63#8) :
    Faithful w (pickOpt (CombineOp.ofCode (w.extractLsb' 6 4)) (!w.getLsbD 11) (!wbOf w)
      (fun o => .scan o (w.getLsbD 10) (dOf w) (aOf w) (waOf w) (fnOf w))) :=
  of_pickOpt fun o ho h1 h2 => by
    rw [Bool.not_eq_true'] at h1 h2
    refine ⟨rfl, rrWord_of hop rfl rfl ?_ rfl h2 rfl⟩
    rw [CombineOp.code_ofCode ho, show 0#1 = BitVec.ofBool (w.getLsbD 11) by rw [h1]; rfl, bit_slice, bit_slice]
    exact ((congrArg _ (slice_join w 6 4 1)).trans (slice_join w 6 5 1)).symm

/-- Field b of a vote: the code of its kind in the low bits, zero above. -/
theorem vote_field {n : Nat} (hn : (w.extractLsb' 6 2 : BitVec 2).toNat = n) (h8 : (w.extractLsb' 8 4 : BitVec 4) = 0#4) :
    bOf w = 0#4 ++ BitVec.ofNat 2 n := by
  rw [← hn, ← h8, BitVec.ofNat_toNat, BitVec.setWidth_eq]
  exact (slice_join w 6 2 4).symm

theorem of_ballot (hop : opOf w = 0x64#8) (hn : (w.extractLsb' 6 2 : BitVec 2).toNat = 0) :
    Faithful w (pick (lowOk (aOf w) && (w.extractLsb' 8 4 : BitVec 4) = 0#4) (kOk (dOf w) && !waOf w && !wbOf w)
      (.voteBallot (kNum (dOf w)) (lowNum (aOf w)) (fnOf w))) :=
  of_pick fun h1 h2 => by
    simp only [Bool.and_eq_true, decide_eq_true_eq, Bool.not_eq_true'] at h1 h2
    exact ⟨rfl, rrWord_of hop (kField_kNum h2.1.1).symm (lowField_lowNum h1.1).symm (vote_field hn h1.2) h2.1.2 h2.2 rfl⟩

/-- The votes into a predicate, VOTE.ANY and VOTE.ALL. -/
theorem of_vote {n : Nat} {mk : PNum → PNum → BitVec 4 → Instr} (hop : opOf w = 0x64#8)
    (hn : (w.extractLsb' 6 2 : BitVec 2).toNat = n)
    (h : ∀ d p kf, (mk d p kf).wellFormed = true ∧
      encode (mk d p kf) = some (rrWord 0x64#8 (lowField d) (lowField p) (0#4 ++ BitVec.ofNat 2 n) false false kf)) :
    Faithful w (pick (lowOk (aOf w) && (w.extractLsb' 8 4 : BitVec 4) = 0#4 && lowOk (dOf w)) (!waOf w && !wbOf w)
      (mk (lowNum (dOf w)) (lowNum (aOf w)) (fnOf w))) :=
  of_pick fun h1 h2 => by
    simp only [Bool.and_eq_true, decide_eq_true_eq, Bool.not_eq_true'] at h1 h2
    obtain ⟨⟨ha, h8⟩, hd⟩ := h1
    obtain ⟨hw, he⟩ := h (lowNum (dOf w)) (lowNum (aOf w)) (fnOf w)
    exact ⟨hw, he.trans
      (rrWord_of hop (lowField_lowNum hd).symm (lowField_lowNum ha).symm (vote_field hn h8) h2.1 h2.2 rfl)⟩

theorem of_lanek (hop : opOf w = 0x66#8) :
    Faithful w (pick ((bOf w).toNat < 32 && fnOf w = 0#4) (kOk (dOf w) && !wbOf w)
      (.lanek (kNum (dOf w)) (aOf w) ((bOf w).setWidth 5) (waOf w))) :=
  of_pick fun h1 h2 => by
    simp only [Bool.and_eq_true, decide_eq_true_eq, Bool.not_eq_true'] at h1 h2
    exact ⟨rfl, rrWord_of hop (kField_kNum h2.1).symm rfl (wide5 h1.1).symm rfl h2.2 h1.2⟩

theorem of_kbcast (hop : opOf w = 0x67#8) :
    Faithful w (pick (bOf w = 0#6 && fnOf w = 0#4) (kOk (aOf w) && !waOf w && !wbOf w) (.kbcast (dOf w) (kNum (aOf w)))) :=
  of_pick fun h1 h2 => by
    simp only [Bool.and_eq_true, decide_eq_true_eq, Bool.not_eq_true'] at h1 h2
    exact ⟨rfl, rrWord_of hop rfl (kField_kNum h2.1.1).symm h1.1 h2.1.2 h2.2 h1.2⟩

theorem of_ksel (hop : opOf w = 0x75#8) :
    Faithful w (pick true (kOk (dOf w) && kOk (aOf w) && kOk (bOf w) && !waOf w && !wbOf w)
      (.ksel (kNum (dOf w)) (kNum (aOf w)) (kNum (bOf w)) (fnOf w))) :=
  of_pick fun _ h2 => by
    simp only [Bool.and_eq_true, Bool.not_eq_true'] at h2
    obtain ⟨⟨⟨⟨hd, ha⟩, hb⟩, hwa⟩, hwb⟩ := h2
    exact ⟨rfl, rrWord_of hop (kField_kNum hd).symm (kField_kNum ha).symm (kField_kNum hb).symm hwa hwb rfl⟩

theorem of_qpush (hop : opOf w = 0x76#8) :
    Faithful w (pick ((dOf w).toNat < 4 && bOf w = 0#6 && (fnOf w).toNat < 2) (kOk (aOf w) && !waOf w && !wbOf w)
      (.qpush ((dOf w).setWidth 2) (kNum (aOf w)) ((fnOf w).getLsbD 0))) :=
  of_pick fun h1 h2 => by
    simp only [Bool.and_eq_true, decide_eq_true_eq, Bool.not_eq_true'] at h1 h2
    obtain ⟨⟨hd, hb⟩, hfn⟩ := h1
    exact ⟨rfl, rrWord_of hop (wide2 hd).symm (kField_kNum h2.1.1).symm hb h2.1.2 h2.2 (flagFn_of hfn).symm⟩

/-- Only the code 3 names the width of 64 bits. -/
theorem width_d64 {c : BitVec 2} (h : MemWidth.ofCode c = .d64) : c = 3#2 := by revert c; decide

theorem of_ld (hop : opOf w = 0x78#8) :
    Faithful w (pick (bOf w = 0#6 && !w.getLsbD 3 && !(w.getLsbD 2 && (w.extractLsb' 0 2 : BitVec 2) = 3#2)) (!wbOf w)
      (.ld (MemWidth.ofCode (w.extractLsb' 0 2)) (w.getLsbD 2) (dOf w) (aOf w) (waOf w))) :=
  of_pick fun h1 h2 => by
    simp only [Bool.and_eq_true, Bool.not_eq_true', Bool.and_eq_false_iff, decide_eq_true_eq, decide_eq_false_iff_not] at h1 h2
    obtain ⟨⟨hb, h3⟩, hsx⟩ := h1
    constructor
    · simp only [Instr.wellFormed, Bool.not_eq_true', Bool.and_eq_false_iff, decide_eq_false_iff_not]
      exact hsx.imp_right fun hne hd => hne (width_d64 hd)
    · refine rrWord_of hop rfl rfl hb rfl h2 ?_
      rw [MemWidth.code_ofCode, show 0#1 = BitVec.ofBool (w.getLsbD 3) by rw [h3]; rfl, bit_slice, bit_slice]
      exact ((congrArg _ (slice_join w 0 2 1)).trans (slice_join w 0 3 1)).symm

theorem of_st (hop : opOf w = 0x79#8) :
    Faithful w (pick (dOf w = 0#6 && (w.extractLsb' 2 2 : BitVec 2) = 0#2) true
      (.st (MemWidth.ofCode (w.extractLsb' 0 2)) (aOf w) (bOf w) (waOf w) (wbOf w))) :=
  of_pick fun h1 _ => by
    simp only [Bool.and_eq_true, decide_eq_true_eq] at h1
    refine ⟨rfl, rrWord_of hop h1.1 rfl rfl rfl rfl ?_⟩
    rw [MemWidth.code_ofCode, ← h1.2]
    exact (slice_join w 0 2 2).symm

theorem of_atom (hop : opOf w = 0x7C#8) :
    Faithful w (pickOpt (AtomOp.ofCode (fnOf w)) true true (fun o => .atom o (dOf w) (aOf w) (bOf w) (waOf w) (wbOf w))) :=
  of_pickOpt fun _ ho _ _ => ⟨rfl, rrWord_of hop rfl rfl rfl rfl rfl (AtomOp.code_ofCode ho).symm⟩

theorem of_tlook (hop : opOf w = 0x80#8) (hfn : (fnOf w).toNat = 0) :
    Faithful w (pick (bOf w = 0#6) (!wbOf w) (.tlook (dOf w) (aOf w) (waOf w))) :=
  of_pick fun h1 h2 => by
    simp only [decide_eq_true_eq, Bool.not_eq_true'] at h1 h2
    exact ⟨rfl, rrWord_of hop rfl rfl h1 rfl h2 (BitVec.eq_of_toNat_eq hfn)⟩

theorem of_tlookK (hop : opOf w = 0x80#8) (hfn : (fnOf w).toNat = 1) :
    Faithful w (pick (bOf w = 0#6) (kOk (dOf w) && kOk (aOf w) && !waOf w && !wbOf w)
      (.tlookK (kNum (dOf w)) (kNum (aOf w)))) :=
  of_pick fun h1 h2 => by
    simp only [Bool.and_eq_true, decide_eq_true_eq, Bool.not_eq_true'] at h1 h2
    obtain ⟨⟨⟨hd, ha⟩, hwa⟩, hwb⟩ := h2
    exact ⟨rfl, rrWord_of hop (kField_kNum hd).symm (kField_kNum ha).symm h1 hwa hwb (BitVec.eq_of_toNat_eq hfn)⟩

theorem of_waitc (hop : opOf w = 0x87#8) :
    Faithful w (pickOpt (CounterName.ofCode (w.extractLsb' 8 2)) ((w.extractLsb' 10 14 : BitVec 14) = 0#14) true
      (fun c => .waitc c (w.extractLsb' 0 8))) :=
  of_pickOpt fun c hc h1 _ => by
    refine ⟨rfl, xsWord_of hop ?_⟩
    rw [CounterName.code_ofCode hc, ← of_decide_eq_true h1]
    exact ((congrArg _ (slice_join w 0 8 2)).trans (slice_join w 0 10 14)).symm

theorem of_rst (hop : opOf w = 0x94#8) :
    Faithful w (pick (dOf w = 0#6 && (fnOf w).toNat < 2) true (.rst ((fnOf w).getLsbD 0) (aOf w) (bOf w) (waOf w) (wbOf w))) :=
  of_pick fun h1 _ => by
    simp only [Bool.and_eq_true, decide_eq_true_eq] at h1
    exact ⟨rfl, rrWord_of hop h1.1 rfl rfl rfl rfl (flagFn_of h1.2).symm⟩

theorem of_raadd (hop : opOf w = 0x95#8) (hfn : (fnOf w).toNat = 0) :
    Faithful w (.ok (.raadd (dOf w) (aOf w) (bOf w) (waOf w) (wbOf w))) :=
  accept rfl (rrWord_of hop rfl rfl rfl rfl rfl (BitVec.eq_of_toNat_eq hfn))

theorem of_raaddD (hop : opOf w = 0x95#8) (hfn : (fnOf w).toNat = 1) :
    Faithful w (pick (dOf w = 0#6) true (.raaddD (aOf w) (bOf w) (waOf w) (wbOf w))) :=
  of_pick fun h1 _ => ⟨rfl, rrWord_of hop (of_decide_eq_true h1) rfl rfl rfl rfl (BitVec.eq_of_toNat_eq hfn)⟩

theorem of_ldat (hop : opOf w = 0x98#8) :
    Faithful w (pick (fnOf w = 0#4 && (dOf w).toNat % 2 = 0) true (.ldat (dOf w) (aOf w) (bOf w) (waOf w) (wbOf w))) :=
  of_pick fun h1 _ => by
    rw [Bool.and_eq_true] at h1
    exact ⟨h1.2, rrWord_of hop rfl rfl rfl rfl rfl (of_decide_eq_true h1.1)⟩

theorem of_time (hop : opOf w = 0x99#8) :
    Faithful w (pick (aOf w = 0#6 && bOf w = 0#6 && fnOf w = 0#4 && (dOf w).toNat % 2 = 0) (kOk (dOf w) && !waOf w && !wbOf w)
      (.time (kNum (dOf w)))) :=
  of_pick fun h1 h2 => by
    simp only [Bool.and_eq_true, decide_eq_true_eq, Bool.not_eq_true'] at h1 h2
    obtain ⟨⟨⟨ha, hb⟩, hfn⟩, heven⟩ := h1
    obtain ⟨⟨hd, hwa⟩, hwb⟩ := h2
    constructor
    · have e : (kNum (dOf w)).toNat % 2 = (dOf w).toNat % 2 := by
        rw [kNum, BitVec.toNat_setWidth]
        omega
      exact decide_eq_true (e.trans heven)
    · exact rrWord_of hop (kField_kNum hd).symm ha hb hwa hwb hfn

theorem of_mma (hop : opOf w = 0xA0#8) :
    Faithful w (pickOpt (BlockLen.ofCode (w.extractLsb' 1 2 : BitVec 2).toNat) (lowOk (dOf w) && (aOf w).toNat ≤ 55)
      (kOk (bOf w) && !wbOf w)
      (fun l => .mma (lowNum (dOf w)) (aOf w) (kNum (bOf w)) (waOf w) (w.getLsbD 3) l (w.getLsbD 0))) :=
  of_pickOpt fun l hl h1 h2 => by
    rw [Bool.and_eq_true] at h1
    simp only [Bool.and_eq_true, Bool.not_eq_true'] at h2
    refine ⟨h1.2, rrWord_of hop (lowField_lowNum h1.1).symm rfl (kField_kNum h2.1).symm rfl h2.2 ?_⟩
    rw [BlockLen.code_ofCode2 hl, bit_slice, bit_slice]
    exact ((congrArg _ (slice_join w 0 1 2)).trans (slice_join w 0 3 1)).symm

theorem of_mclr (hop : opOf w = 0xA1#8) :
    Faithful w (pick (lowOk (dOf w) && aOf w = 0#6 && bOf w = 0#6 && fnOf w = 0#4) (!waOf w && !wbOf w) (.mclr (lowNum (dOf w)))) :=
  of_pick fun h1 h2 => by
    simp only [Bool.and_eq_true, decide_eq_true_eq, Bool.not_eq_true'] at h1 h2
    obtain ⟨⟨⟨hd, ha⟩, hb⟩, hfn⟩ := h1
    exact ⟨rfl, rrWord_of hop (lowField_lowNum hd).symm ha hb h2.1 h2.2 hfn⟩

theorem of_mst (hop : opOf w = 0xA2#8) :
    Faithful w (pick (lowOk (dOf w) && bOf w = 0#6 && fnOf w = 0#4) (kOk (aOf w) && !waOf w && !wbOf w)
      (.mst (lowNum (dOf w)) (kNum (aOf w)))) :=
  of_pick fun h1 h2 => by
    simp only [Bool.and_eq_true, decide_eq_true_eq, Bool.not_eq_true'] at h1 h2
    obtain ⟨⟨hd, hb⟩, hfn⟩ := h1
    exact ⟨rfl, rrWord_of hop (lowField_lowNum hd).symm (kField_kNum h2.1.1).symm hb h2.1.2 h2.2 hfn⟩

theorem of_mrd (hop : opOf w = 0xA3#8) :
    Faithful w (pick (lowOk (aOf w) && fnOf w = 0#4) (kOk (bOf w) && !waOf w && !wbOf w)
      (.mrd (dOf w) (lowNum (aOf w)) (kNum (bOf w)))) :=
  of_pick fun h1 h2 => by
    simp only [Bool.and_eq_true, decide_eq_true_eq, Bool.not_eq_true'] at h1 h2
    exact ⟨rfl, rrWord_of hop rfl (lowField_lowNum h1.1).symm (kField_kNum h2.1.1).symm h2.1.2 h2.2 h1.2⟩

theorem of_mstat (hop : opOf w = 0xA7#8) :
    Faithful w (pick (lowOk (aOf w) && bOf w = 0#6 && fnOf w = 0#4) (kOk (dOf w) && !waOf w && !wbOf w)
      (.mstat (kNum (dOf w)) (lowNum (aOf w)))) :=
  of_pick fun h1 h2 => by
    simp only [Bool.and_eq_true, decide_eq_true_eq, Bool.not_eq_true'] at h1 h2
    obtain ⟨⟨ha, hb⟩, hfn⟩ := h1
    exact ⟨rfl, rrWord_of hop (kField_kNum h2.1.1).symm (lowField_lowNum ha).symm hb h2.1.2 h2.2 hfn⟩

/-! ### The families, opcode by opcode -/

theorem decodeControl_faithful (w : Half) : Faithful w (decodeControl w) := by
  unfold decodeControl
  split
  next h => exact of_plain (op_of h) ⟨rfl, rfl⟩
  next h => exact of_plain (op_of h) ⟨rfl, rfl⟩
  next h => exact of_offset (op_of h) fun _ => ⟨rfl, rfl⟩
  next h => exact accept rfl (brWord_of (op_of h) rfl rfl rfl)
  next h => exact of_offset (op_of h) fun _ => ⟨rfl, rfl⟩
  next h => exact of_va (op_of h) fun _ _ => ⟨rfl, rfl⟩
  next h => exact of_offset (op_of h) fun _ => ⟨rfl, rfl⟩
  next h => exact of_va (op_of h) fun _ _ => ⟨rfl, rfl⟩
  next h => exact of_plain (op_of h) ⟨rfl, rfl⟩
  next h => exact of_va (op_of h) fun _ _ => ⟨rfl, rfl⟩
  next h => exact of_loop (op_of h)
  next h => exact of_plain (op_of h) ⟨rfl, rfl⟩
  next h => exact of_regang (op_of h)
  next h => exact of_kbr (op_of h)
  next h => exact accept rfl (xsWord_of (op_of h) rfl)
  next h => exact of_ka (op_of h) fun _ => ⟨rfl, rfl⟩
  next h => exact of_kab (op_of h) fun _ _ => ⟨rfl, rfl⟩
  next h => exact of_getmode (op_of h)
  next h => exact of_csrr (op_of h)
  next h => exact of_csrw (op_of h)
  next h => exact accept rfl (xsWord_of (op_of h) rfl)
  next h => exact of_pick fun h1 _ => ⟨h1, xsWord_of (op_of h) rfl⟩
  next h => exact of_pick fun h1 _ => ⟨rfl, ivWord_of (op_of h) (by simpa using h1)⟩
  · exact refuse

theorem decodeGeneric_faithful (w : Half) : Faithful w (decodeGeneric w) := by
  unfold decodeGeneric
  split
  next h => exact of_vvv (op_of h) fun _ _ _ _ _ => ⟨rfl, rfl⟩
  next h => exact of_vvv (op_of h) fun _ _ _ _ _ => ⟨rfl, rfl⟩
  next h => exact of_vvv (op_of h) fun _ _ _ _ _ => ⟨rfl, rfl⟩
  next h => exact of_vvv (op_of h) fun _ _ _ _ _ => ⟨rfl, rfl⟩
  next h => exact of_vvv (op_of h) fun _ _ _ _ _ => ⟨rfl, rfl⟩
  next h => exact of_vvv (op_of h) fun _ _ _ _ _ => ⟨rfl, rfl⟩
  next h => exact of_vvv (op_of h) fun _ _ _ _ _ => ⟨rfl, rfl⟩
  next h => exact of_vvv (op_of h) fun _ _ _ _ _ => ⟨rfl, rfl⟩
  next h => exact of_vv (op_of h) fun _ _ _ => ⟨rfl, rfl⟩
  next h => exact of_vv (op_of h) fun _ _ _ => ⟨rfl, rfl⟩
  next h => exact of_vvv (op_of h) fun _ _ _ _ _ => ⟨rfl, rfl⟩
  next h => exact of_vvv (op_of h) fun _ _ _ _ _ => ⟨rfl, rfl⟩
  next h => exact of_vvv (op_of h) fun _ _ _ _ _ => ⟨rfl, rfl⟩
  next h => exact of_vvv (op_of h) fun _ _ _ _ _ => ⟨rfl, rfl⟩
  next h => exact of_vvv (op_of h) fun _ _ _ _ _ => ⟨rfl, rfl⟩
  next h => exact of_vvv (op_of h) fun _ _ _ _ _ => ⟨rfl, rfl⟩
  next h => exact of_vvv (op_of h) fun _ _ _ _ _ => ⟨rfl, rfl⟩
  next h => exact of_vvFn (op_of h) (fun _ hx => BitsOp.code_ofCode hx) fun _ _ _ _ => ⟨rfl, rfl⟩
  next h => exact of_vvv (op_of h) fun _ _ _ _ _ => ⟨rfl, rfl⟩
  next h => exact of_vvv (op_of h) fun _ _ _ _ _ => ⟨rfl, rfl⟩
  next h => exact of_vvv (op_of h) fun _ _ _ _ _ => ⟨rfl, rfl⟩
  next h => exact of_vvv (op_of h) fun _ _ _ _ _ => ⟨rfl, rfl⟩
  next h => exact of_vv (op_of h) fun _ _ _ => ⟨rfl, rfl⟩
  next h => exact of_sel (op_of h)
  next h => exact of_cmp (op_of h)
  next h => exact of_plop (op_of h)
  next h => exact of_vvv (op_of h) fun _ _ _ _ _ => ⟨rfl, rfl⟩
  next h => exact of_vv (op_of h) fun _ _ _ => ⟨rfl, rfl⟩
  · exact refuse

theorem decodeImmediate_faithful (w : Half) : Faithful w (decodeImmediate w) := by
  unfold decodeImmediate
  split
  next h => exact of_vvi (op_of h) fun _ _ _ => ⟨rfl, rfl⟩
  next h => exact of_vvi (op_of h) fun _ _ _ => ⟨rfl, rfl⟩
  next h => exact of_vvi (op_of h) fun _ _ _ => ⟨rfl, rfl⟩
  next h => exact of_vvi (op_of h) fun _ _ _ => ⟨rfl, rfl⟩
  next h => exact of_vvi (op_of h) fun _ _ _ => ⟨rfl, rfl⟩
  next h => exact of_count (op_of h) fun _ _ _ => ⟨rfl, rfl⟩
  next h => exact of_count (op_of h) fun _ _ _ => ⟨rfl, rfl⟩
  next h => exact of_cmpi (op_of h)
  next h => exact accept rfl (rkWord_of (op_of h) rfl rfl)
  next h => exact accept rfl (rkWord_of (op_of h) rfl rfl)
  next h => exact of_vvi (op_of h) fun _ _ _ => ⟨rfl, rfl⟩
  next h => exact of_vvi (op_of h) fun _ _ _ => ⟨rfl, rfl⟩
  next h => exact of_vv (op_of h) fun _ _ _ => ⟨rfl, rfl⟩
  next h => exact of_vv (op_of h) fun _ _ _ => ⟨rfl, rfl⟩
  next h => exact of_vv (op_of h) fun _ _ _ => ⟨rfl, rfl⟩
  next h => exact of_vv (op_of h) fun _ _ _ => ⟨rfl, rfl⟩
  next h => exact of_vv (op_of h) fun _ _ _ => ⟨rfl, rfl⟩
  next h => exact of_vv (op_of h) fun _ _ _ => ⟨rfl, rfl⟩
  next h => exact of_vv (op_of h) fun _ _ _ => ⟨rfl, rfl⟩
  next h => exact of_vv (op_of h) fun _ _ _ => ⟨rfl, rfl⟩
  next h => exact of_vvFn (op_of h) (fun _ hx => ElemType.code_ofCode hx) fun _ _ _ _ => ⟨rfl, rfl⟩
  next h => exact of_part (op_of h) fun _ _ _ _ _ => ⟨rfl, rfl⟩
  next h => exact of_part (op_of h) fun _ _ _ _ _ => ⟨rfl, rfl⟩
  next h => exact of_qnt (op_of h)
  next h => exact of_vvFn (op_of h) (fun _ hx => RndMode.code_ofCode hx) fun _ _ _ _ => ⟨rfl, rfl⟩
  next h => exact of_vv (op_of h) fun _ _ _ => ⟨rfl, rfl⟩
  next h => exact of_vvv (op_of h) fun _ _ _ _ _ => ⟨rfl, rfl⟩
  · exact refuse

theorem decodeCross_faithful (w : Half) : Faithful w (decodeCross w) := by
  unfold decodeCross
  split
  next h => exact accept rfl (rrWord_of (op_of h) rfl rfl rfl rfl rfl rfl)
  next h => exact of_bcst (op_of h)
  next h => exact of_reduce (op_of h)
  next h => exact of_scan (op_of h)
  next h =>
    split
    next hn => exact of_ballot (op_of h) hn
    next hn => exact of_vote (op_of h) hn fun _ _ _ => ⟨rfl, rfl⟩
    next hn => exact of_vote (op_of h) hn fun _ _ _ => ⟨rfl, rfl⟩
    · exact refuse
  next h => exact of_vvv (op_of h) fun _ _ _ _ _ => ⟨rfl, rfl⟩
  next h => exact of_lanek (op_of h)
  next h => exact of_kbcast (op_of h)
  next h => exact of_kkk (op_of h) fun _ _ _ => ⟨rfl, rfl⟩
  next h => exact of_kkk (op_of h) fun _ _ _ => ⟨rfl, rfl⟩
  next h => exact of_kkk (op_of h) fun _ _ _ => ⟨rfl, rfl⟩
  next h => exact of_kkk (op_of h) fun _ _ _ => ⟨rfl, rfl⟩
  next h => exact of_kkk (op_of h) fun _ _ _ => ⟨rfl, rfl⟩
  next h => exact of_kkk (op_of h) fun _ _ _ => ⟨rfl, rfl⟩
  next h => exact of_kkk (op_of h) fun _ _ _ => ⟨rfl, rfl⟩
  next h => exact of_kkkF (op_of h) fun _ _ _ _ => ⟨rfl, rfl⟩
  · exact refuse

theorem decodeScratch_faithful (w : Half) : Faithful w (decodeScratch w) := by
  unfold decodeScratch
  split
  next h => exact of_kki (op_of h) fun _ _ _ => ⟨rfl, rfl⟩
  next h => exact of_ki (op_of h) fun _ _ => ⟨rfl, rfl⟩
  next h => exact of_ki (op_of h) fun _ _ => ⟨rfl, rfl⟩
  next h => exact of_kkkF (op_of h) fun _ _ _ _ => ⟨rfl, rfl⟩
  next h => exact of_kkkF (op_of h) fun _ _ _ _ => ⟨rfl, rfl⟩
  next h => exact of_ksel (op_of h)
  next h => exact of_qpush (op_of h)
  next h => exact of_ld (op_of h)
  next h => exact of_st (op_of h)
  next h => exact of_vvi (op_of h) fun _ _ _ => ⟨rfl, rfl⟩
  next h => exact of_vvi (op_of h) fun _ _ _ => ⟨rfl, rfl⟩
  next h => exact of_atom (op_of h)
  next h => exact of_vvv (op_of h) fun _ _ _ _ _ => ⟨rfl, rfl⟩
  next h => exact of_kki (op_of h) fun _ _ _ => ⟨rfl, rfl⟩
  next h => exact of_kki (op_of h) fun _ _ _ => ⟨rfl, rfl⟩
  · exact refuse

theorem decodeSync_faithful (w : Half) : Faithful w (decodeSync w) := by
  unfold decodeSync
  split
  next h =>
    split
    next hfn => exact of_tlook (op_of h) hfn
    next hfn => exact of_tlookK (op_of h) hfn
    · exact refuse
  next h => exact of_vvv (op_of h) fun _ _ _ _ _ => ⟨rfl, rfl⟩
  next h => exact of_va (op_of h) fun _ _ => ⟨rfl, rfl⟩
  next h => exact of_kab (op_of h) fun _ _ => ⟨rfl, rfl⟩
  next h => exact of_scope (op_of h) fun _ _ _ => ⟨rfl, rfl⟩
  next h => exact of_scope (op_of h) fun _ _ _ => ⟨rfl, rfl⟩
  next h => exact of_waitc (op_of h)
  next h => exact of_barrier (op_of h) fun _ => ⟨rfl, rfl⟩
  next h => exact of_barrier (op_of h) fun _ => ⟨rfl, rfl⟩
  next h => exact of_barrier (op_of h) fun _ => ⟨rfl, rfl⟩
  next h => exact of_plain (op_of h) ⟨rfl, rfl⟩
  next h => exact of_ka (op_of h) fun _ => ⟨rfl, rfl⟩
  next h => exact of_plain (op_of h) ⟨rfl, rfl⟩
  · exact refuse

theorem decodeEngine_faithful (w : Half) : Faithful w (decodeEngine w) := by
  unfold decodeEngine
  split
  next h => exact of_ka (op_of h) fun _ => ⟨rfl, rfl⟩
  next h => exact of_ka (op_of h) fun _ => ⟨rfl, rfl⟩
  next h => exact of_kda (op_of h) fun _ _ => ⟨rfl, rfl⟩
  next h => exact of_vv (op_of h) fun _ _ _ => ⟨rfl, rfl⟩
  next h => exact of_rst (op_of h)
  next h =>
    split
    next hfn => exact of_raadd (op_of h) hfn
    next hfn => exact of_raaddD (op_of h) hfn
    · exact refuse
  next h => exact of_vvv (op_of h) fun _ _ _ _ _ => ⟨rfl, rfl⟩
  next h => exact of_vvv (op_of h) fun _ _ _ _ _ => ⟨rfl, rfl⟩
  next h => exact of_ldat (op_of h)
  next h => exact of_time (op_of h)
  · exact refuse

theorem decodeMatrix_faithful (w : Half) : Faithful w (decodeMatrix w) := by
  unfold decodeMatrix
  split
  next h => exact of_mma (op_of h)
  next h => exact of_mclr (op_of h)
  next h => exact of_mst (op_of h)
  next h => exact of_mrd (op_of h)
  next h => exact of_kda (op_of h) fun _ _ => ⟨rfl, rfl⟩
  next h => exact of_ka (op_of h) fun _ => ⟨rfl, rfl⟩
  next h => exact of_kab (op_of h) fun _ _ => ⟨rfl, rfl⟩
  next h => exact of_mstat (op_of h)
  · exact refuse
theorem decode_faithful (w : Half) : Faithful w (decode w) := by
  unfold decode
  split
  · exact decodeControl_faithful w
  · exact decodeControl_faithful w
  · exact decodeGeneric_faithful w
  · exact decodeGeneric_faithful w
  · exact decodeImmediate_faithful w
  · exact decodeImmediate_faithful w
  · exact decodeCross_faithful w
  · exact decodeScratch_faithful w
  · exact decodeSync_faithful w
  · exact decodeEngine_faithful w
  · exact decodeMatrix_faithful w
  · exact refuse

end Sys2Proof.Faithful

namespace Sys2Proof.Machine

open Sys2Proof Sys2Proof.Safety

/-- Settles O3, family by family: each step of the decoder checks every bit that it does not read into an operand. -/
theorem encodeDecode : Obligations.EncodeDecode := Faithful.decode_faithful

end Sys2Proof.Machine
end

section
namespace Sys2Proof

/-! ### Opcodes that no family holds -/

section
variable {w : Half} {n : Nat}

/-- The high half of the opcode, which selects the family. -/
theorem family_of_op (w : Half) : (w.extractLsb' 28 4 : BitVec 4).toNat = (opOf w).toNat / 16 := by
  have e : (w.extractLsb' 28 4 : BitVec 4) = (opOf w).extractLsb' 4 4 := by
    apply BitVec.eq_of_getLsbD_eq
    intro i hi
    simp [opOf, hi, ← Nat.add_assoc, show 4 + i < 8 by omega]
  rw [e, BitVec.extractLsb'_toNat, Nat.shiftRight_eq_div_pow]
  have := (opOf w).isLt
  omega

theorem decodeControl_unallocated (h : (opOf w).toNat = n) (hn : n = 0 ∨ 0x18 ≤ n) : decodeControl w = .error .unallocated := by
  unfold decodeControl
  split
  case h_24 => rfl
  all_goals omega

theorem decodeGeneric_unallocated (h : (opOf w).toNat = n) (hn : 0x3C ≤ n) : decodeGeneric w = .error .unallocated := by
  unfold decodeGeneric
  split
  case h_29 => rfl
  all_goals omega

theorem decodeImmediate_unallocated (h : (opOf w).toNat = n) (hn : (0x4C ≤ n ∧ n ≤ 0x4F) ∨ n = 0x5F) :
    decodeImmediate w = .error .unallocated := by
  unfold decodeImmediate
  split
  case h_28 => rfl
  all_goals omega

theorem decodeScratch_unallocated (h : (opOf w).toNat = n) (hn : n = 0x77) : decodeScratch w = .error .unallocated := by
  unfold decodeScratch
  split
  case h_16 => rfl
  all_goals omega

theorem decodeSync_unallocated (h : (opOf w).toNat = n) (hn : n = 0x83 ∨ 0x8E ≤ n) : decodeSync w = .error .unallocated := by
  unfold decodeSync
  split
  case h_14 => rfl
  all_goals omega

theorem decodeEngine_unallocated (h : (opOf w).toNat = n) (hn : 0x9A ≤ n) : decodeEngine w = .error .unallocated := by
  unfold decodeEngine
  split
  case h_11 => rfl
  all_goals omega

theorem decodeMatrix_unallocated (h : (opOf w).toNat = n) (hn : 0xA8 ≤ n) : decodeMatrix w = .error .unallocated := by
  unfold decodeMatrix
  split
  case h_9 => rfl
  all_goals omega

/-- R85: the opcode of a word of no family, or of none of its family's words. -/
theorem decode_unallocated (h : (opOf w).toNat = n)
    (hn : n = 0 ∨ (0x18 ≤ n ∧ n ≤ 0x1F) ∨ (0x3C ≤ n ∧ n ≤ 0x3F) ∨ (0x4C ≤ n ∧ n ≤ 0x4F) ∨ n = 0x5F ∨ n = 0x77 ∨ n = 0x83 ∨
      n = 0x8E ∨ n = 0x8F ∨ (0x9A ≤ n ∧ n ≤ 0x9F) ∨ 0xA8 ≤ n) : decode w = .error .unallocated := by
  have hf := family_of_op w
  rw [h] at hf
  unfold decode
  split
  case h_1 | h_2 => exact decodeControl_unallocated h (by omega)
  case h_3 | h_4 => exact decodeGeneric_unallocated h (by omega)
  case h_5 | h_6 => exact decodeImmediate_unallocated h (by omega)
  case h_7 => omega
  case h_8 => exact decodeScratch_unallocated h (by omega)
  case h_9 => exact decodeSync_unallocated h (by omega)
  case h_10 => exact decodeEngine_unallocated h (by omega)
  case h_11 => exact decodeMatrix_unallocated h (by omega)
  case h_12 => rfl

end

end Sys2Proof

namespace Sys2Proof.Machine

open Sys2Proof Sys2Proof.Safety

/-! ### The trap of a word that is none -/

/-- The step of R63 that a refused word fails: an opcode that the issuer never executes fails the first. -/
theorem badWord_error {barred : Half → Bool} {w : Half} {e : DecodeErr} (h : decode w = .error e) :
    badWord barred (some w) = illegalAt w (if e = .operand ∧ barred w = false then 2 else 1) := by
  simp only [badWord, h]
  cases e <;> cases barred w <;> rfl

/-- A word that is none traps, where no comparator stops its unit first (R245). -/
theorem exec_illegal {w : Option Half} {s : State} {u : Issuer} (hu : s.issuer = some u) (hi : s.issuable u = true) :
    exec (.illegalInstructionWord w) s = .next
      ((if u.gang = 16 then none else comparatorStop (s.gang u.team u.gang) u.slices (pcAt s u) 0).elim
        (s.takeTrap u (badWord (s.barsOpcode u) w)) (fun st => stopUnit u st s)) := by
  simp only [exec_illegalInstructionWord, execIllegalInstructionWord, hu, hi, pcAt, Bool.not_true, Bool.false_eq_true, if_false]
  split <;> rename_i h <;> rw [h] <;> rfl

/-- Settles O4, family by family, and then by whether a comparator stops the unit first. -/
theorem illegalWords : Obligations.IllegalWords := by
  refine ⟨fun w h => decode_unallocated rfl h, fun s u hu hi => ⟨fun hg x w hc => ?_, fun hc => ?_⟩⟩
  · rw [exec_illegal hu hi, if_neg hg, hc]
    rfl
  · have none_first : (if u.gang = 16 then none else comparatorStop (s.gang u.team u.gang) u.slices (pcAt s u) 0) = none := by
      split
      · rfl
      next hg => exact hc hg
    refine ⟨fun w e he => ?_, ?_⟩
    · rw [exec_illegal hu hi, none_first, badWord_error he]
      rfl
    · rw [exec_illegal hu hi, none_first]
      rfl

end Sys2Proof.Machine
end

section
namespace Sys2Proof.Machine

open Sys2Proof Sys2Proof.Safety

/-! ### NOP -/

/-- Settles O17: NOP has no effect of its own, so what changes is what goes with every word. -/
theorem nopWord : Obligations.NopWord := by
  refine ⟨fun s u vals s1 popped h => ?_, fun s u h => side_completes h (body := fun _ s => .ok s) rfl (onlySide_refl s u)⟩
  obtain ⟨ho, hg⟩ := onlyGang_operands h.operands
  obtain ⟨t, ht, hO, hG⟩ := gang_completes (body := fun _ s => .ok s) h rfl ho
  rw [hg] at hG
  obtain ⟨hc, hp⟩ := controlOnly_passes_finish (f := { sidecar := true }) (popped := popped) rfl rfl
    (State.issuable_gang h.issuable h.isGang)
  exact ⟨t, ht, hO, hG ▸ hc, hG ▸ hp⟩

/-! ### BRA and KBR -/

/-- The conditions of KBR, as comparisons of numbers (R71). -/
theorem kbrHolds_iff (a b : Word) :
    (kbrHolds .eq a b = true ↔ a.toNat = b.toNat) ∧ (kbrHolds .ne a b = true ↔ a.toNat ≠ b.toNat) ∧
    (kbrHolds .lt a b = true ↔ a.toInt < b.toInt) ∧ (kbrHolds .ge a b = true ↔ b.toInt ≤ a.toInt) ∧
    (kbrHolds .ltu a b = true ↔ a.toNat < b.toNat) ∧ (kbrHolds .geu a b = true ↔ b.toNat ≤ a.toNat) ∧
    kbrHolds .always a b = true := by
  simp [kbrHolds, BitVec.slt, BitVec.ult, BitVec.toNat_inj]

/-- A transfer of the whole unit to one target: it ends the levels that `ends` names, where that is legal (R240). -/
theorem direct_word {i : Instr} {f : Form} {body : Ctx → State → Except Stop State} {s s1 : State} {u : Issuer}
    {vals : List (List Word)} {popped : Bool} (h : GangIssues i f u s vals s1 popped) (hj : f.jumps = true) (hm : f.merges = false)
    (tgt : Addr) (ends : LoopLevel → Bool)
    (hb : body (ctxOf i u s vals) s1 =
      if (s.gang u.team u.gang).levels.any ends && !(s.gang u.team u.gang).mayLeave u.slices then .error (.trap convergence)
      else .ok (s1.modGang u.team u.gang (fun g => (g.closeLevels ends).goto u.slices tgt))) :
    let g := s.gang u.team u.gang
    (g.levels.any ends = true → g.mayLeave u.slices = true →
      ∃ t, issue i f body s = .next t ∧ OnlyGang s t u ∧ Transfers g (t.gang u.team u.gang) u.slices (fun _ x => { x with pc := tgt }) ends) ∧
    (g.levels.any ends = false →
      ∃ t, issue i f body s = .next t ∧ OnlyGang s t u ∧ Transfers g (t.gang u.team u.gang) u.slices (fun _ x => { x with pc := tgt }) ends) ∧
    (g.levels.any ends = true → g.mayLeave u.slices = false → issue i f body s = .next (s.takeTrap u { cause := .convergence })) := by
  refine ⟨fun ha hl => ?_, fun ha => ?_, fun ha hl => ?_⟩
  · rw [ha, hl] at hb
    exact transfer_word h hj hm _ ends hb
  · rw [ha] at hb
    exact transfer_word h hj hm _ ends hb
  · rw [ha, hl] at hb
    exact issue_stops h.toIssues hb

/-- Settles O19: BRA transfers to its target; KBR does where its condition holds, and else goes to the next word, which ends no
level. -/
theorem directTransfers : Obligations.DirectTransfers := by
  refine ⟨kbrHolds_iff, fun i f taken tgt s u vals s1 popped hw h => ?_⟩
  obtain ⟨off, rfl, rfl, rfl, rfl⟩ | ⟨ka, kb, cc, off, rfl, rfl, rfl, rfl⟩ := hw
  · refine direct_word h (body := fun c s => transfer c (off20Target c.pc off) s) rfl rfl _ _ ?_
    rw [ctxOf_gang h.isGang]
    rfl
  · have hk (k : KNum) : (ctxOf (.kbr ka kb cc off) u s vals).k k = (s.gang u.team u.gang).kreg k := by
      rw [ctx_k, kOf, if_neg h.isGang]
    refine direct_word h (body := fun c s => _) rfl rfl _ _ ?_
    dsimp only
    rw [hk, hk, ctx_u, if_neg h.isGang]
    cases kbrHolds cc ((s.gang u.team u.gang).kreg ka) ((s.gang u.team u.gang).kreg kb) with
    | true =>
      rw [ctxOf_gang h.isGang]
      rfl
    | false =>
      rw [ctxOf_gang h.isGang]
      have none_ends : (s.gang u.team u.gang).levels.any (fun _ => false) = false := by simp
      simp only [Bool.false_and, none_ends, Bool.false_eq_true, if_false, Gang.closeLevels_none]
      rfl

end Sys2Proof.Machine
end

section
namespace Sys2Proof.Machine

open Sys2Proof Sys2Proof.Safety

/-! ### What the machine does next -/

section
variable {s s' t : State} {u : Issuer} {i : Instr}

/-- A step is its instruction, and then settling. -/
theorem step_of_next (hn : s.next = some (i, s')) (he : exec i s' = .next t) : step s = .next t.settle := by
  simp only [step, hn, he]

theorem next_pair {v : Issuer} (hc : s.clocked = true) (hp : s.pair = some v) : s.next = some (s.nextPair v) := by
  simp only [State.next, hc, hp, if_true]

/-- Without an open pair, no pair is next. -/
theorem no_pair (hp : s.clocked = true → s.pair = none) : (if s.clocked then s.pair else none) = none := by
  split
  next hc => exact hp hc
  · rfl

theorem next_agenda {rest : List Instr} (hp : s.clocked = true → s.pair = none)
    (ha : takeAgenda (s.phase = .restarting) s.agenda = some (i, rest)) : s.next = some (i, { s with agenda := rest }) := by
  simp only [State.next, no_pair hp, ha]

theorem next_own (hp : s.clocked = true → s.pair = none) (ha : takeAgenda (s.phase = .restarting) s.agenda = none)
    (hph : s.phase = .running ∨ s.phase = .restarting) : s.next = some s.nextOwn := by
  unfold State.next
  rw [no_pair hp, ha]
  rcases hph with h | h <;> rw [h]

/-- The unit holds no word between two passes of an INV, and what it fetches decodes. -/
def FetchesWord (s : State) (u : Issuer) (i : Instr) : Prop :=
  ¬ (u.gang ≠ 16 ∧ ((s.gang u.team u.gang).runAt u.slices).isSome = true) ∧
    ∃ w, s.fetch (s.team u.team).part (s.unitPc u) = .word w ∧ decode w = .ok i

theorem fetched_of_word (h : FetchesWord s u i) : s.fetched u = some i := by
  obtain ⟨hr, w, hw, hd⟩ := h
  have no_run : (if u.gang = 16 then none else (s.gang u.team u.gang).runAt u.slices) = none := by
    split
    · rfl
    next hg => exact Option.not_isSome_iff_eq_none.mp fun h => hr ⟨hg, h⟩
  simp only [State.fetched, no_run, hw, State.fetched.wordStep, hd]

/-- A unit with no run takes note of the fetch. -/
theorem noteUnit_of_word (h : FetchesWord s u i) : s.noteUnit u = s.noteFetch (s.team u.team).part (s.unitPc u) := by
  unfold State.noteUnit
  rw [if_neg (by simpa using h.1)]

theorem issueNext_word (h : FetchesWord s u i) :
    s.issueNext u = (i, ({ s with issuer := some u } : State).noteFetch (s.team u.team).part (s.unitPc u)) := by
  have hu : FetchesWord ({ s with issuer := some u } : State) u i := h
  simp only [State.issueNext, fetched_of_word h, noteUnit_of_word hu]
  rfl

/-- On the turn of a word, the unit that the policy picks issues, with its partner where it has one. -/
theorem nextOwn_word {s1 : State} (hb : s.beat % 2 = 0) (hk : s.pickUnit = some (u, s1))
    (h : FetchesWord { s1 with beat := s1.beat + 1 } u i) :
    s.nextOwn = (({ s1 with beat := s1.beat + 1 } : State).pairUp u i).2.issueNext
      (({ s1 with beat := s1.beat + 1 } : State).pairUp u i).1 := by
  simp only [State.nextOwn, hb, ne_eq, not_true_eq_false, if_false, hk, fetched_of_word h]

theorem pairUp_alone (h : pairable i = false ∨ s.partner u = none) : s.pairUp u i = (u, s) := by
  have no_partner : (if pairable i then s.partner u else none) = none := by
    rcases h with h | h
    · rw [h]; rfl
    · rw [h]; exact ite_self _
  simp only [State.pairUp, no_partner]

/-- Of a pair the lower gang issues first, and the higher one is what is left of the pair. -/
theorem pairUp_partner {v : Issuer} (hi : pairable i = true) (hv : s.partner u = some v) :
    (s.pairUp u i).1 = (if u.gang < v.gang then u else v) ∧
      (s.pairUp u i).2.pair = some (if u.gang < v.gang then v else u) := by
  have partner : (if pairable i then s.partner u else none) = some v := by rw [hi, if_pos rfl, hv]
  simp only [State.pairUp, partner]
  split <;> exact ⟨rfl, rfl⟩

end

/-- The four bytes of a fetched word, lowest first (R41). -/
theorem wordOfBytes_memRead (m : List Host.Cell) (a : Nat) :
    wordOfBytes (memRead m a 4) = memGet m (a + 3) ++ (memGet m (a + 2) ++ (memGet m (a + 1) ++ memGet m a)) := rfl

/-- A fetch through a leaf that may be read and holds no shared page gives the word at the physical address (R235, R347). -/
theorem fetch_word {s : State} {p : Nat} {pc : Addr} {l : Leaf} (hw : s.walk p pc.toNat = .leaf l) (hg : l.grants true false = true)
    (hs : l.s = false) (hz : l.z = false) (hb : s.physBad (l.tier = .far) (l.phys pc.toNat) 4 = false) :
    s.fetch p pc = .word (wordOfBytes (s.physBytes (l.tier = .far) (l.phys pc.toNat) 4)) := by
  simp only [State.fetch, hw, hg, hs, hz, hb, Bool.not_true, Bool.or_false, Bool.false_eq_true, if_false]

/-- Settles O5, by the four cases of what is next: a unit alone or with a partner, the second of a pair, and the agenda. -/
theorem stepRunsDecodedWord : Obligations.StepRunsDecodedWord := by
  refine ⟨?_, ?_, fun s i rest t hp ha he => step_of_next (next_agenda hp ha) he, fun s p pc l hw hg hs hz hb => ?_⟩
  · intro s u s1 i t hp ha hph hb hk s2 hw
    have own := (next_own hp ha hph).trans (congrArg some (nextOwn_word hb hk hw))
    refine ⟨fun h he => ?_, ?_⟩
    · rw [pairUp_alone h, issueNext_word hw] at own
      exact step_of_next own he
    · intro v j hi hv first s3
      obtain ⟨hfirst, hpair⟩ := pairUp_partner (s := s2) hi hv
      refine ⟨hfirst, hpair, fun hj he => ?_⟩
      have issued := (congrArg (s2.pairUp u i).2.issueNext hfirst).trans (issueNext_word hj)
      exact step_of_next (own.trans (congrArg some issued)) he
  · intro s v j t hc hv on s2 hw he
    have turn : s.nextPair v = s2.issueNext { v with second := on } := by
      dsimp only [State.nextPair, s2, on]
      cases s.issuer <;> rfl
    exact step_of_next ((next_pair hc hv).trans (congrArg some (turn.trans (issueNext_word hw)))) he
  · rw [fetch_word hw hg hs hz hb, State.physBytes, wordOfBytes_memRead]
    simp only [decide_eq_true_eq]

end Sys2Proof.Machine
end

section
namespace Sys2Proof.Machine

open Sys2Proof Sys2Proof.Safety

/-! ### The fields of a block of bytes -/

theorem field_first (n v : Nat) (rest : List Byte) : field (leBytes n v ++ rest) 0 n = v % 256 ^ n := by
  rw [field, List.drop_zero, List.take_left' (leBytes_length n v), leNat_leBytes]

theorem field_only (n v : Nat) : field (leBytes n v) 0 n = v % 256 ^ n := by
  simpa using field_first n v []

theorem field_later {n off : Nat} (v m : Nat) (rest : List Byte) (h : n ≤ off) :
    field (leBytes n v ++ rest) off m = field rest (off - n) m := by
  rw [field, field, List.drop_append, List.drop_eq_nil_of_le (by simpa using h), List.nil_append, leBytes_length]

/-- The layout of a trap record (R367). -/
theorem trapBytes_fields (kind cause flags slices gang part core team grid : Nat) (pc : Addr) (lanes : Half) (lc : List Half)
    (prodpc detail : Word) (seq : Nat) :
    let bs := trapBytes kind cause flags slices gang part core team grid pc lanes lc prodpc detail seq
    bs.length = 64 ∧ field bs 0 1 = kind % 256 ∧ field bs 1 1 = cause % 256 ∧ field bs 2 1 = flags % 256 ∧
      field bs 3 1 = slices % 256 ∧ field bs 4 1 = gang % 256 ∧ field bs 5 1 = part % 256 ∧ field bs 6 2 = core % 65536 ∧
      field bs 8 4 = team % 2 ^ 32 ∧ field bs 12 4 = grid % 2 ^ 32 ∧ field bs 16 8 = pc.toNat ∧ field bs 24 4 = lanes.toNat ∧
      (∀ n, n < 3 → field bs (28 + 4 * n) 4 = (rowGet 0 lc n).toNat) ∧
      field bs 40 8 = prodpc.toNat ∧ field bs 48 8 = detail.toNat ∧ field bs 56 8 = seq % 2 ^ 64 := by
  have word (x : Word) : x.toNat < 18446744073709551616 := x.isLt
  have half (x : Half) : x.toNat < 4294967296 := x.isLt
  have loop (n : Nat) (hn : n < 3) : n = 0 ∨ n = 1 ∨ n = 2 := by omega
  unfold trapBytes
  simp only [List.append_assoc]
  refine ⟨by simp, ?_, ?_, ?_, ?_, ?_, ?_, ?_, ?_, ?_, ?_, ?_, fun n hn => ?_, ?_, ?_, ?_⟩
  case refine_12 =>
    rcases loop n hn with rfl | rfl | rfl <;> simp [field_later, field_first, half]
  all_goals simp [field_later, field_first, field_only, word, half]


/-! ### A record made -/

/-- A record of the partition goes into its ring at once: none is held, and the ring is set and not full (R366). -/
def State.trapRoom (s : State) (p : Nat) : Bool :=
  (s.part p).held.isEmpty && (s.part p).trap.set && !ringFull s.kmem (s.part p).trap

theorem State.trapHeld_eq (s : State) (p : Nat) : s.trapHeld p = if s.trapRoom p then none else some (s.part p).trapSeq := rfl

/-- A record made changes kernel memory, its partition and the notices. -/
theorem State.pushTrap_rest (s : State) (p : Nat) (mk : Nat → List Byte) :
    s.pushTrap p mk = { s with kmem := (s.pushTrap p mk).kmem, parts := (s.pushTrap p mk).parts,
                               notices := s.notices ++ [.trapped p (s.part p).trapSeq] } := by
  unfold State.pushTrap
  dsimp only
  split <;> rfl

theorem State.kmem_pushTrap (s : State) (p : Nat) (mk : Nat → List Byte) :
    (s.pushTrap p mk).kmem = if s.trapRoom p then ringPush s.kmem (s.part p).trap (mk (s.part p).trapSeq) else s.kmem := by
  unfold State.pushTrap State.trapRoom
  dsimp only [State.notify]
  split <;> rfl

theorem State.part_pushTrap_same (s : State) (p : Nat) (mk : Nat → List Byte) :
    (s.pushTrap p mk).part p = { s.part p with
      trapSeq := (s.part p).trapSeq + 1
      held := if s.trapRoom p then (s.part p).held else (s.part p).held ++ [⟨(s.part p).trapSeq, mk (s.part p).trapSeq⟩] } := by
  unfold State.pushTrap State.trapRoom
  dsimp only [State.notify]
  split <;> exact State.part_modPart_same _ _ _

theorem State.part_pushTrap_other (s : State) {p q : Nat} (mk : Nat → List Byte) (h : q ≠ p) : (s.pushTrap p mk).part q = s.part q := by
  unfold State.pushTrap
  dsimp only [State.notify]
  split <;> exact State.part_modPart_other _ _ h.symm

@[simp] theorem State.team_pushTrap (s : State) (p : Nat) (mk : Nat → List Byte) (v : Nat) : (s.pushTrap p mk).team v = s.team v := by
  rw [State.pushTrap_rest]
  rfl

/-! ### A trap taken -/

/-- The record of a trap, but for its SEQ (R367). -/
def trapRecord (s : State) (u : Issuer) (x : TrapInfo) : Nat → List Byte :=
  let tm := s.team u.team
  let g := tm.gang u.gang
  if u.gang = 16 then
    trapBytes 0 x.cause.code (trapFlags true x.inv false false x.cmp) 0 16 tm.part tm.core tm.num tm.grid tm.side.pc 0 [] x.prodpc x.detail
  else
    trapBytes 0 x.cause.code (trapFlags false x.inv g.instar.body.isSome g.instar.rewindable x.cmp) (x.slices.getD u.slices).toNat u.gang
      tm.part tm.core tm.num tm.grid (g.pcOf u.slices) (x.lanes.getD (g.activeOf u.slices)) g.lc x.prodpc x.detail

/-- The sidecar stopped. -/
def Sidecar.stop (x : Sidecar) (held : Option Nat) : Sidecar := { x with stopped := true, wait := none, held := held }

/-- Slices of a gang stopped at their words. -/
def Gang.stop (g : Gang) (m : BitVec 8) (held : Option Nat) : Gang :=
  { g.modSlices m (fun _ y => { y with stopped := true, stopPc := some y.pc, wait := none, held := held }) with
    skipCmp := g.skipCmp &&& ~~~ m
    searches := g.searches.filter (fun r => r.slices &&& m = 0#8) }

theorem takeTrap_side {s : State} {u : Issuer} (x : TrapInfo) (h : u.gang = 16) :
    s.takeTrap u x = (s.pushTrap (s.team u.team).part (trapRecord s u x)).modTeam u.team
      (fun t => { t with side := t.side.stop (s.trapHeld (s.team u.team).part) }) := by
  unfold State.takeTrap trapRecord
  rw [if_pos h, if_pos h]
  rfl

theorem takeTrap_gang {s : State} {u : Issuer} (x : TrapInfo) (h : u.gang ≠ 16) :
    s.takeTrap u x = ((s.pushTrap (s.team u.team).part (trapRecord s u x)).modTeam u.team
        (fun t => t.unblock u.gang ((s.gang u.team u.gang).slice (lowSlice u.slices)).sub)).modGang u.team u.gang
      (fun g => g.stop (x.slices.getD u.slices) (s.trapHeld (s.team u.team).part)) := by
  unfold State.takeTrap trapRecord
  rw [if_neg h, if_neg h]
  rfl

/-- Beside the record made, a trap changes teams alone. -/
theorem takeTrap_push (s : State) (u : Issuer) (x : TrapInfo) :
    s.takeTrap u x = { s.pushTrap (s.team u.team).part (trapRecord s u x) with teams := (s.takeTrap u x).teams } := by
  by_cases h : u.gang = 16
  · rw [takeTrap_side x h]
    rfl
  · rw [takeTrap_gang x h]
    rfl

/-- No other team changes. -/
theorem team_takeTrap_other {s : State} {u : Issuer} (x : TrapInfo) {v : Nat} (hv : v ≠ u.team) : (s.takeTrap u x).team v = s.team v := by
  by_cases h : u.gang = 16
  · rw [takeTrap_side x h, State.team_modTeam_other _ _ hv.symm, State.team_pushTrap]
  · rw [takeTrap_gang x h]
    exact (State.team_modTeam_other _ _ hv.symm).trans ((State.team_modTeam_other _ _ hv.symm).trans (State.team_pushTrap _ _ _ _))

/-- The team of a sidecar that has trapped. -/
theorem team_takeTrap_side {s : State} {u : Issuer} (x : TrapInfo) (h : u.gang = 16) :
    (s.takeTrap u x).team u.team =
      { s.team u.team with side := (s.team u.team).side.stop (s.trapHeld (s.team u.team).part) } := by
  rw [takeTrap_side x h, State.team_modTeam_same, State.team_pushTrap]

/-- The team of a gang that has trapped. -/
theorem team_takeTrap_gang {s : State} {u : Issuer} (x : TrapInfo) (h : u.gang ≠ 16) :
    (s.takeTrap u x).team u.team =
      ((s.team u.team).unblock u.gang ((s.gang u.team u.gang).slice (lowSlice u.slices)).sub).modGang u.gang
        (fun g => g.stop (x.slices.getD u.slices) (s.trapHeld (s.team u.team).part)) := by
  rw [takeTrap_gang x h]
  refine (State.team_modTeam_same _ _ _).trans ?_
  rw [State.team_modTeam_same, State.team_pushTrap]

/-- FLAGS fit a byte. -/
theorem trapFlags_mod (a b c d e : Bool) : trapFlags a b c d e % 256 =
    (if a then 1 else 0) + (if b then 2 else 0) + (if c then 4 else 0) + (if d then 8 else 0) + (if e then 16 else 0) := by
  revert a b c d e
  decide

/-- The code of a cause fits a byte. -/
theorem Cause.code_mod (c : Cause) : c.code % 256 = c.code := by cases c <;> rfl

/-- The fields of the record of a trap (R367). -/
theorem trapRecord_fields (s : State) (u : Issuer) (x : TrapInfo) (seq : Nat) :
    let tm := s.team u.team
    let g := tm.gang u.gang
    let bs := trapRecord s u x seq
    bs.length = 64 ∧ field bs 0 1 = 0 ∧ field bs 1 1 = x.cause.code ∧
      field bs 2 1 = (if u.gang = 16 then 1 else 0) + (if x.inv then 2 else 0) + (if u.gang ≠ 16 ∧ g.instar.body.isSome then 4 else 0) +
        (if u.gang ≠ 16 ∧ g.instar.rewindable then 8 else 0) + (if x.cmp then 16 else 0) ∧
      field bs 3 1 = (if u.gang = 16 then 0#8 else x.slices.getD u.slices).toNat ∧ field bs 4 1 = u.gang % 256 ∧
      field bs 5 1 = tm.part % 256 ∧ field bs 6 2 = tm.core % 65536 ∧ field bs 8 4 = tm.num % 2 ^ 32 ∧
      field bs 12 4 = tm.grid % 2 ^ 32 ∧ field bs 16 8 = (if u.gang = 16 then tm.side.pc else g.pcOf u.slices).toNat ∧
      field bs 24 4 = (if u.gang = 16 then 0#32 else x.lanes.getD (g.activeOf u.slices)).toNat ∧
      (∀ n, n < 3 → field bs (28 + 4 * n) 4 = if u.gang = 16 then 0 else (g.lcount n).toNat) ∧
      field bs 40 8 = x.prodpc.toNat ∧ field bs 48 8 = x.detail.toNat ∧ field bs 56 8 = seq % 2 ^ 64 := by
  intro tm g bs
  by_cases h : u.gang = 16
  · have hb : bs = trapBytes 0 x.cause.code (trapFlags true x.inv false false x.cmp) 0 16 tm.part tm.core tm.num tm.grid tm.side.pc 0 []
        x.prodpc x.detail seq := by
      simp only [bs, trapRecord, if_pos h]
      rfl
    rw [hb]
    have no_counter (n : Nat) : rowGet 0#32 [] n = 0#32 := rowGet_beyond _ _ _ (Nat.zero_le n)
    simpa [h, trapFlags_mod, Cause.code_mod, no_counter] using trapBytes_fields 0 x.cause.code (trapFlags true x.inv false false x.cmp) 0 16 tm.part
      tm.core tm.num tm.grid tm.side.pc 0 [] x.prodpc x.detail seq
  · have hb : bs = trapBytes 0 x.cause.code (trapFlags false x.inv g.instar.body.isSome g.instar.rewindable x.cmp)
        (x.slices.getD u.slices).toNat u.gang tm.part tm.core tm.num tm.grid (g.pcOf u.slices) (x.lanes.getD (g.activeOf u.slices)) g.lc
        x.prodpc x.detail seq := by
      simp only [bs, trapRecord, if_neg h]
      rfl
    rw [hb]
    have fits : (x.slices.getD u.slices).toNat % 256 = (x.slices.getD u.slices).toNat := Nat.mod_eq_of_lt (BitVec.isLt _)
    simpa [h, trapFlags_mod, Cause.code_mod, fits, Gang.lcount] using trapBytes_fields 0 x.cause.code
      (trapFlags false x.inv g.instar.body.isSome g.instar.rewindable x.cmp)
      (x.slices.getD u.slices).toNat u.gang tm.part tm.core tm.num tm.grid (g.pcOf u.slices) (x.lanes.getD (g.activeOf u.slices)) g.lc
      x.prodpc x.detail seq

/-- Settles O33: the two words stop with their traps; a trap makes its record, and stops the sidecar or the slices. -/
theorem trapTaken : Obligations.TrapTaken := by
  refine ⟨?_, ?_⟩
  · intro i cause code s u vals s1 popped hi h
    have stops (x : TrapInfo) : issue i {} (fun _ _ => .error (.trap x)) s = .next (s.takeTrap u x) :=
      issue_stops (st := .trap x) h.toIssues rfl
    rcases hi with ⟨rfl, rfl⟩ | ⟨rfl, rfl⟩ <;> exact stops _
  · intro s u x tm pt g t room held slices lanes
    have push : t = { s.pushTrap tm.part (trapRecord s u x) with teams := t.teams } := takeTrap_push s u x
    have part (q : Nat) : t.part q = (s.pushTrap tm.part (trapRecord s u x)).part q := by rw [push]; rfl
    refine ⟨?_, fun v hv => team_takeTrap_other x hv, fun q hq => (part q).trans (State.part_pushTrap_other s _ hq),
      ⟨trapRecord s u x pt.trapSeq, ?_⟩, fun h => team_takeTrap_side x h, fun h => ?_⟩
    · rw [push, State.pushTrap_rest]
    · have kmem : t.kmem = (s.pushTrap tm.part (trapRecord s u x)).kmem := by rw [push]
      rw [part, kmem, State.part_pushTrap_same, State.kmem_pushTrap]
      obtain ⟨hlen, hkind, hcause, hflags, hslices, hgang, hpart, hcore, hteam, hgrid, hpc, hlanes, hlc, hprod, hdetail, hseq⟩ :=
        trapRecord_fields s u x pt.trapSeq
      exact ⟨hlen, hkind, hcause, hflags, hslices, hgang, hpart, hcore, hteam, hgrid, hpc, hlanes, hlc, hprod, hdetail, hseq, rfl, rfl⟩
    · have team : t.team u.team = _ := team_takeTrap_gang x h
      rw [team]
      refine ⟨rfl, fun q => Team.entries_unblock _ _ _ q, fun v hv => Team.gang_modGang_other _ _ hv.symm, ?_, fun i hi => ?_⟩
      · rw [Team.gang_modGang_same]
        simp only [slices, if_neg h]
        rfl
      · rw [Team.gang_modGang_same]
        simp only [slices, if_neg h]
        exact rowGet_map_upTo _ _ hi

end Sys2Proof.Machine
end

section
namespace Sys2Proof.Machine

open Sys2Proof Sys2Proof.Safety

/-! ### Cross-lane words whose members have all arrived (R135 to R138) -/

section
variable {i : Instr} {f : Form} {kf : BitVec 4} {s s1 : State} {u : Issuer} {vals : List (List Word)} {popped : Bool}
  {members contributors : Half} {held : BitVec 8}

/-- The element type that a gang's word sees. -/
theorem ctx_et (hg : u.gang ≠ 16) : (ctxOf i u s vals).et = etOf s u := by
  rw [ctxOf_gang hg]
  rfl

/-- The arithmetic modes that a gang's word sees. -/
theorem ctx_modes (hg : u.gang ≠ 16) : (ctxOf i u s vals).modes = mdOf s u := by
  rw [ctxOf_gang hg]
  rfl

/-- The gang is as it was but for the mark of its Instar region, after sources that the word reads itself. -/
def OwnRead (s s' : State) (u : Issuer) : Prop :=
  OnlyGang s s' u ∧ ∃ r, s'.gang u.team u.gang =
    { s.gang u.team u.gang with instar := { (s.gang u.team u.gang).instar with rewindable := r } }

theorem ownRead_of {x : Src} {lanes : Half} {v : List Word} {s0 s' : State} (h : readOwn (ctxOf i u s0 vals) x lanes s = .ok (v, s')) :
    OwnRead s s' u := by
  have := readOwn_gang h
  rwa [ctx_u] at this

theorem OwnRead.trans {s' s'' : State} (h : OwnRead s s' u) (h' : OwnRead s' s'' u) : OwnRead s s'' u := by
  obtain ⟨ho, r, hr⟩ := h
  obtain ⟨ho', r', hr'⟩ := h'
  exact ⟨onlyGang_trans ho ho', r', by rw [hr', hr]⟩

/-- A word that writes a vector register and raises nothing. -/
theorem cross_quiet {effect : Meeting → State → Except Stop State} {s3 : State} (h : GangIssues i f u s vals s1 popped)
    (hj : f.jumps = false) (hm : f.merges = false) (hM : Meets s u kf members contributors held) (d : VNum) (r : Nat → Word)
    (ho : OwnRead s s3 u)
    (he : effect { c := ctxOf i u s vals, arrived := held ||| u.slices, members := members, contributors := contributors } s1 =
      .ok (s3.writeMeeting { c := ctxOf i u s vals, arrived := held ||| u.slices, members := members, contributors := contributors } d
        (fun l => (r l, noCause)))) :
    ∃ t, issue i f (meet kf effect) s = .next t ∧ OnlyGang s t u ∧
      Crosses (s.gang u.team u.gang) (t.gang u.team u.gang) u.slices held ∧ (t.gang u.team u.gang).log = (s.gang u.team u.gang).log ∧
      OnlyV (s.gang u.team u.gang) (t.gang u.team u.gang) contributors d r := by
  obtain ⟨hO, rw_, hr⟩ := ho
  obtain ⟨t, ht, hT, hC, hV, hl⟩ := cross_v h hj hm hM d (fun l => (r l, noCause)) hO hr he
  exact ⟨t, ht, hT, hC, hl.trans (logRaised_none s u contributors), hV⟩

/-- A word that writes a predicate in the contributors. -/
theorem cross_p {effect : Meeting → State → Except Stop State} (h : GangIssues i f u s vals s1 popped) (hj : f.jumps = false)
    (hm : f.merges = false) (hM : Meets s u kf members contributors held) (p : PNum) (r : Nat → Bool)
    (he : effect { c := ctxOf i u s vals, arrived := held ||| u.slices, members := members, contributors := contributors } s1 =
      .ok (s1.writeP u p contributors r)) :
    ∃ t, issue i f (meet kf effect) s = .next t ∧ OnlyGang s t u ∧
      Crosses (s.gang u.team u.gang) (t.gang u.team u.gang) u.slices held ∧
      OnlyP (s.gang u.team u.gang) (t.gang u.team u.gang) contributors p r := by
  obtain ⟨ho, hg⟩ := onlyGang_operands h.operands
  have hG : (s1.writeP u p contributors r).gang u.team u.gang = (s.gang u.team u.gang).writeP p contributors r :=
    (State.gang_modGang_same s1 u.team u.gang _).trans (by rw [hg])
  obtain ⟨t, ht, hO, hC, hl, hk, hb, hla, hlo⟩ := cross_word h hj hm hM he (onlyGang_modGang ho _) hG rfl rfl
  have res := predicateResult_finish (f := f) (popped := popped) hj hm (State.issuable_gang h.issuable h.isGang) p contributors r
    (s.gang u.team u.gang).log
  have lane (l : Nat) : (t.gang u.team u.gang).lane l = (finishGang f popped u
      { (s.gang u.team u.gang).writeP p contributors r with log := (s.gang u.team u.gang).log }).lane l := by
    rw [finishGang_lane]
    unfold Gang.lane
    rw [hl]
  exact ⟨t, ht, hO, hC, hk, hb, hla, hlo, fun l h => lane l ▸ res.lane l h, fun l h q => lane l ▸ res.preds l h q⟩

/-- A word that writes a k register. -/
theorem cross_k {effect : Meeting → State → Except Stop State} (h : GangIssues i f u s vals s1 popped) (hj : f.jumps = false)
    (hm : f.merges = false) (hM : Meets s u kf members contributors held) (d : KNum) (w : Word)
    (he : effect { c := ctxOf i u s vals, arrived := held ||| u.slices, members := members, contributors := contributors } s1 =
      .ok (s1.writeK u d w)) :
    ∃ t, issue i f (meet kf effect) s = .next t ∧ OnlyGang s t u ∧
      Crosses (s.gang u.team u.gang) (t.gang u.team u.gang) u.slices held ∧
      OnlyK (s.gang u.team u.gang) (t.gang u.team u.gang) d w := by
  obtain ⟨ho, hg⟩ := onlyGang_operands h.operands
  rw [State.writeK_gang s1 h.isGang] at he
  have hG : (s1.modGang u.team u.gang (fun g => g.writeK d w)).gang u.team u.gang = (s.gang u.team u.gang).writeK d w :=
    (State.gang_modGang_same s1 u.team u.gang _).trans (by rw [hg])
  obtain ⟨t, ht, hO, hC, hl, hk, hb, hla, hlo⟩ := cross_word h hj hm hM he (onlyGang_modGang ho _) hG rfl rfl
  have res := kResult_finish (f := f) (popped := popped) hj hm (State.issuable_gang h.issuable h.isGang) d w
  have keeps := finishGang_keeps f popped u ((s.gang u.team u.gang).writeK d w)
  refine ⟨t, ht, hO, hC, hl, hla, hlo, fun k => ?_, fun k => ?_⟩
  · rw [← res.regs k, finishGang_kreg]
    unfold Gang.kreg
    rw [hk]
  · rw [← res.bad k, hb, keeps]

end

/-- Settles O37: with a zero mask nothing happens; otherwise each word's effect writes its one destination. -/
theorem crossLaneWords : Obligations.CrossLaneWords := by
  refine ⟨?_, ?_, ?_, ?_, ?_, ?_⟩
  · intro i f kf s u vals s1 popped hw h hz
    rcases hw with ⟨d, a, b, wa, wb, rfl, rfl⟩ | ⟨d, a, l, wa, rfl, rfl⟩ | ⟨op, d, a, wa, rfl | ⟨ex, rfl⟩, rfl⟩ |
      ⟨d, p, rfl | rfl | ⟨kd, rfl⟩, rfl⟩ <;> exact zero_mask h rfl rfl rfl rfl hz
  · intro d a b wa wb kf s u vals s1 popped members contributors held h hM g c w h1 h2 vb0 s0 va s2 vb s3 r0 ra rb
    obtain rfl : s1 = s := issues_s1 h rfl rfl
    have et : etOf s1 u = c.et := (ctx_et h.isGang).symm
    simp only [w, et] at ra ⊢
    exact cross_quiet h rfl rfl hM d _ ((ownRead_of ra).trans (ownRead_of rb)) (shflEffect_ok (dest_none h h1 h2) r0 ra rb)
  · intro d a lane wa kf s u vals s1 popped members contributors held h hM g h1 h2 va s2 ra
    obtain rfl : s1 = s := issues_s1 h rfl rfl
    exact cross_quiet h rfl rfl hM d _ (ownRead_of ra) (bcstEffect_ok (dest_none h h1 h2) ra)
  · intro i op d a wa kf value s u vals s1 popped members contributors held hi h hM g h1 h2 va s2 ra leaves res
    obtain rfl : s1 = s := issues_s1 h rfl rfl
    obtain ⟨ho, rw_, hr⟩ := ownRead_of ra
    have et : etOf s1 u = (ctxOf i u s1 vals).et := (ctx_et h.isGang).symm
    have md : mdOf s1 u = (ctxOf i u s1 vals).modes := (ctx_modes h.isGang).symm
    simp only [res, leaves, et, md]
    obtain ⟨t, ht, hO, hC, hV, hl⟩ := cross_v h rfl rfl hM d _ ho hr (combineEffect_ok (f := value) (dest_none h h1 h2) ra)
    rcases hi with ⟨rfl, rfl⟩ | ⟨ex, rfl, rfl⟩ <;> exact ⟨t, ht, hO, hC, hV, hl⟩
  · intro i d p kf value s u vals s1 popped members contributors held hi h hM
    rcases hi with ⟨rfl, rfl⟩ | ⟨rfl, rfl⟩ <;> refine cross_p h rfl rfl hM d _ ?_ <;> rw [ctxOf_gang h.isGang]
  · intro kd p kf s u vals s1 popped members contributors held h hM
    refine cross_k h rfl rfl hM kd _ ?_
    rw [ctxOf_gang h.isGang]

end Sys2Proof.Machine
end

section
namespace Sys2Proof.Machine

open Sys2Proof Sys2Proof.Safety

/-! ### An arrival at a barrier (R292) -/

/-- An arrival changes the gang's standing at barriers alone. -/
theorem Gang.arrive_keeps (g : Gang) (n : BitVec 4) (p : Nat) (m kept : BitVec 8) :
    g.arrive n p m kept = { g with bars := (g.arrive n p m kept).bars } := by
  unfold Gang.arrive
  dsimp only
  split <;> rfl

/-- A gang that is not exited has arrived when every live slice has issued. -/
theorem Gang.arrived_arrive {g : Gang} (n : BitVec 4) (p : Nat) (m kept : BitVec 8) (hl : g.live ≠ 0#8) :
    ((g.arrive n p m kept).bar n).arrived =
      if g.live &&& ~~~ ((g.bar n).slices ||| m) = 0#8 then some p else (g.bar n).arrived := by
  unfold Gang.arrive Gang.bar
  dsimp only
  split
  next h =>
    have ha : g.live &&& ~~~ ((rowGet {} g.bars n.toNat).slices ||| m) = 0#8 := by simpa [hl] using h
    rw [if_pos ha, rowGet_rowPut_same]
  next h =>
    have ha : ¬ g.live &&& ~~~ ((rowGet {} g.bars n.toNat).slices ||| m) = 0#8 := by simpa [hl] using h
    rw [if_neg ha, rowGet_rowPut_same]

/-- Every gang of the team has arrived at the barrier's phase or has exited, and one that has not exited has arrived. -/
def Team.phaseDone (t : Team) (n : BitVec 4) : Bool :=
  (upTo t.ngang).all (fun g => (t.gang g).exited || ((t.gang g).bar n).arrived = some (t.phase n)) &&
    (upTo t.ngang).any (fun g => !(t.gang g).exited && ((t.gang g).bar n).arrived = some (t.phase n))

/-- The end of a phase changes gangs, phases and the epoch alone. -/
theorem Team.completePhase_keeps (t : Team) (n : BitVec 4) :
    t.completePhase n = { t with gangs := (t.completePhase n).gangs, phases := (t.completePhase n).phases,
                                 epoch := (t.completePhase n).epoch } := by
  unfold Team.completePhase
  dsimp only
  split <;> rfl

theorem Team.phase_completePhase (t : Team) (n : BitVec 4) :
    (∀ m, m ≠ n → (t.completePhase n).phase m = t.phase m) ∧
    (t.completePhase n).phase n = t.phase n + (if t.phaseDone n then 1 else 0) ∧
    (t.completePhase n).epoch = t.epoch + (if t.phaseDone n then 1 else 0) := by
  unfold Team.completePhase Team.phaseDone Team.phase
  dsimp only
  split
  · exact ⟨fun m hm => rowGet_rowPut_other _ _ _ fun e => hm (BitVec.eq_of_toNat_eq e.symm), rowGet_rowPut_same _ _ _ _, rfl⟩
  · exact ⟨fun _ _ => rfl, rfl, rfl⟩

/-- A gang over which a phase ends: slices that have issued count for no later phase. -/
def Gang.phaseEnds (n : BitVec 4) (g : Gang) : Gang :=
  { g with bars := rowMod {} g.bars n.toNat (fun b => { b with slices := 0#8, kept := 0#8 }) }

/-- Where a phase ends it ends over every gang. -/
theorem Team.gang_completePhase_ends (t : Team) (n : BitVec 4) (h : Nat) :
    (t.completePhase n).gang h = (t.gang h).phaseEnds n ∨ (t.completePhase n).gang h = t.gang h := by
  have mapped : rowGet {} (t.gangs.map (Gang.phaseEnds n)) h = (t.gang h).phaseEnds n ∨
      rowGet {} (t.gangs.map (Gang.phaseEnds n)) h = t.gang h := by
    rw [rowGet_map ({} : Gang)]
    split
    · exact .inl rfl
    next hh => exact .inr (rowGet_beyond _ _ _ (Nat.le_of_not_lt hh)).symm
  unfold Team.completePhase
  dsimp only
  split
  · exact mapped
  · exact .inr rfl

/-- A gang over which a phase ends keeps all but its standing at barriers, and its arrival at this one. -/
theorem Team.gang_completePhase (t : Team) (n : BitVec 4) (h : Nat) :
    (t.completePhase n).gang h = { t.gang h with bars := ((t.completePhase n).gang h).bars } ∧
    (((t.completePhase n).gang h).bar n).arrived = ((t.gang h).bar n).arrived := by
  rcases t.gang_completePhase_ends n h with e | e
  · rw [e]
    refine ⟨rfl, ?_⟩
    unfold Gang.bar Gang.phaseEnds
    rw [rowGet_rowMod_same]
  · rw [e]
    exact ⟨rfl, rfl⟩

/-- The team after an arrival. -/
theorem team_arriveAt (s : State) (u : Issuer) (n : BitVec 4) (keep : Bool) :
    (s.arriveAt u n keep).team u.team =
      ((((s.team u.team).modGang u.gang (fun g => g.arrive n ((s.team u.team).phase n) u.slices (if keep then u.slices else 0#8))).completePhase n).modGang
        u.gang (fun g => { g with instar := { g.instar with rewindable := false } })) :=
  (State.team_modTeam_same _ _ _).trans (by rw [State.team_modTeam_same])

/-- No other team changes. -/
theorem team_arriveAt_other (s : State) (u : Issuer) (n : BitVec 4) (keep : Bool) {v : Nat} (hv : v ≠ u.team) :
    (s.arriveAt u n keep).team v = s.team v :=
  (State.team_modTeam_other _ _ hv.symm).trans (State.team_modTeam_other _ _ hv.symm)

/-- Of a gang, an arrival changes its standing at barriers, and closes the region of the gang that arrives. -/
theorem gang_arriveAt (s : State) (u : Issuer) (n : BitVec 4) (keep : Bool) (h : Nat) :
    let g := (s.team u.team).gang h
    let g' := ((s.arriveAt u n keep).team u.team).gang h
    g' = { g with bars := g'.bars, instar := g'.instar } ∧
      g'.instar = (if h = u.gang then { g.instar with rewindable := false } else g.instar) ∧
      (g'.bar n).arrived = (if h = u.gang then
        ((g.arrive n ((s.team u.team).phase n) u.slices (if keep then u.slices else 0#8)).bar n).arrived else (g.bar n).arrived) := by
  intro g g'
  generalize hT : (s.team u.team).modGang u.gang (fun g => g.arrive n ((s.team u.team).phase n) u.slices (if keep then u.slices else 0#8)) = T
  obtain ⟨hk, ha⟩ := T.gang_completePhase n h
  have hg' : g' = ((T.completePhase n).modGang u.gang (fun g => { g with instar := { g.instar with rewindable := false } })).gang h := by
    simp only [g', team_arriveAt, hT]
  by_cases e : h = u.gang
  · subst e
    have hTg : T.gang u.gang = g.arrive n ((s.team u.team).phase n) u.slices (if keep then u.slices else 0#8) := by
      rw [← hT, Team.gang_modGang_same]
    rw [Team.gang_modGang_same] at hg'
    rw [hTg] at hk ha
    have keeps := Gang.arrive_keeps g n ((s.team u.team).phase n) u.slices (if keep then u.slices else 0#8)
    rw [if_pos rfl, if_pos rfl]
    refine ⟨?_, ?_, ?_⟩
    · rw [hg', hk, keeps]
    · rw [hg', hk, keeps]
    · rw [← ha, hg']
      rfl
  · have hTg : T.gang h = g := by rw [← hT, Team.gang_modGang_other _ _ (Ne.symm e)]
    rw [Team.gang_modGang_other _ _ (Ne.symm e)] at hg'
    rw [hTg] at hk ha
    rw [if_neg e, if_neg e]
    refine ⟨?_, ?_, ?_⟩
    · rw [hg', hk]
    · rw [hg', hk]
    · rw [← ha, hg']

/-- A phase ends by an arrival where the gang has arrived at it, and every other gang has or has exited. -/
theorem Team.phaseDone_arrive (t : Team) {g : Nat} (n : BitVec 4) (m kept : BitVec 8) (hg : g < t.ngang) (hl : (t.gang g).live ≠ 0#8) :
    (t.modGang g (fun x => x.arrive n (t.phase n) m kept)).phaseDone n = true ↔
      (((t.gang g).arrive n (t.phase n) m kept).bar n).arrived = some (t.phase n) ∧
        ∀ h, h < t.ngang → h ≠ g → (t.gang h).exited = true ∨ ((t.gang h).bar n).arrived = some (t.phase n) := by
  generalize hT : t.modGang g (fun x => x.arrive n (t.phase n) m kept) = T
  have hn : T.ngang = t.ngang := by rw [← hT]; rfl
  have hp : T.phase n = t.phase n := by rw [← hT]; rfl
  have own : T.gang g = (t.gang g).arrive n (t.phase n) m kept := by rw [← hT, Team.gang_modGang_same]
  have other (h : Nat) (e : h ≠ g) : T.gang h = t.gang h := by rw [← hT, Team.gang_modGang_other _ _ (Ne.symm e)]
  have alive : (T.gang g).exited = false := by
    rw [own, Gang.arrive_keeps]
    exact decide_eq_false hl
  unfold Team.phaseDone
  simp only [hn, hp, Bool.and_eq_true, List.all_eq_true, List.any_eq_true, mem_upTo, Bool.or_eq_true, decide_eq_true_eq,
    Bool.not_eq_true']
  constructor
  · rintro ⟨all, -⟩
    refine ⟨?_, fun h hh e => by rw [← other h e]; exact all h hh⟩
    rw [← own]
    exact (all g hg).resolve_left (by rw [alive]; nofun)
  · rintro ⟨mine, others⟩
    refine ⟨fun h hh => ?_, g, hg, alive, by rw [own]; exact mine⟩
    by_cases e : h = g
    · subst e
      exact .inr (by rw [own]; exact mine)
    · rw [other h e]
      exact others h hh e

/-- The phases and the epoch after an arrival. -/
theorem phase_arriveAt {s : State} {u : Issuer} (n : BitVec 4) (keep : Bool) (hn : u.gang < (s.team u.team).ngang)
    (hl : (s.gang u.team u.gang).live ≠ 0#8) :
    let t := s.team u.team
    let p := t.phase n
    let t' := (s.arriveAt u n keep).team u.team
    (∀ m, m ≠ n → t'.phase m = t.phase m) ∧
      (if ((t'.gang u.gang).bar n).arrived = some p ∧
          ∀ h, h < t.ngang → h ≠ u.gang → (t.gang h).exited = true ∨ ((t.gang h).bar n).arrived = some p then
        t'.phase n = p + 1 ∧ t'.epoch = t.epoch + 1
       else t'.phase n = p ∧ t'.epoch = t.epoch) := by
  intro t p t'
  obtain ⟨-, -, ha⟩ := gang_arriveAt s u n keep u.gang
  rw [if_pos rfl] at ha
  have hdone := Team.phaseDone_arrive t n u.slices (if keep then u.slices else 0#8) hn hl
  rw [← ha] at hdone
  obtain ⟨hother, hphase, hepoch⟩ :=
    Team.phase_completePhase (t.modGang u.gang (fun g => g.arrive n p u.slices (if keep then u.slices else 0#8))) n
  have e : t' = _ := team_arriveAt s u n keep
  have phase (m : BitVec 4) : t'.phase m = _ := congrArg (Team.phase · m) e
  have epoch : t'.epoch = _ := congrArg Team.epoch e
  refine ⟨fun m hm => (phase m).trans (hother m hm), ?_⟩
  cases hd : (t.modGang u.gang (fun g => g.arrive n p u.slices (if keep then u.slices else 0#8))).phaseDone n with
  | true =>
    rw [if_pos (hdone.mp hd)]
    rw [hd, if_pos rfl] at hphase hepoch
    exact ⟨(phase n).trans hphase, epoch.trans hepoch⟩
  | false =>
    rw [if_neg (fun h => by rw [hdone.mpr h] at hd; cases hd)]
    rw [hd] at hphase hepoch
    exact ⟨(phase n).trans hphase, epoch.trans hepoch⟩

/-- An arrival leaves the slices of the gang as they are. -/
theorem slices_arriveAt (s : State) (u : Issuer) (n : BitVec 4) (keep : Bool) :
    ((s.arriveAt u n keep).gang u.team u.gang).slices = (s.gang u.team u.gang).slices := by
  obtain ⟨hk, -, -⟩ := gang_arriveAt s u n keep u.gang
  exact (congrArg Gang.slices hk).trans rfl

/-! ### BAR, BARA and BARW (R293) -/

/-- A word that goes on with the effect `b` where a condition holds, and stops as `st` says where it does not. -/
theorem goes_or_held {i : Instr} {f : Form} {body : Ctx → State → Except Stop State} {s b r : State} {u : Issuer}
    {vals : List (List Word)} {popped : Bool} {ok no : Prop} [Decidable ok] (st : Stop) (hno : no → ¬ ok)
    (h : GangIssues i f u s vals s popped) (hj : f.jumps = false) (hm : f.merges = false) (hr : stopUnit u st s = r)
    (hs : (b.gang u.team u.gang).slices = (s.gang u.team u.gang).slices)
    (hb : body (ctxOf i u s vals) s = stopOr (need ok st) (.ok b)) :
    (ok → ∃ t, issue i f body s = .next t ∧ Finished b t u) ∧ (no → issue i f body s = .next r) := by
  refine ⟨fun hok => ?_, fun hn => ?_⟩
  · rw [need_true (decide_eq_true hok)] at hb
    exact gang_finishes h hj hm hb hs
  · rw [need_false (decide_eq_false (hno hn))] at hb
    exact (issue_stops h.toIssues hb).trans (congrArg _ hr)

/-- What a gang's word knows of its team and its gang. -/
theorem ctx_own {i : Instr} {u : Issuer} {s : State} {vals : List (List Word)} (hg : u.gang ≠ 16) :
    (ctxOf i u s vals).t = s.team u.team ∧ (ctxOf i u s vals).g = s.gang u.team u.gang := by
  rw [ctxOf_gang hg]
  exact ⟨rfl, rfl⟩

/-- The gang has arrived at the phase, or the phase is past, as the check of BARA asks it. -/
theorem need_arrivedAt (t : Team) (g : Nat) (n : BitVec 4) (p : Nat) (st : Stop) :
    need (arrivedAt t g n p) st = need (((t.gang g).bar n).arrived = some p ∨ p < t.phase n) st := by
  unfold arrivedAt
  rw [Bool.decide_or]

/-- Settles O44: the arrival, and each word by whether it waits already. -/
theorem barrierWords : Obligations.BarrierWords := by
  refine ⟨?_, ?_, ?_, ?_⟩
  · intro s u n keep hn hl t g p all now s' t'
    obtain ⟨hk, hi, ha⟩ := gang_arriveAt s u n keep u.gang
    rw [if_pos rfl] at ha
    have arrived : ((t'.gang u.gang).bar n).arrived = now := ha.trans (Gang.arrived_arrive n p _ _ hl)
    obtain ⟨hother, hphase⟩ := phase_arriveAt n keep hn hl
    have hkeeps := Team.completePhase_keeps (t.modGang u.gang (fun g => g.arrive n p u.slices (if keep then u.slices else 0#8))) n
    refine ⟨rfl, fun v hv => team_arriveAt_other s u n keep hv, ?_, fun h => ?_, arrived, hother, ?_⟩
    · have e : t' = _ := team_arriveAt s u n keep
      rw [e, hkeeps]
      rfl
    · obtain ⟨hk, hi, -⟩ := gang_arriveAt s u n keep h
      exact ⟨hk, hi⟩
    · rw [← arrived]
      exact hphase
  · intro n s u vals popped h
    obtain ⟨ht, -⟩ := ctx_own (i := .bar n) (s := s) (vals := vals) h.isGang
    rw [exec_bar]
    unfold execBar
    refine ⟨fun m p hw => ?_, fun hw => ?_⟩
    · refine goes_or_held (b := s) (.wait (.bar n p) none) Nat.not_lt.mpr h rfl rfl rfl rfl ?_
      rw [ctx_u, hw, ht]
    · intro p s'
      refine goes_or_held (b := s') (.wait (.bar n p) (some s')) Nat.not_lt.mpr h rfl rfl rfl (slices_arriveAt s u n false) ?_
      rw [ctx_u, ht]
      split
      next m q e => exact absurd e (hw m q)
      next => rfl
  · intro n s u vals popped h
    obtain ⟨ht, hg⟩ := ctx_own (i := .bara n) (s := s) (vals := vals) h.isGang
    rw [exec_bara]
    unfold execBara
    refine ⟨fun m p hw => ?_, fun hw => ?_⟩
    · intro past
      refine goes_or_held (b := s) (.wait (.gather n p) none) id h rfl rfl rfl rfl ?_
      rw [ctx_u, hw, ht]
      exact congrArg (stopOr · _) (need_arrivedAt _ _ _ _ _)
    · intro p s' past
      refine ⟨fun ha => ?_, fun ha => ?_⟩
      · refine issue_stops (st := .wait (.bara n p) none) h.toIssues ?_
        rw [ctx_u, hg, ht]
        split
        next m q e => exact absurd e (hw m q)
        next => exact if_pos ha
      · refine goes_or_held (b := s') (.wait (.gather n p) (some s')) id h rfl rfl rfl (slices_arriveAt s u n true) ?_
        rw [ctx_u, hg, ht]
        split
        next m q e => exact absurd e (hw m q)
        next => exact (if_neg ha).trans (congrArg (stopOr · _) (need_arrivedAt _ _ _ _ _))
  · intro n s u vals popped q h hq
    obtain ⟨ht, hg⟩ := ctx_own (i := .barw n) (s := s) (vals := vals) h.isGang
    rw [exec_barw]
    unfold execBarw
    rcases hq with ⟨m, p, hw, rfl⟩ | ⟨hw, rfl⟩
    · refine ⟨nofun, fun p' e => ?_⟩
      obtain rfl : p = p' := Option.some.inj e
      refine goes_or_held (b := s) (.wait (.barw n p) none) Nat.not_lt.mpr h rfl rfl rfl rfl ?_
      rw [ctx_u, hw, ht]
    · refine ⟨fun hn => ?_, fun p hp => ?_⟩
      · refine gang_finishes h rfl rfl ?_ rfl
        rw [ctx_u, hg, hn]
        split
        next m q e => exact absurd e (hw m q)
        next => rfl
      · refine goes_or_held (b := s) (.wait (.barw n p) none) Nat.not_lt.mpr h rfl rfl rfl rfl ?_
        rw [ctx_u, hg, ht, hp]
        split
        next m q e => exact absurd e (hw m q)
        next => rfl

end Sys2Proof.Machine
end

section
namespace Sys2Proof.Machine

open Sys2Proof Sys2Proof.Safety

/-! ### Traps of the lanes' accesses (R275) -/

section
variable {i : Instr} {f : Form} {body : Ctx → State → Except Stop State} {s s1 : State} {u : Issuer} {vals : List (List Word)}
  {popped : Bool} {w : Nat} {ad : Nat → Word} {k : TagKind}

/-- The checks of the lanes' accesses, by what the issuing unit is. -/
theorem laneStop_eq (hg : u.gang ≠ 16) (w : Nat) (ad : Nat → Word) (k : TagKind) :
    let part := partOf s u
    let mis := maskOf (fun l => part.getLsbD l && decide ((ad l).toNat % w ≠ 0))
    let out := maskOf (fun l => part.getLsbD l && decide ((s.team u.team).scratch < (ad l).toNat + w))
    let race := fun l => (s.team u.team).raceAt u.gang (ad l).toNat w k
    let conf := maskOf (fun l => part.getLsbD l && (race l).isSome)
    laneStop (ctxOf i u s vals) w ad k = firstStop [
      need (mis = 0#32) (.trap (addrTrap .misaligned mis ad)),
      need (out = 0#32) (.trap (addrTrap .scratchRange out ad)),
      need (!gmDet (s.gang u.team u.gang).gmode || conf = 0#32) (.trap (raceTrap ((race (lowLane conf)).getD (0, 0)) (some conf)))] := by
  have hout : ∀ a : Word, (!inWindow (s.team u.team) a w) = decide ((s.team u.team).scratch < a.toNat + w) := fun a => by
    simp only [inWindow, ← Nat.not_le, decide_not]
  intro part mis out race conf
  unfold laneStop
  rw [det_gang hg, ctx_t, ctx_u, ctx_part hg]
  simp only [hout]
  rfl

/-- A gang's word whose effect begins with the checks of its lanes' accesses takes their traps. -/
theorem laneTraps_of (h : GangIssues i f u s vals s1 popped) (hx : exec i s = issue i f body s)
    (hb : ∃ rest, body (ctxOf i u s vals) s1 = stopOr (laneStop (ctxOf i u s vals) w ad k) rest) : LaneTraps i s u w ad k := by
  obtain ⟨rest, hb⟩ := hb
  unfold LaneTraps
  intro part mis out race conf
  have checks : body (ctxOf i u s vals) s1 = stopOr (firstStop [
      need (mis = 0#32) (.trap (addrTrap .misaligned mis ad)),
      need (out = 0#32) (.trap (addrTrap .scratchRange out ad)),
      need (!gmDet (s.gang u.team u.gang).gmode || conf = 0#32) (.trap (raceTrap ((race (lowLane conf)).getD (0, 0)) (some conf)))]) rest :=
    hb.trans (congrArg (stopOr · rest) (laneStop_eq h.isGang w ad k))
  have stops : ∀ x, body (ctxOf i u s vals) s1 = .error (.trap x) → exec i s = .next (s.takeTrap u x) := fun x hx' =>
    hx.trans (issue_stops h.toIssues hx')
  refine ⟨fun hm => stops _ ?_, fun hm ho => stops _ ?_, fun hm ho hd hc n g hr => stops _ ?_⟩ <;> rw [checks]
  · rw [need_false (decide_eq_false hm)]
    rfl
  · rw [need_true (decide_eq_true hm), need_false (decide_eq_false ho)]
    rfl
  · rw [need_true (decide_eq_true hm), need_true (decide_eq_true ho), hd, decide_eq_false hc, hr]
    rfl

end

/-! ### What reads see (R189, R278) -/

/-- The window of every team, and what lies in scratchpad, are as they were after the pops of a word's sources. -/
structure SameView (s s1 : State) : Prop where
  bad : ∀ key n, s1.spadBad key n = s.spadBad key n
  veils : ∀ key n, s1.veils key n = s.veils key n
  seen : ∀ free key n, s1.seenNat free key n = s.seenNat free key n

theorem sameView_onlyGang {s s1 : State} {u : Issuer} (h : OnlyGang s s1 u) : SameView s s1 := by
  have hspad : s1.spad = s.spad := by rw [h.rest]
  have hbad : s1.bad = s.bad := by rw [h.rest]
  have hcmds : s1.cmds = s.cmds := by rw [h.rest]
  have window : ∀ v, (s1.team v).live = (s.team v).live ∧ ∀ off, (s1.team v).key off = (s.team v).key off := fun v => by
    by_cases hv : v = u.team
    · subst hv
      rw [h.team]
      exact ⟨rfl, fun _ => rfl⟩
    · rw [h.teams v hv]
      exact ⟨rfl, fun _ => rfl⟩
  have veiled : ∀ key, s1.veiled key = s.veiled key := fun key => by
    unfold State.veiled
    simp only [hcmds, (window _).1, (window _).2]
  have veils : ∀ key n, s1.veils key n = s.veils key n := fun key n => by
    unfold State.veils
    simp only [veiled]
  refine ⟨fun key n => by unfold State.spadBad; rw [hbad], veils, fun free key n => ?_⟩
  unfold State.seenNat State.seenBytes State.spadBytes
  simp only [veils, veiled, hspad]

/-- Where nothing is undefined, a program sees what the scratchpad holds. -/
theorem State.seenNat_plain {s : State} {key n : Nat} (h : s.veils key n = false) (free : Nat) : s.seenNat free key n = memNat s.spad key n := by
  unfold State.seenNat State.seenBytes
  rw [if_neg (by rw [h]; decide)]
  rfl

theorem State.seenNat_eq (s : State) (free key n : Nat) :
    s.seenNat free key n = if s.veils key n = true then s.seenNat free key n else memNat s.spad key n := by
  split
  · rfl
  next h => exact s.seenNat_plain (Bool.eq_false_iff.mpr h) free

/-! ### LD and LDX (R278) -/

/-- What a lane loads, by whether its word is sound and its bytes are defined. -/
def loadedReg (s : State) (u : Issuer) (w : Nat) (sx : Bool) (ad : Nat → Word) (l : Nat) : VReg :=
  if s.spadBad (placeOf s u (ad l)) w = true then { val := Config.freeWord (s.fresh + l), poison := true, ppc := parityPc, pcode := 6#8 }
  else { val := extendTo w sx (if s.veils (placeOf s u (ad l)) w = true then s.seenNat (s.fresh + 32 + 8 * l) (placeOf s u (ad l)) w
                               else memNat s.spad (placeOf s u (ad l)) w) }

/-- After the pops of its sources, a load gives each lane what it gives in the state before. -/
theorem laneLoad_eq {s s1 : State} {u : Issuer} (h : OnlyGang s s1 u) (w : Nat) (sx : Bool) (ad : Nat → Word) :
    s1.laneLoad (s.team u.team) w sx ad = loadedReg s u w sx ad := by
  have view := sameView_onlyGang h
  have fresh : s1.fresh = s.fresh := by rw [h.rest]
  funext l
  unfold State.laneLoad loadedReg
  rw [place_key, view.bad, view.seen, fresh, ← State.seenNat_eq]

/-- Whether the accesses of a gang's word are recorded (R218). -/
theorem det_false {i : Instr} {u : Issuer} {s : State} {vals : List (List Word)}
    (h : u.gang = 16 ∨ gmDet (s.gang u.team u.gang).gmode = false) : (ctxOf i u s vals).det = false := by
  by_cases hg : u.gang = 16
  · exact det_side hg
  · rw [det_gang hg]
    exact h.resolve_left hg

/-- The line tags and the tag table of the issuing team are as they were. -/
def SameTags (s y : State) (u : Issuer) : Prop :=
  (y.team u.team).tags = (s.team u.team).tags ∧ (y.team u.team).lines = (s.team u.team).lines

/-- The completion of a gang's word whose effect `y` is followed by the record of its lanes' accesses. -/
theorem lanes_reach {i : Instr} {f : Form} {body : Ctx → State → Except Stop State} {s s1 y : State} {u : Issuer}
    {vals : List (List Word)} {popped : Bool} {w : Nat} {ad : Nat → Word} {k : TagKind} (h : GangIssues i f u s vals s1 popped)
    (hb : body (ctxOf i u s vals) s1 = .ok (y.recordLanes (ctxOf i u s vals) w ad k)) (hw : Within s y u) (hk : SameTags s y u) :
    ∃ t, issue i f body s = .next t ∧ Within s t u ∧ NoStore y t ∧ TagsKept s t u ∧ t.fresh = y.fresh ∧
      t.gang u.team u.gang = finishGang f popped u (y.gang u.team u.gang) := by
  have hR := recorded_lanes y (ctxOf i u s vals) w ad k
  rw [ctx_u] at hR
  obtain ⟨t, ht, within, gang, store, fresh, tags, lines⟩ := gang_reaches h hb (hR.within s hw)
  exact ⟨t, ht, within, noStore_trans hR.noStore store,
    ⟨tags.trans (hR.tags.trans hk.1), fun hd => lines.trans ((hR.lines (det_false hd)).trans hk.2)⟩, fresh.trans hR.fresh,
    gang.trans (congrArg _ hR.gang)⟩

/-- A load of the shared path: it takes the traps of its accesses, or loads. -/
theorem load_word {i : Instr} {srcs : List Src} {d : VNum} {w : Nat} {sx : Bool} {addr : Ctx → Nat → Word} {ad : Nat → Word}
    {s s1 : State} {u : Issuer} {vals : List (List Word)} {popped : Bool}
    (h : GangIssues i { srcs := srcs, dsts := [d] } u s vals s1 popped) (hx : exec i s = loadWord i srcs d w sx addr s)
    (had : addr (ctxOf i u s vals) = ad) :
    LaneTraps i s u w ad .read ∧ (LanesOk s u w ad .read →
      ∃ t, exec i s = .next t ∧ Within s t u ∧ NoStore s t ∧ TagsKept s t u ∧
        ((∀ l, l < 32 → (partOf s u).getLsbD l = true →
          s.spadBad (placeOf s u (ad l)) w = false ∧ s.veils (placeOf s u (ad l)) w = false) → t.fresh = s.fresh) ∧
        RegResult (s.gang u.team u.gang) (t.gang u.team u.gang) u.slices (partOf s u) d (loadedReg s u w sx ad)) := by
  subst had
  refine ⟨laneTraps_of h hx ⟨_, rfl⟩, fun hok => ?_⟩
  have hg := h.isGang
  obtain ⟨ho, hgang⟩ := onlyGang_operands h.operands
  have view := sameView_onlyGang ho
  let c := ctxOf i u s vals
  let y := s1.loadLanes c d w sx (addr c)
  obtain ⟨fr, hload, hfr⟩ := loadLanes_mod s1 c d w sx (addr c)
  rw [ctx_u, ctx_t, ctx_part hg, laneLoad_eq ho] at hload
  rw [ctx_t, ctx_part hg] at hfr
  have hy : Within s y u := by
    rw [show y = _ from hload]
    exact within_same (within_modGang (within_onlyGang ho) _) rfl
  have store : NoStore s y := by
    rw [show y = _ from hload, ho.rest]
    exact ⟨rfl, rfl, rfl, rfl, rfl⟩
  have tags : SameTags s y u := by
    have e : y.team u.team = (s1.team u.team).modGang u.gang (fun g => g.loadV d (partOf s u) (loadedReg s u w sx (addr c))) := by
      rw [show y = _ from hload]
      exact State.team_modTeam_same s1 u.team (fun x => x.modGang u.gang _)
    unfold SameTags
    rw [e, ho.team]
    exact ⟨rfl, rfl⟩
  have gang : y.gang u.team u.gang = (s.gang u.team u.gang).loadV d (partOf s u) (loadedReg s u w sx (addr c)) := by
    rw [show y = _ from hload, ← hgang]
    exact State.gang_modGang_same _ _ _ _
  obtain ⟨t, ht, within, store', tags', fresh, gang'⟩ := lanes_reach (body := fun c x =>
      stopOr (laneStop c w (addr c) .read) (.ok ((x.loadLanes c d w sx (addr c)).recordLanes c w (addr c) .read)))
    h (by rw [laneStop_none hg hok]; rfl) hy tags
  refine ⟨t, hx.trans ht, within, noStore_trans store store', tags', fun hq => ?_, ?_⟩
  · have hs : s1.fresh = s.fresh := by rw [ho.rest]
    rw [fresh, show y = _ from hload]
    exact (hfr fun l hl hp => by rw [view.bad, view.veils]; exact hq l hl hp).trans hs
  · rw [gang', gang]
    exact regResult_finish rfl rfl (State.issuable_gang h.issuable hg) d _ _

/-! ### KLD (R278) -/

/-- What goes with a word does not ask for free values. -/
theorem finish_drawn (f : Form) (popped : Bool) (u : Issuer) (s : State) (n : Nat) :
    finish f popped u { s with fresh := n } = { finish f popped u s with fresh := n } := by
  by_cases hg : u.gang = 16
  · rw [finish_sidecar hg, finish_sidecar hg]
    unfold State.meterWord
    split <;> rfl
  · rw [finish_gang hg, finish_gang hg]
    unfold State.meterWord
    split <;> rfl

/-- A word of a gang or sidecar that draws free values besides its effect. -/
theorem issue_drawn {i : Instr} {f : Form} {body body' : Ctx → State → Except Stop State} {s s2 t : State} {u : Issuer} {n : Nat}
    (h : PartyIssues i f u s) (hb : ∀ vals, body (ctxOf i u s vals) s = .ok s2)
    (hb' : ∀ vals, body' (ctxOf i u s vals) s = .ok { s2 with fresh := n }) (ht : issue i f body s = .next t) :
    issue i f body' s = .next { t with fresh := n } := by
  have go {vals : List (List Word)} {popped : Bool} (hi : Issues i f u s vals s popped) :
      issue i f body' s = .next { t with fresh := n } := by
    rw [issue_completes hi (hb vals)] at ht
    injection ht with e
    rw [issue_completes hi (hb' vals), finish_drawn, e]
  rcases h with ⟨-, h⟩ | ⟨-, vals, popped, h⟩
  · exact go ⟨h.issuer, h.issuable, h.checks, operandsOf_sidecar h.isSidecar⟩
  · exact go h.toIssues

/-- A write of a k register with the access recorded does not ask for free values. -/
theorem writeK_recordRange_drawn (s : State) (c : Ctx) (d : KNum) (v : Word) (w : Nat) (a : Word) (k : TagKind) (n : Nat) :
    (({ s with fresh := n } : State).writeK c.u d v).recordRange c w a k = { (s.writeK c.u d v).recordRange c w a k with fresh := n } := by
  unfold State.recordRange State.writeK
  split <;> split <;> rfl

/-- The record of a uniform access does not ask for source values. -/
theorem recordRange_vals {i : Instr} {u : Issuer} {s x : State} {vals : List (List Word)} {w : Nat} {a : Word} {k : TagKind} :
    x.recordRange (ctxOf i u s vals) w a k = x.recordRange (ctxOf i u s []) w a k := by
  have det : (ctxOf i u s vals).det = (ctxOf i u s []).det := by
    by_cases hg : u.gang = 16
    · rw [det_side hg, det_side hg]
    · rw [det_gang hg, det_gang hg]
  unfold State.recordRange
  rw [det, ctx_u, ctx_u]

/-- KLD takes the traps of its access and of an uncorrectable word, or loads its register. -/
theorem kld_word {d a : KNum} {imm : BitVec 12} {s : State} {u : Issuer}
    (h : PartyIssues (.kld d a imm) { ks := [a], sidecar := true } u s) :
    let ad := kOf s u a + imm.signExtend 64
    ReadsBlock (.kld d a imm) s u 8 8 ad ∧
    (UniformOk s u 8 8 ad .read → s.spadBad (placeOf s u ad) 8 = false →
    ∃ t, exec (.kld d a imm) s = .next t ∧ Within s t u ∧ NoStore s t ∧ TagsKept s t u ∧
      t.fresh = (if s.veils (placeOf s u ad) 8 = true then s.fresh + 8 else s.fresh) ∧
      PartyK s t u d (BitVec.ofNat 64 (s.seenNat s.fresh (placeOf s u ad) 8))) := by
  intro ad
  refine ⟨readsBlock h rfl fun vals => ?_, fun hok hbad => ?_⟩
  · rw [show ad = (ctxOf (.kld d a imm) u s vals).k a + imm.signExtend 64 by rw [ctx_k]]
    exact ⟨_, rfl⟩
  · let c := ctxOf (.kld d a imm) u s []
    let n := if s.veils (placeOf s u ad) 8 = true then s.fresh + 8 else s.fresh
    let v := BitVec.ofNat 64 (s.seenNat s.fresh (placeOf s u ad) 8)
    have hR := recorded_range (s.writeK u d v) c 8 ad .read
    rw [ctx_u] at hR
    obtain ⟨t, ht, within, store, tags, -, result⟩ := party_k (body := fun _ _ => .ok ((s.writeK u d v).recordRange c 8 ad .read))
      h rfl rfl d v (fun _ => rfl) hR det_false
    refine ⟨{ t with fresh := n }, issue_drawn h (fun _ => rfl) (fun vals => ?_) ht, within_same within rfl, store, tags, rfl, result⟩
    have seen : (s.spadSeen (placeOf s u ad) 8).2 = { s with fresh := n } := by
      unfold State.spadSeen
      dsimp only [n]
      split <;> rfl
    have drawn := writeK_recordRange_drawn s c d v 8 ad .read n
    rw [ctx_u] at drawn
    rw [ctx_k]
    show stopOr (uniformStop _ 8 8 ad) (stopOr (uniformRace _ 8 ad .read) (stopOr (badStop s _ ad 8) (.ok _))) = _
    rw [uniformStop_none hok, uniformRace_none hok, badStop_none hbad, recordRange_vals, ctx_u, ctx_t, place_key, seen]
    exact congrArg Except.ok drawn

/-- Settles O39: LD and LDX are loads of the shared path, and KLD is its uniform form. -/
theorem scratchLoads : Obligations.ScratchLoads := by
  refine ⟨fun i srcs d w sx ad s u vals s1 popped hrow h => ?_, fun d a imm s u h => ?_⟩
  · have src := ctx_src (i := i) (s := s) (vals := vals) h.isGang
    rcases hrow with ⟨m, a, wa, rfl, rfl, rfl, rfl⟩ | ⟨a, imm, rfl, rfl, rfl, rfl, rfl⟩
    · exact load_word (addr := addrA) h rfl (by unfold addrA; rw [src])
    · exact load_word (addr := addrImm imm) h rfl (by unfold addrImm; rw [src])
  · obtain ⟨⟨traps, poison⟩, loads⟩ := kld_word h
    refine ⟨traps, poison, ?_⟩
    rw [← State.seenNat_eq]
    exact loads

end Sys2Proof.Machine
end

section
namespace Sys2Proof.Machine

open Sys2Proof Sys2Proof.Safety

/-! ### Writes to the scratchpad, one after the other -/

/-- `y` is `x` after writes to the scratchpad: memory, marks of errors and what commands have noted. -/
structure Writes (x y : State) : Prop where
  rest : y = { x with spad := y.spad, bad := y.bad, cmds := y.cmds }
  bad : y.bad = { x.bad with spad := y.bad.spad } ∧ ∀ n ∈ y.bad.spad, n ∈ x.bad.spad
  cmds : CommandsNote x y

theorem writes_refl (x : State) : Writes x x := ⟨rfl, ⟨rfl, fun _ h => h⟩, commandsNote_same rfl⟩

theorem writes_trans {x y z : State} (h1 : Writes x y) (h2 : Writes y z) : Writes x z where
  rest := by
    have := h2.rest
    rw [h1.rest] at this
    exact this
  bad := by
    obtain ⟨e1, m1⟩ := h1.bad
    obtain ⟨e2, m2⟩ := h2.bad
    rw [e1] at e2
    exact ⟨e2, fun n hn => m1 n (m2 n hn)⟩
  cmds := commandsNote_trans h1.cmds h2.cmds

theorem writes_spadWrite (x : State) (key : Nat) (bs : List Byte) : Writes x (x.spadWrite key bs) :=
  ⟨rfl, ⟨rfl, unmark_sub _ _ _⟩, commandsNote_spadWrite x key bs⟩

theorem writes_foldl {α : Type} {f : State → α → State} (hf : ∀ x a, Writes x (f x a)) : ∀ (l : List α) (x : State), Writes x (l.foldl f x)
  | [], x => writes_refl x
  | a :: l, x => writes_trans (hf x a) (writes_foldl hf l (f x a))

section
variable {s s1 : State} {u : Issuer} {f : State → State}

/-- A store by a word of a gang, after the pops of its sources, reaches no further than a word may, and leaves control alone. -/
structure OwnStored (s y : State) (u : Issuer) : Prop where
  within : Within s y u
  fills : FillsNote s y u
  cmds : CommandsNote s y
  codes : y.syncCodes = s.syncCodes
  bad : y.bad = { s.bad with spad := y.bad.spad } ∧ ∀ n ∈ y.bad.spad, n ∈ s.bad.spad
  tags : SameTags s y u

/-- After a store by a word of a gang the teams and the cycle are as they were. -/
theorem ownStore_writes (hf : ∀ x, Writes x (f x)) :
    s1.ownStore u f = { s1 with spad := (s1.ownStore u f).spad, bad := (s1.ownStore u f).bad, cores := (s1.ownStore u f).cores,
                                fresh := (s1.ownStore u f).fresh, cmds := (s1.ownStore u f).cmds } :=
  ownStore_rest s1 u f fun x => (hf x).rest

theorem ownStored (ho : OnlyGang s s1 u) (hf : ∀ x, Writes x (f x)) : OwnStored s (s1.ownStore u f) u := by
  have rest := ownStore_writes (s1 := s1) (u := u) hf
  have old : s1.cores = s.cores ∧ s1.fresh = s.fresh ∧ s1.cmds = s.cmds ∧ s1.syncCodes = s.syncCodes ∧ s1.bad = s.bad := by
    rw [ho.rest]
    exact ⟨rfl, rfl, rfl, rfl, rfl⟩
  obtain ⟨cores, fresh, cmds, codes, bad⟩ := old
  have home : (s1.team u.team).home = (s.team u.team).home := by rw [ho.team]
  have same : ∀ x, (f x).cores = x.cores ∧ (f x).fresh = x.fresh := fun x => by
    rw [(hf x).rest]
    exact ⟨rfl, rfl⟩
  obtain ⟨a, before, after, -⟩ := ownStore_noted s1 u f
  have hbad : a.bad = s.bad ∧ (s1.ownStore u f).bad = (f a).bad := ⟨(noted_spad before).2.trans bad, (noted_spad after).2⟩
  refine ⟨?_, fillsNote_ownStore f ⟨cores, fresh, home⟩ same,
    commandsNote_trans (commandsNote_same cmds) (commandsNote_ownStore s1 u f fun x => (hf x).cmds), ?_, ?_, ?_⟩
  · refine within_same (within_onlyGang ho) ?_
    have codes' : (s1.ownStore u f).syncCodes = s1.syncCodes := by rw [rest]
    rw [codes']
    exact rest
  · rw [rest]
    exact codes
  · rw [hbad.2, ← hbad.1]
    exact (hf a).bad
  · have team : (s1.ownStore u f).team u.team = s1.team u.team := by
      rw [rest]
      rfl
    unfold SameTags
    rw [team, ho.team]
    exact ⟨rfl, rfl⟩

/-- What a store has left of memory stays where a word's end stores nothing more. -/
theorem OwnStored.finished {y t : State} (h : OwnStored s y u) (hn : NoStore y t) (hf : t.fresh = y.fresh) :
    FillsNote s t u ∧ CommandsNote s t ∧ t.syncCodes = s.syncCodes ∧
      t.bad = { s.bad with spad := t.bad.spad } ∧ ∀ n ∈ t.bad.spad, n ∈ s.bad.spad := by
  obtain ⟨-, bad, cores, codes, cmds⟩ := hn
  exact ⟨fillsNote_same h.fills cores hf, commandsNote_trans h.cmds (commandsNote_same cmds), codes.trans h.codes, by rw [bad]; exact h.bad⟩

end

/-! ### ST and STX (R277, R278) -/

/-- The stores of lanes in ascending order, of `w` bytes each, leave what R277 says. -/
theorem lanesStored_writeAll {s t : State} {lanes : Half} {w : Nat} {at_ : Nat → Nat} {x : Nat → Word}
    (hs : t.spad = writeAll at_ (fun l => leBytes w (x l).toNat) (lanesOf lanes) s.spad)
    (hb : t.bad = { s.bad with spad := t.bad.spad } ∧ ∀ n ∈ t.bad.spad, n ∈ s.bad.spad) :
    LanesStored s t lanes w at_ (fun l b => (x l).extractLsb' (8 * b) 8) where
  stored hm l hl hp b hlt later := by
    have len : ∀ k, (leBytes w (x k).toNat).length = w := fun k => leBytes_length _ _
    have hlt' : b < (leBytes w (x l).toNat).length := by rw [len]; exact hlt
    rw [hs, writeAll_last at_ _ _ (lanesOf_sorted lanes) hm (mem_lanesOf.mpr ⟨hl, hp⟩) hlt']
    · exact leBytes_word w (x l) b hlt'
    · intro k hk hlk
      rw [len]
      exact later k hlk (mem_lanesOf.mp hk).1 (mem_lanesOf.mp hk).2
  others y hy := by
    rw [hs, writeAll_other]
    intro l hl
    rw [leBytes_length]
    exact hy l (mem_lanesOf.mp hl).1 (mem_lanesOf.mp hl).2
  bad := hb

/-- A store of the shared path: it takes the traps of its accesses, or stores. -/
theorem store_word {i : Instr} {srcs : List Src} {w : Nat} {addr : Ctx → Nat → Word} {ad : Nat → Word}
    {s s1 : State} {u : Issuer} {vals : List (List Word)} {popped : Bool}
    (h : GangIssues i { srcs := srcs } u s vals s1 popped) (hx : exec i s = storeWord i srcs w addr 1 s)
    (had : addr (ctxOf i u s vals) = ad) :
    LaneTraps i s u w ad .write ∧ (LanesOk s u w ad .write →
      ∃ t, exec i s = .next t ∧ Within s t u ∧ FillsNote s t u ∧ CommandsNote s t ∧ t.syncCodes = s.syncCodes ∧ TagsKept s t u ∧
        LanesStored s t (partOf s u) w (fun l => placeOf s u (ad l)) (fun l b => (valOf vals 1 l).extractLsb' (8 * b) 8) ∧
        Passes (s.gang u.team u.gang) (t.gang u.team u.gang) u.slices) := by
  subst had
  refine ⟨laneTraps_of h hx ⟨_, rfl⟩, fun hok => ?_⟩
  have hg := h.isGang
  obtain ⟨ho, hgang⟩ := onlyGang_operands h.operands
  let c := ctxOf i u s vals
  let at_ := fun l => placeOf s u (addr c l)
  let val := fun l => leBytes w (valOf vals 1 l).toNat
  let stores := fun (x : State) => (lanesOf (partOf s u)).foldl (fun x l => x.spadWrite (at_ l) (val l)) x
  have writes : ∀ x, Writes x (stores x) := writes_foldl (fun x l => writes_spadWrite x (at_ l) (val l)) _
  let y := s1.ownStore u stores
  have effect : OwnStored s y u := ownStored ho writes
  have hy : s1.storeLanes c w (addr c) (c.src 1) = y := by
    unfold State.storeLanes
    rw [ctx_u, ctx_t, ctx_part hg, ctx_src hg]
    rfl
  have spad : y.spad = writeAll at_ val (lanesOf (partOf s u)) s.spad := by
    have old : s1.spad = s.spad := by rw [ho.rest]
    obtain ⟨a, before, after, -⟩ := ownStore_noted s1 u stores
    rw [show y.spad = _ from (noted_spad after).1, show stores a = _ from foldl_spadWrite at_ val (lanesOf (partOf s u)) a]
    exact congrArg (writeAll at_ val _) ((noted_spad before).1.trans old)
  have gang : y.gang u.team u.gang = s.gang u.team u.gang := by
    rw [← hgang]
    exact gang_of_teams (by rw [show y = _ from ownStore_writes writes]) _ _
  obtain ⟨t, ht, within, store, tags, fresh, gang'⟩ := lanes_reach (body := fun c x =>
      stopOr (laneStop c w (addr c) .write) (.ok ((x.storeLanes c w (addr c) (c.src 1)).recordLanes c w (addr c) .write)))
    h (by rw [laneStop_none hg hok, show s1.storeLanes _ _ _ _ = y from hy]; rfl) effect.within effect.tags
  obtain ⟨fills, cmds, codes, bad⟩ := effect.finished store fresh
  refine ⟨t, hx.trans ht, within, fills, cmds, codes, tags, lanesStored_writeAll (store.1.trans spad) bad, ?_⟩
  rw [gang', gang]
  exact passes_finish rfl rfl (State.issuable_gang h.issuable hg)

/-! ### KST (R278) -/

/-- A word of a gang or sidecar whose effect begins with the checks of a uniform access and its race takes their traps. -/
theorem uniformTraps_of {i : Instr} {f : Form} {body : Ctx → State → Except Stop State} {s : State} {u : Issuer} {al w : Nat} {a : Word}
    {k : TagKind} (h : PartyIssues i f u s) (hx : exec i s = issue i f body s)
    (hb : ∀ vals, ∃ rest, body (ctxOf i u s vals) s = stopOr (uniformStop (ctxOf i u s vals) al w a)
      (stopOr (uniformRace (ctxOf i u s vals) w a k) rest)) : UniformTraps i s u al w a k := by
  have stops : ∀ x, (∀ vals rest, stopOr (uniformStop (ctxOf i u s vals) al w a) (stopOr (uniformRace (ctxOf i u s vals) w a k) rest) =
      .error (.trap x)) → exec i s = .next (s.takeTrap u x) := by
    intro x hx'
    rw [hx]
    refine party_stops h (st := .trap x) fun vals => ?_
    obtain ⟨rest, hrest⟩ := hb vals
    rw [hrest, hx']
  refine ⟨⟨fun hm => stops _ fun vals rest => ?_, fun hal ho => stops _ fun vals rest => ?_⟩,
    fun hal hin hg hd n g hr => stops _ fun vals rest => ?_⟩
  · rw [uniformStop_misaligned hm]
    rfl
  · rw [uniformStop_outside hal ho]
    rfl
  · rw [uniform_none hal hin, uniformRace_some hg hd hr]
    rfl

/-- KST takes the traps of its access, or stores its register. -/
theorem kst_word {d a : KNum} {imm : BitVec 12} {s : State} {u : Issuer}
    (h : PartyIssues (.kst d a imm) { ks := [a, d], sidecar := true } u s) :
    let ad := kOf s u a + imm.signExtend 64
    UniformTraps (.kst d a imm) s u 8 8 ad .write ∧ (UniformOk s u 8 8 ad .write →
    ∃ t, exec (.kst d a imm) s = .next t ∧ Within s t u ∧ FillsNote s t u ∧ CommandsNote s t ∧ t.syncCodes = s.syncCodes ∧ TagsKept s t u ∧
      Stored s t (placeOf s u ad) (leBytes 8 (kOf s u d).toNat) ∧ PartyPasses s t u) := by
  intro ad
  refine ⟨uniformTraps_of h rfl fun vals => ?_, fun hok => ?_⟩
  · rw [show ad = (ctxOf (.kst d a imm) u s vals).k a + imm.signExtend 64 by rw [ctx_k]]
    exact ⟨_, rfl⟩
  · let c := ctxOf (.kst d a imm) u s []
    let bs := leBytes 8 (kOf s u d).toNat
    let y := s.ownStore u (fun x => x.spadWrite (placeOf s u ad) bs)
    obtain ⟨rest, fills, stored⟩ := stored_one s u (placeOf s u ad) bs
    have cmds : CommandsNote s y := commandsNote_ownStore s u _ fun x => commandsNote_spadWrite x _ _
    have codes : y.syncCodes = s.syncCodes := by rw [show y = _ from rest]
    have hR := recorded_range y c 8 ad .write
    rw [ctx_u] at hR
    obtain ⟨t, ht, within, store, tags, fresh, passes⟩ := party_store (body := fun c x =>
        let ad := c.k a + imm.signExtend 64
        stopOr (uniformStop c 8 8 ad) (stopOr (uniformRace c 8 ad .write)
          (.ok ((x.ownStore c.u (fun x => x.spadSet (c.t.key ad.toNat) 8 (c.k d).toNat)).recordRange c 8 ad .write))))
      h rfl rfl (by rw [codes]; exact rest) (fun vals => by
        rw [ctx_k]
        show stopOr (uniformStop _ 8 8 ad) (stopOr (uniformRace _ 8 ad .write) (.ok _)) = _
        rw [uniformStop_none hok, uniformRace_none hok, recordRange_vals, ctx_u, ctx_t, ctx_k, place_key]
        rfl) hR det_false
    obtain ⟨spad, bad, cores, codes', cmds'⟩ := store
    exact ⟨t, ht, within, fillsNote_same fills cores fresh, commandsNote_trans cmds (commandsNote_same cmds'), codes'.trans codes, tags,
      stored_same stored spad bad, passes⟩

/-- Settles O40: ST and STX are stores of the shared path, and KST is its uniform form. -/
theorem scratchStores : Obligations.ScratchStores := by
  refine ⟨fun i srcs w ad val s u vals s1 popped hrow h hval => ?_, fun d a imm s u h => kst_word h⟩
  subst hval
  have src := ctx_src (i := i) (s := s) (vals := vals) h.isGang
  rcases hrow with ⟨m, a, b, wa, wb, rfl, rfl, rfl, rfl⟩ | ⟨d, a, imm, rfl, rfl, rfl, rfl⟩
  · exact store_word (addr := addrA) h rfl (by unfold addrA; rw [src])
  · exact store_word (addr := addrImm imm) h rfl (by unfold addrImm; rw [src])

end Sys2Proof.Machine
end

section
namespace Sys2Proof.Machine

open Sys2Proof Sys2Proof.Safety

/-! ### Read-modify-writes of lanes in order (R279) -/

section
variable {free w : Nat} {at_ : Nat → Nat} {fn : Nat → Nat → Nat × Causes}

/-- One lane's read-modify-write: the state, and what lanes have got so far. -/
def rmwStep (free w : Nat) (at_ : Nat → Nat) (fn : Nat → Nat → Nat × Causes) (x : State × List (Nat × Nat × Causes)) (l : Nat) :
    State × List (Nat × Nat × Causes) :=
  let old := x.1.seenNat (free + 8 * l) (at_ l) w
  (x.1.spadSet (at_ l) w (fn l old).1, x.2 ++ [(l, old, (fn l old).2)])

/-- The lanes' read-modify-writes as the model's word runs them. -/
theorem rmwLanes_eq {i : Instr} {u : Issuer} {s : State} {vals : List (List Word)} (hg : u.gang ≠ 16) (x : State) :
    x.rmwLanes (ctxOf i u s vals) w fn =
      (lanesOf (partOf s u)).foldl (rmwStep x.fresh w (fun l => placeOf s u (valOf vals 0 l)) fn) (x, []) := by
  unfold State.rmwLanes
  rw [ctx_part hg, ctx_src hg, ctx_t]
  rfl

/-- The lanes only write to the scratchpad. -/
theorem rmw_writes : ∀ (ls : List Nat) (x : State × List (Nat × Nat × Causes)), Writes x.1 (ls.foldl (rmwStep free w at_ fn) x).1
  | [], x => writes_refl x.1
  | l :: ls, x => writes_trans (writes_spadWrite x.1 (at_ l) _) (rmw_writes ls (rmwStep free w at_ fn x l))

/-- A byte outside every lane's element is as it was. -/
theorem rmw_other {y : Nat} : ∀ (ls : List Nat) (x : State × List (Nat × Nat × Causes)), (∀ l ∈ ls, y < at_ l ∨ at_ l + w ≤ y) →
    memGet (ls.foldl (rmwStep free w at_ fn) x).1.spad y = memGet x.1.spad y
  | [], _, _ => rfl
  | l :: ls, x, h => by
    rw [List.foldl_cons, rmw_other ls _ fun k hk => h k (List.mem_cons_of_mem _ hk)]
    exact memGet_memWrite_other _ _ _ _ (by rw [leBytes_length]; exact h l List.mem_cons_self)

/-- Every lane gets, with its old element, the causes of its operation on that. -/
def Accounts (fn : Nat → Nat → Nat × Causes) (ls : List Nat) (gots : List (Nat × Nat × Causes)) : Prop :=
  gots.map (·.1) = ls ∧ ∀ e ∈ gots, e.2.2 = (fn e.1 e.2.1).2

theorem rmw_accounts : ∀ (ls done : List Nat) (x : State × List (Nat × Nat × Causes)), Accounts fn done x.2 →
    Accounts fn (done ++ ls) (ls.foldl (rmwStep free w at_ fn) x).2
  | [], done, x, h => by rwa [List.append_nil]
  | l :: ls, done, x, ⟨hl, hc⟩ => by
    have step : Accounts fn (done ++ [l]) (rmwStep free w at_ fn x l).2 := by
      refine ⟨by simp [rmwStep, hl], fun e he => ?_⟩
      rcases List.mem_append.mp he with h | h
      · exact hc e h
      · rw [List.mem_singleton.mp h]
    have := rmw_accounts ls _ _ step
    rwa [List.append_assoc] at this

theorem laneGot_causes {ls : List Nat} {gots : List (Nat × Nat × Causes)} (h : Accounts fn ls gots) {l : Nat} (hl : l ∈ ls) :
    (laneGot gots l).2 = (fn l (laneGot gots l).1).2 := by
  obtain ⟨hm, hc⟩ := h
  cases hf : gots.find? (fun x => x.1 = l) with
  | none =>
    rw [← hm] at hl
    obtain ⟨e, he, rfl⟩ := List.mem_map.mp hl
    exact absurd (decide_eq_true rfl) (List.find?_eq_none.mp hf e he)
  | some e =>
    have el : e.1 = l := by simpa using List.find?_some hf
    unfold laneGot
    rw [hf, ← el]
    exact hc e (List.mem_of_find?_eq_some hf)

/-! Where nothing is undefined. -/

/-- What the lanes get of a memory where nothing is undefined. -/
def plainGots (w : Nat) (at_ : Nat → Nat) (fn : Nat → Nat → Nat × Causes) : List Nat → List Host.Cell → List (Nat × Nat × Causes)
  | [], _ => []
  | l :: ls, m => (l, memNat m (at_ l) w, (fn l (memNat m (at_ l) w)).2) ::
      plainGots w at_ fn ls (memSet m (at_ l) w (fn l (memNat m (at_ l) w)).1)

/-- A write leaves what programs may not see. -/
theorem veils_spadWrite (s : State) (a : Nat) (bs : List Byte) (key n : Nat) : (s.spadWrite a bs).veils key n = s.veils key n := by
  have regions : ∀ (c : Cmd) (b k n : Nat), (c.note b k n).regions = c.regions ∧ (c.note b k n).skipper = c.skipper ∧
      (c.note b k n).skip.observed = c.skip.observed ∧ (c.note b k n).team = c.team := fun c b k n => by
    rw [note_same]
    exact ⟨rfl, rfl, rfl, rfl⟩
  have team : ∀ v, (s.spadWrite a bs).team v = s.team v := fun _ => rfl
  unfold State.veils State.veiled
  rw [show (s.spadWrite a bs).cmds = s.cmds.map _ from rfl]
  simp only [List.any_map, Function.comp_def, team, regions]

theorem rmw_plain : ∀ (ls : List Nat) (x : State × List (Nat × Nat × Causes)), (∀ l ∈ ls, x.1.veils (at_ l) w = false) →
    (ls.foldl (rmwStep free w at_ fn) x).1.spad = rmwMem w at_ (fun l o => (fn l o).1) ls x.1.spad ∧
    (ls.foldl (rmwStep free w at_ fn) x).2 = x.2 ++ plainGots w at_ fn ls x.1.spad
  | [], x, _ => ⟨rfl, (List.append_nil _).symm⟩
  | l :: ls, x, h => by
    have old : x.1.seenNat (free + 8 * l) (at_ l) w = memNat x.1.spad (at_ l) w := State.seenNat_plain (h l List.mem_cons_self) _
    have step : rmwStep free w at_ fn x l = (x.1.spadSet (at_ l) w (fn l (memNat x.1.spad (at_ l) w)).1,
        x.2 ++ [(l, memNat x.1.spad (at_ l) w, (fn l (memNat x.1.spad (at_ l) w)).2)]) := by
      unfold rmwStep
      rw [old]
    obtain ⟨spad, gots⟩ := rmw_plain ls (rmwStep free w at_ fn x l) fun k hk => by
      rw [step]
      exact (veils_spadWrite ..).trans (h k (List.mem_cons_of_mem _ hk))
    rw [step] at spad gots
    rw [List.foldl_cons, step]
    exact ⟨spad, gots.trans (by rw [List.append_assoc]; rfl)⟩

/-- A lane gets the element that the lower lanes have left. -/
theorem laneGot_plain {l : Nat} : ∀ (ls : List Nat) (m : List Host.Cell), ls.Pairwise (· < ·) → l ∈ ls →
    (laneGot (plainGots w at_ fn ls m) l).1 = memNat (rmwMem w at_ (fun l o => (fn l o).1) (ls.filter (· < l)) m) (at_ l) w
  | [], _, _, h => by cases h
  | k :: ls, m, hp, h => by
    obtain ⟨above, hp⟩ := List.pairwise_cons.mp hp
    by_cases e : k = l
    · subst e
      have none : (k :: ls).filter (· < k) = [] := List.filter_eq_nil_iff.mpr fun j hj => by
        rcases List.mem_cons.mp hj with rfl | hj
        · simp
        · simpa using Nat.le_of_lt (above j hj)
      rw [none]
      simp [laneGot, plainGots, rmwMem]
    · have hl : l ∈ ls := (List.mem_cons.mp h).resolve_left (Ne.symm e)
      have ih := laneGot_plain ls (memSet m (at_ k) w (fn k (memNat m (at_ k) w)).1) hp hl
      have skip : laneGot (plainGots w at_ fn (k :: ls) m) l =
          laneGot (plainGots w at_ fn ls (memSet m (at_ k) w (fn k (memNat m (at_ k) w)).1)) l := by
        simp [laneGot, plainGots, e]
      rw [skip, ih, List.filter_cons_of_pos (by simpa using above l hl)]
      rfl

end

/-! ### A scratchpad atomic -/

/-- A word of the shared path of atomics issues, with how its accesses are recorded and what its lanes do. -/
structure AtomicIssues (i : Instr) (f : Form) (d : VNum) (kind : TagKind) (fn : Nat → Nat → Nat × Causes) (s : State) (u : Issuer)
    (vals : List (List Word)) (s1 : State) (popped : Bool) : Prop extends GangIssues i f u s vals s1 popped where
  jumps : f.jumps = false
  merges : f.merges = false
  path : ∃ k g, exec i s = atomicWord i f d k g s ∧ k (ctxOf i u s vals) = kind ∧ g (ctxOf i u s vals) = fn

/-- A register written and its causes raised change the gang alone. -/
theorem writeV_raise_modGang (x : State) (u : Issuer) (d : VNum) (m : Half) (v : Nat → Word) (pc : Addr) (cs : Nat → Causes) :
    ∃ f, (x.writeV u d m v).raise u.team u.gang pc m cs = x.modGang u.team u.gang f := by
  unfold State.writeV State.raise State.raiseIn
  exact ⟨_, modGang_modGang ..⟩

/-- The log depends on the causes of the lanes given alone. -/
theorem logRaised_congr {s : State} {u : Issuer} {lanes : Half} {cs cs' : Nat → Causes}
    (h : ∀ l, l < 32 → lanes.getLsbD l = true → cs l = cs' l) : logRaised s u lanes cs = logRaised s u lanes cs' := by
  have masks : ∀ n, (fun l => lanes.getLsbD l && (cs l).getLsbD n) = fun l => lanes.getLsbD l && (cs' l).getLsbD n := fun n => by
    funext l
    cases hl : lanes.getLsbD l with
    | false => rfl
    | true => rw [h l (BitVec.lt_of_getLsbD hl) hl]
  unfold logRaised
  simp only [masks]

/-- A register written depends on the values of the lanes given alone. -/
theorem vectorResult_congr {g g' : Gang} {slices : BitVec 8} {lanes : Half} {d : VNum} {v v' : Nat → Word}
    (h : VectorResult g g' slices lanes d v) (hv : ∀ l, l < 32 → lanes.getLsbD l = true → v l = v' l) :
    VectorResult g g' slices lanes d v' where
  toGangKeeps := h.toGangKeeps
  k := h.k
  lane := h.lane
  regs l hl r := by
    rw [h.regs l hl r]
    by_cases e : lanes.getLsbD l = true ∧ r = d
    · rw [if_pos e, if_pos e, hv l hl e.1]
    · rw [if_neg e, if_neg e]

section
variable {i : Instr} {f : Form} {d : VNum} {kind : TagKind} {fn : Nat → Nat → Nat × Causes} {s s1 : State} {u : Issuer}
  {vals : List (List Word)} {popped : Bool}

/-- Where a lane's element lies. -/
def elemAt (s : State) (u : Issuer) (vals : List (List Word)) (l : Nat) : Nat := placeOf s u (valOf vals 0 l)
/-- How many bytes an element takes. -/
def elemBytes (s : State) (u : Issuer) : Nat := (etOf s u).width / 8
/-- The lanes' read-modify-writes, from a state. -/
def rmwFrom (s : State) (u : Issuer) (vals : List (List Word)) (fn : Nat → Nat → Nat × Causes) (x : State) :
    State × List (Nat × Nat × Causes) :=
  (lanesOf (partOf s u)).foldl (rmwStep x.fresh (elemBytes s u) (elemAt s u vals) fn) (x, [])
/-- The scratchpad after an atomic. -/
def rmwStored (s s1 : State) (u : Issuer) (vals : List (List Word)) (fn : Nat → Nat → Nat × Causes) : State :=
  s1.ownStore u (fun x => (rmwFrom s u vals fn x).1)
/-- The effect of an atomic before its accesses are recorded. -/
def rmwDone (s s1 : State) (u : Issuer) (vals : List (List Word)) (fn : Nat → Nat → Nat × Causes) (d : VNum) : State :=
  let y := rmwStored s s1 u vals fn
  let gots := (rmwFrom s u vals fn s1).2
  let y := if (lanesOf (partOf s u)).any (fun l => s1.veils (elemAt s u vals l) (elemBytes s u)) then { y with fresh := y.fresh + 256 } else y
  (y.writeV u d (partOf s u) (fun l => BitVec.ofNat 64 (laneGot gots l).1)).raise u.team u.gang (pcAt s u) (partOf s u)
    (fun l => (laneGot gots l).2)

/-- The word: the checks of the lanes' accesses, sound words, and the effect. -/
theorem AtomicIssues.exec_eq (h : AtomicIssues i f d kind fn s u vals s1 popped) : ∃ body, exec i s = issue i f body s ∧
    body (ctxOf i u s vals) s1 = stopOr (laneStop (ctxOf i u s vals) (elemBytes s u) (valOf vals 0) kind)
      (stopOr (need (!(lanesOf (partOf s u)).any (fun l => s1.spadBad (elemAt s u vals l) (elemBytes s u)))
        (.trap (memPoison s1 (s.team u.team) 64)))
      (.ok ((rmwDone s s1 u vals fn d).recordLanes (ctxOf i u s vals) (elemBytes s u) (valOf vals 0) kind))) := by
  have hg := h.isGang
  obtain ⟨k, g, hx, rfl, rfl⟩ := h.path
  refine ⟨_, hx, ?_⟩
  have address : addrA (ctxOf i u s vals) = valOf vals 0 := by
    unfold addrA
    rw [ctx_src hg]
  have pc : (ctxOf i u s vals).pc = pcAt s u := by
    rw [ctxOf_gang hg]
    rfl
  simp only [rmwLanes_eq hg]
  rw [address, ctx_et hg, ctx_u, ctx_part hg, ctx_src hg, ctx_t, pc]
  rfl

/-- The lanes' read-modify-writes only write to the scratchpad. -/
theorem rmwFrom_writes (x : State) : Writes x (rmwFrom s u vals fn x).1 := rmw_writes _ (x, [])

/-- What the scratchpad holds after an atomic: what the lanes leave of a state with the same scratchpad and the same undefined bytes. -/
theorem rmwStored_spad (ho : OnlyGang s s1 u) : ∃ a, (rmwStored s s1 u vals fn).spad = (rmwFrom s u vals fn a).1.spad ∧
    a.spad = s.spad ∧ ∀ key n, a.veils key n = s.veils key n := by
  obtain ⟨a, before, after, -⟩ := ownStore_noted s1 u (fun x => (rmwFrom s u vals fn x).1)
  have old : s1.spad = s.spad := by rw [ho.rest]
  refine ⟨a, (noted_spad after).1, (noted_spad before).1.trans old, fun key n => ?_⟩
  rw [← (sameView_onlyGang ho).veils, before.rest]
  rfl

/-- A byte outside every lane's element is as it was. -/
theorem rmwStored_other (ho : OnlyGang s s1 u) {x : Nat} (hx : ∀ l, l < 32 → (partOf s u).getLsbD l = true →
    x < elemAt s u vals l ∨ elemAt s u vals l + elemBytes s u ≤ x) :
    memGet (rmwStored s s1 u vals fn).spad x = memGet s.spad x := by
  obtain ⟨a, hspad, old, -⟩ := rmwStored_spad (vals := vals) (fn := fn) ho
  rw [hspad, ← old]
  exact rmw_other _ (a, []) fun l hl => hx l (mem_lanesOf.mp hl).1 (mem_lanesOf.mp hl).2

/-- Where nothing is undefined the scratchpad takes the new elements in the lanes' order. -/
theorem rmwStored_plain (ho : OnlyGang s s1 u)
    (hv : ∀ l, l < 32 → (partOf s u).getLsbD l = true → s.veils (elemAt s u vals l) (elemBytes s u) = false) :
    (rmwStored s s1 u vals fn).spad =
      rmwMem (elemBytes s u) (elemAt s u vals) (fun l o => (fn l o).1) (lanesOf (partOf s u)) s.spad := by
  obtain ⟨a, hspad, old, view⟩ := rmwStored_spad (vals := vals) (fn := fn) ho
  rw [hspad, ← old]
  exact (rmw_plain _ (a, []) fun l hl => (view _ _).trans (hv l (mem_lanesOf.mp hl).1 (mem_lanesOf.mp hl).2)).1

/-- And a lane takes the element that the lower lanes have left. -/
theorem rmwFrom_plain (ho : OnlyGang s s1 u)
    (hv : ∀ l, l < 32 → (partOf s u).getLsbD l = true → s.veils (elemAt s u vals l) (elemBytes s u) = false)
    {l : Nat} (hl : l < 32) (hp : (partOf s u).getLsbD l = true) :
    (laneGot (rmwFrom s u vals fn s1).2 l).1 =
      rmwOld (elemBytes s u) (elemAt s u vals) (fun l o => (fn l o).1) (partOf s u) s.spad l := by
  have old : s1.spad = s.spad := by rw [ho.rest]
  obtain ⟨-, gots⟩ := rmw_plain (free := s1.fresh) (fn := fn) (lanesOf (partOf s u)) (s1, []) fun l hl =>
    ((sameView_onlyGang ho).veils _ _).trans (hv l (mem_lanesOf.mp hl).1 (mem_lanesOf.mp hl).2)
  unfold rmwFrom
  rw [gots, List.nil_append, laneGot_plain _ _ (lanesOf_sorted _) (mem_lanesOf.mpr ⟨hl, hp⟩), old]
  rfl

/-- The causes that a lane's operation raises on the element it takes. -/
theorem rmwFrom_causes {x : State} {l : Nat} (hl : l < 32) (hp : (partOf s u).getLsbD l = true) :
    (laneGot (rmwFrom s u vals fn x).2 l).2 = (fn l (laneGot (rmwFrom s u vals fn x).2 l).1).2 :=
  laneGot_causes (rmw_accounts (lanesOf (partOf s u)) [] (x, []) ⟨rfl, fun e he => by cases he⟩) (mem_lanesOf.mpr ⟨hl, hp⟩)

/-- The state that an atomic's register is written in: the stored one, past the free values that it has drawn. -/
theorem rmwDone_eq (s s1 : State) (u : Issuer) (vals : List (List Word)) (fn : Nat → Nat → Nat × Causes) (d : VNum) :
    ∃ n, rmwDone s s1 u vals fn d = (({ rmwStored s s1 u vals fn with fresh := n } : State).writeV u d (partOf s u)
        (fun l => BitVec.ofNat 64 (laneGot (rmwFrom s u vals fn s1).2 l).1)).raise u.team u.gang (pcAt s u) (partOf s u)
        (fun l => (laneGot (rmwFrom s u vals fn s1).2 l).2) ∧
      ((∀ l, l < 32 → (partOf s u).getLsbD l = true → s1.veils (elemAt s u vals l) (elemBytes s u) = false) →
        n = (rmwStored s s1 u vals fn).fresh) := by
  unfold rmwDone
  dsimp only
  split
  next h =>
    refine ⟨_, rfl, fun hv => ?_⟩
    obtain ⟨l, hl, hb⟩ := List.any_eq_true.mp h
    rw [hv l (mem_lanesOf.mp hl).1 (mem_lanesOf.mp hl).2] at hb
    cases hb
  next => exact ⟨(rmwStored s s1 u vals fn).fresh, rfl, fun _ => rfl⟩

/-- What an atomic's effect leaves beyond the gang's registers and log. -/
theorem rmwDone_store (ho : OnlyGang s s1 u) :
    Within s (rmwDone s s1 u vals fn d) u ∧ NoStore (rmwStored s s1 u vals fn) (rmwDone s s1 u vals fn d) ∧
    SameTags s (rmwDone s s1 u vals fn d) u ∧
    ((∀ l, l < 32 → (partOf s u).getLsbD l = true → s.veils (elemAt s u vals l) (elemBytes s u) = false) →
      (rmwDone s s1 u vals fn d).fresh = (rmwStored s s1 u vals fn).fresh) := by
  have effect : OwnStored s (rmwStored s s1 u vals fn) u := ownStored ho rmwFrom_writes
  obtain ⟨n, hd, hn⟩ := rmwDone_eq s s1 u vals fn d
  generalize rmwStored s s1 u vals fn = y at effect hd hn
  obtain ⟨g, hg⟩ := writeV_raise_modGang ({ y with fresh := n } : State) u d (partOf s u)
    (fun l => BitVec.ofNat 64 (laneGot (rmwFrom s u vals fn s1).2 l).1) (pcAt s u) (fun l => (laneGot (rmwFrom s u vals fn s1).2 l).2)
  rw [hd, hg]
  have team : (({ y with fresh := n } : State).modGang u.team u.gang g).team u.team = (y.team u.team).modGang u.gang g :=
    State.team_modTeam_same { y with fresh := n } u.team fun x => x.modGang u.gang g
  refine ⟨within_modGang (within_same effect.within rfl) g, ⟨rfl, rfl, rfl, rfl, rfl⟩, ?_, fun hv => ?_⟩
  · unfold SameTags
    rw [team]
    exact effect.tags
  · exact hn fun l hl hp => ((sameView_onlyGang ho).veils _ _).trans (hv l hl hp)

/-- The gang after an atomic's effect. -/
theorem rmwDone_gang (ho : OnlyGang s s1 u) (hgang : s1.gang u.team u.gang = s.gang u.team u.gang) :
    (rmwDone s s1 u vals fn d).gang u.team u.gang =
      { (s.gang u.team u.gang).writeV d (partOf s u) (fun l => BitVec.ofNat 64 (laneGot (rmwFrom s u vals fn s1).2 l).1) with
        log := logRaised s u (partOf s u) (fun l => (laneGot (rmwFrom s u vals fn s1).2 l).2) } := by
  obtain ⟨n, hd, -⟩ := rmwDone_eq s s1 u vals fn d
  have rest := ownStore_writes (s1 := s1) (u := u) (rmwFrom_writes (s := s) (u := u) (vals := vals) (fn := fn))
  have team : ∀ v, ({ rmwStored s s1 u vals fn with fresh := n } : State).team v = s1.team v := fun v => by
    rw [show rmwStored s s1 u vals fn = _ from rest]
    rfl
  have gang : ({ rmwStored s s1 u vals fn with fresh := n } : State).gang u.team u.gang = s.gang u.team u.gang := by
    rw [← hgang]
    exact congrArg (Team.gang · u.gang) (team u.team)
  have cycle : (rmwStored s s1 u vals fn).cycle = s.cycle := by
    rw [show rmwStored s s1 u vals fn = _ from rest, ho.rest]
  have core : (s1.team u.team).core = (s.team u.team).core := by rw [ho.team]
  rw [hd, State.gang_writeV_raise, gang, team, core]
  dsimp only
  rw [cycle]
  rfl

/-- An atomic takes the traps of its accesses. -/
theorem AtomicIssues.traps (h : AtomicIssues i f d kind fn s u vals s1 popped) :
    LaneTraps i s u (elemBytes s u) (valOf vals 0) kind := by
  obtain ⟨body, hx, hb⟩ := h.exec_eq
  exact laneTraps_of h.toGangIssues hx ⟨_, hb⟩

/-- An atomic of a word that no correction restores traps with POISON. -/
theorem AtomicIssues.poison (h : AtomicIssues i f d kind fn s u vals s1 popped) (hok : LanesOk s u (elemBytes s u) (valOf vals 0) kind)
    (hbad : ∃ l, l < 32 ∧ (partOf s u).getLsbD l = true ∧ s.spadBad (elemAt s u vals l) (elemBytes s u) = true) :
    exec i s = .next (s.takeTrap u (badWordTrap s u)) := by
  obtain ⟨body, hx, hb⟩ := h.exec_eq
  obtain ⟨l, hl, hp, hbl⟩ := hbad
  obtain ⟨ho, -⟩ := onlyGang_operands h.operands
  have bad : (lanesOf (partOf s u)).any (fun l => s1.spadBad (elemAt s u vals l) (elemBytes s u)) = true :=
    List.any_eq_true.mpr ⟨l, mem_lanesOf.mpr ⟨hl, hp⟩, ((sameView_onlyGang ho).bad _ _).trans hbl⟩
  have trap : memPoison s1 (s.team u.team) 64 = badWordTrap s u := by
    unfold memPoison badWordTrap
    rw [ho.parts]
    rfl
  rw [laneStop_none h.isGang hok, bad, trap] at hb
  rw [hx]
  exact issue_stops h.toIssues hb

/-- An atomic whose accesses pass and whose words are sound completes. -/
theorem AtomicIssues.completes (h : AtomicIssues i f d kind fn s u vals s1 popped) (hok : LanesOk s u (elemBytes s u) (valOf vals 0) kind)
    (hgood : ∀ l, l < 32 → (partOf s u).getLsbD l = true → s.spadBad (elemAt s u vals l) (elemBytes s u) = false) :
    ∃ t, exec i s = .next t ∧ Within s t u ∧ TagsKept s t u ∧ NoStore (rmwStored s s1 u vals fn) t ∧
      ((∀ l, l < 32 → (partOf s u).getLsbD l = true → s.veils (elemAt s u vals l) (elemBytes s u) = false) →
        t.fresh = (rmwStored s s1 u vals fn).fresh) ∧
      VectorResult (s.gang u.team u.gang) (t.gang u.team u.gang) u.slices (partOf s u) d
        (fun l => BitVec.ofNat 64 (laneGot (rmwFrom s u vals fn s1).2 l).1) ∧
      (t.gang u.team u.gang).log = logRaised s u (partOf s u) (fun l => (fn l (laneGot (rmwFrom s u vals fn s1).2 l).1).2) := by
  obtain ⟨body, hx, hb⟩ := h.exec_eq
  obtain ⟨ho, hgang⟩ := onlyGang_operands h.operands
  have good : (lanesOf (partOf s u)).any (fun l => s1.spadBad (elemAt s u vals l) (elemBytes s u)) = false :=
    List.any_eq_false.mpr fun l hl => by
      rw [(sameView_onlyGang ho).bad, hgood l (mem_lanesOf.mp hl).1 (mem_lanesOf.mp hl).2]
      decide
  rw [laneStop_none h.isGang hok, good] at hb
  obtain ⟨hw, store, tags, fresh⟩ := rmwDone_store (d := d) (vals := vals) (fn := fn) ho
  obtain ⟨t, ht, within, store', kept, fresh', gang⟩ := lanes_reach h.toGangIssues hb hw tags
  rw [rmwDone_gang ho hgang] at gang
  refine ⟨t, hx.trans ht, within, kept, noStore_trans store store', fun hv => fresh'.trans (fresh hv), ?_, ?_⟩
  · rw [gang]
    exact vectorResult_finish h.jumps h.merges (State.issuable_gang h.issuable h.isGang) d _ _ _
  · rw [gang, finishGang_keeps]
    exact logRaised_congr fun l hl hp => rmwFrom_causes hl hp

/-- ATOM and ACAS are atomics of the shared path. -/
theorem atomicIssues_of
    (hrow : (∃ op a b wa wb, i = .atom op d a b wa wb ∧ f = { srcs := [⟨a, wa⟩, ⟨b, wb⟩], dsts := [d], mode := readsEt (atomLegal op), closes := true } ∧
       kind = atomKind op (etOf s u) ∧ fn = fun l old => atomOp op (etOf s u) (mdOf s u) old (subGet (etOf s u).width (valOf vals 1 l) 0)) ∨
     (∃ a b wa wb, i = .acas d a b wa wb ∧ f = { srcs := [⟨a, wa⟩, ⟨b, wb⟩, ⟨d, false⟩], dsts := [d], mode := readsEt notSmall, closes := true } ∧
       kind = .write ∧ fn = fun l old => (if old = subGet (etOf s u).width (valOf vals 2 l) 0 then subGet (etOf s u).width (valOf vals 1 l) 0
         else old, noCause)))
    (h : GangIssues i f u s vals s1 popped) : AtomicIssues i f d kind fn s u vals s1 popped := by
  have hg := h.isGang
  rcases hrow with ⟨op, a, b, wa, wb, rfl, rfl, rfl, rfl⟩ | ⟨a, b, wa, wb, rfl, rfl, rfl, rfl⟩
  · exact ⟨h, rfl, rfl, _, _, rfl, by rw [ctx_et hg], by rw [ctx_et hg, ctx_modes hg, ctx_src hg]⟩
  · exact ⟨h, rfl, rfl, _, _, rfl, rfl, by rw [ctx_et hg, ctx_src hg]⟩

end

/-- Settles O41: ATOM and ACAS are words of the shared path of atomics, whose lanes read, modify and write one after the other. -/
theorem scratchAtomics : Obligations.ScratchAtomics := by
  intro i f kind fn d s u vals s1 popped g et hrow hi w at_
  have h := atomicIssues_of hrow hi
  obtain ⟨ho, -⟩ := onlyGang_operands hi.operands
  have effect : OwnStored s (rmwStored s s1 u vals fn) u := ownStored ho rmwFrom_writes
  refine ⟨h.traps, h.poison, fun hok hgood => ?_, fun hok hplain => ?_⟩
  · obtain ⟨t, ht, within, tags, store, -, result, log⟩ := h.completes hok hgood
    obtain ⟨spad, -, -, codes, cmds⟩ := store
    refine ⟨t, fun l => (laneGot (rmwFrom s u vals fn s1).2 l).1, ht, within, commandsNote_trans effect.cmds (commandsNote_same cmds),
      codes.trans effect.codes, tags, fun x hx => ?_, result, log⟩
    rw [spad]
    exact rmwStored_other ho hx
  · have plain : ∀ l, l < 32 → (partOf s u).getLsbD l = true → s.veils (at_ l) w = false := fun l hl hp => (hplain l hl hp).2
    obtain ⟨t, ht, within, tags, store, fresh, result, log⟩ := h.completes hok fun l hl hp => (hplain l hl hp).1
    obtain ⟨fills, cmds, codes, bad⟩ := effect.finished store (fresh plain)
    refine ⟨t, ht, within, fills, cmds, codes, tags, store.1.trans (rmwStored_plain ho plain), fun x hx => ?_, bad, ?_, ?_⟩
    · rw [store.1]
      exact rmwStored_other ho hx
    · exact vectorResult_congr result fun l hl hp => congrArg _ (rmwFrom_plain ho plain hl hp)
    · rw [log]
      refine logRaised_congr fun l hl hp => ?_
      rw [rmwFrom_plain ho plain hl hp]
      rfl

end Sys2Proof.Machine
end

section
namespace Sys2Proof.Machine

open Sys2Proof Sys2Proof.Safety

/-! ### Uniform words of a gang (R141) -/

/-- A form without sources pops no queue. -/
theorem issues_popped {i : Instr} {f : Form} {u : Issuer} {s s1 : State} {vals : List (List Word)} {popped : Bool}
    (h : GangIssues i f u s vals s1 popped) (hs : f.srcs = []) (hd : f.dsts = []) : popped = false := by
  have := h.operands
  rw [operandsOf_none hs hd] at this
  cases this
  rfl

/-- A k register written outside a recipe's body by a word that neither closes nor pops: an open region stays open unless a register
that the INSTAR names has been written (R379, R380). -/
theorem rewindable_finish_writeK {f : Form} {u : Issuer} {g : Gang} (hc : f.closes = false) (hb : g.instar.body = none) (d : KNum) (w : Word) :
    (finishGang f false u (g.writeK d w)).instar.rewindable =
      (g.instar.rewindable && decide ((g.instar.kdirty ||| (1#32 <<< d.toNat)) &&& g.instar.kmask = 0#32)) := by
  have open_ := finishGang_rewindable f false u (g.writeK d w) hb
  rw [hc, Bool.or_false, Bool.not_false, Bool.and_true] at open_
  exact open_

/-- Settles O15: a uniform word of a gang is a write of one of its k registers. -/
theorem uniformWords : Obligations.UniformWords := by
  intro i sp h s u vals s1 popped hi
  obtain ⟨f, hx, hf⟩ := uniformSpec_row h
  obtain rfl : popped = false := issues_popped hi rfl rfl
  have hk : (ctxOf i u s vals).k = (s.gang u.team u.gang).kreg := by
    funext k
    rw [ctx_k, kOf, if_neg hi.isGang]
  rw [hx]
  obtain ⟨t, ht, hO, hK, hG⟩ := k_word (body := fun c s => .ok (s.writeK c.u sp.d (f c))) hi rfl rfl sp.d
    (sp.val (s.gang u.team u.gang).kreg) (by rw [ctx_u, hf, hk])
  refine ⟨t, ht, hO, hK, fun hb => ?_⟩
  rw [hG, rewindable_finish_writeK rfl hb]

end Sys2Proof.Machine
end

section
namespace Sys2Proof.Machine

open Sys2Proof Sys2Proof.Safety

/-! ### Where an arrival at a member mask stops (R134, R242) -/

/-- The named lanes of arrived slices that are not active. -/
def awayLanes (g : Gang) (first : Half) (arrived : BitVec 8) : Half :=
  maskOf (fun l => first.getLsbD l && arrived.getLsbD (l / 4) && !(g.activeOf arrived).getLsbD l)

/-- The rows of R242 that stop a unit which arrives with a mask that is not zero. -/
def arrivalStop (g : Gang) (slices : BitVec 8) (pc : Addr) (mask : Half) : Option Stop :=
  let held := g.memberHeld pc &&& ~~~ slices
  let first := (g.firstMask held).getD mask
  let arrived := held ||| slices
  let detail := BitVec.ofNat 64 first.toNat
  if first &&& g.exitedLanes ≠ 0#32 then
    some (.trap { cause := .memberExited, lanes := some (first &&& g.exitedLanes), detail := detail, slices := some arrived })
  else if awayLanes g first arrived ≠ 0#32 then
    some (.trap { cause := .convergence, lanes := some (awayLanes g first arrived), detail := detail })
  else if mask ≠ first then some (.trap { cause := .convergence, lanes := some (mask ^^^ first), detail := detail })
  else if first &&& ~~~ g.activeOf arrived ≠ 0#32 then some (.wait (.member mask (g.nextRank held)) none)
  else none

/-- All lanes of the slices of a mask. -/
theorem getLsbD_laneMask_whole (m : BitVec 8) {l : Nat} (hl : l < 32) : (laneMask m (fun _ => 15#4)).getLsbD l = m.getLsbD (l / 4) := by
  have whole : (15#4).getLsbD (l % 4) = true := by
    have : l % 4 < 4 := by omega
    rw [show 15#4 = BitVec.allOnes 4 from rfl, BitVec.getLsbD_allOnes, decide_eq_true this]
  unfold laneMask
  rw [getLsbD_maskOf _ hl, whole, Bool.and_true]

/-- The lanes that `meet` reports as not active. -/
theorem awayLanes_eq (g : Gang) (first : Half) (arrived : BitVec 8) :
    awayLanes g first arrived = first &&& laneMask arrived (fun _ => 15#4) &&& ~~~ g.activeOf arrived := by
  apply BitVec.eq_of_getLsbD_eq
  intro l hl
  unfold awayLanes
  rw [getLsbD_maskOf _ hl, BitVec.getLsbD_and, BitVec.getLsbD_and, BitVec.getLsbD_not, getLsbD_laneMask_whole arrived hl,
    decide_eq_true hl, Bool.true_and]

/-- An arrival that one of the rows stops, stops there, whatever the word's effect. -/
theorem meet_stops {i : Instr} {kf : BitVec 4} {effect : Meeting → State → Except Stop State} {s s1 : State} {u : Issuer}
    {vals : List (List Word)} {st : Stop} (hg : u.gang ≠ 16)
    (hz : ((s.gang u.team u.gang).kreg (kf.setWidth 5)).setWidth 32 ≠ 0#32)
    (h : arrivalStop (s.gang u.team u.gang) u.slices (pcAt s u) (((s.gang u.team u.gang).kreg (kf.setWidth 5)).setWidth 32) = some st) :
    meet kf effect (ctxOf i u s vals) s1 = .error st := by
  have hk : (ctxOf i u s vals).k (kf.setWidth 5) = (s.gang u.team u.gang).kreg (kf.setWidth 5) := by
    rw [ctx_k, kOf, if_neg hg]
  unfold meet
  rw [hk, ctxOf_gang hg]
  dsimp only
  rw [if_neg hz]
  unfold arrivalStop pcAt at h
  simp only [awayLanes_eq] at h
  split at h
  · next exited => cases h; exact if_pos exited
  next exited =>
  rw [if_neg exited]
  split at h
  · next away => cases h; exact if_pos away
  next away =>
  rw [if_neg away]
  split at h
  · next differs => cases h; exact if_pos differs
  next differs =>
  rw [if_neg differs]
  split at h
  · next absent => cases h; exact if_pos absent
  · cases h

/-- The words that name members are arrivals at their mask, each with an effect of its own. -/
theorem memberWord_meets {i : Instr} {f : Form} {kf : BitVec 4}
    (hw : (∃ d a b wa wb, i = .shfl d a b wa wb kf ∧ f = { own := [⟨a, wa⟩, ⟨b, wb⟩], named := [d], ks := [kf.setWidth 5], mode := fun gm => readsEt notSmall gm && !isQueue gm d }) ∨
     (∃ d a l wa, i = .bcst d a l wa kf ∧ f = { own := [⟨a, wa⟩], named := [d], ks := [kf.setWidth 5], mode := fun gm => readsEt notSmall gm && !isQueue gm d }) ∨
     (∃ op d a wa, (i = .reduce op d a wa kf ∨ ∃ ex, i = .scan op ex d a wa kf) ∧
       f = { own := [⟨a, wa⟩], named := [d], ks := [kf.setWidth 5], mode := fun gm => readsEt (combineLegal op) gm && !isQueue gm d }) ∨
     (∃ d p, (i = .voteAny d p kf ∨ i = .voteAll d p kf ∨ ∃ kd, i = .voteBallot kd p kf) ∧ f = { ks := [kf.setWidth 5] })) :
    ∃ effect, ∀ s, exec i s = issue i f (meet kf effect) s := by
  rcases hw with ⟨d, a, b, wa, wb, rfl, rfl⟩ | ⟨d, a, l, wa, rfl, rfl⟩ | ⟨op, d, a, wa, rfl | ⟨ex, rfl⟩, rfl⟩ |
    ⟨d, p, rfl | rfl | ⟨kd, rfl⟩, rfl⟩ <;> exact ⟨_, fun _ => rfl⟩

/-! ### LANEK (R140) -/

/-- A k register written and the word finished, after a change of the mark of the gang's Instar region. -/
theorem kResult_finish_marks {f : Form} {popped : Bool} {u : Issuer} {g : Gang} (hj : f.jumps = false) (hm : f.merges = false)
    (hok : g.unitOk u.slices = true) (r : Bool) (d : KNum) (w : Word) :
    KResult g (finishGang f popped u (Gang.writeK { g with instar := { g.instar with rewindable := r } } d w)) u.slices d w := by
  obtain ⟨-, lanes, others, regs, bad⟩ := kResult_finish (f := f) (popped := popped)
    (g := { g with instar := { g.instar with rewindable := r } }) hj hm hok d w
  exact ⟨gangKeeps_finish hj hm hok rfl rfl, lanes, others, regs, bad⟩

/-- A word that writes a k register of its gang from sources that it reads itself. -/
theorem own_k_word {i : Instr} {f : Form} {body : Ctx → State → Except Stop State} {s s1 s2 : State} {u : Issuer}
    {vals : List (List Word)} {popped : Bool} (h : GangIssues i f u s vals s1 popped) (hj : f.jumps = false) (hm : f.merges = false)
    (ho : OwnRead s s2 u) (d : KNum) (w : Word) (hb : body (ctxOf i u s vals) s1 = .ok (s2.writeK u d w)) :
    ∃ t, issue i f body s = .next t ∧ OnlyGang s t u ∧ KResult (s.gang u.team u.gang) (t.gang u.team u.gang) u.slices d w := by
  obtain ⟨hO, r, hr⟩ := ho
  rw [State.writeK_gang s2 h.isGang] at hb
  obtain ⟨t, ht, hT, hG⟩ := gang_completes h hb (onlyGang_modGang hO _)
  refine ⟨t, ht, hT, ?_⟩
  rw [hG, State.gang_modGang_same, hr]
  exact kResult_finish_marks hj hm (State.issuable_gang h.issuable h.isGang) r d w

/-- What LANEK does where its lane is active. -/
theorem lanek_active {kd : KNum} {a : VNum} {lane : BitVec 5} {wa : Bool} {s s1 s2 : State} {u : Issuer} {vals : List (List Word)}
    {popped : Bool} {va : List Word} (h : GangIssues (.lanek kd a lane wa) { own := [⟨a, wa⟩] } u s vals s1 popped)
    (hl : ((s.gang u.team u.gang).activeOf u.slices).getLsbD lane.toNat = true)
    (hr : readOwn (ctxOf (.lanek kd a lane wa) u s vals) ⟨a, wa⟩ (1#32 <<< lane.toNat) s = .ok (va, s2)) :
    ∃ t, exec (.lanek kd a lane wa) s = .next t ∧ OnlyGang s t u ∧
      KResult (s.gang u.team u.gang) (t.gang u.team u.gang) u.slices kd (rowGet 0 va lane.toNat) := by
  obtain rfl : s1 = s := issues_s1 h rfl rfl
  have active : (ctxOf (.lanek kd a lane wa) u s1 vals).active.getLsbD lane.toNat = true := by
    rw [ctxOf_gang h.isGang]
    exact hl
  rw [exec_lanek]
  refine own_k_word h rfl rfl (ownRead_of hr) kd _ ?_
  dsimp only
  rw [active, hr, ctx_u]
  rfl

/-- LANEK traps where its lane is not active. -/
theorem lanek_inactive {kd : KNum} {a : VNum} {lane : BitVec 5} {wa : Bool} {s s1 : State} {u : Issuer} {vals : List (List Word)}
    {popped : Bool} (h : GangIssues (.lanek kd a lane wa) { own := [⟨a, wa⟩] } u s vals s1 popped)
    (hl : ((s.gang u.team u.gang).activeOf u.slices).getLsbD lane.toNat = false) :
    exec (.lanek kd a lane wa) s = .next (s.takeTrap u { cause := .convergence, lanes := some (1#32 <<< lane.toNat) }) := by
  have inactive : (ctxOf (.lanek kd a lane wa) u s vals).active.getLsbD lane.toNat = false := by
    rw [ctxOf_gang h.isGang]
    exact hl
  rw [exec_lanek]
  refine issue_stops (st := .trap _) h.toIssues ?_
  dsimp only
  rw [inactive]
  rfl

/-- Settles O38: each row of the arrival table is a stop of the arrival, and LANEK is a write of one k register or a trap. -/
theorem memberRows : Obligations.MemberRows := by
  refine ⟨?_, fun kd a lane wa s u vals s1 popped h => ⟨fun hl va s2 hr => lanek_active h hl hr, lanek_inactive h⟩⟩
  intro i f kf s u vals s1 popped hw h g mask held first arrived active away hz
  obtain ⟨effect, hx⟩ := memberWord_meets hw
  have stops {st : Stop} (hst : arrivalStop g u.slices (pcAt s u) mask = some st) : exec i s = .next (stopUnit u st s) := by
    rw [hx]
    exact issue_stops h.toIssues (meet_stops h.isGang hz hst)
  refine ⟨fun exited => ?_, fun alive gone => ?_, fun alive here differs => ?_, fun alive here same absent => ?_⟩
  · exact stops (if_pos exited)
  · exact stops ((if_neg (not_not_intro alive)).trans (if_pos gone))
  · exact stops ((if_neg (not_not_intro alive)).trans ((if_neg (not_not_intro here)).trans (if_pos differs)))
  · exact stops ((if_neg (not_not_intro alive)).trans ((if_neg (not_not_intro here)).trans
      ((if_neg (not_not_intro same)).trans (if_pos absent))))

end Sys2Proof.Machine
end

section
namespace Sys2Proof.Machine

open Sys2Proof Sys2Proof.Safety

/-! ### Rows and elements of a bank -/

theorem rowGet_eq_getElem? {α : Type} (d : α) : ∀ (l : List α) (i : Nat), rowGet d l i = l[i]?.getD d
  | [], _ => rfl
  | _ :: _, 0 => rfl
  | _ :: l, i + 1 => rowGet_eq_getElem? d l i

/-- A list of blocks of one length, laid end to end. -/
theorem getElem?_flatten_blocks {α : Type} (n : Nat) : ∀ (ls : List (List α)) (_ : ∀ l ∈ ls, l.length = n) (i j : Nat), j < n →
    ls.flatten[n * i + j]? = (ls[i]?.getD [])[j]?
  | [], _, i, j, _ => by simp
  | l :: ls, h, 0, j, hj => by
    have hl : j < l.length := by rw [h l (List.mem_cons_self ..)]; exact hj
    rw [List.flatten_cons, Nat.mul_zero, Nat.zero_add, List.getElem?_append_left hl]
    rfl
  | l :: ls, h, i + 1, j, hj => by
    have hl : l.length = n := h l (List.mem_cons_self ..)
    have place : n * (i + 1) + j - l.length = n * i + j := by rw [hl, Nat.mul_succ]; omega
    rw [List.flatten_cons, List.getElem?_append_right (by rw [hl, Nat.mul_succ]; omega), place,
      getElem?_flatten_blocks n ls (fun x hx => h x (List.mem_cons_of_mem _ hx)) i j hj]
    rfl

theorem Bank.row_length (b : Bank) (i : Nat) : (b.row i).length = 128 := by
  unfold Bank.row
  simp

theorem Bank.elem_eq (b : Bank) (i : Nat) {j : Nat} (hj : j < 128) : b.elem i j = rowGet 0 b.acc (128 * i + j) := by
  unfold Bank.elem Bank.row
  rw [rowGet_eq_getElem?, rowGet_eq_getElem?, List.getElem?_take_of_lt hj, List.getElem?_append]
  split
  next h =>
    rw [List.getElem?_take_of_lt hj, List.getElem?_drop]
  next h =>
    have short : b.acc.length ≤ 128 * i + j := by
      rw [List.length_take, List.length_drop] at h
      omega
    rw [List.getElem?_eq_none short, List.getElem?_map]
    cases (upTo 128)[j - ((b.acc.drop (128 * i)).take 128).length]? <;> rfl

/-- The elements of a bank of which some rows are replaced, each by a row of 128 elements. -/
theorem Bank.elem_setRows (b : Bank) {rows : Half} {f : Nat → List Half} (hf : ∀ i, i < 32 → rows.getLsbD i = true → (f i).length = 128)
    {i j : Nat} (hi : i < 32) (hj : j < 128) :
    (b.setRows rows f).elem i j = if rows.getLsbD i = true then rowGet 0 (f i) j else b.elem i j := by
  have blocks : ∀ l ∈ (upTo 32).map (fun i => if rows.getLsbD i = true then f i else b.row i), l.length = 128 := fun l hl => by
    obtain ⟨k, hk, rfl⟩ := List.mem_map.mp hl
    split
    next h => exact hf k (mem_upTo.mp hk) h
    next => exact b.row_length k
  rw [Bank.elem_eq _ i hj, rowGet_eq_getElem?]
  unfold Bank.setRows
  rw [getElem?_flatten_blocks 128 _ blocks i j hj, ← rowGet_eq_getElem?, ← rowGet_eq_getElem?, rowGet_map_upTo [] _ hi]
  split <;> rfl

/-! ### No −0 (R146) -/

theorem widen_f32_nan_lt {v : Nat} {neg : Bool} {frac : Nat} (h : widen .f32 false v = .nan neg frac) : frac < 2 ^ 23 := by
  have small : v % 2 ^ fracBits .f32 < 2 ^ 23 := Nat.mod_lt _ (by decide)
  unfold widen at h
  dsimp only at h
  rw [if_neg (by simp)] at h
  split at h
  · split at h
    · cases h
    · cases h
      exact small
  · split at h
    · split at h <;> cases h
    · cases h

theorem quietBits_f32_ne {neg : Bool} {frac : Nat} (h : frac < 2 ^ 23) : quietBits .f32 neg frac ≠ 0x80000000 := by
  have quiet : quietBits .f32 neg frac =
      (if neg then 2147483648 else 0) + 2139095040 + (if frac / 4194304 % 2 = 1 then frac else frac + 4194304) := by
    unfold quietBits
    rw [if_neg (by decide)]
    cases neg <;> rfl
  rw [quiet]
  cases neg <;> simp only [Bool.false_eq_true, if_true, if_false] <;> split <;> omega

theorem accumulate_ne (acc : Nat) (s e : Int) : (accumulate acc s e).1 ≠ 0x80000000 := by
  unfold accumulate
  dsimp only
  split
  next r h =>
    unfold nanOf at h
    cases hw : widen .f32 false acc with
    | nan neg frac =>
      rw [hw] at h
      cases h
      exact quietBits_f32_ne (widen_f32_nan_lt hw)
    | inf neg =>
      rw [hw] at h
      cases h
    | fin neg m e =>
      rw [hw] at h
      cases h
  next =>
    unfold bankZero
    split
    next => exact Nat.zero_ne_add_one _
    next h => exact h

theorem Elem.segment_val_ne (x : Elem) (s : Int) (ea eb : Nat) : (x.segment s ea eb).val ≠ 0x80000000 := by
  unfold Elem.segment
  split
  · show (0x7FC00000 : Nat) ≠ _
    decide
  · exact accumulate_ne _ _ _

/-- An element over at least one segment is never −0. -/
theorem MmaOp.element_val_ne (m : MmaOp) (h : 1 ≤ 64 / min m.la m.lb) (c : Column) (as : List Int) (sa : Word) (x : Elem) :
    (m.element c as sa x).val ≠ 0x80000000 := by
  obtain ⟨n, hn⟩ : ∃ n, 64 / min m.la m.lb = n + 1 := ⟨_, (Nat.sub_add_cancel h).symm⟩
  unfold MmaOp.element
  dsimp only
  rw [hn, upTo, List.foldl_append]
  exact Elem.segment_val_ne _ _ _ _

/-! ### The result of an MMA (R145, R153) -/

section
variable (m : MmaOp) (old : Bank)

/-- The row `i` of the elements after an MMA. -/
def rowAfter (i : Nat) : List Elem := (upTo 128).map (elemAfter m old i)

theorem MmaOp.row_eq (i : Nat) : m.row m.columns (rowGet [] m.a i) (old.row i) = rowAfter m old i := by
  unfold MmaOp.row MmaOp.columns rowAfter
  rw [← List.map_prod_left_eq_zip, List.map_map]
  rfl

theorem find?_map_key {α : Type} (f : Nat → α) {i : Nat} : ∀ {l : List Nat}, i ∈ l →
    (l.map (fun i => (i, f i))).find? (fun r => r.1 = i) = some (i, f i)
  | j :: l, h => by
    rw [List.map_cons, List.find?_cons]
    by_cases e : j = i
    · subst e
      rw [decide_eq_true rfl]
    · rw [decide_eq_false e]
      exact find?_map_key f ((List.mem_cons.mp h).resolve_left (Ne.symm e))

theorem MmaOp.result_eq : m.result old = (lanesOf m.rows).map (fun i => (i, rowAfter m old i)) := by
  unfold MmaOp.result
  simp only [m.row_eq]

theorem resultRow_result {i : Nat} (hi : m.rows.getLsbD i = true) : resultRow (m.result old) i = rowAfter m old i := by
  rw [resultRow, m.result_eq, find?_map_key _ (mem_lanesOf.mpr ⟨BitVec.lt_of_getLsbD hi, hi⟩), Option.map_some, Option.getD_some]

/-- A mark is gathered from the elements of the rows written. -/
theorem result_any (p : Elem → Bool) : (m.result old).any (fun r => r.2.any p) = true ↔
    ∃ i j, i < 32 ∧ j < 128 ∧ m.rows.getLsbD i = true ∧ p (elemAfter m old i j) = true := by
  rw [m.result_eq]
  simp only [List.any_map, List.any_eq_true, mem_lanesOf, Function.comp_apply, rowAfter, mem_upTo]
  constructor
  · rintro ⟨i, ⟨hi, hr⟩, j, hj, hp⟩
    exact ⟨i, j, hi, hj, hr, hp⟩
  · rintro ⟨i, j, hi, hj, hr, hp⟩
    exact ⟨i, ⟨hi, hr⟩, j, hj, hp⟩

/-- The bank after the write of a result. -/
def bankAfter : Bank :=
  { old.setRows m.rows (fun i => (resultRow (m.result old) i).map (fun e => BitVec.ofNat 32 e.val)) with
    done := old.done + 1#16
    inf := old.inf || (m.result old).any (fun r => r.2.any (·.inf))
    nan := old.nan || (m.result old).any (fun r => r.2.any (·.nan)) }

theorem elem_bankAfter {i j : Nat} (hi : i < 32) (hj : j < 128) :
    (bankAfter m old).elem i j = if m.rows.getLsbD i = true then BitVec.ofNat 32 (elemAfter m old i j).val else old.elem i j := by
  have rows : ∀ k, m.rows.getLsbD k = true → (resultRow (m.result old) k).map (fun e => BitVec.ofNat 32 e.val) =
      (upTo 128).map (fun j => BitVec.ofNat 32 (elemAfter m old k j).val) := fun k hk => by
    rw [resultRow_result m old hk, rowAfter, List.map_map]
    rfl
  have width : ∀ k, k < 32 → m.rows.getLsbD k = true →
      ((resultRow (m.result old) k).map (fun e => BitVec.ofNat 32 e.val)).length = 128 := fun k _ hk => by
    rw [rows k hk, List.length_map, upTo_length]
  refine (old.elem_setRows width hi hj).trans ?_
  split
  next h => rw [rows i h, rowGet_map_upTo _ _ hj]
  next => rfl

/-- The causes that row `i` raises. -/
def causesAfter (i : Nat) : Causes :=
  ((upTo 128).map (fun j => (elemAfter m old i j).causes)).foldl (fun x y => x ||| y)
    (if m.weights.any (fun b => 243 ≤ b.toNat) then cBadpack else noCause)

/-- The masks of the rows that raise each cause. -/
theorem raised_result (k : Nat) :
    maskOf (fun l => m.rows.getLsbD l && ((resultRow (m.result old) l).foldl (fun x e => x ||| e.causes)
      (if m.weights.any (fun b => 243 ≤ b.toNat) then cBadpack else noCause)).getLsbD k) =
    maskOf (fun i => m.rows.getLsbD i && (causesAfter m old i).getLsbD k) := by
  congr 1
  funext i
  cases hi : m.rows.getLsbD i with
  | false => rfl
  | true => rw [resultRow_result m old hi, causesAfter, rowAfter, List.foldl_map, List.foldl_map]

end

/-- The causes of a result as its gang's log takes them. -/
def resultLog (s : State) (u : Nat) (m : MmaOp) : List LogHeld :=
  logAfter (s.gang u m.gang).log
    (fun k => if causeOn (gmAen m.gmode) k then maskOf (fun i => m.rows.getLsbD i && (causesAfter m ((s.team u).bank m.bank) i).getLsbD k)
      else 0#32) (blockOf m.pc) s.cycle (s.team u).core

/-- The team whose MMA has written its result. -/
theorem State.team_writeMma (s : State) (u : Nat) (m : MmaOp) :
    (s.writeMma u m).team u = { s.team u with
      banks := rowPut {} (s.team u).banks m.bank (bankAfter m ((s.team u).bank m.bank))
      gangs := rowMod {} (s.team u).gangs m.gang (fun g => { g with log := resultLog s u m })
      mmas := (s.team u).mmas.filter (fun x => x ≠ m) } := by
  unfold State.writeMma
  dsimp only
  rw [State.team_modTeam_same, State.raiseIn, State.modGang, State.team_modTeam_same, State.modBank, State.team_modTeam_same]
  simp only [raised_result]
  rfl

theorem State.team_writeMma_other (s : State) {u v : Nat} (m : MmaOp) (h : v ≠ u) : (s.writeMma u m).team v = s.team v := by
  unfold State.writeMma State.raiseIn State.modBank
  rw [State.team_modTeam_other _ _ (Ne.symm h), State.team_modGang_other _ _ _ (Ne.symm h), State.team_modTeam_other _ _ (Ne.symm h)]

theorem State.bank_writeMma_same (s : State) (u : Nat) (m : MmaOp) :
    ((s.writeMma u m).team u).bank m.bank = bankAfter m ((s.team u).bank m.bank) := by
  rw [s.team_writeMma u m]
  exact rowGet_rowPut_same _ _ _ _

theorem State.bank_writeMma_other (s : State) (u : Nat) (m : MmaOp) {b : Nat} (h : b ≠ m.bank) :
    ((s.writeMma u m).team u).bank b = (s.team u).bank b := by
  rw [s.team_writeMma u m]
  exact rowGet_rowPut_other _ _ _ (Ne.symm h)

theorem State.gang_writeMma (s : State) (u : Nat) (m : MmaOp) (g : Nat) :
    (s.writeMma u m).gang u g = { s.gang u g with log := if g = m.gang then resultLog s u m else (s.gang u g).log } := by
  have team : (s.writeMma u m).gang u g = rowGet {} (rowMod {} (s.team u).gangs m.gang (fun g => { g with log := resultLog s u m })) g := by
    rw [State.gang, s.team_writeMma u m]
    rfl
  rw [team]
  split
  next h =>
    subst h
    rw [rowGet_rowMod_same]
    rfl
  next h =>
    rw [rowGet_rowMod_other _ _ _ (Ne.symm h)]
    rfl

/-! ### The result that is due (R153) -/

/-- Of entries of which one comes before every other, a search for the first finds that one. -/
theorem foldl_first {α : Type} {key : α → Nat} {f : Option α → α → Option α} (hn : ∀ x, f none x = some x)
    (hs : ∀ b x, f (some b) x = if key x < key b then some x else some b) {a : α} : ∀ (l : List α) (b : Option α),
    (∀ x ∈ l, x = a ∨ key a < key x) → (a ∈ l ∨ b = some a) → (∀ x, b = some x → x = a ∨ key a < key x) → l.foldl f b = some a
  | [], b, _, h, _ => h.resolve_left (by simp)
  | x :: l, b, hl, h, hb => by
    have later : ∀ y ∈ l, y = a ∨ key a < key y := fun y hy => hl y (List.mem_cons_of_mem _ hy)
    have here := hl x (List.mem_cons_self ..)
    rw [List.foldl_cons]
    cases b with
    | none =>
      rw [hn]
      refine foldl_first hn hs l _ later ?_ fun y e => by cases e; exact here
      rcases List.mem_cons.mp (h.resolve_right (by simp)) with e | e
      · exact Or.inr (congrArg some e.symm)
      · exact Or.inl e
    | some b =>
      have best := hb b rfl
      rw [hs]
      split
      next lt =>
        refine foldl_first hn hs l _ later ?_ fun y e => by cases e; exact here
        have notB : b ≠ a := fun e => by rcases here with rfl | h' <;> subst e <;> omega
        rcases List.mem_cons.mp (h.resolve_right (fun e => notB (Option.some.inj e))) with e | e
        · exact Or.inr (congrArg some e.symm)
        · exact Or.inl e
      next ge =>
        refine foldl_first hn hs l _ later ?_ fun y e => by cases e; exact best
        rcases h with h | h
        · rcases List.mem_cons.mp h with e | e
          · subst e
            exact Or.inr (congrArg some (best.resolve_right ge))
          · exact Or.inl e
        · exact Or.inr h

/-- The MMA of a core that is due before every other is the one that writes. -/
theorem State.mmaDue_eq {s : State} {core u : Nat} {m : MmaOp} (hu : u < s.teams.length) (hc : (s.team u).core = core)
    (hm : m ∈ (s.team u).mmas) (hf : m.frozen = false) (hd : m.writeAt ≤ s.cycle)
    (first : ∀ v n, v < s.teams.length → (s.team v).core = core → n ∈ (s.team v).mmas → n.frozen = false → n.writeAt ≤ s.cycle →
      (v = u ∧ n = m) ∨ m.writeAt < n.writeAt) : s.mmaDue core = some (u, m) := by
  unfold State.mmaDue
  refine foldl_first (key := fun x : Nat × MmaOp => x.2.writeAt) (fun _ => rfl) (fun _ _ => rfl) _ none ?_ (Or.inl ?_) (by simp)
  · rintro ⟨v, n⟩ hx
    simp only [List.mem_flatMap, List.mem_map, List.mem_filter, mem_upTo, Prod.mk.injEq, Bool.and_eq_true, Bool.not_eq_true',
      decide_eq_true_eq] at hx
    obtain ⟨v', ⟨hv, hcore⟩, n', ⟨hn, hfr, hdue⟩, rfl, rfl⟩ := hx
    rcases first v' n' hv hcore hn hfr hdue with ⟨rfl, rfl⟩ | h
    · exact Or.inl rfl
    · exact Or.inr h
  · simp only [List.mem_flatMap, List.mem_map, List.mem_filter, mem_upTo, Prod.mk.injEq, Bool.and_eq_true, Bool.not_eq_true',
      decide_eq_true_eq]
    exact ⟨u, ⟨hu, hc⟩, m, ⟨hm, hf, hd⟩, rfl, rfl⟩

end Sys2Proof.Machine
end

section
namespace Sys2Proof.Machine

open Sys2Proof Sys2Proof.Safety

/-! ### What an MMA reads of the operand buffer (R148, R392) -/

/-- Where no word is uncorrectable the operand buffer is seen as it is. -/
theorem State.obufSeen_sound {s : State} {key n : Nat} (h : ∀ y, y < n → ((key + y) / 8) ∉ s.bad.obuf) :
    s.obufSeen key n = memRead s.obuf key n := by
  have seen : ∀ x ∈ (upTo n).zip (memRead s.obuf key n),
      (if s.bad.obuf.contains ((key + x.1) / 8) = true then Config.freeByte (s.fresh + key + x.1) else x.2) = x.2 := fun x hx => by
    have place := h x.1 (mem_upTo.mp (List.of_mem_zip hx).1)
    rw [if_neg (by rw [List.contains_iff_mem]; exact place)]
  unfold State.obufSeen
  rw [List.map_congr_left seen]
  exact List.map_snd_zip (by rw [memRead_length, upTo_length])

/-- No word that the bytes touch is marked. -/
theorem marked_none {l : List Nat} {a n : Nat} (h : ∀ y, y < n → ((a + y) / 8) ∉ l) : marked l a n = false := by
  unfold marked wordsOf
  split
  · rfl
  next hn =>
  rw [List.any_map, List.any_eq_false]
  intro i hi
  have hi := mem_upTo.mp hi
  have touched := h (8 * (a / 8 + i) - a) (by omega)
  rw [show (a + (8 * (a / 8 + i) - a)) / 8 = a / 8 + i by omega] at touched
  rw [Function.comp_apply, List.contains_iff_mem]
  exact touched

/-! ### MMA (R153 to R156) -/

section
variable {bank : BankNum} {a : VNum} {kb : KNum} {wa reuse clear : Bool} {la : BlockLen} {s s1 : State} {u : Issuer}
  {vals : List (List Word)} {popped : Bool}

/-- An MMA passes its checks up to the wait for the array (R151, R154, R155, R156). -/
structure MmaReady (s : State) (u : Issuer) (bank : BankNum) (a : VNum) (kb : KNum) (reuse : Bool) : Prop where
  active : (s.gang u.team u.gang).activeOf u.slices = 0xFFFFFFFF#32
  owned : bank.toNat < (s.team u.team).nbanks
  sound : ((s.team u.team).bank bank.toNat).poisoned = false
  live : (s.record (s.team u.team).home (recNum (kOf s u kb)).toNat).state = .live
  takes : (s.record (s.team u.team).home (recNum (kOf s u kb)).toNat).takes u.team (kOf s u kb) = true
  regs : latchHit (s.gang u.team u.gang) a reuse = false → ∀ v ∈ regRange a 9, Fine (s.gang u.team u.gang) 0xFFFFFFFF#32 v

/-- A descriptor of a record of the team names a tile of it. -/
theorem ObRecord.takes_live {r : ObRecord} {w : Word} {v : Nat} (hl : r.state = .live) (ht : r.team = v) (hb : descBlock w < r.cols / 128)
    (hs : descSlab w < r.rows / 64) (hz : w.extractLsb' 6 2 = 0#2) : r.takes v w = true := by
  unfold ObRecord.takes ObRecord.heldBy
  rw [hl, ht, hz, decide_eq_true hb, decide_eq_true hs]
  simp

/-- Registers that are FULL and sound stop no word that reads them. -/
theorem firstStop_reads {g : Gang} {m : Half} {wa : Bool} : ∀ {l : List VNum}, (∀ v ∈ l, Fine g m v) →
    firstStop (l.map (fun v => readStop g ⟨v, wa⟩ m)) = none
  | [], _ => rfl
  | v :: l, h => by
    rw [List.map_cons, readStop_none (x := ⟨v, wa⟩) (h v (List.mem_cons_self ..)), firstStop_cons_none]
    exact firstStop_reads fun x hx => h x (List.mem_cons_of_mem _ hx)

/-- The place of the unit at the array. -/
abbrev arrayKey (s : State) (u : Issuer) : Nat × Nat :=
  (u.team, 8 * u.gang + ((s.gang u.team u.gang).slice (lowSlice u.slices)).sub)

/-- It is the unit's turn at the array. -/
def arrayFor (s : State) (u : Issuer) : Bool :=
  decide ((s.team u.team).status = .running) && decide ((s.core (s.team u.team).core).arrayFree ≤ s.cycle)
    && s.arrayTurn (s.team u.team).core (arrayKey s u)

/-- The active lanes that a gang's word sees. -/
theorem ctx_active {i : Instr} (hg : u.gang ≠ 16) : (ctxOf i u s vals).active = (s.gang u.team u.gang).activeOf u.slices := by
  rw [ctxOf_gang hg]

/-- The checks of an MMA before its wait for the array. -/
theorem MmaReady.passes (h : MmaReady s u bank a kb reuse) (hg : u.gang ≠ 16) (k : Except Stop State) :
    let c := ctxOf (.mma bank a kb wa reuse la clear) u s vals
    let r := s.record c.t.home (recNum (c.k kb)).toNat
    stopOr (need (c.active = 0xFFFFFFFF#32) (.trap convergence))
      (stopOr (bankStop c bank)
      (stopOr (need (r.takes c.u.team (c.k kb)) (.trap { cause := .recordInvalid, detail := c.k kb }))
      (stopOr (if latchHit c.g a reuse then none else firstStop ((regRange a 9).map (fun v => readStop c.g ⟨v, wa⟩ 0xFFFFFFFF#32)))
      (stopOr (poisonedStop s c bank)
      (stopOr (need (r.state ≠ .filling) (.wait (.record (recNum (c.k kb))) none)) k))))) = k := by
  obtain ⟨active, owned, sound, live, takes, regs⟩ := h
  intro c r
  have reads : (if latchHit (s.gang u.team u.gang) a reuse then none
      else firstStop ((regRange a 9).map (fun v => readStop (s.gang u.team u.gang) ⟨v, wa⟩ 0xFFFFFFFF#32))) = none := by
    split
    · rfl
    next hl => exact firstStop_reads (regs (Bool.eq_false_iff.mpr hl))
  have filled : (s.record (s.team u.team).home (recNum (kOf s u kb)).toNat).state ≠ .filling := by
    rw [live]
    exact nofun
  dsimp only [c, r]
  unfold bankStop poisonedStop
  simp only [ctx_k, ctx_t, ctx_u, (ctx_own hg).2, ctx_active hg]
  rw [need_true (decide_eq_true active), need_true (decide_eq_true owned), need_true takes, reads, sound, need_true (decide_eq_true filled)]
  rfl

/-- An MMA whose turn at the array has not come is held, in its place among those that wait. -/
theorem mma_waits (h : GangIssues (.mma bank a kb wa reuse la clear)
      { named := regRange a 9, ks := [kb], mode := fun gm => !(gmQmap gm && decide (60 ≤ a.toNat + 8)), closes := true } u s vals s popped)
    (ready : MmaReady s u bank a kb reuse) (hturn : arrayFor s u = false) :
    exec (.mma bank a kb wa reuse la clear) s = .next ((s.queueArray (s.team u.team).core (arrayKey s u)).hold u .array) := by
  rw [exec_mma]
  unfold execMma
  refine issue_stops (st := .wait .array (some (s.queueArray (s.team u.team).core (arrayKey s u)))) h.toIssues ?_
  refine (ready.passes h.isGang _).trans ?_
  rw [ctxOf_gang h.isGang]
  exact congrArg (stopOr · _) (need_false hturn _)

/-- What an MMA records as it starts. -/
def mmaOf (s : State) (u : Issuer) (bank : BankNum) (a : VNum) (kb : KNum) (la : BlockLen) (clear : Bool) : MmaOp :=
  s.startMma (ctxOf (.mma bank a kb false false la clear) u s []) bank a (kOf s u kb) la clear

/-- The state in which an MMA has started: the array is the unit's until its passes end, and the latch is loaded or invalid. -/
def mmaStarted (s : State) (u : Issuer) (a : VNum) (reuse : Bool) (m : MmaOp) : State :=
  (((s.modTeam u.team (fun t => { t with mmas := t.mmas ++ [m] })).takeArray (s.team u.team).core (arrayKey s u) m.passEnd).modGang
    u.team u.gang (fun g => { g with latch := if reuse then some a else none })).meter (s.team u.team).part 1 m.planes

theorem slices_mmaStarted (s : State) (u : Issuer) (a : VNum) (reuse : Bool) (m : MmaOp) :
    ((mmaStarted s u a reuse m).gang u.team u.gang).slices = (s.gang u.team u.gang).slices := by
  unfold mmaStarted
  rw [State.gang_meter, State.gang_modGang_same]
  show ((s.modTeam u.team (fun t => { t with mmas := t.mmas ++ [m] })).gang u.team u.gang).slices = _
  rw [State.gang, State.team_modTeam_same]
  rfl

/-- An MMA whose turn has come, and which reads nothing uncorrectable, starts. -/
theorem mma_starts (h : GangIssues (.mma bank a kb wa reuse la clear)
      { named := regRange a 9, ks := [kb], mode := fun gm => !(gmQmap gm && decide (60 ≤ a.toNat + 8)), closes := true } u s vals s popped)
    (ready : MmaReady s u bank a kb reuse) (hturn : arrayFor s u = true) (hbad : s.mmaBad (mmaOf s u bank a kb la clear) = false)
    (hbank : clear = false → s.bankBad (s.team u.team) bank = false) :
    ∃ t, exec (.mma bank a kb wa reuse la clear) s = .next t ∧ Finished (mmaStarted s u a reuse (mmaOf s u bank a kb la clear)) t u := by
  have bad : (s.mmaBad (mmaOf s u bank a kb la clear) || (!clear && s.bankBad (s.team u.team) bank)) = false := by
    cases clear with
    | true => rw [hbad]; rfl
    | false => rw [hbad, hbank rfl]; rfl
  have same : s.startMma (ctxOf (.mma bank a kb wa reuse la clear) u s vals) bank a (kOf s u kb) la clear = mmaOf s u bank a kb la clear := by
    unfold mmaOf
    rw [ctxOf_gang h.isGang, ctxOf_gang h.isGang]
    rfl
  rw [exec_mma]
  unfold execMma
  refine gang_finishes h rfl rfl ?_ (slices_mmaStarted s u a reuse _)
  refine (ready.passes h.isGang _).trans ?_
  dsimp only
  rw [ctx_k, same, ctxOf_gang h.isGang]
  dsimp only
  rw [bad, hbad]
  exact congrArg (stopOr · _) (need_true hturn _)

/-- Where no word of the tile and its scales is uncorrectable, an MMA reads nothing bad. -/
theorem mmaBad_none {m : MmaOp} (hw : ∀ y, y < m.planes * 1664 → ((m.woff + y) / 8) ∉ s.bad.obuf)
    (hs : ∀ o ∈ m.soff, ∀ y, y < max 1 (64 / m.lb) → ((o + y) / 8) ∉ s.bad.obuf) : s.mmaBad m = false := by
  unfold State.mmaBad
  rw [marked_none hw, Bool.false_or, List.any_eq_false]
  intro o ho
  rw [marked_none (hs o ho)]
  exact Bool.false_ne_true

end

/-- What an MMA records, where it reads nothing uncorrectable (R156). -/
theorem mmaOf_sound (bank : BankNum) (a : VNum) (kb : KNum) (la : BlockLen) (clear : Bool) (s : State) (u : Issuer) (hg : u.gang ≠ 16) :
    let g := s.gang u.team u.gang
    let tm := s.team u.team
    let w := kOf s u kb
    let r := s.record tm.home (w.extractLsb' 0 6).toNat
    let blk := (w.extractLsb' 24 16).toNat
    let slab := (w.extractLsb' 8 16).toNat
    let woff := obufKey tm.home (r.base + (blk * (r.rows / 64) + slab) * r.fmt * 1664)
    let soff := fun j => obufKey tm.home
      (r.base + r.cols / 128 * (r.rows / 64) * r.fmt * 1664 + (128 * blk + j) * (r.rows / r.lb) + 64 * slab / r.lb)
    let n := max 1 (64 / r.lb)
    (∀ y, y < r.fmt * 1664 → ((woff + y) / 8) ∉ s.bad.obuf) → (∀ j, j < 128 → ∀ y, y < n → ((soff j + y) / 8) ∉ s.bad.obuf) →
    let m : MmaOp :=
      { bank := bank.toNat, gang := u.gang, pc := g.pcOf u.slices, rows := partOf s u, clear := clear,
        a := (upTo 32).map (fun l => (regRange a 9).map (fun v => ((g.lane l).vreg v).val)), la := BlockLen.size la, lb := r.lb,
        planes := r.fmt, areg := a, record := (w.extractLsb' 0 6).toNat, weights := memRead s.obuf woff (r.fmt * 1664),
        scales := (upTo 128).map (fun j => memRead s.obuf (soff j) n), woff := woff, soff := (upTo 128).map soff, gmode := g.gmode,
        passEnd := s.cycle + 4 * r.fmt, writeAt := s.cycle + 4 * r.fmt + 20, frozen := false }
    mmaOf s u bank a kb la clear = m ∧ s.mmaBad m = false := by
  intro g tm w r blk slab woff soff n hweights hscales m
  have weights : s.obufSeen woff (r.fmt * 1664) = memRead s.obuf woff (r.fmt * 1664) := State.obufSeen_sound hweights
  have scales : ((upTo 128).map soff).map (fun o => s.obufSeen o n) = (upTo 128).map (fun j => memRead s.obuf (soff j) n) := by
    rw [List.map_map]
    exact List.map_congr_left fun j hj => State.obufSeen_sound (hscales j (mem_upTo.mp hj))
  constructor
  · dsimp only [m]
    rw [← weights, ← scales]
    unfold mmaOf State.startMma ObRecord.weightBytes descBlock descSlab recNum
    rw [ctxOf_gang hg]
    rfl
  · refine mmaBad_none hweights ?_
    dsimp only [m]
    exact List.forall_mem_map.mpr fun j hj => hscales j (mem_upTo.mp hj)

end Sys2Proof.Machine
end

section
namespace Sys2Proof.Machine

open Sys2Proof Sys2Proof.Safety

/-! ### Words on a bank of the team (R151, R154, R392) -/

section
variable {i : Instr} {s : State} {u : Issuer} {vals : List (List Word)} {popped : Bool} {bank : BankNum}

theorem bankStop_none (h : bank.toNat < (s.team u.team).nbanks) : bankStop (ctxOf i u s vals) bank = none := by
  unfold bankStop
  rw [ctx_t]
  exact need_true (decide_eq_true h) _

theorem bankWait_none (h : (s.team u.team).mmas.any (fun m => m.bank = bank.toNat) = false) :
    bankWait (ctxOf i u s vals) bank = none := by
  unfold bankWait
  rw [ctx_t, h]
  rfl

theorem poisonedStop_none (h : ((s.team u.team).bank bank.toNat).poisoned = false) :
    poisonedStop s (ctxOf i u s vals) bank = none := by
  unfold poisonedStop
  rw [ctx_t, h]
  rfl

theorem badBankStop_none (h : s.bankBad (s.team u.team) bank = false) : badBankStop s (ctxOf i u s vals) bank = none := by
  unfold badBankStop
  rw [ctx_t, h]
  rfl

/-! ### MCLR (R157) -/

/-- A bank of which the rows of a mask are cleared. -/
def clearedBank (part : Half) (x : Bank) : Bank :=
  { x.setRows part (fun _ => (upTo 128).map (fun _ => 0#32)) with
    done := 0#16, inf := false, nan := false, poisoned := x.poisoned && !decide (part = 0xFFFFFFFF#32) }

theorem elem_clearedBank (part : Half) (x : Bank) {i j : Nat} (hi : i < 32) (hj : j < 128) :
    (clearedBank part x).elem i j = if part.getLsbD i = true then 0#32 else x.elem i j := by
  refine (x.elem_setRows (f := fun _ => (upTo 128).map (fun _ => 0#32)) (fun _ _ _ => by rw [List.length_map, upTo_length]) hi hj).trans ?_
  rw [rowGet_map_upTo _ _ hj]

/-- The effect of MCLR: a full clear ends a parity error of the bank. -/
def mclrDone (s : State) (u : Issuer) (bank : BankNum) : State :=
  let x := s.modBank u.team bank.toNat (clearedBank (partOf s u))
  if partOf s u = 0xFFFFFFFF#32 then
    x.modCore (s.team u.team).core (fun y => { y with badBanks := y.badBanks.filter (· ≠ rowGet 8 (s.team u.team).physBanks bank.toNat) })
  else x

theorem mclrDone_rest (s : State) (u : Issuer) (bank : BankNum) :
    mclrDone s u bank = { s with teams := (mclrDone s u bank).teams, cores := (mclrDone s u bank).cores } ∧
      ∀ v, (mclrDone s u bank).team v = (s.modBank u.team bank.toNat (clearedBank (partOf s u))).team v := by
  unfold mclrDone
  dsimp only
  split <;> exact ⟨rfl, fun _ => rfl⟩

theorem mclrDone_cores {s : State} {u : Issuer} {bank : BankNum} (h : partOf s u ≠ 0xFFFFFFFF#32) :
    (mclrDone s u bank).cores = s.cores := by
  unfold mclrDone
  dsimp only
  rw [if_neg h]
  rfl

theorem team_modBank_same (s : State) (u b : Nat) (f : Bank → Bank) :
    (s.modBank u b f).team u = { s.team u with banks := rowMod {} (s.team u).banks b f } := State.team_modTeam_same _ _ _

theorem bank_modBank_same (s : State) (u b : Nat) (f : Bank → Bank) : ((s.modBank u b f).team u).bank b = f ((s.team u).bank b) := by
  rw [team_modBank_same]
  exact rowGet_rowMod_same _ _ _ _

theorem bank_modBank_other (s : State) (u : Nat) {b n : Nat} (f : Bank → Bank) (h : b ≠ n) :
    ((s.modBank u b f).team u).bank n = (s.team u).bank n := by
  rw [team_modBank_same]
  exact rowGet_rowMod_other _ _ _ h

theorem mclr_word (h : GangIssues (.mclr bank) {} u s vals s popped) (owned : bank.toNat < (s.team u.team).nbanks)
    (settled : (s.team u.team).mmas.any (fun m => m.bank = bank.toNat) = false) :
    ∃ t, exec (.mclr bank) s = .next t ∧ Finished (mclrDone s u bank) t u := by
  rw [exec_mclr]
  unfold execMclr
  refine gang_finishes h rfl rfl ?_ ?_
  · rw [bankStop_none owned, bankWait_none settled, ctx_u, ctx_t, ctx_part h.isGang]
    rfl
  · rw [State.gang, (mclrDone_rest s u bank).2, team_modBank_same]
    rfl

/-! ### MST (R158) -/

/-- The elements of a row that a gang's word delivers, with the causes that conversion raises. -/
def deliveredRow (s : State) (u : Issuer) (bank : BankNum) (i : Nat) : List (Nat × Causes) :=
  (((s.team u.team).bank bank.toNat).row i).map (fun e => deliverElem (etOf s u) (mdOf s u) e.toNat)

/-- The bytes of a row as MST stores them. -/
def rowBytes (s : State) (u : Issuer) (bank : BankNum) (i : Nat) : List Byte :=
  ((deliveredRow s u bank i).map (fun x => leBytes ((etOf s u).width / 8) x.1)).flatten

theorem deliveredRow_length (s : State) (u : Issuer) (bank : BankNum) (i : Nat) : (deliveredRow s u bank i).length = 128 := by
  rw [deliveredRow, List.length_map, Bank.row_length]

theorem rowBytes_get (s : State) (u : Issuer) (bank : BankNum) (i : Nat) {b : Nat} (hb : b < 128 * ((etOf s u).width / 8)) :
    (rowBytes s u bank i)[b]? = some (BitVec.ofNat 8
      ((rowGet (0, noCause) (deliveredRow s u bank i) (b / ((etOf s u).width / 8))).1 / 256 ^ (b % ((etOf s u).width / 8)))) := by
  generalize hw : (etOf s u).width / 8 = w at hb ⊢
  have pos : 0 < w := Nat.pos_of_ne_zero fun e => by subst e; omega
  have hd : b / w < (deliveredRow s u bank i).length := by
    rw [deliveredRow_length]
    exact Nat.div_lt_of_lt_mul (by rw [Nat.mul_comm]; exact hb)
  have blocks : ∀ l ∈ (deliveredRow s u bank i).map (fun x => leBytes w x.1), l.length = w := fun l hl => by
    obtain ⟨x, -, rfl⟩ := List.mem_map.mp hl
    exact leBytes_length _ _
  have hm := Nat.mod_lt b pos
  unfold rowBytes
  rw [hw, ← Nat.div_add_mod b w, getElem?_flatten_blocks w _ blocks _ _ hm, Nat.mul_add_div pos, Nat.div_eq_of_lt hm, Nat.add_zero,
    Nat.mul_add_mod, Nat.mod_mod, List.getElem?_map, List.getElem?_eq_getElem hd, rowGet_eq_getElem?, List.getElem?_eq_getElem hd,
    Option.map_some, Option.getD_some, Option.getD_some,
    List.getElem?_eq_getElem (by rw [leBytes_length]; exact hm), leBytes_get]

theorem rowBytes_length (s : State) (u : Issuer) (bank : BankNum) (i : Nat) :
    (rowBytes s u bank i).length = 128 * ((etOf s u).width / 8) := by
  unfold rowBytes
  rw [List.length_flatten, List.map_map,
    show List.length ∘ (fun x : Nat × Causes => leBytes ((etOf s u).width / 8) x.1) = fun _ => (etOf s u).width / 8 from
      funext fun x => leBytes_length _ _,
    List.map_const', List.sum_replicate_nat, deliveredRow_length]

/-- The stores of lanes in ascending order, of the same number of bytes each, leave what R277 says. -/
theorem lanesStored_bytes {s t : State} {lanes : Half} {w : Nat} {at_ : Nat → Nat} {val : Nat → List Byte} {f : Nat → Nat → Byte}
    (hlen : ∀ l, (val l).length = w) (hf : ∀ l b, b < w → (val l)[b]? = some (f l b))
    (hs : t.spad = writeAll at_ val (lanesOf lanes) s.spad)
    (hb : t.bad = { s.bad with spad := t.bad.spad } ∧ ∀ n ∈ t.bad.spad, n ∈ s.bad.spad) : LanesStored s t lanes w at_ f where
  stored hm l hl hp b hlt later := by
    have inside : b < (val l).length := by rw [hlen]; exact hlt
    have last := writeAll_last at_ val (lanesOf lanes) (lanesOf_sorted lanes) hm (mem_lanesOf.mpr ⟨hl, hp⟩) inside fun k hk hlk => by
      rw [hlen]
      exact later k hlk (mem_lanesOf.mp hk).1 (mem_lanesOf.mp hk).2
    rw [hs, last]
    exact (List.getElem_eq_iff inside).mpr (hf l b hlt)
  others y hy := by
    rw [hs, writeAll_other]
    intro l hl
    rw [hlen]
    exact hy l (mem_lanesOf.mp hl).1 (mem_lanesOf.mp hl).2
  bad := hb

/-- The window offset of row `i`. -/
def rowOffset (s : State) (u : Issuer) (a : Word) (i : Nat) : Word := a + BitVec.ofNat 64 (i * 128 * ((etOf s u).width / 8))

/-- The rows of the participating lanes, stored ascending. -/
def storeRows (s : State) (u : Issuer) (bank : BankNum) (a : Word) (x : State) : State :=
  (lanesOf (partOf s u)).foldl (fun x i => x.spadWrite (placeOf s u (rowOffset s u a i)) (rowBytes s u bank i)) x

/-- The causes that a delivered row raises. -/
def rowCauses (s : State) (u : Issuer) (bank : BankNum) (i : Nat) : Causes :=
  (deliveredRow s u bank i).foldl (fun x e => x ||| e.2) noCause

/-- The state in which MST has stored its rows and logged the causes of conversion. -/
def mstDone (s : State) (u : Issuer) (bank : BankNum) (a : Word) : State :=
  (s.ownStore u (storeRows s u bank a)).raise u.team u.gang (pcAt s u) (partOf s u) (rowCauses s u bank)

theorem storeRows_writes (s : State) (u : Issuer) (bank : BankNum) (a : Word) (x : State) : Writes x (storeRows s u bank a x) :=
  writes_foldl (fun x i => writes_spadWrite x (placeOf s u (rowOffset s u a i)) (rowBytes s u bank i)) _ x

theorem spad_storeRows (s : State) (u : Issuer) (bank : BankNum) (a : Word) :
    (s.ownStore u (storeRows s u bank a)).spad =
      writeAll (fun i => placeOf s u (rowOffset s u a i)) (rowBytes s u bank) (lanesOf (partOf s u)) s.spad := by
  obtain ⟨x, before, after, -⟩ := ownStore_noted s u (storeRows s u bank a)
  have stored := foldl_spadWrite (fun i => placeOf s u (rowOffset s u a i)) (rowBytes s u bank) (lanesOf (partOf s u)) x
  rw [(noted_spad after).1, storeRows, stored]
  exact congrArg (writeAll _ _ _) (noted_spad before).1

theorem team_mstDone (s : State) (u : Issuer) (bank : BankNum) (a : Word) :
    (mstDone s u bank a).team u.team =
      (s.team u.team).modGang u.gang (fun g => { g with log := logRaised s u (partOf s u) (rowCauses s u bank) }) := by
  have rest := ownStore_writes (s1 := s) (u := u) (storeRows_writes s u bank a)
  have team : (s.ownStore u (storeRows s u bank a)).team u.team = s.team u.team := by rw [rest]; rfl
  have cycle : (s.ownStore u (storeRows s u bank a)).cycle = s.cycle := by rw [rest]
  unfold mstDone State.raise State.raiseIn State.modGang
  rw [State.team_modTeam_same, State.gang, team, cycle]
  rfl

theorem gang_mstDone (s : State) (u : Issuer) (bank : BankNum) (a : Word) :
    (mstDone s u bank a).gang u.team u.gang = { s.gang u.team u.gang with log := logRaised s u (partOf s u) (rowCauses s u bank) } := by
  rw [State.gang, team_mstDone]
  exact Team.gang_modGang_same _ _ _

/-- After MST has recorded its accesses. -/
def mstRecorded (s : State) (u : Issuer) (bank : BankNum) (a : Word) : State :=
  if gmDet (s.gang u.team u.gang).gmode then
    (mstDone s u bank a).modTeam u.team (fun t => (lanesOf (partOf s u)).foldl (fun t i =>
      t.recordLines u.gang (rowOffset s u a i).toNat (128 * ((etOf s u).width / 8)) .write) t)
  else mstDone s u bank a

/-- The program counter that a gang's word sees. -/
theorem ctx_pc (hg : u.gang ≠ 16) : (ctxOf i u s vals).pc = pcAt s u := by
  rw [ctxOf_gang hg]
  rfl

/-- MST passes its checks where its bank is sound, its rows lie in the window, and no other gang's access conflicts. -/
theorem mst_passes {ka : KNum} (ok : BankOk s u bank) (hal : (kOf s u ka).toNat % 64 = 0)
    (hin : (kOf s u ka).toNat + 4096 * ((etOf s u).width / 8) ≤ (s.team u.team).scratch)
    (alone : gmDet (s.gang u.team u.gang).gmode = true → ∀ i, i < 32 → (partOf s u).getLsbD i = true →
      (s.team u.team).raceAt u.gang (rowOffset s u (kOf s u ka) i).toNat (128 * ((etOf s u).width / 8)) .write = none)
    (k : Except Stop State) :
    let c := ctxOf (.mst bank ka) u s vals
    stopOr (bankStop c bank) (stopOr (uniformStop c 64 (4096 * ((etOf s u).width / 8)) (kOf s u ka))
      (stopOr (poisonedStop s c bank) (stopOr (bankWait c bank)
      (stopOr (if gmDet (s.gang u.team u.gang).gmode then ((lanesOf (partOf s u)).findSome? (fun i =>
          (s.team u.team).raceAt u.gang (rowOffset s u (kOf s u ka) i).toNat (128 * ((etOf s u).width / 8)) .write)).map
          (fun x => .trap (raceTrap x none)) else none)
      (stopOr (badBankStop s c bank) k))))) = k := by
  obtain ⟨owned, settled, sound, good⟩ := ok
  have races : (if gmDet (s.gang u.team u.gang).gmode then ((lanesOf (partOf s u)).findSome? (fun i =>
      (s.team u.team).raceAt u.gang (rowOffset s u (kOf s u ka) i).toNat (128 * ((etOf s u).width / 8)) .write)).map
      (fun x => Stop.trap (raceTrap x none)) else none) = none := by
    split
    next hd =>
      rw [List.findSome?_eq_none_iff.mpr fun i hi => alone hd i (mem_lanesOf.mp hi).1 (mem_lanesOf.mp hi).2]
      rfl
    next => rfl
  intro c
  rw [bankStop_none owned, uniform_none hal hin, poisonedStop_none sound, bankWait_none settled, races, badBankStop_none good]
  rfl

/-- MST stores its rows, logs what conversion raises, and passes. -/
theorem mst_word {ka : KNum} (h : GangIssues (.mst bank ka) { ks := [ka], mode := readsEt bigFloat } u s vals s popped)
    (ok : BankOk s u bank) (hal : (kOf s u ka).toNat % 64 = 0)
    (hin : (kOf s u ka).toNat + 4096 * ((etOf s u).width / 8) ≤ (s.team u.team).scratch)
    (alone : gmDet (s.gang u.team u.gang).gmode = true → ∀ i, i < 32 → (partOf s u).getLsbD i = true →
      (s.team u.team).raceAt u.gang (rowOffset s u (kOf s u ka) i).toNat (128 * ((etOf s u).width / 8)) .write = none) :
    ∃ t, exec (.mst bank ka) s = .next t ∧ Within s t u ∧ FillsNote s t u ∧ CommandsNote s t ∧ t.syncCodes = s.syncCodes ∧ TagsKept s t u ∧
      LanesStored s t (partOf s u) (128 * ((etOf s u).width / 8)) (fun i => placeOf s u (rowOffset s u (kOf s u ka) i))
        (fun i b => BitVec.ofNat 8 ((rowGet (0, noCause) (deliveredRow s u bank i) (b / ((etOf s u).width / 8))).1
          / 256 ^ (b % ((etOf s u).width / 8)))) ∧
      GangKeeps (s.gang u.team u.gang) (t.gang u.team u.gang) u.slices ∧
      (t.gang u.team u.gang).lanes = (s.gang u.team u.gang).lanes ∧ (t.gang u.team u.gang).k = (s.gang u.team u.gang).k ∧
      (t.gang u.team u.gang).log = logRaised s u (partOf s u) (rowCauses s u bank) := by
  have hg := h.isGang
  have effect : OwnStored s (s.ownStore u (storeRows s u bank (kOf s u ka))) u :=
    ownStored (onlyGang_refl s u) (storeRows_writes s u bank (kOf s u ka))
  have within : Within s (mstDone s u bank (kOf s u ka)) u := within_modGang effect.within _
  have hR : Recorded (mstDone s u bank (kOf s u ka)) (mstRecorded s u bank (kOf s u ka)) u (gmDet (s.gang u.team u.gang).gmode) :=
    recorded_of (foldl_recordLines _ _ _ _ _ _)
  obtain ⟨body, hx, hb⟩ : ∃ body, exec (.mst bank ka) s = issue (.mst bank ka) { ks := [ka], mode := readsEt bigFloat } body s ∧
      body (ctxOf (.mst bank ka) u s vals) s = .ok (mstRecorded s u bank (kOf s u ka)) := ⟨_, rfl, by
    rw [ctx_k, ctx_et hg, det_gang hg, ctx_u, ctx_t, ctx_part hg, ctx_modes hg, ctx_pc hg]
    exact mst_passes ok hal hin alone _⟩
  obtain ⟨t, ht, reach, gang, store, fresh, tags, lines⟩ := gang_reaches h hb (hR.within s within)
  have after : NoStore (s.ownStore u (storeRows s u bank (kOf s u ka))) t :=
    noStore_trans (b := mstDone s u bank (kOf s u ka)) ⟨rfl, rfl, rfl, rfl, rfl⟩ (noStore_trans hR.noStore store)
  obtain ⟨fills, cmds, codes, bad⟩ := effect.finished after (fresh.trans hR.fresh)
  rw [hR.gang, gang_mstDone] at gang
  refine ⟨t, hx.trans ht, reach, fills, cmds, codes, ⟨?_, fun hd => ?_⟩, ?_, ?_, ?_, ?_, ?_⟩
  · rw [tags, hR.tags, team_mstDone]
    rfl
  · rw [lines, hR.lines (hd.resolve_left hg), team_mstDone]
    rfl
  · exact lanesStored_bytes (rowBytes_length s u bank) (fun i b hb => rowBytes_get s u bank i hb)
      (after.1.trans (spad_storeRows s u bank (kOf s u ka))) bad
  · rw [gang]
    exact gangKeeps_finish rfl rfl (State.issuable_gang h.issuable hg) rfl rfl
  all_goals rw [gang, finishGang_keeps]

end

end Sys2Proof.Machine
end

section
namespace Sys2Proof.Machine

open Sys2Proof Sys2Proof.Safety

/-! ### The obligation on the array -/

section
variable {s : State} {u : Issuer} {vals : List (List Word)} {popped : Bool} {bank : BankNum}

/-- MRD writes two columns of a sound bank to the participating lanes (R159). -/
theorem mrd_word {d : VNum} {kb : KNum} (h : GangIssues (.mrd d bank kb) { ks := [kb], dsts := [d] } u s vals s popped) (ok : BankOk s u bank) :
    let b := (s.team u.team).bank bank.toNat
    let c := ((kOf s u kb).extractLsb' 0 6).toNat
    ∃ t, exec (.mrd d bank kb) s = .next t ∧ OnlyGang s t u ∧
      VectorResult (s.gang u.team u.gang) (t.gang u.team u.gang) u.slices (partOf s u) d (fun l => b.elem l (2 * c + 1) ++ b.elem l (2 * c)) := by
  obtain ⟨owned, settled, sound, good⟩ := ok
  intro b c
  obtain ⟨body, hx, hb⟩ : ∃ body, exec (.mrd d bank kb) s = issue (.mrd d bank kb) { ks := [kb], dsts := [d] } body s ∧
      body (ctxOf (.mrd d bank kb) u s vals) s =
        .ok (s.writeV u d (partOf s u) (fun l => b.elem l (2 * c + 1) ++ b.elem l (2 * c))) := ⟨_, rfl, by
    rw [bankStop_none owned, poisonedStop_none sound, bankWait_none settled, badBankStop_none good, ctx_k, ctx_t, ctx_u, ctx_part h.isGang]
    rfl⟩
  obtain ⟨t, ht, only, result, -⟩ := quiet_word h rfl rfl d _ hb
  exact ⟨t, hx.trans ht, only, result⟩

/-- MSTAT writes the status of a bank to a k register (R160). -/
theorem mstat_word {kd : KNum} (h : GangIssues (.mstat kd bank) {} u s vals s popped) (owned : bank.toNat < (s.team u.team).nbanks) :
    let b := (s.team u.team).bank bank.toNat
    ∃ t, exec (.mstat kd bank) s = .next t ∧ OnlyGang s t u ∧ KResult (s.gang u.team u.gang) (t.gang u.team u.gang) u.slices kd
      (BitVec.ofNat 64 (b.done.toNat * 2 ^ 16 + (if b.inf then 2 ^ 10 else 0) + (if b.nan then 2 ^ 9 else 0)
        + ((s.team u.team).mmas.filter (fun m => m.bank = bank.toNat)).length)) := by
  intro b
  obtain ⟨body, hx, hb⟩ : ∃ body, exec (.mstat kd bank) s = issue (.mstat kd bank) {} body s ∧
      body (ctxOf (.mstat kd bank) u s vals) s = .ok (s.writeK u kd
        (BitVec.ofNat 64 (b.done.toNat * 2 ^ 16 + (if b.inf then 2 ^ 10 else 0) + (if b.nan then 2 ^ 9 else 0)
          + ((s.team u.team).mmas.filter (fun m => m.bank = bank.toNat)).length))) := ⟨_, rfl, by
    rw [bankStop_none owned, ctx_t, ctx_u]
    rfl⟩
  obtain ⟨t, ht, only, result, -⟩ := k_word h rfl rfl kd _ hb
  exact ⟨t, hx.trans ht, only, result⟩

end

/-- The result that is due is written, and what it leaves is what R145, R153 and R160 say. -/
theorem mmaResultWrite_word {core : Nat} {s : State} {u : Nat} {m : MmaOp} (hdue : s.mmaDue core = some (u, m)) :
    exec (.mmaResultWrite core) s = .next (s.writeMma u m) := by
  rw [exec_mmaResultWrite]
  unfold execMmaResultWrite
  rw [hdue]

/-- Settles O48: an MMA starts or is held by its turn at the array, the first result that is due is written, and each bank word acts on
its bank alone. -/
theorem matrixWords : Obligations.MatrixWords := by
  refine ⟨?_, ?_, ?_, ?_, fun d bank kb s u vals popped h ok => mrd_word h ok, fun kd bank s u vals popped h owned => mstat_word h owned⟩
  · intro bank a kb wa reuse la clear s u vals popped h g tm w r blk slab woff soff n active owned sound good live mine hblk hslab zero regs
      me turn
    have ready : MmaReady s u bank a kb reuse :=
      ⟨active, owned, sound, live, ObRecord.takes_live live mine hblk hslab zero,
        fun hl v hv l hl' _ => regs (fun hit => by rw [latchHit, hit.1, decide_eq_true hit.2] at hl; cases hl) v hv l hl'⟩
    have turn_iff : arrayFor s u = true ↔ turn := by
      unfold arrayFor
      simp only [Bool.and_eq_true, decide_eq_true_eq, and_assoc]
      rfl
    refine ⟨fun hturn => mma_waits h ready (Bool.eq_false_iff.mpr fun e => hturn (turn_iff.mp e)), ?_⟩
    intro hturn hweights hscales m
    obtain ⟨same, nothing⟩ := mmaOf_sound bank a kb la clear s u h.isGang hweights hscales
    have started := mma_starts h ready (turn_iff.mpr hturn) (same ▸ nothing) good
    rw [same] at started
    exact started
  · intro core s u m hu hcore hm hfrozen hdue first old pack causes
    refine ⟨_, mmaResultWrite_word (State.mmaDue_eq hu hcore hm hfrozen hdue first), rfl, fun v hv => s.team_writeMma_other m hv, ?_,
      fun b hb => s.bank_writeMma_other u m hb, ?_, s.gang_writeMma u m⟩
    · rw [s.team_writeMma u m]
    · intro new
      have result : new = bankAfter m old := s.bank_writeMma_same u m
      rw [result]
      refine ⟨fun i j hi hj => elem_bankAfter m old hi hj, fun h i j => m.element_val_ne h _ _ _ _, rfl, rfl, ?_, ?_⟩
      · rw [← result_any m old (·.inf)]
        exact Bool.or_eq_true_iff
      · rw [← result_any m old (·.nan)]
        exact Bool.or_eq_true_iff
  · intro bank s u vals popped h owned settled old
    obtain ⟨t, ht, finished⟩ := mclr_word h owned settled
    obtain ⟨rest, teams⟩ := mclrDone_rest s u bank
    refine ⟨mclrDone s u bank, t, ht, finished, rest, fun v hv => ?_, ?_, fun n hn => ?_, ?_⟩
    · rw [teams]
      exact State.team_modTeam_other _ _ (Ne.symm hv)
    · rw [teams, team_modBank_same]
    · rw [teams]
      exact bank_modBank_other _ _ _ (Ne.symm hn)
    · rw [teams, bank_modBank_same]
      refine ⟨fun i j hi hj => elem_clearedBank _ _ hi hj, rfl, rfl, rfl, ?_, mclrDone_cores⟩
      show (_ && _) = _
      congr 1
  · intro bank ka s u vals popped h ok t w a rowAt row hal hin alone
    exact mst_word h ok hal hin alone

end Sys2Proof.Machine
end

section
namespace Sys2Proof.Machine

open Sys2Proof Sys2Proof.Safety

/-! ### The lowest place that fits (R161) -/

/-- A length fits at an aligned offset below a bound, clear of every span. -/
def FitsAt (al : Nat) (spans : List (Nat × Nat)) (len bound o : Nat) : Prop :=
  o % al = 0 ∧ o + len ≤ bound ∧ ∀ x ∈ spans, o + len ≤ x.1 ∨ x.2 ≤ o

/-- An aligned offset below a number rounded up lies below the number. -/
theorem lt_of_lt_roundUp {al o n : Nat} (ho : o % al = 0) (h : o < (n + al - 1) / al * al) : o < n := by
  obtain ⟨k, rfl⟩ := Nat.dvd_of_mod_eq_zero ho
  rw [Nat.mul_comm] at h
  have hk : k + 1 ≤ (n + al - 1) / al := Nat.lt_of_mul_lt_mul_right h
  have pos : 0 < al := Nat.pos_of_ne_zero fun e => by
    subst e
    simp at h
  have le := (Nat.le_div_iff_mul_le pos).mp hk
  have expand : (k + 1) * al = al * k + al := by rw [Nat.succ_mul, Nat.mul_comm]
  omega

/-- A number rounded up is not below it. -/
theorem le_roundUp {al : Nat} (pos : 0 < al) (n : Nat) : n ≤ (n + al - 1) / al * al := by
  have := Nat.div_add_mod (n + al - 1) al
  have hm := Nat.mod_lt (n + al - 1) pos
  rw [Nat.mul_comm] at this
  omega

/-- The search for a place finds the lowest one that fits: each span that stands in the way is passed once. -/
theorem lowestFit_spec {al : Nat} (pos : 0 < al) (spans : List (Nat × Nat)) (len bound : Nat) : ∀ (fuel base : Nat), base % al = 0 →
    (∀ o, o < base → ¬ FitsAt al spans len bound o) → (spans.filter (fun x => decide (base < x.2))).length < fuel →
    (lowestFit al spans len bound fuel base = none ∧ ∀ o, ¬ FitsAt al spans len bound o) ∨
    ∃ o, lowestFit al spans len bound fuel base = some o ∧ FitsAt al spans len bound o ∧ ∀ p, p < o → ¬ FitsAt al spans len bound p
  | 0, _, _, _, hf => absurd hf (Nat.not_lt_zero _)
  | fuel + 1, base, hal, below, hf => by
    unfold lowestFit
    by_cases out : bound < base + len
    · rw [if_pos out]
      refine Or.inl ⟨rfl, fun o h => ?_⟩
      rcases Nat.lt_or_ge o base with lt | ge
      · exact below o lt h
      · have := h.2.1
        omega
    rw [if_neg out]
    cases found : spans.find? (fun x => decide (x.1 < base + len) && decide (base < x.2)) with
    | none =>
      refine Or.inr ⟨base, rfl, ⟨hal, Nat.not_lt.mp out, fun x hx => ?_⟩, below⟩
      have clear := List.find?_eq_none.mp found x hx
      simp only [Bool.and_eq_true, decide_eq_true_eq] at clear
      omega
    | some x =>
      have inWay := List.find?_some found
      have mem := List.mem_of_find?_eq_some found
      simp only [Bool.and_eq_true, decide_eq_true_eq] at inWay
      obtain ⟨starts, ends⟩ := inWay
      have past := le_roundUp pos x.2
      refine lowestFit_spec pos spans len bound fuel _ (Nat.mul_mod_left _ _) (fun o ho h => ?_) ?_
      · rcases Nat.lt_or_ge o base with lt | ge
        · exact below o lt h
        · have before := lt_of_lt_roundUp h.1 ho
          have := h.2.2 x mem
          omega
      · have fewer : (spans.filter (fun y => decide ((x.2 + al - 1) / al * al < y.2))).length <
            (spans.filter (fun y => decide (base < y.2))).length := by
          have sub : spans.filter (fun y => decide ((x.2 + al - 1) / al * al < y.2)) =
              (spans.filter (fun y => decide (base < y.2))).filter (fun y => decide ((x.2 + al - 1) / al * al < y.2)) := by
            rw [List.filter_filter]
            refine List.filter_congr fun y _ => ?_
            rw [← Bool.decide_and]
            exact decide_eq_decide.mpr ⟨fun h => ⟨h, by omega⟩, fun h => h.1⟩
          rw [sub]
          refine List.length_filter_lt_length_iff_exists.mpr ⟨x, List.mem_filter.mpr ⟨mem, decide_eq_true ends⟩, ?_⟩
          rw [decide_eq_true_eq]
          omega
        omega

/-! ### The result of OBRES (R161) -/

section
variable {s : State} {u core : Nat} {a : Word} {b : List Byte}

/-- The length of a record of a core does not overlap the spans that records hold. -/
theorem fitsAt_obufSpans {len o : Nat} : FitsAt 256 (s.obufSpans core) len Config.operandBytes o ↔
    o % 256 = 0 ∧ o + len ≤ 2 ^ 20 ∧
      ∀ i, i < 64 → (s.record core i).state ≠ .free → o + len ≤ (s.record core i).base ∨ (s.record core i).base + (s.record core i).len ≤ o := by
  unfold FitsAt State.obufSpans
  refine and_congr Iff.rfl (and_congr Iff.rfl ?_)
  rw [List.forall_mem_map]
  simp only [List.mem_filter, mem_upTo, decide_eq_true_eq, and_imp]
  rfl

theorem obufSpans_length : (s.obufSpans core).length ≤ 64 := by
  unfold State.obufSpans
  rw [List.length_map]
  exact (List.length_filter_le _ _).trans (by rw [upTo_length]; exact Nat.le_refl 64)

/-- The search of OBRES for a span. -/
theorem lowestFit_obuf (len : Nat) :
    (lowestFit 256 (s.obufSpans core) len Config.operandBytes 65 0 = none ∧
      ∀ o, ¬ FitsAt 256 (s.obufSpans core) len Config.operandBytes o) ∨
    ∃ o, lowestFit 256 (s.obufSpans core) len Config.operandBytes 65 0 = some o ∧
      FitsAt 256 (s.obufSpans core) len Config.operandBytes o ∧ ∀ p, p < o → ¬ FitsAt 256 (s.obufSpans core) len Config.operandBytes p :=
  lowestFit_spec (by decide) _ _ _ 65 0 rfl (fun _ h => absurd h (Nat.not_lt_zero _))
    (Nat.lt_of_le_of_lt ((List.length_filter_le _ _).trans obufSpans_length) (by decide))

/-- A request whose fields are well formed (R147). -/
def GoodRequest (b : List Byte) : Prop :=
  (field b 8 1 = 1 ∨ field b 8 1 = 3 ∨ field b 8 1 = 5) ∧ field b 9 1 ≤ 3 ∧ field b 0 4 % 64 = 0 ∧ field b 0 4 % (16 * 2 ^ field b 9 1) = 0 ∧
    64 ≤ field b 0 4 ∧ field b 4 4 % 128 = 0 ∧ 128 ≤ field b 4 4 ∧ field b 10 6 = 0 ∧ field b 24 8 = 0

theorem requestBad_iff : requestBad b = false ↔ GoodRequest b := by
  unfold requestBad GoodRequest lbOf
  simp only [Bool.or_eq_false_iff, decide_eq_false_iff_not, Bool.not_eq_false', List.contains_iff_mem, List.mem_cons,
    List.not_mem_nil, or_false, Nat.not_lt, ne_eq, not_not, and_assoc]
  refine and_congr_right fun _ => and_congr_right fun hlb => ?_
  rw [Nat.min_eq_right hlb]

/-- A reservation is made again where RESULT names a record that was reserved from this address. -/
def Again (s : State) (u core : Nat) (a : Word) (b : List Byte) : Prop :=
  let old := BitVec.ofNat 64 (field b 16 8)
  let x := s.record core (recNum old).toNat
  old.toNat < 2 ^ 63 ∧ (x.state = .live ∨ x.state = .filling) ∧ x.team = u ∧ x.req = a

theorem again_iff : (!(BitVec.ofNat 64 (field b 16 8)).getLsbD 63 &&
    (s.record core (recNum (BitVec.ofNat 64 (field b 16 8))).toNat).heldBy u &&
    decide ((s.record core (recNum (BitVec.ofNat 64 (field b 16 8))).toNat).req.toNat = a.toNat)) = true ↔ Again s u core a b := by
  have sign : ∀ w : Word, w.getLsbD 63 = false ↔ w.toNat < 2 ^ 63 := fun w => by
    have h := w.isLt
    rw [BitVec.getLsbD, Nat.testBit_eq_decide_div_mod_eq, decide_eq_false_iff_not]
    omega
  unfold Again ObRecord.heldBy
  simp only [Bool.and_eq_true, Bool.not_eq_true', Bool.or_eq_true, decide_eq_true_eq, sign, BitVec.toNat_inj, and_assoc]

/-- A failure of OBRES: its code, with bit 63 set. -/
def failCode (n : Nat) : Word := BitVec.ofNat 64 (2 ^ 63 + n)

/-- The length of the record that a request asks for. -/
def requestLen (b : List Byte) : Nat := recordLen (field b 0 4) (field b 4 4) (field b 8 1) (lbOf (field b 9 1))

/-- The record that a request is given at a place. -/
def requestRecord (u : Nat) (a : Word) (b : List Byte) (base : Nat) : ObRecord :=
  { state := .live, team := u, rows := field b 0 4, cols := field b 4 4, fmt := field b 8 1, lb := lbOf (field b 9 1), req := a,
    base := base, len := requestLen b }

theorem reserve_again (h : Again s u core a b) : s.reserve u core a.toNat b = (BitVec.ofNat 64 (field b 16 8), none) := by
  unfold State.reserve
  exact if_pos (again_iff.mpr h)

theorem reserve_malformed (h : ¬ Again s u core a b) (hb : ¬ GoodRequest b) : s.reserve u core a.toNat b = (failCode 3, none) := by
  unfold State.reserve
  dsimp only
  rw [if_neg (fun e => h (again_iff.mp e)), if_pos (Bool.not_eq_false _ ▸ fun e => hb (requestBad_iff.mp e))]
  rfl

/-- The result of OBRES for a well-formed request: the lowest FREE record and the lowest span that fits. -/
def placeRequest (s : State) (u core : Nat) (a : Word) (b : List Byte) : Word × Option (Nat × ObRecord) :=
  match (upTo Config.coreRecords).find? (fun i => (s.record core i).state = .free) with
  | none => (failCode 1, none)
  | some r =>
    match lowestFit 256 (s.obufSpans core) (requestLen b) Config.operandBytes 65 0 with
    | none => (failCode 2, none)
    | some base => (BitVec.ofNat 64 (base * 2 ^ 40 + r), some (r, requestRecord u a b base))

theorem reserve_good (h : ¬ Again s u core a b) (hb : GoodRequest b) : s.reserve u core a.toNat b = placeRequest s u core a b := by
  unfold State.reserve
  dsimp only
  rw [if_neg (fun e => h (again_iff.mp e)), requestBad_iff.mpr hb, BitVec.ofNat_toNat, BitVec.setWidth_eq]
  rfl

theorem reserve_noRecord (h : ¬ Again s u core a b) (hb : GoodRequest b) (hf : ∀ i, i < 64 → (s.record core i).state ≠ .free) :
    s.reserve u core a.toNat b = (failCode 1, none) := by
  have none_free : (upTo Config.coreRecords).find? (fun i => decide ((s.record core i).state = .free)) = none :=
    List.find?_eq_none.mpr fun i hi => by
      rw [decide_eq_true_eq]
      exact hf i (mem_upTo.mp hi)
  rw [reserve_good h hb, placeRequest, none_free]

/-- The lowest FREE record is the one found. -/
theorem find?_free {r : Nat} (hr : r < 64) (hf : (s.record core r).state = .free) (low : ∀ i, i < r → (s.record core i).state ≠ .free) :
    (upTo Config.coreRecords).find? (fun i => decide ((s.record core i).state = .free)) = some r :=
  find_upTo_lowest hr (decide_eq_true hf) fun i hi => decide_eq_false (low i hi)

/-- Where some record is FREE there is a lowest one. -/
theorem exists_lowest_free {i : Nat} (hi : i < 64) (hf : (s.record core i).state = .free) :
    ∃ r, r < 64 ∧ (s.record core r).state = .free ∧ ∀ j, j < r → (s.record core j).state ≠ .free := by
  have ex : ∃ r, (s.record core r).state = .free := ⟨i, hf⟩
  exact ⟨Nat.find ex, Nat.lt_of_le_of_lt (Nat.find_min' ex hf) hi, Nat.find_spec ex, fun j hj => Nat.find_min ex hj⟩

theorem reserve_noSpan {i : Nat} (h : ¬ Again s u core a b) (hb : GoodRequest b) (hi : i < 64) (hf : (s.record core i).state = .free)
    (hs : ∀ o, ¬ FitsAt 256 (s.obufSpans core) (requestLen b) Config.operandBytes o) : s.reserve u core a.toNat b = (failCode 2, none) := by
  obtain ⟨r, hr, free, low⟩ := exists_lowest_free hi hf
  have none_fits : lowestFit 256 (s.obufSpans core) (requestLen b) Config.operandBytes 65 0 = none := by
    rcases lowestFit_obuf (s := s) (core := core) (requestLen b) with ⟨e, -⟩ | ⟨o, -, fits, -⟩
    · exact e
    · exact absurd fits (hs o)
  rw [reserve_good h hb, placeRequest, find?_free hr free low]
  dsimp only
  rw [none_fits]

theorem reserve_new {r base : Nat} (h : ¬ Again s u core a b) (hb : GoodRequest b) (hr : r < 64) (free : (s.record core r).state = .free)
    (low : ∀ i, i < r → (s.record core i).state ≠ .free) (fits : FitsAt 256 (s.obufSpans core) (requestLen b) Config.operandBytes base)
    (lowest : ∀ o, o < base → ¬ FitsAt 256 (s.obufSpans core) (requestLen b) Config.operandBytes o) :
    s.reserve u core a.toNat b = (BitVec.ofNat 64 (base * 2 ^ 40 + r), some (r, requestRecord u a b base)) := by
  have found : lowestFit 256 (s.obufSpans core) (requestLen b) Config.operandBytes 65 0 = some base := by
    rcases lowestFit_obuf (s := s) (core := core) (requestLen b) with ⟨-, never⟩ | ⟨o, e, fits', lowest'⟩
    · exact absurd fits (never base)
    · rcases Nat.lt_trichotomy o base with lt | rfl | gt
      · exact absurd fits' (lowest o lt)
      · exact e
      · exact absurd fits (lowest' base gt)
  rw [reserve_good h hb, placeRequest, find?_free hr free low]
  dsimp only
  rw [found]

end

end Sys2Proof.Machine
end

section
namespace Sys2Proof.Machine

open Sys2Proof Sys2Proof.Safety

/-! ### Records changed -/

theorem core_modRecord (s : State) (core i : Nat) (f : ObRecord → ObRecord) (c : Nat) :
    (s.modRecord core i f).core c = { s.core c with records := ((s.modRecord core i f).core c).records } := by
  unfold State.modRecord
  by_cases e : core = c
  · subst e
    rw [State.core_modCore_same]
  · rw [State.core_modCore_other _ _ e]

theorem record_modRecord (s : State) (core i : Nat) (f : ObRecord → ObRecord) (c j : Nat) :
    (s.modRecord core i f).record c j = if c = core ∧ j = i then f (s.record core i) else s.record c j := by
  unfold State.modRecord State.record
  by_cases e : c = core
  · subst e
    rw [State.core_modCore_same]
    by_cases ej : j = i
    · subst ej
      rw [if_pos ⟨rfl, rfl⟩]
      exact rowGet_rowMod_same _ _ _ _
    · rw [if_neg (fun h => ej h.2)]
      exact rowGet_rowMod_other _ _ _ (Ne.symm ej)
  · rw [if_neg (fun h => e h.1), State.core_modCore_other _ _ (Ne.symm e)]

/-! ### OBRES (R161) -/

section
variable {s : State} {u : Issuer} {kd ka kb : KNum} {vals : List (List Word)} {popped : Bool}

/-- A reservation touches its record and its span of the operand buffer alone. -/
theorem reserved_some (s : State) (core r : Nat) (x : ObRecord) :
    let y := s.reserved core (some (r, x))
    y = { s with cores := y.cores, obuf := y.obuf, bad := y.bad, fresh := y.fresh } ∧
    (∀ c, y.core c = { s.core c with records := (y.core c).records }) ∧
    (∀ c i, y.record c i = if c = core ∧ i = r then x else s.record c i) ∧
    (∀ p, p < obufKey core x.base ∨ obufKey core x.base + x.len ≤ p → memGet y.obuf p = memGet s.obuf p) ∧
    y.bad = { s.bad with obuf := y.bad.obuf } := by
  refine ⟨rfl, core_modRecord s core r _, record_modRecord s core r _, fun p hp => ?_, rfl⟩
  exact memGet_memWrite_other _ _ _ _ (by rw [List.length_map, upTo_length]; exact hp)

/-- The request block as a program sees it. -/
def requestBlock (s : State) (u : Issuer) (a : Word) : List Byte := (s.spadSeen (placeOf s u a) 32).1
/-- What OBRES of a request answers. -/
def obresAnswer (s : State) (u : Issuer) (a : Word) : Word × Option (Nat × ObRecord) :=
  s.reserve u.team (s.team u.team).home a.toNat (requestBlock s u a)
/-- The state with the record that OBRES reserves. -/
def obresReserved (s : State) (u : Issuer) (a : Word) : State :=
  (s.spadSeen (placeOf s u a) 32).2.reserved (s.team u.team).home (obresAnswer s u a).2
/-- The state in which RESULT has been stored. -/
def obresStored (s : State) (u : Issuer) (a : Word) : State :=
  (obresReserved s u a).ownStore u (fun x => x.spadWrite (placeOf s u a + 16) (leBytes 8 (obresAnswer s u a).1.toNat))

/-- Bytes seen draw free values where they are undefined, and change nothing else. -/
theorem spadSeen_state (s : State) (key n : Nat) :
    (s.spadSeen key n).2 = if s.veils key n = true then { s with fresh := s.fresh + n } else s := by
  rw [spadSeen_eq]
  exact if_congr ⟨fun h => h.2, fun h => ⟨rfl, h⟩⟩ rfl rfl

theorem spadSeen_rest (s : State) (key n : Nat) : (s.spadSeen key n).2 = { s with fresh := (s.spadSeen key n).2.fresh } := by
  rw [spadSeen_state]
  exact drawn_rest s n _

theorem reserved_rest (s : State) (core : Nat) (new : Option (Nat × ObRecord)) :
    s.reserved core new = { s with cores := (s.reserved core new).cores, obuf := (s.reserved core new).obuf,
                                   bad := (s.reserved core new).bad, fresh := (s.reserved core new).fresh } := by
  unfold State.reserved
  split <;> rfl

theorem obresReserved_rest (s : State) (u : Issuer) (a : Word) :
    obresReserved s u a = { s with cores := (obresReserved s u a).cores, obuf := (obresReserved s u a).obuf,
                                   bad := (obresReserved s u a).bad, fresh := (obresReserved s u a).fresh } := by
  have reserved := reserved_rest (s.spadSeen (placeOf s u a) 32).2 (s.team u.team).home (obresAnswer s u a).2
  have seen := spadSeen_rest s (placeOf s u a) 32
  unfold obresReserved
  generalize (s.spadSeen (placeOf s u a) 32).2 = x at reserved seen ⊢
  rw [seen] at reserved ⊢
  exact reserved

/-- OBRES stores its answer in RESULT, writes it to its register, and passes. -/
theorem obres_word (h : GangIssues (.obres kd ka) { ks := [ka] } u s vals s popped) (ok : UniformOk s u 32 32 (kOf s u ka) .read)
    (sound : s.spadBad (placeOf s u (kOf s u ka)) 32 = false) :
    let a := kOf s u ka
    let w := (obresStored s u a).writeK u kd (obresAnswer s u a).1
    ∃ t, exec (.obres kd ka) s = .next t ∧
      Finished (if gmDet (s.gang u.team u.gang).gmode = true then w.modTeam u.team (fun t => t.recordLines u.gang a.toNat 32 .read) else w) t u := by
  intro a w
  have hg := h.isGang
  have record : w.recordRange (ctxOf (.obres kd ka) u s vals) 32 a .read =
      if gmDet (s.gang u.team u.gang).gmode = true then w.modTeam u.team (fun t => t.recordLines u.gang a.toNat 32 .read) else w := by
    rw [recordRange_ctx]
    exact if_congr ⟨fun e => e.2, fun e => ⟨hg, e⟩⟩ rfl rfl
  have answer : (s.spadSeen (placeOf s u a) 32).2.reserve u.team (s.team u.team).home a.toNat (s.spadSeen (placeOf s u a) 32).1 =
      obresAnswer s u a := by
    rw [spadSeen_rest]
    rfl
  have teams : (obresStored s u a).teams = s.teams := by
    unfold obresStored
    rw [(stored_one _ u _ _).1, obresReserved_rest]
  obtain ⟨body, hx, hb⟩ : ∃ body, exec (.obres kd ka) s = issue (.obres kd ka) { ks := [ka] } body s ∧
      body (ctxOf (.obres kd ka) u s vals) s = .ok (w.recordRange (ctxOf (.obres kd ka) u s vals) 32 a .read) := ⟨_, rfl, by
    dsimp only
    rw [ctx_k, ctx_t, ctx_u, uniformStop_none ok, uniformRace_none ok, badStop_none sound, place_key, answer]
    rfl⟩
  rw [hx, ← record]
  refine gang_finishes h rfl rfl hb ?_
  have marks := recorded_range w (ctxOf (.obres kd ka) u s vals) 32 a .read
  rw [ctx_u] at marks
  rw [marks.gang]
  show ((State.writeK _ _ _ _).gang _ _).slices = _
  rw [State.writeK_gang _ hg, State.gang_modGang_same, gang_of_teams teams]
  rfl

end

end Sys2Proof.Machine
end

section
namespace Sys2Proof.Machine

open Sys2Proof Sys2Proof.Safety

section
variable {s : State} {u : Issuer} {kd ka kb : KNum} {vals : List (List Word)} {popped : Bool}

/-! ### OBREL (R162) and OBLD (R163) -/

theorem ObRecord.heldBy_iff {r : ObRecord} {v : Nat} : r.heldBy v = true ↔ (r.state = .live ∨ r.state = .filling) ∧ r.team = v := by
  unfold ObRecord.heldBy
  simp only [Bool.and_eq_true, Bool.or_eq_true, decide_eq_true_eq]

/-- A record of the team is held while it fills, and while an MMA reads it. -/
theorem recordWait_some {i : Instr} {r : BitVec 6} (h : (s.record (s.team u.team).home r.toNat).state = .filling ∨
    (s.team u.team).mmaRecord r s.cycle = true) : recordWait s (ctxOf i u s vals) r = some (.wait (.record r) none) := by
  unfold recordWait
  rw [ctx_t]
  rcases h with h | h
  · refine need_false ?_ _
    rw [h]
    rfl
  · refine need_false ?_ _
    rw [h, Bool.not_true, Bool.and_false]

theorem recordWait_none {i : Instr} {r : BitVec 6} (hl : (s.record (s.team u.team).home r.toNat).state = .live)
    (hm : ¬ (s.team u.team).mmaRecord r s.cycle = true) : recordWait s (ctxOf i u s vals) r = none := by
  unfold recordWait
  rw [ctx_t]
  refine need_true ?_ _
  rw [hl, Bool.eq_false_iff.mpr hm]
  rfl

/-- A unit's slices stay where a record changes. -/
theorem gang_modRecord (s : State) (core i v g : Nat) (f : ObRecord → ObRecord) : (s.modRecord core i f).gang v g = s.gang v g := rfl

theorem obrel_other (h : GangIssues (.obrel ka) { ks := [ka] } u s vals s popped)
    (hn : ¬ (s.record (s.team u.team).home (recNum (kOf s u ka)).toNat).heldBy u.team = true) :
    ∃ t, exec (.obrel ka) s = .next t ∧ Finished s t u := by
  rw [exec_obrel]
  unfold execObrel
  refine gang_finishes h rfl rfl ?_ rfl
  rw [ctx_k, ctx_t, ctx_u]
  dsimp only
  rw [Bool.eq_false_iff.mpr hn]
  rfl

theorem obrel_waits (h : GangIssues (.obrel ka) { ks := [ka] } u s vals s popped)
    (hm : (s.record (s.team u.team).home (recNum (kOf s u ka)).toNat).heldBy u.team = true)
    (hw : (s.record (s.team u.team).home (recNum (kOf s u ka)).toNat).state = .filling ∨
      (s.team u.team).mmaRecord (recNum (kOf s u ka)) s.cycle = true) :
    exec (.obrel ka) s = .next (s.hold u (.record (recNum (kOf s u ka)))) := by
  rw [exec_obrel]
  unfold execObrel
  refine issue_stops (st := .wait (.record (recNum (kOf s u ka))) none) h.toIssues ?_
  rw [ctx_k, ctx_t, ctx_u]
  dsimp only
  rw [hm, recordWait_some hw]
  rfl

theorem obrel_releases (h : GangIssues (.obrel ka) { ks := [ka] } u s vals s popped)
    (hm : (s.record (s.team u.team).home (recNum (kOf s u ka)).toNat).heldBy u.team = true)
    (hl : (s.record (s.team u.team).home (recNum (kOf s u ka)).toNat).state = .live)
    (hr : ¬ (s.team u.team).mmaRecord (recNum (kOf s u ka)) s.cycle = true) :
    ∃ t, exec (.obrel ka) s = .next t ∧ Finished (s.modRecord (s.team u.team).home (recNum (kOf s u ka)).toNat
      (fun x => { x with state := .quarantined, by_ := u.gang })) t u := by
  rw [exec_obrel]
  unfold execObrel
  refine gang_finishes h rfl rfl ?_ rfl
  rw [ctx_k, ctx_t, ctx_u]
  dsimp only
  rw [hm, recordWait_none hl hr]
  rfl

/-- The record that an OBLD names. -/
def obldRecord (s : State) (u : Issuer) (ka : KNum) : ObRecord := s.record (s.team u.team).home (recNum (kOf s u ka)).toNat

/-- The checks of OBLD in their order. -/
def obldStop (s : State) (u : Issuer) (ka kb : KNum) (vals : List (List Word)) : Option Stop :=
  let c := ctxOf (.obld ka kb) u s vals
  let x := obldRecord s u ka
  let b := kOf s u kb
  firstStop [need (b.toNat % 64 = 0) (.trap { cause := .misaligned, detail := b }),
    need (x.heldBy u.team) (.trap { cause := .recordInvalid, detail := BitVec.ofNat 64 (recNum (kOf s u ka)).toNat }),
    need (inWindow (s.team u.team) b x.len) (.trap { cause := .scratchRange, detail := b }),
    uniformRace c x.len b .read, recordWait s c (recNum (kOf s u ka)), badStop s c b x.len]

/-- The record filling, in the state in which its source has been read. -/
def obldFilling (s : State) (u : Issuer) (ka kb : KNum) : State :=
  let x := obldRecord s u ka
  let rd := s.spadSeen (placeOf s u (kOf s u kb)) x.len
  rd.2.modRecord (s.team u.team).home (recNum (kOf s u ka)).toNat (fun y =>
    { y with state := .filling, by_ := u.gang, fillEnd := rd.2.cycle + (y.len + 127) / 128, src := rd.1,
             srcKey := placeOf s u (kOf s u kb), seen := rd.1 })

theorem stopOr_firstStop_cons (x : Option Stop) (l : List (Option Stop)) (k : Except Stop State) :
    stopOr (firstStop (x :: l)) k = stopOr x (stopOr (firstStop l) k) := by
  cases x <;> rfl

/-- OBLD is its checks, and then its record fills. -/
theorem obld_body (s : State) (u : Issuer) (ka kb : KNum) (vals : List (List Word)) :
    ∃ body, exec (.obld ka kb) s = issue (.obld ka kb) { ks := [ka, kb] } body s ∧
      body (ctxOf (.obld ka kb) u s vals) s = stopOr (obldStop s u ka kb vals)
        (.ok ((obldFilling s u ka kb).recordRange (ctxOf (.obld ka kb) u s vals) (obldRecord s u ka).len (kOf s u kb) .read)) :=
  ⟨_, rfl, by
    unfold obldStop
    dsimp only
    simp only [stopOr_firstStop_cons]
    rw [ctx_k, ctx_k, ctx_t, ctx_u, place_key]
    rfl⟩

/-- OBLD stops at the first check that fails. -/
theorem obld_stops {st : Stop} (h : GangIssues (.obld ka kb) { ks := [ka, kb] } u s vals s popped) (hs : obldStop s u ka kb vals = some st) :
    exec (.obld ka kb) s = .next (stopUnit u st s) := by
  obtain ⟨body, hx, hb⟩ := obld_body s u ka kb vals
  rw [hx]
  refine issue_stops h.toIssues ?_
  rw [hb, hs]
  rfl

/-- OBLD that passes its checks makes its record FILLING. -/
theorem obld_fills (h : GangIssues (.obld ka kb) { ks := [ka, kb] } u s vals s popped) (hs : obldStop s u ka kb vals = none) :
    ∃ t, exec (.obld ka kb) s = .next t ∧
      Finished (if gmDet (s.gang u.team u.gang).gmode = true then
        (obldFilling s u ka kb).modTeam u.team (fun t => t.recordLines u.gang (kOf s u kb).toNat (obldRecord s u ka).len .read)
        else obldFilling s u ka kb) t u := by
  have hg := h.isGang
  obtain ⟨body, hx, hb⟩ := obld_body s u ka kb vals
  rw [hs] at hb
  have marks := recorded_range (obldFilling s u ka kb) (ctxOf (.obld ka kb) u s vals) (obldRecord s u ka).len (kOf s u kb) .read
  rw [ctx_u] at marks
  have gang : (obldFilling s u ka kb).gang u.team u.gang = s.gang u.team u.gang :=
    (gang_modRecord _ _ _ _ _ _).trans (gang_of_teams (by rw [spadSeen_rest]) _ _)
  obtain ⟨t, ht, done⟩ := gang_finishes h rfl rfl hb (by rw [marks.gang, gang])
  rw [recordRange_ctx, if_congr (and_iff_right hg) rfl rfl] at done
  exact ⟨t, hx.trans ht, done⟩

end

end Sys2Proof.Machine
end

section
namespace Sys2Proof.Machine

open Sys2Proof Sys2Proof.Safety

/-! ### The end of a fill (R163, R165) -/

theorem memRead_getElem? (m : List Host.Cell) : ∀ (n a : Nat) {i : Nat}, i < n → (memRead m a n)[i]? = some (memGet m (a + i))
  | _ + 1, _, 0, _ => rfl
  | n + 1, a, i + 1, h => by
    have next := memRead_getElem? m n (a + 1) (Nat.lt_of_succ_lt_succ h)
    rw [Nat.add_right_comm, Nat.add_assoc] at next
    exact next

theorem upTo_getElem? {n i : Nat} (h : i < n) : (upTo n)[i]? = some i := by
  have inside : i < (upTo n).length := by rw [upTo_length]; exact h
  have e := rowGet_map_upTo 0 id h
  rw [List.map_id, rowGet_eq_getElem?, List.getElem?_eq_getElem inside] at e
  rw [List.getElem?_eq_getElem inside]
  exact congrArg some e

theorem fillBytes_length {free n : Nat} {src seen now : List Byte} (hs : src.length = n) (he : seen.length = n) (hn : now.length = n) :
    (fillBytes free src seen now).length = n := by
  unfold fillBytes
  simp only [List.length_map, List.length_zip, upTo_length, hs, he, hn, Nat.min_self]

/-- A byte of the source that has not changed since it was seen is brought as it was read. -/
theorem fillBytes_same {free p : Nat} {src seen now : List Byte} {x y : Byte} (hs : src[p]? = some x) (he : seen[p]? = some y)
    (hn : now[p]? = some y) : (fillBytes free src seen now)[p]? = some x := by
  have place := upTo_getElem? (List.getElem?_eq_some_iff.mp hs).1
  have zipped : ((upTo src.length).zip (src.zip (seen.zip now)))[p]? = some (p, x, y, y) := by
    simp only [List.getElem?_zip_eq_some, place, hs, he, hn, and_self]
  unfold fillBytes
  rw [List.getElem?_map, zipped, Option.map_some]
  simp

/-- A list whose places are known, changed place by place. -/
theorem rowGet_zip_upTo {α : Type} (d : α) (f : Nat × α → α) (l : List α) (v : Nat) :
    rowGet d (((upTo l.length).zip l).map f) v = if v < l.length then f (v, rowGet d l v) else d := by
  rw [rowGet_eq_getElem?, List.getElem?_map]
  split
  next h =>
    have zipped : ((upTo l.length).zip l)[v]? = some (v, l[v]) := by
      simp only [List.getElem?_zip_eq_some, upTo_getElem? h, List.getElem?_eq_getElem h, and_self]
    rw [zipped, rowGet_eq_getElem?, List.getElem?_eq_getElem h]
    rfl
  next h =>
    rw [List.getElem?_eq_none (by rw [List.length_zip, upTo_length, Nat.min_self]; exact Nat.not_lt.mp h)]
    rfl

section
variable {s : State} {core n : Nat}

/-- The fill of a record ends: the last note of its source, its bytes, and the record LIVE. -/
def fillEnded (s : State) (core n : Nat) : State :=
  let x := s.lookFill core n
  (x.obufWrite (obufKey core (s.record core n).base) (x.record core n).src).modRecord core n (fun r =>
    { r with state := .live, src := [], seen := [] })

theorem obldFillEnd_word (hf : (s.record core n).state = .filling) (he : (s.record core n).fillEnd ≤ s.cycle)
    (ht : (s.team (s.record core n).team).status ≠ .saved) : exec (.obldFillEnd core n) s = .next (fillEnded s core n) := by
  have due : s.fillDue core n = true := by
    unfold State.fillDue
    dsimp only
    rw [hf, decide_eq_true he, decide_eq_true ht]
    rfl
  rw [exec_obldFillEnd]
  unfold execObldFillEnd
  dsimp only
  rw [due]
  rfl

/-- What the fill brings at its end. -/
def fillBrings (s : State) (core n : Nat) : List Byte :=
  fillBytes s.fresh (s.record core n).src (s.record core n).seen (s.spadBytes (s.record core n).srcKey (s.record core n).src.length)

theorem src_lookFill (s : State) (core n : Nat) : ((s.lookFill core n).record core n).src = fillBrings s core n := by
  unfold State.lookFill
  dsimp only
  rw [record_modRecord, if_pos ⟨rfl, rfl⟩]
  rfl

theorem record_fillEnded (s : State) (core n c i : Nat) : (fillEnded s core n).record c i =
    if c = core ∧ i = n then { s.record core n with state := .live, src := [], seen := [] } else s.record c i := by
  have look : ∀ c i, (s.lookFill core n).record c i = if c = core ∧ i = n then
      (s.record core n).look s.fresh (s.spadBytes (s.record core n).srcKey (s.record core n).src.length) else s.record c i :=
    record_modRecord _ core n _
  have written : ∀ c i, ((s.lookFill core n).obufWrite (obufKey core (s.record core n).base) ((s.lookFill core n).record core n).src).record c i =
      (s.lookFill core n).record c i := fun _ _ => rfl
  have here := (look core n).trans (if_pos ⟨rfl, rfl⟩)
  unfold fillEnded
  dsimp only
  rw [record_modRecord, written core n, written c i, here, look c i]
  by_cases e : c = core ∧ i = n
  · rw [if_pos e, if_pos e]
    rfl
  · rw [if_neg e, if_neg e, if_neg e]

theorem obuf_fillEnded (s : State) (core n : Nat) :
    (fillEnded s core n).obuf = memWrite s.obuf (obufKey core (s.record core n).base) (fillBrings s core n) := by
  rw [← src_lookFill]
  rfl

theorem team_obufWrite (s : State) (key : Nat) (bs : List Byte) (v : Nat) :
    (s.obufWrite key bs).team v = { s.team v with mmas := ((s.obufWrite key bs).team v).mmas } := by
  unfold State.obufWrite State.team
  dsimp only
  rw [rowGet_zip_upTo]
  split
  next => rfl
  next h => rw [rowGet_beyond _ _ _ (Nat.not_lt.mp h)]

theorem team_fillEnded (s : State) (core n v : Nat) :
    (fillEnded s core n).team v = { s.team v with mmas := ((fillEnded s core n).team v).mmas } :=
  team_obufWrite (s.lookFill core n) _ _ v

theorem core_fillEnded (s : State) (core n c : Nat) :
    (fillEnded s core n).core c = { s.core c with records := ((fillEnded s core n).core c).records } := by
  have look := (noted_lookFill s core n).cores c
  have ended := core_modRecord ((s.lookFill core n).obufWrite (obufKey core (s.record core n).base) ((s.lookFill core n).record core n).src)
    core n (fun r => { r with state := .live, src := [], seen := [] }) c
  have written : ((s.lookFill core n).obufWrite (obufKey core (s.record core n).base) ((s.lookFill core n).record core n).src).core c =
      (s.lookFill core n).core c := rfl
  rw [written, look] at ended
  exact ended

end

end Sys2Proof.Machine
end

section
namespace Sys2Proof.Machine

open Sys2Proof Sys2Proof.Safety

section
variable {s : State} {u : Issuer} {kd ka kb : KNum} {vals : List (List Word)} {popped : Bool}

/-! ### The cases of OBLD -/

theorem obldStop_misaligned (h : (kOf s u kb).toNat % 64 ≠ 0) :
    obldStop s u ka kb vals = some (.trap { cause := .misaligned, detail := kOf s u kb }) := by
  unfold obldStop
  dsimp only
  rw [need_false (decide_eq_false h), firstStop_cons_some]

theorem obldStop_foreign (hal : (kOf s u kb).toNat % 64 = 0) (h : ¬ (obldRecord s u ka).heldBy u.team = true) :
    obldStop s u ka kb vals = some (.trap { cause := .recordInvalid, detail := (recNum (kOf s u ka)).setWidth 64 }) := by
  unfold obldStop
  dsimp only
  rw [need_true (decide_eq_true hal), firstStop_cons_none, need_false (Bool.eq_false_iff.mpr h), firstStop_cons_some, BitVec.ofNat_toNat]

theorem obldStop_outside (hal : (kOf s u kb).toNat % 64 = 0) (hm : (obldRecord s u ka).heldBy u.team = true)
    (h : (s.team u.team).scratch < (kOf s u kb).toNat + (obldRecord s u ka).len) :
    obldStop s u ka kb vals = some (.trap { cause := .scratchRange, detail := kOf s u kb }) := by
  have out : inWindow (s.team u.team) (kOf s u kb) (obldRecord s u ka).len = false := decide_eq_false (Nat.not_le.mpr h)
  unfold obldStop
  dsimp only
  rw [need_true (decide_eq_true hal), firstStop_cons_none, need_true hm, firstStop_cons_none, need_false out, firstStop_cons_some]

/-- Where the source lies in the window and the record is the team's, the race decides, then the wait, then the words' soundness. -/
theorem obldStop_inside (hal : (kOf s u kb).toNat % 64 = 0) (hm : (obldRecord s u ka).heldBy u.team = true)
    (hin : (kOf s u kb).toNat + (obldRecord s u ka).len ≤ (s.team u.team).scratch) :
    obldStop s u ka kb vals = firstStop [uniformRace (ctxOf (.obld ka kb) u s vals) (obldRecord s u ka).len (kOf s u kb) .read,
      recordWait s (ctxOf (.obld ka kb) u s vals) (recNum (kOf s u ka)),
      badStop s (ctxOf (.obld ka kb) u s vals) (kOf s u kb) (obldRecord s u ka).len] := by
  have inside : inWindow (s.team u.team) (kOf s u kb) (obldRecord s u ka).len = true := decide_eq_true hin
  unfold obldStop
  dsimp only
  rw [need_true (decide_eq_true hal), firstStop_cons_none, need_true hm, firstStop_cons_none, need_true inside, firstStop_cons_none]

section
variable (hal : (kOf s u kb).toNat % 64 = 0) (hm : (obldRecord s u ka).heldBy u.team = true)
  (hin : (kOf s u kb).toNat + (obldRecord s u ka).len ≤ (s.team u.team).scratch)
include hal hm hin

theorem obldStop_race (hg : u.gang ≠ 16) (hd : gmDet (s.gang u.team u.gang).gmode = true) {x : Nat × Nat}
    (hr : (s.team u.team).raceAt u.gang (kOf s u kb).toNat (obldRecord s u ka).len .read = some x) :
    obldStop s u ka kb vals = some (.trap (raceTrap x none)) := by
  rw [obldStop_inside hal hm hin, uniformRace_some hg hd hr, firstStop_cons_some]

variable (alone : gmDet (s.gang u.team u.gang).gmode = true →
  (s.team u.team).raceAt u.gang (kOf s u kb).toNat (obldRecord s u ka).len .read = none)
include alone

theorem obldStop_alone : obldStop s u ka kb vals = firstStop [recordWait s (ctxOf (.obld ka kb) u s vals) (recNum (kOf s u ka)),
    badStop s (ctxOf (.obld ka kb) u s vals) (kOf s u kb) (obldRecord s u ka).len] := by
  have ok : UniformOk s u 64 (obldRecord s u ka).len (kOf s u kb) .read := ⟨hal, hin, fun _ hd => alone hd⟩
  rw [obldStop_inside hal hm hin, uniformRace_none ok, firstStop_cons_none]

theorem obldStop_waits (hw : (obldRecord s u ka).state = .filling ∨ (s.team u.team).mmaRecord (recNum (kOf s u ka)) s.cycle = true) :
    obldStop s u ka kb vals = some (.wait (.record (recNum (kOf s u ka))) none) := by
  rw [obldStop_alone hal hm hin alone, recordWait_some hw, firstStop_cons_some]

variable (hl : (obldRecord s u ka).state = .live) (hr : ¬ (s.team u.team).mmaRecord (recNum (kOf s u ka)) s.cycle = true)
include hl hr

theorem obldStop_bad (hb : s.spadBad (placeOf s u (kOf s u kb)) (obldRecord s u ka).len = true) :
    obldStop s u ka kb vals = some (.trap (badWordTrap s u)) := by
  rw [obldStop_alone hal hm hin alone, recordWait_none hl hr, firstStop_cons_none, badStop_bad hb, firstStop_cons_some]

theorem obldStop_none (hb : s.spadBad (placeOf s u (kOf s u kb)) (obldRecord s u ka).len = false) : obldStop s u ka kb vals = none := by
  rw [obldStop_alone hal hm hin alone, recordWait_none hl hr, firstStop_cons_none, badStop_none hb]
  rfl

end

/-- The record that OBLD makes FILLING, as R163 states it. -/
theorem obldFilling_eq (s : State) (u : Issuer) (ka kb : KNum) :
    let x := obldRecord s u ka
    let key := placeOf s u (kOf s u kb)
    let veil := s.veils key x.len = true
    let bs := if veil then s.seenBytes s.fresh key x.len else memRead s.spad key x.len
    obldFilling s u ka kb = ({ s with fresh := if veil then s.fresh + x.len else s.fresh } : State).modRecord (s.team u.team).home
      (recNum (kOf s u ka)).toNat (fun x =>
        { x with state := .filling, by_ := u.gang, fillEnd := s.cycle + (x.len + 127) / 128, src := bs, srcKey := key, seen := bs }) := by
  intro x key veil bs
  have bytes : (s.spadSeen key x.len).1 = bs := by rw [spadSeen_eq]
  have state : (s.spadSeen key x.len).2 = { s with fresh := if veil then s.fresh + x.len else s.fresh } := by
    rw [spadSeen_state]
    by_cases hv : s.veils key x.len = true
    · rw [if_pos hv, if_pos hv]
    · rw [if_neg hv, if_neg hv]
  unfold obldFilling
  dsimp only
  rw [bytes, state]

/-! ### The cases of OBRES -/

/-- The request's blocks and its codes as the result of OBRES states them. -/
theorem failCode_of {n : Nat} (hn : n < 4) {res : Word} (h : res.toNat = 2 ^ 63 + n) : failCode n = res := by
  apply BitVec.eq_of_toNat_eq
  rw [h, failCode, BitVec.toNat_ofNat]
  omega

theorem placedCode_of {base r : Nat} (_hb : base ≤ 2 ^ 20) (_hr : r < 64) {res : Word} (h : res.toNat = base * 2 ^ 40 + r) :
    BitVec.ofNat 64 (base * 2 ^ 40 + r) = res := by
  apply BitVec.eq_of_toNat_eq
  rw [h, BitVec.toNat_ofNat]
  omega

/-- OBRES traps on its access and on an uncorrectable word of the request. -/
theorem obres_reads (h : GangIssues (.obres kd ka) { ks := [ka] } u s vals s popped) :
    ReadsBlock (.obres kd ka) s u 32 32 (kOf s u ka) := by
  refine readsBlock (partyIssues_gang h) rfl fun vals => ?_
  rw [show kOf s u ka = (ctxOf (.obres kd ka) u s vals).k ka by rw [ctx_k]]
  exact ⟨_, rfl⟩

/-- What a reservation leaves of the state: its record, its span of the operand buffer, and no more. -/
theorem obresReserved_new {a : Word} {r : Nat} {x : ObRecord} (h : (obresAnswer s u a).2 = some (r, x)) :
    let y := obresReserved s u a
    (∀ c, y.core c = { s.core c with records := (y.core c).records }) ∧
    (∀ c i, y.record c i = if c = (s.team u.team).home ∧ i = r then x else s.record c i) ∧
    (∀ p, p < obufKey (s.team u.team).home x.base ∨ obufKey (s.team u.team).home x.base + x.len ≤ p → memGet y.obuf p = memGet s.obuf p) ∧
    y.bad = { s.bad with obuf := y.bad.obuf } := by
  unfold obresReserved
  rw [h, spadSeen_rest]
  exact (reserved_some { s with fresh := (s.spadSeen (placeOf s u a) 32).2.fresh } (s.team u.team).home r x).2

theorem obresReserved_none {a : Word} (h : (obresAnswer s u a).2 = none) :
    obresReserved s u a = if s.veils (placeOf s u a) 32 = true then { s with fresh := s.fresh + 32 } else s := by
  unfold obresReserved
  rw [h]
  exact spadSeen_state s _ 32

/-- The store of RESULT. -/
theorem obresStored_frame (s : State) (u : Issuer) (a : Word) :
    let y := obresReserved s u a
    let z := obresStored s u a
    z = { y with spad := z.spad, bad := z.bad, cores := z.cores, fresh := z.fresh, cmds := z.cmds } ∧ CommandsNote y z ∧ FillsNote y z u ∧
      Stored y z (placeOf s u a + 16) (leBytes 8 (obresAnswer s u a).1.toNat) := by
  obtain ⟨rest, fills, stored⟩ := stored_one (obresReserved s u a) u (placeOf s u a + 16) (leBytes 8 (obresAnswer s u a).1.toNat)
  exact ⟨rest, commandsNote_ownStore _ u _ fun x => commandsNote_spadWrite x _ _, fills, stored⟩

end

/-- Settles O49: the answer of OBRES follows the cases of the request, OBREL and OBLD follow their checks, and the end of a fill brings the
bytes whose source has not changed. -/
theorem recordWords : Obligations.RecordWords := by
  refine ⟨?_, ?_, ?_, ?_⟩
  · intro kd ka s u vals popped h a key home
    obtain ⟨traps, poison⟩ := obres_reads h
    refine ⟨traps, poison, fun ok sound => ?_⟩
    intro b num old x again rows cols fmt lb good len free fits res new cases
    have block : requestBlock s u a = b := by
      unfold requestBlock
      rw [spadSeen_eq]
    have fitsAt : ∀ o, FitsAt 256 (s.obufSpans home) (requestLen b) Config.operandBytes o ↔ fits o := fun o => fitsAt_obufSpans
    have noFree : ∀ {i}, i < 64 → ¬ free i → (s.record home i).state ≠ .free := fun hi hn e => hn ⟨hi, e⟩
    have answer : obresAnswer s u a = (res, new.map (fun p => (p.1, requestRecord u.team a b p.2))) := by
      unfold obresAnswer
      rw [block]
      rcases cases with ⟨ha, rfl, rfl⟩ | ⟨ha, hg, hres, rfl⟩ | ⟨ha, hg, hf, hres, rfl⟩ | ⟨ha, hg, ⟨i, hi, hf⟩, hs, hres, rfl⟩ |
        ⟨ha, hg, r, base, ⟨hr, hf⟩, low, hfit, lowest, hres, rfl⟩
      · exact reserve_again ha
      · rw [reserve_malformed ha hg, failCode_of (by decide) hres]
        rfl
      · rw [reserve_noRecord ha hg fun i hi => noFree hi (hf i), failCode_of (by decide) hres]
        rfl
      · rw [reserve_noSpan ha hg hi hf fun o => (fitsAt o).not.mpr (hs o), failCode_of (by decide) hres]
        rfl
      · rw [reserve_new ha hg hr hf (fun i hi => noFree (Nat.lt_trans hi hr) (low i hi)) ((fitsAt base).mpr hfit)
          fun o ho => (fitsAt o).not.mpr (lowest o ho), placedCode_of ((Nat.le_add_right _ _).trans hfit.2.1) hr hres]
        rfl
    obtain ⟨rest, cmds, fills, stored⟩ := obresStored_frame s u a
    obtain ⟨t, ht, done⟩ := obres_word h ok sound
    rw [show (obresAnswer s u a).1 = res by rw [answer]] at stored done
    refine ⟨obresReserved s u a, obresStored s u a, t, ht, obresReserved_rest s u a, fun hn => ?_, fun r base hn => ?_, rest, cmds, fills,
      stored, done⟩
    · exact obresReserved_none (by rw [answer, hn]; rfl)
    · exact obresReserved_new (r := r) (x := requestRecord u.team a b base) (by rw [answer, hn]; rfl)
  · intro ka s u vals popped h n home r read mine
    have held : r.heldBy u.team = true ↔ mine := ObRecord.heldBy_iff
    exact ⟨fun hm => obrel_other h (held.not.mpr hm), fun hm hw => obrel_waits h (held.mpr hm) hw,
      fun hm hl hr => obrel_releases h (held.mpr hm) hl hr⟩
  · intro ka kb s u vals popped h n b key home r read mine race
    have held : (obldRecord s u ka).heldBy u.team = true ↔ mine := ObRecord.heldBy_iff
    refine ⟨fun hm => obld_stops h (obldStop_misaligned hm), fun hal hm => obld_stops h (obldStop_foreign hal (held.not.mpr hm)),
      fun hal hm ho => obld_stops h (obldStop_outside hal (held.mpr hm) ho), fun hal hm hin => ?_⟩
    have hm := held.mpr hm
    refine ⟨fun hd m g hr => obld_stops h (obldStop_race hal hm hin h.isGang hd hr), fun alone =>
      ⟨fun hw => obld_stops h (obldStop_waits hal hm hin alone hw),
      fun hl hr hb => obld_stops h (obldStop_bad hal hm hin alone hl hr hb), fun hl hr hb => ?_⟩⟩
    have fills := obld_fills h (obldStop_none hal hm hin alone hl hr hb)
    rw [obldFilling_eq] at fills
    exact fills
  · intro core n s r hf he ht hlen hseen
    have brings : (fillBrings s core n).length = r.len :=
      fillBytes_length hlen hseen (by rw [State.spadBytes, memRead_length]; exact hlen)
    refine ⟨fillEnded s core n, obldFillEnd_word hf he ht, rfl, record_fillEnded s core n, fun hw p hp same => ?_, fun p hp => ?_, rfl,
      team_fillEnded s core n, core_fillEnded s core n⟩
    · have src : r.src[p]? = some (rowGet 0 r.src p) := by
        rw [rowGet_eq_getElem?, List.getElem?_eq_getElem (by rw [hlen]; exact hp)]
        rfl
      have seen : r.seen[p]? = some (rowGet 0 r.seen p) := by
        rw [rowGet_eq_getElem?, List.getElem?_eq_getElem (by rw [hseen]; exact hp)]
        rfl
      have now : (s.spadBytes r.srcKey r.src.length)[p]? = some (rowGet 0 r.seen p) := by
        rw [← same]
        exact memRead_getElem? _ _ _ (by rw [hlen]; exact hp)
      have inside : p < (fillBrings s core n).length := by rw [brings]; exact hp
      rw [obuf_fillEnded, memGet_memWrite_same _ _ _ hw inside]
      exact (List.getElem_eq_iff inside).mpr (fillBytes_same src seen now)
    · rw [obuf_fillEnded]
      exact memGet_memWrite_other _ _ _ _ (by rw [brings]; exact hp)

end Sys2Proof.Machine
end

section
namespace Sys2Proof.Machine

open Sys2Proof Sys2Proof.Safety

/-! ### A rewind (R382) -/

theorem vreg_rewind (g : Gang) {l : Nat} (r : VNum) (hl : l < 32) :
    ((g.rewind).lane l).vreg r = if g.instar.vmask.getLsbD r.toNat = true then (g.lane l).vreg r else {} := by
  have every : (0xFFFFFFFF#32).getLsbD l = true := by
    rw [show (0xFFFFFFFF#32) = BitVec.allOnes 32 from rfl, BitVec.getLsbD_allOnes, decide_eq_true hl]
  have lane := Gang.lane_modLanes_in g 0xFFFFFFFF#32 (fun l x => { x with
      v := (upTo 64).map (fun r => if g.instar.vmask.getLsbD r then rowGet {} x.v r else {})
      p := rowGet 0 g.instar.snap.preds l }) hl every
  refine (congrArg (fun x : Lane => x.vreg r) lane).trans ?_
  exact rowGet_map_upTo _ _ r.isLt

theorem kreg_rewind (g : Gang) (r : KNum) : g.rewind.kreg r = if g.instar.kmask.getLsbD r.toNat = true then g.kreg r else 0#64 :=
  rowGet_map_upTo _ _ r.isLt

theorem kbad_rewind (g : Gang) (r : Nat) : g.rewind.kbad.getLsbD r = (g.kbad.getLsbD r && g.instar.kmask.getLsbD r) :=
  BitVec.getLsbD_and

/-! ### SAVE (R381, R383) -/

theorem deadlineOk_iff {n : Nat} : deadlineOk n = true ↔ 12500 ≤ n ∧ n ≤ 125000000 := by
  unfold deadlineOk
  rw [Bool.and_eq_true, decide_eq_true_eq, decide_eq_true_eq]
  exact Iff.rfl

theorem mayShip_iff {s : State} {u : Nat} : s.mayShip u = true ↔
    u < s.teams.length ∧ (s.team u).live = true ∧ (s.team u).released = false ∧ (s.team u).status = .running := by
  unfold State.mayShip
  simp only [Bool.and_eq_true, Bool.not_eq_true', decide_eq_true_eq, and_assoc]

/-- The array is free where an MMA of a team was in its planes (R164). -/
def freeArray (t : Team) (s : State) : State :=
  if t.mmas.any (fun m => s.cycle < m.passEnd) then s.modCore t.core (fun c => { c with arrayFree := s.cycle }) else s

theorem freeArray_rest (t : Team) (s : State) : freeArray t s = { s with cores := (freeArray t s).cores } := by
  unfold freeArray
  split <;> rfl

/-- A command of the team that runs is asked to stop. -/
def askStop (u : Nat) (c : Cmd) : Cmd := if c.team = u && c.stage = .running then { c with stage := .stopping } else c

/-- A team whose SAVE has started. -/
def savingTeam (cycle area deadline : Nat) (t : Team) : Team :=
  { t with deadline := deadline, status := .saving (cycle + deadline), area := area, migrate := [], rewound := 0#16,
           mmas := t.mmas.map (fun m => m.freeze cycle) }

/-- SAVES counts a SAVE, in the partition of the team. -/
def saveCounted (s : State) (u deadline : Nat) : State :=
  (s.modTeam u (fun t => { t with deadline := deadline })).meter (s.team u).part 11 1

/-- A SAVE that has started, before it looks how far it can go. -/
def saveStarted (s : State) (u area deadline : Nat) : State :=
  { (freeArray (s.team u) (saveCounted s u deadline)).modTeam u (savingTeam s.cycle area deadline) with cmds := s.cmds.map (askStop u) }

theorem team_saveCounted_same (s : State) (u deadline : Nat) :
    (saveCounted s u deadline).team u = { s.team u with deadline := deadline } := by
  rw [saveCounted, State.team_meter]
  exact State.team_modTeam_same _ _ _

theorem team_freeArray (t : Team) (s : State) (v : Nat) : (freeArray t s).team v = s.team v := by
  rw [freeArray_rest]
  rfl

/-- A change of a team depends on what it makes of that team alone. -/
theorem modTeam_congr {s : State} {u : Nat} {f g : Team → Team} (h : f (s.team u) = g (s.team u)) : s.modTeam u f = s.modTeam u g := by
  unfold State.modTeam rowMod
  exact congrArg (fun x => { s with teams := rowPut {} s.teams u x }) h

theorem startSave_eq (s : State) (u area deadline : Nat) :
    (s.modTeam u (fun t => { t with deadline := deadline })).startSave u area [] = (saveStarted s u area deadline).saveCheck u := by
  let x := freeArray (s.team u) (saveCounted s u deadline)
  have team : x.team u = { s.team u with deadline := deadline } := (team_freeArray _ _ u).trans (team_saveCounted_same s u deadline)
  have start : (s.modTeam u (fun t => { t with deadline := deadline })).startSave u area [] =
      ({ x.modTeam u (fun t => { t with status := .saving (x.cycle + t.deadline), area := area, migrate := [], rewound := 0#16,
                                        mmas := t.mmas.map (fun m => m.freeze x.cycle) }) with
          cmds := x.cmds.map (askStop u) } : State).saveCheck u := by
    unfold State.startSave
    rw [State.team_modTeam_same]
    rfl
  have cycle : x.cycle = s.cycle ∧ x.cmds = s.cmds := by
    rw [show x = _ from freeArray_rest _ _]
    exact ⟨rfl, rfl⟩
  rw [start, cycle.1, cycle.2, modTeam_congr (g := savingTeam s.cycle area deadline) (by rw [team]; rfl)]
  rfl

theorem saveStarted_rest (s : State) (u area deadline : Nat) :
    let y := saveStarted s u area deadline
    y = { s with teams := y.teams, parts := y.parts, cores := y.cores, cmds := y.cmds } := by
  unfold saveStarted
  rw [freeArray_rest]
  rfl

theorem saveStarted_team_other (s : State) {u v : Nat} (area deadline : Nat) (h : v ≠ u) : (saveStarted s u area deadline).team v = s.team v := by
  refine (State.team_modTeam_other _ _ (Ne.symm h)).trans ?_
  rw [team_freeArray, saveCounted, State.team_meter]
  exact State.team_modTeam_other _ _ (Ne.symm h)

theorem saveStarted_team_same (s : State) (u area deadline : Nat) :
    (saveStarted s u area deadline).team u = savingTeam s.cycle area deadline (s.team u) := by
  refine (State.team_modTeam_same _ _ _).trans ?_
  rw [team_freeArray, team_saveCounted_same]
  rfl

/-- A metering counter of a partition, raised. -/
theorem counters_meter (s : State) (q n p i : Nat) (k : Nat) :
    rowGet 0 ((s.meter q k n).part p).counters i = rowGet 0 (s.part p).counters i + if p = q ∧ i = k then BitVec.ofNat 64 n else 0#64 := by
  unfold State.meter
  by_cases hp : p = q
  · subst hp
    rw [State.part_modPart_same]
    show rowGet 0 (rowMod 0 (s.part p).counters k (fun c => c + BitVec.ofNat 64 n)) i = _
    by_cases hi : i = k
    · subst hi
      rw [if_pos ⟨rfl, rfl⟩, rowGet_rowMod_same]
    · rw [if_neg (fun h => hi h.2), BitVec.add_zero, rowGet_rowMod_other _ _ _ (Ne.symm hi)]
  · rw [State.part_modPart_other _ _ (Ne.symm hp), if_neg (fun h => hp h.1), BitVec.add_zero]

theorem saveStarted_counters (s : State) (u area deadline p i : Nat) :
    rowGet 0 ((saveStarted s u area deadline).part p).counters i =
      rowGet 0 (s.part p).counters i + if p = (s.team u).part ∧ i = 11 then 1#64 else 0#64 := by
  have parts : (saveStarted s u area deadline).part p = (saveCounted s u deadline).part p := by
    unfold saveStarted
    rw [freeArray_rest]
    rfl
  rw [parts]
  exact counters_meter (s.modTeam u _) (s.team u).part 1 p i 11

theorem saveStarted_cmd (s : State) (u area deadline i : Nat) : (saveStarted s u area deadline).cmd i = askStop u (s.cmd i) := by
  have idle : askStop u noCmd = noCmd := by
    unfold askStop
    rw [if_neg (by simp [noCmd])]
  show rowGet noCmd (s.cmds.map (askStop u)) i = _
  rw [rowGet_map noCmd]
  split
  · rfl
  next h => rw [State.cmd, rowGet_beyond _ _ _ (Nat.not_lt.mp h), idle]

end Sys2Proof.Machine
end

section
namespace Sys2Proof.Machine

open Sys2Proof Sys2Proof.Safety

/-! ### The log of a gang is closed (R376) -/

/-- Only gangs of one team, and kernel memory, differ. -/
structure LogsOnly (s t : State) (u : Nat) : Prop where
  rest : t = { s with teams := t.teams, kmem := t.kmem }
  teams : ∀ v, v ≠ u → t.team v = s.team v
  team : t.team u = { s.team u with gangs := (t.team u).gangs }

theorem logsOnly_refl (s : State) (u : Nat) : LogsOnly s s u := ⟨rfl, fun _ _ => rfl, rfl⟩

theorem logsOnly_trans {a b c : State} {u : Nat} (h1 : LogsOnly a b u) (h2 : LogsOnly b c u) : LogsOnly a c u where
  rest := by
    have := h2.rest
    rw [h1.rest] at this
    exact this
  teams v hv := (h2.teams v hv).trans (h1.teams v hv)
  team := by
    have := h2.team
    rw [h1.team] at this
    exact this

theorem logsOnly_modGang (s : State) (u g : Nat) (f : Gang → Gang) : LogsOnly s (s.modGang u g f) u where
  rest := rfl
  teams v hv := State.team_modGang_other s g f (Ne.symm hv)
  team := by
    rw [State.modGang, State.team_modTeam_same]
    rfl

theorem logsOnly_foldl {α : Type} {u : Nat} {f : State → α → State} (hf : ∀ s a, LogsOnly s (f s a) u) : ∀ (l : List α) (s : State),
    LogsOnly s (l.foldl f s) u
  | [], s => logsOnly_refl s u
  | a :: l, s => logsOnly_trans (hf s a) (logsOnly_foldl hf l (f s a))

theorem logsOnly_kmem (s : State) (u : Nat) (m : List Host.Cell) : LogsOnly s { s with kmem := m } u := ⟨rfl, fun _ _ => rfl, rfl⟩

theorem logsOnly_writeLog (s : State) (u g : Nat) : LogsOnly s (s.writeLog u g) u := by
  unfold State.writeLog
  dsimp only
  split
  · exact logsOnly_refl s u
  · exact logsOnly_trans (logsOnly_kmem s u _) (logsOnly_modGang _ u g _)

theorem logsOnly_closeLog (s : State) (u g : Nat) : LogsOnly s (s.closeLog u g) u := by
  unfold State.closeLog State.flushLog State.cutRuns
  exact logsOnly_trans (logsOnly_trans (logsOnly_foldl (fun s r => logsOnly_modGang s u g _) _ s) (logsOnly_modGang _ u g _))
    (logsOnly_foldl (fun s _ => logsOnly_writeLog s u g) _ _)

/-- The logs of the team's gangs are closed. -/
def logsClosed (s : State) (u n : Nat) : State := (upTo n).foldl (fun s g => s.closeLog u g) s

theorem logsOnly_closed (s : State) (u n : Nat) : LogsOnly s (logsClosed s u n) u :=
  logsOnly_foldl (fun s g => logsOnly_closeLog s u g) _ s

/-! ### Gangs that rewind in a save (R381) -/

/-- Gangs that rewind are marked, and leave the queues; nothing else of the team changes. -/
structure Rewinding (t t' : Team) (marks : Nat → Bool) : Prop where
  rest : t' = { t with rewound := t'.rewound, queues := t'.queues }
  rewound : ∀ g, g < 16 → t'.rewound.getLsbD g = (t.rewound.getLsbD g || marks g)

theorem foldl_unblock_rest (g : Nat) : ∀ (l : List Nat) (t : Team),
    l.foldl (fun t n => t.unblock g n) t = { t with queues := (l.foldl (fun t n => t.unblock g n) t).queues }
  | [], _ => rfl
  | n :: l, t => by
    rw [List.foldl_cons, foldl_unblock_rest g l]
    rfl

theorem getLsbD_gangBit {k g : Nat} (hk : k < 16) : (1#16 <<< g).getLsbD k = decide (k = g) := by
  rw [BitVec.getLsbD_shiftLeft, BitVec.getLsbD_one, decide_eq_true hk]
  rw [Bool.eq_iff_iff]
  simp only [Bool.and_eq_true, Bool.not_eq_true', decide_eq_false_iff_not, decide_eq_true_eq, Bool.true_and]
  omega

/-- The mark of one gang. -/
def rewindOne (t : Team) (g : Nat) : Team :=
  if (t.gang g).mayRewind && !t.rewound.getLsbD g then
    (upTo 8).foldl (fun t sub => t.unblock g sub) { t with rewound := t.rewound ||| (1#16 <<< g) }
  else t

theorem rewinding_one (t : Team) (g : Nat) : Rewinding t (rewindOne t g) (fun k => decide (k = g) && (t.gang k).mayRewind) := by
  unfold rewindOne
  split
  next h =>
    rw [foldl_unblock_rest]
    refine ⟨rfl, fun k hk => ?_⟩
    show (t.rewound ||| (1#16 <<< g)).getLsbD k = _
    rw [BitVec.getLsbD_or, getLsbD_gangBit hk]
    by_cases e : k = g
    · subst e
      rw [(Bool.and_eq_true_iff.mp h).1, Bool.and_true]
    · rw [decide_eq_false e, Bool.false_and]
  next h =>
    refine ⟨rfl, fun k _ => ?_⟩
    by_cases e : k = g
    · subst e
      rw [decide_eq_true rfl, Bool.true_and]
      cases hr : t.rewound.getLsbD k with
      | true => rfl
      | false =>
        rw [hr, Bool.not_false, Bool.and_true] at h
        rw [Bool.eq_false_iff.mpr h]
        rfl
    · rw [decide_eq_false e, Bool.false_and, Bool.or_false]

theorem rewinding_foldl : ∀ (l : List Nat) (t : Team),
    Rewinding t (l.foldl rewindOne t) (fun k => decide (k ∈ l) && (t.gang k).mayRewind)
  | [], t => ⟨rfl, fun k _ => by simp⟩
  | g :: l, t => by
    obtain ⟨rest1, marks1⟩ := rewinding_one t g
    obtain ⟨rest2, marks2⟩ := rewinding_foldl l (rewindOne t g)
    have gang : ∀ k, (rewindOne t g).gang k = t.gang k := fun k => by
      rw [rest1]
      rfl
    let z := l.foldl rewindOne (rewindOne t g)
    refine ⟨rest2.trans (congrArg (fun x : Team => { x with rewound := z.rewound, queues := z.queues }) rest1), fun k hk => ?_⟩
    rw [List.foldl_cons, marks2 k hk, marks1 k hk, gang]
    simp only [List.mem_cons, Bool.decide_or, Bool.and_or_distrib_right, Bool.or_assoc]

theorem rewinding_gangs (t : Team) : Rewinding t t.rewindGangs (fun k => decide (k < t.ngang) && (t.gang k).mayRewind) := by
  obtain ⟨rest, marks⟩ := rewinding_foldl (upTo t.ngang) t
  refine ⟨rest, fun k hk => (marks k hk).trans ?_⟩
  rw [decide_eq_decide.mpr mem_upTo]

/-! ### The save area written (R384) -/

theorem desc_bytes_length (d : Desc) (depth : Nat) : (d.bytes depth).length = 64 := by
  unfold Desc.bytes
  simp only [List.length_append, leBytes_length]

theorem saveHeader_length (s : State) (u : Nat) : (s.saveHeader u).length = 92 := by
  unfold State.saveHeader
  simp only [List.length_append, leBytes_length, desc_bytes_length]

/-- Device memory is written from a place on, and nothing else changes. -/
structure WritesFrom (lo : Nat) (s t : State) : Prop where
  rest : t = { s with hbm := t.hbm, bad := t.bad, fresh := t.fresh }
  below : ∀ x, x < lo → memGet t.hbm x = memGet s.hbm x

theorem writesFrom_refl (lo : Nat) (s : State) : WritesFrom lo s s := ⟨rfl, fun _ _ => rfl⟩

theorem writesFrom_trans {lo : Nat} {a b c : State} (h1 : WritesFrom lo a b) (h2 : WritesFrom lo b c) : WritesFrom lo a c where
  rest := by
    have := h2.rest
    rw [h1.rest] at this
    exact this
  below x hx := (h2.below x hx).trans (h1.below x hx)

theorem writesFrom_mono {lo hi : Nat} {s t : State} (h : lo ≤ hi) (w : WritesFrom hi s t) : WritesFrom lo s t :=
  ⟨w.rest, fun x hx => w.below x (Nat.lt_of_lt_of_le hx h)⟩

theorem writesFrom_physWrite {lo a : Nat} (h : lo ≤ a) (s : State) (bs : List Byte) : WritesFrom lo s (s.physWrite false a bs) where
  rest := rfl
  below _ hx := memGet_memWrite_other _ _ _ _ (Or.inl (Nat.lt_of_lt_of_le hx h))

theorem writesFrom_writeOpaque {lo a : Nat} (h : lo ≤ a) (s : State) (n : Nat) : WritesFrom lo s (s.writeOpaque a n) where
  rest := rfl
  below _ hx := memGet_memWrite_other _ _ _ _ (Or.inl (Nat.lt_of_lt_of_le hx h))

theorem writesFrom_foldl {α : Type} {lo : Nat} {f : State → α → State} : ∀ (l : List α) (_ : ∀ s, ∀ a ∈ l, WritesFrom lo s (f s a)) (s : State),
    WritesFrom lo s (l.foldl f s)
  | [], _, s => writesFrom_refl lo s
  | a :: l, hf, s => writesFrom_trans (hf s a (List.mem_cons_self ..))
      (writesFrom_foldl l (fun s b hb => hf s b (List.mem_cons_of_mem _ hb)) (f s a))

/-- The registers of a gang lie after the header. -/
theorem registerSpans_after (t : Team) (g : Nat) : ∀ x ∈ t.registerSpans g, 256 ≤ x.1 := by
  intro x hx
  unfold Team.registerSpans at hx
  split at hx
  · obtain ⟨r, -, hr⟩ := List.mem_flatMap.mp hx
    simp only [List.mem_cons, List.not_mem_nil, or_false] at hr
    rcases hr with rfl | rfl <;> dsimp only <;> omega
  · rw [List.mem_singleton.mp hx]
    dsimp only
    omega

/-- The opaque parts lie after the header. -/
theorem areaSpans_after (s : State) (u : Nat) : ∀ x ∈ s.areaSpans u, 256 ≤ x.1 := by
  intro x hx
  unfold State.areaSpans at hx
  rcases List.mem_append.mp hx with h | h
  · obtain ⟨g, -, hg⟩ := List.mem_flatMap.mp h
    rcases List.mem_cons.mp hg with rfl | hr
    · dsimp only
      omega
    · exact registerSpans_after _ g x hr
  · simp only [List.mem_cons, List.not_mem_nil, or_false] at h
    unfold State.imageOffset at h
    rcases h with rfl | rfl | rfl | rfl | rfl <;> dsimp only <;> omega

theorem imageOffset_after (s : State) (u : Nat) : 256 ≤ s.imageOffset u := by
  unfold State.imageOffset
  dsimp only
  omega

/-- The header and its zeros, written first. -/
def headerWritten (s : State) (u : Nat) : State :=
  s.physWrite false (s.team u).area (s.saveHeader u ++ (upTo 164).map (fun _ => 0#8))

theorem hbm_headerWritten (s : State) (u : Nat) :
    (headerWritten s u).hbm = memWrite s.hbm (s.team u).area (s.saveHeader u ++ (upTo 164).map (fun _ => 0#8)) := by
  unfold headerWritten State.physWrite
  rw [if_neg Bool.false_ne_true]

/-- After the header, the rest of an area is written behind it. -/
theorem writeArea_behind (s : State) (u : Nat) : WritesFrom ((s.team u).area + 256) (headerWritten s u) (s.writeArea u) := by
  unfold State.writeArea
  dsimp only
  refine writesFrom_trans (writesFrom_trans (writesFrom_foldl _ (fun z x hx => ?_) _) (writesFrom_physWrite (Nat.le_refl _) _ _))
    (writesFrom_foldl _ (fun z b _ => ?_) _)
  · exact writesFrom_writeOpaque (Nat.add_le_add_left (areaSpans_after s u x hx) _) z x.2
  · have := imageOffset_after s u
    exact writesFrom_physWrite (by omega) z _

theorem writeArea_rest (s : State) (u : Nat) :
    s.writeArea u = { s with hbm := (s.writeArea u).hbm, bad := (s.writeArea u).bad, fresh := (s.writeArea u).fresh } :=
  (writesFrom_trans (writesFrom_physWrite (Nat.zero_le _) s _) (writesFrom_mono (Nat.zero_le _) (writeArea_behind s u))).rest

theorem memRead_add (m : List Host.Cell) : ∀ (n k a : Nat), memRead m a (n + k) = memRead m a n ++ memRead m (a + n) k
  | 0, k, a => by rw [Nat.zero_add]; rfl
  | n + 1, k, a => by
    rw [Nat.add_right_comm]
    show memGet m a :: memRead m (a + 1) (n + k) = memGet m a :: (memRead m (a + 1) n ++ memRead m (a + (n + 1)) k)
    rw [memRead_add m n k (a + 1), Nat.add_assoc, Nat.add_comm 1 n]

/-- The first of the bytes written at a place stand there. -/
theorem memRead_memWrite_prefix (bs cs : List Byte) {m : List Host.Cell} (a : Nat) (hw : Memory.wf m = true) :
    memRead (memWrite m a (bs ++ cs)) a bs.length = bs := by
  have whole := memRead_memWrite_same (bs ++ cs) a hw
  rw [List.length_append, memRead_add] at whole
  exact List.append_inj_left whole (memRead_length _ _ _)

/-- The header of an area stands once the area is written. -/
theorem writeArea_header {s : State} (u : Nat) (hw : Memory.wf s.hbm = true) :
    memRead (s.writeArea u).hbm (s.team u).area (s.saveHeader u).length = s.saveHeader u := by
  have kept : ∀ x, (s.team u).area ≤ x → x < (s.team u).area + (s.saveHeader u).length →
      memGet (s.writeArea u).hbm x = memGet (headerWritten s u).hbm x := fun x _ hx =>
    (writeArea_behind s u).below x (by rw [saveHeader_length] at hx; omega)
  rw [memRead_congr _ _ kept, hbm_headerWritten]
  exact memRead_memWrite_prefix (s.saveHeader u) _ _ hw

end Sys2Proof.Machine
end

section
namespace Sys2Proof.Machine

open Sys2Proof Sys2Proof.Safety

/-! ### A save completed (R381, R384) -/

/-- The records of a team that fill, changed alike. -/
def modFills (s : State) (core u : Nat) (f : ObRecord → ObRecord) : State :=
  s.modCore core (fun c => { c with records := c.records.map (fun r => if r.team = u && r.state = .filling then f r else r) })

theorem record_modFills (s : State) (core u : Nat) (f : ObRecord → ObRecord) (c r : Nat) :
    (modFills s core u f).record c r = if c = core ∧ (s.record c r).team = u ∧ (s.record c r).state = .filling then f (s.record c r)
      else s.record c r := by
  unfold modFills State.record
  by_cases hc : c = core
  · subst hc
    rw [State.core_modCore_same]
    show rowGet ({} : ObRecord) ((s.core c).records.map _) r = _
    rw [rowGet_map ({} : ObRecord) ({} : ObRecord)]
    split
    next h =>
      refine if_congr ?_ rfl rfl
      rw [Bool.and_eq_true, decide_eq_true_eq, decide_eq_true_eq]
      exact (and_iff_right rfl).symm
    next h =>
      rw [rowGet_beyond _ _ _ (Nat.not_lt.mp h), if_neg (fun e => nomatch e.2.2)]
  · rw [if_neg (fun e => hc e.1), State.core_modCore_other _ _ (Ne.symm hc)]

/-- The team as its completed save leaves its gangs. -/
def savePaused (s : State) (u : Nat) : State :=
  s.modTeam u (fun t => { t with gangs := (upTo t.ngang).map t.saveGang, status := .saved })

/-- The team with the number of its save. -/
def saveNumbered (s : State) (u : Nat) : State := s.modTeam u (fun t => { t with saveNum := s.saves.length })

/-- A context as its save keeps it. -/
def savedCtx (s : State) (u : Nat) : SavedCtx :=
  { slot := u, team := s.team u, window := s.spadBytes ((s.team u).key 0) (s.team u).scratch, records := s.savedRecords u }

/-- The context in the saves, before its area is written. -/
def saveEntered (s : State) (u : Nat) : State :=
  { saveNumbered s u with saves := s.saves ++ [savedCtx (saveNumbered s u) u] }

theorem stopFills_eq (s : State) (u : Nat) : s.stopFills u =
    modFills s (s.team u).home u (fun r => { r with fillEnd := r.fillEnd - s.cycle }) := rfl

/-- A context whose gangs have nothing more to run, saved. -/
def saveKept (s : State) (u : Nat) : State := ((savePaused s u).stopFills u).keepSave u

/-- The context as it enters the saves. -/
def saveKeeping (s : State) (u : Nat) : State := saveEntered ((savePaused s u).stopFills u) u

theorem saveKept_rest (s : State) (u : Nat) : saveKept s u =
    { saveKeeping s u with hbm := (saveKept s u).hbm, bad := (saveKept s u).bad, fresh := (saveKept s u).fresh } :=
  writeArea_rest _ u

theorem team_saveKeeping (s : State) (u v : Nat) :
    (saveKeeping s u).team v = (saveNumbered ((savePaused s u).stopFills u) u).team v := rfl

theorem team_saveKept (s : State) (u v : Nat) : (saveKept s u).team v = (saveKeeping s u).team v := by
  rw [saveKept_rest]
  rfl

theorem team_savePaused_same (s : State) (u : Nat) :
    (savePaused s u).team u = { s.team u with gangs := (upTo (s.team u).ngang).map (s.team u).saveGang, status := .saved } := by
  unfold savePaused
  rw [State.team_modTeam_same]

theorem team_saveKept_same (s : State) (u : Nat) : (saveKept s u).team u =
    { s.team u with gangs := (upTo (s.team u).ngang).map (s.team u).saveGang, status := .saved, saveNum := s.saves.length } := by
  have entered : (saveKeeping s u).team u = { (savePaused s u).team u with saveNum := s.saves.length } := by
    rw [team_saveKeeping, saveNumbered, State.team_modTeam_same]
    rfl
  rw [team_saveKept, entered, team_savePaused_same]

theorem team_saveKept_other (s : State) {u v : Nat} (h : v ≠ u) : (saveKept s u).team v = s.team v := by
  rw [team_saveKept, team_saveKeeping, saveNumbered, State.team_modTeam_other _ _ (Ne.symm h)]
  show (savePaused s u).team v = _
  exact State.team_modTeam_other s _ (Ne.symm h)

theorem gang_saveKept (s : State) (u : Nat) {g : Nat} (h : g < (s.team u).ngang) : (saveKept s u).gang u g = (s.team u).saveGang g := by
  unfold State.gang
  rw [team_saveKept_same]
  exact rowGet_map_upTo _ _ h

theorem record_saveKept (s : State) (u c r : Nat) : (saveKept s u).record c r =
    if c = (s.team u).home ∧ (s.record c r).team = u ∧ (s.record c r).state = .filling
      then { s.record c r with fillEnd := (s.record c r).fillEnd - s.cycle } else s.record c r := by
  have stopped : (saveKept s u).record c r = ((savePaused s u).stopFills u).record c r := by
    rw [saveKept_rest]
    rfl
  rw [stopped, stopFills_eq, record_modFills, team_savePaused_same]
  rfl

theorem saves_saveKept (s : State) (u : Nat) : (saveKept s u).saves = s.saves ++ [{
    slot := u, team := (saveKept s u).team u, window := memRead s.spad ((s.team u).key 0) (s.team u).scratch,
    records := (saveKept s u).savedRecords u }] := by
  have team : (saveNumbered ((savePaused s u).stopFills u) u).team u = (saveKept s u).team u := (team_saveKept s u u).symm
  have records : (saveKept s u).savedRecords u = (saveNumbered ((savePaused s u).stopFills u) u).savedRecords u := by
    rw [saveKept_rest]
    rfl
  have saved : (saveKept s u).saves = s.saves ++ [savedCtx (saveNumbered ((savePaused s u).stopFills u) u) u] := by
    rw [saveKept_rest]
    rfl
  rw [saved, savedCtx, team, records, team_saveKept_same]
  rfl

theorem header_saveKept (s : State) (u : Nat) (hw : Memory.wf s.hbm = true) :
    memRead (saveKept s u).hbm (s.team u).area ((saveKept s u).saveHeader u).length = (saveKept s u).saveHeader u := by
  have same : (saveKept s u).saveHeader u = (saveKeeping s u).saveHeader u := by
    rw [saveKept_rest]
    rfl
  have area : ((saveKeeping s u).team u).area = (s.team u).area := by
    rw [← team_saveKept, team_saveKept_same]
  have written := writeArea_header (s := saveKeeping s u) u hw
  rw [area] at written
  rw [same]
  exact written

/-- A context being saved, with the gangs that can rewind marked. -/
def saveLooked (s : State) (u : Nat) : State := s.modTeam u Team.rewindGangs

theorem team_saveLooked (s : State) (u : Nat) : (saveLooked s u).team u = (s.team u).rewindGangs := State.team_modTeam_same _ _ _

theorem gang_saveLooked (s : State) (u g : Nat) : (saveLooked s u).gang u g = s.gang u g := by
  unfold State.gang
  rw [team_saveLooked, (rewinding_gangs _).rest]
  rfl

theorem ngang_saveLooked (s : State) (u : Nat) : ((saveLooked s u).team u).ngang = (s.team u).ngang := by
  rw [team_saveLooked, (rewinding_gangs _).rest]

theorem saveCheck_stands {s : State} {u d : Nat} (h : (s.team u).status = .saving d) (hd : (saveLooked s u).saveDone u = false) :
    s.saveCheck u = saveLooked s u := by
  unfold State.saveCheck
  rw [h]
  exact if_neg (Bool.eq_false_iff.mp hd)

theorem saveCheck_saves {s : State} {u d : Nat} (h : (s.team u).status = .saving d) (hd : (saveLooked s u).saveDone u = true) :
    s.saveCheck u = (saveKept (logsClosed (saveLooked s u) u (s.team u).ngang) u).notify (.saved u) := by
  unfold State.saveCheck
  rw [h, ← ngang_saveLooked]
  exact if_pos hd

end Sys2Proof.Machine
end

section
namespace Sys2Proof.Machine

open Sys2Proof Sys2Proof.Safety

/-! ### SAVE, SAVE_DEADLINE and KILL (R381, R383) -/

theorem execSave_idle {u area : Nat} {d : Option Nat} {s : State} (h : s.phase ≠ .running) : exec (.save u area d) s = .next s := by
  rw [exec_save]
  unfold execSave
  rw [if_pos h]

theorem execSave_refused {u area : Nat} {d : Option Nat} {s : State} (hp : s.phase = .running)
    (h : ¬ (s.mayShip u = true ∧ deadlineOk (d.getD (s.team u).deadline) = true)) : exec (.save u area d) s = .next (s.notify (.status 1)) := by
  rw [exec_save]
  unfold execSave
  rw [if_neg (not_not_intro hp)]
  exact congrArg Host.Outcome.next (if_neg (fun e => h (Bool.and_eq_true_iff.mp e)))

theorem execSave_starts {u area : Nat} {d : Option Nat} {s : State} (hp : s.phase = .running)
    (h : s.mayShip u = true ∧ deadlineOk (d.getD (s.team u).deadline) = true) :
    exec (.save u area d) s = .next ((saveStarted s u area (d.getD (s.team u).deadline)).saveCheck u) := by
  rw [exec_save, ← startSave_eq]
  unfold execSave
  rw [if_neg (not_not_intro hp)]
  exact congrArg Host.Outcome.next (if_pos (Bool.and_eq_true_iff.mpr h))

theorem saveLate_iff {s : State} {u : Nat} : s.saveLate u = true ↔ u < s.teams.length ∧ (s.team u).live = true ∧
    (∃ g, g < (s.team u).ngang ∧ (s.team u).gangDone g = false) ∧ ∃ d, (s.team u).status = .saving d ∧ d ≤ s.cycle := by
  have some_runs : ((upTo (s.team u).ngang).all (s.team u).gangDone) = false ↔ ∃ g, g < (s.team u).ngang ∧ (s.team u).gangDone g = false := by
    simp only [List.all_eq_false, mem_upTo, Bool.not_eq_true]
  unfold State.saveLate
  rw [Bool.and_eq_true, Bool.and_eq_true, decide_eq_true_eq, and_assoc, ← some_runs]
  refine and_congr_right fun _ => and_congr_right fun _ => ?_
  cases (s.team u).status with
  | saving d =>
    rw [Bool.and_eq_true, decide_eq_true_eq, Bool.not_eq_true']
    exact ⟨fun h => ⟨h.2, d, rfl, h.1⟩, fun ⟨h, d', e, hd⟩ => by cases e; exact ⟨hd, h⟩⟩
  | _ => exact ⟨nofun, fun ⟨_, _, e, _⟩ => nomatch e⟩

theorem execSaveDeadline_eq (u : Nat) (s : State) :
    exec (.saveDeadline u) s = .next (if s.saveLate u then s.resetTeam u else s) := by
  rw [exec_saveDeadline]
  rfl

theorem execKill_eq (u : Nat) (s : State) : exec (.kill u) s = .next (if s.phase ≠ .running then s
    else if u < s.teams.length && (s.team u).live then s.resetTeam u else s.notify (.status 1)) := by
  rw [exec_kill]
  rfl

/-! ### The reset of a context (R383) -/

/-- A team that ends. -/
def endedTeam (t : Team) : Team :=
  { t with gangs := t.gangs.map Gang.end_, side := { t.side with exited := true, stopped := false, wait := none, held := none },
           queues := [], mmas := [], status := .retired, wasReset := true }

/-- A command of a team ends. -/
def endCmd (u : Nat) (c : Cmd) : Cmd := if c.team = u then { c with stage := .ended } else c

/-- A context whose gangs, sidecar and commands have ended. -/
def resetEnded (s : State) (u : Nat) : State := { s.modTeam u endedTeam with cmds := s.cmds.map (endCmd u) }

/-- Its record has been written, and its grid faults. -/
def resetNoted (s : State) (u gr : Nat) : State :=
  ((resetEnded s u).noteTrap u 0 1 0 0 0).modGrid gr (fun g => { g with fault := true })

theorem resetTeam_eq (s : State) (u : Nat) : s.resetTeam u =
    ((resetNoted (logsClosed s u (s.team u).ngang) u (s.team u).grid).freeTeam u).trigEvent (s.team u).grid := rfl

theorem noteTrap_rest (s : State) (u g kind cause : Nat) (pc : Addr) (detail : Word) :
    let t := s.noteTrap u g kind cause pc detail
    t = { s with kmem := t.kmem, parts := t.parts, notices := t.notices } := by
  unfold State.noteTrap
  dsimp only
  rw [State.pushTrap_rest]

theorem resetNoted_rest (s : State) (u gr : Nat) :
    let z := resetNoted s u gr
    z = { s with teams := z.teams, cmds := z.cmds, parts := z.parts, kmem := z.kmem, notices := z.notices, grids := z.grids } := by
  unfold resetNoted
  rw [noteTrap_rest]
  rfl

theorem team_resetNoted (s : State) (u gr v : Nat) : (resetNoted s u gr).team v = (s.modTeam u endedTeam).team v := by
  unfold resetNoted
  rw [noteTrap_rest]
  rfl

theorem team_resetNoted_same (s : State) (u gr : Nat) : (resetNoted s u gr).team u = endedTeam (s.team u) := by
  rw [team_resetNoted, State.team_modTeam_same]

theorem team_resetNoted_other (s : State) {u v : Nat} (gr : Nat) (h : v ≠ u) : (resetNoted s u gr).team v = s.team v := by
  rw [team_resetNoted, State.team_modTeam_other _ _ (Ne.symm h)]

theorem cmd_resetNoted (s : State) (u gr i : Nat) : (resetNoted s u gr).cmd i = endCmd u (s.cmd i) := by
  have cmds : (resetNoted s u gr).cmds = s.cmds.map (endCmd u) := by
    unfold resetNoted
    rw [noteTrap_rest]
    rfl
  have idle : endCmd u noCmd = noCmd := by
    unfold endCmd
    split <;> rfl
  unfold State.cmd
  rw [cmds, rowGet_map noCmd]
  split
  · rfl
  next h => rw [rowGet_beyond _ _ _ (Nat.not_lt.mp h), idle]

theorem grid_resetNoted (s : State) (u gr g : Nat) :
    (resetNoted s u gr).grid g = if g = gr then { s.grid g with fault := true } else s.grid g := by
  have grids : ∀ k, ((resetEnded s u).noteTrap u 0 1 0 0 0).grid k = s.grid k := fun k => by
    rw [noteTrap_rest]
    rfl
  unfold resetNoted
  split
  next h =>
    subst h
    rw [State.grid_modGrid_same, grids]
  next h => rw [State.grid_modGrid_other _ _ (Ne.symm h), grids]

theorem gang_resetNoted (s : State) (u gr : Nat) {g : Nat} (h : g < (s.team u).gangs.length) :
    (resetNoted s u gr).gang u g = (s.gang u g).end_ := by
  unfold State.gang
  rw [team_resetNoted_same]
  exact (rowGet_map {} {} Gang.end_ _ _).trans (if_pos h)

theorem slice_end (g : Gang) {i : Nat} (hi : i < 8) :
    (g.end_).slice i = { g.slice i with x := 15#4, wait := none, stopped := false, stopPc := none, held := none } := by
  have every : (0xFF#8).getLsbD i = true := by
    rw [show (0xFF#8) = BitVec.allOnes 8 from rfl, BitVec.getLsbD_allOnes, decide_eq_true hi]
  exact Gang.slice_modSlices_in g 0xFF#8 (fun _ x => { x with x := 15#4, wait := none, stopped := false, stopPc := none, held := none }) hi every

end Sys2Proof.Machine
end

section
namespace Sys2Proof.Machine

open Sys2Proof Sys2Proof.Safety

/-! ### RESTORE (R382, R385) -/

theorem execRestore_idle {u core area : Nat} {s : State} (h : s.phase ≠ .running) : exec (.restore u core area) s = .next s := by
  rw [exec_restore]
  unfold execRestore
  rw [if_pos h]

theorem execRestore_refused {u core area : Nat} {s : State} (hp : s.phase = .running)
    (h : ¬ (u < s.teams.length ∧ (s.team u).live = true ∧ (s.team u).status = .saved)) :
    exec (.restore u core area) s = .next (s.notify (.restored u false)) := by
  rw [exec_restore]
  unfold execRestore
  rw [if_neg (not_not_intro hp), if_pos]
  rw [Bool.not_eq_true', ← Bool.not_eq_true, Bool.and_eq_true, Bool.and_eq_true, decide_eq_true_eq, decide_eq_true_eq, and_assoc]
  exact h

/-- RESTORE of a saved context: the check of the headers, then the fit. -/
theorem execRestore_saved {u core area : Nat} {s : State} (hp : s.phase = .running)
    (h : u < s.teams.length ∧ (s.team u).live = true ∧ (s.team u).status = .saved) :
    exec (.restore u core area) s = .next (if !s.areaOk u area then ((s.resetTeam u).noteTrap u 0 2 0 0 0).notify (.restored u false)
      else match s.fitTeam u core with
      | some x => (s.loadArea u area).place u core x
      | none => s.notify (.restored u false)) := by
  obtain ⟨hu, hl, hs⟩ := h
  rw [exec_restore]
  unfold execRestore
  rw [if_neg (not_not_intro hp), hl, hs, decide_eq_true hu]
  rfl

/-! ### A gang after a restore -/

theorem Gang.makeReady_rest (g : Gang) (order : Nat) : g.makeReady order = { g with ready := (g.makeReady order).ready } := by
  unfold Gang.makeReady
  split <;> rfl

/-- A body that ends leaves the registers of the lanes and the k registers. -/
theorem Gang.bodyEnd_registers (g : Gang) : g.bodyEnd.lanes = g.lanes ∧ g.bodyEnd.k = g.k := by
  unfold Gang.bodyEnd
  rw [Gang.recheck_keeps]
  exact ⟨rfl, rfl⟩

theorem Gang.restore_registers (g : Gang) (rewound : Bool) (order : Nat) :
    (g.restore rewound order).lanes = g.lanes ∧ (g.restore rewound order).k = g.k := by
  unfold Gang.restore
  rw [Gang.makeReady_rest]
  dsimp only
  split
  · rw [Gang.recheck_keeps]
    exact ⟨rfl, rfl⟩
  · split
    · exact Gang.bodyEnd_registers g.bodyStart
    · exact ⟨rfl, rfl⟩

theorem Gang.restore_stood (g : Gang) (order : Nat) :
    (g.restore false order).slices = g.recheck.slices ∧ (g.restore false order).gmode = g.gmode := by
  unfold Gang.restore
  rw [Gang.makeReady_rest]
  refine ⟨rfl, ?_⟩
  show g.recheck.gmode = _
  rw [Gang.recheck_keeps]

theorem Gang.slice_bodyStart (g : Gang) {j : Nat} (hj : j < 8) :
    g.bodyStart.slice j = { g.slice j with pc := g.instar.recipe + 16#64, m := ~~~ (g.slice j).x, rc := none, stack := [], ret := [] } := by
  have every : (0xFF#8).getLsbD j = true := by
    rw [show (0xFF#8) = BitVec.allOnes 8 from rfl, BitVec.getLsbD_allOnes, decide_eq_true hj]
  exact Gang.slice_modSlices_in g 0xFF#8
    (fun _ x => { x with pc := g.instar.recipe + 16#64, m := ~~~ x.x, rc := none, stack := [], ret := [] }) hj every

/-- A rewound gang with a recipe starts the recipe's body. -/
theorem Gang.restore_rewound (g : Gang) (order : Nat) (h : g.instar.blen ≠ 0) :
    g.restore true order = { g.bodyStart with ready := (g.restore true order).ready } := by
  have starts : g.restore true order = g.bodyStart.makeReady order := congrArg (fun x : Gang => x.makeReady order) (if_neg h)
  rw [starts]
  exact Gang.makeReady_rest _ _

/-! ### A context placed -/

/-- The gangs of a context as a restore seats them on a core. -/
def restoredGangs (s : State) (u core : Nat) : List Gang :=
  ({ s with order := s.order + 1 } : State).seat core
    ((upTo (s.team u).ngang).map (fun g => ((s.team u).gang g).restore ((s.team u).rewound.getLsbD g) (s.order + 1)))

/-- A context that runs at its new place. -/
def placedTeam (cycle core : Nat) (x : Placement) (gangs : List Gang) (t : Team) : Team :=
  { t with core := core, resBase := x.base, tagBase := x.tagBase, physBanks := x.banks, sideSlot := x.slot, placedAt := cycle,
           status := .running, migrate := [], rewound := 0#16, side := t.side.restore, gangs := gangs }

/-- The machine with the context at its new place, its fills going on. -/
def placing (s : State) (u core : Nat) (x : Placement) : State :=
  (({ s with order := s.order + 1 } : State).modTeam u (placedTeam s.cycle core x (restoredGangs s u core))).startFills u

theorem place_eq (s : State) (u core : Nat) (x : Placement) :
    s.place u core x = (((placing s u core x).restartMmas u).restartCmds u).notify (.restored u true) := rfl

theorem startFills_eq (s : State) (u : Nat) : s.startFills u =
    modFills s (s.team u).home u (fun r => { r with fillEnd := r.fillEnd + s.cycle }) := rfl

theorem placing_rest (s : State) (u core : Nat) (x : Placement) :
    placing s u core x = { s with teams := (placing s u core x).teams, order := s.order + 1, cores := (placing s u core x).cores } := rfl

theorem team_placing_other (s : State) {u v : Nat} (core : Nat) (x : Placement) (h : v ≠ u) : (placing s u core x).team v = s.team v :=
  State.team_modTeam_other ({ s with order := s.order + 1 } : State) _ (Ne.symm h)

theorem team_placing_same (s : State) (u core : Nat) (x : Placement) :
    (placing s u core x).team u = placedTeam s.cycle core x (restoredGangs s u core) (s.team u) :=
  State.team_modTeam_same ({ s with order := s.order + 1 } : State) u _

theorem record_placing (s : State) (u core : Nat) (x : Placement) (c r : Nat) : (placing s u core x).record c r =
    if c = (s.team u).home ∧ (s.record c r).team = u ∧ (s.record c r).state = .filling
      then { s.record c r with fillEnd := (s.record c r).fillEnd + s.cycle } else s.record c r := by
  unfold placing
  rw [startFills_eq, record_modFills, State.team_modTeam_same]
  rfl

/-- A gang of a context placed: as the restore leaves it, in a slot of the core. -/
theorem gang_placing (s : State) (u core : Nat) (x : Placement) {g : Nat} (h : g < (s.team u).ngang) :
    (placing s u core x).gang u g =
      { (s.gang u g).restore ((s.team u).rewound.getLsbD g) (s.order + 1) with slot := ((placing s u core x).gang u g).slot } := by
  let gs := (upTo (s.team u).ngang).map (fun g => ((s.team u).gang g).restore ((s.team u).rewound.getLsbD g) (s.order + 1))
  have len : gs.length = (s.team u).ngang := by
    rw [List.length_map, upTo_length]
  have here : (placing s u core x).gang u g = rowGet {} (restoredGangs s u core) g := by
    unfold State.gang
    rw [team_placing_same]
    rfl
  have seated : rowGet {} (restoredGangs s u core) g = { (rowGet {} gs g : Gang) with slot := (rowGet {} (restoredGangs s u core) g).slot } := by
    have := rowGet_map_upTo ({} : Gang) (fun g => { (rowGet {} gs g : Gang) with
      slot := rowGet 0 (({ s with order := s.order + 1 } : State).openSlots core (g % 4)) (g / 4) }) (len ▸ h)
    unfold restoredGangs State.seat
    exact this ▸ rfl
  have one : rowGet {} gs g = (s.gang u g).restore ((s.team u).rewound.getLsbD g) (s.order + 1) := rowGet_map_upTo ({} : Gang) _ h
  rw [here, ← one]
  exact seated

theorem registers_placing (s : State) (u core : Nat) (x : Placement) {g : Nat} (h : g < (s.team u).ngang) :
    ((placing s u core x).gang u g).lanes = (s.gang u g).lanes ∧ ((placing s u core x).gang u g).k = (s.gang u g).k := by
  have here := gang_placing s u core x h
  obtain ⟨lanes, ks⟩ := (s.gang u g).restore_registers ((s.team u).rewound.getLsbD g) (s.order + 1)
  exact ⟨(congrArg Gang.lanes here).trans lanes, (congrArg Gang.k here).trans ks⟩

theorem stood_placing (s : State) (u core : Nat) (x : Placement) {g : Nat} (h : g < (s.team u).ngang)
    (hr : (s.team u).rewound.getLsbD g = false) :
    ((placing s u core x).gang u g).slices = (s.gang u g).recheck.slices ∧ ((placing s u core x).gang u g).gmode = (s.gang u g).gmode := by
  have here := gang_placing s u core x h
  rw [hr] at here
  obtain ⟨slices, gmode⟩ := (s.gang u g).restore_stood (s.order + 1)
  exact ⟨(congrArg Gang.slices here).trans slices, (congrArg Gang.gmode here).trans gmode⟩

theorem rewound_placing (s : State) (u core : Nat) (x : Placement) {g : Nat} (h : g < (s.team u).ngang)
    (hr : (s.team u).rewound.getLsbD g = true) (hb : (s.gang u g).instar.blen ≠ 0) :
    ((placing s u core x).gang u g).gmode = (s.gang u g).instar.snap.gmode &&& ~~~ 0xF00#32 ∧ ((placing s u core x).gang u g).levels = [] ∧
      ∀ j, j < 8 → ((placing s u core x).gang u g).slice j = (s.gang u g).bodyStart.slice j := by
  have here := gang_placing s u core x h
  rw [hr, Gang.restore_rewound _ _ hb] at here
  exact ⟨congrArg Gang.gmode here, congrArg Gang.levels here, fun j _ => (congrArg (fun y : Gang => y.slice j) here).trans rfl⟩

/-- What a sidecar still waits for after a restore (R386). -/
theorem sidecar_restore_wait (x : Sidecar) (z : Wait) :
    x.restore.wait = some z ↔ x.wait = some z ∧ (∀ a n, z.kind ≠ .swait a n) ∧ ∀ q e, z.kind ≠ .qpush q e := by
  unfold Sidecar.restore
  dsimp only
  cases x.wait with
  | none => exact ⟨nofun, fun h => nomatch h.1⟩
  | some w =>
    dsimp only
    split
    next a n h => exact ⟨nofun, fun ⟨e, hs, _⟩ => absurd (Option.some.inj e ▸ h) (hs a n)⟩
    next q e h => exact ⟨nofun, fun ⟨e', _, hq⟩ => absurd (Option.some.inj e' ▸ h) (hq q e)⟩
    next hs hq => exact ⟨fun e => ⟨e, fun a n h => hs a n (Option.some.inj e ▸ h), fun q y h => hq q y (Option.some.inj e ▸ h)⟩, And.left⟩

/-! ### What a restore reads of an area (R165, R385) -/

/-- A restore reads its area at once. -/
theorem cycle_loadRecord (s : State) (u : Nat) (x : Nat × ObRecord × List Byte) : (s.loadRecord u x).cycle = s.cycle := by
  unfold State.loadRecord
  dsimp only
  split <;> rfl

theorem cycle_loadSave (s : State) (x : SavedCtx) : (s.loadSave x).cycle = s.cycle := by
  have records : ∀ (l : List (Nat × ObRecord × List Byte)) (y : State), (l.foldl (fun s r => s.loadRecord x.slot r) y).cycle = y.cycle := by
    intro l
    induction l with
    | nil => exact fun _ => rfl
    | cons r l ih => exact fun y => (ih _).trans (cycle_loadRecord y x.slot r)
  exact records x.records _

/-- A bank read from its own image, where that comes from another save. -/
def loadImage (u num : Nat) (at_ : Nat → Nat) (s : State) (b : Nat) : State :=
  match s.savedIn u (at_ b) with
  | none => s
  | some y => if y.team.saveNum = num then s else s.modTeam u (fun t => t.loadBank y.team b)

theorem cycle_loadImage (u num : Nat) (at_ : Nat → Nat) (s : State) (b : Nat) : (loadImage u num at_ s b).cycle = s.cycle := by
  unfold loadImage
  split
  · rfl
  · split <;> rfl

/-- The part of a save area that holds everything but the images. -/
def loadRest (s : State) (u : Nat) (x : SavedCtx) : State := if x.team.saveNum = (s.team u).saveNum then s else s.loadSave x

theorem loadArea_eq (s : State) (u area : Nat) : s.loadArea u area = match s.savedIn u (area + 256) with
    | none => s
    | some x => (upTo ((loadRest s u x).team u).nbanks).foldl
        (loadImage u x.team.saveNum (fun b => area + s.imageOffset u + 20480 * b + 8)) (loadRest s u x) := rfl

theorem cycle_loadArea (s : State) (u area : Nat) : (s.loadArea u area).cycle = s.cycle := by
  have images : ∀ (num : Nat) (at_ : Nat → Nat) (l : List Nat) (y : State), (l.foldl (loadImage u num at_) y).cycle = y.cycle := by
    intro num at_ l
    induction l with
    | nil => exact fun _ => rfl
    | cons b l ih => exact fun y => (ih _).trans (cycle_loadImage u num at_ y b)
  rw [loadArea_eq]
  split
  · rfl
  next x _ =>
    rw [images]
    unfold loadRest
    split
    · rfl
    · exact cycle_loadSave s x

/-- An area whose parts come from the context's last save brings nothing that State does not hold. -/
theorem loadArea_last {s : State} {u area : Nat}
    (h : ∀ a x, (a = area + 256 ∨ ∃ b, b < (s.team u).nbanks ∧ a = area + s.imageOffset u + 20480 * b + 8) → s.savedIn u a = some x →
      x.team.saveNum = (s.team u).saveNum) : s.loadArea u area = s := by
  rw [loadArea_eq]
  split
  · rfl
  next x hx =>
    have num := h _ x (Or.inl rfl) hx
    have rest : loadRest s u x = s := if_pos num
    have image : ∀ b, b < (s.team u).nbanks →
        loadImage u (s.team u).saveNum (fun b => area + s.imageOffset u + 20480 * b + 8) s b = s := by
      intro b hb
      unfold loadImage
      split
      · rfl
      next y hy => exact if_pos (h _ y (Or.inr ⟨b, hb, rfl⟩) hy)
    have images : ∀ l : List Nat, (∀ b ∈ l, b < (s.team u).nbanks) →
        l.foldl (loadImage u (s.team u).saveNum (fun b => area + s.imageOffset u + 20480 * b + 8)) s = s := by
      intro l
      induction l with
      | nil => exact fun _ => rfl
      | cons b l ih =>
        intro hl
        rw [List.foldl_cons, image b (hl b (List.mem_cons_self ..))]
        exact ih fun c hc => hl c (List.mem_cons_of_mem _ hc)
    rw [rest, num]
    exact images _ fun b hb => mem_upTo.mp hb

end Sys2Proof.Machine
end

section
namespace Sys2Proof.Machine

open Sys2Proof Sys2Proof.Safety

/-! ### The stopped slices that an action concerns (R366, R371) -/

theorem actOn_sidecar {s : State} {u sub : Nat} : s.actOn u 16 sub ≠ none ↔
    s.phase = .running ∧ u < s.teams.length ∧ (s.team u).live = true ∧ (s.team u).side.present = true ∧ (s.team u).side.stopped = true ∧
      s.stopRecorded (s.team u).part (s.team u).side.held = true := by
  unfold State.actOn
  dsimp only
  split
  next h =>
    refine ⟨fun e => absurd rfl e, fun ⟨hp, hu, hl, _⟩ => ?_⟩
    simp [hp, hu, hl] at h
  next h =>
    rw [if_pos rfl]
    simp only [Bool.or_eq_true, not_or, Bool.not_eq_true', decide_eq_true_eq, decide_eq_false_iff_not, not_not, Bool.not_eq_false] at h
    obtain ⟨⟨hp, hu⟩, hl⟩ := h
    split
    next hs =>
      rw [Bool.and_eq_true, Bool.and_eq_true, and_assoc] at hs
      exact ⟨fun _ => ⟨hp, hu, hl, hs⟩, fun _ => nofun⟩
    next hs =>
      rw [Bool.and_eq_true, Bool.and_eq_true, and_assoc] at hs
      exact ⟨fun e => absurd rfl e, fun ⟨_, _, _, h⟩ => absurd h hs⟩

theorem actOn_gang {s : State} {u g sub : Nat} (hg : g ≠ 16) (sl : BitVec 8) : s.actOn u g sub = some sl ↔
    sl = (s.gang u g).stoppedOf sub ∧ s.phase = .running ∧ u < s.teams.length ∧ (s.team u).live = true ∧ g < (s.team u).ngang ∧
      (s.gang u g).stoppedOf sub ≠ 0#8 ∧
      ∀ i, i < 8 → ((s.gang u g).stoppedOf sub).getLsbD i = true → s.stopRecorded (s.team u).part ((s.gang u g).slice i).held = true := by
  have recorded : ((upTo 8).all (fun i => !((s.gang u g).stoppedOf sub).getLsbD i ||
        s.stopRecorded (s.team u).part ((s.gang u g).slice i).held) = true) ↔
      ∀ i, i < 8 → ((s.gang u g).stoppedOf sub).getLsbD i = true → s.stopRecorded (s.team u).part ((s.gang u g).slice i).held = true := by
    simp only [List.all_eq_true, mem_upTo, Bool.or_eq_true, Bool.not_eq_true', ← Bool.not_eq_true, imp_iff_not_or]
  unfold State.actOn
  dsimp only
  rw [← recorded]
  split
  next h =>
    refine ⟨nofun, fun ⟨_, hp, hu, hl, _⟩ => ?_⟩
    simp [hp, hu, hl] at h
  next h =>
    simp only [Bool.or_eq_true, not_or, Bool.not_eq_true', decide_eq_true_eq, decide_eq_false_iff_not, not_not, Bool.not_eq_false] at h
    obtain ⟨⟨hp, hu⟩, hl⟩ := h
    split
    next hs =>
      rw [Bool.and_eq_true, Bool.and_eq_true, decide_eq_true_eq, decide_eq_true_eq, and_assoc] at hs
      exact ⟨fun e => ⟨(Option.some.inj e).symm, hp, hu, hl, hs⟩, fun ⟨e, _⟩ => e ▸ rfl⟩
    next hs =>
      rw [Bool.and_eq_true, Bool.and_eq_true, decide_eq_true_eq, decide_eq_true_eq, and_assoc] at hs
      exact ⟨nofun, fun ⟨_, _, _, _, h⟩ => absurd h hs⟩

/-! ### A gang that goes on (R371) -/

theorem Gang.slice_modSlices_if (g : Gang) (m : BitVec 8) (f : Nat → Slice → Slice) {i : Nat} (hi : i < 8) :
    (g.modSlices m f).slice i = if m.getLsbD i = true then f i (g.slice i) else g.slice i := by
  split
  next hm => exact Gang.slice_modSlices_in g m f hi hm
  next hm => exact Gang.slice_modSlices_out g m f hi (Bool.eq_false_iff.mpr hm)

theorem Gang.slice_part_if (g : Gang) (m : BitVec 8) {i : Nat} (hi : i < 8) : (g.part m).slice i =
    if m.getLsbD i = true then { placed (g.slice i) with sub := ((g.part m).slice i).sub } else g.slice i := by
  split
  next hm => exact Gang.slice_part_placed g m hi hm
  next hm => exact Gang.slice_part_out g m hi (Bool.eq_false_iff.mpr hm)

/-- A slice that is no longer stopped. -/
def goneOn (x : Slice) : Slice := { x with stopped := false, stopPc := none, held := none }

/-- Slices go on, past the comparator of the word where they stopped. -/
def resumedGang (sl : BitVec 8) (g : Gang) : Gang :=
  { g.modSlices sl (fun _ y => goneOn y) with
    skipCmp := g.skipCmp ||| sliceMask (fun i => sl.getLsbD i && (g.slice i).stopPc = some (g.slice i).pc) }

/-- Slices go on, with no comparator skipped. -/
def releasedGang (sl : BitVec 8) (g : Gang) : Gang :=
  { g.modSlices sl (fun _ y => goneOn y) with skipCmp := g.skipCmp &&& ~~~ sl }

theorem slice_released (sl : BitVec 8) (g : Gang) {i : Nat} (hi : i < 8) :
    (releasedGang sl g).slice i = if sl.getLsbD i = true then goneOn (g.slice i) else g.slice i :=
  Gang.slice_modSlices_if g sl (fun _ y => goneOn y) hi

theorem released_pc_ret (sl : BitVec 8) (g : Gang) {i : Nat} (hi : i < 8) :
    ((releasedGang sl g).slice i).pc = (g.slice i).pc ∧ ((releasedGang sl g).slice i).ret = (g.slice i).ret := by
  rw [slice_released sl g hi]
  split <;> exact ⟨rfl, rfl⟩

theorem slice_resumed (sl : BitVec 8) (g : Gang) {i : Nat} (hi : i < 8) : ((resumedGang sl g).part sl).slice i =
    if sl.getLsbD i = true then { placed (goneOn (g.slice i)) with sub := (((resumedGang sl g).part sl).slice i).sub } else g.slice i := by
  have here : (resumedGang sl g).slice i = if sl.getLsbD i = true then goneOn (g.slice i) else g.slice i :=
    Gang.slice_modSlices_if g sl (fun _ y => goneOn y) hi
  refine (Gang.slice_part_if (resumedGang sl g) sl hi).trans ?_
  by_cases hm : sl.getLsbD i = true
  · rw [if_pos hm, if_pos hm, here, if_pos hm]
  · rw [if_neg hm, if_neg hm, here, if_neg hm]

theorem skipCmp_resumed (sl : BitVec 8) (g : Gang) {i : Nat} (hi : i < 8) : ((resumedGang sl g).part sl).skipCmp.getLsbD i =
    (g.skipCmp.getLsbD i || (sl.getLsbD i && decide ((g.slice i).stopPc = some (g.slice i).pc))) := by
  refine BitVec.getLsbD_or.trans ?_
  rw [getLsbD_sliceMask _ hi]

/-- Past the reported word, outside a recipe body and where no level ends: the slices stand at the next word, and part there. -/
theorem skipWord_released {sl : BitVec 8} {g : Gang} {n : Nat} (hsl : sl ≠ 0#8) (body : g.instar.body = none)
    (level : g.loopEnd sl (g.pcOf sl + BitVec.ofNat 64 (4 * n)) = none) :
    (releasedGang sl g).skipWord sl n = ((releasedGang sl g).modSlices sl (fun _ y =>
      { y with pc := (if n = 0 then y.pc else g.pcOf sl + BitVec.ofNat 64 (4 * n)) + 4#64 })).part sl := by
  have pc : (releasedGang sl g).pcOf sl = g.pcOf sl := Gang.pcOf_congr hsl fun i hi => (released_pc_ret sl g hi).1
  have ends : ∀ a, (releasedGang sl g).loopEnd sl a = g.loopEnd sl a := fun a =>
    Gang.loopEnd_congr sl a rfl fun i hi => (released_pc_ret sl g hi).2
  unfold Gang.skipWord
  dsimp only
  rw [Gang.bodyCheck_none]
  · by_cases hn : n = 0
    · subst hn
      have here : g.loopEnd sl (g.pcOf sl) = none := by
        rw [show BitVec.ofNat 64 (4 * 0) = 0#64 from rfl, BitVec.add_zero] at level
        exact level
      simp only [if_pos]
      rw [Gang.advance, pc, ends, here]
    · simp only [if_neg hn]
      rw [Gang.pastRoutine, pc, ends, level]
  · split
    · rw [Gang.part_keeps, Gang.advance_keeps]
      exact body
    · rw [Gang.pastRoutine, pc, ends, level]
      exact body

theorem slice_skipped {sl : BitVec 8} {g : Gang} {n i : Nat} (hsl : sl ≠ 0#8) (body : g.instar.body = none)
    (level : g.loopEnd sl (g.pcOf sl + BitVec.ofNat 64 (4 * n)) = none) (hi : i < 8) :
    ((releasedGang sl g).skipWord sl n).slice i = if sl.getLsbD i = true
      then { placed { goneOn (g.slice i) with pc := (if n = 0 then (g.slice i).pc else g.pcOf sl + BitVec.ofNat 64 (4 * n)) + 4#64 } with
             sub := (((releasedGang sl g).skipWord sl n).slice i).sub }
      else g.slice i := by
  rw [skipWord_released hsl body level]
  refine (Gang.slice_part_if _ sl hi).trans ?_
  by_cases hm : sl.getLsbD i = true
  · rw [if_pos hm, if_pos hm, Gang.slice_modSlices_in _ _ _ hi hm, slice_released sl g hi, if_pos hm]
    rfl
  · rw [if_neg hm, if_neg hm, Gang.slice_modSlices_out _ _ _ hi (Bool.eq_false_iff.mpr hm), slice_released sl g hi, if_neg hm]

theorem skipCmp_skipped {sl : BitVec 8} {g : Gang} {n i : Nat} (hsl : sl ≠ 0#8) (body : g.instar.body = none)
    (level : g.loopEnd sl (g.pcOf sl + BitVec.ofNat 64 (4 * n)) = none) (hi : i < 8) :
    ((releasedGang sl g).skipWord sl n).skipCmp.getLsbD i = (g.skipCmp.getLsbD i && !sl.getLsbD i) := by
  rw [skipWord_released hsl body level]
  show (g.skipCmp &&& ~~~ sl).getLsbD i = _
  rw [BitVec.getLsbD_and, BitVec.getLsbD_not, decide_eq_true hi, Bool.true_and]

/-! ### RESUME and SKIP (R371) -/

/-- A gang is changed, and becomes ready where it can issue. -/
def goesOn (s : State) (u g : Nat) (f : Gang → Gang) : State := (s.modGang u g f).makeReady u g

theorem goesOn_rest (s : State) (u g : Nat) (f : Gang → Gang) :
    goesOn s u g f = { s with teams := (goesOn s u g f).teams, order := s.order + 1 } := rfl

theorem gang_goesOn_other (s : State) {u g v k : Nat} (f : Gang → Gang) (h : v ≠ u ∨ k ≠ g) : (goesOn s u g f).gang v k = s.gang v k := by
  have h' : u ≠ v ∨ g ≠ k := h.imp Ne.symm Ne.symm
  exact (State.gang_modGang_other ({ s.modGang u g f with order := s.order + 1 } : State) _ h').trans (State.gang_modGang_other s f h')

theorem gang_goesOn_same (s : State) (u g : Nat) (f : Gang → Gang) : (goesOn s u g f).gang u g = (f (s.gang u g)).makeReady s.order :=
  (State.gang_modGang_same ({ s.modGang u g f with order := s.order + 1 } : State) u g _).trans
    (congrArg (fun x : Gang => x.makeReady s.order) (State.gang_modGang_same s u g f))

theorem goesOn_control (s : State) (u g : Nat) (f : Gang → Gang) :
    (∀ i, ((goesOn s u g f).gang u g).slice i = (f (s.gang u g)).slice i) ∧
    ((goesOn s u g f).gang u g).skipCmp = (f (s.gang u g)).skipCmp := by
  rw [gang_goesOn_same, Gang.makeReady_rest]
  exact ⟨fun _ => rfl, rfl⟩

theorem Gang.ready_makeReady {g : Gang} {order : Nat} (ha : g.active = none) (hr : g.ready = none)
    (h : (upTo 8).any (fun i => !(g.slice i).exited && !(g.slice i).stopped && (g.slice i).wait.isNone) = true) :
    (g.makeReady order).ready = some order := by
  unfold Gang.makeReady
  rw [ha, hr, h]
  rfl

theorem execAction_refused {u g sub : Nat} {s : State} (h : s.actOn u g sub = none) :
    exec (.resume u g sub) s = .next (s.notify (.status 1)) ∧ exec (.kernelSkip u g sub) s = .next (s.notify (.status 1)) := by
  rw [exec_resume, exec_kernelSkip]
  unfold execResume execKernelSkip
  rw [h]
  exact ⟨rfl, rfl⟩

theorem execAction_gang {u g sub : Nat} {s : State} {sl : BitVec 8} (hg : g ≠ 16) (h : s.actOn u g sub = some sl) :
    exec (.resume u g sub) s = .next (goesOn s u g (fun x => (resumedGang sl x).part sl)) ∧
    exec (.kernelSkip u g sub) s = .next (goesOn s u g (fun x => (releasedGang sl x).skipWord sl
      (s.routineAt (s.team u).part ((s.gang u g).pcOf sl)))) := by
  have goes : s.unstop u g sl = s.modGang u g (resumedGang sl) := if_neg hg
  rw [exec_resume, exec_kernelSkip]
  unfold execResume execKernelSkip
  rw [h]
  dsimp only
  rw [if_neg hg, if_neg hg, goes, modGang_modGang]
  exact ⟨rfl, rfl⟩

theorem execAction_sidecar {u sub : Nat} {s : State} {sl : BitVec 8} (h : s.actOn u 16 sub = some sl) :
    exec (.resume u 16 sub) s = .next (s.modTeam u (fun t => { t with side := { t.side with stopped := false, held := none } })) ∧
    exec (.kernelSkip u 16 sub) s =
      .next (s.modTeam u (fun t => { t with side := { t.side with stopped := false, held := none, pc := t.side.pc + 4#64 } })) := by
  rw [exec_resume, exec_kernelSkip]
  unfold execResume execKernelSkip
  rw [h]
  exact ⟨rfl, rfl⟩

end Sys2Proof.Machine
end

section
namespace Sys2Proof.Machine

open Sys2Proof Sys2Proof.Safety

/-! ### Context-state access (R372) -/

theorem execContextStateRead_closed {u : Nat} {it : CtxItem} {s : State} (h : s.ctxOpen u it = false) :
    exec (.contextStateRead u it) s = .next (s.notify (.status 1)) := by
  rw [exec_contextStateRead]
  unfold execContextStateRead
  rw [h]
  rfl

theorem execContextStateRead_open {u : Nat} {it : CtxItem} {s : State} (h : s.ctxOpen u it = true) :
    exec (.contextStateRead u it) s = .next ((s.ctxRead u it).2.notify (s.ctxRead u it).1) := by
  rw [exec_contextStateRead]
  unfold execContextStateRead
  rw [h]
  rfl

theorem execContextStateWrite_eq (u : Nat) (it : CtxItem) (v : CtxValue) (s : State) : exec (.contextStateWrite u it v) s =
    .next (if s.ctxOpen u it && ctxWritable it v then (s.ctxWrite u it v).notify (.status 0) else s.notify (.status 1)) := by
  rw [exec_contextStateWrite]
  rfl

theorem fresh_stands {s t : State} (h : t = s) : t = { s with fresh := t.fresh } := by rw [h]

theorem fresh_drawn {s t : State} {n : Nat} (h : t = { s with fresh := n }) : t = { s with fresh := t.fresh } := by rw [h]

/-- A read draws free values, and changes nothing else. -/
theorem ctxRead_state (s : State) (u : Nat) (it : CtxItem) : (s.ctxRead u it).2 = { s with fresh := (s.ctxRead u it).2.fresh } := by
  cases it with
  | window off =>
    by_cases h : s.spadBad ((s.team u).key off) 8 = true
    · exact fresh_drawn (n := s.fresh + 8) (congrArg Prod.snd (if_pos h))
    · exact fresh_stands (congrArg Prod.snd (if_neg h))
  | _ => exact fresh_stands rfl

/-! ### What a write leaves of the other teams -/

/-- Every team but one is as before. -/
def OthersStand (s t : State) (u : Nat) : Prop := ∀ w, w ≠ u → t.team w = s.team w

theorem othersStand_trans {a b c : State} {u : Nat} (h1 : OthersStand a b u) (h2 : OthersStand b c u) : OthersStand a c u :=
  fun w hw => (h2 w hw).trans (h1 w hw)

theorem othersStand_modTeam (s : State) (u : Nat) (f : Team → Team) : OthersStand s (s.modTeam u f) u :=
  fun _ hw => State.team_modTeam_other s f (Ne.symm hw)

theorem othersStand_modGang (s : State) (u g : Nat) (f : Gang → Gang) : OthersStand s (s.modGang u g f) u :=
  othersStand_modTeam s u _

theorem othersStand_writeK (s : State) (u : Issuer) (k : KNum) (w : Word) : OthersStand s (s.writeK u k w) u.team := by
  unfold State.writeK
  split
  · exact othersStand_modTeam s _ _
  · exact othersStand_modGang s _ _ _

theorem logsOnly_cutRuns (s : State) (u g : Nat) (slices : BitVec 8) : LogsOnly s (s.cutRuns u g slices) u := by
  unfold State.cutRuns
  exact logsOnly_trans (logsOnly_foldl (fun s r => logsOnly_modGang s u g _) _ s) (logsOnly_modGang _ u g _)

/-- A slice's program counter written: the wait at its old word ends, its INV is cut short, its sub-gang parts, and the snapshot of a
rewound gang takes it. -/
def ctxPcSet (s : State) (u g i : Nat) (pc : Addr) : State :=
  (((s.modTeam u (fun t => t.unblock g ((t.gang g).slice i).sub)).cutRuns u g (1#8 <<< i)).modGang u g (fun x => x.ctxSetPc i pc)).resnap u g
    (fun x => x.setPc i pc)

theorem ctxWrite_pc (s : State) (u i : Nat) (v : CtxValue) {g : Nat} (hg : g ≠ 16) : s.ctxWrite u (.pc g i) v =
    if ((ctxPcSet s u g i v.val).team u).status = .running then ((ctxPcSet s u g i v.val).modGang u g Gang.recheck).makeReady u g
    else ctxPcSet s u g i v.val := if_neg hg

theorem othersStand_ctxPcSet (s : State) (u g i : Nat) (pc : Addr) : OthersStand s (ctxPcSet s u g i pc) u :=
  othersStand_trans (othersStand_trans (othersStand_trans (othersStand_modTeam s u _) (logsOnly_cutRuns _ u g _).teams)
    (othersStand_modGang _ u g _)) (othersStand_modTeam _ u _)

/-- What the kernel writes changes only the context that it names. -/
theorem othersStand_ctxWrite (s : State) (u : Nat) (it : CtxItem) (v : CtxValue) : OthersStand s (s.ctxWrite u it v) u := by
  cases it with
  | vreg g l r => exact othersStand_modGang s u g _
  | bracket g l r => exact othersStand_modGang s u g _
  | invst g l => exact othersStand_modGang s u g _
  | pred g l r => exact othersStand_trans (othersStand_modGang s u g _) (othersStand_modTeam _ u _)
  | lcount g r => exact othersStand_trans (othersStand_modGang s u g _) (othersStand_modTeam _ u _)
  | gmode g => exact othersStand_trans (othersStand_modGang s u g _) (othersStand_modTeam _ u _)
  | kreg g r =>
    unfold State.ctxWrite
    dsimp only
    split
    · exact othersStand_writeK s _ _ _
    · exact othersStand_modGang s u g _
  | pc g i =>
    by_cases hg : g = 16
    · subst hg
      exact othersStand_modTeam s u _
    · rw [ctxWrite_pc s u i v hg]
      have set := othersStand_ctxPcSet s u g i v.val
      split
      · exact othersStand_trans (othersStand_trans set (othersStand_modGang _ u g _)) (othersStand_modGang _ u g _)
      · exact set
  | watchdog g =>
    unfold State.ctxWrite
    dsimp only
    split
    · exact othersStand_modTeam s u _
    · exact othersStand_modGang s u g _
  | window off =>
    exact othersStand_trans (b := s.spadWrite ((s.team u).key off) (leBytes 8 v.val.toNat)) (fun _ _ => rfl) (othersStand_modTeam _ u _)
  | queue q => exact othersStand_modTeam s u _
  | _ => exact fun _ _ => rfl

/-! ### What is written is read back -/

theorem rowGet_rowPut_any {α : Type} (d z : α) (y : α) : ∀ (l : List α) (i : Nat), rowGet z (rowPut d l i y) i = y
  | [], 0 => rfl
  | [], i + 1 => rowGet_rowPut_any d z y [] i
  | _ :: _, 0 => rfl
  | _ :: t, i + 1 => rowGet_rowPut_any d z y t i

/-- The lane that a write names, and its slice. -/
theorem getLsbD_lane {l : Nat} (hl : l < 32) : (1#32 <<< l).getLsbD l = true := by
  rw [getLsbD_one_shift hl, decide_eq_true rfl]

theorem getLsbD_slice {i : Nat} (hi : i < 8) : (1#8 <<< i).getLsbD i = true := by
  rw [BitVec.getLsbD_shiftLeft, decide_eq_true hi, BitVec.getLsbD_one, Nat.sub_self]
  simp

/-- The gang keeps a snapshot of its control in a saved context. -/
def snapKept (t : Team) (g : Nat) : Prop := t.status = .saved ∧ t.rewound.getLsbD g = true

theorem gang_resnap (s : State) (u g : Nat) (f : Snapshot → Snapshot) : ∃ sn, (s.resnap u g f).gang u g =
    { s.gang u g with instar := { (s.gang u g).instar with snap := sn } } ∧ (snapKept (s.team u) g → sn = f (s.gang u g).instar.snap) := by
  have here : (s.resnap u g f).gang u g = ((s.team u).resnap g f).gang g :=
    congrArg (fun t : Team => t.gang g) (State.team_modTeam_same s u _)
  rw [here]
  unfold Team.resnap
  split
  · exact ⟨_, Team.gang_modGang_same _ _ _, fun _ => rfl⟩
  next h => exact ⟨(s.gang u g).instar.snap, rfl, fun k => absurd (Bool.and_eq_true_iff.mpr ⟨decide_eq_true k.1, k.2⟩) h⟩

theorem resnap_rest (t : Team) (g : Nat) (f : Snapshot → Snapshot) : t.resnap g f = { t with gangs := (t.resnap g f).gangs } := by
  unfold Team.resnap
  split <;> rfl

theorem vreg_ctxWrite (s : State) (u g r : Nat) (v : CtxValue) {l : Nat} (hl : l < 32) :
    (((s.ctxWrite u (.vreg g l r) v).gang u g).lane l).vreg (BitVec.ofNat 6 r) = { val := v.val, full := v.full, poison := v.poison } := by
  have gang : (s.ctxWrite u (.vreg g l r) v).gang u g = (s.gang u g).ctxSetV l r v := State.gang_modGang_same s u g _
  have lane : ((s.gang u g).ctxSetV l r v).lane l = _ :=
    Gang.lane_modLanes_in (s.gang u g) (1#32 <<< l) (fun _ x => x.setV (BitVec.ofNat 6 r) { val := v.val, full := v.full, poison := v.poison })
      hl (getLsbD_lane hl)
  rw [gang, lane]
  exact Lane.vreg_setV_same _ _ _

theorem pred_ctxWrite (s : State) (u g : Nat) (v : CtxValue) {l r : Nat} (hl : l < 32) (h0 : 0 < r) (h8 : r < 8) :
    (((s.ctxWrite u (.pred g l r) v).gang u g).lane l).pred (BitVec.ofNat 3 r) = v.val.getLsbD 0 := by
  have hp : BitVec.ofNat 3 r ≠ 0#3 := fun e => by
    have := congrArg BitVec.toNat e
    rw [BitVec.toNat_ofNat, BitVec.toNat_ofNat] at this
    omega
  let y := s.modGang u g (fun x => x.writeP (BitVec.ofNat 3 r) (1#32 <<< l) (fun _ => v.val.getLsbD 0))
  obtain ⟨sn, gang, -⟩ := gang_resnap y u g (fun x => { x with preds := rowPut 0 x.preds l ((y.gang u g).lane l).p })
  have lane : (y.gang u g).lane l = ((s.gang u g).lane l).setP (BitVec.ofNat 3 r) (v.val.getLsbD 0) := by
    rw [State.gang_modGang_same]
    exact Gang.lane_modLanes_in (s.gang u g) (1#32 <<< l) (fun _ x => x.setP (BitVec.ofNat 3 r) (v.val.getLsbD 0)) hl (getLsbD_lane hl)
  have written : (s.ctxWrite u (.pred g l r) v).gang u g = _ := gang
  rw [written]
  exact (congrArg (fun x : Lane => x.pred (BitVec.ofNat 3 r)) lane).trans (Lane.pred_setP_same _ _ hp)

theorem bracket_ctxWrite (s : State) (u g r : Nat) (v : CtxValue) {l : Nat} (hl : l < 32) :
    (((s.ctxWrite u (.bracket g l r) v).gang u g).lane l).bracket (BitVec.ofNat 2 r) = v.val := by
  have gang : (s.ctxWrite u (.bracket g l r) v).gang u g = _ := State.gang_modGang_same s u g _
  rw [gang, Gang.lane_modLanes_in _ _ _ hl (getLsbD_lane hl), bracket_setB, if_pos rfl]

theorem invst_ctxWrite (s : State) (u g : Nat) (v : CtxValue) {l : Nat} (hl : l < 32) :
    (((s.ctxWrite u (.invst g l) v).gang u g).lane l).invst = v.val &&& 0xFFFFFFFF000001FF#64 := by
  have gang : (s.ctxWrite u (.invst g l) v).gang u g = _ := State.gang_modGang_same s u g _
  rw [gang, Gang.lane_modLanes_in _ _ _ hl (getLsbD_lane hl)]

theorem kreg_ctxWrite (s : State) (u : Nat) (v : CtxValue) {g r : Nat} (hg : g ≠ 16) (hr : r < 32) :
    (s.ctxWrite u (.kreg g r) v).partyK u g (BitVec.ofNat 5 r) = v.val := by
  have here : (BitVec.ofNat 5 r).toNat = r := by
    rw [BitVec.toNat_ofNat]
    exact Nat.mod_eq_of_lt hr
  have write : s.ctxWrite u (.kreg g r) v = s.modGang u g (fun x => { x with k := rowPut 0 x.k r v.val, kbad := x.kbad &&& ~~~ (1#32 <<< r) }) :=
    if_neg hg
  unfold State.partyK
  rw [if_neg hg, write, State.gang_modGang_same, Gang.kreg, here]
  exact rowGet_rowPut_same _ _ _ _

/-- A loop counter written, in the gang and in the snapshot of a rewound one. -/
theorem lcount_ctxWrite (s : State) (u g r : Nat) (v : CtxValue) :
    ((s.ctxWrite u (.lcount g r) v).gang u g).lcount r = v.val.setWidth 32 ∧
    (snapKept (s.team u) g → rowGet 0 ((s.ctxWrite u (.lcount g r) v).gang u g).instar.snap.lc r = v.val.setWidth 32) := by
  let y := s.modGang u g (fun x => { x with lc := rowPut 0 x.lc r (v.val.setWidth 32), lcbad := x.lcbad &&& ~~~ (1#3 <<< r) })
  obtain ⟨sn, gang, kept⟩ := gang_resnap y u g (fun x => { x with lc := rowPut 0 x.lc r (v.val.setWidth 32) })
  have written : (s.ctxWrite u (.lcount g r) v).gang u g = _ := gang
  have counter : (y.gang u g).lcount r = v.val.setWidth 32 := by
    rw [State.gang_modGang_same]
    exact rowGet_rowPut_same _ _ _ _
  rw [written]
  refine ⟨counter, fun h => ?_⟩
  have stands : snapKept (y.team u) g := by
    have team : y.team u = (s.team u).modGang g _ := State.team_modTeam_same s u _
    rw [team]
    exact h
  show rowGet 0 sn.lc r = _
  rw [kept stands]
  exact rowGet_rowPut_same _ _ _ _

/-- GMODE written, in the gang and in the snapshot of a rewound one. -/
theorem gmode_ctxWrite (s : State) (u g : Nat) (v : CtxValue) :
    ((s.ctxWrite u (.gmode g) v).gang u g).gmode = v.val.setWidth 32 ∧
    (snapKept (s.team u) g → ((s.ctxWrite u (.gmode g) v).gang u g).instar.snap.gmode = v.val.setWidth 32) := by
  let y := s.modGang u g (fun x => { x with gmode := v.val.setWidth 32 })
  obtain ⟨sn, gang, kept⟩ := gang_resnap y u g (fun x => { x with gmode := v.val.setWidth 32 })
  have written : (s.ctxWrite u (.gmode g) v).gang u g = _ := gang
  have mode : (y.gang u g).gmode = v.val.setWidth 32 := by rw [State.gang_modGang_same]
  rw [written]
  refine ⟨mode, fun h => ?_⟩
  have stands : snapKept (y.team u) g := by
    have team : y.team u = (s.team u).modGang g _ := State.team_modTeam_same s u _
    rw [team]
    exact h
  exact congrArg Snapshot.gmode (kept stands)

theorem pc_ctxSetPc (g : Gang) (pc : Addr) {i : Nat} (hi : i < 8) : ((g.ctxSetPc i pc).slice i).pc = pc := by
  unfold Gang.ctxSetPc Gang.splitByPc
  dsimp only
  rw [Gang.slice_modSlices_if _ _ _ hi, Gang.slice_modSlices_in _ _ _ hi (getLsbD_slice hi)]
  split
  · split <;> rfl
  · rfl

/-- A program counter written: the slice stands there, in the snapshot of a rewound gang too, and the context's status stands. -/
theorem pc_ctxPcSet (s : State) (u g : Nat) (pc : Addr) {i : Nat} (hi : i < 8) :
    ((ctxPcSet s u g i pc).team u).status = (s.team u).status ∧ (((ctxPcSet s u g i pc).gang u g).slice i).pc = pc ∧
    (snapKept (s.team u) g → ∀ z, (rowGet z ((ctxPcSet s u g i pc).gang u g).instar.snap.slices i).pc = pc) := by
  let x := s.modTeam u (fun t => t.unblock g ((t.gang g).slice i).sub)
  let y := (x.cutRuns u g (1#8 <<< i)).modGang u g (fun x => x.ctxSetPc i pc)
  have cut : LogsOnly x y u := logsOnly_trans (logsOnly_cutRuns x u g _) (logsOnly_modGang _ u g _)
  have team : (x.team u).status = (s.team u).status ∧ (x.team u).rewound = (s.team u).rewound := by
    rw [State.team_modTeam_same]
    exact ⟨rfl, rfl⟩
  have status : (y.team u).status = (s.team u).status ∧ (y.team u).rewound = (s.team u).rewound := by
    rw [cut.team]
    exact team
  have stands : (ctxPcSet s u g i pc).team u = (y.team u).resnap g (fun x => x.setPc i pc) := State.team_modTeam_same y u _
  have slice : ((y.gang u g).slice i).pc = pc := by
    rw [State.gang_modGang_same]
    exact pc_ctxSetPc _ pc hi
  obtain ⟨sn, gang, kept⟩ := gang_resnap y u g (fun x => x.setPc i pc)
  have written : (ctxPcSet s u g i pc).gang u g = _ := gang
  refine ⟨?_, ?_, fun h z => ?_⟩
  · rw [stands, resnap_rest]
    exact status.1
  · rw [written]
    exact slice
  · have snap : snapKept (y.team u) g := by
      unfold snapKept
      rw [status.1, status.2]
      exact h
    rw [written]
    show (rowGet z sn.slices i).pc = _
    rw [kept snap]
    exact congrArg SliceSnap.pc (rowGet_rowPut_any _ z _ _ i)

/-- A program counter written to a context that does not run. -/
theorem pc_ctxWrite {s : State} {u g i : Nat} (v : CtxValue) (hg : g ≠ 16) (hi : i < 8) (h : (s.team u).status ≠ .running) :
    s.ctxWrite u (.pc g i) v = ctxPcSet s u g i v.val := by
  rw [ctxWrite_pc s u i v hg, (pc_ctxPcSet s u g v.val hi).1, if_neg h]

end Sys2Proof.Machine
end

section
namespace Sys2Proof.Machine

open Sys2Proof Sys2Proof.Safety

/-- Settles O59: each command of the kernel takes the branch that the context's standing asks for, and what each branch leaves of the
context is read off its gangs, records, saves and snapshot. -/
theorem contextCommands : Obligations.ContextCommands := by
  refine ⟨?_, ?_, fun g l r hl => vreg_rewind g r hl, kreg_rewind, kbad_rewind, ?_, ?_, ?_, ?_, ?_, ?_, ?_, ?_, ?_⟩
  · intro u area d s c ok
    have hok : (s.mayShip u = true ∧ deadlineOk c = true) ↔ ok := by
      rw [mayShip_iff, deadlineOk_iff, and_assoc, and_assoc, and_assoc]
    refine ⟨execSave_idle, fun hp h => execSave_refused hp (hok.not.mpr h), fun hp h =>
      ⟨_, saveStarted s u area c, execSave_starts hp (hok.mpr h), rfl, saveStarted_rest s u area c,
        fun v hv => saveStarted_team_other s area c hv, saveStarted_team_same s u area c, saveStarted_counters s u area c, fun i => ?_⟩⟩
    rw [saveStarted_cmd, askStop]
    simp only [Bool.and_eq_true, decide_eq_true_eq]
  · intro u d s hd y z num
    obtain ⟨-, marks⟩ := rewinding_gangs (s.team u)
    refine ⟨fun g hg => ?_, gang_saveLooked s u, saveCheck_stands hd, fun done => ?_⟩
    · exact (congrArg (fun t : Team => t.rewound.getLsbD g) (team_saveLooked s u)).trans (marks g hg)
    · have closed : logsClosed y u (s.team u).ngang = z := rfl
      have cycle : z.cycle = s.cycle := by
        rw [← closed, (logsOnly_closed y u _).rest]
        rfl
      refine ⟨saveKept z u, saveCheck_saves hd done, ?_, fun v hv => team_saveKept_other z hv, ?_, fun g hg => gang_saveKept z u hg,
        fun c r => ?_, saves_saveKept z u, header_saveKept z u⟩
      · rw [saveKept_rest]
        rfl
      · exact team_saveKept_same z u ▸ rfl
      · rw [record_saveKept, cycle]
  · intro u s late
    rw [execSaveDeadline_eq]
    exact ⟨fun h => by rw [if_neg (saveLate_iff.not.mpr h)], fun h => by rw [if_pos (saveLate_iff.mpr h)]⟩
  · intro u s ok
    have hok : (u < s.teams.length && (s.team u).live) = true ↔ ok := by
      rw [Bool.and_eq_true, decide_eq_true_eq]
    rw [execKill_eq]
    exact ⟨fun hp => by rw [if_pos hp], fun hp h => by rw [if_neg (not_not_intro hp), if_neg (hok.not.mpr h)],
      fun hp h => by rw [if_neg (not_not_intro hp), if_pos (hok.mpr h)]⟩
  · intro u s
    let y := logsClosed s u (s.team u).ngang
    refine ⟨y, resetNoted y u (s.team u).grid, resetTeam_eq s u, rfl, resetNoted_rest y u _,
      fun v hv => team_resetNoted_other y _ hv, cmd_resetNoted y u _, grid_resetNoted y u _, ?_⟩
    rw [team_resetNoted_same]
    refine ⟨rfl, rfl, rfl, rfl, rfl, fun g hg => ?_⟩
    rw [gang_resetNoted y u _ hg]
    refine ⟨rfl, rfl, rfl, fun i hi => ?_⟩
    rw [slice_end _ hi]
    exact ⟨rfl, rfl⟩
  · intro u core area s ok go
    refine ⟨execRestore_idle, fun hp h => execRestore_refused hp h, fun hp h => ?_⟩
    have step : go = _ := execRestore_saved hp h
    refine ⟨fun ha => by rw [step, ha]; rfl, fun ha hf => by rw [step, ha, hf]; rfl, ?_⟩
    intro x ha hf m
    have here : (placing m u core x).team u = _ := team_placing_same m u core x
    refine ⟨placing m u core x, by rw [step, ha, hf]; exact congrArg Host.Outcome.next (place_eq m u core x), placing_rest m u core x,
      fun v hv => team_placing_other m core x hv, record_placing m u core x, ?_, fun z => ?_, ?_⟩
    · rw [here, cycle_loadArea s u area]
      rfl
    · rw [here]
      exact sidecar_restore_wait (m.team u).side z
    · intro g hg i
      obtain ⟨lanes, ks⟩ := registers_placing m u core x hg
      refine ⟨lanes, ks, stood_placing m u core x hg, fun hr hb => ?_⟩
      obtain ⟨gmode, levels, slices⟩ := rewound_placing m u core x hg hr hb
      refine ⟨gmode, levels, fun j hj => ?_⟩
      have body := (slices j hj).trans ((m.gang u g).slice_bodyStart hj)
      exact ⟨congrArg Slice.pc body, congrArg Slice.m body, congrArg Slice.stack body, congrArg Slice.ret body⟩
  · exact fun u area s h => loadArea_last h
  · exact fun u g sub s => ⟨actOn_sidecar, fun hg sl => actOn_gang hg sl⟩
  · intro u g sub s
    refine ⟨execAction_refused, fun sl h => ⟨fun hg => ?_, fun hg => ?_⟩⟩
    · subst hg
      obtain ⟨resumes, skips⟩ := execAction_sidecar h
      have keeps := onlySide_refl s ⟨u, 16, 0#8, false⟩
      exact ⟨_, _, resumes, skips, onlySide_modSide keeps (fun x => { x with stopped := false, held := none }),
        congrArg Team.side (State.team_modTeam_same s u _),
        onlySide_modSide keeps (fun x => { x with stopped := false, held := none, pc := x.pc + 4#64 }),
        congrArg Team.side (State.team_modTeam_same s u _)⟩
    · intro x n
      obtain ⟨resumes, skips⟩ := execAction_gang hg h
      have some_stop : sl ≠ 0#8 := by
        obtain ⟨rfl, -, -, -, -, some_stop, -⟩ := (actOn_gang hg sl).mp h
        exact some_stop
      obtain ⟨slices, skips_next⟩ := goesOn_control s u g (fun x => (resumedGang sl x).part sl)
      obtain ⟨slices', skips_next'⟩ := goesOn_control s u g (fun x => (releasedGang sl x).skipWord sl n)
      refine ⟨_, _, resumes, skips, goesOn_rest .., goesOn_rest .., fun v k hvk => ⟨gang_goesOn_other s _ hvk, gang_goesOn_other s _ hvk⟩,
        fun i hi => ?_, fun body level i hi => ?_, fun ha hr some_issues => ?_⟩
      · rw [slices, skips_next]
        exact ⟨skipCmp_resumed sl x hi, slice_resumed sl x hi⟩
      · rw [slices', skips_next']
        exact ⟨skipCmp_skipped some_stop body level hi, slice_skipped some_stop body level hi⟩
      · simp only [slices] at some_issues
        rw [gang_goesOn_same]
        exact Gang.ready_makeReady ha hr some_issues
  · intro u it v s
    refine ⟨fun h => ⟨execContextStateRead_closed h, ?_⟩, fun h => ⟨⟨_, _, execContextStateRead_open h, rfl, ctxRead_state s u it⟩, fun hw => ?_,
      fun hw => ⟨_, ?_, rfl, othersStand_ctxWrite s u it v⟩⟩⟩
    · rw [execContextStateWrite_eq, h]
      rfl
    · rw [execContextStateWrite_eq, h, hw]
      rfl
    · rw [execContextStateWrite_eq, h, hw]
      rfl
  · intro u g l r i v s hg hl hi at_
    have not_side : g ≠ 16 := Nat.ne_of_lt hg
    refine ⟨fun _ => ?_, fun h0 h8 => ?_, fun _ => ?_, ?_, fun hr => ?_, fun _ => ?_, ?_, fun hs => ?_, fun hs hr => ⟨?_, fun _ => ?_, ?_⟩⟩
    · exact congrArg (fun x : VReg => Notice.ctxValue x.val x.full x.poison) (vreg_ctxWrite s u g r v hl)
    · exact congrArg (fun x => Notice.ctxValue (boolWord x) true false) (pred_ctxWrite s u g v hl h0 h8)
    · exact congrArg (fun x => Notice.ctxValue x true false) (bracket_ctxWrite s u g r v hl)
    · exact congrArg (fun x => Notice.ctxValue x true false) (invst_ctxWrite s u g v hl)
    · exact congrArg (fun x => Notice.ctxValue x true false) (kreg_ctxWrite s u v not_side hr)
    · exact congrArg (fun x : Half => Notice.ctxValue (x.setWidth 64) true false) (lcount_ctxWrite s u g r v).1
    · exact congrArg (fun x : Half => Notice.ctxValue (x.setWidth 64) true false) (gmode_ctxWrite s u g v).1
    · have pc := (pc_ctxPcSet s u g v.val hi).2.1
      rw [← pc_ctxWrite v not_side hi hs] at pc
      exact congrArg (fun x => Notice.ctxValue x true false) ((if_neg not_side).trans pc)
    · exact (gmode_ctxWrite s u g v).2 ⟨hs, hr⟩
    · exact (lcount_ctxWrite s u g r v).2 ⟨hs, hr⟩
    · rw [pc_ctxWrite v not_side hi (by rw [hs]; nofun)]
      exact (pc_ctxPcSet s u g v.val hi).2.2 ⟨hs, hr⟩

end Sys2Proof.Machine
end

section
namespace Sys2Proof.Machine

open Sys2Proof Sys2Proof.Safety

/-! ### Words fetched and noted (R235, R359) -/

/-- Nothing but metering counters of partitions differs. -/
structure Metered (s t : State) : Prop where
  rest : t = { s with parts := t.parts }
  parts : ∀ p, t.part p = { s.part p with counters := (t.part p).counters }

theorem metered_refl (s : State) : Metered s s := ⟨rfl, fun _ => rfl⟩

theorem metered_meter {s t : State} (h : Metered s t) (p i n : Nat) : Metered s (t.meter p i n) where
  rest := congrArg (fun z => { z with parts := (t.meter p i n).parts }) h.rest
  parts q := by
    by_cases e : p = q
    · subst e
      rw [State.meter, State.part_modPart_same, h.parts p]
    · rw [State.meter, State.part_modPart_other t _ e]
      exact h.parts q

theorem Metered.onlyGang {s t : State} (h : Metered s t) (u : Issuer) : OnlyGang s t u := by
  obtain ⟨rest, parts⟩ := h
  have team : t.team = s.team := by rw [rest]; rfl
  exact ⟨by rw [rest], parts, fun v _ => congrFun team v, by rw [team], fun _ _ => by rw [team]⟩

theorem Metered.gang {s t : State} (h : Metered s t) (u g : Nat) : t.gang u g = s.gang u g := by rw [h.rest]; rfl

theorem Metered.cycle {s t : State} (h : Metered s t) : t.cycle = s.cycle := by rw [h.rest]

/-- The walk of the page tables reads no metering counter. -/
theorem Metered.walk {s t : State} (h : Metered s t) (p va : Nat) : t.walk p va = s.walk p va := by
  unfold State.walk
  rw [h.parts p, h.rest]
  rfl

theorem Metered.fetch {s t : State} (h : Metered s t) (p : Nat) (pc : Addr) : t.fetch p pc = s.fetch p pc := by
  unfold State.fetch
  rw [h.walk, h.rest]
  rfl

/-- A fetch that gives a word only counts the bytes moved from a FAR page. -/
theorem metered_noteFetch {s t : State} (h : Metered s t) {p : Nat} {pc : Addr} {w : Half} (hw : t.fetch p pc = .word w) :
    Metered s (t.noteFetch p pc) := by
  unfold State.fetch at hw
  unfold State.noteFetch
  cases found : t.walk p pc.toNat with
  | leaf l =>
    dsimp only
    split
    · exact metered_meter h p 7 4
    · exact h
  | notValid => exact h
  | malformed =>
    rw [found] at hw
    cases hw

theorem metered_noteWords {s : State} {p : Nat} : ∀ (n : Nat) (pc : Addr) {t : State} {hs : List Half}, Metered s t →
    s.fetchWords p pc n = .ok hs → Metered s (t.noteWords p pc n)
  | 0, _, _, _, h, _ => h
  | n + 1, pc, t, hs, h, hf => by
    unfold State.fetchWords at hf
    cases first : s.fetch p pc with
    | word w =>
      rw [first] at hf
      have same := (h.fetch p pc).trans first
      unfold State.noteWords
      rw [same]
      dsimp only at hf ⊢
      cases rest : s.fetchWords p (pc + 4#64) n with
      | ok ws => exact metered_noteWords n _ (metered_noteFetch h same) rest
      | error f =>
        rw [rest] at hf
        cases hf
    | held =>
      rw [first] at hf
      cases hf
    | fault =>
      rw [first] at hf
      cases hf

/-! ### The order of a type of INV (R104, R172) -/

/-- The least Ord value of a type. -/
def ordBase (t : ElemType) : Int := if t = .n32 then 0 else -2 ^ 31

/-- The types of INV. -/
theorem invTypes_iff {t : ElemType} : invTypes t = true ↔ t = .f32 ∨ t = .i32 ∨ t = .n32 := by
  simp [invTypes, or_assoc]

/-- The value of an I32 pattern. -/
theorem ord_i32 (v : Nat) : ord .i32 v = if 2 ^ 31 ≤ v then (v : Int) - 2 ^ 32 else (v : Int) := by
  show (if (true && decide (2 ^ 31 ≤ v)) = true then (v : Int) - 2 ^ 32 else (v : Int)) = _
  simp only [Bool.true_and, decide_eq_true_eq]

theorem ord_range {t : ElemType} (ht : invTypes t = true) {v : Nat} (hv : v < 2 ^ 32) :
    ordBase t ≤ ord t v ∧ ord t v < ordBase t + 2 ^ 32 := by
  obtain rfl | rfl | rfl := invTypes_iff.mp ht
  · rw [ordBase, if_neg (by decide)]
    simp only [ord]
    split <;> omega
  · rw [ordBase, if_neg (by decide), ord_i32]
    split <;> omega
  · rw [ordBase, if_pos rfl]
    simp only [ord]
    omega

/-- Every value in the range of a type's Ord is that of a pattern, which OrdInv gives. -/
theorem ord_ordInv {t : ElemType} (ht : invTypes t = true) {x : Int} (hl : ordBase t ≤ x) (hu : x < ordBase t + 2 ^ 32) :
    ordInv t x < 2 ^ 32 ∧ ord t (ordInv t x) = x := by
  obtain rfl | rfl | rfl := invTypes_iff.mp ht
  · rw [ordBase, if_neg (by decide)] at hl hu
    simp only [ordInv, ord]
    split <;> split <;> omega
  · rw [ordBase, if_neg (by decide)] at hl hu
    rw [ord_i32, ordInv, intBits]
    refine ⟨by omega, ?_⟩
    split <;> omega
  · rw [ordBase, if_pos rfl] at hl hu
    simp only [ordInv, ord]
    omega

/-! ### A pass in a lane (R172) -/

section
variable {y : Search} {t : ElemType} {md : Modes} {ws : List RWord} {xr : VNum} {br : BitVec 2} {tol : Nat} {dec : Bool}

/-- The middle of a bracket, in the order of its type (R172). -/
def Search.mid (y : Search) (t : ElemType) : Int := ord t y.lo + (ord t y.hi - ord t y.lo) / 2

theorem narrow_stops (on : y.searching = true) (near : ord t y.hi - ord t y.lo ≤ 2 ^ tol) :
    y.narrow t md ws xr br tol dec = { y with res := y.hi, searching := false } := by
  simp only [Search.narrow, on, near, Bool.not_true, Bool.false_eq_true, if_false, if_true]

/-- A pass that does not end a lane's search finds a violation, or moves one endpoint to the middle. -/
theorem narrow_moves (on : y.searching = true) (far : 2 ^ tol < ord t y.hi - ord t y.lo) :
    let z := y.narrow t md ws xr br tol dec
    z.violated = true ∨ z.searching = true ∧
      (z.lo = ordInv t (y.mid t) ∧ z.hi = y.hi ∨ z.lo = y.lo ∧ z.hi = ordInv t (y.mid t)) := by
  intro z
  simp only [z, Search.narrow, on, if_neg (not_le.mpr far), Bool.not_true, Bool.false_eq_true, if_false]
  split
  · exact .inl rfl
  · refine .inr ?_
    split
    · exact ⟨on, .inl ⟨rfl, rfl⟩⟩
    · exact ⟨on, .inr ⟨rfl, rfl⟩⟩

/-- The halves of a bracket are brackets of the type, half as wide (R173). -/
theorem narrow_halves (ht : invTypes t = true) (on : y.searching = true) (hlo : y.lo < 2 ^ 32) (hhi : y.hi < 2 ^ 32)
    (order : ord t y.lo ≤ ord t y.hi) (far : 2 ^ tol < ord t y.hi - ord t y.lo) :
    let z := y.narrow t md ws xr br tol dec
    z.violated = true ∨
      (z.searching = true ∧ z.lo < 2 ^ 32 ∧ z.hi < 2 ^ 32 ∧ ord t y.lo ≤ ord t z.lo ∧ ord t z.lo ≤ ord t z.hi ∧ ord t z.hi ≤ ord t y.hi ∧
        2 * (ord t z.hi - ord t z.lo) ≤ ord t y.hi - ord t y.lo + 1) := by
  intro z
  have low := ord_range ht hlo
  have high := ord_range ht hhi
  have mid_eq : y.mid t = ord t y.lo + (ord t y.hi - ord t y.lo) / 2 := rfl
  have mid_above : ord t y.lo ≤ y.mid t := by omega
  have mid_below : y.mid t ≤ ord t y.hi := by omega
  obtain ⟨mid_pattern, mid_ord⟩ := ord_ordInv ht (x := y.mid t) (by omega) (by omega)
  refine (narrow_moves on far).imp_right fun ⟨still, moved⟩ => ⟨still, ?_⟩
  obtain ⟨zlo, zhi⟩ | ⟨zlo, zhi⟩ := moved
  · rw [zlo, zhi, mid_ord]
    exact ⟨mid_pattern, hhi, mid_above, mid_below, le_refl _, by omega⟩
  · rw [zlo, zhi, mid_ord]
    exact ⟨hlo, mid_pattern, le_refl _, mid_above, mid_below, by omega⟩

@[simp] theorem Lane.vreg_endSearch (x : Lane) (r : VNum) : x.endSearch.vreg r = x.vreg r := rfl

/-- ACTIVE is bit 8 of INVST (R171). -/
theorem invst_endSearch (x : Lane) : x.endSearch.invst.getLsbD 8 = false := by
  simp [Lane.endSearch, Lane.invstSet, invstWith]

/-- The final pass leaves the result in the argument, whatever the routine wrote. -/
theorem vreg_final : (y.final t md ws xr).lane.vreg xr = { val := BitVec.ofNat 64 y.res } := by
  rw [Search.final, Lane.vreg_endSearch, Lane.vreg_setV_same]

theorem invst_final : (y.final t md ws xr).lane.invst.getLsbD 8 = false := invst_endSearch _

end

/-! ### The gang after a pass -/

/-- The lanes that violated in a pass. -/
def violatedIn (xs : List (Nat × Search)) : Half := maskOf (fun l => xs.any (fun y => y.1 = l && y.2.violated))

/-- The lanes of a pass in a gang, and the marks of the registers that it writes. -/
def Gang.passed (g : Gang) (regs : List VNum) (xs : List (Nat × Search)) : Gang :=
  regs.foldl (fun g r => g.touchV r) (g.modLanes (maskOf (fun l => xs.any (fun y => y.1 = l))) (fun l x =>
    ((xs.find? (fun y => y.1 = l)).map (fun y => y.2.lane)).getD x))

theorem gang_putPass (s : State) (u : Issuer) (regs : List VNum) (n : Nat) (xs : List (Nat × Search)) :
    (s.putPass u regs n xs).gang u.team u.gang = (s.gang u.team u.gang).passed regs xs := by
  unfold State.putPass
  dsimp only
  split
  · exact State.gang_modGang_same s u.team u.gang _
  · exact (State.gang_meter ..).trans (State.gang_modGang_same s u.team u.gang _)

theorem onlyGang_putPass {s s1 : State} {u : Issuer} (h : OnlyGang s s1 u) (regs : List VNum) (n : Nat) (xs : List (Nat × Search)) :
    OnlyGang s (s1.putPass u regs n xs) u := by
  unfold State.putPass
  dsimp only
  split
  · exact onlyGang_modGang h _
  · exact onlyGang_meter (onlyGang_modGang h _) _ _ _

theorem onlyGang_raiseRun {s s1 : State} {u : Issuer} (h : OnlyGang s s1 u) (r : InvRun) : OnlyGang s (s1.raiseRun u.team u.gang r) u :=
  onlyGang_modGang h _

/-- Of the gang, what a run raises changes only the log. -/
theorem gang_raiseRun (s : State) (u g : Nat) (r : InvRun) : ∃ log, (s.raiseRun u g r).gang u g = { s.gang u g with log := log } :=
  ⟨_, State.gang_modGang_same s u g _⟩

/-- Of the gang, only lanes, the reuse latch, the marks of Instar, the log and the runs may differ. -/
def Worked (g g1 : Gang) : Prop :=
  g1 = { g with lanes := g1.lanes, latch := g1.latch, instar := g1.instar, log := g1.log, searches := g1.searches } ∧
    g1.instar = { g.instar with rewindable := g1.instar.rewindable, vdirty := g1.instar.vdirty }

theorem worked_touches : ∀ (regs : List VNum) {g g1 : Gang}, Worked g g1 → Worked g (regs.foldl (fun g r => g.touchV r) g1)
  | [], _, _, h => h
  | r :: regs, g, g1, ⟨rest, instar⟩ => worked_touches regs (g1 := g1.touchV r)
      ⟨by rw [rest]; rfl, by rw [Gang.touchV, instar]⟩

theorem worked_passed (g : Gang) (regs : List VNum) (xs : List (Nat × Search)) : Worked g (g.passed regs xs) :=
  worked_touches regs ⟨rfl, rfl⟩

/-- The marks of writes touch nothing but the reuse latch and Instar. -/
theorem touches_keep : ∀ (regs : List VNum) (g : Gang), regs.foldl (fun g r => g.touchV r) g =
    { g with latch := (regs.foldl (fun g r => g.touchV r) g).latch, instar := (regs.foldl (fun g r => g.touchV r) g).instar }
  | [], _ => rfl
  | r :: regs, g => touches_keep regs (g.touchV r)

theorem lane_touches (regs : List VNum) (g : Gang) (l : Nat) : (regs.foldl (fun g r => g.touchV r) g).lane l = g.lane l := by
  rw [touches_keep]
  rfl

theorem searches_passed (g : Gang) (regs : List VNum) (xs : List (Nat × Search)) : (g.passed regs xs).searches = g.searches := by
  rw [Gang.passed, touches_keep]
  rfl

theorem lane_passed_out (g : Gang) (regs : List VNum) {xs : List (Nat × Search)} {l : Nat} (hl : l < 32) (out : ∀ y ∈ xs, y.1 ≠ l) :
    (g.passed regs xs).lane l = g.lane l := by
  refine (lane_touches regs _ l).trans (Gang.lane_modLanes_out g _ _ hl ?_)
  rw [getLsbD_maskOf _ hl, List.any_eq_false]
  intro y hy
  simpa using out y hy

/-- In a list with one entry for each lane, the first entry of a lane is the only one. -/
theorem find?_of_nodup {α : Type} {xs : List (Nat × α)} (nodup : (xs.map (·.1)).Nodup) {y : Nat × α} (hy : y ∈ xs) :
    xs.find? (fun z => z.1 = y.1) = some y := by
  induction xs with
  | nil => cases hy
  | cons x xs ih =>
    rw [List.map_cons, List.nodup_cons] at nodup
    obtain rfl | tail := List.mem_cons.mp hy
    · simp
    · have other : x.1 ≠ y.1 := fun e => nodup.1 (e ▸ List.mem_map_of_mem tail)
      rw [List.find?_cons_of_neg (by simpa using other), ih nodup.2 tail]

theorem lane_passed_in (g : Gang) (regs : List VNum) {xs : List (Nat × Search)} (nodup : (xs.map (·.1)).Nodup) {y : Nat × Search}
    (hy : y ∈ xs) (hl : y.1 < 32) : (g.passed regs xs).lane y.1 = y.2.lane := by
  have in_mask : (maskOf (fun l => xs.any (fun y => y.1 = l))).getLsbD y.1 = true := by
    rw [getLsbD_maskOf _ hl, List.any_eq_true]
    exact ⟨y, hy, decide_eq_true rfl⟩
  refine (lane_touches regs _ y.1).trans ((Gang.lane_modLanes_in g _ _ hl in_mask).trans ?_)
  rw [find?_of_nodup nodup hy]
  rfl

/-- The lanes of a pass: one entry for each, of lanes that take part. -/
structure PassOf (part : Half) (xs : List (Nat × Search)) : Prop where
  nodup : (xs.map (·.1)).Nodup
  lanes : ∀ y ∈ xs, y.1 < 32 ∧ part.getLsbD y.1 = true

/-- What a pass leaves of the gang: its lanes are written, every other lane is as it was, and of the rest only what goes with
registers may differ. -/
structure PassLeaves (g g1 : Gang) (part : Half) (xs : List (Nat × Search)) : Prop where
  worked : Worked g g1
  others : ∀ l, l < 32 → part.getLsbD l = false → g1.lane l = g.lane l
  lanes : ∀ l y, (l, y) ∈ xs → g1.lane l = y.lane

theorem passLeaves_passed (g : Gang) (regs : List VNum) {part : Half} {xs : List (Nat × Search)} (h : PassOf part xs) :
    PassLeaves g (g.passed regs xs) part xs where
  worked := worked_passed g regs xs
  others l hl out := lane_passed_out g regs hl fun y hy e => by
    have takes := (h.lanes y hy).2
    rw [e, out] at takes
    cases takes
  lanes l y hy := lane_passed_in g regs h.nodup hy (h.lanes _ hy).1

theorem PassLeaves.slices {g g1 : Gang} {part : Half} {xs : List (Nat × Search)} (h : PassLeaves g g1 part xs) : g1.slices = g.slices := by
  rw [h.worked.1]

/-- The log may change further. -/
theorem PassLeaves.log {g g1 : Gang} {part : Half} {xs : List (Nat × Search)} (h : PassLeaves g g1 part xs) (log : List LogHeld) :
    PassLeaves g { g1 with log := log } part xs where
  worked := ⟨by rw [h.worked.1], h.worked.2⟩
  others := h.others
  lanes := h.lanes

/-- The runs may change further. -/
theorem PassLeaves.setRun {g g1 : Gang} {part : Half} {xs : List (Nat × Search)} (h : PassLeaves g g1 part xs) (slices : BitVec 8)
    (r : Option InvRun) : PassLeaves g (g1.setRun slices r) part xs where
  worked := ⟨by rw [h.worked.1]; rfl, h.worked.2⟩
  others := h.others
  lanes := h.lanes

theorem PassOf.map {part : Half} {xs : List (Nat × Search)} (h : PassOf part xs) (f : Nat × Search → Search) :
    PassOf part (xs.map (fun y => (y.1, f y))) where
  nodup := by
    rw [List.map_map]
    exact h.nodup
  lanes z hz := by
    obtain ⟨y, hy, rfl⟩ := List.mem_map.mp hz
    exact h.lanes y hy

/-! ### The end of a pass (R172, R174) -/

/-- What MONOTONE leaves: of the issuing gang's lanes only those of the run differ, and 2048 free values have been taken. -/
structure Spoiled (s s' : State) (u : Issuer) (part : Half) : Prop where
  rest : s' = { s with teams := s'.teams, parts := s'.parts, fresh := s.fresh + 2048 }
  teams : ∀ v, v ≠ u.team → s'.team v = s.team v
  slices : (s'.gang u.team u.gang).slices = (s.gang u.team u.gang).slices
  lanes : ∀ l, l < 32 → part.getLsbD l = false → (s'.gang u.team u.gang).lane l = (s.gang u.team u.gang).lane l

/-- The registers that the passes of a run write. -/
def InvRun.regs (r : InvRun) (x : VNum) : List VNum := x :: r.words.map (·.d)

/-- A pass written back, and what its run has raised logged. -/
def State.passRaised (s : State) (u : Issuer) (r : InvRun) (x : VNum) (xs : List (Nat × Search)) (r' : InvRun) : State :=
  (s.putPass u (r.regs x) r.routine.length xs).raiseRun u.team u.gang r'

/-- The searches of a pass that some lane violated, with the registers that are free after MONOTONE. -/
def InvRun.spoiled (r : InvRun) (x : VNum) (fresh : Nat) (xs : List (Nat × Search)) : List (Nat × Search) :=
  xs.map (fun y => (y.1, y.2.spoil (r.regs x) (fresh + 64 * y.1)))

section
variable (s : State) (u : Issuer) (r : InvRun) (x : VNum) (xs : List (Nat × Search))

theorem endPass_of_violated (final : Bool) (bad : violatedIn xs ≠ 0#32) : s.endPass u r x final xs =
    .error (.trapIn { cause := .monotone, lanes := some (violatedIn xs) }
      { s.passRaised u r x (r.spoiled x s.fresh xs) (r.after xs) with fresh := s.fresh + 2048 }) := if_pos bad

theorem endPass_of_final (good : violatedIn xs = 0#32) : s.endPass u r x true xs =
    .ok ((s.passRaised u r x xs (r.after xs)).modGang u.team u.gang (fun g =>
      (g.setRun r.slices none).pastRoutine u.slices (r.pc + BitVec.ofNat 64 (4 * r.routine.length)))) :=
  (if_neg (not_not.mpr good)).trans (if_pos rfl)

theorem endPass_of_more (good : violatedIn xs = 0#32) : s.endPass u r x false xs =
    .ok ((s.putPass u (r.regs x) r.routine.length xs).modGang u.team u.gang (fun g => g.setRun r.slices (some (r.after xs)))) :=
  (if_neg (not_not.mpr good)).trans (if_neg Bool.false_ne_true)

end

section
variable {s s1 : State} {u : Issuer} {part : Half} {xs : List (Nat × Search)} (frame : OnlyGang s s1 u)
  (same : s1.gang u.team u.gang = s.gang u.team u.gang) (pass : PassOf part xs) (r : InvRun) (x : VNum)
include frame same pass

theorem putPass_leaves : let t := s1.putPass u (r.regs x) r.routine.length xs
    OnlyGang s t u ∧ PassLeaves (s.gang u.team u.gang) (t.gang u.team u.gang) part xs ∧
      (t.gang u.team u.gang).searches = (s.gang u.team u.gang).searches := by
  intro t
  rw [gang_putPass, same]
  exact ⟨onlyGang_putPass frame .., passLeaves_passed _ _ pass, searches_passed ..⟩

theorem passRaised_leaves (r' : InvRun) : let t := s1.passRaised u r x xs r'
    OnlyGang s t u ∧ PassLeaves (s.gang u.team u.gang) (t.gang u.team u.gang) part xs ∧
      (t.gang u.team u.gang).searches = (s.gang u.team u.gang).searches := by
  intro t
  obtain ⟨frame', left, searches⟩ := putPass_leaves frame same pass r x
  obtain ⟨log, raised⟩ := gang_raiseRun (s1.putPass u (r.regs x) r.routine.length xs) u.team u.gang r'
  have gang : t.gang u.team u.gang = _ := raised
  rw [gang]
  exact ⟨onlyGang_raiseRun frame' r', left.log log, searches⟩

theorem endPass_violates (bad : violatedIn xs ≠ 0#32) (final : Bool) : ∃ s',
    s1.endPass u r x final xs = .error (.trapIn { cause := .monotone, lanes := some (violatedIn xs) } s') ∧ Spoiled s s' u part := by
  obtain ⟨frame', left, -⟩ := passRaised_leaves frame same (pass.map fun y => y.2.spoil (r.regs x) (s1.fresh + 64 * y.1)) r x (r.after xs)
  have fresh : s1.fresh = s.fresh := by rw [frame.rest]
  refine ⟨_, endPass_of_violated s1 u r x xs final bad, ?_, frame'.teams, left.slices, left.others⟩
  refine (congrArg (fun z : State => { z with fresh := s1.fresh + 2048 }) frame'.rest).trans ?_
  dsimp only
  rw [fresh]
  rfl

theorem endPass_goesOn (good : violatedIn xs = 0#32) : ∃ t, s1.endPass u r x false xs = .ok t ∧ OnlyGang s t u ∧
    PassLeaves (s.gang u.team u.gang) (t.gang u.team u.gang) part xs ∧
    (t.gang u.team u.gang).searches = (s.gang u.team u.gang).searches.filter (fun z => z.slices ≠ r.slices) ++ [r.after xs] := by
  obtain ⟨frame', left, searches⟩ := putPass_leaves frame same pass r x
  refine ⟨_, endPass_of_more s1 u r x xs good, onlyGang_modGang frame' _, ?_⟩
  rw [State.gang_modGang_same, ← searches]
  exact ⟨left.setRun _ _, rfl⟩

theorem endPass_completes (good : violatedIn xs = 0#32) : ∃ t g1, s1.endPass u r x true xs = .ok t ∧ OnlyGang s t u ∧
    t.gang u.team u.gang = g1.pastRoutine u.slices (r.pc + BitVec.ofNat 64 (4 * r.routine.length)) ∧
    PassLeaves (s.gang u.team u.gang) g1 part xs ∧
    g1.searches = (s.gang u.team u.gang).searches.filter (fun z => z.slices ≠ r.slices) := by
  obtain ⟨frame', left, searches⟩ := passRaised_leaves frame same pass r x (r.after xs)
  refine ⟨_, _, endPass_of_final s1 u r x xs good, onlyGang_modGang frame' _, State.gang_modGang_same .., left.setRun _ _, ?_⟩
  rw [← searches]
  exact List.append_nil _

end

/-! ### Control after INV (R168, R178) -/

/-- The unit goes past the routine whose last word is at `last`. -/
def GoesPast (g g' : Gang) (slices : BitVec 8) (last : Addr) : Prop :=
  ControlOnly g g' ∧ (g.loopEnd slices last = none → Transfers g g' slices (fun _ y => { y with pc := last + 4#64 }) (fun _ => false))

/-- The unit stays at its word. -/
def Stays (g g' : Gang) (slices : BitVec 8) : Prop := Transfers g g' slices (fun _ y => y) (fun _ => false)

theorem pastRoutine_keeps (g : Gang) (m : BitVec 8) (last : Addr) : g.pastRoutine m last =
    { g with slices := (g.pastRoutine m last).slices, lc := (g.pastRoutine m last).lc, levels := (g.pastRoutine m last).levels } := by
  unfold Gang.pastRoutine
  split
  · unfold Gang.loopStep
    dsimp only
    split <;> rfl
  · rfl

/-- A change of slices sees the eight slices alone. -/
theorem Gang.modSlices_congr {g g1 : Gang} (m : BitVec 8) (f : Nat → Slice → Slice) (rest : g1 = { g with slices := g1.slices })
    (slice : ∀ i, i < 8 → g1.slice i = g.slice i) : g1.modSlices m f = g.modSlices m f := by
  have all : (upTo 8).map (fun i => if m.getLsbD i then f i (g1.slice i) else g1.slice i) =
      (upTo 8).map (fun i => if m.getLsbD i then f i (g.slice i) else g.slice i) :=
    List.map_congr_left fun i hi => by rw [slice i (mem_upTo.mp hi)]
  rw [Gang.modSlices, all, rest]
  rfl

section
variable {f : Form} {popped : Bool} {u : Issuer} (hj : f.jumps = true) (hm : f.merges = false)
include hj hm

theorem goesPast_finish (g : Gang) (last : Addr) : GoesPast g (finishGang f popped u (g.pastRoutine u.slices last)) u.slices last := by
  refine ⟨controlOnly_finish f popped u (pastRoutine_keeps g u.slices last), fun none_ends => ?_⟩
  have moved := transfers_finish (popped := popped) (u := u) (g := g) hj hm (fun _ y => { y with pc := last + 4#64 }) (fun _ => false)
  rw [Gang.closeLevels_none] at moved
  rw [Gang.pastRoutine, none_ends]
  exact moved

/-- Slices that a word leaves alone are those that it places where they stand. -/
theorem finishGang_placed (unit : u.slices ≠ 0#8) (g : Gang) :
    finishGang f popped u (g.modSlices u.slices (fun _ y => y)) = finishGang f popped u g := by
  have slice : ∀ {i}, i < 8 → (g.modSlices u.slices (fun _ y => y)).slice i = g.slice i := fun hi =>
    (Gang.slice_modSlices_if g u.slices (fun _ y => y) hi).trans (ite_self _)
  unfold finishGang
  simp only [hj, hm, slice (lowSlice_mem unit).1, Bool.false_eq_true, if_false, if_true]
  refine congrArg (fun h : Gang => ((h.part u.slices).partTurn u.slices).bodyCheck u.slices) ?_
  exact Gang.modSlices_congr _ _ rfl fun _ => slice

theorem stays_finish (unit : u.slices ≠ 0#8) (g : Gang) : Stays g (finishGang f popped u g) u.slices := by
  have placed := transfers_finish (popped := popped) (u := u) (g := g) hj hm (fun _ y => y) (fun _ => false)
  rw [Gang.closeLevels_none, finishGang_placed hj hm unit] at placed
  exact placed

end

/-! ### The issue of INV (R169) -/

section
variable {x t : VNum} {br : BitVec 2} {tol len : BitVec 4} {dec : Bool} {s : State} {c : Ctx} {hs : List Half} {is : List Instr}
  {ws : List RWord}

/-- The word at an index of the routine lies in every open body that holds the INV word (R168). -/
def Ctx.inBodies (c : Ctx) (i : Nat) : Bool := c.g.levels.all (fun y =>
  !(y.start.toNat ≤ c.pc.toNat && c.pc.toNat ≤ y.stop.toNat) || c.pc.toNat + 4 * (i + 1) ≤ y.stop.toNat)

/-- The routine's words are there and meet every condition, and no level that ends with the routine stops it (R168, R169, R238). -/
structure RoutineFits (x t : VNum) (len : BitVec 4) (c : Ctx) (s : State) (hs : List Half) (is : List Instr) (ws : List RWord) : Prop where
  fetched : s.fetchWords c.t.part (c.pc + 4#64) (len.toNat + 1) = .ok hs
  words : routineWords s c hs = .ok is
  routine : routineOf c x t c.inBodies 0 [x] [] is = .ok ws
  levels : routineLoopStop c (c.pc + BitVec.ofNat 64 (4 * (len.toNat + 1))) = none

/-- The state after the fetch of the routine. -/
def Ctx.noted (c : Ctx) (len : BitVec 4) (s : State) : State := s.noteWords c.t.part (c.pc + 4#64) (len.toNat + 1)

theorem RoutineFits.metered (h : RoutineFits x t len c s hs is ws) : Metered s (c.noted len s) :=
  metered_noteWords _ _ (metered_refl s) h.fetched

theorem startInv_passes_by (h : RoutineFits x t len c s hs is ws) (idle : c.part = 0#32) : startInv x t br len dec c s =
    .ok ((c.noted len s).modGang c.u.team c.u.gang (fun g =>
      g.pastRoutine c.u.slices (c.pc + BitVec.ofNat 64 (4 * (len.toNat + 1))))) := by
  obtain ⟨fetched, words, routine, levels⟩ := h
  unfold startInv
  unfold Ctx.inBodies at routine
  unfold Ctx.noted
  simp only [levels, fetched, words, routine, idle, stopOr, if_true]

theorem firstStop_map_none {α : Type} {f : α → Option Stop} : ∀ {l : List α}, (∀ a ∈ l, f a = none) → firstStop (l.map f) = none
  | [], _ => rfl
  | a :: l, h => by
    rw [List.map_cons, h a List.mem_cons_self]
    exact firstStop_map_none fun b hb => h b (List.mem_cons_of_mem a hb)

theorem startInv_starts (h : RoutineFits x t len c s hs is ws) (busy : c.part ≠ 0#32) (target : readStop c.g ⟨t, false⟩ c.part = none)
    (inputs : ∀ r ∈ routineInputs x [] ws, readStop c.g r c.part = none) (owed : owedStop c.g (x :: ws.map (·.d)) c.part = none)
    (operand : operandStop c.t c.u.gang s.cycle (x :: ws.map (·.d)) c.part = none) : startInv x t br len dec c s =
    (c.noted len s).endPass c.u (c.run t br hs) x false
      ((c.run t br hs).pass c.g (fun y => y.endpoints c.et c.modes ws x dec)) := by
  have cycle := h.metered.cycle
  obtain ⟨fetched, words, routine, levels⟩ := h
  unfold startInv
  unfold Ctx.inBodies at routine
  unfold Ctx.noted at cycle ⊢
  simp only [levels, fetched, words, routine, busy, if_false, cycle, target, firstStop_map_none inputs, owed, operand, stopOr, Option.map_none]

/-- The unit's run of a word belongs to the unit, which may issue. -/
theorem running_some {w : Half} {u : Issuer} {r : InvRun} (h : s.running w = some (u, r)) :
    u.gang ≠ 16 ∧ (s.gang u.team u.gang).unitOk u.slices = true ∧ r.slices = u.slices := by
  unfold State.running at h
  cases issuer : s.issuer with
  | none =>
    rw [issuer] at h
    cases h
  | some v =>
    rw [issuer] at h
    dsimp only at h
    split at h
    next may =>
      rw [Bool.and_eq_true, decide_eq_true_eq] at may
      split at h
      next run =>
        split at h
        next =>
          cases h
          have of_slices := List.find?_some run
          simp only [Bool.and_eq_true, decide_eq_true_eq] at of_slices
          exact ⟨may.2, State.issuable_gang may.1 may.2, of_slices.1⟩
        next => cases h
      next => cases h
    next => cases h

end

theorem passOf_lanes {part : Half} (f : Nat → Search) : PassOf part ((lanesOf part).map (fun l => (l, f l))) where
  nodup := by
    rw [List.map_map]
    exact (List.map_id (lanesOf part)).symm ▸ (lanesOf_sorted part).imp Nat.ne_of_lt
  lanes y hy := by
    obtain ⟨l, hl, rfl⟩ := List.mem_map.mp hy
    exact mem_lanesOf.mp hl

theorem passOf_run {r : InvRun} (nodup : (r.lanes.map (·.1)).Nodup) (lanes : ∀ y ∈ r.lanes, y.1 < 32 ∧ r.part.getLsbD y.1 = true)
    (g : Gang) (f : Search → Search) : PassOf r.part (r.pass g f) where
  nodup := by
    rw [InvRun.pass, List.map_map]
    exact nodup
  lanes y hy := by
    obtain ⟨z, hz, rfl⟩ := List.mem_map.mp hy
    exact lanes z hz

/-! ### The first issue of an INV (R169, R172) -/

/-- What the checks before issue know of an INV. -/
def invChecks (x t : VNum) (len : BitVec 4) : Form :=
  { named := [x, t], mode := fun gm => readsEt invTypes gm && !isQueue gm x && !isQueue gm t, jumps := true, routine := len.toNat + 1 }

/-- The lanes of the pass that starts a run, each after its endpoints. -/
def startLanes (s : State) (u : Issuer) (x t : VNum) (br : BitVec 2) (dec : Bool) (ws : List RWord) : List (Nat × Search) :=
  (lanesOf (partOf s u)).map (fun l =>
    let y : Search := { lane := (s.gang u.team u.gang).lane l, u := subGet 32 (((s.gang u.team u.gang).lane l).vreg t).val 0,
                        lo := subGet 32 (((s.gang u.team u.gang).lane l).bracket br) 0,
                        hi := subGet 32 (((s.gang u.team u.gang).lane l).bracket br) 1 }
    (l, y.endpoints (etOf s u) (mdOf s u) ws x dec))

theorem startLanes_eq {i : Instr} {s : State} {u : Issuer} {vals : List (List Word)} (hg : u.gang ≠ 16) (x t : VNum) (br : BitVec 2)
    (dec : Bool) (hs : List Half) (ws : List RWord) : let c := ctxOf i u s vals
    (c.run t br hs).pass c.g (fun y => y.endpoints c.et c.modes ws x dec) = startLanes s u x t br dec ws := by
  rw [ctxOf_gang hg]
  exact List.map_map

section
variable {x t : VNum} {br : BitVec 2} {tol len : BitVec 4} {dec : Bool} {s s1 : State} {u : Issuer} {vals : List (List Word)} {popped : Bool}
  {hs : List Half} {is : List Instr} {ws : List RWord} (no_run : s.running ((encode (.inv x t br tol len dec)).getD 0#32) = none)

include no_run in
theorem exec_inv_issue : exec (.inv x t br tol len dec) s =
    issue (.inv x t br tol len dec) (invChecks x t len) (startInv x t br len dec) s := by
  simp only [exec_inv, execInv, no_run, invChecks]

variable (h : GangIssues (.inv x t br tol len dec) (invChecks x t len) u s vals s1 popped)
  (fits : RoutineFits x t len (ctxOf (.inv x t br tol len dec) u s vals) s hs is ws)
include no_run h fits

theorem inv_passes_by (idle : partOf s u = 0#32) : ∃ t', exec (.inv x t br tol len dec) s = .next t' ∧ OnlyGang s t' u ∧
    GoesPast (s.gang u.team u.gang) (t'.gang u.team u.gang) u.slices (pcAt s u + BitVec.ofNat 64 (4 * (len.toNat + 1))) := by
  obtain rfl := issues_s1 h rfl rfl
  rw [exec_inv_issue no_run]
  have noted := fits.metered
  have body := startInv_passes_by (br := br) (dec := dec) fits ((ctx_part h.isGang).trans idle)
  rw [ctx_u, ctx_pc h.isGang] at body
  obtain ⟨t', next, frame, gang⟩ := gang_completes h body (onlyGang_modGang (noted.onlyGang u) _)
  rw [State.gang_modGang_same, noted.gang] at gang
  exact ⟨t', next, frame, gang ▸ goesPast_finish rfl rfl _ _⟩

omit no_run
variable (busy : partOf s u ≠ 0#32) (target : readStop (s.gang u.team u.gang) ⟨t, false⟩ (partOf s u) = none)
  (inputs : ∀ r ∈ routineInputs x [] ws, readStop (s.gang u.team u.gang) r (partOf s u) = none)
  (owed : owedStop (s.gang u.team u.gang) (x :: ws.map (·.d)) (partOf s u) = none)
  (operand : operandStop (s.team u.team) u.gang s.cycle (x :: ws.map (·.d)) (partOf s u) = none)
include busy target inputs owed operand

/-- With its operands there, the word makes the pass of the endpoints. -/
theorem inv_body : startInv x t br len dec (ctxOf (.inv x t br tol len dec) u s vals) s =
    ((ctxOf (.inv x t br tol len dec) u s vals).noted len s).endPass u ((ctxOf (.inv x t br tol len dec) u s vals).run t br hs) x false
      (startLanes s u x t br dec ws) := by
  rw [← startLanes_eq (i := .inv x t br tol len dec) (vals := vals) h.isGang x t br dec hs ws]
  have gang := (ctx_own (i := .inv x t br tol len dec) (s := s) (vals := vals) h.isGang).2
  have part := ctx_part (i := .inv x t br tol len dec) (s := s) (vals := vals) h.isGang
  refine (startInv_starts fits ?_ ?_ ?_ ?_ ?_).trans (by rw [ctx_u])
  · rwa [part]
  · rwa [gang, part]
  · rwa [gang, part]
  · rwa [gang, part]
  · rwa [ctx_t, ctx_u, part]

include no_run in
theorem inv_starts (good : violatedIn (startLanes s u x t br dec ws) = 0#32) : ∃ t' g1, exec (.inv x t br tol len dec) s = .next t' ∧
    OnlyGang s t' u ∧ Stays g1 (t'.gang u.team u.gang) u.slices ∧
    PassLeaves (s.gang u.team u.gang) g1 (partOf s u) (startLanes s u x t br dec ws) ∧
    g1.searches = (s.gang u.team u.gang).searches.filter (fun r => r.slices ≠ u.slices) ++
      [{ slices := u.slices, pc := pcAt s u, word := (encode (.inv x t br tol len dec)).getD 0#32, routine := hs,
         gmode := (s.gang u.team u.gang).gmode, part := partOf s u,
         lanes := (startLanes s u x t br dec ws).map (fun y => (y.1, y.2.toInvLane)) }] := by
  obtain rfl := issues_s1 h rfl rfl
  rw [exec_inv_issue no_run]
  have noted := fits.metered
  have body := inv_body h fits busy target inputs owed operand
  obtain ⟨t1, ends, frame, left, searches⟩ := endPass_goesOn (noted.onlyGang u) (noted.gang ..) (passOf_lanes _)
    ((ctxOf (.inv x t br tol len dec) u s1 vals).run t br hs) x good
  obtain ⟨t', next, frame', gang⟩ := gang_completes h (body.trans ends) frame
  rw [ctxOf_gang h.isGang] at searches
  refine ⟨t', _, next, frame', ?_, left, searches⟩
  exact gang ▸ stays_finish rfl rfl (Gang.unitOk_ne (State.issuable_gang h.issuable h.isGang)) _

include no_run in
theorem inv_violates (bad : violatedIn (startLanes s u x t br dec ws) ≠ 0#32) : ∃ s', exec (.inv x t br tol len dec) s =
    .next (s'.takeTrap u { cause := .monotone, lanes := some (violatedIn (startLanes s u x t br dec ws)) }) ∧ Spoiled s s' u (partOf s u) := by
  obtain rfl := issues_s1 h rfl rfl
  rw [exec_inv_issue no_run]
  have noted := fits.metered
  have body := inv_body h fits busy target inputs owed operand
  obtain ⟨s', ends, spoiled⟩ := endPass_violates (noted.onlyGang u) (noted.gang ..) (passOf_lanes _)
    ((ctxOf (.inv x t br tol len dec) u s1 vals).run t br hs) x bad false
  exact ⟨s', issue_stops h.toIssues (body.trans ends), spoiled⟩

end

/-! ### A run that goes on (R172) -/

/-- The frame does not look at which word of a pair the unit issues. -/
theorem onlyGang_second {s t : State} {u : Issuer} (h : OnlyGang s t u) (b : Bool) : OnlyGang s t { u with second := b } :=
  ⟨h.rest, h.parts, h.teams, h.team, h.gangs⟩

section
variable {x t : VNum} {br : BitVec 2} {tol len : BitVec 4} {dec : Bool} {s : State} {u : Issuer} {r : InvRun}

/-- The lanes of a run after its next pass, which narrows while some lane searches. -/
def nextLanes (s : State) (u : Issuer) (r : InvRun) (x : VNum) (br : BitVec 2) (tol : Nat) (dec : Bool) : List (Nat × Search) :=
  r.pass (s.gang u.team u.gang) (fun y =>
    if r.lanes.any (fun y => y.2.searching) then y.narrow ((gmEt r.gmode).getD .i8) (modesOf r.gmode) r.words x br tol dec
    else y.final ((gmEt r.gmode).getD .i8) (modesOf r.gmode) r.words x)

theorem nextPass_eq (tol : Nat) : s.nextPass u r x br tol dec =
    s.endPass u r x (!r.lanes.any (fun y => y.2.searching)) (nextLanes s u r x br tol dec) := by
  unfold State.nextPass nextLanes
  cases r.lanes.any (fun y => y.2.searching) <;> rfl

/-- After the final pass each lane of the run holds its result, and its search is no longer ACTIVE. -/
theorem lanes_completed (off : r.lanes.any (fun y => y.2.searching) = false) {g1 : Gang}
    (left : PassLeaves (s.gang u.team u.gang) g1 r.part (nextLanes s u r x br tol.toNat dec)) : ∀ y ∈ r.lanes,
      (g1.lane y.1).vreg x = { val := BitVec.ofNat 64 y.2.res } ∧ (g1.lane y.1).invst.getLsbD 8 = false := by
  intro y hy
  unfold nextLanes at left
  rw [off] at left
  rw [left.lanes y.1 _ (List.mem_map_of_mem hy)]
  exact ⟨vreg_final, invst_final⟩

variable (run : s.running ((encode (.inv x t br tol len dec)).getD 0#32) = some (u, r))
include run

/-- A pass that ends well finishes the word, without counting it again. -/
theorem run_finishes {s1 : State} (ends : s.endPass u r x (!r.lanes.any (fun y => y.2.searching)) (nextLanes s u r x br tol.toNat dec) = .ok s1)
    (frame : OnlyGang s s1 u) : ∃ t', exec (.inv x t br tol len dec) s = .next t' ∧ OnlyGang s t' u ∧
      t'.gang u.team u.gang = finishGang { jumps := true } false u (s1.gang u.team u.gang) := by
  have gang := (running_some run).1
  refine ⟨finish { jumps := true } false { u with second := true } s1, ?_, ?_, gang_finish (u := { u with second := true }) gang _ _⟩
  · simp only [exec_inv, execInv, run, nextPass_eq, ends]
  · exact onlyGang_second (onlyGang_finish (u := { u with second := true }) (onlyGang_second frame true) gang _ _) u.second

variable (nodup : (r.lanes.map (·.1)).Nodup) (lanes : ∀ y ∈ r.lanes, y.1 < 32 ∧ r.part.getLsbD y.1 = true)
include nodup lanes

theorem run_narrows (on : r.lanes.any (fun y => y.2.searching) = true) (good : violatedIn (nextLanes s u r x br tol.toNat dec) = 0#32) :
    ∃ t' g1, exec (.inv x t br tol len dec) s = .next t' ∧ OnlyGang s t' u ∧ Stays g1 (t'.gang u.team u.gang) u.slices ∧
      PassLeaves (s.gang u.team u.gang) g1 r.part (nextLanes s u r x br tol.toNat dec) ∧
      g1.searches = (s.gang u.team u.gang).searches.filter (fun z => z.slices ≠ u.slices) ++
        [{ r with lanes := (nextLanes s u r x br tol.toNat dec).map (fun y => (y.1, y.2.toInvLane)) }] := by
  obtain ⟨-, unit, slices⟩ := running_some run
  obtain ⟨s1, ends, frame, left, searches⟩ := endPass_goesOn (onlyGang_refl s u) rfl (passOf_run nodup lanes _ _) r x good
  rw [slices] at searches
  obtain ⟨t', next, frame', gang⟩ := run_finishes run (by rw [on]; exact ends) frame
  exact ⟨t', _, next, frame', gang ▸ stays_finish rfl rfl (Gang.unitOk_ne unit) _, left, searches⟩

theorem run_completes (off : r.lanes.any (fun y => y.2.searching) = false) (good : violatedIn (nextLanes s u r x br tol.toNat dec) = 0#32) :
    ∃ t' g1, exec (.inv x t br tol len dec) s = .next t' ∧ OnlyGang s t' u ∧
      GoesPast g1 (t'.gang u.team u.gang) u.slices (r.pc + BitVec.ofNat 64 (4 * r.routine.length)) ∧
      PassLeaves (s.gang u.team u.gang) g1 r.part (nextLanes s u r x br tol.toNat dec) ∧
      g1.searches = (s.gang u.team u.gang).searches.filter (fun z => z.slices ≠ u.slices) := by
  obtain ⟨-, -, slices⟩ := running_some run
  obtain ⟨s1, g1, ends, frame, past, left, searches⟩ := endPass_completes (onlyGang_refl s u) rfl (passOf_run nodup lanes _ _) r x good
  rw [slices] at searches
  obtain ⟨t', next, frame', gang⟩ := run_finishes run (by rw [off]; exact ends) frame
  rw [past] at gang
  exact ⟨t', g1, next, frame', gang ▸ goesPast_finish rfl rfl _ _, left, searches⟩

theorem run_violates (bad : violatedIn (nextLanes s u r x br tol.toNat dec) ≠ 0#32) : ∃ s', exec (.inv x t br tol len dec) s =
    .next (s'.takeTrap u { cause := .monotone, lanes := some (violatedIn (nextLanes s u r x br tol.toNat dec)) }) ∧ Spoiled s s' u r.part := by
  obtain ⟨s', ends, spoiled⟩ := endPass_violates (onlyGang_refl s u) rfl (passOf_run nodup lanes _ _) r x bad
    (!r.lanes.any (fun y => y.2.searching))
  refine ⟨s', ?_, spoiled⟩
  simp only [exec_inv, execInv, run, nextPass_eq, nextLanes, ends, stopUnit]

end

/-! ### The obligation -/

/-- Settles O36: the first issue by its checks and the pass of the endpoints, a further one by whether a lane searches, and the
narrowing by the halves of a bracket. -/
theorem invWord : Obligations.InvWord := by
  intro x t br tol len dec i word leaves stays worked fails violated
  refine ⟨fun s u vals s1 popped h no_run hs is ws fetched words routine levels => ?_, fun s u r run nodup lanes => ?_,
    fun y et md ws ht on hlo hhi order => ?_⟩
  · have fits : RoutineFits x t len (ctxOf i u s vals) s hs is ws := by
      refine ⟨?_, words, ?_, ?_⟩
      · rw [ctx_t, ctx_pc h.isGang]
        exact fetched
      · unfold Ctx.inBodies
        rw [(ctx_own h.isGang).2, ctx_pc h.isGang]
        exact routine
      · rw [ctx_pc h.isGang]
        exact levels
    refine ⟨inv_passes_by no_run h fits, fun busy target inputs owed operand => ⟨fun good => ?_, fun bad => ?_⟩⟩
    · obtain ⟨t', g1, next, frame, stay, left, searches⟩ := inv_starts no_run h fits busy target inputs owed operand good
      exact ⟨t', g1, next, frame, stay, left.worked, left.others, left.lanes, searches⟩
    · obtain ⟨s', trap, spoiled⟩ := inv_violates no_run h fits busy target inputs owed operand bad
      exact ⟨s', trap, spoiled.rest, spoiled.teams, spoiled.slices, spoiled.lanes⟩
  · refine ⟨fun good => ?_, fun bad => ?_⟩
    · obtain on | off := Bool.eq_false_or_eq_true (r.lanes.any (fun y => y.2.searching))
      · obtain ⟨t', g1, next, frame, stay, left, searches⟩ := run_narrows run nodup lanes on good
        exact ⟨t', g1, next, frame, left.worked, left.others, left.lanes, fun _ => ⟨stay, searches⟩,
          fun off => Bool.noConfusion (on.symm.trans off)⟩
      · obtain ⟨t', g1, next, frame, past, left, searches⟩ := run_completes run nodup lanes off good
        exact ⟨t', g1, next, frame, left.worked, left.others, left.lanes, fun on => Bool.noConfusion (on.symm.trans off),
          fun _ => ⟨past, searches, lanes_completed off left⟩⟩
    · obtain ⟨s', trap, spoiled⟩ := run_violates run nodup lanes bad
      exact ⟨s', trap, spoiled.rest, spoiled.teams, spoiled.slices, spoiled.lanes⟩
  · refine ⟨fun near => ?_, narrow_halves ht on hlo hhi order⟩
    rw [narrow_stops on near]
    exact ⟨rfl, rfl, rfl, rfl, rfl⟩

end Sys2Proof.Machine
end

section
namespace Sys2Proof.Machine

open Sys2Proof Sys2Proof.Safety

/-! ### An engine's write to the team's window (R189, R218) -/

section
variable (s : State) (u off : Nat) (bs : List Byte)

theorem windowWrite_notes : CommandsNote s (s.windowWrite u off bs) :=
  commandsNote_trans (commandsNote_spadWrite s _ bs) (commandsNote_same rfl)

theorem windowWrite_team (v : Nat) : (s.windowWrite u off bs).team v = { s.team v with lines := ((s.windowWrite u off bs).team v).lines } := by
  unfold State.windowWrite State.clearLines
  by_cases hv : u = v
  · subst hv
    rw [State.team_modTeam_same]
    rfl
  · rw [State.team_modTeam_other _ _ hv]
    rfl

theorem windowWrite_key (v o : Nat) : ((s.windowWrite u off bs).team v).key o = (s.team v).key o := by
  rw [windowWrite_team]
  rfl

theorem windowWrite_stored : Stored s (s.windowWrite u off bs) ((s.team u).key off) bs :=
  stored_same (stored_spadWrite s _ bs) rfl rfl

end

/-- A bank is as long as before, or reaches to the position replaced. -/
theorem rowPut_length {α : Type} (d : α) : ∀ (l : List α) (i : Nat) (y : α), (rowPut d l i y).length = max l.length (i + 1)
  | [], 0, _ => rfl
  | [], i + 1, y => by
    rw [rowPut, List.length_cons, rowPut_length d [] i y, List.length_nil]
    omega
  | _ :: _, 0, _ => by
    rw [rowPut, List.length_cons, List.length_cons]
    omega
  | _ :: t, i + 1, y => by
    rw [rowPut, List.length_cons, List.length_cons, rowPut_length d t i y]
    omega

/-- A command with other notes of writes. -/
def Cmd.withNotes (c : Cmd) (tainted : Bool) (wrote : List Nat) : Cmd :=
  { c with skip := { c.skip with tainted := tainted }, wrote := wrote }
/-- What a change makes of a command, but for its notes, does not depend on its notes. -/
def IgnoresNotes (f : Cmd → Cmd) : Prop :=
  ∀ c tainted wrote, f (c.withNotes tainted wrote) = (f c).withNotes (f (c.withNotes tainted wrote)).skip.tainted (f (c.withNotes tainted wrote)).wrote

/-- Such a change keeps commands apart in their notes alone. -/
theorem commandsNote_modCmd {s t : State} (h : CommandsNote s t) (i : Nat) {f : Cmd → Cmd} (hf : IgnoresNotes f) :
    CommandsNote (s.modCmd i f) (t.modCmd i f) := by
  obtain ⟨length, cmds⟩ := h
  refine ⟨?_, fun j => ?_⟩
  · unfold State.modCmd rowMod
    dsimp only
    rw [rowPut_length, rowPut_length, length]
  · unfold State.cmd State.modCmd at *
    dsimp only at cmds ⊢
    by_cases hj : i = j
    · subst hj
      rw [rowGet_rowMod_same, rowGet_rowMod_same, cmds i]
      exact hf _ _ _
    · rw [rowGet_rowMod_other _ _ _ hj, rowGet_rowMod_other _ _ _ hj]
      exact cmds j

/-- Bytes written to a window by an engine, and its command changed. -/
theorem engineWrites_windowWrite (s : State) (u off : Nat) (bs : List Byte) (cmd : Nat) {f : Cmd → Cmd} (hf : IgnoresNotes f) :
    EngineWrites s ((s.windowWrite u off bs).modCmd cmd f) cmd f :=
  ⟨rfl, commandsNote_modCmd (windowWrite_notes s u off bs) cmd hf, windowWrite_team s u off bs⟩

/-! ### Where a chain has no chunk to perform (R297, R298, R392) -/

/-- The KINDs of R298 are those that a word of the chain stands for. -/
theorem chainWord_eq_none_iff (kind cmd : Nat) : chainWord kind cmd = none ↔ kind = 0 ∨ 8 ≤ kind := by
  unfold chainWord
  split
  case h_8 h1 h2 h3 h4 h5 h6 h7 =>
    refine ⟨fun _ => ?_, fun _ => rfl⟩
    by_contra h
    rcases (by omega : kind = 1 ∨ kind = 2 ∨ kind = 3 ∨ kind = 4 ∨ kind = 5 ∨ kind = 6 ∨ kind = 7) with e | e | e | e | e | e | e
    exacts [h1 e, h2 e, h3 e, h4 e, h5 e, h6 e, h7 e]
  all_goals exact ⟨nofun, by omega⟩

section
variable {s : State} {cmd : Nat} {pod : List PodAns} {b : List Byte}

theorem copyChunk_idle (h : s.cmdRuns cmd = false ∨ (s.cmd cmd).skipper = true) : exec (.copyChunk cmd pod) s = .next s := by
  rw [exec_copyChunk, execCopyChunk]
  dsimp only
  rw [if_pos]
  rcases h with h | h <;> simp [h]

variable (runs : s.cmdRuns cmd = true) (chain : (s.cmd cmd).skipper = false)
include runs chain

theorem copyChunk_runs : exec (.copyChunk cmd pod) s = .next
    (if (s.cmd cmd).chain.opened = true then
      (match (s.cmd cmd).chain.cur with
        | some b => s.chunk cmd pod (entryOf b)
        | none => s)
    else match s.entryBytes cmd with
      | none => s.chainFault cmd (if entryAt (s.team (s.cmd cmd).team) (s.cmd cmd).chain.entry then 6 else 1) (s.cmd cmd).chain.lastSync
      | some b => if (entryOf b).kind = 0 || 8 ≤ (entryOf b).kind then s.chainFault cmd 1 (s.cmd cmd).chain.lastSync else s) := by
  rw [exec_copyChunk, execCopyChunk]
  exact congrArg _ (if_neg (by rw [runs, chain]; nofun))

theorem copyChunk_chunk (opened : (s.cmd cmd).chain.opened = true) (cur : (s.cmd cmd).chain.cur = some b) :
    exec (.copyChunk cmd pod) s = .next (s.chunk cmd pod (entryOf b)) := by
  rw [copyChunk_runs runs chain, if_pos opened, cur]

variable (closed : (s.cmd cmd).chain.opened = false)
include closed

theorem copyChunk_unreadable (h : s.entryBytes cmd = none) : exec (.copyChunk cmd pod) s = .next
    (s.chainFault cmd (if entryAt (s.team (s.cmd cmd).team) (s.cmd cmd).chain.entry then 6 else 1) (s.cmd cmd).chain.lastSync) := by
  rw [copyChunk_runs runs chain, if_neg (ne_true_of_eq_false closed), h]

theorem copyChunk_no_kind (h : s.entryBytes cmd = some b) (kind : chainWord (entryOf b).kind cmd = none) :
    exec (.copyChunk cmd pod) s = .next (s.chainFault cmd 1 (s.cmd cmd).chain.lastSync) := by
  have kind := (chainWord_eq_none_iff _ _).mp kind
  rw [copyChunk_runs runs chain, if_neg (ne_true_of_eq_false closed), h]
  dsimp only
  rw [if_pos (by simpa using kind)]

theorem copyChunk_other_word {i : Instr} (h : s.entryBytes cmd = some b) (kind : chainWord (entryOf b).kind cmd = some i) :
    exec (.copyChunk cmd pod) s = .next s := by
  have kind : ¬ ((entryOf b).kind = 0 ∨ 8 ≤ (entryOf b).kind) := fun e => by
    rw [(chainWord_eq_none_iff _ cmd).mpr e] at kind
    nomatch kind
  rw [copyChunk_runs runs chain, if_neg (ne_true_of_eq_false closed), h]
  dsimp only
  rw [if_neg (by simpa using kind)]

end

/-! ### A chunk of COPYE or FILL, step by step (R299, R301, R392) -/

/-- The team of a command. -/
abbrev State.cmdTeam (s : State) (cmd : Nat) : Team := s.team (s.cmd cmd).team
/-- The chain of a command. -/
abbrev State.cmdChain (s : State) (cmd : Nat) : Chain := (s.cmd cmd).chain
/-- The bytes of the chunk that comes next. -/
abbrev Chain.chunkLen (c : Chain) (e : Entry) : Nat := min Config.chunkBytes (e.len - c.doneb)
/-- The destination of the chunk that comes next. -/
abbrev State.chunkDst (s : State) (cmd : Nat) (e : Entry) : Option Place :=
  s.resolve (s.cmdTeam cmd) e.dst e.dwin ((s.cmdChain cmd).strideOf (s.cmdChain cmd).dstride + (s.cmdChain cmd).doneb)
    ((s.cmdChain cmd).chunkLen e)
/-- What reading the chunk's source gives. -/
abbrev State.chunkSrc (s : State) (cmd : Nat) (e : Entry) (pod : List PodAns) : Option Io :=
  chunkSource s (s.cmdTeam cmd) (s.cmdChain cmd) e ((s.cmdChain cmd).chunkLen e) pod
/-- What writing the chunk gives, once its source is read. -/
def State.chunkWrite (s : State) (cmd : Nat) (e : Entry) (dst : Place) (rd : Io) : Io :=
  ({ rd with s := { rd.s with fresh := rd.s.fresh + (s.cmdChain cmd).chunkLen e } } : Io).write (s.cmdTeam cmd) dst
    (chunkBytes rd.s (s.cmdTeam cmd) (s.cmdChain cmd) e dst rd.bytes)
/-- The state once moving the chunk's bytes has given `x`, and a FAR page met is noted in the sync word (R301). -/
def State.chunkNoted (s : State) (cmd : Nat) (own : Option Nat) (x : Io) : State :=
  x.s.tierMiss (s.cmdTeam cmd).part x.far ((s.cmdChain cmd).word own)
/-- The end of a chunk that faults: its destination bytes are undefined (R301). -/
def State.chunkSpoilt (s : State) (cmd : Nat) (e : Entry) (own : Option Nat) (dst : Place) (code : Nat) (y : State) : State :=
  (y.scramble (s.cmdTeam cmd) dst ((s.cmdChain cmd).chunkLen e)).chainFault cmd code ((s.cmdChain cmd).word own)
/-- The count of a chunk that is written: its sync word is an engine read too (R392). -/
def State.chunkCounted (s : State) (cmd : Nat) (e : Entry) (own : Option Nat) (dst : Place) (y : State) : State :=
  match own with
  | some key => if y.spadBad key 16 then s.chunkSpoilt cmd e own dst 6 y else y.chunkDone cmd ((s.cmdChain cmd).chunkLen e) e own
  | none => y.chunkDone cmd ((s.cmdChain cmd).chunkLen e) e own

section
variable {s : State} {cmd code : Nat} {pod : List PodAns} {e : Entry} {own : Option Nat} {dst : Place} {rd : Io}

theorem chunk_sync_fault (sync : entrySync (s.cmdTeam cmd) (s.cmdChain cmd) e = .error code) :
    s.chunk cmd pod e = (s.spoilChunk cmd e).chainFault cmd code ((s.cmdChain cmd).word none) := by
  simp only [State.chunk, sync]

variable (sync : entrySync (s.cmdTeam cmd) (s.cmdChain cmd) e = .ok own)
include sync

theorem chunk_nowhere (place : s.chunkDst cmd e = none) : s.chunk cmd pod e = s.chainFault cmd 2 ((s.cmdChain cmd).word own) := by
  simp only [State.chunk, sync, place]

variable (place : s.chunkDst cmd e = some dst)
include place

theorem chunk_no_source (source : s.chunkSrc cmd e pod = none) : s.chunk cmd pod e = s.chunkSpoilt cmd e own dst 2 s := by
  simp only [State.chunk, sync, place, source]
  rfl

variable (source : s.chunkSrc cmd e pod = some rd)
include source

/-- A chunk with a source and a destination: read, written, counted, in this order. -/
theorem chunk_moves : s.chunk cmd pod e =
    if rd.held then s
    else match rd.code with
    | some code => s.chunkSpoilt cmd e own dst code (s.chunkNoted cmd own rd)
    | none =>
      if (s.chunkWrite cmd e dst rd).held then s
      else match (s.chunkWrite cmd e dst rd).code with
      | some code => s.chunkSpoilt cmd e own dst code (s.chunkNoted cmd own (s.chunkWrite cmd e dst rd))
      | none => s.chunkCounted cmd e own dst (s.chunkNoted cmd own (s.chunkWrite cmd e dst rd)) := by
  simp only [State.chunk, sync, place, source]
  rfl

theorem chunk_read_held (held : rd.held = true) : s.chunk cmd pod e = s := by
  rw [chunk_moves sync place source, if_pos held]

variable (free : rd.held = false)
include free

theorem chunk_read_fault (fault : rd.code = some code) :
    s.chunk cmd pod e = s.chunkSpoilt cmd e own dst code (s.chunkNoted cmd own rd) := by
  rw [chunk_moves sync place source, if_neg (ne_true_of_eq_false free), fault]

variable (sound : rd.code = none)
include sound

theorem chunk_write_held (held : (s.chunkWrite cmd e dst rd).held = true) : s.chunk cmd pod e = s := by
  rw [chunk_moves sync place source, if_neg (ne_true_of_eq_false free), sound]
  exact if_pos held

variable (written : (s.chunkWrite cmd e dst rd).held = false)
include written

theorem chunk_write_fault (fault : (s.chunkWrite cmd e dst rd).code = some code) :
    s.chunk cmd pod e = s.chunkSpoilt cmd e own dst code (s.chunkNoted cmd own (s.chunkWrite cmd e dst rd)) := by
  rw [chunk_moves sync place source, if_neg (ne_true_of_eq_false free), sound]
  dsimp only
  rw [if_neg (ne_true_of_eq_false written), fault]

variable (done : (s.chunkWrite cmd e dst rd).code = none)
include done

theorem chunk_counts : s.chunk cmd pod e = s.chunkCounted cmd e own dst (s.chunkNoted cmd own (s.chunkWrite cmd e dst rd)) := by
  rw [chunk_moves sync place source, if_neg (ne_true_of_eq_false free), sound]
  dsimp only
  rw [if_neg (ne_true_of_eq_false written), done]

theorem chunk_bad_sync {key : Nat} (names : own = some key)
    (bad : (s.chunkNoted cmd own (s.chunkWrite cmd e dst rd)).spadBad key 16 = true) :
    s.chunk cmd pod e = s.chunkSpoilt cmd e own dst 6 (s.chunkNoted cmd own (s.chunkWrite cmd e dst rd)) := by
  rw [chunk_counts sync place source free sound written done]
  subst names
  exact if_pos bad

theorem chunk_completes (good : ∀ key, own = some key → (s.chunkNoted cmd own (s.chunkWrite cmd e dst rd)).spadBad key 16 = false) :
    s.chunk cmd pod e = (s.chunkNoted cmd own (s.chunkWrite cmd e dst rd)).chunkDone cmd ((s.cmdChain cmd).chunkLen e) e own := by
  rw [chunk_counts sync place source free sound written done]
  cases own with
  | none => rfl
  | some key => exact if_neg (ne_true_of_eq_false (good key rfl))

end

/-! ### A chunk between places of the scratchpad (R299) -/

/-- Bytes whose places share nothing with the source's range are written as they are. -/
theorem overlapped_apart {k a m b fresh : Nat} {bs : List Byte} (apart : a + m ≤ b ∨ b + bs.length ≤ a) :
    overlapped [(k, a, m)] [(k, b, bs.length)] bs fresh = bs := by
  unfold overlapped
  dsimp only [List.foldr_cons, List.foldr_nil]
  refine Eq.trans (List.map_congr_left fun x hx => ?_) (List.map_fst_zip ?_)
  · have hp := (List.of_mem_zip (List.of_mem_zip hx).2).2
    obtain ⟨byte, i, pl⟩ := x
    rcases List.mem_append.mp hp with hp | hp
    · obtain ⟨j, hj, rfl⟩ := List.mem_map.mp hp
      have hj := mem_upTo.mp hj
      dsimp only
      rw [if_neg]
      simp only [List.any_cons, List.any_nil, Bool.or_false, Bool.and_eq_true, decide_eq_true_eq]
      omega
    · rw [(List.mem_replicate.mp hp).2]
  · simp only [List.length_zip, upTo_length, List.length_append, List.length_map, List.length_replicate]
    omega

section
variable {s : State} {t : Team} {c : Chain} {e : Entry} {dst : Place} {bs : List Byte} (tame : c.wild = false)
include tame

theorem chunkBytes_fill (kind : e.kind = 2) : chunkBytes s t c e dst bs = bs := by
  unfold chunkBytes
  rw [if_neg (ne_true_of_eq_false tame), if_pos kind]

theorem chunkBytes_apart {core off sc so : Nat} (kind : e.kind ≠ 2) (src : s.resolve t e.src e.swin (c.strideOf c.sstride) e.len = some (.spad sc so))
    (apart : spadKey sc so + e.len ≤ spadKey core off ∨ spadKey core off + bs.length ≤ spadKey sc so) :
    chunkBytes s t c e (.spad core off) bs = bs := by
  unfold chunkBytes
  rw [if_neg (ne_true_of_eq_false tame), if_neg kind, src]
  exact overlapped_apart apart

end

/-- Reading from the scratchpad where nothing is uncorrectable or undefined. -/
theorem read_spad {x : Io} {t : Team} {core off n : Nat} (good : x.s.spadBad (spadKey core off) n = false)
    (seen : x.s.veils (spadKey core off) n = false) :
    x.read t (.spad core off) n = { x with bytes := memRead x.s.spad (spadKey core off) n } := by
  unfold Io.read State.spadSeen State.seenBytes State.spadBytes
  simp only [good, seen, Bool.false_eq_true, if_false]

/-- A chunk's source is FILL's pattern, or is a sound place of the scratchpad of an entry whose whole source the chunk's destination does not
overlap: `bs` are its bytes. -/
def PlainSource (s : State) (t : Team) (c : Chain) (e : Entry) (core off n : Nat) (bs : List Byte) : Prop :=
  (e.kind = 2 ∧ bs = (upTo n).map (fun j => e.src.extractLsb' (8 * ((c.doneb + j) % 8)) 8)) ∨
  (e.kind = 1 ∧ ∃ sc so sc' so', s.resolve t e.src e.swin (c.strideOf c.sstride + c.doneb) n = some (.spad sc so) ∧
    s.resolve t e.src e.swin (c.strideOf c.sstride) e.len = some (.spad sc' so') ∧
    (spadKey sc' so' + e.len ≤ spadKey core off ∨ spadKey core off + n ≤ spadKey sc' so') ∧
    s.spadBad (spadKey sc so) n = false ∧ s.veils (spadKey sc so) n = false ∧ bs = memRead s.spad (spadKey sc so) n)

section
variable {s : State} {t : Team} {c : Chain} {e : Entry} {core off n : Nat} {bs : List Byte} (h : PlainSource s t c e core off n bs)
include h

theorem PlainSource.length : bs.length = n := by
  rcases h with ⟨-, rfl⟩ | ⟨-, _, _, _, _, -, -, -, -, -, rfl⟩
  · rw [List.length_map, upTo_length]
  · exact memRead_length _ _ _

theorem PlainSource.source (pod : List PodAns) :
    chunkSource s t c e n pod = some { s := s, before := s, answers := pod, bytes := bs } := by
  unfold chunkSource
  rcases h with ⟨kind, rfl⟩ | ⟨kind, sc, so, _, _, src, -, -, good, seen, rfl⟩
  · rw [if_pos kind]
    simp only [BitVec.extractLsb', Nat.shiftRight_eq_div_pow]
  · rw [if_neg (by omega), src, Option.map_some, read_spad good seen]

theorem PlainSource.bytes (tame : c.wild = false) : chunkBytes s t c e (.spad core off) bs = bs := by
  have length := h.length
  rcases h with ⟨kind, -⟩ | ⟨kind, _, _, _, _, -, src, apart, -⟩
  · exact chunkBytes_fill tame kind
  · exact chunkBytes_apart tame (by omega) src (by rw [length]; exact apart)

end

/-- An engine's write of a chunk to a place of the scratchpad, counted in BYTES (R359). -/
def State.chunkStored (s : State) (p core off : Nat) (bs : List Byte) : State :=
  (({ s with fresh := s.fresh + bs.length } : State).engineSpadWrite p core off bs).meter p 2 bs.length

section
variable (s : State) (p core off : Nat) (bs : List Byte)

theorem chunkStored_rest : s.chunkStored p core off bs = { s.meter p 2 bs.length with
    spad := (s.chunkStored p core off bs).spad, bad := (s.chunkStored p core off bs).bad,
    teams := (s.chunkStored p core off bs).teams, fresh := (s.chunkStored p core off bs).fresh,
    cmds := (s.chunkStored p core off bs).cmds } := by
  unfold State.chunkStored
  have rest := engineSpadWrite_rest (s := { s with fresh := s.fresh + bs.length }) (p := p) (core := core) (off := off) (bs := bs)
  generalize State.engineSpadWrite _ p core off bs = y at rest
  rw [rest]
  rfl

theorem chunkStored_notes : CommandsNote s (s.chunkStored p core off bs) :=
  commandsNote_trans (b := { s with fresh := s.fresh + bs.length }) (commandsNote_same rfl)
    (commandsNote_trans engineSpadWrite_notes (commandsNote_same rfl))

theorem chunkStored_team (v : Nat) :
    (s.chunkStored p core off bs).team v = { s.team v with lines := ((s.chunkStored p core off bs).team v).lines } :=
  engineSpadWrite_team (s := { s with fresh := s.fresh + bs.length }) v

theorem chunkStored_stored : Stored s (s.chunkStored p core off bs) (spadKey core off) bs := by
  obtain ⟨stored, others, bad⟩ := engineSpadWrite_stored (s := { s with fresh := s.fresh + bs.length }) (p := p) (core := core) (off := off) (bs := bs)
  exact ⟨stored, others, bad⟩

end

/-- The chunk of an entry with no sync word, from a plain source to a place of the scratchpad. -/
theorem chunk_stores {s : State} {cmd core off : Nat} {pod : List PodAns} {e : Entry} {bs : List Byte} (tame : (s.cmdChain cmd).wild = false)
    (sync : entrySync (s.cmdTeam cmd) (s.cmdChain cmd) e = .ok none) (place : s.chunkDst cmd e = some (.spad core off))
    (plain : PlainSource s (s.cmdTeam cmd) (s.cmdChain cmd) e core off ((s.cmdChain cmd).chunkLen e) bs) :
    s.chunk cmd pod e = (s.chunkStored (s.cmdTeam cmd).part core off bs).chunkDone cmd ((s.cmdChain cmd).chunkLen e) e none := by
  have source := plain.source pod
  have noted : s.chunkNoted cmd none (s.chunkWrite cmd e (.spad core off) { s := s, before := s, answers := pod, bytes := bs }) =
      s.chunkStored (s.cmdTeam cmd).part core off bs := by
    unfold State.chunkWrite
    dsimp only
    rw [plain.bytes tame, ← plain.length]
    unfold State.chunkNoted State.tierMiss
    split <;> rfl
  rw [chunk_completes sync place source rfl rfl rfl rfl nofun, noted]

/-! ### What a chunk leaves in the head (R299) -/

theorem chunkDone_within {s : State} {cmd n : Nat} {e : Entry} (h : (s.cmdChain cmd).doneb + n < e.len) : s.chunkDone cmd n e none =
    (s.windowSet (s.cmd cmd).team ((s.cmd cmd).addr + 4) 4 ((s.cmdChain cmd).doneb + n)).modCmd cmd
      (fun x => { x with chain := { x.chain with doneb := (s.cmdChain cmd).doneb + n } }) := by
  unfold State.chunkDone
  exact if_pos h

theorem chunkDone_last {s : State} {cmd n : Nat} {e : Entry} (h : e.len ≤ (s.cmdChain cmd).doneb + n) :
    s.chunkDone cmd n e none = s.nextEntry cmd ((s.cmdChain cmd).entry + 32) := by
  unfold State.chunkDone
  exact if_neg (Nat.not_lt.mpr h)

/-! ### SKIPPER_CHUNK (R183, R189, R190, R392) -/

/-- A command of Skipper that may perform a chunk. -/
structure SkipDue (s : State) (cmd : Nat) : Prop where
  runs : s.cmdRuns cmd = true
  skipper : (s.cmd cmd).skipper = true
  turn : s.skipTurn cmd = true

/-- The block of a command of Skipper. -/
abbrev State.skipBlock (s : State) (cmd : Nat) : Block := blockFields (s.cmd cmd).skip.block
/-- The elements of the chunk that comes next. -/
abbrev State.skipLen (s : State) (cmd : Nat) : Nat :=
  min (65536 / (s.skipBlock cmd).width) ((s.skipBlock cmd).count - (s.cmd cmd).skip.cursor)
/-- The address of its first element. -/
abbrev State.skipAt (s : State) (cmd : Nat) : Nat := (s.skipBlock cmd).source.toNat + (s.cmd cmd).skip.cursor * (s.skipBlock cmd).width
/-- What reading its elements finds. -/
abbrev State.skipRead (s : State) (cmd : Nat) : Scanned :=
  s.scanFrom (s.cmdTeam cmd).part 3 (s.skipAt cmd) (s.skipLen cmd * (s.skipBlock cmd).width)
/-- The command once the elements are scanned. -/
def State.skipScanned (s : State) (cmd : Nat) (bs : List Byte) : State :=
  (s.meter (s.cmdTeam cmd).part 3 ((s.skipBlock cmd).width * s.skipLen cmd)).modCmd cmd (fun x =>
    { x with skip := { (s.skipBlock cmd).scan (s.cmd cmd).skip bs (s.skipLen cmd) with
        cursor := ((s.skipBlock cmd).scan (s.cmd cmd).skip bs (s.skipLen cmd)).cursor + s.skipLen cmd, tainted := x.skip.tainted } })
/-- The chunk's result in the window, where there are elements. -/
def State.skipWritten (s : State) (cmd : Nat) (bs : List Byte) : State :=
  if (s.skipBlock cmd).count = 0 then s.skipScanned cmd bs else (s.skipScanned cmd bs).writeResultState cmd

section
variable {s : State} {cmd f : Nat} {bs : List Byte}

theorem skipperChunk_idle (h : s.cmdRuns cmd = false ∨ (s.cmd cmd).skipper = false ∨ s.skipTurn cmd = false) :
    exec (.skipperChunk cmd) s = .next s := by
  rw [exec_skipperChunk, execSkipperChunk]
  dsimp only
  rw [if_pos]
  rcases h with h | h | h <;> simp [h]

variable (due : SkipDue s cmd)
include due

theorem SkipDue.not_idle : ¬ (!s.cmdRuns cmd || !(s.cmd cmd).skipper || !s.skipTurn cmd) = true := by
  rw [due.runs, due.skipper, due.turn]
  nofun

theorem skipperChunk_bad_block (fault : (s.skipBlock cmd).fault = some f) : exec (.skipperChunk cmd) s = .next (s.skipEnd cmd (some f)) := by
  rw [exec_skipperChunk, execSkipperChunk]
  dsimp only
  rw [if_neg due.not_idle, fault]

variable (good : (s.skipBlock cmd).fault = none)
include good

/-- With a good block, the chunk turns on what reading its elements finds. -/
theorem skipperChunk_reads : exec (.skipperChunk cmd) s = .next
    (match s.skipRead cmd with
    | .held => s
    | .fault f far =>
      (match far with
        | some x => s.farMiss (s.cmdTeam cmd).part 3 (s.cmdTeam cmd).core x
        | none => if f = 3 then s.reportMalformed (s.cmdTeam cmd).part (s.skipAt cmd) (s.skipLen cmd * (s.skipBlock cmd).width) else s).skipEnd
          cmd (some f)
    | .bytes bs =>
      if decide ((s.skipBlock cmd).count ≤ (s.cmd cmd).skip.cursor + s.skipLen cmd) && s.spadBad ((s.cmdTeam cmd).key (s.skipBlock cmd).sync) 16 then
        s.skipEnd cmd (some 6)
      else if decide ((s.skipBlock cmd).count ≤ (s.cmd cmd).skip.cursor + s.skipLen cmd) then (s.skipWritten cmd bs).skipEnd cmd none
      else s.skipWritten cmd bs) := by
  rw [exec_skipperChunk, execSkipperChunk]
  dsimp only
  rw [if_neg due.not_idle, good]
  rfl

theorem skipperChunk_held (read : s.skipRead cmd = .held) : exec (.skipperChunk cmd) s = .next s := by
  rw [skipperChunk_reads due good, read]

theorem skipperChunk_far {x : Span} (read : s.skipRead cmd = .fault f (some x)) : exec (.skipperChunk cmd) s =
    .next ((s.farMiss (s.cmdTeam cmd).part 3 (s.cmdTeam cmd).core x).skipEnd cmd (some f)) := by
  rw [skipperChunk_reads due good, read]

theorem skipperChunk_fault (read : s.skipRead cmd = .fault f none) : exec (.skipperChunk cmd) s = .next
    ((if f = 3 then s.reportMalformed (s.cmdTeam cmd).part (s.skipAt cmd) (s.skipLen cmd * (s.skipBlock cmd).width) else s).skipEnd
      cmd (some f)) := by
  rw [skipperChunk_reads due good, read]

variable (read : s.skipRead cmd = .bytes bs)
include read

theorem skipperChunk_bad_sync (last : (s.skipBlock cmd).count ≤ (s.cmd cmd).skip.cursor + s.skipLen cmd)
    (bad : s.spadBad ((s.cmdTeam cmd).key (s.skipBlock cmd).sync) 16 = true) : exec (.skipperChunk cmd) s = .next (s.skipEnd cmd (some 6)) := by
  rw [skipperChunk_reads due good, read]
  dsimp only
  rw [bad, Bool.and_true, if_pos (decide_eq_true last)]

theorem skipperChunk_scans (sound : ¬ ((s.skipBlock cmd).count ≤ (s.cmd cmd).skip.cursor + s.skipLen cmd ∧
      s.spadBad ((s.cmdTeam cmd).key (s.skipBlock cmd).sync) 16 = true)) : exec (.skipperChunk cmd) s = .next
    (if (s.skipBlock cmd).count ≤ (s.cmd cmd).skip.cursor + s.skipLen cmd then (s.skipWritten cmd bs).skipEnd cmd none
      else s.skipWritten cmd bs) := by
  rw [skipperChunk_reads due good, read]
  dsimp only
  rw [if_neg (by rw [Bool.and_eq_true, decide_eq_true_eq]; exact sound)]
  simp only [decide_eq_true_eq]

end

/-! ### The running result (R185, R187) -/

/-- An element that is a NaN. -/
def Block.nan (b : Block) (v : Nat) : Bool := b.isFloat && (widen b.ty false v).isNan
/-- An element that qualifies. -/
def Block.fits (b : Block) (v : Nat) : Bool := !b.nan v && b.qualifies v (b.widened v)

section
variable {b : Block} {k : SkipCmd} {idx v : Nat}

theorem step_nan (h : b.nan v = true) : b.step k idx v = { k with nans := k.nans + 1 } := if_pos h

theorem fits_iff : b.fits v = true ↔ b.nan v = false ∧ b.qualifies v (b.widened v) = true := by
  rw [Block.fits, Bool.and_eq_true, Bool.not_eq_true']

theorem step_unfit (number : b.nan v = false) (h : b.fits v = false) : b.step k idx v = k := by
  have unfit : b.qualifies v (b.widened v) = false :=
    Bool.eq_false_iff.mpr fun fit => ne_true_of_eq_false h (fits_iff.mpr ⟨number, fit⟩)
  have step : b.step k idx v = _ := if_neg (ne_true_of_eq_false number)
  dsimp only at step
  rw [step, unfit]
  rfl

/-- An element that qualifies is counted, and changes the lists alone. -/
theorem step_fits (h : b.fits v = true) : b.step k idx v =
    { k with qualified := k.qualified + 1, recs := (b.step k idx v).recs, dropped := (b.step k idx v).dropped } := by
  obtain ⟨number, fit⟩ := fits_iff.mp h
  have step : b.step k idx v = _ := if_neg (ne_true_of_eq_false number)
  dsimp only at step
  rw [fit, if_neg (by nofun)] at step
  rw [step]
  split
  · rfl
  · split <;> rfl

/-- In filter mode the records are taken as far as KCAP goes. -/
theorem step_fits_recs (h : b.fits v = true) (filter : b.mode = 0) (room : k.recs.length ≤ b.kcap) :
    (b.step k idx v).recs = (k.recs ++ [(idx, b.widened v)]).take b.kcap := by
  obtain ⟨number, fit⟩ := fits_iff.mp h
  have step : b.step k idx v = _ := if_neg (ne_true_of_eq_false number)
  dsimp only at step
  rw [fit, if_neg (by nofun), if_neg (not_not.mpr filter)] at step
  rw [step]
  by_cases more : k.recs.length < b.kcap
  · rw [if_pos more, List.take_of_length_le (by rw [List.length_append, List.length_singleton]; exact more)]
  · rw [if_neg more, List.take_left' (by omega)]

end

/-- The elements of a chunk's bytes. -/
def Block.element (b : Block) (bs : List Byte) (i : Nat) : Nat := field bs (b.width * i) b.width

/-- What scanning `n` elements leaves: NaNs and qualifying elements counted, and in filter mode the records. -/
structure ScanLeaves (b : Block) (k : SkipCmd) (bs : List Byte) (n : Nat) (k' : SkipCmd) : Prop where
  nans : k'.nans = k.nans + ((upTo n).filter (fun i => b.nan (b.element bs i))).length
  qualified : k'.qualified = k.qualified + ((upTo n).filter (fun i => b.fits (b.element bs i))).length
  cursor : k'.cursor = k.cursor
  block : k'.block = k.block
  recs : b.mode = 0 → k.recs.length ≤ b.kcap → k'.recs = (k.recs ++ ((upTo n).filter (fun i => b.fits (b.element bs i))).map
    (fun i => (k.cursor + i, b.widened (b.element bs i)))).take b.kcap

section
variable {p : Nat → Bool} {b : Block} {bs : List Byte} {n : Nat}

/-- Of the elements up to a last one that has the property. -/
theorem filter_elements_keep (h : p (b.element bs n) = true) :
    (upTo (n + 1)).filter (fun i => p (b.element bs i)) = (upTo n).filter (fun i => p (b.element bs i)) ++ [n] := by
  rw [upTo, List.filter_append, List.filter_singleton, h]
  rfl

/-- Of the elements up to a last one that has not. -/
theorem filter_elements_drop (h : p (b.element bs n) = false) :
    (upTo (n + 1)).filter (fun i => p (b.element bs i)) = (upTo n).filter (fun i => p (b.element bs i)) := by
  rw [upTo, List.filter_append, List.filter_singleton, h]
  exact List.append_nil _

end

/-- Taking a part of a list cut off first is taking it of the whole. -/
theorem take_take_append {α : Type} (l l' : List α) (n : Nat) : (l.take n ++ l').take n = (l ++ l').take n := by
  rw [List.take_append, List.take_append, List.take_take, Nat.min_self, List.length_take]
  congr 2
  omega

theorem scan_succ (b : Block) (k : SkipCmd) (bs : List Byte) (n : Nat) :
    b.scan k bs (n + 1) = b.step (b.scan k bs n) ((b.scan k bs n).cursor + n) (b.element bs n) := by
  unfold Block.scan
  rw [upTo, List.foldl_append]
  rfl

section
variable {b : Block} {k k' : SkipCmd} {bs : List Byte} {n : Nat} (h : ScanLeaves b k bs n k')
include h

theorem ScanLeaves.next_nan (nan : b.nan (b.element bs n) = true) :
    ScanLeaves b k bs (n + 1) (b.step k' (k'.cursor + n) (b.element bs n)) := by
  obtain ⟨nans, qualified, cursor, block, recs⟩ := h
  have unfit : b.fits (b.element bs n) = false := by
    rw [Block.fits, nan]
    rfl
  rw [step_nan nan]
  refine ⟨?_, ?_, cursor, block, fun filter room => ?_⟩
  · rw [filter_elements_keep nan, List.length_append, nans]
    rfl
  · rw [filter_elements_drop unfit]
    exact qualified
  · rw [filter_elements_drop unfit]
    exact recs filter room

theorem ScanLeaves.next_unfit (number : b.nan (b.element bs n) = false) (unfit : b.fits (b.element bs n) = false) :
    ScanLeaves b k bs (n + 1) (b.step k' (k'.cursor + n) (b.element bs n)) := by
  obtain ⟨nans, qualified, cursor, block, recs⟩ := h
  rw [step_unfit number unfit]
  refine ⟨?_, ?_, cursor, block, fun filter room => ?_⟩
  · rw [filter_elements_drop number, nans]
  · rw [filter_elements_drop unfit, qualified]
  · rw [filter_elements_drop unfit, recs filter room]

theorem ScanLeaves.next_fits (fits : b.fits (b.element bs n) = true) :
    ScanLeaves b k bs (n + 1) (b.step k' (k'.cursor + n) (b.element bs n)) := by
  obtain ⟨nans, qualified, cursor, block, recs⟩ := h
  have counted := step_fits (k := k') (idx := k'.cursor + n) fits
  refine ⟨?_, ?_, ?_, ?_, fun filter room => ?_⟩
  · rw [counted, filter_elements_drop (fits_iff.mp fits).1]
    exact nans
  · rw [counted, filter_elements_keep fits, List.length_append, ← Nat.add_assoc, ← qualified]
    rfl
  · rw [counted]
    exact cursor
  · rw [counted]
    exact block
  · have recs := recs filter room
    rw [step_fits_recs fits filter (by rw [recs]; exact List.length_take_le _ _), recs, take_take_append, cursor, filter_elements_keep fits,
      List.map_append, List.append_assoc]
    rfl

end

theorem scan_leaves (b : Block) (k : SkipCmd) (bs : List Byte) : ∀ n, ScanLeaves b k bs n (b.scan k bs n)
  | 0 => ⟨rfl, rfl, rfl, rfl, fun _ room => by
      show k.recs = (k.recs ++ []).take b.kcap
      rw [List.append_nil, List.take_of_length_le room]⟩
  | n + 1 => by
    have before := scan_leaves b k bs n
    rw [scan_succ]
    cases nan : b.nan (b.element bs n) with
    | true => exact before.next_nan nan
    | false =>
      cases fits : b.fits (b.element bs n) with
      | false => exact before.next_unfit nan fits
      | true => exact before.next_fits fits

/-! ### The status area (R187, R189) -/

/-- Windows stay where they are, and the scratchpad keeps its canonical form. -/
def WindowsStay (s x : State) : Prop :=
  (∀ v o, (x.team v).key o = (s.team v).key o) ∧ (Memory.wf s.spad = true → Memory.wf x.spad = true)

theorem windowsStay_unless {s x : State} (h : WindowsStay s x) (c : Prop) [Decidable c] (u off : Nat) (bs : List Byte) :
    WindowsStay s (if c then x else x.windowWrite u off bs) := by
  obtain ⟨keys, wf⟩ := h
  split
  · exact ⟨keys, wf⟩
  · exact ⟨fun v o => (windowWrite_key x u off bs v o).trans (keys v o), fun h => memWrite_wf bs _ (wf h)⟩

theorem memRead_windowWrite {s x : State} (h : WindowsStay s x) (wf : Memory.wf s.spad = true) (u off : Nat) (bs : List Byte) :
    memRead (x.windowWrite u off bs).spad ((s.team u).key off) bs.length = bs := by
  obtain ⟨keys, keep⟩ := h
  rw [← keys]
  exact memRead_memWrite_same bs _ (keep wf)

theorem statusBytes_length (k : SkipCmd) : k.statusBytes.length = 32 := by
  simp only [SkipCmd.statusBytes, List.length_append, leBytes_length]

/-- The status area says what the running result is. -/
theorem memRead_writeResultState {s : State} {cmd : Nat} (clean : (s.cmd cmd).skip.tainted = false) (wf : Memory.wf s.spad = true) :
    memRead (s.writeResultState cmd).spad ((s.cmdTeam cmd).key ((s.cmd cmd).addr + 64)) 32 = (s.cmd cmd).skip.statusBytes := by
  unfold State.writeResultState State.ownResult State.modCmd
  dsimp only
  rw [if_neg (ne_true_of_eq_false clean)]
  have read := memRead_windowWrite (windowsStay_unless (windowsStay_unless ⟨fun _ _ => rfl, id⟩ ((s.cmd cmd).skip.recs.isEmpty = true)
    (s.cmd cmd).team (s.skipBlock cmd).dest (s.cmd cmd).skip.destBytes) ((s.cmd cmd).skip.dropped.isEmpty = true)
    (s.cmd cmd).team (s.skipBlock cmd).ovf (s.cmd cmd).skip.ovfBytes) wf (s.cmd cmd).team ((s.cmd cmd).addr + 64) (s.cmd cmd).skip.statusBytes
  rw [statusBytes_length] at read
  exact read

/-! ### SKIPPER_STOP (R194) -/

theorem skipperStop_stops {s : State} {cmd : Nat} (skipper : (s.cmd cmd).skipper = true) (asked : (s.cmd cmd).stage = .stopping) :
    exec (.skipperStop cmd) s = .next (s.modCmd cmd (fun c => { c with stage := .stopped })) := by
  rw [exec_skipperStop, execSkipperStop, skipper, Bool.and_true, if_pos (decide_eq_true asked)]

theorem skipperStop_goes_on {s : State} {cmd : Nat} (skipper : (s.cmd cmd).skipper = true) (unasked : (s.cmd cmd).stage ≠ .stopping) :
    exec (.skipperStop cmd) s = .next s := by
  rw [exec_skipperStop, execSkipperStop, skipper, Bool.and_true, if_neg (by rw [decide_eq_true_eq]; exact unasked)]

/-! ### The obligation -/

/-- Settles O52: the chunk of a chain by what stops it, in the order of its steps; that of Skipper by what reading its elements finds, its
running result by induction on the elements scanned. -/
theorem engineChunks : Obligations.EngineChunks := by
  refine ⟨?_, ?_, ?_, ?_, ?_, ?_, ?_, ?_⟩
  · intro cmd pod s c
    exact ⟨copyChunk_idle, fun runs chain closed => ⟨copyChunk_unreadable runs chain closed, fun b => copyChunk_no_kind runs chain closed,
      fun b i => copyChunk_other_word runs chain closed⟩⟩
  · intro cmd pod s b own c t ch e n word to_ runs chain opened cur
    rw [copyChunk_chunk runs chain opened cur]
    refine ⟨fun code sync => congrArg _ (chunk_sync_fault sync), fun sync => ⟨fun place => congrArg _ (chunk_nowhere sync place),
      fun dst place => ⟨fun source => congrArg _ (chunk_no_source sync place source), fun rd source =>
        ⟨fun held => congrArg _ (chunk_read_held sync place source held), fun free =>
          ⟨fun code fault => congrArg _ (chunk_read_fault sync place source free fault), fun sound => ?_⟩⟩⟩⟩⟩
    refine ⟨fun held => congrArg _ (chunk_write_held sync place source free sound held), fun written =>
      ⟨fun code fault => congrArg _ (chunk_write_fault sync place source free sound written fault), fun done =>
        ⟨fun key names bad => congrArg _ (chunk_bad_sync sync place source free sound written done names bad),
          fun good => congrArg _ (chunk_completes sync place source free sound written done good)⟩⟩⟩
  · intro cmd pod s b core off bs c t ch e n runs chain opened cur tame sync place source
    have plain : PlainSource s t ch e core off n bs := source
    refine ⟨s.chunkStored t.part core off bs, ?_, plain.length ▸ chunkStored_rest s t.part core off bs, chunkStored_notes s t.part core off bs,
      chunkStored_team s t.part core off bs, chunkStored_stored s t.part core off bs⟩
    rw [copyChunk_chunk runs chain opened cur]
    exact congrArg _ (chunk_stores tame sync place plain)
  · intro cmd n e s c d
    refine ⟨fun more => ⟨_, chunkDone_within more, ?_, ?_⟩, chunkDone_last⟩
    · exact engineWrites_windowWrite s _ _ _ cmd (fun _ _ _ => rfl)
    · exact stored_same (windowWrite_stored s _ _ _) rfl rfl
  · intro cmd s c t b w n va
    refine ⟨skipperChunk_idle, fun runs skipper turn => ?_⟩
    have due : SkipDue s cmd := ⟨runs, skipper, turn⟩
    exact ⟨fun f => skipperChunk_bad_block due, fun good => ⟨skipperChunk_held due good, fun f far => skipperChunk_far due good,
      fun f => skipperChunk_fault due good, fun bs read => ⟨fun ⟨last, bad⟩ => skipperChunk_bad_sync due good read last bad,
        skipperChunk_scans due good read⟩⟩⟩
  · intro b k bs n el nan fits k'
    obtain ⟨nans, qualified, cursor, block, recs⟩ := scan_leaves b k bs n
    exact ⟨nans, qualified, cursor, block, recs⟩
  · intro cmd s c t
    exact memRead_writeResultState
  · intro cmd s skipper
    exact ⟨skipperStop_stops skipper, skipperStop_goes_on skipper⟩

end Sys2Proof.Machine
end

section
namespace Sys2Proof.Machine

open Sys2Proof Sys2Proof.Safety

/-! ### The gang that comes first by a number (R211) -/

/-- The gangs that have a number, each with its number. -/
def State.numbered (s : State) (gs : List (Nat × Nat)) (f : Gang → Option Nat) : List ((Nat × Nat) × Nat) :=
  gs.filterMap (fun x => (f (s.gang x.1 x.2)).map (x, ·))

section
variable {s : State} {gs : List (Nat × Nat)} {f : Gang → Option Nat} {x : Nat × Nat} {n : Nat}

theorem mem_numbered : (x, n) ∈ s.numbered gs f ↔ x ∈ gs ∧ f (s.gang x.1 x.2) = some n := by
  simp only [State.numbered, List.mem_filterMap, Option.map_eq_some_iff, Prod.mk.injEq]
  constructor
  · rintro ⟨y, hy, m, hm, rfl, rfl⟩
    exact ⟨hy, hm⟩
  · rintro ⟨hx, hn⟩
    exact ⟨x, hx, n, hn, rfl, rfl⟩

theorem leastGang_eq_argmin (s : State) (gs : List (Nat × Nat)) (f : Gang → Option Nat) :
    s.leastGang gs f = ((s.numbered gs f).argmin (·.2)).map (·.1) := by
  unfold State.leastGang State.numbered List.argmin
  rw [List.foldl_filterMap]
  congr 2
  funext best y
  cases f (s.gang y.1 y.2) <;> cases best <;> rfl

theorem leastGang_eq_some (hx : x ∈ gs) (hn : f (s.gang x.1 x.2) = some n)
    (first : ∀ y ∈ gs, ∀ m, f (s.gang y.1 y.2) = some m → y = x ∨ n < m) : s.leastGang gs f = some x := by
  rw [leastGang_eq_argmin]
  have mem := mem_numbered.mpr ⟨hx, hn⟩
  cases least : (s.numbered gs f).argmin (·.2) with
  | none => exact absurd (List.argmin_eq_none.mp least) (List.ne_nil_of_mem mem)
  | some z =>
    obtain ⟨y, m⟩ := z
    obtain ⟨hy, hm⟩ := mem_numbered.mp (List.argmin_mem least)
    have le : m ≤ n := List.le_of_mem_argmin mem least
    exact congrArg some ((first y hy m hm).resolve_right (Nat.not_lt.mpr le))

theorem leastGang_eq_none (h : ∀ y ∈ gs, f (s.gang y.1 y.2) = none) : s.leastGang gs f = none := by
  have empty : s.numbered gs f = [] := List.filterMap_eq_nil_iff.mpr fun y hy => by rw [h y hy]; rfl
  rw [leastGang_eq_argmin, empty]
  rfl

theorem activeRoom_iff : s.activeRoom gs = true ↔ ¬ 8 ≤ (gs.filter (fun y => (s.gang y.1 y.2).active.isSome)).length := by
  rw [State.activeRoom, decide_eq_true_eq, Nat.not_le]
  rfl

end

/-! ### PROMOTION and ROTATION (R211) -/

section
variable {core quad : Nat} {s : State} {x : Nat × Nat} (next : s.leastGang (s.quadGangs core quad) (·.ready) = some x)
include next

theorem promotion_of_room (room : s.activeRoom (s.quadGangs core quad) = true) : exec (.promotion core quad) s = .next (s.promote x) := by
  rw [exec_promotion, execPromotion]
  dsimp only
  rw [next]
  dsimp only
  rw [if_pos room]

theorem rotation_of_full {z : Nat × Nat} (full : ¬ s.activeRoom (s.quadGangs core quad) = true)
    (last : s.leastGang (s.quadGangs core quad) (·.active) = some z) : exec (.rotation core quad) s =
      .next ((({ s with order := s.order + 1 } : State).modGang z.1 z.2 (fun g => { g with active := none, ready := some s.order })).promote x) := by
  rw [exec_rotation, execRotation]
  dsimp only
  rw [next, last]
  dsimp only
  rw [if_neg full]

end

theorem nothing_ready {core quad : Nat} {s : State} (none_ready : s.leastGang (s.quadGangs core quad) (·.ready) = none) :
    exec (.promotion core quad) s = .next s ∧ exec (.rotation core quad) s = .next s := by
  constructor
  · rw [exec_promotion, execPromotion]
    dsimp only
    rw [none_ready]
  · rw [exec_rotation, execRotation]
    dsimp only
    rw [none_ready]

/-! ### The watchdog (R247) -/

/-- The limit of a unit's waits. -/
def State.waitLimit (s : State) (u g : Nat) : Nat := if g = 16 then (s.team u).side.watchdog else (s.gang u g).watchdog

/-- A unit that is scheduled and not stopped stands in a wait that the watchdog covers. -/
structure Watched (s : State) (u g name : Nat) (w : Wait) (d : Nat) : Prop where
  scheduled : (s.team u).scheduled = true
  side : g = 16 → (s.team u).side.stopped = false ∧ (s.team u).side.wait = some w
  gang : g ≠ 16 → (s.gang u g).halted = false ∧ (s.gang u g).subgang name ≠ 0#8 ∧
    ((s.gang u g).slice (lowSlice ((s.gang u g).subgang name))).wait = some w
  detail : timeoutDetail w.kind = some d

section
variable {s : State} {u g name : Nat} {w : Wait} {d : Nat} (h : Watched s u g name w d)
include h

theorem lateWait_eq : s.lateWait u g name =
    if s.cycle < w.since + s.waitLimit u g ∨ s.cleared u g ((s.gang u g).subgang name) w.kind = true then none else some (w.kind, d) := by
  obtain ⟨scheduled, side, gang, detail⟩ := h
  unfold State.lateWait State.waitLimit
  by_cases hg : g = 16
  · obtain ⟨running, wait⟩ := side hg
    simp [if_pos hg, scheduled, running, wait, detail, State.gang]
  · obtain ⟨running, live, wait⟩ := gang hg
    unfold State.gang at running live wait
    simp [if_neg hg, scheduled, running, live, wait, detail, State.gang]

theorem watchdogExpiry_in_time (early : s.cycle < w.since + s.waitLimit u g ∨ s.cleared u g ((s.gang u g).subgang name) w.kind = true) :
    exec (.watchdogExpiry u g name) s = .next s := by
  rw [exec_watchdogExpiry, execWatchdogExpiry, lateWait_eq h, if_pos early]

variable (late : w.since + s.waitLimit u g ≤ s.cycle) (lasts : ¬ s.cleared u g ((s.gang u g).subgang name) w.kind = true)
include late lasts

theorem lateWait_of_late : s.lateWait u g name = some (w.kind, d) := by
  rw [lateWait_eq h, if_neg (not_or.mpr ⟨Nat.not_lt.mpr late, lasts⟩)]

theorem watchdogExpiry_side (hg : g = 16) : exec (.watchdogExpiry u g name) s =
    .next (s.takeTrap { team := u, gang := 16, slices := 0 } { cause := .waitTimeout, detail := BitVec.ofNat 64 d }) := by
  rw [exec_watchdogExpiry, execWatchdogExpiry, lateWait_of_late h late lasts]
  dsimp only
  rw [if_pos hg]

theorem watchdogExpiry_gang (hg : g ≠ 16) : exec (.watchdogExpiry u g name) s =
    .next ((s.takeTrap { team := u, gang := g, slices := (s.gang u g).heldIn ((s.gang u g).subgang name) w.kind }
        { cause := .waitTimeout, detail := BitVec.ofNat 64 d }).modGang u g
      (fun x => x.withdraw ((s.gang u g).heldIn ((s.gang u g).subgang name) w.kind) w.kind)) := by
  rw [exec_watchdogExpiry, execWatchdogExpiry, lateWait_of_late h late lasts]
  dsimp only
  rw [if_neg hg]

end

theorem heldIn_own {k : WaitKind} (g : Gang) (m : BitVec 8) (regang : ∀ p, k ≠ .regang p) (member : ∀ kf b, k ≠ .member kf b) :
    g.heldIn m k = m := by
  unfold Gang.heldIn
  split
  next p => exact absurd rfl (regang p)
  next kf b => exact absurd rfl (member kf b)
  next => rfl

theorem withdraw_elsewhere {k : WaitKind} (g : Gang) (m : BitVec 8) (bar : ∀ n p, k ≠ .bar n p) : g.withdraw m k = g := by
  unfold Gang.withdraw
  split
  next n p => exact absurd rfl (bar n p)
  next => rfl

/-- A trap has made room for the gang that it stops, so that leaving the gang as it is changes nothing. -/
theorem modGang_takeTrap_same {s : State} {u : Issuer} (x : TrapInfo) (h : u.gang ≠ 16) :
    (s.takeTrap u x).modGang u.team u.gang (fun g => g) = s.takeTrap u x := by
  rw [takeTrap_gang x h, modGang_modGang]

/-! ### The log (R376) -/

theorem writeLog_nil {s : State} {u g : Nat} (h : ((s.team u).gang g).log = []) : s.writeLog u g = s := by
  simp only [State.writeLog, h]

theorem writeLog_cons {s : State} {u g : Nat} {x : LogHeld} {rest : List LogHeld} (h : ((s.team u).gang g).log = x :: rest) :
    let t := s.team u
    s.writeLog u g = ({ s with kmem := ringLog s.kmem (s.part t.part).log (logBytes x g t.part t.num t.grid) } : State).modGang u g
      (fun y => { y with log := rest }) := by
  intro t
  simp only [State.writeLog, h]
  rfl

/-! ### The obligation -/

/-- Settles O50: promotion and rotation by the gang with the least number, the watchdog by whether the wait is late, the log by its
oldest record. -/
theorem issueStageEvents : Obligations.IssueStageEvents := by
  refine ⟨?_, ?_, ?_, ?_⟩
  · intro core quad s x n gs ready full hx hn first
    have next : s.leastGang gs (·.ready) = some x := leastGang_eq_some hx hn first
    refine ⟨fun room => promotion_of_room next (activeRoom_iff.mpr room), fun hf z k hz hk last => ?_⟩
    exact rotation_of_full next (fun room => activeRoom_iff.mp room hf) (leastGang_eq_some hz hk last)
  · intro core quad s idle
    exact nothing_ready (leastGang_eq_none idle)
  · intro team gang sub s w d t g slices limit scheduled side unit detail come
    have watched : Watched s team gang sub w d := ⟨scheduled, side, unit, detail⟩
    refine ⟨watchdogExpiry_in_time watched, watchdogExpiry_side watched, fun late lasts hg => ?_⟩
    refine ⟨g.heldIn slices w.kind, _, watchdogExpiry_gang watched late lasts hg, fun p e => by rw [e]; rfl, fun kf b e => by rw [e]; rfl,
      heldIn_own g slices, fun elsewhere => ?_, fun n p e => by rw [e]; rfl⟩
    simp only [withdraw_elsewhere _ _ elsewhere]
    exact modGang_takeTrap_same _ hg
  · intro team gang s t
    refine ⟨fun none_held => congrArg _ (writeLog_nil none_held), ?_⟩
    intro x rest held bs
    exact congrArg _ (writeLog_cons held)

end Sys2Proof.Machine
end

section
namespace Sys2Proof.Machine

open Sys2Proof Sys2Proof.Safety

/-! ### What an entry says (R197, R198) -/

/-- The dependence number `i` of an entry: producer and kind. -/
def entryDep (b : List Byte) (i : Nat) : BitVec 32 × Bool := (BitVec.ofNat 32 (field b (16 + 8 * i) 4), field b (20 + 8 * i) 4 % 2 = 1)

theorem mem_entryDeps {b : List Byte} {d : BitVec 32 × Bool} : d ∈ entryDeps b ↔ ∃ i, i < field b 12 1 ∧ d = entryDep b i := by
  simp only [entryDeps, entryDep, List.mem_map, mem_upTo, eq_comm]

theorem entryFieldsOk_iff {f : FrontEnd} {b : List Byte} {q : BitVec 32} (hq : BitVec.ofNat 32 (field b 8 4) = q) :
    entryFieldsOk f b = true ↔ field b 0 8 % 64 = 0 ∧ field b 12 1 ≤ 4 ∧ field b 13 3 = 0 ∧ field b 48 16 = 0 ∧
      (∀ i, i < 4 → field b (20 + 8 * i) 4 < 2) ∧ ∀ i, i < field b 12 1 →
        1 ≤ (q - (entryDep b i).1).toNat ∧ (q - (entryDep b i).1).toNat ≤ 4096 ∧ (q - (entryDep b i).1).toNat ≤ f.taken := by
  have deps (P : BitVec 32 × Bool → Prop) : (∀ d ∈ entryDeps b, P d) ↔ ∀ i, i < field b 12 1 → P (entryDep b i) :=
    ⟨fun h i hi => h _ (mem_entryDeps.mpr ⟨i, hi, rfl⟩), fun h d hd => by
      obtain ⟨i, hi, rfl⟩ := mem_entryDeps.mp hd
      exact h i hi⟩
  simp only [entryFieldsOk, Bool.and_eq_true, decide_eq_true_eq, List.all_eq_true, mem_upTo, deps, hq, and_assoc, Config.seqWindow]

theorem any_refused_iff {f : FrontEnd} {b : List Byte} : (entryDeps b).any (fun d => f.seqState d.1 = .refused) = true ↔
    ∃ i, i < field b 12 1 ∧ f.seqState (entryDep b i).1 = .refused := by
  simp only [List.any_eq_true, decide_eq_true_eq]
  constructor
  · rintro ⟨d, hd, h⟩
    obtain ⟨i, hi, rfl⟩ := mem_entryDeps.mp hd
    exact ⟨i, hi, h⟩
  · rintro ⟨i, hi, h⟩
    exact ⟨_, mem_entryDeps.mpr ⟨i, hi, rfl⟩, h⟩

/-- The dependences of an entry that its front end does not know to be satisfied. -/
def openDeps (f : FrontEnd) (b : List Byte) : List (BitVec 32 × Bool) :=
  (entryDeps b).filter (fun x => !(f.seqState x.1 = .retired || (x.2 && f.seqState x.1 = .triggered)))

theorem mem_openDeps {f : FrontEnd} {b : List Byte} {d : BitVec 32 × Bool} : d ∈ openDeps f b ↔ ∃ i, i < field b 12 1 ∧ d = entryDep b i ∧
    f.seqState (entryDep b i).1 ≠ .retired ∧ ¬ ((entryDep b i).2 = true ∧ f.seqState (entryDep b i).1 = .triggered) := by
  simp only [openDeps, List.mem_filter, mem_entryDeps, Bool.not_eq_true', Bool.or_eq_false_iff, decide_eq_false_iff_not, Bool.and_eq_false_iff,
    not_and_or, Bool.not_eq_true]
  constructor
  · rintro ⟨⟨i, hi, rfl⟩, h⟩
    exact ⟨i, hi, rfl, h⟩
  · rintro ⟨i, hi, rfl, h⟩
    exact ⟨⟨i, hi, rfl⟩, h⟩

/-! ### An entry that takes its number (R199, R204) -/

/-- The front end has taken a number. -/
def State.takeNumber (s : State) (p : Nat) (q : BitVec 32) : State :=
  s.modPart p (fun x => { x with fe := { x.fe with expected := q + 1#32, taken := x.fe.taken + 1 } })

section
variable {s : State} {p prio : Nat} {b : List Byte} {q : BitVec 32} (hq : BitVec.ofNat 32 (field b 8 4) = q)
include hq

theorem takeEntry_illegal (bad : entryFieldsOk (s.part p).fe b = false) : s.takeEntry p prio b = (s.takeNumber p q).refuseEntry p q none 197 := by
  subst hq
  rw [State.takeEntry]
  dsimp only
  rw [bad]
  rfl

variable (ok : entryFieldsOk (s.part p).fe b = true)
include ok

theorem takeEntry_dependent (hit : (entryDeps b).any (fun d => (s.part p).fe.seqState d.1 = .refused) = true) :
    s.takeEntry p prio b = (s.takeNumber p q).refuseEntry p q none 199 := by
  subst hq
  rw [State.takeEntry]
  dsimp only
  rw [ok, hit]
  rfl

variable (free : (entryDeps b).any (fun d => (s.part p).fe.seqState d.1 = .refused) = false)
include free

theorem takeEntry_unreadable (unreadable : ∀ xs, ((s.takeNumber p q).descBytes p (field b 0 8)).1 ≠ .spans xs) :
    s.takeEntry p prio b = (s.takeNumber p q).refuseEntry p q none 204 := by
  subst hq
  rw [State.takeEntry]
  dsimp only
  rw [ok, free, Bool.not_true, if_neg Bool.false_ne_true, if_neg Bool.false_ne_true]
  split
  next xs bs e => exact absurd (congrArg Prod.fst e) (unreadable xs)
  next => rfl

variable {xs : List Span} (read : ((s.takeNumber p q).descBytes p (field b 0 8)).1 = .spans xs)
include read

theorem takeEntry_described : s.takeEntry p prio b =
    let z := s.takeNumber p q
    let bs := (z.descBytes p (field b 0 8)).2
    if z.descLegal p bs then
      (z.enqueue { part := p, desc := descOf bs, depth := 1, prio := prio, seq := some q, deps := openDeps (s.part p).fe b }).setSeq p q .waiting
    else z.refuseEntry p q (some (descOf bs).doneWord) 204 := by
  subst hq
  rw [State.takeEntry]
  dsimp only
  rw [ok, free, Bool.not_true, if_neg Bool.false_ne_true, if_neg Bool.false_ne_true]
  have pair : (s.takeNumber p (BitVec.ofNat 32 (field b 8 4))).descBytes p (field b 0 8) =
      (.spans xs, ((s.takeNumber p (BitVec.ofNat 32 (field b 8 4))).descBytes p (field b 0 8)).2) := Prod.ext read rfl
  unfold State.takeNumber at pair ⊢
  rw [pair]
  rfl

end

/-! ### FRONT_END_ENTRY (R197, R344, R395) -/

/-- The bytes of an entry. -/
def queueBytes (entry : List Word) : List Byte := (entry.map (fun w => leBytes 8 w.toNat)).flatten

theorem kstores_phase (ks : List KStore) (s : State) : (s.kstores ks).phase = s.phase := by
  have one (s : State) (k : KStore) : (s.kstore k).phase = s.phase := by
    unfold State.kstore
    cases k.space <;> rfl
  induction ks generalizing s with
  | nil => rfl
  | cons k ks ih => exact (ih (s.kstore k)).trans (one s k)

section
variable {part prio : Nat} {entry : List Word} {stores : List KStore} {s : State}

theorem frontEndEntry_closed (h : s.phase ≠ .running ∨ ((s.kstores stores).part part).live = false ∨
      ((s.kstores stores).part part).closing = true) :
    exec (.frontEndEntry part prio entry stores) s = .next s := by
  rw [exec_frontEndEntry, execFrontEndEntry]
  dsimp only
  rw [if_pos]
  simp only [kstores_phase, Bool.or_eq_true, decide_eq_true_eq, Bool.not_eq_true']
  exact or_assoc.mpr h

variable (running : s.phase = .running) (live : ((s.kstores stores).part part).live = true)
  (intake : ((s.kstores stores).part part).closing = false)
include running live intake

theorem frontEndEntry_open : exec (.frontEndEntry part prio entry stores) s = .next (
    let b := queueBytes entry
    let y := s.kstores stores
    if BitVec.ofNat 32 (field b 8 4) ≠ (y.part part).fe.expected then
      (y.modPart part (fun x => { x with fe := { x.fe with errors := x.fe.errors ++ [(field b 8 4, 197)] } })).notify
        (.refusedEntry part (some (field b 8 4)))
    else if y.entryHeld part b then s
    else y.takeEntry part prio b) := by
  rw [exec_frontEndEntry, execFrontEndEntry]
  dsimp only
  rw [if_neg]
  · rfl
  · simp [kstores_phase, running, live, intake]

theorem frontEndEntry_unexpected (h : BitVec.ofNat 32 (field (queueBytes entry) 8 4) ≠ ((s.kstores stores).part part).fe.expected) :
    exec (.frontEndEntry part prio entry stores) s = .next (((s.kstores stores).modPart part (fun x =>
        { x with fe := { x.fe with errors := x.fe.errors ++ [(field (queueBytes entry) 8 4, 197)] } })).notify
      (.refusedEntry part (some (field (queueBytes entry) 8 4)))) := by
  rw [frontEndEntry_open running live intake]
  dsimp only
  rw [if_pos h]

variable (expected : BitVec.ofNat 32 (field (queueBytes entry) 8 4) = ((s.kstores stores).part part).fe.expected)
include expected

theorem frontEndEntry_held (held : (s.kstores stores).entryHeld part (queueBytes entry) = true) :
    exec (.frontEndEntry part prio entry stores) s = .next s := by
  rw [frontEndEntry_open running live intake]
  dsimp only
  rw [if_neg (not_not.mpr expected), if_pos held]

theorem frontEndEntry_taken (free : (s.kstores stores).entryHeld part (queueBytes entry) = false) :
    exec (.frontEndEntry part prio entry stores) s = .next ((s.kstores stores).takeEntry part prio (queueBytes entry)) := by
  rw [frontEndEntry_open running live intake]
  dsimp only
  rw [if_neg (not_not.mpr expected), if_neg (ne_true_of_eq_false free)]

end

/-! ### The entry that the dispatcher serves (R200) -/

/-- An entry is ready, with a team left to place. -/
def State.readyEntry (s : State) (p i : Nat) : Prop :=
  i < s.grids.length ∧ (s.grid i).live = true ∧ (s.grid i).part = p ∧ (s.grid i).deps = [] ∧ (s.grid i).placed < (s.grid i).desc.teams

/-- The ready entries of a partition. -/
def State.readyEntries (s : State) (p : Nat) : List Nat :=
  (upTo s.grids.length).filter (fun i =>
    let g := s.grid i
    g.live && g.part = p && g.deps.isEmpty && g.placed < g.desc.teams)

/-- Where an entry stands in the order of service: by priority, then by age. -/
def State.serviceKey (s : State) (i : Nat) : ℕ ×ₗ ℕ := toLex ((s.grid i).prio, (s.grid i).order)

theorem mem_readyEntries {s : State} {p i : Nat} : i ∈ s.readyEntries p ↔ s.readyEntry p i := by
  simp only [State.readyEntries, State.readyEntry, List.mem_filter, mem_upTo, Bool.and_eq_true, decide_eq_true_eq, List.isEmpty_iff, and_assoc]

theorem served_eq_argmin (s : State) (p : Nat) : s.served p = (s.readyEntries p).argmin s.serviceKey := by
  unfold State.served State.readyEntries List.argmin
  congr 1
  funext best i
  cases best with
  | none => rfl
  | some j =>
    refine if_congr ?_ rfl rfl
    simp only [State.serviceKey, Prod.Lex.toLex_lt_toLex, Bool.or_eq_true, Bool.and_eq_true, decide_eq_true_eq]

theorem served_none {s : State} {p : Nat} (h : s.served p = none) (i : Nat) : ¬ s.readyEntry p i := by
  rw [served_eq_argmin, List.argmin_eq_none] at h
  rw [← mem_readyEntries, h]
  exact List.not_mem_nil

theorem served_ready {s : State} {p i : Nat} (h : s.served p = some i) : s.readyEntry p i :=
  mem_readyEntries.mp (List.argmin_mem ((served_eq_argmin s p).symm.trans h))

theorem served_first {s : State} {p i j : Nat} (h : s.served p = some i) (ready : s.readyEntry p j) :
    (s.grid i).prio < (s.grid j).prio ∨ ((s.grid i).prio = (s.grid j).prio ∧ (s.grid i).order ≤ (s.grid j).order) :=
  Prod.Lex.toLex_le_toLex.mp (List.le_of_mem_argmin (mem_readyEntries.mpr ready) ((served_eq_argmin s p).symm.trans h))

end Sys2Proof.Machine
end

section
namespace Sys2Proof.Machine

open Sys2Proof Sys2Proof.Safety

/-! ### Numbers of a front end -/

theorem FrontEnd.setSeq_rest (f : FrontEnd) (q : BitVec 32) (x : SeqState) : f.setSeq q x = { f with seqs := (f.setSeq q x).seqs } := by
  unfold FrontEnd.setSeq
  split <;> rfl

theorem FrontEnd.seqState_setSeq_same {f : FrontEnd} {q : BitVec 32} (x : SeqState) (kept : f.keeps q = true) : (f.setSeq q x).seqState q = x := by
  unfold FrontEnd.setSeq
  rw [if_pos kept]
  exact (if_pos kept).trans (rowGet_rowPut_same _ _ _ _)

/-- Setting a number changes what the front end remembers of numbers, and nothing else of a partition. -/
theorem part_setSeq (s : State) (p : Nat) (q : BitVec 32) (x : SeqState) (r : Nat) : (s.setSeq p q x).part r =
    { s.part r with fe := { (s.part r).fe with seqs := ((s.setSeq p q x).part r).fe.seqs } } := by
  unfold State.setSeq
  by_cases h : p = r
  · subst h
    rw [State.part_modPart_same]
    exact congrArg (fun f => { s.part p with fe := f }) (FrontEnd.setSeq_rest _ q x)
  · rw [State.part_modPart_other _ _ h]

/-! ### The team that starts (R206) -/

/-- A bank with one more reads as before, and the new one at its end. -/
theorem rowGet_concat {α : Type} (d x : α) : ∀ (l : List α) (i : Nat), rowGet d (l ++ [x]) i = if i = l.length then x else rowGet d l i
  | [], 0 => rfl
  | [], _ + 1 => rfl
  | _ :: _, 0 => rfl
  | _ :: t, i + 1 => by
    rw [List.cons_append, rowGet, rowGet_concat d x t i, rowGet]
    exact if_congr (by rw [List.length_cons, Nat.add_right_cancel_iff]) rfl rfl

/-- The team of grid `i` that starts on core `c`. -/
def State.newTeam (s : State) (i c : Nat) (x : Placement) : Team :=
  let g := s.grid i
  let d := g.desc
  { live := true, grid := i, num := g.placed, part := g.part, home := c, core := c, base := x.base, resBase := x.base,
    scratch := d.scratch, tagBase := x.tagBase, tagSets := d.tagSets, nbanks := d.banks, physBanks := x.banks, ngang := d.gangs,
    vregs := d.vregs, gangs := s.seat c ((upTo d.gangs).map (fun _ => startGang d s.order)),
    side := { present := d.sidecar ≠ 0#64, k := [d.param], pc := d.sidecar }, sideSlot := x.slot, placedAt := s.cycle }

/-- The state with that team, before its grid's number is marked. -/
def State.withNewTeam (s : State) (i c : Nat) (x : Placement) : State :=
  ({ s.startWindow (spadKey c x.base) (s.grid i).desc.scratch with teams := s.teams ++ [s.newTeam i c x], order := s.order + 1 } : State).modGrid i
    (fun y => { y with placed := y.placed + 1, teams := y.teams ++ [s.teams.length] })

section
variable (s : State) (i c : Nat) (x : Placement)

theorem startTeam_cases : (s.startTeam i c x = s.withNewTeam i c x ∧ ¬ ∃ q, (s.grid i).seq = some q ∧ (s.grid i).placed = 0) ∨
    ∃ q, (s.grid i).seq = some q ∧ (s.grid i).placed = 0 ∧ s.startTeam i c x = (s.withNewTeam i c x).setSeq (s.grid i).part q .running := by
  have length : (s.teams ++ [s.newTeam i c x]).length - 1 = s.teams.length := by rw [List.length_append, List.length_singleton, Nat.add_sub_cancel]
  have start : s.startTeam i c x = match (s.grid i).seq with
      | some q => if (s.grid i).placed = 0 then (s.withNewTeam i c x).setSeq (s.grid i).part q .running else s.withNewTeam i c x
      | none => s.withNewTeam i c x := by
    unfold State.withNewTeam
    rw [← length]
    rfl
  rw [start]
  cases (s.grid i).seq with
  | none => exact .inl ⟨rfl, fun ⟨_, e, _⟩ => nomatch e⟩
  | some q =>
    by_cases first : (s.grid i).placed = 0
    · exact .inr ⟨q, rfl, first, if_pos first⟩
    · exact .inl ⟨if_neg first, fun ⟨_, _, e⟩ => first e⟩

/-- Beside the marks of numbers, the start is the new team's. -/
theorem startTeam_rest : s.startTeam i c x = { s.withNewTeam i c x with parts := (s.startTeam i c x).parts } := by
  obtain ⟨e, -⟩ | ⟨q, -, -, e⟩ := startTeam_cases s i c x
  · rw [e]
  · rw [e]
    rfl

theorem team_startTeam (v : Nat) : (s.startTeam i c x).team v = if v = s.teams.length then s.newTeam i c x else s.team v := by
  rw [startTeam_rest]
  exact rowGet_concat _ _ _ _

theorem gang_newTeam (k : Nat) : (s.newTeam i c x).gang k = if k < (s.grid i).desc.gangs then
    { startGang (s.grid i).desc s.order with slot := rowGet 0 (s.openSlots c (k % 4)) (k / 4) } else {} := by
  let gs := (upTo (s.grid i).desc.gangs).map (fun _ => startGang (s.grid i).desc s.order)
  have length : gs.length = (s.grid i).desc.gangs := by rw [List.length_map, upTo_length]
  show rowGet {} (s.seat c gs) k = _
  unfold State.seat
  rw [length]
  split
  next h =>
    rw [rowGet_map_upTo _ _ h, rowGet_map_upTo _ _ h]
  next h =>
    exact rowGet_beyond _ _ _ (by rw [List.length_map, upTo_length]; exact Nat.not_lt.mp h)

theorem grid_startTeam (j : Nat) : (s.startTeam i c x).grid j =
    if j = i then { s.grid i with placed := (s.grid i).placed + 1, teams := (s.grid i).teams ++ [s.teams.length] } else s.grid j := by
  rw [startTeam_rest]
  show (s.withNewTeam i c x).grid j = _
  unfold State.withNewTeam
  by_cases h : j = i
  · subst h
    rw [if_pos rfl, State.grid_modGrid_same]
    rfl
  · rw [if_neg h, State.grid_modGrid_other _ _ (Ne.symm h)]
    rfl

theorem part_startTeam (p : Nat) : (s.startTeam i c x).part p =
    { s.part p with fe := { (s.part p).fe with seqs := ((s.startTeam i c x).part p).fe.seqs } } := by
  obtain ⟨e, -⟩ | ⟨q, -, -, e⟩ := startTeam_cases s i c x
  · rw [e]
    rfl
  · rw [e]
    exact part_setSeq (s.withNewTeam i c x) _ q _ p

/-- The first team of an entry makes its number RUNNING, where the front end still keeps it. -/
theorem startTeam_running {q : BitVec 32} (seq : (s.grid i).seq = some q) (first : (s.grid i).placed = 0)
    (kept : (s.part (s.grid i).part).fe.keeps q = true) : ((s.startTeam i c x).part (s.grid i).part).fe.seqState q = .running := by
  obtain ⟨-, none⟩ | ⟨r, seq', -, e⟩ := startTeam_cases s i c x
  · exact absurd ⟨q, seq, first⟩ none
  · obtain rfl : r = q := Option.some.inj (seq'.symm.trans seq)
    rw [e, State.setSeq, State.part_modPart_same]
    exact FrontEnd.seqState_setSeq_same _ kept

end

/-! ### The window at a start (R206) -/

/-- A byte of a memory some of whose bytes are dropped reads as before, or it is one of those and reads as the default. -/
theorem memGet_filter (keep : Host.Cell → Bool) (x : Nat) : ∀ {m : List Host.Cell} {lo : Nat}, memWfFrom lo m = true →
    memGet (m.filter keep) x = memGet m x ∨ ((∃ b, keep (x, b) = false) ∧ memGet (m.filter keep) x = memDefault)
  | [], _, _ => .inl rfl
  | (a, b) :: t, lo, wf => by
    have tail : memWfFrom (a + 1) t = true := by
      simp only [memWfFrom, Bool.and_eq_true] at wf
      exact wf.2.2
    have rest := memGet_filter keep x tail
    by_cases ha : a = x
    · subst ha
      cases kept : keep (a, b) with
      | true => exact .inl (by rw [List.filter_cons_of_pos kept, memGet, memGet, if_pos rfl, if_pos rfl])
      | false =>
        rw [List.filter_cons_of_neg (ne_true_of_eq_false kept)]
        exact .inr ⟨⟨b, kept⟩, memGet_below (memWfFrom_filter keep tail) (Nat.lt_succ_self a)⟩
    · have skip (l : List Host.Cell) : memGet ((a, b) :: l) x = memGet l x := if_neg ha
      cases kept : keep (a, b) with
      | true => rwa [List.filter_cons_of_pos kept, skip, skip]
      | false => rwa [List.filter_cons_of_neg (ne_true_of_eq_false kept), skip]

theorem memGet_startWindow {s : State} (key n : Nat) (wf : Memory.wf s.spad = true) (a : Nat) :
    memGet (s.startWindow key n).spad a = memGet s.spad a ∨ (key ≤ a ∧ a < key + n ∧ memGet (s.startWindow key n).spad a = 0#8) := by
  obtain same | ⟨⟨b, dropped⟩, zero⟩ := memGet_filter
    (fun c => !(decide (key ≤ c.1) && decide (c.1 < key + n)) || Config.freeBit (s.fresh + c.1)) a wf
  · exact .inl same
  · simp only [Bool.or_eq_false_iff, Bool.not_eq_false', Bool.and_eq_true, decide_eq_true_eq] at dropped
    exact .inr ⟨dropped.1.1, dropped.1.2, zero⟩

/-! ### DISPATCH_TEAM (R200, R205, R206) -/

section
variable {part : Nat} {s : State}

theorem dispatchTeam_idle (h : (s.phase ≠ .running ∧ s.phase ≠ .restarting) ∨ s.placeable part = none) :
    exec (.dispatchTeam part) s = .next s := by
  rw [exec_dispatchTeam, execDispatchTeam]
  split
  next => rfl
  next runs =>
    have nowhere : s.placeable part = none := h.resolve_left fun ⟨h1, h2⟩ => runs (by simp [h1, h2])
    rw [nowhere]

theorem dispatchTeam_starts {i c : Nat} {x : Placement} (runs : s.phase = .running ∨ s.phase = .restarting)
    (place : s.placeable part = some (i, c, x)) : exec (.dispatchTeam part) s = .next (s.startTeam i c x) := by
  rw [exec_dispatchTeam, execDispatchTeam, if_neg, place]
  simp only [Bool.not_eq_true', Bool.not_eq_false, Bool.or_eq_true, decide_eq_true_eq]
  exact runs

theorem served_of_placeable {i c : Nat} {x : Placement} (place : s.placeable part = some (i, c, x)) : s.served part = some i := by
  unfold State.placeable at place
  split at place
  · exact nomatch place
  · split at place
    next => exact nomatch place
    next j served =>
      obtain ⟨y, -, e⟩ := Option.map_eq_some_iff.mp place
      rw [served, (Prod.mk.inj e).1]

end

end Sys2Proof.Machine
end

section
namespace Sys2Proof.Machine

open Sys2Proof Sys2Proof.Safety

/-! ### TEAM_RETIREMENT (R207, R302, R376) -/

theorem teamRetirement_waits {s : State} {u : Nat} (h : s.mayRetire u = false) : exec (.teamRetirement u) s = .next s := by
  rw [exec_teamRetirement, execTeamRetirement, if_neg (ne_true_of_eq_false h)]

/-- The logs of a team's gangs are written. -/
def State.logsFlushed (s : State) (u : Nat) : State := (upTo (s.team u).ngang).foldl (fun s g => s.flushLog u g) s

theorem teamRetirement_retires {s : State} {u : Nat} (h : s.mayRetire u = true) :
    exec (.teamRetirement u) s = .next (((s.logsFlushed u).reportAllLeft u).freeTeam u) := by
  rw [exec_teamRetirement, execTeamRetirement, if_pos h]
  rfl

/-- A fold whose steps change nothing changes nothing. -/
theorem foldl_unchanged {α β : Type} {f : β → α → β} {b : β} : ∀ {l : List α}, (∀ a ∈ l, f b a = b) → l.foldl f b = b
  | [], _ => rfl
  | a :: l, h => by
    rw [List.foldl_cons, h a (List.mem_cons_self ..)]
    exact foldl_unchanged fun x hx => h x (List.mem_cons_of_mem _ hx)

theorem flushLog_nil {s : State} {u g : Nat} (h : (s.gang u g).log = []) : s.flushLog u g = s := by
  rw [State.flushLog, h]
  rfl

theorem logsFlushed_nil {s : State} {u : Nat} (h : ∀ g, g < (s.team u).ngang → (s.gang u g).log = []) : s.logsFlushed u = s :=
  foldl_unchanged fun g hg => flushLog_nil (h g (mem_upTo.mp hg))

theorem reportLeft_synced {c : Counter} (s : State) (u g : Nat) (pc : Addr) (h : ∀ f ∈ c.flags, f.unsynced = false) :
    s.reportLeft u g pc c = s := by
  have none_left : c.flags.filter (·.unsynced) = [] := List.filter_eq_nil_iff.mpr fun f hf => ne_true_of_eq_false (h f hf)
  rw [State.reportLeft, none_left]
  rfl

theorem reportAllLeft_synced {s : State} {u : Nat} (gangs : ∀ g, g < (s.team u).ngang → ∀ f ∈ (s.gang u g).enc.flags, f.unsynced = false)
    (side : ∀ f ∈ (s.team u).side.enc.flags, f.unsynced = false) : s.reportAllLeft u = s := by
  unfold State.reportAllLeft
  dsimp only
  rw [foldl_unchanged fun g hg => reportLeft_synced s u g _ (gangs g (mem_upTo.mp hg)), reportLeft_synced s u 16 _ side, ite_self]

/-! ### What a team holds is released (R203, R207) -/

/-- A team's records are FREE, its place is, and its grid has counted it. -/
def State.released (s : State) (u : Nat) : State :=
  ((s.modCore (s.team u).home (fun c => { c with records := c.records.map (fun r => if r.team = u then { r with state := .free } else r) })).modTeam u
    (fun t => { t with live := false })).modGrid (s.team u).grid (fun g => { g with retired := g.retired + 1 })

section
variable (s : State) (u : Nat)

theorem freeTeam_eq : s.freeTeam u = (s.released u).gridCheck (s.team u).grid := rfl

theorem released_rest : s.released u = { s with cores := (s.released u).cores, teams := (s.released u).teams, grids := (s.released u).grids } := rfl

theorem teams_released : (s.released u).teams = rowMod {} s.teams u (fun t => { t with live := false }) := rfl

theorem cores_released : (s.released u).cores = rowMod {} s.cores (s.team u).home
    (fun c => { c with records := c.records.map (fun r => if r.team = u then { r with state := .free } else r) }) := rfl

theorem team_released (v : Nat) : (s.released u).team v = if v = u then { s.team u with live := false } else s.team v := by
  unfold State.team
  rw [teams_released]
  by_cases h : v = u
  · subst h
    rw [if_pos rfl]
    exact rowGet_rowMod_same _ _ _ _
  · rw [if_neg h]
    exact rowGet_rowMod_other _ _ _ (Ne.symm h)

theorem grid_released (j : Nat) : (s.released u).grid j =
    if j = (s.team u).grid then { s.grid (s.team u).grid with retired := (s.grid (s.team u).grid).retired + 1 } else s.grid j := by
  by_cases h : j = (s.team u).grid
  · subst h
    rw [if_pos rfl]
    exact State.grid_modGrid_same _ _ _
  · rw [if_neg h]
    exact State.grid_modGrid_other _ _ (Ne.symm h)

theorem core_released_home : (s.released u).core (s.team u).home = { s.core (s.team u).home with
    records := (s.core (s.team u).home).records.map (fun r => if r.team = u then { r with state := .free } else r) } := by
  unfold State.core
  rw [cores_released]
  exact rowGet_rowMod_same _ _ _ _

theorem core_released_other {c : Nat} (h : c ≠ (s.team u).home) : (s.released u).core c = s.core c := by
  unfold State.core
  rw [cores_released]
  exact rowGet_rowMod_other _ _ _ (Ne.symm h)

theorem core_released (c : Nat) : (s.released u).core c = { s.core c with records := ((s.released u).core c).records } := by
  by_cases h : c = (s.team u).home
  · subst h
    rw [core_released_home]
  · rw [core_released_other s u h]

theorem record_released (c r : Nat) : (s.released u).record c r =
    if c = (s.team u).home ∧ r < (s.core (s.team u).home).records.length ∧ (s.record c r).team = u then { s.record c r with state := .free }
    else s.record c r := by
  unfold State.record
  by_cases hc : c = (s.team u).home
  · subst hc
    rw [core_released_home]
    dsimp only
    rw [rowGet_map ({} : ObRecord) ({} : ObRecord)]
    split
    next h => exact if_congr (by simp only [h, true_and]) rfl rfl
    next h =>
      rw [if_neg (fun e => h e.2.1)]
      exact (rowGet_beyond _ _ _ (Nat.not_lt.mp h)).symm
  · rw [core_released_other s u hc, if_neg (fun e => hc e.1)]

end

/-! ### A grid whose teams have all retired (R203, R207, R349) -/

section
variable {s : State} {i : Nat}

theorem gridCheck_unfinished (h : (s.grid i).retired ≠ (s.grid i).desc.teams) : s.gridCheck i = s := by
  unfold State.gridCheck
  dsimp only
  rw [if_pos]
  simp [h]

/-- DONE has its increment, the grid has left its queue, and GRIDS has risen. -/
def State.gridDone (s : State) (i : Nat) : State :=
  let g := s.grid i
  ((if g.desc.doneWord = 0#64 then s else s.syncAt g.part g.desc.doneWord 1 (if g.fault then 1 else 0)).modGrid i
    (fun g => { g with live := false })).meter g.part 10 1

variable (live : (s.grid i).live = true) (placed : (s.grid i).placed = (s.grid i).desc.teams)
  (retired : (s.grid i).retired = (s.grid i).desc.teams) (free : s.doneHeld (s.grid i).part (s.grid i).desc.doneWord = false)
include live placed retired free

theorem gridCheck_launched (seq : (s.grid i).seq = none) : s.gridCheck i = s.gridDone i := by
  unfold State.gridCheck
  dsimp only
  rw [if_neg (by simp [live, placed, retired, free]), seq]
  rfl

theorem gridCheck_entered {q : BitVec 32} (seq : (s.grid i).seq = some q) :
    s.gridCheck i = ((s.gridDone i).setSeq (s.grid i).part q .retired).satisfy (s.grid i).part q true := by
  unfold State.gridCheck
  dsimp only
  rw [if_neg (by simp [live, placed, retired, free]), seq]
  rfl

end

/-! ### THERMAL_MIGRATION (R214) -/

theorem above_iff {c : CoreState} {temp : Nat} : c.above temp = true ↔ ∃ x, c.thermalLimit = some x ∧ x < temp := by
  unfold CoreState.above
  cases c.thermalLimit with
  | none => simp
  | some l => simp

/-- A core has given up a team in the last 500 µs. -/
def State.movedLately (s : State) (core : Nat) : Bool :=
  match (s.core core).lastMigration with
  | some x => decide (s.cycle < x + migrationSpan)
  | none => false

theorem movedLately_iff {s : State} {core : Nat} :
    s.movedLately core = true ↔ ∃ x, (s.core core).lastMigration = some x ∧ s.cycle < x + 625000 := by
  unfold State.movedLately
  cases (s.core core).lastMigration with
  | none => exact ⟨nofun, fun ⟨_, e, _⟩ => nomatch e⟩
  | some l => exact ⟨fun h => ⟨l, rfl, of_decide_eq_true h⟩, fun ⟨_, e, h⟩ => decide_eq_true (Option.some.inj e ▸ h)⟩

/-- A core is noted to be above its limit. -/
def State.markHot (s : State) (core : Nat) : State := s.modCore core (fun c => { c with hot := true })
/-- A core is throttled. -/
def State.throttle (s : State) (core : Nat) : State := s.modCore core (fun c => { c with throttled := true })

theorem movedLately_markHot (s : State) (core : Nat) : (s.markHot core).movedLately core = s.movedLately core := by
  unfold State.movedLately State.markHot
  rw [State.core_modCore_same]
  rfl

section
variable {s : State} {core : Nat} {heat : HeatReport}

theorem thermalMigration_cool (h : s.clocked = false ∨ ¬ (s.core core).above heat.temp = true) :
    exec (.thermalMigration core heat) s = .next s := by
  rw [exec_thermalMigration, execThermalMigration, if_pos]
  simpa using h

variable (clocked : s.clocked = true) (above : (s.core core).above heat.temp = true)
include clocked above

theorem thermalMigration_hot : exec (.thermalMigration core heat) s = .next (
    let hot := s.markHot core
    if hot.movedLately core || hot.phase ≠ .running then hot.throttle core
    else (hot.migrant core).elim (hot.throttle core) (fun u =>
      if (hot.coolTarget u (heat.coolest.filter (fun d => d ≠ core))).isSome then
        (hot.modCore core (fun c => { c with lastMigration := some s.cycle })).startSave u heat.area (heat.coolest.filter (fun d => d ≠ core))
      else hot.throttle core)) := by
  rw [exec_thermalMigration, execThermalMigration, if_neg (by simp [clocked, above])]
  dsimp only
  cases e : (s.markHot core).migrant core with
  | none =>
    unfold State.markHot at e ⊢
    rw [e]
    rfl
  | some u =>
    unfold State.markHot at e ⊢
    rw [e]
    rfl

theorem thermalMigration_throttles (h : s.movedLately core = true ∨ s.phase ≠ .running ∨ (s.markHot core).migrant core = none ∨
      ∀ u, (s.markHot core).migrant core = some u → (s.markHot core).coolTarget u (heat.coolest.filter (fun d => d ≠ core)) = none) :
    exec (.thermalMigration core heat) s = .next ((s.markHot core).throttle core) := by
  rw [thermalMigration_hot clocked above]
  dsimp only
  split
  next => rfl
  next able =>
    rw [movedLately_markHot, Bool.or_eq_true, decide_eq_true_eq] at able
    have stays := (h.resolve_left fun late => able (.inl late)).resolve_left fun stopped => able (.inr stopped)
    cases e : (s.markHot core).migrant core with
    | none => rfl
    | some u =>
      have nowhere := (stays.resolve_left (by rw [e]; exact nofun)) u e
      rw [Option.elim_some, nowhere]
      rfl

theorem thermalMigration_saves {u : Nat} {d : Nat × Placement} (able : ¬ s.movedLately core = true) (running : s.phase = .running)
    (team : (s.markHot core).migrant core = some u)
    (target : (s.markHot core).coolTarget u (heat.coolest.filter (fun d => d ≠ core)) = some d) : exec (.thermalMigration core heat) s =
      .next (((s.markHot core).modCore core (fun c => { c with lastMigration := some s.cycle })).startSave u heat.area
        (heat.coolest.filter (fun d => d ≠ core))) := by
  rw [thermalMigration_hot clocked above]
  dsimp only
  rw [if_neg, team, Option.elim_some, target]
  · rfl
  · rw [movedLately_markHot, Bool.or_eq_true, decide_eq_true_eq]
    exact not_or.mpr ⟨able, not_not.mpr running⟩

end

end Sys2Proof.Machine
end

section
namespace Sys2Proof.Machine

open Sys2Proof Sys2Proof.Safety

/-! ### The obligation -/

/-- Settles O53: an entry by what stops it, in the order of the checks; the entry served as the least by priority and age; starts and retirements
by what each changes; a hot core by whether a team can move. -/
theorem gridEvents : Obligations.GridEvents := by
  refine ⟨?_, ?_, ?_, ?_, ?_, ?_, ?_⟩
  · intro part prio entry stores s b y x f q z ndep dep legal hit desc go
    refine ⟨frontEndEntry_closed, fun running live intake => ⟨frontEndEntry_unexpected running live intake, fun expected =>
      ⟨frontEndEntry_held running live intake expected, fun free => ?_⟩⟩⟩
    have taken : go = .next (y.takeEntry part prio b) := frontEndEntry_taken running live intake expected free
    have fields : entryFieldsOk f b = true ↔ legal := entryFieldsOk_iff rfl
    have refused : (entryDeps b).any (fun d => f.seqState d.1 = .refused) = true ↔ hit := any_refused_iff
    rw [taken]
    refine ⟨fun illegal => congrArg _ (takeEntry_illegal rfl (Bool.eq_false_iff.mpr fun ok => illegal (fields.mp ok))),
      fun ok dependent => congrArg _ (takeEntry_dependent rfl (fields.mpr ok) (refused.mpr dependent)),
      fun ok none_hit unreadable => congrArg _ (takeEntry_unreadable rfl (fields.mpr ok)
        (Bool.eq_false_iff.mpr fun any => none_hit (refused.mp any)) unreadable), fun xs ok none_hit read => ?_⟩
    have described := takeEntry_described (prio := prio) rfl (fields.mpr ok) (Bool.eq_false_iff.mpr fun any => none_hit (refused.mp any)) read
    refine ⟨fun bad => congrArg _ (described.trans (if_neg (ne_true_of_eq_false bad))), fun good => ?_⟩
    exact ⟨_, congrArg _ (described.trans (if_pos good)), rfl, fun d => mem_openDeps.trans (by simp only [entryDep, decide_eq_true_eq]; rfl)⟩
  · intro p s ready
    exact ⟨served_none, fun i served => ⟨served_ready served, fun j => served_first served⟩⟩
  · intro part s
    exact dispatchTeam_idle
  · intro part s i c x runs place g d n gang
    refine ⟨served_of_placeable place, s.startTeam i c x, dispatchTeam_starts runs place, ?_, fun v hv => ?_, ?_, fun k => ?_,
      grid_startTeam s i c x, part_startTeam s i c x, fun q seq first kept => ?_, fun wf a => ?_⟩
    · rw [startTeam_rest]
      rfl
    · rw [team_startTeam, if_neg hv]
    · rw [team_startTeam, if_pos rfl]
      rfl
    · rw [team_startTeam, if_pos rfl]
      exact gang_newTeam s i c x k
    · exact startTeam_running s i c x seq first (decide_eq_true kept)
    · rw [startTeam_rest]
      exact memGet_startWindow _ _ wf a
  · intro u s
    refine ⟨teamRetirement_waits, fun may => ⟨teamRetirement_retires may, fun gangs side => ?_⟩⟩
    rw [teamRetirement_retires may, logsFlushed_nil fun g hg => (gangs g hg).1, reportAllLeft_synced (fun g hg => (gangs g hg).2) side]
  · intro u s i home g
    have grid : (s.released u).grid i = { g with retired := g.retired + 1 } := (grid_released s u i).trans (if_pos rfl)
    have launched := gridCheck_launched (s := s.released u) (i := i)
    have entered (q : BitVec 32) := gridCheck_entered (s := s.released u) (i := i) (q := q)
    rw [grid] at launched
    simp only [grid] at entered
    refine ⟨s.released u, freeTeam_eq s u, released_rest s u, team_released s u, grid_released s u, core_released s u, record_released s u,
      fun more => ?_, fun live placed retired free seq => ?_, fun q live placed retired free seq => ?_⟩
    · rw [freeTeam_eq, gridCheck_unfinished (by rw [grid]; exact more)]
    · rw [freeTeam_eq, launched live placed retired free seq, State.gridDone, grid]
    · rw [freeTeam_eq, entered q live placed retired free seq, State.gridDone, grid]
  · intro core heat s early above others hot
    have late : s.movedLately core = true ↔ early := movedLately_iff
    have hotter : (s.core core).above heat.temp = true ↔ above := above_iff
    refine ⟨fun h => thermalMigration_cool (h.imp_right fun cool warm => cool (hotter.mp warm)), fun clocked warm => ⟨fun h => ?_, ?_⟩⟩
    · exact thermalMigration_throttles clocked (hotter.mpr warm) (h.imp_left late.mpr)
    · intro u d able running team target
      exact thermalMigration_saves clocked (hotter.mpr warm) (fun h => able (late.mp h)) running team target

end Sys2Proof.Machine
end

section
namespace Sys2Proof.Machine

open Sys2Proof Sys2Proof.Safety

/-! ### Transfers that may leave a level (R240) -/

/-- A transfer that ends levels: it is done where it ends none or its condition for ending them holds, and else it traps. -/
theorem leaving_word {i : Instr} {f : Form} {body : Ctx → State → Except Stop State} {s s1 : State} {u : Issuer}
    {vals : List (List Word)} {popped : Bool} (h : GangIssues i f u s vals s1 popped) (he : exec i s = issue i f body s)
    (hj : f.jumps = true) (hm : f.merges = false) (place : Nat → Slice → Slice) (ends : LoopLevel → Bool) (legal : Bool)
    (hb : body (ctxOf i u s vals) s1 =
      if (s.gang u.team u.gang).levels.any ends && !legal then .error (.trap convergence)
      else .ok (s1.modGang u.team u.gang (fun g => (g.closeLevels ends).modSlices u.slices place))) :
    let g := s.gang u.team u.gang
    ((g.levels.any ends = true → legal = true) →
      ∃ t, exec i s = .next t ∧ OnlyGang s t u ∧ Transfers g (t.gang u.team u.gang) u.slices place ends) ∧
    (g.levels.any ends = true → legal = false → exec i s = .next (s.takeTrap u { cause := .convergence })) := by
  rw [he]
  constructor
  · intro may
    rw [if_neg] at hb
    · exact transfer_word h hj hm place ends hb
    · intro stops
      obtain ⟨ending, illegal⟩ := Bool.and_eq_true_iff.mp stops
      rw [may ending] at illegal
      cases illegal
  · intro ending illegal
    rw [ending, illegal] at hb
    exact issue_stops h.toIssues hb

/-! ### BRC -/

/-- A lane of a slice takes a BRC when it is active, its guard is true and its predicate, negated or not, holds (R224). -/
theorem getLsbD_takenLanes (g : Gang) (i : Nat) (p : PNum) (n : Bool) {l : Nat} (hl : l < 4) :
    (takenLanes g i p n).getLsbD l =
      ((g.slice i).m.getLsbD l && (g.lane (4 * i + l)).guard g.gmode && ((g.lane (4 * i + l)).pred p != n)) := by
  unfold takenLanes
  rw [BitVec.getLsbD_setWidth, getLsbD_maskOf _ (by omega), decide_eq_true hl, Bool.true_and]

/-- Settles O21: a BRC is a transfer whose place depends on the lanes that take it; it ends levels only where some lane does. -/
theorem brcWord : Obligations.BrcWord := by
  intro p n off s u vals s1 popped h
  obtain ⟨transfers, traps⟩ := leaving_word h rfl rfl rfl
    (fun i x => x.branch (takenLanes (s.gang u.team u.gang) i p n) (pcAt s u + 4#64) (off20Target (pcAt s u) off))
    (fun x => (upTo 8).any (fun i => u.slices.getLsbD i && takenLanes (s.gang u.team u.gang) i p n ≠ 0#4) &&
      (s.gang u.team u.gang).levelsLeft u.slices (off20Target (pcAt s u) off) x)
    ((s.gang u.team u.gang).mayLeave u.slices && (upTo 8).all (fun i => !u.slices.getLsbD i ||
      takenLanes (s.gang u.team u.gang) i p n = ((s.gang u.team u.gang).slice i).m))
    (by rw [ctxOf_gang h.isGang]; rfl)
  refine ⟨fun may => transfers fun ending => ?_, fun ending illegal => traps ending ?_, fun i l _ hl => getLsbD_takenLanes _ i p n hl⟩
  · rcases may with none_ends | legal
    · cases ending.symm.trans none_ends
    · exact Bool.and_eq_true_iff.mpr legal
  · exact Bool.eq_false_iff.mpr fun legal => illegal (Bool.and_eq_true_iff.mp legal)

end Sys2Proof.Machine
end

section
namespace Sys2Proof.Machine

open Sys2Proof Sys2Proof.Safety

/-! ### The target of an indirect transfer (R234) -/

section
variable {i : Instr} {s : State} {u : Issuer} {vals : List (List Word)}

/-- The active lanes whose target is not that of the lowest active lane. -/
def strayLanes (s : State) (u : Issuer) (vals : List (List Word)) : Half :=
  let active := (s.gang u.team u.gang).activeOf u.slices
  maskOf (fun l => active.getLsbD l && valOf vals 0 l ≠ valOf vals 0 (lowLane active))

/-- Active lanes that do not agree stop an indirect transfer. -/
theorem indirectTarget_diverges (hg : u.gang ≠ 16) (stray : strayLanes s u vals ≠ 0#32) :
    indirectTarget (ctxOf i u s vals) = .error (.trap { cause := .indirectDiverge, lanes := some (strayLanes s u vals) }) := by
  rw [ctxOf_gang hg]
  exact if_pos stray

/-- Lanes that agree: the target is the lowest active lane's, where it is a word of the address space. -/
theorem indirectTarget_agree (hg : u.gang ≠ 16) (agree : strayLanes s u vals = 0#32) :
    let active := (s.gang u.team u.gang).activeOf u.slices
    let tl := valOf vals 0 (lowLane active)
    indirectTarget (ctxOf i u s vals) =
      if tl.extractLsb' 0 2 ≠ 0#2 || tl.extractLsb' 48 16 ≠ 0#16 then
        .error (.trap { cause := .misaligned, lanes := some active, detail := tl })
      else .ok tl := by
  rw [ctxOf_gang hg]
  exact if_neg (not_not.mpr agree)

/-- Where the active lanes agree on a word of the address space, that is the target. -/
theorem indirectTarget_agreed (hg : u.gang ≠ 16) {tgt : Addr} (agreed : Agreed s u vals tgt) :
    indirectTarget (ctxOf i u s vals) = .ok tgt := by
  obtain ⟨some_active, same, aligned, within⟩ := agreed
  obtain ⟨low, low_active⟩ := lowLane_mem some_active
  have lowest := same _ low low_active
  have none_stray : strayLanes s u vals = 0#32 := by
    refine BitVec.eq_of_getLsbD_eq fun l hl => ?_
    unfold strayLanes
    rw [getLsbD_maskOf _ hl, lowest]
    cases active : ((s.gang u.team u.gang).activeOf u.slices).getLsbD l
    · simp
    · simp [same l hl active]
  rw [indirectTarget_agree hg none_stray, lowest, aligned, within]
  rfl

end

/-! ### CALL and CALLI -/

/-- A call pushes in every slice of the unit and goes to its target, unless a return stack is full. -/
theorem callTo_gang {i : Instr} {s s1 : State} {u : Issuer} {vals : List (List Word)} (hg : u.gang ≠ 16) (tgt : Addr) :
    callTo (ctxOf i u s vals) tgt s1 =
      if (upTo 8).any (fun j => u.slices.getLsbD j && decide (16 ≤ ((s.gang u.team u.gang).slice j).ret.length)) then
        .error (.trap { cause := .rstackFull })
      else .ok (s1.modGang u.team u.gang (fun g => (g.closeLevels (fun _ => false)).modSlices u.slices
        (fun _ x => { x with ret := ⟨pcAt s u + 4#64, x.stack.length⟩ :: x.ret, pc := tgt }))) := by
  simp only [Gang.closeLevels_none]
  rw [ctxOf_gang hg]
  rfl

/-- Settles O22: the two words are a call once CALLI's active lanes agree on a target; it ends no level. -/
theorem callWords : Obligations.CallWords := by
  intro i f tgt s u vals s1 popped hw h
  obtain ⟨body, he, hj, hm, hb⟩ : ∃ body, exec i s = issue i f body s ∧ f.jumps = true ∧ f.merges = false ∧
      body (ctxOf i u s vals) s1 = callTo (ctxOf i u s vals) tgt s1 := by
    obtain ⟨off, rfl, rfl, rfl⟩ | ⟨a, wa, rfl, rfl, agreed⟩ := hw
    · refine ⟨_, rfl, rfl, rfl, ?_⟩
      rw [ctxOf_gang h.isGang]
      rfl
    · refine ⟨_, rfl, rfl, rfl, ?_⟩
      rw [indirectTarget_agreed h.isGang agreed]
  rw [callTo_gang h.isGang] at hb
  have full_iff : (upTo 8).any (fun j => u.slices.getLsbD j && decide (16 ≤ ((s.gang u.team u.gang).slice j).ret.length)) = true ↔
      ∃ j, j < 8 ∧ u.slices.getLsbD j = true ∧ 16 ≤ ((s.gang u.team u.gang).slice j).ret.length := by
    simp only [List.any_eq_true, mem_upTo, Bool.and_eq_true, decide_eq_true_eq]
  rw [he]
  constructor
  · intro room
    refine transfer_word h hj hm _ _ (hb.trans (if_neg fun full => ?_))
    obtain ⟨j, hj8, hju, hfull⟩ := full_iff.mp full
    exact absurd (room j hj8 hju) (Nat.not_lt.mpr hfull)
  · intro full
    exact issue_stops h.toIssues (hb.trans (if_pos (full_iff.mpr full)))

/-! ### RET and RETR -/

section
variable (g : Gang) (slices : BitVec 8)

/-- A slice of the unit whose top return entry did not record its present reconvergence depth (R236). -/
def depthDiffers (j : Nat) : Bool := slices.getLsbD j && decide ((g.slice j).ret.head?.map (·.depth) ≠ some (g.slice j).stack.length)

/-- The levels that a return ends: those at or above the depth left, and for RETR those at the depth returned to whose body does not
hold its target (R240). -/
def returnEnds (dest : Option Addr) (y : LoopLevel) : Bool :=
  (upTo 8).any (fun j => slices.getLsbD j && (decide ((g.slice j).ret.length ≤ y.depth) ||
    match dest with
    | some tl => decide ((g.slice j).ret.length = y.depth + 1) && !y.holds tl
    | none => false))

end

/-- A slice after a return: at its own return address or at RETR's target. -/
def Slice.popReturn (dest : Option Addr) (x : Slice) : Slice :=
  match x.ret with
  | [] => x
  | e :: rest => { x with ret := rest, pc := dest.getD e.ret }

/-- A return checks the slices' top entries, and then pops them. -/
theorem returnBy_gang {i : Instr} {s s1 : State} {u : Issuer} {vals : List (List Word)} (hg : u.gang ≠ 16) (dest : Option Addr) :
    let g := s.gang u.team u.gang
    returnBy (ctxOf i u s vals) dest s1 =
      if (upTo 8).any (fun j => u.slices.getLsbD j && (g.slice j).ret.isEmpty) then .error (.trap { cause := .rstackEmpty })
      else if (upTo 8).any (depthDiffers g u.slices) then
        .error (.trap { cause := .convergence, lanes := some (laneMask u.slices (fun j =>
          if depthDiffers g u.slices j then ~~~ (g.slice j).x &&& ~~~ (g.slice j).m else 0#4)) })
      else if g.levels.any (returnEnds g u.slices dest) && !g.mayLeave u.slices then .error (.trap convergence)
      else .ok (s1.modGang u.team u.gang (fun g' =>
        (g'.closeLevels (returnEnds g u.slices dest)).modSlices u.slices (fun _ x => x.popReturn dest))) := by
  rw [ctxOf_gang hg]
  rfl

/-- Settles O23: the two words are a return once RETR's active lanes agree on a target. -/
theorem returnWords : Obligations.ReturnWords := by
  intro i f dest s u vals s1 popped hw h
  obtain ⟨body, he, hj, hm, hb⟩ : ∃ body, exec i s = issue i f body s ∧ f.jumps = true ∧ f.merges = false ∧
      body (ctxOf i u s vals) s1 = returnBy (ctxOf i u s vals) dest s1 := by
    obtain ⟨rfl, rfl, rfl⟩ | ⟨a, wa, tgt, rfl, rfl, agreed, rfl⟩ := hw
    · exact ⟨_, rfl, rfl, rfl, rfl⟩
    · refine ⟨_, rfl, rfl, rfl, ?_⟩
      rw [indirectTarget_agreed h.isGang agreed]
  rw [returnBy_gang h.isGang] at hb
  refine ⟨fun empty => ?_, fun entries differs => ?_, fun entries same ending illegal => ?_, fun entries same may => ?_⟩
  · rw [he]
    exact issue_stops h.toIssues (hb.trans (if_pos empty))
  · rw [he]
    exact issue_stops h.toIssues (hb.trans ((if_neg (ne_true_of_eq_false entries)).trans (if_pos differs)))
  all_goals have returns := hb.trans ((if_neg (ne_true_of_eq_false entries)).trans (if_neg (ne_true_of_eq_false same)))
  · exact (leaving_word h he hj hm _ _ _ returns).2 ending illegal
  · exact (leaving_word h he hj hm _ _ _ returns).1 may

/-! ### JMPI, and the traps of indirect transfers -/

/-- Settles O24: JMPI is a transfer to the target agreed on, and the target of each of the three words is judged before their own effect. -/
theorem indirectTraps : Obligations.IndirectTraps := by
  refine ⟨fun a wa tgt s u vals s1 popped h agreed may => ?_, fun i a wa s u vals s1 popped hw h => ?_⟩
  · refine (leaving_word h rfl rfl rfl (fun _ x => { x with pc := tgt }) _ _ ?_).1 may
    rw [indirectTarget_agreed h.isGang agreed, ctxOf_gang h.isGang]
    rfl
  · obtain ⟨body, he, hb⟩ : ∃ body, exec i s = issue i _ body s ∧
        ∀ st, indirectTarget (ctxOf i u s vals) = .error st → body (ctxOf i u s vals) s1 = .error st := by
      obtain rfl | rfl | rfl := hw
      all_goals exact ⟨_, rfl, fun st stops => by rw [stops]⟩
    rw [he]
    refine ⟨fun stray => issue_stops h.toIssues (hb _ (indirectTarget_diverges h.isGang stray)), fun agree bad => ?_⟩
    refine issue_stops h.toIssues (hb _ ((indirectTarget_agree h.isGang agree).trans (if_pos ?_)))
    simpa using bad

end Sys2Proof.Machine
end

section
namespace Sys2Proof.Machine

open Sys2Proof Sys2Proof.Safety

/-! ### Units that may issue -/

/-- A slice is of a sub-gang when it has not exited and has its name. -/
theorem Gang.getLsbD_subgang (g : Gang) (n : Nat) {i : Nat} (hi : i < 8) :
    (g.subgang n).getLsbD i = (!(g.slice i).exited && decide ((g.slice i).sub = n)) := getLsbD_sliceMask _ hi

/-- The slices of one sub-gang that stand at one word, none of them stopped, may issue. -/
theorem Gang.unitOk_of {g : Gang} {m : BitVec 8} {n : Nat} (some_ : m ≠ 0#8)
    (named : ∀ i, i < 8 → m.getLsbD i = (!(g.slice i).exited && decide ((g.slice i).sub = n)))
    (stand : ∀ i, i < 8 → m.getLsbD i = true → (g.slice i).stopped = false ∧ (g.slice i).pc = g.pcOf m) : g.unitOk m = true := by
  have whole : m = g.subgang n := BitVec.eq_of_getLsbD_eq fun i hi => by rw [g.getLsbD_subgang n hi, named i hi]
  obtain ⟨low, low_in⟩ := lowSlice_mem some_
  have low_sub : (g.slice (lowSlice m)).sub = n := (Gang.subgang_live low (whole ▸ low_in)).2
  simp only [Gang.unitOk, Bool.and_eq_true, decide_eq_true_eq, List.all_eq_true, mem_upTo]
  refine ⟨⟨some_, by rw [low_sub]; exact whole⟩, fun i hi => ?_⟩
  cases hm : m.getLsbD i with
  | false => rfl
  | true =>
    obtain ⟨running, at_pc⟩ := stand i hi hm
    simp [running, at_pc]

/-- A unit that may issue holds the slices that bear its name and have not exited. -/
theorem Gang.unitOk_named {g : Gang} {m : BitVec 8} (h : g.unitOk m = true) {i : Nat} (hi : i < 8) :
    m.getLsbD i = (!(g.slice i).exited && decide ((g.slice i).sub = (g.slice (lowSlice m)).sub)) := by
  simp only [Gang.unitOk, Bool.and_eq_true, decide_eq_true_eq] at h
  rw [← g.getLsbD_subgang _ hi, ← h.1.2]

/-- Whether a unit may issue depends on where its gang's slices stand, their names, and which have exited or stopped. -/
theorem Gang.unitOk_slices {g g' : Gang} {m : BitVec 8} (h : g.unitOk m = true)
    (same : ∀ i, i < 8 → (g'.slice i).x = (g.slice i).x ∧ (g'.slice i).sub = (g.slice i).sub ∧
      (g'.slice i).stopped = (g.slice i).stopped ∧ (g'.slice i).pc = (g.slice i).pc) : g'.unitOk m = true := by
  refine Gang.unitOk_of (n := (g.slice (lowSlice m)).sub) (Gang.unitOk_ne h) (fun i hi => ?_) (fun i hi hm => ?_)
  · rw [Gang.unitOk_named h hi, Slice.exited, Slice.exited, (same i hi).1, (same i hi).2.1]
  · obtain ⟨-, running, at_pc⟩ := Gang.unitOk_slice h hi hm
    rw [(same i hi).2.2.1, (same i hi).2.2.2, Gang.pcOf_congr (Gang.unitOk_ne h) fun j hj => (same j hj).2.2.2]
    exact ⟨running, at_pc⟩

/-! ### Words that change only their gang -/

/-- A word of a gang whose own effect changes the gang by a function, and then passes on as every word does. -/
theorem gang_effect {i : Instr} {f : Form} {body : Ctx → State → Except Stop State} {s s1 : State} {u : Issuer}
    {vals : List (List Word)} {popped : Bool} (h : GangIssues i f u s vals s1 popped) (he : exec i s = issue i f body s) (F : Gang → Gang)
    (hb : body (ctxOf i u s vals) s1 = .ok (s1.modGang u.team u.gang F)) :
    ∃ t, exec i s = .next t ∧ OnlyGang s t u ∧ t.gang u.team u.gang = finishGang f popped u (F (s.gang u.team u.gang)) := by
  rw [he]
  exact gang_word h F hb

/-! ### RCV -/

/-- RC set in the slices of the unit. -/
def Gang.setRc (g : Gang) (slices : BitVec 8) (rc : Addr) : Gang := g.modSlices slices (fun _ x => { x with rc := some rc })

theorem Gang.slice_setRc (g : Gang) (slices : BitVec 8) (rc : Addr) {i : Nat} (hi : i < 8) :
    (g.setRc slices rc).slice i = if slices.getLsbD i then { g.slice i with rc := some rc } else g.slice i := by
  unfold Gang.setRc
  split
  · next unit => exact Gang.slice_modSlices_in _ _ _ hi unit
  · next other => exact Gang.slice_modSlices_out _ _ _ hi (by simpa using other)

/-- Every slice stands where it stood. -/
theorem Gang.pc_setRc (g : Gang) (slices : BitVec 8) (rc : Addr) {i : Nat} (hi : i < 8) :
    ((g.setRc slices rc).slice i).pc = (g.slice i).pc ∧ ((g.setRc slices rc).slice i).ret = (g.slice i).ret := by
  rw [g.slice_setRc slices rc hi]
  split <;> exact ⟨rfl, rfl⟩

/-- RC does not bear on whether a level ends at the unit's word. -/
theorem Gang.loopEnd_setRc (g : Gang) {slices : BitVec 8} (rc : Addr) (some_ : slices ≠ 0#8) :
    (g.setRc slices rc).loopEnd slices ((g.setRc slices rc).pcOf slices) = g.loopEnd slices (g.pcOf slices) := by
  rw [Gang.pcOf_congr (g := g) some_ fun i hi => (g.pc_setRc slices rc hi).1]
  exact Gang.loopEnd_congr (g := g) (g' := g.setRc slices rc) _ _ rfl fun i hi => (g.pc_setRc slices rc hi).2

/-- The word of RCV is its opcode with the offset below it. -/
theorem brWord_rcv (off : BitVec 20) : brWord 0x05#8 0#3 false off = 0x05000000#32 ||| off.setWidth 32 := by
  have fields : (brWord 0x05#8 0#3 false off).toNat = 0x05000000 ||| off.toNat := by
    unfold brWord
    rw [BitVec.toNat_append, BitVec.toNat_append, BitVec.toNat_append]
    simp
  apply BitVec.eq_of_toNat_eq
  rw [fields, BitVec.toNat_or, BitVec.toNat_setWidth_of_le (by decide)]
  rfl

/-- Settles O18: RC is the word's own effect, and then it passes on as every word does. -/
theorem rcvWord : Obligations.RcvWord := by
  refine ⟨fun off => congrArg some (brWord_rcv off), fun off s u vals s1 popped h => ?_⟩
  obtain ⟨t, ht, hO, hG⟩ := gang_effect h rfl (fun g => g.setRc u.slices (off20Target (pcAt s u) off)) (by rw [ctxOf_gang h.isGang]; rfl)
  have may_issue := Gang.unitOk_slices (g' := (s.gang u.team u.gang).setRc u.slices (off20Target (pcAt s u) off))
    (State.issuable_gang h.issuable h.isGang) (fun i hi => by rw [Gang.slice_setRc _ _ _ hi]; split <;> exact ⟨rfl, rfl, rfl, rfl⟩)
  refine ⟨t, ht, hO, ?_, fun body none_ends => ?_⟩
  · rw [hG]
    exact controlOnly_finish _ popped u rfl
  · have passes := finishGang_passes (f := {}) (popped := popped) (u := u) rfl rfl may_issue body
    rw [← hG] at passes
    obtain ⟨-, others, passed, -⟩ := passes
    obtain ⟨lc, levels, unit⟩ := passed ((Gang.loopEnd_setRc _ _ (Gang.unitOk_ne may_issue)).trans none_ends)
    refine ⟨lc, levels, fun i hi => ?_⟩
    split
    · next mine =>
      rw [unit i hi mine, Gang.slice_setRc _ _ _ hi, if_pos mine]
      rfl
    · next other =>
      rw [others i hi (by simpa using other), Gang.slice_setRc _ _ _ hi, if_neg other]

end Sys2Proof.Machine
end

section
namespace Sys2Proof.Machine

open Sys2Proof Sys2Proof.Safety

/-! ### LOOP -/

/-- The unit is whole and its slices agree in return depth (R237). -/
def Gang.evenReturns (g : Gang) (slices : BitVec 8) : Prop :=
  g.whole slices = true ∧ ∀ i, i < 8 → slices.getLsbD i = true → (g.slice i).ret.length = g.retDepth slices

/-- There is room for one more level with the counter (R237). -/
def Gang.hasRoom (g : Gang) (lc : BitVec 2) : Prop := g.levels.length < 3 ∧ ∀ x ∈ g.levels, x.lc ≠ lc.toNat

/-- The gang with a level open over `words` words from `first` and its counter at the count; the slices stand where they stood. -/
def Gang.openLevel (g : Gang) (slices : BitVec 8) (lc : BitVec 2) (n : Half) (first : Addr) (words : BitVec 8) : Gang :=
  { g with
    lc := rowPut 0 g.lc lc.toNat n
    lcbad := g.lcbad &&& ~~~ (1#3 <<< lc.toNat)
    levels := { lc := lc.toNat, start := first, stop := first + (words.setWidth 64 <<< 2), depth := g.retDepth slices,
                rdepth := (upTo 8).map (fun i => (g.slice i).stack.length) } :: g.levels }

section
variable (g : Gang) (slices : BitVec 8) (lc : BitVec 2) (n : Half) (first : Addr) (words : BitVec 8)

theorem Gang.counter_openLevel (j : Nat) :
    (if (g.openLevel slices lc n first words).levels.any (fun x => false && decide (x.lc = j)) then 0
      else rowGet 0 (g.openLevel slices lc n first words).lc j) = if j = lc.toNat then n else rowGet 0 g.lc j := by
  simp only [Bool.false_and, List.any_eq_true, Bool.false_eq_true, and_false, exists_false, if_false, Gang.openLevel]
  split
  · next same => rw [same, rowGet_rowPut_same]
  · next other => exact rowGet_rowPut_other _ _ _ (Ne.symm other)

theorem Gang.lcbad_openLevel {j : Nat} (hj : j < 3) :
    (g.openLevel slices lc n first words).lcbad.getLsbD j = (g.lcbad.getLsbD j && decide (j ≠ lc.toNat)) := by
  have bit : (1#3 <<< lc.toNat).getLsbD j = decide (j = lc.toNat) := by
    rw [BitVec.getLsbD_shiftLeft, BitVec.getLsbD_one, decide_eq_true hj, Bool.eq_iff_iff]
    simp
    omega
  simp only [Gang.openLevel, BitVec.getLsbD_and, BitVec.getLsbD_not, decide_eq_true hj, bit, Bool.true_and, decide_not]

end

theorem not_evenReturns_iff {g : Gang} {slices : BitVec 8} :
    (!g.whole slices || (upTo 8).any (fun i => slices.getLsbD i && (g.slice i).ret.length ≠ g.retDepth slices)) = true ↔
      ¬ g.evenReturns slices := by
  simp only [Gang.evenReturns, Bool.or_eq_true, Bool.not_eq_true', List.any_eq_true, mem_upTo, Bool.and_eq_true, decide_eq_true_eq,
    not_and_or, not_forall, exists_prop, Bool.not_eq_true]

theorem not_hasRoom_iff {g : Gang} {lc : BitVec 2} :
    (decide (3 ≤ g.levels.length) || g.levels.any (fun x => x.lc = lc.toNat)) = true ↔ ¬ g.hasRoom lc := by
  simp only [Gang.hasRoom, Bool.or_eq_true, decide_eq_true_eq, List.any_eq_true, not_and_or, not_forall, exists_prop, not_not, Nat.not_lt]

/-- What LOOP does: its two traps, and then it passes an empty loop by or opens a level. -/
theorem execLoop_issues (lc : BitVec 2) (ka : KNum) (words : BitVec 8) (s : State) {u : Issuer} (hg : u.gang ≠ 16)
    (vals : List (List Word)) (s1 : State) :
    let g := s.gang u.team u.gang
    let n : Half := (g.kreg ka).setWidth 32
    let first := pcAt s u + 4#64
    ∃ body, exec (.loop lc ka words) s = issue (.loop lc ka words) { ks := [ka], jumps := true } body s ∧
      (¬ g.evenReturns u.slices → body (ctxOf (.loop lc ka words) u s vals) s1 = .error (.trap convergence)) ∧
      (g.evenReturns u.slices → ¬ g.hasRoom lc → body (ctxOf (.loop lc ka words) u s vals) s1 = .error (.trap { cause := .loopBuffer })) ∧
      (g.evenReturns u.slices → g.hasRoom lc → n = 0#32 → body (ctxOf (.loop lc ka words) u s vals) s1 =
        .ok (s1.modGang u.team u.gang (fun g' => g'.goto u.slices (first + (words.setWidth 64 <<< 2) + 4#64)))) ∧
      (g.evenReturns u.slices → g.hasRoom lc → n ≠ 0#32 → body (ctxOf (.loop lc ka words) u s vals) s1 =
        .ok (s1.modGang u.team u.gang (fun g' => (g'.openLevel u.slices lc n first words).goto u.slices first))) := by
  refine ⟨_, rfl, ?_⟩
  rw [ctx_k, kOf, if_neg hg, ctxOf_gang hg]
  refine ⟨fun uneven => if_pos (not_evenReturns_iff.mpr uneven), fun even full => ?_, fun even room zero => ?_, fun even room counted => ?_⟩
  all_goals refine (if_neg (mt not_evenReturns_iff.mp (not_not.mpr even))).trans ?_
  · exact if_pos (not_hasRoom_iff.mpr full)
  · exact (if_neg (mt not_hasRoom_iff.mp (not_not.mpr room))).trans (if_pos zero)
  · exact (if_neg (mt not_hasRoom_iff.mp (not_not.mpr room))).trans (if_neg counted)

/-- Settles O25: its traps come first; a count of zero is a transfer, and any other a transfer after the level is open. -/
theorem loopWord : Obligations.LoopWord := by
  intro lc ka words s u vals s1 popped h
  obtain ⟨body, he, uneven_traps, full_traps, goes_past, opens⟩ := execLoop_issues lc ka words s h.isGang vals s1
  refine ⟨fun uneven => ?_, fun even full => ?_, fun even room zero => ?_, fun even room counted => ?_⟩
  · rw [he]
    exact issue_stops h.toIssues (uneven_traps uneven)
  · rw [he]
    exact issue_stops h.toIssues (full_traps even full)
  · rw [he]
    refine transfer_word h rfl rfl _ _ ((goes_past even room zero).trans ?_)
    simp only [Gang.closeLevels_none]
    rfl
  · obtain ⟨t, ht, hO, hG⟩ := gang_effect h he _ (opens even room counted)
    have opened := transfers_finish (f := { ks := [ka], jumps := true }) (popped := popped) (u := u)
      (g := (s.gang u.team u.gang).openLevel u.slices lc (((s.gang u.team u.gang).kreg ka).setWidth 32) (pcAt s u + 4#64) words) rfl rfl
      (fun _ x => { x with pc := pcAt s u + 4#64 }) (fun _ => false)
    rw [Gang.closeLevels_none, ← Gang.goto, ← hG] at opened
    obtain ⟨⟨rest, -, modes⟩, slice, levels, counters⟩ := opened
    refine ⟨t, ht, hO, ?_⟩
    generalize t.gang u.team u.gang = g' at *
    refine ⟨?_, ?_, ?_, ?_, ?_, ?_, ?_, fun body => ?_⟩
    iterate 7 rw [rest]; rfl
    obtain ⟨mode, bad⟩ := modes body
    refine ⟨mode, fun j => ?_, fun j hj => ?_, ?_, ?_⟩
    · exact (counters body j).trans (Gang.counter_openLevel _ _ _ _ _ _ j)
    · rw [bad]
      exact Gang.lcbad_openLevel _ _ _ _ _ _ hj
    · exact (levels body).trans (by simp [Gang.openLevel])
    · exact slice body

/-! ### LEXIT -/

/-- Every slice of the unit has an open level at its return depth (R239). -/
def Gang.levelsNamed (g : Gang) (slices : BitVec 8) : Prop := ∀ j, j < 8 → slices.getLsbD j = true → (g.levelOf j).isSome = true

/-- The unit is whole and its slices are at the reconvergence depth of each level that they leave (R239). -/
def Gang.levelsEven (g : Gang) (slices : BitVec 8) : Prop :=
  g.whole slices = true ∧ ∀ j, j < 8 → slices.getLsbD j = true → ∀ x, g.levelOf j = some x →
    ∀ n, n < 8 → slices.getLsbD n = true → (g.slice n).stack.length = rowGet 0 x.rdepth n

theorem Gang.levelOk_iff {g : Gang} {slices : BitVec 8} {x : LoopLevel} : g.levelOk slices x = true ↔
    g.whole slices = true ∧ ∀ n, n < 8 → slices.getLsbD n = true → (g.slice n).stack.length = rowGet 0 x.rdepth n := by
  simp only [Gang.levelOk, Bool.and_eq_true, List.all_eq_true, mem_upTo, Bool.or_eq_true, Bool.not_eq_true', decide_eq_true_eq,
    ← Bool.not_eq_true, Classical.or_iff_not_imp_left, not_not]

theorem not_levelsNamed_iff {g : Gang} {slices : BitVec 8} :
    ((upTo 8).filter (fun i => slices.getLsbD i)).any (fun i => (g.levelOf i).isNone) = true ↔ ¬ g.levelsNamed slices := by
  simp only [Gang.levelsNamed, List.any_eq_true, List.mem_filter, mem_upTo, not_forall, exists_prop, and_assoc, Bool.not_eq_true,
    Option.isSome_eq_false_iff]

/-- With a slice in the unit, each named level can be left where the slices are even. -/
theorem levelsEven_iff {g : Gang} {slices : BitVec 8} (some_ : slices ≠ 0#8) (named : g.levelsNamed slices) :
    ((upTo 8).filter (fun i => slices.getLsbD i)).all (fun i => (g.levelOf i).all (fun x => g.levelOk slices x)) = true ↔
      g.levelsEven slices := by
  obtain ⟨low, low_in⟩ := lowSlice_mem some_
  obtain ⟨level, at_low⟩ := Option.isSome_iff_exists.mp (named _ low low_in)
  simp only [List.all_eq_true, List.mem_filter, mem_upTo, Option.all_eq_true, Gang.levelOk_iff, Gang.levelsEven]
  exact ⟨fun ok => ⟨(ok _ ⟨low, low_in⟩ level at_low).1, fun j hj unit x mine => (ok j ⟨hj, unit⟩ x mine).2⟩,
    fun ⟨whole, even⟩ j ⟨hj, unit⟩ x mine => ⟨whole, even j hj unit x mine⟩⟩

/-- What LEXIT does: its two traps, and the transfer of each slice past its own level. -/
theorem execLexit_issues (s : State) {u : Issuer} (hg : u.gang ≠ 16) (vals : List (List Word)) (s1 : State) (some_ : u.slices ≠ 0#8) :
    let g := s.gang u.team u.gang
    ∃ body, exec .lexit s = issue .lexit { jumps := true } body s ∧
      (¬ g.levelsNamed u.slices → body (ctxOf .lexit u s vals) s1 = .error (.trap { cause := .loopBuffer })) ∧
      (g.levelsNamed u.slices → ¬ g.levelsEven u.slices → body (ctxOf .lexit u s vals) s1 = .error (.trap convergence)) ∧
      (g.levelsNamed u.slices → g.levelsEven u.slices → body (ctxOf .lexit u s vals) s1 =
        .ok (s1.modGang u.team u.gang (fun g' =>
          (g'.closeLevels (fun y => (upTo 8).any (fun j => u.slices.getLsbD j && decide (g.levelOf j = some y)))).modSlices u.slices
            (fun j y => { y with pc := ((g.levelOf j).map (fun x => x.stop + 4#64)).getD y.pc })))) := by
  refine ⟨_, rfl, ?_⟩
  rw [ctxOf_gang hg]
  refine ⟨fun unnamed => if_pos (not_levelsNamed_iff.mpr unnamed), fun named uneven => ?_, fun named even => ?_⟩
  all_goals refine (if_neg (mt not_levelsNamed_iff.mp (not_not.mpr named))).trans ?_
  · refine if_pos ?_
    rw [Bool.not_eq_true', ← Bool.not_eq_true]
    exact mt (levelsEven_iff some_ named).mp uneven
  · refine (if_neg ?_).trans ?_
    · rw [Bool.not_eq_true', Bool.not_eq_false]
      exact (levelsEven_iff some_ named).mpr even
    · simp only [List.any_filter]

end Sys2Proof.Machine
end

section
namespace Sys2Proof.Machine

open Sys2Proof Sys2Proof.Safety

/-! ### The loop-end step (R238) -/

/-- The word passes on: it completes within its gang, and its unit goes past it. -/
def PassesOn (i : Instr) (s : State) (u : Issuer) : Prop :=
  ∃ t, exec i s = .next t ∧ OnlyGang s t u ∧ PassesWord (s.gang u.team u.gang) (t.gang u.team u.gang) u.slices

/-- A write of a predicate passes on. -/
theorem passesOn_of_predicate {i : Instr} {f : Form} {body : Ctx → State → Except Stop State} {s s1 : State} {u : Issuer}
    {vals : List (List Word)} {popped : Bool} (h : GangIssues i f u s vals s1 popped) (he : exec i s = issue i f body s)
    (hj : f.jumps = false) (hm : f.merges = false) (p : PNum) (r : Nat → Bool) (cs : Option (Nat → Causes))
    (hb : body (ctxOf i u s vals) s1 = .ok (match cs with
      | none => s1.writeP u p (partOf s u) r
      | some cs => (s1.writeP u p (partOf s u) r).raise u.team u.gang (pcAt s u) (partOf s u) cs)) : PassesOn i s u := by
  obtain ⟨t, ht, hO, result⟩ := predicate_word h hj hm p r cs hb
  exact ⟨t, he.trans ht, hO, result.passes⟩

/-- A comparison passes on, and so does PLOP. -/
theorem predSpec_passes {i : Instr} {sp : PredSpec} (row : predSpec i = some sp) {s s1 : State} {u : Issuer} {vals : List (List Word)}
    {popped : Bool} (h : GangIssues i { srcs := sp.srcs, mode := sp.mode } u s vals s1 popped) : PassesOn i s u := by
  unfold predSpec at row
  split at row <;> cases row
  case h_1 cc p a b wa wb => exact passesOn_of_predicate h rfl rfl rfl p _ (some _) (by rw [ctxOf_gang h.isGang]; rfl)
  case h_2 cc p a imm => exact passesOn_of_predicate h rfl rfl rfl p _ (some _) (by rw [ctxOf_gang h.isGang]; rfl)
  case h_3 d a b tt => exact passesOn_of_predicate h rfl rfl rfl d _ none (by rw [ctxOf_gang h.isGang]; rfl)

/-- A row of the vector tables passes on. -/
theorem MeetsRow.passes {i : Instr} {sp : LaneSpec} (row : MeetsRow i sp) {s s1 : State} {u : Issuer} {vals : List (List Word)}
    {popped : Bool} (h : GangIssues i sp.form u s vals s1 popped) : PassesOn i s u := by
  obtain ⟨t, ht, hO, result, -⟩ := row s u vals s1 popped h
  exact ⟨t, ht, hO, result.passes⟩

/-- Each row of the vector tables is met. -/
theorem vectorRow_meets {i : Instr} {sp : LaneSpec}
    (row : (((arithmeticSpec i).or (immediateSpec i)).or (functionSpec i)).or (moveSpec i) = some sp) : MeetsRow i sp := by
  simp only [Option.or_eq_some_iff] at row
  obtain ((arithmetic | ⟨-, immediate⟩) | ⟨-, function⟩) | ⟨-, move⟩ := row
  · exact arithmeticWords i sp arithmetic
  · exact immediateWords i sp immediate
  · exact functionWords i sp function
  · exact moveWords i sp move

/-- A word that passes on at the end of a body takes the loop-end step. -/
theorem PassesOn.loopEnds {i : Instr} {s : State} {u : Issuer} (h : PassesOn i s u) {x : LoopLevel}
    (body : (s.gang u.team u.gang).instar.body = none) (ends : (s.gang u.team u.gang).loopEnd u.slices (pcAt s u) = some x) :
    ∃ t, exec i s = .next t ∧ OnlyGang s t u ∧ LoopEnds (s.gang u.team u.gang) (t.gang u.team u.gang) u.slices x ∧
      ∀ j, j < 8 → u.slices.getLsbD j = false → (t.gang u.team u.gang).slice j = (s.gang u.team u.gang).slice j := by
  obtain ⟨t, ht, hO, passes⟩ := h
  obtain ⟨-, others, -, step⟩ := passes body
  exact ⟨t, ht, hO, step x ends, others⟩

/-- Settles O26: the words of the tables pass on, and LEXIT is a transfer of each slice past its own level. -/
theorem lexitAndLoopEnd : Obligations.LexitAndLoopEnd := by
  refine ⟨fun i f s u vals s1 popped x row h body ends => ?_, fun s u vals s1 popped h => ?_⟩
  · have passes : PassesOn i s u := by
      obtain ⟨sp, row, rfl⟩ | ⟨sp, row, rfl⟩ | ⟨sp, row, rfl⟩ | ⟨rfl, rfl⟩ := row
      · exact (vectorRow_meets row).passes h
      · exact predSpec_passes row h
      · obtain ⟨t, ht, hO, result, -⟩ := uniformWords i sp row s u vals s1 popped h
        exact ⟨t, ht, hO, result.passes⟩
      · obtain ⟨t, ht, hO, -, passes⟩ := nopWord.1 s u vals s1 popped h
        exact ⟨t, ht, hO, passes⟩
    obtain ⟨t, ht, hO, ⟨counters, levels, unit⟩, others⟩ := passes.loopEnds body ends
    exact ⟨t, ht, hO, (counters x.lc).trans (if_pos rfl), fun j other => (counters j).trans (if_neg other), levels, others, unit⟩
  · obtain ⟨body, he, unnamed_traps, uneven_traps, leaves⟩ :=
      execLexit_issues s h.isGang vals s1 (Gang.unitOk_ne (State.issuable_gang h.issuable h.isGang))
    refine ⟨fun unnamed => ?_, fun named uneven => ?_, fun named even => ?_⟩
    all_goals rw [he]
    · exact issue_stops h.toIssues (unnamed_traps unnamed)
    · exact issue_stops h.toIssues (uneven_traps named uneven)
    · exact transfer_word h rfl rfl _ _ (leaves named even)

end Sys2Proof.Machine
end

section
namespace Sys2Proof.Machine

open Sys2Proof Sys2Proof.Safety

/-! ### Slices that part (R225, R228) -/

/-- The slices of a mask, each checked for reconvergence. -/
def Gang.reconverged (g : Gang) (m : BitVec 8) : Gang :=
  g.modSlices m (fun _ x => if x.exited then x else Slice.reconverge (x.stack.length + 1) x)

/-- The slices of a unit that stand where a slice of it stands. -/
def Gang.standWith (g : Gang) (m : BitVec 8) (i : Nat) : List Nat :=
  (upTo 8).filter (fun j => m.getLsbD j && !(g.slice j).exited && (g.slice j).pc = (g.slice i).pc)

/-- A slice of a unit is named by the lowest slice that stands with it after their checks. -/
theorem Gang.sub_part (g : Gang) (m : BitVec 8) {i : Nat} (hi : i < 8) (hm : m.getLsbD i = true)
    (live : ((g.reconverged m).slice i).exited = false) :
    ((g.part m).slice i).sub = ((g.reconverged m).standWith m i).headD i := by
  have named : (g.part m).slice i = if ((g.reconverged m).slice i).exited then (g.reconverged m).slice i
      else { (g.reconverged m).slice i with sub := ((g.reconverged m).standWith m i).headD i } :=
    Gang.slice_modSlices_in (g.reconverged m) m _ hi hm
  rw [named, live]
  rfl

/-- Slices of a unit at one word, with nothing to reconverge to, have one name: that of the lowest of them. -/
theorem Gang.sub_part_together {g : Gang} {m : BitVec 8} {pc : Addr}
    (together : ∀ i, i < 8 → m.getLsbD i = true → (g.slice i).exited = false ∧ (g.slice i).stack = [] ∧ (g.slice i).pc = pc)
    {i : Nat} (hi : i < 8) (hm : m.getLsbD i = true) : ((g.part m).slice i).sub = lowSlice m := by
  have stays {j : Nat} (hj : j < 8) (hmj : m.getLsbD j = true) : (g.reconverged m).slice j = g.slice j := by
    obtain ⟨live, empty, -⟩ := together j hj hmj
    unfold Gang.reconverged
    rw [Gang.slice_modSlices_in _ _ _ hj hmj, live]
    simp only [Bool.false_eq_true, if_false, Slice.reconverge, empty]
  have all_stand : (g.reconverged m).standWith m i = (upTo 8).filter (fun j => m.getLsbD j) := by
    refine List.filter_congr fun j hj => ?_
    cases hmj : m.getLsbD j with
    | false => rfl
    | true =>
      have hj := mem_upTo.mp hj
      rw [stays hj hmj, stays hi hm, (together j hj hmj).1, (together j hj hmj).2.2, (together i hi hm).2.2]
      simp
  have some_ : i ∈ (upTo 8).filter (fun j => m.getLsbD j) := List.mem_filter.mpr ⟨mem_upTo.mpr hi, hm⟩
  rw [g.sub_part m hi hm (by rw [stays hi hm]; exact (together i hi hm).1), all_stand, lowSlice]
  cases hl : (upTo 8).filter (fun j => m.getLsbD j) with
  | nil => rw [hl] at some_; cases some_
  | cons low rest => rfl

/-! ### REGANG -/

/-- A word that merges finishes as a word of the merged unit would, where the merged slices are all that bear the unit's new name. -/
theorem finishGang_merges {f : Form} {popped : Bool} {u : Issuer} {g : Gang} {m : BitVec 8} (hm : f.merges = true)
    (low : (g.slice (lowSlice m)).sub = (g.slice (lowSlice u.slices)).sub) (unit : g.subgang (g.slice (lowSlice u.slices)).sub = m) :
    finishGang f popped u g = finishGang { f with merges := false } popped { u with slices := m } g := by
  unfold finishGang
  simp only [hm, if_true, unit, low, Bool.false_eq_true, if_false]

/-- A slice held at a REGANG at an address has neither exited nor stopped, and stands there. -/
theorem Gang.regangHeld_slice {g : Gang} {pc : Addr} {i : Nat} (hi : i < 8) (h : (g.regangHeld pc).getLsbD i = true) :
    (g.slice i).exited = false ∧ (g.slice i).stopped = false ∧ (g.slice i).pc = pc := by
  rw [Gang.regangHeld, getLsbD_sliceMask _ hi] at h
  simp only [Bool.and_eq_true, Bool.not_eq_true', decide_eq_true_eq] at h
  obtain ⟨⟨live, at_pc⟩, waits⟩ := h
  refine ⟨live, ?_, at_pc⟩
  cases stopped : (g.slice i).stopped with
  | false => rfl
  | true =>
    rw [Slice.waits, stopped] at waits
    cases waits

/-- A slice after a merge. -/
theorem Gang.slice_merge (g : Gang) (m : BitVec 8) {i : Nat} (hi : i < 8) :
    (g.merge m).slice i = if m.getLsbD i then { g.slice i with sub := lowSlice m, wait := none } else g.slice i := by
  unfold Gang.merge
  split
  · next arrived => exact Gang.slice_modSlices_in _ _ _ hi arrived
  · next other => exact Gang.slice_modSlices_out _ _ _ hi (by simpa using other)

section
variable {g : Gang} {m : BitVec 8} {pc : Addr} (some_ : m ≠ 0#8)
  (arrived : ∀ i, i < 8 → m.getLsbD i = true → (g.slice i).exited = false ∧ (g.slice i).stopped = false ∧ (g.slice i).pc = pc)
  (apart : ∀ j, j < 8 → m.getLsbD j = false → (g.slice j).exited = false → (g.slice j).sub ≠ lowSlice m)
include some_ arrived apart

/-- The arrived slices, merged, are a unit that may issue, where no other slice bears its name. -/
theorem Gang.merge_unitOk : (g.merge m).unitOk m = true := by
  obtain ⟨low, low_in⟩ := lowSlice_mem some_
  have pc_low : (g.merge m).pcOf m = pc := by
    rw [Gang.pcOf, g.slice_merge m low, if_pos low_in]
    exact (arrived _ low low_in).2.2
  refine Gang.unitOk_of (n := lowSlice m) some_ (fun i hi => ?_) (fun i hi hm => ?_)
  · rw [g.slice_merge m hi]
    cases hm : m.getLsbD i with
    | true => simpa [Slice.exited] using (arrived i hi hm).1
    | false =>
      simp only [Bool.false_eq_true, if_false]
      cases live : (g.slice i).exited with
      | true => rfl
      | false => simpa using apart i hi hm live
  · rw [pc_low, g.slice_merge m hi, if_pos hm]
    exact (arrived i hi hm).2

end

end Sys2Proof.Machine
end

section
namespace Sys2Proof.Machine

open Sys2Proof Sys2Proof.Safety

/-! ### REGANG: the merged unit goes on -/

/-- A unit at its next word, its waits over, before its slices part. -/
def Gang.stepped (g : Gang) (m : BitVec 8) : Gang :=
  (g.modSlices m (fun _ x => { x with wait := none })).modSlices m (fun _ x => { x with pc := x.pc + 4#64 })

theorem Gang.slice_stepped (g : Gang) (m : BitVec 8) {i : Nat} (hi : i < 8) (hm : m.getLsbD i = true) :
    (g.stepped m).slice i = { g.slice i with pc := (g.slice i).pc + 4#64, wait := none } := by
  unfold Gang.stepped
  rw [Gang.slice_modSlices_in _ _ _ hi hm, Gang.slice_modSlices_in _ _ _ hi hm]

/-- Outside a recipe's body, where no level ends at the word, a word that passes on parts the slices of its unit at the next word. -/
theorem finishGang_slice_stepped {f : Form} {popped : Bool} {u : Issuer} {g : Gang} (hj : f.jumps = false) (hm : f.merges = false)
    (some_ : u.slices ≠ 0#8) (body : g.instar.body = none) (none_ends : g.loopEnd u.slices (g.pcOf u.slices) = none) (i : Nat) :
    (finishGang f popped u g).slice i = ((g.stepped u.slices).part u.slices).slice i := by
  have advances (h : Gang) (slices : h.slices = g.slices) (levels : h.levels = g.levels) :
      (h.modSlices u.slices (fun _ x => { x with wait := none })).advance u.slices = h.stepped u.slices := by
    have same (n : Nat) (hn : n < 8) : ((h.modSlices u.slices (fun _ x => { x with wait := none })).slice n).pc = (g.slice n).pc ∧
        ((h.modSlices u.slices (fun _ x => { x with wait := none })).slice n).ret = (g.slice n).ret := by
      have hs : h.slice n = g.slice n := by rw [Gang.slice, slices, Gang.slice]
      cases unit : u.slices.getLsbD n with
      | true => rw [Gang.slice_modSlices_in _ _ _ hn unit, hs]; exact ⟨rfl, rfl⟩
      | false => rw [Gang.slice_modSlices_out _ _ _ hn unit, hs]; exact ⟨rfl, rfl⟩
    rw [Gang.advance, Gang.pcOf_congr (g := g) some_ fun n hn => (same n hn).1,
      Gang.loopEnd_congr (g := g) (g' := h.modSlices _ _) _ _ levels fun n hn => (same n hn).2, none_ends]
    rfl
  unfold finishGang
  simp only [hj, hm, Bool.false_eq_true, if_false]
  rw [advances, Gang.bodyCheck_none]
  · rw [Gang.slice_partTurn]
    rfl
  · rw [Gang.partTurn_keeps]
    exact body
  · rfl
  · rfl

/-- A slice that goes on does not look at the name of its sub-gang, nor at the wait that ends. -/
theorem sliceAt_renamed (x : Slice) (k : Nat) (pc : Addr) :
    sliceAt { x with sub := k, wait := none } pc = { sliceAt x pc with sub := k } :=
  Slice.reconverge_sub k _ { x with pc := pc, wait := none }

/-- No level ends at a word at which none stops. -/
theorem loopEnd_none_of_stops {g : Gang} {m : BitVec 8} {pc : Addr} (h : ∀ x ∈ g.levels, x.stop ≠ pc) : g.loopEnd m pc = none := by
  unfold Gang.loopEnd
  cases levels : g.levels with
  | nil => rfl
  | cons x rest =>
    have := h x (by rw [levels]; exact List.mem_cons_self)
    simp [this]

section
variable {g : Gang} {m : BitVec 8} {pc : Addr} (some_ : m ≠ 0#8)
  (arrived : ∀ i, i < 8 → m.getLsbD i = true → (g.slice i).exited = false ∧ (g.slice i).stopped = false ∧ (g.slice i).pc = pc)
  (apart : ∀ j, j < 8 → m.getLsbD j = false → (g.slice j).exited = false → (g.slice j).sub ≠ lowSlice m)
include some_ arrived apart

/-- The arrived slices, merged, go to the next word, and part only where one reconverges elsewhere. -/
theorem merged_goes_on {f : Form} {popped : Bool} {u : Issuer} (hj : f.jumps = false) (hm : f.merges = false) (unit : u.slices = m)
    (body : g.instar.body = none) (none_ends : ∀ x ∈ g.levels, x.stop ≠ pc) :
    let g' := finishGang f popped u (g.merge m)
    (∀ i, i < 8 → g'.slice i = if m.getLsbD i then { sliceAt (g.slice i) (pc + 4#64) with sub := (g'.slice i).sub } else g.slice i) ∧
      ((∀ j, j < 8 → m.getLsbD j = true → (g.slice j).stack = []) →
        ∀ i, i < 8 → m.getLsbD i = true → (g'.slice i).sub = lowSlice m) := by
  subst unit
  have may_issue := Gang.merge_unitOk some_ arrived apart
  have merged {i : Nat} (hi : i < 8) (mine : u.slices.getLsbD i = true) :
      (g.merge u.slices).slice i = { g.slice i with sub := lowSlice u.slices, wait := none } := by rw [g.slice_merge _ hi, if_pos mine]
  have at_pc : (g.merge u.slices).pcOf u.slices = pc := by
    obtain ⟨low, low_in⟩ := lowSlice_mem some_
    rw [Gang.pcOf, merged low low_in]
    exact (arrived _ low low_in).2.2
  have stays_open : (g.merge u.slices).loopEnd u.slices ((g.merge u.slices).pcOf u.slices) = none :=
    loopEnd_none_of_stops (g := g.merge u.slices) (by rw [at_pc]; exact none_ends)
  have outside := (finishGang_passes (f := f) (popped := popped) hj hm may_issue body).2
  obtain ⟨others, passed, -⟩ := outside
  obtain ⟨-, -, inside⟩ := passed stays_open
  refine ⟨fun i hi => ?_, fun flat i hi mine => ?_⟩
  · split
    · next mine =>
      rw [inside i hi mine, merged hi mine, (arrived i hi mine).2.2]
      exact congrArg (fun y : Slice => { y with sub := ((finishGang f popped u (g.merge u.slices)).slice i).sub }) (sliceAt_renamed (g.slice i) (lowSlice u.slices) (pc + 4#64))
    · next other =>
      rw [others i hi (by simpa using other), g.slice_merge _ hi, if_neg other]
  · rw [finishGang_slice_stepped (g := g.merge u.slices) hj hm some_ body stays_open]
    refine Gang.sub_part_together (pc := pc + 4#64) (fun j hj mine => ?_) hi mine
    rw [Gang.slice_stepped _ _ hj mine, merged hj mine]
    exact ⟨(arrived j hj mine).1, flat j hj mine, congrArg (· + 4#64) (arrived j hj mine).2.2⟩

end

/-- What REGANG does: its trap, its wait, and the merge. -/
theorem execRegang_issues (mask : BitVec 8) (s : State) {u : Issuer} (hg : u.gang ≠ 16) (vals : List (List Word)) (s1 : State) :
    let g := s.gang u.team u.gang
    let arrived := g.regangHeld (pcAt s u) ||| u.slices
    ∃ body, exec (.regang mask) s = issue (.regang mask) { merges := true } body s ∧
      (u.slices &&& ~~~ mask ≠ 0#8 → body (ctxOf (.regang mask) u s vals) s1 = .error (.trap {
        cause := .convergence, detail := BitVec.ofNat 64 mask.toNat, lanes := some (laneMask (u.slices &&& ~~~ mask) (fun _ => 15#4)) })) ∧
      (u.slices &&& ~~~ mask = 0#8 → g.live &&& mask &&& ~~~ arrived ≠ 0#8 →
        body (ctxOf (.regang mask) u s vals) s1 = .error (.wait (.regang mask) none)) ∧
      (u.slices &&& ~~~ mask = 0#8 → g.live &&& mask &&& ~~~ arrived = 0#8 →
        body (ctxOf (.regang mask) u s vals) s1 = .ok (s1.modGang u.team u.gang (fun g' => g'.merge arrived))) := by
  refine ⟨_, rfl, ?_⟩
  rw [ctxOf_gang hg]
  exact ⟨fun outside => if_pos outside, fun within missing => (if_neg (not_not.mpr within)).trans (if_pos missing),
    fun within complete => (if_neg (not_not.mpr within)).trans (if_neg (not_not.mpr complete))⟩

/-- Settles O27: the trap and the wait come first; then the arrived slices, merged, go on as one unit. -/
theorem regangWord : Obligations.RegangWord := by
  intro mask s u vals s1 popped h
  have may_issue := State.issuable_gang h.issuable h.isGang
  obtain ⟨body, he, traps, waits, merges⟩ := execRegang_issues mask s h.isGang vals s1
  refine ⟨fun outside => ?_, fun within missing => ?_, fun within complete => ?_⟩
  · rw [he]
    exact issue_stops h.toIssues (traps outside)
  · rw [he]
    exact issue_stops h.toIssues (waits within missing)
  · obtain ⟨t, ht, hO, hG⟩ := gang_effect h he _ (merges within complete)
    refine ⟨t, ht, hO, ?_, fun body none_ends apart => ?_⟩
    · rw [hG]
      exact controlOnly_finish _ popped u rfl
    · have arrived (i : Nat) (hi : i < 8) (mine : ((s.gang u.team u.gang).regangHeld (pcAt s u) ||| u.slices).getLsbD i = true) :
          ((s.gang u.team u.gang).slice i).exited = false ∧ ((s.gang u.team u.gang).slice i).stopped = false ∧
            ((s.gang u.team u.gang).slice i).pc = pcAt s u := by
        rw [BitVec.getLsbD_or, Bool.or_eq_true] at mine
        exact mine.elim (Gang.regangHeld_slice hi) (Gang.unitOk_slice may_issue hi)
      obtain ⟨low, low_in⟩ := lowSlice_mem (Gang.unitOk_ne may_issue)
      have low_arrived : ((s.gang u.team u.gang).regangHeld (pcAt s u) ||| u.slices).getLsbD (lowSlice u.slices) = true := by
        rw [BitVec.getLsbD_or, low_in, Bool.or_true]
      generalize ((s.gang u.team u.gang).regangHeld (pcAt s u) ||| u.slices) = m at *
      have some_ : m ≠ 0#8 := fun none_ => by rw [none_] at low_arrived; simp at low_arrived
      have named : ((s.gang u.team u.gang).merge m |>.slice (lowSlice u.slices)).sub = lowSlice m := by
        rw [Gang.slice_merge _ _ low, if_pos low_arrived]
      have unit := Gang.merge_unitOk some_ arrived apart
      rw [finishGang_merges (m := m) rfl] at hG
      · rw [hG]
        exact merged_goes_on some_ arrived apart (u := { u with slices := m }) rfl rfl rfl body none_ends
      · rw [named, Gang.slice_merge _ _ (lowSlice_mem some_).1, if_pos (lowSlice_mem some_).2]
      · rw [named]
        refine BitVec.eq_of_getLsbD_eq fun i hi => ?_
        rw [Gang.getLsbD_subgang _ _ hi, Gang.unitOk_named unit hi, Gang.slice_merge _ _ (lowSlice_mem some_).1,
          if_pos (lowSlice_mem some_).2]

end Sys2Proof.Machine
end

section
namespace Sys2Proof.Machine

open Sys2Proof Sys2Proof.Safety

/-! ### EXIT -/

/-- The pops of an exit leave the exited lanes as they are. -/
theorem Slice.exitPop_x : ∀ (n : Nat) (x : Slice), (Slice.exitPop n x).x = x.x
  | 0, _ => rfl
  | n + 1, x => by
    unfold Slice.exitPop
    split
    · rfl
    · dsimp only
      split
      · rfl
      · exact Slice.exitPop_x n _

/-- An exit takes the active lanes of the slice (R227). -/
theorem Slice.exit_x (x : Slice) : x.exit.x = x.x ||| x.m := Slice.exitPop_x _ _

/-- A gang whose slices of a mask have left by EXIT. -/
def Gang.exitSlices (slices : BitVec 8) (pc : Addr) (g : Gang) : Gang := { g.modSlices slices (fun _ x => x.exit) with exitPc := pc }

theorem Gang.x_exitSlices (slices : BitVec 8) (pc : Addr) (g : Gang) {i : Nat} (hi : i < 8) :
    ((g.exitSlices slices pc).slice i).x = if slices.getLsbD i then (g.slice i).x ||| (g.slice i).m else (g.slice i).x := by
  have slice : (g.exitSlices slices pc).slice i = (g.modSlices slices (fun _ x => x.exit)).slice i := rfl
  rw [slice]
  split
  · next mine => rw [Gang.slice_modSlices_in _ _ _ hi mine, Slice.exit_x]
  · next other => rw [Gang.slice_modSlices_out _ _ _ hi (by simpa using other)]

/-- A change of one gang that leaves its lanes and k registers leaves those of every gang. -/
theorem lanes_modGang {s : State} {u g : Nat} {f : Gang → Gang} (same : (f (s.gang u g)).lanes = (s.gang u g).lanes ∧ (f (s.gang u g)).k = (s.gang u g).k)
    (v i : Nat) : ((s.modGang u g f).gang v i).lanes = (s.gang v i).lanes ∧ ((s.modGang u g f).gang v i).k = (s.gang v i).k := by
  by_cases e : u = v ∧ g = i
  · obtain ⟨rfl, rfl⟩ := e
    rw [State.gang_modGang_same]
    exact same
  · rw [State.gang_modGang_other s f (Classical.not_and_iff_not_or_not.mp e)]
    exact ⟨rfl, rfl⟩

/-- What EXIT of a gang does before its completion. -/
theorem execExit_issues (s : State) {u : Issuer} (hg : u.gang ≠ 16) (vals : List (List Word)) (s1 : State) :
    ∃ body, exec .exit s = issue .exit { sidecar := true, jumps := true } body s ∧ body (ctxOf .exit u s vals) s1 =
      .ok ((s1.modGang u.team u.gang (Gang.exitSlices u.slices (pcAt s u))).afterExit u.team u.gang) := by
  refine ⟨_, rfl, ?_⟩
  rw [ctxOf_gang hg]
  exact if_neg hg

/-- What EXIT of a sidecar does before its completion. -/
theorem execExit_issues_side (s : State) {u : Issuer} (hg : u.gang = 16) :
    ∃ body, exec .exit s = issue .exit { sidecar := true, jumps := true } body s ∧ body (ctxOf .exit u s []) s =
      .ok (s.modTeam u.team (fun t => { t with side := { t.side with exited := true, exitPc := (s.team u.team).side.pc } })) := by
  refine ⟨_, rfl, ?_⟩
  rw [ctxOf_side hg]
  exact if_pos hg

/-- Settles O28: the exit itself changes only exited lanes, and neither what it changes for others nor the word's completion changes a
register; a sidecar's EXIT is a mark. -/
theorem exitWord : Obligations.ExitWord := by
  refine ⟨fun s u vals s1 popped h => ?_, fun s u h => ?_⟩
  · obtain rfl := issues_s1 h rfl rfl
    obtain ⟨body, he, exits⟩ := execExit_issues s1 h.isGang vals s1
    have left := lanes_modGang (s := s1) (u := u.team) (g := u.gang) (f := Gang.exitSlices u.slices (pcAt s1 u)) ⟨rfl, rfl⟩
    obtain ⟨others, spad, obuf, hbm, far⟩ := keepsRegs_afterExit (s1.modGang u.team u.gang (Gang.exitSlices u.slices (pcAt s1 u))) u.team u.gang
    obtain ⟨regs, spad', obuf', hbm', far', exited⟩ := keeps_finish { sidecar := true, jumps := true } popped u
      ((s1.modGang u.team u.gang (Gang.exitSlices u.slices (pcAt s1 u))).afterExit u.team u.gang) h.isGang
    refine ⟨_, he.trans (issue_completes h.toIssues exits), fun v g => ⟨?_, ?_⟩, spad'.trans spad, obuf'.trans obuf, hbm'.trans hbm,
      far'.trans far, fun none_ i hi => ?_⟩
    · exact ((regs v g).1.trans (others v g).lanes).trans (left v g).1
    · exact ((regs v g).2.trans (others v g).k).trans (left v g).2
    · have own := others u.team u.gang
      rw [State.gang_modGang_same] at own
      rw [(exited (own.body.trans none_)).x i hi, own.x i hi, Gang.x_exitSlices _ _ _ hi]
  · obtain ⟨body, he, exits⟩ := execExit_issues_side s h.isSidecar
    obtain ⟨t, ht, hO, side⟩ := side_jump_word h rfl (fun x => { x with exited := true, exitPc := (s.team u.team).side.pc }) exits
    exact ⟨t, he.trans ht, hO, side⟩

end Sys2Proof.Machine
end

section
namespace Sys2Proof.Machine

open Sys2Proof Sys2Proof.Safety

/-! ### The state of the timebase (R312) -/

/-- What keeps the unit in HELD. -/
theorem stateOf_held_iff (t : Timebase) : (t.rejoin.isSome || t.fresh || t.lost || decide (t.epsFail < t.eps)) = true ↔
    t.rejoin ≠ none ∨ t.fresh = true ∨ t.lost = true ∨ t.epsFail < t.eps := by
  simp only [Bool.or_eq_true, decide_eq_true_eq, Option.isSome_iff_ne_none, or_assoc]

theorem stateOf_held {t : Timebase} (h : t.rejoin ≠ none ∨ t.fresh = true ∨ t.lost = true ∨ t.epsFail < t.eps) : t.stateOf = 2#2 :=
  if_pos ((stateOf_held_iff t).mpr h)

theorem stateOf_normal {t : Timebase} (h : ¬ (t.rejoin ≠ none ∨ t.fresh = true ∨ t.lost = true ∨ t.epsFail < t.eps))
    (narrow : t.eps ≤ t.epsCommit) : t.stateOf = 0#2 :=
  (if_neg (mt (stateOf_held_iff t).mp h)).trans (if_pos narrow)

theorem stateOf_widened {t : Timebase} (h : ¬ (t.rejoin ≠ none ∨ t.fresh = true ∨ t.lost = true ∨ t.epsFail < t.eps))
    (wide : t.epsCommit < t.eps) : t.stateOf = 1#2 :=
  (if_neg (mt (stateOf_held_iff t).mp h)).trans (if_neg (Nat.not_le.mpr wide))

/-- A failed unit stays so (R325). -/
theorem settleTime_failed {s : State} (failed : s.tb.tstate = 3#2) : s.settleTime = s := if_pos failed

/-- Outside FAILED the unit enters the state whose condition holds, and reports entry to WIDENED. -/
theorem settleTime_enters {s : State} (running : s.tb.tstate ≠ 3#2) :
    s.settleTime = { s with
      tb := { s.tb with tstate := s.tb.stateOf }
      notices := if s.tb.stateOf = 1#2 ∧ s.tb.tstate ≠ 1#2 then s.notices ++ [.widened] else s.notices } := by
  rw [State.settleTime, if_neg running]
  dsimp only
  by_cases widens : s.tb.stateOf = 1#2 ∧ s.tb.tstate ≠ 1#2
  · rw [if_pos widens, if_pos (by simpa using widens)]
    rfl
  · rw [if_neg widens, if_neg (by simpa using widens)]

/-! ### A tick -/

/-- A list whose default is mapped to the default reads as the map of what it held. -/
theorem rowGet_map_default {α β : Type} {d : α} {d' : β} {f : α → β} (h : f d = d') (l : List α) (i : Nat) :
    rowGet d' (l.map f) i = f (rowGet d l i) := by
  rw [rowGet_map d d' f l i]
  split
  · rfl
  · next beyond => rw [rowGet_beyond d l i (Nat.not_lt.mp beyond), h]

/-- A state after a tick of the waits: every team's, at its place. -/
theorem team_paused (s : State) (u : Nat) : rowGet {} (s.teams.map Team.pauseTick) u = (s.team u).pauseTick :=
  rowGet_map_default (d := ({} : Team)) (f := Team.pauseTick) rfl s.teams u

theorem gang_pauseTick (t : Team) (g : Nat) : t.pauseTick.gang g = (t.gang g).pauseTick (decide (t.status = .saved)) :=
  rowGet_map_default (by cases decide (t.status = .saved) <;> rfl) _ _

/-- The waits of a gang with a stopped slice, or of a saved context, start a tick later (R232, R247). -/
theorem slice_pauseTick (g : Gang) (saved : Bool) (i : Nat) :
    (g.pauseTick saved).slice i = if saved = true ∨ g.halted = true then (g.slice i).pauseWait else g.slice i := by
  rw [Gang.pauseTick]
  by_cases pauses : (saved || g.halted) = true
  · rw [if_pos pauses, if_pos (by simpa using pauses)]
    exact rowGet_map_default (d := ({} : Slice)) (f := Slice.pauseWait) rfl g.slices i
  · rw [if_neg pauses, if_neg (by simpa using pauses)]

/-- The teams of a partition on a core. -/
def State.residents (s : State) (p : Nat) : Nat := (s.teams.filter (fun t => t.part = p && t.resident)).length

/-- RESIDENT of the partitions of a list, each metered if it is live (R359). -/
def State.meterPlaces (s : State) (ps : List Nat) : State :=
  ps.foldl (fun s p => if (s.part p).live then s.meter p 6 (s.residents p) else s) s

/-- One partition metered, if it is live. -/
theorem metered_place (s : State) (p : Nat) : Metered s (if (s.part p).live then s.meter p 6 (s.residents p) else s) := by
  split
  · exact metered_meter (metered_refl s) _ _ _
  · exact metered_refl s

theorem Metered.trans {a b c : State} (h1 : Metered a b) (h2 : Metered b c) : Metered a c where
  rest := by rw [h2.rest, h1.rest]
  parts p := by rw [h2.parts p, h1.parts p]

/-- Metering changes no team, and no partition's being live. -/
theorem Metered.residents {s t : State} (h : Metered s t) (p : Nat) : t.residents p = s.residents p ∧ (t.part p).live = (s.part p).live := by
  refine ⟨?_, by rw [h.parts p]⟩
  rw [h.rest]
  rfl

/-- Partitions metered one after the other, each once: every live one's RESIDENT rises by its teams on a core. -/
theorem meterPlaces_counters : ∀ (ps : List Nat) (s : State), ps.Nodup → Metered s (s.meterPlaces ps) ∧ ∀ p i,
    rowGet 0 ((s.meterPlaces ps).part p).counters i = rowGet 0 (s.part p).counters i +
      if i = 6 ∧ p ∈ ps ∧ (s.part p).live = true then BitVec.ofNat 64 (s.residents p) else 0#64
  | [], s, _ => ⟨metered_refl s, fun p i => by simp [State.meterPlaces]⟩
  | q :: ps, s, once => by
    obtain ⟨fresh, once⟩ := List.nodup_cons.mp once
    have first := metered_place s q
    obtain ⟨rest, counters⟩ := meterPlaces_counters ps (if (s.part q).live then s.meter q 6 (s.residents q) else s) once
    refine ⟨first.trans rest, fun p i => (counters p i).trans ?_⟩
    rw [(first.residents p).1, (first.residents p).2]
    by_cases same : p = q
    · subst same
      simp only [fresh, false_and, and_false, if_false, List.mem_cons_self, true_and]
      cases live : (s.part p).live with
      | false => simp
      | true =>
        simp only [if_true]
        rw [counters_meter]
        simp
    · have kept : rowGet 0 ((if (s.part q).live then s.meter q 6 (s.residents q) else s).part p).counters i = rowGet 0 (s.part p).counters i := by
        split
        · rw [counters_meter, if_neg fun h => same h.1, BitVec.add_zero]
        · rfl
      rw [kept]
      simp [same]

/-- Each partition's RESIDENT counter, after the tick. -/
theorem meterResident_counters (s : State) : Metered s s.meterResident ∧ ∀ p i,
    rowGet 0 (s.meterResident.part p).counters i = rowGet 0 (s.part p).counters i +
      if i = 6 ∧ p < 16 ∧ (s.part p).live = true then BitVec.ofNat 64 (s.residents p) else 0#64 := by
  obtain ⟨rest, counters⟩ := meterPlaces_counters (upTo 16) s (by decide)
  simp only [mem_upTo] at counters
  exact ⟨rest, counters⟩

/-- A tick of the unit, of the cycles and of the waits. -/
def State.tickStarted (s : State) : State :=
  { s with tb := s.tb.tick, cycle := s.cycle + Config.tickCycles, teams := s.teams.map Team.pauseTick }

/-- The pause of waits leaves each team where it is. -/
theorem residents_tickStarted (s : State) (p : Nat) :
    s.tickStarted.residents p = (s.teams.filter (fun t => t.part = p && t.resident)).length := by
  show ((s.teams.map Team.pauseTick).filter _).length = _
  rw [List.filter_map, List.length_map]
  rfl

/-- Metering changes no team. -/
theorem Metered.teams {s t : State} (h : Metered s t) : t.teams = s.teams := by rw [h.rest]

/-- What has changed when the partitions are metered after a tick. -/
theorem Metered.tick {s y : State} (h : Metered s.tickStarted y) :
    y = { s with tb := s.tb.tick, cycle := s.cycle + 10, teams := y.teams, parts := y.parts } ∧
    (∀ p, y.part p = { s.part p with counters := (y.part p).counters }) ∧ ∀ u, y.team u = (s.team u).pauseTick := by
  refine ⟨?_, h.parts, fun u => ?_⟩
  · rw [h.teams]
    exact h.rest
  · rw [State.team, h.teams]
    exact team_paused s u

end Sys2Proof.Machine
end

section
namespace Sys2Proof.Machine

open Sys2Proof Sys2Proof.Safety

/-! ### The transfer that the unit takes (R310) -/

/-- The unit takes a transfer where any is good. -/
theorem bestTransfer_none_iff : ∀ {xs : List LinkTransfer}, bestTransfer xs = none ↔ ∀ x ∈ xs, x.ok = false
  | [] => by simp [bestTransfer]
  | x :: xs => by
    rw [List.forall_mem_cons, ← bestTransfer_none_iff, bestTransfer]
    cases bestTransfer xs with
    | none => cases x.ok <;> simp
    | some y => cases x.ok <;> by_cases less : x.eps ≤ y.eps <;> simp [less]

theorem bestTransfer_exists {xs : List LinkTransfer} (good : ∃ x ∈ xs, x.ok = true) : ∃ x, bestTransfer xs = some x := by
  obtain ⟨x, mem, ok⟩ := good
  rw [← Option.ne_none_iff_exists']
  exact fun none => absurd ok (by simp [bestTransfer_none_iff.mp none x mem])

/-- It takes a good one of the least uncertainty. -/
theorem bestTransfer_some : ∀ {xs : List LinkTransfer} {x : LinkTransfer}, bestTransfer xs = some x →
    x ∈ xs ∧ x.ok = true ∧ ∀ z ∈ xs, z.ok = true → x.eps ≤ z.eps
  | z :: xs, x, best => by
    rw [bestTransfer] at best
    cases rest : bestTransfer xs with
    | none =>
      have none_ok := bestTransfer_none_iff.mp rest
      rw [rest] at best
      cases ok : z.ok with
      | false => simp [ok] at best
      | true =>
        obtain rfl : z = x := by simpa [ok] using best
        refine ⟨List.mem_cons_self, ok, fun w hw good => ?_⟩
        rcases List.mem_cons.mp hw with rfl | hw
        · exact Nat.le_refl _
        · exact absurd good (by simp [none_ok w hw])
    | some y =>
      obtain ⟨mem, good, least⟩ := bestTransfer_some rest
      rw [rest] at best
      dsimp only at best
      split at best
      · next wins =>
        obtain ⟨ok, less⟩ := Bool.and_eq_true_iff.mp wins
        cases best
        refine ⟨List.mem_cons_self, ok, fun w hw hgood => ?_⟩
        rcases List.mem_cons.mp hw with rfl | hw
        · exact Nat.le_refl _
        · exact Nat.le_trans (of_decide_eq_true less) (least w hw hgood)
      · next loses =>
        cases best
        refine ⟨List.mem_cons_of_mem _ mem, good, fun w hw hgood => ?_⟩
        rcases List.mem_cons.mp hw with rfl | hw
        · rw [hgood, Bool.true_and, decide_eq_true_eq] at loses
          exact Nat.le_of_not_le loses
        · exact least w hw hgood

/-- The unit after it has taken a transfer. -/
theorem Timebase.take_eq (t : Timebase) (x : LinkTransfer) : t.take x =
    { t with now := x.est, eps0 := x.eps, n := 0, fresh := false, te := max (x.est - x.eps) t.te, tl := max (x.est + x.eps) t.tl } := by
  simp [Timebase.take, Timebase.sample, Timebase.eps]

/-! ### TIME_TRANSFER (R310, R326) -/

section
variable {s : State} {links : List LinkTransfer}

/-- Some good transfer's interval misses the module's. -/
theorem clash_iff {t : Timebase} {xs : List LinkTransfer} : (xs.filter (·.ok)).any (fun x => !t.overlaps x) = true ↔
    ∃ x, (x ∈ xs ∧ x.ok = true) ∧ ¬ (x.te ≤ t.tl ∧ t.te ≤ x.tl) := by
  simp only [List.any_eq_true, List.mem_filter, Timebase.overlaps, Bool.not_eq_true', Bool.and_eq_false_iff, decide_eq_false_iff_not,
    not_and_or]

/-- What a transfer comes to, unless it shows that the unit has failed. -/
def State.transferred (s : State) (xs : List LinkTransfer) : State :=
  let s := if (xs.filter (·.ok)).isEmpty || s.tb.tstate = 3#2 then s else s.goodCheck
  let lost := if xs.isEmpty then s.tb.lost else xs.all (·.lost)
  let tb := match bestTransfer xs with
    | some x => s.tb.take x
    | none => s.tb
  { s with tb := { tb with lost := lost } }

theorem timeTransfer_stopped (off : s.clocked = false) : exec (.timeTransfer links) s = .next s := by
  rw [exec_timeTransfer, execTimeTransfer, off]
  rfl

theorem timeTransfer_clashes (clocked : s.clocked = true) (running : s.tb.tstate ≠ 3#2) (checked : s.tb.fresh = false)
    (clash : ∃ x, (x ∈ s.enabledLinks links ∧ x.ok = true) ∧ ¬ (x.te ≤ s.tb.tl ∧ s.tb.te ≤ x.tl)) :
    exec (.timeTransfer links) s = .next s.enterFailed := by
  rw [exec_timeTransfer, execTimeTransfer, clocked]
  simp [running, checked, clash_iff.mpr clash]

theorem timeTransfer_agrees (clocked : s.clocked = true) (agrees : s.tb.tstate = 3#2 ∨ s.tb.fresh = true ∨
      ¬ ∃ x, (x ∈ s.enabledLinks links ∧ x.ok = true) ∧ ¬ (x.te ≤ s.tb.tl ∧ s.tb.te ≤ x.tl)) :
    exec (.timeTransfer links) s = .next (s.transferred (s.enabledLinks links)).settleTime := by
  rw [exec_timeTransfer, execTimeTransfer, clocked]
  have passes : (decide (s.tb.tstate ≠ 3#2) && !s.tb.fresh && ((s.enabledLinks links).filter (·.ok)).any fun x => !s.tb.overlaps x) = false := by
    rw [← clash_iff, Bool.not_eq_true] at agrees
    rcases agrees with h | h | h <;> simp [h]
  dsimp only
  rw [passes]
  rfl

end

end Sys2Proof.Machine
end

section
namespace Sys2Proof.Machine

open Sys2Proof Sys2Proof.Safety

/-! ### TIMEBASE_TICK (R309, R310, R312, R359) -/

theorem timebaseTick_stopped {s : State} (off : s.clocked = false) : exec .timebaseTick s = .next s := by
  rw [exec_timebaseTick, execTimebaseTick, off]
  rfl

theorem timebaseTick_clocked {s : State} (on : s.clocked = true) :
    exec .timebaseTick s = .next s.tickStarted.meterResident.settleTime := by
  rw [exec_timebaseTick, execTimebaseTick, if_pos on]
  rfl

/-- The waits of a gang are in its slices. -/
theorem pauseTick_slices (g : Gang) (saved : Bool) : g.pauseTick saved = { g with slices := (g.pauseTick saved).slices } := by
  rw [Gang.pauseTick]
  split <;> rfl

/-- A gang of a state whose teams have paused. -/
theorem gang_paused {s y : State} (h : ∀ u, y.team u = (s.team u).pauseTick) (u g : Nat) :
    y.gang u g = (s.gang u g).pauseTick (decide ((s.team u).status = .saved)) :=
  (congrArg (fun t => Team.gang t g) (h u)).trans (gang_pauseTick (s.team u) g)

theorem slice_paused {s y : State} (h : ∀ u, y.team u = (s.team u).pauseTick) (u g i : Nat) : (y.gang u g).slice i =
    if (s.team u).status = .saved ∨ (s.gang u g).halted = true then ((s.gang u g).slice i).pauseWait else (s.gang u g).slice i := by
  rw [gang_paused h, slice_pauseTick]
  simp only [decide_eq_true_eq]

/-- What a tick changes before the unit's state is settled. -/
theorem tick_effect {s y : State} (metered : Metered s.tickStarted y) (counters : ∀ p i, rowGet 0 (y.part p).counters i =
      rowGet 0 (s.tickStarted.part p).counters i +
        if i = 6 ∧ p < 16 ∧ (s.tickStarted.part p).live = true then BitVec.ofNat 64 (s.tickStarted.residents p) else 0#64) :
    let e := s.tb.eps0 + (50 * (s.tb.n + 1) + 999999) / 1000000
    y = { s with tb := y.tb, cycle := s.cycle + 10, teams := y.teams, parts := y.parts } ∧
    y.tb = { s.tb with now := s.tb.now + 1, n := s.tb.n + 1, rejoin := s.tb.rejoin.map (fun k => k - 1),
                       te := max (s.tb.now + 1 - e) s.tb.te, tl := max (s.tb.now + 1 + e) s.tb.tl } ∧
    (∀ p, y.part p = { s.part p with counters := (y.part p).counters }) ∧
    (∀ p i, rowGet 0 (y.part p).counters i = rowGet 0 (s.part p).counters i + (if i = 6 ∧ p < 16 ∧ (s.part p).live = true then
      BitVec.ofNat 64 (s.teams.filter (fun t => t.part = p && t.resident)).length else 0#64)) ∧
    (∀ u, y.team u = { s.team u with gangs := (y.team u).gangs, side := (y.team u).side }) ∧
    ∀ u g, y.gang u g = { s.gang u g with slices := (y.gang u g).slices } ∧ ∀ i, (y.gang u g).slice i =
      if (s.team u).status = .saved ∨ (s.gang u g).halted = true
      then { (s.gang u g).slice i with wait := ((s.gang u g).slice i).wait.map (fun w => { w with since := w.since + 10 }) }
      else (s.gang u g).slice i := by
  obtain ⟨rest, parts, teams⟩ := metered.tick
  have tb : y.tb = s.tb.tick := by rw [rest]
  refine ⟨?_, tb, parts, fun p i => ?_, fun u => ?_, fun u g => ⟨?_, slice_paused teams u g⟩⟩
  · rw [tb]
    exact rest
  · rw [counters p i, residents_tickStarted]
    rfl
  · rw [teams u]
    rfl
  · rw [gang_paused teams u g]
    exact pauseTick_slices _ _

/-! ### TIME_TRANSFER (R310, R326) -/

section
variable {s : State} {xs : List LinkTransfer}

/-- Without a good transfer only the loss of the root is told. -/
theorem transferred_none (bad : ∀ x ∈ xs, x.ok = false) :
    s.transferred xs = { s with tb := { s.tb with lost := if xs = [] then s.tb.lost else xs.all (·.lost) } } := by
  have empty : (xs.filter (·.ok)).isEmpty = true := by
    rw [List.isEmpty_iff, List.filter_eq_nil_iff]
    intro x hx
    simp [bad x hx]
  simp [State.transferred, bestTransfer_none_iff.mpr bad, empty]

/-- With a good one the unit takes the best, and outside FAILED the check has been good. -/
theorem transferred_some {x : LinkTransfer} (best : bestTransfer xs = some x) :
    s.transferred xs =
      let tb := { s.tb with now := x.est, eps0 := x.eps, n := 0, fresh := false, lost := if xs = [] then s.tb.lost else xs.all (·.lost),
                            te := max (x.est - x.eps) s.tb.te, tl := max (x.est + x.eps) s.tb.tl }
      if s.tb.tstate = 3#2 then { s with tb := tb } else { s with tb := tb, suspects := [], suspectFull := false } := by
  obtain ⟨mem, good, -⟩ := bestTransfer_some best
  have some_good : (xs.filter (·.ok)).isEmpty = false := by
    rw [List.isEmpty_eq_false_iff_exists_mem]
    exact ⟨x, List.mem_filter.mpr ⟨mem, good⟩⟩
  rw [State.transferred, best, some_good]
  by_cases failed : s.tb.tstate = 3#2
  · simp [failed, Timebase.take_eq]
  · simp [failed, Timebase.take_eq, State.goodCheck]

end

/-! ### TIMEBASE_CONFIG (R311) -/

theorem inRange_within {lo hi x old : Nat} (h : lo ≤ x ∧ x ≤ hi) : inRange lo hi x old = x :=
  if_pos (by simpa using h)

theorem inRange_outside {lo hi x old : Nat} (h : ¬ (lo ≤ x ∧ x ≤ hi)) : inRange lo hi x old = old :=
  if_neg (by simpa using h)

theorem inRange_or (lo hi x old : Nat) : inRange lo hi x old = x ∨ inRange lo hi x old = old := by
  by_cases h : lo ≤ x ∧ x ≤ hi
  · exact .inl (inRange_within h)
  · exact .inr (inRange_outside h)

/-- A value kept in its range when the old one was. -/
theorem inRange_mem {lo hi x old : Nat} (h : lo ≤ old ∧ old ≤ hi) : lo ≤ inRange lo hi x old ∧ inRange lo hi x old ≤ hi := by
  by_cases fits : lo ≤ x ∧ x ≤ hi
  · rwa [inRange_within fits]
  · rwa [inRange_outside fits]

/-- ε_commit after TIMEBASE_CONFIG. -/
def configCommit (c f : Nat) (t : Timebase) : Nat :=
  if inRange (inRange 1 65535 c t.epsCommit) 1048576 f t.epsFail < inRange 1 65535 c t.epsCommit then t.epsCommit
  else inRange 1 65535 c t.epsCommit

/-- ε_fail after TIMEBASE_CONFIG. -/
def configFail (c f : Nat) (t : Timebase) : Nat := inRange (configCommit c f t) 1048576 f t.epsFail

/-- Status 1 where a value was refused. -/
theorem configStatus (c c' f f' l l' : Nat) :
    (if (decide (c' ≠ c) || decide (f' ≠ f) || decide (l' ≠ l)) = true then 1 else 0) = if c' = c ∧ f' = f ∧ l' = l then 0 else 1 := by
  rw [← ite_not (c' = c ∧ f' = f ∧ l' = l)]
  simp only [Bool.or_eq_true, decide_eq_true_eq, not_and_or, or_assoc, ne_eq]

theorem timebaseConfig_off {c f l : Nat} {s : State} (off : s.phase ≠ .running) : exec (.timebaseConfig c f l) s = .next s := by
  rw [exec_timebaseConfig, execTimebaseConfig, if_pos off]

theorem timebaseConfig_running {c f l : Nat} {s : State} (running : s.phase = .running) : exec (.timebaseConfig c f l) s =
    .next ((({ s with tb := { s.tb with epsCommit := configCommit c f s.tb, epsFail := configFail c f s.tb,
                                        lambda := inRange 16 1048576 l s.tb.lambda } } : State).settleTime).notify
      (.status (if configCommit c f s.tb = c ∧ configFail c f s.tb = f ∧ inRange 16 1048576 l s.tb.lambda = l then 0 else 1))) := by
  rw [exec_timebaseConfig, execTimebaseConfig, if_neg (not_not_intro running), ← configStatus]
  rfl

section
variable (c f : Nat) (t : Timebase)

theorem configCommit_or : configCommit c f t = c ∨ configCommit c f t = t.epsCommit := by
  rw [configCommit]
  split
  · exact .inr rfl
  · exact inRange_or 1 65535 c t.epsCommit

variable {c f t}

/-- New values in their ranges are taken. -/
theorem config_taken (h : 1 ≤ c ∧ c ≤ 65535 ∧ c ≤ f ∧ f ≤ 2 ^ 20) : configCommit c f t = c ∧ configFail c f t = f := by
  obtain ⟨low, high, le, top⟩ := h
  have want : inRange 1 65535 c t.epsCommit = c := inRange_within ⟨low, high⟩
  have fail : inRange c 1048576 f t.epsFail = f := inRange_within ⟨le, top⟩
  have commit : configCommit c f t = c := by rw [configCommit, want, fail, if_neg (Nat.not_lt.mpr le)]
  exact ⟨commit, by rw [configFail, commit, fail]⟩

/-- Old values in their ranges give new ones in theirs. -/
theorem config_ordered (h : 1 ≤ t.epsCommit ∧ t.epsCommit ≤ 65535 ∧ t.epsCommit ≤ t.epsFail ∧ t.epsFail ≤ 2 ^ 20) :
    1 ≤ configCommit c f t ∧ configCommit c f t ≤ 65535 ∧ configCommit c f t ≤ configFail c f t ∧ configFail c f t ≤ 2 ^ 20 := by
  obtain ⟨low, high, le, top⟩ := h
  obtain ⟨wlow, whigh⟩ := inRange_mem (x := c) ⟨low, high⟩
  rw [configFail]
  by_cases below : inRange (inRange 1 65535 c t.epsCommit) 1048576 f t.epsFail < inRange 1 65535 c t.epsCommit
  · have commit : configCommit c f t = t.epsCommit := if_pos below
    rw [commit]
    exact ⟨low, high, inRange_mem ⟨le, top⟩⟩
  · have commit : configCommit c f t = inRange 1 65535 c t.epsCommit := if_neg below
    rw [commit]
    refine ⟨wlow, whigh, Nat.not_lt.mp below, ?_⟩
    rcases Classical.em (inRange 1 65535 c t.epsCommit ≤ f ∧ f ≤ 1048576) with fits | misses
    · rw [inRange_within fits]
      exact fits.2
    · rw [inRange_outside misses]
      exact top

end

/-! ### REJOIN (R327) -/

section
variable {s : State} {links : List LinkTransfer}

theorem rejoin_refused (h : s.phase ≠ .running ∨ s.tb.tstate ≠ 3#2 ∨ ∀ x ∈ s.enabledLinks links, x.ok = false) :
    exec (.rejoin links) s = .next s := by
  rw [exec_rejoin, execRejoin]
  rcases h with off | running | bad
  · rw [if_pos (by simp [off])]
  · rw [if_pos (by simp [running])]
  · dsimp only
    rw [bestTransfer_none_iff.mpr bad, ite_self]

/-- On every enabled one of the 32 links a good transfer agrees with the new estimate. -/
theorem fullResync_iff {x : LinkTransfer} {xs : List LinkTransfer} (mem : x ∈ xs) : s.fullResync xs (s.tb.take x) = true ↔
    ∀ n, n < 32 → n ∉ s.portsOff → ∃ z ∈ xs, z.link = n ∧ z.ok = true ∧ z.te ≤ x.est + x.eps ∧ x.est - x.eps ≤ z.tl := by
  have some_mem : xs.isEmpty = false := List.isEmpty_eq_false_iff_exists_mem.mpr ⟨x, mem⟩
  have eps : (s.tb.take x).eps = x.eps := by simp [Timebase.take_eq, Timebase.eps]
  have now : (s.tb.take x).now = x.est := by rw [Timebase.take_eq]
  simp only [State.fullResync, some_mem, eps, now, Bool.not_false, Bool.true_and, List.all_eq_true, mem_upTo, Bool.or_eq_true,
    List.contains_iff_mem, List.any_eq_true, Bool.and_eq_true, decide_eq_true_eq, and_assoc, or_iff_not_imp_left]

theorem rejoin_judged {x : LinkTransfer} (running : s.phase = .running) (failed : s.tb.tstate = 3#2)
    (best : bestTransfer (s.enabledLinks links) = some x) : exec (.rejoin links) s =
      .next (if s.fullResync (s.enabledLinks links) (s.tb.take x) then
        { s.goodCheck with tb := { s.tb.take x with tstate := 2#2, rejoin := some (2 * s.tb.epsFail),
                                                    lost := (s.enabledLinks links).all (·.lost) } }
      else s) := by
  rw [exec_rejoin, execRejoin, if_neg (by simp [running, failed])]
  dsimp only
  rw [best]
  rfl

end

end Sys2Proof.Machine
end

section
namespace Sys2Proof.Machine

open Sys2Proof Sys2Proof.Safety

/-! ### Entry to FAILED (R325): what the releases and the marks may change -/

/-- Of a state nothing is changed but operations, the record of releases, what is sent and what is to come. -/
structure ReleasesOnly (s t : State) : Prop where
  rest : t = { s with ops := t.ops, suspects := t.suspects, suspectFull := t.suspectFull, outbox := t.outbox, agenda := t.agenda,
                      notices := t.notices }

theorem releasesOnly_refl (s : State) : ReleasesOnly s s := ⟨rfl⟩

theorem ReleasesOnly.trans {a b c : State} (h1 : ReleasesOnly a b) (h2 : ReleasesOnly b c) : ReleasesOnly a c :=
  ⟨by rw [h2.rest, h1.rest]⟩

theorem releasesOnly_foldl {α : Type} {f : State → α → State} (h : ∀ s a, ReleasesOnly s (f s a)) :
    ∀ (as : List α) (s : State), ReleasesOnly s (as.foldl f s)
  | [], s => releasesOnly_refl s
  | a :: as, s => (h s a).trans (releasesOnly_foldl h as (f s a))

theorem releasesOnly_recordRelease (s : State) (i l : Nat) : ReleasesOnly s (s.recordRelease i l) := by
  rw [State.recordRelease]
  split <;> exact ⟨rfl⟩

theorem releasesOnly_sendMark (s : State) (x : Suspect) : ReleasesOnly s (s.sendMark x) := by
  rw [State.sendMark]
  split
  · exact ⟨rfl⟩
  · split <;> exact ⟨rfl⟩
  · exact releasesOnly_refl s

theorem ops_recordRelease (s : State) (i l : Nat) : (s.recordRelease i l).ops = s.ops := by
  rw [State.recordRelease]
  split <;> rfl

theorem ops_sendMark (s : State) (x : Suspect) : (s.sendMark x).ops = s.ops := by
  rw [State.sendMark]
  split
  · rfl
  · split <;> rfl
  · rfl

theorem ops_sendMarks : ∀ (xs : List Suspect) (s : State), (xs.foldl State.sendMark s).ops = s.ops
  | [], _ => rfl
  | x :: xs, s => (ops_sendMarks xs (s.sendMark x)).trans (ops_sendMark s x)

/-! ### The releases of an operation -/

/-- A lane whose version stands in its cell, with its release sent. -/
def RemLane.released (suspect : Bool) (x : RemLane) : RemLane :=
  if x.stage = .stored then { x with stage := .releasing suspect } else x

theorem RemLane.released_released (suspect : Bool) (x : RemLane) : (x.released suspect).released suspect = x.released suspect := by
  by_cases stored : x.stage = .stored
  · rw [released, released, if_pos stored]
    exact if_neg (by simp)
  · rw [released, released, if_neg stored, if_neg stored]

/-- What sending releases of an operation does to operations: lanes of a list are released, and no other operation changes. -/
structure LanesReleased (s t : State) (i : Nat) (suspect : Bool) (ls : List Nat) : Prop where
  others : ∀ j, j ≠ i → t.op j = s.op j
  lanes : ∀ k, (t.op i).lane k = if k ∈ ls then ((s.op i).lane k).released suspect else (s.op i).lane k

section
variable (i : Nat) (suspect : Bool)

/-- A release sent changes one lane, of its stage, and what else a release changes. -/
theorem sendRelease_effect (s : State) (l : Nat) :
    ReleasesOnly s (s.sendRelease i l suspect) ∧ LanesReleased s (s.sendRelease i l suspect) i suspect [l] := by
  have same {t : State} (ops : t.ops = s.ops) (idle : ((s.op i).lane l).stage ≠ .stored) : LanesReleased s t i suspect [l] := by
    have op (j : Nat) : t.op j = s.op j := congrArg (rowGet noOp · j) ops
    refine ⟨fun j _ => op j, fun k => ?_⟩
    rw [op]
    split
    · next at_ =>
      obtain rfl := List.mem_singleton.mp at_
      exact (if_neg idle).symm
    · rfl
  rw [State.sendRelease]
  dsimp only
  split
  · next stored =>
    have op (j : Nat) : ((s.setStage i l (.releasing suspect)).recordRelease i l).op j = (s.setStage i l (.releasing suspect)).op j :=
      congrArg (rowGet noOp · j) (ops_recordRelease _ i l)
    refine ⟨ReleasesOnly.trans ⟨rfl⟩ (releasesOnly_recordRelease _ i l), fun j other => ?_, fun k => ?_⟩
    · exact (op j).trans (op_modLane_other (Ne.symm other))
    · rw [op i, State.setStage, lane_modLane]
      simp only [List.mem_singleton]
      split
      · next at_ => rw [at_, RemLane.released, if_pos stored]
      · rfl
  · next sent =>
    have idle : ((s.op i).lane l).stage ≠ .stored := by simp [sent]
    have rec_ := releasesOnly_recordRelease s i l
    have ops := ops_recordRelease s i l
    split
    · split
      · exact ⟨rec_, same ops idle⟩
      · exact ⟨rec_.trans ⟨rfl⟩, same ops idle⟩
    · exact ⟨rec_, same ops idle⟩
  · next other _ => exact ⟨releasesOnly_refl s, same rfl other⟩

/-- Lanes released one after the other. -/
theorem sendRelease_all : ∀ (ls : List Nat) (s : State), LanesReleased s (ls.foldl (fun s l => s.sendRelease i l suspect) s) i suspect ls
  | [], s => ⟨fun _ _ => rfl, fun k => by simp⟩
  | l :: ls, s => by
    obtain ⟨-, first⟩ := sendRelease_effect i suspect s l
    have rest := sendRelease_all ls (s.sendRelease i l suspect)
    refine ⟨fun j other => (rest.others j other).trans (first.others j other), fun k => (rest.lanes k).trans ?_⟩
    rw [first.lanes k]
    by_cases here : k = l <;> by_cases later : k ∈ ls <;> simp [here, later, RemLane.released_released]

/-- All releases of an operation. -/
theorem sendReleases_effect (s : State) :
    ReleasesOnly s (s.sendReleases i suspect) ∧ LanesReleased s (s.sendReleases i suspect) i suspect (upTo 32) := by
  obtain ⟨others, lanes⟩ := sendRelease_all i suspect (upTo 32) (s.modOp i (fun o => { o with committed := true, suspect := suspect }))
  refine ⟨ReleasesOnly.trans ⟨rfl⟩ (releasesOnly_foldl (fun s l => (sendRelease_effect i suspect s l).1) (upTo 32) _),
    fun j other => (others j other).trans (op_modOp_other s _ (Ne.symm other)), fun k => (lanes k).trans ?_⟩
  rw [op_modOp_same]
  rfl

end

/-! ### All operations -/

theorem nodup_upTo : ∀ n : Nat, (upTo n).Nodup
  | 0 => List.nodup_nil
  | n + 1 => (nodup_upTo n).append (List.nodup_singleton n) fun k low at_ => by
      obtain rfl := List.mem_singleton.mp at_
      exact Nat.lt_irrefl k (mem_upTo.mp low)

/-- The releases of an operation whose commit wait has not ended, as suspect. -/
def State.failOp (s : State) (i : Nat) : State := if (s.op i).kind = .stmp && !(s.op i).committed then s.sendReleases i true else s

theorem releasesOnly_failOp (s : State) (i : Nat) : ReleasesOnly s (s.failOp i) := by
  rw [State.failOp]
  split
  · exact (sendReleases_effect i true s).1
  · exact releasesOnly_refl s

theorem op_failOp_other (s : State) {i j : Nat} (h : j ≠ i) : (s.failOp i).op j = s.op j := by
  rw [State.failOp]
  split
  · exact (sendReleases_effect i true s).2.others j h
  · rfl

theorem lane_failOp (s : State) (i : Nat) {k : Nat} (low : k < 32) : ((s.failOp i).op i).lane k =
    if (s.op i).kind = .stmp ∧ (s.op i).committed = false then ((s.op i).lane k).released true else (s.op i).lane k := by
  rw [State.failOp]
  by_cases due : (s.op i).kind = .stmp ∧ (s.op i).committed = false
  · rw [if_pos (by simp [due]), if_pos due, (sendReleases_effect i true s).2.lanes, if_pos (mem_upTo.mpr low)]
  · rw [if_neg (by simpa using due), if_neg due]

/-- The operations of a list, each once. -/
theorem lane_failOps {k : Nat} (low : k < 32) : ∀ (is : List Nat) (s : State), is.Nodup → ∀ j,
    ((is.foldl State.failOp s).op j).lane k =
      if j ∈ is ∧ (s.op j).kind = .stmp ∧ (s.op j).committed = false then ((s.op j).lane k).released true else (s.op j).lane k
  | [], s, _, j => by simp
  | i :: is, s, once, j => by
    obtain ⟨fresh, once⟩ := List.nodup_cons.mp once
    refine (lane_failOps low is (s.failOp i) once j).trans ?_
    by_cases here : j = i
    · subst here
      simp only [fresh, false_and, if_false, List.mem_cons_self, true_and]
      exact lane_failOp s j low
    · rw [op_failOp_other s here]
      simp [here]

/-- A read that waits at the reader's port ends with FCODE 7 (R325). -/
def RemLane.portFailed (x : RemLane) : RemLane := if x.stage = .port then { x with stage := .reply (.fault 7#8) } else x

def RemOp.portFailed (o : RemOp) : RemOp := { o with lanes := o.lanes.map RemLane.portFailed }

theorem lane_portFailed (o : RemOp) (l : Nat) : o.portFailed.lane l = (o.lane l).portFailed :=
  rowGet_map_default (d := ({} : RemLane)) (f := RemLane.portFailed) rfl o.lanes l

/-- Entry to FAILED, as a chain of its steps. -/
def State.failed (s : State) : State :=
  s.suspects.foldl State.sendMark
    ((upTo s.ops.length).foldl State.failOp ({ s with tb := { s.tb with tstate := 3#2, rejoin := none } } : State))

theorem enterFailed_again {s : State} (h : s.tb.tstate = 3#2) : s.enterFailed = s := if_pos h

theorem enterFailed_steps {s : State} (h : s.tb.tstate ≠ 3#2) : s.enterFailed = { s.failed with ops := s.failed.ops.map RemOp.portFailed } :=
  if_neg h

theorem releasesOnly_failed (s : State) : ReleasesOnly ({ s with tb := { s.tb with tstate := 3#2, rejoin := none } } : State) s.failed :=
  (releasesOnly_foldl releasesOnly_failOp (upTo s.ops.length) _).trans (releasesOnly_foldl releasesOnly_sendMark s.suspects _)

theorem enterFailed_rest {s : State} (h : s.tb.tstate ≠ 3#2) : s.enterFailed =
    { s with tb := { s.tb with tstate := 3#2, rejoin := none }, ops := s.enterFailed.ops, suspects := s.enterFailed.suspects,
             suspectFull := s.enterFailed.suspectFull, outbox := s.enterFailed.outbox, agenda := s.enterFailed.agenda,
             notices := s.enterFailed.notices } := by
  rw [enterFailed_steps h]
  generalize s.failed.ops.map RemOp.portFailed = ops
  rw [(releasesOnly_failed s).rest]

/-! ### OSCILLATOR_FAULT (R312, R325) -/

theorem oscillatorFault_stopped {s : State} (off : s.clocked = false) : exec .oscillatorFault s = .next s := by
  rw [exec_oscillatorFault, execOscillatorFault, off]
  rfl

theorem oscillatorFault_clocked {s : State} (on : s.clocked = true) : exec .oscillatorFault s = .next s.enterFailed := by
  rw [exec_oscillatorFault, execOscillatorFault, if_pos on]

/-! ### The lanes after entry to FAILED -/

/-- An operation that does not stand has no release due. -/
theorem op_stands {s : State} {i : Nat} (h : (s.op i).kind = .stmp) : i < s.ops.length := by
  by_contra beyond
  rw [State.op, rowGet_beyond noOp s.ops i (Nat.not_lt.mp beyond)] at h
  exact absurd h (by decide)

theorem lane_failed (s : State) (i : Nat) {l : Nat} (low : l < 32) : (s.failed.op i).lane l =
    if (s.op i).kind = .stmp ∧ (s.op i).committed = false then ((s.op i).lane l).released true else (s.op i).lane l := by
  have ops : s.failed.op i = ((upTo s.ops.length).foldl State.failOp ({ s with tb := { s.tb with tstate := 3#2, rejoin := none } } : State)).op i :=
    congrArg (rowGet noOp · i) (ops_sendMarks s.suspects _)
  rw [ops, lane_failOps low _ _ (nodup_upTo _)]
  refine if_congr (and_iff_right_of_imp fun due => mem_upTo.mpr ?_) rfl rfl
  exact op_stands due.1

/-- The stage of a lane after entry to FAILED. -/
theorem lane_enterFailed {s : State} (h : s.tb.tstate ≠ 3#2) (i : Nat) {l : Nat} (low : l < 32) : (s.enterFailed.op i).lane l =
    { (s.op i).lane l with stage :=
        if ((s.op i).lane l).stage = .port then .reply (.fault 7#8)
        else if ((s.op i).lane l).stage = .stored ∧ (s.op i).kind = .stmp ∧ (s.op i).committed = false then .releasing true
        else ((s.op i).lane l).stage } := by
  have mapped : s.enterFailed.op i = (s.failed.op i).portFailed := by
    rw [enterFailed_steps h]
    exact rowGet_map_default (d := noOp) (f := RemOp.portFailed) rfl s.failed.ops i
  rw [mapped, lane_portFailed, lane_failed s i low]
  generalize (s.op i).lane l = x
  by_cases port : x.stage = .port
  · have kept : x.released true = x := if_neg (by simp [port])
    rw [kept, ite_self, RemLane.portFailed, if_pos port, if_pos port]
  · rw [if_neg port]
    by_cases stored : x.stage = .stored
    · by_cases due : (s.op i).kind = .stmp ∧ (s.op i).committed = false
      · rw [if_pos due, if_pos ⟨stored, due⟩, RemLane.released, if_pos stored]
        exact if_neg (by simp)
      · rw [if_neg due, if_neg fun both => due both.2]
        exact if_neg port
    · have kept : x.released true = x := if_neg stored
      rw [kept, ite_self, if_neg fun both => stored both.1]
      exact if_neg port

end Sys2Proof.Machine
end

section
namespace Sys2Proof.Machine

open Sys2Proof Sys2Proof.Safety

/-! ### Slots written and read back (R314, R315) -/

/-- The version whose bytes stand at an address. -/
def versionAt (m : List Host.Cell) (a : Nat) : Version :=
  { val := memNat m a 8, pending := memNat m (a + 8) 8 / 2 ^ 63 % 2 = 1, suspect := memNat m (a + 8) 8 / 2 ^ 62 % 2 = 1,
    tick := memNat m (a + 8) 8 % 2 ^ 62 }

/-- Versions that stand one after the other. -/
def versionsFrom (m : List Host.Cell) : Nat → Nat → List Version
  | _, 0 => []
  | a, n + 1 => versionAt m a :: versionsFrom m (a + 16) n

/-- The bytes of versions one after the other. -/
def versionBytes (vs : List Version) : List Byte := vs.foldr (fun v acc => v.bytes ++ acc) []

theorem slots_versionsFrom (s : State) (cell : Nat) : s.slots cell = versionsFrom s.hbm cell 4 := by
  simp [State.slots, upTo, versionsFrom, versionAt, Nat.add_assoc]

/-- A version that sixteen bytes hold. -/
def Version.fits (v : Version) : Prop := v.val < 2 ^ 64 ∧ v.tick < 2 ^ 62

theorem versionAt_fits (m : List Host.Cell) (a : Nat) : (versionAt m a).fits :=
  ⟨memNat_lt m a 8, Nat.mod_lt _ (by decide)⟩

theorem slots_fit (s : State) (cell : Nat) : ∀ v ∈ s.slots cell, v.fits := by
  intro v hv
  simp only [slots_versionsFrom, versionsFrom, List.mem_cons, List.not_mem_nil, or_false] at hv
  rcases hv with rfl | rfl | rfl | rfl <;> exact versionAt_fits _ _

theorem length_versionBytes : ∀ vs : List Version, (versionBytes vs).length = 16 * vs.length
  | [] => rfl
  | v :: vs => by
    have rest := length_versionBytes vs
    simp only [versionBytes, List.foldr_cons, List.length_append, Version.bytes, leBytes_length, List.length_cons] at rest ⊢
    omega

/-- A version is the one that its marks and its tick make. -/
theorem version_marks {v : Version} (tick : v.tick < 2 ^ 62) {a : Nat} {m : List Host.Cell} (val : memNat m a 8 = v.val)
    (marks : memNat m (a + 8) 8 = v.tick + (if v.suspect then 2 ^ 62 else 0) + (if v.pending then 2 ^ 63 else 0)) : versionAt m a = v := by
  obtain ⟨x, pending, suspect, t⟩ := v
  dsimp only at tick marks val
  rw [versionAt, val, marks]
  cases pending <;> cases suspect <;>
    simp only [Version.mk.injEq, true_and, decide_eq_true_eq, decide_eq_false_iff_not, if_true, if_false, Bool.false_eq_true] <;> omega

/-- A version stands where its bytes do. -/
theorem versionAt_bytes {v : Version} (h : v.fits) {m : List Host.Cell} {a : Nat} (stands : memRead m a 16 = v.bytes) : versionAt m a = v := by
  have halves : memRead m a 8 ++ memRead m (a + 8) 8 = v.bytes := (memRead_add m 8 8 a).symm.trans stands
  obtain ⟨first, second⟩ := List.append_inj halves (by rw [memRead_length, leBytes_length])
  obtain ⟨val, tick⟩ := h
  refine version_marks tick ?_ ?_
  · rw [memNat, first, leNat_leBytes]
    exact Nat.mod_eq_of_lt val
  · rw [memNat, second, leNat_leBytes]
    refine Nat.mod_eq_of_lt ?_
    split <;> split <;> omega

theorem versionsFrom_bytes {m : List Host.Cell} : ∀ (vs : List Version) (a : Nat), (∀ v ∈ vs, v.fits) →
    memRead m a (16 * vs.length) = versionBytes vs → versionsFrom m a vs.length = vs
  | [], _, _, _ => rfl
  | v :: vs, a, fit, stands => by
    obtain ⟨here, later⟩ := List.forall_mem_cons.mp fit
    have length : 16 * (v :: vs).length = 16 + 16 * vs.length := by rw [List.length_cons]; omega
    have parts : memRead m a 16 ++ memRead m (a + 16) (16 * vs.length) = v.bytes ++ versionBytes vs := by
      rw [← memRead_add, ← length]
      exact stands
    obtain ⟨first, rest⟩ := List.append_inj parts (by simp [Version.bytes])
    show versionAt m a :: versionsFrom m (a + 16) vs.length = v :: vs
    rw [versionAt_bytes here first, versionsFrom_bytes vs (a + 16) later rest]

/-! ### The cells at the end of a rejoin (R325, R327) -/

section
variable {s : State} {cell : Nat}

/-- What the setting of a cell's slots changes. -/
theorem setSlots_rest (vs : List Version) : s.setSlots cell vs = { s with hbm := (s.setSlots cell vs).hbm, bad := (s.setSlots cell vs).bad } := rfl

theorem hbm_setSlots (vs : List Version) : (s.setSlots cell vs).hbm = memWrite s.hbm cell (versionBytes vs) := rfl

theorem memGet_setSlots_other {vs : List Version} (four : vs.length = 4) {a : Nat} (h : a < cell ∨ cell + 64 ≤ a) :
    memGet (s.setSlots cell vs).hbm a = memGet s.hbm a := by
  rw [hbm_setSlots]
  exact memGet_memWrite_other _ _ _ _ (by rw [length_versionBytes, four]; exact h)

/-- The slots read back as they were written. -/
theorem slots_setSlots {vs : List Version} (wf : Memory.wf s.hbm = true) (four : vs.length = 4) (fit : ∀ v ∈ vs, v.fits) :
    (s.setSlots cell vs).slots cell = vs := by
  rw [slots_versionsFrom, hbm_setSlots, ← four]
  refine versionsFrom_bytes vs cell fit ?_
  rw [← length_versionBytes]
  exact memRead_memWrite_same _ _ wf

/-- A PENDING version becomes SUSPECT, no longer PENDING. -/
def Version.settled (v : Version) : Version := if v.pending = true then { v with pending := false, suspect := true } else v

theorem Version.fits_settled {v : Version} (h : v.fits) : v.settled.fits := by
  rw [settled]
  split <;> exact h

theorem settleCell_quiet (quiet : ∀ v ∈ s.slots cell, v.pending = false) : s.settleCell cell = s := by
  rw [State.settleCell]
  refine if_neg ?_
  simp only [Bool.and_eq_true, List.any_eq_true, not_and]
  rintro ⟨v, mem, pending⟩
  exact absurd pending (by simp [quiet v mem])

theorem settleCell_pending (good : s.physBad false cell 64 = false) (pending : ¬ ∀ v ∈ s.slots cell, v.pending = false) :
    s.settleCell cell = s.setSlots cell ((s.slots cell).map Version.settled) := by
  rw [State.settleCell]
  refine if_pos ?_
  rw [good, Bool.not_false, Bool.and_true, List.any_eq_true]
  simpa using pending

/-- A cell settled: its own bytes alone change, and its slots read as settled. -/
theorem settleCell_effect (wf : Memory.wf s.hbm = true) (good : s.physBad false cell 64 = false) :
    s.settleCell cell = { s with hbm := (s.settleCell cell).hbm, bad := (s.settleCell cell).bad } ∧
    (∀ a, a < cell ∨ cell + 64 ≤ a → memGet (s.settleCell cell).hbm a = memGet s.hbm a) ∧
    (s.settleCell cell).slots cell = (s.slots cell).map Version.settled := by
  by_cases quiet : ∀ v ∈ s.slots cell, v.pending = false
  · rw [settleCell_quiet quiet]
    refine ⟨rfl, fun _ _ => rfl, ?_⟩
    exact ((List.map_congr_left fun v mem => if_neg (by simp [quiet v mem])).trans (List.map_id _)).symm
  · rw [settleCell_pending good quiet]
    have four : ((s.slots cell).map Version.settled).length = 4 := by rw [List.length_map]; rfl
    refine ⟨setSlots_rest _, fun a outside => memGet_setSlots_other four outside, slots_setSlots wf four ?_⟩
    intro v mem
    obtain ⟨u, stood, rfl⟩ := List.mem_map.mp mem
    exact Version.fits_settled (slots_fit s cell u stood)

end

/-! ### The end of the wait (R327) -/

theorem rejoinWaitEnd_running {s : State} (h : s.tb.rejoin ≠ some 0) : exec .rejoinWaitEnd s = .next s := by
  rw [exec_rejoinWaitEnd, execRejoinWaitEnd, if_neg h]

theorem rejoinWaitEnd_over {s : State} (h : s.tb.rejoin = some 0) :
    ∃ y : State, y = s.pendings.foldl (fun s x => s.settleCell x.1) s ∧
      exec .rejoinWaitEnd s = .next (({ y with pendings := [], tb := { y.tb with rejoin := none } } : State).settleTime) := by
  refine ⟨_, rfl, ?_⟩
  rw [exec_rejoinWaitEnd, execRejoinWaitEnd, if_pos h]

end Sys2Proof.Machine
end

section
namespace Sys2Proof.Machine

open Sys2Proof Sys2Proof.Safety

/-- Settles O56, a clause for each event of the timebase: the state by its conditions, a tick by the metering of the partitions and
the pause of the teams' waits, a transfer and a rejoin by the transfer taken, entry to FAILED by the lanes its releases and its last
step reach, and a settled cell by its slots read back. -/
theorem timebaseEvents : Obligations.TimebaseEvents := by
  unfold Obligations.TimebaseEvents
  refine ⟨fun s => ⟨settleTime_failed, fun running => ?_⟩, fun s => ⟨timebaseTick_stopped, fun on => ?_⟩,
    fun links s => ⟨timeTransfer_stopped, fun on => ⟨timeTransfer_clashes on, fun agrees => ?_⟩⟩,
    fun s => ⟨oscillatorFault_stopped, oscillatorFault_clocked⟩,
    fun s => ⟨enterFailed_again, fun running => ⟨enterFailed_rest running, fun i l low => lane_enterFailed running i low⟩⟩,
    fun c f l s => ⟨timebaseConfig_off, fun running => ?_⟩,
    fun links s => ⟨rejoin_refused, fun running failed good => ?_⟩,
    fun s => ⟨rejoinWaitEnd_running, rejoinWaitEnd_over⟩,
    fun s cell wf good => settleCell_effect wf good⟩
  case refine_1 =>
    rw [settleTime_enters running]
    exact ⟨rfl, stateOf_held, stateOf_normal, stateOf_widened, rfl⟩
  case refine_2 =>
    obtain ⟨metered, counters⟩ := meterResident_counters s.tickStarted
    refine ⟨s.tickStarted.meterResident, timebaseTick_clocked on, ?_⟩
    exact tick_effect metered counters
  case refine_3 =>
    rw [timeTransfer_agrees on agrees]
    refine ⟨fun bad => ?_, fun good => ?_⟩
    · have none_good : ∀ x ∈ s.enabledLinks links, x.ok = false := fun x mem => Bool.eq_false_iff.mpr fun ok => bad x ⟨mem, ok⟩
      exact congrArg (fun t => Host.Outcome.next (State.settleTime t)) (transferred_none none_good)
    · obtain ⟨x, best⟩ := bestTransfer_exists good
      obtain ⟨mem, ok, least⟩ := bestTransfer_some best
      refine ⟨x, ⟨mem, ok⟩, fun z hz => least z hz.1 hz.2, ?_⟩
      exact congrArg (fun t => Host.Outcome.next (State.settleTime t)) (transferred_some best)
  case refine_4 =>
    refine ⟨configCommit c f s.tb, configFail c f s.tb, inRange 16 1048576 l s.tb.lambda, timebaseConfig_running running,
      configCommit_or c f s.tb, inRange_or _ _ _ _, inRange_within, inRange_outside, config_taken, config_ordered⟩
  case refine_5 =>
    obtain ⟨x, best⟩ := bestTransfer_exists good
    obtain ⟨mem, ok, least⟩ := bestTransfer_some best
    refine ⟨x, mem, ok, least, fun part => ?_, fun full => ?_⟩
    · exact (rejoin_judged running failed best).trans (congrArg Host.Outcome.next (if_neg (mt (fullResync_iff mem).mp part)))
    · refine (rejoin_judged running failed best).trans (congrArg Host.Outcome.next ((if_pos ((fullResync_iff mem).mpr full)).trans ?_))
      rw [Timebase.take_eq]
      rfl

end Sys2Proof.Machine
end

section
namespace Sys2Proof.Machine

open Sys2Proof Sys2Proof.Safety

/-! ### One write to the window after another (R299, R301) -/

/-- A store, and another at its end, make one store. -/
theorem stored_append {s x t : State} {a : Nat} {bs cs : List Byte} (keep : Memory.wf s.spad = true → Memory.wf x.spad = true)
    (h1 : Stored s x a bs) (h2 : Stored x t (a + bs.length) cs) : Stored s t a (bs ++ cs) where
  stored wf := by
    have first : memRead t.spad a bs.length = memRead x.spad a bs.length :=
      memRead_congr _ _ fun y _ hy => h2.others y (.inl hy)
    rw [List.length_append, memRead_add, first, h1.stored wf, h2.stored (keep wf)]
  others y hy := by
    rw [List.length_append] at hy
    exact (h2.others y (by omega)).trans (h1.others y (by omega))
  bad := by
    obtain ⟨e1, m1⟩ := h1.bad
    obtain ⟨e2, m2⟩ := h2.bad
    rw [e1] at e2
    exact ⟨e2, fun n hn => m1 n (m2 n hn)⟩

theorem Team.key_add (t : Team) (off n : Nat) : t.key (off + n) = t.key off + n := by
  unfold Team.key spadKey
  omega

section
variable (s : State) (u off : Nat) (bs cs : List Byte)

theorem windowWrite_next_stored :
    Stored s ((s.windowWrite u off bs).windowWrite u (off + bs.length) cs) ((s.team u).key off) (bs ++ cs) := by
  refine stored_append (memWrite_wf bs _) (windowWrite_stored s u off bs) ?_
  rw [← Team.key_add, ← windowWrite_key s u off bs]
  exact windowWrite_stored _ u _ cs

/-- What an engine writes after a write of its own is written by it from the start. -/
theorem engineWrites_after_windowWrite {t : State} {cmd : Nat} {f : Cmd → Cmd} (hf : IgnoresNotes f)
    (h : EngineWrites (s.windowWrite u off bs) t cmd f) : EngineWrites s t cmd f where
  rest := h.rest
  cmds := commandsNote_trans (commandsNote_modCmd (windowWrite_notes s u off bs) cmd hf) h.cmds
  teams v := by
    have later := h.teams v
    rwa [windowWrite_team] at later

end

/-- Passing to an entry writes the head and the command's place in the chain (R299). -/
theorem nextEntry_effect (s : State) (cmd a : Nat) :
    EngineWrites s (s.nextEntry cmd a) cmd (fun x => { x with chain := { x.chain with entry := a, doneb := 0, cur := none, opened := false } }) ∧
      Stored s (s.nextEntry cmd a) ((s.cmdTeam cmd).key (s.cmd cmd).addr) (leBytes 4 a ++ leBytes 4 0) :=
  ⟨engineWrites_after_windowWrite s _ _ _ (fun _ _ _ => rfl) (engineWrites_windowWrite _ _ _ _ cmd (fun _ _ _ => rfl)),
    stored_same (windowWrite_next_stored s _ _ (leBytes 4 a) (leBytes 4 0)) rfl rfl⟩

/-! ### A fault ends the chain (R301, R302) -/

/-- The head of a faulting chain written, and its command ended. -/
def State.faultNoted (s : State) (cmd code : Nat) : State :=
  ((s.windowSet (s.cmd cmd).team ((s.cmd cmd).addr + 12) 1 3).windowSet (s.cmd cmd).team ((s.cmd cmd).addr + 13) 1 code).modCmd cmd
    (fun x => { x with stage := .ended })

theorem faultNoted_writes (s : State) (cmd code : Nat) : EngineWrites s (s.faultNoted cmd code) cmd (fun x => { x with stage := .ended }) :=
  engineWrites_after_windowWrite s _ _ _ (fun _ _ _ => rfl) (engineWrites_windowWrite _ _ _ _ cmd (fun _ _ _ => rfl))

theorem faultNoted_stored (s : State) (cmd code : Nat) :
    Stored s (s.faultNoted cmd code) ((s.cmdTeam cmd).key (s.cmd cmd).addr + 12) [3#8, BitVec.ofNat 8 code] := by
  rw [← Team.key_add]
  exact stored_same (windowWrite_next_stored s _ _ (leBytes 1 3) (leBytes 1 code)) rfl rfl

/-- The end of a command of which only notes have changed is that of the command as it was. -/
theorem endCmd_of_notes {s x : State} (h : CommandsNote s x) (cmd : Nat) (f : OpFlag) : x.endCmd cmd (some f) =
    (x.modCmd cmd (fun c => { c with stage := .ended })).modPartyCounter (s.cmd cmd).team (s.cmd cmd).gang .enc
      (fun y => (y.flag f).finish (s.cmd cmd).seq) := by
  unfold State.endCmd
  rw [h.2 cmd]

theorem chainFault_without_sync (s : State) (cmd code : Nat) : s.chainFault cmd code none =
    (s.faultNoted cmd code).modPartyCounter (s.cmd cmd).team (s.cmd cmd).gang .enc (fun x => (x.flag
      { seq := (s.cmd cmd).seq, lane := 0, code := BitVec.ofNat 8 code, addr := BitVec.ofNat 64 (s.cmd cmd).addr, rlate := none,
        unsynced := true }).finish (s.cmd cmd).seq) :=
  endCmd_of_notes (commandsNote_trans (windowWrite_notes s _ _ _) (windowWrite_notes _ _ _ _)) cmd _

/-! ### An entry written after COPY issued, or whose bytes are undefined (R295) -/

section
variable (s : State) (cmd : Nat)

@[simp] theorem cmd_modCmd_same (f : Cmd → Cmd) : (s.modCmd cmd f).cmd cmd = f (s.cmd cmd) := rowGet_rowMod_same noCmd s.cmds cmd f

/-- The entry that the chain has come to was written after COPY issued, or its bytes are undefined. -/
abbrev State.entryLate : Prop :=
  (placesOf ((s.cmdTeam cmd).key (s.cmdChain cmd).entry) 32).any (fun x => (s.cmd cmd).wrote.contains x) = true ∨
    s.veils ((s.cmdTeam cmd).key (s.cmdChain cmd).entry) 32 = true

theorem markWild_eq : s.markWild cmd =
    if s.entryLate cmd then s.modCmd cmd (fun x => { x with chain := { x.chain with wild := true } }) else s :=
  if_congr Bool.or_eq_true_iff rfl rfl

/-- The mark is one of a command, and nothing else. -/
theorem markWild_rest : s.markWild cmd = { s with cmds := (s.markWild cmd).cmds } := by
  rw [markWild_eq]
  split
  · rfl
  · rfl

/-- Of that command, it is one of the chain alone. -/
theorem markWild_cmd : ∃ w, (s.markWild cmd).cmd cmd = { s.cmd cmd with chain := { s.cmdChain cmd with wild := w } } := by
  rw [markWild_eq]
  split
  next =>
    refine ⟨true, ?_⟩
    exact cmd_modCmd_same s cmd _
  next => exact ⟨(s.cmdChain cmd).wild, rfl⟩

@[simp] theorem spad_markWild : (s.markWild cmd).spad = s.spad := by rw [markWild_rest]
@[simp] theorem bad_markWild : (s.markWild cmd).bad = s.bad := by rw [markWild_rest]
@[simp] theorem teams_markWild : (s.markWild cmd).teams = s.teams := by rw [markWild_rest]

@[simp] theorem team_markWild (u : Nat) : (s.markWild cmd).team u = s.team u := by
  rw [State.team, teams_markWild, State.team]

/-- The mark leaves the entry readable as it was. -/
theorem entryBytes_markWild : (s.markWild cmd).entryBytes cmd = s.entryBytes cmd := by
  obtain ⟨w, same⟩ := markWild_cmd s cmd
  unfold State.entryBytes State.spadBad State.spadBytes
  simp only [same, team_markWild, spad_markWild, bad_markWild]

end

/-! ### The engine reaches an entry (R297, R298) -/

/-- The chain of a command that runs has an entry to begin: its bytes. -/
structure EntryReached (s : State) (cmd : Nat) (b : List Byte) : Prop where
  runs : s.cmdRuns cmd = true
  chain : (s.cmd cmd).skipper = false
  closed : (s.cmdChain cmd).opened = false
  entry : s.entryBytes cmd = some b

section
variable {s : State} {cmd kind : Nat} {b : List Byte} (due : EntryReached s cmd b) {f : Entry → State → State}
include due

theorem reach_other_kind (other : (entryOf b).kind ≠ kind) : s.reach cmd kind f = s := by
  obtain ⟨runs, chain, closed, entry⟩ := due
  simp only [State.reach, runs, chain, closed, entry, if_pos other]
  rfl

variable (same : (entryOf b).kind = kind)
include same

theorem reach_malformed (bad : (entryOf b).ok (s.cmdTeam cmd) = false) :
    s.reach cmd kind f = s.chainFault cmd 1 (s.cmdChain cmd).lastSync := by
  obtain ⟨runs, chain, closed, entry⟩ := due
  simp only [State.reach, runs, chain, closed, entry, if_neg (not_not_intro same), bad]
  rfl

theorem reach_begins (ok : (entryOf b).ok (s.cmdTeam cmd) = true) : s.reach cmd kind f = f (entryOf b) (s.markWild cmd) := by
  obtain ⟨runs, chain, closed, entry⟩ := due
  simp only [State.reach, runs, chain, closed, entry, if_neg (not_not_intro same), ok]
  rfl

end

/-- A word of a chain has an effect where the engine has reached an entry of its KIND. -/
theorem chainWord_reaches {kind cmd : Nat} {i : Instr} (word : chainWord kind cmd = some i) :
    ∃ f, ∀ s, exec i s = .next (s.reach cmd kind f) := by
  unfold chainWord at word
  split at word
  case h_8 => nomatch word
  all_goals
    obtain rfl := Option.some.inj word
    exact ⟨_, fun _ => rfl⟩

/-! ### The effect of each entry (R298, R299) -/

section
variable {s : State} {cmd code key : Nat} {b : List Byte}

/-- The mark of an undefined chain has no part in its strides. -/
theorem strideOf_wild (c : Chain) (w : Bool) (x : Int) : ({ c with wild := w } : Chain).strideOf x = c.strideOf x := rfl

theorem bodyOk_wild (s : State) (t : Team) (c : Chain) (w : Bool) (n : Nat) : s.bodyOk t { c with wild := w } n = s.bodyOk t c n := rfl

theorem Chain.word_none (c : Chain) : c.word none = c.lastSync := Option.none_or

theorem openEntry_begins {own : Option Nat} (entry : s.entryBytes cmd = some b)
    (sync : entrySync (s.cmdTeam cmd) (s.cmdChain cmd) (entryOf b) = .ok own) : openEntry cmd (entryOf b) (s.markWild cmd) =
      (s.markWild cmd).modCmd cmd (fun x => { x with chain := { x.chain with opened := true, cur := some b } }) := by
  obtain ⟨w, same⟩ := markWild_cmd s cmd
  have sync' : entrySync (s.cmdTeam cmd) { s.cmdChain cmd with wild := w } (entryOf b) = .ok own := sync
  simp only [openEntry, same, team_markWild, sync', entryBytes_markWild, entry]

theorem openEntry_faults (sync : entrySync (s.cmdTeam cmd) (s.cmdChain cmd) (entryOf b) = .error code) :
    openEntry cmd (entryOf b) (s.markWild cmd) =
      ((s.markWild cmd).spoilChunk cmd (entryOf b)).chainFault cmd code (s.cmdChain cmd).lastSync := by
  obtain ⟨w, same⟩ := markWild_cmd s cmd
  have sync' : entrySync (s.cmdTeam cmd) { s.cmdChain cmd with wild := w } (entryOf b) = .error code := sync
  simp only [openEntry, same, team_markWild, sync', Chain.word_none]

variable (due : EntryReached s cmd b) (ok : (entryOf b).ok (s.cmdTeam cmd) = true)
include due ok

theorem openWord_begins {i : Instr} (word : (i = .copye cmd ∧ (entryOf b).kind = 1) ∨ (i = .fill cmd ∧ (entryOf b).kind = 2)) :
    exec i s = .next (openEntry cmd (entryOf b) (s.markWild cmd)) := by
  obtain ⟨rfl, kind⟩ | ⟨rfl, kind⟩ := word
  · exact congrArg _ (reach_begins due kind ok)
  · exact congrArg _ (reach_begins due kind ok)

section
variable (kind : (entryOf b).kind = 3)
include kind

theorem swadde_counts (named : (s.markWild cmd).namedSync (s.cmdTeam cmd) (entryOf b).dst (entryOf b).dwin
      ((s.cmdChain cmd).strideOf (s.cmdChain cmd).ystride) = .ok key) :
    exec (.swadde cmd) s = .next (((((s.markWild cmd).engineSync (s.cmdTeam cmd).part key (entryOf b).len 0).wildSync
      ((s.markWild cmd).cmd cmd).chain.wild key).modCmd cmd (fun x => { x with chain := { x.chain with lastSync := some key } })).nextEntry cmd
        ((s.cmdChain cmd).entry + 32)) := by
  obtain ⟨w, same⟩ := markWild_cmd s cmd
  rw [exec_swadde, execSwadde, reach_begins due kind ok]
  simp only [same, team_markWild, strideOf_wild, named]

theorem swadde_faults (named : (s.markWild cmd).namedSync (s.cmdTeam cmd) (entryOf b).dst (entryOf b).dwin
      ((s.cmdChain cmd).strideOf (s.cmdChain cmd).ystride) = .error code) :
    exec (.swadde cmd) s = .next ((s.markWild cmd).chainFault cmd code (s.cmdChain cmd).lastSync) := by
  obtain ⟨w, same⟩ := markWild_cmd s cmd
  rw [exec_swadde, execSwadde, reach_begins due kind ok]
  simp only [same, team_markWild, strideOf_wild, named, Chain.word_none]

end

section
variable (kind : (entryOf b).kind = 4)
include kind

theorem loope_bad_body (body : (s.markWild cmd).bodyOk (s.cmdTeam cmd) (s.cmdChain cmd) (entryOf b).len = false) :
    exec (.loope cmd) s = .next ((s.markWild cmd).chainFault cmd 1 (s.cmdChain cmd).lastSync) := by
  obtain ⟨w, same⟩ := markWild_cmd s cmd
  rw [exec_loope, execLoope, reach_begins due kind ok]
  simp only [same, team_markWild, bodyOk_wild, body, Chain.word_none, Bool.not_false, if_true]

variable (body : (s.markWild cmd).bodyOk (s.cmdTeam cmd) (s.cmdChain cmd) (entryOf b).len = true)
include body

/-- With a body in its run, LOOPE goes by whether its loop is in progress, and by the iterations that are left or asked for. -/
theorem loope_runs : exec (.loope cmd) s = .next (
    let m := s.markWild cmd
    let ch := s.cmdChain cmd
    let start := ch.entry - 32 * (entryOf b).len
    let count := ((entryOf b).src.extractLsb' 0 32).toNat
    if ch.loopAt = some ch.entry then
      if ch.loopLeft ≤ 1 then
        ((m.loopLeft cmd (ch.loopLeft - 1)).modCmd cmd (fun x => { x with chain := { x.chain with loopAt := none, iter := 0 } })).nextEntry cmd
          (ch.entry + 32)
      else ((m.loopLeft cmd (ch.loopLeft - 1)).modCmd cmd (fun x =>
        { x with chain := { x.chain with iter := x.chain.iter + 1 } })).nextEntry cmd start
    else if count = 0 then m.nextEntry cmd (ch.entry + 32)
    else ((m.loopLeft cmd count).modCmd cmd (fun x => { x with chain := { x.chain with
      loopAt := some ch.entry, iter := 1, sstride := ((entryOf b).src.extractLsb' 32 32).toInt,
      dstride := ((entryOf b).dst.extractLsb' 0 32).toInt, ystride := ((entryOf b).dst.extractLsb' 32 32).toInt } })).nextEntry cmd start) := by
  obtain ⟨w, same⟩ := markWild_cmd s cmd
  rw [exec_loope, execLoope, reach_begins due kind ok]
  simp only [same, team_markWild, bodyOk_wild, body, Bool.not_true, Bool.false_eq_true, if_true, if_false, signedHalf]

end

section
variable (kind : (entryOf b).kind = 5)
include kind

theorem conde_faults (named : (s.markWild cmd).namedSync (s.cmdTeam cmd) (entryOf b).src (entryOf b).swin 0 = .error code) :
    exec (.conde cmd) s = .next ((s.markWild cmd).chainFault cmd code (s.cmdChain cmd).lastSync) := by
  obtain ⟨w, same⟩ := markWild_cmd s cmd
  rw [exec_conde, execConde, reach_begins due kind ok]
  simp only [same, team_markWild, named, Chain.word_none]

variable (named : (s.markWild cmd).namedSync (s.cmdTeam cmd) (entryOf b).src (entryOf b).swin 0 = .ok key)
include named

/-- CONDE goes by its test on the sync word, and by whether what it skips is the LOOPE of the loop in progress. -/
theorem conde_tests : exec (.conde cmd) s = .next (
    let m := s.markWild cmd
    let ch := s.cmdChain cmd
    if condeSkips (entryOf b) (memNat s.spad key 8) = true then
      (if ch.loopAt = some (ch.entry + 32) then
          m.modCmd cmd (fun x => { x with chain := { x.chain with loopAt := none, iter := 0 } })
        else m).nextEntry cmd (ch.entry + 64)
    else m.nextEntry cmd (ch.entry + 32)) := by
  obtain ⟨w, same⟩ := markWild_cmd s cmd
  rw [exec_conde, execConde, reach_begins due kind ok]
  simp only [same, team_markWild, named, State.spadNat, spad_markWild]

end

theorem next_starts_run (kind : (entryOf b).kind = 6) : exec (.next cmd) s = .next (((s.markWild cmd).modCmd cmd (fun x =>
    { x with chain := { x.chain with run := (entryOf b).src.toNat } })).nextEntry cmd (entryOf b).src.toNat) :=
  congrArg _ (reach_begins due kind ok)

theorem stop_ends (kind : (entryOf b).kind = 7) :
    exec (.stop cmd) s = .next (((s.markWild cmd).windowSet (s.cmd cmd).team ((s.cmd cmd).addr + 12) 1 2).endCmd cmd none) := by
  obtain ⟨w, same⟩ := markWild_cmd s cmd
  rw [exec_stop, execStop, reach_begins due kind ok]
  simp only [same]

end

/-! ### The test of a CONDE (R298) -/

/-- A CONDE that breaks no rule has one of the three tests. -/
theorem conde_cond {e : Entry} {t : Team} (ok : e.ok t = true) (kind : e.kind = 5) : e.cond ≤ 2 := by
  simp only [Entry.ok, Entry.kindOk, kind, Bool.and_eq_true, decide_eq_true_eq] at ok
  obtain ⟨-, ⟨-, test⟩, -⟩ := ok
  exact test

/-- The test by the generation that the sync word has passed, or by its flags. -/
theorem condeSkips_iff {e : Entry} (test : e.cond ≤ 2) (lo : Nat) : condeSkips e lo = true ↔
    (e.cond = 0 ∧ genReached (swGen lo) (e.dst.toNat % 2 ^ 16) = true) ∨
    (e.cond = 1 ∧ ¬ genReached (swGen lo) (e.dst.toNat % 2 ^ 16) = true) ∨
    (e.cond = 2 ∧ BitVec.ofNat 3 (lo / 2 ^ 56) &&& BitVec.ofNat 3 e.fmask ≠ 0#3) := by
  have flags : BitVec.ofNat 3 (swFlags lo) = BitVec.ofNat 3 (lo / 2 ^ 56) :=
    BitVec.eq_of_toNat_eq (Nat.mod_mod _ _)
  unfold condeSkips
  rw [flags]
  rcases (by omega : e.cond = 0 ∨ e.cond = 1 ∨ e.cond = 2) with c | c | c <;> simp [c]

/-! ### CHAIN_STOP (R303) -/

theorem chainStop_stops {s : State} {cmd : Nat} (chain : (s.cmd cmd).skipper = false) (asked : (s.cmd cmd).stage = .stopping) :
    exec (.chainStop cmd) s = .next (s.modCmd cmd (fun c => { c with stage := .stopped })) :=
  congrArg _ (if_pos (by rw [asked, chain]; rfl))

theorem chainStop_goes_on {s : State} {cmd : Nat} (unasked : (s.cmd cmd).stage ≠ .stopping) : exec (.chainStop cmd) s = .next s :=
  congrArg _ (if_neg (by simp [unasked]))

/-! ### The obligation -/

/-- Settles O51: each entry by what its reading leaves, the mark of a chain whose entry came late, and its own effect; then what an entry
passed and a fault write in the head. -/
theorem chainEntries : Obligations.ChainEntries := by
  refine ⟨?_, fun cmd s a => nextEntry_effect s cmd a, ?_, fun cmd s chain => ⟨chainStop_stops chain, chainStop_goes_on⟩⟩
  · intro cmd s b c t ch e past late m fault runs chain closed entry
    have due : EntryReached s cmd b := ⟨runs, chain, closed, entry⟩
    have marked : m = s.markWild cmd := (markWild_eq s cmd).symm
    clear_value m
    subst marked
    refine ⟨fun i word bad => ?_, fun k i other word => ?_, fun ok =>
      ⟨fun i word => ⟨fun own sync => ?_, fun code sync => ?_⟩,
        fun kind => ⟨fun key => swadde_counts due ok kind, fun code => swadde_faults due ok kind⟩,
        fun kind => ⟨loope_bad_body due ok kind, fun body => ?_⟩,
        fun kind => ⟨fun code => conde_faults due ok kind, fun key named => ?_⟩,
        next_starts_run due ok, stop_ends due ok⟩⟩
    · obtain ⟨f, reaches⟩ := chainWord_reaches word
      rw [reaches, reach_malformed due rfl bad]
    · obtain ⟨f, reaches⟩ := chainWord_reaches word
      rw [reaches, reach_other_kind due other.symm]
    · rw [openWord_begins due ok word, openEntry_begins entry sync]
    · rw [openWord_begins due ok word, openEntry_faults sync]
    · rw [loope_runs due ok kind body]
      refine ⟨fun fresh zero => ?_, fun fresh nonzero => ?_, fun again last => ?_, fun again more => ?_⟩
      · exact congrArg _ ((if_neg fresh).trans (if_pos zero))
      · exact congrArg _ ((if_neg fresh).trans (if_neg nonzero))
      · exact congrArg _ ((if_pos again).trans (if_pos last))
      · exact congrArg _ ((if_pos again).trans (if_neg (Nat.not_le.mpr more)))
    · rw [conde_tests due ok kind named]
      intro lo gap reached flags skips
      have test : condeSkips e lo = true ↔ skips :=
        (condeSkips_iff (conde_cond ok kind) lo).trans (by rw [genReached_iff]; exact Iff.rfl)
      refine ⟨fun stays => ?_, fun skip outside => ?_, fun skip leaves => ?_⟩
      · exact congrArg _ (if_neg (mt test.mp stays))
      · exact congrArg _ ((if_pos (test.mpr skip)).trans (congrArg (State.nextEntry · cmd _) (if_neg outside)))
      · exact congrArg _ ((if_pos (test.mpr skip)).trans (congrArg (State.nextEntry · cmd _) (if_pos leaves)))
  · intro cmd code s c key flag
    exact ⟨s.faultNoted cmd code, faultNoted_writes s cmd code, faultNoted_stored s cmd code, chainFault_without_sync s cmd code⟩

end Sys2Proof.Machine
end

section
namespace Sys2Proof.Machine

open Sys2Proof Sys2Proof.Safety

/-- A row of a bank of which nothing has been written is the default. -/
theorem rowGet_nil {α : Type} (d : α) (i : Nat) : rowGet d [] i = d := rowGet_beyond d [] i (Nat.zero_le i)

/-- Settles O6: every bank of the reset state is empty, so each of its rows is the default, which is not live; and with an empty agenda
the phase off leaves the boot core's step. -/
theorem resetState : Obligations.ResetState := by
  have team (u : Nat) : State.reset.team u = {} := rowGet_nil _ u
  have grid (g : Nat) : State.reset.grid g = {} := rowGet_nil _ g
  have part (p : Nat) : State.reset.part p = {} := rowGet_nil _ p
  have window (w : Nat) : State.reset.window w = {} := rowGet_nil _ w
  refine ⟨reset_keeps, rfl, fun u => ?_, fun g => ?_, fun p => ?_, fun w => ?_, rfl, rfl, rfl, rfl, fun _ => rfl, rfl⟩
  · rw [team]
  · rw [grid]
  · rw [part]
  · rw [window]

end Sys2Proof.Machine
end

section
namespace Sys2Proof.Machine

open Sys2Proof Sys2Proof.Safety

/-! ### A version takes its place in its cell (R315, R316, R322) -/

/-- The slots once a version stands among them in the order of stamps and the oldest has left. -/
def placed (vs : List Version) (v : Version) : List Version :=
  (vs.take (vs.filter (fun w => w.tick ≤ v.tick)).length ++ v :: vs.drop (vs.filter (fun w => w.tick ≤ v.tick)).length).drop 1

theorem length_placed (vs : List Version) (v : Version) : (placed vs v).length = vs.length := by
  simp only [placed, List.length_drop, List.length_append, List.length_take, List.length_cons]
  omega

theorem placed_fits {vs : List Version} {v : Version} (old : ∀ w ∈ vs, w.fits) (new : v.fits) : ∀ w ∈ placed vs v, w.fits := by
  intro w stands
  rcases List.mem_append.mp (List.mem_of_mem_drop stands) with before | after
  · exact old w (List.mem_of_mem_take before)
  · rcases List.mem_cons.mp after with rfl | later
    · exact new
    · exact old w (List.mem_of_mem_drop later)

section
variable {s : State} {cell val stamp : Nat} {owner : HomeRef}

/-- The stamp of the oldest slot. -/
def State.oldestTick (s : State) (cell : Nat) : Nat := memNat s.hbm (cell + 8) 8 % 2 ^ 62

theorem headD_slots_tick (s : State) (cell : Nat) (d : Version) : ((s.slots cell).headD d).tick = s.oldestTick cell := by
  rw [slots_versionsFrom]
  rfl

/-- The version of a store that arrives in time, or late. -/
def State.arriving (s : State) (val stamp : Nat) : Version :=
  { val := val, pending := !decide (stamp + s.tb.lambda < s.tb.te), suspect := decide (stamp + s.tb.lambda < s.tb.te), tick := stamp }

theorem insertVersion_discards (old : stamp < s.oldestTick cell) :
    s.insertVersion cell val stamp owner = ({ s with discards := s.discards + 1 }, .discarded) := by
  rw [State.insertVersion]
  dsimp only
  rw [headD_slots_tick, if_pos old]

theorem insertVersion_places (young : s.oldestTick cell ≤ stamp) : ∃ ps, s.insertVersion cell val stamp owner =
    ({ s.setSlots cell (placed (s.slots cell) (s.arriving val stamp)) with pendings := ps },
      if stamp + s.tb.lambda < s.tb.te then .late else .inserted) := by
  rw [State.insertVersion]
  dsimp only
  rw [headD_slots_tick, if_neg (Nat.not_lt.mpr young)]
  exact ⟨_, rfl⟩

/-- Whatever the verdict, only the cell, its owners and the count of discards change. -/
theorem insertVersion_rest : (s.insertVersion cell val stamp owner).1 =
    { s with hbm := (s.insertVersion cell val stamp owner).1.hbm, bad := (s.insertVersion cell val stamp owner).1.bad,
             pendings := (s.insertVersion cell val stamp owner).1.pendings, discards := (s.insertVersion cell val stamp owner).1.discards } := by
  by_cases old : stamp < s.oldestTick cell
  · rw [insertVersion_discards old]
  · obtain ⟨ps, places⟩ := insertVersion_places (val := val) (owner := owner) (Nat.not_lt.mp old)
    rw [places]
    generalize placed (s.slots cell) (s.arriving val stamp) = vs
    rfl

theorem op_insertVersion (i : Nat) : (s.insertVersion cell val stamp owner).1.op i = s.op i := by
  have ops : (s.insertVersion cell val stamp owner).1.ops = s.ops := by rw [insertVersion_rest]
  exact congrArg (rowGet noOp · i) ops

theorem window_insertVersion (w : Nat) : (s.insertVersion cell val stamp owner).1.window w = s.window w := by
  have windows : (s.insertVersion cell val stamp owner).1.windows = s.windows := by rw [insertVersion_rest]
  exact congrArg (rowGet ({} : Window) · w) windows

/-- A version in its place: what changes, and how the slots read back. -/
theorem insertVersion_effect (young : s.oldestTick cell ≤ stamp) :
    let z := s.insertVersion cell val stamp owner
    (stamp + s.tb.lambda < s.tb.te → z.2 = .late) ∧ (¬ stamp + s.tb.lambda < s.tb.te → z.2 = .inserted) ∧
    z.1 = { s with hbm := z.1.hbm, bad := z.1.bad, pendings := z.1.pendings } ∧
    (∀ a, a < cell ∨ cell + 64 ≤ a → memGet z.1.hbm a = memGet s.hbm a) ∧
    (Memory.wf s.hbm = true → val < 2 ^ 64 → stamp < 2 ^ 62 → z.1.slots cell = placed (s.slots cell) (s.arriving val stamp)) := by
  obtain ⟨ps, places⟩ := insertVersion_places (val := val) (owner := owner) young
  have four : (placed (s.slots cell) (s.arriving val stamp)).length = 4 := length_placed _ _
  have fit (small : val < 2 ^ 64) (tick : stamp < 2 ^ 62) : ∀ v ∈ placed (s.slots cell) (s.arriving val stamp), v.fits :=
    placed_fits (slots_fit s cell) ⟨small, tick⟩
  rw [places]
  generalize placed (s.slots cell) (s.arriving val stamp) = vs at four fit ⊢
  exact ⟨fun late => if_pos late, fun early => if_neg early, rfl, fun a outside => memGet_setSlots_other four outside,
    fun wf small tick => slots_setSlots wf four (fit small tick)⟩

end

/-! ### A stamped store of this module (R316, R318, R322) -/

section
variable {s : State} {i l : Nat}

theorem ownStore_waits (h : s.atHome i l = false ∨ (s.op i).kind ≠ .stmp ∨ s.stampTurn i l = false) :
    exec (.stampedStoreArrival (.own i l)) s = .next s := by
  rw [exec_stampedStoreArrival, execStampedStoreArrival]
  dsimp only
  rw [if_pos]
  rcases h with away | other | later
  · rw [away]; rfl
  · simp [other]
  · rw [later, Bool.not_false, Bool.or_true]

/-- The lane of a stamped store is at its home, and it is its turn. -/
structure StoreArrives (s : State) (i l : Nat) : Prop where
  sent : s.atHome i l = true
  stamped : (s.op i).kind = .stmp
  turn : s.stampTurn i l = true

theorem StoreArrives.goes (h : StoreArrives s i l) :
    ¬ (!s.atHome i l || decide ((s.op i).kind ≠ .stmp) || !s.stampTurn i l) = true := by
  simp [h.sent, h.stamped, h.turn]

theorem ownStore_failed (h : StoreArrives s i l) (failed : s.tb.tstate = 3#2) :
    exec (.stampedStoreArrival (.own i l)) s = .next (s.setStage i l (.reply (.fault 7#8))) := by
  rw [exec_stampedStoreArrival, execStampedStoreArrival]
  dsimp only
  rw [if_neg h.goes, if_pos failed]

section
variable (h : StoreArrives s i l) (running : s.tb.tstate ≠ 3#2)
include h running

theorem ownStore_held (place : s.ownPlace (s.op i).part ((s.op i).lane l) .stmp = .held) :
    exec (.stampedStoreArrival (.own i l)) s = .next s := by
  rw [exec_stampedStoreArrival, execStampedStoreArrival]
  dsimp only
  rw [if_neg h.goes, if_neg running, place]

theorem ownStore_refused {c : Nat} (place : s.ownPlace (s.op i).part ((s.op i).lane l) .stmp = .fault c) :
    exec (.stampedStoreArrival (.own i l)) s =
      .next ((s.reportLane (s.op i).part ((s.op i).lane l) .stmp).setStage i l (.reply (.fault (BitVec.ofNat 8 c)))) := by
  rw [exec_stampedStoreArrival, execStampedStoreArrival]
  dsimp only
  rw [if_neg h.goes, if_neg running, place]

section
variable {xs : List Span} {win : Option (Nat × Nat)} (place : s.ownPlace (s.op i).part ((s.op i).lane l) .stmp = .mem xs win)
include place

theorem ownStore_badCell (bad : s.physBad false (stampCell xs) 64 = true) :
    exec (.stampedStoreArrival (.own i l)) s = .next (s.setStage i l (.reply (.fault 6#8))) := by
  rw [exec_stampedStoreArrival, execStampedStoreArrival]
  dsimp only
  rw [if_neg h.goes, if_neg running, place]
  exact congrArg _ (if_pos bad)

/-- A request through a window is counted in flight there (R357). -/
def State.windowStart (s : State) (win : Option (Nat × Nat)) : State :=
  match win with
  | some w => s.modWindow w.1 (fun y => { y with inflight := y.inflight + 1 })
  | none => s

/-- A lane whose version has been judged: discarded or late it has its answer, and else its version stands in the cell. -/
def State.judgedLane (z : State) (v : Verdict) (i l : Nat) (o : RemOp) (cell : Nat) (win : Option (Nat × Nat)) : State :=
  match v with
  | .discarded => z.setStage i l (.reply .ack)
  | .late => z.setStage i l (.reply (.rlate o.stamp))
  | .inserted => (z.windowStart win).modLane i l (fun y =>
      { y with stage := o.storedStage, cell := cell, window := win.map (fun w => BitVec.ofNat 7 w.1) })

theorem ownStore_judged (good : s.physBad false (stampCell xs) 64 = false) :
    let z := s.insertVersion (stampCell xs) ((s.op i).lane l).val.toNat (s.op i).stamp.toNat (.own i l)
    exec (.stampedStoreArrival (.own i l)) s = .next (z.1.judgedLane z.2 i l (s.op i) (stampCell xs) win) := by
  rw [exec_stampedStoreArrival, execStampedStoreArrival]
  dsimp only
  rw [if_neg h.goes, if_neg running, place]
  dsimp only
  rw [if_neg (by simp [good])]
  have op : (s.insertVersion (stampCell xs) ((s.op i).lane l).val.toNat (s.op i).stamp.toNat (.own i l)).1.op i = s.op i := op_insertVersion i
  generalize s.insertVersion _ _ _ _ = z at op ⊢
  obtain ⟨y, v⟩ := z
  cases v with
  | discarded => rfl
  | late => rfl
  | inserted =>
    dsimp only at op
    rw [← op]
    cases win <;> rfl

end
end
end

/-! ### A stamped store of another module (R322, R354) -/

section
variable {s : State} {r : ExtReq}

/-- The answer to a request of another module. -/
def State.answers (s : State) (r : ExtReq) (a : RemAns) : State := s.send (.answer r.src r.id a false)

theorem extStore_other (other : r.kind ≠ .stmp) : exec (.stampedStoreArrival (.ext r)) s = .next s := by
  rw [exec_stampedStoreArrival, execStampedStoreArrival]
  exact congrArg _ (if_pos other)

theorem extStore_failed (stamped : r.kind = .stmp) (failed : s.tb.tstate = 3#2) :
    exec (.stampedStoreArrival (.ext r)) s = .next (s.answers r (.fault 7#8)) := by
  rw [exec_stampedStoreArrival, execStampedStoreArrival]
  dsimp only
  rw [if_neg (not_not.mpr stamped), if_pos failed]
  rfl

section
variable (stamped : r.kind = .stmp) (running : s.tb.tstate ≠ 3#2)
include stamped running

theorem extStore_held (judged : (s.judgeWindow r.window r.key .stmp r.off 8).1 = .held) :
    exec (.stampedStoreArrival (.ext r)) s = .next s := by
  rw [exec_stampedStoreArrival, execStampedStoreArrival]
  dsimp only
  rw [if_neg (not_not.mpr stamped), if_neg running]
  generalize s.judgeWindow r.window r.key .stmp r.off 8 = found at judged ⊢
  obtain ⟨j, p⟩ := found
  obtain rfl : j = _ := judged
  rfl

theorem extStore_refused {c : Nat} (judged : (s.judgeWindow r.window r.key .stmp r.off 8).1 = .fault c) :
    exec (.stampedStoreArrival (.ext r)) s =
      .next ((s.reportWindow r.window r.key .stmp r.off 8).answers r (.fault (BitVec.ofNat 8 c))) := by
  rw [exec_stampedStoreArrival, execStampedStoreArrival]
  dsimp only
  rw [if_neg (not_not.mpr stamped), if_neg running]
  generalize s.judgeWindow r.window r.key .stmp r.off 8 = found at judged ⊢
  obtain ⟨j, p⟩ := found
  obtain rfl : j = _ := judged
  rfl

/-- The store of another module whose version stands in its cell, as it waits for its release. -/
def storeOf (s : State) (r : ExtReq) (part cell : Nat) : Inbound :=
  { src := r.src, id := r.id, window := r.window, part := part, cell := cell, va := (s.window r.window.toNat).base + r.off, t := r.cmp, read := false }

/-- A request whose version has been judged: discarded or late it has its answer, and else it waits for its release. -/
def State.judgedRequest (z : State) (v : Verdict) (r : ExtReq) (y : Inbound) : State :=
  match v with
  | .discarded => z.answers r .ack
  | .late => z.answers r (.rlate r.cmp)
  | .inserted => ({ z with inbound := z.inbound ++ [y] } : State).modWindow r.window.toNat (fun w => { w with inflight := w.inflight + 1 })

section
variable {xs : List Span} (judged : (s.judgeWindow r.window r.key .stmp r.off 8).1 = .spans xs)
include judged

theorem extStore_badCell (bad : s.physBad false (stampCell xs) 64 = true) :
    exec (.stampedStoreArrival (.ext r)) s = .next (s.answers r (.fault 6#8)) := by
  rw [exec_stampedStoreArrival, execStampedStoreArrival]
  dsimp only
  rw [if_neg (not_not.mpr stamped), if_neg running]
  generalize s.judgeWindow r.window r.key .stmp r.off 8 = found at judged ⊢
  obtain ⟨j, p⟩ := found
  obtain rfl : j = _ := judged
  exact congrArg _ (if_pos bad)

theorem extStore_judged (good : s.physBad false (stampCell xs) 64 = false) :
    let z := s.insertVersion (stampCell xs) r.val.toNat (r.cmp.toNat % 2 ^ 62) (.ext r.src r.id)
    exec (.stampedStoreArrival (.ext r)) s = .next (z.1.judgedRequest z.2 r
      (storeOf s r (s.judgeWindow r.window r.key .stmp r.off 8).2 (stampCell xs))) := by
  rw [exec_stampedStoreArrival, execStampedStoreArrival]
  dsimp only
  rw [if_neg (not_not.mpr stamped), if_neg running]
  generalize s.judgeWindow r.window r.key .stmp r.off 8 = found at judged ⊢
  obtain ⟨j, p⟩ := found
  obtain rfl : j = _ := judged
  dsimp only
  rw [if_neg (by simp [good])]
  have window : (s.insertVersion (stampCell xs) r.val.toNat (r.cmp.toNat % 2 ^ 62) (.ext r.src r.id)).1.window r.window.toNat =
      s.window r.window.toNat := window_insertVersion _
  generalize s.insertVersion _ _ _ _ = z at window ⊢
  obtain ⟨y, v⟩ := z
  cases v with
  | discarded => rfl
  | late => rfl
  | inserted =>
    dsimp only at window
    rw [storeOf, ← window]
    rfl

end
end
end

end Sys2Proof.Machine
end

section
namespace Sys2Proof.Machine

open Sys2Proof Sys2Proof.Safety

/-! ### The releases of an operation are sent (R317) -/

section
variable {s : State} {i : Nat}

theorem commitWaitEnd_early
    (h : ¬ (i < s.ops.length ∧ (s.op i).kind = .stmp ∧ (s.op i).committed = false ∧ (s.op i).stamp.toNat < s.tb.te)) :
    exec (.commitWaitEnd i) s = .next s := by
  rw [exec_commitWaitEnd, execCommitWaitEnd]
  exact congrArg _ (if_neg (by simpa [and_assoc] using h))

theorem commitWaitEnd_due
    (h : i < s.ops.length ∧ (s.op i).kind = .stmp ∧ (s.op i).committed = false ∧ (s.op i).stamp.toNat < s.tb.te) :
    exec (.commitWaitEnd i) s = .next (s.sendReleases i false) := by
  rw [exec_commitWaitEnd, execCommitWaitEnd]
  exact congrArg _ (if_pos (by simpa [and_assoc] using h))

/-- Nothing is added to what is to come, and of an operation nothing is changed but its lanes. -/
structure LanesOnly (s t : State) (i : Nat) : Prop where
  agenda : t.agenda = s.agenda
  op : t.op i = { s.op i with lanes := (t.op i).lanes }

theorem LanesOnly.trans {a b c : State} (h1 : LanesOnly a b i) (h2 : LanesOnly b c i) : LanesOnly a c i :=
  ⟨h2.agenda.trans h1.agenda, by rw [h2.op, h1.op]⟩

theorem lanesOnly_sameOps {t : State} (agenda : t.agenda = s.agenda) (ops : t.ops = s.ops) : LanesOnly s t i := by
  have op : t.op i = s.op i := congrArg (rowGet noOp · i) ops
  exact ⟨agenda, by rw [op]⟩

theorem lanesOnly_setStage (l : Nat) (x : LaneStage) : LanesOnly s (s.setStage i l x) i :=
  ⟨rfl, by rw [State.setStage, op_modLane_same]⟩

theorem lanesOnly_recordRelease (l : Nat) : LanesOnly s (s.recordRelease i l) i := by
  refine lanesOnly_sameOps ?_ (ops_recordRelease s i l)
  rw [State.recordRelease]
  split <;> rfl

theorem lanesOnly_sendRelease (suspect : Bool) (l : Nat) : LanesOnly s (s.sendRelease i l suspect) i := by
  rw [State.sendRelease]
  dsimp only
  split
  · exact (lanesOnly_setStage l (.releasing suspect)).trans (lanesOnly_recordRelease l)
  · split
    · split
      · exact lanesOnly_recordRelease l
      · exact (lanesOnly_recordRelease l).trans ⟨rfl, rfl⟩
    · exact lanesOnly_recordRelease l
  · exact ⟨rfl, rfl⟩

theorem lanesOnly_foldl_sendRelease (suspect : Bool) : ∀ (ls : List Nat) (s : State),
    LanesOnly s (ls.foldl (fun s l => s.sendRelease i l suspect) s) i
  | [], _ => ⟨rfl, rfl⟩
  | l :: ls, _ => (lanesOnly_sendRelease suspect l).trans (lanesOnly_foldl_sendRelease suspect ls _)

/-- The releases leave the agenda, and the operation is committed as they say. -/
theorem sendReleases_commits (suspect : Bool) : (s.sendReleases i suspect).agenda = s.agenda ∧
    (s.sendReleases i suspect).op i = { s.op i with committed := true, suspect := suspect, lanes := ((s.sendReleases i suspect).op i).lanes } := by
  obtain ⟨agenda, op⟩ := lanesOnly_foldl_sendRelease (i := i) suspect (upTo 32)
    (s.modOp i (fun o => { o with committed := true, suspect := suspect }))
  rw [op_modOp_same] at op
  exact ⟨agenda, op⟩

theorem sendReleases_rest (suspect : Bool) : s.sendReleases i suspect =
    { s with ops := (s.sendReleases i suspect).ops, suspects := (s.sendReleases i suspect).suspects,
             suspectFull := (s.sendReleases i suspect).suspectFull, notices := (s.sendReleases i suspect).notices,
             outbox := (s.sendReleases i suspect).outbox } := by
  obtain ⟨agenda, -⟩ := sendReleases_commits (s := s) (i := i) suspect
  have rest := (sendReleases_effect i suspect s).1.rest
  rw [agenda] at rest
  exact rest

end

/-! ### A release reaches its home (R317, R322, R325) -/

section
variable {s : State} {suspect : Bool}

/-- The end of a request through a window leaves the clock alone. -/
@[simp] theorem tb_windowEnd (w : Option (BitVec 7)) : (s.windowEnd w).tb = s.tb := by cases w <;> rfl

/-- What a release finds at a home whose clock stands: FCODE 6, a late store or an acknowledgement. -/
def State.releaseAnswer (s : State) (owner : HomeRef) (suspect : Bool) (stamp : Word) : RemAns :=
  if s.releaseBad owner = true then .fault 6#8 else if suspect = true then .rlate stamp else .ack

section
variable {i l : Nat}

theorem ownRelease_none (idle : ∀ x, ((s.op i).lane l).stage ≠ .releasing x) :
    exec (.stampedReleaseArrival (.own i l) suspect) s = .next s := by
  rw [exec_stampedReleaseArrival, execStampedReleaseArrival]
  dsimp only
  split
  · rfl
  · split
    · next x releasing => exact absurd releasing (idle x)
    · rfl

variable {x : Bool} (stands : i < s.ops.length) (low : l < 32) (releasing : ((s.op i).lane l).stage = .releasing x)
include stands low releasing

theorem ownRelease_failed (failed : s.tb.tstate = 3#2) : exec (.stampedReleaseArrival (.own i l) suspect) s =
    .next ((s.windowEnd ((s.op i).lane l).window).setStage i l (.reply (.fault 7#8))) := by
  rw [exec_stampedReleaseArrival, execStampedReleaseArrival]
  dsimp only
  rw [if_neg (by simp [stands, low]), releasing]
  dsimp only
  rw [tb_windowEnd, if_pos failed]

theorem ownRelease_running (running : s.tb.tstate ≠ 3#2) : exec (.stampedReleaseArrival (.own i l) suspect) s =
    .next (((s.windowEnd ((s.op i).lane l).window).clearPending (.own i l) x).setStage i l
      (.reply ((s.windowEnd ((s.op i).lane l).window).releaseAnswer (.own i l) x (s.op i).stamp))) := by
  rw [exec_stampedReleaseArrival, execStampedReleaseArrival]
  dsimp only
  rw [if_neg (by simp [stands, low]), releasing]
  dsimp only
  rw [tb_windowEnd, if_neg running]
  rfl

end

section
variable {src : BitVec 21} {id : Nat}

/-- A stored version of another module's request, which waits for its release. -/
def storeFrom (src : BitVec 21) (id : Nat) (x : Inbound) : Bool := x.src = src && x.id = id && !x.read

/-- A request of another module ends: it waits no longer, and its window counts it no longer (R357). -/
def State.inboundEnd (s : State) (which : Inbound → Bool) (window : BitVec 7) : State :=
  ({ s with inbound := s.inbound.filter (fun y => !which y) } : State).windowEnd (some window)

theorem extRelease_none (gone : s.inbound.find? (storeFrom src id) = none) :
    exec (.stampedReleaseArrival (.ext src id) suspect) s = .next s := by
  rw [exec_stampedReleaseArrival, execStampedReleaseArrival]
  unfold storeFrom at gone
  dsimp only
  rw [gone]

variable {x : Inbound} (found : s.inbound.find? (storeFrom src id) = some x)
include found

theorem extRelease_failed (failed : s.tb.tstate = 3#2) : exec (.stampedReleaseArrival (.ext src id) suspect) s =
    .next ((s.inboundEnd (storeFrom src id) x.window).send (.answer src id (.fault 7#8) false)) := by
  rw [exec_stampedReleaseArrival, execStampedReleaseArrival]
  unfold storeFrom at found
  dsimp only
  rw [found]
  dsimp only
  rw [tb_windowEnd, if_pos failed]
  rfl

theorem extRelease_running (running : s.tb.tstate ≠ 3#2) : exec (.stampedReleaseArrival (.ext src id) suspect) s =
    .next (((s.inboundEnd (storeFrom src id) x.window).clearPending (.ext src id) suspect).send
      (.answer src id ((s.inboundEnd (storeFrom src id) x.window).releaseAnswer (.ext src id) suspect x.t) false)) := by
  rw [exec_stampedReleaseArrival, execStampedReleaseArrival]
  unfold storeFrom at found
  dsimp only
  rw [found]
  dsimp only
  rw [tb_windowEnd, if_neg running]
  rfl

end
end

/-! ### Reads of a time (R320) -/

section
variable {s : State} {cell t : Nat}

theorem settled_iff : s.settled cell t = true ↔
    t + s.tb.lambda < s.tb.te ∧ (s.physBad false cell 64 = true ∨ ∀ v ∈ s.slots cell, v.pending = true → t < v.tick) := by
  simp only [State.settled, Bool.and_eq_true, decide_eq_true_eq, Bool.or_eq_true, List.all_eq_true, Bool.not_eq_true',
    Bool.and_eq_false_imp, decide_eq_false_iff_not, Nat.not_le]

theorem readAt_bad (bad : s.physBad false cell 64 = true) : s.readAt cell t = .fault 6#8 := if_pos bad

section
variable (good : s.physBad false cell 64 = false)
include good

theorem readAt_horizon (none_before : (s.slots cell).filter (fun v => v.tick ≤ t) = []) : s.readAt cell t = .pair 0#64 1#64 := by
  rw [State.readAt, if_neg (by simp [good]), none_before]
  rfl

theorem readAt_newest {us : List Version} {v : Version} (before : (s.slots cell).filter (fun v => v.tick ≤ t) = us ++ [v]) :
    s.readAt cell t = .pair (BitVec.ofNat 64 v.val) (if v.suspect = true then 2#64 else 0#64) := by
  rw [State.readAt, if_neg (by simp [good]), before, List.getLast?_concat]

end
end

section
variable {s : State} {i l : Nat}

theorem readerWait_stays
    (h : ¬ (i < s.ops.length ∧ l < 32 ∧ ((s.op i).lane l).stage = .port ∧ ((s.op i).lane l).val.toNat < s.tb.te)) :
    exec (.ldatReaderWaitEnd i l) s = .next s := by
  rw [exec_ldatReaderWaitEnd, execLdatReaderWaitEnd]
  exact congrArg _ (if_neg (by simpa [and_assoc] using h))

theorem readerWait_ends
    (h : i < s.ops.length ∧ l < 32 ∧ ((s.op i).lane l).stage = .port ∧ ((s.op i).lane l).val.toNat < s.tb.te) :
    exec (.ldatReaderWaitEnd i l) s = .next (s.sendLane i l true) := by
  rw [exec_ldatReaderWaitEnd, execLdatReaderWaitEnd]
  exact congrArg _ (if_pos (by simpa [and_assoc] using h))

theorem ownRead_waits (h : ¬ (i < s.ops.length ∧ l < 32 ∧ ((s.op i).lane l).stage = .settling ∧
      s.settled ((s.op i).lane l).cell ((s.op i).lane l).val.toNat = true)) : exec (.ldatServe (.own i l)) s = .next s := by
  rw [exec_ldatServe, execLdatServe]
  exact congrArg _ (if_neg (by simpa [and_assoc] using h))

theorem ownRead_served (h : i < s.ops.length ∧ l < 32 ∧ ((s.op i).lane l).stage = .settling ∧
      s.settled ((s.op i).lane l).cell ((s.op i).lane l).val.toNat = true) : exec (.ldatServe (.own i l)) s =
    .next ((s.windowEnd ((s.op i).lane l).window).setStage i l (.reply (s.readAt ((s.op i).lane l).cell ((s.op i).lane l).val.toNat))) := by
  rw [exec_ldatServe, execLdatServe]
  exact congrArg _ (if_pos (by simpa [and_assoc] using h))

end

section
variable {s : State} {src : BitVec 21} {id : Nat}

/-- A read of another module's request, which waits for its time. -/
def readFrom (src : BitVec 21) (id : Nat) (x : Inbound) : Bool := x.src = src && x.id = id && x.read

theorem extRead_none (gone : s.inbound.find? (readFrom src id) = none) : exec (.ldatServe (.ext src id)) s = .next s := by
  rw [exec_ldatServe, execLdatServe]
  unfold readFrom at gone
  rw [gone]

variable {x : Inbound} (found : s.inbound.find? (readFrom src id) = some x)
include found

theorem extRead_waits (early : s.settled x.cell x.t.toNat = false) : exec (.ldatServe (.ext src id)) s = .next s := by
  rw [exec_ldatServe, execLdatServe]
  unfold readFrom at found
  rw [found]
  exact congrArg _ (if_neg (by simp [early]))

theorem extRead_served (settled : s.settled x.cell x.t.toNat = true) : exec (.ldatServe (.ext src id)) s =
    .next ((s.inboundEnd (readFrom src id) x.window).send (.answer src id (s.readAt x.cell x.t.toNat) false)) := by
  rw [exec_ldatServe, execLdatServe]
  unfold readFrom at found
  rw [found]
  exact congrArg _ (if_pos settled)

end

/-! ### A suspect mark reaches its home (R325) -/

section
variable {s : State} {va : Word} {part : Nat} {window : Option (BitVec 7)} {stamp : Word} {p a : Nat}

/-- The partition and the address that a mark names, by itself or through a window. -/
def State.markPlace (s : State) (va : Word) (part : Nat) : Option (BitVec 7) → Nat × Nat
  | none => (part, va.toNat)
  | some w => ((s.window w.toNat).part, (s.window w.toNat).base + va.toNat)

/-- The judgement decides whether a mark reaches a cell; the reports of malformed entries go with one that reaches none (R346). -/
theorem suspectMark_judged (place : s.markPlace va part window = (p, a)) :
    ((∀ xs, s.judge p a 8 false true true ≠ .spans xs) → exec (.suspectMark va part window stamp) s = .next (s.reportMalformed p a 8)) ∧
    ∀ xs, s.judge p a 8 false true true = .spans xs →
      exec (.suspectMark va part window stamp) s = .next (s.markCell (stampCell xs) stamp.toNat) := by
  rw [exec_suspectMark]
  unfold execSuspectMark
  cases window <;>
  · obtain ⟨rfl, rfl⟩ := Prod.mk.inj place
    dsimp only
    constructor
    · intro missed
      split
      · next xs spans => exact absurd spans (missed xs)
      · rfl
    · intro xs spans
      rw [spans]

end

end Sys2Proof.Machine
end

section
namespace Sys2Proof.Machine

open Sys2Proof Sys2Proof.Safety

/-- Settles O55: a store by its place and then by its verdict, the same for this module's lanes and for another module's requests; a
version by its place among the slots; a release by the lane or the request that waits for it; a read by what its cell has settled;
a mark by what the judgement of its place finds. -/
theorem stampedArrivals : Obligations.StampedArrivals := by
  unfold Obligations.StampedArrivals
  refine ⟨fun i l s => ⟨ownStore_waits, fun sent stamped turn => ?_⟩,
    fun r s => ⟨extStore_other, extStore_failed, fun stamped running => ?_⟩,
    fun s cell val stamp owner => ⟨insertVersion_discards, insertVersion_effect⟩,
    fun i s => ⟨commitWaitEnd_early, commitWaitEnd_due⟩,
    fun i s suspect => ?_,
    fun i l s suspect => ⟨ownRelease_none, fun x stands low releasing =>
      ⟨ownRelease_failed stands low releasing, ownRelease_running stands low releasing⟩⟩,
    fun src id s suspect => ⟨extRelease_none, fun x found => ⟨extRelease_failed found, extRelease_running found⟩⟩,
    fun i l s => ⟨readerWait_stays, readerWait_ends⟩,
    fun s cell t => ⟨settled_iff, readAt_bad, fun good => ⟨readAt_horizon good, fun us v => readAt_newest good⟩⟩,
    fun i l s => ⟨ownRead_waits, ownRead_served⟩,
    fun src id s => ⟨extRead_none, fun x found => ⟨extRead_waits found, extRead_served found⟩⟩,
    fun va part window stamp s => ?_⟩
  · have arrives : StoreArrives s i l := ⟨sent, stamped, turn⟩
    refine ⟨ownStore_failed arrives, fun running => ⟨ownStore_held arrives running, fun c => ownStore_refused arrives running,
      fun xs win place => ⟨ownStore_badCell arrives running place, fun good => ?_⟩⟩⟩
    have judged := ownStore_judged arrives running place good
    refine ⟨fun verdict => ?_, fun verdict => ?_, fun verdict => ?_⟩ <;> rw [judged, verdict]
    · rfl
    · rfl
    · cases win <;> rfl
  · refine ⟨extStore_held stamped running, fun c => extStore_refused stamped running,
      fun xs spans => ⟨extStore_badCell stamped running spans, fun good => ?_⟩⟩
    have judged := extStore_judged stamped running spans good
    refine ⟨fun verdict => ?_, fun verdict => ?_, fun verdict => ?_⟩ <;> rw [judged, verdict] <;> rfl
  · obtain ⟨-, released⟩ := sendReleases_effect i suspect s
    refine ⟨sendReleases_rest suspect, released.others, (sendReleases_commits suspect).2, fun l low => ?_⟩
    rw [released.lanes, if_pos (mem_upTo.mpr low)]
    rfl
  · cases window with
    | none => exact suspectMark_judged rfl
    | some w => exact suspectMark_judged rfl

end Sys2Proof.Machine
end

section
namespace Sys2Proof.Machine

open Sys2Proof Sys2Proof.Safety

/-! ### Rings in kernel memory (R355) -/

section
variable {m : List Host.Cell} {r : Ring} {e : List Byte}

/-- The place of the next entry of a ring, for entries of a size. -/
def ringPlace (m : List Host.Cell) (r : Ring) (size : Nat) : Nat := r.base + 64 + (ringProducer m r % r.n) * size

theorem ringPush_eq (m : List Host.Cell) (r : Ring) (e : List Byte) : ringPush m r e =
    memSet (memWrite m (ringPlace m r e.length) e) r.base 8 (ringProducer m r + 1) := rfl

/-- The entries of a ring lie above its header. -/
theorem ringPlace_above (m : List Host.Cell) (r : Ring) (size : Nat) : r.base + 64 ≤ ringPlace m r size := Nat.le_add_right _ _

theorem memRead_ringPush (wf : Memory.wf m = true) : memRead (ringPush m r e) (ringPlace m r e.length) e.length = e := by
  have above := ringPlace_above m r e.length
  rw [ringPush_eq, memSet, memRead_memWrite_other _ _ _ _ _ (.inr (by rw [leBytes_length]; omega)), memRead_memWrite_same e _ wf]

theorem ringProducer_ringPush (wf : Memory.wf m = true) : ringProducer (ringPush m r e) r = (ringProducer m r + 1) % 2 ^ 64 :=
  memNat_memSet r.base 8 _ (memWrite_wf e _ wf)

theorem memGet_ringPush_other {a : Nat} (entry : a < ringPlace m r e.length ∨ ringPlace m r e.length + e.length ≤ a)
    (producer : a < r.base ∨ r.base + 8 ≤ a) : memGet (ringPush m r e) a = memGet m a := by
  rw [ringPush_eq, memSet, memGet_memWrite_other _ _ _ _ (by rwa [leBytes_length]), memGet_memWrite_other _ _ _ _ entry]

theorem ringLog_unset (unset : r.set = false) : ringLog m r e = m := by
  simp [ringLog, unset]

theorem ringLog_full (set : r.set = true) (full : ringFull m r = true) : ringLog m r e = ringDrop m r := by
  simp [ringLog, set, full]

theorem ringLog_space (set : r.set = true) (space : ringFull m r = false) : ringLog m r e = ringPush m r e := by
  simp [ringLog, set, space]

theorem dropped_ringDrop (wf : Memory.wf m = true) :
    memNat (ringDrop m r) (r.base + 16) 8 = (memNat m (r.base + 16) 8 + 1) % 2 ^ 64 :=
  memNat_memSet (r.base + 16) 8 _ wf

theorem memGet_ringDrop_other {a : Nat} (h : a < r.base + 16 ∨ r.base + 24 ≤ a) : memGet (ringDrop m r) a = memGet m a :=
  memGet_memWrite_other _ _ _ _ (by rwa [leBytes_length])

end

/-- Settles O34: an entry is written above the ring's header and PRODUCER after it; a full ring that logs writes DROPPED alone. -/
theorem ringEntry : Obligations.RingEntry := by
  unfold Obligations.RingEntry
  refine fun m r e wf => ⟨memRead_ringPush wf, ringProducer_ringPush wf, fun a => memGet_ringPush_other, fun set full => ?_,
    ringLog_space, ringLog_unset⟩
  rw [ringLog_full set full]
  exact ⟨dropped_ringDrop wf, fun a => memGet_ringDrop_other⟩

end Sys2Proof.Machine
end

section
namespace Sys2Proof.Machine

open Sys2Proof Sys2Proof.Safety

/-! ### Ranges of a memory cleared and copied -/

/-- A memory some of whose places are dropped reads as the default there, and as before elsewhere. -/
theorem memGet_filter_places (keep : Nat → Bool) (x : Nat) : ∀ m : List Host.Cell,
    memGet (m.filter (fun c => keep c.1)) x = if keep x = true then memGet m x else memDefault
  | [] => (ite_self _).symm
  | (a, b) :: t => by
    have tail := memGet_filter_places keep x t
    by_cases here : a = x
    · subst here
      cases kept : keep a with
      | true => simp [kept, memGet]
      | false => simpa [kept] using tail
    · have skip (l : List Host.Cell) : memGet ((a, b) :: l) x = memGet l x := if_neg here
      rw [List.filter_cons, skip]
      cases keep a with
      | true => exact (skip _).trans tail
      | false => exact tail

theorem memGet_memClear (m : List Host.Cell) (a n x : Nat) :
    memGet (memClear m a n) x = if a ≤ x ∧ x < a + n then 0#8 else memGet m x := by
  rw [memClear, memGet_filter_places (fun k => !(decide (a ≤ k) && decide (k < a + n)))]
  by_cases inside : a ≤ x ∧ x < a + n
  · rw [if_pos inside, if_neg (by simp [inside])]
    rfl
  · rw [if_neg inside, if_pos (by simp; omega)]

/-- Cells moved from one place to another, one after the other, each into a memory. -/
def moveCells (src dst : Nat) (l z : List Host.Cell) : List Host.Cell := l.foldl (fun z c => memPut z (dst + (c.1 - src)) c.2) z

/-- Each cell moved stands at its new place; what the cells do not list stands as it was. -/
theorem memGet_moveCells (src dst a : Nat) : ∀ {l z : List Host.Cell} {lo : Nat}, src ≤ lo → memWfFrom lo l = true → Memory.wf z = true →
    memGet (moveCells src dst l z) a =
      if dst ≤ a ∧ memGet l (src + (a - dst)) ≠ memDefault then memGet l (src + (a - dst)) else memGet z a
  | [], z, _, _, _, _ => (if_neg fun h => h.2 rfl).symm
  | (b, v) :: t, z, lo, low, wfl, wfz => by
    simp only [memWfFrom, Bool.and_eq_true, decide_eq_true_eq, Bool.not_eq_true', decide_eq_false_iff_not] at wfl
    obtain ⟨above, listed, wft⟩ := wfl
    have rest := memGet_moveCells src dst a (l := t) (by omega) wft (memPut_wf (dst + (b - src)) v wfz)
    refine rest.trans ?_
    by_cases here : dst ≤ a ∧ b = src + (a - dst)
    · obtain ⟨from_, rfl⟩ := here
      have place : dst + (src + (a - dst) - src) = a := by omega
      have once : memGet t (src + (a - dst)) = memDefault := memGet_below wft (Nat.lt_succ_self _)
      rw [if_neg fun h => h.2 once, place, memGet_memPut_same wfz, memGet, if_pos rfl, if_pos ⟨from_, listed⟩]
    · rw [memGet_memPut_other (by omega)]
      by_cases from_ : dst ≤ a
      · rw [memGet, if_neg fun e => here ⟨from_, e⟩]
      · rw [if_neg fun h => from_ h.1, if_neg fun h => from_ h.1]

/-- A range of one memory written over a range of another. -/
def copyInto (m z : List Host.Cell) (src dst n : Nat) : List Host.Cell :=
  moveCells src dst (m.filter (fun c => decide (src ≤ c.1) && decide (c.1 < src + n))) (memClear z dst n)

theorem memCopy_eq (m : List Host.Cell) (src dst n : Nat) : memCopy m src dst n = copyInto m m src dst n := rfl

/-- Cells at or above a bound, in canonical form above it. -/
theorem memWfFrom_filter_above (lo : Nat) (keep : Host.Cell → Bool) (above : ∀ c, keep c = true → lo ≤ c.1) :
    ∀ {m : List Host.Cell} {k : Nat}, memWfFrom k m = true → memWfFrom lo (m.filter keep) = true
  | [], _, _ => rfl
  | (a, b) :: t, k, wf => by
    simp only [memWfFrom, Bool.and_eq_true, decide_eq_true_eq] at wf
    obtain ⟨-, listed, wft⟩ := wf
    cases kept : keep (a, b) with
    | true =>
      rw [List.filter_cons_of_pos kept]
      simp only [memWfFrom, Bool.and_eq_true, decide_eq_true_eq]
      exact ⟨above (a, b) kept, listed, memWfFrom_filter _ wft⟩
    | false =>
      rw [List.filter_cons_of_neg (ne_true_of_eq_false kept)]
      exact memWfFrom_filter_above lo keep above wft

/-- The range written holds what the range copied holds; every other byte stands as it was. -/
theorem memGet_copyInto {m z : List Host.Cell} (src dst n a : Nat) (wfm : Memory.wf m = true) (wfz : Memory.wf z = true) :
    memGet (copyInto m z src dst n) a = if dst ≤ a ∧ a < dst + n then memGet m (src + (a - dst)) else memGet z a := by
  have wfl := memWfFrom_filter_above src (fun c => decide (src ≤ c.1) && decide (c.1 < src + n)) (fun c h => by simp_all) wfm
  rw [copyInto, memGet_moveCells src dst a (le_refl src) wfl (memClear_wf dst n wfz), memGet_memClear,
    memGet_filter_places (fun x => decide (src ≤ x) && decide (x < src + n))]
  by_cases inside : dst ≤ a ∧ a < dst + n
  · have there : (decide (src ≤ src + (a - dst)) && decide (src + (a - dst) < src + n)) = true := by simp; omega
    rw [if_pos there, if_pos inside, if_pos inside]
    by_cases zero : memGet m (src + (a - dst)) = memDefault
    · rw [if_neg fun h => h.2 zero, zero]
      rfl
    · rw [if_pos ⟨inside.1, zero⟩]
  · rw [if_neg inside, if_neg inside, if_neg]
    rintro ⟨from_, there⟩
    refine there (if_neg ?_)
    simp; omega

end Sys2Proof.Machine
end

section
namespace Sys2Proof.Machine

open Sys2Proof Sys2Proof.Safety

/-! ### Notices, one after the other -/

theorem foldl_notify {α : Type} (f : α → Notice) : ∀ (l : List α) (s : State),
    l.foldl (fun s x => s.notify (f x)) s = { s with notices := s.notices ++ l.map f }
  | [], s => by rw [List.map_nil, List.append_nil, List.foldl_nil]
  | a :: l, s => by
    rw [List.foldl_cons, foldl_notify f l, State.notify, List.map_cons, List.append_assoc]
    rfl

/-! ### Windows (R353, R357) -/

section
variable {s : State} {w part base limit : Nat} {key : Word} {r wr : Bool}

/-- WOPEN names a FREE window and a live partition that is not closing, and its fields are legal (R353). -/
def WopenLegal (s : State) (w part base limit : Nat) (r wr : Bool) : Prop :=
  w < 128 ∧ (s.window w).state = .free ∧ part < 16 ∧ (s.part part).live = true ∧ (s.part part).closing = false ∧ base % 65536 = 0 ∧
    limit % 65536 = 0 ∧ 65536 ≤ limit ∧ limit ≤ 2 ^ 34 ∧ (r = true ∨ wr = true)

theorem wopen_running (running : s.phase = .running) : exec (.wopen w part base limit key r wr) s = .next (if w < 128 &&
    (s.window w).state = .free && part < 16 && (s.part part).live && !(s.part part).closing && base % 65536 = 0 && limit % 65536 = 0 &&
    65536 ≤ limit && limit ≤ 2 ^ 34 && (r || wr) then
      (s.modWindow w (fun _ => { state := .open_, part := part, base := base, limit := limit, key := key, r := r, w := wr })).notify (.status 0)
    else s.notify (.status 1)) := congrArg _ (if_neg (not_not.mpr running))

theorem wopen_refused (running : s.phase = .running) (bad : ¬ WopenLegal s w part base limit r wr) :
    exec (.wopen w part base limit key r wr) s = .next (s.notify (.status 1)) := by
  rw [wopen_running running, if_neg (by simpa [WopenLegal, and_assoc] using bad)]

theorem wopen_opens (running : s.phase = .running) (legal : WopenLegal s w part base limit r wr) :
    exec (.wopen w part base limit key r wr) s = .next ((s.modWindow w (fun _ =>
      { state := .open_, part := part, base := base, limit := limit, key := key, r := r, w := wr })).notify (.status 0)) := by
  rw [wopen_running running, if_pos (by simpa [WopenLegal, and_assoc] using legal)]

theorem wrevoke_free (running : s.phase = .running) (free : (s.window w).state = .free) :
    exec (.wrevoke w) s = .next (s.notify (.status 0)) := by
  rw [exec_wrevoke, execWrevoke, if_neg (not_not.mpr running), free]
  rfl

theorem wrevoke_starts (running : s.phase = .running) (used : (s.window w).state ≠ .free) :
    exec (.wrevoke w) s = .next (s.modWindow w (fun x => { x with state := .revoking, revokers := x.revokers + 1 })) := by
  rw [exec_wrevoke, execWrevoke, if_neg (not_not.mpr running)]
  cases state : (s.window w).state with
  | free => exact absurd state used
  | open_ => rfl
  | revoking => rfl

theorem wrevokeDrainEnd_early (early : ¬ (w < 128 ∧ (s.window w).state = .revoking ∧ (s.window w).inflight = 0)) :
    exec (.wrevokeDrainEnd w) s = .next s := congrArg _ (if_neg (by simpa [and_assoc] using early))

/-- A window whose revocation has ended. -/
def Window.freed (x : Window) : Window := { x with state := .free, revokers := 0 }

/-- A window that has drained is FREE, and each WREVOKE that waits for it is answered. -/
theorem wrevokeDrainEnd_frees (drained : w < 128 ∧ (s.window w).state = .revoking ∧ (s.window w).inflight = 0) :
    exec (.wrevokeDrainEnd w) s = .next { s.modWindow w Window.freed with
      notices := s.notices ++ List.replicate (s.window w).revokers (.status 0) } := by
  rw [exec_wrevokeDrainEnd, execWrevokeDrainEnd, if_pos (by simpa [and_assoc] using drained)]
  unfold State.done
  rw [foldl_notify (fun _ => .status 0), List.map_const', upTo_length]
  rfl

end

/-! ### Grants (R353) -/

section
variable {s : State} {part : Nat} {device : BitVec 21} {w : BitVec 7} {key : Word}

theorem mem_dropGrant {g : Grant} : g ∈ (s.dropGrant part device w).grants ↔
    g ∈ s.grants ∧ ¬ (g.part = part ∧ g.device = device ∧ g.window = w) := by
  simp [State.dropGrant, or_assoc, imp_iff_not_or]

theorem ungrant_running (running : s.phase = .running) :
    exec (.ungrant part device w) s = .next ((s.dropGrant part device w).notify (.status 0)) := congrArg _ (if_neg (not_not.mpr running))

theorem grant_refused (running : s.phase = .running) (dead : (s.part part).live = false) :
    exec (.grant part device w key) s = .next (s.notify (.status 1)) := by
  rw [exec_grant, execGrant, if_neg (not_not.mpr running), dead]
  rfl

theorem grant_replaces (running : s.phase = .running) (live : (s.part part).live = true) : exec (.grant part device w key) s = .next
    (({ s with grants := (s.dropGrant part device w).grants ++ [⟨part, device, w, key⟩] } : State).notify (.status 0)) := by
  rw [exec_grant, execGrant, if_neg (not_not.mpr running), if_pos live]
  rfl

end

end Sys2Proof.Machine
end

section
namespace Sys2Proof.Machine

open Sys2Proof Sys2Proof.Safety

/-! ### Zeroing (R349) -/

section
variable {s : State} {part va : Nat} {l : Leaf}

/-- The page has a leaf with Z, is not being zeroed, and no judged request uses its frame (R349, R357). -/
def MayZero (s : State) (part va : Nat) (l : Leaf) : Prop :=
  s.walk part va = .leaf l ∧ l.z = true ∧ (∀ x ∈ s.zeroing, ¬ (x.1 = part ∧ x.2.1 = va)) ∧
    ∀ r ∈ s.judgedRefs, ¬ (l.frame ≤ r.2.2.1 ∧ r.2.2.1 < l.frame + l.bytes)

theorem zeroable_iff : s.zeroable part va = some l ↔ MayZero s part va l := by
  unfold State.zeroable MayZero State.frameQuiet
  cases s.walk part va with
  | notValid => simp
  | malformed => simp
  | leaf k =>
    rw [Walk.leaf.injEq, Option.ite_none_right_eq_some, Option.some.injEq, and_comm]
    refine and_congr_right fun same => ?_
    subst same
    simp [and_assoc]

theorem pageZeroing_stays (none_ : ∀ l, ¬ MayZero s part va l) : exec (.pageZeroing part va) s = .next s := by
  have found : s.zeroable part va = none := Option.eq_none_iff_forall_ne_some.mpr fun l h => none_ l (zeroable_iff.mp h)
  rw [exec_pageZeroing, execPageZeroing, found]

theorem pageZeroing_zeroes (may : MayZero s part va l) : exec (.pageZeroing part va) s = .next { s with
    hbm := memClear s.hbm l.frame l.bytes
    bad := { s.bad with hbm := clearMarks s.bad.hbm l.frame l.bytes }
    zeroing := s.zeroing ++ [(part, va, l.raw)]
    zPending := s.zPending.filter (fun x => x ≠ (part, va)) } := by
  rw [exec_pageZeroing, execPageZeroing, zeroable_iff.mpr may]

variable {x : Nat × Nat × Word}

theorem zeroingComplete_none (gone : s.zeroing.find? (fun x => x.1 = part && x.2.1 = va) = none) :
    exec (.zeroingComplete part va) s = .next s := by
  rw [exec_zeroingComplete, execZeroingComplete, gone]

variable (found : s.zeroing.find? (fun x => x.1 = part && x.2.1 = va) = some x)
include found

theorem zeroingComplete_clears (leaf : s.walk part va = .leaf l) (same : l.raw = x.2.2) :
    exec (.zeroingComplete part va) s = .next { s with
      zeroing := s.zeroing.filter (fun y => y ≠ x)
      kmem := memSet s.kmem l.entry 8 (l.raw &&& ~~~ (1#64 <<< 57)).toNat } := by
  rw [exec_zeroingComplete, execZeroingComplete, found]
  dsimp only
  rw [show ({ s with zeroing := s.zeroing.filter (fun y => y ≠ x) } : State).walk part va = .leaf l from leaf]
  exact congrArg _ (if_pos same)

theorem zeroingComplete_changed (changed : ∀ l, s.walk part va = .leaf l → l.raw ≠ x.2.2) :
    exec (.zeroingComplete part va) s = .next { s with zeroing := s.zeroing.filter (fun y => y ≠ x) } := by
  rw [exec_zeroingComplete, execZeroingComplete, found]
  dsimp only
  split
  · next l leaf => exact congrArg _ (if_neg (changed l leaf))
  · rfl

end

/-! ### The promote pool (R351) -/

section
variable {s : State} {p frame : Nat}

/-- CONSUMER of a partition's pool, stepped back. -/
def State.poolBack (s : State) (p : Nat) : Nat := (memNat s.kmem ((s.part p).pool.base + 8) 8 + 2 ^ 64 - 1) % 2 ^ 64

theorem poolReturn_eq : s.poolReturn p frame = { s with
    kmem := memSet (memSet s.kmem ((s.part p).pool.base + 64 + s.poolBack p % (s.part p).pool.n * 8) 8 frame)
      ((s.part p).pool.base + 8) 8 (s.poolBack p) } := rfl

theorem consumer_poolReturn (wf : Memory.wf s.kmem = true) :
    memNat (s.poolReturn p frame).kmem ((s.part p).pool.base + 8) 8 = s.poolBack p := by
  rw [poolReturn_eq, memNat_memSet _ _ _ (memSet_wf _ _ _ wf)]
  exact Nat.mod_mod _ _

theorem frame_poolReturn (wf : Memory.wf s.kmem = true) :
    memNat (s.poolReturn p frame).kmem ((s.part p).pool.base + 64 + s.poolBack p % (s.part p).pool.n * 8) 8 = frame % 2 ^ 64 := by
  rw [poolReturn_eq, memNat_memSet_other _ _ _ _ _ _ (.inr (by omega))]
  exact memNat_memSet _ 8 _ wf

theorem memGet_poolReturn_other {a : Nat} (consumer : a < (s.part p).pool.base + 8 ∨ (s.part p).pool.base + 16 ≤ a)
    (entry : a < (s.part p).pool.base + 64 + s.poolBack p % (s.part p).pool.n * 8 ∨
      (s.part p).pool.base + 72 + s.poolBack p % (s.part p).pool.n * 8 ≤ a) :
    memGet (s.poolReturn p frame).kmem a = memGet s.kmem a := by
  rw [poolReturn_eq, memSet, memSet, memGet_memWrite_other _ _ _ _ (by rw [leBytes_length]; omega),
    memGet_memWrite_other _ _ _ _ (by rw [leBytes_length]; omega)]

end

/-! ### The leaf of a page brought in (R346, R351) -/

/-- The bits that a promoted leaf clears or sets anew. -/
theorem promoted_masks : ∀ i, i < 64 → ((3#64 <<< 61).getLsbD i = decide (i = 61 ∨ i = 62) ∧ (1#64 <<< 56).getLsbD i = decide (i = 56) ∧
    (1#64 <<< 54).getLsbD i = decide (i = 54) ∧ (0xFFFFFFFFF#64 <<< 16).getLsbD i = decide (16 ≤ i ∧ i < 52) ∧
    (0xFFFFFFFFF#64).getLsbD i = decide (i < 36)) := by decide

theorem getLsbD_promoted (old : Word) (frame : Nat) {i : Nat} (h : i < 64) : (promoted old frame).getLsbD i =
    if i = 54 ∨ i = 56 ∨ i = 61 ∨ i = 62 then false else if 16 ≤ i ∧ i < 52 then (frame / 65536).testBit (i - 16) else old.getLsbD i := by
  obtain ⟨tier, p, mig, field_, -⟩ := promoted_masks i h
  obtain ⟨-, -, -, -, width⟩ := promoted_masks (i - 16) (by omega)
  have low : i - 16 < 64 := by omega
  have inside : (!decide (i < 16) && decide (i - 16 < 36)) = decide (16 ≤ i ∧ i < 52) := by
    rw [Bool.eq_iff_iff]
    simp
    omega
  have bits : (promoted old frame).getLsbD i =
      ((old.getLsbD i && !decide (i = 61 ∨ i = 62) && !decide (i = 56) && !decide (i = 54) && !decide (16 ≤ i ∧ i < 52)) ||
        ((frame / 65536).testBit (i - 16) && decide (16 ≤ i ∧ i < 52))) := by
    rw [← inside, ← Bool.and_left_comm]
    simp only [promoted, BitVec.getLsbD_or, BitVec.getLsbD_and, BitVec.getLsbD_not, BitVec.getLsbD_ofNat,
      BitVec.getLsbD_shiftLeft (BitVec.ofNat 64 (frame / 65536) &&& _), tier, p, mig, field_, width, h, low, inside, decide_true, Bool.true_and]
  rw [bits]
  by_cases cleared : i = 54 ∨ i = 56 ∨ i = 61 ∨ i = 62
  · rw [if_pos cleared]
    rcases cleared with rfl | rfl | rfl | rfl <;> simp
  · have kept : i ≠ 61 ∧ i ≠ 62 ∧ i ≠ 56 ∧ i ≠ 54 := by omega
    rw [if_neg cleared]
    by_cases framed : 16 ≤ i ∧ i < 52 <;> simp [kept, framed]

/-! ### PAGE_IN (R351) -/

section
variable {s : State} {x : PageIn} {l : Leaf}

/-- The leaf of a page-in is still the old one with MIG (R351). -/
def StillOld (s : State) (x : PageIn) (l : Leaf) : Prop :=
  s.walk x.part x.va = .leaf l ∧ l.big = false ∧ l.raw = x.old ||| (1#64 <<< 54)

theorem stillMigrating_old (old : StillOld s x l) : s.stillMigrating x = some l.entry := by
  obtain ⟨leaf, small, raw⟩ := old
  rw [State.stillMigrating, leaf]
  exact if_pos (by simp [small, raw])

theorem stillMigrating_changed (changed : ∀ l, ¬ StillOld s x l) : s.stillMigrating x = none := by
  unfold State.stillMigrating
  split
  · next l leaf => exact if_neg fun h => changed l ⟨leaf, by simpa using h⟩
  · rfl

/-- The page-in has ended, and its bytes are counted. -/
def State.copyEnded (s : State) (x : PageIn) : State :=
  ({ s with pageIns := s.pageIns.filter (fun y => y ≠ x) } : State).meter x.part 7 65536

/-- The frame goes back to the pool, and a record of kind 2 is made. -/
def State.dropPageIn (s : State) (x : PageIn) : State := (s.poolReturn x.part x.frame).tierRecord x.part x.va 4 2 0 65535 x.frame

theorem pageInEnd_changed (changed : ∀ l, ¬ StillOld s x l) : s.pageInEnd x = (s.copyEnded x).dropPageIn x := by
  rw [State.pageInEnd, stillMigrating_changed changed]
  rfl

theorem pageInEnd_bad (old : StillOld s x l) (bad : s.physBad true x.far 65536 = true) :
    s.pageInEnd x = ({ s.copyEnded x with kmem := memSet s.kmem l.entry 8 x.old.toNat } : State).dropPageIn x := by
  rw [State.pageInEnd, stillMigrating_old old]
  exact if_pos bad

/-- The page stands in its new frame, under its new leaf. -/
def State.pageCopied (s : State) (x : PageIn) (l : Leaf) : State :=
  { s.copyEnded x with
    hbm := copyInto s.far s.hbm x.far x.frame 65536
    bad := { s.bad with hbm := clearMarks s.bad.hbm x.frame 65536 }
    kmem := memSet s.kmem l.entry 8 (promoted x.old x.frame).toNat }

theorem pageInEnd_good (old : StillOld s x l) (good : s.physBad true x.far 65536 = false) :
    s.pageInEnd x = ((s.pageCopied x l).meter x.part 8 1).tierRecord x.part x.va 4 1 0 65535 x.far := by
  rw [State.pageInEnd, stillMigrating_old old]
  exact if_neg (ne_true_of_eq_false good)

variable {part va : Nat}

theorem pageIn_none (gone : s.pageIns.find? (fun x => x.part = part && x.va = va / 65536 * 65536) = none) :
    exec (.pageIn part va) s = .next s := by
  rw [exec_pageIn, execPageIn, gone]

theorem pageIn_ends (found : s.pageIns.find? (fun x => x.part = part && x.va = va / 65536 * 65536) = some x) :
    exec (.pageIn part va) s = .next (s.pageInEnd x) := by
  rw [exec_pageIn, execPageIn, found]

end

end Sys2Proof.Machine
end

section
namespace Sys2Proof.Machine

open Sys2Proof Sys2Proof.Safety

/-- Settles O58: each command by its phase and its test; a page-in by whether its leaf is still the old one and its far data good. -/
theorem windowsAndPages : Obligations.WindowsAndPages := by
  unfold Obligations.WindowsAndPages
  refine ⟨fun w part base limit key r wr s => ⟨fun stopped => congrArg _ (if_pos stopped), wopen_refused, fun running legal => ?_⟩,
    fun part device w key s => ⟨fun stopped => ⟨congrArg _ (if_pos stopped), congrArg _ (if_pos stopped)⟩, grant_refused,
      fun running live => ⟨_, grant_replaces running live, rfl, fun g => ?_⟩,
      fun running => ⟨_, ungrant_running running, rfl, fun g => mem_dropGrant⟩⟩,
    fun w s => ⟨fun stopped => congrArg _ (if_pos stopped), wrevoke_free, fun running used => ?_, wrevokeDrainEnd_early,
      fun low revoking still => ?_⟩,
    fun part va s => ⟨pageZeroing_stays, fun l may => ⟨_, _, pageZeroing_zeroes may, rfl, rfl, fun a => memGet_memClear _ _ _ _⟩⟩,
    fun part va s => ⟨zeroingComplete_none, fun x found => ⟨fun l leaf same => zeroingComplete_clears found leaf same,
      zeroingComplete_changed found⟩⟩,
    fun part va s => ⟨pageIn_none, fun x found => ?_⟩,
    fun old frame i h => getLsbD_promoted old frame h,
    fun p frame s => ⟨rfl, fun wf => ⟨consumer_poolReturn wf, fun _ => frame_poolReturn wf, fun a => memGet_poolReturn_other⟩⟩⟩
  · exact ⟨_, wopen_opens running legal, rfl, fun v other => State.window_modWindow_other s _ (Ne.symm other), State.window_modWindow_same ..⟩
  · simp [mem_dropGrant]
  · exact ⟨_, wrevoke_starts running used, rfl, fun v other => State.window_modWindow_other s _ (Ne.symm other), State.window_modWindow_same ..⟩
  · exact ⟨_, wrevokeDrainEnd_frees ⟨low, revoking, still⟩, rfl, fun v other => State.window_modWindow_other s _ (Ne.symm other),
      State.window_modWindow_same s w Window.freed⟩
  · rw [pageIn_ends found]
    exact ⟨fun changed => congrArg _ (pageInEnd_changed changed), fun l old bad => congrArg _ (pageInEnd_bad old bad),
      fun l old good => ⟨s.pageCopied x l, congrArg _ (pageInEnd_good old good), rfl,
        fun hbm far a => memGet_copyInto _ _ _ _ far hbm⟩⟩

end Sys2Proof.Machine
end

section
namespace Sys2Proof.Machine

open Sys2Proof Sys2Proof.Safety

/-! ### Parts of a block of bytes -/

theorem field_within {off n : Nat} (bs rest : List Byte) (h : off + n ≤ bs.length) : field (bs ++ rest) off n = field bs off n := by
  rw [field, field, List.drop_append_of_le_length (by omega), List.take_append_of_le_length (by rw [List.length_drop]; omega)]

theorem field_beyond {off n : Nat} (bs rest : List Byte) (h : bs.length ≤ off) :
    field (bs ++ rest) off n = field rest (off - bs.length) n := by
  rw [field, field, List.drop_append, List.drop_eq_nil_of_le h, List.nil_append]

theorem take_drop_middle {off n : Nat} (as bs cs : List Byte) (ha : as.length = off) (hb : bs.length = n) :
    ((as ++ (bs ++ cs)).drop off).take n = bs := by
  rw [List.drop_left' ha, List.take_left' hb]

/-- A row of numbers of one size. -/
def numberRow (size : Nat) (f : Nat → Nat) (k : Nat) : List Byte := ((upTo k).map (fun i => leBytes size (f i))).flatten

theorem numberRow_succ (size : Nat) (f : Nat → Nat) (k : Nat) : numberRow size f (k + 1) = numberRow size f k ++ leBytes size (f k) := by
  simp [numberRow, upTo]

@[simp] theorem numberRow_length (size : Nat) (f : Nat → Nat) : ∀ k, (numberRow size f k).length = size * k
  | 0 => rfl
  | k + 1 => by rw [numberRow_succ, List.length_append, numberRow_length size f k, leBytes_length, Nat.mul_succ]

theorem field_numberRow (size : Nat) (f : Nat → Nat) : ∀ {k i : Nat}, i < k → field (numberRow size f k) (size * i) size = f i % 256 ^ size
  | k + 1, i, h => by
    rw [numberRow_succ]
    by_cases last : i = k
    · subst last
      rw [field_beyond _ _ (by rw [numberRow_length]), numberRow_length, Nat.sub_self, field_only]
    · have before : i < k := by omega
      have inside : size * i + size ≤ size * k := Nat.mul_le_mul_left size before
      rw [field_within _ _ (by rwa [numberRow_length]), field_numberRow size f before]

theorem padded_length (bs : List Byte) (n : Nat) : ((bs ++ leBytes n 0).take n).length = n := by
  rw [List.length_take, List.length_append, leBytes_length]
  omega

/-! ### The security engine's hash and signature (R360, R362) -/

theorem shake256_length (m : List Byte) : (shake256 m).length = 64 := by
  unfold shake256
  simp [upTo]

section
variable {b : List Byte}

theorem signed_length (h : b.length = 256) : (signed b).length = 1536 := by
  rw [signed, List.length_append, padded_length, h]

theorem signed_signature (h : b.length = 256) :
    (signed b).drop 256 = (Config.falconSign ((signed b).take 256) ++ leBytes 1280 0).take 1280 := by
  rw [signed, List.drop_left' h, List.take_left' h]

theorem field_signed {off n : Nat} (h : off + n ≤ b.length) : field (signed b) off n = field b off n := field_within b _ h

theorem part_signed {off n : Nat} (h : off + n ≤ b.length) : ((signed b).drop off).take n = (b.drop off).take n := by
  rw [signed, List.drop_append_of_le_length (by omega), List.take_append_of_le_length (by rw [List.length_drop]; omega)]

end

/-! ### Usage records (R360) -/

section
variable (s : State) (p kind : Nat)

/-- Bytes 0 to 47 of a usage record. -/
def State.usageHead : List Byte :=
  leBytes 4 0x6D745201 ++ (leBytes 2 1 ++ (leBytes 2 1280 ++ (leBytes 8 s.serial.toNat ++ (leBytes 1 p ++ (leBytes 1 kind ++
    (leBytes 1 s.tb.tstate.toNat ++ (leBytes 1 0 ++ (leBytes 4 (s.part p).epoch ++ (leBytes 8 (s.part p).sequence ++
      (leBytes 8 s.tb.te ++ leBytes 8 s.tb.tl))))))))))

theorem usageHead_length : (s.usageHead p kind).length = 48 := by simp [State.usageHead]

/-- The twelve counters of a partition. -/
def State.countersRow : List Byte := numberRow 8 (fun i => (rowGet 0 (s.part p).counters i).toNat) 12

/-- Bytes 144 to 207: the hash of the record before. -/
def State.hashField : List Byte := ((s.part p).prevHash ++ leBytes 64 0).take 64

theorem usageBody_eq : s.usageBody p kind =
    s.usageHead p kind ++ (s.countersRow p ++ (s.hashField p ++ (leBytes 4 (s.part p).skipped ++ leBytes 44 0))) := by
  simp only [State.usageBody, State.usageHead, State.countersRow, State.hashField, numberRow, List.append_assoc]

theorem countersRow_length : (s.countersRow p).length = 96 := numberRow_length _ _ _

theorem hashField_length : (s.hashField p).length = 64 := padded_length _ _

theorem usageBody_length : (s.usageBody p kind).length = 256 := by
  simp [usageBody_eq, usageHead_length, countersRow_length, hashField_length]

theorem usageRecord_length : (s.usageRecord p kind).length = 1536 := signed_length (usageBody_length s p kind)

theorem usageRecord_signature : (s.usageRecord p kind).drop 256 =
    (Config.falconSign ((s.usageRecord p kind).take 256) ++ leBytes 1280 0).take 1280 := signed_signature (usageBody_length s p kind)

theorem field_usageRecord {off n : Nat} (h : off + n ≤ 256) : field (s.usageRecord p kind) off n = field (s.usageBody p kind) off n :=
  field_signed (by rwa [usageBody_length])

theorem usageRecord_head {off n : Nat} (h : off + n ≤ 48) : field (s.usageRecord p kind) off n = field (s.usageHead p kind) off n := by
  rw [field_usageRecord s p kind (by omega), usageBody_eq, field_within _ _ (by rwa [usageHead_length])]

theorem usageRecord_counter {i : Nat} (h : i < 12) :
    field (s.usageRecord p kind) (48 + 8 * i) 8 = (rowGet 0 (s.part p).counters i).toNat := by
  rw [field_usageRecord s p kind (by omega), usageBody_eq, field_beyond _ _ (by rw [usageHead_length]; omega), usageHead_length,
    Nat.add_sub_cancel_left, field_within _ _ (by rw [countersRow_length]; omega), State.countersRow, field_numberRow 8 _ h]
  exact Nat.mod_eq_of_lt (BitVec.isLt _)

theorem usageRecord_hash : ((s.usageRecord p kind).drop 144).take 64 = ((s.part p).prevHash ++ leBytes 64 0).take 64 := by
  rw [State.usageRecord, part_signed (by rw [usageBody_length]; omega), usageBody_eq, ← List.append_assoc]
  exact take_drop_middle _ _ _ (by rw [List.length_append, usageHead_length, countersRow_length]) (hashField_length s p)

theorem usageRecord_skipped : field (s.usageRecord p kind) 208 4 = (s.part p).skipped % 2 ^ 32 := by
  rw [field_usageRecord s p kind (by omega), usageBody_eq, field_beyond _ _ (by simp [usageHead_length]),
    field_beyond _ _ (by simp [usageHead_length, countersRow_length]),
    field_beyond _ _ (by simp [usageHead_length, countersRow_length, hashField_length]), usageHead_length, countersRow_length,
    hashField_length]
  exact field_first 4 _ _

theorem usageRecord_kind : field (s.usageRecord p kind) 17 1 = kind % 256 := by
  rw [usageRecord_head s p kind (by omega)]
  simp [State.usageHead, field_later, field_first]

theorem usageRecord_sequence : field (s.usageRecord p kind) 24 8 = (s.part p).sequence % 2 ^ 64 := by
  rw [usageRecord_head s p kind (by omega)]
  simp [State.usageHead, field_later, field_first]

/-- The other fields of the first 48 bytes. -/
theorem usageRecord_start : let r := s.usageRecord p kind
    field r 0 4 = 0x6D745201 ∧ field r 4 2 = 1 ∧ field r 6 2 = 1280 ∧ field r 8 8 = s.serial.toNat ∧ field r 16 1 = p % 256 ∧
      field r 18 1 = s.tb.tstate.toNat ∧ field r 20 4 = (s.part p).epoch % 2 ^ 32 ∧ field r 32 8 = s.tb.te % 2 ^ 64 ∧
      field r 40 8 = s.tb.tl % 2 ^ 64 := by
  have serial : s.serial.toNat < 18446744073709551616 := s.serial.isLt
  have tstate : s.tb.tstate.toNat < 256 := Nat.lt_trans s.tb.tstate.isLt (by decide)
  refine ⟨?_, ?_, ?_, ?_, ?_, ?_, ?_, ?_, ?_⟩ <;> rw [usageRecord_head s p kind (by omega)] <;>
    simp [State.usageHead, field_later, field_first, field_only, Nat.mod_eq_of_lt serial, Nat.mod_eq_of_lt tstate]

end

/-! ### Attestation reports (R362) -/

section
variable (s : State) (p : Byte) (nonce : List Byte)

/-- Bytes 144 to 167 of a report. -/
def State.reportFields : List Byte :=
  leBytes 1 p.toNat ++ (leBytes 3 0 ++ (leBytes 4 (if p = 0xFF#8 then 0 else (s.part p.toNat).epoch) ++ (leBytes 8 s.tb.te ++ leBytes 8 s.tb.tl)))

/-- Bytes 168 to 231: the hash of the CREATE block. -/
def State.blockHash : List Byte := if p = 0xFF#8 then leBytes 64 0 else shake256 (s.part p.toNat).block

/-- Bytes 0 to 15 of a report. -/
def State.reportHead : List Byte := leBytes 4 0x5A710C3E ++ (leBytes 2 1 ++ (leBytes 2 0 ++ leBytes 8 s.serial.toNat))

theorem reportBody_eq : s.reportBody p nonce = s.reportHead ++ ((s.fwmeas ++ leBytes 64 0).take 64 ++ ((nonce ++ leBytes 64 0).take 64 ++
    (s.reportFields p ++ (s.blockHash p ++ leBytes 24 0)))) := by
  have byte : [p] = leBytes 1 p.toNat := by simp [leBytes]
  simp only [State.reportBody, State.reportHead, State.reportFields, State.blockHash, byte, List.append_assoc]

theorem reportHead_length : s.reportHead.length = 16 := by simp [State.reportHead]

theorem reportFields_length : (s.reportFields p).length = 24 := by simp [State.reportFields]

theorem blockHash_length : (s.blockHash p).length = 64 := by
  unfold State.blockHash
  split
  · exact leBytes_length _ _
  · exact shake256_length _

theorem reportBody_length : (s.reportBody p nonce).length = 256 := by
  simp [reportBody_eq, reportHead_length, reportFields_length, blockHash_length, -List.length_take, padded_length]

/-- A report. -/
def State.attestation : List Byte := signed (s.reportBody p nonce)

theorem attestation_length : (s.attestation p nonce).length = 1536 := signed_length (reportBody_length s p nonce)

theorem attestation_signature : (s.attestation p nonce).drop 256 =
    (Config.falconSign ((s.attestation p nonce).take 256) ++ leBytes 1280 0).take 1280 := signed_signature (reportBody_length s p nonce)

theorem field_attestation {off n : Nat} (h : off + n ≤ 256) : field (s.attestation p nonce) off n = field (s.reportBody p nonce) off n :=
  field_signed (by rwa [reportBody_length])

theorem part_attestation {off n : Nat} (h : off + n ≤ 256) :
    ((s.attestation p nonce).drop off).take n = ((s.reportBody p nonce).drop off).take n :=
  part_signed (by rwa [reportBody_length])

theorem attestation_head {off n : Nat} (h : off + n ≤ 16) : field (s.attestation p nonce) off n = field s.reportHead off n := by
  rw [field_attestation s p nonce (by omega), reportBody_eq, field_within _ _ (by rwa [reportHead_length])]

theorem attestation_fwmeas : ((s.attestation p nonce).drop 16).take 64 = (s.fwmeas ++ leBytes 64 0).take 64 := by
  rw [part_attestation s p nonce (by omega), reportBody_eq]
  exact take_drop_middle _ _ _ (reportHead_length s) (padded_length _ _)

theorem attestation_nonce : ((s.attestation p nonce).drop 80).take 64 = (nonce ++ leBytes 64 0).take 64 := by
  rw [part_attestation s p nonce (by omega), reportBody_eq, ← List.append_assoc]
  exact take_drop_middle _ _ _ (by rw [List.length_append, reportHead_length, padded_length]) (padded_length _ _)

theorem attestation_blockHash : ((s.attestation p nonce).drop 168).take 64 = s.blockHash p := by
  rw [part_attestation s p nonce (by omega), reportBody_eq, ← List.append_assoc, ← List.append_assoc, ← List.append_assoc]
  refine take_drop_middle _ _ _ ?_ (blockHash_length s p)
  simp only [List.length_append, reportHead_length, padded_length, reportFields_length]

theorem attestation_field {off n : Nat} (h : off + n ≤ 24) : field (s.attestation p nonce) (144 + off) n = field (s.reportFields p) off n := by
  rw [field_attestation s p nonce (by omega), reportBody_eq, field_beyond _ _ (by rw [reportHead_length]; omega),
    field_beyond _ _ (by rw [padded_length, reportHead_length]; omega),
    field_beyond _ _ (by rw [padded_length, padded_length, reportHead_length]; omega), reportHead_length, padded_length, padded_length,
    show 144 + off - 16 - 64 - 64 = off by omega, field_within _ _ (by rwa [reportFields_length])]

theorem attestation_start :
    field (s.attestation p nonce) 0 4 = 0x5A710C3E ∧ field (s.attestation p nonce) 4 2 = 1 ∧
      field (s.attestation p nonce) 8 8 = s.serial.toNat := by
  have serial : s.serial.toNat < 18446744073709551616 := s.serial.isLt
  refine ⟨?_, ?_, ?_⟩ <;> rw [attestation_head s p nonce (by omega)] <;>
    simp [State.reportHead, field_later, field_first, field_only, Nat.mod_eq_of_lt serial]

theorem attestation_part : field (s.attestation p nonce) 144 1 = p.toNat := by
  have byte : p.toNat < 256 := p.isLt
  rw [attestation_field s p nonce (off := 0) (by omega), State.reportFields, field_first]
  exact Nat.mod_eq_of_lt byte

theorem attestation_epoch :
    field (s.attestation p nonce) 148 4 = (if p = 0xFF#8 then 0 else (s.part p.toNat).epoch) % 2 ^ 32 := by
  rw [attestation_field s p nonce (off := 4) (by omega)]
  simp [State.reportFields, field_later, field_first]

theorem attestation_te : field (s.attestation p nonce) 152 8 = s.tb.te % 2 ^ 64 := by
  rw [attestation_field s p nonce (off := 8) (by omega)]
  simp [State.reportFields, field_later, field_first]

theorem attestation_tl : field (s.attestation p nonce) 160 8 = s.tb.tl % 2 ^ 64 := by
  rw [attestation_field s p nonce (off := 16) (by omega)]
  simp [State.reportFields, field_later, field_only]

end

end Sys2Proof.Machine
end

section
namespace Sys2Proof.Machine

open Sys2Proof Sys2Proof.Safety

/-! ### The fields of a CREATE block (R341) -/

/-- A power of two in a range. -/
def IsPower (lo hi n : Nat) : Prop := lo ≤ n ∧ n ≤ hi ∧ ∃ i, i < 64 ∧ n = 2 ^ i

theorem powerIn_iff {lo hi n : Nat} : powerIn lo hi n = true ↔ IsPower lo hi n := by
  simp [powerIn, IsPower, and_assoc]

theorem mem_livePartitions {s : State} {q : Nat} : q ∈ s.livePartitions ↔ q < 16 ∧ (s.part q).live = true := by
  simp [State.livePartitions]

section
variable (s : State) (b : List Byte)

/-- A number of a partition that is not live (R341). -/
def PartFree : Prop := field b 0 1 < 16 ∧ (s.part (field b 0 1)).live = false

/-- A range of clusters that no live partition has (R341). -/
def RangeFree : Prop := field b 1 1 ≤ field b 2 1 ∧ field b 2 1 < s.nclusters ∧
  ∀ q, q < 16 ∧ (s.part q).live = true → ¬ (field b 1 1 < (s.part q).hi + 1 ∧ (s.part q).lo < field b 2 1 + 1)

/-- Colours, some, that no live partition has (R341). -/
def ColoursFree : Prop := field b 4 2 ≠ 0 ∧
  ∀ q, q < 16 ∧ (s.part q).live = true → (s.part q).colours &&& BitVec.ofNat 16 (field b 4 2) = 0#16

/-- An image, a place of the tables away from those of live partitions, and a ROOT within the image (R341). -/
def ImageLegal : Prop := field b 8 8 % 4096 = 0 ∧ field b 16 8 % 4096 = 0 ∧ 4096 ≤ field b 16 8 ∧ field b 16 8 ≤ 2 ^ 34 ∧
  field b 24 8 % 4096 = 0 ∧ field b 32 8 % 32768 = 0 ∧ field b 32 8 + 32768 ≤ field b 16 8 ∧
  ∀ q, q < 16 ∧ (s.part q).live = true →
    ¬ (field b 24 8 < (s.part q).tableBase + (s.part q).tableLen ∧ (s.part q).tableBase < field b 24 8 + field b 16 8)

/-- Reserved fields of zero, legal rings and a legal period (R341). -/
def RestLegal : Prop := field b 3 1 = 0 ∧ field b 6 2 = 0 ∧ field b 40 8 % 64 = 0 ∧ IsPower 4 1048576 (field b 48 4) ∧ 10 ≤ field b 52 4 ∧
  field b 52 4 ≤ 10000 ∧ field b 56 8 % 64 = 0 ∧ IsPower 16 1048576 (field b 64 4) ∧
  (field b 68 4 = 0 ∨ (IsPower 1 1048576 (field b 68 4) ∧ field b 72 8 % 64 = 0)) ∧ field b 80 48 = 0

variable {s b}

/-- What the checks with each status require together (R341, R342). -/
def StatusClear (s : State) (b : List Byte) : Nat → Prop
  | 1 => PartFree s b
  | 2 => RangeFree s b
  | 3 => ColoursFree s b
  | 4 => RestLegal b
  | 5 => ImageLegal s b
  | _ => s.epochNext < s.epochMax

/-- The status is that of a check that fails: there is none where the checks of every status pass, and else those of the status do not all. -/
theorem find_failing {checks : List (Bool × Nat)} {P : Nat → Prop} (known : ∀ x ∈ checks, x.2 < 7 ∧ x.2 ≠ 0)
    (together : ∀ k, k < 7 → k ≠ 0 → ((∀ x ∈ checks, x.2 = k → x.1 = true) ↔ P k)) :
    ((checks.find? (fun c => !c.1)).map (·.2) = none ↔ ∀ k, k < 7 → k ≠ 0 → P k) ∧
    ∀ c, (checks.find? (fun c => !c.1)).map (·.2) = some c → c < 7 ∧ c ≠ 0 ∧ ¬ P c := by
  refine ⟨?_, fun c h => ?_⟩
  · rw [Option.map_eq_none_iff, List.find?_eq_none]
    constructor
    · exact fun pass k low high => (together k low high).mp fun x at_ _ => by simpa using pass x at_
    · intro clear x at_
      obtain ⟨low, high⟩ := known x at_
      simpa using (together x.2 low high).mpr (clear x.2 low high) x at_ rfl
  · obtain ⟨x, found, rfl⟩ := Option.map_eq_some_iff.mp h
    have at_ := List.mem_of_find?_eq_some found
    have fails : x.1 = false := by simpa using List.find?_some found
    obtain ⟨low, high⟩ := known x at_
    exact ⟨low, high, fun clear => ne_true_of_eq_false fails ((together x.2 low high).mpr clear x at_ rfl)⟩

theorem createStatus_checks : (s.createStatus b = none ↔ ∀ k, k < 7 → k ≠ 0 → StatusClear s b k) ∧
    ∀ c, s.createStatus b = some c → c < 7 ∧ c ≠ 0 ∧ ¬ StatusClear s b c := by
  have live (f : Partition → Bool) : (s.livePartitions.map s.part).all f = true ↔
      ∀ q, q < 16 ∧ (s.part q).live = true → f (s.part q) = true := by
    simp [List.all_map, mem_livePartitions]
  refine find_failing (by simp) fun k low high => ?_
  have cases_ : k = 1 ∨ k = 2 ∨ k = 3 ∨ k = 4 ∨ k = 5 ∨ k = 6 := by omega
  rcases cases_ with rfl | rfl | rfl | rfl | rfl | rfl <;>
    simp only [List.forall_mem_cons, List.not_mem_nil, false_implies, implies_true, and_true, Bool.and_eq_true, Bool.or_eq_true,
      decide_eq_true_eq, live, powerIn_iff, Bool.not_eq_true', spansMeet, Bool.and_eq_false_iff, decide_eq_false_iff_not, StatusClear,
      PartFree, RangeFree, ColoursFree, ImageLegal, RestLegal, not_and_or, or_and_left, and_assoc, true_and, forall_const,
      Nat.reduceEqDiff, OfNat.one_ne_ofNat, OfNat.ofNat_ne_one]
  -- the place of the tables is checked before ROOT
  exact ⟨fun ⟨source, length, least, most, place, apart, root, within⟩ => ⟨source, length, least, most, place, root, within, apart⟩,
    fun ⟨source, length, least, most, place, root, within, apart⟩ => ⟨source, length, least, most, place, apart, root, within⟩⟩

/-- A block passes where every field is legal (R341, R342). -/
theorem createStatus_none : s.createStatus b = none ↔
    PartFree s b ∧ RangeFree s b ∧ ColoursFree s b ∧ ImageLegal s b ∧ RestLegal b ∧ s.epochNext < s.epochMax := by
  rw [createStatus_checks.1]
  constructor
  · exact fun clear => ⟨clear 1 (by decide) (by decide), clear 2 (by decide) (by decide), clear 3 (by decide) (by decide),
      clear 5 (by decide) (by decide), clear 4 (by decide) (by decide), clear 6 (by decide) (by decide)⟩
  · rintro ⟨part, range, colours, image, rest, epoch⟩ k low high
    have cases_ : k = 1 ∨ k = 2 ∨ k = 3 ∨ k = 4 ∨ k = 5 ∨ k = 6 := by omega
    rcases cases_ with rfl | rfl | rfl | rfl | rfl | rfl <;> assumption

/-- The status of a block that does not pass is that of a field that breaks the table, or of an exhausted epoch counter. -/
theorem createStatus_some {c : Nat} (h : s.createStatus b = some c) : (c = 1 ∧ ¬ PartFree s b) ∨ (c = 2 ∧ ¬ RangeFree s b) ∨
    (c = 3 ∧ ¬ ColoursFree s b) ∨ (c = 5 ∧ ¬ ImageLegal s b) ∨ (c = 4 ∧ ¬ RestLegal b) ∨ (c = 6 ∧ s.epochMax ≤ s.epochNext) := by
  obtain ⟨low, high, broken⟩ := createStatus_checks.2 c h
  have cases_ : c = 1 ∨ c = 2 ∨ c = 3 ∨ c = 4 ∨ c = 5 ∨ c = 6 := by omega
  rcases cases_ with rfl | rfl | rfl | rfl | rfl | rfl
  · exact .inl ⟨rfl, broken⟩
  · exact .inr (.inl ⟨rfl, broken⟩)
  · exact .inr (.inr (.inl ⟨rfl, broken⟩))
  · exact .inr (.inr (.inr (.inr (.inl ⟨rfl, broken⟩))))
  · exact .inr (.inr (.inr (.inl ⟨rfl, broken⟩)))
  · exact .inr (.inr (.inr (.inr (.inr ⟨rfl, Nat.not_lt.mp broken⟩))))

end

end Sys2Proof.Machine
end

section
namespace Sys2Proof.Machine

open Sys2Proof Sys2Proof.Safety

/-! ### The tables of a partition read (R346, R348, R349, R359) -/

section
variable (s : State) (p : Nat)

/-- The leaves of a partition, each with the address that it maps from. -/
def State.leaves : List (Nat × Leaf) := (s.entries p).filterMap (fun x => x.2.map (fun l => (x.1, l)))

/-- Pages to zero that were not yet noted. -/
def State.newZeroes : List (Nat × Nat) :=
  (((s.leaves p).filter (fun x => x.2.z)).map (fun x => (p, x.1))).filter (fun x => !s.zPending.contains x)

/-- The units of HBM that the leaves count. -/
def State.leafUnits : Nat := ((s.leaves p).map (fun y => y.2.units)).foldl (· + ·) 0

theorem readTables_eq : s.readTables p = ({ s with
    notices := s.notices ++ ((s.entries p).filter (fun x => x.2.isNone)).map (fun x => Notice.malformed p x.1)
    zPending := s.zPending ++ s.newZeroes p } : State).modPart p (fun x => { x with hbmUnits := s.leafUnits p }) := by
  unfold State.readTables
  dsimp only
  rw [foldl_notify (fun x : Nat × Option Leaf => Notice.malformed p x.1)]
  rfl

theorem readTables_rest : s.readTables p =
    { s with zPending := (s.readTables p).zPending, parts := (s.readTables p).parts, notices := (s.readTables p).notices } := by
  rw [readTables_eq]
  rfl

theorem zPending_readTables : (s.readTables p).zPending = s.zPending ++ s.newZeroes p := by
  rw [readTables_eq]
  rfl

theorem notices_readTables : (s.readTables p).notices =
    s.notices ++ ((s.entries p).filter (fun x => x.2.isNone)).map (fun x => Notice.malformed p x.1) := by
  rw [readTables_eq]
  rfl

theorem part_readTables_same : (s.readTables p).part p = { s.part p with hbmUnits := s.leafUnits p } := by
  rw [readTables_eq, State.part_modPart_same]
  rfl

theorem part_readTables_other {q : Nat} (other : q ≠ p) : (s.readTables p).part q = s.part q := by
  rw [readTables_eq, State.part_modPart_other _ _ (Ne.symm other)]
  rfl

variable {s p}

theorem mem_newZeroes {x : Nat × Nat} :
    x ∈ s.newZeroes p ↔ (x.1 = p ∧ ∃ l, (x.2, some l) ∈ s.entries p ∧ l.z = true) ∧ x ∉ s.zPending := by
  obtain ⟨q, va⟩ := x
  simp only [State.newZeroes, State.leaves, List.mem_filter, List.mem_map, List.mem_filterMap, Prod.exists, Option.map_eq_some_iff,
    Prod.mk.injEq, Bool.not_eq_true', List.contains_eq_mem, decide_eq_false_iff_not]
  refine and_congr_left fun _ => ⟨?_, ?_⟩
  · rintro ⟨_, l, ⟨⟨a, _, at_, l', rfl, rfl, rfl⟩, z⟩, rfl, rfl⟩
    exact ⟨rfl, _, at_, z⟩
  · rintro ⟨rfl, l, at_, z⟩
    exact ⟨va, l, ⟨⟨va, some l, at_, l, rfl, rfl, rfl⟩, z⟩, rfl, rfl⟩

/-- A page to zero is noted once. -/
theorem mem_zPending_readTables {x : Nat × Nat} :
    x ∈ (s.readTables p).zPending ↔ x ∈ s.zPending ∨ (x.1 = p ∧ ∃ l, (x.2, some l) ∈ s.entries p ∧ l.z = true) := by
  rw [zPending_readTables, List.mem_append, mem_newZeroes]
  by_cases noted : x ∈ s.zPending <;> simp [noted]

end

/-! ### Usage records written (R360, R361) -/

section
variable {s : State} {p : Nat} {rec : List Byte}

theorem putUsage_rest : s.putUsage p rec =
    { s with kmem := ringPush s.kmem (s.part p).usage rec, parts := (s.putUsage p rec).parts } := rfl

theorem part_putUsage_same : (s.putUsage p rec).part p =
    { s.part p with sequence := (s.part p).sequence + 1, prevHash := shake256 rec, skipped := 0 } :=
  State.part_modPart_same ({ s with kmem := ringPush s.kmem (s.part p).usage rec } : State) p (fun x =>
    { x with sequence := x.sequence + 1, prevHash := shake256 rec, skipped := 0 })

theorem part_putUsage_other {q : Nat} (other : q ≠ p) : (s.putUsage p rec).part q = s.part q :=
  State.part_modPart_other ({ s with kmem := ringPush s.kmem (s.part p).usage rec } : State) _ (Ne.symm other)

end

/-! ### CREATE (R342) -/

section
variable (s : State) (b : List Byte)

/-- The partition that a block makes. -/
def State.newPartition : Partition := partitionOf b (s.part (field b 0 1)) s.epochNext s.tb.now

/-- The state before the new partition's tables are read: the epoch taken, the stores written with zero, the image copied. -/
def State.prepared : State :=
  let y := ((({ s with epochNext := s.epochNext + 1 } : State).zeroCores (field b 1 1) (field b 2 1)).modPart (field b 0 1)
    (fun _ => s.newPartition b)).zeroStaging (field b 0 1)
  { y with kmem := memCopy s.kmem (field b 8 8) (field b 24 8) (field b 16 8) }

/-- The state after the tables are read. -/
def State.tabled : State := (s.prepared b).readTables (field b 0 1)

/-- The opening record. -/
def State.openingRecord : List Byte := (s.tabled b).usageRecord (field b 0 1) 0

theorem create_eq : s.create b = (s.tabled b).putUsage (field b 0 1) (s.openingRecord b) := rfl

theorem part_prepared_same : (s.prepared b).part (field b 0 1) = s.newPartition b :=
  rowGet_rowMod_same ({} : Partition) s.parts (field b 0 1) (fun _ => s.newPartition b)

theorem part_prepared_other {q : Nat} (other : q ≠ field b 0 1) : (s.prepared b).part q = s.part q :=
  State.part_modPart_other s (fun _ => s.newPartition b) (Ne.symm other)

theorem part_tabled_same : (s.tabled b).part (field b 0 1) =
    { s.newPartition b with hbmUnits := ((s.tabled b).part (field b 0 1)).hbmUnits } := by
  rw [State.tabled, part_readTables_same, part_prepared_same]

/-- A state with the next epoch taken and, from another state, what CREATE writes. -/
def State.createdAs (s t : State) : State :=
  let rest : State := { s with parts := t.parts, spad := t.spad, obuf := t.obuf, bad := t.bad, cores := t.cores, kmem := t.kmem,
                               zPending := t.zPending, staging := t.staging, syncCodes := t.syncCodes, notices := t.notices }
  { rest with epochNext := s.epochNext + 1 }

theorem createdAs_eq (s t : State) : s.createdAs t = { s with
    parts := t.parts, spad := t.spad, obuf := t.obuf, bad := t.bad, cores := t.cores, kmem := t.kmem, zPending := t.zPending
    staging := t.staging, syncCodes := t.syncCodes, notices := t.notices, epochNext := s.epochNext + 1 } := rfl

theorem create_rest : s.create b = s.createdAs (s.create b) := by
  rw [createdAs_eq, create_eq]
  generalize s.openingRecord b = rec
  rw [State.tabled, readTables_eq]
  rfl

theorem part_create_same : (s.create b).part (field b 0 1) =
    { s.newPartition b with hbmUnits := ((s.create b).part (field b 0 1)).hbmUnits, sequence := 1, prevHash := shake256 (s.openingRecord b) } := by
  have tabled := part_tabled_same s b
  rw [create_eq]
  generalize s.openingRecord b = rec
  generalize ((s.tabled b).part (field b 0 1)).hbmUnits = units at tabled
  rw [part_putUsage_same, tabled]
  rfl

theorem part_create_other {q : Nat} (other : q ≠ field b 0 1) : (s.create b).part q = s.part q := by
  rw [create_eq, part_putUsage_other other, State.tabled, part_readTables_other _ _ other, part_prepared_other s b other]

theorem kmem_create : (s.create b).kmem =
    ringPush (memCopy s.kmem (field b 8 8) (field b 24 8) (field b 16 8)) (s.newPartition b).usage (s.openingRecord b) := by
  rw [create_eq]
  generalize s.openingRecord b = rec
  rw [putUsage_rest, part_tabled_same, State.tabled, readTables_eq]
  rfl

theorem openingRecord_length : (s.openingRecord b).length = 1536 := usageRecord_length _ _ _

theorem openingRecord_kind : field (s.openingRecord b) 17 1 = 0 := usageRecord_kind _ _ _

theorem openingRecord_sequence : field (s.openingRecord b) 24 8 = 0 := by
  rw [State.openingRecord, usageRecord_sequence, part_tabled_same]
  rfl

/-- The stores that CREATE clears are those of the state before the tables are read. -/
theorem create_stores : (s.create b).spad = (s.prepared b).spad ∧ (s.create b).obuf = (s.prepared b).obuf ∧
    (s.create b).staging = (s.prepared b).staging ∧ (s.create b).bad = (s.prepared b).bad ∧
    (s.create b).syncCodes = (s.prepared b).syncCodes ∧ (s.create b).cores = (s.prepared b).cores := by
  rw [create_eq, State.tabled, readTables_eq]
  exact ⟨rfl, rfl, rfl, rfl, rfl, rfl⟩

variable {s b}

/-- A place of the cores of a range of clusters, of stores of a size: also where the range is empty. -/
theorem clusterRange {lo hi size a : Nat} : (4 * lo * size + 0 ≤ a ∧ a < 4 * lo * size + 0 + 4 * (hi + 1 - lo) * size) ↔
    4 * lo * size ≤ a ∧ a < 4 * (hi + 1) * size := by
  rw [Nat.add_zero, ← Nat.add_mul]
  by_cases order : lo ≤ hi + 1
  · rw [show 4 * lo + 4 * (hi + 1 - lo) = 4 * (hi + 1) by omega]
  · have less : 4 * (hi + 1) * size ≤ 4 * lo * size := Nat.mul_le_mul_right size (by omega)
    rw [show 4 * lo + 4 * (hi + 1 - lo) = 4 * lo by omega]
    omega

theorem spad_create (a : Nat) : memGet (s.create b).spad a =
    if 4 * field b 1 1 * 4194304 ≤ a ∧ a < 4 * (field b 2 1 + 1) * 4194304 then 0#8 else memGet s.spad a := by
  obtain ⟨spad, -⟩ := create_stores s b
  rw [spad]
  simp only [← clusterRange]
  exact memGet_memClear s.spad _ _ a

theorem obuf_create (a : Nat) : memGet (s.create b).obuf a =
    if 4 * field b 1 1 * 1048576 ≤ a ∧ a < 4 * (field b 2 1 + 1) * 1048576 then 0#8 else memGet s.obuf a := by
  obtain ⟨-, obuf, -⟩ := create_stores s b
  rw [obuf]
  simp only [← clusterRange]
  exact memGet_memClear s.obuf _ _ a

/-- A staging line has a colour of the new partition. -/
theorem ownColour_created (line : Nat) :
    ((({ s with epochNext := s.epochNext + 1 } : State).zeroCores (field b 1 1) (field b 2 1)).modPart (field b 0 1)
      (fun _ => s.newPartition b)).ownColour (field b 0 1) line = (s.newPartition b).colours.getLsbD (Config.stagingColour line).toNat := by
  rw [State.ownColour, State.part_modPart_same]

theorem mem_staging_create {y : StageLine} :
    y ∈ (s.create b).staging ↔ y ∈ s.staging ∧ (s.newPartition b).colours.getLsbD (Config.stagingColour y.line).toNat = false := by
  obtain ⟨-, -, staging, -⟩ := create_stores s b
  rw [staging]
  refine List.mem_filter.trans (and_congr_right fun _ => ?_)
  rw [Bool.not_eq_true', ownColour_created]

theorem mem_badStaging_create {w : Nat} :
    w ∈ (s.create b).bad.staging ↔ w ∈ s.bad.staging ∧ (s.newPartition b).colours.getLsbD (Config.stagingColour (w / 8)).toNat = false := by
  obtain ⟨-, -, -, bad, -⟩ := create_stores s b
  rw [bad]
  refine List.mem_filter.trans (and_congr_right fun _ => ?_)
  rw [Bool.not_eq_true', ownColour_created]

theorem mem_syncCodes_create {y : Nat × Nat} : y ∈ (s.create b).syncCodes ↔
    y ∈ s.syncCodes ∧ ¬ (4 * field b 1 1 * 4194304 ≤ y.1 ∧ y.1 < 4 * (field b 2 1 + 1) * 4194304) := by
  obtain ⟨-, -, -, -, syncCodes, -⟩ := create_stores s b
  rw [syncCodes, ← clusterRange]
  refine List.mem_filter.trans (and_congr_right fun _ => ?_)
  simp [spadKey, imp_iff_not_or]

theorem core_create (c : Nat) : (s.create b).core c =
    if 4 * field b 1 1 ≤ c ∧ c < 4 * (field b 2 1 + 1) then { s.core c with records := [], badBanks := [] } else s.core c := by
  have range := clusterRange (lo := field b 1 1) (hi := field b 2 1) (size := 1) (a := c)
  simp only [Nat.mul_one, Nat.add_zero] at range
  simp only [← range]
  obtain ⟨-, -, -, -, -, cores⟩ := create_stores s b
  rw [State.core, cores]
  show rowGet ({} : CoreState) ((upTo (max s.cores.length (4 * field b 1 1 + 4 * (field b 2 1 + 1 - field b 1 1)))).map _) c = _
  by_cases listed : c < max s.cores.length (4 * field b 1 1 + 4 * (field b 2 1 + 1 - field b 1 1))
  · rw [rowGet_map_upTo _ _ listed]
    simp only [Bool.and_eq_true, decide_eq_true_eq]
    rfl
  · rw [rowGet_beyond _ _ _ (by rw [List.length_map, upTo_length]; omega), if_neg (by omega), State.core, rowGet_beyond _ _ _ (by omega)]

end

end Sys2Proof.Machine
end

section
namespace Sys2Proof.Machine

open Sys2Proof Sys2Proof.Safety

/-! ### USAGE and PERIODIC_USAGE_RECORD (R361) -/

section
variable {s : State} {p : Nat}

/-- A partition that meters: live, with no closing record made. -/
def Meters (s : State) (p : Nat) : Prop := p < 16 ∧ (s.part p).live = true ∧ (s.part p).heldClosing = none

theorem metered_iff : s.metered p = true ↔ Meters s p := by
  simp [State.metered, Meters, and_assoc]

theorem usage_running (running : s.phase = .running) : exec (.usage p) s = .next (if s.metered p && !s.usageFull p then
    (s.putUsage p (s.usageRecord p 2)).notify (.status 0) else s.notify (.status 1)) := congrArg _ (if_neg (not_not.mpr running))

theorem usage_written (running : s.phase = .running) (meters : Meters s p) (space : s.usageFull p = false) :
    exec (.usage p) s = .next ((s.putUsage p (s.usageRecord p 2)).notify (.status 0)) := by
  rw [usage_running running, if_pos (by simp [metered_iff.mpr meters, space])]

theorem usage_fails (running : s.phase = .running) (bad : ¬ (Meters s p ∧ s.usageFull p = false)) :
    exec (.usage p) s = .next (s.notify (.status 1)) := by
  rw [usage_running running, if_neg (by simpa [metered_iff] using bad)]

theorem usageDue_iff : s.usageDue p = true ↔ s.clocked = true ∧ Meters s p ∧ (s.part p).nextDue ≤ s.tb.now := by
  simp [State.usageDue, metered_iff, and_assoc]

/-- The next record of a partition is due a period later (R361). -/
def State.nextPeriod (s : State) (p : Nat) : State := s.modPart p (fun x => { x with nextDue := x.nextDue + x.period * 125000 })

theorem ticksPerMs_eq : ticksPerMs = 125000 := by decide

theorem periodicUsageRecord_early (early : ¬ (s.clocked = true ∧ Meters s p ∧ (s.part p).nextDue ≤ s.tb.now)) :
    exec (.periodicUsageRecord p) s = .next s := congrArg _ (if_neg (mt usageDue_iff.mp early))

theorem periodicUsageRecord_due (due : s.usageDue p = true) : exec (.periodicUsageRecord p) s = .next (if s.usageFull p then
      ({ s.nextPeriod p with kmem := ringDrop s.kmem ((s.nextPeriod p).part p).usage } : State).modPart p
        (fun x => { x with skipped := x.skipped + 1 })
    else (s.nextPeriod p).putUsage p (s.usageRecord p 1)) := by
  rw [exec_periodicUsageRecord, execPeriodicUsageRecord, if_pos due, ticksPerMs_eq]
  rfl

theorem periodicUsageRecord_skipped (due : s.usageDue p = true) (full : s.usageFull p = true) : exec (.periodicUsageRecord p) s =
    .next (({ s.nextPeriod p with kmem := ringDrop s.kmem (s.part p).usage } : State).modPart p (fun x => { x with skipped := x.skipped + 1 })) := by
  rw [periodicUsageRecord_due due, if_pos full, State.nextPeriod, State.part_modPart_same]

theorem periodicUsageRecord_written (due : s.usageDue p = true) (space : s.usageFull p = false) :
    exec (.periodicUsageRecord p) s = .next ((s.nextPeriod p).putUsage p (s.usageRecord p 1)) := by
  rw [periodicUsageRecord_due due, if_neg (ne_true_of_eq_false space)]

end

/-! ### HBMUNITS_SAMPLE (R359) -/

/-- A metering counter of a partition, raised by what the partition holds, if it is live. -/
def State.meterLive (s : State) (counter : Nat) (amount : Partition → Nat) (p : Nat) : State :=
  if (s.part p).live then s.meter p counter (amount (s.part p)) else s

theorem metered_meterLive (s : State) (counter : Nat) (amount : Partition → Nat) (p : Nat) : Metered s (s.meterLive counter amount p) := by
  unfold State.meterLive
  split
  · exact metered_meter (metered_refl s) _ _ _
  · exact metered_refl s

theorem counters_meterLive (s : State) (counter : Nat) (amount : Partition → Nat) (q p i : Nat) :
    rowGet 0 ((s.meterLive counter amount q).part p).counters i = rowGet 0 (s.part p).counters i +
      if i = counter ∧ p = q ∧ (s.part p).live = true then BitVec.ofNat 64 (amount (s.part p)) else 0#64 := by
  unfold State.meterLive
  cases live : (s.part q).live with
  | true =>
    rw [if_pos rfl, counters_meter]
    by_cases same : p = q
    · subst same
      simp [live]
    · simp [same]
  | false =>
    rw [if_neg (by decide), if_neg, BitVec.add_zero]
    rintro ⟨-, rfl, other⟩
    exact ne_true_of_eq_false live other

/-- The partitions of a list metered, one after the other. -/
def State.meterEach (s : State) (counter : Nat) (amount : Partition → Nat) (ps : List Nat) : State :=
  ps.foldl (fun s p => s.meterLive counter amount p) s

/-- With each partition once in the list, the counter of every live one rises by its amount, which metering leaves as it is. -/
theorem meterEach_counters (counter : Nat) {amount : Partition → Nat} (steady : ∀ x c, amount { x with counters := c } = amount x) :
    ∀ (ps : List Nat) (s : State), ps.Nodup → Metered s (s.meterEach counter amount ps) ∧ ∀ p i,
      rowGet 0 ((s.meterEach counter amount ps).part p).counters i = rowGet 0 (s.part p).counters i +
        if i = counter ∧ p ∈ ps ∧ (s.part p).live = true then BitVec.ofNat 64 (amount (s.part p)) else 0#64
  | [], s, _ => ⟨metered_refl s, fun p i => by simp [State.meterEach]⟩
  | q :: ps, s, once => by
    obtain ⟨fresh, once⟩ := List.nodup_cons.mp once
    have first := metered_meterLive s counter amount q
    obtain ⟨rest, counters⟩ := meterEach_counters counter steady ps (s.meterLive counter amount q) once
    refine ⟨first.trans rest, fun p i => (counters p i).trans ?_⟩
    have live : ((s.meterLive counter amount q).part p).live = (s.part p).live := by rw [first.parts p]
    have held : amount ((s.meterLive counter amount q).part p) = amount (s.part p) := by
      rw [first.parts p]
      exact steady _ _
    rw [live, held, counters_meterLive]
    by_cases same : p = q
    · subst same
      simp [fresh]
    · simp [same]

/-- Every live partition's HBMUNITS rises by the units that its leaves count (R359). -/
def State.unitsSampled (s : State) : State := ({ s with unitsDue := s.unitsDue + 1024 } : State).meterEach 9 Partition.hbmUnits (upTo 16)

section
variable {s : State}

theorem hbmunitsSample_early (early : ¬ (s.clocked = true ∧ s.unitsDue ≤ s.tb.now)) : exec .hbmunitsSample s = .next s :=
  congrArg _ (if_neg (by simpa using early))

theorem hbmunitsSample_due (clocked : s.clocked = true) (due : s.unitsDue ≤ s.tb.now) :
    exec .hbmunitsSample s = .next s.unitsSampled := by
  rw [exec_hbmunitsSample, execHbmunitsSample, if_pos (by simp [clocked, due])]
  rfl

theorem unitsSampled_effect : s.unitsSampled = { s with unitsDue := s.unitsDue + 1024, parts := s.unitsSampled.parts } ∧
    (∀ p, s.unitsSampled.part p = { s.part p with counters := (s.unitsSampled.part p).counters }) ∧
    ∀ p i, rowGet 0 (s.unitsSampled.part p).counters i = rowGet 0 (s.part p).counters i +
      (if i = 9 ∧ p < 16 ∧ (s.part p).live = true then BitVec.ofNat 64 (s.part p).hbmUnits else 0#64) := by
  obtain ⟨metered, counters⟩ := meterEach_counters 9 (amount := Partition.hbmUnits) (fun _ _ => rfl) (upTo 16)
    ({ s with unitsDue := s.unitsDue + 1024 } : State) (nodup_upTo 16)
  simp only [mem_upTo] at counters
  exact ⟨metered.rest, metered.parts, counters⟩

end

/-! ### ATTEST (R362) and INVALIDATE (R348) -/

section
variable {s : State} {part : Byte} {nonce : List Byte}

theorem attest_running (running : s.phase = .running) : exec (.attest part nonce) s =
    .next (if part = 0xFF#8 || (part.toNat < 16 && (s.part part.toNat).live) then
      (s.notify (.report (s.attestation part nonce))).notify (.status 0) else s.notify (.status 1)) :=
  congrArg _ (if_neg (not_not.mpr running))

theorem attest_refused (running : s.phase = .running) (bad : ¬ (part = 0xFF#8 ∨ (part.toNat < 16 ∧ (s.part part.toNat).live = true))) :
    exec (.attest part nonce) s = .next (s.notify (.status 1)) := by
  rw [attest_running running, if_neg (by simpa using bad)]

theorem attest_answers (running : s.phase = .running) (ok : part = 0xFF#8 ∨ (part.toNat < 16 ∧ (s.part part.toNat).live = true)) :
    exec (.attest part nonce) s = .next ((s.notify (.report (s.attestation part nonce))).notify (.status 0)) := by
  rw [attest_running running, if_pos (by simpa using ok)]

/-- A report on the device names no partition's epoch and block. -/
theorem attestation_device (dev : part = 0xFF#8) :
    field (s.attestation part nonce) 148 4 = 0 ∧ field (s.attestation part nonce) 168 64 = 0 := by
  constructor
  · rw [attestation_epoch, if_pos dev, Nat.zero_mod]
  · rw [field, attestation_blockHash, State.blockHash, if_pos dev, leNat_leBytes, Nat.zero_mod]

theorem attestation_partition (own : ¬ part = 0xFF#8) : field (s.attestation part nonce) 148 4 = (s.part part.toNat).epoch % 2 ^ 32 ∧
    ((s.attestation part nonce).drop 168).take 64 = shake256 (s.part part.toNat).block := by
  constructor
  · rw [attestation_epoch, if_neg own]
  · rw [attestation_blockHash, State.blockHash, if_neg own]

variable {p va len : Nat} {stores : List KStore}

theorem invalidate_refused (running : s.phase = .running) (dead : ((s.kstores stores).part p).live = false) :
    exec (.invalidate p va len stores) s = .next ((s.kstores stores).notify (.status 1)) := by
  rw [exec_invalidate, execInvalidate, if_neg (not_not.mpr running)]
  exact congrArg _ (if_pos (by simp [dead]))

theorem invalidate_reads (running : s.phase = .running) (live : ((s.kstores stores).part p).live = true) :
    let d := (s.kstores stores).readTables p
    exec (.invalidate p va len stores) s = .next { d with
      drains := d.drains ++ [(d.judgedRefs.filter (fun r => r.2.1 = p && rangesMeet r.2.2.2 8 va len)).map (·.1)] } := by
  rw [exec_invalidate, execInvalidate, if_neg (not_not.mpr running)]
  exact congrArg _ (if_neg (by simp [live]))

end

/-! ### DESTROY (R344, R361) -/

section
variable {s : State} {p : Nat}

theorem destroy_refused (running : s.phase = .running) (dead : (s.part p).live = false) :
    exec (.destroy p) s = .next (s.notify (.status 1)) := by
  rw [exec_destroy, execDestroy, if_neg (not_not.mpr running), if_pos (by simp [dead])]
  rfl

theorem destroy_again (running : s.phase = .running) (live : (s.part p).live = true) (closing : (s.part p).closing = true) :
    exec (.destroy p) s = .next s := by
  rw [exec_destroy, execDestroy, if_neg (not_not.mpr running), if_neg (by simp [live]), if_pos closing]

theorem destroy_resets (running : s.phase = .running) (live : (s.part p).live = true) (open_ : (s.part p).closing = false) :
    exec (.destroy p) s = .next ((upTo s.teams.length).foldl
      (fun s u => if (s.team u).live = true ∧ (s.team u).part = p then s.resetTeam u else s)
      (s.modPart p (fun x => { x with closing := true }))) := by
  rw [exec_destroy, execDestroy, if_neg (not_not.mpr running), if_neg (by simp [live]), if_neg (ne_true_of_eq_false open_)]
  simp only [Bool.and_eq_true, decide_eq_true_eq]
  rfl

/-- The partition's windows that are open start to be revoked (R357). -/
def State.windowsClosed (s : State) (p : Nat) : State := { s with windows := s.windows.map (fun w => w.close p) }

/-- No operation and no engine command of the partition is under way (R344). -/
def WorkEnded (s : State) (p : Nat) : Prop := s.opsEnded p = true ∧ ∀ c ∈ s.cmds, (s.team c.team).part = p → c.stage = .ended

/-- The partition's windows are FREE (R344). -/
def WindowsFree (s : State) (p : Nat) : Prop := ∀ w ∈ s.windows, w.part = p → w.state = .free

/-- The closing record is made (R361). -/
def State.closingMade (s : State) (p : Nat) : State := s.modPart p (fun x => { x with heldClosing := some (s.usageRecord p 3) })

theorem destroyCheck_closing (live : (s.part p).live = true) (closing : (s.part p).closing = true) : s.destroyCheck p =
    if (s.part p).heldClosing.isSome then s.writeClosing p
    else if !s.opsEnded p || s.cmds.any (fun c => (s.team c.team).part = p && c.stage ≠ .ended) then s
    else if (s.windowsClosed p).windows.any (fun w => w.part = p && w.state ≠ .free) then s.windowsClosed p
    else ((s.windowsClosed p).closingMade p).writeClosing p :=
  if_neg (by simp [live, closing])

theorem workEnded_iff : (!s.opsEnded p || s.cmds.any (fun c => (s.team c.team).part = p && c.stage ≠ .ended)) = false ↔ WorkEnded s p := by
  simp [WorkEnded]

theorem windowsFree_iff : s.windows.any (fun w => w.part = p && w.state ≠ .free) = false ↔ WindowsFree s p := by
  simp [WindowsFree]

section
variable (live : (s.part p).live = true) (closing : (s.part p).closing = true)
include live closing

theorem destroyCheck_writes (made : ∃ r, (s.part p).heldClosing = some r) : s.destroyCheck p = s.writeClosing p := by
  obtain ⟨r, made⟩ := made
  rw [destroyCheck_closing live closing, if_pos (by rw [made]; rfl)]

variable (none_ : (s.part p).heldClosing = none)
include none_

theorem destroyCheck_waits (works : ¬ WorkEnded s p) : s.destroyCheck p = s := by
  rw [destroyCheck_closing live closing, none_, if_neg (by decide), if_pos (eq_true_of_ne_false (mt workEnded_iff.mp works))]

theorem destroyCheck_ended (ended : WorkEnded s p) : s.destroyCheck p =
    if (s.windowsClosed p).windows.any (fun w => w.part = p && w.state ≠ .free) then s.windowsClosed p
    else ((s.windowsClosed p).closingMade p).writeClosing p := by
  rw [destroyCheck_closing live closing, none_, if_neg (by decide), if_neg (ne_true_of_eq_false (workEnded_iff.mpr ended))]

theorem destroyCheck_revokes (ended : WorkEnded s p) (used : ¬ WindowsFree (s.windowsClosed p) p) : s.destroyCheck p = s.windowsClosed p := by
  rw [destroyCheck_ended live closing none_ ended, if_pos (eq_true_of_ne_false (mt windowsFree_iff.mp used))]

theorem destroyCheck_closes (ended : WorkEnded s p) (free : WindowsFree (s.windowsClosed p) p) :
    s.destroyCheck p = ((s.windowsClosed p).closingMade p).writeClosing p := by
  rw [destroyCheck_ended live closing none_ ended, if_neg (ne_true_of_eq_false (windowsFree_iff.mpr free))]

end

variable {consumer : Word}

/-- The usage ring's CONSUMER as the kernel writes it (R361). -/
def State.usageTaken (s : State) (p : Nat) (consumer : Word) : State :=
  { s with kmem := memSet s.kmem ((s.part p).usage.base + 8) 8 consumer.toNat }

theorem writeClosing_none (none_ : (s.part p).heldClosing = none) : s.writeClosing p = s := by
  rw [State.writeClosing, none_]

theorem writeClosing_full (full : s.usageFull p = true) : s.writeClosing p = s := by
  rw [State.writeClosing]
  split
  · rfl
  · exact if_pos full

theorem writeClosing_space {r : List Byte} (made : (s.part p).heldClosing = some r) (space : s.usageFull p = false) :
    s.writeClosing p = (s.putUsage p r).freePartition p := by
  rw [State.writeClosing, made]
  exact if_neg (ne_true_of_eq_false space)

theorem usageRingSpace_stays (h : s.phase ≠ .running ∨ (s.part p).live = false) : exec (.usageRingSpace p consumer) s = .next s :=
  congrArg _ (if_pos (by simpa using h))

theorem usageRingSpace_takes (running : s.phase = .running) (live : (s.part p).live = true) :
    exec (.usageRingSpace p consumer) s = .next ((s.usageTaken p consumer).writeClosing p) :=
  congrArg _ (if_neg (by simp [running, live]))

end

/-! ### Held trap records (R366) -/

section
variable {s t : State} {p : Nat}

/-- Some held records of a partition have entered its trap ring, in order, until none is left or the ring takes none. -/
def Flushed (s t : State) (p : Nat) : Prop :=
  ∃ k, k ≤ (s.part p).held.length ∧ t = { s with kmem := t.kmem, parts := t.parts } ∧ (∀ q, q ≠ p → t.part q = s.part q) ∧
    t.part p = { s.part p with held := (s.part p).held.drop k } ∧
    t.kmem = ((s.part p).held.take k).foldl (fun m h => ringPush m (s.part p).trap h.bytes) s.kmem ∧
    (k = (s.part p).held.length ∨ (s.part p).trap.set = false ∨ ringFull t.kmem (s.part p).trap = true)

/-- The trap ring of a partition takes an entry. -/
def State.trapSpace (s : State) (p : Nat) : Bool := (s.part p).trap.set && !ringFull s.kmem (s.part p).trap

/-- A record enters the ring, and is the first held no more. -/
def State.flushOne (s : State) (p : Nat) (h : HeldTrap) : State :=
  ({ s with kmem := ringPush s.kmem (s.part p).trap h.bytes } : State).modPart p (fun y => { y with held := y.held.drop 1 })

/-- A list of records, each put into the ring where it has space. -/
def State.flushList (s : State) (p : Nat) (l : List HeldTrap) : State :=
  l.foldl (fun s h => if s.trapSpace p then s.flushOne p h else s) s

theorem flushTraps_eq : s.flushTraps p = s.flushList p (s.part p).held := rfl

theorem part_flushOne_same (h : HeldTrap) : (s.flushOne p h).part p = { s.part p with held := (s.part p).held.drop 1 } :=
  State.part_modPart_same ({ s with kmem := ringPush s.kmem (s.part p).trap h.bytes } : State) p (fun y => { y with held := y.held.drop 1 })

theorem part_flushOne_other {q : Nat} (h : HeldTrap) (other : q ≠ p) : (s.flushOne p h).part q = s.part q :=
  State.part_modPart_other ({ s with kmem := ringPush s.kmem (s.part p).trap h.bytes } : State) _ (Ne.symm other)

theorem flushed_blocked (blocked : s.trapSpace p = false) : Flushed s s p := by
  refine ⟨0, Nat.zero_le _, rfl, fun _ _ => rfl, rfl, rfl, .inr ?_⟩
  simpa [State.trapSpace, imp_iff_not_or] using blocked

theorem flushed_flushOne {h : HeldTrap} {l : List HeldTrap} (held : (s.part p).held = h :: l) (rest : Flushed (s.flushOne p h) t p) :
    Flushed s t p := by
  obtain ⟨k, few, same, others, part, kmem, ends⟩ := rest
  rw [part_flushOne_same, held] at few part kmem ends
  refine ⟨k + 1, ?_, ?_, fun q other => (others q other).trans (part_flushOne_other h other), ?_, ?_, ?_⟩
  · rw [held]
    exact Nat.succ_le_succ few
  · exact same
  · rw [part, held]
    rfl
  · rw [kmem, held]
    rfl
  · rw [held]
    exact ends.imp_left (congrArg (· + 1))

theorem flushList_flushed (p : Nat) : ∀ (l : List HeldTrap) (s : State), (s.part p).held = l → Flushed s (s.flushList p l) p
  | [], s, held => ⟨0, Nat.zero_le _, rfl, fun _ _ => rfl, rfl, rfl, .inl (by rw [held]; rfl)⟩
  | h :: l, s, held => by
    cases space : s.trapSpace p with
    | true =>
      have first : s.flushList p (h :: l) = (s.flushOne p h).flushList p l := congrArg (fun s => State.flushList s p l) (if_pos space)
      rw [first]
      exact flushed_flushOne held (flushList_flushed p l _ (by rw [part_flushOne_same, held]; rfl))
    | false =>
      have stays : s.flushList p (h :: l) = s := foldl_unchanged fun x _ => if_neg (ne_true_of_eq_false space)
      rw [stays]
      exact flushed_blocked space

variable {base n logBase logN : Nat}

/-- A partition whose trap ring and arithmetic log are set (R366). -/
def Partition.withRings (base n logBase logN : Nat) (x : Partition) : Partition :=
  { x with trap := { set := true, base := base, n := n }, log := { set := true, base := logBase, n := logN } }

theorem setrings_running (running : s.phase = .running) : exec (.setrings p base n logBase logN) s = .next
    (if (s.part p).live && powerIn 16 1048576 n && powerIn 16 1048576 logN then
      ((s.modPart p (Partition.withRings base n logBase logN)).flushTraps p).notify (.status 0) else s.notify (.status 1)) :=
  congrArg _ (if_neg (not_not.mpr running))

theorem setrings_refused (running : s.phase = .running)
    (bad : ¬ ((s.part p).live = true ∧ IsPower 16 1048576 n ∧ IsPower 16 1048576 logN)) :
    exec (.setrings p base n logBase logN) s = .next (s.notify (.status 1)) := by
  rw [setrings_running running, if_neg (by simpa [powerIn_iff, and_assoc] using bad)]

theorem setrings_sets (running : s.phase = .running) (ok : (s.part p).live = true ∧ IsPower 16 1048576 n ∧ IsPower 16 1048576 logN) :
    exec (.setrings p base n logBase logN) s = .next
      (((s.modPart p (Partition.withRings base n logBase logN)).flushTraps p).notify (.status 0)) := by
  rw [setrings_running running, if_pos (by simpa [powerIn_iff, and_assoc] using ok)]

variable {consumer : Word}

theorem trapRingSpace_stays (h : s.phase ≠ .running ∨ (s.part p).trap.set = false) : exec (.trapRingSpace p consumer) s = .next s :=
  congrArg _ (if_pos (by simpa using h))

theorem trapRingSpace_takes (running : s.phase = .running) (set : (s.part p).trap.set = true) : exec (.trapRingSpace p consumer) s =
    .next (({ s with kmem := memSet s.kmem ((s.part p).trap.base + 8) 8 consumer.toNat } : State).flushTraps p) :=
  congrArg _ (if_neg (by simp [running, set]))

end

/-! ### CREATE by its status (R341) -/

section
variable {s : State} {block : List Word} {stores : List KStore}

theorem create_refused (running : s.phase = .running) {code : Nat} (status : (s.kstores stores).createStatus (queueBytes block) = some code) :
    exec (.create block stores) s = .next ((s.kstores stores).notify (.status code)) := by
  unfold queueBytes at status
  rw [exec_create, execCreate, if_neg (not_not.mpr running)]
  dsimp only
  rw [status]
  rfl

theorem create_passes (running : s.phase = .running) (status : (s.kstores stores).createStatus (queueBytes block) = none) :
    exec (.create block stores) s = .next (((s.kstores stores).create (queueBytes block)).notify (.status 0)) := by
  unfold queueBytes at status
  rw [exec_create, execCreate, if_neg (not_not.mpr running)]
  dsimp only
  rw [status]
  rfl

end

end Sys2Proof.Machine
end

section
namespace Sys2Proof.Machine

open Sys2Proof Sys2Proof.Safety

/-- Settles O57: CREATE by the fields of its block; records and reports by their layouts; each other command by its phase, its test and
its effect; held trap records one by one. -/
theorem partitionCommands : Obligations.PartitionCommands := by
  unfold Obligations.PartitionCommands
  refine ⟨fun block stores s => ⟨fun stopped => congrArg _ (if_pos stopped), fun running =>
      ⟨fun code status => create_refused running status, fun status => create_passes running status⟩⟩,
    fun s b => ⟨createStatus_none, fun c status => createStatus_some status⟩,
    fun s b => ⟨s.openingRecord b, create_rest s b, fun q other => part_create_other s b other, part_create_same s b, rfl, rfl,
      kmem_create s b, openingRecord_length s b, openingRecord_kind s b, openingRecord_sequence s b, fun a => spad_create a,
      fun a => obuf_create a, fun y => mem_staging_create, fun w => mem_badStaging_create, fun y => mem_syncCodes_create, fun c => ?_⟩,
    fun m src dst n wf a => memGet_copyInto src dst n a wf wf,
    fun s p kind => ?_,
    fun p s => ⟨fun stopped => congrArg _ (if_pos stopped), usage_written, usage_fails, periodicUsageRecord_early,
      fun clocked meters due => ⟨periodicUsageRecord_skipped (usageDue_iff.mpr ⟨clocked, meters, due⟩),
        periodicUsageRecord_written (usageDue_iff.mpr ⟨clocked, meters, due⟩)⟩,
      fun rec => ⟨putUsage_rest, part_putUsage_same, fun q other => part_putUsage_other other⟩⟩,
    fun s => ⟨hbmunitsSample_early, fun clocked due => ⟨s.unitsSampled, hbmunitsSample_due clocked due, unitsSampled_effect⟩⟩,
    fun part nonce s => ⟨fun stopped => congrArg _ (if_pos stopped), attest_refused, fun running ok => ?_⟩,
    fun p va len stores s => ⟨fun stopped => congrArg _ (if_pos stopped), invalidate_refused,
      fun running live => ⟨_, _, invalidate_reads running live, rfl, rfl⟩⟩,
    fun p s => ⟨readTables_rest s p, fun q other => part_readTables_other s p other, notices_readTables s p, part_readTables_same s p,
      fun x => mem_zPending_readTables⟩,
    fun p s => ⟨fun stopped => congrArg _ (if_pos stopped), destroy_refused, destroy_again, destroy_resets⟩,
    fun p s live closing => ⟨destroyCheck_writes live closing, destroyCheck_waits live closing, destroyCheck_revokes live closing,
      destroyCheck_closes live closing⟩,
    fun p s consumer => ⟨usageRingSpace_stays, fun running live => ?_⟩,
    fun p base n logBase logN s => ⟨fun stopped => congrArg _ (if_pos stopped), setrings_refused, setrings_sets⟩,
    fun p s consumer => ⟨trapRingSpace_stays, trapRingSpace_takes⟩,
    fun p s => flushList_flushed p _ s rfl⟩
  · refine ⟨fun inside => ?_, fun outside => (core_create c).trans (if_neg outside)⟩
    rw [core_create, if_pos inside]
    exact ⟨rfl, rfl⟩
  · obtain ⟨magic, version, signature, serial, part, tstate, epoch, te, tl⟩ := usageRecord_start s p kind
    exact ⟨usageRecord_length s p kind, magic, version, signature, serial, part, usageRecord_kind s p kind, tstate, epoch,
      usageRecord_sequence s p kind, te, tl, fun i low => usageRecord_counter s p kind low, usageRecord_hash s p kind,
      usageRecord_skipped s p kind, usageRecord_signature s p kind⟩
  · obtain ⟨magic, version, serial⟩ := attestation_start s part nonce
    exact ⟨s.attestation part nonce, attest_answers running ok, attestation_length s part nonce, magic, version, serial,
      attestation_fwmeas s part nonce, attestation_nonce s part nonce, attestation_part s part nonce, attestation_device,
      attestation_partition, attestation_te s part nonce, attestation_tl s part nonce, attestation_signature s part nonce⟩
  · rw [usageRingSpace_takes running live]
    refine ⟨fun waits => congrArg _ ?_, fun r made space => congrArg _ (writeClosing_space made space)⟩
    exact waits.elim (writeClosing_none (s := s.usageTaken p consumer)) writeClosing_full

end Sys2Proof.Machine
end
